-- ==== Sys2Proof/Word.lean ====
section
/-! DEFINITION. The word types of the machine and the sparse table that holds files of registers, cores and squares. -/
namespace Sys2Proof

/-- A 64-bit register or address (07 R162). -/
abbrev Word := BitVec 64

/-- A byte of memory. -/
abbrev Byte := BitVec 8

/-- An instruction word (03 R53). -/
abbrev InsnWord := BitVec 32

/-- A sparse table: a list of keys and values; a key that is not listed holds the table's default. -/
abbrev SMap (α : Type) := List (Nat × α)

end Sys2Proof
end

