-- ==== Sys2Proof/Syntax.lean ====
section
/-! DEFINITION. The instructions and hardware steps: one constructor per row of spec/opcode_table.json.
Rows with an encoding carry their fields below the header in the table's order (03 R62), register fields unresolved;
the L bit belongs to the bundle (R54) and is no operand. Rows without an encoding are steps that the hardware or the
host makes (spec/95); they carry which square, core, context, channel or part makes the step.
The words come first, the steps last: compiled code can build the first 244 constructors only, so the decoder, which
builds five words beyond them, is noncomputable; the kernel evaluates all of them. -/
namespace Sys2Proof

/-- One instruction word, or one step of the hardware. -/
inductive Instr where
  /-- BR (R197): Conditional branch: if the condition holds on g(a), PC becomes the bundle address plus 4*imm12. -/
  | br (c : BitVec 6) (a : BitVec 6) (i : BitVec 12)
  /-- CALL (R197): Write the next bundle's address to g27 and jump by disp24 words. -/
  | call (j : BitVec 24)
  /-- JR (R197): Write the next bundle's address to g(d) and jump to g(a), with ALIGN on a misaligned target. -/
  | jr (d : BitVec 6) (a : BitVec 6)
  /-- BTAG (R199): Branch through an eight-entry table at g(a), indexed by the tag at the head of rx0. -/
  | btag (a : BitVec 6)
  /-- LOOP (R197): Decrement g(a) and branch while the new value is nonzero. -/
  | loop (a : BitVec 6) (i : BitVec 12)
  /-- LD_D (R201): Load a doubleword from g(a) plus imm12 into g(d), after the address checks of R200. -/
  | ldD (d : BitVec 6) (a : BitVec 6) (i : BitVec 12)
  /-- ST_D (R201): Store g(d) as a doubleword at g(a) plus imm12, after the address checks of R200. -/
  | stD (d : BitVec 6) (a : BitVec 6) (i : BitVec 12)
  /-- LD (R201): Load a byte, half or word, sign- or zero-extended by the size code, into g(d). -/
  | ld (d : BitVec 6) (a : BitVec 6) (s : BitVec 3) (o : BitVec 9)
  /-- ST (R201): Store the low byte, half or word of g(d) at g(a) plus off9. -/
  | st (d : BitVec 6) (a : BitVec 6) (s : BitVec 3) (o : BitVec 9)
  /-- LDB (R202): Load a bit field of 1 to 32 bits from local memory at the bit address in g(a). -/
  | ldb (d : BitVec 6) (a : BitVec 6) (x : BitVec 1) (w : BitVec 5)
  /-- STB (R202): Store the low bits of g(d) into a bit field of local memory, changing no other bit. -/
  | stb (d : BitVec 6) (a : BitVec 6) (w : BitVec 5)
  /-- PF (R204): Start a fill of a line into the core's L1, doing nothing on any check failure. -/
  | pf (a : BitVec 6) (o : BitVec 12)
  /-- DISC (R204): Write zeros over a whole line and discard any dirty data without write-back. -/
  | disc (a : BitVec 6) (o : BitVec 12)
  /-- ZLINE (R204): Write zeros over a whole line and keep it in the L1 as a zero line. -/
  | zline (a : BitVec 6) (o : BitVec 12)
  /-- WBK (R204): Write a dirty copy of a line back to its home tile and frame. -/
  | wbk (a : BitVec 6) (o : BitVec 12)
  /-- LDF_W (R203): Wait for a local word's full bit, then atomically read the word and clear the bit. -/
  | ldfW (d : BitVec 6) (a : BitVec 6) (i : BitVec 12)
  /-- STP (R206): Store g(b) and offer the line to the L1 of the one core named in g(d). -/
  | stp (d : BitVec 6) (a : BitVec 6) (b : BitVec 6) (z : BitVec 1) (o : BitVec 4)
  /-- STPM (R206): Store g(b) and offer the line to the L1 of the cores of one square selected by a mask in g(d). -/
  | stpm (d : BitVec 6) (a : BitVec 6) (b : BitVec 6) (z : BitVec 1) (o : BitVec 4)
  /-- AADD (R208): Atomic add at the line's home tile, returning the old value. -/
  | aadd (z : BitVec 1) (d : BitVec 5) (a : BitVec 5) (b : BitVec 5) (s : BitVec 3) (f : BitVec 3)
  /-- AMIN (R208): Atomic signed minimum at the home tile, returning the old value. -/
  | amin (z : BitVec 1) (d : BitVec 5) (a : BitVec 5) (b : BitVec 5) (s : BitVec 3) (f : BitVec 3)
  /-- AMAX (R208): Atomic signed maximum at the home tile, returning the old value. -/
  | amax (z : BitVec 1) (d : BitVec 5) (a : BitVec 5) (b : BitVec 5) (s : BitVec 3) (f : BitVec 3)
  /-- AAND (R208): Atomic AND at the home tile, returning the old value. -/
  | aand (z : BitVec 1) (d : BitVec 5) (a : BitVec 5) (b : BitVec 5) (s : BitVec 3) (f : BitVec 3)
  /-- AOR (R208): Atomic OR at the home tile, returning the old value. -/
  | aor (z : BitVec 1) (d : BitVec 5) (a : BitVec 5) (b : BitVec 5) (s : BitVec 3) (f : BitVec 3)
  /-- AXOR (R208): Atomic XOR at the home tile, returning the old value. -/
  | axor (z : BitVec 1) (d : BitVec 5) (a : BitVec 5) (b : BitVec 5) (s : BitVec 3) (f : BitVec 3)
  /-- ASWP (R208): Atomic swap at the home tile, returning the old value. -/
  | aswp (z : BitVec 1) (d : BitVec 5) (a : BitVec 5) (b : BitVec 5) (s : BitVec 3) (f : BitVec 3)
  /-- ACAS (R208): Atomic compare-and-swap against g(d), returning the old value. -/
  | acas (z : BitVec 1) (d : BitVec 5) (a : BitVec 5) (b : BitVec 5) (s : BitVec 3) (f : BitVec 3)
  /-- REL (R210): Store g(d) as a release at the scope of the scope field. -/
  | rel (d : BitVec 6) (a : BitVec 6) (z : BitVec 1) (s : BitVec 3) (o : BitVec 7)
  /-- ACQ (R210): Load into g(d) as an acquire at the scope of the scope field. -/
  | acq (d : BitVec 6) (a : BitVec 6) (z : BitVec 1) (s : BitVec 3) (o : BitVec 7)
  /-- AFADD (R209): Atomic f32 add at the home tile, rounded to nearest even, returning the old value. -/
  | afadd (d : BitVec 5) (a : BitVec 5) (b : BitVec 5) (s : BitVec 3) (f : BitVec 3)
  /-- HBINIT (R213): Initialise hardware barrier hbN with a core mask and an expected arrival count. -/
  | hbinit (a : BitVec 6) (b : BitVec 6)
  /-- HBARR (R213): Arrive at barrier hbN, wait for the phase to complete, and return the new phase count. -/
  | hbarr (d : BitVec 6) (b : BitVec 6)
  /-- HBWAIT (R213): Wait until barrier hbN's phase count reaches the target in g(a). -/
  | hbwait (a : BitVec 6) (b : BitVec 6)
  /-- HBTEST (R213): Write 1 if barrier hbN's phase count has reached g(a), else 0. -/
  | hbtest (d : BitVec 6) (a : BitVec 6) (b : BitVec 6)
  /-- SPAWN (R151): Check a task record, release at level 3, push it on the core's deque and return its task id. -/
  | spawn (d : BitVec 6) (a : BitVec 6)
  /-- SPAWNX (R151): Spawn a child task and suspend the issuing continuation as the child's joiner. -/
  | spawnx (d : BitVec 6) (a : BitVec 6)
  /-- TSIG (R152): Release, then atomically decrement a dependence counter and push a parked record when the count falls from 1. -/
  | tsig (d : BitVec 6) (a : BitVec 6)
  /-- TDEP (R153): Check a task record and park it on its dependence counter, or push it at once when the count is 0. -/
  | tdep (d : BitVec 6) (a : BitVec 6)
  /-- WAKE (R155): Release, then queue a suspended continuation or set its wake-pending bit, returning its old state. -/
  | wake (d : BitVec 6) (a : BitVec 6)
  /-- TRET (R157): Retire the running task: release, wake its joiner, free its slot and lower the graph's live-task count. -/
  | tret (a : BitVec 6)
  /-- BKTSEL (R158): Choose the first bucket whose bounds hold the task's shape values, and write its schedule word and pad masks. -/
  | bktsel (d : BitVec 6) (a : BitVec 6)
  /-- STEALCTL (R159): Set the core's steal setting and return the previous one. -/
  | stealctl (d : BitVec 6) (a : BitVec 6)
  /-- BUDGET (R160): Set the per-period amount of one activity of a domain and return the previous amount. -/
  | budget (d : BitVec 6) (a : BitVec 6) (b : BitVec 6)
  /-- RBOX (R250): Build a region from one box record, or the whole tensor, and canonicalise it. -/
  | rbox (d : BitVec 6) (a : BitVec 6) (b : BitVec 6)
  /-- RLD (R251): Load and validate a 288-byte region image into a region register. -/
  | rld (d : BitVec 6) (a : BitVec 6)
  /-- RST (R251): Store a region register as a 288-byte image. -/
  | rst (d : BitVec 6) (a : BitVec 6)
  /-- RUNI (R252): Region union. -/
  | runi (d : BitVec 6) (a : BitVec 6) (b : BitVec 6)
  /-- RINT (R252): Region intersection. -/
  | rint (d : BitVec 6) (a : BitVec 6) (b : BitVec 6)
  /-- RSUB (R252): Region difference. -/
  | rsub (d : BitVec 6) (a : BitVec 6) (b : BitVec 6)
  /-- RDIL (R253): Dilate a region by lower and upper amounts per dimension. -/
  | rdil (d : BitVec 6) (a : BitVec 6) (b : BitVec 6)
  /-- RPRJ (R254): Map a region into a target tensor through a permute, scale and offset record. -/
  | rprj (d : BitVec 6) (a : BitVec 6) (b : BitVec 6)
  /-- RSPL (R255): Split a region into a low and a high part, by coordinate or by box. -/
  | rspl (d : BitVec 6) (a : BitVec 6) (b : BitVec 6)
  /-- RSTRD (R256): Intersect a region with a lattice of steps and offsets. -/
  | rstrd (d : BitVec 6) (a : BitVec 6) (b : BitVec 6)
  /-- RRAG (R257): Make box 0 of a region ragged through a length table. -/
  | rrag (d : BitVec 6) (a : BitVec 6) (b : BitVec 6)
  /-- RSHF (R258): Translate a region by signed shifts, optionally setting its overflow mode. -/
  | rshf (d : BitVec 6) (a : BitVec 6) (b : BitVec 6)
  /-- RCMP (R259): Compare two regions for equality, inclusion and disjointness. -/
  | rcmp (d : BitVec 6) (a : BitVec 6) (b : BitVec 6)
  /-- RCNT (R259): Return a region's box count, rank, flags and handle. -/
  | rcnt (d : BitVec 6) (a : BitVec 6)
  /-- RVOL (R259): Return the number of cells of a region, applying ragged lengths. -/
  | rvol (d : BitVec 6) (a : BitVec 6)
  /-- RTST (R259): Test whether a byte address lies in a region's bytes. -/
  | rtst (d : BitVec 6) (a : BitVec 6) (b : BitVec 6)
  /-- COPY (R264): Check a copy record and region, reserve delivery units on the channel, and append a copy command. -/
  | copy (d : BitVec 6) (a : BitVec 6) (b : BitVec 6)
  /-- CWAIT (R269): Wait until every cell of a region is stashed or lies below the channel's write pointer. -/
  | cwait (a : BitVec 6) (b : BitVec 6)
  /-- CWP (R268): Read a copy channel's write pointer (an acquire) or its status word. -/
  | cwp (d : BitVec 6) (a : BitVec 6)
  /-- PRES (R274): Compute the cells of a region that are resident in the core's stash. -/
  | pres (d : BitVec 6) (a : BitVec 6)
  /-- GATH (R276): Append a gather of runs selected by an index array into local memory. -/
  | gath (d : BitVec 6) (a : BitVec 6) (b : BitVec 6)
  /-- SCAT (R276): Append a scatter of local runs to tensor positions selected by an index array. -/
  | scat (d : BitVec 6) (a : BitVec 6) (b : BitVec 6)
  /-- MIGR (R280): Release, write the continuation to its slot and append a command that ships it to the home square of g(a). -/
  | migr (a : BitVec 6)
  /-- TSEQ (R270): Read a core's transfer-engine completed number as an acquire. -/
  | tseq (d : BitVec 6) (a : BitVec 6)
  /-- TSEQ_WT (R270): Wait until a core's transfer-engine completed number reaches the target. -/
  | tseqWt (a : BitVec 6) (b : BitVec 6)
  /-- FOPEN (R279): Open a fibre or stream register from a descriptor. -/
  | fopen (d : BitVec 6) (a : BitVec 6)
  /-- FNEXT (R279): Advance a fibre or stream by one entry and return its coordinate. -/
  | fnext (d : BitVec 6) (a : BitVec 6)
  /-- FNEXTGE (R279): Advance a fibre or stream to the first entry whose coordinate is at least the key. -/
  | fnextge (d : BitVec 6) (a : BitVec 6) (b : BitVec 6)
  /-- FEND (R279): Return 0 at the end, else the current value's or element's address. -/
  | fend (d : BitVec 6) (a : BitVec 6)
  /-- MCLAIM (R324): Claim a set of operand slots and optionally the accumulator, all or nothing. -/
  | mclaim (d : BitVec 6) (a : BitVec 6) (b : BitVec 6)
  /-- MREL (R325): Wait for commands naming the items, then release slots and optionally the accumulator. -/
  | mrel (a : BitVec 6) (b : BitVec 6)
  /-- MLDA (R326): Append a fill of slot d from local memory, with type and scale from xfa and xsa. -/
  | mlda (d : BitVec 6) (a : BitVec 6) (b : BitVec 6)
  /-- MLDA_RG (R327): Append a fill of slot d from a region, with type and scale from xfa and xsa. -/
  | mldaRg (d : BitVec 6) (a : BitVec 6) (b : BitVec 6)
  /-- MLDA_ST (R327): Append a fill of slot d from a slot of the street neighbour square. -/
  | mldaSt (d : BitVec 6) (a : BitVec 6) (b : BitVec 6)
  /-- MLDA_AV (R327): Append a fill of slot d from a slot of the avenue neighbour square. -/
  | mldaAv (d : BitVec 6) (a : BitVec 6) (b : BitVec 6)
  /-- MLDB (R326): Append a fill of slot d from local memory, with type and scale from xfb and xsb. -/
  | mldb (d : BitVec 6) (a : BitVec 6) (b : BitVec 6)
  /-- MLDB_RG (R327): Append a fill of slot d from a region, with type and scale from xfb and xsb. -/
  | mldbRg (d : BitVec 6) (a : BitVec 6) (b : BitVec 6)
  /-- MLDB_ST (R327): Append a B fill of slot d from a slot of the street neighbour square. -/
  | mldbSt (d : BitVec 6) (a : BitVec 6) (b : BitVec 6)
  /-- MLDB_AV (R327): Append a B fill of slot d from a slot of the avenue neighbour square. -/
  | mldbAv (d : BitVec 6) (a : BitVec 6) (b : BitVec 6)
  /-- MSEQ (R333): Read a core's matrix completed number as an acquire, or its status word. -/
  | mseq (d : BitVec 6) (a : BitVec 6)
  /-- MWAIT (R333): Wait until a core's matrix completed number reaches the target. -/
  | mwait (a : BitVec 6) (b : BitVec 6)
  /-- MREC (R342): Set or clear the core's record flag. -/
  | mrec (a : BitVec 6)
  /-- MREV (R347): Take the core's log and append one command that runs its adjoint backwards. -/
  | mrev (a : BitVec 6)
  /-- MLOG (R341): Set the core's log, save and gradient arenas from a local record. -/
  | mlog (a : BitVec 6)
  /-- MQW (R334): Set a core's matrix queue weight and return the old one. -/
  | mqw (d : BitVec 6) (a : BitVec 6)
  /-- TMMA (R337): Append C += A*B over slots a and b. -/
  | tmma (a : BitVec 6) (b : BitVec 6)
  /-- TMMA_RDY (R337): Append C += A*B, setting tile-table entry t ready at completion. -/
  | tmmaRdy (t : BitVec 8) (a : BitVec 6) (b : BitVec 6)
  /-- TMMT (R337): Append C += A*Bᵀ. -/
  | tmmt (a : BitVec 6) (b : BitVec 6)
  /-- TMMT_RDY (R337): Append C += A*Bᵀ with a tile-table ready set at completion. -/
  | tmmtRdy (t : BitVec 8) (a : BitVec 6) (b : BitVec 6)
  /-- TTMM (R337): Append C += Aᵀ*B. -/
  | ttmm (a : BitVec 6) (b : BitVec 6)
  /-- TTMM_RDY (R337): Append C += Aᵀ*B with a tile-table ready set at completion. -/
  | ttmmRdy (t : BitVec 8) (a : BitVec 6) (b : BitVec 6)
  /-- TADD (R338): Append C += A element-wise. -/
  | tadd (a : BitVec 6)
  /-- TADD_RDY (R338): Append C += A with a tile-table ready set at completion. -/
  | taddRdy (t : BitVec 8) (a : BitVec 6)
  /-- TMUL (R338): Append C = C*A element-wise. -/
  | tmul (a : BitVec 6)
  /-- TMUL_RDY (R338): Append C = C*A with a tile-table ready set at completion. -/
  | tmulRdy (t : BitVec 8) (a : BitVec 6)
  /-- TSCL_MUL (R338): Append a scaling of each row of C by a column slot. -/
  | tsclMul (a : BitVec 6)
  /-- TSCL_MUL_RDY (R338): Append a row scaling of C with a tile-table ready set at completion. -/
  | tsclMulRdy (t : BitVec 8) (a : BitVec 6)
  /-- TSCL_SET (R338): Append a setting of each row of C to a column slot's value. -/
  | tsclSet (a : BitVec 6)
  /-- TSCL_SET_RDY (R338): Append a row setting of C with a tile-table ready set at completion. -/
  | tsclSetRdy (t : BitVec 8) (a : BitVec 6)
  /-- TEXP (R338): Append C = exp(C − A(i)) per row. -/
  | texp (a : BitVec 6)
  /-- TEXP_RDY (R338): Append the row exponent with a tile-table ready set at completion. -/
  | texpRdy (t : BitVec 8) (a : BitVec 6)
  /-- TRMAX (R339): Append a row maximum of C into a 128×1 f32 slot. -/
  | trmax (a : BitVec 6)
  /-- TRSUM (R339): Append a tree-ordered row sum of C into a 128×1 f32 slot. -/
  | trsum (a : BitVec 6)
  /-- TCVT (R339): Append a conversion of C into a slot of type xfo. -/
  | tcvt (a : BitVec 6)
  /-- TTRN (R339): Append a transpose of slot b into slot a. -/
  | ttrn (a : BitVec 6) (b : BitVec 6)
  /-- TACT_RELU_RDY (R338): Append a ReLU of C with a tile-table ready set at completion. -/
  | tactReluRdy (t : BitVec 8)
  /-- TACT_SQRELU_RDY (R338): Append a squared ReLU of C with a tile-table ready set at completion. -/
  | tactSqreluRdy (t : BitVec 8)
  /-- TACT_TANH_RDY (R338): Append a tanh of C with a tile-table ready set at completion. -/
  | tactTanhRdy (t : BitVec 8)
  /-- KOPEN (R365): Take a free sequence context, write its handle to sq(d), and append the binding of a sequence record. -/
  | kopen (d : BitVec 6) (a : BitVec 6) (b : BitVec 6)
  /-- KCLOSE (R366): Clear sq(d) and append a close that writes back or discards the chain. -/
  | kclose (d : BitVec 6) (a : BitVec 6)
  /-- KAPP (R367): Append an append of 1–16 tokens from a local block. -/
  | kapp (d : BitVec 6) (a : BitVec 6) (b : BitVec 6)
  /-- KACC (R368): Append a commit of n tentative tokens. -/
  | kacc (d : BitVec 6) (a : BitVec 6)
  /-- KREJ (R368): Append a rejection of tentative tokens, setting TLEN to CLEN. -/
  | krej (d : BitVec 6)
  /-- KPB (R371): Append a rewrite of a page's PBASE. -/
  | kpb (d : BitVec 6) (a : BitVec 6) (b : BitVec 6)
  /-- KSPL (R372): Append a splice of a span of pages at a chain index. -/
  | kspl (d : BitVec 6) (a : BitVec 6) (b : BitVec 6)
  /-- KFORK (R370): Append a fork that gives a child sequence the parent's committed pages. -/
  | kfork (d : BitVec 6) (a : BitVec 6)
  /-- KLOAD (R374): Wait for earlier commands on the sequence, resolve the page, and append a rotated key load into a slot. -/
  | kload (d : BitVec 6) (a : BitVec 6) (b : BitVec 6)
  /-- KVAL (R374): Wait, resolve the page, and append a value load into a slot, prunable. -/
  | kval (d : BitVec 6) (a : BitVec 6) (b : BitVec 6)
  /-- KMARG (R376): Append a setting of the pruning margin and query-record address. -/
  | kmarg (d : BitVec 6) (a : BitVec 6) (b : BitVec 6)
  /-- KPFX (R380): Look up a full page by pfx hash and token ids, taking a reference on a hit. -/
  | kpfx (d : BitVec 6) (a : BitVec 6) (b : BitVec 6)
  /-- KINS (R381): Enter a hashed page into the pfx index. -/
  | kins (d : BitVec 6) (a : BitVec 6) (b : BitVec 6)
  /-- KTENT (R369): Append an entry into or exit from tentative-page mode. -/
  | ktent (d : BitVec 6) (a : BitVec 6)
  /-- KDROPT (R369): Append a release of the chain's tentative pages. -/
  | kdropt (d : BitVec 6)
  /-- KSEQ (R382): Read a completed number, status word or a sequence's lengths. -/
  | kseq (d : BitVec 6) (a : BitVec 6)
  /-- KSEQ_WT (R382): Wait until a core's context-engine completed number reaches the target. -/
  | kseqWt (a : BitVec 6) (b : BitVec 6)
  /-- CCOMM (R393): Check a communicator record, allocate the cm, and append its opening. -/
  | ccomm (d : BitVec 6) (a : BitVec 6)
  /-- CTT (R407): Check a record and append a write of a tile-table entry. -/
  | ctt (a : BitVec 6) (b : BitVec 6)
  /-- CRDY (R409): Release at level 1 and set a tile-table entry ready. -/
  | crdy (a : BitVec 6)
  /-- CPOST (R399): Check a post record and append a collective post, a release at the communicator's scope. -/
  | cpost (d : BitVec 6) (a : BitVec 6)
  /-- CPOLL (R410): Read a line's flag word; if it has reached the target, return it as an acquire and optionally free RING slots. -/
  | cpoll (d : BitVec 6) (a : BitVec 6) (b : BitVec 6)
  /-- CWAITF (R410): Wait until a line's flag word reaches the target, returning as an acquire. -/
  | cwaitf (a : BitVec 6) (b : BitVec 6)
  /-- CBAR (R406): Append a communicator barrier, a group post and release. -/
  | cbar (d : BitVec 6)
  /-- CSTAT (R413): Read a communicator, entry or core status word, or the package number, optionally clearing OVF and XF. -/
  | cstat (d : BitVec 6) (a : BitVec 6)
  /-- CCLOSE (R419): Append the closing of a communicator. -/
  | cclose (d : BitVec 6)
  /-- CSEQ (R412): Read a core's collective completed number as an acquire. -/
  | cseq (d : BitVec 6) (a : BitVec 6)
  /-- CSEQ_WT (R412): Wait until a core's collective completed number reaches the target. -/
  | cseqWt (a : BitVec 6) (b : BitVec 6)
  /-- CARB (R415): Set the square's arbitration weights and priority cap. -/
  | carb (d : BitVec 6) (a : BitVec 6)
  /-- MFK (R226): Read a control register into g(d). -/
  | mfk (d : BitVec 6) (a : BitVec 6)
  /-- MTK (R226): Write g(a) to a control register under the access rules of R183. -/
  | mtk (d : BitVec 6) (a : BitVec 6)
  /-- SLEEP (R227): Enter sleep until a deadline, a port arrival or a WAKE. -/
  | sleep (a : BitVec 6)
  /-- REPART (R185): Stop dispatch to other contexts and wait for quiescence to switch the partition mode. -/
  | repart (d : BitVec 6) (a : BitVec 6)
  /-- PGMIG (R437): Queue a migration of a page to a destination frame, returning an acceptance code. -/
  | pgmig (d : BitVec 6) (a : BitVec 6) (b : BitVec 6)
  /-- PGHEAT (R441): Read a page heat count, a fill total or an error count. -/
  | pgheat (d : BitVec 6) (a : BitVec 6) (b : BitVec 6)
  /-- ROWRET (R442): Retire an HBM row to a spare and record it in the signed retirement list. -/
  | rowret (d : BitVec 6) (a : BitVec 6)
  /-- SHOOT (R444): Discard cached translations, optionally flush lines and PLB pairs, over a range of pages. -/
  | shoot (a : BitVec 6) (b : BitVec 6)
  /-- PGREF (R436): Answer an open fault: re-walk the page, close the record, and wake or abort the waiting contexts. -/
  | pgref (d : BitVec 6) (a : BitVec 6) (b : BitVec 6)
  /-- PLBW (R446): Exchange one rights entry and shoot down every cached copy of it. -/
  | plbw (d : BitVec 6) (a : BitVec 6) (b : BitVec 6)
  /-- DOMSET (R448): Install or delete a domain record, or the package record. -/
  | domset (d : BitVec 6) (a : BitVec 6) (b : BitVec 6)
  /-- IRQ (R454): Release, then raise an MSI-X vector of a domain or wake its pager. -/
  | irq (a : BitVec 6) (b : BitVec 6)
  /-- DRESET (R455): Reset one domain: hold its activities, stop its contexts, discard its work, free its resources, raise vector 1. -/
  | dreset (d : BitVec 6) (a : BitVec 6)
  /-- QOSP (R457): Read the current period's usage of one activity. -/
  | qosp (d : BitVec 6) (a : BitVec 6)
  /-- ADD (R186): g(d) = g(a) + g(b); with E set, also closes the open packet of the send port. -/
  | add (d : BitVec 6) (a : BitVec 6) (b : BitVec 6) (e : BitVec 1)
  /-- SUB (R186): g(d) = g(a) − g(b). -/
  | sub (d : BitVec 6) (a : BitVec 6) (b : BitVec 6) (e : BitVec 1)
  /-- MUL (R186): Low 64 bits of the product. -/
  | mul (d : BitVec 6) (a : BitVec 6) (b : BitVec 6) (e : BitVec 1)
  /-- MULH (R186): High 64 bits of the signed product. -/
  | mulh (d : BitVec 6) (a : BitVec 6) (b : BitVec 6) (e : BitVec 1)
  /-- MULHN (R186): High 64 bits of the unsigned product. -/
  | mulhn (d : BitVec 6) (a : BitVec 6) (b : BitVec 6) (e : BitVec 1)
  /-- DIV (R187): Signed division truncating toward zero, never trapping. -/
  | div (d : BitVec 6) (a : BitVec 6) (b : BitVec 6) (e : BitVec 1)
  /-- DIVN (R187): Unsigned division, never trapping. -/
  | divn (d : BitVec 6) (a : BitVec 6) (b : BitVec 6) (e : BitVec 1)
  /-- REM (R187): Signed remainder with the sign of x. -/
  | rem (d : BitVec 6) (a : BitVec 6) (b : BitVec 6) (e : BitVec 1)
  /-- REMN (R187): Unsigned remainder. -/
  | remn (d : BitVec 6) (a : BitVec 6) (b : BitVec 6) (e : BitVec 1)
  /-- AND (R186): Bitwise AND. -/
  | and (d : BitVec 6) (a : BitVec 6) (b : BitVec 6) (e : BitVec 1)
  /-- OR (R186): Bitwise OR; with .e to a send port, closes the packet. -/
  | or (d : BitVec 6) (a : BitVec 6) (b : BitVec 6) (e : BitVec 1)
  /-- XOR (R186): Bitwise XOR. -/
  | xor (d : BitVec 6) (a : BitVec 6) (b : BitVec 6) (e : BitVec 1)
  /-- ANDN (R186): x AND NOT y. -/
  | andn (d : BitVec 6) (a : BitVec 6) (b : BitVec 6) (e : BitVec 1)
  /-- SHL (R186): Shift left by g(b) bits 5:0. -/
  | shl (d : BitVec 6) (a : BitVec 6) (b : BitVec 6) (e : BitVec 1)
  /-- SHR (R186): Logical shift right. -/
  | shr (d : BitVec 6) (a : BitVec 6) (b : BitVec 6) (e : BitVec 1)
  /-- SRA (R186): Arithmetic shift right. -/
  | sra (d : BitVec 6) (a : BitVec 6) (b : BitVec 6) (e : BitVec 1)
  /-- ROT (R186): Rotate right. -/
  | rot (d : BitVec 6) (a : BitVec 6) (b : BitVec 6) (e : BitVec 1)
  /-- MIN (R186): Signed minimum. -/
  | min (d : BitVec 6) (a : BitVec 6) (b : BitVec 6) (e : BitVec 1)
  /-- MAX (R186): Signed maximum. -/
  | max (d : BitVec 6) (a : BitVec 6) (b : BitVec 6) (e : BitVec 1)
  /-- MINN (R186): Unsigned minimum. -/
  | minn (d : BitVec 6) (a : BitVec 6) (b : BitVec 6) (e : BitVec 1)
  /-- MAXN (R186): Unsigned maximum. -/
  | maxn (d : BitVec 6) (a : BitVec 6) (b : BitVec 6) (e : BitVec 1)
  /-- SEL (R188): g(d) = g(a) if the old g(d) is nonzero, else g(b). -/
  | sel (d : BitVec 6) (a : BitVec 6) (b : BitVec 6) (e : BitVec 1)
  /-- CLZ (R186): Count leading zeros. -/
  | clz (d : BitVec 6) (a : BitVec 6) (e : BitVec 1)
  /-- CTZ (R186): Count trailing zeros. -/
  | ctz (d : BitVec 6) (a : BitVec 6) (e : BitVec 1)
  /-- POPC (R186): Count one bits. -/
  | popc (d : BitVec 6) (a : BitVec 6) (e : BitVec 1)
  /-- BSWAP (R186): Reverse the eight bytes. -/
  | bswap (d : BitVec 6) (a : BitVec 6) (e : BitVec 1)
  /-- CMP (R189): Write 1 if the condition holds between g(a) and g(b), else 0. -/
  | cmp (d : BitVec 6) (a : BitVec 6) (b : BitVec 6) (c : BitVec 6)
  /-- ADD_IMM (R186): Add a sign-extended 12-bit immediate; also encodes SUB immediate. -/
  | addImm (d : BitVec 6) (a : BitVec 6) (i : BitVec 12)
  /-- MUL_IMM (R186): Multiply by an immediate. -/
  | mulImm (d : BitVec 6) (a : BitVec 6) (i : BitVec 12)
  /-- AND_IMM (R186): AND with a sign-extended immediate. -/
  | andImm (d : BitVec 6) (a : BitVec 6) (i : BitVec 12)
  /-- OR_IMM (R186): OR with a sign-extended immediate. -/
  | orImm (d : BitVec 6) (a : BitVec 6) (i : BitVec 12)
  /-- XOR_IMM (R186): XOR with a sign-extended immediate. -/
  | xorImm (d : BitVec 6) (a : BitVec 6) (i : BitVec 12)
  /-- MIN_IMM (R186): Signed minimum with a 10-bit immediate. -/
  | minImm (d : BitVec 6) (a : BitVec 6) (i : BitVec 10)
  /-- MAX_IMM (R186): Signed maximum with a 10-bit immediate. -/
  | maxImm (d : BitVec 6) (a : BitVec 6) (i : BitVec 10)
  /-- MINN_IMM (R186): Unsigned minimum with a 10-bit immediate. -/
  | minnImm (d : BitVec 6) (a : BitVec 6) (i : BitVec 10)
  /-- MAXN_IMM (R186): Unsigned maximum with a 10-bit immediate. -/
  | maxnImm (d : BitVec 6) (a : BitVec 6) (i : BitVec 10)
  /-- SHL_IMM (R186): Shift left by an immediate amount. -/
  | shlImm (d : BitVec 6) (a : BitVec 6) (s : BitVec 6)
  /-- SHR_IMM (R186): Logical shift right by an immediate amount. -/
  | shrImm (d : BitVec 6) (a : BitVec 6) (s : BitVec 6)
  /-- SRA_IMM (R186): Arithmetic shift right by an immediate amount. -/
  | sraImm (d : BitVec 6) (a : BitVec 6) (s : BitVec 6)
  /-- ROT_IMM (R186): Rotate right by an immediate amount. -/
  | rotImm (d : BitVec 6) (a : BitVec 6) (s : BitVec 6)
  /-- BFX (R190): Extract a zero-extended bit field. -/
  | bfx (d : BitVec 6) (a : BitVec 6) (p : BitVec 6) (w : BitVec 6)
  /-- BFI (R190): Insert the low bits of g(a) into a field of g(d). -/
  | bfi (d : BitVec 6) (a : BitVec 6) (p : BitVec 6) (w : BitVec 6)
  /-- CMP_IMM (R189): Compare g(a) with an 8-bit immediate under a condition. -/
  | cmpImm (d : BitVec 6) (a : BitVec 6) (c : BitVec 4) (i : BitVec 8)
  /-- LIM (R191): Long instruction: write the sign-extended 32-bit literal to g(d). -/
  | lim (d : BitVec 6) (v : BitVec 32)
  /-- LIH (R191): Long instruction: replace the high 32 bits of g(d) with the literal. -/
  | lih (d : BitVec 6) (v : BitVec 32)
  /-- FADD (R194): f32 add, rounded once. -/
  | fadd (d : BitVec 6) (a : BitVec 6) (b : BitVec 6) (r : BitVec 3)
  /-- FSUB (R194): f32 subtract, rounded once. -/
  | fsub (d : BitVec 6) (a : BitVec 6) (b : BitVec 6) (r : BitVec 3)
  /-- FMUL (R194): f32 multiply, rounded once. -/
  | fmul (d : BitVec 6) (a : BitVec 6) (b : BitVec 6) (r : BitVec 3)
  /-- FMIN (R194): f32 minimum under R84. -/
  | fmin (d : BitVec 6) (a : BitVec 6) (b : BitVec 6)
  /-- FMAX (R194): f32 maximum under R84. -/
  | fmax (d : BitVec 6) (a : BitVec 6) (b : BitVec 6)
  /-- FFMA (R194): f32 fused multiply-add with g(d) as addend, rounded once. -/
  | ffma (d : BitVec 6) (a : BitVec 6) (b : BitVec 6) (r : BitVec 3)
  /-- FCMP (R195): f32 comparison writing 1 or 0. -/
  | fcmp (d : BitVec 6) (a : BitVec 6) (b : BitVec 6) (c : BitVec 6)
  /-- FCVT (R196): Convert a scalar between float and integer types. -/
  | fcvt (d : BitVec 6) (a : BitVec 6) (r : BitVec 3) (t : BitVec 3) (s : BitVec 3)
  /-- VADD (R298): Queue an element-wise vector add. -/
  | vadd (h : BitVec 4) (a : BitVec 4) (b : BitVec 4) (m : BitVec 3) (r : BitVec 3) (t : BitVec 6)
  /-- VSUB (R298): Queue an element-wise vector subtract. -/
  | vsub (h : BitVec 4) (a : BitVec 4) (b : BitVec 4) (m : BitVec 3) (r : BitVec 3) (t : BitVec 6)
  /-- VMUL (R298): Queue an element-wise vector multiply. -/
  | vmul (h : BitVec 4) (a : BitVec 4) (b : BitVec 4) (m : BitVec 3) (r : BitVec 3) (t : BitVec 6)
  /-- VFMA (R298): Queue an element-wise fused multiply-add into the destination. -/
  | vfma (h : BitVec 4) (a : BitVec 4) (b : BitVec 4) (m : BitVec 3) (r : BitVec 3) (t : BitVec 6)
  /-- VMIN (R298): Queue an element-wise minimum. -/
  | vmin (h : BitVec 4) (a : BitVec 4) (b : BitVec 4) (m : BitVec 3) (t : BitVec 6)
  /-- VMAX (R298): Queue an element-wise maximum. -/
  | vmax (h : BitVec 4) (a : BitVec 4) (b : BitVec 4) (m : BitVec 3) (t : BitVec 6)
  /-- VABS (R298): Queue an element-wise absolute value. -/
  | vabs (h : BitVec 4) (a : BitVec 4) (m : BitVec 3) (t : BitVec 6)
  /-- VNEG (R298): Queue an element-wise negation. -/
  | vneg (h : BitVec 4) (a : BitVec 4) (m : BitVec 3) (t : BitVec 6)
  /-- VAND (R298): Queue an element-wise AND. -/
  | vand (h : BitVec 4) (a : BitVec 4) (b : BitVec 4) (m : BitVec 3) (t : BitVec 6)
  /-- VOR (R298): Queue an element-wise OR. -/
  | vor (h : BitVec 4) (a : BitVec 4) (b : BitVec 4) (m : BitVec 3) (t : BitVec 6)
  /-- VXOR (R298): Queue an element-wise XOR. -/
  | vxor (h : BitVec 4) (a : BitVec 4) (b : BitVec 4) (m : BitVec 3) (t : BitVec 6)
  /-- VSHL (R298): Queue an element-wise left shift. -/
  | vshl (h : BitVec 4) (a : BitVec 4) (b : BitVec 4) (m : BitVec 3) (t : BitVec 6)
  /-- VSHR (R298): Queue an element-wise right shift. -/
  | vshr (h : BitVec 4) (a : BitVec 4) (b : BitVec 4) (m : BitVec 3) (t : BitVec 6)
  /-- VCMP (R300): Queue an element-wise compare that writes a mask register. -/
  | vcmp (h : BitVec 4) (a : BitVec 4) (b : BitVec 4) (m : BitVec 3) (c : BitVec 3) (t : BitVec 6)
  /-- VSEL (R301): Queue a select between two operands by a data mask. -/
  | vsel (h : BitVec 4) (a : BitVec 4) (b : BitVec 4) (k : BitVec 3) (t : BitVec 6)
  /-- VCVT (R302): Queue a conversion from a source type of code 0–15. -/
  | vcvt (h : BitVec 4) (a : BitVec 4) (s : BitVec 4) (m : BitVec 3) (v : BitVec 3) (t : BitVec 6)
  /-- VCVT_HI (R302): Queue a conversion from a source type of code 16–31. -/
  | vcvtHi (h : BitVec 4) (a : BitVec 4) (s : BitVec 4) (m : BitVec 3) (v : BitVec 3) (t : BitVec 6)
  /-- VBCAST (R301): Queue a broadcast of a scalar register's low bits into every active element. -/
  | vbcast (h : BitVec 4) (a : BitVec 6) (m : BitVec 3) (t : BitVec 6)
  /-- VIOTA (R301): Queue writing each active element's linear index. -/
  | viota (h : BitVec 4) (m : BitVec 3) (t : BitVec 6)
  /-- VRED_ADD (R307): Queue a tree-ordered sum along dimension 0. -/
  | vredAdd (h : BitVec 4) (a : BitVec 4) (m : BitVec 3) (t : BitVec 6)
  /-- VRED_MAX (R307): Queue a maximum reduction along dimension 0. -/
  | vredMax (h : BitVec 4) (a : BitVec 4) (m : BitVec 3) (t : BitVec 6)
  /-- VRED_MIN (R307): Queue a minimum reduction along dimension 0. -/
  | vredMin (h : BitVec 4) (a : BitVec 4) (m : BitVec 3) (t : BitVec 6)
  /-- VSCAN_INC (R308): Queue a segmented inclusive sum scan. -/
  | vscanInc (h : BitVec 4) (a : BitVec 4) (k : BitVec 3) (t : BitVec 6)
  /-- VSCAN_MAXINC (R308): Queue a segmented inclusive max scan. -/
  | vscanMaxinc (h : BitVec 4) (a : BitVec 4) (k : BitVec 3) (t : BitVec 6)
  /-- VSCAN_MININC (R308): Queue a segmented inclusive min scan. -/
  | vscanMininc (h : BitVec 4) (a : BitVec 4) (k : BitVec 3) (t : BitVec 6)
  /-- VSCAN_EXC (R308): Queue a segmented exclusive sum scan. -/
  | vscanExc (h : BitVec 4) (a : BitVec 4) (k : BitVec 3) (t : BitVec 6)
  /-- VSCAN_MAXEXC (R308): Queue a segmented exclusive max scan. -/
  | vscanMaxexc (h : BitVec 4) (a : BitVec 4) (k : BitVec 3) (t : BitVec 6)
  /-- VSCAN_MINEXC (R308): Queue a segmented exclusive min scan. -/
  | vscanMinexc (h : BitVec 4) (a : BitVec 4) (k : BitVec 3) (t : BitVec 6)
  /-- VRCP (R306): Queue a correctly rounded reciprocal. -/
  | vrcp (h : BitVec 4) (a : BitVec 4) (m : BitVec 3) (t : BitVec 6)
  /-- VRSQ (R306): Queue the bit-exact table reciprocal square root of R106. -/
  | vrsq (h : BitVec 4) (a : BitVec 4) (m : BitVec 3) (t : BitVec 6)
  /-- VSQRT (R306): Queue a correctly rounded square root. -/
  | vsqrt (h : BitVec 4) (a : BitVec 4) (m : BitVec 3) (t : BitVec 6)
  /-- VEXP (R306): Queue a natural exponential within 1 ulp. -/
  | vexp (h : BitVec 4) (a : BitVec 4) (m : BitVec 3) (t : BitVec 6)
  /-- VEXP2 (R306): Queue a correctly rounded base-2 exponential. -/
  | vexp2 (h : BitVec 4) (a : BitVec 4) (m : BitVec 3) (t : BitVec 6)
  /-- VLOG (R306): Queue a natural logarithm within 1 ulp. -/
  | vlog (h : BitVec 4) (a : BitVec 4) (m : BitVec 3) (t : BitVec 6)
  /-- VLOG2 (R306): Queue a correctly rounded base-2 logarithm. -/
  | vlog2 (h : BitVec 4) (a : BitVec 4) (m : BitVec 3) (t : BitVec 6)
  /-- VTANH (R306): Queue a hyperbolic tangent within 2 ulp. -/
  | vtanh (h : BitVec 4) (a : BitVec 4) (m : BitVec 3) (t : BitVec 6)
  /-- VSHAPE (R290): Bind or unbind a shape register to a local shape record. -/
  | vshape (h : BitVec 4) (a : BitVec 6)
  /-- VLOOP (R309): Run the last k held entries n more times, advancing record bases. -/
  | vloop (k : BitVec 4) (a : BitVec 6)
  /-- JMP (R197): Jump to the bundle address plus 4*disp24. -/
  | jmp (j : BitVec 24)
  /-- FENCE (R211): Order every earlier access of the context before every later one, at the given scope. -/
  | fence (s : BitVec 3)
  /-- FCLOSE (R279): Close a fibre register by zeroing its image. -/
  | fclose (a : BitVec 6)
  /-- TRAP (R225): Take a BKPT trap with the code in kinfo. -/
  | trap (c : BitVec 18)
  /-- SYSC (R225): Take a SYSC trap with the code in kinfo. -/
  | sysc (c : BitVec 18)
  /-- NOP (R197): Do nothing. -/
  | nop
  /-- ALIGN (R198): Padding word that executes as NOP. -/
  | align
  /-- SUSP (R154): Release, then clear a pending wake or write the continuation to its slot as suspended. -/
  | susp
  /-- YIELD (R156): Release, queue the continuation at the top of the core's deque, and leave the context idle. -/
  | yield
  /-- TACT_RELU (R338): Append a ReLU of C. -/
  | tactRelu
  /-- TACT_SQRELU (R338): Append a squared ReLU of C. -/
  | tactSqrelu
  /-- TACT_TANH (R338): Append a tanh of C. -/
  | tactTanh
  /-- RETT (R182): Return from a trap: PC = kepc, mode restored, T cleared. -/
  | rett
  /-- HALT (R228): Put the context in the halted state. -/
  | halt
  /-- VSYNC (R311): Wait until every held vector entry is done, empty the queue and raise FPE on enabled flags. -/
  | vsync
  /-- VTBL (R312): Load and check the core's dt8 decode table from xdt. -/
  | vtbl
  /-- PUSH_COPY_INSTALL (R206): After the push store retires, a receiver installs the pushed line in its L1, or refuses it and raises the sender's refusal counter. -/
  | pushCopyInstall (core ctx : Nat) (busy : Bool)
  /-- COPY_UNIT_DELIVERY (R265): The transfer engine writes one delivery unit of a copy and advances the channel's write pointer, completing the command after its last unit. -/
  | copyUnitDelivery (sq ch : Nat)
  /-- GATHER_ELEMENT_DELIVERY (R276): The engine writes one gather element's run, or zeros when out of range, and advances the write pointer. -/
  | gatherElementDelivery (sq ch : Nat)
  /-- SCATTER_ELEMENT_WRITE (R276): The engine writes one scatter element's run to the tensor, or drops it when out of range. -/
  | scatterElementWrite (sq ch : Nat)
  /-- MIGRATION_SHIP (R280): The engine ships a continuation slot to the target square and pushes its pinned entry on a deque there. -/
  | migrationShip (sq core : Nat)
  /-- REUSE_COUNT_HALVING (R277): Every 16 us of ktime the hot-line counts halve, unpinning lines that fall below 16. -/
  | reuseCountHalving (sq : Nat)
  /-- FILL_EXECUTE (R329): A fill reads its source (memory or neighbour slot) into the slot with scales and summary, once its ordering conditions hold. -/
  | fillExecute (sq core idx : Nat)
  /-- TILE_OPCODE_START (R331): When the datapath is free, the arbiter chooses a queue's ready tile opcode by weighted round-robin and starts it. -/
  | tileOpcodeStart (sq : Nat)
  /-- TILE_OPCODE_COMPLETE (R332): A tile opcode finishes after its cycle count: results written, NF counted, completion released. -/
  | tileOpcodeComplete (sq : Nat)
  /-- MREV_EXECUTE (R347): Once earlier commands complete, zero the gradient buffers and walk the log backwards applying each adjoint, setting RDY entries. -/
  | mrevExecute (sq core : Nat)
  /-- KOPEN_EXECUTE (R365): The engine reads the sequence record, pool descriptor and turn table, or marks the context broken. -/
  | kopenExecute (sq sc : Nat)
  /-- KCLOSE_EXECUTE (R366): The engine writes the record back or releases the chain's pages, freeing the sequence context. -/
  | kcloseExecute (sq sc : Nat)
  /-- KAPP_EXECUTE (R367): The engine writes each token's key, value and id, allocating or copying pages and raising the bound. -/
  | kappExecute (sq sc : Nat)
  /-- PAGE_ALLOCATE (R357): An allocation that waited on an empty free list takes a freed page and initialises its header. -/
  | pageAllocate (sq sc : Nat)
  /-- KACC_EXECUTE (R368): The engine raises CLEN and hashes each page that becomes fully committed. -/
  | kaccExecute (sq sc : Nat)
  /-- KREJ_EXECUTE (R368): The engine sets TLEN to CLEN. -/
  | krejExecute (sq sc : Nat)
  /-- KPB_EXECUTE (R371): The engine writes the PBASE of the page at a chain index. -/
  | kpbExecute (sq sc : Nat)
  /-- KSPL_EXECUTE (R372): The engine releases the chain's tail pages and places the span, updating counts, lengths and hash. -/
  | ksplExecute (sq sc : Nat)
  /-- KFORK_EXECUTE (R370): The engine shares the parent's committed pages with the child, raising their counts. -/
  | kforkExecute (sq sc : Nat)
  /-- KLOAD_EXECUTE (R374): The engine reads the header and writes the page's keys rotated at PBASE into the slot. -/
  | kloadExecute (sq sc : Nat)
  /-- KVAL_EXECUTE (R377): The engine writes the page's values into the slot, or prunes the fetch and writes +0. -/
  | kvalExecute (sq sc : Nat)
  /-- KMARG_EXECUTE (R376): The engine sets the sequence context's margin and query-record address. -/
  | kmargExecute (sq sc : Nat)
  /-- KTENT_EXECUTE (R369): The engine sets KT mode and the mark, or clears T in the chain's pages. -/
  | ktentExecute (sq sc : Nat)
  /-- KDROPT_EXECUTE (R369): The engine releases the tentative suffix of the chain and resets the lengths. -/
  | kdroptExecute (sq sc : Nat)
  /-- CCOMM_EXECUTE (R393): Reserve staging, zero counters, credit word and ring flags, and send a connect unit to the predecessor. -/
  | ccommExecute (sq cm : Nat)
  /-- CTT_EXECUTE (R407): Rewrite the tile-table entry in the communicator's command order. -/
  | cttExecute (sq cm : Nat)
  /-- POST_START (R404): A communicator's next post, CBAR or firing begins once the previous one has completed. -/
  | postStart (sq cm : Nat)
  /-- CHUNK_SEND (R414): At a chunk boundary the engine or port chooses the next chunk by control, priority cap and bulk weights, and sends it. -/
  | chunkSend (sq : Nat)
  /-- CHUNK_ARRIVAL (R400): A chunk arrives in a ring or window: its lines are placed, combined or forwarded and the slot freed. -/
  | chunkArrival (sq cm : Nat)
  /-- CONNECT_ARRIVAL (R397): A connect unit arrives and the sender may start sending into the successor's ring. -/
  | connectArrival (sq cm : Nat)
  /-- FREED_REPORT (R397): A freed value arrives on the control channel and is written to the credit word. -/
  | freedReport (sq cm : Nat)
  /-- BARRIER_TOKEN_ARRIVAL (R406): A CBAR control token arrives; when all members' tokens are in, the CBAR completes. -/
  | barrierTokenArrival (sq cm : Nat)
  /-- DISCONNECT_ARRIVAL (R419): A disconnect unit arrives and the sender abandons its chunks for that ring, counting them in FAIL. -/
  | disconnectArrival (sq cm : Nat)
  /-- POST_COMPLETE (R404): A post completes when all its chunks are delivered and lines placed, raising event 0xC1 when EV is set. -/
  | postComplete (sq cm : Nat)
  /-- TILE_ENTRY_FIRE (R408): The collective engine takes a ready flag and starts a post of the entry's kind, reading its source. -/
  | tileEntryFire (sq ent : Nat)
  /-- FIRING_COMPLETE (R408): A firing's post completes; the entry returns to idle or ready and its fire count rises. -/
  | firingComplete (sq ent : Nat)
  /-- CCLOSE_EXECUTE (R419): After earlier commands and firings complete, invalidate entries, free slots and staging, disconnect and free the cm. -/
  | ccloseExecute (sq cm : Nat)
  /-- COLLECTIVE_EVENT_DELIVERY (R391): A queued event unit is delivered to the communication context's rx1 when room frees, or dropped with LOST. -/
  | collectiveEventDelivery (core : Nat)
  /-- KPREQ_SET (R174): Writing 1 to a context's kpreq bit requests its pre-emption. -/
  | kpreqSet (core ctx : Nat)
  /-- KPREQ_CLEAR (R176): Writing 0 to a pre-empted context's kpreq bit reloads it from its save area and makes it ready. -/
  | kpreqClear (core ctx : Nat)
  /-- PREEMPT_STOP (R175): The requested context reaches a stopping point: the core waits for its vector entry, writes the save area, parks entries, and enters state 9. -/
  | preemptStop (core ctx : Nat)
  /-- SLEEP_DEADLINE (R227): ktime reaches a sleeping context's deadline and the context becomes ready. -/
  | sleepDeadline (core ctx : Nat)
  /-- REPART_SWITCH (R185): Once the core is quiescent, reset region, shape, fibre, sequence, full-bit and barrier state and switch modes. -/
  | repartSwitch (core : Nat)
  /-- VECTOR_ENTRY_BEGIN (R289): When the datapath frees, the sequencer begins the next eligible pending entry in round-robin over contexts. -/
  | vectorEntryBegin (core : Nat)
  /-- VECTOR_ENTRY_COMPLETE (R289): An entry completes, ORs its flags into kfpe, and may let the next entry begin. -/
  | vectorEntryComplete (core : Nat)
  /-- DISPATCH_TASK (R147): An idle context takes a task-record entry, takes a slot, acquires, loads footprints and starts at the entry PC. -/
  | dispatchTask (core ctx : Nat)
  /-- DISPATCH_CONTINUATION (R147): An idle context takes a continuation entry, acquires and restores the continuation's registers. -/
  | dispatchContinuation (core ctx : Nat)
  /-- STEAL_REQUEST (R146): A core with an idle context and no local entry searches victims in order and moves one entry. -/
  | stealRequest (core ctx : Nat)
  /-- BUDGET_PERIOD_START (R161): A new budget period begins: amounts refresh, new settings take effect and held activities resume. -/
  | budgetPeriodStart (dom res inst : Nat)
  /-- WAKE_MESSAGE (R170): A home tile's wake message returns a dropped context to ready to reissue its bundle, or is discarded if stale. -/
  | wakeMessage (core ctx : Nat) (page : Nat)
  /-- POOL_BLOCK_FREE (R9): A chain block frees and a pool-held context reissues its instruction. -/
  | poolBlockFree (core : Nat)
  /-- PACKET_HEADER_ACCEPT (R219): A waiting header send is accepted when its destination port or ring becomes free. -/
  | packetHeaderAccept (core ctx : Nat)
  /-- PORT_UNIT_ARRIVAL (R172): A unit arrives at a receive port and wakes a receive-blocked context. -/
  | portUnitArrival (core ctx port : Nat)
  /-- FAULT_RING_RETRY (R435): Every 1 us the home tile retries writing a fault record into a full ring. -/
  | faultRingRetry (dom : Nat)
  /-- HOME_RECALL (R128): An access to a line owned by an engine is served after the engine has written the line. -/
  | homeRecall (core ctx : Nat)
  /-- MIGRATION_START (R438): The migration engine takes an accepted request and sets the page's M bit. -/
  | migrationStart (district : Nat)
  /-- MIGRATION_LINE_COPY (R438): When no engine owns it, one line is copied from the old frame to the new. -/
  | migrationLineCopy (district : Nat)
  /-- MIGRATION_FINISH (R438): After the last line, the PTE gets the new frame and clears M, and dropped contexts are woken. -/
  | migrationFinish (district : Nat)
  /-- HEAT_PERIOD_HALVING (R440): At each heat period every page heat count halves. -/
  | heatPeriodHalving
  /-- SCRUB_PASS (R447): Periodic scrubbing reads memory, correcting errors or poisoning lines. -/
  | scrubPass (line : Nat) (bad : Bool)
  /-- POWER_UP (R461): Power is applied: the firmware image is verified and the retirement list applied before training. -/
  | powerUp (listOk : Bool)
  /-- PART_READY (R26): A district, square, stack, port or link finishes bring-up and its readiness bit rises. -/
  | partReady (part : Nat)
  /-- PART_OUT_OF_SERVICE (R26): The system layer takes a part out of service and its readiness bits fall. -/
  | partOutOfService (part : Nat)
  /-- LINK_PORT_FAILURE (R460): An Abason port that cannot recover clears its readiness bit and holds routed chunks in staging. -/
  | linkPortFailure (port : Nat)
  /-- FLIT_CRC_RETRY (R460): A flit failing its CRC is resent from the sender's replay buffer. -/
  | flitCrcRetry (port : Nat)
  /-- PACKAGE_RESET (R459): The physical function's FLR resets the whole package. -/
  | packageReset
  /-- FUNCTION_LEVEL_RESET (R459): FLR of a virtual function performs DRESET of its domain. -/
  | functionLevelReset (fn : Nat)
  /-- FIRMWARE_UPDATE (R461): A host-written firmware image is verified and replaces the image for the next reset. -/
  | firmwareUpdate (image : Nat)
  /-- ATTESTATION_REQUEST (R462): An SPDM request over the DOE mailbox returns signed measurements. -/
  | attestationRequest (idx : Nat)
  /-- CLOCK_STEP (R463): The power controller lowers or raises the arithmetic clock by 100 MHz to keep the draw under the cap. -/
  | clockStep (up : Bool)
  /-- LRTAIL (R451): A host write of LRTAIL rings the launch-ring doorbell. -/
  | lrtail (fn : Nat) (tail : BitVec 64)
  /-- LAUNCH_RING_ENTRY (R451): The dispatcher takes one launch-ring entry, checks it, opens a graph and pushes the record, or waits for a spill block. -/
  | launchRingEntry (fn : Nat)
  /-- BAR_REGISTER_WRITE (R450): A host write to a BAR register with no behaviour of its own (LRBASE, LRSIZE, MSI-X table). -/
  | barRegisterWrite (fn off : Nat) (v : BitVec 64)
  /-- MEMORY_REPLY (R163): A memory reply arrives, or a long operation ends, and the waiting context returns from state 2 to ready with its results written. -/
  | memoryReply (core ctx : Nat)
  /-- HOST_MEMORY_ACCESS (R139): A host read or posted write of device memory arrives at the host port and is performed as an access of an agent at distance 3. -/
  | hostMemoryAccess (wr : Bool) (addr : BitVec 64) (data : List (BitVec 8))
  /-- CORE_POWER_GATING (R463): The power controller gates a core, which first writes back its L1 and PLB state, and the power controller then answers shoot-downs for it. -/
  | corePowerGating (core : Nat)
  deriving DecidableEq, Repr

end Sys2Proof
end

