-- ==== Sys2Proof/Machine/State.lean ====
section
/-! DEFINITION. The state of one NM9640 package: plain data, sparse where the package is large. -/
namespace Sys2Proof.Machine

/-! ### Regions, descriptors and shape records -/

/-- One dimension of a box (09 R234). -/
structure Dim where
  lo : Int
  hi : Int
  step : Nat
  deriving DecidableEq, Repr

/-- A box: its dimensions, dimension 0 first (09 R235). A box of a region image has four. -/
abbrev Box := List Dim

/-- A region register's image (09 R234). Rank 0 is the null region (R236). -/
structure Region where
  handle : Nat
  rank : Nat
  boxes : List Box
  ix : Bool
  rg : Bool
  cover : Bool
  table : Word
  deriving DecidableEq, Repr

/-- The null region (09 R236). -/
def Region.null : Region := ⟨0, 0, [], false, false, false, 0⟩

/-- A tensor descriptor as read (09 R231). -/
structure Desc where
  base : Word
  dims : List Nat
  strides : List Int
  ty : Nat
  rank : Nat
  page : Nat
  deriving DecidableEq, Repr

/-- A task's footprint as the dispatcher loaded it (09 R243): the image and the descriptor read with it. -/
structure Footprint where
  region : Region
  desc : Option Desc
  deriving DecidableEq, Repr

/-- A shape record as read (12 R291), with the local offset it was read from. -/
structure Shape where
  addr : Nat
  base : Word
  ext : List Nat
  str : List Int
  ty : Nat
  quant : Bool
  bound : Bool
  chan : Nat
  nbr : Bool
  core : Nat
  adv : Int
  deriving DecidableEq, Repr

/-- A fibre register's image (10 R278). -/
structure Fibre where
  cur : Word
  val : Word
  left : Nat
  coord : Nat
  stream : Bool
  size : Nat
  isOpen : Bool
  deriving DecidableEq, Repr

/-- A closed fibre register (10 R278). -/
def Fibre.closed : Fibre := ⟨0, 0, 0, 0, false, 0, false⟩

/-! ### Packets and ports -/

/-- A unit of two words at a receive port, with what ptag shows of it (08 R220). -/
structure PUnit where
  data : Word
  tag : BitVec 8
  first : Bool
  last : Bool
  abort : Bool
  sup : Bool
  score : Nat
  sctx : Nat
  deriving DecidableEq, Repr

/-- A receive port: the units that stand at it, the units on their way to it, and the sender port whose packet is
open on it (08 R219). -/
structure Port where
  units : List PUnit
  flight : List PUnit
  openBy : Option (Nat × Nat × Nat)
  deriving DecidableEq, Repr

/-- An empty port. -/
def Port.empty : Port := ⟨[], [], none⟩

/-- The packet open on a send port (08 R216, R217): destination, units sent, and for a receive ring the declared length
and where its entry stands. -/
structure OpenPkt where
  core : Nat
  dest : Nat
  ring : Bool
  port : Nat
  sent : Nat
  tag : BitVec 8
  len : Nat
  tail : Nat
  deriving DecidableEq, Repr

/-! ### The vector sequencer's entries -/

/-- The three states of a held entry (12 R286). -/
inductive VState where
  | pending | executing | done
  deriving DecidableEq, Repr

/-- A held entry with everything it took at issue (12 R287, R313). `tseq` is the number of commands appended before it. -/
structure VEntry where
  insn : Instr
  hd : Option Shape
  ha : Option Shape
  hb : Option Shape
  scale : Option Shape
  mask : BitVec 512
  masked : Bool
  scalar : Word
  rsCtr : Word
  seed : Word
  e4n : Bool
  st : VState
  body : Bool
  dom : Nat
  sup : Bool
  tseq : Nat
  deriving DecidableEq, Repr

/-! ### Contexts -/

/-- What a context in state 2 waits for (07 R163, R174). Each wait names what must hold for it to end. -/
inductive Wait where
  /-- A completed number of engine `eng` for core `c` of square `sq` to reach `t` (01 R14). -/
  | seqno (eng sq c : Nat) (t : Nat)
  /-- A hardware barrier of this core to move on. -/
  | barrier (hb : Nat) (phase : BitVec 32)
  /-- A full bit of local memory (08 R203). -/
  | fullBit (off : Nat)
  /-- A region on a copy channel, in the commands appended before append number `ord` (10 R269). -/
  | region (ch ord : Nat)
  /-- The flag word of a collective line (17 R410). -/
  | flag (line : Nat) (t : Nat)
  /-- The receive port or ring that a header send aims at to accept the packet of `len` units (08 R218, R219). -/
  | header (core dest port : Nat) (ring : Bool) (len : Nat)
  /-- Room at a receive port (07 R172). -/
  | portFull (core dest port : Nat)
  /-- Every held entry of the vector sequencer to be done, as VSYNC waits (12 R311). -/
  | vector
  /-- One entry of the vector sequencer to be done, in an operation that is not pre-emptible: room for an entry, VTBL,
  BKTSEL (12 R286, R297, R312). -/
  | entry
  /-- The engine that owns the line to write it (05 R128). -/
  | recall (line : Nat)
  /-- Push copies to be installed or refused (05 R133). -/
  | pushes
  /-- Earlier commands of an engine, in an operation that runs at the hub and is pre-emptible and reissued (14 R325, R342, 15
  R364). -/
  | hub
  /-- A free sequence context, earlier commands, or a line that an engine owns, in a word that then appends: it is not called
  pre-emptible (15 R365, R374, 07 R174). -/
  | append
  /-- The quiescence that REPART waits for (07 R185). -/
  | quiesce
  /-- A domain reset under way (21 R455). -/
  | reset (dom : Nat)
  /-- The next period of the domain's HBM beats in a district (06 R161). -/
  | beats (dom district : Nat)
  deriving DecidableEq, Repr

/-- The context states of 07 R163, with what each waits for. State 2 has two forms: `waiting`, and `completing` once what
it waits for has come about: the operation then makes its changes, and only after them is the context in state 1 (R166).
`dropped` holds the address that faulted, kfault's reason, and the request that dropped the context (R169, R170). -/
inductive CtxState where
  | idle
  | ready
  | waiting (w : Wait)
  | completing (w : Wait)
  | dropped (addr reason req : Nat)
  | rxBlocked (port : Nat)
  | budgetHeld
  | poolHeld
  | sleeping (deadline : Word)
  | halted
  | preempted
  deriving DecidableEq, Repr

/-- An element that a vector entry of the context has written since its last VSYNC: the address of its first bit, its width in
bits, the value it held before, and which of its bits nobody has written since, as a mask from its first bit (05 R112). -/
structure OldEl where
  pos : Nat
  width : Nat
  val : Nat
  live : Nat
  deriving DecidableEq, Repr

/-- A pushed copy that has not been installed or refused yet (08 R206). -/
structure Push where
  line : Nat
  target : Nat
  deriving DecidableEq, Repr

/-- A context: its registers and the hardware's own state for it (07 R162). `apc` is its task's abort PC, as the dispatch read
it from the record (06 R157; log 30). -/
structure Ctx where
  g : SMap Word
  pc : Word
  q : SMap Region
  m : SMap (BitVec 512)
  h : SMap Word
  f : SMap Fibre
  sq : SMap Word
  xfa : BitVec 6
  xfb : BitVec 6
  xfo : BitVec 6
  xsa : Word
  xsb : Word
  xdt : Word
  kstat : Word
  kcause : Word
  kepc : Word
  kinfo : Word
  ktvec : Word
  kdom : BitVec 16
  kfpe : Word
  kseed : Word
  kscnt : Word
  kscr : SMap Word
  kfault : Word
  kovf : Word
  st : CtxState
  slot : Word
  task : Word
  graph : Word
  apc : Word
  rfoot : Footprint
  wfoot : Footprint
  rx0 : Port
  rx1 : Port
  tx0 : Option OpenPkt
  tx1 : Option OpenPkt
  vflags : BitVec 5
  vq : List VEntry
  vk : Nat
  vleft : Nat
  vadv : List Nat
  vcnt : Word
  viter : Nat
  vold : List OldEl
  pushes : List Push
  quota : SMap Nat
  lastIssue : Option Nat
  reloadTrap : Option (Nat × Word)
  deriving DecidableEq, Repr

/-! ### Cores -/

/-- A hardware barrier register once initialised (08 R212), by a context of domain `dom` (21 R455). -/
structure HBar where
  mask : BitVec 8
  need : Nat
  arrived : Nat
  next : Nat
  phase : BitVec 32
  pend : SMap (BitVec 32)
  dom : Nat
  deriving DecidableEq, Repr

/-- A pair of the protection lookaside buffer (20 R431). -/
structure PlbEntry where
  dom : Nat
  seg : Nat
  rights : BitVec 16
  home : Option Nat
  deriving DecidableEq, Repr

/-- An allocated stash entry (10 R271); its 128 data bytes lie in the stash window of local memory, at place `slot`, and are
not used while `z` is set. While `d` is set the entry alone holds the line's data (R272). -/
structure StashEntry where
  line : Nat
  dom : Nat
  slot : Nat
  f : Bool
  d : Bool
  z : Bool
  deriving DecidableEq, Repr

/-- A chain block of a command queue (01 R7, R8): its block number, the slots taken, the slots marked skipped after them,
and the entries not completed. -/
structure ChainBlk where
  blk : Nat
  used : Nat
  skipped : Nat
  live : List Nat
  deriving DecidableEq, Repr

/-- One core (07 R162). `lpoison` lists the 128-byte lines of local memory whose data is poisoned (20 R447). `kplive` holds the pre-emption requests that are in force: a request made while its context is
idle, halted or pre-empted is recorded in kpreq and has no effect (07 R174). -/
structure Core where
  ctxs : SMap Ctx
  mem : List Host.Cell
  full : List Nat
  hb : SMap (Option HBar)
  rings : SMap (Option (Nat × Nat × Nat))
  dt8 : List (BitVec 32)
  dt8Tag : Word
  deque : List Word
  plb : List PlbEntry
  kcpool : Word
  kmap : Word
  kmode : Bool
  kpreq : BitVec 16
  kplive : BitVec 16
  steal : BitVec 4
  chains : SMap (List ChainBlk)
  spill : List Nat
  stash : List StashEntry
  l1 : List Nat
  lpoison : List Nat
  vlast : Nat
  vexec : Option Nat
  events : List PUnit
  began : Nat
  gated : Bool
  deriving DecidableEq, Repr

/-! ### Hub engines -/

/-- Who appended a command (01 R10, R12). `ord` is its place in the package's order of appends, `seq` its sequence number. -/
structure CmdHdr where
  core : Nat
  ctx : Nat
  dom : Nat
  sup : Bool
  seq : Nat
  ord : Nat
  deriving DecidableEq, Repr

/-- The issued and completed numbers of one engine for one core, and the entries finished above the completed number
(01 R13). -/
structure SeqNo where
  issued : Nat
  completed : Nat
  above : List Nat
  deriving DecidableEq, Repr

/-- A copy channel (10 R262). -/
structure Chan where
  reserved : Word
  delivered : Word
  oor : BitVec 32
  fail : BitVec 32
  deriving DecidableEq, Repr

/-- The kinds of transfer command. -/
inductive TKind where
  | copy | gath | scat | migr
  deriving DecidableEq, Repr

/-- An appended transfer command with what it took at issue (10 R263, R275, R280). `units` is what it reserved, `done`
how many of them lie below its own progress; `desc` is the descriptor read at issue, `desc2` the one
read when it began (09 R233); `kcpool` and `kmap` are the core's layout at issue (R267), `seen` what a gather has
read by index (05 R134). `dead` says that a domain reset has discarded it: it only passes its units when its turn comes (R267, 21
R456); `ship` is the home square that a MIGR found at its issue (R280). -/
structure TCmd where
  hdr : CmdHdr
  kind : TKind
  ch : Nat
  region : Region
  desc : Option Desc
  desc2 : Option Desc
  begun : Bool
  kcpool : Word
  kmap : Word
  dir : Nat
  base : Nat
  origin : List Int
  ls : List Nat
  reuse : Nat
  mark : Word
  units : List Nat
  done : Nat
  index : Option Shape
  run : Nat
  seen : SMap (List Byte)
  slot : Word
  target : Word
  ship : Option Nat
  dead : Bool
  deriving DecidableEq, Repr

/-- A slot's declared state (14 R320). -/
structure Decl where
  ty : Nat
  rows : Nat
  cols : Nat
  orient : Nat
  deriving DecidableEq, Repr

/-- An operand slot: claim, declared state, and contents as stored codes in row-major order with scales and the
non-finite summary (14 R319, R320, 04 R101). `bad` says that its data is poisoned (20 R447). -/
structure MSlot where
  claim : Option (Nat × Nat)
  decl : Option Decl
  held : Option Decl
  data : List Nat
  scales : List Nat
  summary : List Bool
  bad : Bool
  deriving DecidableEq, Repr

/-- A core's matrix state (14 R322). `armed` says that MLOG has set the arenas. -/
structure MCore where
  weight : Nat
  fail : BitVec 32
  nf : BitVec 32
  recording : Bool
  armed : Bool
  logBase : Word
  logLimit : Word
  saveBase : Word
  saveLimit : Word
  gradBase : Word
  gradLimit : Word
  logPos : Word
  savePos : Word
  gradPos : Word
  producer : SMap (Option Nat)
  deriving DecidableEq, Repr

/-- A log entry (14 R343) with its address. -/
structure LogEnt where
  addr : Nat
  word : Nat
  kind : Nat
  core : Nat
  sv : Bool
  sc : Bool
  rdy : Bool
  entry : Nat
  slot : Option Nat
  srcA : Option Nat
  srcB : Option Nat
  src : Nat
  scale : Nat
  saved : Nat
  grad : Nat
  savedC : Nat
  decl : Option Decl
  pitch : Nat
  deriving DecidableEq, Repr

/-- The tile opcodes (14 R335). -/
inductive TileOp where
  | mma | mmt | tmm | add | mul | sclMul | sclSet | exp | rmax | rsum | cvt | trn | relu | sqrelu | tanh
  deriving DecidableEq, Repr

/-- What kind of matrix command it is. -/
inductive MKind where
  | fill
  | tile (op : TileOp)
  | mrev
  deriving DecidableEq, Repr

/-- Where a fill reads (14 R327); a region without a hull supplies nothing. -/
inductive FillSrc where
  | loc (addr : Word)
  | reg (r : Region)
  | nbr (square : Nat) (slot : Nat)
  | nothing
  deriving DecidableEq, Repr

/-- An appended matrix command (14 R326 to R347): the slots `a` and `b` its word names, the slots and accumulator it
reads and writes, a fill's source, the state its written slot takes, and the log entries it writes when it executes. -/
structure MCmd where
  hdr : CmdHdr
  kind : MKind
  a : Nat
  b : Nat
  reads : List Nat
  writes : List Nat
  acc : Bool
  src : FillSrc
  decl : Option Decl
  scale : Word
  pitch : Nat
  dt8 : List (BitVec 32)
  rdy : Option Nat
  begun : Bool
  log : List LogEnt
  entries : Nat
  arena : Word
  deriving DecidableEq, Repr

/-- A sequence context (15 R358, R359). -/
structure SeqCtx where
  holder : Option (Nat × Nat)
  broken : Bool
  record : Word
  pool : Word
  fmt : Nat
  head : Nat
  pages : Nat
  clen : Nat
  tlen : Nat
  mark : Nat
  pos0 : Nat
  rhash : Word
  joins : SMap Nat
  kt : Bool
  turn : List (BitVec 32)
  margin : BitVec 32
  query : Word
  cursor : Nat
  deriving DecidableEq, Repr

/-- An appended context-engine command (15 R362): the instruction, its sequence context, its operand values, and for a
load the slot, region and page resolved at issue. A fork of `sc` names its parent as `parent`. `waitPage` says that an allocation waits
for a free page, `got` is the page it then took. -/
structure KCmd where
  hdr : CmdHdr
  insn : Instr
  sc : Nat
  x : Word
  y : Word
  slot : Option Nat
  region : Option Region
  page : Option Nat
  parent : Option Nat
  waitPage : Bool
  got : Option Nat
  deriving DecidableEq, Repr

/-- The kinds of post (17 R399), and the barrier. -/
inductive PostKind where
  | put | ring | allGather | allReduce | bcast | bar
  deriving DecidableEq, Repr

/-- A post as it joins a communicator's order (17 R399, R404, R408): a CPOST, a CBAR or a firing of tile-table entry
`entry`, whose contents are read when it starts. `count` is the counter it takes then, `ord` its place among the package's
appends, `seqd` the command of a post that was appended. -/
structure Post where
  kind : PostKind
  root : Nat
  src : Word
  dst : Word
  elems : Nat
  peers : List Nat
  acc : Bool
  wire : Nat
  op : Nat
  dty : Nat
  chunk : Nat
  entry : Option Nat
  count : Nat
  ord : Nat
  seqd : Option CmdHdr
  deriving DecidableEq, Repr

/-- A line of a contribution or a chunk: its elements' codes in the wire format, V and X (17 R395). -/
structure CLine where
  codes : List Nat
  v : Bool
  x : Bool
  deriving DecidableEq, Repr

/-- A chunk (17 R395 to R403). `count` is the sender's post or put count, `seq` the chunk sequence it takes when it is
sent, `phase` 0 for a block or message, 1 for a partial and 2 for a final segment, `origin` the rank where its block or
final starts, `seg` its segment, `hop` how many contributions a partial holds, `index` its place among the unit's chunks,
`first` its first line, `last` E. `peer` is the rank it goes to; `dst`, for a put, where its unit's lines land; `stamp` and
`lane` name the sender's post and core. -/
structure Chunk where
  kind : PostKind
  count : Nat
  seq : Nat
  phase : Nat
  origin : Nat
  seg : Nat
  hop : Nat
  index : Nat
  first : Nat
  last : Bool
  wire : Nat
  inject : Bool
  peer : Nat
  dst : Word
  stamp : Nat
  lane : Nat
  lines : List CLine
  deriving DecidableEq, Repr

/-- What travels between collective engines: chunks, the control units of 17 R414, and the answer to the sender that a
chunk was written, with how many of its lines were not. -/
inductive CUnit where
  | chunk (c : Chunk)
  | connect
  | freed (v : Nat)
  | token (count rank : Nat)
  | disconnect
  | written (stamp lane dropped : Nat)
  deriving DecidableEq, Repr

/-- A unit for communicator `cm` of a square, with the communicator it comes from. -/
structure CMsg where
  cm : Nat
  package : Nat
  square : Nat
  source : Nat
  body : CUnit
  deriving DecidableEq, Repr

/-- What runs in a communicator: the post under way, this member's contribution, how many lines its destination takes and
has, and how many chunks of it are not written yet (17 R404). -/
structure Running where
  post : Post
  own : List CLine
  len : Nat
  placed : Nat
  need : Nat
  pending : Nat
  deriving DecidableEq, Repr

/-- A tile-table entry (17 R407, R408). `st` is 0 idle, 1 ready, 2 firing, 3 firing and pending. -/
structure TEntry where
  valid : Bool
  cm : Nat
  kind : Nat
  mode : Nat
  wire : Nat
  op : Nat
  chunk : Nat
  root : Nat
  src : Word
  dst : Word
  elems : Nat
  peers : List Nat
  st : Nat
  fire : BitVec 32
  merged : BitVec 29
  deriving DecidableEq, Repr

/-- A command in a communicator's order (17 R404). A CTT holds the entry it writes. -/
inductive CCmd where
  | comm (hdr : CmdHdr)
  | ctt (hdr : CmdHdr) (ent : Nat) (v : TEntry)
  | post (p : Post)
  | close (hdr : CmdHdr)
  deriving DecidableEq, Repr

/-- A communicator (17 R392 to R398, R413). `state` is 0 free, 1 open, 2 broken; `owner` the core of the square. `posts`,
`puts` and `chunks` are its three counters; `freed` and `freedOut` belong to its own ring, `sfreed`, `connected` and `gone`
to its successor's. `slots` are group chunks that wait in the ring, `held` the sequences of RING chunks in it; `fwd` and
`queue` are its staging: a chunk to forward and chunks to inject. -/
structure Comm where
  state : Nat
  owner : Nat
  dom : Nat
  ev : Bool
  n : Nat
  rank : Nat
  chunk : Nat
  depth : Nat
  vc : Nat
  op : Nat
  dty : Nat
  wire : Nat
  ring : Word
  credit : Word
  putBase : Word
  putSize : Nat
  members : List Word
  scope : Nat
  posts : Nat
  begun : Nat
  puts : Nat
  chunks : Nat
  freed : Nat
  freedOut : List Nat
  sfreed : Nat
  connected : Bool
  gone : Bool
  ovf : Bool
  mis : Bool
  xf : Bool
  order : List CCmd
  run : Option Running
  fwd : Option Chunk
  queue : List Chunk
  slots : List Chunk
  held : List Nat
  tokens : List (Nat × Nat)
  deriving DecidableEq, Repr

/-- A line of a level-two slice (10 R277, 20 R440): its line number, the start of its page, whether its frame lies in a stack,
whether it has been written since its frame was, where the line was translated to: the address of its bytes and the size of
its page as a power of two, none when it is to be translated again (20 R434), and its place in the order of replacement, the
least next to be replaced. -/
structure L2Line where
  line : Nat
  page : Nat
  hbm : Bool
  dirty : Bool
  tr : Option (Nat × Nat)
  rank : Nat
  deriving DecidableEq, Repr

/-- One square's hub and home tile. `trr` is the copy channel that delivered last (10 R261). `l2` is its level-two slice, lines
ascending (R277). -/
structure Square where
  seqs : SMap SeqNo
  chans : SMap Chan
  tq : List TCmd
  trr : Nat
  slots : SMap MSlot
  acc : Option (Nat × Nat)
  mcores : SMap MCore
  mq : List MCmd
  active : Option Nat
  arbP : Nat
  credits : SMap Nat
  scs : SMap SeqCtx
  kfail : SMap (BitVec 32)
  kpr : SMap (BitVec 32)
  kq : List KCmd
  cms : SMap Comm
  tents : SMap TEntry
  clost : SMap (BitVec 16)
  crdyx : SMap (BitVec 16)
  cfail : SMap (BitVec 32)
  carb : BitVec 12
  cturn : Nat
  ccred0 : Nat
  ccred1 : Nat
  cprio : Nat
  clast : Nat
  crr : SMap Nat
  cin : List CMsg
  l2 : List L2Line
  hot : SMap Nat
  pinned : List Nat
  heat : List (Nat × Nat)
  ptc : SMap Word
  launchCore : Nat
  deriving DecidableEq, Repr

/-! ### The package: memory system, dispatcher, domains and host -/

/-- A domain's record as DOMSET installed it (20 R448). -/
structure Domain where
  enabled : Bool
  rchk : Bool
  rights : Word
  segs : Nat
  dtab : Word
  dcount : Nat
  pool : Word
  slots : Nat
  pager : Word
  ring : Word
  entries : Nat
  nextTask : Nat
  deriving DecidableEq, Repr

/-- The package record (20 R448). -/
structure PkgRec where
  root : Word
  home : Word
  segs : Nat
  heat : Nat
  stack4 : Word
  stack64 : Word
  stack2m : Word
  deriving DecidableEq, Repr

/-- A task graph that is open (06 R157): its live tasks, and the completion word of a launch. -/
structure Graph where
  id : Nat
  dom : Nat
  live : Nat
  word : Option Word
  deriving DecidableEq, Repr

/-- An activity's budget (06 R160, R161). -/
structure Budget where
  amount : Nat
  period : Nat
  nextAmount : Nat
  nextPeriod : Nat
  used : Nat
  index : Nat
  deriving DecidableEq, Repr

/-- One function's BAR and its MSI-X capability's enable and function mask (21 R450). `msix` holds the table's words that are not zero, by offset; `halts` the domain's
contexts whose halt is pending, as 16 * core + context (R452). `resetting` names the context whose DRESET is under way,
`joined` those whose DRESET found it so (R455). -/
structure Bar where
  lrbase : Word
  lrsize : Word
  lrtail : Word
  lrhead : Word
  resetting : Option Nat
  joined : List Nat
  halts : List Nat
  pba : BitVec 128
  enable : Bool
  fmask : Bool
  msix : SMap Word
  sent : List Nat
  deriving DecidableEq, Repr

/-- A fault that is open (20 R435): `place` is its record's running number in the ring and its address, none while the
record waits for room. `told` says that vector 3 has been raised for it (21 R452). -/
structure FaultRec where
  dom : Nat
  page : Nat
  code : Nat
  waiters : Nat
  place : Option (Nat × Nat)
  told : Bool
  deriving DecidableEq, Repr

/-- The engine command with append number `ord`, of a domain, has met a page and waits for it, or is to fail on it (20
R436). -/
structure PageWait where
  ord : Nat
  dom : Nat
  page : Nat
  deriving DecidableEq, Repr

/-- A wake message on its way: the context and the request that dropped it (07 R169, R170). -/
structure WakeMsg where
  core : Nat
  ctx : Nat
  page : Nat
  req : Nat
  deriving DecidableEq, Repr

/-- What the hardware has yet to do and retries until it can: a WAKE of a slot by core `core`, a push that no context makes
(06 R145), a posted host write (05 R139), a completion word that goes before vector 0 (21 R451), the retirement of an
aborted task's continuation (06 R157), a slot that a domain reset frees (21 R455), and the data of a line that a stash has
given up while its page was not served, with whether it is poisoned (10 R272; log 18). -/
inductive HwWork where
  | wake (core slot : Nat)
  | push (core : Nat) (entry : Word)
  | write (va : Nat) (bytes : List Byte)
  | word (dom va v : Nat)
  | retire (core slot : Nat) (v : Word) (graph : Option Nat)
  | freeSlot (slot : Nat)
  | back (line : Nat) (bytes : List Byte) (bad : Bool)
  deriving DecidableEq, Repr

/-- A migration request and, once it runs, how far it is (20 R437 to R439). `promo` marks a promotion. -/
structure Migr where
  page : Nat
  size : Nat
  newFrame : Nat
  newH : Bool
  oldFrame : Nat
  running : Bool
  promo : Bool
  next : Nat
  deriving DecidableEq, Repr

/-- A line owned by the engine command with append number `ord` until it is written (05 R128). -/
structure Owned where
  line : Nat
  ord : Nat
  deriving DecidableEq, Repr

/-- A unit that leaves for a square of another package on the Abason link, or that comes in for a square of this one (17
R414). -/
structure LinkUnit where
  package : Nat
  square : Nat
  msg : CMsg
  deriving DecidableEq, Repr

/-- A district's totals and migration engine (20 R437, R440). -/
structure District where
  hbmFills : Word
  expFills : Word
  corrected : Word
  uncorrected : Word
  migs : List Migr
  deriving DecidableEq, Repr

/-- An answer to an attestation request: the index, the measurement's bytes, and the signature over it (21 R462). -/
structure Answer where
  index : Nat
  bytes : List Byte
  signature : Nat
  deriving DecidableEq, Repr

/-- The firmware controller's state (21 R461 to R463). `booted` says that the boot firmware has run since the last reset. -/
structure Firmware where
  image : Nat
  booted : Bool
  update : Option Nat
  recovery : Bool
  powered : Bool
  listGood : Bool
  answers : List Answer
  clock : Nat
  applied : List Nat
  deriving DecidableEq, Repr

/-! ### How a step can stop -/

/-- Why the machine stops with a fault. -/
inductive Fault where
  /-- A hardware step names a core, square, context or part that the package does not have (01 R3). Raised by the
  hardware steps; safe: no such step happens on the hardware. -/
  | noSuchPart
  deriving DecidableEq, Repr

/-- How a bundle ends without its effect (02 R50): a precise trap, VSYNC's FPE, which empties the context's queue first (12
R311), a drop under a memory fault (with kfault's reason and the pager's code), a wait in state 2, a wait for a receive port, a
wait for a chain block, or a fault of the model. -/
inductive Stop where
  | trap (cause : Nat) (info : Word)
  | flags (info : Word)
  | drop (addr : Word) (reason code : Nat)
  | wait (w : Wait)
  | rx (port : Nat)
  | pool
  | fault (f : Fault)
  deriving DecidableEq, Repr

/-- How the last word ended: with its effect, by a stop, or held (an HBARR that has arrived and waits). The pair rule of
03 R55 and the statements ask about it. -/
inductive Ending where
  | done
  | stopped (st : Stop)
  | held
  deriving DecidableEq, Repr

/-- Which context executes, at which bundle, which word of it, and the address of the next bundle. -/
structure Focus where
  core : Nat
  ctx : Nat
  pc : Word
  next : Word
  word : InsnWord
  second : Bool
  deriving DecidableEq, Repr

/-- A pair's source values, taken before either word writes (02 R40): the general registers, the mask registers and what
ptag shows. -/
structure Pin where
  g : SMap Word
  m : SMap (BitVec 512)
  tag : Option PUnit
  deriving DecidableEq, Repr

/-- The whole machine. -/
structure State where
  cores : SMap Core
  squares : SMap Square
  mem : List Host.Cell
  poison : List Nat
  zeroLines : List Nat
  owned : List Owned
  appends : Nat
  kscope : Word
  ready : SMap Word
  ktime : Word
  pkg : PkgRec
  domains : SMap (Option Domain)
  graphs : List Graph
  joiners : SMap Word
  joinDest : SMap Nat
  nextGraph : Nat
  launchSquare : Nat
  budgets : SMap Budget
  bars : SMap Bar
  faults : List FaultRec
  pageWaits : List PageWait
  aborted : List PageWait
  wakeMsgs : List WakeMsg
  requests : Nat
  hw : List HwWork
  entered : SMap Nat
  districts : SMap District
  retired : List Nat
  fw : Firmware
  package : BitVec 15
  linkOut : List LinkUnit
  agenda : List Instr
  turn : Nat
  cycle : Nat
  freeCtr : Nat
  focus : Focus
  pin : Option Pin
  last : Ending
  deriving DecidableEq, Repr

/-! ### Reset -/

/-- A footprint of the null region: it contains nothing (09 R243). -/
def Footprint.none : Footprint := ⟨Region.null, Option.none⟩

/-- A context after package reset: idle, every register at the value its log entry names. -/
def Ctx.reset : Ctx where
  g := []
  pc := 0
  q := []
  m := []
  h := []
  f := []
  sq := []
  xfa := 0
  xfb := 0
  xfo := 0
  xsa := 0
  xsb := 0
  xdt := 0
  kstat := 0
  kcause := 0
  kepc := 0
  kinfo := 0
  ktvec := 0
  kdom := 0
  kfpe := 0
  kseed := 0
  kscnt := 0
  kscr := []
  kfault := 0
  kovf := 0
  st := .idle
  slot := 0
  task := 0
  graph := 0
  apc := 0
  rfoot := Footprint.none
  wfoot := Footprint.none
  rx0 := Port.empty
  rx1 := Port.empty
  tx0 := none
  tx1 := none
  vflags := 0
  vq := []
  vk := 0
  vleft := 0
  vadv := []
  vcnt := 0
  viter := 0
  vold := []
  pushes := []
  quota := []
  lastIssue := none
  reloadTrap := none

/-- A core after package reset (07 R162, R183, 06 R159). -/
def Core.reset : Core where
  ctxs := []
  mem := []
  full := []
  hb := []
  rings := []
  dt8 := []
  dt8Tag := 0
  deque := []
  plb := []
  kcpool := 0x340180
  kmap := 0
  kmode := false
  kpreq := 0
  kplive := 0
  steal := 0b1011
  chains := []
  spill := []
  stash := []
  l1 := []
  lpoison := []
  vlast := 15
  vexec := none
  events := []
  began := 0
  gated := false

/-- A copy channel after package reset (10 R262). -/
def Chan.reset : Chan := ⟨0, 0, 0, 0⟩

/-- Sequence numbers after package reset (01 R13). -/
def SeqNo.reset : SeqNo := ⟨0, 0, []⟩

/-- An operand slot after package reset: free and empty (14 R322). -/
def MSlot.reset : MSlot := ⟨none, none, none, [], [], [], false⟩

/-- A core's matrix state after package reset (14 R322). -/
def MCore.reset : MCore := ⟨1, 0, 0, false, false, 0, 0, 0, 0, 0, 0, 0, 0, 0, []⟩

/-- A free sequence context (15 R358). -/
def SeqCtx.free : SeqCtx :=
  ⟨none, false, 0, 0, 0, 0xFFFFFFFF, 0, 0, 0, 0, 0, 0, [], false, [], 0x7F800000, 0, 0⟩

/-- A free communicator (17 R413). -/
def Comm.free : Comm where
  state := 0
  owner := 0
  dom := 0
  ev := false
  n := 0
  rank := 0
  chunk := 0
  depth := 0
  vc := 0
  op := 0
  dty := 0
  wire := 0
  ring := 0
  credit := 0
  putBase := 0
  putSize := 0
  members := []
  scope := 0
  posts := 0
  begun := 0
  puts := 0
  chunks := 0
  freed := 0
  freedOut := []
  sfreed := 0
  connected := false
  gone := false
  ovf := false
  mis := false
  xf := false
  order := []
  run := none
  fwd := none
  queue := []
  slots := []
  held := []
  tokens := []

/-- An invalid tile-table entry (17 R407). -/
def TEntry.invalid : TEntry := ⟨false, 0, 0, 0, 0, 0, 0, 0, 0, 0, 0, [], 0, 0, 0⟩

/-- A square after package reset. -/
def Square.reset : Square where
  seqs := []
  chans := []
  tq := []
  trr := 15
  slots := []
  acc := none
  mcores := []
  mq := []
  active := none
  arbP := 0
  credits := []
  scs := []
  kfail := []
  kpr := []
  kq := []
  cms := []
  tents := []
  clost := []
  crdyx := []
  cfail := []
  carb := 0x811
  cturn := 0
  ccred0 := 0
  ccred1 := 0
  cprio := 0
  clast := 1
  crr := []
  cin := []
  l2 := []
  hot := []
  pinned := []
  heat := []
  ptc := []
  launchCore := 0

/-- Domain 0 after package reset: all zeros apart from E = 1 (20 R448); task ids start at 1 (06 R144). -/
def Domain.reset : Domain := ⟨true, false, 0, 0, 0, 0, 0, 0, 0, 0, 0, 1⟩

/-- The package record after package reset: all zeros (20 R448). -/
def PkgRec.reset : PkgRec := ⟨0, 0, 0, 0, 0, 0, 0⟩

/-- A function's BAR after package reset (21 R450; log 9). -/
def Bar.reset : Bar := ⟨0, 0, 0, 0, none, [], [], 0, false, false, [], []⟩

/-- An activity nothing has limited (06 R161): unlimited, period 1 microsecond. -/
def Budget.unlimited : Budget := ⟨0xFFFFFFFFFFFF, 1, 0xFFFFFFFFFFFF, 1, 0, 0⟩

/-- A district after package reset. -/
def District.reset : District := ⟨0, 0, 0, 0, []⟩

/-- The firmware controller after package reset (21 R461, R463; log 9). -/
def Firmware.reset : Firmware := ⟨0, false, none, false, false, true, [], 3300, []⟩

/-- Nothing executes yet: the focus names core 0, context 0. -/
def Focus.reset : Focus := ⟨0, 0, 0, 0, 0, false⟩

/-- The package right after reset, before any part has reported ready. -/
def State.reset : State where
  cores := []
  squares := []
  mem := []
  poison := []
  zeroLines := []
  owned := []
  appends := 1
  kscope := 0x0303030383828180
  ready := []
  ktime := 0
  pkg := PkgRec.reset
  domains := [(0, some Domain.reset)]
  graphs := []
  joiners := []
  joinDest := []
  nextGraph := 1
  launchSquare := 0
  budgets := []
  bars := []
  faults := []
  pageWaits := []
  aborted := []
  wakeMsgs := []
  requests := 0
  hw := []
  entered := []
  districts := []
  retired := []
  fw := Firmware.reset
  package := 0
  linkOut := []
  agenda := []
  turn := 0
  cycle := 0
  freeCtr := 0
  focus := Focus.reset
  pin := none
  last := .done

/-! ### Refusals -/

/-- Why the machine refuses. -/
inductive Refusal where
  /-- The instruction has no meaning in the model yet. Raised by Dispatch only; safe. -/
  | notModelled (mnemonic : String)
  deriving DecidableEq, Repr

end Sys2Proof.Machine
end

