-- ==== Sys2Proof/Config.lean ====
section
/-! DEFINITION. What the spec leaves open: free values without a body, so that nothing can be proved of one (log 2, 7). -/
namespace Sys2Proof.Config
open Sys2Proof.Machine

/-- Which hardware and host steps happen between cycle `k` and the next, and in which order: the spec fixes no duration
(log 2). -/
opaque hwMoves : Nat → List Instr

/-- How many nanoseconds of ktime pass in cycle `k` (21 R463; log 2). -/
opaque ktimeStep : Nat → Nat

/-- The units that have arrived from other packages when cycle `k` ends (05 R136; log 2). -/
opaque linkIn : Nat → List LinkUnit

/-- The Abason port through which chunks leave for a package, 0 to 15 (17 R416; log 8). -/
opaque portOf : Nat → Nat

/-- The distance the boot firmware discovered between two packages; it counts as 4 where it is less (05 R118; log 8). -/
opaque packageDistance : Nat → Nat → Nat

/-- A fresh free value for each count (log 7). -/
opaque freeWord : Nat → Word

/-- One less than the number of sets of a level-two slice, which the spec does not give (00 R1; log 70). -/
opaque l2Sets : Nat

/-- The set of a line in its level-two slice (00 R1; log 70). -/
opaque l2Set : Nat → Nat

/-- The place in the order of replacement that ordinary replacement gives the line of the k-th access to reach a home tile, from 0,
next to be replaced (10 R277; log 70). -/
opaque l2Place : Nat → Nat

/-- The implementation's choice among the results of VEXP that 04 R104 allows: the least input (as an ordered key) that
reaches a result (as an ordered key) or more. Every non-decreasing function within the bound is of this form (log 7). -/
opaque expCut : Int → Int

/-- The same for VLOG (04 R104; log 7). -/
opaque logCut : Int → Int

/-- The same for VTANH of a positive number (04 R104; log 7). -/
opaque tanhCut : Int → Int

/-- Whether the fields of a row name are in range for the package's stacks (20 R442; log 9). -/
opaque rowInRange : Nat → Bool

/-- The district that counts an error in a physical line (20 R440; log 9). -/
opaque errorDistrict : Nat → Nat

/-- Whether the boot controller verifies a firmware image (21 R461; log 9). -/
opaque imageGood : Nat → Bool

/-- The kscope entries 4 to 7 that the boot firmware of an image discovers (01 R23; log 8). -/
opaque scopeHigh : Nat → Word

/-- The package number that the system gives this package (17 R413; log 8). -/
opaque packageNumber : Nat → BitVec 15

/-- The bytes of a firmware image, over which its digest is taken (21 R461, R462; log 9). -/
opaque imageBytes : Nat → List Byte

/-- The ML-DSA-44 signature over an answer's bytes, as a number, with the device's key (21 R462; log 9). -/
opaque sign : List Byte → Nat

/-- The 128 bytes that the boot firmware of an image installs as the package record (20 R448; log 9). -/
opaque bootPackage : Nat → List Byte

/-- The 128 bytes that the boot firmware of an image installs as the record of domain 0 (20 R448; log 9). -/
opaque bootDomain0 : Nat → List Byte

/-- What the host has written to the control words of MSI-X capabilities when cycle `k` ends, as function, enable and
function mask (21 R450; log 2). -/
opaque hostConfig : Nat → List (Nat × Bool × Bool)

/-- How many cycles the dispatcher takes at most to look again at every idle context (06 R148; log 2). -/
opaque sweep : Nat

end Sys2Proof.Config
end

