-- ==== Sys2Proof/Machine/Bits.lean ====
section
/-! DEFINITION. Sparse tables, bit fields, sign extension and byte order (02 R49 to R51). -/
namespace Sys2Proof.Machine

/-! ### Sparse tables -/

/-- The value a table holds at a key, or the default. -/
def sget {α : Type} (d : α) : SMap α → Nat → α
  | [], _ => d
  | (k', v) :: r, k => if k = k' then v else sget d r k

/-- Put a value at a key, keeping keys ascending. -/
def sset {α : Type} : SMap α → Nat → α → SMap α
  | [], k, v => [(k, v)]
  | (k', v') :: r, k, v =>
    if k = k' then (k, v) :: r
    else if k < k' then (k, v) :: (k', v') :: r
    else (k', v') :: sset r k v

/-- Forget a key: it holds the default again. -/
def sdel {α : Type} (m : SMap α) (k : Nat) : SMap α := m.filter (fun p => p.1 != k)

/-- The first place of a list, counted from 0, whose value passes. -/
def findIdx? {α : Type} (p : α → Bool) (l : List α) : Option Nat :=
  (l.zipIdx.find? (fun x => p x.1)).map (·.2)

/-- A list with place `i` replaced. -/
def listSet {α : Type} (l : List α) (i : Nat) (v : α) : List α := l.set i v

/-! ### Fields of words -/

/-- Bits `lo` and up of a number, `len` of them (02 R49, x[h:l]). -/
def fieldN (x lo len : Nat) : Nat := x / 2 ^ lo % 2 ^ len

/-- The unsigned value of bits `hi` down to `lo` of a register. -/
def bitsW (w : Word) (hi lo : Nat) : Nat := fieldN w.toNat lo (hi + 1 - lo)

/-- One bit of a register. -/
def bitW (w : Word) (i : Nat) : Bool := fieldN w.toNat i 1 == 1

/-- A number with bits `lo` and up, `len` of them, replaced by the low bits of `v`. -/
def putN (x lo len v : Nat) : Nat :=
  x / 2 ^ (lo + len) * 2 ^ (lo + len) + v % 2 ^ len * 2 ^ lo + x % 2 ^ lo

/-- A register value. -/
def wd (n : Nat) : Word := BitVec.ofNat 64 n

/-- The low `n` bits of `x` read as two's complement. -/
def sextI (n x : Nat) : Int := if x % 2 ^ n < 2 ^ (n - 1) then (x % 2 ^ n : Nat) else (x % 2 ^ n : Nat) - (2 ^ n : Nat)

/-- Two's complement in `n` bits, as a natural number. -/
def ofIntN (n : Nat) (i : Int) : Nat := (i % (2 ^ n : Nat)).toNat

/-- `sext(x, n)` (02 R50). -/
def sextW (n x : Nat) : Word := BitVec.ofInt 64 (sextI n x)

/-- `zext(x, n)` (02 R50). -/
def zextW (n x : Nat) : Word := BitVec.ofNat 64 (x % 2 ^ n)

/-! ### Bytes -/

/-- The `n` bytes of a value, least significant first (02 R51). -/
def leBytes : Nat → Nat → List Byte
  | 0, _ => []
  | n + 1, v => BitVec.ofNat 8 v :: leBytes n (v / 256)

/-- The value of bytes, least significant first (02 R51). -/
def ofBytes : List Byte → Nat
  | [] => 0
  | b :: r => b.toNat + 256 * ofBytes r

/-- `n` consecutive bytes of a list from place `o`, as a value; bytes beyond the end count as 0. -/
def leAt (l : List Byte) (o n : Nat) : Nat := ofBytes ((l.drop o).take n)

/-- `a` rounded down to a multiple of `n`. -/
def alignDown (a n : Nat) : Nat := a / n * n

/-- `floor(log2 n)` for n > 0. -/
def log2N (n : Nat) : Nat := Nat.log2 n

/-- The quotient rounded up. -/
def ceilDiv (a b : Nat) : Nat := (a + b - 1) / b

/-- The list 0, 1, ..., n - 1. -/
def upTo (n : Nat) : List Nat := List.range n

end Sys2Proof.Machine
end

