-- ==== Sys2Proof/Machine/Memory.lean ====
section
/-! DEFINITION. Byte memories in canonical form: addresses rising, no zero listed; an unlisted byte reads 0 (log 5). -/
namespace Sys2Proof.Machine

/-- What a byte that nothing has written reads as (log 5). -/
def unlisted : Byte := 0

/-- The byte at an address. -/
def memGet : List Host.Cell → Nat → Byte
  | [], _ => unlisted
  | (k, v) :: r, a => if a = k then v else if a < k then unlisted else memGet r a

/-- Write one byte, keeping the canonical form. -/
def memSet : List Host.Cell → Nat → Byte → List Host.Cell
  | [], a, b => if b = unlisted then [] else [(a, b)]
  | (k, v) :: r, a, b =>
    if a = k then (if b = unlisted then r else (a, b) :: r)
    else if a < k then (if b = unlisted then (k, v) :: r else (a, b) :: (k, v) :: r)
    else (k, v) :: memSet r a b

/-- The canonical form: addresses strictly rising from `lo`, and no entry equal to what an unlisted byte reads as. -/
def memWfFrom : Nat → List Host.Cell → Bool
  | _, [] => true
  | lo, (k, v) :: r => decide (lo ≤ k) && decide (v ≠ unlisted) && memWfFrom (k + 1) r

/-- The canonical form of a memory. -/
def Memory.wf (m : List Host.Cell) : Bool := memWfFrom 0 m

/-- `n` bytes from an address. -/
def memRead (m : List Host.Cell) : Nat → Nat → List Byte
  | _, 0 => []
  | a, n + 1 => memGet m a :: memRead m (a + 1) n

/-- Write a list of bytes from an address upward. -/
def memWrite (m : List Host.Cell) : Nat → List Byte → List Host.Cell
  | _, [] => m
  | a, b :: r => memWrite (memSet m a b) (a + 1) r

/-- The little-endian value of `n` bytes (02 R51). -/
def memLe (m : List Host.Cell) (a n : Nat) : Nat := ofBytes (memRead m a n)

end Sys2Proof.Machine
end

