-- ==== Sys2Proof/Machine/Parts.lean ====
section
/-! DEFINITION. The parts of the package by number: cores, contexts, squares, domains, readiness (01 R3, R25). -/
namespace Sys2Proof.Machine

/-! ### Cores and contexts -/

/-- Core `c` (01 R3). -/
def State.coreAt (s : State) (c : Nat) : Core := sget Core.reset s.cores c

/-- Replace core `c`. -/
def State.setCore (s : State) (c : Nat) (v : Core) : State := { s with cores := sset s.cores c v }

/-- Context `x` of a core. -/
def Core.ctxAt (k : Core) (x : Nat) : Ctx := sget Ctx.reset k.ctxs x

/-- Replace context `x` of a core. -/
def Core.setCtx (k : Core) (x : Nat) (v : Ctx) : Core := { k with ctxs := sset k.ctxs x v }

/-- Context `x` of core `c`. -/
def State.ctxAt (s : State) (c x : Nat) : Ctx := (s.coreAt c).ctxAt x

/-- Replace context `x` of core `c`. -/
def State.setCtx (s : State) (c x : Nat) (v : Ctx) : State := s.setCore c ((s.coreAt c).setCtx x v)

/-- The core that executes. -/
def State.core (s : State) : Core := s.coreAt s.focus.core

/-- The context that executes. -/
def State.cur (s : State) : Ctx := s.ctxAt s.focus.core s.focus.ctx

/-- Replace the context that executes. -/
def State.setCur (s : State) (v : Ctx) : State := s.setCtx s.focus.core s.focus.ctx v

/-- Replace the core that executes. -/
def State.setCoreCur (s : State) (v : Core) : State := s.setCore s.focus.core v

/-- How many contexts a core has (07 R162). -/
def Core.nctx (k : Core) : Nat := if k.kmode then 8 else 16

/-- The communication context of a core (01 R6). -/
def Core.comm (k : Core) : Nat := k.nctx - 1

/-- How many general registers a context of the core has (07 R162). -/
def Core.ngreg (k : Core) : Nat := if k.kmode then 56 else 28

/-- Is the executing context the communication context of its core? -/
def State.isComm (s : State) : Bool := s.focus.ctx == s.core.comm

/-- The square of a core (01 R3). -/
def squareOf (c : Nat) : Nat := c / 8

/-- The square of the executing core. -/
def State.sq (s : State) : Nat := squareOf s.focus.core

/-- The number of the executing core within its square. -/
def State.lane (s : State) : Nat := s.focus.core % 8

/-! ### Squares -/

/-- Square `q` (01 R3). -/
def State.sqAt (s : State) (q : Nat) : Square := sget Square.reset s.squares q

/-- Replace square `q`. -/
def State.setSq (s : State) (q : Nat) (v : Square) : State := { s with squares := sset s.squares q v }

/-- Copy channel `ch` of a square. -/
def Square.chan (k : Square) (ch : Nat) : Chan := sget Chan.reset k.chans ch

/-- The sequence numbers of engine `e` for core `c` of a square; engines 0 transfer, 1 matrix, 2 context, 3 collective. -/
def Square.seqno (k : Square) (e c : Nat) : SeqNo := sget SeqNo.reset k.seqs (e * 8 + c)

/-- Operand slot `n` of a square (14 R319). -/
def Square.slot (k : Square) (n : Nat) : MSlot := sget MSlot.reset k.slots n

/-- The matrix state of core `c` of a square (14 R322). -/
def Square.mcore (k : Square) (c : Nat) : MCore := sget MCore.reset k.mcores c

/-- Sequence context `n` of a square (15 R358). -/
def Square.sc (k : Square) (n : Nat) : SeqCtx := sget SeqCtx.free k.scs n

/-- Communicator `n` of a square (17 R392). -/
def Square.cm (k : Square) (n : Nat) : Comm := sget Comm.free k.cms n

/-- Tile-table entry `n` of a square (17 R407). -/
def Square.tent (k : Square) (n : Nat) : TEntry := sget TEntry.invalid k.tents n

/-- The district of a square (01 R3). -/
def districtOf (q : Nat) : Nat := q / 32

/-- District `d`. -/
def State.district (s : State) (d : Nat) : District := sget District.reset s.districts d

/-- Replace district `d`. -/
def State.setDistrict (s : State) (d : Nat) (v : District) : State := { s with districts := sset s.districts d v }

/-! ### Domains, functions and readiness -/

/-- The record of a domain that exists (20 R448). -/
def State.dom? (s : State) (d : Nat) : Option Domain := sget none s.domains d

/-- Replace the record of a domain. -/
def State.setDom (s : State) (d : Nat) (v : Option Domain) : State := { s with domains := sset s.domains d v }

/-- A function's BAR (21 R450). -/
def State.bar (s : State) (d : Nat) : Bar := sget Bar.reset s.bars d

/-- Replace a function's BAR. -/
def State.setBar (s : State) (d : Nat) (v : Bar) : State := { s with bars := sset s.bars d v }

/-- A reset of the domain is under way: its entries are neither taken nor dispatched nor stolen (21 R455). -/
def State.underReset (s : State) (d : Nat) : Bool := (s.bar d).resetting.isSome

/-- Word `n` of the readiness map (01 R25). -/
def State.readyWord (s : State) (n : Nat) : Word := sget 0 s.ready n

/-- The bit of the readiness map for square `q`. -/
def State.squareReady (s : State) (q : Nat) : Bool := bitW (s.readyWord (q / 64)) (q % 64)

/-- The readiness bit of stack `k`, 0 to 7, or of expansion port `k` - 8, 8 to 11 (01 R25). -/
def State.memReady (s : State) (k : Nat) : Bool := bitW (s.readyWord 2) (4 + k)

/-- Set or clear bit `b` of word `n` of the readiness map. -/
def State.setReady (s : State) (n b : Nat) (v : Bool) : State :=
  { s with ready := sset s.ready n (wd (putN (s.readyWord n).toNat b 1 (if v then 1 else 0))) }

/-- The activity of a domain on a resource instance (06 R160). -/
def activityKey (dom res inst : Nat) : Nat := (dom * 8 + res) * 8192 + inst

/-- The budget of an activity (06 R161); one that nothing has limited or used is in the timebase's current period. -/
def State.budget (s : State) (dom res inst : Nat) : Budget :=
  sget { Budget.unlimited with index := s.ktime.toNat / 1000 } s.budgets (activityKey dom res inst)

/-- Replace the budget of an activity. -/
def State.setBudget (s : State) (dom res inst : Nat) (b : Budget) : State :=
  { s with budgets := sset s.budgets (activityKey dom res inst) b }

/-- An amount of 0xFFFF_FFFF_FFFF is unlimited (06 R160). -/
def Budget.spent (b : Budget) : Bool := b.amount != 0xFFFFFFFFFFFF && decide (b.amount ≤ b.used)

/-- Count what an activity uses in its period (06 R161); a count saturates at 48 bits. -/
def State.spend (s : State) (dom res inst n : Nat) : State :=
  let b := s.budget dom res inst
  s.setBudget dom res inst { b with used := min (b.used + n) 0xFFFFFFFFFFFF }

/-! ### Local memory -/

/-- Read `n` bytes of a core's local memory as a value. -/
def State.localLe (s : State) (c off n : Nat) : Nat := memLe (s.coreAt c).mem off n

/-- The bits of `x` that `m` does not have. -/
def bitsOut (x m : Nat) : Nat := x &&& (x ^^^ m)

/-- What is left of an element's old value once the `n` bits from `lo` on have been written (05 R112). -/
def OldEl.cut (lo n : Nat) (o : OldEl) : Option OldEl :=
  if o.pos + o.width ≤ lo ∨ lo + n ≤ o.pos then some o
  else
    let from_ := lo - o.pos
    let live := bitsOut o.live ((2 ^ (lo + n - o.pos - from_) - 1) * 2 ^ from_)
    if live = 0 then none else some { o with live := live }

/-- The `n` bits from `lo` on have been written: what vector entries of a core's contexts replaced there is out of reach (05
R112, R117). -/
def Core.dropOld (k : Core) (lo n : Nat) : Core :=
  if k.ctxs.all (fun p => p.2.vold.isEmpty) then k
  else { k with ctxs := k.ctxs.map (fun p => (p.1, { p.2 with vold := p.2.vold.filterMap (OldEl.cut lo n) })) }

/-- A local address (02 R34) of an offset. -/
def localAddr (off : Nat) : Word := wd (0xFFFF000000000000 + off)

/-- A core's local memory after a write of the `n` bits from bit `lo` of these bytes on, which hold the bits around as they were:
a write of a whole line clears its poison (20 R447). -/
def Core.localBits (k : Core) (off : Nat) (b : List Byte) (lo n : Nat) : Core :=
  let k := k.dropOld (8 * (localAddr off).toNat + lo) n
  { k with
    mem := memWrite k.mem off b
    lpoison := if n = 1024 ∧ off % 128 = 0 then k.lpoison.filter (· != off / 128) else k.lpoison }

/-- A core's local memory after a write of bytes. -/
def Core.localPut (k : Core) (off : Nat) (b : List Byte) : Core := k.localBits off b 0 (8 * b.length)

/-- Write bytes into a core's local memory. -/
def State.localPut (s : State) (c off : Nat) (b : List Byte) : State := s.setCore c ((s.coreAt c).localPut off b)

/-- One of `n` bytes of local memory lies in a poisoned line (20 R447). -/
def Core.poisoned (k : Core) (off n : Nat) : Bool :=
  k.lpoison.any (fun l => decide (off / 128 ≤ l ∧ l ≤ (off + n - 1) / 128))

/-- The chain pool of a core in bytes (07 R183). -/
def Core.pool (k : Core) : Nat × Nat := (bitsW k.kcpool 8 0 * 1024, (bitsW k.kcpool 8 0 + bitsW k.kcpool 24 16) * 1024)

/-- The stash window of a core in bytes (07 R183). -/
def Core.stashRange (k : Core) : Nat × Nat := (bitsW k.kmap 4 0 * 16384, (bitsW k.kmap 4 0 + bitsW k.kmap 12 8) * 16384)

/-- An offset lies in a range. -/
def inRange (r : Nat × Nat) (off : Nat) : Bool := decide (r.1 ≤ off ∧ off < r.2)

/-- The offset is in scratchpad or accumulator window: user mode may access it (07 R167). -/
def Core.userLocal (k : Core) (off : Nat) : Bool :=
  decide (off < 0x6F000) && !inRange k.pool off && !inRange k.stashRange off

/-- Bits 63:48 of an address are 0xFFFF (02 R34). -/
def isLocal (a : Nat) : Bool := a / 2 ^ 48 % 2 ^ 16 == 0xFFFF

/-- A global address has bits 63:48 zero (20 R429). -/
def isGlobal (a : Nat) : Bool := a / 2 ^ 48 % 2 ^ 16 == 0

/-- A local address names an offset below 512 KiB (02 R34). -/
def localOk (a : Nat) : Bool := isLocal a && a / 2 ^ 19 % 2 ^ 29 == 0

/-- The offset of a local address. -/
def localOff (a : Nat) : Nat := a % 2 ^ 19

/-! ### Fields of a context -/

/-- kstat.S: the mode is supervisor (07 R183). -/
def Ctx.sup (x : Ctx) : Bool := bitW x.kstat 0

/-- kstat.PM. -/
def Ctx.pm (x : Ctx) : Bool := bitW x.kstat 1

/-- kstat.T. -/
def Ctx.inTrap (x : Ctx) : Bool := bitW x.kstat 2

/-- kstat.RCHK. -/
def Ctx.rchk (x : Ctx) : Bool := bitW x.kstat 3

/-- kstat from its four fields. -/
def mkStat (sup pm t r : Bool) : Word :=
  wd ((if sup then 1 else 0) + (if pm then 2 else 0) + (if t then 4 else 0) + (if r then 8 else 0))

/-- A packet is open on one of the context's send ports (07 R173). -/
def Ctx.packetOpen (x : Ctx) : Bool := x.tx0.isSome || x.tx1.isSome

/-- The executing context's domain. -/
def State.kdom (s : State) : Nat := s.cur.kdom.toNat

end Sys2Proof.Machine
end

