-- ==== Sys2Proof/Machine/Regions.lean ====
section
/-! DEFINITION. The region algebra on plain data: boxes, canonical form, overflow, bytes and images (09 R230 to R244). -/
namespace Sys2Proof.Machine

/-! ### Coordinates of a box -/

/-- How many coordinates a dimension holds (09 R235); none when lo ≥ hi. -/
def dimCount (d : Dim) : Nat := if d.lo < d.hi ∧ 0 < d.step then ceilDiv (d.hi - d.lo).toNat d.step else 0

/-- The coordinates of a dimension, ascending. -/
def dimVals (d : Dim) : List Int := (upTo (dimCount d)).map (fun i => d.lo + ((i * d.step : Nat) : Int))

/-- A coordinate lies in a dimension (09 R235). -/
def dimHas (d : Dim) (v : Int) : Bool :=
  decide (d.lo ≤ v ∧ v < d.hi) && (v - d.lo) % (d.step : Int) == 0

/-- A box with no cells. -/
def boxEmpty (b : Box) : Bool := b.any (fun d => dimCount d == 0)

/-- A cell lies in a box. -/
def boxHas (b : Box) (x : List Int) : Bool := (b.zip x).all (fun p => dimHas p.1 p.2)

/-- A cell lies in some box. -/
def cellIn (bs : List Box) (x : List Int) : Bool := bs.any (fun b => boxHas b x)

/-- How many cells a box holds. -/
def boxVolume (b : Box) : Nat := b.foldl (fun n d => n * dimCount d) 1

/-- A dimension clipped to 0 ≤ x < n, with hi one past its last coordinate and step 1 for one coordinate (R235, R240). -/
def dimClip (d : Dim) (n : Nat) : Dim :=
  let lo := if d.lo < 0 then d.lo + ((ceilDiv (-d.lo).toNat d.step * d.step : Nat) : Int) else d.lo
  let e : Dim := ⟨lo, min d.hi (n : Int), d.step⟩
  match dimCount e with
  | 0 => ⟨0, 0, 1⟩
  | 1 => ⟨lo, lo + 1, 1⟩
  | c => ⟨lo, lo + (((c - 1) * d.step : Nat) : Int) + 1, d.step⟩

/-- Boxes clipped to a tensor's dimensions; empty ones dropped (09 R240). -/
def clipBoxes (dims : List Nat) (bs : List Box) : List Box :=
  (bs.map (fun b => (b.zip dims).map (fun p => dimClip p.1 p.2))).filter (fun b => !boxEmpty b)

/-! ### Canonical form (09 R239) -/

/-- The boxes that hold coordinate `v` in dimension `k`. -/
def crossSec (k : Nat) (v : Int) (bs : List Box) : List Box :=
  bs.filter (fun b => match b[k]? with
    | some d => dimHas d v
    | none => false)

/-- The span of coordinates that boxes take in dimension `k`: least lo and count up to the greatest hi. -/
def spanOf (k : Nat) (bs : List Box) : Option (Int × Nat) :=
  let ds := bs.filterMap (fun b => b[k]?)
  match ds with
  | [] => none
  | d :: r =>
    let lo := r.foldl (fun m e => min m e.lo) d.lo
    let hi := r.foldl (fun m e => max m e.hi) d.hi
    some (lo, (hi - lo).toNat)

/-- The slabs of R239 over the values that have a cross-section: runs of one spacing of at most 255 and one
cross-section. The current slab is `lo`, `last`, its step (0 while it has one value) and its cross-section. -/
def slabs : List (Int × List Box) → Int → Int → Nat → List Box → List (Dim × List Box)
  | [], lo, last, st, c => [(⟨lo, last + 1, if st = 0 then 1 else st⟩, c)]
  | (v, c') :: r, lo, last, st, c =>
    if c' = c ∧ ((st = 0 ∧ v - last ≤ 255) ∨ v - last = (st : Int)) then slabs r lo v (v - last).toNat c
    else (⟨lo, last + 1, if st = 0 then 1 else st⟩, c) :: slabs r v v 0 c'

/-- A memo of the cross-sections met so far. -/
abbrev CrossMemo := List ((List Box × List Box) × List Box)

/-- Look a pair of cross-sections up, or compute and remember it. -/
def crossMemo (f : List Box → List Box → List Box) (m : CrossMemo) (a b : List Box) : List Box × CrossMemo :=
  match m.find? (fun e => decide (e.1 = (a, b))) with
  | some e => (e.2, m)
  | none => let c := f a b; (c, ((a, b), c) :: m)

/-- The values `lo`, `lo` + 1, ... of dimension `k` with their cross-sections, the empty ones left out. -/
def crossAll (f : List Box → List Box → List Box) (k : Nat) (a b : List Box) :
    Nat → Int → CrossMemo → List (Int × List Box)
  | 0, _, _ => []
  | n + 1, v, m =>
    let (c, m) := crossMemo f m (crossSec k v a) (crossSec k v b)
    if c.isEmpty then crossAll f k a b n (v + 1) m else (v, c) :: crossAll f k a b n (v + 1) m

/-- `decomp(S, r - 1)` (09 R239) of the set of cells x for which `op` of (x in `a`) and (x in `b`) holds. -/
def decomp (op : Bool → Bool → Bool) : Nat → List Box → List Box → List Box
  | 0, a, b => if op (!a.isEmpty) (!b.isEmpty) then [[]] else []
  | k + 1, a, b =>
    match spanOf k (a ++ b) with
    | none => []
    | some (lo, n) =>
      match crossAll (decomp op k) k a b n lo [] with
      | [] => []
      | (v, c) :: r => ((slabs r v v 0 c).map (fun p => p.2.map (fun sub => sub ++ [p.1]))).flatten

/-- The canonical form of the union of boxes of rank `r`. -/
def canon (r : Nat) (bs : List Box) : List Box := decomp (fun x _ => x) r bs []

/-- The cells of boxes, each once, in row-major order, dimension 0 fastest. -/
def cellsOf : Nat → List Box → List (List Int)
  | 0, bs => if bs.isEmpty then [] else [[]]
  | k + 1, bs =>
    match spanOf k bs with
    | none => []
    | some (lo, n) =>
      ((upTo n).map (fun (i : Nat) =>
        let v := lo + (i : Int)
        (cellsOf k (crossSec k v bs)).map (fun x => x ++ [v]))).flatten

/-! ### Overflow (09 R241) -/

/-- The hull of two boxes. -/
def hull (a b : Box) : Box :=
  (a.zip b).map (fun p => ⟨min p.1.lo p.2.lo, max p.1.hi p.2.hi,
    Nat.gcd (Nat.gcd p.1.step p.2.step) (p.1.lo - p.2.lo).natAbs⟩)

/-- How many cells of the hull of two boxes lie in neither. -/
def addedCells (a b : Box) : Nat :=
  let both := (a.zip b).foldl (fun n p => n * ((dimVals p.1).filter (dimHas p.2)).length) 1
  boxVolume (hull a b) - (boxVolume a + boxVolume b - both)

/-- `a` comes before `b` or level with it by lo, highest dimension first. -/
def loLe (a b : Box) : Bool :=
  match ((a.zip b).reverse.map (fun p => (p.1.lo, p.2.lo))).find? (fun q => q.1 != q.2) with
  | some q => decide (q.1 < q.2)
  | none => true

/-- Insert a box stably. -/
def insertBox (b : Box) : List Box → List Box
  | [] => [b]
  | c :: r => if loLe b c && b.map (·.lo) != c.map (·.lo) then b :: c :: r else c :: insertBox b r

/-- Sort boxes stably by lo, highest dimension first. -/
def sortBoxes (bs : List Box) : List Box := bs.foldl (fun acc b => insertBox b acc) []

/-- Are boxes sorted by lo, highest dimension first? -/
def boxesSorted : List Box → Bool
  | a :: b :: r => loLe a b && boxesSorted (b :: r)
  | _ => true

/-- The least index with the least added cells, over neighbouring boxes. -/
def leastMerge : List Box → Nat → Option (Nat × Nat)
  | a :: b :: r, i =>
    let n := addedCells a b
    match leastMerge (b :: r) (i + 1) with
    | some (j, m) => if n ≤ m then some (i, n) else some (j, m)
    | none => some (i, n)
  | _, _ => none

/-- Replace boxes `i` and `i` + 1 by their hull. -/
def mergeAt : List Box → Nat → List Box
  | a :: b :: r, 0 => hull a b :: r
  | a :: r, i + 1 => a :: mergeAt r i
  | l, _ => l

/-- Merge until at most 8 boxes are left; the first argument bounds the merges. -/
def coverMerge : Nat → List Box → List Box
  | 0, l => l
  | n + 1, l =>
    if l.length ≤ 8 then l
    else match leastMerge l 0 with
      | some (i, _) => coverMerge n (sortBoxes (mergeAt l i))
      | none => l

/-! ### Descriptors (09 R230 to R232, R237) -/

/-- The size in bits of an element of a type as stored (03 R74, 04 R78). -/
def typeBits (t : Nat) : Nat :=
  match t with
  | 0 => 32 | 1 => 16 | 2 => 16 | 3 => 32 | 4 => 8 | 5 => 8 | 6 => 6 | 7 => 6 | 8 => 4 | 9 => 8
  | 16 => 8 | 17 => 16 | 18 => 32 | 19 => 64 | 20 => 8 | 21 => 16 | 22 => 32 | 23 => 64 | 24 => 8
  | _ => 8

/-- The size in bytes of an element of a type of 8 bits or more. -/
def typeBytes (t : Nat) : Nat := typeBits t / 8

/-- A type packed below a byte (04 R81). -/
def isSub (t : Nat) : Bool := 6 ≤ t && t ≤ 8

/-- A descriptor from its 64 bytes, and whether it is valid (09 R231, R232). -/
def parseDesc (b : List Byte) : Desc × Bool :=
  let ctl := leAt b 56 8
  let dims := (upTo 4).map (fun i => leAt b (8 + 4 * i) 4)
  let strides := (upTo 4).map (fun i => sextI 64 (leAt b (24 + 8 * i) 8))
  let d : Desc := ⟨wd (leAt b 0 8), dims, strides, fieldN ctl 8 6, fieldN ctl 0 3, fieldN ctl 16 2⟩
  let ok := decide (1 ≤ d.rank ∧ d.rank ≤ 4) && typeOk d.ty && fieldN ctl 3 5 == 0 && fieldN ctl 14 2 == 0 &&
    fieldN ctl 18 46 == 0 && (!isSub d.ty || strides.headD 0 == 0) &&
    (dims.zipIdx.all (fun p => if p.2 < d.rank then decide (1 ≤ p.1 ∧ p.1 ≤ 8388607) else p.1 == 1))
  (d, ok)
where
  /-- A defined element-type code (03 R74). -/
  typeOk (t : Nat) : Bool := t ≤ 9 || (16 ≤ t && t ≤ 24)

/-- The strides of a descriptor in bits, dimension 0 by its type (09 R237). -/
def bitStrides (d : Desc) : List Int :=
  (if isSub d.ty then (typeBits d.ty : Int) else 8 * d.strides.headD 0) :: (d.strides.drop 1).map (8 * ·)

/-- The bit address of a cell, counted from bit 0 of address 0. -/
def cellBit (d : Desc) (x : List Int) : Int :=
  8 * (d.base.toNat : Int) + ((x.zip (bitStrides d)).map (fun p => p.1 * p.2)).foldl (· + ·) 0

/-- The address of a cell, modulo 2^64. -/
def cellAddr (d : Desc) (x : List Int) : Nat := ofIntN 64 (cellBit d x / 8)

/-- The bytes of a cell (09 R237). -/
def cellBytes (d : Desc) (x : List Int) : List Nat :=
  let b := cellBit d x
  let first := b / 8
  let last := (b + (typeBits d.ty : Int) - 1) / 8
  (upTo ((last - first).toNat + 1)).map (fun (i : Nat) => ofIntN 64 (first + (i : Int)))

/-- The greatest and least sum of coordinates times strides. -/
def sumRange : List (Dim × Int) → Int × Int
  | [] => (0, 0)
  | (d, s) :: r =>
    let (lo, hi) := sumRange r
    let a := d.lo * s
    let b := (d.hi - 1) * s
    (lo + min a b, hi + max a b)

/-- The coordinates of a dimension within bounds, at most as many as the bounds leave. -/
def dimWithin (d : Dim) (lo hi : Int) : List Int :=
  let first := if lo ≤ d.lo then d.lo else d.lo + ((ceilDiv (lo - d.lo).toNat d.step * d.step : Nat) : Int)
  dimVals ⟨first, min d.hi (hi + 1), d.step⟩

/-- Is there a choice of coordinates whose sum of products lies between `lo` and `hi`? -/
def sumHits : List (Dim × Int) → Int → Int → Bool
  | [], lo, hi => decide (lo ≤ 0 ∧ 0 ≤ hi)
  | (d, s) :: r, lo, hi =>
    let (rlo, rhi) := sumRange r
    let xs :=
      if s = 0 then (dimVals ⟨d.lo, min d.hi (d.lo + 1), 1⟩)
      else if 0 < s then dimWithin d (-((rhi - lo) / s)) ((hi - rlo) / s)
      else dimWithin d (-((hi - rlo) / (-s))) ((rhi - lo) / (-s))
    xs.any (fun x => sumHits r (lo - x * s) (hi - x * s))

/-- Byte address `a` belongs to a cell of the boxes (09 R237). A cell whose address leaves 0 to 2^64 - 1 holds no byte here, though the
engines reach it modulo 2^64 (log 91). -/
def boxesHoldByte (d : Desc) (bs : List Box) (a : Nat) : Bool :=
  let w : Int := (typeBits d.ty : Int)
  let t : Int := 8 * ((a : Int) - (d.base.toNat : Int))
  bs.any (fun b => !boxEmpty b && sumHits (b.zip (bitStrides d)).reverse (t - w + 1) (t + 7))

/-! ### Images (09 R234, R249) -/

/-- A 24-bit two's complement coordinate of an image. -/
def coord24 (b : List Byte) (o : Nat) : Int := sextI 24 (leAt b o 3)

/-- The four dimensions of a box or box record, with its last word (R234). -/
def parseBox (b : List Byte) (o : Nat) : Box × Nat :=
  ((upTo 4).map (fun i => ⟨coord24 b (o + 3 * i), coord24 b (o + 12 + 3 * i), leAt b (o + 24 + i) 1⟩),
   leAt b (o + 28) 4)

/-- The bytes of a box (R234). -/
def boxBytes (b : Box) (r : Bool) : List Byte :=
  let b4 : Box := (b ++ List.replicate 4 (Dim.mk 0 1 1)).take 4
  (b4.map (fun d => leBytes 3 (ofIntN 24 d.lo))).flatten ++ (b4.map (fun d => leBytes 3 (ofIntN 24 d.hi))).flatten ++
    (b4.map (fun d => leBytes 1 d.step)).flatten ++ leBytes 4 (if r then 1 else 0)

/-- The header word of a region (R234). -/
def regionHeader (q : Region) : Nat :=
  q.handle + q.rank * 2 ^ 24 + q.boxes.length * 2 ^ 28 + (if q.ix then 2 ^ 32 else 0) + (if q.rg then 2 ^ 33 else 0) +
    (if q.cover then 2 ^ 34 else 0)

/-- The 288-byte image of a region (R234). -/
def regionBytes (q : Region) : List Byte :=
  leBytes 8 (regionHeader q) ++ leBytes 8 q.table.toNat ++ leBytes 16 0 ++
    ((upTo 8).map (fun i => match q.boxes[i]? with
      | some b => boxBytes b (q.rg && i == 0)
      | none => leBytes 32 0)).flatten

/-- A box as the image must hold it: R235's rules below the rank, 0, 1, 1 above it. -/
def boxWellFormed (rank : Nat) (b : Box) : Bool :=
  b.zipIdx.all (fun p =>
    if p.2 < rank then
      decide (0 < dimCount p.1) && dimHas p.1 (p.1.hi - 1) && (dimCount p.1 != 1 || p.1.step == 1)
    else p.1 == ⟨0, 1, 1⟩)

/-- The region of an image, or none where the image breaks a layout rule of R234 to R241 (R249). A step of 0 fails too.
The rank is compared with the descriptor's by the caller. -/
def parseRegion (b : List Byte) : Option Region :=
  let hdr := leAt b 0 8
  let rank := fieldN hdr 24 3
  let count := fieldN hdr 28 4
  let rg := fieldN hdr 33 1 == 1
  let ix := fieldN hdr 32 1 == 1
  let parsed := (upTo 8).map (fun i => parseBox b (32 + 32 * i))
  let boxes := (parsed.take count).map (fun p => p.1)
  let cut := boxes.map (fun x => x.take rank)
  let table := leAt b 8 8
  let layout := fieldN hdr 27 1 == 0 && fieldN hdr 35 29 == 0 && leAt b 16 16 == 0 && decide (count ≤ 8) &&
    (b.drop (32 + 32 * count)).all (· == 0) && boxes.all (boxWellFormed rank) &&
    ((parsed.take count).zipIdx.all (fun p => p.1.2 == (if rg && p.2 == 0 then 1 else 0))) &&
    (rg || table == 0) && (!rg || count == 1)
  let nullOk := rank != 0 || b.all (· == 0)
  let form := if ix then boxesSorted cut else rg || canon rank cut == cut
  if decide (rank ≤ 4) && layout && nullOk && form then
    some ⟨fieldN hdr 0 24, rank, cut, ix, rg, fieldN hdr 34 1 == 1, wd table⟩
  else none

/-- The cells of region `a` all lie in region `b` of the same tensor. -/
def boxesSubset (r : Nat) (a b : List Box) : Bool := (decomp (fun x y => x && !y) r a b).isEmpty

/-- The boxes of a ragged region with its lengths applied: one box for each row of dimension 1 (R238, R257). -/
def raggedBoxes (q : Region) (len : Nat → Nat) : List Box :=
  match q.boxes with
  | (d0 :: d1 :: rest) :: _ =>
    (dimVals d1).zipIdx.filterMap (fun p =>
      let d : Dim := ⟨d0.lo, min d0.hi (d0.lo + (len p.2 : Int)), d0.step⟩
      if dimCount d == 0 then none else some (d :: ⟨p.1, p.1 + 1, 1⟩ :: rest))
  | _ => q.boxes

/-- The boxes of a footprint hold byte `a` (R237, R243). -/
def footHolds (f : Footprint) (a : Nat) : Bool :=
  match f.desc with
  | some d => boxesHoldByte d f.region.boxes a
  | none => false

/-! ### Elements of a shape record (12 R291, R292) -/

/-- How many elements a record has. -/
def Shape.count (h : Shape) : Nat := h.ext.foldl (· * ·) 1

/-- The coordinates of the element with linear index `i` (R292). -/
def Shape.coords (h : Shape) (i : Nat) : List Nat :=
  (h.ext.foldl (fun (p : List Nat × Nat) e => (p.1 ++ [p.2 % max e 1], p.2 / max e 1)) ([], i)).1

/-- The bit address of an element's first bit (R292). -/
def Shape.bitAt (h : Shape) (i : Nat) : Int :=
  8 * (h.base.toNat : Int) +
    (typeBits h.ty : Int) * (((h.coords i).zip h.str).map (fun p => (p.1 : Int) * p.2)).foldl (· + ·) 0

/-- The byte addresses of an element. -/
def Shape.elBytes (h : Shape) (i : Nat) : List Nat :=
  let b := h.bitAt i
  let first := b / 8
  (upTo (((b + (typeBits h.ty : Int) - 1) / 8 - first).toNat + 1)).map (fun (k : Nat) => ofIntN 64 (first + (k : Int)))

/-- The address of an element's first byte. -/
def Shape.elAddr (h : Shape) (i : Nat) : Nat := ofIntN 64 (h.bitAt i / 8)

/-- The records that a held entry names. -/
def VEntry.records (e : VEntry) : List Shape := [e.hd, e.ha, e.hb, e.scale].filterMap id

end Sys2Proof.Machine
end

