-- ==== Sys2Proof/Machine/Trans.lean ====
section
/-! DEFINITION. Homes, page tables, rights, heat and coherence of global memory (20 R429 to R447, 10 R271). -/
namespace Sys2Proof.Machine

/-! ### Homes and frames -/

/-- A frame lies in a stack or behind an expansion port (20 R433). -/
def frameValid (pa : Nat) : Bool := decide (pa < 8 * 2 ^ 36 ∨ (2 ^ 43 ≤ pa ∧ pa < 2 ^ 43 + 4 * 2 ^ 41))

/-- Which stack (0 to 7) or port (8 to 11) holds a physical address (20 R433). -/
def backing (pa : Nat) : Nat := if pa < 2 ^ 43 then pa / 2 ^ 36 else 8 + (pa - 2 ^ 43) / 2 ^ 41

/-- The segment of an address (20 R429). -/
def segOf (va : Nat) : Nat := va / 2 ^ 21 % 2 ^ 27

/-- The home square of a segment by the package home map (20 R430). -/
def State.homeOf (s : State) (seg : Nat) : Option Nat :=
  if seg < s.pkg.segs then
    let e := (memGet s.mem (s.pkg.home.toNat + seg)).toNat
    if e / 128 = 1 then some (e % 128) else none
  else none

/-! ### The page-table walk (20 R432, R434) -/

/-- The name of a page-table entry in a home tile's cache: its level and the address bits that lead to it. -/
def pteKey (lvl va : Nat) : Nat := lvl + 4 * (va / 2 ^ (39 - 9 * lvl))

/-- Read a page-table entry, from the home tile's cache or from memory; the tile keeps what it walks (R434). -/
def pteRead (q lvl va table : Nat) (s : State) : Nat × State :=
  let k := s.sqAt q
  match k.ptc.find? (fun e => e.1 == pteKey lvl va) with
  | some e => (e.2.toNat, s)
  | none =>
    let v := memLe s.mem (table + 8 * (va / 2 ^ (39 - 9 * lvl) % 512)) 8
    (v, s.setSq q { k with ptc := sset k.ptc (pteKey lvl va) (wd v) })

/-- The frame of a page-table entry as a physical address (20 R432). -/
def pteFrame (e : Nat) : Nat := fieldN e 12 40 * 4096

/-- A page-table entry without its frame. -/
def pteRest (e : Nat) : Nat := e % 4096 + e / 2 ^ 52 * 2 ^ 52

/-- Whether the 16 leaves of a 64 KiB page agree (20 R432); the tile keeps them too (R434). -/
def groupAgrees (q va table : Nat) (s : State) : Bool × State :=
  let base := alignDown va 65536
  let e0 := (pteRead q 3 base table s).1
  (upTo 16).foldl (fun (p : Bool × State) j =>
    let (e, s) := pteRead q 3 (base + 4096 * j) table p.2
    (p.1 && pteRest e == pteRest e0 && pteFrame e == pteFrame e0 + 4096 * j, s)) (true, s)

/-- A leaf found by a walk: the entry, its level, and the physical address of the entry. -/
structure Leaf where
  e : Nat
  lvl : Nat
  at_ : Nat
  deriving DecidableEq, Repr

/-- Walk from a table through the levels given; none for an invalid or malformed entry (20 R434). -/
def walk (q va : Nat) : List Nat → Nat → State → Option Leaf × State
  | [], _, s => (none, s)
  | l :: r, table, s =>
    let (e, s) := pteRead q l va table s
    if fieldN e 0 1 = 0 then (none, s)
    else if fieldN e 1 1 = 1 then
      let (agree, s) := if l = 3 && fieldN e 2 1 == 1 then groupAgrees q va table s else (true, s)
      if l = 0 then (none, s)
      else if l = 1 && fieldN e 3 1 == 1 then (none, s)
      else if !agree then (none, s)
      else if frameValid (pteFrame e) then (some ⟨e, l, table + 8 * (va / 2 ^ (39 - 9 * l) % 512)⟩, s)
      else (none, s)
    else if l = 3 then (none, s)
    else if frameValid (pteFrame e) then walk q va r (pteFrame e) s
    else (none, s)

/-- The size of a leaf's page as a power of two (20 R432). -/
def leafShift (l : Leaf) : Nat :=
  if l.lvl = 1 then 30 else if l.lvl = 2 then 21 else if fieldN l.e 2 1 = 1 then 16 else 12

/-- The physical address of an address under a leaf. -/
def leafPa (l : Leaf) (va : Nat) : Nat := pteFrame l.e + va % 2 ^ (39 - 9 * l.lvl)

/-- Walk an address from the package's root. -/
def walkTop (q va : Nat) (s : State) : Option Leaf × State := walk q va [0, 1, 2, 3] s.pkg.root.toNat s

/-- What translation answers (20 R434): a physical address and the page's size, or a reason and the pager's code. -/
inductive Tr where
  | ok (pa shift : Nat)
  | stop (reason code : Nat)
  deriving DecidableEq, Repr

/-- Translate by a walk at home square `home`; `wr` for stores, REL, atomics, DISC, ZLINE and engine writes (20 R430, R434,
R438, R439). A page behind a stack or port that has not reported ready is not resident (01 R27). -/
def translatePage (home : Option Nat) (wr : Bool) (va : Nat) (s : State) : Tr × State :=
  match home with
  | none => (.stop 4 2, s)
  | some q =>
    if !s.squareReady q then (.stop 1 0, s)
    else
      match walkTop q va s with
      | (none, s) => (.stop 4 1, s)
      | (some l, s) =>
        let h := fieldN l.e 3 1 == 1
        let m := fieldN l.e 4 1 == 1
        if m && (wr || h) then (.stop 2 0, s)
        else if !s.memReady (backing (leafPa l va)) then (.stop 1 0, s)
        else if !m && h then (.stop 3 0, s)
        else if !m && fieldN l.e 5 1 == 0 then (.stop 1 0, s)
        else (.ok (leafPa l va) (leafShift l), s)

/-- A page of the range is under migration: its M bit is set (R438, R439). -/
def State.migrating (s : State) (va : Nat) : Bool :=
  s.districts.any (fun p => p.2.migs.any (fun m => m.running && decide (m.page ≤ va ∧ va < m.page + m.size)))

/-- Where a line that hits level two at its home tile was translated to: a line that misses is translated, and one of a page under
migration is served as its page is (R434, R438; log 71). -/
def State.l2Known (s : State) (home : Option Nat) (va : Nat) : Option (Nat × Nat) := do
  let q ← home
  let e ← (s.sqAt q).l2.find? (fun e => e.line == va / 128)
  if !s.squareReady q || s.migrating va then none else e.tr

/-- Translate an access at its home tile (R434): a hit of level two needs no walk. -/
def translate (home : Option Nat) (wr : Bool) (va : Nat) (s : State) : Tr × State :=
  match s.l2Known home va with
  | some (at_, shift) => (.ok (at_ + va % 128) shift, s)
  | none => translatePage home wr va s

/-- The home tile of an address keeps the page-table entries that a walk of it reads (R434). -/
def State.walked (s : State) (va : Nat) : State := (translatePage (s.homeOf (segOf va)) false va s).2

/-! ### Heat (20 R440) -/

/-- The lowest count of a heat cache and its index. -/
def coldest : List (Nat × Nat) → Nat → Option (Nat × Nat)
  | [], _ => none
  | (_, n) :: r, i =>
    match coldest r (i + 1) with
    | some (j, m) => if n ≤ m then some (i, n) else some (j, m)
    | none => some (i, n)

/-- Add 1 to a page's count (20 R440). -/
def heatBump (h : List (Nat × Nat)) (page : Nat) : List (Nat × Nat) :=
  if h.any (fun e => e.1 == page) then
    h.map (fun e => if e.1 == page then (e.1, min (e.2 + 1) 0xFFFF) else e)
  else if h.length < 4096 then h ++ [(page, 1)]
  else match coldest h 0 with
    | some (i, _) => h.set i (page, 1)
    | none => [(page, 1)]

/-- Count the write-backs of lines that leave level two, each in its page's heat (20 R440). -/
def heatBack (h : List (Nat × Nat)) (out : List L2Line) : List (Nat × Nat) :=
  (out.filter (·.dirty)).foldl (fun h e => heatBump h e.page) h

/-- The HBM beats of the write-backs of lines that leave level two: two of 64 bytes a line (06 R160). -/
def beatsBack (out : List L2Line) : Nat := 2 * (out.filter (fun e => e.dirty && e.hbm)).length

/-! ### The level-two slice (00 R1, 10 R277) -/

/-- The lines of a level-two slice: 12 MiB (00 R1). -/
def l2Lines : Nat := 98304

/-- The sets of a slice: its lines in ways whose number is a multiple of 8, so that the reserved partition, an eighth of the slice
(10 R277), is a share of each set (log 70). -/
def l2SetCount : Nat := if 12288 % (Config.l2Sets % 12288 + 1) = 0 then Config.l2Sets % 12288 + 1 else 1

/-- Two lines lie in one set of their slice. -/
def l2Meets (a b : Nat) : Bool := Config.l2Set a % l2SetCount == Config.l2Set b % l2SetCount

/-- A line is not in the slice. -/
def Square.l2Miss (k : Square) (line : Nat) : Bool := !k.l2.any (fun e => e.line == line)

/-- Insert a line into a slice, lines ascending. -/
def l2Insert (e : L2Line) : List L2Line → List L2Line
  | [] => [e]
  | x :: r => if e.line < x.line then e :: x :: r else x :: l2Insert e r

/-- The line of a list that is next to be replaced. -/
def l2Next : List L2Line → Option L2Line
  | [] => none
  | e :: r => match l2Next r with
    | none => some e
    | some x => if e.rank ≤ x.rank then some e else some x

/-- The line that a set gives up when an access has put line `e` into it: none while it has room, which it has for 8 lines, else
the next of its lines that is not pinned, or the line itself where all others are. -/
def Square.l2Victim (k : Square) (l : List L2Line) (e : L2Line) : Option L2Line :=
  let set := l.filter (fun x => l2Meets x.line e.line)
  if l.length ≤ 8 then none
  else if set.length ≤ l2Lines / l2SetCount then none
  else some ((l2Next (set.filter (fun x => !k.pinned.contains x.line))).getD e)

/-- A slice after an access to a line of reuse class `reuse`, and the lines that leave it: a line that misses stands in the order of
replacement where its class asks (R277). `n` numbers the access. -/
def Square.l2Access (k : Square) (n reuse : Nat) (e : L2Line) : List L2Line × List L2Line :=
  let rest := k.l2.filter (fun x => x.line != e.line)
  let last := rest.foldl (fun m x => max m (x.rank + 1)) 0
  let place := if k.l2Miss e.line && reuse == 0 then 0
    else if k.l2Miss e.line && decide (2 ≤ reuse) then last else Config.l2Place n % (last + 1)
  let e := { e with dirty := e.dirty || k.l2.any (fun x => x.line == e.line && x.dirty), rank := place }
  let l := l2Insert e (rest.map (fun x => { x with rank := if x.rank < place then x.rank else x.rank + 1 }))
  let out := k.l2Victim l e
  (l.filter (fun x => !out.any (fun y => y.line == x.line)), out.toList)

/-- A slice without its lines of a range, and those lines (20 R444). -/
def Square.l2Flush (k : Square) (lo hi : Nat) : Square :=
  let hit (line : Nat) : Bool := decide (lo ≤ 128 * line ∧ 128 * line < hi)
  { k with
    l2 := k.l2.filter (fun e => !hit e.line)
    pinned := k.pinned.filter (fun l => !hit l)
    hot := k.hot.filter (fun p => !hit p.1)
    heat := heatBack k.heat (k.l2.filter (fun e => hit e.line)) }

/-- The lines of a page in a slice follow the page to another frame (20 R438). -/
def Square.l2Move (k : Square) (lo hi : Nat) (hbm : Bool) : Square :=
  { k with l2 := k.l2.map (fun e => if lo ≤ 128 * e.line ∧ 128 * e.line < hi then { e with hbm := hbm, tr := none } else e) }

/-- Charge HBM beats to a domain, if one makes the access (06 R160, R161). -/
def State.spendBeats (s : State) (dom : Option Nat) (d n : Nat) : State :=
  match dom with
  | some a => s.spend a 2 d n
  | none => s

/-- An access reaches home square `q`, for domain `dom` if it has one. When its line misses level two, it is filled from its
frame: a fill in the district's total, in the page's heat, and two beats of HBM; a line with a zero flag is answered without
its frame (10 R273). A written line that leaves level two is a write-back (20 R440, 06 R160; log 70). -/
def State.touch (s : State) (dom : Option Nat) (reuse q va pa shift : Nat) (wr : Bool) : State :=
  let k := s.sqAt q
  let hbm := decide (pa < 2 ^ 43)
  let e : L2Line := ⟨va / 128, alignDown va (2 ^ shift), hbm, wr, some (alignDown pa 128, shift), 0⟩
  let fill := k.l2Miss e.line && !s.zeroLines.contains (pa / 128)
  let r := k.l2Access s.freeCtr reuse e
  let d := districtOf q
  let t := s.district d
  let one (b : Bool) : Word := if b then 1 else 0
  let s := s.setSq q { k with
    l2 := r.1, heat := heatBack (if fill then heatBump k.heat e.page else k.heat) r.2 }
  let s := s.setDistrict d { t with hbmFills := t.hbmFills + one (fill && hbm), expFills := t.expFills + one (fill && !hbm) }
  let s := s.spendBeats dom d ((if fill && hbm then 2 else 0) + beatsBack r.2)
  { s with freeCtr := s.freeCtr + 1 }

/-- A level-two line is written back to its frame and stays, as WBK asks (08 R204). -/
def State.l2Clean (s : State) (dom : Option Nat) (q line : Nat) : State :=
  let k := s.sqAt q
  let out := k.l2.filter (fun e => e.line == line)
  let s := s.setSq q { k with
    l2 := k.l2.map (fun e => if e.line == line then { e with dirty := false } else e), heat := heatBack k.heat out }
  s.spendBeats dom (districtOf q) (beatsBack out)

/-- The activity has used its HBM beats of the period, and the line's fill would take more (06 R161). -/
def State.beatsSpent (s : State) (dom q va pa : Nat) : Bool :=
  decide (pa < 2 ^ 43) && (s.budget dom 2 (districtOf q)).spent && (s.sqAt q).l2Miss (va / 128) &&
    !s.zeroLines.contains (pa / 128)

/-- A fill or a read of a line of a frame meets poison: a line with a zero flag is answered without its frame (10 R273, 20
R447). -/
def State.frameBad (s : State) (pa : Nat) : Bool := s.poison.contains (pa / 128) && !s.zeroLines.contains (pa / 128)

/-! ### The stashes (10 R271, R272) -/

/-- The entry of a core's stash for a line and domain. -/
def Core.stashFor (k : Core) (line dom : Nat) : Option StashEntry :=
  k.stash.find? (fun e => e.line == line && e.dom == dom)

/-- The local offset of a stash entry's data. -/
def Core.stashOff (k : Core) (e : StashEntry) : Nat := k.stashRange.1 + 128 * e.slot

/-- Bytes of a filled entry's line; a zero-flagged entry does not use its data (10 R271, R273). -/
def Core.entryRead (k : Core) (e : StashEntry) (o n : Nat) : List Byte :=
  if e.z then leBytes n 0 else memRead k.mem (k.stashOff e + o) n

/-- Bytes of a filled entry's line are poisoned (20 R447). -/
def Core.entryBad (k : Core) (e : StashEntry) (o n : Nat) : Bool := !e.z && k.poisoned (k.stashOff e + o) n

/-- A core without the F flag of its entries of a line, apart from the entry of domain `mine`: another agent wrote the `n` bits
from bit `lo` on, which lie in the line (10 R272). What its contexts' vector entries replaced there is out of reach (05 R112). -/
def Core.stashWritten (k : Core) (mine : Option Nat) (lo n : Nat) : Core :=
  let k := k.dropOld lo n
  if k.stash.isEmpty then k
  else { k with stash := k.stash.map (fun e =>
    if e.line == lo / 1024 && mine != some e.dom then { e with f := false, d := false, z := false } else e) }

/-- Drop a line from a core's L1: another agent wrote it (05 R132). -/
def Core.l1Written (k : Core) (line : Nat) : Core :=
  if k.l1.contains line then { k with l1 := k.l1.filter (· != line) } else k

/-- Tell every stash and L1 of a write of the `n` bits from bit `lo` on, within one line; `by_` is the writing core and its
domain. -/
def State.bitsWritten (s : State) (by_ : Option (Nat × Nat)) (lo n : Nat) : State :=
  { s with cores := s.cores.map (fun p => (p.1,
      match by_ with
      | some (c, d) =>
        if c = p.1 then p.2.stashWritten (some d) lo n else (p.2.stashWritten none lo n).l1Written (lo / 1024)
      | none => (p.2.stashWritten none lo n).l1Written (lo / 1024))) }

/-- Tell every stash and L1 of a write of `n` bytes within one line. -/
def State.stashesWritten (s : State) (by_ : Option (Nat × Nat)) (va n : Nat) : State := s.bitsWritten by_ (8 * va) (8 * n)

/-- Write bytes within one line at a physical address: the zero flag goes, and the poison too when the whole line is
written (10 R273, 20 R447). -/
def State.putPhys (s : State) (pa : Nat) (b : List Byte) : State :=
  let s := { s with mem := memWrite s.mem pa b, zeroLines := s.zeroLines.filter (· != pa / 128) }
  if b.length = 128 then { s with poison := s.poison.filter (· != pa / 128) } else s

/-- Write a line at a physical address, poisoned or not. -/
def State.putLine (s : State) (pa : Nat) (b : List Byte) (bad : Bool) : State :=
  let s := s.putPhys (alignDown pa 128) b
  if bad then { s with poison := pa / 128 :: s.poison } else s

/-- A core's entry with its D flag clear. -/
def Core.cleaned (k : Core) (e : StashEntry) : Core :=
  { k with stash := k.stash.map (fun x => if x == e then { x with d := false } else x) }

/-- The stash entry that alone holds a line's data, with its core (10 R272). -/
def State.dirtyEntry (s : State) (line : Nat) : Option (Nat × StashEntry) :=
  s.cores.findSome? (fun p => (p.2.stash.find? (fun e => e.line == line && e.d)).map (fun e => (p.1, e)))

/-- The data that a stash has given up and that waits for its page. -/
def HwWork.backOf (line : Nat) : HwWork → Option (List Byte × Bool)
  | .back l b bad => if l = line then some (b, bad) else none
  | _ => none

/-- The line at its home tile, with home square `q`, stands as every other agent may see it: a dirty entry's data is recalled,
its poison with it, and so is what waits to be written back (10 R272, 20 R447). -/
def State.recall (s : State) (q line pa shift : Nat) : State :=
  let s := match (s.hw.filterMap (HwWork.backOf line)).getLast? with
    | some (b, bad) => { s.putLine pa b bad with hw := s.hw.filter (fun w => (w.backOf line).isNone) }
    | none => s
  match s.dirtyEntry line with
  | none => s
  | some (c, e) =>
    let k := s.coreAt c
    ((s.putLine pa (k.entryRead e 0 128) (k.entryBad e 0 128)).setCore c (k.cleaned e)).touch (some e.dom) 1 q (128 * line)
      pa shift true

/-- A core writes a dirty entry back: to the line's frame, or, while its page is not served, later (10 R272; log 18). -/
def State.giveBack (s : State) (c : Nat) (e : StashEntry) : State :=
  let home := s.homeOf (segOf (128 * e.line))
  let k := s.coreAt c
  match translate home true (128 * e.line) s with
  | (.ok pa shift, s) => s.recall (home.getD 0) e.line pa shift
  | (.stop .., _) =>
    { s.setCore c (k.cleaned e) with hw := s.hw ++ [.back e.line (k.entryRead e 0 128) (k.entryBad e 0 128)] }

/-- A core writes back those of its dirty entries that pass a test, oldest first. -/
def State.giveBackAll (s : State) (c : Nat) (which : StashEntry → Bool) : State :=
  ((s.coreAt c).stash.filter (fun e => e.d && which e)).foldl (fun s e => s.giveBack c e) s

/-- The entries of a range are written back; with `out` they are emptied too (20 R438, R439, R444). -/
def State.flushStashes (s : State) (lo hi : Nat) (out : Bool) : State :=
  let hit (e : StashEntry) : Bool := decide (lo ≤ 128 * e.line ∧ 128 * e.line < hi)
  let s := s.cores.foldl (fun s p => s.giveBackAll p.1 hit) s
  if out then { s with cores := s.cores.map (fun p => (p.1, { p.2 with stash := p.2.stash.map (fun e =>
    if hit e then { e with f := false, z := false } else e) })) } else s

/-- Fill a core's stash entry with its line; a poisoned line gives a poisoned copy, a line with a zero flag none (10 R272, R273,
20 R447). -/
def fillEntry (s : State) (c : Nat) (e : StashEntry) (pa : Nat) : State :=
  let z := s.zeroLines.contains (pa / 128)
  let k := s.coreAt c
  let l := if z then k else k.localPut (k.stashOff e) (memRead s.mem (alignDown pa 128) 128)
  s.setCore c { l with
    lpoison := if s.frameBad pa then l.stashOff e / 128 :: l.lpoison else l.lpoison
    stash := l.stash.map (fun x => if x == e then { x with f := true, d := false, z := z } else x) }

/-- Bytes written into a filled entry, of which the `n` bits from bit `lo` on change: the entry alone holds the line's data, its
zeros among them, and every other copy goes (10 R271 to R273). -/
def State.entryBits (s : State) (c : Nat) (e : StashEntry) (va : Nat) (b : List Byte) (lo n : Nat) : State :=
  let k := s.coreAt c
  let k := if e.z then k.localPut (k.stashOff e) (leBytes 128 0) else k
  let k := k.localPut (k.stashOff e + va % 128) b
  (s.setCore c { k with stash := k.stash.map (fun x =>
    if x.line == e.line && x.dom == e.dom then { x with d := x.f, z := false } else x) }).bitsWritten (some (c, e.dom))
    (8 * va + lo) n

/-- Bytes written into a filled entry. -/
def State.entryPut (s : State) (c : Nat) (e : StashEntry) (va : Nat) (b : List Byte) : State :=
  s.entryBits c e va b 0 (8 * b.length)

/-- A write within one line by an agent that is not a core's context. -/
def State.putGlobal (s : State) (va pa : Nat) (b : List Byte) : State :=
  (s.putPhys pa b).stashesWritten none va b.length

/-! ### Accesses of the hardware (20 R448) -/

/-- An access of the hardware within one line, without rights checks (20 R448): the physical address, or the address, reason and
code that hold the access; with either, the state that it leaves, in which the home tile keeps the entries it walked (R434) and
the line (R440). Reason 0 means a line that an engine owns (05 R128). -/
def hvLook (wr : Bool) (va : Nat) (s : State) : Except (Nat × Nat × Nat) Nat × State :=
  let home := s.homeOf (segOf va)
  match translate home wr va s with
  | (.stop r c, s) => (.error (va, r, c), s)
  | (.ok pa shift, s) =>
    if s.owned.any (fun o => o.line == va / 128) then (.error (va, 0, 0), s)
    else
      let s := (s.recall (home.getD 0) (va / 128) pa shift).touch none 1 (home.getD 0) va pa shift wr
      (if !wr && s.frameBad pa then .error (va, 4, 4) else .ok pa, s)

/-- An access of the hardware that is made (20 R448), or what holds it. -/
def hvTry (wr : Bool) (va : Nat) (s : State) : Except (Nat × Nat × Nat) (Nat × State) :=
  match hvLook wr va s with
  | (.ok pa, t) => .ok (pa, t)
  | (.error h, _) => .error h

/-- What a read by the hardware leaves behind: the entries that the home tile walks, and the line (R434, R440). -/
def State.hvSeen (s : State) (va : Nat) : State := (hvLook false va s).2

/-- The `n` bytes within one line that stand at an address, none where they cannot be read now. It is no access: a rule of the
spec speaks of them, and no unit fetches them for it (log 81). -/
def State.peek (s : State) (va n : Nat) : Option (List Byte) :=
  match hvTry false va s with
  | .ok (pa, t) => some (memRead t.mem pa n)
  | .error _ => none

/-- The value of the bytes that stand at an address, as `peek`. -/
def State.peekLe (s : State) (va n : Nat) : Option Nat := (s.peek va n).map ofBytes

/-- Write bytes within one line by the hardware, as `hvTry`; none when they cannot be written now. -/
def State.hvPut (s : State) (va : Nat) (b : List Byte) : Option State :=
  match hvTry true va s with
  | .ok (pa, s) => some (s.putGlobal va pa b)
  | .error _ => none

/-! ### Rights (20 R431) -/

/-- A read of a domain's rights entry from its table: the entry and the state after the read, or the address, reason and code
of `hvTry` that keep it from being read. -/
inductive RightsRead where
  | entry (r : Nat) (s : State)
  | stop (addr reason code : Nat)
  deriving DecidableEq, Repr

/-- The rights entry of a segment, from memory: 0 beyond the count and for a domain that does not exist (20 R431). -/
def State.rightsEntry (s : State) (dom seg : Nat) : RightsRead :=
  match s.dom? dom with
  | none => .entry 0 s
  | some d =>
    if seg < d.segs then
      match hvTry false (d.rights.toNat + 2 * seg) s with
      | .ok (pa, t) => .entry (memLe t.mem pa 2) t
      | .error (a, r, c) => .stop a r c
    else .entry 0 s

/-- The address of a segment's rights entry; 0 for a domain that does not exist. -/
def State.rightsAt (s : State) (dom seg : Nat) : Nat :=
  match s.dom? dom with
  | some d => d.rights.toNat + 2 * seg
  | none => 0

/-- The rights bits R, W, X of an entry as 0 to 7; 0 when V = 0. -/
def rightsBits (e : Nat) : Nat := if fieldN e 15 1 = 1 then fieldN e 0 3 else 0

/-- The three things a segment's rights cover, as masks: R, W, X. -/
def needR : Nat := 1
/-- Write. -/
def needW : Nat := 2
/-- Both, for atomics. -/
def needRW : Nat := 3
/-- Execute. -/
def needX : Nat := 4

/-- All the rights asked for are granted. -/
def granted (bits need : Nat) : Bool := (bits &&& need) == need

/-- Look the rights and home of a segment up in a core's PLB, filling it on a miss and keeping the 64 most recently used
pairs (20 R431). An error is as `hvLook` gives it; with either answer, the state that the look leaves. -/
def plbLook (c dom seg : Nat) (s : State) : Except (Nat × Nat × Nat) PlbEntry × State :=
  let k := s.coreAt c
  match k.plb.find? (fun e => e.dom == dom && e.seg == seg) with
  | some e => (.ok e, s.setCore c { k with plb := e :: k.plb.filter (fun x => x != e) })
  | none =>
    match s.rightsEntry dom seg with
    | .stop a r cd => (.error (a, r, cd), s.hvSeen a)
    | .entry v s =>
      let e : PlbEntry := ⟨dom, seg, BitVec.ofNat 16 v, s.homeOf seg⟩
      let k := s.coreAt c
      (.ok e, s.setCore c { k with plb := (e :: k.plb).take 64 })

/-! ### Engine accesses (09 R244, 20 R434) -/

/-- A line is owned by a command appended before the one with append number `ord` (05 R128, R130). -/
def State.ownedBefore (s : State) (ord line : Nat) : Bool := s.owned.any (fun o => o.line == line && decide (o.ord < ord))

/-- Who makes an engine access: its append number, its domain, whether it is an engine's command (an entry of the vector
sequencer is none, and fails on no page that the pager gives up: 12 R288, 20 R436), and the reuse class of the lines it touches
(10 R277; 1 where the spec gives none). -/
structure Agent where
  ord : Nat
  dom : Nat
  cmd : Bool
  reuse : Nat
  deriving DecidableEq, Repr

/-- Why an engine's access to a line is not made: its rights are gone or its data is poisoned (with who met the poison, and where,
if a line was fetched for it), or it waits for another engine's line, for its budget, or (reason not 0) for the page of address
`va`. -/
inductive EStop where
  | abandon (met : Option (Agent × Nat))
  | wait (va reason code : Nat)
  deriving DecidableEq, Repr

/-- What an abandoned access leaves at the home tile: the line was fetched before its poison showed (20 R440, R447). -/
def State.metPoison (s : State) : Option (Agent × Nat) → State
  | none => s
  | some (a, va) =>
    let home := s.homeOf (segOf va)
    match translate home false va s with
    | (.ok pa shift, s) => s.touch (some a.dom) a.reuse (home.getD 0) va pa shift false
    | (.stop .., s) => s

/-- The entry that a command makes in the lists of pages it waits for or fails on. -/
def Agent.at (a : Agent) (va : Nat) : PageWait := ⟨a.ord, a.dom, alignDown va 4096⟩

/-- The pager lets a command that waited for a page fail on it (20 R436). -/
def State.abortedFor (s : State) (a : Agent) (va : Nat) : Bool := a.cmd && s.aborted.contains (a.at va)

/-- A command waits for a page (20 R436). -/
def State.waitsFor (s : State) (a : Agent) (va : Nat) : State :=
  if a.cmd && !s.pageWaits.contains (a.at va) then { s with pageWaits := s.pageWaits ++ [a.at va] } else s

/-- A command reaches a page, and waits for it no longer. -/
def State.waitsNot (s : State) (a : Agent) (va : Nat) : State :=
  { s with pageWaits := s.pageWaits.filter (· != a.at va) }

/-- The pool descriptor of a command of the context engine: as its sequence context names it, or its record while the KOPEN is
pending, if that can be read now (15 R358, R359). -/
def KCmd.poolAt (s : State) (k : Square) (c : KCmd) : Option Nat :=
  let x := k.sc c.sc
  if k.kq.any (fun y => y.sc == c.sc && (match y.insn with
      | .kopen .. => true
      | _ => false)) then s.peekLe x.record.toNat 8 else some x.pool.toNat

/-- An instruction whose command may change pages, headers, counts or the free list of a pool (15 R357 to R372). -/
def changesPool : Instr → Bool
  | .kclose .. | .kapp .. | .kacc .. | .kpb .. | .kspl .. | .kfork .. | .ktent .. | .kdropt .. => true
  | _ => false

/-- The spans of a pool whose descriptor stands at an address, as first byte and length; none while it cannot be read. -/
def poolSpans (s : State) (fmt d : Nat) : Option (List (Nat × Nat)) := do
  let b ← s.peek d 64
  let n := leAt b 24 4
  pure [(d, 64), (leAt b 0 8, (if fmt = 4 then 4096 else 8192) * n), (leAt b 8 8, 128 * n), (leAt b 16 8, 2 * n)]

/-- The spans of global memory that a command of the context engine may write, as first byte and length: the record of a
KCLOSE, and the pool of a command that changes pages, headers or counts; none while they are not known, for the pool's descriptor
cannot be read (15 R354 to R372; log 61). -/
def KCmd.writes (s : State) (k : Square) (c : KCmd) : Option (List (Nat × Nat)) :=
  let x := k.sc c.sc
  let pool := (c.poolAt s k).bind (poolSpans s x.fmt)
  match c.insn with
  | .kclose .. => pool.map (fun l => (x.record.toNat, 256) :: l)
  | _ => if changesPool c.insn then pool else some []

/-- A command of the context engine appended before an engine's command may yet write a line that it accesses, any line while its
spans are not known (05 R130); the context engine's own commands meet in its atomics instead (15 R357). -/
def State.kWritesBefore (s : State) (a : Agent) (line : Nat) : Bool :=
  a.cmd && !s.squares.any (fun p => p.2.kq.any (fun c => c.hdr.ord == a.ord)) &&
    s.squares.any (fun p => p.2.kq.any (fun c => decide (c.hdr.ord < a.ord) &&
      (c.writes s p.2).all (fun l => l.any (fun w => decide (w.1 / 128 ≤ line ∧ 128 * line < w.1 + w.2)))))

/-- The package of a member entry (R392). -/
def memberPackage (w : Word) : Nat := bitsW w 14 0

/-- The square of a member entry. -/
def memberSquare (w : Word) : Nat := bitsW w 21 15

/-- The communicator of a member entry. -/
def memberCm (w : Word) : Nat := bitsW w 25 22

/-- The posts of a communicator that may yet write its successor's ring, by their places among the package's appends. -/
def Comm.ringOrds (c : Comm) : List Nat :=
  let ring (p : Post) : Bool := p.kind != .put && p.kind != .bar
  (c.order.filterMap (fun o => match o with
    | .post p => some p
    | _ => none) ++ (c.run.map (·.post)).toList).filterMap (fun p => if ring p then some p.ord else none)

/-- The line lies in a communicator's ring, which its CCOMM has cleared, in a slot that holds no chunk its consumer has still to
free (17 R392, R397). -/
def Comm.ringSlotFree (c : Comm) (line : Nat) : Bool :=
  let slot := (128 * line - c.ring.toNat) / 128 / max c.chunk 1
  c.state != 0 && !c.order.any (fun o => match o with
    | .comm _ => true
    | _ => false) &&
    decide (c.ring.toNat ≤ 128 * line ∧ 128 * line < c.ring.toNat + 128 * (c.depth * c.chunk)) &&
    !(c.held ++ c.slots.map (·.seq)).any (fun q => q % max c.depth 1 == slot)

/-- A post appended before an engine's command may yet write a line of its successor's ring that the command accesses (05 R130);
which slots it writes is known only as it sends, and a slot that stands unfreed is none of them (17 R397; log 63). -/
def State.ringWritesBefore (s : State) (ord line : Nat) : Bool :=
  s.squares.any (fun p => p.2.cms.any (fun c =>
    let m := c.2.members.getD ((c.2.rank + 1) % max c.2.n 1) 0
    c.2.ringOrds.any (fun o => decide (o < ord)) && memberPackage m == s.package.toNat &&
      ((s.sqAt (memberSquare m)).cm (memberCm m)).ringSlotFree line))

/-- A line is still to be written by an engine's command appended before this one (05 R128, R130). -/
def State.unwritten (s : State) (a : Agent) (line : Nat) : Bool :=
  s.ownedBefore a.ord line || s.kWritesBefore a line || s.ringWritesBefore a.ord line

/-- The physical address of an engine's access within one line: the pager's answer to its wait, rights as they stand now,
residency, ownership and budget (09 R244, 20 R434, R436, R444). -/
def engineAt (a : Agent) (wr : Bool) (va : Nat) (s : State) : Except EStop (Nat × State) :=
  let at_ := s.rightsAt a.dom (segOf va)
  if s.abortedFor a va || s.abortedFor a at_ then .error (.abandon none)
  else match s.rightsEntry a.dom (segOf va) with
  | .stop p r c => .error (.wait p r c)
  | .entry r s =>
    if !isGlobal va || !granted (rightsBits r) (if wr then needW else needR) then .error (.abandon none)
    else if s.unwritten a (va / 128) then .error (.wait va 0 0)
    else
      match translate (s.homeOf (segOf va)) wr va s with
      | (.stop r c, _) => .error (.wait va r c)
      | (.ok pa shift, s) =>
        let q := (s.homeOf (segOf va)).getD 0
        if s.beatsSpent a.dom q va pa then .error (.wait va 0 0)
        else
          let s := ((((s.recall q (va / 128) pa shift).waitsNot a va).waitsNot a at_).touch (some a.dom) a.reuse q va pa shift wr)
          if !wr && s.frameBad pa then .error (.abandon (some (a, va))) else .ok (pa, s)

/-- An engine reads bytes within one line. -/
def engineRead (a : Agent) (va n : Nat) (s : State) : Except EStop (List Byte × State) :=
  match engineAt a false va s with
  | .error e => .error e
  | .ok (pa, s) => .ok (memRead s.mem pa n, s)

/-- An engine writes bytes within one line. -/
def engineWrite (a : Agent) (va : Nat) (b : List Byte) (s : State) : Except EStop State :=
  match engineAt a true va s with
  | .error e => .error e
  | .ok (pa, s) => .ok (s.putGlobal va pa b)

/-- The pieces of a span cut at lines of 128 bytes: address and length. -/
def linePieces : Nat → Nat → Nat → List (Nat × Nat)
  | 0, _, _ => []
  | f + 1, va, n =>
    if n = 0 then []
    else
      let m := min n (128 - va % 128)
      (va, m) :: linePieces f (va + m) (n - m)

/-- An engine reads a span of any length, line by line. -/
def engineReads (a : Agent) (va n : Nat) (s : State) : Except EStop (List Byte × State) :=
  (linePieces (n + 1) va n).foldlM (fun (p : List Byte × State) (x : Nat × Nat) => do
    let (b, s) ← engineRead a x.1 x.2 p.2
    pure (p.1 ++ b, s)) ([], s)

/-- An engine writes a span of any length, line by line. -/
def engineWrites (a : Agent) (va : Nat) (b : List Byte) (s : State) : Except EStop State :=
  (linePieces (b.length + 1) va b.length).foldlM (fun s (x : Nat × Nat) =>
    engineWrite a x.1 ((b.drop (x.1 - va)).take x.2) s) s

/-- A command takes ownership of lines (05 R128). -/
def State.own (s : State) (ord : Nat) (lines : List Nat) : State :=
  { s with owned := s.owned ++ lines.map (fun l => Owned.mk l ord) }

/-- A command gives up a line (05 R128). -/
def State.disown (s : State) (ord line : Nat) : State :=
  { s with owned := s.owned.filter (fun o => !(o.line == line && o.ord == ord)) }

/-- A post has written a line of a peer's window: it owns the line once for each peer in the package (17 R400). -/
def State.disownOnce (s : State) (ord line : Nat) : State := { s with owned := s.owned.erase ⟨line, ord⟩ }

/-- A command gives up every line it owns. -/
def State.disownAll (s : State) (ord : Nat) : State := { s with owned := s.owned.filter (fun o => o.ord != ord) }

end Sys2Proof.Machine
end

