-- ==== Sys2Proof/Machine/Deque.lean ====
section
/-! DEFINITION. Chain blocks, deques, interrupts, wakes, fault records and graph completion (01 R7 to R9, 06, 20 R435,
21 R451, R452). -/
namespace Sys2Proof.Machine

/-! ### The chain pool (01 R7 to R9) -/

/-- The blocks of a core's pool that are in use. -/
def Core.usedBlocks (k : Core) : List Nat := k.spill ++ (k.chains.map (fun p => p.2.map (·.blk))).flatten

/-- The lowest free block of the pool (log 13). -/
def Core.freeBlock (k : Core) : Option Nat :=
  ((upTo (bitsW k.kcpool 24 16)).map (fun i => bitsW k.kcpool 8 0 + i)).find? (fun b => !k.usedBlocks.contains b)

/-- `n` bytes whose values the spec leaves open (log 7). -/
def freeBytes (ctr : Nat) : Nat → List Byte
  | 0 => []
  | n + 1 => BitVec.ofNat 8 (Config.freeWord (ctr + n)).toNat :: freeBytes ctr n

/-- Write bytes the spec leaves open into local memory. -/
def State.scribble (s : State) (c off n : Nat) : State :=
  { s.localPut c off (freeBytes s.freeCtr n) with freeCtr := s.freeCtr + n }

/-- The local offset of slot `i` of a block. -/
def slotOff (blk i : Nat) : Nat := blk * 1024 + 64 * i

/-- Start a block: its link is zero and the rest of slot 15 reads zero (01 R7). -/
def State.startBlock (s : State) (c blk : Nat) : State := s.localPut c (slotOff blk 15) (leBytes 64 0)

/-- Link a block to the next one (01 R7). -/
def State.linkBlock (s : State) (c blk next : Nat) : State :=
  s.localPut c (slotOff blk 15) (leBytes 8 (localAddr (next * 1024)).toNat)

/-- The slots left in a tail block are marked skipped, and the next entry starts elsewhere (01 R8); what a skipped slot then
holds is open (log 7). -/
def State.skipRest (s : State) (c : Nat) (t : ChainBlk) : State :=
  s.scribble c (slotOff t.blk t.used) (64 * (15 - t.used))

/-- Drop the blocks whose entries have all completed and that are not the tail (01 R9). -/
def pruneChain : List ChainBlk → List ChainBlk
  | [] => []
  | [t] => [t]
  | b :: r => if b.live.isEmpty then pruneChain r else b :: pruneChain r

/-- Link each block of a chain to the next (01 R7). -/
def State.relink (s : State) (c : Nat) (chain : List ChainBlk) : State :=
  (chain.zip (chain.drop 1)).foldl (fun s p => s.linkBlock c p.1.blk p.2.blk) s

/-- The queue of engine `e` takes a new chain: its completed blocks are freed, and the links follow (01 R7, R9). -/
def State.setChain (s : State) (c e : Nat) (chain : List ChainBlk) : State :=
  let chain := pruneChain chain
  let k := s.coreAt c
  (s.setCore c { k with chains := sset k.chains e chain }).relink c chain

/-- Place an entry of `slots` slots with sequence number `seq` in the queue of engine `e` (01 R7 to R9): the state and
the local offset of its first slot, or none when a new block is needed and none is free. -/
def chainPlace (c e slots seq : Nat) (s : State) : Option (State × Nat) :=
  let k := s.coreAt c
  let chain := sget [] k.chains e
  let fits := match chain.getLast? with
    | some t => if t.used + slots ≤ 15 then some t else none
    | none => none
  match fits, k.freeBlock with
  | some t, _ =>
    let t' : ChainBlk := { t with used := t.used + slots, live := t.live ++ [seq] }
    some (s.setCore c { k with chains := sset k.chains e (chain.dropLast ++ [t']) }, slotOff t.blk t.used)
  | none, none => none
  | none, some b =>
    let s := s.startBlock c b
    let s := match chain.getLast? with
      | some t => s.skipRest c t
      | none => s
    let old := match chain.getLast? with
      | some t => chain.dropLast ++ [{ t with used := 15, skipped := 15 - t.used }]
      | none => []
    some (s.setChain c e (old ++ [⟨b, slots, 0, [seq]⟩]), slotOff b 0)

/-- An entry of a queue has completed: its slots are free once its block is (01 R9). -/
def State.chainDone (s : State) (c e seq : Nat) : State :=
  s.setChain c e ((sget [] (s.coreAt c).chains e).map (fun b => { b with live := b.live.filter (· != seq) }))

/-! ### Sequence numbers (01 R13, R14) -/

/-- x + 1 modulo 2^48. -/
def inc48 (n : Nat) : Nat := (n + 1) % 2 ^ 48

/-- A number is reached (01 R14). -/
def reached (completed x : Nat) : Bool := decide ((completed + 2 ^ 48 - x % 2 ^ 48) % 2 ^ 48 < 2 ^ 47)

/-- The completed number rises across an unbroken run (01 R13). -/
def runUp : Nat → Nat → List Nat → Nat × List Nat
  | 0, n, above => (n, above)
  | f + 1, n, above =>
    if above.contains (inc48 n) then runUp f (inc48 n) (above.filter (· != inc48 n)) else (n, above)

/-- Entry `seq` completes (01 R13). -/
def SeqNo.complete (q : SeqNo) (seq : Nat) : SeqNo :=
  let (n, above) := runUp (q.above.length + 1) q.completed (q.above ++ [seq])
  { q with completed := n, above := above }

/-- Replace the sequence numbers of engine `e` for core `c` of a square. -/
def Square.setSeqno (k : Square) (e c : Nat) (v : SeqNo) : Square := { k with seqs := sset k.seqs (e * 8 + c) v }

/-- An entry of engine `e` completes: completed number, chain slots, ownership, and the pages it met (01 R9, R13, 05 R128, 20
R436). The core is its index in the package. -/
def State.completeCmd (s : State) (e : Nat) (h : CmdHdr) : State :=
  let q := squareOf h.core
  let k := s.sqAt q
  let s := s.setSq q (k.setSeqno e (h.core % 8) ((k.seqno e (h.core % 8)).complete h.seq))
  let s := (s.chainDone h.core e h.seq).disownAll h.ord
  { s with pageWaits := s.pageWaits.filter (fun w => w.ord != h.ord), aborted := s.aborted.filter (fun w => w.ord != h.ord) }

/-! ### Deques (06 R145) -/

/-- The number of spill blocks a deque of `n` entries needs. -/
def spillNeed (n : Nat) : Nat := if n ≤ 32 then 0 else ceilDiv (n - 32) 127

/-- Write the spilled entries of a deque into its blocks: the oldest of the deque stand in the first block (06 R145; log
13). -/
def State.writeSpill (s : State) (c : Nat) : State :=
  let k := s.coreAt c
  let old := (k.deque.drop 32).reverse
  ((upTo k.spill.length).zip k.spill).foldl (fun s p =>
    s.localPut c (p.2 * 1024) (((old.drop (127 * p.1)).take 127).map (fun e => leBytes 8 e.toNat)).flatten) s

/-- Take or give back spill blocks for the deque as it stands, each linked to the next; none when a block is needed and none
is free (06 R145). -/
def State.fitSpill (s : State) (c : Nat) : Option State :=
  let k := s.coreAt c
  let need := spillNeed k.deque.length
  if need ≤ k.spill.length then
    let keep := k.spill.take need
    let s := s.setCore c { k with spill := keep }
    let s := match keep.getLast? with
      | some t => s.localPut c (t * 1024 + 1016) (leBytes 8 0)
      | none => s
    some (s.writeSpill c)
  else
    match k.freeBlock with
    | none => none
    | some b =>
      let s := (s.setCore c { k with spill := k.spill ++ [b] }).scribble c (b * 1024) 1016
      let s := match k.spill.getLast? with
        | some t => s.localPut c (t * 1024 + 1016) (leBytes 8 (localAddr (b * 1024)).toNat)
        | none => s
      some ((s.localPut c (b * 1024 + 1016) (leBytes 8 0)).writeSpill c)

/-- Push an entry at the bottom of a core's deque; the deque's head is its bottom. -/
def State.pushBottom (s : State) (c : Nat) (e : Word) : Option State :=
  let k := s.coreAt c
  (s.setCore c { k with deque := e :: k.deque }).fitSpill c

/-- Push an entry at the top. -/
def State.pushTop (s : State) (c : Nat) (e : Word) : Option State :=
  let k := s.coreAt c
  (s.setCore c { k with deque := k.deque ++ [e] }).fitSpill c

/-- Remove the entry at a place of a core's deque. -/
def State.dequeDrop (s : State) (c i : Nat) : State :=
  let k := s.coreAt c
  let s := s.setCore c { k with deque := k.deque.eraseIdx i }
  (s.fitSpill c).getD s

/-- The cycle is one in which the dispatcher looks at every core (06 R148; log 15). -/
def State.sweeps (s : State) : Bool := s.cycle % (Config.sweep + 1) == 0

/-- The entry of a continuation slot, with its P bit (06 R145). -/
def contEntry (slot : Nat) (pinned : Bool) : Word := wd (slot / 128 * 128 + 1 + (if pinned then 2 else 0))

/-! ### Interrupts (21 R450, R452) -/

/-- The vectors of a function's MSI-X table (21 R450). -/
def msixVectors : Nat := 128

/-- The word of the MSI-X table at an offset: every vector is masked at reset, as in PCIe (21 R452; log 9). -/
def Bar.tableWord (b : Bar) (off : Nat) : Word := sget (if off % 16 = 8 then 2 ^ 32 else 0) b.msix off

/-- The vector is masked: MSI-X is not enabled, the function is masked, or the vector's mask bit is set (21 R450, R452). -/
def Bar.masked (b : Bar) (v : Nat) : Bool := !b.enable || b.fmask || bitW (b.tableWord (16 * v + 8)) 32

/-- Raise MSI-X vector `v` of a domain's function: pending while masked, else sent (21 R452). -/
def State.raiseVector (s : State) (dom v : Nat) : State :=
  let b := s.bar dom
  s.setBar dom (if b.masked v then { b with pba := b.pba ||| (1#128 <<< v) } else { b with sent := b.sent ++ [v] })

/-- A pending vector whose mask has gone is sent (21 R452). -/
def unmaskVector (fn v : Nat) (s : State) : State :=
  let b := s.bar fn
  if b.pba.getLsbD v && !b.masked v then
    s.setBar fn { b with pba := b.pba &&& ~~~(1#128 <<< v), sent := b.sent ++ [v] }
  else s

/-- The host port is ready and the function enabled: the host reaches it (R450, R461). -/
def State.barOpen (s : State) (fn : Nat) : Bool := bitW (s.readyWord 2) 16 && decide (fn < 256) && (s.dom? fn).isSome

/-- The host writes enable and function mask of the MSI-X capability of a function that it reaches (21 R450, R452). -/
def writeCapability (s : State) (w : Nat × Bool × Bool) : State :=
  if s.barOpen w.1 then
    (upTo msixVectors).foldl (fun s v => unmaskVector w.1 v s)
      (s.setBar w.1 { s.bar w.1 with enable := w.2.1, fmask := w.2.2 })
  else s

/-! ### Continuation slots and WAKE (06 R143, R155) -/

/-- The slot lies in a domain's pool (06 R143). -/
def Domain.hasSlot (d : Domain) (slot : Nat) : Bool :=
  decide (d.pool.toNat ≤ slot ∧ slot < d.pool.toNat + 128 * d.slots)

/-- A WAKE of a running continuation ends its context's SLEEP: the context issues SLEEP again and finds W (08 R227). -/
def State.wakeSleeper (s : State) (slot : Nat) : State :=
  { s with cores := s.cores.map (fun p => (p.1, { p.2 with ctxs := p.2.ctxs.map (fun q =>
      match q.2.st with
      | .sleeping _ => if q.2.slot.toNat = slot then (q.1, { q.2 with st := .ready }) else q
      | _ => q) })) }

/-- How a WAKE ends: the old state, with no room for the push, or with a slot that cannot be served: its
address, reason and code (06 R155). -/
inductive WakeRes where
  | woke (old : Nat) (s : State)
  | full
  | absent (h : Nat × Nat × Nat)

/-- WAKE's atomic on a slot: queue a suspended continuation at the bottom of core `c`'s deque, set W of a running one
(06 R155). A slot that a domain reset has still to write free is free; a poisoned one cannot be read (20 R447). -/
def wakeSlot (c slot : Nat) (s : State) : WakeRes :=
  match hvTry true slot s with
  | .error h => .absent h
  | .ok (pa, s) =>
    if s.frameBad pa then .absent (slot, 4, 4)
    else
    let st := if s.hw.contains (.freeSlot slot) then 0 else memLe s.mem (pa + 104) 8
    if st = 2 then
      match (s.putGlobal (slot + 104) (pa + 104) (leBytes 8 3)).pushBottom c (contEntry slot false) with
      | some s => .woke 2 s
      | none => .full
    else if st = 1 then
      let w0 := memLe s.mem pa 8
      .woke 1 ((s.putGlobal slot pa (leBytes 8 (w0 / 2 * 2 + 1))).wakeSleeper slot)
    else .woke st s

/-- The hardware still has this to do (06 R145). -/
def State.later (s : State) (w : HwWork) : State := { s with hw := s.hw ++ [w] }

/-- A push that no context makes, or its wait for a block (06 R145). -/
def State.hwPush (s : State) (c : Nat) (e : Word) : State := (s.pushBottom c e).getD (s.later (.push c e))

/-- WAKE by the hardware, on behalf of core `c`; none while the slot cannot be served. A push that has no room waits (06
R145, R155). -/
def tryWake (c slot : Nat) (s : State) : Option State :=
  match wakeSlot c slot s with
  | .woke _ s => some s
  | .full => (s.hvPut (slot + 104) (leBytes 8 3)).map (fun s => s.later (.push c (contEntry slot false)))
  | .absent _ => none

/-- WAKE by the hardware, retried until the slot is served; 0, an address that is no multiple of 128 and one that is
not global name no slot (06 R155, 20 R429). -/
def State.hwWake (s : State) (c slot : Nat) : State :=
  if slot = 0 ∨ slot % 128 ≠ 0 ∨ !isGlobal slot then s else (tryWake c slot s).getD (s.later (.wake c slot))

/-- Wake a domain's pager continuation (20 R435, 21 R452). -/
def State.wakePager (s : State) (c dom : Nat) : State :=
  match s.dom? dom with
  | some d => s.hwWake c d.pager.toNat
  | none => s

/-- Context `x` of core `c`, of a domain, halted: vector 2, FSTAT.HP and the pager (21 R452). -/
def State.haltReport (s : State) (c x dom : Nat) : State :=
  let b := s.bar dom
  let s := s.setBar dom { b with halts := b.halts.filter (· != 16 * c + x) ++ [16 * c + x] }
  (s.raiseVector dom 2).wakePager c dom

/-! ### Fault records (20 R435) -/

/-- How the write of a fault record ends: written as record number `n` of the ring at an address, with the ring full, or
with the ring absent. -/
inductive RecRes where
  | written (n at_ : Nat) (s : State)
  | full (s : State)
  | absent

/-- The 32 bytes of a fault record (20 R435). -/
def FaultRec.bytes (f : FaultRec) : List Byte :=
  leBytes 8 f.page ++ leBytes 2 f.dom ++ leBytes 2 f.code ++ leBytes 4 f.waiters ++ leBytes 16 0

/-- A ring's tail and head, when they can be read, and the state after the read (20 R435). -/
def State.faultRing (s : State) (d : Domain) : Option (Nat × Nat × State) :=
  match hvTry false d.ring.toNat s with
  | .ok (pa, s) => if d.entries = 0 then none else some (memLe s.mem pa 8, memLe s.mem (pa + 8) 8, s)
  | .error _ => none

/-- Write a fault record into its ring if the ring has room, advance the tail and wake the pager (20 R435). -/
def State.writeRecord (s : State) (c : Nat) (f : FaultRec) : RecRes :=
  match s.dom? f.dom with
  | none => .absent
  | some d =>
    match s.faultRing d with
    | none => .absent
    | some (tail, head, s) =>
      if d.entries ≤ (tail + 2 ^ 64 - head) % 2 ^ 64 then .full s
      else
        let at_ := d.ring.toNat + 128 + 32 * (tail % d.entries)
        match (do
          let s ← s.hvPut at_ f.bytes
          s.hvPut d.ring.toNat (leBytes 8 ((tail + 1) % 2 ^ 64)) : Option State) with
        | none => .absent
        | some s => .written tail at_ (s.wakePager c f.dom)

/-- One more context waits for the page of an open record: the count in the ring follows while the pager has not taken the
record (20 R435; log 55). -/
def State.joinRecord (s : State) (f : FaultRec) : State :=
  let g := { f with waiters := f.waiters + 1 }
  let s := { s with faults := s.faults.map (fun h => if h == f then g else h) }
  match f.place, s.dom? f.dom with
  | some (n, at_), some d =>
    match s.faultRing d with
    | none => s
    | some (_, head, s) =>
      if (n + 2 ^ 64 - head) % 2 ^ 64 < d.entries then (s.hvPut (at_ + 12) (leBytes 4 g.waiters)).getD s else s
  | _, _ => s

/-- A record that is to be written: written, or kept for a retry; a ring found full raises vector 3 (20 R435, 21 R452). -/
def State.openRecord (s : State) (c : Nat) (f : FaultRec) : State :=
  match s.writeRecord c f with
  | .written n a s => { s with faults := s.faults ++ [{ f with place := some (n, a) }] }
  | .full s => { s.raiseVector f.dom 3 with faults := s.faults ++ [{ f with told := true }] }
  | .absent => { s with faults := s.faults ++ [f] }

/-- A domain's access to a page faults: a new record, or one more waiter of the open one (20 R435). `w` is how many contexts
wait with it: an engine's access has none. -/
def State.recordFault (s : State) (c dom page code w : Nat) : State :=
  match s.faults.find? (fun f => f.dom == dom && f.page == page) with
  | some f => if w = 0 then s else s.joinRecord f
  | none => s.openRecord c ⟨dom, page, code, w, none, false⟩

/-! ### Migration bits (20 R438, R439) -/

/-- The leaves of a page with their cache names: one, or the 16 of a 64 KiB page. -/
def pageLeaves (q va : Nat) (s : State) : List (Nat × Leaf) :=
  match (walkTop q va s).1 with
  | none => []
  | some l =>
    if leafShift l = 16 then
      (upTo 16).filterMap (fun j =>
        let a := alignDown va 65536 + 4096 * j
        ((walkTop q a s).1).map (fun x => (pteKey 3 a, x)))
    else [(pteKey l.lvl va, l)]

/-- Rewrite the page-table entries of a page, in memory and in the home tile's cache. -/
def State.rewriteLeaves (s : State) (q va : Nat) (f : Nat → Nat → Nat) : State :=
  ((pageLeaves q va s).zipIdx).foldl (fun s p =>
    let e := f p.2 p.1.2.e
    let s := s.putPhys p.1.2.at_ (leBytes 8 e)
    let k := s.sqAt q
    s.setSq q { k with ptc := k.ptc.map (fun x => if x.1 == p.1.1 then (x.1, wd e) else x) }) s

/-- Pop a frame from the free-frame stack of a page size (20 R439). -/
def State.popFrame (s : State) (shift : Nat) : Option (Nat × State) :=
  let r := (if shift = 12 then s.pkg.stack4 else if shift = 16 then s.pkg.stack64 else s.pkg.stack2m).toNat
  let n := memLe s.mem r 4
  if n = 0 then none
  else some (memLe s.mem (r + 8 + 8 * (n - 1)) 8, s.putPhys r (leBytes 4 (n - 1)))

/-- A core's executing vector entry holds a page of a range (12 R288). -/
def entryHolds (k : Core) (lo hi : Nat) : Bool :=
  match k.vexec with
  | none => false
  | some x => ((k.ctxAt x).vq.filter (fun e => e.st == .executing)).any (fun e =>
      e.records.any (fun h => !isLocal h.base.toNat &&
        (upTo h.count).any (fun i => (h.elBytes i).any (fun b => decide (lo ≤ b ∧ b < hi)))))

/-- An executing vector entry of some core holds a page of a range (12 R288). -/
def State.entryOn (s : State) (lo hi : Nat) : Bool := s.cores.any (fun p => entryHolds p.2 lo hi)

/-- Start the promotion of a page held at the expansion tier: pop a frame, take what stashes hold of the page, for no access is
served from now on, and set M; or report code 3 for `w` contexts (20 R439). A page whose migration is queued waits for that one; a
page that a vector entry holds is queued too, and starts when the entry has ended (12 R288). -/
def State.promote (s : State) (c dom va w : Nat) : State :=
  match s.homeOf (segOf va) with
  | none => s
  | some q =>
    match (walkTop q va s).1 with
    | none => s
    | some l =>
      let page := alignDown va (2 ^ leafShift l)
      if (s.district (districtOf q)).migs.any (fun m => m.page == page) then s
      else match s.popFrame (leafShift l) with
      | none => s.recordFault c dom (alignDown va 4096) 3 w
      | some (frame, s) =>
        let old := leafPa l page
        let hi := page + 2 ^ leafShift l
        let now := !s.entryOn page hi
        let s := if now then (s.flushStashes page hi true).rewriteLeaves q page (fun _ e => putN e 4 1 1) else s
        let d := districtOf q
        let t := s.district d
        s.setDistrict d { t with migs := t.migs ++
          [⟨page, 2 ^ leafShift l, alignDown frame 4096, false, old, now, true, 0⟩] }

/-- Queue the promotion of a page that a prefetch asks for, when a frame is free (20 R439, 15 R375; log 62): the migration engine
starts it when its turn comes. -/
def State.fetchAhead (s : State) (va : Nat) : State :=
  match s.homeOf (segOf va) with
  | none => s
  | some q =>
    match (walkTop q va s).1 with
    | none => s
    | some l =>
      let page := alignDown va (2 ^ leafShift l)
      let d := districtOf q
      if leafShift l = 30 ∨ (s.district d).migs.any (fun m => m.page == page) then s
      else match s.popFrame (leafShift l) with
      | none => s
      | some (frame, s) =>
        let t := s.district d
        s.setDistrict d { t with migs := t.migs ++
          [⟨page, 2 ^ leafShift l, alignDown frame 4096, false, leafPa l page, false, true, 0⟩] }

/-- What the home tile does when an access of a domain meets a page that is not served, with `w` contexts that wait for it (20
R434, R435, R439): it keeps what it walked, starts a promotion or opens a fault record. -/
def State.faulted (s : State) (c dom va reason code w : Nat) : State :=
  let s := s.walked va
  if reason = 3 then s.promote c dom va w
  else if reason = 4 then s.recordFault c dom (alignDown va 4096) code w
  else s

/-- What the home tile does when an access of no context waits for a page (20 R434, R435). -/
def State.faultedEngine (s : State) (c dom va reason code : Nat) : State := s.faulted c dom va reason code 0

/-! ### Graphs (06 R157, 21 R451) -/

/-- The graph with an id. -/
def State.graph? (s : State) (id : Nat) : Option Graph := s.graphs.find? (fun g => g.id == id)

/-- One more live task in a graph. -/
def State.graphEnter (s : State) (id : Nat) : State :=
  { s with graphs := s.graphs.map (fun g => if g.id == id then { g with live := g.live + 1 } else g) }

/-- Open a graph with one live task; `word` is a launch's completion word (06 R144, 21 R451). -/
def State.graphOpen (s : State) (dom : Nat) (word : Option Word) : Nat × State :=
  (s.nextGraph, { s with graphs := s.graphs ++ [⟨s.nextGraph, dom, 1, word⟩], nextGraph := s.nextGraph + 1 })

/-- A completion word is written, and then vector 0 raised; both wait while the word's page is not served (21 R451). -/
def State.finishWord (s : State) (dom va v : Nat) : State :=
  match s.hvPut va (leBytes 8 v) with
  | some s => s.raiseVector dom 0
  | none => s.later (.word dom va v)

/-- One live task fewer; at zero the graph is complete: its word is written and vector 0 raised (06 R157, 21 R451). -/
def State.graphLeave (s : State) (id : Nat) : State :=
  match s.graph? id with
  | none => s
  | some g =>
    if g.live ≤ 1 then
      let s := { s with graphs := s.graphs.filter (fun x => x.id != id) }
      match g.word with
      | some w => s.finishWord g.dom w.toNat id
      | none => s.raiseVector g.dom 0
    else { s with graphs := s.graphs.map (fun x => if x.id == id then { x with live := x.live - 1 } else x) }

/-- The retirement of an aborted task's continuation slot with a return value: its joiner, its slot and its graph (06 R157);
none while one of them cannot be reached. -/
def State.retireSlot (s : State) (c slot : Nat) (v : Word) (graph : Option Nat) : Option State := do
  let (pa, s) ← (hvTry false (slot + 88) s).toOption
  let j := memLe s.mem pa 8
  let s ← if j = 0 then some s else (s.hvPut (j + 96) (leBytes 8 v.toNat)).map (fun s => s.hwWake c j)
  let s ← s.hvPut (slot + 104) (leBytes 8 0)
  pure (match graph with
    | some g => s.graphLeave g
    | none => s)

/-! ### What the hardware retries -/

/-- Do what the hardware has to do, if it can be done now. Posted writes keep their order (05 R139). -/
def hwDo (s : State) : HwWork → Option State
  | .wake c slot => tryWake c slot s
  | .push c e => s.pushBottom c e
  | .write va b => if s.hw.any (fun w => match w with
      | .write .. => true
      | _ => false) then none else s.hvPut va b
  | .word d va v => (s.hvPut va (leBytes 8 v)).map (fun s => s.raiseVector d 0)
  | .retire c slot v g => s.retireSlot c slot v g
  | .freeSlot slot => s.hvPut (slot + 104) (leBytes 8 0)
  | .back line b bad => match hvTry true (128 * line) s with
    | .ok (pa, t) => some (t.putLine pa b bad)
    | .error _ => none

/-- The address of the page that keeps a piece of work waiting. -/
def HwWork.page : HwWork → Nat
  | .wake _ slot => slot
  | .push _ _ => 0
  | .write va _ => va
  | .word _ va _ => va
  | .retire _ slot _ _ => slot
  | .freeSlot slot => slot
  | .back line _ _ => 128 * line

/-- The addresses of the pages that keep a piece of work waiting: a retirement needs its slot and its joiner's (06 R157). -/
def State.workPages (s : State) (w : HwWork) : List Nat :=
  match w with
  | .retire _ slot _ _ => slot :: (s.peekLe (slot + 88) 8).toList
  | _ => [w.page]

/-- Do it, or keep it for later. -/
def State.hwTry (s : State) (w : HwWork) : State := (hwDo s w).getD (s.later w)

/-- The domain in whose pool a slot lies. -/
def State.slotDom (s : State) (slot : Nat) : Option Nat :=
  (s.domains.find? (fun p => p.2.any (fun d => d.hasSlot slot))).map (·.1)

/-- The domain on whose behalf a piece of work is done. -/
def State.workDom (s : State) : HwWork → Nat
  | .word d _ _ => d
  | w => (s.slotDom w.page).getD 0

/-- Ask the home tiles of the pages that keep a piece of work waiting to serve them. -/
def State.askPage (s : State) (w : HwWork) : State :=
  (s.workPages w).foldl (fun s p => match hvTry true p s with
    | .ok _ => s
    | .error (va, r, c) =>
      if p = 0 then s else s.faultedEngine (8 * (s.homeOf (segOf va)).getD 0) (s.workDom w) va r c) s

/-- The work is a line that a stash has given up: it stands before every later access of its line (10 R272). -/
def HwWork.isBack : HwWork → Bool
  | .back .. => true
  | _ => false

/-- Retry, in order, everything that waits and passes a test, while the rest waits on. -/
def State.retryOf (s : State) (which : HwWork → Bool) : State :=
  (s.hw.filter which).foldl State.hwTry { s with hw := s.hw.filter (fun w => !which w) }

/-- Retry everything that waits, after asking for the pages it waits for. -/
def State.retryHw (s : State) : State :=
  ((s.hw.foldl State.askPage s).retryOf HwWork.isBack).retryOf (fun w => !w.isBack)

end Sys2Proof.Machine
end

