-- ==== Sys2Proof/Machine/Run.lean ====
section
/-! DEFINITION. How a word runs that accesses global memory: with its answer, what its accesses leave behind (20 R431, R434,
R440). -/
namespace Sys2Proof.Machine

/-- What a word does on its way: how it stops or what it gives, and the states that its accesses have left, in their order. What
the last of them holds of caches stays behind a word that stops (log 71). -/
abbrev Run (α : Type) := ExceptT Stop (WriterT (List State) Id) α

/-- How a run ends. -/
def Run.ans {α : Type} (m : Run α) : Except Stop α := (WriterT.run (ExceptT.run m)).1

/-- The states that the accesses of a run have left. -/
def Run.left {α : Type} (m : Run α) : List State := (WriterT.run (ExceptT.run m)).2

/-- An access: how it ends, and the state that it leaves with either end. -/
def leaves {α : Type} (r : Except Stop α × State) : Run (α × State) :=
  ExceptT.mk (WriterT.mk (r.1.map (fun a => (a, r.2)), [r.2]))

/-- What a step finds, with the state that it leaves. -/
def saw {α : Type} (p : α × State) : Run (α × State) := leaves (.ok p.1, p.2)

/-- A state with the entries, lines, heat, totals and beats of the home tiles that accesses have left in another (20 R434, R440, 06
R161). -/
def State.seenHomes (s t : State) : State :=
  let s := t.squares.foldl (fun s p =>
    s.setSq p.1 { s.sqAt p.1 with ptc := p.2.ptc, l2 := p.2.l2, heat := p.2.heat }) s
  let s := t.districts.foldl (fun s p =>
    s.setDistrict p.1 { s.district p.1 with hbmFills := p.2.hbmFills, expFills := p.2.expFills }) s
  let none_ : Budget := { Budget.unlimited with index := s.ktime.toNat / 1000 }
  { s with
    budgets := t.budgets.foldl (fun m p =>
      if p.1 / 8192 % 8 = 2 then sset m p.1 { sget none_ m p.1 with used := p.2.used } else m) s.budgets
    freeCtr := t.freeCtr }

/-- A state with what accesses have left in the home tiles of another, and in the PLB of the core in focus (20 R431). -/
def State.seenAs (s t : State) : State := (s.setCoreCur { s.core with plb := t.core.plb }).seenHomes t

/-- The state with what the accesses of a word have left in caches. -/
def State.seeing (s : State) (l : List State) : State :=
  match l.getLast? with
  | none => s
  | some t => s.seenAs t

/-! ### What a run gives -/

@[simp] theorem Run.ans_pure {α : Type} (a : α) : Run.ans (pure a) = .ok a := rfl
@[simp] theorem Run.left_pure {α : Type} (a : α) : Run.left (pure a : Run α) = [] := rfl
@[simp] theorem Run.ans_throw {α : Type} (e : Stop) : Run.ans (throw e : Run α) = .error e := rfl
@[simp] theorem Run.left_throw {α : Type} (e : Stop) : Run.left (throw e : Run α) = [] := rfl
@[simp] theorem Run.ans_leaves {α : Type} (r : Except Stop α × State) :
    (leaves r).ans = r.1.map (fun a => (a, r.2)) := rfl
@[simp] theorem Run.left_leaves {α : Type} (r : Except Stop α × State) : (leaves r).left = [r.2] := rfl
@[simp] theorem Run.ans_lift {α : Type} (r : Except Stop α) : Run.ans (liftM r : Run α) = r := rfl
@[simp] theorem Run.left_lift {α : Type} (r : Except Stop α) : Run.left (liftM r : Run α) = [] := rfl

/-- A run of two parts gives what the second gives of the first's value, unless the first stops. -/
theorem Run.ans_bind {α β : Type} (m : Run α) (f : α → Run β) :
    Run.ans (m >>= f) = match m.ans with
      | .ok a => (f a).ans
      | .error e => .error e := by
  revert m
  exact fun (m : Except Stop α × List State) => match m with
    | (.ok _, _) => rfl
    | (.error _, _) => rfl

/-- The accesses of a run of two parts are those of the first, then, unless it stops, those of the second. -/
theorem Run.left_bind {α β : Type} (m : Run α) (f : α → Run β) :
    Run.left (m >>= f) = m.left ++ match m.ans with
      | .ok a => (f a).left
      | .error _ => [] := by
  revert m
  exact fun (m : Except Stop α × List State) => match m with
    | (.ok _, _) => rfl
    | (.error _, _) => rfl

/-- What a run gives, when its first part is done. -/
theorem Run.ans_bind_ok {α β : Type} {m : Run α} {a : α} (h : m.ans = .ok a) (f : α → Run β) :
    Run.ans (m >>= f) = (f a).ans := by rw [Run.ans_bind, h]

/-- What a run gives, when its first part stops. -/
theorem Run.ans_bind_error {α β : Type} {m : Run α} {e : Stop} (h : m.ans = .error e) (f : α → Run β) :
    Run.ans (m >>= f) = .error e := by rw [Run.ans_bind, h]

end Sys2Proof.Machine
end

