-- ==== Sys2Proof/WellFormed.lean ====
section
/-! DEFINITION. Which instruction words are legal whatever the state: register files, codes and types (03 R58 to R74).
What depends on the mode, the partition or the communication context is checked when the word executes. -/
namespace Sys2Proof

/-- How an instruction uses a 6-bit register field (03 R58). `gen` is a read and write that only a general register or
gz may name (08 R188, R190, R191, R194). -/
inductive Use where
  | src (f : Nat)
  | dst (f : Nat)
  | gen (f : Nat)
  deriving DecidableEq, Repr

/-- A 5-bit register field of the Atomic form as a 6-bit one: 31 names gz (03 R62). -/
def reg5 (f : BitVec 5) : Nat := if f.toNat = 31 then 62 else f.toNat

/-- The register fields of a word, by their use. Fields of other files (q, h, os, cm, ...) are not among them. The link
register g27 of a CALL counts as a destination that the word names (log 57). -/
def Instr.uses : Instr → List Use
  | .br _ a _ => [.src a.toNat]
  | .jr d a => [.src a.toNat, .dst d.toNat]
  | .btag a => [.src a.toNat]
  | .loop a _ => [.gen a.toNat]
  | .call _ => [.dst 27]
  | .ldD d a _ | .ld d a _ _ | .ldb d a _ _ | .ldfW d a _ => [.src a.toNat, .dst d.toNat]
  | .stD d a _ | .st d a _ _ | .stb d a _ => [.src a.toNat, .src d.toNat]
  | .pf a _ | .disc a _ | .zline a _ | .wbk a _ => [.src a.toNat]
  | .stp d a b _ _ | .stpm d a b _ _ => [.src a.toNat, .src b.toNat, .src d.toNat]
  | .aadd _ d a b _ _ | .amin _ d a b _ _ | .amax _ d a b _ _ | .aand _ d a b _ _ | .aor _ d a b _ _
  | .axor _ d a b _ _ | .aswp _ d a b _ _ => [.src (reg5 a), .src (reg5 b), .dst (reg5 d)]
  | .acas _ d a b _ _ => [.src (reg5 a), .src (reg5 b), .gen (reg5 d)]
  | .afadd d a b _ _ => [.src (reg5 a), .src (reg5 b), .dst (reg5 d)]
  | .rel d a _ _ _ => [.src a.toNat, .src d.toNat]
  | .acq d a _ _ _ => [.src a.toNat, .dst d.toNat]
  | .hbinit a _ | .hbwait a _ => [.src a.toNat]
  | .hbarr d _ => [.dst d.toNat]
  | .hbtest d a _ => [.src a.toNat, .dst d.toNat]
  | .spawn d a | .spawnx d a | .tsig d a | .tdep d a | .wake d a | .bktsel d a | .stealctl d a =>
    [.src a.toNat, .dst d.toNat]
  | .tret a => [.src a.toNat]
  | .budget d a b => [.src a.toNat, .src b.toNat, .dst d.toNat]
  | .rbox _ a b => [.src a.toNat, .src b.toNat]
  | .rld _ a | .rst _ a => [.src a.toNat]
  | .rdil _ _ b | .rprj _ _ b | .rspl _ _ b | .rstrd _ _ b | .rrag _ _ b | .rshf _ _ b => [.src b.toNat]
  | .rcmp d _ _ | .rcnt d _ | .rvol d _ => [.dst d.toNat]
  | .rtst d _ b => [.src b.toNat, .dst d.toNat]
  | .copy d _ b | .gath d _ b | .scat d _ b => [.src b.toNat, .dst d.toNat]
  | .cwait _ b => [.src b.toNat]
  | .cwp d a | .tseq d a => [.src a.toNat, .dst d.toNat]
  | .migr a => [.src a.toNat]
  | .tseqWt a b => [.src a.toNat, .src b.toNat]
  | .fopen _ a => [.src a.toNat]
  | .fnext d _ | .fend d _ => [.dst d.toNat]
  | .fnextge d _ b => [.src b.toNat, .dst d.toNat]
  | .mclaim d a b => [.src a.toNat, .src b.toNat, .dst d.toNat]
  | .mrel a b => [.src a.toNat, .src b.toNat]
  | .mlda _ a b | .mldaSt _ a b | .mldaAv _ a b | .mldb _ a b | .mldbSt _ a b | .mldbAv _ a b =>
    [.src a.toNat, .src b.toNat]
  | .mldaRg _ _ b | .mldbRg _ _ b => [.src b.toNat]
  | .mseq d a | .mqw d a => [.src a.toNat, .dst d.toNat]
  | .mwait a b => [.src a.toNat, .src b.toNat]
  | .mrec a | .mrev a | .mlog a => [.src a.toNat]
  | .kopen _ a b | .kapp _ a b | .kpb _ a b | .kspl _ a b | .kmarg _ a b => [.src a.toNat, .src b.toNat]
  | .kclose _ a | .kacc _ a | .ktent _ a => [.src a.toNat]
  | .kload _ _ b | .kval _ _ b => [.src b.toNat]
  | .kpfx d _ b | .kins d _ b => [.src b.toNat, .dst d.toNat]
  | .kseq d a => [.src a.toNat, .dst d.toNat]
  | .kseqWt a b => [.src a.toNat, .src b.toNat]
  | .ccomm _ a | .cpost _ a | .crdy a => [.src a.toNat]
  | .ctt a b | .cwaitf a b | .cseqWt a b => [.src a.toNat, .src b.toNat]
  | .cpoll d a b => [.src a.toNat, .src b.toNat, .dst d.toNat]
  | .cstat d a | .cseq d a | .carb d a => [.src a.toNat, .dst d.toNat]
  | .mfk d _ => [.dst d.toNat]
  | .mtk _ a | .sleep a => [.src a.toNat]
  | .repart d a => [.src a.toNat, .dst d.toNat]
  | .pgmig d a b | .pgheat d a b | .pgref d a b | .plbw d a b | .domset d a b =>
    [.src a.toNat, .src b.toNat, .dst d.toNat]
  | .rowret d a | .dreset d a | .qosp d a => [.src a.toNat, .dst d.toNat]
  | .shoot a b | .irq a b => [.src a.toNat, .src b.toNat]
  | .add d a b _ | .sub d a b _ | .mul d a b _ | .mulh d a b _ | .mulhn d a b _ | .div d a b _ | .divn d a b _
  | .rem d a b _ | .remn d a b _ | .and d a b _ | .or d a b _ | .xor d a b _ | .andn d a b _ | .shl d a b _
  | .shr d a b _ | .sra d a b _ | .rot d a b _ | .min d a b _ | .max d a b _ | .minn d a b _ | .maxn d a b _ =>
    [.src a.toNat, .src b.toNat, .dst d.toNat]
  | .sel d a b _ => [.src a.toNat, .src b.toNat, .gen d.toNat]
  | .clz d a _ | .ctz d a _ | .popc d a _ | .bswap d a _ => [.src a.toNat, .dst d.toNat]
  | .cmp d a b _ | .fcmp d a b _ => [.src a.toNat, .src b.toNat, .dst d.toNat]
  | .addImm d a _ | .mulImm d a _ | .andImm d a _ | .orImm d a _ | .xorImm d a _ | .minImm d a _ | .maxImm d a _
  | .minnImm d a _ | .maxnImm d a _ | .shlImm d a _ | .shrImm d a _ | .sraImm d a _ | .rotImm d a _
  | .cmpImm d a _ _ => [.src a.toNat, .dst d.toNat]
  | .bfx d a _ _ => [.src a.toNat, .dst d.toNat]
  | .bfi d a _ _ => [.src a.toNat, .gen d.toNat]
  | .lim d _ | .lih d _ => [.gen d.toNat]
  | .fadd d a b _ | .fsub d a b _ | .fmul d a b _ | .fmin d a b | .fmax d a b =>
    [.src a.toNat, .src b.toNat, .dst d.toNat]
  | .ffma d a b _ => [.src a.toNat, .src b.toNat, .gen d.toNat]
  | .fcvt d a _ _ _ => [.src a.toNat, .dst d.toNat]
  | .vbcast _ a _ _ | .vshape _ a | .vloop _ a => [.src a.toNat]
  | _ => []

/-- A field that may be read in some state (03 R58). Field 59 has no value to read in any context (log 57). -/
def srcField (f : Nat) : Bool := f ≤ 57 || f == 60 || f == 61 || f == 62 || f == 63

/-- A field that may be written in some state (03 R58). -/
def dstField (f : Nat) : Bool := f ≤ 55 || f == 58 || f == 59 || f == 62

/-- A field that names a general register or gz (08 R188). -/
def genField (f : Nat) : Bool := f ≤ 55 || f == 62

/-- One use is legal in some state. -/
def Use.ok : Use → Bool
  | .src f => srcField f
  | .dst f => dstField f
  | .gen f => genField f

/-- How often a list of uses reads field `f` as a source. -/
def readsOf (f : Nat) (us : List Use) : Nat :=
  (us.filter (fun u => decide (u = .src f))).length

/-- No receive port is named twice as a source (03 R59). -/
def portsOnce (us : List Use) : Bool := readsOf 56 us ≤ 1 && readsOf 57 us ≤ 1

/-- A floating type of the vector arithmetic: f32, bf16, f16, e8m10 (12 R298). -/
def isF (t : Nat) : Bool := t ≤ 3

/-- An integer type (12 R298). -/
def isI (t : Nat) : Bool := 16 ≤ t && t ≤ 23

/-- A defined element-type code (03 R74). -/
def typeDefined (t : Nat) : Bool := t ≤ 9 || (16 ≤ t && t ≤ 24)

/-- The variant of a rounding instruction: 0 to 3 for a floating type, 0 for an integer one (12 R298). -/
def roundOk (t r : Nat) : Bool := (isF t && r ≤ 3) || (isI t && r == 0)

/-- The types and variant of a VCVT (12 R302, R304, 04 R88). -/
def cvtOk (s t v : Nat) : Bool :=
  typeDefined s && typeDefined t && s != t &&
    (if s == 24 then (t == 0 || t == 3) && v == 0
     else if t == 24 || t == 9 then v == 0
     else if v == 4 then t == 1 || t == 2 || t == 4 || t == 5
     else v ≤ 3)

/-- The types a reduction accepts (12 R307). -/
def redType (t : Nat) : Bool := t ≤ 2 || t == 18 || t == 19 || t == 22 || t == 23

/-- The types a scan accepts (12 R308). -/
def scanType (t : Nat) : Bool := t == 0 || t == 18 || t == 19 || t == 22 || t == 23

/-- The E option of an integer register form needs a send port as destination (03 R70). -/
def eOk (d : BitVec 6) (e : BitVec 1) : Bool := e == 0 || d.toNat == 58 || d.toNat == 59

/-- What the fields other than register fields must satisfy. A step of the hardware is no word. -/
def Instr.fieldsOk : Instr → Bool
  | .br c _ _ => c.toNat ≤ 5
  | .loop a _ => a.toNat ≤ 55
  | .ld _ _ s _ => s.toNat ≤ 2 || (4 ≤ s.toNat && s.toNat ≤ 6)
  | .st _ _ s _ => s.toNat ≤ 2
  | .hbinit _ b | .hbarr _ b | .hbwait _ b | .hbtest _ _ b => b.toNat ≤ 31
  | .spawnx d _ => 1 ≤ d.toNat && d.toNat ≤ 5
  | .rbox d _ _ | .rld d _ | .rst d _ => d.toNat ≤ 7
  | .runi d a b | .rint d a b | .rsub d a b => d.toNat ≤ 7 && a.toNat ≤ 7 && b.toNat ≤ 7
  | .rdil d a _ | .rprj d a _ | .rstrd d a _ | .rrag d a _ | .rshf d a _ => d.toNat ≤ 7 && a.toNat ≤ 7
  | .rspl d a _ => d.toNat ≤ 6 && a.toNat ≤ 7
  | .rcmp _ a b => a.toNat ≤ 7 && b.toNat ≤ 7
  | .rcnt _ a | .rvol _ a | .rtst _ a _ => a.toNat ≤ 7
  | .copy _ a _ | .gath _ a _ | .scat _ a _ | .cwait a _ => a.toNat ≤ 7
  | .pres d a => d.toNat ≤ 7 && a.toNat ≤ 7
  | .fopen d _ => d.toNat ≤ 7
  | .fnext _ a | .fnextge _ a _ | .fend _ a | .fclose a => a.toNat ≤ 7
  | .mldaRg _ a _ | .mldbRg _ a _ => a.toNat ≤ 7
  | .ttrn a b => a != b
  | .kopen d _ _ | .kclose d _ | .kapp d _ _ | .kacc d _ | .krej d | .kpb d _ _ | .kspl d _ _ | .kmarg d _ _
  | .ktent d _ | .kdropt d => d.toNat ≤ 3
  | .kfork d a => d.toNat ≤ 3 && a.toNat ≤ 3 && d != a
  | .kload _ a _ | .kval _ a _ | .kpfx _ a _ | .kins _ a _ => a.toNat ≤ 3
  | .ccomm d _ | .cpost d _ | .cbar d | .cclose d => d.toNat ≤ 15
  | .mfk _ a => a.toNat ≤ 27
  | .mtk d _ => d.toNat ≤ 27
  | .add d _ _ e | .sub d _ _ e | .mul d _ _ e | .mulh d _ _ e | .mulhn d _ _ e | .div d _ _ e | .divn d _ _ e
  | .rem d _ _ e | .remn d _ _ e | .and d _ _ e | .or d _ _ e | .xor d _ _ e | .andn d _ _ e | .shl d _ _ e
  | .shr d _ _ e | .sra d _ _ e | .rot d _ _ e | .min d _ _ e | .max d _ _ e | .minn d _ _ e | .maxn d _ _ e
  | .sel d _ _ e => eOk d e
  | .clz d _ e | .ctz d _ e | .popc d _ e | .bswap d _ e => eOk d e
  | .cmp _ _ _ c => c.toNat ≤ 9
  | .cmpImm _ _ c _ => c.toNat ≤ 9
  | .fcmp _ _ _ c => c.toNat ≤ 7
  | .bfx _ _ p w | .bfi _ _ p w => p.toNat + w.toNat + 1 ≤ 64
  | .fadd _ _ _ r | .fsub _ _ _ r | .fmul _ _ _ r | .ffma _ _ _ r => r.toNat ≤ 3
  | .fcvt _ _ r t s => r.toNat ≤ 3 && t != s && !(4 ≤ t.toNat && 4 ≤ s.toNat)
  | .vadd _ _ _ _ r t | .vsub _ _ _ _ r t | .vmul _ _ _ _ r t | .vfma _ _ _ _ r t => roundOk t.toNat r.toNat
  | .vmin _ _ _ _ t | .vmax _ _ _ _ t => isF t.toNat || isI t.toNat
  | .vabs _ _ _ t | .vneg _ _ _ t => isF t.toNat || (16 ≤ t.toNat && t.toNat ≤ 19)
  | .vand _ _ _ _ t | .vor _ _ _ _ t | .vxor _ _ _ _ t | .vshl _ _ _ _ t | .vshr _ _ _ _ t => isI t.toNat
  | .vcmp h _ _ _ c t => h.toNat ≤ 7 && (isF t.toNat || (isI t.toNat && c.toNat ≤ 5))
  | .vsel _ _ _ _ t => typeDefined t.toNat
  | .vbcast _ _ _ t => typeDefined t.toNat
  | .viota _ _ t => [0, 16, 17, 18, 19, 20, 21, 22, 23].contains t.toNat
  | .vcvt _ _ s _ v t => cvtOk s.toNat t.toNat v.toNat
  | .vcvtHi _ _ s _ v t => cvtOk (16 + s.toNat) t.toNat v.toNat
  | .vredAdd _ _ _ t | .vredMax _ _ _ t | .vredMin _ _ _ t => redType t.toNat
  | .vscanInc _ _ _ t | .vscanMaxinc _ _ _ t | .vscanMininc _ _ _ t | .vscanExc _ _ _ t | .vscanMaxexc _ _ _ t
  | .vscanMinexc _ _ _ t => scanType t.toNat
  | .vrcp _ _ _ t | .vrsq _ _ _ t | .vsqrt _ _ _ t | .vexp _ _ _ t | .vexp2 _ _ _ t | .vlog _ _ _ t
  | .vlog2 _ _ _ t | .vtanh _ _ _ t => t.toNat ≤ 2
  | _ => true

/-- A step that the hardware or the host makes; it has no encoding. -/
def Instr.isEvent : Instr → Bool
  | .pushCopyInstall .. | .copyUnitDelivery .. | .gatherElementDelivery .. | .scatterElementWrite ..
  | .migrationShip .. | .reuseCountHalving .. | .fillExecute .. | .tileOpcodeStart .. | .tileOpcodeComplete ..
  | .mrevExecute .. | .kopenExecute .. | .kcloseExecute .. | .kappExecute .. | .pageAllocate .. | .kaccExecute ..
  | .krejExecute .. | .kpbExecute .. | .ksplExecute .. | .kforkExecute .. | .kloadExecute .. | .kvalExecute ..
  | .kmargExecute .. | .ktentExecute .. | .kdroptExecute .. | .ccommExecute .. | .cttExecute .. | .postStart ..
  | .chunkSend .. | .chunkArrival .. | .connectArrival .. | .freedReport .. | .barrierTokenArrival ..
  | .disconnectArrival .. | .postComplete .. | .tileEntryFire .. | .firingComplete .. | .ccloseExecute ..
  | .collectiveEventDelivery .. | .kpreqSet .. | .kpreqClear .. | .preemptStop .. | .sleepDeadline ..
  | .repartSwitch .. | .vectorEntryBegin .. | .vectorEntryComplete .. | .dispatchTask .. | .dispatchContinuation ..
  | .stealRequest .. | .budgetPeriodStart .. | .wakeMessage .. | .poolBlockFree .. | .packetHeaderAccept ..
  | .portUnitArrival .. | .faultRingRetry .. | .homeRecall .. | .migrationStart .. | .migrationLineCopy ..
  | .migrationFinish .. | .heatPeriodHalving | .scrubPass .. | .powerUp .. | .partReady .. | .partOutOfService ..
  | .linkPortFailure .. | .flitCrcRetry .. | .packageReset | .functionLevelReset .. | .firmwareUpdate ..
  | .attestationRequest .. | .clockStep .. | .lrtail .. | .launchRingEntry .. | .barRegisterWrite ..
  | .memoryReply .. | .hostMemoryAccess .. | .corePowerGating .. => true
  | _ => false

/-- A word the decoder accepts whatever the state. -/
def Instr.wf (i : Instr) : Bool :=
  !i.isEvent && i.fieldsOk && i.uses.all Use.ok && portsOnce i.uses

/-- A long instruction of two words (03 R57). -/
def Instr.isLong : Instr → Bool
  | .lim .. | .lih .. => true
  | _ => false

/-- The privileged words (03 R65). -/
def Instr.privileged : Instr → Bool
  | .stealctl .. | .budget .. | .mqw .. | .carb .. | .rett | .halt | .repart .. | .pgmig .. | .pgheat .. | .rowret ..
  | .shoot .. | .pgref .. | .plbw .. | .domset .. | .irq .. | .dreset .. | .qosp .. => true
  | _ => false

/-- The words that only the communication context may issue (01 R6, 17 R389). -/
def Instr.commOnly : Instr → Bool
  | .ccomm .. | .ctt .. | .cpost .. | .cbar .. | .cclose .. => true
  | _ => false

/-- The words after which the running continuation has left its context (06 R150, 10 R280), and REPART, which resets
registers of it (07 R185): a class-A word beside one goes first. -/
def Instr.leaves : Instr → Bool
  | .spawnx .. | .susp | .tret .. | .yield | .migr .. | .repart .. => true
  | _ => false

end Sys2Proof
end

