-- ==== Sys2Proof/Machine/Ops.lean ====
section
/-! DEFINITION. The named operations of a core: how a word ends, traps, registers and ports, memory accesses, releases
(02 R50, 07 R169 to R182, 08 R200, R216 to R224). -/
namespace Sys2Proof.Machine

/-! ### Illegal words (03 R56, R65) -/

/-- kinfo of an ILL: the word, and bit 32 for the second word of a pair (03 R56). -/
def illInfo (s : State) : Word := wd (s.focus.word.toNat + (if s.focus.second then 2 ^ 32 else 0))

/-- ILL at the executing word. -/
def ill {α : Type} (s : State) : Except Stop α := .error (.trap 1 (illInfo s))

/-- A trap with a cause of 07 R178. -/
def trapS {α : Type} (cause : Nat) (info : Word) : Except Stop α := .error (.trap cause info)

/-- PROT (07 R178). -/
def prot {α : Type} (a : Nat) : Except Stop α := trapS 2 (wd a)

/-- ALIGN (07 R178). -/
def misaligned {α : Type} (a : Nat) : Except Stop α := trapS 3 (wd a)

/-- FMT (07 R178). -/
def fmtTrap {α : Type} (a : Nat) : Except Stop α := trapS 7 (wd a)

/-- A use of a register field is legal for the executing context (03 R58). -/
def useLegal (s : State) : Use → Bool
  | .src f => decide (f < s.core.ngreg) || f == 56 || (f == 57 && s.isComm) || (decide (60 ≤ f) && decide (f ≤ 63))
  | .dst f => decide (f < s.core.ngreg) || f == 58 || (f == 59 && s.isComm) || f == 62
  | .gen f => decide (f < s.core.ngreg) || f == 62

/-- The word is legal for the executing context: its register fields, its mode (R65), the communication context (R6). -/
def legal (s : State) (i : Instr) : Bool :=
  i.uses.all (useLegal s) && portsOnce i.uses && (!i.privileged || s.cur.sup) && (!i.commOnly || s.isComm)

/-- FMT where the spec names no record, table or code for kinfo: its value is open (log 7). -/
def fmtOpen {α : Type} (s : State) : Except Stop α := trapS 7 (Config.freeWord s.freeCtr)

/-! ### Traps (07 R178 to R182) -/

/-- Trap entry (07 R180); a trap while kstat.T = 1 halts the context (R181). BKPT and SYSC save the next bundle. -/
def takeTrap (s : State) (cause : Nat) (info : Word) : State :=
  let x := s.cur
  if x.inTrap then
    (s.setCur { x with st := .halted, pc := s.focus.pc }).haltReport s.focus.core s.focus.ctx x.kdom.toNat
  else
    s.setCur { x with
      kepc := if cause = 9 ∨ cause = 10 then s.focus.next else s.focus.pc
      kcause := wd cause
      kinfo := info
      kstat := mkStat true x.sup true x.rchk
      pc := x.ktvec
      st := .ready }

/-- Return from a trap (07 R182): PC = kepc, the mode of PM, T cleared. -/
def returnTrap (s : State) : State :=
  let x := s.cur
  s.setCur { x with pc := x.kepc, kstat := mkStat x.pm x.pm false x.rchk }

/-! ### How a word ends -/

/-- The context goes to a state that waits; its PC is the bundle, which reissues from scratch (02 R50, 07 R174). -/
def backOut (s : State) (st : CtxState) : State :=
  s.setCur { s.cur with pc := s.focus.pc, st := st }

/-- A drop under a memory fault (07 R169): kfault, state 3 under a new request, and what the home tile does about the page (20
R434). -/
def dropOut (s : State) (addr : Word) (reason code : Nat) : State :=
  let s := s.setCur { s.cur with
    pc := s.focus.pc
    st := .dropped addr.toNat reason s.requests
    kfault := wd (alignDown addr.toNat 128 + reason) }
  { s with requests := s.requests + 1 }.faulted s.focus.core s.kdom addr.toNat reason code 1

/-- The context's sequencer queue is empty: entries, loop and pending flags (12 R311). -/
def Ctx.emptied (x : Ctx) : Ctx := { x with vq := [], vk := 0, vleft := 0, vadv := [], vflags := 0, vold := [] }

/-- The state after a word stops (02 R50): trap entry, a drop, or a wait with the bundle to be reissued. -/
def stopState (s : State) : Stop → State
  | .trap c i => { takeTrap s c i with freeCtr := s.freeCtr + 1 }
  | .flags i => { takeTrap (s.setCur s.cur.emptied) 8 i with freeCtr := s.freeCtr + 1 }
  | .drop a r cd => dropOut s a r cd
  | .wait w => backOut s (.waiting w)
  | .rx p => backOut s (.rxBlocked p)
  | .pool => backOut s .poolHeld
  | .fault _ => s

/-- The step that ends a word: its effect, or the way it stops, applied to the state before the word. -/
def finish (s : State) : Except Stop State → Host.Outcome State Fault Refusal
  | .ok t => .next { t with last := .done }
  | .error (.fault f) => .fault f
  | .error st => .next { stopState s st with last := .stopped st }

/-- The meaning of a word: ILL where it is not legal for the context, else its effect. -/
def guarded (i : Instr) (s : State) (body : State → Except Stop State) : Host.Outcome State Fault Refusal :=
  finish s (if legal s i then body s else ill s)

/-- The step that ends a word which accesses global memory: where it stops, what its accesses left in its core's PLB and in the
home tiles stays (20 R431, R434, R440; log 71). -/
def finishRun (s : State) (m : Run State) : Host.Outcome State Fault Refusal := finish (s.seeing m.left) m.ans

/-- The meaning of a word that accesses global memory. -/
def guardedRun (i : Instr) (s : State) (body : State → Run State) : Host.Outcome State Fault Refusal :=
  if legal s i then finishRun s (body s) else finish s (ill s)

/-- The meaning of a hardware step: its effect on a part that exists, else the fault (01 R3). -/
def hwStep (ok : Bool) (s : State) (f : State → State) : Host.Outcome State Fault Refusal :=
  if ok then .next { f s with last := .done } else .fault .noSuchPart

/-! ### General registers (03 R58) -/

/-- A general register of the executing context, as the bundle's sources see it (02 R40). -/
def State.greg (s : State) (n : Nat) : Word :=
  match s.pin with
  | some p => sget 0 p.g n
  | none => sget 0 s.cur.g n

/-- A mask register of the executing context, as the bundle's sources see it (02 R40). -/
def State.mreg (s : State) (n : Nat) : BitVec 512 :=
  match s.pin with
  | some p => sget 0 p.m n
  | none => sget 0 s.cur.m n

/-- A field that is read and written: a general register, or gz, which reads 0 (08 R188). -/
def State.genReg (s : State) (f : Nat) : Word := if f < 56 then s.greg f else 0

/-- Write a general register of the executing context. -/
def State.setG (s : State) (n : Nat) (v : Word) : State := s.setCur { s.cur with g := sset s.cur.g n v }

/-- The ptag value of a unit (08 R220). -/
def ptagOf (u : PUnit) : Word :=
  wd (u.tag.toNat + (if u.first then 2 ^ 8 else 0) + (if u.last then 2 ^ 9 else 0) + (if u.abort then 2 ^ 10 else 0) +
    (if u.sup then 2 ^ 11 else 0) + u.score % 1024 * 2 ^ 12 + u.sctx % 16 * 2 ^ 22)

/-- The unit at the head of rx0 that ptag and BTAG see: in a pair, the head at the start of the bundle; in a lone word that has
taken a unit, the one after it (log 57). -/
def State.tagUnit (s : State) : Option PUnit :=
  match s.pin with
  | some p => p.tag
  | none => s.cur.rx0.units.head?

/-- The value of a source field and the state after it is read: a receive port gives up a unit (03 R58, 07 R172). -/
def readReg (f : Nat) (s : State) : Except Stop (Word × State) :=
  if f < s.core.ngreg then .ok (s.greg f, s)
  else if f = 56 then
    match s.cur.rx0.units with
    | [] => .error (.rx 0)
    | u :: r => .ok (u.data, s.setCur { s.cur with rx0 := { s.cur.rx0 with units := r } })
  else if f = 57 ∧ s.isComm then
    match s.cur.rx1.units with
    | [] => .error (.rx 1)
    | u :: r => .ok (u.data, s.setCur { s.cur with rx1 := { s.cur.rx1 with units := r } })
  else if f = 60 then
    match s.tagUnit with
    | none => .error (.rx 0)
    | some u => .ok (ptagOf u, s)
  else if f = 61 then .ok (s.cur.slot, s)
  else if f = 62 then .ok (0, s)
  else if f = 63 then .ok (s.focus.pc, s)
  else ill s

/-! ### Releases (05 R115, R133) -/

/-- A release waits for the context's push copies, then resets its quotas (05 R132, R133). Every access of the model
performs at once, so a release orders nothing more (log 1). -/
def release (s : State) : Except Stop State :=
  if s.cur.pushes.isEmpty then .ok (s.setCur { s.cur with quota := [] }) else .error (.wait .pushes)

/-! ### Send ports (08 R216 to R224) -/

/-- The descriptor of receive ring `i` of core `c` (08 R222): domain, enabled, size in bytes, base. -/
def ringDesc (s : State) (c i : Nat) : Nat × Bool × Nat × Nat :=
  let w := s.localLe c (32 * i) 8
  let z := fieldN w 32 4
  (fieldN w 48 16, fieldN w 31 1 == 1 && decide (z ≤ 10), 2 ^ (6 + z), fieldN w 0 19)

/-- The free bytes of a ring (08 R224). -/
def ringFree (s : State) (c i : Nat) : Nat :=
  let used := (s.localLe c (32 * i + 16) 8 + 2 ^ 64 - s.localLe c (32 * i + 8) 8) % 2 ^ 64
  (ringDesc s c i).2.2.1 - used

/-- Write bytes into a ring at running position `pos`, wrapping at its end. A base that is no multiple of the ring's size is used as it
stands, and offsets wrap within local memory (log 89). -/
def ringPut (s : State) (c i pos : Nat) (b : List Byte) : State :=
  let (_, _, size, base) := ringDesc s c i
  (b.zipIdx).foldl (fun s p => s.localPut c ((base + (pos + p.2) % size) % 2 ^ 19) [p.1]) s

/-- A receive port of a context. -/
def Ctx.rx (x : Ctx) (p : Nat) : Port := if p = 0 then x.rx0 else x.rx1

/-- Replace a receive port of a context. -/
def Ctx.setRx (x : Ctx) (p : Nat) (v : Port) : Ctx := if p = 0 then { x with rx0 := v } else { x with rx1 := v }

/-- A send port of a context. -/
def Ctx.tx (x : Ctx) (p : Nat) : Option OpenPkt := if p = 0 then x.tx0 else x.tx1

/-- Replace a send port of a context. -/
def Ctx.setTx (x : Ctx) (p : Nat) (v : Option OpenPkt) : Ctx := if p = 0 then { x with tx0 := v } else { x with tx1 := v }

/-- The receive port has no room for another unit of its 16 (08 R219). -/
def Port.full (p : Port) : Bool := decide (16 ≤ p.units.length + p.flight.length)

/-- Whether a header send is accepted (08 R218, R219, R224). -/
def headerRoom (s : State) (me : Nat × Nat × Nat) (core dest port : Nat) (ring : Bool) (len : Nat) : Bool :=
  if ring then
    let o := sget none (s.coreAt core).rings dest
    (o == none || o == some me) && decide (8 + 8 * len ≤ ringFree s core dest)
  else
    let p := (s.ctxAt core dest).rx port
    (p.openBy == none || p.openBy == some me) && !p.full

/-- Deliver one unit of the packet open on send port `p` (08 R219, R224); `e` closes the packet, `ab` marks an abort
close. The header of a ring's entry shows the sender's mode at the closing send (R223; log 80). -/
def deliverUnit (s : State) (c x p : Nat) (k : OpenPkt) (v : Word) (e ab : Bool) : State :=
  let me := (c, x, p)
  if k.ring then
    let past := ab && decide (k.len ≤ k.sent)
    let s := if past then s else ringPut s k.core k.dest (k.tail + 8 + 8 * k.sent) (leBytes 8 v.toNat)
    if e then
      let n := if past then k.sent else k.sent + 1
      let size := (ringDesc s k.core k.dest).2.2.1
      let w := decide (size < k.tail % size + 8 + 8 * n)
      let hdr := n % 16 + (if w then 2 ^ 4 else 0) + k.tag.toNat * 2 ^ 8 + c % 1024 * 2 ^ 16 + x % 16 * 2 ^ 26 +
        (if (s.ctxAt c x).sup then 2 ^ 30 else 0)
      let s := ringPut s k.core k.dest k.tail (leBytes 8 hdr)
      let s := s.localPut k.core (32 * k.dest + 16) (leBytes 8 ((k.tail + 8 + 8 * n) % 2 ^ 64))
      let t := s.coreAt k.core
      let s := s.setCore k.core { t with rings := sset t.rings k.dest none }
      s.setCtx c x ((s.ctxAt c x).setTx p none)
    else
      let t := s.coreAt k.core
      let s := s.setCore k.core { t with rings := sset t.rings k.dest (some me) }
      s.setCtx c x ((s.ctxAt c x).setTx p (some { k with sent := k.sent + 1 }))
  else
    let u : PUnit := ⟨v, k.tag, k.sent == 0, e, ab, (s.ctxAt c x).sup, c, x⟩
    let d := s.ctxAt k.core k.dest
    let q := d.rx k.port
    let s := s.setCtx k.core k.dest (d.setRx k.port
      { q with flight := q.flight ++ [u], openBy := if e then none else some me })
    s.setCtx c x ((s.ctxAt c x).setTx p (if e then none else some { k with sent := k.sent + 1 }))

/-- Open a packet with its header send (08 R217, R218, R221). A ring's entry starts at the tail that stands in memory, one that a
program has written too (R224; log 80). A declared length of 9 to 15 opens the packet like another, whose ninth send raises MSGSIZE
(log 88). -/
def openPacket (p : Nat) (v : Word) (e : Bool) (s : State) : Except Stop State := do
  let h := v.toNat % 2 ^ 32
  let core := fieldN h 0 10
  let dest := fieldN h 10 4
  let port := fieldN h 14 1
  let g := fieldN h 15 1 == 1
  let len := fieldN h 16 4
  let me := (s.focus.core, s.focus.ctx, p)
  let t := s.ctxAt core dest
  let (rdom, ren, size, _) := ringDesc s core dest
  if fieldN h 20 4 != 0 then prot h
  else if !g && len != 0 then prot h
  else if !s.squareReady (squareOf core) then prot h
  else if !g && decide ((s.coreAt core).nctx ≤ dest) then prot h
  else if !g && port == 1 && dest != (s.coreAt core).comm then prot h
  else if g && (port == 1 || decide (7 < dest) || len == 0) then prot h
  else if !g && !s.cur.sup && (t.st == .idle || t.kdom != s.cur.kdom) then prot h
  else if g && !s.cur.sup && (!ren || rdom != s.kdom) then prot h
  else if g && decide (size < 8 + 8 * len) then trapS 6 (wd (2 * len))
  else
    let s ← release s
    if !headerRoom s me core dest port g len then
      .error (.wait (if !g && (t.rx port).full then .portFull core dest port else .header core dest port g len))
    else
      let tail := if g then s.localLe core (32 * dest + 16) 8 else 0
      let k : OpenPkt := ⟨core, dest, g, port, 0, BitVec.ofNat 8 (fieldN h 24 8), len, tail⟩
      pure (deliverUnit s s.focus.core s.focus.ctx p k v e false)

/-- A send on port `p`: a header send, or a unit of the open packet (08 R216, R219, R224). -/
def send (p : Nat) (v : Word) (e : Bool) (s : State) : Except Stop State :=
  match s.cur.tx p with
  | none => openPacket p v e s
  | some k =>
    if 8 ≤ k.sent then trapS 6 18
    else if k.ring then
      if k.len ≤ k.sent then trapS 6 (wd (2 * (k.len + 1)))
      else .ok (deliverUnit s s.focus.core s.focus.ctx p k v e false)
    else if ((s.ctxAt k.core k.dest).rx k.port).full then .error (.wait (.portFull k.core k.dest k.port))
    else .ok (deliverUnit s s.focus.core s.focus.ctx p k v e false)

/-- The abort close of the packets a context has open (07 R173). -/
def abortClose (s : State) (c x : Nat) : State :=
  [0, 1].foldl (fun s p =>
    match (s.ctxAt c x).tx p with
    | none => s
    | some k => deliverUnit s c x p k 0 true true) s

/-- Write a destination field (03 R58); `e` is the E option of the word (03 R70). -/
def writeRegE (f : Nat) (v : Word) (e : Bool) (s : State) : Except Stop State :=
  if f < s.core.ngreg then .ok (s.setG f v)
  else if f = 58 then send 0 v e s
  else if f = 59 ∧ s.isComm then send 1 v e s
  else if f = 62 then .ok s
  else ill s

/-- Write a destination field. -/
def writeReg (f : Nat) (v : Word) (s : State) : Except Stop State := writeRegE f v false s

/-! ### Local accesses (07 R167, 08 R200 step 2) -/

/-- The first byte of a local range that the executing context may not access; `wr` for stores. -/
def localDenied (s : State) (wr : Bool) (off n : Nat) : Option Nat :=
  (upTo n).find? (fun i =>
    decide (2 ^ 19 ≤ off + i) || (!s.cur.sup && !s.core.userLocal (off + i)) || (wr && inRange s.core.pool (off + i)))
  |>.map (off + ·)

/-- Step 2 of R200 for `n` bytes at a local address. -/
def localCheck (wr : Bool) (ea n : Nat) (s : State) : Except Stop Unit :=
  if !localOk ea then prot ea
  else match localDenied s wr (localOff ea) n with
    | some o => prot (localAddr o).toNat
    | none => pure ()

/-! ### Global accesses (02 R50, 08 R200 step 3) -/

/-- The kinds of access (02 R50). -/
inductive Access where
  | read | write | atomic
  deriving DecidableEq, Repr

/-- The rights an access needs (20 R431). -/
def Access.need : Access → Nat
  | .read => needR
  | .write => needW
  | .atomic => needRW

/-- The access writes. -/
def Access.wr : Access → Bool
  | .read => false
  | _ => true

/-- The first byte of a global access that lies outside the footprints it is checked against (09 R244). A continuation
that no task record started has no footprint to be checked against (log 11). -/
def footDenied (s : State) (k : Access) (ea n : Nat) : Option Nat :=
  let x := s.cur
  if x.task = 0 then none
  else
    let w := k.wr
    let r := x.rchk && k != .write
    (upTo n).find? (fun i => (w && !footHolds x.wfoot (ea + i)) || (r && !footHolds x.rfoot (ea + i))) |>.map (ea + ·)

/-- A byte of the access lies in the continuation pool of the context's domain, where user mode may not store (06 R143). -/
def poolDenied (s : State) (k : Access) (ea n : Nat) : Bool :=
  k.wr && !s.cur.sup &&
    match s.dom? s.kdom with
    | some d => decide (d.slots ≠ 0 ∧ ea < d.pool.toNat + 128 * d.slots ∧ d.pool.toNat < ea + n)
    | none => false

/-- What holds an access of the hardware holds the word that makes it: a recall of the line, or a drop (05 R128, 07 R169). -/
def pageStop (h : Nat × Nat × Nat) : Stop :=
  if h.2.1 = 0 then .wait (.recall (h.1 / 128)) else .drop (wd h.1) h.2.1 h.2.2

/-- What the hardware looks at for a word: the address it finds, or what holds the word (05 R128, 07 R169). -/
def held {α : Type} (r : Except (Nat × Nat × Nat) α × State) : Run (α × State) := leaves (r.1.mapError pageStop, r.2)

/-- The rights check of an access: its PLB pair (08 R200, 20 R431). -/
def rightsGrant (k : Access) (ea n : Nat) (s : State) : Run (PlbEntry × State) := do
  if !isGlobal ea then prot ea
  let (e, s) ← held (plbLook s.focus.core s.kdom (segOf ea) s)
  if !granted (rightsBits e.rights.toNat) k.need || poolDenied s k ea n then prot ea else pure (e, s)

/-- The rights and footprint checks of an access (08 R200, 09 R244). -/
def globalGrant (k : Access) (ea n : Nat) (s : State) : Run (PlbEntry × State) := do
  let (e, s) ← rightsGrant k ea n s
  match footDenied s k ea n with
  | some a => prot a
  | none => pure (e, s)

/-- A granted access within one line reaches home tile `home`: the physical address that it is served at, or how it stops, by
residency, engine ownership, budget or poison; with either, the state that it leaves (05 R128, 06 R161, 07 R169, 20 R434, R440,
R447). -/
def placeAt (home : Option Nat) (k : Access) (ea : Nat) (s : State) : Except Stop Nat × State :=
  match translate home k.wr ea s with
  | (.stop r c, s) => (.error (.drop (wd ea) r c), s)
  | (.ok pa shift, s) =>
    let q := home.getD 0
    if s.owned.any (fun o => o.line == ea / 128) then (.error (.wait (.recall (ea / 128))), s)
    else if s.beatsSpent s.kdom q ea pa then (.error (.wait (.beats s.kdom (districtOf q))), s)
    else
      let wr := k.wr && (s.core.stashFor (ea / 128) s.kdom).isNone
      let s := (s.recall q (ea / 128) pa shift).touch (some s.kdom) 1 q ea pa shift wr
      (if k != .write && s.frameBad pa then .error (.drop (wd ea) 4 4) else .ok pa, s)

/-- The physical address that a granted access within one line reaches. -/
def globalPlace (e : PlbEntry) (k : Access) (ea : Nat) (s : State) : Run (Nat × State) := leaves (placeAt e.home k ea s)

/-- Where a granted access within one line is served: from its frame, or by a filled entry of the core's stash (10 R271). -/
inductive Spot where
  | frame (pa : Nat)
  | entry (t : StashEntry)
  deriving DecidableEq, Repr

/-- Where a granted access of `n` bytes within one line is served (10 R271, R272): by the core's entry for its domain, which the
first touch fills, else from the frame. An engine that owns the line has it recalled from the entry as from its home tile (05
R128), and a page under migration takes no write (20 R438). -/
def accessSpot (e : PlbEntry) (k : Access) (ea n : Nat) (s : State) : Run (Spot × State) :=
  match s.core.stashFor (ea / 128) s.kdom with
  | none => do
    let (pa, s) ← globalPlace e k ea s
    pure (.frame pa, s)
  | some t =>
    if t.f then
      if s.owned.any (fun o => o.line == ea / 128) then throw (.wait (.recall (ea / 128)))
      else if k.wr && s.migrating ea then throw (.drop (wd ea) 2 0)
      else if k != .write && s.core.entryBad t (ea % 128) n then throw (.drop (wd ea) 4 4)
      else pure (.entry t, s)
    else do
      let (pa, s) ← globalPlace e k ea s
      let s := fillEntry s s.focus.core t pa
      pure (.entry ((s.core.stashFor (ea / 128) s.kdom).getD t), s)

/-- The bytes that an access finds where it is served. -/
def State.spotRead (s : State) (w : Spot) (ea n : Nat) : List Byte :=
  match w with
  | .frame pa => memRead s.mem pa n
  | .entry t => s.core.entryRead t (ea % 128) n

/-- Bytes within one line written where the access is served; every other copy of the line goes. -/
def State.spotPut (s : State) (w : Spot) (ea : Nat) (b : List Byte) : State :=
  match w with
  | .frame pa => (s.putPhys pa b).stashesWritten (some (s.focus.core, s.kdom)) ea b.length
  | .entry t => s.entryPut s.focus.core t ea b

/-- Read `n` bytes of a granted line (10 R271, R272). -/
def grantedRead (e : PlbEntry) (ea n : Nat) (s : State) : Run (List Byte × State) := do
  let (w, s) ← accessSpot e .read ea n s
  pure (s.spotRead w ea n, s)

/-- Read `n` bytes within one line at a global address (08 R200). -/
def globalRead (ea n : Nat) (s : State) : Run (List Byte × State) := do
  let (e, s) ← globalGrant .read ea n s
  grantedRead e ea n s

/-- Write bytes within one line at a global address (08 R200, 10 R271). -/
def globalWrite (ea : Nat) (b : List Byte) (s : State) : Run State := do
  let (e, s) ← globalGrant .write ea b.length s
  let (w, s) ← accessSpot e .write ea b.length s
  pure (s.spotPut w ea b)

/-- Read and rewrite `n` bytes at a global address atomically (05 R120, 08 R208). -/
def globalAtomic (ea n : Nat) (f : Nat → Nat) (s : State) : Run (Nat × State) := do
  let (e, s) ← globalGrant .atomic ea n s
  let (w, s) ← accessSpot e .atomic ea n s
  let old := ofBytes (s.spotRead w ea n)
  pure (old, s.spotPut w ea (leBytes n (f old)))

/-! ### Loads, stores and atomics at any address (08 R200) -/

/-- `ea = (g(a) + sext(off)) mod 2^64`. -/
def effAddr (base : Word) (off : Int) : Nat := (base + BitVec.ofInt 64 off).toNat

/-- The bytes of a load of `n` bytes of local memory: R200 step 2, and no poison (20 R447). -/
def localRead (ea n : Nat) (s : State) : Except Stop (List Byte) := do
  localCheck false ea n s
  if s.core.poisoned (localOff ea) n then .error (.drop (wd ea) 4 4) else pure (memRead s.core.mem (localOff ea) n)

/-- Put an element's old value over the bits of a span that nobody has written since; `b` begins at `ea`. -/
def overlay (ea : Nat) (b : List Byte) (o : OldEl) : List Byte :=
  if o.pos + o.width ≤ 8 * ea ∨ 8 * (ea + b.length) ≤ o.pos then b
  else
    let up := 2 ^ (o.pos - 8 * ea)
    let down := 2 ^ (8 * ea - o.pos)
    let m := o.live * up / down
    leBytes b.length (bitsOut (ofBytes b) m ||| (o.val * up / down &&& m))

/-- Until VSYNC, a load finds of each element that an entry of the context has written either what it held before or what the
entry wrote: a free choice for each (05 R112; log 56). -/
def oldOrNew (ea : Nat) (b : List Byte) (s : State) : List Byte × State :=
  if s.cur.vold.isEmpty then (b, s)
  else
    (s.cur.vold.zipIdx.foldl (fun b p => if bitW (Config.freeWord (s.freeCtr + p.2)) 0 then overlay ea b p.1 else b) b,
     { s with freeCtr := s.freeCtr + s.cur.vold.length })

/-- The bytes of a load of `n` bytes of local memory, without an alignment check. -/
def localBytes (ea n : Nat) (s : State) : Except Stop (List Byte × State) := do
  let b ← localRead ea n s
  pure (oldOrNew ea b s)

/-- The bytes that a load of `n` bytes within one line finds in memory, without an alignment check. -/
def standing (ea n : Nat) (s : State) : Run (List Byte × State) := do
  if isLocal ea then
    let b ← localRead ea n s
    pure (b, s)
  else globalRead ea n s

/-- The bytes of a load of `n` bytes within one line, without an alignment check. -/
def loadBytes (ea n : Nat) (s : State) : Run (List Byte × State) := do
  let (b, s) ← standing ea n s
  pure (oldOrNew ea b s)

/-- A load of `n` bytes: ALIGN, then R200's checks, then the value. -/
def loadV (ea n : Nat) (s : State) : Run (Nat × State) :=
  if ea % n ≠ 0 then misaligned ea
  else do
    let (b, s) ← loadBytes ea n s
    pure (ofBytes b, s)

/-- A store of bytes within one line, without an alignment check. -/
def storeBytes (ea : Nat) (b : List Byte) (s : State) : Run State := do
  if isLocal ea then do
    localCheck true ea b.length s
    pure (s.localPut s.focus.core (localOff ea) b)
  else globalWrite ea b s

/-- A store of `n` bytes: ALIGN, then R200's checks, then the write. -/
def storeV (ea n v : Nat) (s : State) : Run State :=
  if ea % n ≠ 0 then misaligned ea else storeBytes ea (leBytes n v) s

/-- An atomic of `n` bytes at the home tile or the bank (08 R208). -/
def atomicV (ea n : Nat) (f : Nat → Nat) (s : State) : Run (Nat × State) := do
  if ea % n ≠ 0 then misaligned ea
  if isLocal ea then do
    localCheck true ea n s
    let b ← localRead ea n s
    pure (ofBytes b, s.localPut s.focus.core (localOff ea) (leBytes n (f (ofBytes b))))
  else globalAtomic ea n f s

/-- Check a load of a span of any length, then read it, line by line; nothing is read unless all of it may be. -/
def loadSpan (ea n : Nat) (s : State) : Run (List Byte × State) :=
  if isLocal ea then loadBytes ea n s
  else do
    let (b, s) ← (linePieces (n + 1) ea n).foldlM (fun (p : List Byte × State) (x : Nat × Nat) => do
      let (b, s) ← standing x.1 x.2 p.2
      pure (p.1 ++ b, s)) ([], s)
    pure (oldOrNew ea b s)

/-- Check a store of a span of any length, then write it. -/
def storeSpan (ea : Nat) (b : List Byte) (s : State) : Run State :=
  if isLocal ea then storeBytes ea b s
  else (linePieces (b.length + 1) ea b.length).foldlM (fun s (x : Nat × Nat) =>
    storeBytes x.1 ((b.drop (x.1 - ea)).take x.2) s) s

/-! ### Tensor descriptors (09 R230 to R233) -/

/-- The address of handle `h`'s descriptor and whether the domain has it (09 R230). -/
def descAddr (s : State) (dom h : Nat) : Nat × Bool :=
  match s.dom? dom with
  | some d => ((d.dtab.toNat + 64 * h) % 2 ^ 64, decide (h < d.dcount))
  | none => ((64 * h) % 2 ^ 64, false)

/-- The read of a descriptor with its PROT and drop; its bytes, none when it is not 64-aligned (09 R230, R247). -/
def descFetch (h : Nat) (s : State) : Run (Option (List Byte) × State) :=
  let (a, ok) := descAddr s s.kdom h
  if !ok then prot a
  else do
    let (e, s) ← rightsGrant .read a 64 s
    if a % 64 ≠ 0 then pure (none, s)
    else
      let (b, s) ← grantedRead e a 64 s
      pure (some b, s)

/-- A descriptor from what was read; FMT where it is not valid (09 R232). -/
def descParse (s : State) (h : Nat) (b : Option (List Byte)) : Except Stop Desc :=
  let a := (descAddr s s.kdom h).1
  match b with
  | none => fmtTrap a
  | some b => let (d, ok) := parseDesc b; if ok then .ok d else fmtTrap a

/-! ### Branches -/

/-- Set the PC of the executing context. -/
def State.setPc (s : State) (pc : Word) : State := s.setCur { s.cur with pc := pc }

/-- A target `words` words away from the bundle (03 R68). -/
def branchTo (s : State) (words : Int) : Word := s.focus.pc + BitVec.ofInt 64 (4 * words)

end Sys2Proof.Machine
end

