-- ==== Sys2Proof/Machine/Flags.lean ====
section
/-! DEFINITION. Exact values, the number formats, rounding, floating flags and kfpe (04 R76 to R99). -/
namespace Sys2Proof.Machine

/-! ### Exact values -/

/-- An exact value: a NaN (signalling or quiet), an infinity, or (-1)^neg * m * 2^e, which is a signed zero for m = 0. -/
inductive Val where
  | nan (sig : Bool)
  | inf (neg : Bool)
  | fin (neg : Bool) (m : Nat) (e : Int)
  deriving DecidableEq, Repr

/-- The five flags in kfpe's order: NV bit 0, DZ bit 1, OF bit 2, UF bit 3, NX bit 4 (04 R89). -/
abbrev Fl := BitVec 5

/-- Invalid. -/
def flNV : Fl := 1
/-- Division by zero. -/
def flDZ : Fl := 2
/-- Overflow. -/
def flOF : Fl := 4
/-- Underflow. -/
def flUF : Fl := 8
/-- Inexact. -/
def flNX : Fl := 16

/-- A number. -/
def Val.ofInt (i : Int) : Val := .fin (decide (i < 0)) i.natAbs 0

/-- Positive zero. -/
def Val.zero : Val := .fin false 0 0

/-- One. -/
def Val.one : Val := .fin false 1 0

/-- A signalling NaN raises invalid where an operation reads it (04 R83). -/
def Val.sigFl : Val → Fl
  | .nan true => flNV
  | _ => 0

/-- A NaN. -/
def Val.isNan : Val → Bool
  | .nan _ => true
  | _ => false

/-- A NaN or an infinity. -/
def Val.isNonFin : Val → Bool
  | .fin _ _ _ => false
  | _ => true

/-- A zero of either sign. -/
def Val.isZero : Val → Bool
  | .fin _ m _ => m == 0
  | _ => false

/-- The sign of a value that is no NaN. -/
def Val.isNeg : Val → Bool
  | .nan _ => false
  | .inf n => n
  | .fin n _ _ => n

/-- The value with the other sign. -/
def Val.neg : Val → Val
  | .nan s => .nan s
  | .inf n => .inf (!n)
  | .fin n m e => .fin (!n) m e

/-- The magnitude. -/
def Val.abs : Val → Val
  | .nan s => .nan s
  | .inf _ => .inf false
  | .fin _ m e => .fin false m e

/-- The value times 2^k. -/
def Val.scale (k : Int) : Val → Val
  | .fin n m e => .fin n m (e + k)
  | v => v

/-- The signed integer that a significand stands for at exponent `e0` ≤ e. -/
def signedAt (n : Bool) (m : Nat) (e e0 : Int) : Int :=
  let x : Int := ((m * 2 ^ (e - e0).toNat : Nat) : Int)
  if n then -x else x

/-- Exact sum with its flags; `rd` gives the sign of an exact zero sum of opposite signs (08 R194). -/
def Val.add (rd : Bool) (a b : Val) : Val × Fl :=
  match a, b with
  | .nan _, _ => (.nan false, a.sigFl ||| b.sigFl)
  | _, .nan _ => (.nan false, b.sigFl)
  | .inf x, .inf y => if x = y then (.inf x, 0) else (.nan false, flNV)
  | .inf x, _ => (.inf x, 0)
  | _, .inf y => (.inf y, 0)
  | .fin n m e, .fin n' m' e' =>
    let e0 := min e e'
    let s := signedAt n m e e0 + signedAt n' m' e' e0
    if s = 0 then
      (.fin (if m = 0 ∧ m' = 0 ∧ n = n' then n else rd) 0 0, 0)
    else (.fin (decide (s < 0)) s.natAbs e0, 0)

/-- Exact product with its flags. -/
def Val.mul (a b : Val) : Val × Fl :=
  match a, b with
  | .nan _, _ => (.nan false, a.sigFl ||| b.sigFl)
  | _, .nan _ => (.nan false, b.sigFl)
  | .inf x, .inf y => (.inf (x != y), 0)
  | .inf x, .fin n m _ => if m = 0 then (.nan false, flNV) else (.inf (x != n), 0)
  | .fin n m _, .inf y => if m = 0 then (.nan false, flNV) else (.inf (n != y), 0)
  | .fin n m e, .fin n' m' e' => (.fin (n != n') (m * m') (e + e'), 0)

/-- a · b + d with its flags: one exact sum (08 R194). Zero times infinity is invalid whatever the addend is, a quiet NaN too (log
79). -/
def Val.fma (rd : Bool) (a b d : Val) : Val × Fl :=
  let (p, f) := a.mul b
  let (r, g) := p.add rd d
  (r, f ||| g ||| d.sigFl)

/-- Order of two values that are no NaN: the zeros are equal. -/
def Val.cmp (a b : Val) : Ordering :=
  match a, b with
  | .inf x, .inf y => if x = y then .eq else if x then .lt else .gt
  | .inf x, _ => if x then .lt else .gt
  | _, .inf y => if y then .gt else .lt
  | .fin n m e, .fin n' m' e' =>
    let e0 := min e e'
    compare (signedAt n m e e0) (signedAt n' m' e' e0)
  | _, _ => .eq

/-- `a` comes before `b` for a minimum: −0 before +0 (04 R84). -/
def Val.before (a b : Val) : Bool :=
  match a.cmp b with
  | .lt => true
  | .gt => false
  | .eq => a.isNeg && !b.isNeg

/-- The minimum or maximum of two values with its flags (04 R84). -/
def Val.pick (max : Bool) (a b : Val) : Val × Fl :=
  let f := a.sigFl ||| b.sigFl
  match a, b with
  | .nan _, .nan _ => (.nan false, f)
  | .nan _, _ => (b, f)
  | _, .nan _ => (a, f)
  | _, _ => (if a.before b != max then a else b, f)

/-! ### Formats (04 R76, R77) -/

/-- A floating-point layout: exponent and fraction widths and bias; `ieee` where all ones is infinity or NaN, `nan7F`
where only all ones with all-ones fraction is NaN, neither where every code is a number. -/
structure Fmt where
  eb : Nat
  fb : Nat
  bias : Nat
  ieee : Bool
  nan7F : Bool
  deriving DecidableEq, Repr

/-- The layout of a floating type code (03 R74, 04 R76). -/
def fmtOf (t : Nat) : Fmt :=
  match t with
  | 0 => ⟨8, 23, 127, true, false⟩
  | 1 => ⟨8, 7, 127, true, false⟩
  | 2 => ⟨5, 10, 15, true, false⟩
  | 3 => ⟨8, 10, 127, true, false⟩
  | 4 => ⟨4, 3, 7, false, true⟩
  | 5 => ⟨5, 2, 15, true, false⟩
  | 6 => ⟨3, 2, 3, false, false⟩
  | 7 => ⟨2, 3, 1, false, false⟩
  | _ => ⟨2, 1, 1, false, false⟩

/-- The code of infinity. -/
def Fmt.infCode (f : Fmt) : Nat := (2 ^ f.eb - 1) * 2 ^ f.fb

/-- The sign bit's weight. -/
def Fmt.signBit (f : Fmt) : Nat := 2 ^ (f.eb + f.fb)

/-- The code of the largest finite value. -/
def Fmt.maxCode (f : Fmt) : Nat := if f.ieee then f.infCode - 1 else if f.nan7F then f.signBit - 2 else f.signBit - 1

/-- The default NaN's code, for a layout that has one (04 R77). -/
def Fmt.nanCode (f : Fmt) : Nat := if f.ieee then f.infCode + 2 ^ (f.fb - 1) else f.signBit - 1

/-- The layout has a NaN. -/
def Fmt.hasNan (f : Fmt) : Bool := f.ieee || f.nan7F

/-- The smallest normal exponent. -/
def Fmt.emin (f : Fmt) : Int := 1 - (f.bias : Int)

/-- The exact value of a floating code (04 R76). -/
def Fmt.value (f : Fmt) (x : Nat) : Val :=
  let neg := fieldN x (f.eb + f.fb) 1 == 1
  let E := fieldN x f.fb f.eb
  let F := fieldN x 0 f.fb
  if f.ieee && E == 2 ^ f.eb - 1 then (if F = 0 then .inf neg else .nan (decide (F < 2 ^ (f.fb - 1))))
  else if f.nan7F && E == 2 ^ f.eb - 1 && F == 2 ^ f.fb - 1 then .nan false
  else if E = 0 then .fin neg F (f.emin - (f.fb : Int))
  else .fin neg (2 ^ f.fb + F) ((E : Int) - (f.bias : Int) - (f.fb : Int))

/-- A magnitude code with a sign. -/
def Fmt.signed (f : Fmt) (neg : Bool) (x : Nat) : Nat := if neg then f.signBit + x else x

/-! ### Rounding (04 R85, R86) -/

/-- The integer part and the rounding decision of m * 2^(-k): rounding modes 0 rne, 1 rz, 2 ru, 3 rd, 4 rs with the
random word `x`. Answers the rounded integer and whether it is inexact. -/
def roundShift (rm x : Nat) (neg : Bool) (m : Nat) (k : Int) : Nat × Bool :=
  if k ≤ 0 then (m * 2 ^ (-k).toNat, false)
  else
    let d := 2 ^ k.toNat
    let n := m / d
    let r := m % d
    let up : Bool :=
      if r = 0 then false
      else match rm with
        | 0 => decide (d < 2 * r) || (2 * r == d && n % 2 == 1)
        | 2 => !neg
        | 3 => neg
        | 4 => decide (x < r * 2 ^ 32 / d)
        | _ => false
    (if up then n + 1 else n, r != 0)

/-- The code of an overflow (04 R86). -/
def Fmt.overflow (f : Fmt) (e4n neg : Bool) (rm : Nat) : Nat :=
  if f.ieee then
    let toInf := match rm with
      | 1 => false
      | 2 => !neg
      | 3 => neg
      | _ => true
    f.signed neg (if toInf then f.infCode else f.maxCode)
  else if f.nan7F && e4n then f.nanCode
  else f.signed neg f.maxCode

/-- `round(v, t, rm)` with its flags (04 R85, R86, R89). -/
def Fmt.round (f : Fmt) (e4n : Bool) (rm x : Nat) (v : Val) : Nat × Fl :=
  match v with
  | .nan _ => if f.hasNan then (f.nanCode, 0) else (0, flNV)
  | .inf n => (if f.ieee then f.signed n f.infCode else f.overflow e4n n rm, 0)
  | .fin n m e =>
    if m = 0 then (f.signed n 0, 0)
    else
      let ex := max ((log2N m : Int) + e) f.emin
      let (q, inexact) := roundShift rm x n m (ex - (f.fb : Int) - e)
      let code := (ex - f.emin).toNat * 2 ^ f.fb + q
      if f.maxCode < code then (f.overflow e4n n rm, flOF ||| flNX)
      else (f.signed n code, if inexact then (if code < 2 ^ f.fb then flUF ||| flNX else flNX) else 0)

/-- f32. -/
def f32 : Fmt := fmtOf 0

/-- The exact value of an f32 code. -/
def f32Val (x : Nat) : Val := f32.value (x % 2 ^ 32)

/-- `round_rne(v, f32)` without its flags. -/
def rne32 (v : Val) : Nat := (f32.round false 0 0 v).1

/-! ### Integers and e8m0 (04 R79, R80, R87, R88) -/

/-- The width and signedness of an integer type code. -/
def intShape (t : Nat) : Nat × Bool :=
  (if t % 4 = 0 then 8 else if t % 4 = 1 then 16 else if t % 4 = 2 then 32 else 64, decide (t < 20))

/-- The exact value of an integer code. -/
def intValue (t x : Nat) : Int :=
  let (n, sg) := intShape t
  if sg then sextI n x else ((x % 2 ^ n : Nat) : Int)

/-- The least and greatest value of an integer type. -/
def intRange (t : Nat) : Int × Int :=
  let (n, sg) := intShape t
  if sg then (-((2 ^ (n - 1) : Nat) : Int), ((2 ^ (n - 1) : Nat) : Int) - 1) else (0, ((2 ^ n : Nat) : Int) - 1)

/-- An integer as a code of a type. -/
def intCode (t : Nat) (i : Int) : Nat := ofIntN (intShape t).1 i

/-- Convert to an integer type: round, then saturate (04 R87). -/
def toIntType (t rm : Nat) (v : Val) : Nat × Fl :=
  let (lo, hi) := intRange t
  match v with
  | .nan _ => (0, flNV)
  | .inf n => (intCode t (if n then lo else hi), flNV)
  | .fin n m e =>
    let (q, inexact) := roundShift rm 0 n m (-e)
    let i : Int := if n then -(q : Int) else (q : Int)
    if i < lo then (intCode t lo, flNV)
    else if hi < i then (intCode t hi, flNV)
    else (intCode t i, if inexact then flNX else 0)

/-- The value of an e8m0 code (04 R79). -/
def e8m0Value (x : Nat) : Val := if x % 256 = 255 then .nan false else .fin false 1 (((x % 256 : Nat) : Int) - 127)

/-- Convert to e8m0 (04 R88). -/
def toE8m0 (v : Val) : Nat :=
  match v with
  | .fin _ m e => if m = 0 then 0 else (max 0 (min 254 (127 + (log2N m : Int) + e))).toNat
  | _ => 255

/-! ### dt8 (04 R94 to R96) -/

/-- The value of an entry of the decode table. -/
def dtEntry (w : BitVec 32) : Val := (fmtOf 3).value (w.toNat % 2 ^ 19)

/-- Decode a dt8 code (04 R95). -/
def dt8Value (tab : List (BitVec 32)) (x : Nat) : Val := dtEntry (tab.getD x 0)

/-- A decode table is well formed (04 R94). -/
def dt8Ok (tab : List (BitVec 32)) : Bool :=
  let vs := tab.map dtEntry
  let nums := vs.filter (fun v => !v.isNan)
  tab.all (fun w => decide (w.toNat < 2 ^ 19)) && !nums.isEmpty &&
    (nums.zip (nums.drop 1)).all (fun p => p.1.cmp p.2 != .gt)

/-- The distance between two values; none where it is infinite. -/
def gap (a b : Val) : Option Val :=
  if a.isNonFin || b.isNonFin then none else some (a.add false b.neg).1.abs

/-- `a` is at most as far as `b`: lt nearer, eq equal, gt further. -/
def gapCmp (a b : Option Val) : Ordering :=
  match a, b with
  | some x, some y => x.cmp y
  | some _, none => .lt
  | none, some _ => .gt
  | none, none => .eq

/-- Encode a value into dt8 with its flags (04 R96). Entries of -0 and +0 are one value here (log 69). -/
def toDt8 (tab : List (BitVec 32)) (v : Val) : Nat × Fl :=
  let all := ((upTo 256).map (dt8Value tab)).zipIdx
  let nums := all.filter (fun p => !p.1.isNan)
  if v.isNan then
    match all.find? (fun p => p.1.isNan) with
    | some p => (p.2, 0)
    | none => (0, flNV)
  else
    let lowest (w : Val) : Nat := ((nums.find? (fun p => p.1.cmp w == .eq)).map (·.2)).getD 0
    let below := (nums.filter (fun p => p.1.cmp v != .gt)).getLast?
    let above := nums.find? (fun p => p.1.cmp v == .gt)
    match below, above with
    | none, none => (0, flNV)
    | none, some b => (lowest b.1, flOF ||| flNX)
    | some a, none => (lowest a.1, if a.1.cmp v == .eq then 0 else flOF ||| flNX)
    | some a, some b =>
      if a.1.cmp v == .eq then (lowest a.1, 0)
      else
        let i := lowest a.1
        let j := lowest b.1
        match gapCmp (gap a.1 v) (gap b.1 v) with
        | .lt => (i, flNX)
        | .gt => (j, flNX)
        | .eq => (if i % 2 = 0 then i else if j % 2 = 0 then j else i, flNX)

/-! ### Any element type -/

/-- What rounding an element needs beside its value: e4m3's overflow row and the dt8 table. -/
structure NumCtx where
  e4n : Bool
  dt8 : List (BitVec 32)
  deriving DecidableEq, Repr

/-- `value(x, t)` (02 R50). -/
def valueOf (dt8 : List (BitVec 32)) (t x : Nat) : Val :=
  if t ≤ 8 then (fmtOf t).value x
  else if t = 9 then dt8Value dt8 x
  else if t = 24 then e8m0Value x
  else Val.ofInt (intValue t x)

/-- `round(v, t, rm)` for every element type, with its flags (04 R85 to R88, R96). -/
def roundTo (c : NumCtx) (t rm x : Nat) (v : Val) : Nat × Fl :=
  if t ≤ 8 then (fmtOf t).round c.e4n rm x v
  else if t = 9 then toDt8 c.dt8 v
  else if t = 24 then (toE8m0 v, 0)
  else toIntType t rm v

/-! ### MX block scaling (04 R97 to R99) -/

/-- The greatest exponent that block quantization keeps, of an MX element type (04 R98). -/
def mxEmax (t : Nat) : Int := if t = 4 then 8 else if t = 5 then 15 else if t = 6 then 4 else 2

/-- The larger of two magnitudes that are finite. -/
def maxMag (a b : Val) : Val := if a.abs.cmp b.abs == .lt then b.abs else a.abs

/-- Quantize a block: its scale and its elements (04 R98). -/
def quantBlock (e4n : Bool) (t : Nat) (vs : List Val) : Nat × List Nat :=
  if vs.any Val.isNonFin then (255, vs.map (fun _ => 0))
  else match vs.foldl maxMag Val.zero with
    | .fin _ m e =>
      if m = 0 then (0, vs.map (fun _ => 0))
      else
        let X : Int := max (-127) (min 127 ((log2N m : Int) + e - mxEmax t))
        ((127 + X).toNat, vs.map (fun v => ((fmtOf t).round e4n 0 0 (v.scale (-X))).1))
    | _ => (255, vs.map (fun _ => 0))

/-- The value of an MX element under its scale (04 R97). -/
def mxValue (t x scale : Nat) : Val := if scale % 256 = 255 then .nan false else ((fmtOf t).value x).scale ((scale % 256 : Nat) - 127)

/-! ### kfpe and FPE (04 R89, R90) -/

/-- The flags that are enabled in a kfpe value. -/
def enabledOf (kfpe : Word) : Fl := BitVec.ofNat 5 (bitsW kfpe 12 8)

/-- kfpe.E4N. -/
def e4nOf (kfpe : Word) : Bool := bitW kfpe 16

/-- OR flags into a kfpe value. -/
def orFlags (kfpe : Word) (f : Fl) : Word := kfpe ||| f.setWidth 64

/-- The bits of kfpe that exist (04 R89). -/
def kfpeMask (v : Word) : Word := v &&& 0x11F1F

/-- Take the flags of a scalar instruction: FPE when one is enabled, else sticky (04 R90). -/
def raiseFlags (f : Fl) (s : State) : Except Stop State :=
  if f &&& enabledOf s.cur.kfpe ≠ 0 then trapS 8 (f.setWidth 64)
  else .ok (s.setCur { s.cur with kfpe := orFlags s.cur.kfpe f })

/-! ### Philox and the random word (04 R91, R92) -/

/-- One round of Philox-4x32-10 on (c0, c1, c2, c3) with keys k0, k1. -/
def philoxRound (k0 k1 : Nat) (c : Nat × Nat × Nat × Nat) : Nat × Nat × Nat × Nat :=
  let p := 0xD2511F53 * c.1
  let q := 0xCD9E8D57 * c.2.2.1
  ((q / 2 ^ 32 ^^^ c.2.1) ^^^ k0, q % 2 ^ 32, (p / 2 ^ 32 ^^^ c.2.2.2) ^^^ k1, p % 2 ^ 32)

/-- The remaining rounds of Philox, bumping the keys before all but the first (04 R91). -/
def philoxRounds : Nat → Nat → Nat → Nat × Nat × Nat × Nat → Nat × Nat × Nat × Nat
  | 0, _, _, c => c
  | n + 1, k0, k1, c =>
    philoxRounds n ((k0 + 0x9E3779B9) % 2 ^ 32) ((k1 + 0xBB67AE85) % 2 ^ 32) (philoxRound k0 k1 c)

/-- `philox(key, ctr)` (04 R91). -/
def philox (k0 k1 : Nat) (c : Nat × Nat × Nat × Nat) : Nat × Nat × Nat × Nat := philoxRounds 10 k0 k1 c

/-- The random word of element `i` under kseed and kscnt (04 R92). -/
def randomWord (kseed kscnt : Word) (i : Nat) : Nat :=
  (philox (bitsW kseed 31 0) (bitsW kseed 63 32) (i % 2 ^ 32, bitsW kscnt 31 0, bitsW kscnt 63 32, 0)).1

end Sys2Proof.Machine
end

