-- ==== Sys2Proof/Machine/Operands.lean ====
section
/-! DEFINITION. Operand forms: reading several sources, integer results, conditions, and the shapes shared by the
register, immediate, field and float words (03 R58, R62, R72, 08 R186 to R196). -/
namespace Sys2Proof.Machine

/-! ### Several sources -/

/-- Read a source of a word whose sources all see the state `s0` at its start: ptag shows the head as it stood there
(02 R40). -/
def readFrom (s0 : State) (f : Nat) (s : State) : Except Stop (Word × State) :=
  if f = 60 then do
    let (v, _) ← readReg f s0
    pure (v, s)
  else readReg f s

/-- Read two sources. -/
def readTwo (a b : BitVec 6) (s : State) : Except Stop (Word × Word × State) := do
  let (x, t) ← readReg a.toNat s
  let (y, t) ← readFrom s b.toNat t
  pure (x, y, t)

/-- Read three sources. -/
def readThree (a b c : BitVec 6) (s : State) : Except Stop (Word × Word × Word × State) := do
  let (x, t) ← readReg a.toNat s
  let (y, t) ← readFrom s b.toNat t
  let (z, t) ← readFrom s c.toNat t
  pure (x, y, z, t)

/-! ### Integer results (08 R186, R187) -/

/-- Bits 127:64 of the signed product. -/
def mulhS (x y : Word) : Word := BitVec.ofInt 64 (x.toInt * y.toInt / ((2 ^ 64 : Nat) : Int))

/-- Bits 127:64 of the unsigned product. -/
def mulhU (x y : Word) : Word := wd (x.toNat * y.toNat / 2 ^ 64)

/-- Signed division with R187's results. -/
def divS (x y : Word) : Word := if y = 0 then -1 else BitVec.ofInt 64 (x.toInt.tdiv y.toInt)

/-- Unsigned division with R187's results. -/
def divU (x y : Word) : Word := if y = 0 then -1 else wd (x.toNat / y.toNat)

/-- Signed remainder with R187's results. -/
def remS (x y : Word) : Word := if y = 0 then x else BitVec.ofInt 64 (x.toInt.tmod y.toInt)

/-- Unsigned remainder with R187's results. -/
def remU (x y : Word) : Word := if y = 0 then x else wd (x.toNat % y.toNat)

/-- The shift amount y[5:0]. -/
def shAmt (y : Word) : Nat := y.toNat % 64

/-- SHL. -/
def shlW (x y : Word) : Word := x <<< shAmt y
/-- SHR. -/
def shrW (x y : Word) : Word := x >>> shAmt y
/-- SRA. -/
def sraW (x y : Word) : Word := x.sshiftRight (shAmt y)
/-- ROT: to the right. -/
def rotW (x y : Word) : Word := x.rotateRight (shAmt y)
/-- MIN, signed. -/
def minS (x y : Word) : Word := if x.slt y then x else y
/-- MAX, signed. -/
def maxS (x y : Word) : Word := if x.slt y then y else x
/-- MINN, unsigned. -/
def minU (x y : Word) : Word := if x.ult y then x else y
/-- MAXN, unsigned. -/
def maxU (x y : Word) : Word := if x.ult y then y else x
/-- ANDN. -/
def andnW (x y : Word) : Word := x &&& ~~~y

/-- Leading zero bits of an `n`-bit number. -/
def clzN (n x : Nat) : Nat := if x = 0 then n else n - 1 - log2N x

/-- CLZ. -/
def clzW (x : Word) : Word := wd (clzN 64 x.toNat)

/-- Trailing zero bits, looking at no more than the given number of bits. -/
def ctzN : Nat → Nat → Nat
  | 0, _ => 0
  | n + 1, x => if x % 2 = 1 then 0 else 1 + ctzN n (x / 2)

/-- CTZ. -/
def ctzW (x : Word) : Word := wd (ctzN 64 x.toNat)

/-- One bits, of the lowest `n`. -/
def popN : Nat → Nat → Nat
  | 0, _ => 0
  | n + 1, x => x % 2 + popN n (x / 2)

/-- POPC. -/
def popcW (x : Word) : Word := wd (popN 64 x.toNat)

/-- BSWAP. -/
def bswapW (x : Word) : Word := wd (ofBytes (leBytes 8 x.toNat).reverse)

/-- A truth value as a register result. -/
def boolW (b : Bool) : Word := if b then 1 else 0

/-- The comparison conditions of CMP (03 R72). -/
def cmpCond (c : Nat) (x y : Word) : Bool :=
  match c with
  | 0 => x == y
  | 1 => x != y
  | 2 => x.slt y
  | 3 => y.sle x
  | 4 => x.sle y
  | 5 => y.slt x
  | 6 => x.ult y
  | 7 => y.ule x
  | 8 => x.ule y
  | _ => y.ult x

/-- The branch conditions of BR (03 R67). -/
def brCond (c : Nat) (x : Word) : Bool :=
  match c with
  | 0 => x == 0
  | 1 => x != 0
  | 2 => x.slt 0
  | 3 => (0 : Word).sle x
  | 4 => (0 : Word).slt x
  | _ => x.sle 0

/-! ### Word shapes -/

/-- A sign-extended immediate. -/
def immS {n : Nat} (i : BitVec n) : Word := i.signExtend 64

/-- A zero-extended immediate. -/
def immU {n : Nat} (i : BitVec n) : Word := i.setWidth 64

/-- A signed displacement. -/
def disp {n : Nat} (i : BitVec n) : Int := i.toInt

/-- A register form: g(d) = f(g(a), g(b)), with the E option (08 R186, R192). -/
def aluRR (f : Word → Word → Word) (d a b : BitVec 6) (e : BitVec 1) (s : State) : Except Stop State := do
  let (x, y, s) ← readTwo a b s
  writeRegE d.toNat (f x y) (e == 1) s

/-- A unary register form: g(d) = f(g(a)). -/
def aluR (f : Word → Word) (d a : BitVec 6) (e : BitVec 1) (s : State) : Except Stop State := do
  let (x, s) ← readReg a.toNat s
  writeRegE d.toNat (f x) (e == 1) s

/-- An immediate form: g(d) = f(g(a), y). -/
def aluRI (f : Word → Word → Word) (d a : BitVec 6) (y : Word) (s : State) : Except Stop State := do
  let (x, s) ← readReg a.toNat s
  writeReg d.toNat (f x y) s

/-! ### Scalar floats (08 R193 to R196) -/

/-- A result with its flags: what the write of the result raises comes before FPE (04 R90, 07 R179). -/
def withFlags (d : BitVec 6) (v : Word) (f : Fl) (s : State) : Except Stop State := do
  let s ← writeReg d.toNat v s
  raiseFlags f s

/-- A float result with its flags. -/
def floatOut (d : BitVec 6) (r : Nat × Fl) (s : State) : Except Stop State := withFlags d (wd r.1) r.2 s

/-- A float operand of a register: bits 31:0 as f32. -/
def fOp (x : Word) : Val := f32Val x.toNat

/-- Round an exact result to f32 with the flags of the operation and of its rounding. -/
def fRound (rm : Nat) (r : Val × Fl) : Nat × Fl :=
  let (y, f) := f32.round false rm 0 r.1
  (y, f ||| r.2)

/-- A float form of two operands. -/
def floatRR (f : Val → Val → Val × Fl) (rm : Nat) (d a b : BitVec 6) (s : State) : Except Stop State := do
  let (x, y, s) ← readTwo a b s
  floatOut d (fRound rm (f (fOp x) (fOp y))) s

/-- The conditions of FCMP and of VCMP on floats, with their flags (03 R72, 08 R195). -/
def fcmpCond (c : Nat) (x y : Val) : Bool × Fl :=
  let un := x.isNan || y.isNan
  let o := x.cmp y
  let r := match c with
    | 0 => !un && o == .eq
    | 1 => un || o != .eq
    | 2 => !un && o == .lt
    | 3 => !un && o != .gt
    | 4 => !un && o == .gt
    | 5 => !un && o != .lt
    | 6 => un
    | _ => !un
  (r, if un && decide (2 ≤ c) && decide (c ≤ 5) then flNV else x.sigFl ||| y.sigFl)

/-- The element-type code of an FCVT type field (03 R73). -/
def fcvtType (t : Nat) : Nat :=
  match t with
  | 0 => 0 | 1 => 1 | 2 => 2 | 3 => 3 | 4 => 18 | 5 => 22 | 6 => 19 | _ => 23

/-- FCVT's result as it stands in the register (08 R196). -/
def fcvtOut (t x : Nat) : Word := if t = 18 then sextW 32 x else wd x

end Sys2Proof.Machine
end

