-- ==== Sys2Proof/Machine/Barrier.lean ====
section
/-! DEFINITION. The hardware barriers (08 R212 to R215). -/
namespace Sys2Proof.Machine

/-- A phase count has reached a target (R213). -/
def reached32 (p t : BitVec 32) : Bool := decide ((p - t).toNat < 2 ^ 31)

/-- Barrier register `n` of a core. -/
def Core.hbAt (k : Core) (n : Nat) : Option HBar := sget none k.hb n

/-- Replace a barrier register. -/
def Core.setHb (k : Core) (n : Nat) (v : Option HBar) : Core := { k with hb := sset k.hb n v }

/-- The cores of a mask in a square, by package index. -/
def maskCores (q : Nat) (m : BitVec 8) : List Nat := (upTo 8).filterMap (fun c => if m.getLsbD c then some (q * 8 + c) else none)

/-- The phase that core `c`'s register `n` stands in is complete: every core of its mask holds the same mask and phase
and all its arrivals (R212). -/
def phaseFull (c n : Nat) (s : State) : Bool :=
  match (s.coreAt c).hbAt n with
  | none => false
  | some h => (maskCores (squareOf c) h.mask).all (fun c' =>
      match (s.coreAt c').hbAt n with
      | none => false
      | some h' => h'.mask == h.mask && h'.phase == h.phase && decide (h'.need ≤ h'.arrived))

/-- A register after its phase completes: the arrivals kept for the next phase count in it (R212, R213). -/
def HBar.advance (h : HBar) : HBar := { h with phase := h.phase + 1, arrived := h.next, next := 0 }

/-- Complete the phases that are full, at most `f` of them (R212). -/
def completePhases : Nat → Nat → Nat → State → State
  | 0, _, _, s => s
  | f + 1, c, n, s =>
    match (s.coreAt c).hbAt n with
    | some h =>
      if phaseFull c n s then
        completePhases f c n ((maskCores (squareOf c) h.mask).foldl (fun s c' =>
          s.setCore c' ((s.coreAt c').setHb n (((s.coreAt c').hbAt n).map HBar.advance))) s)
      else s
    | none => s

/-- One arrival of context `x` at a register: to this phase, or to the next once all are in (R213, R214). -/
def HBar.arrive (h : HBar) (x : Nat) : HBar × BitVec 32 :=
  if h.arrived < h.need then ({ h with arrived := h.arrived + 1, pend := sset h.pend x h.phase }, h.phase)
  else ({ h with next := h.next + 1, pend := sset h.pend x (h.phase + 1) }, h.phase + 1)

/-- The pending phase of a context (R214). -/
def HBar.pending (h : HBar) (x : Nat) : Option (BitVec 32) := (h.pend.find? (fun p => p.1 == x)).map (·.2)

/-- HBINIT (R213, R215). -/
def execHbinit (a b : BitVec 6) (s : State) : Host.Outcome State Fault Refusal :=
  guarded (.hbinit a b) s (fun s0 => do
    let (x, s) ← readReg a.toNat s0
    let m := BitVec.ofNat 8 (bitsW x 7 0)
    let e := bitsW x 12 8
    let busy := match s.core.hbAt b.toNat with
      | some h => h.arrived != 0
      | none => false
    if !m.getLsbD s.lane || e == 0 || decide (s.core.nctx < e) || busy then ill s0
    else
      let s := s.setCoreCur (s.core.setHb b.toNat (some ⟨m, e, 0, 0, 0, [], s.kdom⟩))
      pure (completePhases 1 s.focus.core b.toNat s))

/-- HBARR returns once the phase it arrived in has completed: the pending bit goes and g(d) takes the
phase count as it then stands (R213, R214). -/
def hbReturn (d : BitVec 6) (n : Nat) (s : State) : Except Stop State :=
  match s.core.hbAt n with
  | none => ill s
  | some h => writeReg d.toNat (wd h.phase.toNat) (s.setCoreCur (s.core.setHb n (some { h with pend := sdel h.pend s.focus.ctx })))

/-- HBARR (R213, R214): a first arrival that must wait stands, with the bundle to be reissued. -/
def execHbarr (d b : BitVec 6) (s : State) : Host.Outcome State Fault Refusal :=
  let n := b.toNat
  match if legal s (.hbarr d b) then s.core.hbAt n else none with
  | none => finish s (ill s)
  | some h =>
    match h.pending s.focus.ctx with
    | some p => finish s (if reached32 h.phase (p + 1) then hbReturn d n s else .error (.wait (.barrier n (p + 1))))
    | none =>
      match release s with
      | .error st => finish s (.error st)
      | .ok t =>
        let (h', p) := h.arrive s.focus.ctx
        let t := completePhases 32 s.focus.core n (t.setCoreCur (t.core.setHb n (some h')))
        let now := match t.core.hbAt n with
          | some g => reached32 g.phase (p + 1)
          | none => false
        if now then finish s (hbReturn d n t)
        else .next { backOut t (.waiting (.barrier n (p + 1))) with last := .held }

/-- HBWAIT (R213, R215). A target that is read from an empty port waits for its unit before the barrier's ILL is raised (log 78). -/
def execHbwait (a b : BitVec 6) (s : State) : Host.Outcome State Fault Refusal :=
  guarded (.hbwait a b) s (fun s0 => do
    let (x, s) ← readReg a.toNat s0
    let t := BitVec.ofNat 32 x.toNat
    match s.core.hbAt b.toNat with
    | none => ill s0
    | some h => if reached32 h.phase t then pure s else .error (.wait (.barrier b.toNat t)))

/-- HBTEST (R213, R215), with the same order as HBWAIT (log 78). -/
def execHbtest (d a b : BitVec 6) (s : State) : Host.Outcome State Fault Refusal :=
  guarded (.hbtest d a b) s (fun s0 => do
    let (x, s) ← readReg a.toNat s0
    match s.core.hbAt b.toNat with
    | none => ill s0
    | some h => writeReg d.toNat (boolW (reached32 h.phase (BitVec.ofNat 32 x.toNat))) s)

end Sys2Proof.Machine
end

