-- ==== Sys2Proof/Machine/TileTable.lean ====
section
/-! DEFINITION. Setting entries of a square's tile table ready (01 R20, 17 R408, R409). -/
namespace Sys2Proof.Machine

/-- A saturating count of `n` bits, one more. -/
def satInc {n : Nat} (x : BitVec n) : BitVec n := if x = BitVec.allOnes n then x else x + 1

/-- A set of an entry (R408): 0 idle, 1 ready, 2 firing, 3 firing and pending. -/
def TEntry.set (t : TEntry) : TEntry :=
  match t.st with
  | 0 => { t with st := 1 }
  | 2 => { t with st := 3 }
  | 3 => { t with merged := satInc t.merged }
  | _ => t

/-- Replace entry `n` of a square's tile table. -/
def Square.setTent (k : Square) (n : Nat) (v : TEntry) : Square := { k with tents := sset k.tents n v }

/-- A hardware set of entry `n` of square `q` for a command of core `lane` under domain `dom` (R409). -/
def State.tableSet (s : State) (q n dom lane : Nat) : State :=
  let k := s.sqAt q
  let t := k.tent n
  if t.valid && (k.cm t.cm).dom == dom then s.setSq q (k.setTent n t.set)
  else s.setSq q { k with crdyx := sset k.crdyx lane (satInc (sget 0 k.crdyx lane)) }

end Sys2Proof.Machine
end

