-- ==== Sys2Proof/Machine/Special.lean ====
section
/-! DEFINITION. The special functions of the vector sequencer and the matrix engine (04 R102 to R106). -/
namespace Sys2Proof.Machine

/-- The eight functions. -/
inductive SpFn where
  | rcp | rsq | sqrt | exp | exp2 | log | log2 | tanh
  deriving DecidableEq, Repr

/-! ### Fixed-point helpers -/

/-- Bits of the integer square root from bit `b` - 1 down. -/
def isqrtFrom (n : Nat) : Nat → Nat → Nat
  | 0, r => r
  | b + 1, r => let c := r + 2 ^ b; if c * c ≤ n then isqrtFrom n b c else isqrtFrom n b r

/-- The integer part of the square root. -/
def isqrt (n : Nat) : Nat := isqrtFrom n (log2N n / 2 + 1) 0

/-- The fraction bits that the functions work with: far beyond the nearest any f32 argument's result comes to a rounding
boundary (log 7). -/
def fixP : Nat := 256

/-- A positive inexact result from its fixed-point approximation: its last place stands for the part left out. -/
def inexactVal (neg : Bool) (n : Nat) (e : Int) : Val := .fin neg (2 * n + 1) (e - 1)

/-- Sum of `t` and the Taylor terms after term `k` of exp(X / 2^fixP). -/
def expTail (X : Nat) : Nat → Nat → Nat → Nat
  | 0, _, t => t
  | n + 1, k, t =>
    if t = 0 then 0 else t + expTail X n (k + 1) (t * X / (2 ^ fixP * (k + 1)))

/-- exp(X / 2^fixP) * 2^fixP for X ≥ 0. -/
def expFix (X : Nat) : Nat := expTail X 700 0 (2 ^ fixP)

/-- Sum of z^(2k+1)/(2k+1) from term `k`. -/
def atanhTail (z2 : Nat) : Nat → Nat → Nat → Nat
  | 0, _, _ => 0
  | n + 1, k, t => t / (2 * k + 1) + atanhTail z2 n (k + 1) (t * z2 / 2 ^ fixP)

/-- ln(S / 2^L) * 2^fixP for 1 ≤ S / 2^L ≤ 2. -/
def lnFix (S L : Nat) : Nat :=
  let z := (S - 2 ^ L) * 2 ^ fixP / (S + 2 ^ L)
  2 * atanhTail (z * z / 2 ^ fixP) 100 0 z

/-- ln 2 * 2^fixP. -/
def ln2Fix : Nat := lnFix 2 0

/-! ### Exact and correctly rounded functions -/

/-- 1 / (m * 2^e), the last place standing for a remainder. -/
def recipVal (neg : Bool) (m : Nat) (e : Int) : Val :=
  let k := log2N m + 64
  let q := 2 ^ k / m
  if 2 ^ k % m = 0 then .fin neg q (-e - k) else inexactVal neg q (-e - k)

/-- The square root of m * 2^e. -/
def sqrtVal (m : Nat) (e : Int) : Val :=
  let k : Nat := if e % 2 = 0 then 120 else 121
  let M := m * 2 ^ k
  let r := isqrt M
  let h := (e - (k : Int)) / 2
  if r * r = M then .fin false r h else inexactVal false r h

/-- 2^x for x = ±m * 2^e, m > 0. -/
def exp2Val (neg : Bool) (m : Nat) (e : Int) : Val :=
  if 9 ≤ (log2N m : Int) + e then .fin false 1 (if neg then -400 else 400)
  else
    let k := (-e).toNat
    let x : Int := signedAt neg m e (-(k : Int))
    let n := x / ((2 ^ k : Nat) : Int)
    let F := (x % ((2 ^ k : Nat) : Int)).toNat
    if F = 0 then .fin false 1 n else inexactVal false (expFix (F * ln2Fix / 2 ^ k)) (n - (fixP : Int))

/-- e^x for x = ±m * 2^e, m > 0. -/
def expVal (neg : Bool) (m : Nat) (e : Int) : Val :=
  if 7 ≤ (log2N m : Int) + e then .fin false 1 (if neg then -400 else 400)
  else
    let X := if 0 ≤ e + (fixP : Int) then m * 2 ^ (e + (fixP : Int)).toNat else 0
    let y := expFix X
    if neg then inexactVal false (2 ^ (2 * fixP) / y) (-(fixP : Int)) else inexactVal false y (-(fixP : Int))

/-- ln(m * 2^e) in units of 2^-fixP. -/
def lnInt (m : Nat) (e : Int) : Int :=
  ((log2N m : Int) + e) * (ln2Fix : Int) + (lnFix m (log2N m) : Int)

/-- log2 of m * 2^e, m > 0. -/
def log2Val (m : Nat) (e : Int) : Val :=
  if m = 2 ^ log2N m then Val.ofInt ((log2N m : Int) + e)
  else
    let y := lnInt m e * ((2 ^ fixP : Nat) : Int) / (ln2Fix : Int)
    inexactVal (decide (y < 0)) y.natAbs (-(fixP : Int))

/-- ln of m * 2^e, m > 0, not 1. -/
def lnVal (m : Nat) (e : Int) : Val :=
  let y := lnInt m e
  inexactVal (decide (y < 0)) y.natAbs (-(fixP : Int))

/-- tanh of m * 2^e, m > 0, below 9. -/
def tanhVal (m : Nat) (e : Int) : Val :=
  let X := if 0 ≤ e + 1 + (fixP : Int) then m * 2 ^ (e + 1 + (fixP : Int)).toNat else 0
  let y := expFix X
  inexactVal false ((y - 2 ^ fixP) * 2 ^ fixP / (y + 2 ^ fixP)) (-(fixP : Int))

/-! ### VRSQ (04 R106) -/

/-- Table entry `j` as a multiple of 2^-13: the root of 2^26 / c to nearest, ties to even. -/
def rsqTable (j : Nat) : Nat :=
  let C := 513 + 2 * (j % 256)
  let A := 2 ^ 26 * (if j < 256 then 512 else 256)
  let r := isqrt (4 * A / C)
  let n := r / 2
  if r % 2 = 0 then n
  else if r * r * C = 4 * A then (if n % 2 = 0 then n else n + 1)
  else n + 1

/-- VRSQ of m * 2^e with m > 0 of at most 24 bits: the value, and the flags of the one rounding of step 6. -/
def rsqVal (m : Nat) (e : Int) : Val × Fl :=
  let L := log2N m
  let p := (L : Int) + e
  let h := p / 2
  let odd := p % 2 = 1
  let S := m * 2 ^ (23 - L)
  if S = 2 ^ 23 ∧ ¬odd then (.fin false 1 (-h), 0)
  else
    let F := S - 2 ^ 23
    let j := F / 2 ^ 15 + (if odd then 256 else 0)
    let t : Int := ((F % 2 ^ 15 : Nat) : Int) - 2 ^ 14
    let up : Bool := if j % 256 = 255 then false else if j % 256 = 0 then true else decide (0 ≤ t)
    let n := if up then j + 1 else j - 1
    let tau : Int := if up then t else -t
    let y : Int := (rsqTable j : Int) * 2 ^ 15 + ((rsqTable n : Int) - (rsqTable j : Int)) * tau
    let (r, g) := f32.round false 0 0 (.fin false y.natAbs (-28))
    ((f32Val r).scale (-h), g)

/-! ### Bounded functions (04 R104) -/

/-- An ordered key of an f32 code: larger for larger values. -/
def key32 (x : Nat) : Int := if x / 2 ^ 31 % 2 = 1 then -((x % 2 ^ 31 : Nat) : Int) else ((x % 2 ^ 31 : Nat) : Int)

/-- A magnitude as an f32 code under rounding `rm`, infinity standing for everything from 2^128 on. -/
def magCode (rm : Nat) (v : Val) : Nat :=
  match v with
  | .fin false m e =>
    if m = 0 then 0
    else
      let ex := max ((log2N m : Int) + e) f32.emin
      min ((ex - f32.emin).toNat * 2 ^ 23 + (roundShift rm 0 false m (ex - 23 - e)).1) f32.infCode
  | _ => 0

/-- The least and greatest f32 codes within `k` ulp of a positive value. -/
def bracket (k : Nat) (v : Val) : Nat × Nat :=
  match v with
  | .fin _ m e =>
    let u : Val := .fin false k (max ((log2N m : Int) + e) f32.emin - 23)
    (magCode 2 (v.add false u.neg).1, magCode 1 (v.add false u).1)
  | _ => (0, 0)

/-- The greatest of the keys up to `hi`, `n` of them, that the input reaches, else `lo`. -/
def reach (cut : Int → Int) (x lo hi : Int) : Nat → Int
  | 0 => lo
  | n + 1 => if hi ≤ lo then lo else if cut hi ≤ x then hi else reach cut x lo (hi - 1) n

/-- The implementation's result between two keys for an input key. -/
def chosen (cut : Int → Int) (x lo hi : Int) : Int := reach cut x lo hi 16

/-- An f32 code from a key. -/
def unkey (k : Int) : Nat := if k < 0 then 2 ^ 31 + k.natAbs else k.natAbs

/-- The flags of an inexact f32 result by its code. -/
def inexactFl (x : Nat) : Fl :=
  let a := x % 2 ^ 31
  if a = f32.infCode then flOF ||| flNX else if a < 2 ^ 23 then flUF ||| flNX else flNX

/-- VEXP of a nonzero number with code `x` (04 R104). -/
def vexpCode (x : Nat) (neg : Bool) (m : Nat) (e : Int) : Nat :=
  let (lo, hi) := bracket 1 (expVal neg m e)
  let one : Int := 0x3F800000
  let lo : Int := if neg then (lo : Int) else max lo one
  let hi : Int := if neg then min hi one else hi
  unkey (chosen Config.expCut (key32 x) lo hi)

/-- VLOG of a positive number other than 1. -/
def vlogCode (x : Nat) (m : Nat) (e : Int) : Nat :=
  let v := lnVal m e
  let (lo, hi) := bracket 1 v.abs
  if v.isNeg then unkey (chosen Config.logCut (key32 x) (-(hi : Int)) (-(lo : Int)))
  else unkey (chosen Config.logCut (key32 x) lo hi)

/-- VTANH of a positive number. -/
def vtanhCode (x : Nat) (m : Nat) (e : Int) : Nat :=
  if (Val.fin false m e).cmp (.fin false 9 0) != .lt then 0x3F800000
  else
    let (lo, hi) := bracket 2 (tanhVal m e)
    unkey (chosen Config.tanhCut (key32 x) lo (min (hi : Int) 0x3F800000))

/-! ### The functions on f32 -/

/-- The default NaN of f32. -/
def nan32 : Nat := 0x7FC00000

/-- Infinity, zero and one with a sign, as f32 codes. -/
def inf32 (neg : Bool) : Nat := f32.signed neg f32.infCode
/-- Zero with a sign. -/
def zero32 (neg : Bool) : Nat := f32.signed neg 0
/-- One with a sign. -/
def one32 (neg : Bool) : Nat := f32.signed neg 0x3F800000

/-- A special function of an f32 code with its flags (04 R102 to R106). -/
def special32 (fn : SpFn) (x : Nat) : Nat × Fl :=
  match f32Val x with
  | .nan s => (nan32, if s then flNV else 0)
  | .inf n => match fn with
    | .rcp => (zero32 n, 0)
    | .rsq => if n then (nan32, flNV) else (zero32 false, 0)
    | .sqrt | .log | .log2 => if n then (nan32, flNV) else (inf32 false, 0)
    | .exp | .exp2 => (if n then zero32 false else inf32 false, 0)
    | .tanh => (one32 n, 0)
  | .fin n m e =>
    if m = 0 then match fn with
      | .rcp | .rsq => (inf32 n, flDZ)
      | .sqrt | .tanh => (zero32 n, 0)
      | .log | .log2 => (inf32 true, flDZ)
      | .exp | .exp2 => (one32 false, 0)
    else match fn with
      | .rcp => f32.round false 0 0 (recipVal n m e)
      | .rsq => if n then (nan32, flNV) else let (v, g) := rsqVal m e; (rne32 v, g)
      | .sqrt => if n then (nan32, flNV) else f32.round false 0 0 (sqrtVal m e)
      | .exp2 => f32.round false 0 0 (exp2Val n m e)
      | .log2 => if n then (nan32, flNV) else f32.round false 0 0 (log2Val m e)
      | .exp => let r := vexpCode x n m e; (r, inexactFl r)
      | .log => if n then (nan32, flNV)
        else if x % 2 ^ 32 = 0x3F800000 then (0, 0)
        else let r := vlogCode x m e; (r, inexactFl r)
      | .tanh =>
        let r := vtanhCode (x % 2 ^ 31) m e
        (f32.signed n r, if (Val.fin false m e).cmp (.fin false 9 0) != .lt then 0 else inexactFl r)

/-- A special function of a code of f32, bf16 or f16 (04 R102). -/
def special (fn : SpFn) (t x : Nat) : Nat × Fl :=
  if t = 0 then special32 fn x
  else
    let v := (fmtOf t).value x
    let (y, f) := special32 fn (rne32 v)
    let (r, g) := (fmtOf t).round false 0 0 (f32Val y)
    (r, v.sigFl ||| f ||| g)

end Sys2Proof.Machine
end

