-- ==== Sys2Proof/Machine/RegionUnit.lean ====
section
/-! DEFINITION. The region unit: descriptors, results and overflow, and the meanings of the region words (09 R245 to
R259). -/
namespace Sys2Proof.Machine

/-! ### Operands -/

/-- Region register `n` of the executing context. -/
def State.qreg (s : State) (n : Nat) : Region := sget Region.null s.cur.q n

/-- Write a region register. -/
def State.setQ (s : State) (n : Nat) (v : Region) : State := s.setCur { s.cur with q := sset s.cur.q n v }

/-- The null region (09 R236). -/
def Region.isNull (q : Region) : Bool := q.rank == 0

/-- Check what was read of a region's descriptor: its rank must be the region's (R249). -/
def checkDesc (q : Region) (b : Option (List Byte)) (s : State) : Except Stop Desc := do
  let d ← descParse s q.handle b
  if d.rank ≠ q.rank then fmtTrap (descAddr s s.kdom q.handle).1 else pure d

/-- Read and check the descriptor of one region that is not null (R249). -/
def operandDesc (q : Region) (s : State) : Run (Desc × State) := do
  let (b, s) ← descFetch q.handle s
  let d ← checkDesc q b s
  pure (d, s)

/-- The descriptor of two operands; none when both are null. The PROT of either comes before the FMT of either; two
handles raise FMT (R248, R249). -/
def operandsDesc (qa qb : Region) (s : State) : Run (Option Desc × State) :=
  if qa.isNull then
    if qb.isNull then pure (none, s)
    else do let (d, s) ← operandDesc qb s; pure (some d, s)
  else if qb.isNull || qb.handle == qa.handle then do
    let (d, s) ← operandDesc qa s
    if !qb.isNull && d.rank != qb.rank then fmtTrap (descAddr s s.kdom qb.handle).1 else pure (some d, s)
  else do
    let (ba, s) ← descFetch qa.handle s
    let (bb, s) ← descFetch qb.handle s
    let da ← descParse s qa.handle ba
    let db ← descParse s qb.handle bb
    if da.rank ≠ qa.rank then fmtTrap (descAddr s s.kdom qa.handle).1
    else if db.rank ≠ qb.rank then fmtTrap (descAddr s s.kdom qb.handle).1
    else fmtTrap (qa.handle + qb.handle * 2 ^ 24)

/-- An operand that makes a result inexact: IX, or a ragged hull (R240, R242). -/
def Region.loose (q : Region) : Bool := q.ix || q.rg

/-! ### Results -/

/-- The descriptor's dimensions below its rank. -/
def Desc.bounds (d : Desc) : List Nat := d.dims.take d.rank

/-- Write a canonical list of boxes as a result under R241: `dest` is the destination named by REGOVF. -/
def finishBoxes (dest handle rank : Nat) (ix cover : Bool) (bs : List Box) : Except Stop Region :=
  if bs.length ≤ 8 then .ok ⟨handle, rank, bs, ix, false, cover, 0⟩
  else if cover then .ok ⟨handle, rank, coverMerge bs.length bs, true, false, cover, 0⟩
  else trapS 4 (wd (dest % 8 + min bs.length 255 * 2 ^ 8))

/-- Finish the union of boxes over a tensor (R240, R241). -/
def finishUnion (dest handle : Nat) (ix cover : Bool) (d : Desc) (bs : List Box) : Except Stop Region :=
  finishBoxes dest handle d.rank ix cover (canon d.rank (clipBoxes d.bounds bs))

/-- Finish `op` of two sets of boxes over a tensor. -/
def finishOp (op : Bool → Bool → Bool) (dest handle : Nat) (ix cover : Bool) (d : Desc) (a b : List Box) :
    Except Stop Region :=
  finishBoxes dest handle d.rank ix cover (decomp op d.rank (clipBoxes d.bounds a) (clipBoxes d.bounds b))

/-! ### RBOX, RLD, RST -/

/-- RBOX (R250). -/
def execRbox (d a b : BitVec 6) (s : State) : Host.Outcome State Fault Refusal :=
  guardedRun (.rbox d a b) s (fun s0 => do
    let (ctl, s) ← readReg a.toNat s0
    let h := bitsW ctl 23 0
    let cover := bitW ctl 24
    if bitW ctl 25 then
      let (db, s) ← descFetch h s
      let de ← descParse s h db
      let q ← finishUnion d.toNat h false cover de [de.bounds.map (fun (n : Nat) => Dim.mk 0 (n : Int) 1)]
      pure (s.setQ d.toNat q)
    else
      let (addr, s) ← readFrom s0 b.toNat s
      if addr.toNat % 8 ≠ 0 then misaligned addr.toNat
      else
        let (db, s) ← descFetch h s
        let (rec_, s) ← loadSpan addr.toNat 32 s
        let de ← descParse s h db
        let (box, last) := parseBox rec_ 0
        let box := box.take de.rank
        if last ≠ 0 || box.any (fun x => x.step == 0) then fmtTrap addr.toNat
        else
          let q ← finishUnion d.toNat h false cover de [box]
          pure (s.setQ d.toNat q))

/-- Check an image against its descriptor and give the region: R249's checks, kinfo holding the image's address. -/
def imageRegion (addr : Nat) (b : List Byte) (s : State) : Run (Region × State) :=
  if b.all (· == 0) then pure (Region.null, s)
  else do
    let h := fieldN (leAt b 0 8) 0 24
    let (db, s) ← descFetch h s
    match parseRegion b with
    | none => fmtTrap addr
    | some q =>
      let d ← descParse s h db
      if d.rank ≠ q.rank then fmtTrap addr else pure (q, s)

/-- RLD (R251). -/
def execRld (d a : BitVec 6) (s : State) : Host.Outcome State Fault Refusal :=
  guardedRun (.rld d a) s (fun s => do
    let (addr, s) ← readReg a.toNat s
    if addr.toNat % 8 ≠ 0 then misaligned addr.toNat
    else
      let (b, s) ← loadSpan addr.toNat 288 s
      let (q, s) ← imageRegion addr.toNat b s
      pure (s.setQ d.toNat q))

/-- RST (R251), which reads the descriptor of q(d)'s handle as every region word does (R233, R249). -/
def execRst (d a : BitVec 6) (s : State) : Host.Outcome State Fault Refusal :=
  guardedRun (.rst d a) s (fun s => do
    let (addr, s) ← readReg a.toNat s
    let q := s.qreg d.toNat
    if addr.toNat % 8 ≠ 0 then misaligned addr.toNat
    else if q.isNull then storeSpan addr.toNat (regionBytes q) s
    else
      let (b, s) ← descFetch q.handle s
      let t ← storeSpan addr.toNat (regionBytes q) s
      let _ ← checkDesc q b s
      pure t)

/-! ### Set operations (R252) -/

/-- RUNI, RINT and RSUB: `op` decides which cells the result holds, `looseB` whether qb makes it inexact. -/
def setOp (op : Bool → Bool → Bool) (looseB : Bool) (d a b : BitVec 6) (s : State) : Run State := do
  let qa := s.qreg a.toNat
  let qb := s.qreg b.toNat
  let (de, s) ← operandsDesc qa qb s
  match de with
  | none => pure (s.setQ d.toNat Region.null)
  | some de =>
    let base := if qa.isNull then qb else qa
    let q ← finishOp op d.toNat base.handle (qa.loose || (looseB && qb.loose)) base.cover de qa.boxes qb.boxes
    pure (s.setQ d.toNat q)

/-- RUNI (R252). -/
def execRuni (d a b : BitVec 6) (s : State) : Host.Outcome State Fault Refusal :=
  guardedRun (.runi d a b) s (setOp (fun x y => x || y) true d a b)

/-- RINT (R252). -/
def execRint (d a b : BitVec 6) (s : State) : Host.Outcome State Fault Refusal :=
  guardedRun (.rint d a b) s (setOp (fun x y => x && y) true d a b)

/-- RSUB (R252, R242): a subtrahend that may hold too much raises REGOVF. -/
def execRsub (d a b : BitVec 6) (s : State) : Host.Outcome State Fault Refusal :=
  guardedRun (.rsub d a b) s (fun s => do
    let _ ← operandsDesc (s.qreg a.toNat) (s.qreg b.toNat) s
    if (s.qreg b.toNat).loose then trapS 4 (wd (d.toNat % 8 + 2 ^ 16))
    else setOp (fun x y => x && !y) false d a b s)

/-! ### RDIL, RPRJ, RSPL, RSTRD, RRAG, RSHF -/

/-- A form with one region operand: `f` gives the boxes of the result from those of qa. -/
def oneOp (f : Region → List Box) (cover : Region → Bool) (d a : BitVec 6) (s : State) : Run State :=
  let qa := s.qreg a.toNat
  if qa.isNull then pure (s.setQ d.toNat Region.null)
  else do
    let (de, s) ← operandDesc qa s
    let q ← finishUnion d.toNat qa.handle qa.loose (cover qa) de (f qa)
    pure (s.setQ d.toNat q)

/-- Byte `i` of a register. -/
def byteW (x : Word) (i : Nat) : Nat := bitsW x (8 * i + 7) (8 * i)

/-- A dimension moved by `e`. -/
def dimShift (e : Int) (d : Dim) : Dim := ⟨d.lo + e, d.hi + e, d.step⟩

/-- A dimension dilated by `l` below and `u` above, as pieces (R253). -/
def dimDilate (l u : Nat) (d : Dim) : List Dim :=
  if dimCount d ≤ 1 ∨ d.step ≤ l + u + 1 then [⟨d.lo - (l : Int), d.hi + (u : Int), 1⟩]
  else (upTo (l + u + 1)).map (fun (i : Nat) => dimShift ((i : Int) - (l : Int)) d)

/-- All choices of one piece for each dimension. -/
def choices : List (List Dim) → List Box
  | [] => [[]]
  | p :: r => ((choices r).map (fun b => p.map (fun d => d :: b))).flatten

/-- A box dilated (R253). -/
def boxDilate (amt : Word) (b : Box) : List Box :=
  choices (b.zipIdx.map (fun p => dimDilate (byteW amt p.2) (byteW amt (4 + p.2)) p.1))

/-- RDIL (R253). -/
def execRdil (d a b : BitVec 6) (s : State) : Host.Outcome State Fault Refusal :=
  guardedRun (.rdil d a b) s (fun s => do
    let (amt, s) ← readReg b.toNat s
    oneOp (fun q => (q.boxes.map (boxDilate amt)).flatten) (·.cover) d a s)

/-- A map record of RPRJ (R254): target handle, the four source dimensions, scales, offsets, reserved bits zero. -/
def parseMap (b : List Byte) : Nat × List Nat × List Nat × List Int × Bool :=
  let w := leAt b 0 8
  (fieldN w 0 24, (upTo 4).map (fun j => fieldN w (24 + 2 * j) 2), (upTo 4).map (fun j => leAt b (8 + j) 1),
   (upTo 4).map (fun j => coord24 b (12 + 3 * j)), fieldN w 32 32 == 0 && leAt b 24 8 == 0)

/-- A box mapped into the target tensor (R254). -/
def boxProject (r' : Nat) (pi sc : List Nat) (off : List Int) (b : Box) : Box :=
  (upTo r').map (fun j =>
    let d := b.getD (pi.getD j 0) ⟨0, 1, 1⟩
    let k := sc.getD j 1
    let o := off.getD j 0
    ⟨(k : Int) * d.lo + o, (k : Int) * (d.hi - 1) + o + 1, k * d.step⟩)

/-- No value occurs twice. -/
def allDistinct (l : List Nat) : Bool := l.zipIdx.all (fun p => !(l.drop (p.2 + 1)).contains p.1)

/-- RPRJ (R254). Of a null qa the map record is loaded, and nothing else is read or checked (log 92). -/
def execRprj (d a b : BitVec 6) (s : State) : Host.Outcome State Fault Refusal :=
  guardedRun (.rprj d a b) s (fun s => do
    let (addr, s) ← readReg b.toNat s
    if addr.toNat % 8 ≠ 0 then misaligned addr.toNat
    else
      let (rec_, s) ← loadSpan addr.toNat 32 s
      let qa := s.qreg a.toNat
      if qa.isNull then pure (s.setQ d.toNat Region.null)
      else
        let (h, pi, sc, off, ok) := parseMap rec_
        let (ba, s) ← descFetch qa.handle s
        let (bt, s) ← descFetch h s
        let da ← descParse s qa.handle ba
        let dt ← descParse s h bt
        if da.rank ≠ qa.rank then fmtTrap (descAddr s s.kdom qa.handle).1
        else
          let used := pi.take dt.rank
          if !ok || used.any (fun p => decide (qa.rank ≤ p)) || (sc.take dt.rank).any (· == 0) || !allDistinct used then
            fmtTrap addr.toNat
          else
            let q ← finishUnion d.toNat h qa.loose qa.cover dt (qa.boxes.map (boxProject dt.rank pi sc off))
            pure (s.setQ d.toNat q))

/-- The part of a box with coordinates of dimension `k` in a range (R255). -/
def boxCut (k : Nat) (below : Bool) (c : Int) (b : Box) : Box :=
  b.zipIdx.map (fun p =>
    if p.2 ≠ k then p.1
    else if below then ⟨p.1.lo, min p.1.hi c, p.1.step⟩
    else if c ≤ p.1.lo then p.1
    else ⟨p.1.lo + ((ceilDiv (c - p.1.lo).toNat p.1.step * p.1.step : Nat) : Int), p.1.hi, p.1.step⟩)

/-- RSPL (R255). -/
def execRspl (d a b : BitVec 6) (s : State) : Host.Outcome State Fault Refusal :=
  guardedRun (.rspl d a b) s (fun s => do
    let (ctl, s) ← readReg b.toNat s
    let qa := s.qreg a.toNat
    let d' := d.toNat + 1
    if qa.isNull then pure ((s.setQ d.toNat Region.null).setQ d' Region.null)
    else
      let (de, s) ← operandDesc qa s
      if bitW ctl 2 then
        let n := (qa.boxes.length + 1) / 2
        if qa.loose then
          let part (bs : List Box) : Region := ⟨qa.handle, qa.rank, bs, true, false, qa.cover, 0⟩
          pure ((s.setQ d.toNat (part (qa.boxes.take n))).setQ d' (part (qa.boxes.drop n)))
        else
          let lo ← finishUnion d.toNat qa.handle false qa.cover de (qa.boxes.take n)
          let hi ← finishUnion d' qa.handle false qa.cover de (qa.boxes.drop n)
          pure ((s.setQ d.toNat lo).setQ d' hi)
      else
        let k := bitsW ctl 1 0
        let c := sextI 24 (bitsW ctl 31 8)
        if qa.rank ≤ k then fmtTrap (descAddr s s.kdom qa.handle).1
        else
          let lo ← finishUnion d.toNat qa.handle qa.loose qa.cover de (qa.boxes.map (boxCut k true c))
          let hi ← finishUnion d' qa.handle qa.loose qa.cover de (qa.boxes.map (boxCut k false c))
          pure ((s.setQ d.toNat lo).setQ d' hi))

/-- RSTRD (R256). -/
def execRstrd (d a b : BitVec 6) (s : State) : Host.Outcome State Fault Refusal :=
  guardedRun (.rstrd d a b) s (fun s => do
    let (x, s) ← readReg b.toNat s
    let qa := s.qreg a.toNat
    if qa.isNull then pure (s.setQ d.toNat Region.null)
    else
      let (de, s) ← operandDesc qa s
      if (upTo qa.rank).any (fun i => decide (byteW x i ≤ byteW x (4 + i))) then
        fmtTrap (descAddr s s.kdom qa.handle).1
      else
        let lattice : Box := de.bounds.zipIdx.map (fun p => ⟨(byteW x (4 + p.2) : Int), (p.1 : Int), byteW x p.2⟩)
        let q ← finishOp (fun x y => x && y) d.toNat qa.handle qa.loose qa.cover de qa.boxes [lattice]
        pure (s.setQ d.toNat q))

/-- RRAG (R257). -/
def execRrag (d a b : BitVec 6) (s : State) : Host.Outcome State Fault Refusal :=
  guardedRun (.rrag d a b) s (fun s => do
    let (x, s) ← readReg b.toNat s
    let qa := s.qreg a.toNat
    if x.toNat % 4 ≠ 0 then misaligned x.toNat
    else if qa.isNull then fmtOpen s
    else
      let (_, s) ← operandDesc qa s
      if qa.boxes.length ≠ 1 || decide (qa.rank < 2) || qa.loose ||
          qa.boxes.any (fun bx => ((bx.head?).map (·.step)).getD 0 != 1) then
        fmtTrap (descAddr s s.kdom qa.handle).1
      else pure (s.setQ d.toNat { qa with rg := true, table := x }))

/-- The shift of dimension `i` in RSHF's operand (R258). -/
def shfAmt (x : Word) (i : Nat) : Int := if i = 3 then sextI 14 (bitsW x 61 48) else sextI 16 (bitsW x (16 * i + 15) (16 * i))

/-- RSHF (R258). -/
def execRshf (d a b : BitVec 6) (s : State) : Host.Outcome State Fault Refusal :=
  guardedRun (.rshf d a b) s (fun s => do
    let (x, s) ← readReg b.toNat s
    oneOp (fun q => q.boxes.map (fun bx => bx.zipIdx.map (fun p => dimShift (shfAmt x p.2) p.1)))
      (fun q => if bitW x 63 then bitW x 62 else q.cover) d a s)

/-! ### RCMP, RCNT, RVOL, RTST (R259) -/

/-- RCMP. -/
def execRcmp (d a b : BitVec 6) (s : State) : Host.Outcome State Fault Refusal :=
  guardedRun (.rcmp d a b) s (fun s => do
    let qa := s.qreg a.toNat
    let qb := s.qreg b.toNat
    let (_, s) ← operandsDesc qa qb s
    let r := max qa.rank qb.rank
    let none_ (op : Bool → Bool → Bool) : Bool := (decomp op r qa.boxes qb.boxes).isEmpty
    let ab := none_ (fun x y => x && !y)
    let ba := none_ (fun x y => !x && y)
    let dis := none_ (fun x y => x && y)
    writeReg d.toNat (wd ((if ab && ba then 1 else 0) + (if ab then 2 else 0) + (if ba then 4 else 0) +
      (if dis then 8 else 0) + (if qa.loose || qb.loose then 16 else 0))) s)

/-- RCNT. -/
def execRcnt (d a : BitVec 6) (s : State) : Host.Outcome State Fault Refusal :=
  guardedRun (.rcnt d a) s (fun s => do
    let q := s.qreg a.toNat
    if q.isNull then writeReg d.toNat 0 s
    else
      let (_, s) ← operandDesc q s
      writeReg d.toNat (wd (q.boxes.length + q.rank * 2 ^ 4 + (if q.ix then 2 ^ 8 else 0) + (if q.rg then 2 ^ 9 else 0) +
        (if q.cover then 2 ^ 10 else 0) + q.handle * 2 ^ 32)) s)

/-- Dimension 1 of a region's box 0. -/
def Region.rows (q : Region) : List Int :=
  match q.boxes with
  | (_ :: d1 :: _) :: _ => dimVals d1
  | _ => []

/-- The lengths of a ragged region's rows, read in order as ordinary loads (R247, R257). -/
def loadLens (table : Word) (n : Nat) (s : State) : Run (List Nat × State) :=
  (upTo n).foldlM (fun (p : List Nat × State) k => do
    let (v, s) ← loadV ((table.toNat + 4 * k) % 2 ^ 64) 4 p.2
    pure (p.1 ++ [v], s)) ([], s)

/-- The length table of a ragged region with rows is misaligned (R247, R249). -/
def Region.tableBad (q : Region) : Bool := q.table.toNat % 4 != 0 && !q.rows.isEmpty

/-- How many cells boxes hold together. -/
def unionVolume (r : Nat) (bs : List Box) : Nat := ((canon r bs).map boxVolume).foldl (· + ·) 0

/-- RVOL. -/
def execRvol (d a : BitVec 6) (s : State) : Host.Outcome State Fault Refusal :=
  guardedRun (.rvol d a) s (fun s => do
    let q := s.qreg a.toNat
    if q.isNull then writeReg d.toNat 0 s
    else if !q.rg then
      let (_, s) ← operandDesc q s
      writeReg d.toNat (wd (unionVolume q.rank q.boxes)) s
    else if q.tableBad then misaligned q.table.toNat
    else
      let (b, s) ← descFetch q.handle s
      let (ls, s) ← loadLens q.table q.rows.length s
      let _ ← checkDesc q b s
      writeReg d.toNat (wd (((raggedBoxes q (fun k => ls.getD k 0)).map boxVolume).foldl (· + ·) 0)) s)

/-- The rows of a ragged region whose hull holds byte `x`, by their place. -/
def raggedRowsAt (de : Desc) (q : Region) (x : Nat) : List Nat :=
  (q.rows.zipIdx.filter (fun p => boxesHoldByte de (crossRow p.1 q.boxes) x)).map (·.2)
where
  /-- The boxes with dimension 1 held to one coordinate. -/
  crossRow (v : Int) (bs : List Box) : List Box :=
    bs.map (fun b => b.zipIdx.map (fun p => if p.2 = 1 then ⟨v, v + 1, 1⟩ else p.1))

/-- Read the length of one row. -/
def rowLen (table : Word) (k : Nat) (s : State) : Run (Nat × State) := loadV ((table.toNat + 4 * k) % 2 ^ 64) 4 s

/-- The lengths of some rows of a ragged region, by their place. -/
def rowLens (q : Region) (rows : List Nat) (s : State) : Run (SMap Nat × State) :=
  rows.foldlM (fun (p : SMap Nat × State) k => do
    let (v, s) ← rowLen q.table k p.2
    pure (sset p.1 k v, s)) (([] : SMap Nat), s)

/-- RTST. -/
def execRtst (d a b : BitVec 6) (s : State) : Host.Outcome State Fault Refusal :=
  guardedRun (.rtst d a b) s (fun s => do
    let (x, s) ← readReg b.toNat s
    let q := s.qreg a.toNat
    if q.isNull then writeReg d.toNat 0 s
    else
      let (de, s) ← operandDesc q s
      if q.rg then
        let (ls, s) ← rowLens q (raggedRowsAt de q x.toNat) s
        writeReg d.toNat (boolW (boxesHoldByte de (raggedBoxes q (fun k => sget 0 ls k)) x.toNat)) s
      else writeReg d.toNat (boolW (boxesHoldByte de q.boxes x.toNat)) s)

end Sys2Proof.Machine
end

