-- ==== Sys2Proof/Machine/Engine.lean ====
section
/-! DEFINITION. What the hub engines share: appending a command, checks of spans, shape records, and engine accesses to
lines (01 R7 to R19, 05 R127 to R130, 09 R244, 12 R291 to R293). -/
namespace Sys2Proof.Machine

/-! ### Spans checked at issue (R244) -/

/-- The footprint a destination is checked against, for a continuation that a task record started (log 11). -/
def State.destFoot (s : State) : Option Footprint := if s.cur.task = 0 then none else some s.cur.wfoot

/-- The footprint a source is checked against: only with RCHK = 1. -/
def State.srcFoot (s : State) : Option Footprint := if s.cur.task = 0 || !s.cur.rchk then none else some s.cur.rfoot

/-- One byte of a global span has the rights and lies in the footprint; a failure reports the address given. Local
memory has neither. -/
def byteGrant (need : Nat) (foot : Option Footprint) (report b : Nat) (s : State) : Run State := do
  if isLocal b then pure s
  else if !isGlobal b then prot report
  else
    let (e, s) ← held (plbLook s.focus.core s.kdom (segOf b) s)
    if !granted (rightsBits e.rights.toNat) need || foot.any (fun f => !footHolds f b) then prot report else pure s

/-- All bytes of a list of bytes with what each reports. -/
def bytesGrant (need : Nat) (foot : Option Footprint) (l : List (Nat × Nat)) (s : State) : Run State :=
  l.foldlM (fun s p => byteGrant need foot p.1 p.2 s) s

/-- The bytes of a region's cells, each with its cell's address. -/
def cellSpan (de : Desc) (cells : List (List Int)) : List (Nat × Nat) :=
  (cells.map (fun x => (cellBytes de x).map (fun b => (cellAddr de x, b)))).flatten

/-- A contiguous span, each byte reporting itself. -/
def flatSpan (a n : Nat) : List (Nat × Nat) := (upTo n).map (fun i => ((a + i) % 2 ^ 64, (a + i) % 2 ^ 64))

/-- The first address of each segment that a span of `n` bytes touches; the first number bounds them. -/
def segPieces : Nat → Nat → Nat → List Nat
  | 0, _, _ => []
  | f + 1, a, n =>
    let m := min n (2 ^ 21 - a % 2 ^ 21)
    if n = 0 then [] else a :: segPieces f (a + m) (n - m)

/-- All bytes of a contiguous span: rights by segment, and the footprint, where one is asked for, byte by byte (R244). -/
def spanGrant (need : Nat) (foot : Option Footprint) (a n : Nat) (s : State) : Run State :=
  match foot with
  | some _ => bytesGrant need foot (flatSpan a n) s
  | none => bytesGrant need none ((segPieces (n / 2 ^ 21 + 2) a n).map (fun x => (x % 2 ^ 64, x % 2 ^ 64))) s

/-- A source region: read rights, and the read footprint under RCHK (R244). -/
def regionSource (de : Desc) (cells : List (List Int)) (s : State) : Run State :=
  bytesGrant needR s.srcFoot (cellSpan de cells) s

/-- A destination region: write rights and the write footprint (R244). -/
def regionDest (de : Desc) (cells : List (List Int)) (s : State) : Run State :=
  bytesGrant needW s.destFoot (cellSpan de cells) s

/-- The local bytes of a region's cells: R200 step 2, a failure with its cell's address (01 R34). -/
def regionLocal (wr : Bool) (de : Desc) (cells : List (List Int)) (s : State) : Except Stop Unit :=
  match (cellSpan de cells).find? (fun p => isLocal p.2 && !(localCheck wr p.2 1 s).isOk) with
  | some p => prot p.1
  | none => .ok ()

/-! ### Lists of lines -/

/-- Insert into an ascending list without repeats. -/
def insertNat (n : Nat) : List Nat → List Nat
  | [] => [n]
  | m :: r => if n < m then n :: m :: r else if n = m then m :: r else m :: insertNat n r

/-- The numbers of a list, ascending, each once. -/
def sortNats (l : List Nat) : List Nat := l.foldl (fun acc n => insertNat n acc) []

/-- The lines of 128 bytes that addresses lie in, ascending. -/
def linesOf (l : List Nat) : List Nat := sortNats (l.map (· / 128))

/-! ### Appending (01 R7 to R13, 05 R127) -/

/-- Append an entry to the queue of engine `e`: a release at level 1, its slots in the chain (six with a region operand,
whose snapshot they hold), its sequence number. -/
def appendCmd (e : Nat) (q : Option Region) (s : State) : Except Stop (CmdHdr × State) := do
  let s ← release s
  let c := s.focus.core
  let k := s.sqAt s.sq
  let n := k.seqno e s.lane
  let seq := inc48 n.issued
  match chainPlace c e (if q.isSome then 6 else 1) seq s with
  | none => .error .pool
  | some (s, off) =>
    let s := s.scribble c off 64
    let s := match q with
      | some r => s.localPut c (off + 64) (regionBytes r ++ leBytes 32 0)
      | none => s
    let s := s.setSq s.sq ((s.sqAt s.sq).setSeqno e s.lane { n with issued := seq })
    pure (⟨c, s.focus.ctx, s.kdom, s.cur.sup, seq, s.appends⟩, { s with appends := s.appends + 1 })

/-- Who an appended command is when it accesses memory. -/
def CmdHdr.agent (h : CmdHdr) : Agent := ⟨h.ord, h.dom, true, 1⟩

/-- The completed number of engine `e` for a core of the executing core's square (01 R17). -/
def State.completedOf (s : State) (e core : Nat) : Nat := ((s.sqAt s.sq).seqno e (core % 8)).completed

/-- Wait until the completed number of engine `e` for a core of this square reaches a target (01 R14, R15). -/
def waitSeq (e : Nat) (a b : BitVec 6) (s : State) : Except Stop State := do
  let (x, y, s) ← readTwo a b s
  let core := bitsW x 2 0
  let t := bitsW y 47 0
  if reached (s.completedOf e core) t then pure s else .error (.wait (.seqno e s.sq core t))

/-! ### Engine accesses -/

/-- An engine's access waits: for a page, which it asks its home tile for, or (reason 0) for something else (R267, 20 R434,
R436). -/
def State.engineWaits (s : State) (core : Nat) (a : Agent) (va reason code : Nat) : State :=
  if reason = 0 then s else (s.waitsFor a va).faultedEngine core a.dom va reason code

/-- What an engine step does with its outcome: its effect, a failure's effect, or a wait for the page (R267). -/
def engineStep (core : Nat) (a : Agent) (fail : State → State) (s : State) : Except EStop State → State
  | .ok t => t
  | .error (.abandon w) => fail (s.metPoison w)
  | .error (.wait va r c) => s.engineWaits core a va r c

/-- Write bytes within one line at scattered addresses; a whole line is one write. -/
def State.putMasked (s : State) (va pa : Nat) (l : List (Nat × Byte)) : State :=
  let m : SMap Byte := l.foldl (fun m p => sset m (p.1 % 128) p.2) []
  if m.length = 128 then s.putGlobal va pa (m.map (·.2))
  else m.foldl (fun s p => s.putGlobal (va + p.1) (pa + p.1) [p.2]) s

/-- Write bytes within one block of 128 bytes of a core's local memory at scattered offsets; a whole block is one write. -/
def State.localMasked (s : State) (core : Nat) (l : List (Nat × Byte)) : State :=
  let m : SMap Byte := l.foldl (fun m p => sset m (p.1 % 128) p.2) []
  match l with
  | [] => s
  | (o, _) :: _ =>
    if m.length = 128 then s.localPut core (alignDown o 128) (m.map (·.2))
    else m.foldl (fun s p => s.localPut core (alignDown o 128 + p.1) [p.2]) s

/-- An engine reads bytes of a core's local memory; a poisoned read is abandoned (20 R447). -/
def engineLocal (core off n : Nat) (s : State) : Except EStop (List Byte) :=
  if (s.coreAt core).poisoned off n then .error (.abandon none) else .ok (memRead (s.coreAt core).mem off n)

/-- An engine reads bytes at a local address of a core, or at a global one. -/
def agentRead (a : Agent) (core addr n : Nat) (s : State) : Except EStop (List Byte × State) :=
  if isLocal addr then
    if localOk addr && decide (localOff addr + n ≤ 2 ^ 19) then (engineLocal core (localOff addr) n s).map (fun b => (b, s))
    else .error (.abandon none)
  else engineReads a addr n s

/-- Read the bytes at scattered addresses, each line once; a local one is that core's (01 R34). -/
def engineGather (a : Agent) (core : Nat) (addrs : List Nat) (s : State) : Except EStop (List Byte × State) := do
  let (got, s) ← (linesOf addrs).foldlM (fun (p : SMap (List Byte) × State) line => do
    let (b, s) ← agentRead a core (128 * line) 128 p.2
    pure (sset p.1 line b, s)) (([] : SMap (List Byte)), s)
  pure (addrs.map (fun x => (sget [] got (x / 128)).getD (x % 128) 0), s)

/-- Write bytes at scattered addresses, later ones of the list last, a local one in that core's memory; nothing is written unless
all may be. -/
def engineScatter (a : Agent) (core : Nat) (l : List (Nat × Byte)) (s : State) : Except EStop State :=
  (linesOf (l.map (·.1))).foldlM (fun s line =>
    let here := l.filter (fun p => p.1 / 128 == line)
    if isLocal (128 * line) then
      if localOk (128 * line) then .ok (s.localMasked core (here.map (fun p => (localOff p.1, p.2)))) else .error (.abandon none)
    else do
      let (pa, s) ← engineAt a true (128 * line) s
      pure (s.putMasked (128 * line) pa here)) s

/-- The descriptor of a region as an engine reads it when a command executes (09 R233); none when it is not valid any
more, has another rank, or may not be read. -/
def execDesc (a : Agent) (q : Region) (s : State) : Except EStop (Option Desc × State) :=
  let (p, ok) := descAddr s a.dom q.handle
  if !ok || p % 64 != 0 then .ok (none, s)
  else match engineRead a p 64 s with
    | .error (.abandon w) => .ok (none, s.metPoison w)
    | .error w => .error w
    | .ok (b, s) =>
      let (d, good) := parseDesc b
      .ok (if good && d.rank == q.rank then some d else none, s)

/-- An engine reads a span; a line that is abandoned reads as zeros and is counted (14 R353). -/
def engineReadsZero (a : Agent) (va n : Nat) (s : State) : Except EStop (List Byte × Nat × State) :=
  (linePieces (n + 1) va n).foldlM (fun (p : List Byte × Nat × State) (x : Nat × Nat) =>
    match engineRead a x.1 x.2 p.2.2 with
    | .ok (b, s) => .ok (p.1 ++ b, p.2.1, s)
    | .error (.abandon w) => .ok (p.1 ++ leBytes x.2 0, p.2.1 + 1, p.2.2.metPoison w)
    | .error w => .error w) ([], 0, s)

/-- An engine writes a span; a line that is abandoned is not written. -/
def engineWritesSkip (a : Agent) (va : Nat) (b : List Byte) (s : State) : Except EStop State :=
  (linePieces (b.length + 1) va b.length).foldlM (fun s (x : Nat × Nat) =>
    match engineWrite a x.1 ((b.drop (x.1 - va)).take x.2) s with
    | .ok s => .ok s
    | .error (.abandon w) => .ok (s.metPoison w)
    | .error w => .error w) s

/-! ### Shape records (12 R291 to R293) -/

/-- A shape record from its 32 bytes. -/
def parseShape (addr : Nat) (b : List Byte) : Shape :=
  let ctl := leAt b 28 4
  { addr := addr, base := wd (leAt b 0 8), ext := (upTo 4).map (fun i => leAt b (8 + 2 * i) 2),
    str := (upTo 4).map (fun i => coord24 b (16 + 3 * i)), ty := fieldN ctl 0 6, quant := fieldN ctl 6 1 == 1,
    bound := fieldN ctl 11 1 == 1, chan := fieldN ctl 7 4, nbr := fieldN ctl 15 1 == 1, core := fieldN ctl 12 3,
    adv := sextI 16 (fieldN ctl 16 16) }

/-- The smallest multiple a sub-byte record's strides must have; 1 for the others. -/
def subUnit (t : Nat) : Nat := if t = 8 then 2 else if isSub t then 4 else 1

/-- The record breaks a rule of R293, apart from the rules that compare operands. -/
def Shape.bad (want : Nat → Bool) (dest qOk : Bool) (h : Shape) : Bool :=
  !typeDefined h.ty || !want h.ty || h.ext.any (· == 0) || decide (65536 < h.count) ||
    (isLocal h.base.toNat && !localOk h.base.toNat) ||
    (isSub h.ty && (h.str.headD 0 != 1 || (h.adv :: h.str.drop 1).any (fun x => x % (subUnit h.ty : Int) != 0))) ||
    (h.nbr && (!dest || !isLocal h.base.toNat)) || (h.bound && (dest || !isLocal h.base.toNat)) || (h.quant && !qOk)

/-- The base is not a multiple of the element's size, for types of 8 bits or more (R287). -/
def Shape.misaligned (h : Shape) : Bool := !isSub h.ty && decide (h.base.toNat % typeBytes h.ty ≠ 0)

/-- Read a shape record of the executing core, unless its line is poisoned (20 R447). -/
def shapeAt (addr : Nat) (s : State) : Except Stop Shape :=
  if s.core.poisoned (localOff addr) 32 then .error (.drop (wd addr) 4 4)
  else .ok (parseShape addr (memRead s.core.mem (localOff addr) 32))

/-- The values of the bits of an element among its bytes. -/
def elCode (w : Nat) (bit : Int) (b : List Byte) : Nat := fieldN (ofBytes b) (bit % 8).toNat w

end Sys2Proof.Machine
end

