-- ==== Sys2Proof/Machine/Tasks.lean ====
section
/-! DEFINITION. The dispatcher: task records, continuation slots, dispatch, steals, and the meanings of the dispatcher
words and steps (06 R141 to R161). -/
namespace Sys2Proof.Machine

/-! ### Task records (R141) -/

/-- The domain of a record. -/
def recDom (b : List Byte) : Nat := leAt b 68 2
/-- The priority of a record. -/
def recPrio (b : List Byte) : Nat := fieldN (leAt b 64 8) 24 3
/-- The number of shape values of a record. -/
def recNv (b : List Byte) : Nat := fieldN (leAt b 64 8) 27 3

/-- The "Checked" column of R141, the format codes and nv. -/
def recOk (b : List Byte) : Bool :=
  let ctl := leAt b 64 8
  leAt b 0 8 % 4 == 0 && leAt b 16 8 % 8 == 0 && leAt b 24 8 % 8 == 0 && leAt b 32 8 % 16 == 0 &&
    fieldN ctl 6 2 == 0 && fieldN ctl 14 2 == 0 && fieldN ctl 22 2 == 0 && fieldN ctl 30 2 == 0 && fieldN ctl 48 16 == 0 &&
    typeDefined (fieldN ctl 0 6) && typeDefined (fieldN ctl 8 6) && typeDefined (fieldN ctl 16 6) &&
    decide (recNv b ≤ 4) && leAt b 96 8 % 4 == 0 && leAt b 112 16 == 0

/-- The page of an address is served now, or the word drops. -/
def pageServed (va : Nat) (s : State) : Run (Unit × State) :=
  match translate (s.homeOf (segOf va)) false va s with
  | (.ok .., t) => leaves (.ok (), t)
  | (.stop r c, t) => leaves (.error (.drop (wd va) r c), t)

/-- The checks of R144 on a record that enters the dispatcher: its bytes. The page must be resident before any check. -/
def entryCheck (p : Nat) (s : State) : Run (List Byte × State) := do
  if !isGlobal p then if p % 128 ≠ 0 then misaligned p else prot p
  let (_, s) ← pageServed p s
  if p % 128 ≠ 0 then misaligned p
  let (_, s) ← rightsGrant .read p 128 s
  let (pa, s) ← held (hvLook false p s)
  let b := memRead s.mem pa 128
  if if s.cur.sup then (s.dom? (recDom b)).isNone else recDom b != s.kdom then prot p
  else if recOk b then pure (b, s)
  else fmtTrap p

/-- Write bytes at an address by the hardware, or hold the issuing context (07 R169). -/
def hvWrite (va : Nat) (b : List Byte) (s : State) : Run State := do
  let (pa, s) ← held (hvLook true va s)
  pure (s.putGlobal va pa b)

/-- Read bytes at an address by the hardware, or hold the issuing context. -/
def hvRead (va n : Nat) (s : State) : Run (List Byte × State) := do
  let (pa, s) ← held (hvLook false va s)
  pure (memRead s.mem pa n, s)

/-- What WAKE's atomic does for a word: the old state, or what holds the word, by no room for the push or by the slot's page. -/
def wakeHeld (c slot : Nat) (s : State) : Run (Nat × State) :=
  match wakeSlot c slot s with
  | .woke old s => pure (old, s)
  | .full => throw .pool
  | .absent h => held (.error h, (hvLook true slot s).2)

/-- The next task id of a domain (R144). -/
def takeTaskId (dom : Nat) (s : State) : Nat × State :=
  match s.dom? dom with
  | some d => (d.nextTask, s.setDom dom (some { d with nextTask := inc48 d.nextTask }))
  | none => (0, s)

/-- The graph of an entering record: the issuer's, or a new one for an issuer without a task record (R144). It is `dom`, the domain of
the record, whose vector 0 is raised when the new graph completes (log 93). -/
def entryGraph (dom : Nat) (s : State) : Nat × State :=
  if s.cur.task = 0 then s.graphOpen dom none
  else (s.cur.graph.toNat, s.graphEnter s.cur.graph.toNat)

/-- A record is in the dispatcher, for a domain (21 R455). -/
def State.enters (s : State) (p dom : Nat) : State := { s with entered := sset s.entered p dom }

/-- A successful entry: task id and graph id go into the record (R144, R157). -/
def enterTask (p : Nat) (b : List Byte) (s : State) : Run (Nat × State) := do
  let (id, s) := takeTaskId (recDom b) s
  let (g, s) := entryGraph (recDom b) s
  let s ← hvWrite (p + 104) (leBytes 8 id) s
  let s ← hvWrite (p + 72) (leBytes 8 g) s
  pure (id, s.enters p (recDom b))

/-- Push an entry at the bottom of the issuing core's deque, or wait for a chain block (R145, 01 R9). -/
def pushEntry (e : Word) (s : State) : Except Stop State :=
  match s.pushBottom s.focus.core e with
  | some s => .ok s
  | none => .error .pool

/-! ### Waiting as VSYNC does (R150, 12 R311, 04 R90) -/

/-- Wait until every held vector entry of the context is done. -/
def vectorIdle (s : State) : Except Stop State :=
  if s.cur.vq.any (fun e => e.st != .done) then .error (.wait .vector) else .ok s

/-- The pending vector flags that are enabled (04 R90). -/
def flagsUp (s : State) : Bool := s.cur.vflags &&& enabledOf s.cur.kfpe != 0

/-- What a word that ends or suspends its continuation waits for: every held vector entry done, then FPE when an enabled flag is
pending (R150, 04 R90). -/
def vsyncWait (s : State) : Except Stop State := do
  let s ← vectorIdle s
  if flagsUp s then trapS 8 (s.cur.vflags.setWidth 64) else pure s

/-! ### Continuation slots (R143) -/

/-- Write the running continuation to its slot with a state (R143, R154, R156). The pending bit W is kept as given. -/
def saveCont (state : Nat) (w : Bool) (s : State) : Run State := do
  let x := s.cur
  let slot := x.slot.toNat
  let word0 := x.pc.toNat / 4 * 4 + (if x.sup then 2 else 0) + (if w then 1 else 0)
  let gs := ([1, 2, 3, 4, 5].map (fun n => leBytes 8 (sget 0 x.g n).toNat)).flatten
  let s ← hvWrite slot (leBytes 8 word0) s
  let s ← hvWrite (slot + 24) (gs ++ leBytes 8 x.kfpe.toNat ++ leBytes 8 x.kscnt.toNat ++ leBytes 8 x.kseed.toNat) s
  hvWrite (slot + 104) (leBytes 8 state ++ leBytes 4 (bitsW x.kovf 31 0)) s

/-- The context after its continuation left it: idle (07 R163). -/
def Ctx.leave (x : Ctx) : Ctx :=
  { x.emptied with st := .idle, slot := 0, task := 0, graph := 0, apc := 0, rfoot := Footprint.none, wfoot := Footprint.none }

/-- The executing context becomes idle. -/
def leaveCur (s : State) : State := s.setCur s.cur.leave

/-- W of the running continuation's slot. -/
def slotW (s : State) : Run (Bool × State) := do
  let (b, s) ← hvRead s.cur.slot.toNat 8 s
  pure (fieldN (ofBytes b) 0 1 == 1, s)

/-! ### SPAWN, SPAWNX, TSIG, TDEP (R151 to R153) -/

/-- SPAWN (R151). -/
def execSpawn (d a : BitVec 6) (s : State) : Host.Outcome State Fault Refusal :=
  guardedRun (.spawn d a) s (fun s => do
    let (p, s) ← readReg a.toNat s
    let (b, s) ← entryCheck p.toNat s
    let s ← release s
    let (id, s) ← enterTask p.toNat b s
    let s ← pushEntry p s
    writeReg d.toNat (wd id) s)

/-- What a word that ends or suspends its continuation does first: with a packet open it is ILL, before it reads a port (07
R173; log 12). -/
def unlessOpen (s : State) (body : State → Run State) : Run State :=
  if s.cur.packetOpen then ill s else body s

/-- SPAWNX (R151): the parent's slot is the child's joiner, and the value reaches g(d) when the parent resumes. A record has one
joiner: a later SPAWNX of the same record replaces it (log 58). -/
def execSpawnx (d a : BitVec 6) (s : State) : Host.Outcome State Fault Refusal :=
  guardedRun (.spawnx d a) s (fun s => unlessOpen s (fun s => do
    let (p, s) ← readReg a.toNat s
    let (b, s) ← entryCheck p.toNat s
    let s ← vsyncWait s
    let s ← release s
    let (_, s) ← enterTask p.toNat b s
    let slot := s.cur.slot
    let (w, s) ← slotW s
    let s ← saveCont 2 w s
    let s := { s with joiners := sset s.joiners p.toNat slot, joinDest := sset s.joinDest slot.toNat d.toNat }
    let s ← pushEntry p s
    pure (leaveCur s)))

/-- The grant of a counter of 16 bytes as an atomic: where it is served (R152, R153). -/
def counterAt (a : Nat) (s : State) : Run (Spot × State) :=
  if a % 16 ≠ 0 then misaligned a
  else do
    let (e, s) ← globalGrant .atomic a 16 s
    accessSpot e .atomic a 16 s

/-- A value of `n` bytes at an offset of a counter that was granted. -/
def counterGet (a : Nat) (w : Spot) (o n : Nat) (s : State) : Nat := leAt (s.spotRead w a 16) o n

/-- Write bytes at an offset of a counter that was granted. -/
def counterPut (a : Nat) (w : Spot) (o : Nat) (b : List Byte) (s : State) : State :=
  s.spotPut (match w with
    | .frame pa => .frame (pa + o)
    | .entry t => .entry t) (a + o) b

/-- TSIG (R152). -/
def execTsig (d a : BitVec 6) (s : State) : Host.Outcome State Fault Refusal :=
  guardedRun (.tsig d a) s (fun s => do
    let (x, s) ← readReg a.toNat s
    let (at_, s) ← counterAt x.toNat s
    let s ← release s
    let c := counterGet x.toNat at_ 0 4 s
    let p := counterGet x.toNat at_ 8 8 s
    let s ← (if c = 1 ∧ p ≠ 0 then do
        let (b, s) ← entryCheck p s
        pushEntry (wd p) ((counterPut x.toNat at_ 8 (leBytes 8 0) s).enters p (recDom b))
      else pure s)
    let s := if c ≠ 0 then counterPut x.toNat at_ 0 (leBytes 4 (c - 1)) s else s
    writeReg d.toNat (wd c) s)

/-- The counter of a TDEP: as `counterAt`, with the counter's address in kinfo of a PROT (R153). -/
def depCounter (k : Nat) (s : State) : Run (Spot × State) :=
  tryCatch (counterAt k s) (fun st => match st with
    | .trap 2 _ => prot k
    | st => throw st)

/-- TDEP (R153). -/
def execTdep (d a : BitVec 6) (s : State) : Host.Outcome State Fault Refusal :=
  guardedRun (.tdep d a) s (fun s => do
    let (p, s) ← readReg a.toNat s
    let (b, s) ← entryCheck p.toNat s
    let k := leAt b 32 8
    if k = 0 then fmtTrap p.toNat
    else
      let (at_, s) ← depCounter k s
      let s ← release s
      let c := counterGet k at_ 0 4 s
      let q := counterGet k at_ 8 8 s
      if c ≠ 0 ∧ q ≠ 0 then fmtTrap p.toNat
      else
        let (id, s) ← enterTask p.toNat b s
        let s ← (if c = 0 then pushEntry p s else pure (counterPut k at_ 8 (leBytes 8 p.toNat) s))
        writeReg d.toNat (wd id) s)

/-! ### SUSP, WAKE, YIELD (R154 to R156) -/

/-- SUSP (R154): with W = 1 it clears W and nothing else. -/
def execSusp (s : State) : Host.Outcome State Fault Refusal :=
  finishRun s (unlessOpen s (fun s => do
    let s ← vsyncWait s
    let s ← release s
    let (b, s) ← hvRead s.cur.slot.toNat 8 s
    if fieldN (ofBytes b) 0 1 = 1 then
      hvWrite s.cur.slot.toNat (leBytes 8 (ofBytes b / 2 * 2)) s
    else
      let s ← saveCont 2 false s
      pure (leaveCur s)))

/-- WAKE (R155). -/
def execWake (d a : BitVec 6) (s : State) : Host.Outcome State Fault Refusal :=
  guardedRun (.wake d a) s (fun s => do
    let (x, s) ← readReg a.toNat s
    let slot := x.toNat
    let inPool := match s.dom? s.kdom with
      | some dm => dm.hasSlot slot
      | none => false
    if slot % 128 ≠ 0 then misaligned slot
    else if !isGlobal slot || (!s.cur.sup && !inPool) then prot slot
    else
      let s ← release s
      let (old, s) ← wakeHeld s.focus.core slot s
      writeReg d.toNat (wd old) s)

/-- YIELD (R156). -/
def execYield (s : State) : Host.Outcome State Fault Refusal :=
  finishRun s (unlessOpen s (fun s => do
    let s ← vsyncWait s
    let s ← release s
    let (w, s) ← slotW s
    let e := contEntry s.cur.slot.toNat false
    let s ← saveCont 3 w s
    match s.pushTop s.focus.core e with
    | some s => pure (leaveCur s)
    | none => throw .pool))

/-! ### TRET and retirement (R157) -/

/-- Queue the joiner of a retiring task: its join value, then as WAKE would (R151, R155). -/
def queueJoiner (c joiner : Nat) (v : Word) (s : State) : Run State := do
  let s ← hvWrite (joiner + 96) (leBytes 8 v.toNat) s
  let (_, s) ← wakeHeld c joiner s
  pure s

/-- Retire the task of context `x` of core `c` with a return value. -/
def retireTask (c x : Nat) (v : Word) (s : State) : Run State := do
  let k := s.ctxAt c x
  let slot := k.slot.toNat
  let (jb, s) ← hvRead (slot + 88) 8 s
  let s ← (if ofBytes jb ≠ 0 then queueJoiner c (ofBytes jb) v s else pure s)
  let s ← hvWrite (slot + 104) (leBytes 8 0) s
  let s := if k.task = 0 then s else s.graphLeave k.graph.toNat
  pure (s.setCtx c x (s.ctxAt c x).leave)

/-- TRET (R157). -/
def execTret (a : BitVec 6) (s : State) : Host.Outcome State Fault Refusal :=
  guardedRun (.tret a) s (fun s => unlessOpen s (fun s => do
    let (v, s) ← readReg a.toNat s
    let s ← vsyncWait s
    let s ← release s
    retireTask s.focus.core s.focus.ctx v s))

/-- A context that resumes at its task's abort PC: g1 to g5, the mode, the domain and what belongs to the context's task and
ports stay, and every other register is 0 (R157, 07 R171; log 30). -/
def Ctx.aborted (x : Ctx) (info : Word) : Ctx :=
  { Ctx.reset with
    g := x.g.filter (fun p => decide (1 ≤ p.1 ∧ p.1 ≤ 5))
    pc := x.apc, kdom := x.kdom, kstat := x.kstat, kcause := 11, kinfo := info, st := .ready
    slot := x.slot, task := x.task, graph := x.graph, apc := x.apc, rfoot := x.rfoot, wfoot := x.wfoot
    rx0 := x.rx0, rx1 := x.rx1, pushes := x.pushes, quota := x.quota, lastIssue := x.lastIssue }

/-- An aborted task: packets closed, then the abort PC with kcause ABORT, or retirement with all ones (R157, 07 R171, R173). -/
def abortTask (c x : Nat) (info : Word) (s : State) : State :=
  let s := abortClose s c x
  let k := s.ctxAt c x
  if k.apc ≠ 0 then s.setCtx c x (k.aborted info)
  else
    (s.setCtx c x k.leave).hwTry (.retire c k.slot.toNat (-1) (if k.task = 0 then none else some k.graph.toNat))

/-! ### BKTSEL, STEALCTL, BUDGET (R158 to R161) -/

/-- The task record of the running continuation, or bytes the spec leaves open where no record started it (log 7). -/
def runningRec (s : State) : Run (List Byte × State) :=
  if s.cur.task = 0 then pure (freeBytes s.freeCtr 128, s) else hvRead s.cur.task.toNat 128 s

/-- The first entry of a bucket table whose bounds hold every shape value (R158). -/
def bucketPick (tab : List Byte) (sv : List Nat) (nv : Nat) : Option Nat :=
  (upTo 16).find? (fun i => (upTo nv).all (fun j => decide (sv.getD j 0 ≤ leAt tab (32 * i + 4 * j) 4)))

/-- A vector entry that has yet to write one of m0 to m3 (12 R297). -/
def writesTaskMask (left : Nat) (e : VEntry) : Bool :=
  match e.insn with
  | .vcmp h _ _ _ _ _ => h.toNat ≤ 3 && (e.st != .done || (e.body && decide (0 < left)))
  | _ => false

/-- BKTSEL (R158). -/
def execBktsel (d a : BitVec 6) (s : State) : Host.Outcome State Fault Refusal :=
  guardedRun (.bktsel d a) s (fun s => do
    let (x, s) ← readReg a.toNat s
    if x.toNat % 32 ≠ 0 then misaligned x.toNat
    else if s.cur.vq.any (writesTaskMask s.cur.vleft) then throw (.wait .entry)
    else
      let (tab, s) ← loadSpan x.toNat 512 s
      let (b, s) ← runningRec s
      let nv := min (recNv b) 4
      let sv := (upTo 4).map (fun j => leAt b (80 + 4 * j) 4)
      match bucketPick tab sv nv with
      | some i =>
        let mask (j : Nat) : BitVec 512 := if nv ≤ j then -1 else BitVec.ofNat 512 (2 ^ min (sv.getD j 0) 512 - 1)
        let s := [0, 1, 2, 3].foldl (fun s j => s.setCur { s.cur with m := sset s.cur.m j (mask j) }) s
        writeReg d.toNat (wd (leAt tab (32 * i + 16) 8)) s
      | none =>
        let s := [0, 1, 2, 3].foldl (fun s j => s.setCur { s.cur with m := sset s.cur.m j 0 }) s
        writeReg d.toNat (-1) s)

/-- STEALCTL (R159). -/
def execStealctl (d a : BitVec 6) (s : State) : Host.Outcome State Fault Refusal :=
  guarded (.stealctl d a) s (fun s => do
    let (x, s) ← readReg a.toNat s
    let old := s.core.steal
    let s := s.setCoreCur { s.core with steal := BitVec.ofNat 4 x.toNat }
    writeReg d.toNat (old.setWidth 64) s)

/-- How many instances a budget resource has (R160); 0 for the codes 5 to 7. -/
def budgetInstances (r : Nat) : Nat :=
  match r with
  | 0 => 1024 | 1 => 128 | 2 => 4 | 3 => 16 | 4 => 128 | _ => 0

/-- BUDGET (R160). While an earlier BUDGET has not taken effect, the previous amount is the one that it set (log 73). -/
def execBudget (d a b : BitVec 6) (s : State) : Host.Outcome State Fault Refusal :=
  guarded (.budget d a b) s (fun s => do
    let (x, y, s) ← readTwo a b s
    let dom := bitsW x 15 0
    let res := bitsW x 18 16
    let inst := bitsW x 31 19
    if budgetInstances res ≤ inst ∨ (s.dom? dom).isNone ∨ bitsW x 63 38 ≠ 0 ∨ bitsW y 63 48 ≠ 0 then trapS 12 x
    else
      let old := s.budget dom res inst
      let s := s.setBudget dom res inst { old with nextAmount := bitsW y 47 0, nextPeriod := bitsW x 37 32 + 1 }
      writeReg d.toNat (wd old.nextAmount) s)

/-- Return the contexts of a core that wait under a condition to state 1. -/
def State.wakeWhere (s : State) (c : Nat) (p : Ctx → Bool) : State :=
  let k := s.coreAt c
  s.setCore c { k with ctxs := k.ctxs.map (fun x => if p x.2 then (x.1, { x.2 with st := .ready }) else x) }

/-- BUDGET_PERIOD_START (R161): the next period of an activity, once the timebase has reached it. -/
def startPeriod (dom res inst : Nat) (s : State) : State :=
  let b := s.budget dom res inst
  let now := s.ktime.toNat / (1000 * b.nextPeriod)
  if s.ktime.toNat / (1000 * b.period) ≤ b.index then s
  else
    let s := s.setBudget dom res inst { b with amount := b.nextAmount, period := b.nextPeriod, used := 0, index := now }
    if res = 0 then s.wakeWhere inst (fun x => x.st == .budgetHeld && x.kdom.toNat == dom) else s

/-- BUDGET_PERIOD_START (R161). -/
def execBudgetPeriodStart (dom res inst : Nat) (s : State) : Host.Outcome State Fault Refusal :=
  hwStep (decide (dom < 65536 ∧ inst < budgetInstances res)) s (startPeriod dom res inst)

/-- POOL_BLOCK_FREE (01 R9): with a free block, the pool-held contexts of a core issue again. -/
def execPoolBlockFree (core : Nat) (s : State) : Host.Outcome State Fault Refusal :=
  hwStep (decide (core < 1024)) s (fun s =>
    if (s.coreAt core).freeBlock.isSome then s.wakeWhere core (fun x => x.st == .poolHeld) else s)

/-! ### Dispatch (R146, R147) -/

/-- The domain and priority of a deque entry; none while they cannot be read. The deques go by them without an access (log 81). A
continuation that no task record started has no task whose priority it could take: it takes 0 (R145; log 59). -/
def entryInfo (s : State) (e : Word) : Option (Nat × Nat) :=
  let a := alignDown e.toNat 128
  if e.getLsbD 0 then do
    let b ← s.peek a 128
    let t := leAt b 16 8
    if t = 0 then pure (leAt b 8 2, 0)
    else
      let r ← s.peek t 128
      pure (leAt b 8 2, recPrio r)
  else do
    let r ← s.peek a 128
    pure (recDom r, recPrio r)

/-- The highest-priority entry of a domain that passes a test: its place; the first among equals, or the last. -/
def bestEntry (s : State) (dom : Nat) (ok : Word → Bool) (last : Bool) (l : List Word) : Option (Nat × Word) :=
  (l.zipIdx.foldl (fun (best : Option (Nat × Word × Nat)) p =>
    match entryInfo s p.1 with
    | some (d, pr) =>
      if d = dom ∧ ok p.1 then
        match best with
        | none => some (p.2, p.1, pr)
        | some (_, _, q) => if q < pr ∨ (last ∧ q = pr) then some (p.2, p.1, pr) else best
      else best
    | none => best) none).map (fun x => (x.1, x.2.1))

/-- The domains that a list of entries names, each once. -/
def entryDomains (s : State) (l : List Word) : List Nat :=
  l.foldl (fun ds e => match entryInfo s e with
    | some (d, _) => if ds.contains d then ds else ds ++ [d]
    | none => ds) []

/-- Which of the domains that have work an idle context serves next is open; the dispatcher's own look at every core takes them
by turns (R148; log 15). -/
def pickDomain (s : State) (ds : List Nat) : Option Nat :=
  ds[(if s.sweeps then s.cycle / (Config.sweep + 1) else (Config.freeWord s.freeCtr).toNat) % max ds.length 1]?

/-- REPART on the core waits for quiescence: dispatch to its other contexts is stopped (07 R185). -/
def Core.reparting (k : Core) : Bool :=
  (k.ctxAt 0).st == .waiting .quiesce || (k.ctxAt 0).st == .completing .quiesce

/-- Context `x` is the lowest-numbered idle context of a core that dispatches (R146). -/
def mayDispatch (s : State) (c x : Nat) : Bool :=
  let k := s.coreAt c
  s.squareReady (squareOf c) && !k.gated && !k.reparting && decide (x < k.nctx) && (k.ctxAt x).st == .idle &&
    (upTo x).all (fun y => (k.ctxAt y).st != .idle)

/-- Why an entry is not dispatched now: a page that is not resident, with its reason and code, or no free slot (R147). -/
inductive Blocked where
  | page (va reason code : Nat)
  | full
  deriving DecidableEq, Repr

/-- The first free slot among those at a list of addresses; with none, the page of the first that cannot be read blocks the
dispatch, else the pool has none. The dispatcher knows its free slots, and accesses none for it (log 81). -/
def freeAmong (s : State) : List Nat → Blocked → Except Blocked Nat
  | [], why => .error why
  | a :: r, why =>
    match hvTry false (a + 104) s with
    | .ok (pa, t) =>
      if memLe t.mem pa 8 = 0 ∧ s.hw.contains (.freeSlot a) = false then .ok a else freeAmong s r why
    | .error (va, rs, c) => freeAmong s r (if why = .full then .page va rs c else why)

/-- The first free slot of a domain's pool (R147; log 16). A page of the pool that is not resident is asked for when no other
page of it has one (R148). -/
def freeSlot (s : State) (d : Domain) : Except Blocked Nat :=
  freeAmong s ((upTo d.slots).map (fun i => d.pool.toNat + 128 * i)) .full

/-- The hardware's bytes at an address, or the page that blocks them. -/
def needBytes (va n : Nat) (s : State) : Except Blocked (List Byte × State) :=
  match hvTry false va s with
  | .ok (pa, s) => .ok (memRead s.mem pa n, s)
  | .error (a, r, c) => .error (.page a r c)

/-- Write bytes at an address, or the page that blocks the write. -/
def needPut (va : Nat) (b : List Byte) (s : State) : Except Blocked State :=
  match hvTry true va s with
  | .ok (pa, s) => .ok (s.putGlobal va pa b)
  | .error (a, r, c) => .error (.page a r c)

/-- How a load of a footprint ends: loaded, its memory not resident, or failed (R243). -/
inductive FootRes where
  | loaded (f : Footprint) (s : State)
  | absent (b : Blocked)
  | failed

/-- Load a footprint for the focused context: the checks of RLD on the image and its descriptor (R243, R251). -/
def loadFoot (addr : Nat) (s : State) : FootRes :=
  if addr = 0 then .loaded Footprint.none s
  else
    let got : Run (Footprint × State) := do
      let (b, s) ← loadSpan addr 288 s
      let (q, s) ← imageRegion addr b s
      if q.isNull then pure (⟨q, none⟩, s)
      else
        let (db, s) ← descFetch q.handle s
        let d ← descParse s q.handle db
        pure (⟨q, some d⟩, s)
    match got.ans with
    | .ok (f, s) => .loaded f s
    | .error (.drop a r c) => .absent (.page a.toNat r c)
    | .error (.wait _) => .absent (.page addr 0 0)
    | .error _ => .failed

/-- The registers of a context at dispatch and resumption that both reset: regions, shapes, fibres, sequence handles,
vector state (R236, R278, R290, R358). -/
def Ctx.fresh (x : Ctx) : Ctx :=
  { x.emptied with q := [], h := [], f := [], sq := [], task := 0, apc := 0, rfoot := Footprint.none, wfoot := Footprint.none,
                   reloadTrap := none, st := .ready }

/-- The shadows of a task record, and its abort PC (R141). -/
def Ctx.shadows (x : Ctx) (b : List Byte) : Ctx :=
  { x with xfa := BitVec.ofNat 6 (leAt b 64 1), xfb := BitVec.ofNat 6 (leAt b 65 1), xfo := BitVec.ofNat 6 (leAt b 66 1),
           xsa := wd (leAt b 40 8), xsb := wd (leAt b 48 8), xdt := wd (leAt b 56 8), apc := wd (leAt b 96 8) }

/-- Load both footprints for the context in focus, whose footprints are not in force yet; the image that fails first is
what aborts the task (R243). -/
def loadFeet (b : List Byte) (task : Word) (s : State) : Except Blocked State :=
  match loadFoot (leAt b 16 8) s with
  | .absent h => .error h
  | .failed =>
    .ok (abortTask s.focus.core s.focus.ctx (wd (leAt b 16 8)) (s.setCur { s.cur with task := task }))
  | .loaded r s =>
    match loadFoot (leAt b 24 8) s with
    | .absent h => .error h
    | .failed =>
      .ok (abortTask s.focus.core s.focus.ctx (wd (leAt b 24 8)) (s.setCur { s.cur with task := task, rfoot := r }))
    | .loaded w s => .ok (s.setCur { s.cur with task := task, rfoot := r, wfoot := w })

/-- Focus on a context for a dispatch; the focus is given back afterwards. -/
def withFocus (c x : Nat) (s : State) (f : State → Except Blocked State) : Except Blocked State :=
  (f { s with focus := { s.focus with core := c, ctx := x }, pin := none }).map
    (fun t => { t with focus := s.focus, pin := s.pin })

/-- The end of a task whose record names no domain that exists: it fails R144's check, no slot can be taken for it, and it
retires as an aborted task without an abort PC does (R147, R157; log 58). -/
def retireUnstarted (c p : Nat) (b : List Byte) (s : State) : Except Blocked State := do
  let j := (sget 0 s.joiners p).toNat
  let s ← if j = 0 then pure s else (needPut (j + 96) (leBytes 8 (2 ^ 64 - 1)) s).map (fun s => s.hwWake c j)
  pure ({ s with joiners := sdel s.joiners p, entered := sdel s.entered p }.graphLeave (leAt b 72 8))

/-- Dispatch a task-record entry on context `x` of core `c` (R147). -/
def startTask (c x i : Nat) (p : Nat) (s : State) : Except Blocked State :=
  withFocus c x s (fun s => do
    let (b, s) ← needBytes p 128 s
    let dom := recDom b
    match s.dom? dom with
    | none => retireUnstarted c p b (s.dequeDrop c i)
    | some d =>
      match freeSlot s d with
      | .error why => .error why
      | .ok slot =>
        let id := leAt b 104 6 * 2 ^ 16 + dom
        let joiner := sget 0 s.joiners p
        let s := s.dequeDrop c i
        let s ← needPut slot (leBytes 8 (leAt b 0 8 / 4 * 4) ++ leBytes 8 id ++ leBytes 8 p) s
        let s ← needPut (slot + 88) (leBytes 8 joiner.toNat) s
        let s ← needPut (slot + 104) (leBytes 8 1) s
        let s := { s with joiners := sdel s.joiners p, entered := sdel s.entered p }
        let k := (s.cur.fresh).shadows b
        let s := s.setCur { k with
          g := [(1, wd (leAt b 8 8))], pc := wd (leAt b 0 8), kdom := BitVec.ofNat 16 dom, kseed := wd id, kscnt := 0
          kfpe := 0, kovf := 0, kstat := mkStat false false false d.rchk, slot := wd slot, graph := wd (leAt b 72 8) }
        if recOk b then loadFeet b (wd p) s
        else .ok (abortTask c x (wd p) (s.setCur { s.cur with task := wd p })))

/-- The general registers of a continuation slot, with the join value in the register that its SPAWNX named (R143, R151). -/
def slotRegs (s : State) (slot : Nat) (b : List Byte) : SMap Word :=
  let gs : SMap Word := [1, 2, 3, 4, 5].map (fun n => (n, wd (leAt b (16 + 8 * n) 8)))
  match s.joinDest.find? (fun e => e.1 == slot) with
  | some e => sset gs e.2 (wd (leAt b 96 8))
  | none => gs

/-- Dispatch a continuation entry on context `x` of core `c` (R147). One whose domain is gone retires; one whose task record fails
a check of R144 now, its domain among them, is aborted. Without a task record the context keeps the shadows it has (log 30). -/
def resumeCont (c x i : Nat) (slot : Nat) (s : State) : Except Blocked State :=
  withFocus c x s (fun s => do
    let (b, s) ← needBytes slot 128 s
    let t := leAt b 16 8
    let (r, s) ← if t = 0 then pure ([], s) else needBytes t 128 s
    let dom := leAt b 8 2
    let graph := if t = 0 then 0 else leAt r 72 8
    match s.dom? dom with
    | none => .ok ((s.dequeDrop c i).hwTry (.retire c slot (-1) (if t = 0 then none else some graph)))
    | some d =>
      let s := s.dequeDrop c i
      let s ← needPut (slot + 104) (leBytes 8 1) s
      let gs := slotRegs s slot b
      let s := { s with joinDest := sdel s.joinDest slot }
      let k := if t = 0 then s.cur.fresh else (s.cur.fresh).shadows r
      let s := s.setCur { k with
        g := gs, pc := wd (leAt b 0 8 / 4 * 4), kdom := BitVec.ofNat 16 dom, kfpe := kfpeMask (wd (leAt b 64 8))
        kscnt := wd (leAt b 72 8), kseed := wd (leAt b 80 8), kovf := wd (leAt b 112 4)
        kstat := mkStat (fieldN (leAt b 0 8) 1 1 == 1) false false d.rchk, slot := wd slot, graph := wd graph }
      if t = 0 then .ok s
      else if recOk r && recDom r == dom then loadFeet r (wd t) s
      else .ok (abortTask c x (wd t) (s.setCur { s.cur with task := wd t })))

/-- Dispatch the entry at place `i` of a deque, of either kind (R147). -/
def startEntry (c x i : Nat) (e : Word) (s : State) : Except Blocked State :=
  if e.getLsbD 0 then resumeCont c x i (alignDown e.toNat 128) s else startTask c x i e.toNat s

/-- The entry could be dispatched on context `x` of core `c` now. An entry that could not stays on its deque, and the
context may take other work (R147, R148). -/
def entryReady (s : State) (c x : Nat) (e : Word) : Bool :=
  match startEntry c x 0 e s with
  | .ok _ => true
  | .error _ => false

/-- The domain of an entry, though its record cannot be read (R147). -/
def State.entryDom (s : State) (e : Word) : Nat :=
  if e.getLsbD 0 then (s.slotDom (alignDown e.toNat 128)).getD 0 else sget 0 s.entered e.toNat

/-- The dispatcher's look at an entry: the home tile keeps what the read of its record walks (20 R434), and is asked for the page
that keeps the entry from being dispatched (R147). -/
def askEntry (c x : Nat) (s : State) (e : Word) : State :=
  let s := s.hvSeen (alignDown e.toNat 128)
  match startEntry c x 0 e s with
  | .error (.page va r cd) => s.faultedEngine (8 * (s.homeOf (segOf va)).getD 0) (s.entryDom e) va r cd
  | _ => s

/-- Ask for the pages that the entries of a core's deque need, on behalf of context `x` of core `c`. -/
def askDeque (c x v : Nat) (s : State) : State := (s.coreAt v).deque.foldl (askEntry c x) s

/-- The entry an idle context takes: of the domain it serves, highest priority, bottom-most, among the entries that are
ready (R146, R147). -/
def takeEntry (c x : Nat) (s : State) : Option (Nat × Word) :=
  if mayDispatch s c x then do
    let l := (s.coreAt c).deque
    let d ← pickDomain s ((entryDomains s (l.filter (entryReady s c x))).filter (fun d => !s.underReset d))
    bestEntry s d (entryReady s c x) false l
  else none

/-- One more free value drawn. -/
def State.drawn (s : State) : State := { s with freeCtr := s.freeCtr + 1 }

/-- An idle context of a core takes an entry, of the kind that `cont` names, from the core's deque (R146, R147). -/
def dispatch (cont : Bool) (core ctx : Nat) (s : State) : State :=
  let t := if mayDispatch s core ctx then askDeque core ctx core s.drawn else s.drawn
  match takeEntry core ctx s with
  | some (i, e) =>
    if e.getLsbD 0 == cont then match startEntry core ctx i e t with
      | .ok u => u
      | .error _ => t
    else t
  | none => t

/-- DISPATCH_TASK (R146, R147). -/
def execDispatchTask (core ctx : Nat) (s : State) : Host.Outcome State Fault Refusal :=
  hwStep (decide (core < 1024 ∧ ctx < 16)) s (dispatch false core ctx)

/-- DISPATCH_CONTINUATION (R146, R147). -/
def execDispatchContinuation (core ctx : Nat) (s : State) : Host.Outcome State Fault Refusal :=
  hwStep (decide (core < 1024 ∧ ctx < 16)) s (dispatch true core ctx)

/-! ### Steals (R146) -/

/-- The squares of the thief's district after its own, wrapping. -/
def districtOrder (q : Nat) : List Nat := (upTo 31).map (fun i => q / 32 * 32 + (q % 32 + 1 + i) % 32)

/-- The squares of the other districts after its own, wrapping. -/
def farOrder (q : Nat) : List Nat := ((upTo 127).map (fun i => (q + 1 + i) % 128)).filter (fun p => p / 32 != q / 32)

/-- The cores searched by a steal of core `c`, in order, as far as its setting reaches (R146, R159). -/
def victims (s : State) (c : Nat) : List Nat :=
  let q := squareOf c
  let l := c % 8
  let reach := ((s.coreAt c).steal.toNat) / 4
  let own := (upTo 7).map (fun i => q * 8 + (l + 1 + i) % 8)
  let whole (p : Nat) : List Nat := (upTo 8).map (fun i => p * 8 + (l + 1 + i) % 8)
  let far := (if 1 ≤ reach then districtOrder q else []) ++ (if 2 ≤ reach then farOrder q else [])
  (own ++ (far.map whole).flatten).filter (fun v => s.squareReady (squareOf v) && (s.coreAt v).steal.getLsbD 1)

/-- An entry that a thief, context `x` of core `c`, may take from core `v` (R145): one that waits for a page or for a
slot stays on its deque (R147). -/
def stealable (s : State) (c x v : Nat) (e : Word) : Bool :=
  (!e.getLsbD 1 || squareOf v == squareOf c) && entryReady s c x e

/-- A steal on behalf of idle context `x` of core `c` (R146): one entry moves to the bottom of the thief's deque, where other thieves
may take it in turn (log 74). -/
def stealFor (c x : Nat) (s : State) : State :=
  if !mayDispatch s c x || !(s.coreAt c).steal.getLsbD 0 then s
  else
    let vs := victims s c
    let s := vs.foldl (fun s v => askDeque c x v s) s
    let mine := entryDomains s ((s.coreAt c).deque.filter (entryReady s c x))
    let ds := (entryDomains s ((vs.map (fun v => (s.coreAt v).deque.filter (stealable s c x v))).flatten)).filter
      (fun d => !mine.contains d && !s.underReset d)
    match pickDomain s ds with
    | none => s
    | some d =>
      let t := s.drawn
      match vs.findSome? (fun v => (bestEntry s d (stealable s c x v) true (s.coreAt v).deque).map (fun p => (v, p))) with
      | none => t
      | some (v, i, e) => ((t.dequeDrop v i).pushBottom c e).getD t

/-- STEAL_REQUEST (R146). -/
def execStealRequest (core ctx : Nat) (s : State) : Host.Outcome State Fault Refusal :=
  hwStep (decide (core < 1024 ∧ ctx < 16)) s (stealFor core ctx)

end Sys2Proof.Machine
end

