-- ==== Sys2Proof/Machine/Transfer.lean ====
section
/-! DEFINITION. The transfer engine: copies, waits on copies, the stash query, gathers, scatters, fibres, migration of
continuations, and the engine's own steps (10 R261 to R281). -/
namespace Sys2Proof.Machine

/-! ### Records (R263, R275) -/

/-- A copy record. -/
structure CopyRec where
  base : Nat
  dir : Nat
  ch : Nat
  reuse : Nat
  origin : List Int
  ls : List Nat
  reserved : Bool
  deriving DecidableEq, Repr

/-- A copy record from its 32 bytes; `reserved` says that a reserved bit is set. -/
def parseCopy (b : List Byte) : CopyRec :=
  let w := leAt b 0 8
  ⟨fieldN w 0 19, fieldN w 32 2, fieldN w 34 4, fieldN w 38 2, (upTo 4).map (fun i => coord24 b (8 + 3 * i)),
   (upTo 3).map (fun i => leAt b (20 + 4 * i) 4), fieldN w 19 13 != 0 || fieldN w 40 24 != 0⟩

/-- The local bytes of a cell, which correspond to its global bytes in order (R263, R81). -/
def cellLocal (de : Desc) (base : Nat) (origin : List Int) (ls : List Nat) (x : List Int) : List Int :=
  let rel := (x.zip origin).map (fun p => p.1 - p.2)
  let row := ((rel.drop 1).zip ls).map (fun p => p.1 * (p.2 : Int))
  let bit := 8 * ((base : Int) + row.foldl (· + ·) 0) + (typeBits de.ty : Int) * rel.headD 0
  (upTo (cellBytes de x).length).map (fun (k : Nat) => bit / 8 + (k : Int))

/-- The pairs of local and global bytes of a cell. -/
def cellPairs (de : Desc) (base : Nat) (origin : List Int) (ls : List Nat) (x : List Int) : List (Int × Nat) :=
  (cellLocal de base origin ls x).zip (cellBytes de x)

/-- The delivery unit of a pair of bytes: a local block with dir 0, a global line otherwise (R265). -/
def pairUnit (dir : Nat) (p : Int × Nat) : Nat := if dir = 0 then p.1.toNat / 128 else p.2 / 128

/-- Steps 1 and 2 of R264 and the record's bytes; poisoned ones drop (20 R447). -/
def recordAt (x : Word) (s : State) : Except Stop (List Byte) :=
  if x.toNat % 8 ≠ 0 then misaligned x.toNat
  else if !isLocal x.toNat then prot x.toNat
  else localRead x.toNat 32 s

/-- Step 4 of R264 for one local byte offset; `wr` with dir 0. -/
def localByteGrant (wr : Bool) (o : Int) (s : State) : Except Stop Unit :=
  if o < 0 ∨ (2 ^ 19 : Int) ≤ o ∨ (!s.cur.sup && !s.core.userLocal o.toNat) ∨ (wr && inRange s.core.pool o.toNat) then
    prot (ofIntN 64 (0xFFFF000000000000 + o))
  else .ok ()

/-- Step 4 of R264 over bytes, lowest first. -/
def localBytesGrant (wr : Bool) (l : List Int) (s : State) : Except Stop Unit :=
  (l.foldl (fun (m : Option (Int × Stop)) o => match localByteGrant wr o s with
    | .ok _ => m
    | .error st => match m with
      | some (p, _) => if o < p then some (o, st) else m
      | none => some (o, st)) none).elim (.ok ()) (fun p => .error p.2)

/-- The region operand's descriptor with its PROT, and whether R249 holds of the region; none for a null region. -/
def regionDesc (q : Region) (s : State) : Run (Option (Desc × Bool) × State) :=
  if q.isNull then pure (none, s)
  else do
    let (b, s) ← descFetch q.handle s
    let d ← descParse s q.handle b
    pure (some (d, d.rank == q.rank), s)

/-- The hull cells of a region operand. -/
def Region.cells (q : Region) : List (List Int) := cellsOf q.rank q.boxes

/-- Reserve delivery units on a channel: the start mark (R265). -/
def reserve (ch n : Nat) (s : State) : Word × State :=
  let k := s.sqAt s.sq
  let c := k.chan ch
  (c.reserved, s.setSq s.sq { k with chans := sset k.chans ch { c with reserved := c.reserved + wd n } })

/-- Who a transfer command is when it accesses a tensor's lines, with its reuse class (R277). -/
def TCmd.agent (c : TCmd) : Agent := { c.hdr.agent with reuse := c.reuse }

/-- Append a transfer command. -/
def pushTransfer (c : TCmd) (s : State) : State :=
  let k := s.sqAt s.sq
  s.setSq s.sq { k with tq := k.tq ++ [c] }

/-! ### COPY (R264, R265) -/

/-- The checks of R264 on a region with cells; its delivery units. -/
def copyCells (r : CopyRec) (addr : Nat) (q : Region) (de : Desc) (okRank : Bool) (s : State) :
    Run (List Nat × State) := do
  if !okRank then fmtTrap (descAddr s s.kdom q.handle).1
  else
    let cells := q.cells
    let s ← (if r.dir = 1 then regionDest de cells s else regionSource de cells s)
    if !isLocal de.base.toNat then regionLocal (r.dir == 1) de cells s
    let pairs := (cells.map (cellPairs de r.base r.origin r.ls)).flatten
    localBytesGrant (r.dir == 0) (if r.dir < 2 then pairs.map (·.1) else []) s
    if r.reserved || r.dir == 3 || cells.any (fun x => (x.zip r.origin).any (fun p => decide (p.1 < p.2))) ||
        r.origin.headD 0 % (subUnit de.ty : Int) != 0 then fmtTrap addr
    else if isLocal de.base.toNat then fmtTrap (descAddr s s.kdom q.handle).1
    else pure (sortNats (pairs.map (pairUnit r.dir)), s)

/-- COPY (R264). -/
def execCopy (d a b : BitVec 6) (s : State) : Host.Outcome State Fault Refusal :=
  guardedRun (.copy d a b) s (fun s => do
    let (x, s) ← readReg b.toNat s
    let rb ← recordAt x s
    let r := parseCopy rb
    let q := s.qreg a.toNat
    let (de, s) ← regionDesc q s
    let (units, s) ← (match de with
      | some (de, okRank) =>
        if q.boxes.isEmpty then
          if r.reserved || r.dir == 3 then fmtTrap x.toNat
          else if !okRank then fmtTrap (descAddr s s.kdom q.handle).1
          else pure ([], s)
        else copyCells r x.toNat q de okRank s
      | none => if r.reserved || r.dir == 3 then fmtTrap x.toNat else pure ([], s))
    let (h, s) ← appendCmd 0 (some q) s
    let (mark, s) := reserve r.ch units.length s
    let s := if r.dir = 1 then s.own h.ord (units.filter (fun l => isGlobal (128 * l))) else s
    let s := pushTransfer
      { hdr := h, kind := .copy, ch := r.ch, region := q, desc := de.map (·.1), desc2 := none,
        begun := false, kcpool := s.core.kcpool, kmap := s.core.kmap, dir := r.dir, base := r.base, origin := r.origin, ls := r.ls, reuse := r.reuse, mark := mark,
        units := units, done := 0, index := none, run := 1, seen := [], slot := 0, target := 0, ship := none, dead := false } s
    writeReg d.toNat mark s)

/-! ### Channel heads and progress -/

/-- The oldest command on a channel, which alone may run (R261). -/
def Square.channelHead (k : Square) (ch : Nat) : Option TCmd :=
  k.tq.find? (fun c => c.ch == ch && c.kind != .migr)

/-- Replace the command with an append number. -/
def Square.setTq (k : Square) (c : TCmd) : Square :=
  { k with tq := k.tq.map (fun x => if x.hdr.ord = c.hdr.ord then c else x) }

/-- Saturating addition to a status field (R262). -/
def satAdd (x : BitVec 32) (n : Nat) : BitVec 32 := BitVec.ofNat 32 (min (x.toNat + n) 0xFFFFFFFF)

/-- The command is complete (R13, R16): it leaves the queue. -/
def leaveQueue (q : Nat) (c : TCmd) (s : State) : State :=
  let k := s.sqAt q
  (s.setSq q { k with tq := k.tq.filter (fun x => x.hdr.ord != c.hdr.ord) }).completeCmd 0 c.hdr

/-- The commands at a channel's head that a domain reset has discarded, and that count as complete since then: each passes the
units it still has, and leaves the queue (R267, 21 R456). The first number bounds them. -/
def passDead (q ch : Nat) : Nat → State → State
  | 0, s => s
  | n + 1, s =>
    let k := s.sqAt q
    match k.channelHead ch with
    | none => s
    | some c =>
      if !c.dead then s
      else
        let h := k.chan ch
        let h := { h with delivered := h.delivered + wd (c.units.length - c.done) }
        passDead q ch n (s.setSq q { k with
          chans := sset k.chans ch h, tq := k.tq.filter (fun x => x.hdr.ord != c.hdr.ord) })

/-- The command is complete; what it kept from starting on its channel goes on. -/
def finishTransfer (q : Nat) (c : TCmd) (s : State) : State :=
  let s := leaveQueue q c s
  passDead q c.ch ((s.sqAt q).tq.length + 1) s

/-- One more unit lies below the write pointer; after the last the command is complete (R265). `oor` and `fail` count
it in the status word. -/
def advance (q : Nat) (c : TCmd) (oor fail : Nat) (s : State) : State :=
  let k := s.sqAt q
  let h := k.chan c.ch
  let h := { h with delivered := h.delivered + 1, oor := satAdd h.oor oor, fail := satAdd h.fail fail }
  let k := { k with chans := sset k.chans c.ch h }
  let c := { c with done := c.done + 1 }
  let s := s.setSq q (k.setTq c)
  if c.units.length ≤ c.done then finishTransfer q c s else s

/-- A local destination byte has since become a stash or chain pool range (R267). -/
def TCmd.moved (c : TCmd) (k : Core) (o : Nat) : Bool :=
  let old : Core := { k with kcpool := c.kcpool, kmap := c.kmap }
  (inRange k.pool o && !inRange old.pool o) || (inRange k.stashRange o && !inRange old.stashRange o)

/-- A byte among some addresses is such a local one. -/
def TCmd.movedAt (c : TCmd) (k : Core) (l : List Nat) : Bool := l.any (fun b => isLocal b && c.moved k (localOff b))

/-! ### Hot lines (R277) -/

/-- A line touched with class 3 counts at its home tile, and is pinned at 32 while the partition has room. -/
def touchHot (line : Nat) (s : State) : State :=
  match s.homeOf (segOf (128 * line)) with
  | none => s
  | some q =>
    let k := s.sqAt q
    let n := min (sget 0 k.hot line + 1) 255
    let pin := decide (32 ≤ n) && !k.pinned.contains line && decide (k.pinned.length < 12288)
    s.setSq q { k with hot := sset k.hot line n, pinned := if pin then line :: k.pinned else k.pinned }

/-- The lines a unit touched, for reuse class 3. -/
def touchReuse (reuse : Nat) (addrs : List Nat) (s : State) : State :=
  if reuse = 3 then (linesOf addrs).foldl (fun s l => touchHot l s) s else s

/-- REUSE_COUNT_HALVING (R277). -/
def execReuseCountHalving (sq : Nat) (s : State) : Host.Outcome State Fault Refusal :=
  hwStep (decide (sq < 128)) s (fun s =>
    let k := s.sqAt sq
    let hot := (k.hot.map (fun p => (p.1, p.2 / 2))).filter (fun p => p.2 != 0)
    s.setSq sq { k with hot := hot, pinned := k.pinned.filter (fun l => decide (16 ≤ sget 0 hot l)) })

/-! ### Delivery of a copy's unit (R265) -/

/-- A cell's row in a ragged region's length table. -/
def Region.rowOf (q : Region) (x : List Int) : Nat := (findIdx? (· == x.getD 1 0) q.rows).getD 0

/-- The lowest coordinate of a ragged region's dimension 0. -/
def Region.lo0 (q : Region) : Int := ((q.boxes.headD []).headD ⟨0, 1, 1⟩).lo

/-- The cells that a region with its lengths applied holds among those given; each row's length is read once (R18). -/
def applied (a : Agent) (core : Nat) (q : Region) (cells : List (List Int)) (s : State) :
    Except EStop (List (List Int) × State) :=
  if !q.rg then .ok (cells, s)
  else do
    let (lens, s) ← (sortNats (cells.map q.rowOf)).foldlM (fun (p : SMap Nat × State) k => do
      let (b, s) ← agentRead a core ((q.table.toNat + 4 * k) % 2 ^ 64) 4 p.2
      pure (sset p.1 k (ofBytes b), s)) (([] : SMap Nat), s)
    pure (cells.filter (fun x => decide (x.headD 0 < q.lo0 + ((sget 0 lens (q.rowOf x) : Nat) : Int))), s)

/-- How many entries a core's stash has (R271). -/
def Core.stashSize (k : Core) : Nat := (k.stashRange.2 - k.stashRange.1) / 128

/-- Place a line in a core's stash of some size: its own entry, a free one, or the oldest one's place, whose data is written back
first when it is dirty (R272). -/
def stashPlace (c line dom : Nat) (s : State) : StashEntry × State :=
  match (s.coreAt c).stashFor line dom with
  | some e => (e, s)
  | none =>
    let k := s.coreAt c
    if k.stash.length < k.stashSize then
      let slot := ((upTo k.stashSize).find? (fun i => !(k.stash.any (fun e => e.slot == i)))).getD 0
      let e : StashEntry := ⟨line, dom, slot, false, false, false⟩
      (e, s.setCore c { k with stash := k.stash ++ [e] })
    else
      let s := match k.stash.head? with
        | some e => if e.d then s.giveBack c e else s
        | none => s
      let k := s.coreAt c
      let e : StashEntry := ⟨line, dom, (k.stash.head?.map (·.slot)).getD 0, false, false, false⟩
      (e, s.setCore c { k with stash := k.stash.drop 1 ++ [e] })

/-- Fill the stash with one line (R272). A stash of size 0 takes nothing, and the line is not touched. -/
def stashUnit (c : TCmd) (line : Nat) (s : State) : Except EStop State :=
  if (s.coreAt c.hdr.core).stashSize = 0 then .ok s
  else do
    let (pa, s) ← engineAt c.agent false (128 * line) s
    let (e, s) := stashPlace c.hdr.core line c.hdr.dom s
    pure (touchReuse c.reuse [128 * line] (fillEntry s c.hdr.core e pa))

/-- Write one unit of a copy (R265). -/
def copyUnit (c : TCmd) (de : Desc) (u : Nat) (s : State) : Except EStop State := do
  let pairsOf (x : List Int) := cellPairs de c.base c.origin c.ls x
  let here := c.region.cells.filter (fun x => (pairsOf x).any (fun p => pairUnit c.dir p == u))
  let (cells, s) ← applied c.hdr.agent c.hdr.core c.region here s
  let ps := (cells.map (fun x => (pairsOf x).filter (fun p => pairUnit c.dir p == u))).flatten
  if ps.isEmpty then pure s
  else if c.dir = 0 then
    if ps.any (fun p => c.moved (s.coreAt c.hdr.core) p.1.toNat) then .error (.abandon none)
    else
      let (b, s) ← engineGather c.agent c.hdr.core (ps.map (·.2)) s
      let s := s.localMasked c.hdr.core ((ps.zip b).map (fun p => (p.1.1.toNat, p.2)))
      pure (touchReuse c.reuse (ps.map (·.2)) s)
  else if c.dir = 1 then
    let k := s.coreAt c.hdr.core
    if ps.any (fun p => k.poisoned p.1.toNat 1) || c.movedAt k (ps.map (·.2)) then .error (.abandon none)
    let s ← engineScatter c.agent c.hdr.core (ps.map (fun p => (p.2, memGet k.mem p.1.toNat))) s
    pure (touchReuse c.reuse (ps.map (·.2)) s)
  else stashUnit c u s

/-- A command reads its region's descriptor again when it begins, and executes with that one (09 R233). -/
def startTransfer (q : Nat) (c : TCmd) (s : State) : Except EStop (TCmd × State) :=
  if c.begun then .ok (c, s)
  else do
    let (d, s) ← (if c.desc.isSome then execDesc c.hdr.agent c.region s else pure (none, s))
    let c := { c with begun := true, desc2 := d }
    pure (c, s.setSq q ((s.sqAt q).setTq c))

/-- The next step of a command at a channel's head: it delivers a unit under `f`, fails it, or completes when it has
none. -/
def unitStep (q : Nat) (c : TCmd) (f : TCmd → Desc → Nat → State → Except EStop State) (s : State) : State :=
  match c.units[c.done]? with
  | none => finishTransfer q c s
  | some u =>
    let fail (c : TCmd) (s : State) : State := advance q c 0 1 (if c.kind = .copy then s.disown c.hdr.ord u else s)
    match startTransfer q c s with
    | .error e => engineStep c.hdr.core c.hdr.agent (fail c) s (.error e)
    | .ok (c, s) =>
      match c.desc2 with
      | none => fail c s
      | some de => engineStep c.hdr.core c.hdr.agent (fail c) s (f c de u s)

/-- The channel whose turn it is: the next with a command, after the one that delivered last (R261). -/
def Square.turnOf (k : Square) : Option Nat :=
  ((upTo 16).map (fun i => (k.trr + 1 + i) % 16)).find? (fun ch => (k.channelHead ch).isSome)

/-- A step of a channel in its turn, for a command of kind `kind`: one unit, or what keeps it from one (R261). -/
def inTurn (kind : TKind) (q ch : Nat) (f : State → State) (s : State) : State :=
  let k := s.sqAt q
  if k.turnOf = some ch && (k.channelHead ch).any (fun c => c.kind == kind) then f (s.setSq q { k with trr := ch }) else s

/-- The next step of the copy at a channel's head. -/
def copyStep (q ch : Nat) (s : State) : State :=
  match (s.sqAt q).channelHead ch with
  | none => s
  | some c =>
    if c.kind ≠ .copy then s
    else unitStep q c (fun c de u s => (copyUnit c de u s).map (fun t => advance q c 0 0 (t.disown c.hdr.ord u))) s

/-- COPY_UNIT_DELIVERY (R265). -/
def execCopyUnitDelivery (sq ch : Nat) (s : State) : Host.Outcome State Fault Refusal :=
  hwStep (decide (sq < 128 ∧ ch < 16)) s (inTurn .copy sq ch (copyStep sq ch))

/-! ### CWP, CWAIT, TSEQ (R268 to R270) -/

/-- CWP (R268). -/
def execCwp (d a : BitVec 6) (s : State) : Host.Outcome State Fault Refusal :=
  guarded (.cwp d a) s (fun s => do
    let (x, s) ← readReg a.toNat s
    let c := (s.sqAt s.sq).chan (bitsW x 3 0)
    writeReg d.toNat (if bitW x 8 then wd (c.fail.toNat * 2 ^ 32 + c.oor.toNat) else c.delivered) s)

/-- A line is resident in a core's stash for a domain (R274). -/
def Core.stashHas (k : Core) (dom line : Nat) : Bool := (k.stashFor line dom).any (·.f)

/-- A cell is resident in the executing core's stash (R274). -/
def cellResident (s : State) (de : Desc) (x : List Int) : Bool :=
  (linesOf (cellBytes de x)).all (s.core.stashHas s.kdom)

/-- The descriptor a command works from now (09 R233). -/
def TCmd.current (c : TCmd) : Option Desc := if c.begun then c.desc2 else c.desc

/-- A command still has a unit at or above its progress that holds one of some global bytes. Which bytes of its region a unit
of a gather or scatter holds is known only once its index is read, so all its units count for them (log 60). -/
def TCmd.holds (c : TCmd) (bytes : List Nat) : Bool :=
  !c.dead && match c.kind, c.current with
  | .copy, some de =>
    (c.region.cells.any (fun x => (cellPairs de c.base c.origin c.ls x).any (fun p =>
      (bytes.contains p.2) && ((c.units.drop c.done).contains (pairUnit c.dir p)))))
  | .copy, none => false
  | .migr, _ => false
  | _, some de => decide (c.done < c.units.length) &&
    c.region.cells.any (fun x => (cellBytes de x).any (fun b => bytes.contains b))
  | _, none => false

/-- Every command of a core on a channel, appended before append number `ord`, has delivered what it holds of some global
bytes (R269, R295). -/
def bytesDelivered (s : State) (core ch ord : Nat) (bytes : List Nat) : Bool :=
  ((s.sqAt (squareOf core)).tq.filter (fun c => c.hdr.core == core && c.ch == ch && decide (c.hdr.ord < ord))).all
    (fun c => !c.holds bytes)

/-- The append number before which a CWAIT on a channel looks: that of its first issue, while it waits (R269). -/
def cwaitOrd (s : State) (ch : Nat) : Nat :=
  match s.cur.st with
  | .completing (.region c n) => if c = ch then n else s.appends
  | _ => s.appends

/-- CWAIT (R269). -/
def execCwait (a b : BitVec 6) (s : State) : Host.Outcome State Fault Refusal :=
  guardedRun (.cwait a b) s (fun s => do
    let (x, s) ← readReg b.toNat s
    let q := s.qreg a.toNat
    let ch := bitsW x 3 0
    if q.isNull then pure s
    else
      let (de, s) ← operandDesc q s
      let n := cwaitOrd s ch
      if q.cells.all (fun c => cellResident s de c || bytesDelivered s s.focus.core ch n (cellBytes de c)) then pure s
      else throw (.wait (.region ch n)))

/-- TSEQ (R270). -/
def execTseq (d a : BitVec 6) (s : State) : Host.Outcome State Fault Refusal :=
  guarded (.tseq d a) s (fun s => do
    let (x, s) ← readReg a.toNat s
    writeReg d.toNat (wd (s.completedOf 0 (bitsW x 2 0))) s)

/-- TSEQ.wt (R270). -/
def execTseqWt (a b : BitVec 6) (s : State) : Host.Outcome State Fault Refusal :=
  guarded (.tseqWt a b) s (waitSeq 0 a b)

/-! ### PRES (R274) -/

/-- PRES (R274): the resident cells of qa, finished in qa's mode; exact unless COVER merges. -/
def execPres (d a : BitVec 6) (s : State) : Host.Outcome State Fault Refusal :=
  guardedRun (.pres d a) s (fun s => do
    let q := s.qreg a.toNat
    if q.isNull then pure (s.setQ d.toNat Region.null)
    else if q.rg && q.tableBad then misaligned q.table.toNat
    else
      let (b, s) ← descFetch q.handle s
      let (boxes, s) ← (if q.rg then do
          let (ls, s) ← loadLens q.table q.rows.length s
          pure (raggedBoxes q (fun k => ls.getD k 0), s)
        else pure (q.boxes, s))
      let de ← checkDesc q b s
      let cells := (cellsOf q.rank boxes).filter (cellResident s de)
      let r ← finishUnion d.toNat q.handle false q.cover de (cells.map (fun x => x.map (fun v => Dim.mk v (v + 1) 1)))
      pure (s.setQ d.toNat r))

/-! ### GATH and SCAT (R275, R276) -/

/-- A gather record. -/
structure GathRec where
  base : Nat
  ch : Nat
  reuse : Nat
  run : Nat
  index : Nat
  reserved : Bool
  deriving DecidableEq, Repr

/-- A gather record from its 32 bytes. -/
def parseGath (b : List Byte) : GathRec :=
  let w := leAt b 0 8
  ⟨fieldN w 0 19, fieldN w 34 4, fieldN w 38 2, fieldN w 40 16 + 1, leAt b 8 8,
   fieldN w 19 15 != 0 || fieldN w 56 8 != 0 || leAt b 16 16 != 0⟩

/-- An index array holds n32 or n64. -/
def indexType (t : Nat) : Bool := t == 22 || t == 23

/-- Read the index shape record (R275): 32-aligned, in local memory where the mode may read it. -/
def indexShape (x : Nat) (s : State) : Except Stop Shape :=
  if x % 32 ≠ 0 then misaligned x
  else if !isLocal x then prot x
  else do
    localCheck false x 32 s
    let h ← shapeAt x s
    if !h.bad indexType false false && h.misaligned then misaligned h.base.toNat else pure h

/-- GATH and SCAT: `out` for SCAT. Of a null region R276 does not say whether its c index units are reserved, zero-filled and
counted, for no tensor gives an element size; the model reserves none and writes nothing (log 60). -/
def gather (out : Bool) (d a b : BitVec 6) (s : State) : Run State := do
  let (x, s) ← readReg b.toNat s
  let rb ← recordAt x s
  let r := parseGath rb
  let h ← indexShape r.index s
  let q := s.qreg a.toNat
  let (de, s) ← regionDesc q s
  let bad := h.bad indexType false false
  let n := if bad then 0 else h.count
  let s ← (match de with
    | some (de, true) => do
      let s ← (if out then regionDest de q.cells s else regionSource de q.cells s)
      regionLocal out de q.cells s
      pure s
    | _ => pure s)
  let size := match de with
    | some (de, _) => typeBytes de.ty
    | none => 0
  localBytesGrant (!out) ((upTo (n * r.run * size)).map (fun (i : Nat) => ((r.base + i : Nat) : Int))) s
  if r.reserved || (de.any (fun p => isSub p.1.ty)) then fmtTrap x.toNat
  else if bad then fmtTrap r.index
  else if de.any (fun p => !p.2) then fmtTrap (descAddr s s.kdom q.handle).1
  else
    let (hd, s) ← appendCmd 0 (some q) s
    let units := if de.isSome then upTo n else []
    let (mark, s) := reserve r.ch units.length s
    let s := match out, de with
      | true, some (de, _) => s.own hd.ord (linesOf (((cellSpan de q.cells).map (·.2)).filter isGlobal))
      | _, _ => s
    let s := pushTransfer
      { hdr := hd, kind := if out then .scat else .gath, ch := r.ch, region := q, desc := de.map (·.1),
        desc2 := none, begun := false, kcpool := s.core.kcpool, kmap := s.core.kmap, dir := if out then 1 else 0, base := r.base, origin := [], ls := [],
        reuse := r.reuse, mark := mark, units := units, done := 0, index := some h, run := r.run, seen := [], slot := 0,
        target := 0, ship := none, dead := false } s
    writeReg d.toNat mark s

/-- GATH (R276). -/
def execGath (d a b : BitVec 6) (s : State) : Host.Outcome State Fault Refusal :=
  guardedRun (.gath d a b) s (gather false d a b)

/-- SCAT (R276). -/
def execScat (d a b : BitVec 6) (s : State) : Host.Outcome State Fault Refusal :=
  guardedRun (.scat d a b) s (gather true d a b)

/-- The cells of the run of index `v`; none when it leaves the tensor (R275). -/
def runCells (de : Desc) (run v : Nat) : Option (List (List Int)) :=
  let dims := de.bounds
  let x := (dims.foldl (fun (p : List Nat × Nat) n => (p.1 ++ [p.2 % max n 1], p.2 / max n 1)) ([], v)).1
  let x0 := x.headD 0
  if dims.foldl (· * ·) 1 ≤ v ∨ dims.headD 1 < x0 + run then none
  else some ((upTo run).map (fun (i : Nat) => ((x0 + i : Nat) : Int) :: (x.drop 1).map (fun (n : Nat) => (n : Int))))

/-- Read the value of index element `e` (R276): an ordinary load of the issuing core. -/
def indexValue (c : TCmd) (h : Shape) (e : Nat) (s : State) : Except EStop (Nat × State) :=
  let a := h.elAddr e
  if isLocal a && !c.hdr.sup && !(s.coreAt c.hdr.core).userLocal (localOff a) then .error (.abandon none)
  else do
    let (b, s) ← agentRead c.hdr.agent c.hdr.core a (typeBytes h.ty) s
    pure (ofBytes b, s)

/-- The cells of an element's run where all of them lie in cells(qa). -/
def runInside (c : TCmd) (de : Desc) (v : Nat) (s : State) : Except EStop (Option (List (List Int)) × State) :=
  match runCells de c.run v with
  | none => .ok (none, s)
  | some cells =>
    if cells.all (cellIn c.region.boxes) then do
      let (l, s) ← applied c.hdr.agent c.hdr.core c.region cells s
      pure (if l.length = cells.length then some cells else none, s)
    else .ok (none, s)

/-- One element of a gather or scatter: the state, and whether it was out of range (R276, R134). The gather remembers
what it read by index. -/
def elementUnit (c : TCmd) (de : Desc) (h : Shape) (s : State) : Except EStop (Bool × TCmd × State) := do
  let (v, s) ← indexValue c h c.done s
  let size := c.run * typeBytes de.ty
  let place := c.base + c.done * size
  let (cells, s) ← runInside c de v s
  match cells with
  | none =>
    if c.kind = .scat then pure (true, c, s)
    else if (upTo size).any (fun i => c.moved (s.coreAt c.hdr.core) (place + i)) then .error (.abandon none)
    else pure (true, c, s.localPut c.hdr.core place (leBytes size 0))
  | some cells =>
    let bytes := (cells.map (cellBytes de)).flatten
    if c.kind = .scat then
      let b ← engineLocal c.hdr.core place size s
      if c.movedAt (s.coreAt c.hdr.core) bytes then .error (.abandon none)
      let s ← engineScatter c.agent c.hdr.core (bytes.zip b) s
      pure (false, c, touchReuse c.reuse bytes s)
    else if (upTo size).any (fun i => c.moved (s.coreAt c.hdr.core) (place + i)) then .error (.abandon none)
    else
      let (b, s) ← (if c.seen.any (fun p => p.1 == v) then pure (sget [] c.seen v, s)
        else engineGather c.agent c.hdr.core bytes s)
      pure (false, { c with seen := sset c.seen v b }, touchReuse c.reuse bytes (s.localPut c.hdr.core place b))

/-- The next step of the gather or scatter at a channel's head. -/
def elementStep (kind : TKind) (q ch : Nat) (s : State) : State :=
  match (s.sqAt q).channelHead ch with
  | none => s
  | some c =>
    if c.kind ≠ kind then s
    else match c.index with
      | none => s
      | some h =>
        unitStep q c (fun c de _ s =>
          (elementUnit c de h s).map (fun r => advance q r.2.1 (if r.1 then 1 else 0) 0 r.2.2)) s

/-- GATHER_ELEMENT_DELIVERY (R276). -/
def execGatherElementDelivery (sq ch : Nat) (s : State) : Host.Outcome State Fault Refusal :=
  hwStep (decide (sq < 128 ∧ ch < 16)) s (inTurn .gath sq ch (elementStep .gath sq ch))

/-- SCATTER_ELEMENT_WRITE (R276). -/
def execScatterElementWrite (sq ch : Nat) (s : State) : Host.Outcome State Fault Refusal :=
  hwStep (decide (sq < 128 ∧ ch < 16)) s (inTurn .scat sq ch (elementStep .scat sq ch))

/-! ### Fibres and streams (R278, R279) -/

/-- Fibre register `n` of the executing context. -/
def State.freg (s : State) (n : Nat) : Fibre := sget Fibre.closed s.cur.f n

/-- Write a fibre register. -/
def State.setF (s : State) (n : Nat) (v : Fibre) : State := s.setCur { s.cur with f := sset s.cur.f n v }

/-- An open fibre register, or ILL (R278). -/
def openFibre (n : Nat) (s : State) : Except Stop Fibre := if (s.freg n).isOpen then .ok (s.freg n) else ill s

/-- FOPEN (R279). -/
def execFopen (d a : BitVec 6) (s : State) : Host.Outcome State Fault Refusal :=
  guardedRun (.fopen d a) s (fun s => do
    let (x, s) ← readReg a.toNat s
    if x.toNat % 8 ≠ 0 then misaligned x.toNat
    else
      let (b, s) ← loadSpan x.toNat 32 s
      let w := leAt b 24 8
      let stream := fieldN w 0 1 == 1
      let size := fieldN w 1 2
      let cur := leAt b 0 8
      let val := leAt b 8 8
      let left := leAt b 16 4
      if !stream && cur % 4 != 0 then misaligned cur
      else if !stream && val % 2 ^ size != 0 then misaligned val
      else if leAt b 20 4 ≠ 0 ∨ fieldN w 3 61 ≠ 0 then fmtTrap x.toNat
      else
        let (co, s) ← (if !stream && left != 0 then loadV cur 4 s else pure (0, s))
        pure (s.setF d.toNat ⟨wd cur, wd val, left, co, stream, size, true⟩))

/-- Advance by one entry: the next coordinate is read for a fibre, counted for a stream. -/
def Fibre.advanced (f : Fibre) (s : State) : Run (Fibre × State) :=
  if f.stream then
    pure ({ f with cur := f.cur + f.val, coord := (f.coord + 1) % 2 ^ 32, left := f.left - 1 }, s)
  else do
    let cur := f.cur + 4
    let (co, s) ← loadV cur.toNat 4 s
    pure ({ f with cur := cur, val := f.val + wd (2 ^ f.size), coord := co, left := f.left - 1 }, s)

/-- FNEXT (R279). -/
def execFnext (d a : BitVec 6) (s : State) : Host.Outcome State Fault Refusal :=
  guardedRun (.fnext d a) s (fun s => do
    let f ← openFibre a.toNat s
    if f.left ≤ 1 then writeReg d.toNat (-1) (s.setF a.toNat { f with left := 0 })
    else
      let (f, s) ← f.advanced s
      writeReg d.toNat (wd f.coord) (s.setF a.toNat f))

/-- The first entry at or after the current one whose coordinate reaches a key; the number bounds the search. -/
def fibreSeek (key : Nat) : Nat → Fibre → State → Run (Option Fibre × State)
  | 0, _, s => pure (none, s)
  | n + 1, f, s =>
    if f.left = 0 then pure (none, s)
    else if key ≤ f.coord then pure (some f, s)
    else if f.left = 1 then pure (none, s)
    else do
      let (f, s) ← f.advanced s
      fibreSeek key n f s

/-- A stream's index becomes the greater of itself and the key. -/
def streamSeek (key : Nat) (f : Fibre) : Option Fibre :=
  let n := key - f.coord
  if f.left ≤ n then none
  else some { f with cur := f.cur + wd n * f.val, coord := f.coord + n, left := f.left - n }

/-- FNEXTGE (R279). -/
def execFnextge (d a b : BitVec 6) (s : State) : Host.Outcome State Fault Refusal :=
  guardedRun (.fnextge d a b) s (fun s => do
    let f ← openFibre a.toNat s
    let (x, s) ← readReg b.toNat s
    let key := bitsW x 31 0
    let (r, s) ← (if f.stream then pure (streamSeek key f, s) else fibreSeek key (f.left + 1) f s)
    match r with
    | some f => writeReg d.toNat (wd f.coord) (s.setF a.toNat f)
    | none => writeReg d.toNat (-1) (s.setF a.toNat { f with left := 0 }))

/-- FEND (R279). -/
def execFend (d a : BitVec 6) (s : State) : Host.Outcome State Fault Refusal :=
  guarded (.fend d a) s (fun s => do
    let f ← openFibre a.toNat s
    writeReg d.toNat (if f.left = 0 then 0 else if f.stream then f.cur else f.val) s)

/-- FCLOSE (R279). The word's one check is its register's number. -/
def execFclose (a : BitVec 6) (s : State) : Host.Outcome State Fault Refusal :=
  finish s (if 7 < a.toNat then ill s else .ok (s.setF a.toNat Fibre.closed))

/-! ### Migration of a continuation (R280) -/

/-- MIGR (R280). -/
def execMigr (a : BitVec 6) (s : State) : Host.Outcome State Fault Refusal :=
  guardedRun (.migr a) s (fun s => unlessOpen s (fun s => do
    let (x, s) ← readReg a.toNat s
    let s ← vsyncWait s
    if !isGlobal x.toNat then prot x.toNat
    else
      let s ← byteGrant needR none x.toNat x.toNat s
      let s ← release s
      let (w, s) ← slotW s
      let slot := s.cur.slot
      let s ← saveCont 3 w s
      let (h, s) ← appendCmd 0 none s
      let s := pushTransfer
        { hdr := h, kind := .migr, ch := 0, region := Region.null, desc := none, desc2 := none,
          begun := false, kcpool := s.core.kcpool, kmap := s.core.kmap, dir := 0, base := 0, origin := [], ls := [], reuse := 0,
          mark := 0, units := [], done := 0, index := none, run := 0, seen := [], slot := slot, target := x, ship := s.homeOf (segOf x.toNat), dead := false } s
      pure (leaveCur s)))

/-- The core of square `q` that takes a shipped continuation: the first from a number upward with an idle context, else the core
of that number. An idle context runs for no domain, and takes the entries of every one (R146; log 82). -/
def shipCore (s : State) (q n : Nat) : Nat :=
  let cores := (upTo 8).map (fun i => q * 8 + (n + i) % 8)
  (cores.find? (fun c => (upTo (s.coreAt c).nctx).any (fun x => (s.ctxAt c x).st == .idle))).getD (q * 8 + n)

/-- Ship the oldest migrating continuation of core `core` of square `q` (R280). It waits while the deque it goes to has
no room. -/
def shipStep (q core : Nat) (s : State) : State :=
  match (s.sqAt q).tq.find? (fun c => c.kind == .migr && c.hdr.core == q * 8 + core) with
  | none => s
  | some c =>
    let pushed := match c.ship with
      | some h =>
        if s.squareReady h then
          s.pushBottom (shipCore s h (bitsW c.target 9 7)) (contEntry c.slot.toNat true)
        else s.pushBottom c.hdr.core (contEntry c.slot.toNat false)
      | none => s.pushBottom c.hdr.core (contEntry c.slot.toNat false)
    match pushed with
    | some s => finishTransfer q c s
    | none => s

/-- MIGRATION_SHIP (R280). -/
def execMigrationShip (sq core : Nat) (s : State) : Host.Outcome State Fault Refusal :=
  hwStep (decide (sq < 128 ∧ core < 8)) s (shipStep sq core)

end Sys2Proof.Machine
end

