-- ==== Sys2Proof/Machine/Vector.lean ====
section
/-! DEFINITION. The vector sequencer: entries and their checks, what each entry computes, loops, VSYNC, VTBL, and the
sequencer's own steps (12 R286 to R315). -/
namespace Sys2Proof.Machine

/-! ### What an entry instruction says (R298 to R308) -/

/-- What an entry computes. -/
inductive VKind where
  | add (rm : Nat) | sub (rm : Nat) | mul (rm : Nat) | fma (rm : Nat)
  | pick (max : Bool) | abs | neg | and | or | xor | shl | shr
  | cmp (cond : Nat) | sel | bcast | iota | cvt (variant : Nat) | fn (f : SpFn)
  | red (op : Nat) | scan (op : Nat) (exc : Bool)
  deriving DecidableEq, Repr

/-- An entry instruction's fields: its kind, the destination's and ha's types, its shape registers, its mask field. For
VCMP `dst` is a mask register. -/
structure VForm where
  kind : VKind
  t : Nat
  src : Nat
  dst : Nat
  a : Option Nat
  b : Option Nat
  mask : Nat
  deriving DecidableEq, Repr

/-- Two sources of the destination's type. -/
def formAB (k : VKind) (h a b : BitVec 4) (m : BitVec 3) (t : BitVec 6) : VForm :=
  ⟨k, t.toNat, t.toNat, h.toNat, some a.toNat, some b.toNat, m.toNat⟩

/-- One source of the destination's type. -/
def formA (k : VKind) (h a : BitVec 4) (m : BitVec 3) (t : BitVec 6) : VForm :=
  ⟨k, t.toNat, t.toNat, h.toNat, some a.toNat, none, m.toNat⟩

/-- The form of an entry instruction (R286). -/
def vform : Instr → Option VForm
  | .vadd h a b m r t => some (formAB (.add r.toNat) h a b m t)
  | .vsub h a b m r t => some (formAB (.sub r.toNat) h a b m t)
  | .vmul h a b m r t => some (formAB (.mul r.toNat) h a b m t)
  | .vfma h a b m r t => some (formAB (.fma r.toNat) h a b m t)
  | .vmin h a b m t => some (formAB (.pick false) h a b m t)
  | .vmax h a b m t => some (formAB (.pick true) h a b m t)
  | .vabs h a m t => some (formA .abs h a m t)
  | .vneg h a m t => some (formA .neg h a m t)
  | .vand h a b m t => some (formAB .and h a b m t)
  | .vor h a b m t => some (formAB .or h a b m t)
  | .vxor h a b m t => some (formAB .xor h a b m t)
  | .vshl h a b m t => some (formAB .shl h a b m t)
  | .vshr h a b m t => some (formAB .shr h a b m t)
  | .vcmp h a b m c t => some (formAB (.cmp c.toNat) h a b m t)
  | .vsel h a b k t => some (formAB .sel h a b k t)
  | .vcvt h a sr m v t => some { formA (.cvt v.toNat) h a m t with src := sr.toNat }
  | .vcvtHi h a sr m v t => some { formA (.cvt v.toNat) h a m t with src := 16 + sr.toNat }
  | .vbcast h _ m t => some { formA .bcast h 0 m t with a := none }
  | .viota h m t => some { formA .iota h 0 m t with a := none }
  | .vredAdd h a m t => some (formA (.red 0) h a m t)
  | .vredMax h a m t => some (formA (.red 1) h a m t)
  | .vredMin h a m t => some (formA (.red 2) h a m t)
  | .vscanInc h a k t => some (formA (.scan 0 false) h a k t)
  | .vscanMaxinc h a k t => some (formA (.scan 1 false) h a k t)
  | .vscanMininc h a k t => some (formA (.scan 2 false) h a k t)
  | .vscanExc h a k t => some (formA (.scan 0 true) h a k t)
  | .vscanMaxexc h a k t => some (formA (.scan 1 true) h a k t)
  | .vscanMinexc h a k t => some (formA (.scan 2 true) h a k t)
  | .vrcp h a m t => some (formA (.fn .rcp) h a m t)
  | .vrsq h a m t => some (formA (.fn .rsq) h a m t)
  | .vsqrt h a m t => some (formA (.fn .sqrt) h a m t)
  | .vexp h a m t => some (formA (.fn .exp) h a m t)
  | .vexp2 h a m t => some (formA (.fn .exp2) h a m t)
  | .vlog h a m t => some (formA (.fn .log) h a m t)
  | .vlog2 h a m t => some (formA (.fn .log2) h a m t)
  | .vtanh h a m t => some (formA (.fn .tanh) h a m t)
  | _ => none

/-- VCMP writes a mask register and no shape. -/
def VForm.toMask (f : VForm) : Bool :=
  match f.kind with
  | .cmp _ => true
  | _ => false

/-- The mask field names data or head flags, not an execution mask (R63). -/
def VForm.dataMask (f : VForm) : Bool :=
  match f.kind with
  | .sel | .scan _ _ => true
  | _ => false

/-- The entry reads its destination (R298). -/
def VForm.readsDst (f : VForm) : Bool :=
  match f.kind with
  | .fma _ => true
  | _ => false

/-- A stochastically rounding conversion (R304). -/
def VForm.rs (f : VForm) : Bool := f.kind == .cvt 4

/-- The mask register an entry reads, if it reads one (R63, R297). -/
def VForm.maskReg (f : VForm) : Option Nat := if f.dataMask || f.mask != 0 then some f.mask else none

/-- A conversion. -/
def VForm.isCvt (f : VForm) : Bool :=
  match f.kind with
  | .cvt _ => true
  | _ => false

/-- An MX element type (R303, 04 R97). -/
def isMx (t : Nat) : Bool := 4 ≤ t && t ≤ 8

/-! ### Checks at issue (R287, R293, R294) -/

/-- An operand: its record, whether it is written, whether it is read, the type it must have, whether Q is allowed, and
whether it breaks one of the rules of R293 that compare operands. -/
structure VOperand where
  shape : Shape
  wr : Bool
  rd : Bool
  want : Nat
  qOk : Bool
  clash : Bool
  deriving DecidableEq, Repr

/-- The operand's record breaks R293, which also empties its span (R287). -/
def VOperand.bad (o : VOperand) : Bool := o.clash || o.shape.bad (fun t => t == o.want) o.wr o.qOk

/-- The operand raises FMT: its record breaks R293, or the element size of R294. -/
def VOperand.refused (o : VOperand) : Bool := o.bad || (o.shape.nbr && typeBits o.shape.ty != 32)

/-- A byte of a neighbour-window destination lies in the named core's scratchpad or accumulator window (R294). -/
def nbrByteOk (s : State) (h : Shape) (b : Nat) : Bool :=
  localOk b && (s.coreAt (s.sq * 8 + h.core)).userLocal (localOff b)

/-- The grant of R294: bit 63 set and the writer's domain in bits 15:0. -/
def nbrGrant (s : State) (h : Shape) : Bool :=
  let g := s.localLe (s.sq * 8 + h.core) 0x100 8
  s.cur.sup || (fieldN g 63 1 == 1 && fieldN g 0 16 == s.kdom)

/-- The PROT checks of an operand's span, lowest byte first (R287). -/
def VOperand.grant (o : VOperand) (s : State) : Run State :=
  let bytes := sortNats ((upTo o.shape.count).map o.shape.elBytes).flatten
  if o.shape.nbr then
    match bytes.find? (fun b => !nbrByteOk s o.shape b || !nbrGrant s o.shape) with
    | some b => prot b
    | none => pure s
  else
    bytes.foldlM (fun s b =>
      if isLocal b then do
        localCheck o.wr b 1 s
        pure s
      else do
        let s ← (if o.rd then byteGrant (if o.wr then needRW else needR) s.srcFoot b b s else pure s)
        if o.wr then byteGrant (if o.rd then needRW else needW) s.destFoot b b s else pure s) s

/-- ALIGN, PROT and FMT of the operands, in the order of the fields; a bad record has an empty span (R287). -/
def checkOperands (os : List VOperand) (s : State) : Run State := do
  let good := os.filter (fun o => !o.bad)
  match good.find? (fun o => o.shape.misaligned) with
  | some o => misaligned o.shape.base.toNat
  | none =>
    let s ← good.foldlM (fun s o => o.grant s) s
    match os.find? VOperand.refused with
    | some o => fmtTrap o.shape.addr
    | none => pure s

/-- The ALIGN and PROT checks alone, for loop iterations and reloads (R309, R313). -/
def recheckOperands (os : List VOperand) (s : State) : Run State :=
  match os.find? (fun o => o.shape.misaligned) with
  | some o => misaligned o.shape.base.toNat
  | none => os.foldlM (fun s o => o.grant s) s

/-- Two records both named, whose extents differ. -/
def extDiffer (x y : Option Shape) : Bool :=
  match x, y with
  | some x, some y => x.ext != y.ext
  | _, _ => false

/-- The instruction requires its operands' extents to be equal (R298, R300, R302, R308); a reduction does not (R307). -/
def VForm.sameExt (f : VForm) : Bool :=
  match f.kind with
  | .red _ => false
  | _ => true

/-- R303 allows Q on the destination, apart from the scale record. -/
def VForm.quantOk (f : VForm) : Bool := f.kind == .cvt 0 && f.src ≤ 2 && isMx f.t && f.mask == 0

/-- The scale record's extents are not those of the destination's blocks (R303). -/
def scaleDiffers (hd sc : Option Shape) : Bool :=
  match hd, sc with
  | some h, some c => c.ext != ceilDiv (h.ext.headD 0) 32 :: h.ext.drop 1
  | _, _ => false

/-- The operands of an entry from its records. Where two records differ in extents that must be equal, both break R293 (log
34). -/
def VForm.operands (f : VForm) (hd ha hb sc : Option Shape) : List VOperand :=
  let da := f.sameExt && extDiffer hd ha
  let db := f.sameExt && extDiffer hd hb
  let ab := f.sameExt && hd.isNone && extDiffer ha hb
  let dc := scaleDiffers hd sc
  let q := hd.any (·.quant) && !f.quantOk
  let op (h : Option Shape) (wr rd : Bool) (t : Nat) (qOk clash : Bool) : List VOperand :=
    (h.map (fun h => VOperand.mk h wr rd t qOk clash)).toList
  op hd true f.readsDst f.t f.isCvt (da || db || dc || q) ++ op ha false true f.src false (da || ab) ++
    op hb false true f.t false (db || ab) ++ op sc true false 24 false dc

/-- The operands of a held entry. -/
def VEntry.operands (e : VEntry) : List VOperand :=
  match vform e.insn with
  | some f => f.operands e.hd e.ha e.hb e.scale
  | none => []

/-- The shapes that VCMP and VRED ask for beside R293 (R300, R307). -/
def VForm.shapeOk (f : VForm) (hd ha : Option Shape) : Bool :=
  let ext (h : Option Shape) : List Nat := (h.map (·.ext)).getD []
  match f.kind with
  | .cmp _ => (ext ha).drop 1 == [1, 1, 1] && (ext ha).headD 0 ≤ 512
  | .red _ => (ext hd).headD 0 == 1 && (ext hd).drop 1 == (ext ha).drop 1
  | _ => true

/-- A dt8 operand, or a move of dt8 (R305). -/
def usesDt8 (f : VForm) : Bool := f.t == 9 || f.src == 9

/-- A held entry reads or writes dt8 and is not done, or is to run again in a loop (R305, R312). -/
def Ctx.dt8Busy (x : Ctx) : Bool :=
  x.vq.any (fun e => (e.st != .done || (e.body && decide (0 < x.vleft))) && (vform e.insn).any usesDt8)

/-- Shape register `n` of the executing context. -/
def State.hreg (s : State) (n : Nat) : Nat := (sget 0 s.cur.h n).toNat

/-- Make room for one more held entry (R286). -/
def makeRoom (s : State) : Except Stop State :=
  let x := s.cur
  if x.vq.length < 16 then .ok s
  else match x.vq with
    | [] => .ok s
    | e :: r =>
      if e.st == .done && !(e.body && decide (0 < x.vleft)) then .ok (s.setCur { x with vq := r })
      else .error (.wait .entry)

/-- The mask value an entry takes at issue (R297); a held VCMP that has yet to write it fills it in later. -/
def takeMask (f : VForm) (s : State) : BitVec 512 :=
  match f.maskReg with
  | some m => s.mreg m
  | none => -1

/-- Queue an entry (R287). -/
def queueEntry (i : Instr) (scalar : Word) (s : State) : Run State :=
  match vform i with
  | none => ill s
  | some f => do
    let regs := (if f.toMask then [] else [f.dst]) ++ f.a.toList ++ f.b.toList
    if regs.any (fun h => s.hreg h == 0 || s.cur.vadv.contains (s.hreg h)) then ill s
    else
      let read (h : Option Nat) : Run (Option Shape) := h.mapM (fun n => shapeAt (s.hreg n) s)
      let hd ← read (if f.toMask then none else some f.dst)
      let ha ← read f.a
      let hb ← read f.b
      let sc ← (match hd with
        | some h => if f.quantOk && h.quant then (shapeAt (h.addr + 32) s).map some else pure none
        | none => pure none : Run (Option Shape))
      let os := f.operands hd ha hb sc
      let first := ((hd.orElse (fun _ => ha)).map (·.addr)).getD 0
      if f.rs && hd.any (·.quant) then ill s
      let s ← checkOperands os s
      if !f.shapeOk hd ha || (usesDt8 f && s.cur.xdt != s.core.dt8Tag) then fmtTrap first
      else
        let s ← makeRoom s
        let x := s.cur
        let e : VEntry :=
          { insn := i, hd := hd, ha := ha, hb := hb, scale := sc, mask := takeMask f s, masked := f.mask != 0 && !f.dataMask,
            scalar := scalar, rsCtr := x.kscnt, seed := x.kseed, e4n := e4nOf x.kfpe, st := .pending, body := false,
            dom := s.kdom, sup := x.sup, tseq := s.appends }
        pure (s.setCur { x with vq := x.vq ++ [e], kscnt := if f.rs then x.kscnt + 1 else x.kscnt })

/-! ### Access to the arrays (R288, R292, R294) -/

/-- Who an entry is when it accesses memory: core, domain, and its place in the order of appends. -/
structure VAgent where
  core : Nat
  dom : Nat
  ord : Nat
  deriving DecidableEq, Repr

/-- The engine identity of an entry's global accesses. -/
def VAgent.agent (x : VAgent) : Agent := ⟨x.ord, x.dom, false, 1⟩

/-- Where an access within one line is served: by the core's stash entry, which the first touch fills, with the rights as they
stand, no line that an earlier command owns and, for a write, no page under migration; else from the frame (R288, 05 R128, 10
R271, R272, 20 R438). -/
def pieceSpot (x : VAgent) (wr : Bool) (va : Nat) (s : State) : Except EStop (Spot × State) :=
  match (s.coreAt x.core).stashFor (va / 128) x.dom with
  | none => do
    let (pa, s) ← engineAt x.agent wr va s
    pure (.frame pa, s)
  | some t =>
    if t.f then
      match s.rightsEntry x.dom (segOf va) with
      | .stop p r c => .error (.wait p r c)
      | .entry e s =>
        if !granted (rightsBits e) (if wr then needW else needR) then .error (.abandon none)
        else if s.unwritten x.agent (va / 128) || (wr && s.migrating va) then .error (.wait va 0 0)
        else if !wr && (s.coreAt x.core).entryBad t 0 128 then .error (.abandon none)
        else .ok (.entry t, s)
    else do
      let (pa, s) ← engineAt x.agent wr va s
      let s := fillEntry s x.core t pa
      pure (.entry (((s.coreAt x.core).stashFor (va / 128) x.dom).getD t), s)

/-- Read bytes within one line: local memory, the core's stash entry, or global memory (R288). -/
def pieceRead (x : VAgent) (va n : Nat) (s : State) : Except EStop (List Byte × State) :=
  if isLocal va then (engineLocal x.core (localOff va) n s).map (fun b => (b, s))
  else do
    let (w, s) ← pieceSpot x false va s
    pure (match w with
      | .frame pa => memRead s.mem pa n
      | .entry t => (s.coreAt x.core).entryRead t (va % 128) n, s)

/-- Rewrite the `w` bits from bit `lo` on of `n` bytes within one line, as a function of what the bytes hold: a write, with no right
to read and poisoned or not. -/
def pieceUpdate (x : VAgent) (va n lo w : Nat) (f : List Byte → List Byte) (s : State) : Except EStop State :=
  if isLocal va then
    let k := s.coreAt x.core
    .ok (s.setCore x.core (k.localBits (localOff va) (f (memRead k.mem (localOff va) n)) lo w))
  else do
    let (p, s) ← pieceSpot x true va s
    pure (match p with
      | .frame pa => (s.putPhys pa (f (memRead s.mem pa n))).bitsWritten (some (x.core, x.dom)) (8 * va + lo) w
      | .entry t => s.entryBits x.core t va (f ((s.coreAt x.core).entryRead t (va % 128) n)) lo w)

/-- Write bytes within one line. -/
def pieceWrite (x : VAgent) (va : Nat) (b : List Byte) (s : State) : Except EStop State :=
  pieceUpdate x va b.length 0 (8 * b.length) (fun _ => b) s

/-- The pieces of an element. -/
def elPieces (h : Shape) (i : Nat) : List (Nat × Nat) := linePieces ((h.elBytes i).length + 1) (h.elAddr i) (h.elBytes i).length

/-- The bytes of an element. -/
def elRead (x : VAgent) (h : Shape) (i : Nat) (s : State) : Except EStop (List Byte × State) :=
  (elPieces h i).foldlM (fun (p : List Byte × State) q => do
    let (b, s) ← pieceRead x q.1 q.2 p.2
    pure (p.1 ++ b, s)) ([], s)

/-- Read an element's code; an element whose rights are gone, or whose data is poisoned, reads 0 (R288; log 34).
The old destination of a VFMA through a neighbour window lies in the named core (R294, R298). -/
def readEl (x : VAgent) (h : Shape) (i : Nat) (s : State) : Except EStop (Nat × State) :=
  if h.nbr then
    let k := s.coreAt (squareOf x.core * 8 + h.core)
    .ok (if k.poisoned (localOff (h.elAddr i)) 4 then 0 else elCode 32 0 (memRead k.mem (localOff (h.elAddr i)) 4), s)
  else
  match elRead x h i s with
  | .ok (b, s) => .ok (elCode (typeBits h.ty) (h.bitAt i) b, s)
  | .error (.abandon w) => .ok (0, s.metPoison w)
  | .error w => .error w

/-- A word written through a neighbour window, with its full bit (R294, 05 R126). -/
def nbrWrite (c off v : Nat) (s : State) : State :=
  let s := s.localPut c off (leBytes 4 v)
  let k := s.coreAt c
  let w := off / 4
  s.setCore c { k with full := if k.full.contains w then k.full else w :: k.full }

/-- A value of element `i` of a record with the place of its bits. -/
def Shape.el (h : Shape) (i code : Nat) : OldEl :=
  ⟨8 * h.elAddr i + (h.bitAt i % 8).toNat, typeBits h.ty, code, 2 ^ typeBits h.ty - 1⟩

/-- Write the bits of an element that lie in one piece of it. -/
def subWrite (x : VAgent) (o : OldEl) (q : Nat × Nat) (s : State) : Except EStop State :=
  let lo := max o.pos (8 * q.1)
  pieceUpdate x q.1 q.2 (lo - 8 * q.1) (min (o.pos + o.width) (8 * (q.1 + q.2)) - lo) (fun b => overlay q.1 b o) s

/-- Write an element's code, in the bits it has; an element whose rights are gone is not written (R288). -/
def writeEl (x : VAgent) (h : Shape) (i code : Nat) (s : State) : Except EStop State :=
  if h.nbr then .ok (nbrWrite (squareOf x.core * 8 + h.core) (localOff (h.elAddr i)) code s)
  else
    let put : Except EStop State :=
      if isSub h.ty then
        (elPieces h i).foldlM (fun s q => subWrite x (h.el i code) q s) s
      else pieceWrite x (h.elAddr i) (leBytes (typeBytes h.ty) code) s
    match put with
    | .error (.abandon w) => .ok (s.metPoison w)
    | r => r

/-! ### What one element computes (R298 to R304, R306) -/

/-- The width of an element's code in bits: 19 for e8m10 (04 R78). -/
def codeBits (t : Nat) : Nat := if t = 3 then 19 else typeBits t

/-- A comparison of integer codes by one of the conditions 0 to 5 (R300). -/
def intCond (c t x y : Nat) : Bool :=
  let a := intValue t x
  let b := intValue t y
  match c with
  | 0 => a == b
  | 1 => a != b
  | 2 => decide (a < b)
  | 3 => decide (b ≤ a)
  | 4 => decide (a ≤ b)
  | _ => decide (b < a)

/-- Arithmetic on one element: floats exact and rounded once, integers modulo 2^w without flags (R298, R299). -/
def elArith (c : NumCtx) (t rm : Nat) (ff : Val × Fl) (fi : Int) : Nat × Fl :=
  if t ≤ 3 then
    let (y, g) := roundTo c t rm 0 ff.1
    (y, ff.2 ||| g)
  else (intCode t fi, 0)

/-- The result of one element from the codes of a, b and the old destination; `i` is its linear index, `sel` its data
mask bit. A conversion to e8m0 raises invalid for a signalling NaN and no other flag, though it may drop bits or clamp: R88
names none (log 32). -/
def elResult (e : VEntry) (f : VForm) (c : NumCtx) (i : Nat) (sel : Bool) (a b d : Nat) : Nat × Fl :=
  let va := valueOf c.dt8 f.src a
  let vb := valueOf c.dt8 f.t b
  let vd := valueOf c.dt8 f.t d
  let ia := intValue f.t a
  let ib := intValue f.t b
  let w := codeBits f.t
  match f.kind with
  | .add rm => elArith c f.t rm (va.add (rm == 3) vb) (ia + ib)
  | .sub rm => elArith c f.t rm (va.add (rm == 3) vb.neg) (ia - ib)
  | .mul rm => elArith c f.t rm (va.mul vb) (ia * ib)
  | .fma rm => elArith c f.t rm (Val.fma (rm == 3) va vb vd) (ia * ib + intValue f.t d)
  | .pick mx => elArith c f.t 0 (Val.pick mx va vb) (if decide (ia ≤ ib) != mx then ia else ib)
  | .abs => elArith c f.t 0 (va.abs, va.sigFl) ia.natAbs
  | .neg => elArith c f.t 0 (va.neg, va.sigFl) (-ia)
  | .and => (a &&& b, 0)
  | .or => (a ||| b, 0)
  | .xor => (a ^^^ b, 0)
  | .shl => (a * 2 ^ (b % w) % 2 ^ w, 0)
  | .shr => (intCode f.t (ia / ((2 ^ (b % w) : Nat) : Int)), 0)
  | .sel => ((if sel then a else b) % 2 ^ w, 0)
  | .bcast => (e.scalar.toNat % 2 ^ w, 0)
  | .iota => (if f.t = 0 then rne32 (Val.ofInt i) else i % 2 ^ w, 0)
  | .cvt v =>
    let x := if v = 4 then randomWord e.seed e.rsCtr i else 0
    let (y, g) := roundTo c f.t v x va
    (y, va.sigFl ||| (if f.t = 24 then 0 else g))
  | .fn g => special g f.t a
  | .cmp _ | .red _ | .scan _ _ => (0, 0)

/-! ### Reductions and scans (R307, R308) -/

/-- The type a reduction or scan computes in: f32 for every float. -/
def accType (t : Nat) : Nat := if t ≤ 3 then 0 else t

/-- An element widened to the type of accumulation. -/
def widen (t x : Nat) : Nat := if t ≤ 3 then rne32 (valueOf [] t x) else x

/-- One operation of a reduction or scan: 0 add, 1 max, 2 min. -/
def accOp (k t x y : Nat) : Nat × Fl :=
  if t = 0 then
    let r := match k with
      | 0 => (f32Val x).add false (f32Val y)
      | 1 => Val.pick true (f32Val x) (f32Val y)
      | _ => Val.pick false (f32Val x) (f32Val y)
    fRound 0 r
  else
    let a := intValue t x
    let b := intValue t y
    (intCode t (match k with
      | 0 => a + b
      | 1 => if a ≤ b then b else a
      | _ => if a ≤ b then a else b), 0)

/-- The identity of a reduction or scan. -/
def accIdentity (k t : Nat) : Nat :=
  if t = 0 then (match k with
    | 0 => 0
    | 1 => inf32 true
    | _ => inf32 false)
  else intCode t (match k with
    | 0 => 0
    | 1 => (intRange t).1
    | _ => (intRange t).2)

/-- One level of the tree: neighbours combined, a last odd one kept. -/
def treeLevel (k t : Nat) : List Nat → List Nat × Fl
  | x :: y :: r =>
    let (v, g) := accOp k t x y
    let (l, h) := treeLevel k t r
    (v :: l, g ||| h)
  | l => (l, 0)

/-- The tree of R307; the number bounds the levels. -/
def treeReduce (k t : Nat) : Nat → List Nat → Nat × Fl
  | 0, l => (l.headD (accIdentity k t), 0)
  | n + 1, l =>
    match l with
    | [] => (accIdentity k t, 0)
    | [x] => (x, 0)
    | l =>
      let (m, g) := treeLevel k t l
      let (v, h) := treeReduce k t n m
      (v, g ||| h)

/-- A value read as a float operand that is a signalling NaN raises invalid. -/
def readFl (t x : Nat) : Fl := if t ≤ 3 then (valueOf [] t x).sigFl else 0

/-! ### Running an entry -/

/-- What an entry carries from element to element: the row's values or block's values so far, the running result of a
scan, the mask bits of a VCMP, and the flags. -/
structure VAcc where
  vals : List Nat
  run : Nat
  mask : Nat
  fl : Fl
  deriving DecidableEq, Repr

/-- The mask bit of an element (R297). -/
def VEntry.bit (e : VEntry) (x0 : Nat) : Bool := e.mask.getLsbD (x0 % 512)

/-- An element is active (R297). -/
def VEntry.active (e : VEntry) (x0 : Nat) : Bool := !e.masked || e.bit x0

/-- One element: the new accumulator and what it writes: (to the scale record?, index, code). `ext` is the extents that
are walked, `i` the linear index, `a`, `b`, `d` the codes read. -/
def elStep (e : VEntry) (f : VForm) (c : NumCtx) (ext : List Nat) (i a b d : Nat) (p : VAcc) :
    VAcc × List (Bool × Nat × Nat) :=
  let e0 := ext.headD 1
  let x0 := i % max e0 1
  let on := e.active x0
  match f.kind with
  | .cmp cond =>
    let r := if f.t ≤ 3 then fcmpCond cond (valueOf c.dt8 f.t a) (valueOf c.dt8 f.t b) else (intCond cond f.t a b, 0)
    if on then ({ p with mask := p.mask + (if r.1 then 2 ^ i else 0), fl := p.fl ||| r.2 }, []) else (p, [])
  | .red k =>
    let t := accType f.t
    let p := if on then { p with vals := p.vals ++ [widen f.t a], fl := p.fl ||| readFl f.t a } else p
    if x0 + 1 = e0 then
      let (v, g) := treeReduce k t (e0 + 1) p.vals
      let (y, h) := if f.t ≤ 3 then (fmtOf f.t).round false 0 0 (f32Val v) else (v, 0)
      ({ p with vals := [], fl := p.fl ||| g ||| h }, [(false, i / max e0 1, y)])
    else (p, [])
  | .scan k exc =>
    let t := accType f.t
    let start := x0 == 0 || e.bit x0
    let x := if t = 0 then (f32.round false 0 0 (f32Val a)).1 else a
    let (r, g) := if start then (x, readFl f.t a) else accOp k t p.run a
    let y := if exc then (if start then accIdentity k t else p.run) else r
    ({ p with run := r, fl := p.fl ||| g }, [(false, i, y)])
  | _ =>
    if f.isCvt && e.scale.isSome then
      let p := { p with vals := p.vals ++ [a] }
      if x0 % 32 = 31 ∨ x0 + 1 = e0 then
        let (sc, codes) := quantBlock c.e4n f.t (p.vals.map (valueOf c.dt8 f.src))
        let at0 := i + 1 - p.vals.length
        let sIdx := i / max e0 1 * ceilDiv e0 32 + x0 / 32
        ({ p with vals := [] }, (true, sIdx, sc) :: codes.zipIdx.map (fun q => (false, at0 + q.2, q.1)))
      else (p, [])
    else if on then
      let (y, g) := elResult e f c i (e.bit x0) a b d
      ({ p with fl := p.fl ||| g }, [(false, i, y)])
    else (p, [])

/-- The elements of a pass for a type (R296). -/
def lanesOf (t : Nat) : Nat :=
  if t = 19 ∨ t = 23 then 64
  else if t = 0 ∨ t = 3 ∨ t = 18 ∨ t = 22 then 128
  else if t = 1 ∨ t = 2 ∨ t = 17 ∨ t = 21 then 256
  else 512

/-- Cut 0, ..., n - 1 into passes; the first number bounds how many. -/
def passes (lanes : Nat) : Nat → Nat → Nat → List (List Nat)
  | 0, _, _ => []
  | k + 1, i, n => if n ≤ i then [] else (List.range' i (min lanes (n - i))) :: passes lanes k (i + lanes) n

/-- The code of an operand's element, 0 where there is no such operand. -/
def readOpt (x : VAgent) (h : Option Shape) (i : Nat) (s : State) : Except EStop (Nat × State) :=
  match h with
  | some h => readEl x h i s
  | none => .ok (0, s)

/-- One pass: it reads all its sources before it writes (R296). -/
def runPass (x : VAgent) (e : VEntry) (f : VForm) (c : NumCtx) (ext : List Nat) (is : List Nat) (p : VAcc) (s : State) :
    Except EStop (VAcc × State) := do
  let (p, ws, s) ← is.foldlM (fun (r : VAcc × List (Bool × Nat × Nat) × State) i => do
    let (p, ws, s) := r
    if e.active (i % max (ext.headD 1) 1) then
      let (a, s) ← readOpt x e.ha i s
      let (b, s) ← readOpt x e.hb i s
      let (d, s) ← (if f.readsDst then readOpt x e.hd i s else pure (0, s))
      let (p, w) := elStep e f c ext i a b d p
      pure (p, ws ++ w, s)
    else
      let (p, w) := elStep e f c ext i 0 0 0 p
      pure (p, ws ++ w, s)) (p, ([] : List (Bool × Nat × Nat)), s)
  let s ← ws.foldlM (fun s w =>
    match (if w.1 then e.scale else e.hd) with
    | some h => writeEl x h w.2.1 w.2.2 s
    | none => pure s) s
  pure (p, s)

/-- The record whose extents an entry walks: its first source, else its destination. -/
def VEntry.walked (e : VEntry) : Option Shape := e.ha.orElse (fun _ => e.hd)

/-- The effect of an entry on memory, its mask bits and its flags. -/
def runEntry (core : Nat) (e : VEntry) (s : State) : Except EStop (VAcc × State) :=
  match vform e.insn, e.walked with
  | some f, some h =>
    let x : VAgent := ⟨core, e.dom, e.tseq⟩
    let c : NumCtx := ⟨e.e4n, (s.coreAt core).dt8⟩
    let lanes := min (lanesOf f.t) (lanesOf f.src)
    (passes lanes (h.count + 1) 0 h.count).foldlM (fun (r : VAcc × State) is => runPass x e f c h.ext is r.1 r.2)
      (⟨[], 0, 0, 0⟩, s)
  | _, _ => .ok (⟨[], 0, 0, 0⟩, s)

/-! ### The sequencer (R288, R289, R295, R310) -/

/-- Why an entry is held: until a channel or a line's owner moves on, or for the page of an address. -/
inductive VHold where
  | free
  | wait (va reason code : Nat)
  deriving DecidableEq, Repr

/-- A transfer command has a unit to deliver that holds a local block (R295). -/
def TCmd.holdsLocal (c : TCmd) (blk : Nat) : Bool :=
  !c.dead && match c.kind with
  | .copy => if c.dir = 0 then (c.units.drop c.done).contains blk else false
  | .gath =>
    let size := c.run * ((c.current.map (fun d => typeBytes d.ty)).getD 0)
    (c.units.drop c.done).any (fun u =>
      decide (c.base + u * size < 128 * (blk + 1) ∧ 128 * blk < c.base + (u + 1) * size))
  | _ => false

/-- The commands of a core on a channel appended before an entry's issue have delivered a local block (R295). -/
def blockDelivered (s : State) (core ch ord blk : Nat) : Bool :=
  ((s.sqAt (squareOf core)).tq.filter (fun c => c.hdr.core == core && c.ch == ch && decide (c.hdr.ord < ord))).all
    (fun c => !c.holdsLocal blk)

/-- What holds an operand of an entry: a channel-bound line, or a global line that cannot be accessed now. A line whose
rights are gone holds nothing (R288). -/
def operandHold (s : State) (core : Nat) (e : VEntry) (o : VOperand) : VHold :=
  let bytes := ((upTo o.shape.count).map o.shape.elBytes).flatten
  if o.shape.nbr then .free
  else if isLocal o.shape.base.toNat then
    if o.shape.bound && !(linesOf (bytes.map localOff)).all (blockDelivered s core o.shape.chan e.tseq) then .wait 0 0 0
    else .free
  else
    (linesOf bytes).foldl (fun h line =>
      match h with
      | .wait .. => h
      | .free =>
        match engineAt ⟨e.tseq, e.dom, false, 1⟩ o.wr (128 * line) s with
        | .error (.wait va r c) => .wait va r c
        | _ => .free) .free

/-- What holds an entry. -/
def entryHold (s : State) (core : Nat) (e : VEntry) : VHold :=
  e.operands.foldl (fun h o => match h with
    | .wait .. => h
    | .free => operandHold s core e o) .free

/-- The next entry of a context that could begin: its first entry that is not done, when it is pending. -/
def nextEntry (x : Ctx) : Option (Nat × VEntry) :=
  if x.st == .preempted then none
  else match findIdx? (fun e => e.st != .done) x.vq with
    | some i => match x.vq[i]? with
      | some e => if e.st == .pending then some (i, e) else none
      | none => none
    | none => none

/-- Replace the state of entry `i` of a context. -/
def Ctx.setEntry (x : Ctx) (i : Nat) (st : VState) : Ctx :=
  { x with vq := x.vq.zipIdx.map (fun p => if p.2 = i then { p.1 with st := st } else p.1) }

/-- Begin the first eligible entry among contexts in an order; pages that hold entries on the way are asked for (R288,
R289). -/
def beginFrom (core : Nat) : List Nat → State → State
  | [], s => s
  | x :: r, s =>
    match nextEntry (s.ctxAt core x) with
    | none => beginFrom core r s
    | some (i, e) =>
      match entryHold s core e with
      | .free =>
        let k := s.coreAt core
        let k := k.setCtx x ((k.ctxAt x).setEntry i .executing)
        s.setCore core { k with vexec := some x }
      | .wait va rs cd => beginFrom core r (s.engineWaits core ⟨e.tseq, e.dom, false, 1⟩ va rs cd)

/-- VECTOR_ENTRY_BEGIN (R289). -/
def execVectorEntryBegin (core : Nat) (s : State) : Host.Outcome State Fault Refusal :=
  hwStep (decide (core < 1024)) s (fun s =>
    let k := s.coreAt core
    if k.vexec.isSome then s
    else beginFrom core ((upTo k.nctx).map (fun i => (k.vlast + 1 + i) % k.nctx)) s)

/-- A new value of mask register `m` reaches the entries that follow its writer, up to and including the next writer
(R297). -/
def maskFlow (m : Nat) (v : BitVec 512) : List VEntry → List VEntry × Bool
  | [] => ([], true)
  | e :: r =>
    match vform e.insn with
    | some f =>
      let e' := if f.maskReg = some m then { e with mask := v } else e
      if f.toMask && f.dst == m then (e' :: r, false)
      else let (l, go) := maskFlow m v r; (e' :: l, go)
    | none => let (l, go) := maskFlow m v r; (e :: l, go)

/-- A VCMP of place `i` writes its mask register (R300, R297). -/
def writeMask (i m : Nat) (v : BitVec 512) (x : Ctx) : Ctx :=
  { x with m := sset x.m m v, vq := x.vq.take (i + 1) ++ (maskFlow m v (x.vq.drop (i + 1))).1 }

/-- How far a record's base moves at an advance (R310). -/
def Shape.delta (h : Shape) : Int := h.adv * (typeBits h.ty : Int) / 8

/-- A record moved by `n` advances. -/
def Shape.moved (n : Nat) (h : Shape) : Shape := { h with base := h.base + BitVec.ofInt 64 (h.delta * (n : Int)) }

/-- An entry moved by one advance. -/
def VEntry.advance (e : VEntry) : VEntry :=
  { e with hd := e.hd.map (Shape.moved 1), ha := e.ha.map (Shape.moved 1), hb := e.hb.map (Shape.moved 1),
           scale := e.scale.map (Shape.moved 1) }

/-- The records an entry names. -/
def VEntry.shapes (e : VEntry) : List Shape := e.operands.map (·.shape)

/-- Give the stochastic conversions of a body their counters, from `c` on (R310). -/
def giveCounters (c : Word) : List VEntry → List VEntry
  | [] => []
  | e :: r =>
    if (vform e.insn).any VForm.rs then { e with rsCtr := c } :: giveCounters (c + 1) r else e :: giveCounters c r

/-- How many stochastic conversions a list of entries holds. -/
def rsCount (l : List VEntry) : Nat := (l.filter (fun e => (vform e.insn).any VForm.rs)).length

/-- The mask registers that the VCMPs of a list of entries write. -/
def masksOf (l : List VEntry) : List Nat :=
  l.filterMap (fun e => match vform e.insn with
    | some f => if f.toMask then some f.dst else none
    | none => none)

/-- An entry of a body at the start of an iteration: where the body itself writes the mask register that it reads, it takes the
value the iteration before has left (R297). -/
def retakeMask (body : List VEntry) (m : SMap (BitVec 512)) (e : VEntry) : VEntry :=
  match (vform e.insn).bind VForm.maskReg with
  | some r => if (masksOf body).contains r then { e with mask := sget 0 m r } else e
  | none => e

/-- Re-arm the loop of context `x` of a core when its body is done and iterations are left (R310). -/
def rearm (core x : Nat) (s : State) : State :=
  let c := s.ctxAt core x
  let body := c.vq.filter (·.body)
  if c.vleft = 0 ∨ body.any (fun e => e.st != .done) then s
  else
    let recs := (body.map VEntry.shapes).flatten.filter (fun h => h.adv != 0)
    let s := recs.foldl (fun s h => s.localPut core (localOff h.addr) (leBytes 8 (h.moved 1).base.toNat)) s
    let c := s.ctxAt core x
    let next := giveCounters (c.vcnt + wd (c.viter * rsCount body))
      (body.map (fun e => retakeMask body c.m { e.advance with st := .pending }))
    let first := c.vq.takeWhile (fun e => !e.body)
    let rest := c.vq.drop (first.length + body.length)
    s.setCtx core x { c with vq := first ++ next ++ rest, vleft := c.vleft - 1, viter := c.viter + 1 }

/-- The elements of a record that an entry has changed, as the context's own loads may reach them: what each held in `s`
before, where it differs in `t` after (05 R112). -/
def oldEls (x : VAgent) (h : Shape) (s t : State) : List OldEl :=
  let code (b : List Byte) (i : Nat) : Nat := elCode (typeBits h.ty) (h.bitAt i) b
  if h.nbr && squareOf x.core * 8 + h.core != x.core then []
  else (upTo h.count).filterMap (fun i =>
    match elRead x { h with nbr := false } i s, elRead x { h with nbr := false } i t with
    | .ok (b, _), .ok (b', _) => if code b i == code b' i then none else some (h.el i (code b i))
    | _, _ => none)

/-- The executing entry of a core completes (R289, R300, R310). -/
def completeEntry (core : Nat) (s0 : State) : State :=
  match (s0.coreAt core).vexec with
  | none => s0
  | some x =>
    let c := s0.ctxAt core x
    match findIdx? (fun e => e.st == .executing) c.vq with
    | none => s0.setCore core { s0.coreAt core with vexec := none }
    | some i => match c.vq[i]? with
      | none => s0
      | some e =>
        let a : VAgent := ⟨core, e.dom, e.tseq⟩
        engineStep core a.agent id s0 ((runEntry core e s0).map (fun r =>
          let (p, s) := r
          let c := (s.ctxAt core x).setEntry i .done
          let c := match vform e.insn with
            | some f => if f.toMask then writeMask i f.dst (BitVec.ofNat 512 p.mask) c else c
            | none => c
          let old := ((e.hd.toList ++ e.scale.toList).map (fun h => oldEls a h s0 s)).flatten
          let before := (s0.ctxAt core x).vold
          let c := { c with kfpe := orFlags c.kfpe p.fl, vflags := c.vflags ||| p.fl, vold := before ++ old }
          let k := (s.coreAt core).setCtx x c
          rearm core x (s.setCore core { k with vexec := none, vlast := x })))

/-- VECTOR_ENTRY_COMPLETE (R289). -/
def execVectorEntryComplete (core : Nat) (s : State) : Host.Outcome State Fault Refusal :=
  hwStep (decide (core < 1024)) s (completeEntry core)

/-! ### The entry instructions -/

/-- VADD (R298). -/
def execVadd (h a b : BitVec 4) (m r : BitVec 3) (t : BitVec 6) (s : State) : Host.Outcome State Fault Refusal :=
  guardedRun (.vadd h a b m r t) s (queueEntry (.vadd h a b m r t) 0)

/-- VSUB (R298). -/
def execVsub (h a b : BitVec 4) (m r : BitVec 3) (t : BitVec 6) (s : State) : Host.Outcome State Fault Refusal :=
  guardedRun (.vsub h a b m r t) s (queueEntry (.vsub h a b m r t) 0)

/-- VMUL (R298). -/
def execVmul (h a b : BitVec 4) (m r : BitVec 3) (t : BitVec 6) (s : State) : Host.Outcome State Fault Refusal :=
  guardedRun (.vmul h a b m r t) s (queueEntry (.vmul h a b m r t) 0)

/-- VFMA (R298). -/
def execVfma (h a b : BitVec 4) (m r : BitVec 3) (t : BitVec 6) (s : State) : Host.Outcome State Fault Refusal :=
  guardedRun (.vfma h a b m r t) s (queueEntry (.vfma h a b m r t) 0)

/-- VMIN (R298). -/
def execVmin (h a b : BitVec 4) (m : BitVec 3) (t : BitVec 6) (s : State) : Host.Outcome State Fault Refusal :=
  guardedRun (.vmin h a b m t) s (queueEntry (.vmin h a b m t) 0)

/-- VMAX (R298). -/
def execVmax (h a b : BitVec 4) (m : BitVec 3) (t : BitVec 6) (s : State) : Host.Outcome State Fault Refusal :=
  guardedRun (.vmax h a b m t) s (queueEntry (.vmax h a b m t) 0)

/-- VABS (R298). -/
def execVabs (h a : BitVec 4) (m : BitVec 3) (t : BitVec 6) (s : State) : Host.Outcome State Fault Refusal :=
  guardedRun (.vabs h a m t) s (queueEntry (.vabs h a m t) 0)

/-- VNEG (R298). -/
def execVneg (h a : BitVec 4) (m : BitVec 3) (t : BitVec 6) (s : State) : Host.Outcome State Fault Refusal :=
  guardedRun (.vneg h a m t) s (queueEntry (.vneg h a m t) 0)

/-- VAND (R298). -/
def execVand (h a b : BitVec 4) (m : BitVec 3) (t : BitVec 6) (s : State) : Host.Outcome State Fault Refusal :=
  guardedRun (.vand h a b m t) s (queueEntry (.vand h a b m t) 0)

/-- VOR (R298). -/
def execVor (h a b : BitVec 4) (m : BitVec 3) (t : BitVec 6) (s : State) : Host.Outcome State Fault Refusal :=
  guardedRun (.vor h a b m t) s (queueEntry (.vor h a b m t) 0)

/-- VXOR (R298). -/
def execVxor (h a b : BitVec 4) (m : BitVec 3) (t : BitVec 6) (s : State) : Host.Outcome State Fault Refusal :=
  guardedRun (.vxor h a b m t) s (queueEntry (.vxor h a b m t) 0)

/-- VSHL (R298). -/
def execVshl (h a b : BitVec 4) (m : BitVec 3) (t : BitVec 6) (s : State) : Host.Outcome State Fault Refusal :=
  guardedRun (.vshl h a b m t) s (queueEntry (.vshl h a b m t) 0)

/-- VSHR (R298). -/
def execVshr (h a b : BitVec 4) (m : BitVec 3) (t : BitVec 6) (s : State) : Host.Outcome State Fault Refusal :=
  guardedRun (.vshr h a b m t) s (queueEntry (.vshr h a b m t) 0)

/-- VCMP (R300). -/
def execVcmp (h a b : BitVec 4) (m c : BitVec 3) (t : BitVec 6) (s : State) : Host.Outcome State Fault Refusal :=
  guardedRun (.vcmp h a b m c t) s (queueEntry (.vcmp h a b m c t) 0)

/-- VSEL (R301). -/
def execVsel (h a b : BitVec 4) (k : BitVec 3) (t : BitVec 6) (s : State) : Host.Outcome State Fault Refusal :=
  guardedRun (.vsel h a b k t) s (queueEntry (.vsel h a b k t) 0)

/-- VCVT from a source code 0 to 15 (R302). -/
def execVcvt (h a sr : BitVec 4) (m v : BitVec 3) (t : BitVec 6) (s : State) : Host.Outcome State Fault Refusal :=
  guardedRun (.vcvt h a sr m v t) s (queueEntry (.vcvt h a sr m v t) 0)

/-- VCVT from a source code 16 to 31 (R302). -/
def execVcvtHi (h a sr : BitVec 4) (m v : BitVec 3) (t : BitVec 6) (s : State) : Host.Outcome State Fault Refusal :=
  guardedRun (.vcvtHi h a sr m v t) s (queueEntry (.vcvtHi h a sr m v t) 0)

/-- VBCAST (R301): the scalar is read at issue. -/
def execVbcast (h : BitVec 4) (a : BitVec 6) (m : BitVec 3) (t : BitVec 6) (s : State) :
    Host.Outcome State Fault Refusal :=
  guardedRun (.vbcast h a m t) s (fun s => do
    let (x, s) ← readReg a.toNat s
    queueEntry (.vbcast h a m t) x s)

/-- VIOTA (R301). -/
def execViota (h : BitVec 4) (m : BitVec 3) (t : BitVec 6) (s : State) : Host.Outcome State Fault Refusal :=
  guardedRun (.viota h m t) s (queueEntry (.viota h m t) 0)

/-- VRED.add (R307). -/
def execVredAdd (h a : BitVec 4) (m : BitVec 3) (t : BitVec 6) (s : State) : Host.Outcome State Fault Refusal :=
  guardedRun (.vredAdd h a m t) s (queueEntry (.vredAdd h a m t) 0)

/-- VRED.max (R307). -/
def execVredMax (h a : BitVec 4) (m : BitVec 3) (t : BitVec 6) (s : State) : Host.Outcome State Fault Refusal :=
  guardedRun (.vredMax h a m t) s (queueEntry (.vredMax h a m t) 0)

/-- VRED.min (R307). -/
def execVredMin (h a : BitVec 4) (m : BitVec 3) (t : BitVec 6) (s : State) : Host.Outcome State Fault Refusal :=
  guardedRun (.vredMin h a m t) s (queueEntry (.vredMin h a m t) 0)

/-- VSCAN.inc (R308). -/
def execVscanInc (h a : BitVec 4) (k : BitVec 3) (t : BitVec 6) (s : State) : Host.Outcome State Fault Refusal :=
  guardedRun (.vscanInc h a k t) s (queueEntry (.vscanInc h a k t) 0)

/-- VSCAN.maxinc (R308). -/
def execVscanMaxinc (h a : BitVec 4) (k : BitVec 3) (t : BitVec 6) (s : State) : Host.Outcome State Fault Refusal :=
  guardedRun (.vscanMaxinc h a k t) s (queueEntry (.vscanMaxinc h a k t) 0)

/-- VSCAN.mininc (R308). -/
def execVscanMininc (h a : BitVec 4) (k : BitVec 3) (t : BitVec 6) (s : State) : Host.Outcome State Fault Refusal :=
  guardedRun (.vscanMininc h a k t) s (queueEntry (.vscanMininc h a k t) 0)

/-- VSCAN.exc (R308). -/
def execVscanExc (h a : BitVec 4) (k : BitVec 3) (t : BitVec 6) (s : State) : Host.Outcome State Fault Refusal :=
  guardedRun (.vscanExc h a k t) s (queueEntry (.vscanExc h a k t) 0)

/-- VSCAN.maxexc (R308). -/
def execVscanMaxexc (h a : BitVec 4) (k : BitVec 3) (t : BitVec 6) (s : State) : Host.Outcome State Fault Refusal :=
  guardedRun (.vscanMaxexc h a k t) s (queueEntry (.vscanMaxexc h a k t) 0)

/-- VSCAN.minexc (R308). -/
def execVscanMinexc (h a : BitVec 4) (k : BitVec 3) (t : BitVec 6) (s : State) : Host.Outcome State Fault Refusal :=
  guardedRun (.vscanMinexc h a k t) s (queueEntry (.vscanMinexc h a k t) 0)

/-- VRCP (R306). -/
def execVrcp (h a : BitVec 4) (m : BitVec 3) (t : BitVec 6) (s : State) : Host.Outcome State Fault Refusal :=
  guardedRun (.vrcp h a m t) s (queueEntry (.vrcp h a m t) 0)

/-- VRSQ (R306). -/
def execVrsq (h a : BitVec 4) (m : BitVec 3) (t : BitVec 6) (s : State) : Host.Outcome State Fault Refusal :=
  guardedRun (.vrsq h a m t) s (queueEntry (.vrsq h a m t) 0)

/-- VSQRT (R306). -/
def execVsqrt (h a : BitVec 4) (m : BitVec 3) (t : BitVec 6) (s : State) : Host.Outcome State Fault Refusal :=
  guardedRun (.vsqrt h a m t) s (queueEntry (.vsqrt h a m t) 0)

/-- VEXP (R306). -/
def execVexp (h a : BitVec 4) (m : BitVec 3) (t : BitVec 6) (s : State) : Host.Outcome State Fault Refusal :=
  guardedRun (.vexp h a m t) s (queueEntry (.vexp h a m t) 0)

/-- VEXP2 (R306). -/
def execVexp2 (h a : BitVec 4) (m : BitVec 3) (t : BitVec 6) (s : State) : Host.Outcome State Fault Refusal :=
  guardedRun (.vexp2 h a m t) s (queueEntry (.vexp2 h a m t) 0)

/-- VLOG (R306). -/
def execVlog (h a : BitVec 4) (m : BitVec 3) (t : BitVec 6) (s : State) : Host.Outcome State Fault Refusal :=
  guardedRun (.vlog h a m t) s (queueEntry (.vlog h a m t) 0)

/-- VLOG2 (R306). -/
def execVlog2 (h a : BitVec 4) (m : BitVec 3) (t : BitVec 6) (s : State) : Host.Outcome State Fault Refusal :=
  guardedRun (.vlog2 h a m t) s (queueEntry (.vlog2 h a m t) 0)

/-- VTANH (R306). -/
def execVtanh (h a : BitVec 4) (m : BitVec 3) (t : BitVec 6) (s : State) : Host.Outcome State Fault Refusal :=
  guardedRun (.vtanh h a m t) s (queueEntry (.vtanh h a m t) 0)

/-! ### VSHAPE, VLOOP, VSYNC, VTBL (R290, R309 to R312) -/

/-- VSHAPE (R290). -/
def execVshape (h : BitVec 4) (a : BitVec 6) (s : State) : Host.Outcome State Fault Refusal :=
  guarded (.vshape h a) s (fun s => do
    let (x, s) ← readReg a.toNat s
    let put (s : State) : State := s.setCur { s.cur with h := sset s.cur.h h.toNat x }
    if x = 0 then pure (put s)
    else if x.toNat % 32 ≠ 0 then misaligned x.toNat
    else if !isLocal x.toNat then prot x.toNat
    else do
      localCheck false x.toNat 32 s
      pure (put s))

/-- The checks of VLOOP on the spans of iterations 1 to n (R309). -/
def loopChecks (n : Nat) (body : List VEntry) (s : State) : Run State :=
  (List.range' 1 n).foldlM (fun s j =>
    body.foldlM (fun s e => recheckOperands (e.operands.map (fun o => { o with shape := o.shape.moved j })) s) s) s

/-- VLOOP (R309, R310). -/
def execVloop (k : BitVec 4) (a : BitVec 6) (s : State) : Host.Outcome State Fault Refusal :=
  guardedRun (.vloop k a) s (fun s0 => do
    let (x, s) ← readReg a.toNat s0
    let c := s.cur
    let n := bitsW x 31 0
    let len := k.toNat + 1
    if c.vq.length < len ∨ c.vleft ≠ 0 ∨ c.vq.any (fun e => e.body && e.st != .done) then ill s0
    else if n = 0 then pure s
    else
      let cut := c.vq.length - len
      let body := c.vq.drop cut
      let s ← loopChecks n body s
      let c := s.cur
      let vq := (c.vq.take cut).map (fun e => { e with body := false }) ++ body.map (fun e => { e with body := true })
      let adv := (((body.map VEntry.shapes).flatten).filter (fun h => h.adv != 0)).map (·.addr)
      let s := s.setCur { c with
        vq := vq, vk := len, vleft := n, vadv := c.vadv ++ adv, vcnt := c.kscnt, viter := 0
        kscnt := c.kscnt + wd (n * rsCount body) }
      pure (rearm s.focus.core s.focus.ctx s))

/-- VSYNC (R311): the queue is empty even where FPE is raised. -/
def execVsync (s : State) : Host.Outcome State Fault Refusal :=
  finish s (do
    let s ← vectorIdle s
    if flagsUp s then .error (.flags (s.cur.vflags.setWidth 64)) else pure (s.setCur s.cur.emptied))

/-- VTBL (R312, 04 R94). -/
def execVtbl (s : State) : Host.Outcome State Fault Refusal :=
  finishRun s (
    if s.core.ctxs.any (fun p => p.2.dt8Busy) then throw (.wait .entry)
    else
      let a := s.cur.xdt.toNat
      if a % 4 ≠ 0 then misaligned a
      else do
        let (b, s) ← loadSpan a 1024 s
        let tab := (upTo 256).map (fun i => BitVec.ofNat 32 (leAt b (4 * i) 4))
        if dt8Ok tab then pure (s.setCoreCur { s.core with dt8 := tab, dt8Tag := s.cur.xdt })
        else fmtTrap a)

end Sys2Proof.Machine
end

