-- ==== Sys2Proof/Machine/Matrix.lean ====
section
/-! DEFINITION. The matrix engine: slots, claims, fills, tile opcodes, their queues and the datapath (14 R319 to R340),
with the record log that fills and tile opcodes write (R343 to R346). -/
namespace Sys2Proof.Machine

/-! ### Slots (R319, R320) -/

/-- The most rows and columns of a slot type; none for a type no slot has. -/
def slotLimit (t : Nat) : Option (Nat × Nat) :=
  match t with
  | 0 => some (128, 64)
  | 1 | 2 | 3 => some (128, 128)
  | 4 | 5 | 6 | 7 | 8 | 9 => some (256, 128)
  | _ => none

/-- A shape meets R319. -/
def shapeFits (t rows cols : Nat) : Bool :=
  match slotLimit t with
  | some (r, c) => decide (1 ≤ rows ∧ rows ≤ r ∧ 1 ≤ cols ∧ cols ≤ c)
  | none => false

/-- A matrix input type (R319). -/
def matrixInput (t : Nat) : Bool := decide (1 ≤ t ∧ t ≤ 9)

/-- Rows and columns of the scale array (R320). -/
def Decl.scaleDims (d : Decl) : Nat × Nat :=
  match d.orient with
  | 1 => (d.rows, ceilDiv d.cols 32)
  | 2 => (ceilDiv d.rows 32, d.cols)
  | _ => (0, 0)

/-- How many scales a slot has. -/
def Decl.scaleCount (d : Decl) : Nat := d.scaleDims.1 * d.scaleDims.2

/-- The bytes of a packed row (R81, R327): 6-bit rows in whole groups of three bytes. -/
def rowBytes (t cols : Nat) : Nat :=
  if typeBits t = 6 then 3 * ceilDiv cols 4 else ceilDiv (typeBits t * cols) 8

/-- A packed list cut into `n` rows of `w`. -/
def cutRows {α : Type} : Nat → Nat → List α → List (List α)
  | 0, _, _ => []
  | n + 1, w, l => l.take w :: cutRows n w (l.drop w)

/-- Rows and columns exchanged. -/
def transposeRows {α : Type} (d : α) (cols : Nat) (m : List (List α)) : List (List α) :=
  (upTo cols).map (fun j => m.map (fun r => r.getD j d))

/-- The value of element (i, j) under its scale (R97, R336). -/
def elemVal (dt8 : List (BitVec 32)) (d : Decl) (scales : List Nat) (i j x : Nat) : Val :=
  match d.orient with
  | 1 => mxValue d.ty x (scales.getD (i * ceilDiv d.cols 32 + j / 32) 0)
  | 2 => mxValue d.ty x (scales.getD (i / 32 * d.cols + j) 0)
  | _ => valueOf dt8 d.ty x

/-- The values of a tile, row by row. -/
def tileVals (dt8 : List (BitVec 32)) (d : Decl) (data scales : List Nat) : List (List Val) :=
  (cutRows d.rows d.cols data).zipIdx.map (fun r => r.1.zipIdx.map (fun x => elemVal dt8 d scales r.2 x.2 x.1))

/-- The non-finite summary, one bit for each 32 × 32 sub-block, row by row (R101). -/
def summaryOf (d : Decl) (vals : List (List Val)) : List Bool :=
  ((upTo (ceilDiv d.rows 32)).map (fun p => (upTo (ceilDiv d.cols 32)).map (fun q =>
    ((vals.drop (32 * p)).take 32).any (fun r => ((r.drop (32 * q)).take 32).any Val.isNonFin)))).flatten

/-- A slot's contents written: a claim and a declared state stay as they are. -/
def MSlot.filled (m : MSlot) (dt8 : List (BitVec 32)) (d : Decl) (data scales : List Nat) : MSlot :=
  { m with held := some d, data := data, scales := scales, summary := summaryOf d (tileVals dt8 d data scales), bad := false }

/-- +0 as a slot holds it: code 0, but of dt8 no code, since no entry of a table need be +0 (R327, R353; log 75). -/
def zeroCode (t : Nat) : Nat := if t = 9 then 256 else 0

/-- The code that a saved copy holds for an element: +0 that is no code of dt8 is encoded (04 R96; log 75). -/
def savedCode (dt8 : List (BitVec 32)) (t x : Nat) : Nat :=
  if t = 9 && x == zeroCode t then (toDt8 dt8 Val.zero).1 else x

/-- A tile of +0 with scales 0x7F (R327, R329). -/
def Decl.zeros (d : Decl) : List Nat × List Nat :=
  (List.replicate (d.rows * d.cols) (zeroCode d.ty), List.replicate d.scaleCount 0x7F)

/-- A slot whose contents are undefined: whatever reads them gets free values (R347). -/
def MSlot.lost (m : MSlot) : MSlot := { m with held := none, data := [], scales := [], summary := [], bad := false }

/-- What reads a slot finds in it: +0 where its data is poisoned (R353, 20 R447; log 66). -/
def MSlot.sound (m : MSlot) : MSlot :=
  match m.bad, m.held with
  | true, some d => { m with data := d.zeros.1, scales := d.zeros.2 }
  | _, _ => m

/-- Replace slot `n` of a square. -/
def Square.setSlot (k : Square) (n : Nat) (v : MSlot) : Square := { k with slots := sset k.slots n v }

/-- Replace the matrix state of core `c` of a square. -/
def Square.setMcore (k : Square) (c : Nat) (v : MCore) : Square := { k with mcores := sset k.mcores c v }

/-- The executing core holds slot `n` of its square. -/
def State.holdsSlot (s : State) (n : Nat) : Bool := ((s.sqAt s.sq).slot n).claim.any (fun c => c.1 == s.lane)

/-- The executing core holds its square's accumulator. -/
def State.holdsAcc (s : State) : Bool := (s.sqAt s.sq).acc.any (fun c => c.1 == s.lane)

/-- Count `n` abandoned fill lines and operands, and opcodes with a NaN or an infinity, for core `lane` (R322). -/
def State.matrixStatus (s : State) (q lane fail nf : Nat) : State :=
  let k := s.sqAt q
  let m := k.mcore lane
  s.setSq q (k.setMcore lane { m with fail := satAdd m.fail fail, nf := satAdd m.nf nf })

/-! ### The accumulator (R321) -/

/-- The core and local offset of C(r, c). -/
def accAt (q r c : Nat) : Nat × Nat := (8 * q + 4 * (r / 64) + c / 32, 0x6D000 + 128 * (r % 64) + 4 * (c % 32))

/-- The line of C with element (r, c) is poisoned (20 R447). -/
def accBad (s : State) (q r c : Nat) : Bool := (s.coreAt (accAt q r c).1).poisoned (accAt q r c).2 4

/-- C as f32 codes, 128 rows of 128; a poisoned line is abandoned, and reads as +0 (R353). -/
def accRows (s : State) (q : Nat) : List (List Nat) :=
  (upTo 128).map (fun r => (upTo 128).map (fun c =>
    if accBad s q r c then 0 else s.localLe (accAt q r c).1 (accAt q r c).2 4))

/-- How many poisoned lines of C lie in its first rows and columns. -/
def accFails (s : State) (q : Nat) (p : Nat × Nat) : Nat :=
  (upTo p.1).foldl (fun n r => n + ((upTo (ceilDiv p.2 32)).filter (fun b => accBad s q r (32 * b))).length) 0

/-- Write the first rows and columns of C. -/
def putAcc (q : Nat) (p : Nat × Nat) (m : List (List Nat)) (s : State) : State :=
  (m.take p.1).zipIdx.foldl (fun s row => (upTo (ceilDiv p.2 32)).foldl (fun s b =>
    s.localPut (accAt q row.2 (32 * b)).1 (accAt q row.2 (32 * b)).2
      (((((row.1.take p.2).drop (32 * b)).take 32).map (leBytes 4)).flatten)) s) s

/-! ### Claims (R324, R325) -/

/-- The slots of a mask. -/
def maskSlots (m : Word) : List Nat := (upTo 64).filter (fun n => bitW m n)

/-- MCLAIM (R324). -/
def execMclaim (d a b : BitVec 6) (s : State) : Host.Outcome State Fault Refusal :=
  guarded (.mclaim d a b) s (fun s => do
    let (x, y, s) ← readTwo a b s
    let k := s.sqAt s.sq
    let slots := maskSlots x
    let acc := bitW y 0
    let other (c : Option (Nat × Nat)) : Bool := c.any (fun h => h.1 != s.lane)
    if slots.any (fun n => other (k.slot n).claim) || (acc && other k.acc) then writeReg d.toNat 1 s
    else
      let k := slots.foldl (fun k n =>
        let m := k.slot n
        k.setSlot n (if m.claim.isNone then { m with claim := some (s.lane, s.kdom), decl := none }
          else { m with claim := some (s.lane, s.kdom) })) k
      let k := if acc then { k with acc := some (s.lane, s.kdom) } else k
      writeReg d.toNat 0 (s.setSq s.sq k))

/-- A matrix command names one of some slots, or the accumulator. -/
def MCmd.names (c : MCmd) (slots : List Nat) (acc : Bool) : Bool :=
  (c.reads ++ c.writes).any slots.contains || (acc && c.acc)

/-- MREL (R325). -/
def execMrel (a b : BitVec 6) (s : State) : Host.Outcome State Fault Refusal :=
  guarded (.mrel a b) s (fun s => do
    let (x, y, s) ← readTwo a b s
    let k := s.sqAt s.sq
    let slots := maskSlots x
    let acc := bitW y 0
    if !slots.all s.holdsSlot || (acc && !s.holdsAcc) || (k.mcore s.lane).recording then ill s
    else if k.mq.any (fun c => c.hdr.core == s.focus.core && c.names slots acc) ||
        k.kq.any (fun c => c.hdr.core == s.focus.core && c.slot.any slots.contains) then .error (.wait .hub)
    else
      let m := k.mcore s.lane
      let k := slots.foldl (fun k n => k.setSlot n MSlot.reset) k
      let k := k.setMcore s.lane { m with producer := m.producer.filter (fun p => !slots.contains p.1) }
      pure (s.setSq s.sq (if acc then { k with acc := none } else k)))

/-! ### The log at issue (R343 to R346) -/

/-- Round up to lines. -/
def roundLine (n : Nat) : Nat := 128 * ceilDiv n 128

/-- The size of a gradient buffer (R344). -/
def Decl.gradSize (d : Decl) : Nat := roundLine (4 * d.rows * d.cols)

/-- The size of a saved copy (R344). -/
def Decl.saveSize (d : Decl) : Nat := roundLine (d.rows * rowBytes d.ty d.cols + d.scaleCount)

/-- The size of a saved C (R344). -/
def savedCSize : Nat := 65536

/-- The log index of a slot's producer. -/
def MCore.producerOf (m : MCore) (n : Nat) : Option Nat := sget none m.producer n

/-- The log index the next entry takes. -/
def MCore.nextIndex (m : MCore) : Nat := (m.logPos.toNat - m.logBase.toNat) / 64

/-- Allocate an entry with its buffers; the slot's producer becomes the entry (R344). -/
def MCore.allocate (m : MCore) (e : LogEnt) : LogEnt × MCore :=
  let g := match e.slot, e.decl with
    | some _, some d => d.gradSize
    | _, _ => 0
  let v := match e.sv, e.decl with
    | true, some d => d.saveSize
    | _, _ => 0
  let c := if e.sc then savedCSize else 0
  ({ e with addr := m.logPos.toNat, grad := if e.slot.isSome then m.gradPos.toNat else 0,
            saved := if e.sv then m.savePos.toNat else 0, savedC := if e.sc then m.savePos.toNat + v else 0 },
   { m with logPos := m.logPos + 64, gradPos := m.gradPos + wd g, savePos := m.savePos + wd (v + c),
            producer := match e.slot with
              | some n => sset m.producer n (some m.nextIndex)
              | none => m.producer })

/-- A snapshot entry of slot `n` (R344). -/
def snapshotEnt (core n : Nat) (d : Option Decl) : LogEnt :=
  { addr := 0, word := 0, kind := 2, core := core, sv := true, sc := false, rdy := false, entry := 0, slot := some n,
    srcA := none, srcB := none, src := 0, scale := 0, saved := 0, grad := 0, savedC := 0, decl := d, pitch := 0 }

/-- Snapshots for the source slots that no logged command has produced, in order (R344). -/
def snapshots (k : Square) (core : Nat) : List Nat → MCore → List LogEnt × MCore
  | [], m => ([], m)
  | n :: r, m =>
    if (m.producerOf n).isSome then snapshots k core r m
    else
      let (e, m) := m.allocate (snapshotEnt core n (k.slot n).decl)
      let (l, m) := snapshots k core r m
      (e :: l, m)

/-- The allocations that moved the positions from those of `o` lie within their limits; where none was made in an arena its
limit is not asked (R344). -/
def MCore.inArenas (o m : MCore) : Bool :=
  decide ((m.logPos = o.logPos ∨ m.logPos.toNat ≤ m.logLimit.toNat) ∧
    (m.savePos = o.savePos ∨ m.savePos.toNat ≤ m.saveLimit.toNat) ∧
    (m.gradPos = o.gradPos ∨ m.gradPos.toNat ≤ m.gradLimit.toNat))

/-- The entries of a logged command of the executing core, its own last; LOGOVF when they do not fit (R344). Nothing is
logged outside record mode. -/
def logEntries (srcA srcB : Option Nat) (e : LogEnt) (s : State) : Except Stop (List LogEnt × MCore) :=
  let k := s.sqAt s.sq
  let m := k.mcore s.lane
  if !m.recording then
    .ok ([], match e.slot with
      | some n => { m with producer := sset m.producer n none }
      | none => m)
  else
    let o := m
    let (l, m) := snapshots k s.lane (srcA.toList ++ srcB.toList) m
    let (e, m) := m.allocate { e with
      word := s.focus.word.toNat % 2 ^ 31, core := s.lane, srcA := srcA.bind m.producerOf, srcB := srcB.bind m.producerOf }
    if MCore.inArenas o m then .ok (l ++ [e], m) else trapS 5 (wd e.addr)

/-- The lines an entry and its saved copies take (R346). -/
def LogEnt.lines (e : LogEnt) : List Nat :=
  let span (a n : Nat) : List Nat := (upTo (ceilDiv (a % 128 + n) 128)).map (fun i => a / 128 + i)
  let v := match e.sv, e.decl with
    | true, some d => d.saveSize
    | _, _ => 0
  span e.addr 64 ++ span e.saved v ++ span e.savedC (if e.sc then savedCSize else 0)

/-- The declared state as an entry holds it (R343). -/
def Decl.word (d : Decl) : Nat := d.ty + (d.rows - 1) * 2 ^ 8 + (d.cols - 1) * 2 ^ 16 + d.orient * 2 ^ 24

/-- A log index as an entry holds it. -/
def indexWord : Option Nat → Nat
  | some n => n
  | none => 0xFFFFFFFF

/-- The 64 bytes of an entry (R343). -/
def LogEnt.bytes (e : LogEnt) : List Byte :=
  leBytes 4 e.word ++ leBytes 1 e.kind ++
    leBytes 1 (e.core + (if e.sv then 8 else 0) + (if e.sc then 16 else 0) + (if e.rdy then 32 else 0)) ++
    leBytes 1 e.entry ++ leBytes 1 (e.slot.getD 0xFF) ++ leBytes 4 (indexWord e.srcA) ++ leBytes 4 (indexWord e.srcB) ++
    leBytes 8 e.src ++ leBytes 8 e.scale ++ leBytes 8 e.saved ++ leBytes 8 e.grad ++ leBytes 8 e.savedC ++
    leBytes 4 ((e.decl.map Decl.word).getD 0) ++ leBytes 4 e.pitch

/-- The codes of a row packed into its bytes (R81). -/
def packRow (t : Nat) (row : List Nat) : List Byte :=
  leBytes (rowBytes t row.length) ((row.zipIdx.map (fun p => p.1 * 2 ^ (typeBits t * p.2))).foldl (· + ·) 0)

/-- A saved copy's bytes (R344). -/
def saveBytes (dt8 : List (BitVec 32)) (d : Decl) (data scales : List Nat) : List Byte :=
  let b := ((cutRows d.rows d.cols (data.map (savedCode dt8 d.ty))).map (packRow d.ty)).flatten ++ (scales.map (leBytes 1)).flatten
  b ++ leBytes (d.saveSize - b.length) 0

/-- A saved C's bytes (R344). -/
def accBytes (m : List (List Nat)) : List Byte := ((m.map (fun r => (r.map (leBytes 4)).flatten))).flatten

/-- Write an entry with its saved copy, from the slot's contents, and its saved C (R346). -/
def writeLog (a : Agent) (dt8 : List (BitVec 32)) (e : LogEnt) (m : MSlot) (c : List (List Nat)) (s : State) : Except EStop State := do
  let s ← engineWritesSkip a e.addr e.bytes s
  let s ← (match e.sv, e.decl with
    | true, some d => engineWritesSkip a e.saved (saveBytes dt8 d m.data m.scales) s
    | _, _ => pure s)
  if e.sc then engineWritesSkip a e.savedC (accBytes c) s else pure s

/-! ### Appending a matrix command (R328, R336) -/

/-- Append a matrix command with its log entries: the declared states of the slots it writes, the core's positions and
producers, and the ownership of the entries' lines. -/
def appendMatrix (q : Option Region) (dst : List (Nat × Option Decl)) (l : List LogEnt) (m : MCore) (owns : List Nat)
    (c : CmdHdr → MCmd) (s : State) : Except Stop State := do
  let (h, s) ← appendCmd 1 q s
  let k := s.sqAt s.sq
  let k := dst.foldl (fun k p => k.setSlot p.1 { k.slot p.1 with decl := p.2 }) k
  let k := k.setMcore s.lane m
  let s := s.setSq s.sq { k with mq := k.mq ++ [c h] }
  pure (s.own h.ord (sortNats ((l.map LogEnt.lines).flatten ++ owns)))

/-! ### Fills at issue (R326 to R328) -/

/-- The forms of a fill. -/
inductive FillForm where
  | loc | rg | street | avenue
  deriving DecidableEq, Repr

/-- The neighbour square of a fill (01 R3, R4): avenue q mod 8, street q / 8 mod 4 of its district. -/
def neighbourOf (q : Nat) (street plus : Bool) : Option Nat :=
  if street then
    (if plus then (if q % 8 = 7 then none else some (q + 1)) else (if q % 8 = 0 then none else some (q - 1)))
  else (if plus then (if q / 8 % 4 = 3 then none else some (q + 8)) else (if q / 8 % 4 = 0 then none else some (q - 8)))

/-- The hull of a region with boxes: lo and hi of four dimensions. -/
def Region.hull4 (q : Region) : Option (List (Int × Int)) :=
  match q.boxes with
  | [] => none
  | b :: r =>
    let h := r.foldl hull b
    some (((h ++ List.replicate 4 (Dim.mk 0 1 1)).take 4).map (fun d => (d.lo, d.hi)))

/-- A local address is aligned for a fill of type `t` (R328). -/
def fillAligned (t addr : Nat) : Bool :=
  addr % (if typeBits t = 16 then 2 else if t = 0 || t = 3 then 4 else if typeBits t = 6 then 3 else 1) == 0

/-- The PROT checks of the local rows. -/
def rowsCheck (addr pitch rows n : Nat) (s : State) : Except Stop Unit :=
  (upTo rows).foldlM (fun _ i => localCheck false ((addr + i * pitch) % 2 ^ 64) n s) ()

/-- The PROT check of a scale array. -/
def scaleCheck (sa n : Nat) (s : State) : Run State :=
  if sa = 0 then pure s
  else if isLocal sa then do
    localCheck false sa n s
    pure s
  else spanGrant needR none sa n s

/-- Cells of a region that a fill takes in every row without gaps: exact, not ragged, one box, steps 1 in dimensions 0
and 1, elements side by side (R345). -/
def Region.plain (q : Region) (d : Desc) : Bool :=
  match q.boxes with
  | [b] => !q.ix && !q.rg && ((b.take 2).all (fun x => x.step == 1)) &&
      (isSub d.ty || d.strides.headD 0 == (typeBytes d.ty : Int))
  | _ => false

/-- What a fill takes from its `.rg` operand: the region, its descriptor when it is valid, and whether the ranks agree. -/
structure FillRegion where
  region : Region
  desc : Option (Desc × Bool)
  deriving DecidableEq, Repr

/-- Read a `.rg` operand's descriptor with its PROT; a descriptor that is not valid fails later, with FMT. -/
def fillRegion (q : Region) (s : State) : Run (FillRegion × State) :=
  if q.isNull then pure (⟨q, none⟩, s)
  else do
    let (b, s) ← descFetch q.handle s
    pure (⟨q, match descParse s q.handle b with
      | .ok d => some (d, d.rank == q.rank)
      | .error _ => none⟩, s)

/-- The footprint and rights check of a `.rg` operand (R328). -/
def FillRegion.check (r : FillRegion) (s : State) : Run State :=
  match r.desc with
  | some (d, true) => if r.region.boxes.isEmpty then pure s else do
      let s ← regionSource d r.region.cells s
      regionLocal false d r.region.cells s
      pure s
  | _ => pure s

/-- The `.rg` operand fails R249, has another type than the shadow, or spans dimension 2 or 3 (R327, R328). -/
def FillRegion.bad (r : FillRegion) (t : Nat) : Bool :=
  match r.desc with
  | some (d, ok) => !ok || d.ty != t ||
      (match r.region.hull4 with
        | some h => (h.drop 2).any (fun x => x.2 - x.1 != 1)
        | none => false)
  | none => !r.region.isNull

/-- Appends of MLDA and MLDB (R326 to R328); `isB` for MLDB. -/
def fillBody (form : FillForm) (isB : Bool) (d a b : BitVec 6) (s : State) : Run State := do
  let (x, y, s) ← (match form with
    | .rg => do
      let (y, s) ← readReg b.toNat s
      pure ((0 : Word), y, s)
    | _ => readTwo a b s)
  let n := d.toNat
  let t := (if isB then s.cur.xfb else s.cur.xfa).toNat
  let sa := (if isB then s.cur.xsb else s.cur.xsa).toNat
  let nbr := neighbourOf s.sq (form == .street) (bitW x 8)
  let isNbr := form == .street || form == .avenue
  if !s.holdsSlot n || (isNbr && nbr.isNone) then ill s
  else if form == .loc && !fillAligned t x.toNat then misaligned x.toNat
  else
    let q : Region := if form == .rg then s.qreg a.toNat else Region.null
    let lohi := q.hull4
    let span (i : Nat) (h : List (Int × Int)) : Nat := let p := h.getD i (0, 1); (p.2 - p.1).toNat
    let rows := match lohi with
      | some h => span 1 h
      | none => bitsW y 7 0 + 1
    let cols := match lohi with
      | some h => span 0 h
      | none => bitsW y 15 8 + 1
    let pitch := bitsW y 63 32
    let dec : Decl := ⟨t, rows, cols, if sa = 0 then 0 else if isB then 2 else 1⟩
    if form == .loc then rowsCheck x.toNat pitch rows (rowBytes t cols) s
    let s ← scaleCheck sa dec.scaleCount s
    let (r, s) ← fillRegion q s
    let s ← r.check s
    if (slotLimit t).isNone then fmtTrap t
    else if !shapeFits t rows cols || (form == .loc && decide (pitch < rowBytes t cols)) then fmtOpen s
    else if (sa != 0 && (decide (t ≤ 3) || t == 9)) || (sa == 0 && isSub t) then fmtOpen s
    else if r.bad t then fmtTrap (descAddr s s.kdom q.handle).1
    else if t == 9 && s.cur.xdt != s.core.dt8Tag then fmtTrap s.cur.xdt.toNat
    else if ((s.sqAt s.sq).mcore s.lane).recording && !((s.sqAt s.sq).mcore s.lane).armed then fmtOpen s
    else
      let desc := r.desc.map (·.1)
      let empty := form == .rg && q.boxes.isEmpty
      let sv := bitW y 25 || isNbr || (form == .rg && !(desc.any q.plain))
      let e : LogEnt :=
        { addr := 0, word := 0, kind := 1, core := 0, sv := sv, sc := false, rdy := bitW y 24,
          entry := if bitW y 24 then bitsW y 23 16 else 0, slot := some n, srcA := none, srcB := none,
          src := match form, desc, lohi with
            | .loc, _, _ => x.toNat
            | .rg, some de, some h => cellAddr de ((h.map (·.1)).take q.rank)
            | _, _, _ => 0
          scale := sa, saved := 0, grad := 0, savedC := 0, decl := some dec,
          pitch := match form, desc with
            | .loc, _ => pitch
            | .rg, some de => ofIntN 32 (de.strides.getD 1 0)
            | _, _ => 0 }
      let (l, m) ← logEntries none none e s
      appendMatrix (if form == .rg then some q else none) [(n, some dec)] l m []
        (fun h =>
          { hdr := h, kind := .fill, a := n, b := 0, reads := [], writes := [n], acc := false,
            src := if isNbr then .nbr (nbr.getD 0) (bitsW x 5 0) else if form == .loc then .loc x
              else if empty then .nothing else .reg q
            decl := some dec, scale := wd sa, pitch := pitch, dt8 := s.core.dt8, rdy := none, begun := false, log := l,
            entries := 0, arena := 0 }) s

/-- MLDA (R326). -/
def execMlda (d a b : BitVec 6) (s : State) : Host.Outcome State Fault Refusal :=
  guardedRun (.mlda d a b) s (fillBody .loc false d a b)

/-- MLDA.rg (R327). -/
def execMldaRg (d a b : BitVec 6) (s : State) : Host.Outcome State Fault Refusal :=
  guardedRun (.mldaRg d a b) s (fillBody .rg false d a b)

/-- MLDA.st (R327). -/
def execMldaSt (d a b : BitVec 6) (s : State) : Host.Outcome State Fault Refusal :=
  guardedRun (.mldaSt d a b) s (fillBody .street false d a b)

/-- MLDA.av (R327). -/
def execMldaAv (d a b : BitVec 6) (s : State) : Host.Outcome State Fault Refusal :=
  guardedRun (.mldaAv d a b) s (fillBody .avenue false d a b)

/-- MLDB (R326). -/
def execMldb (d a b : BitVec 6) (s : State) : Host.Outcome State Fault Refusal :=
  guardedRun (.mldb d a b) s (fillBody .loc true d a b)

/-- MLDB.rg (R327). -/
def execMldbRg (d a b : BitVec 6) (s : State) : Host.Outcome State Fault Refusal :=
  guardedRun (.mldbRg d a b) s (fillBody .rg true d a b)

/-- MLDB.st (R327). -/
def execMldbSt (d a b : BitVec 6) (s : State) : Host.Outcome State Fault Refusal :=
  guardedRun (.mldbSt d a b) s (fillBody .street true d a b)

/-- MLDB.av (R327). -/
def execMldbAv (d a b : BitVec 6) (s : State) : Host.Outcome State Fault Refusal :=
  guardedRun (.mldbAv d a b) s (fillBody .avenue true d a b)

/-! ### Status and weights (R333, R334) -/

/-- MSEQ (R333). -/
def execMseq (d a : BitVec 6) (s : State) : Host.Outcome State Fault Refusal :=
  guarded (.mseq d a) s (fun s => do
    let (x, s) ← readReg a.toNat s
    let c := bitsW x 2 0
    let m := (s.sqAt s.sq).mcore c
    writeReg d.toNat (if bitW x 8 then wd (m.nf.toNat * 2 ^ 32 + m.fail.toNat) else wd (s.completedOf 1 c)) s)

/-- MWAIT (R333). -/
def execMwait (a b : BitVec 6) (s : State) : Host.Outcome State Fault Refusal :=
  guarded (.mwait a b) s (waitSeq 1 a b)

/-- MQW (R334). -/
def execMqw (d a : BitVec 6) (s : State) : Host.Outcome State Fault Refusal :=
  guarded (.mqw d a) s (fun s => do
    let (x, s) ← readReg a.toNat s
    let k := s.sqAt s.sq
    let m := k.mcore (bitsW x 2 0)
    writeReg d.toNat (wd m.weight) (s.setSq s.sq (k.setMcore (bitsW x 2 0) { m with weight := bitsW x 11 8 })))

/-! ### Tile opcodes at issue (R335, R336) -/

/-- The opcode reads C, writes it, or both. -/
def TileOp.usesAcc (op : TileOp) : Bool := op != .trn

/-- The opcode writes slot a. -/
def TileOp.writesSlot : TileOp → Bool
  | .rmax | .rsum | .cvt | .trn => true
  | _ => false

/-- The source slots, as the log's fields a and b name them (R343). -/
def TileOp.sources (op : TileOp) (a b : Nat) : Option Nat × Option Nat :=
  match op with
  | .mma | .mmt | .tmm => (some a, some b)
  | .add | .mul | .sclMul | .sclSet | .exp => (some a, none)
  | .trn => (none, some b)
  | _ => (none, none)

/-- The opcode's C is saved (R344). -/
def TileOp.savesAcc : TileOp → Bool
  | .mul | .sclMul | .exp | .rmax | .relu | .sqrelu | .tanh => true
  | _ => false

/-- M, N, K of a product, K as each operand has it (R337). -/
def productDims (op : TileOp) (x y : Decl) : Nat × Nat × Nat × Nat :=
  match op with
  | .mmt => (x.rows, y.rows, x.cols, y.cols)
  | .tmm => (x.cols, y.cols, x.rows, y.rows)
  | _ => (x.rows, y.cols, x.cols, y.rows)

/-- The orientations a product takes (R337). -/
def productOrient (op : TileOp) (x y : Decl) : Bool :=
  (x.orient == 0 || x.orient == (if op == .tmm then 2 else 1)) && (y.orient == 0 || y.orient == (if op == .mmt then 1 else 2))

/-- The operands' types, shapes and orientations keep the opcode's rules (R337 to R339). -/
def TileOp.operandsOk (op : TileOp) (x y : Option Decl) (xfo : Nat) : Bool :=
  match op with
  | .mma | .mmt | .tmm => match x, y with
    | some x, some y =>
      let (m, n, k, k') := productDims op x y
      matrixInput x.ty && matrixInput y.ty && productOrient op x y && k == k' && decide (m ≤ 128) && decide (n ≤ 128)
    | _, _ => false
  | .add | .mul => x.any (fun d => decide (d.rows ≤ 128))
  | .sclMul | .sclSet | .exp => x.any (fun d => d.ty == 0 && d.cols == 1)
  | .cvt => [1, 2, 3, 4, 5].contains xfo
  | .trn => y.any (fun d => shapeFits d.ty d.cols d.rows)
  | _ => true

/-- The state the written slot takes (R339). -/
def TileOp.result (op : TileOp) (y : Option Decl) (xfo : Nat) : Option Decl :=
  match op with
  | .rmax | .rsum => some ⟨0, 128, 1, 0⟩
  | .cvt => some ⟨xfo, 128, 128, 0⟩
  | .trn => y.map (fun d => ⟨d.ty, d.cols, d.rows, if d.orient = 1 then 2 else if d.orient = 2 then 1 else 0⟩)
  | _ => none

/-- Append a tile opcode (R336). The types it uses are those its slots are declared with, and the table's tag is compared when one
of them is dt8: what xfa and xfb name is not asked (04 R95; log 76). -/
def tileBody (op : TileOp) (rdy : Option Nat) (a b : Nat) (s : State) : Except Stop State := do
  let k := s.sqAt s.sq
  let (sa, sb) := op.sources a b
  let dst := if op.writesSlot then some a else none
  let named := sa.toList ++ sb.toList ++ dst.toList
  if !named.all s.holdsSlot || (op.usesAcc && !s.holdsAcc) then ill s
  else
    let x := sa.bind (fun n => (k.slot n).decl)
    let y := sb.bind (fun n => (k.slot n).decl)
    let xfo := s.cur.xfo.toNat
    if (sa.isSome && x.isNone) || (sb.isSome && y.isNone) then fmtOpen s
    else if !op.operandsOk x y xfo then (if op == .cvt then fmtTrap xfo else fmtOpen s)
    else if (x.any (·.ty == 9) || y.any (·.ty == 9)) && s.cur.xdt != s.core.dt8Tag then fmtTrap s.cur.xdt.toNat
    else
      let res := op.result y xfo
      let e : LogEnt :=
        { addr := 0, word := 0, kind := 3, core := 0, sv := op.writesSlot, sc := op.savesAcc, rdy := rdy.isSome,
          entry := rdy.getD 0, slot := dst, srcA := none, srcB := none, src := 0, scale := 0, saved := 0, grad := 0,
          savedC := 0, decl := res, pitch := 0 }
      let (l, m) ← logEntries sa sb e s
      appendMatrix none (dst.toList.map (fun n => (n, res))) l m []
        (fun h =>
          { hdr := h, kind := .tile op, a := a, b := b, reads := sa.toList ++ sb.toList, writes := dst.toList,
            acc := op.usesAcc, src := .nothing, decl := res, scale := 0, pitch := 0, dt8 := s.core.dt8, rdy := rdy,
            begun := false, log := l, entries := 0, arena := 0 }) s

/-- TMMA (R337). -/
def execTmma (a b : BitVec 6) (s : State) : Host.Outcome State Fault Refusal :=
  guarded (.tmma a b) s (tileBody .mma none a.toNat b.toNat)

/-- TMMA.rdy (R335). -/
def execTmmaRdy (t : BitVec 8) (a b : BitVec 6) (s : State) : Host.Outcome State Fault Refusal :=
  guarded (.tmmaRdy t a b) s (tileBody .mma (some t.toNat) a.toNat b.toNat)

/-- TMMT (R337). -/
def execTmmt (a b : BitVec 6) (s : State) : Host.Outcome State Fault Refusal :=
  guarded (.tmmt a b) s (tileBody .mmt none a.toNat b.toNat)

/-- TMMT.rdy (R335). -/
def execTmmtRdy (t : BitVec 8) (a b : BitVec 6) (s : State) : Host.Outcome State Fault Refusal :=
  guarded (.tmmtRdy t a b) s (tileBody .mmt (some t.toNat) a.toNat b.toNat)

/-- TTMM (R337). -/
def execTtmm (a b : BitVec 6) (s : State) : Host.Outcome State Fault Refusal :=
  guarded (.ttmm a b) s (tileBody .tmm none a.toNat b.toNat)

/-- TTMM.rdy (R335). -/
def execTtmmRdy (t : BitVec 8) (a b : BitVec 6) (s : State) : Host.Outcome State Fault Refusal :=
  guarded (.ttmmRdy t a b) s (tileBody .tmm (some t.toNat) a.toNat b.toNat)

/-- TADD (R338). -/
def execTadd (a : BitVec 6) (s : State) : Host.Outcome State Fault Refusal :=
  guarded (.tadd a) s (tileBody .add none a.toNat 0)

/-- TADD.rdy (R335). -/
def execTaddRdy (t : BitVec 8) (a : BitVec 6) (s : State) : Host.Outcome State Fault Refusal :=
  guarded (.taddRdy t a) s (tileBody .add (some t.toNat) a.toNat 0)

/-- TMUL (R338). -/
def execTmul (a : BitVec 6) (s : State) : Host.Outcome State Fault Refusal :=
  guarded (.tmul a) s (tileBody .mul none a.toNat 0)

/-- TMUL.rdy (R335). -/
def execTmulRdy (t : BitVec 8) (a : BitVec 6) (s : State) : Host.Outcome State Fault Refusal :=
  guarded (.tmulRdy t a) s (tileBody .mul (some t.toNat) a.toNat 0)

/-- TSCL.mul (R338). -/
def execTsclMul (a : BitVec 6) (s : State) : Host.Outcome State Fault Refusal :=
  guarded (.tsclMul a) s (tileBody .sclMul none a.toNat 0)

/-- TSCL.mul.rdy (R335). -/
def execTsclMulRdy (t : BitVec 8) (a : BitVec 6) (s : State) : Host.Outcome State Fault Refusal :=
  guarded (.tsclMulRdy t a) s (tileBody .sclMul (some t.toNat) a.toNat 0)

/-- TSCL.set (R338). -/
def execTsclSet (a : BitVec 6) (s : State) : Host.Outcome State Fault Refusal :=
  guarded (.tsclSet a) s (tileBody .sclSet none a.toNat 1)

/-- TSCL.set.rdy (R335). -/
def execTsclSetRdy (t : BitVec 8) (a : BitVec 6) (s : State) : Host.Outcome State Fault Refusal :=
  guarded (.tsclSetRdy t a) s (tileBody .sclSet (some t.toNat) a.toNat 1)

/-- TEXP (R338). -/
def execTexp (a : BitVec 6) (s : State) : Host.Outcome State Fault Refusal :=
  guarded (.texp a) s (tileBody .exp none a.toNat 0)

/-- TEXP.rdy (R335). -/
def execTexpRdy (t : BitVec 8) (a : BitVec 6) (s : State) : Host.Outcome State Fault Refusal :=
  guarded (.texpRdy t a) s (tileBody .exp (some t.toNat) a.toNat 0)

/-- TRMAX (R339). -/
def execTrmax (a : BitVec 6) (s : State) : Host.Outcome State Fault Refusal :=
  guarded (.trmax a) s (tileBody .rmax none a.toNat 0)

/-- TRSUM (R339). -/
def execTrsum (a : BitVec 6) (s : State) : Host.Outcome State Fault Refusal :=
  guarded (.trsum a) s (tileBody .rsum none a.toNat 0)

/-- TCVT (R339). -/
def execTcvt (a : BitVec 6) (s : State) : Host.Outcome State Fault Refusal :=
  guarded (.tcvt a) s (tileBody .cvt none a.toNat 0)

/-- TTRN (R339). -/
def execTtrn (a b : BitVec 6) (s : State) : Host.Outcome State Fault Refusal :=
  guarded (.ttrn a b) s (tileBody .trn none a.toNat b.toNat)

/-- The instruction that executes is legal whatever its fields: an opcode without register fields. -/
def tactBody (op : TileOp) (rdy : Option Nat) (s : State) : Host.Outcome State Fault Refusal :=
  finish s (tileBody op rdy 0 0 s)

/-- TACT.relu (R338). -/
def execTactRelu (s : State) : Host.Outcome State Fault Refusal := tactBody .relu none s

/-- TACT.sqrelu (R338). -/
def execTactSqrelu (s : State) : Host.Outcome State Fault Refusal := tactBody .sqrelu none s

/-- TACT.tanh (R338). -/
def execTactTanh (s : State) : Host.Outcome State Fault Refusal := tactBody .tanh none s

/-- TACT.relu.rdy (R335). -/
def execTactReluRdy (t : BitVec 8) (s : State) : Host.Outcome State Fault Refusal := tactBody .relu (some t.toNat) s

/-- TACT.sqrelu.rdy (R335). -/
def execTactSqreluRdy (t : BitVec 8) (s : State) : Host.Outcome State Fault Refusal := tactBody .sqrelu (some t.toNat) s

/-- TACT.tanh.rdy (R335). -/
def execTactTanhRdy (t : BitVec 8) (s : State) : Host.Outcome State Fault Refusal := tactBody .tanh (some t.toNat) s

end Sys2Proof.Machine
end

