-- ==== Sys2Proof/Machine/Collective.lean ====
section
/-! DEFINITION. The collective instructions: communicator, post and tile-table records, their checks at issue, and the
instructions that wait on lines or read status (17 R389 to R415). -/
namespace Sys2Proof.Machine

/-! ### Communicators (R392 to R396) -/

/-- Replace communicator `n` of a square. -/
def Square.setCm (k : Square) (n : Nat) (v : Comm) : Square := { k with cms := sset k.cms n v }

/-- Replace communicator `n` of square `q`. -/
def State.setCm (s : State) (q n : Nat) (v : Comm) : State := s.setSq q ((s.sqAt q).setCm n v)

/-- A count of 40 bits that skips 0 (R396). -/
def inc40 (n : Nat) : Nat := if (n + 1) % 2 ^ 40 = 0 then 1 else (n + 1) % 2 ^ 40

/-- A count `x` has reached `t` (R396). -/
def reached40 (x t : Nat) : Bool := decide ((x + 2 ^ 40 - t % 2 ^ 40) % 2 ^ 40 < 2 ^ 39)

/-- The member entry of communicator `d` of square `q` of this package. -/
def State.memberOf (s : State) (q d : Nat) : Word := wd (s.package.toNat + q * 2 ^ 15 + d * 2 ^ 22)

/-- The distance between two members, which count as distinct squares (R394, 05 R118). -/
def memberDistance (a b : Word) : Nat :=
  if memberPackage a = memberPackage b then
    (if districtOf (memberSquare a) = districtOf (memberSquare b) then 2 else 3)
  else max 4 (Config.packageDistance (memberPackage a) (memberPackage b))

/-- The lowest level of kscope that is present and covers every member from each member (R394, 05 R137). -/
def commScope (kscope : Word) (ms : List Word) : Option Nat :=
  let far := ms.foldl (fun m a => ms.foldl (fun m b => max m (memberDistance a b)) m) 2
  (upTo 8).find? (fun l => bitW kscope (8 * l + 7) && decide (far ≤ bitsW kscope (8 * l + 6) (8 * l)))

/-- The combinations of operator, data type and wire of R401. -/
def commTypes (op dty wire : Nat) : Bool :=
  if op = 0 then typeDefined dty && decide (8 ≤ typeBits dty) && wire == dty
  else if dty ≤ 3 then decide (wire ≤ 3)
  else (dty == 18 || dty == 19 || dty == 22 || dty == 23) && wire == dty

/-- Elements to a line (R395). -/
def perLine (wire : Nat) : Nat := 120 / max (typeBytes wire) 1

/-- Lines of a contribution (R399). -/
def lineCount (elems wire : Nat) : Nat := ceilDiv elems (perLine wire)

/-- The communicator of a record (R392). -/
def parseComm (b : List Byte) : Comm :=
  let w := leAt b 0 8
  let n := fieldN w 32 10 + 1
  { Comm.free with
    state := 1, ev := fieldN w 63 1 == 1, n := n, rank := fieldN w 42 10, chunk := fieldN w 26 6 + 1
    depth := fieldN w 20 6 + 1, vc := fieldN w 18 2, op := fieldN w 16 2, dty := fieldN w 8 6, wire := fieldN w 0 6
    ring := wd (leAt b 8 8), credit := wd (leAt b 16 8), putBase := wd (leAt b 24 8), putSize := leAt b 32 8
    members := (upTo n).map (fun i => wd (leAt b (64 + 8 * i) 8)) }

/-- Two entries of a list are equal. -/
def hasTwin : List Word → Bool
  | [] => false
  | a :: r => r.contains a || hasTwin r

/-- The bytes of a communicator's ring (R392). -/
def Comm.ringBytes (c : Comm) : Nat := c.depth * c.chunk * 128

/-- FMT of a communicator record (R393, R394); `own` is the entry its own rank must hold. -/
def commBad (kscope own : Word) (b : List Byte) (c : Comm) : Bool :=
  let w := leAt b 0 8
  fieldN w 52 11 != 0 || fieldN w 14 2 != 0 || fieldN w 6 2 != 0 || leAt b 40 24 != 0 ||
    c.members.any (fun m => bitsW m 63 26 != 0) || decide (c.n < 2) || decide (c.depth < 2) || c.vc == 3 ||
    !commTypes c.op c.dty c.wire || decide (c.n ≤ c.rank) || c.members.getD c.rank 0 != own || hasTwin c.members ||
    c.ring == 0 || c.putSize % 128 != 0 || (commScope kscope c.members).isNone

/-- PROT where the spec names no address for kinfo: its value is open (log 7). -/
def protOpen {α : Type} (s : State) : Except Stop α := trapS 2 (Config.freeWord s.freeCtr)

/-- The bytes of a record of the executing core: ALIGN, then PROT (R390); `n` is its size, which may depend on
its control word. -/
def collRecord (p : Nat) (n : Nat → Nat) (s : State) : Except Stop (List Byte) :=
  if p % 8 ≠ 0 then misaligned p
  else do
    let size := n (memLe s.core.mem (localOff p) 8)
    localRead p size s

/-- The addresses of a list are multiples of what stands beside them, or ALIGN (R390). -/
def alignAll : List (Nat × Nat) → Except Stop Unit
  | [] => .ok ()
  | (a, n) :: r => if a % n ≠ 0 then misaligned a else alignAll r

/-- A span that must lie in global memory with some rights. -/
def globalSpan (need : Nat) (foot : Option Footprint) (a n : Nat) (s : State) : Run State :=
  if isGlobal a then spanGrant need foot a n s else prot a

/-- A communicator of the executing core, or ILL (R390). -/
def ownCm (d : Nat) (s : State) : Except Stop Comm :=
  let c := (s.sqAt s.sq).cm d
  if c.state ≠ 0 ∧ c.owner = s.lane then .ok c else ill s

/-- The communicator belongs to the executing context's domain, or PROT (R390). -/
def ownDomain (c : Comm) (s : State) : Except Stop Unit := if c.dom = s.kdom then .ok () else protOpen s

/-- Append a command to the order of communicator `d`. -/
def appendC (d : Nat) (f : CmdHdr → CCmd) (s : State) : Except Stop (CmdHdr × State) := do
  let (h, s) ← appendCmd 3 none s
  let c := (s.sqAt s.sq).cm d
  pure (h, s.setCm s.sq d { c with order := c.order ++ [f h] })

/-- A post takes its counter: a put count, a post count, or none (R396). -/
def takeCount (c : Comm) (p : Post) : Comm × Post :=
  match p.kind with
  | .put => ({ c with puts := inc40 c.puts }, { p with count := inc40 c.puts })
  | .ring => (c, p)
  | _ => ({ c with posts := inc40 c.posts }, { p with count := inc40 c.posts })

/-- A post joins a communicator's order and takes its counter there (R396, R404, R408; log 63). -/
def Comm.join (c : Comm) (p : Post) : Comm :=
  let (c, p) := takeCount c p
  { c with order := c.order ++ [.post p] }

/-- Append a post to the order of communicator `d`. -/
def appendPost (d : Nat) (f : CmdHdr → Post) (s : State) : Except Stop (CmdHdr × State) := do
  let (h, s) ← appendCmd 3 none s
  pure (h, s.setCm s.sq d (((s.sqAt s.sq).cm d).join (f h)))

/-- The lines that a CCOMM writes as it executes: its credit word's and its ring's (R393). -/
def Comm.opensOn (c : Comm) : List Nat :=
  (c.credit.toNat / 128 :: (upTo (c.depth * c.chunk)).map (c.ring.toNat / 128 + ·)).eraseDups

/-- CCOMM (R392 to R394): the lines it will write are owned from here on (05 R128, R130). -/
def execCcomm (d a : BitVec 6) (s : State) : Host.Outcome State Fault Refusal :=
  guardedRun (.ccomm d a) s (fun s => do
    let (x, s) ← readReg a.toNat s
    if ((s.sqAt s.sq).cm d.toNat).state ≠ 0 then ill s
    else
      let b ← collRecord x.toNat (fun w => 64 + 8 * (fieldN w 32 10 + 1)) s
      let c := parseComm b
      alignAll [(c.ring.toNat, 128), (c.credit.toNat, 8), (c.putBase.toNat, 128)]
      let s ← globalSpan needW none c.ring.toNat c.ringBytes s
      let s ← globalSpan needW none c.credit.toNat 8 s
      let s ← (if c.putBase = 0 then pure s else globalSpan needW none c.putBase.toNat c.putSize s)
      if commBad s.kscope (s.memberOf s.sq d.toNat) b c then fmtTrap x.toNat
      else
        let (h, s) ← appendCmd 3 none s
        let c := { c with owner := s.lane, dom := s.kdom, scope := (commScope s.kscope c.members).getD 0,
                          order := [.comm h] }
        pure ((s.own h.ord c.opensOn).setCm s.sq d.toNat c))

/-! ### Posts and tile-table entries (R399 to R402, R407) -/

/-- A post's kind from its code; codes 5 to 7 are refused before. -/
def postKindOf (k : Nat) : PostKind :=
  match k with
  | 0 => .put | 1 => .ring | 2 => .allGather | 3 => .allReduce | _ => .bcast

/-- A group kind (R400). -/
def PostKind.isGroup : PostKind → Bool
  | .put | .ring => false
  | _ => true

/-- A kind in a flag word (R395, R399). -/
def PostKind.code : PostKind → Nat
  | .put => 0 | .ring => 1 | .allGather => 2 | .allReduce => 3 | .bcast => 4 | .bar => 5

/-- What a post record or an entry record says; both hold source, destination, count and peers alike. `bad` is a reserved
bit that is set. -/
structure PostRec where
  kind : Nat
  root : Nat
  src : Nat
  dst : Nat
  elems : Nat
  peers : List Nat
  acc : Bool
  dty : Nat
  wire : Nat
  op : Nat
  chunk : Nat
  bad : Bool
  deriving DecidableEq, Repr

/-- The peers of a record: its n16 fields that are used (R399). -/
def recPeers (b : List Byte) : List Nat := ((upTo 8).map (fun i => leAt b (32 + 2 * i) 2)).filter (· != 0xFFFF)

/-- A post record of communicator `c` (R399). -/
def parsePost (c : Comm) (b : List Byte) : PostRec :=
  let w := leAt b 0 8
  { kind := fieldN w 0 3, root := fieldN w 10 10, src := leAt b 8 8, dst := leAt b 16 8, elems := leAt b 24 4
    peers := recPeers b, acc := false, dty := c.dty, wire := c.wire, op := c.op, chunk := c.chunk
    bad := fieldN w 3 7 != 0 || fieldN w 20 44 != 0 || leAt b 28 4 != 0 || leAt b 48 16 != 0 }

/-- A tile-table record of communicator `c` (R407). -/
def parseTent (c : Comm) (b : List Byte) : PostRec :=
  let w := leAt b 0 8
  let acc := fieldN w 8 2 == 1
  { kind := fieldN w 4 3, root := fieldN w 30 10, src := leAt b 8 8, dst := leAt b 16 8, elems := leAt b 24 4
    peers := recPeers b, acc := acc, dty := if acc then 0 else c.dty, wire := fieldN w 16 6, op := fieldN w 22 2
    chunk := fieldN w 24 6 + 1
    bad := fieldN w 40 24 != 0 || fieldN w 10 6 != 0 || leAt b 28 4 != 0 || decide (2 ≤ fieldN w 8 2) }

/-- Lines of the contribution. -/
def PostRec.lines (r : PostRec) : Nat := lineCount r.elems r.wire

/-- The member contributes: every kind but a BCAST at a member that is not its root (R399). -/
def PostRec.contributes (r : PostRec) (rank : Nat) : Bool := r.kind != 4 || r.root == rank

/-- Lines of its own destination that a member of `n` posts (R400). -/
def PostRec.destLines (r : PostRec) (n : Nat) : Nat :=
  if r.kind = 2 then n * r.lines else if r.kind = 3 ∨ r.kind = 4 then r.lines else 0

/-- FMT under R399 and R401. -/
def PostRec.fmtBad (r : PostRec) (c : Comm) : Bool :=
  r.bad || decide (5 ≤ r.kind) || decide (c.n ≤ r.root) || !commTypes r.op r.dty r.wire ||
    decide (r.elems = 0 ∨ 2 ^ 24 < r.elems) || decide (65536 < ceilDiv r.lines r.chunk) || (r.kind == 3 && r.op == 0) ||
    (r.kind == 0 && (r.peers.isEmpty || r.peers.any (fun p => decide (c.n ≤ p) || p == c.rank))) ||
    (!r.acc && r.src == 0 && r.contributes c.rank)

/-- ALIGN of the addresses in the record (R390). -/
def PostRec.align (r : PostRec) : Except Stop Unit :=
  alignAll ((if r.acc then [] else [(r.src, max (typeBytes r.dty) 1)]) ++ [(r.dst, 128)])

/-- The source's bytes against rights, and the read footprint under RCHK (R399). -/
def PostRec.sourceGrant (r : PostRec) (s : State) : Run State :=
  let n := r.elems * typeBytes r.dty
  if r.acc || r.src = 0 then pure s
  else if isLocal r.src then do
    localCheck false r.src n s
    pure s
  else globalSpan needR s.srcFoot r.src n s

/-- The destination lies in global memory, and its bytes pass rights and the write footprint (R399). -/
def PostRec.destGrant (r : PostRec) (n : Nat) (s : State) : Run State :=
  globalSpan needW s.destFoot r.dst (128 * r.destLines n) s

/-- The post of a record that was appended. -/
def PostRec.post (r : PostRec) (h : CmdHdr) : Post :=
  { kind := postKindOf r.kind, root := r.root, src := wd r.src, dst := wd r.dst, elems := r.elems, peers := r.peers
    acc := r.acc, wire := r.wire, op := r.op, dty := r.dty, chunk := r.chunk, entry := none, count := 0, ord := h.ord
    seqd := some h }

/-- The lines that a post owns from its append on (05 R128): those of its own destination, and of a PUT those it writes at
each peer in the package (R400). -/
def PostRec.owns (r : PostRec) (c : Comm) (s : State) : List Nat :=
  let at_ (n : Nat) : List Nat := (upTo n).map (r.dst / 128 + ·)
  if r.kind = 0 then
    ((r.peers.filter (fun p => memberPackage (c.members.getD p 0) == s.package.toNat)).map (fun _ => at_ r.lines)).flatten
  else at_ (r.destLines c.n)

/-- CPOST (R399): a release, and the destination's lines are owned from here on (R418, 05 R128). -/
def execCpost (d a : BitVec 6) (s : State) : Host.Outcome State Fault Refusal :=
  guardedRun (.cpost d a) s (fun s => do
    let (x, s) ← readReg a.toNat s
    let c ← ownCm d.toNat s
    let b ← collRecord x.toNat (fun _ => 64) s
    let r := parsePost c b
    r.align
    ownDomain c s
    let s ← r.sourceGrant s
    let s ← r.destGrant c.n s
    if r.fmtBad c then fmtTrap x.toNat
    else
      let (h, s) ← appendPost d.toNat r.post s
      pure (s.own h.ord (r.owns c s)))

/-- The entry that a valid record writes (R407). -/
def PostRec.entry (r : PostRec) (cm : Nat) : TEntry :=
  { TEntry.invalid with
    valid := true, cm := cm, kind := r.kind, mode := if r.acc then 1 else 0, wire := r.wire, op := r.op
    chunk := r.chunk, root := r.root, src := wd r.src, dst := wd r.dst, elems := r.elems, peers := r.peers }

/-- The checks of a valid entry's record that follow those of the domains (R390, R407). -/
def entryChecks (p : Nat) (c : Comm) (r : PostRec) (s : State) : Run State := do
  let s ← r.sourceGrant s
  if r.fmtBad c || decide (c.chunk < r.chunk) || (r.acc && decide (16384 < r.elems)) then fmtTrap p else pure s

/-- CTT (R407). -/
def execCtt (a b : BitVec 6) (s : State) : Host.Outcome State Fault Refusal :=
  guardedRun (.ctt a b) s (fun s => do
    let (x, y, s) ← readTwo a b s
    let rec_ ← collRecord x.toNat (fun _ => 48) s
    let w := leAt rec_ 0 8
    let cm := fieldN w 0 4
    let k := s.sqAt s.sq
    let old := k.tent (bitsW y 7 0)
    let c ← ownCm cm s
    if old.valid && (k.cm old.cm).owner != s.lane then ill s
    else
      let valid := fieldN w 7 1 == 1
      let r := parseTent c rec_
      if valid then r.align
      ownDomain c s
      if old.valid && (k.cm old.cm).dom != s.kdom then protOpen s
      else
        let s ← (if valid then entryChecks x.toNat c r s else pure s)
        let (_, s) ← appendC cm (fun h => .ctt h (bitsW y 7 0) (if valid then r.entry cm else TEntry.invalid)) s
        pure s)

/-- CRDY (R409). -/
def execCrdy (a : BitVec 6) (s : State) : Host.Outcome State Fault Refusal :=
  guarded (.crdy a) s (fun s => do
    let (x, s) ← readReg a.toNat s
    let k := s.sqAt s.sq
    let t := k.tent (bitsW x 7 0)
    if !t.valid then ill s
    else if (k.cm t.cm).dom != s.kdom then protOpen s
    else
      let s ← release s
      pure (s.setSq s.sq ((s.sqAt s.sq).setTent (bitsW x 7 0) t.set)))

/-- CBAR (R406): its issue is a release. -/
def execCbar (d : BitVec 6) (s : State) : Host.Outcome State Fault Refusal :=
  guarded (.cbar d) s (fun s => do
    let c ← ownCm d.toNat s
    ownDomain c s
    let (_, s) ← appendPost d.toNat (fun h =>
      { kind := .bar, root := 0, src := 0, dst := 0, elems := 0, peers := [], acc := false, wire := 0, op := 0, dty := 0,
        chunk := 1, entry := none, count := 0, ord := h.ord, seqd := some h }) s
    pure s)

/-- CCLOSE (R419). -/
def execCclose (d : BitVec 6) (s : State) : Host.Outcome State Fault Refusal :=
  guarded (.cclose d) s (fun s => do
    let c ← ownCm d.toNat s
    ownDomain c s
    let (_, s) ← appendC d.toNat CCmd.close s
    pure s)

/-! ### Waiting and status (R410 to R413) -/

/-- The places among the package's appends of a square's own posts. -/
def Comm.ords (c : Comm) : List Nat :=
  c.order.filterMap (fun o => match o with
    | .post p => some p.ord
    | _ => none) ++ (match c.run with
    | some r => [r.post.ord]
    | none => [])

/-- The engine of the executing core's square reads a granted flag word. Lines its own posts have yet to write are not
recalled for it: it is the engine that owns them (05 R128). -/
def hubFlag (e : PlbEntry) (ea : Nat) (s : State) : Run (Nat × State) := do
  let mine := ((s.sqAt s.sq).cms.map (fun p => p.2.ords)).flatten
  let (pa, t) ← globalPlace e .read ea { s with owned := s.owned.filter (fun o => !mine.contains o.ord) }
  pure (memLe t.mem pa 8, { t with owned := s.owned })

/-- A flag word has reached a target (R410). -/
def flagReached (f t : Nat) : Bool := fieldN f 0 40 != 0 && reached40 (fieldN f 0 40) t

/-- A line lies in the communicator's own ring (R411). -/
def Comm.inRing (c : Comm) (a : Nat) : Bool := decide (c.ring.toNat ≤ a ∧ a < c.ring.toNat + c.ringBytes)

/-- The checks of CPOLL and CWAITF (R390, R410, R411), and the flag word; `wt` for CWAITF. -/
def flagWord (wt : Bool) (x y : Word) (s : State) : Run (Nat × State) := do
  let c := (s.sqAt s.sq).cm (bitsW y 59 56)
  if c.state = 0 then ill s
  else if x.toNat % 128 ≠ 0 then misaligned x.toNat
  else if !isGlobal x.toNat then prot x.toNat
  else
    ownDomain c s
    let (e, s) ← globalGrant .read (x.toNat + 120) 8 s
    if bitsW y 39 0 = 0 ∨ (bitW y 60 ∧ (wt ∨ !c.inRing x.toNat)) then fmtOpen s
    else hubFlag e (x.toNat + 120) s

/-- A control or data unit goes to a member of a communicator: at once within the package, over the link otherwise. -/
def State.sendUnit (s : State) (q cm : Nat) (m : Word) (u : CUnit) : State :=
  let msg : CMsg := ⟨memberCm m, s.package.toNat, q, cm, u⟩
  if memberPackage m = s.package.toNat then
    let k := s.sqAt (memberSquare m)
    s.setSq (memberSquare m) { k with cin := k.cin ++ [msg] }
  else { s with linkOut := s.linkOut ++ [⟨memberPackage m, memberSquare m, msg⟩] }

/-- The successor's member entry (R396). -/
def Comm.succ (c : Comm) : Word := c.members.getD ((c.rank + 1) % max c.n 1) 0

/-- The predecessor's member entry (R396). -/
def Comm.pred (c : Comm) : Word := c.members.getD ((c.rank + c.n - 1) % max c.n 1) 0

/-- freed rises over slots that are free in sequence order (R398); the number bounds the rise. -/
def riseFreed : Nat → Nat → List Nat → Nat × List Nat
  | 0, f, out => (f, out)
  | k + 1, f, out => if out.contains (inc40 f) then riseFreed k (inc40 f) (out.filter (· != inc40 f)) else (f, out)

/-- Ring slots of communicator `n` of square `q` are free: freed rises in sequence order and is reported to the
predecessor (R397, R398). -/
def freeSlots (q n : Nat) (seqs : List Nat) (s : State) : State :=
  let c := (s.sqAt q).cm n
  let (f, out) := riseFreed (c.freedOut.length + seqs.length) c.freed (c.freedOut ++ seqs)
  let s := s.setCm q n { c with freed := f, freedOut := out }
  if f = c.freed then s else s.sendUnit q n c.pred (.freed f)

/-- CPOLL (R410, R411). -/
def execCpoll (d a b : BitVec 6) (s : State) : Host.Outcome State Fault Refusal :=
  guardedRun (.cpoll d a b) s (fun s => do
    let (x, y, s) ← readTwo a b s
    let (f, s) ← flagWord false x y s
    let t := bitsW y 39 0
    let cm := bitsW y 59 56
    if !flagReached f t then writeReg d.toNat 0 s
    else
      let s ← (if bitW y 60 then do
          let s ← release s
          let c := (s.sqAt s.sq).cm cm
          let go := c.held.filter (fun q => reached40 t q)
          pure (freeSlots s.sq cm go (s.setCm s.sq cm { c with held := c.held.filter (fun q => !reached40 t q) }))
        else pure s)
      writeReg d.toNat (wd f) s)

/-- CWAITF (R410). -/
def execCwaitf (a b : BitVec 6) (s : State) : Host.Outcome State Fault Refusal :=
  guardedRun (.cwaitf a b) s (fun s => do
    let (x, y, s) ← readTwo a b s
    let (f, s) ← flagWord true x y s
    if flagReached f (bitsW y 39 0) then pure s else throw (.wait (.flag x.toNat (bitsW y 39 0))))

/-- CSEQ (R412). -/
def execCseq (d a : BitVec 6) (s : State) : Host.Outcome State Fault Refusal :=
  guarded (.cseq d a) s (fun s => do
    let (x, s) ← readReg a.toNat s
    writeReg d.toNat (wd (s.completedOf 3 (bitsW x 2 0))) s)

/-- CSEQ.wt (R412). -/
def execCseqWt (a b : BitVec 6) (s : State) : Host.Outcome State Fault Refusal :=
  guarded (.cseqWt a b) s (waitSeq 3 a b)

/-- The communicator status word (R413). -/
def Comm.status (c : Comm) : Word :=
  wd (c.state + (if c.ovf then 4 else 0) + (if c.mis then 8 else 0) + (if c.xf then 16 else 0) + c.scope % 8 * 32 +
    c.posts % 2 ^ 40 * 2 ^ 24)

/-- The entry status word (R413). -/
def TEntry.status (t : TEntry) : Word :=
  wd (t.st % 4 + (if t.valid then 4 else 0) + t.merged.toNat * 8 + t.fire.toNat * 2 ^ 32)

/-- CSTAT (R413). -/
def execCstat (d a : BitVec 6) (s : State) : Host.Outcome State Fault Refusal :=
  guarded (.cstat d a) s (fun s => do
    let (x, s) ← readReg a.toNat s
    let k := s.sqAt s.sq
    match bitsW x 9 8 with
    | 0 =>
      let n := bitsW x 3 0
      let c := k.cm n
      if bitW x 12 && (c.state == 0 || c.owner != s.lane || !s.isComm) then ill s
      else if c.state != 0 && c.dom != s.kdom then protOpen s
      else writeReg d.toNat c.status (if bitW x 12 then s.setCm s.sq n { c with ovf := false, xf := false } else s)
    | 1 =>
      let t := k.tent (bitsW x 7 0)
      if t.valid && (k.cm t.cm).dom != s.kdom then protOpen s else writeReg d.toNat t.status s
    | 2 =>
      let c := bitsW x 2 0
      writeReg d.toNat (wd ((sget 0 k.cfail c).toNat + (sget 0 k.crdyx c).toNat * 2 ^ 32 +
        (sget 0 k.clost c).toNat * 2 ^ 48)) s
    | _ => writeReg d.toNat (wd s.package.toNat) s)

/-- CARB (R415). -/
def execCarb (d a : BitVec 6) (s : State) : Host.Outcome State Fault Refusal :=
  guarded (.carb d a) s (fun s => do
    let (x, s) ← readReg a.toNat s
    let k := s.sqAt s.sq
    writeReg d.toNat (k.carb.setWidth 64) (s.setSq s.sq { k with carb := x.setWidth 12 }))

end Sys2Proof.Machine
end

