-- ==== Sys2Proof/Machine/CollectiveRun.lean ====
section
/-! DEFINITION. The collective engine's own steps: command order, posts, chunks, rings, arbitration, the tile table and
events (17 R391, R395 to R408, R414 to R420). -/
namespace Sys2Proof.Machine

/-! ### Status counts and events (R391, R413) -/

/-- FAIL of a core of square `q` rises (R413). -/
def State.collFail (s : State) (q lane n : Nat) : State :=
  let k := s.sqAt q
  s.setSq q { k with cfail := sset k.cfail lane (satAdd (sget 0 k.cfail lane) n) }

/-- An event unit of communicator `n` (R391). -/
def eventUnit (core ctx tag n ent posts : Nat) : PUnit :=
  { data := wd (core % 1024 + ctx % 16 * 2 ^ 10 + 2 ^ 14 + tag * 2 ^ 24 +
      (n % 16 + ent % 256 * 2 ^ 4 + posts % 2 ^ 20 * 2 ^ 12) * 2 ^ 32),
    tag := BitVec.ofNat 8 tag, first := true, last := true, abort := false, sup := true, score := core, sctx := ctx }

/-- Port rx1 of a core's communication context takes an event unit now. -/
def State.eventRoom (s : State) (c : Nat) : Bool :=
  let k := s.coreAt c
  let p := (k.ctxAt k.comm).rx1
  p.openBy.isNone && !p.full

/-- An event unit is on its way to rx1 of a core's communication context. -/
def State.sendEvent (s : State) (c : Nat) (u : PUnit) : State :=
  let k := s.coreAt c
  let x := k.ctxAt k.comm
  s.setCtx c k.comm { x with rx1 := { x.rx1 with flight := x.rx1.flight ++ [u] } }

/-- Report an event of communicator `n` of square `q` when EV is set: to rx1, to the queue of 8, or dropped (R391). -/
def State.collEvent (s : State) (q n tag : Nat) (ent : Option Nat) : State :=
  let c := (s.sqAt q).cm n
  if !c.ev then s
  else
    let core := q * 8 + c.owner
    let k := s.coreAt core
    let u := eventUnit core k.comm tag n (ent.getD 0xFF) c.posts
    if k.events.isEmpty && s.eventRoom core then s.sendEvent core u
    else if k.events.length < 8 then s.setCore core { k with events := k.events ++ [u] }
    else
      let k := s.sqAt q
      s.setSq q { k with clost := sset k.clost c.owner (satInc (sget 0 k.clost c.owner)) }

/-- COLLECTIVE_EVENT_DELIVERY (R391). -/
def execCollectiveEventDelivery (core : Nat) (s : State) : Host.Outcome State Fault Refusal :=
  hwStep (decide (core < 1024)) s (fun s =>
    match (s.coreAt core).events with
    | [] => s
    | u :: r =>
      if s.eventRoom core then (s.setCore core { s.coreAt core with events := r }).sendEvent core u else s)

/-! ### Completing a post (R404, R405, R408) -/

/-- A firing's entry after its post (R408). -/
def TEntry.fired (t : TEntry) : TEntry := { t with fire := satInc t.fire, st := if t.st = 3 then 1 else 0 }

/-- A firing's number in the order of appends is used no more: its lines and the pages it met go. -/
def State.forgetOrd (s : State) (ord : Nat) : State :=
  { s.disownAll ord with pageWaits := s.pageWaits.filter (fun w => w.ord != ord), aborted := s.aborted.filter (fun w => w.ord != ord) }

/-- The post under way completes: its command, or its entry, and the event. -/
def endPost (q n : Nat) (p : Post) (s : State) : State :=
  let s := s.setCm q n { (s.sqAt q).cm n with run := none }
  let s := match p.seqd with
    | some h => s.completeCmd 3 h
    | none => s
  let s := match p.entry with
    | some e => (s.setSq q ((s.sqAt q).setTent e (((s.sqAt q).tent e).fired))).forgetOrd p.ord
    | none => s
  s.collEvent q n 0xC1 p.entry

/-- The communicator becomes broken, and the post under way completes with nothing more sent or placed (R405). -/
def breakCm (q n : Nat) (s : State) : State :=
  let c := (s.sqAt q).cm n
  let s := s.setCm q n { c with state := 2, mis := true, fwd := none, queue := [] }
  let s := s.collEvent q n 0xC2 none
  match c.run with
  | some r => endPost q n r.post s
  | none => s

/-- The running post's chunks are written and its lines placed (R404). A CBAR's every member has posted its own (R406). -/
def Comm.runDone (c : Comm) (r : Running) : Bool :=
  match r.post.kind with
  | .bar => decide (c.n ≤ (c.tokens.filter (fun t => t.1 == r.post.count)).length)
  | _ => decide (r.need ≤ r.placed) && r.pending == 0

/-- Complete communicator `n`'s running post where it is done and `ok` of it. -/
def tryEnd (q n : Nat) (ok : Post → Bool) (s : State) : State :=
  let c := (s.sqAt q).cm n
  match c.run with
  | some r =>
    if ok r.post && c.runDone r then
      endPost q n r.post (s.setCm q n { c with tokens := c.tokens.filter (fun t => t.1 != r.post.count) })
    else s
  | none => s

/-! ### Units that arrive (R397, R406, R414, R419) -/

/-- A control unit: not a chunk, and not the answer to one. -/
def CUnit.control : CUnit → Bool
  | .chunk _ => false
  | .written .. => false
  | _ => true

/-- Take the first unit for communicator `n` that passes a test out of a square's arrivals. -/
def Square.takeUnit (k : Square) (n : Nat) (ok : CUnit → Bool) : Option (CUnit × Square) :=
  match findIdx? (fun m => m.cm == n && ok m.body) k.cin with
  | none => none
  | some i => (k.cin[i]?).map (fun m => (m.body, { k with cin := k.cin.eraseIdx i }))

/-- The answer to a chunk reaches its sender (R400, R404). -/
def State.answered (s : State) (q n stamp lane dropped : Nat) : State :=
  let c := (s.sqAt q).cm n
  let s := if dropped = 0 then s else s.collFail q lane dropped
  match c.run with
  | some r =>
    if r.post.ord = stamp then s.setCm q n { (s.sqAt q).cm n with run := some { r with pending := r.pending - 1 } } else s
  | none => s

/-- Answer a chunk: at once within the package, by a unit over the link otherwise. -/
def State.answer (s : State) (q n : Nat) (m : CMsg) (c : Chunk) (dropped : Nat) : State :=
  if m.package = s.package.toNat then s.answered m.square m.source c.stamp c.lane dropped
  else { s with linkOut := s.linkOut ++ [⟨m.package, m.square, ⟨m.source, s.package.toNat, q, n, .written c.stamp c.lane dropped⟩⟩] }

/-- Take in the answers that have come over the link for a communicator; the number bounds them. -/
def takeAnswers (q n : Nat) : Nat → State → State
  | 0, s => s
  | f + 1, s =>
    match (s.sqAt q).takeUnit n (fun u => match u with
      | .written .. => true
      | _ => false) with
    | some (.written st l d, k) => takeAnswers q n f ((s.setSq q k).answered q n st l d)
    | _ => s

/-- The next control unit of a communicator, in order. -/
def nextControl (q n : Nat) (s : State) : Option (CUnit × State) :=
  ((s.sqAt q).takeUnit n CUnit.control).map (fun p => (p.1, s.setSq q p.2))

/-- CONNECT_ARRIVAL (R393, R397). It waits for a communicator that is not open yet. -/
def execConnectArrival (sq cm : Nat) (s : State) : Host.Outcome State Fault Refusal :=
  hwStep (decide (sq < 128 ∧ cm < 16)) s (fun s =>
    match nextControl sq cm s with
    | some (.connect, t) =>
      let c := (t.sqAt sq).cm cm
      if c.state = 0 then s else t.setCm sq cm { c with connected := true, gone := false }
    | _ => s)

/-- Who writes for a communicator on behalf of another package: no append of this one. -/
def Comm.foreign (c : Comm) : Agent := ⟨0, c.dom, true, 1⟩

/-- An access for another package failed on a page: the pager's answer to its wait is used (20 R436). -/
def State.abortUsed (s : State) (a : Agent) (va : Nat) : State :=
  if a.ord = 0 then { s with aborted := s.aborted.filter (· != a.at va) } else s

/-- FREED_REPORT (R397): the new value goes to the credit word. -/
def execFreedReport (sq cm : Nat) (s : State) : Host.Outcome State Fault Refusal :=
  hwStep (decide (sq < 128 ∧ cm < 16)) s (fun s =>
    match nextControl sq cm s with
    | some (.freed v, t) =>
      let c := (t.sqAt sq).cm cm
      if c.state = 0 ∨ !reached40 v c.sfreed then t
      else
        engineStep (sq * 8 + c.owner) c.foreign
          (fun _ => ((t.setCm sq cm { c with sfreed := v }).collFail sq c.owner 1).abortUsed c.foreign c.credit.toNat) s
          (engineWrite c.foreign c.credit.toNat (leBytes 8 v) (t.setCm sq cm { c with sfreed := v }))
    | _ => s)

/-- DISCONNECT_ARRIVAL (R419): the sender abandons its chunks for the ring. A communicator that is not connected has none
from that ring. -/
def execDisconnectArrival (sq cm : Nat) (s : State) : Host.Outcome State Fault Refusal :=
  hwStep (decide (sq < 128 ∧ cm < 16)) s (fun s =>
    match nextControl sq cm s with
    | some (.disconnect, t) =>
      let c := (t.sqAt sq).cm cm
      if c.state = 0 ∨ !c.connected then t
      else
        let ring (x : Chunk) : Bool := x.kind != .put
        let n := (c.queue.filter ring).length + (match c.fwd with
          | some _ => 1
          | none => 0)
        (t.setCm sq cm { c with
          connected := false, gone := true, fwd := none, queue := c.queue.filter (fun x => !ring x)
          run := c.run.map (fun r => { r with pending := r.pending - n }) }).collFail sq c.owner n
    | _ => s)

/-- BARRIER_TOKEN_ARRIVAL (R405, R406). A predecessor's CBAR that pairs with a post of another kind is a mismatch. -/
def execBarrierTokenArrival (sq cm : Nat) (s : State) : Host.Outcome State Fault Refusal :=
  hwStep (decide (sq < 128 ∧ cm < 16)) s (fun s =>
    match nextControl sq cm s with
    | some (.token count rank, t) =>
      let c := (t.sqAt sq).cm cm
      if c.state = 0 then s
      else if c.state = 2 then t
      else
        let mine := match c.run with
          | some r => r.post.kind == .bar && r.post.count == count
          | none => false
        let past := c.begun != 0 && reached40 c.begun count
        if past && !mine then (if (rank + 1) % max c.n 1 = c.rank then breakCm sq cm t else t)
        else tryEnd sq cm (fun p => p.kind == .bar) (t.setCm sq cm { c with tokens := c.tokens ++ [(count, rank)] })
    | _ => s)

/-! ### Lines (R395, R402) -/

/-- A flag word (R395). -/
def flagOf (c : Chunk) (l : CLine) (placed lastLine : Bool) (seq : Nat) : Nat :=
  seq % 2 ^ 40 + c.index % 2 ^ 16 * 2 ^ 40 + (if lastLine then 2 ^ 56 else 0) + (if c.last then 2 ^ 57 else 0) +
    (if l.v then 2 ^ 58 else 0) + (if placed then 2 ^ 59 else 0) + c.kind.code * 2 ^ 60 + (if l.x then 2 ^ 63 else 0)

/-- The 128 bytes of a line (R395). -/
def lineBytes (wire : Nat) (l : CLine) (flag : Nat) : List Byte :=
  ((l.codes.map (fun x => leBytes (typeBytes wire) x)).flatten ++ leBytes 120 0).take 120 ++ leBytes 8 flag

/-- Convert a code from the data type to the wire; whether it became infinite or NaN from a finite value (R402). -/
def toWire (op dty wire x : Nat) : Nat × Bool :=
  if op = 0 then (x, false)
  else if dty ≤ 3 then
    let v := (fmtOf dty).value x
    let y := ((fmtOf wire).round false 0 0 v).1
    (y, !v.isNonFin && ((fmtOf wire).value y).isNonFin)
  else (x, false)

/-- `partial ⊕ own` on two codes of the wire format, and whether V is set (R402). -/
def wireOp (op wire a b : Nat) : Nat × Bool :=
  if wire ≤ 3 then
    let f := fmtOf wire
    let x := f.value a
    let y := f.value b
    let r := (f.round false 0 0 (if op = 1 then (x.add false y).1 else (x.pick (op == 2) y).1)).1
    (r, !x.isNonFin && !y.isNonFin && (f.value r).isNonFin)
  else
    let x := intValue wire a
    let y := intValue wire b
    if op = 1 then
      let lim := intRange wire
      (intCode wire (x + y), decide (x + y < lim.1 ∨ lim.2 < x + y))
    else (intCode wire (if op = 2 then max x y else min x y), false)

/-- A partial line combined with this member's own (R402). -/
def CLine.combine (op wire : Nat) (p own : CLine) : CLine :=
  let r := (p.codes.zip own.codes).map (fun c => wireOp op wire c.1 c.2)
  ⟨r.map Prod.fst, p.v || own.v || r.any Prod.snd, p.x || own.x⟩

/-- The codes of the elements in some bytes. -/
def codesOf (t n : Nat) (b : List Byte) : List Nat := (upTo n).map (fun i => leAt b (i * typeBytes t) (typeBytes t))

/-- A line of a contribution: converted codes, the unused places zero. -/
def lineOf (op dty wire : Nat) (l : List Nat) : CLine :=
  let r := l.map (toWire op dty wire)
  ⟨(r.map Prod.fst ++ List.replicate (perLine wire) 0).take (perLine wire), r.any Prod.snd, false⟩

/-- A line whose payload was abandoned (R420). -/
def CLine.gone (wire : Nat) : CLine := ⟨List.replicate (perLine wire) 0, false, true⟩

/-! ### The source (R407, R420) -/

/-- Read `n` elements of a post's source from element `i`. -/
def sourceCodes (q lane : Nat) (a : Agent) (p : Post) (i n : Nat) (s : State) : Except EStop (List Nat × State) :=
  if p.acc then
    if (upTo n).any (fun j => accBad s q ((i + j) / 128) ((i + j) % 128)) then .error (.abandon none)
    else .ok ((upTo n).map (fun j => s.localLe (accAt q ((i + j) / 128) ((i + j) % 128)).1
      (accAt q ((i + j) / 128) ((i + j) % 128)).2 4), s)
  else do
    let (b, s) ← agentRead a (q * 8 + lane) ((p.src.toNat + i * typeBytes p.dty) % 2 ^ 64) (n * typeBytes p.dty) s
    pure (codesOf p.dty n b, s)

/-- The lines of a post's contribution; a line that is abandoned counts in FAIL (R420). -/
def ownLines (q lane : Nat) (a : Agent) (p : Post) (s : State) : Except EStop (List CLine × State) :=
  (upTo (lineCount p.elems p.wire)).foldlM (fun (acc : List CLine × State) i =>
    let m := perLine p.wire
    match sourceCodes q lane a p (i * m) (min m (p.elems - i * m)) acc.2 with
    | .ok (l, s) => .ok (acc.1 ++ [lineOf p.op p.dty p.wire l], s)
    | .error (.abandon w) => .ok (acc.1 ++ [CLine.gone p.wire], (acc.2.metPoison w).collFail q lane 1)
    | .error w => .error w) ([], s)

/-! ### Chunks of a post (R398 to R403) -/

/-- Lines of segment `k` of `len` lines among `n` members: first and count (R403). -/
def segment (len n k : Nat) : Nat × Nat := (k * len / max n 1, (k + 1) * len / max n 1 - k * len / max n 1)

/-- Cut lines into chunks like `proto` (R399). -/
def cutChunks (proto : Chunk) (size : Nat) (lines : List CLine) : List Chunk :=
  let n := ceilDiv lines.length size
  (upTo n).map (fun i =>
    { proto with index := i, first := i * size, last := i + 1 == n, lines := (lines.drop (i * size)).take size })

/-- A chunk's common part for a post of communicator `c`. -/
def protoChunk (c : Comm) (p : Post) : Chunk :=
  { kind := p.kind, count := p.count, seq := 0, phase := 0, origin := c.rank, seg := 0, hop := 1, index := 0, first := 0,
    last := false, wire := p.wire, inject := true, peer := (c.rank + 1) % max c.n 1, dst := p.dst, stamp := p.ord,
    lane := c.owner, lines := [] }

/-- Stage chunks of the running post; a ring whose receiver disconnected takes none, and each counts in FAIL (R419). -/
def stage (q n : Nat) (l : List Chunk) (s : State) : State :=
  let c := (s.sqAt q).cm n
  let go := l.filter (fun x => !(c.gone && x.kind != .put))
  let s := if go.length < l.length then s.collFail q c.owner (l.length - go.length) else s
  s.setCm q n { (s.sqAt q).cm n with
    queue := c.queue ++ go.filter (·.inject), fwd := if c.fwd.isSome then c.fwd else go.find? (fun x => !x.inject)
    run := c.run.map (fun r => { r with pending := r.pending + go.length }) }

/-- Place one line of the running post in its own destination (R400, R402, R420). -/
def placeLine (q n : Nat) (p : Post) (ch : Chunk) (lastLine : Bool) (at_ : Nat) (l : CLine) (s : State) :
    Except EStop State :=
  let c := (s.sqAt q).cm n
  let a := (p.dst.toNat + 128 * at_) % 2 ^ 64
  let counted (s : State) : State :=
    let c := (s.sqAt q).cm n
    (s.setCm q n { c with run := c.run.map (fun r => { r with placed := r.placed + 1 }) }).disown p.ord (a / 128)
  match engineWrite ⟨p.ord, c.dom, true, 1⟩ a (lineBytes p.wire l (flagOf ch l true lastLine p.count)) s with
  | .ok s =>
    let c := (s.sqAt q).cm n
    .ok (counted (s.setCm q n { c with ovf := c.ovf || l.v, xf := c.xf || l.x }))
  | .error (.abandon w) => .ok (counted ((s.metPoison w).collFail q c.owner 1))
  | .error w => .error w

/-- Place a chunk's lines from line `base` of the destination. -/
def placeChunk (q n : Nat) (p : Post) (base : Nat) (ch : Chunk) (s : State) : Except EStop State :=
  ch.lines.zipIdx.foldlM (fun s l =>
    placeLine q n p ch (l.2 + 1 == ch.lines.length) (base + ch.first + l.2) l.1 s) s

/-- The chunks that a member starts when a post begins, and where its own lines go first (R400, R403). -/
def startChunks (c : Comm) (p : Post) (own : List CLine) : List Chunk × Option Nat :=
  let pr := protoChunk c p
  match p.kind with
  | .put => ((p.peers.map (fun r => cutChunks { pr with peer := r } p.chunk own)).flatten, none)
  | .ring => (cutChunks pr p.chunk own, none)
  | .allGather => (cutChunks pr p.chunk own, some (c.rank * own.length))
  | .allReduce =>
    let (a, k) := segment own.length c.n c.rank
    (cutChunks { pr with phase := 1, seg := c.rank } p.chunk ((own.drop a).take k), none)
  | .bcast => if p.root = c.rank then (cutChunks pr p.chunk own, some 0) else ([], none)
  | .bar => ([], none)

/-- Lines of its own destination that a post takes. -/
def Post.need (p : Post) (n len : Nat) : Nat :=
  match p.kind with
  | .allGather => n * len
  | .allReduce | .bcast => len
  | _ => 0

/-- The post of a firing with the contents of its entry as they stand (R408). -/
def firingPost (k : Square) (c : Comm) (p : Post) (e : Nat) : Post :=
  let t := k.tent e
  { p with kind := postKindOf t.kind, root := t.root, src := t.src, dst := t.dst, elems := t.elems, peers := t.peers,
           acc := t.mode == 1, wire := t.wire, op := t.op, dty := if t.mode = 1 then 0 else c.dty, chunk := t.chunk }

/-- Two kinds take the same counter (R396). -/
def PostKind.sameCounter (a b : PostKind) : Bool :=
  a.isGroup == b.isGroup && (a.isGroup || a == b)

/-- The post of a firing as it begins, with its counter: the one it took, or, when its entry has since been given a kind that
counts otherwise, the next of that counter (R407, R408; log 63). -/
def beginFiring (k : Square) (c : Comm) (p : Post) (e : Nat) : Comm × Post :=
  let r := firingPost k c p e
  if p.kind.sameCounter r.kind then (c, r) else takeCount c r

/-- The next post of a communicator: the head of its order, or a firing that joined it behind a CCLOSE (R404, R419). -/
def Comm.nextPost (c : Comm) : Option (Nat × Post) :=
  match c.order with
  | .post p :: _ => some (0, p)
  | .close _ :: r => (r.zipIdx.findSome? (fun o => match o.1 with
      | .post p => if p.entry.isSome then some (o.2 + 1, p) else none
      | _ => none))
  | _ => none

/-- Send a barrier token to every other member and keep the own one (R406). -/
def sendTokens (q n : Nat) (p : Post) (s : State) : State :=
  let c := (s.sqAt q).cm n
  let s := s.setCm q n { c with tokens := c.tokens ++ [(p.count, c.rank)] }
  (c.members.zipIdx).foldl (fun s m => if m.2 = c.rank then s else s.sendUnit q n m.1 (.token p.count c.rank)) s

/-- A group post that is no CBAR meets its predecessor's CBAR of that count: a mismatch (R405). -/
def Comm.barMeets (c : Comm) (p : Post) : Bool :=
  p.kind.isGroup && p.kind != .bar && c.tokens.any (fun t => t.1 == p.count && (t.2 + 1) % max c.n 1 == c.rank)

/-- Begin a post of communicator `n` (R400 to R408): it reads its source, places its own lines and stages what starts here. On
a broken communicator it completes at once (R405). -/
def beginPost (q n i : Nat) (p : Post) (s : State) : Except EStop State := do
  let k := s.sqAt q
  let c := k.cm n
  let valid := match p.entry with
    | some e => (k.tent e).valid
    | none => true
  let (c, p) := match p.entry with
    | some e => if valid then beginFiring k c p e else (c, p)
    | none => (c, p)
  let c := { c with order := c.order.eraseIdx i, begun := if p.kind.isGroup then p.count else c.begun }
  if !valid then pure (endPost q n p (s.setCm q n c))
  else
    let r : Running := ⟨p, [], 0, 0, 0, 0⟩
    let s := s.setCm q n { c with run := some r }
    if c.state = 2 then pure (endPost q n p s)
    else if c.barMeets p then pure (breakCm q n s)
    else if p.kind = .bar then pure (sendTokens q n p s)
    else
      let len := lineCount p.elems p.wire
      let idle := p.kind == .bcast && p.root != c.rank
      let (own, s) ← (if idle then pure ([], s) else ownLines q c.owner ⟨p.ord, c.dom, true, 1⟩ p s)
      let s := s.setCm q n { (s.sqAt q).cm n with run := some { r with own := own, len := len, need := p.need c.n len } }
      let (chunks, base) := startChunks c p own
      let s ← (match base with
        | some b => chunks.foldlM (fun s ch => placeChunk q n p b ch s) s
        | none => pure s)
      pure (stage q n chunks s)

/-! ### Chunks in the ring (R397, R398, R400, R403, R405) -/

/-- The lines a chunk belongs to at a member: first line and count of its block, message or segment. -/
def unitLines (c : Comm) (r : Running) (ch : Chunk) : Nat × Nat :=
  if ch.phase = 0 then (if ch.kind = .allGather then ch.origin * r.len else 0, r.len)
  else segment r.len c.n ch.seg

/-- The chunk does not fit the member's own post (R405). A chunk with other lines than the own length implies counts as
one. -/
def mismatch (c : Comm) (r : Running) (ch : Chunk) : Bool :=
  let u := (unitLines c r ch).2
  let n := ceilDiv u r.post.chunk
  ch.kind != r.post.kind || decide (n ≤ ch.index) || ch.last != (ch.index + 1 == n) ||
    ch.lines.length != min r.post.chunk (u - ch.index * r.post.chunk) || ch.wire != r.post.wire ||
    (ch.kind == .bcast && ch.origin != r.post.root)

/-- A chunk of the running post: combined, placed, forwarded or injected (R400, R403). -/
def takeChunk (q n : Nat) (r : Running) (ch : Chunk) (s : State) : Except EStop State := do
  let c := (s.sqAt q).cm n
  let base := (unitLines c r ch).1
  let keep (l : List CLine) : Chunk :=
    { ch with lines := l, inject := false, peer := (c.rank + 1) % max c.n 1, stamp := r.post.ord, lane := c.owner
              count := r.post.count }
  if ch.phase = 1 then
    let mine := (r.own.drop (base + ch.first)).take ch.lines.length
    let lines := (ch.lines.zip mine).map (fun l => CLine.combine r.post.op r.post.wire l.1 l.2)
    if ch.hop + 1 < c.n then pure (stage q n [{ keep lines with hop := ch.hop + 1 }] s)
    else
      let fin := { keep lines with phase := 2, origin := c.rank, inject := true }
      let s ← placeChunk q n r.post base fin s
      pure (stage q n [fin] s)
  else
    let s ← placeChunk q n r.post base ch s
    pure (if (c.rank + 1) % max c.n 1 = ch.origin then s else stage q n [keep ch.lines] s)

/-- The chunk will be forwarded: it needs the forwarding chunk of staging (R394). -/
def needsForward (c : Comm) (ch : Chunk) : Bool :=
  if ch.phase = 1 then decide (ch.hop + 1 < c.n) else (c.rank + 1) % max c.n 1 != ch.origin

/-- Work off the chunks that stand in the ring, in sequence order, as far as they can be (R398, R404); the number bounds
them. A chunk that has to wait for a page leaves what was done before it. -/
def drain (q n : Nat) : Nat → State → State
  | 0, s => s
  | f + 1, s =>
    let c := (s.sqAt q).cm n
    match c.slots with
    | [] => s
    | ch :: rest =>
      let out (s : State) : State := freeSlots q n [ch.seq] s
      let s1 := s.setCm q n { c with slots := rest }
      if c.state = 2 then drain q n f (out s1)
      else
        match c.run.filter (fun r => r.post.kind.isGroup && r.post.count == ch.count) with
        | some r =>
          if mismatch c r ch then drain q n f (out (breakCm q n s1))
          else if needsForward c ch && c.fwd.isSome then s
          else
            match takeChunk q n r ch s1 with
            | .ok t => drain q n f (out t)
            | .error (.wait va rs cd) => s.engineWaits (q * 8 + c.owner) ⟨r.post.ord, c.dom, true, 1⟩ va rs cd
            | .error (.abandon w) => s.metPoison w
        | none =>
          if c.begun != 0 && reached40 c.begun ch.count then drain q n f (out (breakCm q n s1)) else s

/-- Work off the chunks that stand in a communicator's ring. -/
def drainAll (q n : Nat) (s : State) : State := drain q n (((s.sqAt q).cm n).slots.length + 1) s

/-- POST_START (R404). -/
def execPostStart (sq cm : Nat) (s : State) : Host.Outcome State Fault Refusal :=
  hwStep (decide (sq < 128 ∧ cm < 16)) s (fun s =>
    let c := (s.sqAt sq).cm cm
    match c.run, c.nextPost with
    | none, some (i, p) =>
      if c.state = 0 then s
      else engineStep (sq * 8 + c.owner) ⟨p.ord, c.dom, true, 1⟩ id s ((beginPost sq cm i p s).map (drainAll sq cm))
    | _, _ => s)

/-- Who writes the lines of a chunk that arrives: the post that sent it, within the package, so that its lines follow those of
the commands appended before it (05 R130; log 63). -/
def Comm.lander (c : Comm) (here : Bool) (ch : Chunk) : Agent := if here then ⟨ch.stamp, c.dom, true, 1⟩ else c.foreign

/-- Write a chunk's lines where its sender aims: a slot of the ring, or the put window; how many were not written. -/
def landChunk (q n : Nat) (w : Agent) (ch : Chunk) (s : State) : Except EStop (Nat × State) :=
  let c := (s.sqAt q).cm n
  let put := ch.kind == .put
  let base := if put then ch.dst.toNat + 128 * ch.first else c.ring.toNat + 128 * (ch.seq % max c.depth 1 * c.chunk)
  ch.lines.zipIdx.foldlM (fun (acc : Nat × State) l =>
    let a := base + 128 * l.2
    let inWindow := c.putBase != 0 && decide (c.putBase.toNat ≤ a ∧ a + 128 ≤ c.putBase.toNat + c.putSize)
    let free (s : State) : State := if put then s.disownOnce w.ord (a / 128) else s
    if put && !inWindow then .ok (acc.1 + 1, free acc.2)
    else
      let b := lineBytes ch.wire l.1 (flagOf ch l.1 false (l.2 + 1 == ch.lines.length) (if put then ch.count else ch.seq))
      match engineWrite w a b acc.2 with
      | .ok s => .ok (acc.1, free s)
      | .error (.abandon _) => .ok (acc.1 + 1, free (acc.2.abortUsed w a))
      | .error w => .error w) (0, s)

/-- A chunk that arrived: its lines land, and the engine keeps what it has to work off (R397, R398, R400, R405). The
lines of a ring that were not written count in the receiver's FAIL, those of a put in the sender's (R400, R420). -/
def acceptChunk (q n : Nat) (m : CMsg) (ch : Chunk) (s : State) : Except EStop State := do
  let c := (s.sqAt q).cm n
  if c.state = 0 ∨ (ch.kind = .put ∧ c.state ≠ 1) then
    pure (s.answer q n m ch (if ch.kind = .put then ch.lines.length else 0))
  else
    let (lost, s) ← landChunk q n (c.lander (m.package == s.package.toNat) ch) ch s
    let s := s.answer q n m ch (if ch.kind = .put then lost else 0)
    if ch.kind = .put then pure s
    else
      let s := if lost = 0 then s else s.collFail q c.owner lost
      let c := (s.sqAt q).cm n
      if c.state = 2 then pure (freeSlots q n [ch.seq] s)
      else if ch.kind = .ring then pure (s.setCm q n { c with held := c.held ++ [ch.seq] })
      else pure (s.setCm q n { c with slots := c.slots ++ [ch] })

/-- CHUNK_ARRIVAL (R400): the next chunk for a communicator lands, and the ring is worked off. -/
def execChunkArrival (sq cm : Nat) (s : State) : Host.Outcome State Fault Refusal :=
  hwStep (decide (sq < 128 ∧ cm < 16)) s (fun s =>
    let k := s.sqAt sq
    let c := k.cm cm
    match findIdx? (fun m => m.cm == cm && !m.body.control && (match m.body with
        | .chunk _ => true
        | _ => false)) k.cin with
    | none => drainAll sq cm s
    | some i =>
      match k.cin[i]? with
      | some m =>
        match m.body with
        | .chunk ch =>
          engineStep (sq * 8 + c.owner) (c.lander (m.package == s.package.toNat) ch) id s
            ((acceptChunk sq cm m ch (s.setSq sq { k with cin := k.cin.eraseIdx i })).map (drainAll sq cm))
        | _ => s
      | none => s)

/-! ### Arbitration (R414 to R416) -/

/-- The path to a member is ready: its square, or the port its package lies behind (R414, 01 R27). -/
def State.pathReady (s : State) (m : Word) : Bool :=
  if memberPackage m = s.package.toNat then s.squareReady (memberSquare m)
  else bitW (s.readyWord 2) (17 + Config.portOf (memberPackage m) % 16)

/-- The 256-byte flits of a chunk (R414). -/
def Chunk.flits (c : Chunk) : Nat := ceilDiv c.lines.length 2

/-- The activity's budgets let a chunk to a member go (R416). -/
def State.chunkBudget (s : State) (q dom : Nat) (m : Word) : Bool :=
  !(s.budget dom 4 q).spent &&
    (memberPackage m == s.package.toNat || !(s.budget dom 3 (Config.portOf (memberPackage m) % 16)).spent)

/-- A forward of an ALLGATHER waits until the member has injected the first chunk of its own block (R400; log 63). -/
def Comm.ownFirst (c : Comm) (f : Chunk) : Bool :=
  c.queue.any (fun x => x.kind == .allGather && x.count == f.count && x.index == 0)

/-- The chunk a communicator would send: its forward with one free slot, else its oldest injection with two (R397, R398).
A put needs no slot. -/
def Comm.candidate (c : Comm) : Option Chunk :=
  let s := inc40 c.chunks
  let room (k : Nat) : Bool := c.connected && reached40 c.sfreed ((s + 2 ^ 40 - c.depth + k) % 2 ^ 40)
  if c.state ≠ 1 then none
  else
    let inj := match c.queue.head? with
      | some ch => if ch.kind = .put ∨ room 1 then some ch else none
      | none => none
    match c.fwd with
    | some ch => if room 0 && !c.ownFirst ch then some ch else inj
    | none => inj

/-- The member a chunk goes to. -/
def Comm.target (c : Comm) (ch : Chunk) : Word := c.members.getD ch.peer 0

/-- The candidates of a square on a channel: credit, budget and path (R414). -/
def State.candidates (s : State) (q vc : Nat) : List (Nat × Chunk) :=
  (upTo 16).filterMap (fun n =>
    let c := (s.sqAt q).cm n
    match c.candidate with
    | some ch =>
      let m := c.target ch
      if c.vc = vc ∧ s.pathReady m ∧ s.chunkBudget q c.dom m then some (n, ch) else none
    | none => none)

/-- The bulk channel to serve, 0 or 1 (R414, R415): `h0` and `h1` say which has a candidate. What is left of a round's credits counts
for nothing once CARB has set the channel's weight to 0 (log 83). -/
def bulkPick (k : Square) (h0 h1 : Bool) : Nat × Square :=
  let w (c : Nat) : Nat := if c = 0 then bitsW (k.carb.setWidth 64) 3 0 else bitsW (k.carb.setWidth 64) 7 4
  let has (c : Nat) : Bool := if c = 0 then h0 else h1
  let cred (k : Square) (c : Nat) : Nat := if w c = 0 then 0 else if c = 0 then k.ccred0 else k.ccred1
  let serve (k : Square) (c : Nat) : Square :=
    let k := { k with cturn := c, clast := c }
    if c = 0 then { k with ccred0 := k.ccred0 - 1 } else { k with ccred1 := k.ccred1 - 1 }
  let can (k : Square) (c : Nat) : Bool := has c && decide (0 < cred k c)
  if can k k.cturn then (k.cturn, serve k k.cturn)
  else if can k (1 - k.cturn) then (1 - k.cturn, serve k (1 - k.cturn))
  else
    let k := { k with ccred0 := w 0, ccred1 := w 1, cturn := 1 - k.clast }
    if can k k.cturn then (k.cturn, serve k k.cturn)
    else if can k (1 - k.cturn) then (1 - k.cturn, serve k (1 - k.cturn))
    else
      let c := if h0 && h1 then 1 - k.clast else if h0 then 0 else 1
      (c, { k with clast := c })

/-- The candidate that a channel serves: communicators round-robin (R414). -/
def robin (k : Square) (vc : Nat) (l : List (Nat × Chunk)) : Option (Nat × Chunk) :=
  match l.find? (fun p => decide (sget 0 k.crr vc ≤ p.1)) with
  | some p => some p
  | none => l.head?

/-- Send a chunk of communicator `n`: it leaves staging, takes its sequence, and counts against its budgets (R396, R416). -/
def sendChunk (q n : Nat) (ch : Chunk) (s : State) : State :=
  let c := (s.sqAt q).cm n
  let seq := if ch.kind = .put then 0 else inc40 c.chunks
  let m := c.target ch
  let c := { c with
    chunks := if ch.kind = .put then c.chunks else seq
    fwd := if ch.inject then c.fwd else none
    queue := if ch.inject then c.queue.drop 1 else c.queue }
  let s := (s.setCm q n c).spend c.dom 4 q 1
  let s := if memberPackage m = s.package.toNat then s
    else s.spend c.dom 3 (Config.portOf (memberPackage m) % 16) ch.flits
  s.sendUnit q n m (.chunk { ch with seq := seq })

/-- The next chunk at a boundary: its channel, and the square after the choice (R414). -/
def State.nextChunk (s : State) (q : Nat) : Option (Nat × Chunk) × Square :=
  let k := s.sqAt q
  let prio := s.candidates q 2
  let b0 := s.candidates q 0
  let b1 := s.candidates q 1
  let bulk := !b0.isEmpty || !b1.isEmpty
  let pcap := bitsW (k.carb.setWidth 64) 11 8
  let pick (vc : Nat) (l : List (Nat × Chunk)) (k : Square) : Option (Nat × Chunk) × Square :=
    match robin k vc l with
    | some p => (some p, { k with crr := sset k.crr vc (p.1 + 1) })
    | none => (none, k)
  if !prio.isEmpty && (pcap == 0 || decide (k.cprio < pcap) || !bulk) then pick 2 prio { k with cprio := k.cprio + 1 }
  else if bulk then
    let (c, k) := bulkPick k (!b0.isEmpty) (!b1.isEmpty)
    pick c (if c = 0 then b0 else b1) { k with cprio := 0 }
  else (none, k)

/-- CHUNK_SEND (R414). Control units have gone before; a port's own choice among squares is not part of this model. -/
def execChunkSend (sq : Nat) (s : State) : Host.Outcome State Fault Refusal :=
  hwStep (decide (sq < 128)) s (fun s =>
    match s.nextChunk sq with
    | (some (n, ch), k) => sendChunk sq n ch (s.setSq sq k)
    | (none, _) => s)

/-! ### The order's other commands (R393, R407, R419) -/

/-- Open a communicator: credit word and ring flags become 0, and the predecessor is told (R393). Its counts are 0 from the
issue on, and posts appended since have taken theirs (log 63). -/
def commOpen (q n : Nat) (h : CmdHdr) (s : State) : Except EStop State := do
  let c := (s.sqAt q).cm n
  let zero (a : Nat) (s : State) : Except EStop State :=
    match engineWrite h.agent a (leBytes 8 0) s with
    | .ok s => .ok s
    | .error (.abandon w) => .ok ((s.metPoison w).collFail q c.owner 1)
    | .error w => .error w
  let s ← zero c.credit.toNat s
  let s ← (upTo (c.depth * c.chunk)).foldlM (fun s i => zero (c.ring.toNat + 128 * i + 120) s) s
  let c := { (s.sqAt q).cm n with chunks := 0, order := c.order.drop 1 }
  pure (((s.setCm q n c).sendUnit q n c.pred .connect).completeCmd 3 h)

/-- CCOMM_EXECUTE (R393). -/
def execCcommExecute (sq cm : Nat) (s : State) : Host.Outcome State Fault Refusal :=
  hwStep (decide (sq < 128 ∧ cm < 16)) s (fun s =>
    let c := (s.sqAt sq).cm cm
    match c.run, c.order with
    | none, .comm h :: _ => engineStep h.core h.agent id s (commOpen sq cm h s)
    | _, _ => s)

/-- A CTT rewrites its entry and completes (R407): a flag that is set stays set. -/
def writeTent (q : Nat) (h : CmdHdr) (e : Nat) (v : TEntry) (s : State) : State :=
  let old := (s.sqAt q).tent e
  let new := if v.valid then { v with st := old.st, fire := old.fire, merged := old.merged }
    else { old with valid := false }
  (s.setSq q ((s.sqAt q).setTent e new)).completeCmd 3 h

/-- CTT_EXECUTE (R407). -/
def execCttExecute (sq cm : Nat) (s : State) : Host.Outcome State Fault Refusal :=
  hwStep (decide (sq < 128 ∧ cm < 16)) s (fun s =>
    let c := (s.sqAt sq).cm cm
    match c.run, c.order with
    | none, .ctt h e v :: r => writeTent sq h e v (s.setCm sq cm { c with order := r })
    | _, _ => s)

/-- Complete a command of a communicator that is not carried out: a domain reset discards it (21 R455). -/
def dropCmd (s : State) : CCmd → State
  | .comm h => s.completeCmd 3 h
  | .ctt h _ _ => s.completeCmd 3 h
  | .close h => s.completeCmd 3 h
  | .post p => match p.seqd with
    | some h => s.completeCmd 3 h
    | none => s.forgetOrd p.ord

/-- A communicator becomes free: its entries become invalid, every status word reads 0 (19 R427), and its predecessor is told
(R419). -/
def freeCm (q n : Nat) (s : State) : State :=
  let k := s.sqAt q
  let tents := k.tents.map (fun p => if p.2.valid && p.2.cm == n then (p.1, TEntry.invalid) else p)
  (s.setSq q ({ k with tents := tents }.setCm n Comm.free)).sendUnit q n (k.cm n).pred .disconnect

/-- A command appended behind a CCLOSE of its communicator, which is free now (01 R12; log 63): a CTT rewrites its entry; a
post completes with nothing sent or placed, as on a broken communicator (R405). -/
def behindClose (q : Nat) (s : State) : CCmd → State
  | .ctt h e v => writeTent q h e v s
  | c => dropCmd s c

/-- Close a communicator (R419). -/
def closeCm (q n : Nat) (h : CmdHdr) (rest : List CCmd) (s : State) : State :=
  rest.foldl (behindClose q) ((freeCm q n s).completeCmd 3 h)

/-- A flag that is set, of an entry bound to communicator `n`: a firing that has still to complete (R408, R419). -/
def Square.firingDue (k : Square) (n : Nat) : Bool := k.tents.any (fun p => p.2.valid && p.2.cm == n && p.2.st != 0)

/-- CCLOSE_EXECUTE (R419). -/
def execCcloseExecute (sq cm : Nat) (s : State) : Host.Outcome State Fault Refusal :=
  hwStep (decide (sq < 128 ∧ cm < 16)) s (fun s =>
    let c := (s.sqAt sq).cm cm
    match c.run, c.order with
    | none, .close h :: r => if c.nextPost.isSome || (s.sqAt sq).firingDue cm then s else closeCm sq cm h r s
    | _, _ => s)

/-! ### Completion and firings (R404, R408) -/

/-- POST_COMPLETE (R404): the answers that came over the link are taken in first. -/
def execPostComplete (sq cm : Nat) (s : State) : Host.Outcome State Fault Refusal :=
  hwStep (decide (sq < 128 ∧ cm < 16)) s (fun s =>
    tryEnd sq cm (fun p => p.entry.isNone) (takeAnswers sq cm ((s.sqAt sq).cin.length) s))

/-- The communicator whose running post is a firing of an entry. -/
def Square.firingIn (k : Square) (e : Nat) : Option Nat :=
  (upTo 16).find? (fun n => ((k.cm n).run.any (fun r => r.post.entry == some e)))

/-- FIRING_COMPLETE (R408). -/
def execFiringComplete (sq ent : Nat) (s : State) : Host.Outcome State Fault Refusal :=
  hwStep (decide (sq < 128 ∧ ent < 256)) s (fun s =>
    match (s.sqAt sq).firingIn ent with
    | none => s
    | some n => tryEnd sq n (fun p => p.entry == some ent) (takeAnswers sq n ((s.sqAt sq).cin.length) s))

/-- TILE_ENTRY_FIRE (R408): the engine takes a ready flag, and a post of the entry's kind joins its communicator's order and
takes its counter. -/
def execTileEntryFire (sq ent : Nat) (s : State) : Host.Outcome State Fault Refusal :=
  hwStep (decide (sq < 128 ∧ ent < 256)) s (fun s =>
    let k := s.sqAt sq
    let t := k.tent ent
    let c := k.cm t.cm
    if t.st = 1 ∧ t.valid ∧ c.state ≠ 0 then
      let p : Post :=
        { kind := postKindOf t.kind, root := 0, src := 0, dst := 0, elems := 0, peers := [], acc := false, wire := 0,
          op := 0, dty := 0, chunk := 1, entry := some ent, count := 0, ord := s.appends, seqd := none }
      let k := (k.setTent ent { t with st := 2 }).setCm t.cm (c.join p)
      { s.setSq sq k with appends := s.appends + 1 }
    else s)

end Sys2Proof.Machine
end

