-- ==== Sys2Proof/Machine/MatrixRun.lean ====
section
/-! DEFINITION. The matrix engine's own steps: fills, the arbiter, and tile opcodes on the datapath (14 R329 to R332,
R337 to R340, 04 R100). -/
namespace Sys2Proof.Machine

/-! ### When a command may begin (R330) -/

/-- The commands of a square appended before a command. -/
def Square.before (k : Square) (c : MCmd) : List MCmd := k.mq.filter (fun x => decide (x.hdr.ord < c.hdr.ord))

/-- Two commands of one square may not overlap. -/
def MCmd.conflicts (c x : MCmd) : Bool :=
  x.writes.any (fun n => c.reads.contains n || c.writes.contains n) || x.reads.any c.writes.contains || (c.acc && x.acc)

/-- A command may begin: R330, and R383 for the context engine's loads into slots. -/
def Square.mayBegin (k : Square) (c : MCmd) : Bool :=
  !c.begun && (k.before c).all (fun x => (x.hdr.core != c.hdr.core || x.begun) && !c.conflicts x) &&
    k.kq.all (fun x => !(decide (x.hdr.ord < c.hdr.ord)) || !(x.slot.any (fun n => c.reads.contains n || c.writes.contains n)))

/-- A matrix command or a load of this square, appended before `c`, writes slot `n` of the square (R329, 15 R383). -/
def Square.writesBefore (k : Square) (c : MCmd) (n : Nat) : Bool :=
  k.mq.any (fun x => decide (x.hdr.ord < c.hdr.ord) && x.writes.contains n) ||
    k.kq.any (fun x => decide (x.hdr.ord < c.hdr.ord) && x.slot == some n)

/-- Replace the command with an append number. -/
def Square.setMq (k : Square) (c : MCmd) : Square :=
  { k with mq := k.mq.map (fun x => if x.hdr.ord = c.hdr.ord then c else x) }

/-- A command has begun (R330); a fill or an MREV whose page is absent waits from here on. -/
def State.beginMq (s : State) (q : Nat) (c : MCmd) : State := s.setSq q ((s.sqAt q).setMq { c with begun := true })

/-- A command is complete: it leaves the queue (R16). -/
def finishMatrix (q : Nat) (c : MCmd) (s : State) : State :=
  let k := s.sqAt q
  (s.setSq q { k with mq := k.mq.filter (fun x => x.hdr.ord != c.hdr.ord) }).completeCmd 1 c.hdr

/-! ### Fills (R327, R329, R353) -/

/-- The codes of a packed row (R81, R78). -/
def rowCodes (t cols : Nat) (b : List Byte) : List Nat :=
  (upTo cols).map (fun j => fieldN (leAt b (typeBits t * j / 8) (typeBits t / 8 + 2)) (typeBits t * j % 8) (codeBits t))

/-- Read the bytes at scattered addresses, a local one of that core; those of abandoned lines are none, and the lines are counted. -/
def gatherOr (a : Agent) (core : Nat) (addrs : List Nat) (s : State) : Except EStop (SMap (List Byte) × Nat × State) :=
  (linesOf addrs).foldlM (fun (p : SMap (List Byte) × Nat × State) line =>
    match agentRead a core (128 * line) 128 p.2.2 with
    | .ok (b, s) => .ok (sset p.1 line b, p.2.1, s)
    | .error (.abandon w) => .ok (p.1, p.2.1 + 1, p.2.2.metPoison w)
    | .error w => .error w) ([], 0, s)

/-- A cell's code among gathered lines; +0 when one of its bytes was abandoned. -/
def cellCode (d : Desc) (got : SMap (List Byte)) (x : List Int) : Nat :=
  let bs := cellBytes d x
  if bs.all (fun b => (got.map (·.1)).contains (b / 128)) then
    fieldN (ofBytes (bs.map (fun b => (sget [] got (b / 128)).getD (b % 128) 0))) (cellBit d x % 8).toNat (codeBits d.ty)
  else zeroCode d.ty

/-- The codes of a `.rg` fill in row-major order (R327). -/
def regionCodes (a : Agent) (core : Nat) (q : Region) (de : Desc) (d : Decl) (s : State) :
    Except EStop (List Nat × Nat × State) := do
  let (cells, s) ← applied a core q q.cells s
  let (got, n, s) ← gatherOr a core ((cells.map (cellBytes de)).flatten) s
  let lo := ((q.hull4.getD []).map (·.1)).take q.rank
  let rows := (upTo d.rows).map (fun (i : Nat) => (upTo d.cols).map (fun (j : Nat) =>
    let x := lo.zipIdx.map (fun p => p.1 + (((if p.2 = 0 then j else if p.2 = 1 then i else 0) : Nat) : Int))
    if cells.contains x then cellCode de got x else zeroCode d.ty))
  pure (rows.flatten, n, s)

/-- The poisoned lines of a core's local memory among those that `n` bytes at an offset touch (20 R447). -/
def Core.poisonIn (k : Core) (off n : Nat) : List Nat :=
  k.lpoison.filter (fun l => decide (off / 128 ≤ l ∧ l ≤ (off + n - 1) / 128))

/-- The codes of a packed row of local memory; an element with a byte in one of the lines `bad` is +0 (R353). -/
def localRow (k : Core) (bad : List Nat) (t cols off : Nat) : List Nat :=
  (rowCodes t cols (memRead k.mem off (rowBytes t cols))).zipIdx.map (fun p =>
    let b := off + typeBits t * p.2 / 8
    if bad.any (fun l => decide (b / 128 ≤ l ∧ l ≤ (off + (typeBits t * (p.2 + 1) - 1) / 8) / 128))
    then zeroCode t else p.1)

/-- The scale array of a fill as an engine reads it; an abandoned line reads as zeros and is counted. -/
def scaleCodes (a : Agent) (core sa n : Nat) (s : State) : Except EStop (List Nat × Nat × State) :=
  if n = 0 then .ok ([], 0, s)
  else if isLocal sa then
    let k := s.coreAt core
    let bad := k.poisonIn (localOff sa) n
    .ok ((upTo n).map (fun i => if bad.contains ((localOff sa + i) / 128) then 0 else (memGet k.mem (localOff sa + i)).toNat),
      bad.length, s)
  else do
    let (b, f, s) ← engineReadsZero a sa n s
    pure (b.map BitVec.toNat, f, s)

/-- What a fill puts into its slot: codes, scales, and how many failures it counts. A neighbour slot whose declared state
fits but whose contents are not written yet has free contents (log 7). -/
def fillData (c : MCmd) (d : Decl) (s : State) : Except EStop (List Nat × List Nat × Nat × State) :=
  let a := c.hdr.agent
  let core := c.hdr.core
  match c.src with
  | .nothing => .ok (d.zeros.1, d.zeros.2, 0, s)
  | .loc x => do
    let k := s.coreAt core
    let rows := (upTo d.rows).map (fun i => localOff (x.toNat + i * c.pitch))
    let bad := sortNats ((rows.map (fun o => k.poisonIn o (rowBytes d.ty d.cols))).flatten)
    let (sc, f, s) ← scaleCodes a core c.scale.toNat d.scaleCount s
    pure ((rows.map (localRow k bad d.ty d.cols)).flatten, sc, bad.length + f, s)
  | .reg r => do
    let (de, s) ← execDesc a r s
    let (data, f, s) ← (match de with
      | some de =>
        if de.ty != d.ty then pure (d.zeros.1, 1, s)
        else match regionCodes a core r de d s with
          | .error (.abandon w) => pure (d.zeros.1, 1, s.metPoison w)
          | x => x
      | none => pure (d.zeros.1, 1, s))
    let (sc, g, s) ← scaleCodes a core c.scale.toNat d.scaleCount s
    pure (data, sc, f + g, s)
  | .nbr p n =>
    let k := s.sqAt p
    let m := k.slot n
    if k.writesBefore c n then .error (.wait 0 0 0)
    else if m.claim.any (fun h => h.2 == c.hdr.dom) && m.decl == some d then
      .ok (if m.bad then (d.zeros.1, d.zeros.2, 1, s) else if m.held == some d then (m.data, m.scales, 0, s) else
        ((upTo (d.rows * d.cols)).map (fun i => (Config.freeWord (s.freeCtr + i)).toNat % 2 ^ codeBits d.ty),
         (upTo d.scaleCount).map (fun i => (Config.freeWord (s.freeCtr + d.rows * d.cols + i)).toNat % 256), 0,
         { s with freeCtr := s.freeCtr + d.rows * d.cols + d.scaleCount }))
    else .ok (d.zeros.1, d.zeros.2, 1, s)

/-- The number of a core within its square. -/
def CmdHdr.lane (h : CmdHdr) : Nat := h.core % 8

/-- Write the log entries of a command: a snapshot from its slot as it stands, the command's own entry with the slot it
wrote and the saved C (R344, R346). -/
def writeLogs (q : Nat) (c : MCmd) (cin : List (List Nat)) (s : State) : Except EStop State :=
  c.log.foldlM (fun s e => writeLog c.hdr.agent c.dt8 e ((s.sqAt q).slot (e.slot.getD 0)).sound cin s) s

/-- Execute a fill and complete it (R329). -/
def fillStep (q : Nat) (c : MCmd) (s : State) : Except EStop State :=
  match c.decl with
  | none => .ok (finishMatrix q c s)
  | some d => do
    let (data, sc, f, s) ← fillData c d s
    let k := s.sqAt q
    let s := s.setSq q (k.setSlot c.a ((k.slot c.a).filled c.dt8 d data sc))
    let s ← writeLogs q c [] s
    pure (finishMatrix q c (s.matrixStatus q c.hdr.lane f 0))

/-- FILL_EXECUTE (R329): the command of place `idx` of core `core`'s queue. -/
def execFillExecute (sq core idx : Nat) (s : State) : Host.Outcome State Fault Refusal :=
  hwStep (decide (sq < 128 ∧ core < 8)) s (fun s =>
    let k := s.sqAt sq
    match (k.mq.filter (fun c => c.hdr.lane == core))[idx]? with
    | none => s
    | some c =>
      if c.kind == .fill && (c.begun || k.mayBegin c) then
        let s := s.beginMq sq c
        engineStep c.hdr.core c.hdr.agent id s (fillStep sq c s)
      else s)

/-! ### The products (04 R100) -/

/-- The exact sum of products of a block. -/
def blockSum : List (Val × Val) → Val
  | [] => Val.zero
  | p :: r => ((p.1.mul p.2).1.add false (blockSum r)).1

/-- One block added to the accumulator (R100). -/
def accBlock (acc : Nat) (s : Val) : Nat :=
  if s.isZero then acc else rne32 ((f32Val acc).add false (f32Val (rne32 s))).1

/-- A contraction: blocks of 32, in ascending order, from an accumulator; the number bounds the blocks. -/
def contract : Nat → Nat → List (Val × Val) → Nat
  | 0, acc, _ => acc
  | n + 1, acc, l => if l.isEmpty then acc else contract n (accBlock acc (blockSum (l.take 32))) (l.drop 32)

/-- Rows `x`, columns `y`: every element of the top left of a matrix accumulates its contraction. -/
def productInto (c : List (List Nat)) (x y : List (List Val)) : List (List Nat) :=
  c.zipIdx.map (fun row => match x[row.2]? with
    | none => row.1
    | some xr => row.1.zipIdx.map (fun e => match y[e.2]? with
      | none => e.1
      | some yc => contract (xr.length + 1) e.1 (xr.zip yc)))

/-- C after a product of operands with the values given (R337). -/
def productAcc (op : TileOp) (x y : Decl) (vx vy : List (List Val)) (c : List (List Nat)) : List (List Nat) :=
  let rows := if op == .tmm then transposeRows Val.zero x.cols vx else vx
  let cols := if op == .mmt then vy else transposeRows Val.zero y.cols vy
  productInto c rows cols

/-! ### Element-wise and row operations (R338, R339) -/

/-- Change the elements of C that a tile covers; `f` takes the tile's element. -/
def mapTile (c : List (List Nat)) (t : List (List Val)) (f : Nat → Val → Nat) : List (List Nat) :=
  c.zipIdx.map (fun row => match t[row.2]? with
    | none => row.1
    | some tr => row.1.zipIdx.map (fun e => match tr[e.2]? with
      | none => e.1
      | some v => f e.1 v))

/-- Change the rows of C that a column covers. -/
def mapRows (c : List (List Nat)) (t : List (List Val)) (f : Nat → Val → Nat) : List (List Nat) :=
  c.zipIdx.map (fun row => match t[row.2]? with
    | none => row.1
    | some tr => row.1.map (fun e => f e (tr.headD Val.zero)))

/-- An f32 product. -/
def mul32 (x : Nat) (v : Val) : Nat := rne32 ((f32Val x).mul v).1

/-- An f32 sum. -/
def add32 (x : Nat) (v : Val) : Nat := rne32 ((f32Val x).add false v).1

/-- ρ of R338. -/
def relu32 (x : Nat) : Nat :=
  let v := f32Val x
  if v.isNan then nan32 else if v.isNeg || v.isZero then 0 else x

/-- An activation (R338). -/
def act32 (op : TileOp) (x : Nat) : Nat :=
  match op with
  | .relu => relu32 x
  | .sqrelu => mul32 (relu32 x) (f32Val (relu32 x))
  | _ => (special32 .tanh x).1

/-- Every element of a row takes the row's code. -/
def setRow (c : List (List Nat)) (codes : List Nat) : List (List Nat) :=
  c.zipIdx.map (fun row => match codes[row.2]? with
    | none => row.1
    | some x => row.1.map (fun _ => x))

/-- C after an opcode that writes it; `vx`, `vy` are the operands' values and `codes` slot a's codes. -/
def accAfter (op : TileOp) (x y : Option Decl) (vx vy : List (List Val)) (codes : List Nat) (c : List (List Nat)) :
    List (List Nat) :=
  match op with
  | .mma | .mmt | .tmm => match x, y with
    | some x, some y => productAcc op x y vx vy c
    | _, _ => c
  | .add => mapTile c vx add32
  | .mul => mapTile c vx mul32
  | .sclMul => mapRows c vx mul32
  | .sclSet => setRow c codes
  | .exp => mapRows c vx (fun e v => (special32 .exp (add32 e v.neg)).1)
  | .relu | .sqrelu | .tanh => c.map (fun r => r.map (act32 op))
  | .rmax | .rsum | .cvt | .trn => c

/-- How many rows and columns of C an opcode writes. -/
def accWritten (op : TileOp) (x y : Option Decl) : Nat × Nat :=
  match op, x, y with
  | .mma, some x, some y | .mmt, some x, some y | .tmm, some x, some y =>
    ((productDims op x y).1, (productDims op x y).2.1)
  | .add, some x, _ | .mul, some x, _ => (x.rows, x.cols)
  | .sclMul, some x, _ | .sclSet, some x, _ | .exp, some x, _ => (x.rows, 128)
  | .relu, _, _ | .sqrelu, _, _ | .tanh, _, _ => (128, 128)
  | _, _, _ => (0, 0)

/-- How many rows and columns of C an opcode reads; a log entry that saves C reads all of it. -/
def accRead (op : TileOp) (x y : Option Decl) (saved : Bool) : Nat × Nat :=
  if saved then (128, 128)
  else match op with
    | .trn | .sclSet => (0, 0)
    | .rmax | .rsum | .cvt => (128, 128)
    | _ => accWritten op x y

/-- A written element of C is a NaN or an infinity (R340). -/
def accNonFinite (p : Nat × Nat) (c : List (List Nat)) : Bool :=
  (c.take p.1).any (fun r => (r.take p.2).any (fun x => (f32Val x).isNonFin))

/-- The codes and scales of a slot that an opcode writes (R339). -/
def slotAfter (op : TileOp) (d : Decl) (b : MSlot) (bd : Decl) (c : List (List Nat)) : List Nat × List Nat :=
  match op with
  | .rmax => (c.map (fun r => (treeReduce 1 0 8 r).1), [])
  | .rsum => (c.map (fun r => (treeReduce 0 0 8 r).1), [])
  | .cvt => ((c.map (fun r => r.map (fun x => (roundTo ⟨false, []⟩ d.ty 0 0 (f32Val x)).1))).flatten, [])
  | _ =>
    let sd := bd.scaleDims
    ((transposeRows 0 bd.cols (cutRows bd.rows bd.cols b.data)).flatten,
     (transposeRows 0 sd.2 (cutRows sd.1 sd.2 b.scales)).flatten)

/-! ### The datapath (R331, R332) -/

/-- The cycles an opcode takes (R332). -/
def tileCycles (op : TileOp) (x y : Option Decl) : Nat :=
  match op, x, y with
  | .mma, some x, some y | .mmt, some x, some y | .tmm, some x, some y =>
    let (m, n, k, _) := productDims op x y
    let wide (t : Nat) : Bool := decide (1 ≤ t ∧ t ≤ 3)
    ceilDiv (ceilDiv m 32 * ceilDiv n 32 * ceilDiv k 32)
      (if wide x.ty || wide y.ty then 1 else if x.ty == 8 && y.ty == 8 then 4 else 2)
  | .rmax, _, _ | .rsum, _, _ => 40
  | .trn, _, _ => 16
  | _, _, _ => 32

/-- What a slot holds when a command reads it. -/
def Square.heldDecl (k : Square) (n : Option Nat) : Option Decl := n.bind (fun n => (k.slot n).held)

/-- The next tile opcode of a core's queue, when it may begin (R330, R331): whole, while anything is left of its budget (log
68). -/
def readyTile (s : State) (q lane : Nat) : Option (MCmd × TileOp) :=
  let k := s.sqAt q
  match k.mq.find? (fun c => c.hdr.lane == lane && !c.begun) with
  | none => none
  | some c => match c.kind with
    | .tile op => if k.mayBegin c && !(s.budget c.hdr.dom 1 q).spent then some (c, op) else none
    | _ => none

/-- Start a core's tile opcode (R331). -/
def startTile (q lane : Nat) (s : State) : State :=
  match readyTile s q lane with
  | none => s
  | some (c, op) =>
    let k := s.sqAt q
    let (sa, sb) := op.sources c.a c.b
    let cyc := tileCycles op (k.heldDecl sa) (k.heldDecl sb)
    let k := { k.setMq { c with begun := true } with
      active := some c.hdr.ord, credits := sset k.credits lane (sget 0 k.credits lane - 1), arbP := (lane + 1) % 8 }
    (s.setSq q k).spend c.hdr.dom 1 q cyc

/-- The arbiter (R331). -/
def arbitrate (q : Nat) (s : State) : State :=
  let k := s.sqAt q
  let order := (upTo 8).map (fun i => (k.arbP + i) % 8)
  let ready := order.filter (fun c => (readyTile s q c).isSome)
  if k.active.isSome || ready.isEmpty then s
  else match ready.find? (fun c => decide (0 < sget 0 k.credits c)) with
    | some c => startTile q c s
    | none =>
      let credits := (upTo 8).map (fun c => (c, (k.mcore c).weight))
      let s := s.setSq q { k with credits := credits }
      match ready.find? (fun c => decide (0 < sget 0 credits c)) with
      | some c => startTile q c s
      | none => startTile q (ready.headD 0) s

/-- TILE_OPCODE_START (R331). -/
def execTileOpcodeStart (sq : Nat) (s : State) : Host.Outcome State Fault Refusal :=
  hwStep (decide (sq < 128)) s (arbitrate sq)

/-- Complete a tile opcode (R332, R337 to R340, R346, R20). -/
def tileStep (q : Nat) (c : MCmd) (op : TileOp) (s : State) : Except EStop State := do
  let k := s.sqAt q
  let (sa, sb) := op.sources c.a c.b
  let slot (n : Option Nat) : MSlot := (k.slot (n.getD 0)).sound
  let x := k.heldDecl sa
  let y := k.heldDecl sb
  let lost := (sortNats (sa.toList ++ sb.toList)).countP (fun n => (k.slot n).bad) +
    accFails s q (accRead op x y (c.log.any (·.sc)))
  let vals (d : Option Decl) (m : MSlot) : List (List Val) := (d.map (fun d => tileVals c.dt8 d m.data m.scales)).getD []
  let c0 := if op.usesAcc then accRows s q else []
  let c1 := accAfter op x y (vals x (slot sa)) (vals y (slot sb)) (slot sa).data c0
  let snaps := { c with log := c.log.filter (fun e => e.kind == 2) }
  let s ← writeLogs q snaps [] s
  let (nf, s) := match op.writesSlot, c.decl with
    | true, some d =>
      let (data, sc) := slotAfter op d (slot sb) (y.getD ⟨0, 0, 0, 0⟩) c0
      let m := (k.slot c.a).filled c.dt8 d data sc
      (m.summary.any (· == true), s.setSq q ((s.sqAt q).setSlot c.a m))
    | _, _ => (accNonFinite (accWritten op x y) c1, if op.usesAcc then putAcc q (accWritten op x y) c1 s else s)
  let s ← writeLogs q { c with log := c.log.filter (fun e => e.kind != 2) } (if op == .exp then c1 else c0) s
  let s := s.matrixStatus q c.hdr.lane lost (if nf then 1 else 0)
  let s := match c.rdy with
    | some n => s.tableSet q n c.hdr.dom c.hdr.lane
    | none => s
  let s := s.setSq q { s.sqAt q with active := none }
  pure (finishMatrix q c s)

/-- TILE_OPCODE_COMPLETE (R332). -/
def execTileOpcodeComplete (sq : Nat) (s : State) : Host.Outcome State Fault Refusal :=
  hwStep (decide (sq < 128)) s (fun s =>
    let k := s.sqAt sq
    match k.mq.find? (fun c => k.active == some c.hdr.ord) with
    | none => s
    | some c => match c.kind with
      | .tile op => engineStep c.hdr.core c.hdr.agent id s (tileStep sq c op s)
      | _ => s)

end Sys2Proof.Machine
end

