-- ==== Sys2Proof/Machine/MatrixRec.lean ====
section
/-! DEFINITION. Record mode and its reversal: MLOG, MREC, MREV and the adjoint walk (14 R341, R342, R347 to R350). -/
namespace Sys2Proof.Machine

/-! ### MLOG and MREC (R341, R342) -/

/-- An MREV of core `lane` has not completed. -/
def Square.reversing (k : Square) (lane : Nat) : Bool := k.mq.any (fun c => c.kind == .mrev && c.hdr.lane == lane)

/-- The arenas are set as the six values of a record say; other bases empty the log. -/
def MCore.setArenas (m : MCore) (v : List Nat) : MCore :=
  let w (i : Nat) : Word := wd (v.getD i 0)
  let same := m.logBase == w 0 && m.saveBase == w 2 && m.gradBase == w 4
  let m := { m with armed := true, logBase := w 0, logLimit := w 1, saveBase := w 2, saveLimit := w 3, gradBase := w 4,
                    gradLimit := w 5 }
  if same then m else { m with logPos := w 0, savePos := w 2, gradPos := w 4, producer := [] }

/-- MLOG (R341). -/
def execMlog (a : BitVec 6) (s : State) : Host.Outcome State Fault Refusal :=
  guardedRun (.mlog a) s (fun s => do
    let (x, s) ← readReg a.toNat s
    if x.toNat % 8 ≠ 0 then misaligned x.toNat
    else
      let b ← localRead x.toNat 48 s
      let v := (upTo 6).map (fun i => leAt b (8 * i) 8)
      let at_ (i : Nat) : Nat := v.getD i 0
      if v.any (fun y => !isGlobal y || y % 128 != 0) || [0, 2, 4].any (fun i => decide (at_ (i + 1) < at_ i)) then
        fmtTrap x.toNat
      else
        let s ← [0, 2, 4].foldlM (fun s i => spanGrant needW s.destFoot (at_ i) (at_ (i + 1) - at_ i) s) s
        let k := s.sqAt s.sq
        if k.reversing s.lane then throw (.wait .hub)
        else pure (s.setSq s.sq (k.setMcore s.lane ((k.mcore s.lane).setArenas v))))

/-- MREC (R342). -/
def execMrec (a : BitVec 6) (s : State) : Host.Outcome State Fault Refusal :=
  guarded (.mrec a) s (fun s => do
    let (x, s) ← readReg a.toNat s
    let k := s.sqAt s.sq
    let m := k.mcore s.lane
    if bitW x 0 && (!m.armed || decide (m.logLimit.toNat ≤ m.logBase.toNat)) then fmtOpen s
    else if bitW x 0 && k.reversing s.lane then .error (.wait .hub)
    else pure (s.setSq s.sq (k.setMcore s.lane { m with recording := bitW x 0 })))

/-! ### MREV at issue (R347) -/

/-- The lines of the gradient buffers that the log holds. -/
def MCore.gradLines (m : MCore) : List Nat :=
  (upTo ((m.gradPos.toNat - m.gradBase.toNat) / 128)).map (fun i => m.gradBase.toNat / 128 + i)

/-- MREV (R347). Logged operands of dt8 are decoded by the core's table as it stands here, and the table's tag is not compared: no
format shadow names dt8 (04 R95; log 76). -/
def execMrev (a : BitVec 6) (s : State) : Host.Outcome State Fault Refusal :=
  guarded (.mrev a) s (fun s => do
    let (x, s) ← readReg a.toNat s
    let w0 := bitsW x 5 0
    let w1 := bitsW x 13 8
    let m := (s.sqAt s.sq).mcore s.lane
    if m.recording || !s.holdsSlot w0 || !s.holdsSlot w1 || !s.holdsAcc || w0 == w1 then ill s
    else if !m.armed then fmtOpen s
    else
      appendMatrix none [(w0, none), (w1, none)] []
        { m with logPos := m.logBase, savePos := m.saveBase, gradPos := m.gradBase, producer := [] } m.gradLines
        (fun h =>
          { hdr := h, kind := .mrev, a := w0, b := w1, reads := [w0, w1], writes := [w0, w1], acc := true,
            src := .nothing, decl := none, scale := 0, pitch := 0, dt8 := s.core.dt8, rdy := none, begun := false,
            log := [], entries := m.nextIndex, arena := m.logBase }) s)

/-! ### The log as MREV reads it (R343) -/

/-- A declared state from an entry's word. -/
def parseDecl (w : Nat) : Decl := ⟨fieldN w 0 6, fieldN w 8 8 + 1, fieldN w 16 8 + 1, fieldN w 24 2⟩

/-- An entry from its 64 bytes. -/
def parseEntry (addr : Nat) (b : List Byte) : LogEnt :=
  let f := leAt b 5 1
  let idx (n : Nat) : Option Nat := if n = 0xFFFFFFFF then none else some n
  { addr := addr, word := leAt b 0 4, kind := leAt b 4 1, core := fieldN f 0 3, sv := fieldN f 3 1 == 1,
    sc := fieldN f 4 1 == 1, rdy := fieldN f 5 1 == 1, entry := leAt b 6 1,
    slot := if leAt b 7 1 < 64 then some (leAt b 7 1) else none, srcA := idx (leAt b 8 4), srcB := idx (leAt b 12 4),
    src := leAt b 16 8, scale := leAt b 24 8, saved := leAt b 32 8, grad := leAt b 40 8, savedC := leAt b 48 8,
    decl := if leAt b 7 1 < 64 then some (parseDecl (leAt b 56 4)) else none, pitch := leAt b 60 4 }

/-- The tile opcode of a logged word (R335). -/
def wordOp (w : Nat) : Option TileOp :=
  match fieldN w 0 4, fieldN w 4 6 with
  | 0, _ => some .mma
  | 1, _ => some .mmt
  | 2, _ => some .tmm
  | 3, _ => some .add
  | 4, _ => some .mul
  | 5, 0 => some .sclMul
  | 5, _ => some .sclSet
  | 6, _ => some .exp
  | 7, _ => some .rmax
  | 8, _ => some .rsum
  | 9, _ => some .cvt
  | 10, _ => some .trn
  | 11, 0 => some .relu
  | 11, 1 => some .sqrelu
  | 11, _ => some .tanh
  | _, _ => none

/-- Read an f32 matrix of a size at a global address; lines that may not be read are zeros. -/
def readMat (a : Agent) (addr rows cols : Nat) (s : State) : Except EStop (List (List Nat) × State) := do
  let (b, _, s) ← engineReadsZero a addr (4 * rows * cols) s
  pure ((cutRows rows (4 * cols) b).map (fun r => rowCodes 0 cols r), s)

/-- What the walk carries: the entries, oldest first, and dC. -/
structure Walk where
  ents : List LogEnt
  dc : List (List Nat)
  deriving DecidableEq, Repr

/-- The gradient buffer of an entry (R347). -/
def gradOf (a : Agent) (e : LogEnt) (s : State) : Except EStop (List (List Nat) × State) :=
  match e.decl with
  | some d => readMat a e.grad d.rows d.cols s
  | none => .ok ([], s)

/-- Change the gradient buffer of a producer (R347). -/
def addGrad (a : Agent) (p : Option LogEnt) (f : List (List Nat) → List (List Nat)) (s : State) : Except EStop State :=
  match p with
  | none => .ok s
  | some e => do
    let (g, s) ← gradOf a e s
    engineWritesSkip a e.grad (accBytes (f g)) s

/-- Recompute a fill's rows from its source (R345); the logged pitch is a signed number of bytes (log 36). -/
def recompute (a : Agent) (core : Nat) (e : LogEnt) (d : Decl) (s : State) : Except EStop (List Nat × List Nat × State) := do
  let (rows, s) ← (upTo d.rows).foldlM (fun (p : List (List Nat) × State) (i : Nat) => do
    let (b, s) ← agentRead a core (ofIntN 64 ((e.src : Int) + (i : Int) * sextI 32 e.pitch)) (rowBytes d.ty d.cols) p.2
    pure (p.1 ++ [rowCodes d.ty d.cols b], s)) ([], s)
  let (sc, s) ← (if d.scaleCount = 0 then pure ([], s) else agentRead a core e.scale d.scaleCount s)
  pure (rows.flatten, sc.map BitVec.toNat, s)

/-- The value of a source slot: its producer's saved copy, or recomputed (R345, R347). An operand that may not be
recomputed is +0 and counts in FAIL. -/
def valueAt (q : Nat) (c : MCmd) (p : Option LogEnt) (s : State) : Except EStop (List (List Val) × State) :=
  match p with
  | none => .ok ([], s)
  | some e =>
    let a := c.hdr.agent
    match e.decl with
    | none => .ok ([], s)
    | some d =>
      if e.sv then do
        let n := rowBytes d.ty d.cols
        let (b, _, s) ← engineReadsZero a e.saved (d.rows * n + d.scaleCount) s
        let data := ((cutRows d.rows n b).map (rowCodes d.ty d.cols)).flatten
        pure (tileVals c.dt8 d data ((b.drop (d.rows * n)).map BitVec.toNat), s)
      else match recompute a c.hdr.core e d s with
        | .ok (data, sc, s) => .ok (tileVals c.dt8 d data sc, s)
        | .error (.abandon w) =>
          .ok (List.replicate d.rows (List.replicate d.cols Val.zero), (s.metPoison w).matrixStatus q c.hdr.lane 1 0)
        | .error w => .error w

/-! ### Adjoints (R348 to R350) -/

/-- The values of f32 rows. -/
def valRows (m : List (List Nat)) : List (List Val) := m.map (fun r => r.map f32Val)

/-- The top left of a matrix. -/
def topLeft {α : Type} (rows cols : Nat) (m : List (List α)) : List (List α) := (m.take rows).map (List.take cols)

/-- The contributions of a product (R348): what G(a) and G(b) contract, as rows and columns. -/
def productAdjoint (op : TileOp) (x y : Decl) (vx vy : List (List Val)) (dc : List (List Nat)) :
    (List (List Val) × List (List Val)) × (List (List Val) × List (List Val)) :=
  let (m, n, k, _) := productDims op x y
  let d := topLeft m n (valRows dc)
  let dT := transposeRows Val.zero n d
  let xT := transposeRows Val.zero x.cols vx
  let yT := transposeRows Val.zero y.cols vy
  match op with
  | .mmt => ((d, yT), (dT, xT))
  | .tmm => ((vy.take k, d), (vx.take k, dT))
  | _ => ((d, vy), (xT, dT))

/-- Row sums in the tree order of R307. -/
def rowSum (l : List Nat) : Nat := (treeReduce 0 0 8 l).1

/-- Element by element over the rows of a matrix and another. -/
def zipRows (f : Nat → Nat → Nat) (x y : List (List Nat)) : List (List Nat) :=
  (x.zip y).map (fun p => (p.1.zip p.2).map (fun q => f q.1 q.2))

/-- Add to each element of a column the value of a list. -/
def addColumn (g : List (List Nat)) (v : List Nat) : List (List Nat) :=
  g.zipIdx.map (fun r => r.1.map (fun x => match v[r.2]? with
    | some y => add32 x (f32Val y)
    | none => x))

/-- Add a matrix into the top left of another, element by element. -/
def addMat (g m : List (List Nat)) : List (List Nat) := mapTile g (valRows m) add32

/-- The adjoint of an activation: dC's element and the saved one (R349). -/
def actAdjoint (op : TileOp) (d c : Nat) : Nat :=
  let v := f32Val c
  match op with
  | .relu => if v.isNan then nan32 else if v.isNeg || v.isZero then 0 else d
  | .sqrelu => mul32 d ((f32Val (relu32 c)).scale 1)
  | _ =>
    let y := f32Val (special32 .tanh c).1
    mul32 d (f32Val (rne32 (Val.fma false y.neg y Val.one).1))

/-- The lowest column of a row that holds its maximum (R350). -/
def maxColumn (row : List Nat) : Nat :=
  let m := (treeReduce 1 0 8 row).1
  if (f32Val m).isNan then 0 else (findIdx? (· == m) row).getD 0

/-- The adjoint reads its operands' values (R348, R349). -/
def TileOp.needsValue : TileOp → Bool
  | .mma | .mmt | .tmm | .mul | .sclMul => true
  | _ => false

/-- The adjoint of a logged tile opcode: gradient buffers written, and dC after it. -/
def adjoint (q : Nat) (c : MCmd) (w : Walk) (e : LogEnt) (op : TileOp) (s : State) : Except EStop (List (List Nat) × State) := do
  let a := c.hdr.agent
  let ent (i : Option Nat) : Option LogEnt := i.bind (fun i => w.ents[i]?)
  let pa := ent e.srcA
  let pb := ent e.srcB
  let (cin, s) ← (if e.sc then readMat a e.savedC 128 128 s else pure ([], s))
  let (vx, s) ← (if op.needsValue then valueAt q c pa s else pure ([], s))
  let (vy, s) ← (if op.needsValue then valueAt q c pb s else pure ([], s))
  let (gs, s) ← (if op.writesSlot then gradOf a e s else pure ([], s))
  let r := ((pa.bind (·.decl)).map (·.rows)).getD 0
  match op with
  | .mma | .mmt | .tmm =>
    match pa.bind (·.decl), pb.bind (·.decl) with
    | some x, some y => do
      let (ga, gb) := productAdjoint op x y vx vy w.dc
      let s ← addGrad a pa (fun g => productInto g ga.1 ga.2) s
      let s ← addGrad a pb (fun g => productInto g gb.1 gb.2) s
      pure (w.dc, s)
    | _, _ => pure (w.dc, s)
  | .add => do
    let s ← addGrad a pa (fun g => addMat g w.dc) s
    pure (w.dc, s)
  | .mul => do
    let s ← addGrad a pa (fun g => addMat g (zipRows (fun d x => mul32 d (f32Val x)) w.dc cin)) s
    pure (mapTile w.dc vx mul32, s)
  | .sclMul => do
    let sums := (zipRows (fun d x => mul32 d (f32Val x)) w.dc cin).map rowSum
    let s ← addGrad a pa (fun g => addColumn g sums) s
    pure (mapRows w.dc vx mul32, s)
  | .sclSet => do
    let s ← addGrad a pa (fun g => addColumn g (w.dc.map rowSum)) s
    pure ((w.dc.take r).map (fun x => x.map (fun _ => 0)) ++ w.dc.drop r, s)
  | .exp => do
    let t := zipRows (fun d y => mul32 d (f32Val y)) (w.dc.take r) cin
    let s ← addGrad a pa (fun g => addColumn g (t.map (fun x => rne32 (f32Val (rowSum x)).neg))) s
    pure (t ++ w.dc.drop r, s)
  | .relu | .sqrelu | .tanh => pure (zipRows (actAdjoint op) w.dc cin, s)
  | .rmax =>
    pure (w.dc.zipIdx.map (fun row =>
      let j := maxColumn (cin.getD row.2 [])
      row.1.zipIdx.map (fun x => if x.2 = j then add32 x.1 (f32Val ((gs.getD row.2 []).headD 0)) else x.1)), s)
  | .rsum => pure (addColumn w.dc (gs.map (fun g => g.headD 0)), s)
  | .cvt => pure (addMat w.dc gs, s)
  | .trn => do
    let s ← addGrad a pb (fun g => addMat g (transposeRows 0 ((gs.headD []).length) gs)) s
    pure (w.dc, s)

/-- Walk the entries, newest first (R347). -/
def walkBack (q : Nat) (c : MCmd) (ents : List LogEnt) :
    List LogEnt → List (List Nat) → State → Except EStop (List (List Nat) × State)
  | [], dc, s => .ok (dc, s)
  | e :: r, dc, s => do
    let (dc, s) ← (match e.kind, wordOp e.word with
      | 3, some op => adjoint q c ⟨ents, dc⟩ e op s
      | _, _ => pure (dc, s))
    let s := if e.kind = 1 ∧ e.rdy then s.tableSet q e.entry c.hdr.dom c.hdr.lane else s
    walkBack q c ents r dc s

/-- Execute an MREV and complete it (R347); what its working slots hold is undefined from then on. -/
def reverseStep (q : Nat) (c : MCmd) (s : State) : Except EStop State := do
  let a := c.hdr.agent
  let (b, _, s) ← engineReadsZero a c.arena.toNat (64 * c.entries) s
  let ents := (cutRows c.entries 64 b).zipIdx.map (fun p => parseEntry (c.arena.toNat + 64 * p.2) p.1)
  let s ← ents.foldlM (fun s e => match e.decl with
    | some d => engineWritesSkip a e.grad (leBytes d.gradSize 0) s
    | none => pure s) s
  let s := s.matrixStatus q c.hdr.lane (accFails s q (128, 128)) 0
  let (dc, s) ← walkBack q c ents ents.reverse (accRows s q) s
  let k := s.sqAt q
  let s := s.setSq q ((k.setSlot c.a (k.slot c.a).lost).setSlot c.b (k.slot c.b).lost)
  pure (finishMatrix q c (putAcc q (128, 128) dc s))

/-- MREV_EXECUTE (R347): the oldest command of core `core`'s queue. -/
def execMrevExecute (sq core : Nat) (s : State) : Host.Outcome State Fault Refusal :=
  hwStep (decide (sq < 128 ∧ core < 8)) s (fun s =>
    let k := s.sqAt sq
    match k.mq.find? (fun c => c.hdr.lane == core) with
    | none => s
    | some c =>
      if c.kind == .mrev && (c.begun || k.mayBegin c) then
        let s := s.beginMq sq c
        engineStep c.hdr.core c.hdr.agent id s (reverseStep sq c s)
      else s)

end Sys2Proof.Machine
end

