-- ==== Sys2Proof/Machine/Rotation.lean ====
section
/-! DEFINITION. Rotation of keys on load: the cosine and sine tables and the rotation of a row (15 R373). -/
namespace Sys2Proof.Machine

/-- The sum of (1/x)^(2k+1)/(2k+1) with alternating signs from term `k`, times 2^fixP; `t` is the power. -/
def atanTail (x2 : Nat) : Nat → Nat → Nat → Int
  | 0, _, _ => 0
  | n + 1, k, t =>
    (if k % 2 = 0 then ((t / (2 * k + 1) : Nat) : Int) else -((t / (2 * k + 1) : Nat) : Int)) + atanTail x2 n (k + 1) (t / x2)

/-- arctan(1 / x) * 2^fixP. -/
def atanFix (x : Nat) : Int := atanTail (x * x) 64 0 (2 ^ fixP / x)

/-- π * 2^fixP. -/
def piFix : Nat := (16 * atanFix 5 - 4 * atanFix 239).toNat

/-- The terms of cos (even places) and sin (odd places) of X / 2^fixP from term `k` on, with their signs. -/
def cosSinTail (X : Nat) : Nat → Nat → Nat → Int × Int
  | 0, _, _ => (0, 0)
  | n + 1, k, t =>
    let (c, s) := cosSinTail X n (k + 1) (t * X / (2 ^ fixP * (k + 1)))
    match k % 4 with
    | 0 => (c + (t : Int), s)
    | 1 => (c, s + (t : Int))
    | 2 => (c - (t : Int), s)
    | _ => (c, s - (t : Int))

/-- cos and sin of 2πr/4096 times 2^fixP, for r below 1024. -/
def cosSinFix (r : Nat) : Int × Int := cosSinTail (piFix * r / 2048) 80 0 (2 ^ fixP)

/-- The f32 codes of cos and sin in the first quadrant: exact at 0, else inexact values correctly rounded. -/
def firstQuadrant (r : Nat) : Nat × Nat :=
  if r = 0 then (one32 false, 0)
  else
    let (c, s) := cosSinFix r
    (rne32 (inexactVal false c.toNat (-(fixP : Int))), rne32 (inexactVal false s.toNat (-(fixP : Int))))

/-- The other sign; a zero stays +0. -/
def flip32 (x : Nat) : Nat := if x = 0 then 0 else x + 2 ^ 31

/-- CT(j), ST(j). -/
def rotTable (j : Nat) : Nat × Nat :=
  let (c, s) := firstQuadrant (j % 1024)
  match j / 1024 with
  | 0 => (c, s)
  | 1 => (flip32 s, c)
  | 2 => (flip32 c, flip32 s)
  | 3 => (s, flip32 c)
  | _ => (c, s)

/-- An f32 fused multiply-add, rounded to nearest even. -/
def fma32 (x y d : Val) : Nat := rne32 (Val.fma false x y d).1

/-- Interpolation between table values `a` and `b` at f * 2^-20. -/
def rotInterp (a b f : Nat) : Nat :=
  fma32 (f32Val (rne32 ((f32Val b).add false (f32Val a).neg).1)) (.fin false f (-20)) (f32Val a)

/-- Rotate the pair `x`, `y` of codes of a slot format by the phase `ph`. -/
def rotPair (fmt x y ph : Nat) : Nat × Nat :=
  let j := fieldN ph 20 12
  let f := fieldN ph 0 20
  let (c0, s0) := rotTable j
  let (c1, s1) := rotTable (j + 1)
  let c := f32Val (rotInterp c0 c1 f)
  let s := f32Val (rotInterp s0 s1 f)
  let vx := valueOf [] fmt x
  let vy := valueOf [] fmt y
  let u := f32Val (rne32 (vy.mul s).1)
  let v := f32Val (rne32 (vy.mul c).1)
  let out (r : Nat) : Nat := (roundTo ⟨false, []⟩ fmt 0 0 (f32Val r)).1
  (out (fma32 vx c u.neg), out (fma32 vx s v))

/-- Rotate a row of codes at position `p` with turn fractions. -/
def rotRow (fmt p : Nat) : List (BitVec 32) → List Nat → List Nat
  | phi :: r, x :: y :: l =>
    let (a, b) := rotPair fmt x y (p * phi.toNat % 2 ^ 32)
    a :: b :: rotRow fmt p r l
  | _, l => l

end Sys2Proof.Machine
end

