-- ==== Sys2Proof/Machine/ContextEngine.lean ====
section
/-! DEFINITION. The context engine at execution: page pools, chains, and what each of its commands does (15 R354 to R381). -/
namespace Sys2Proof.Machine

/-! ### Outcomes and accesses (R363, R364, R384) -/

/-- Why a command is not carried out now: it fails, it waits for a free page of its pool, or for a page of memory
(reason 0: for a line's owner or a budget). A failure says which poisoned line it met, if it met one. -/
inductive KStop where
  | fail (met : Option (Agent × Nat))
  | page
  | wait (va reason code : Nat)
  deriving DecidableEq, Repr

/-- The fields of a pool descriptor that commands use (R354). -/
structure KPool where
  pages : Nat
  headers : Nat
  counts : Nat
  n : Nat
  index : Nat
  sets : Nat
  turn : Nat
  deriving DecidableEq, Repr

/-- What a command works on: who it is, its core, whether it is at issue, where a page that migrates counts as not resident
(20 R438), its pool, its sequence context, a page already taken for it, and the machine. -/
structure KWork where
  agent : Agent
  core : Nat
  issue : Bool
  pool : KPool
  c : SeqCtx
  got : Option Nat
  s : State

/-- An engine access of a command: an access that is not granted makes it fail. -/
def kAccess {α : Type} : Except EStop α → Except KStop α
  | .ok x => .ok x
  | .error (.abandon w) => .error (.fail w)
  | .error (.wait va r c) => .error (.wait va r c)

/-- A page that a check at issue asks for is resident: served, and not migrating (15 R374, 20 R438). -/
def kResident (va : Nat) (s : State) : Except KStop State :=
  match translate (s.homeOf (segOf va)) true va s with
  | (.ok .., s) => .ok s
  | (.stop r c, _) => .error (.wait va r c)

/-- Read bytes. -/
def kBytes (va n : Nat) (w : KWork) : Except KStop (List Byte × KWork) := do
  let s ← (if w.issue then kResident va w.s else pure w.s)
  let (b, s) ← kAccess (engineReads w.agent va n s)
  pure (b, { w with s := s })

/-- Read a number of `n` bytes. -/
def kRead (va n : Nat) (w : KWork) : Except KStop (Nat × KWork) := do
  let (b, w) ← kBytes va n w
  pure (ofBytes b, w)

/-- Write bytes. -/
def kWrite (va : Nat) (b : List Byte) (w : KWork) : Except KStop KWork := do
  let s ← kAccess (engineWrites w.agent va b w.s)
  pure { w with s := s }

/-- The size of a row by slot format (R354). -/
def rowSize (fmt : Nat) : Nat := if fmt = 4 then 128 else 256

/-- A slot format (R354). -/
def slotFormat (fmt : Nat) : Bool := fmt == 1 || fmt == 2 || fmt == 4

/-- No page, and no head. -/
def noPage : Nat := 0xFFFFFFFF

/-- The address of page `p` (R355). -/
def KWork.pageAddr (w : KWork) (p : Nat) : Nat := w.pool.pages + 32 * rowSize w.c.fmt * p

/-- The address of page `p`'s header (R356). -/
def KWork.headerAddr (w : KWork) (p : Nat) : Nat := w.pool.headers + 128 * p

/-- The address of page `p`'s count (R354). -/
def KWork.countAddr (w : KWork) (p : Nat) : Nat := w.pool.counts + 2 * p

/-- A page's count. -/
def kCount (p : Nat) (w : KWork) : Except KStop (Nat × KWork) := kRead (w.countAddr p) 2 w

/-- Write a page's count. -/
def kSetCount (p n : Nat) (w : KWork) : Except KStop KWork := kWrite (w.countAddr p) (leBytes 2 n) w

/-- A page number of a pool of `n` pages, or none. -/
def pageOrNone (n p : Nat) : Bool := decide (p < n) || p == noPage

/-- A pool descriptor from its bytes, and whether it keeps R354 for a slot format. -/
def parsePool (fmt : Nat) (b : List Byte) : KPool × Bool :=
  let p : KPool := ⟨leAt b 0 8, leAt b 8 8, leAt b 16 8, leAt b 24 4, leAt b 40 8, leAt b 48 4, leAt b 56 8⟩
  (p, leAt b 28 4 == fmt && p.pages % (32 * rowSize fmt) == 0 && p.headers % 128 == 0 && p.counts % 128 == 0 &&
    decide (1 ≤ p.n ∧ p.n ≤ 2 ^ 24) && p.index % 64 == 0 && leAt b 52 4 == 0 && p.turn % 4 == 0 &&
    pageOrNone p.n (leAt b 32 4) && decide (1 ≤ p.sets ∧ p.sets ≤ 2 ^ 20) && p.sets == 2 ^ log2N p.sets)

/-! ### Chains (R360) -/

/-- A page number of the pool; any other fails the command. -/
def kPage (p : Nat) (w : KWork) : Except KStop (Nat × KWork) := if p < w.pool.n then .ok (p, w) else .error (.fail none)

/-- A page's successor, which must be a page. -/
def kSucc (p : Nat) (w : KWork) : Except KStop (Nat × KWork) := do
  let (n, w) ← kRead (w.headerAddr p) 4 w
  kPage n w

/-- The page a join names at a chain index. -/
def SeqCtx.joinAt (c : SeqCtx) (i : Nat) : Option Nat := (c.joins.find? (fun j => j.1 == i)).map (·.2)

/-- `page_at(i)` (R360). -/
def pageAt : Nat → KWork → Except KStop (Nat × KWork)
  | 0, w => kPage ((w.c.joinAt 0).getD w.c.head) w
  | i + 1, w =>
    match w.c.joinAt (i + 1) with
    | some p => kPage p w
    | none => do
      let (p, w) ← pageAt i w
      kSucc p w

/-- `place(i, q)` (R360); a 25th join fails. -/
def place (i q : Nat) (w : KWork) : Except KStop KWork :=
  if (w.c.joinAt i).isSome then .ok { w with c := { w.c with joins := sset w.c.joins i q } }
  else if i = 0 then .ok { w with c := { w.c with head := q } }
  else do
    let (p, w) ← pageAt (i - 1) w
    let (n, w) ← kCount p w
    if n = 1 then kWrite (w.headerAddr p) (leBytes 4 q) w
    else if 24 ≤ w.c.joins.length then .error (.fail none)
    else pure { w with c := { w.c with joins := sset w.c.joins i q } }

/-- The pages at chain indices `lo` and up, `n` of them. -/
def pagesFrom (lo n : Nat) (w : KWork) : Except KStop (List Nat × KWork) :=
  (upTo n).foldlM (fun (p : List Nat × KWork) i => do
    let (q, w) ← pageAt (lo + i) p.2
    pure (p.1 ++ [q], w)) ([], w)

/-! ### Allocation and release (R357) -/

/-- A fresh header (R357). -/
def freshHeader (pbase : Nat) (t : Bool) : List Byte :=
  leBytes 4 noPage ++ leBytes 4 pbase ++ leBytes 1 0 ++ leBytes 1 (if t then 1 else 0) ++ leBytes 118 0

/-- Take the head of the free list; an empty list waits. -/
def takeFree (w : KWork) : Except KStop (Nat × KWork) := do
  let d := w.c.pool.toNat
  let (h, w) ← kRead (d + 32) 4 w
  if h = noPage then .error .page
  else
    let (h, w) ← kPage h w
    let (next, w) ← kRead (w.headerAddr h) 4 w
    let (n, w) ← kRead (d + 36) 4 w
    let w ← kWrite (d + 32) (leBytes 4 next ++ leBytes 4 (n + 2 ^ 32 - 1)) w
    let w ← kSetCount h 1 w
    pure (h, w)

/-- Allocate a page with a fresh header (R357): the one already taken for the command, or the head of the free list. -/
def allocate (pbase : Nat) (t : Bool) (w : KWork) : Except KStop (Nat × KWork) := do
  let (q, w) ← (match w.got with
    | some q => pure (q, { w with got := none })
    | none => takeFree w)
  let w ← kWrite (w.headerAddr q) (freshHeader pbase t) w
  pure (q, w)

/-- Release a page (R357): at 0 the command fails. -/
def releasePage (p : Nat) (w : KWork) : Except KStop KWork := do
  let (n, w) ← kCount p w
  if n = 0 then .error (.fail none)
  else
    let w ← kSetCount p (n - 1) w
    if n = 1 then
      let d := w.c.pool.toNat
      let (h, w) ← kRead (d + 32) 4 w
      let (m, w) ← kRead (d + 36) 4 w
      let w ← kWrite (w.headerAddr p) (leBytes 4 h) w
      kWrite (d + 32) (leBytes 4 p ++ leBytes 4 (m + 1)) w
    else pure w

/-- A new page at the end of the chain (R360). -/
def newPage (w : KWork) : Except KStop KWork := do
  let n := w.c.pages
  let (pb, w) ← (if n = 0 then pure (w.c.pos0, w) else do
    let (p, w) ← pageAt (n - 1) w
    let (b, w) ← kRead (w.headerAddr p + 4) 4 w
    pure ((b + 16) % 2 ^ 32, w))
  let (q, w) ← allocate pb w.c.kt w
  let w ← place n q w
  pure { w with c := { w.c with pages := n + 1 } }

/-- Copy a page with its header into a new one (R360). -/
def copyPage (p : Nat) (w : KWork) : Except KStop (Nat × KWork) := do
  let (q, w) ← allocate 0 false w
  let (b, w) ← kBytes (w.pageAddr p) (32 * rowSize w.c.fmt) w
  let w ← kWrite (w.pageAddr q) b w
  let (h, w) ← kBytes (w.headerAddr p) 128 w
  let w ← kWrite (w.headerAddr q) h w
  pure (q, w)

/-- Copy on write at a chain index (R360). -/
def copyOnWrite (i : Nat) (w : KWork) : Except KStop KWork := do
  let (p, w) ← pageAt i w
  let (q, w) ← copyPage p w
  let w ← place i q w
  releasePage p w

/-! ### KOPEN and KCLOSE (R365, R366) -/

/-- The joins of a record. -/
def recordJoins (b : List Byte) : SMap Nat :=
  (upTo (fieldN (leAt b 40 4) 0 5)).map (fun i => (leAt b (64 + 8 * i) 4, leAt b (68 + 8 * i) 4))

/-- Joins ascend strictly and lie below a bound. -/
def joinsOk (bound : Nat) : SMap Nat → Bool
  | a :: b :: r => decide (a.1 < b.1) && joinsOk bound (b :: r)
  | [a] => decide (a.1 < bound)
  | [] => true

/-- A record's bytes keep R359, for a pool of `n` pages. -/
def recordOk (n : Nat) (b : List Byte) : Bool :=
  let pages := leAt b 12 4
  let clen := leAt b 16 4
  let tlen := leAt b 20 4
  let j := fieldN (leAt b 40 4) 0 5
  decide (pages ≤ 2 ^ 24 ∧ clen ≤ tlen ∧ tlen ≤ 16 * pages ∧ (pages = 0 ∨ 16 * (pages - 1) < tlen) ∧ j ≤ 24) &&
    fieldN (leAt b 40 4) 5 3 == 0 && fieldN (leAt b 40 4) 9 23 == 0 && ((b.drop 44).take 20).all (· == 0) &&
    ((b.drop (64 + 8 * j)).take (192 - 8 * j)).all (· == 0) && joinsOk pages (recordJoins b) &&
    pageOrNone n (leAt b 8 4) && (recordJoins b).all (fun x => decide (x.2 < n))

/-- KOPEN at execution (R365). -/
def kOpenRun (w : KWork) : Except KStop KWork := do
  let (b, w) ← kBytes w.c.record.toNat 256 w
  if leAt b 0 8 % 64 ≠ 0 then .error (.fail none)
  else
    let (d, w) ← kBytes (leAt b 0 8) 64 w
    let (p, ok) := parsePool w.c.fmt d
    if !ok || !recordOk p.n b then .error (.fail none)
    else
      let (t, w) ← kBytes p.turn 256 w
      pure { w with pool := p, c := { w.c with
        pool := wd (leAt b 0 8), head := leAt b 8 4, pages := leAt b 12 4, clen := leAt b 16 4, tlen := leAt b 20 4,
        mark := leAt b 24 4, pos0 := leAt b 28 4, rhash := wd (leAt b 32 8), kt := fieldN (leAt b 40 4) 8 1 == 1,
        joins := recordJoins b, turn := (upTo 64).map (fun i => BitVec.ofNat 32 (leAt t (4 * i) 4)),
        margin := 0x7F800000, query := 0 } }

/-- Bytes 8 to 255 of a record from the live state (R359). -/
def SeqCtx.recordBytes (c : SeqCtx) : List Byte :=
  leBytes 4 c.head ++ leBytes 4 c.pages ++ leBytes 4 c.clen ++ leBytes 4 c.tlen ++ leBytes 4 c.mark ++ leBytes 4 c.pos0 ++
    leBytes 8 c.rhash.toNat ++ leBytes 4 (c.joins.length + (if c.kt then 256 else 0)) ++ leBytes 20 0 ++
    (c.joins.map (fun j => leBytes 4 j.1 ++ leBytes 4 j.2)).flatten ++ leBytes (192 - 8 * c.joins.length) 0

/-- KCLOSE at execution (R366). -/
def kCloseRun (discard : Bool) (w : KWork) : Except KStop KWork := do
  let w ← (if discard then do
      let (l, w) ← pagesFrom 0 w.c.pages w
      let w ← l.foldlM (fun w p => releasePage p w) w
      pure { w with c := { w.c with head := noPage, pages := 0, clen := 0, tlen := 0, mark := 0, rhash := 0, joins := [],
                                    kt := false } }
    else pure w)
  kWrite (w.c.record.toNat + 8) w.c.recordBytes w

/-! ### Appending and committing (R367, R368) -/

/-- The bound that a key row gives its page (R367). -/
def keyBound (fmt : Nat) (row : List Nat) : Nat :=
  let vs := row.map (valueOf [] fmt)
  if vs.any Val.isNonFin then 0x3FC00
  else match vs.foldl (fun t v => (t.add false (v.mul v).1).1) Val.zero with
    | .fin _ m e => if m = 0 then 0 else ((fmtOf 3).round false 2 0 (sqrtVal m e)).1
    | _ => 0x3FC00

/-- Append token `j` of the block at a local offset (R367); a poisoned part of it that the token needs makes the command fail
(R384, 20 R447). -/
def appendToken (off j : Nat) (w : KWork) : Except KStop KWork := do
  let k := w.s.coreAt w.core
  let r := rowSize w.c.fmt
  let blk := memRead k.mem off (64 + 32 * r)
  if w.c.tlen = 2 ^ 28 then .error (.fail none)
  else if k.poisoned (off + 4 * j) 4 || k.poisoned (off + 64 + j * r) r || k.poisoned (off + 64 + 16 * r + j * r) r then
    .error (.fail none)
  else
    let i := w.c.tlen / 16
    let sl := w.c.tlen % 16
    let w ← (if i = w.c.pages then newPage w else do
      let (p, w) ← pageAt i w
      let (n, w) ← kCount p w
      if 1 < n then copyOnWrite i w else pure w)
    let (p, w) ← pageAt i w
    let key := (blk.drop (64 + j * r)).take r
    let w ← kWrite (w.pageAddr p + sl * r) key w
    let w ← kWrite (w.pageAddr p + 16 * r + sl * r) ((blk.drop (64 + 16 * r + j * r)).take r) w
    let w ← kWrite (w.headerAddr p + 32 + 4 * sl) ((blk.drop (4 * j)).take 4) w
    let (v, w) ← kRead (w.headerAddr p + 8) 1 w
    let w ← kWrite (w.headerAddr p + 8) (leBytes 1 (max v (sl + 1))) w
    let (b, w) ← kRead (w.headerAddr p + 12) 4 w
    let w ← kWrite (w.headerAddr p + 12) (leBytes 4 (max (b % 2 ^ 19) (keyBound w.c.fmt (rowCodes w.c.fmt 128 key)))) w
    pure { w with c := { w.c with tlen := w.c.tlen + 1 } }

/-- KAPP at execution (R367). -/
def kAppRun (blk : Word) (n : Nat) (w : KWork) : Except KStop KWork :=
  (upTo n).foldlM (fun w j => appendToken (localOff blk.toNat) j w) w

/-- The hash of a full page from its predecessor's hash and its token ids (R378). -/
def pageHash (h : Word) (ids : List Nat) : Word :=
  (upTo 4).foldl (fun x j =>
    let id (i : Nat) : Nat := ids.getD (4 * j + i) 0
    let (c0, c1, c2, c3) := philox (bitsW x 31 0) (bitsW x 63 32) (id 0, id 1, id 2, id 3)
    wd (c1 * 2 ^ 32 + c0) ^^^ wd (c3 * 2 ^ 32 + c2)) h

/-- The token ids of a header. -/
def headerIds (h : List Byte) : List Nat := (upTo 16).map (fun i => leAt h (32 + 4 * i) 4)

/-- Hash the page at a chain index (R368). -/
def hashPage (w : KWork) (j : Nat) : Except KStop KWork := do
  let (p, w) ← pageAt j w
  let (h, w) ← kBytes (w.headerAddr p) 128 w
  let x := pageHash w.c.rhash (headerIds h)
  let w ← kWrite (w.headerAddr p + 16) (leBytes 8 x.toNat ++ leBytes 8 w.c.rhash.toNat) w
  pure { w with c := { w.c with rhash := x } }

/-- KACC at execution (R368). -/
def kAccRun (n : Nat) (w : KWork) : Except KStop KWork :=
  let old := w.c.clen
  let new := min (old + n) w.c.tlen
  let w := { w with c := { w.c with clen := new } }
  ((upTo (new / 16 - old / 16)).map (fun i => old / 16 + i)).foldlM hashPage w

/-- KREJ at execution (R368). -/
def kRejRun (w : KWork) : Except KStop KWork := .ok { w with c := { w.c with tlen := w.c.clen } }

/-! ### Speculation (R369) -/

/-- Clear T in the pages that have it. -/
def clearTentative (l : List Nat) (w : KWork) : Except KStop KWork :=
  l.foldlM (fun w p => do
    let (t, w) ← kRead (w.headerAddr p + 9) 1 w
    if fieldN t 0 1 = 1 then kWrite (w.headerAddr p + 9) (leBytes 1 (t - 1)) w else pure w) w

/-- KTENT at execution (R369). -/
def kTentRun (on : Bool) (w : KWork) : Except KStop KWork :=
  if on then
    .ok (if w.c.kt then w else { w with c := { w.c with kt := true, mark := w.c.tlen } })
  else if !w.c.kt then .ok w
  else do
    let (l, w) ← pagesFrom 0 w.c.pages w
    let w ← clearTentative l w
    pure { w with c := { w.c with kt := false } }

/-- The place of the first page with T = 1, or the number of pages. -/
def firstTentative : List Nat → Nat → KWork → Except KStop (Nat × KWork)
  | [], i, w => .ok (i, w)
  | p :: r, i, w => do
    let (t, w) ← kRead (w.headerAddr p + 9) 1 w
    if fieldN t 0 1 = 1 then pure (i, w) else firstTentative r (i + 1) w

/-- KDROPT at execution (R369). -/
def kDroptRun (w : KWork) : Except KStop KWork :=
  if !w.c.kt then .ok w
  else do
    let (l, w) ← pagesFrom 0 w.c.pages w
    let (f, w) ← firstTentative l 0 w
    let w ← (l.drop f).foldlM (fun w p => releasePage p w) w
    let len := min w.c.mark (16 * f)
    pure { w with c := { w.c with joins := w.c.joins.filter (fun j => decide (j.1 < f)), pages := f, clen := len, tlen := len,
                                  kt := false } }

/-! ### Forks and splices (R370 to R372) -/

/-- Share or copy the parent's page at index `i` into the child's chain. -/
def sharePage (w : KWork) (ip : Nat × Nat) : Except KStop KWork := do
  let (n, w) ← kCount ip.1 w
  if n = 65535 then
    let (q, w) ← copyPage ip.1 w
    place ip.2 q w
  else kSetCount ip.1 (n + 1) w

/-- KFORK at execution (R370), on the child's work; `p` is the parent. -/
def kForkRun (p : SeqCtx) (w : KWork) : Except KStop KWork := do
  if w.c.pages ≠ 0 ∨ w.c.tlen ≠ 0 ∨ w.c.pool ≠ p.pool then .error (.fail none)
  else
    let f := ceilDiv p.clen 16
    let child := { w.c with head := p.head, joins := p.joins.filter (fun j => decide (j.1 < f)), clen := p.clen,
                            tlen := p.clen, rhash := p.rhash, pos0 := p.pos0, pages := f, mark := 0, kt := false }
    let (l, w) ← pagesFrom 0 f { w with c := child }
    l.zipIdx.foldlM sharePage w

/-- KPB at execution (R371). -/
def kPbRun (i pb : Nat) (w : KWork) : Except KStop KWork :=
  if w.c.pages ≤ i then .error (.fail none)
  else do
    let (p, w) ← pageAt i w
    kWrite (w.headerAddr p + 4) (leBytes 4 pb) w

/-- The pages of a span of `k` from page `p` by successors (R372). -/
def spanPages : Nat → Nat → KWork → Except KStop (List Nat × KWork)
  | 0, _, w => .ok ([], w)
  | 1, p, w => do
    let (p, w) ← kPage p w
    pure ([p], w)
  | k + 2, p, w => do
    let (p, w) ← kPage p w
    let (v, w) ← kRead (w.headerAddr p + 8) 1 w
    if v < 16 then .error (.fail none)
    else
      let (n, w) ← kSucc p w
      let (l, w) ← spanPages (k + 1) n w
      pure (p :: l, w)

/-- Raise a page's count; past 65,535 the command fails. -/
def raiseCount (w : KWork) (p : Nat) : Except KStop KWork := do
  let (n, w) ← kCount p w
  if 65535 ≤ n then .error (.fail none) else kSetCount p (n + 1) w

/-- KSPL at execution (R372). -/
def kSplRun (i k p : Nat) (h : Bool) (w : KWork) : Except KStop KWork := do
  if w.c.pages < i ∨ w.c.clen < 16 * i ∨ 2 ^ 24 < i + k then .error (.fail none)
  else
    let (span, w) ← spanPages k p w
    let (old, w) ← pagesFrom i (w.c.pages - i) w
    let w ← old.foldlM (fun w p => releasePage p w) w
    let w := { w with c := { w.c with joins := w.c.joins.filter (fun j => decide (j.1 < i)), pages := i } }
    let w ← place i p w
    let w ← (span.drop (if h then 1 else 0)).foldlM raiseCount w
    let (b, w) ← kBytes (w.headerAddr (span.getLastD p)) 128 w
    let v := leAt b 8 1
    let len := 16 * (i + k - 1) + v
    pure { w with c := { w.c with pages := i + k, clen := len, tlen := len,
                                  rhash := wd (if v = 16 then leAt b 16 8 else leAt b 24 8) } }

/-! ### Loads and pruning (R374 to R377) -/

/-- The slot state of a load (R374). -/
def loadDecl (fmt : Nat) : Decl := ⟨fmt, 16, 128, 0⟩

/-- A KVAL prunes (R377). -/
def prunes (w : KWork) (bound : Val) : Bool :=
  let m := (w.s.coreAt w.core).mem
  let q := localOff w.c.query.toNat
  let r := memLe m q 4
  let f (o : Nat) : Val := f32Val (memLe m (q + o) 4)
  let margin := f32Val w.c.margin.toNat
  w.c.query != 0 && decide (1 ≤ r ∧ r ≤ 128) && !margin.isNonFin && !bound.isNonFin &&
    (upTo r).all (fun k =>
      let qn := f (8 + 8 * k)
      let mx := f (12 + 8 * k)
      !qn.isNonFin && !mx.isNonFin && ((qn.mul bound).1.cmp (mx.add false margin.neg).1 == .lt))

/-- The query record is poisoned where a pruning KVAL reads it: the command fails (R384, 20 R447). -/
def queryBad (w : KWork) : Bool :=
  let k := w.s.coreAt w.core
  let q := localOff w.c.query.toNat
  let r := memLe k.mem q 4
  w.c.query != 0 && (k.poisoned q 4 || (decide (1 ≤ r ∧ r ≤ 128) && k.poisoned (q + 8) (8 * r)))

/-- What a load puts into its slot. -/
structure KLoaded where
  data : List Nat
  pruned : Bool
  deriving DecidableEq, Repr

/-- The cells that a load takes from its q, whose descriptor the engine reads again (09 R233, R374); a descriptor that would
fail the checks at issue now fails the command (log 61). -/
def kCells (q : Region) (w : KWork) : Except KStop (List (List Int) × KWork) :=
  if q.isNull then .ok ([], w)
  else do
    let (d, s) ← kAccess (execDesc w.agent q w.s)
    match d with
    | none => .error (.fail none)
    | some d =>
      if d.rank != 2 || d.dims.take 2 != [128, 16] || d.ty != w.c.fmt then .error (.fail none)
      else
        let (cells, s) ← kAccess (applied w.agent w.core q q.cells s)
        pure (cells, { w with s := s })

/-- A load at execution (R374, R377): `val` for values, `prune` for P. -/
def kLoadRun (n : Nat) (page : Option Nat) (q : Option Region) (val prune : Bool) (w : KWork) :
    Except KStop (KLoaded × KWork) := do
  match page with
  | none => .error (.fail none)
  | some p =>
    let r := rowSize w.c.fmt
    let (h, w) ← kBytes (w.headerAddr p) 128 w
    if val && prune && queryBad w then .error (.fail none)
    else if val && prune && prunes w ((fmtOf 3).value (leAt h 12 4 % 2 ^ 19)) then
      pure (⟨List.replicate 2048 0, true⟩, w)
    else
      let (cells, w) ← (match q with
        | some q => kCells q w
        | none => pure ([], w))
      let base := w.pageAddr p + (if val then 16 * r else 0)
      let live := (upTo 16).filter (fun sl => decide (16 * n + sl < w.c.tlen))
      let (rows, w) ← live.foldlM (fun (a : SMap (List Nat) × KWork) sl => do
        let (b, w) ← kBytes (base + sl * r) r a.2
        let row := rowCodes w.c.fmt 128 b
        let row := if val then row else rotRow w.c.fmt ((leAt h 4 4 + sl) % 2 ^ 32) w.c.turn row
        pure (sset a.1 sl row, w)) ([], w)
      let data := (upTo 16).map (fun sl => match rows.find? (fun x => x.1 == sl) with
        | none => List.replicate 128 0
        | some x => x.2.zipIdx.map (fun e =>
          if q.isNone || cells.contains [(e.2 : Int), (sl : Int)] then e.1 else 0))
      pure (⟨data.flatten, false⟩, w)

/-- One prefetch (R375): a page that cannot be served is asked for, and a page whose frame lies behind an expansion port is
promoted when a frame is free (20 R439; log 62). -/
def askFor (core dom va : Nat) (s : State) : State :=
  let s := s.walked va
  match (translatePage (s.homeOf (segOf va)) false va s).1 with
  | .ok pa _ => if 2 ^ 43 ≤ pa then s.fetchAhead va else s
  | .stop r c => s.faultedEngine core dom va r c

/-- The prefetches after a load of index `n` (R375). -/
def prefetch (n : Nat) (val : Bool) (w : KWork) : State :=
  ((upTo 4).map (fun k => n + 1 + k)).foldl (fun s i =>
    if w.c.pages ≤ i then s
    else match pageAt i { w with s := s } with
      | .error (.wait va r c) => if r = 0 then s else s.faultedEngine w.core w.agent.dom va r c
      | .error _ => s
      | .ok (p, w) =>
        let s := askFor w.core w.agent.dom (w.headerAddr p) s
        askFor w.core w.agent.dom (w.pageAddr p + (if val then 16 * rowSize w.c.fmt else 0)) s) w.s

/-! ### The prefix index (R379 to R381) -/

/-- A way of a set: hash, page, valid. -/
structure KWay where
  hash : Word
  page : Nat
  valid : Bool
  deriving DecidableEq, Repr

/-- The four ways of a set from its 64 bytes. -/
def parseSet (b : List Byte) : List KWay :=
  (upTo 4).map (fun i => ⟨wd (leAt b (16 * i) 8), leAt b (16 * i + 8) 4, leAt b (16 * i + 12) 4 == 1⟩)

/-- The address of the set of a hash. -/
def KPool.setAddr (p : KPool) (h : Word) : Nat := p.index + 64 * (h.toNat % max p.sets 1)

/-- Look a page up in its set (R380): the page of the first hit. -/
def findHit (h prev : Word) (ids : List Nat) : List KWay → KWork → Except KStop (Option Nat × KWork)
  | [], w => .ok (none, w)
  | y :: r, w =>
    if !y.valid || y.hash != h || decide (w.pool.n ≤ y.page) then findHit h prev ids r w
    else do
      let (b, w) ← kBytes (w.headerAddr y.page) 128 w
      if leAt b 8 1 == 16 && wd (leAt b 16 8) == h && wd (leAt b 24 8) == prev && headerIds b == ids then
        pure (some y.page, w)
      else findHit h prev ids r w

/-- KPFX at the hub (R380): its result. -/
def kPfxRun (prev : Word) (ids : List Nat) (w : KWork) : Except KStop (Word × KWork) := do
  if w.pool.index = 0 then pure (-1, w)
  else
    let h := pageHash prev ids
    let (b, w) ← kBytes (w.pool.setAddr h) 64 w
    let (hit, w) ← findHit h prev ids (parseSet b) w
    match hit with
    | none => pure (-1, w)
    | some p => do
      let (n, w) ← kCount p w
      if n = 65535 then pure (-1, w)
      else
        let w ← kSetCount p (n + 1) w
        pure (wd p, w)

/-- Write a way of a set. -/
def setWay (h : Word) (i page : Nat) (w : KWork) : Except KStop KWork :=
  kWrite (w.pool.setAddr h + 16 * i) (leBytes 8 h.toNat ++ leBytes 4 page ++ leBytes 4 1) w

/-- KINS at the hub (R381): its result. -/
def kInsRun (i : Nat) (w : KWork) : Except KStop (Word × KWork) := do
  if w.pool.index = 0 ∨ w.c.pages ≤ i then pure (3, w)
  else
    let (p, w) ← pageAt i w
    let (hv, w) ← kRead (w.headerAddr p + 16) 8 w
    if hv = 0 then pure (3, w)
    else
      let h := wd hv
      let (b, w) ← kBytes (w.pool.setAddr h) 64 w
      let ways := parseSet b
      let (n, w) ← kCount p w
      if ways.any (fun y => y.valid && y.hash == h && y.page == p) then pure (2, w)
      else if n = 65535 then pure (3, w)
      else match findIdx? (fun y => !y.valid) ways with
        | some j => do
          let w ← kSetCount p (n + 1) w
          let w ← setWay h j p w
          pure (0, w)
        | none => do
          let j := bitsW h 63 62
          let old := (ways.getD j ⟨0, 0, false⟩).page
          let (old, w) ← kPage old w
          let (m, w) ← kCount old w
          if m = 0 then pure (3, w)
          else
            let w ← setWay h j p w
            let w ← raiseCount w p
            let w ← releasePage old w
            pure (1, w)

end Sys2Proof.Machine
end

