-- ==== Sys2Proof/Machine/ContextUnit.lean ====
section
/-! DEFINITION. The context-engine instructions at issue, the instructions that run at the hub, and the engine's own
steps (15 R362 to R384). -/
namespace Sys2Proof.Machine

/-! ### Handles and queues (R358, R363, R364) -/

/-- A handle register of the executing context. -/
def State.sqReg (s : State) (n : Nat) : Word := sget 0 s.cur.sq n

/-- Write a handle register. -/
def State.setSqReg (s : State) (n : Nat) (v : Word) : State := s.setCur { s.cur with sq := sset s.cur.sq n v }

/-- A handle: V, the format and the index (R358). -/
def handleOf (fmt idx : Nat) : Word := wd (2 ^ 15 + fmt * 2 ^ 8 + idx)

/-- The sequence context and format that a handle register names; ILL when it is not valid or not the core's (R363). -/
def handle (n : Nat) (s : State) : Except Stop (Nat × Nat) :=
  let v := s.sqReg n
  let idx := bitsW v 5 0
  if bitW v 15 && ((s.sqAt s.sq).sc idx).holder.any (fun h => h.1 == s.lane) then .ok (idx, bitsW v 13 8) else ill s

/-- A command is one on sequence context `n`. -/
def KCmd.on (c : KCmd) (n : Nat) : Bool := c.sc == n || c.parent == some n

/-- Commands on a sequence context have not completed. -/
def Square.pendingOn (k : Square) (n : Nat) : Bool := k.kq.any (fun c => c.on n)

/-- Replace a sequence context. -/
def Square.setSc (k : Square) (n : Nat) (v : SeqCtx) : Square := { k with scs := sset k.scs n v }

/-- A command on sequence context `sc` with operand values. -/
def kCmd (i : Instr) (sc : Nat) (x y : Word) (h : CmdHdr) : KCmd :=
  { hdr := h, insn := i, sc := sc, x := x, y := y, slot := none, region := none, page := none, parent := none,
    waitPage := false, got := none }

/-- Append a context-engine command. -/
def appendK (q : Option Region) (c : CmdHdr → KCmd) (s : State) : Except Stop State := do
  let (h, s) ← appendCmd 2 q s
  let k := s.sqAt s.sq
  pure (s.setSq s.sq { k with kq := k.kq ++ [c h] })

/-- The local record of `n` bytes at an address: 8-aligned, readable (R363). -/
def localRecord (x : Word) (n : Nat) (s : State) : Except Stop Unit :=
  if x.toNat % 8 ≠ 0 then misaligned x.toNat else localCheck false x.toNat n s

/-! ### Instructions that append (R365 to R376) -/

/-- KOPEN at issue (R365); it takes the lowest free sequence context (log 16). -/
def execKopen (d a b : BitVec 6) (s : State) : Host.Outcome State Fault Refusal :=
  guardedRun (.kopen d a b) s (fun s => do
    let (x, y, s) ← readTwo a b s
    let fmt := bitsW y 5 0
    if bitW (s.sqReg d.toNat) 15 then ill s
    else if x.toNat % 128 ≠ 0 then misaligned x.toNat
    else if !isGlobal x.toNat then prot x.toNat
    else
      let s ← spanGrant needRW none x.toNat 256 s
      if !slotFormat fmt then fmtTrap fmt
      else match (upTo 64).find? (fun n => ((s.sqAt s.sq).sc n).holder.isNone) with
        | none => throw (.wait .append)
        | some n => do
          let s ← appendK none (kCmd (.kopen d a b) n x y) s
          let k := s.sqAt s.sq
          let s := s.setSq s.sq (k.setSc n { SeqCtx.free with holder := some (s.lane, s.kdom), record := x, fmt := fmt })
          pure (s.setSqReg d.toNat (handleOf fmt n)))

/-- KCLOSE at issue (R366). -/
def execKclose (d a : BitVec 6) (s : State) : Host.Outcome State Fault Refusal :=
  guarded (.kclose d a) s (fun s => do
    let (x, s) ← readReg a.toNat s
    let (n, _) ← handle d.toNat s
    let s ← appendK none (kCmd (.kclose d a) n x 0) s
    pure (s.setSqReg d.toNat 0))

/-- KAPP at issue (R367). -/
def execKapp (d a b : BitVec 6) (s : State) : Host.Outcome State Fault Refusal :=
  guarded (.kapp d a b) s (fun s => do
    let (x, y, s) ← readTwo a b s
    let (n, fmt) ← handle d.toNat s
    localRecord x (64 + 32 * rowSize fmt) s
    if bitsW y 4 0 = 0 ∨ 16 < bitsW y 4 0 then fmtOpen s
    else appendK none (kCmd (.kapp d a b) n x y) s)

/-- KACC at issue (R368). -/
def execKacc (d a : BitVec 6) (s : State) : Host.Outcome State Fault Refusal :=
  guarded (.kacc d a) s (fun s => do
    let (x, s) ← readReg a.toNat s
    let (n, _) ← handle d.toNat s
    appendK none (kCmd (.kacc d a) n x 0) s)

/-- KREJ at issue (R368). -/
def execKrej (d : BitVec 6) (s : State) : Host.Outcome State Fault Refusal :=
  guarded (.krej d) s (fun s => do
    let (n, _) ← handle d.toNat s
    appendK none (kCmd (.krej d) n 0 0) s)

/-- KPB at issue (R371). -/
def execKpb (d a b : BitVec 6) (s : State) : Host.Outcome State Fault Refusal :=
  guarded (.kpb d a b) s (fun s => do
    let (x, y, s) ← readTwo a b s
    let (n, _) ← handle d.toNat s
    appendK none (kCmd (.kpb d a b) n x y) s)

/-- KSPL at issue (R372). -/
def execKspl (d a b : BitVec 6) (s : State) : Host.Outcome State Fault Refusal :=
  guarded (.kspl d a b) s (fun s => do
    let (x, y, s) ← readTwo a b s
    let (n, _) ← handle d.toNat s
    if bitsW y 63 41 ≠ 0 ∨ bitsW y 39 32 = 0 then fmtOpen s
    else appendK none (kCmd (.kspl d a b) n x y) s)

/-- KFORK at issue (R370). -/
def execKfork (d a : BitVec 6) (s : State) : Host.Outcome State Fault Refusal :=
  guarded (.kfork d a) s (fun s => do
    let (n, _) ← handle d.toNat s
    let (p, _) ← handle a.toNat s
    if d = a then ill s
    else appendK none (fun h => { kCmd (.kfork d a) n 0 0 h with parent := some p }) s)

/-- KMARG at issue (R376). -/
def execKmarg (d a b : BitVec 6) (s : State) : Host.Outcome State Fault Refusal :=
  guarded (.kmarg d a b) s (fun s => do
    let (x, y, s) ← readTwo a b s
    let (n, _) ← handle d.toNat s
    if y ≠ 0 then localRecord y 1032 s
    appendK none (kCmd (.kmarg d a b) n x y) s)

/-- KTENT at issue (R369). -/
def execKtent (d a : BitVec 6) (s : State) : Host.Outcome State Fault Refusal :=
  guarded (.ktent d a) s (fun s => do
    let (x, s) ← readReg a.toNat s
    let (n, _) ← handle d.toNat s
    appendK none (kCmd (.ktent d a) n x 0) s)

/-- KDROPT at issue (R369). -/
def execKdropt (d : BitVec 6) (s : State) : Host.Outcome State Fault Refusal :=
  guarded (.kdropt d) s (fun s => do
    let (n, _) ← handle d.toNat s
    appendK none (kCmd (.kdropt d) n 0 0) s)

/-! ### Loads at issue (R374) -/

/-- Work on a sequence context: its pool is read first. -/
def workOn (a : Agent) (core : Nat) (c : SeqCtx) (s : State) : Except KStop KWork := do
  let w : KWork := ⟨a, core, false, ⟨0, 0, 0, 0, 0, 0, 0⟩, c, none, s⟩
  let (b, w) ← kBytes c.pool.toNat 64 w
  pure { w with pool := (parsePool c.fmt b).1 }

/-- Accesses of the hub for the executing context, from a state `s` to the one that `st` finds: a page that is not resident drops it
(07 R169); a line in use holds it in `held`. -/
def hubAccess {α : Type} (held : Wait) (st : α → State) (s : State) (x : Except KStop α) : Run (Option α × State) :=
  match x with
  | .ok v => leaves (.ok (some v), st v)
  | .error (.fail w) => leaves (.ok none, s.metPoison w)
  | .error .page => throw (.wait held)
  | .error (.wait va r c) => throw (if r = 0 then .wait held else .drop (wd va) r c)

/-- The check of a load's q operand (R374): its snapshot. -/
def loadRegion (y : Word) (fmt : Nat) (s : State) : Run (Option Region × State) :=
  if !bitW y 32 then pure (none, s)
  else
    let q := s.qreg (bitsW y 35 33)
    if q.isNull then pure (some q, s)
    else do
      let (b, s) ← descFetch q.handle s
      let d ← descParse s q.handle b
      if d.rank != q.rank || d.rank != 2 || d.dims.take 2 != [128, 16] || d.ty != fmt then
        fmtTrap (descAddr s s.kdom q.handle).1
      else pure (some q, s)

/-- Step 3 of R374: the page of a chain index, and its half's residency when the load will read it; none when the page
cannot be resolved, so that the command fails. -/
def resolvePage (c : SeqCtx) (n : Nat) (val check : Bool) (s : State) : Run (Option Nat × State) := do
  if c.broken then pure (none, s)
  else
    let (r, s) ← hubAccess .append (fun r => r.2.s) s (do
      let w ← workOn ⟨s.appends, s.kdom, false, 1⟩ s.focus.core c s
      pageAt n { w with issue := true })
    match r with
    | none => pure (none, s)
    | some (p, w) =>
      let half := w.pageAddr p + (if val then 16 * rowSize c.fmt else 0)
      if !check then pure (some p, s)
      else do
        let (_, s) ← hubAccess .append id s (kResident half s)
        pure (some p, s)

/-- KLOAD and KVAL at issue (R374). -/
def loadBody (val : Bool) (i : Instr) (d a b : BitVec 6) (s : State) : Run State := do
  let (y, s) ← readReg b.toNat s
  let (n, fmt) ← handle a.toNat s
  let p := bitW y 39
  if !s.holdsSlot d.toNat then ill s
  else if bitsW y 63 40 ≠ 0 ∨ bitsW y 38 36 ≠ 0 ∨ (p && !val) then fmtOpen s
  else if (s.sqAt s.sq).pendingOn n then throw (.wait .append)
  else
    let c := (s.sqAt s.sq).sc n
    if !c.broken && decide (c.pages ≤ bitsW y 31 0) then fmtOpen s
    else
      let (q, s) ← loadRegion y fmt s
      let (page, s) ← resolvePage c (bitsW y 31 0) val (!(val && p)) s
      let s ← appendK q (fun h => { kCmd i n 0 y h with slot := some d.toNat, region := q, page := page }) s
      let k := s.sqAt s.sq
      let m := k.mcore s.lane
      let k := k.setSlot d.toNat { k.slot d.toNat with decl := some (loadDecl fmt) }
      pure (s.setSq s.sq (k.setMcore s.lane { m with producer := sset m.producer d.toNat none }))

/-- KLOAD (R374). -/
def execKload (d a b : BitVec 6) (s : State) : Host.Outcome State Fault Refusal :=
  guardedRun (.kload d a b) s (loadBody false (.kload d a b) d a b)

/-- KVAL (R374). -/
def execKval (d a b : BitVec 6) (s : State) : Host.Outcome State Fault Refusal :=
  guardedRun (.kval d a b) s (loadBody true (.kval d a b) d a b)

/-! ### Instructions that run at the hub (R364, R380 to R382) -/

/-- KPFX (R380). A lookup that cannot be made, for its record is poisoned or the index cannot be accessed, is a miss (log 37). -/
def execKpfx (d a b : BitVec 6) (s : State) : Host.Outcome State Fault Refusal :=
  guardedRun (.kpfx d a b) s (fun s => do
    let (y, s) ← readReg b.toNat s
    let (n, _) ← handle a.toNat s
    localRecord y 72 s
    let c := (s.sqAt s.sq).sc n
    if (s.sqAt s.sq).pendingOn n then throw (.wait .hub)
    else if c.broken || s.core.poisoned (localOff y.toNat) 72 then writeReg d.toNat (-1) s
    else
      let rec_ := memRead s.core.mem (localOff y.toNat) 72
      let (r, s) ← hubAccess .hub (fun r => r.2.s) s (do
        let w ← workOn ⟨s.appends, s.kdom, false, 1⟩ s.focus.core c s
        kPfxRun (wd (leAt rec_ 0 8)) ((upTo 16).map (fun i => leAt rec_ (8 + 4 * i) 4)) w)
      match r with
      | none => writeReg d.toNat (-1) s
      | some (v, _) => writeReg d.toNat v s)

/-- KINS (R381). An entry that cannot be made answers 3. -/
def execKins (d a b : BitVec 6) (s : State) : Host.Outcome State Fault Refusal :=
  guardedRun (.kins d a b) s (fun s => do
    let (y, s) ← readReg b.toNat s
    let (n, _) ← handle a.toNat s
    let c := (s.sqAt s.sq).sc n
    if (s.sqAt s.sq).pendingOn n then throw (.wait .hub)
    else if c.broken then writeReg d.toNat 3 s
    else
      let (r, s) ← hubAccess .hub (fun r => r.2.s) s (do
        let w ← workOn ⟨s.appends, s.kdom, false, 1⟩ s.focus.core c s
        kInsRun (bitsW y 31 0) w)
      match r with
      | none => writeReg d.toNat 3 s
      | some (v, _) => do
        let s ← (if v.toNat < 2 then release s else pure s)
        writeReg d.toNat v s)

/-- KSEQ (R382). -/
def execKseq (d a : BitVec 6) (s : State) : Host.Outcome State Fault Refusal :=
  guarded (.kseq d a) s (fun s => do
    let (x, s) ← readReg a.toNat s
    let c := bitsW x 2 0
    let k := s.sqAt s.sq
    match bitsW x 9 8 with
    | 0 => writeReg d.toNat (wd (s.completedOf 2 c)) s
    | 1 => writeReg d.toNat (wd ((sget 0 k.kpr c).toNat * 2 ^ 32 + (sget 0 k.kfail c).toNat)) s
    | 2 => do
      let (n, _) ← handle (bitsW x 17 16) s
      if k.pendingOn n then .error (.wait .hub)
      else writeReg d.toNat (wd ((k.sc n).tlen * 2 ^ 32 + (k.sc n).clen)) s
    | _ => fmtTrap x.toNat)

/-- KSEQ.wt (R382). -/
def execKseqWt (a b : BitVec 6) (s : State) : Host.Outcome State Fault Refusal :=
  guarded (.kseqWt a b) s (waitSeq 2 a b)

/-! ### The engine's steps (R364, R383, R384) -/

/-- The oldest command on a sequence context, when nothing appended before it is on one it names, and nothing that
reads or writes its slot is before it. -/
def Square.kHead (k : Square) (n : Nat) : Option KCmd :=
  match k.kq.find? (fun c => c.on n) with
  | none => none
  | some c =>
    let before := k.kq.filter (fun x => decide (x.hdr.ord < c.hdr.ord))
    if before.all (fun x => !x.on c.sc && !(c.parent.any x.on) && !(c.slot.isSome && x.slot == c.slot)) &&
        k.mq.all (fun x => !(decide (x.hdr.ord < c.hdr.ord)) || !(c.slot.any (fun n => x.reads.contains n || x.writes.contains n)))
    then some c else none

/-- Replace the command with an append number. -/
def Square.setKq (k : Square) (c : KCmd) : Square :=
  { k with kq := k.kq.map (fun x => if x.hdr.ord = c.hdr.ord then c else x) }

/-- A command is complete: it leaves the queue (R16). -/
def finishK (q : Nat) (c : KCmd) (s : State) : State :=
  let k := s.sqAt q
  (s.setSq q { k with kq := k.kq.filter (fun x => x.hdr.ord != c.hdr.ord) }).completeCmd 2 c.hdr

/-- What a command does, apart from completing; `p` is a fork's parent. -/
def kPerform (c : KCmd) (p : SeqCtx) (w : KWork) : Except KStop (Option KLoaded × KWork) :=
  let plain (r : Except KStop KWork) : Except KStop (Option KLoaded × KWork) := r.map (fun w => (none, w))
  match c.insn with
  | .kopen .. => plain (kOpenRun w)
  | .kclose .. => plain (if w.c.broken then .ok w else kCloseRun (bitW c.x 0) w)
  | .kapp .. => plain (kAppRun c.x (bitsW c.y 4 0) w)
  | .kacc .. => plain (kAccRun (bitsW c.x 31 0) w)
  | .krej .. => plain (kRejRun w)
  | .kpb .. => plain (kPbRun (bitsW c.x 31 0) (bitsW c.y 31 0) w)
  | .kspl .. => plain (kSplRun (bitsW c.x 31 0) (bitsW c.y 39 32) (bitsW c.y 31 0) (bitW c.y 40) w)
  | .kfork .. => plain (kForkRun p w)
  | .kmarg .. => plain (.ok { w with c := { w.c with margin := c.x.setWidth 32, query := c.y } })
  | .ktent .. => plain (kTentRun (bitW c.x 0) w)
  | .kdropt .. => plain (kDroptRun w)
  | .kload .. => (kLoadRun (bitsW c.y 31 0) c.page c.region false false w).map (fun r => (some r.1, r.2))
  | .kval .. => (kLoadRun (bitsW c.y 31 0) c.page c.region true (bitW c.y 39) w).map (fun r => (some r.1, r.2))
  | _ => .error (.fail none)

/-- A command on a sequence context needs its pool's descriptor (R384); `p` is a fork's parent. KOPEN reads the one that its
record names. -/
def KCmd.needsPool (c : KCmd) (p x : SeqCtx) : Bool :=
  match c.insn with
  | .kapp .. => true
  | .kload .. | .kval .. => c.page.isSome
  | .kclose .. => !x.broken && bitW c.x 0 && x.pages != 0
  | .kacc .. => decide (x.clen / 16 < min (x.clen + bitsW c.x 31 0) x.tlen / 16)
  | .kpb .. => decide (bitsW c.x 31 0 < x.pages)
  | .kspl .. => let i := bitsW c.x 31 0
    decide (i ≤ x.pages ∧ 16 * i ≤ x.clen ∧ i + bitsW c.y 39 32 ≤ 2 ^ 24)
  | .kfork .. => decide (x.pages = 0 ∧ x.tlen = 0 ∧ x.pool = p.pool ∧ p.clen ≠ 0)
  | .ktent .. => !bitW c.x 0 && x.kt && x.pages != 0
  | .kdropt .. => x.kt && x.pages != 0
  | _ => false

/-- The work of a command at execution: a broken context fails everything but KCLOSE (R364). -/
def kStart (q : Nat) (c : KCmd) (p : SeqCtx) (s : State) : Except KStop KWork :=
  let sc := (s.sqAt q).sc c.sc
  let fresh : KWork := ⟨c.hdr.agent, c.hdr.core, false, ⟨0, 0, 0, 0, 0, 0, 0⟩, sc, c.got, s⟩
  let free : Bool := match c.insn with
    | .kopen .. | .kclose .. => true
    | _ => false
  if sc.broken && !free then .error (.fail none)
  else if c.needsPool p sc then (workOn c.hdr.agent c.hdr.core sc s).map (fun w => { w with got := c.got })
  else .ok fresh

/-- A command writes its slot: what was loaded, or +0 throughout (R364, R374). -/
def kSlot (q : Nat) (c : KCmd) (data : List Nat) (s : State) : State :=
  match c.slot with
  | none => s
  | some n =>
    let k := s.sqAt q
    s.setSq q (k.setSlot n ((k.slot n).filled [] (loadDecl (k.sc c.sc).fmt) data []))

/-- A successful command's effect on the hub, and its completion. -/
def kDone (q : Nat) (c : KCmd) (l : Option KLoaded) (w : KWork) : State :=
  let n := bitsW c.y 31 0
  let val := match c.insn with
    | .kval .. => true
    | _ => false
  let s := if l.isSome then prefetch n val w else w.s
  let s := kSlot q c ((l.map (·.data)).getD []) s
  let k := s.sqAt q
  let sc := match c.insn with
    | .kclose .. => SeqCtx.free
    | _ => if l.isSome then { w.c with cursor := n } else w.c
  let k := k.setSc c.sc sc
  let k := if l.any (·.pruned) then { k with kpr := sset k.kpr c.hdr.lane (satInc (sget 0 k.kpr c.hdr.lane)) } else k
  finishK q c (s.setSq q k)

/-- A page that was taken for a command that has come to need none goes back to the free list (R357). -/
def spareBack (w : KWork) : Except KStop KWork :=
  match w.got with
  | none => .ok w
  | some p => releasePage p { w with got := none }

/-- The work waits: for a page, which the home tile is asked for, or (reason 0) for something else (R384). -/
def kWaits (c : KCmd) (va reason code : Nat) (s : State) : State := s.engineWaits c.hdr.core c.hdr.agent va reason code

/-- Give back a page that was taken for a command that fails; a pool that cannot be accessed any more keeps it. -/
def kGiveBack (q : Nat) (c : KCmd) (s : State) : Except KStop State :=
  match c.got with
  | none => .ok s
  | some p => match (workOn c.hdr.agent c.hdr.core ((s.sqAt q).sc c.sc) s).bind (releasePage p) with
    | .ok w => .ok w.s
    | .error (.wait va r cd) => .error (.wait va r cd)
    | .error _ => .ok s

/-- The effects of a failure (R364): FAIL rises, the slot is +0, a KOPEN leaves its context broken, a KCLOSE frees it. -/
def kFailure (q : Nat) (c : KCmd) (s : State) : State :=
  let s := kSlot q c (List.replicate 2048 0) s
  let k := s.sqAt q
  let sc := match c.insn with
    | .kopen .. => { k.sc c.sc with broken := true }
    | .kclose .. => SeqCtx.free
    | _ => k.sc c.sc
  let k := { k.setSc c.sc sc with kfail := sset k.kfail c.hdr.lane (satInc (sget 0 k.kfail c.hdr.lane)) }
  finishK q c (s.setSq q k)

/-- A failing command (R364), once the page taken for it is given back. -/
def kFailed (q : Nat) (c : KCmd) (s : State) : State :=
  match kGiveBack q c s with
  | .ok s => kFailure q c s
  | .error (.wait va r cd) => kWaits c va r cd s
  | .error _ => kFailure q c s

/-- The parent of a fork; of another command, an empty sequence context. -/
def Square.parentOf (k : Square) (c : KCmd) : SeqCtx :=
  match c.parent with
  | some n => k.sc n
  | none => SeqCtx.free

/-- The commands of a square that wait for a free page, and those that wait behind one of them on a sequence context (R357,
R364). -/
def Square.kStarved (k : Square) : List KCmd :=
  k.kq.foldl (fun l x =>
    if x.waitPage || l.any (fun y => y.on x.sc || x.parent.any y.on) then l ++ [x] else l) []

/-- No command appended earlier on another sequence context may yet change the pool of a command (05 R130); one that cannot go on
before a page is free does not hold it, and one whose pool is not known does (15 R357; log 61). -/
def State.kClear (s : State) (q : Nat) (c : KCmd) : Bool :=
  let pool := c.poolAt s (s.sqAt q)
  s.squares.all (fun p => p.2.kq.all (fun x =>
    !(decide (x.hdr.ord < c.hdr.ord) && changesPool x.insn && pool.all (fun d => (x.poolAt s p.2).all (· == d))) || p.2.kStarved.contains x))

/-- Execute a command. -/
def kExecute (q : Nat) (c : KCmd) (s : State) : State :=
  let p := (s.sqAt q).parentOf c
  if c.waitPage || !s.kClear q c then s
  else if p.broken then kFailed q c s
  else match (kStart q c p s).bind (kPerform c p) with
    | .ok (l, w) => match spareBack w with
      | .ok w => kDone q c l w
      | .error (.wait va r cd) => kWaits c va r cd s
      | .error _ => kDone q c l w
    | .error (.fail w) => kFailed q c (s.metPoison w)
    | .error .page => s.setSq q ((s.sqAt q).setKq { c with waitPage := true })
    | .error (.wait va r cd) => kWaits c va r cd s

/-- The step of the oldest command on sequence context `sc`, when it is of the kind asked for. -/
def kStep (sq sc : Nat) (kind : Instr → Bool) (s : State) : Host.Outcome State Fault Refusal :=
  hwStep (decide (sq < 128 ∧ sc < 64)) s (fun s =>
    match (s.sqAt sq).kHead sc with
    | none => s
    | some c => if kind c.insn then kExecute sq c s else s)

/-- KOPEN_EXECUTE (R365). -/
def execKopenExecute (sq sc : Nat) (s : State) : Host.Outcome State Fault Refusal :=
  kStep sq sc (fun i => match i with
    | .kopen .. => true
    | _ => false) s

/-- KCLOSE_EXECUTE (R366). -/
def execKcloseExecute (sq sc : Nat) (s : State) : Host.Outcome State Fault Refusal :=
  kStep sq sc (fun i => match i with
    | .kclose .. => true
    | _ => false) s

/-- KAPP_EXECUTE (R367). -/
def execKappExecute (sq sc : Nat) (s : State) : Host.Outcome State Fault Refusal :=
  kStep sq sc (fun i => match i with
    | .kapp .. => true
    | _ => false) s

/-- PAGE_ALLOCATE (R357): an allocation that waited takes a freed page and initialises its header. -/
def execPageAllocate (sq sc : Nat) (s : State) : Host.Outcome State Fault Refusal :=
  hwStep (decide (sq < 128 ∧ sc < 64)) s (fun s =>
    match (s.sqAt sq).kHead sc with
    | none => s
    | some c =>
      if !c.waitPage then s
      else if c.got.isSome then s.setSq sq ((s.sqAt sq).setKq { c with waitPage := false })
      else match (kStart sq c ((s.sqAt sq).parentOf c) s).bind (fun w => allocate 0 w.c.kt w) with
        | .ok (p, w) => w.s.setSq sq ((w.s.sqAt sq).setKq { c with waitPage := false, got := some p })
        | .error (.fail w) => kFailed sq c (s.metPoison w)
        | .error .page => s
        | .error (.wait va r cd) => kWaits c va r cd s)

/-- KACC_EXECUTE (R368). -/
def execKaccExecute (sq sc : Nat) (s : State) : Host.Outcome State Fault Refusal :=
  kStep sq sc (fun i => match i with
    | .kacc .. => true
    | _ => false) s

/-- KREJ_EXECUTE (R368). -/
def execKrejExecute (sq sc : Nat) (s : State) : Host.Outcome State Fault Refusal :=
  kStep sq sc (fun i => match i with
    | .krej .. => true
    | _ => false) s

/-- KPB_EXECUTE (R371). -/
def execKpbExecute (sq sc : Nat) (s : State) : Host.Outcome State Fault Refusal :=
  kStep sq sc (fun i => match i with
    | .kpb .. => true
    | _ => false) s

/-- KSPL_EXECUTE (R372). -/
def execKsplExecute (sq sc : Nat) (s : State) : Host.Outcome State Fault Refusal :=
  kStep sq sc (fun i => match i with
    | .kspl .. => true
    | _ => false) s

/-- KFORK_EXECUTE (R370). -/
def execKforkExecute (sq sc : Nat) (s : State) : Host.Outcome State Fault Refusal :=
  kStep sq sc (fun i => match i with
    | .kfork .. => true
    | _ => false) s

/-- KLOAD_EXECUTE (R374). -/
def execKloadExecute (sq sc : Nat) (s : State) : Host.Outcome State Fault Refusal :=
  kStep sq sc (fun i => match i with
    | .kload .. => true
    | _ => false) s

/-- KVAL_EXECUTE (R374, R377). -/
def execKvalExecute (sq sc : Nat) (s : State) : Host.Outcome State Fault Refusal :=
  kStep sq sc (fun i => match i with
    | .kval .. => true
    | _ => false) s

/-- KMARG_EXECUTE (R376). -/
def execKmargExecute (sq sc : Nat) (s : State) : Host.Outcome State Fault Refusal :=
  kStep sq sc (fun i => match i with
    | .kmarg .. => true
    | _ => false) s

/-- KTENT_EXECUTE (R369). -/
def execKtentExecute (sq sc : Nat) (s : State) : Host.Outcome State Fault Refusal :=
  kStep sq sc (fun i => match i with
    | .ktent .. => true
    | _ => false) s

/-- KDROPT_EXECUTE (R369). -/
def execKdroptExecute (sq sc : Nat) (s : State) : Host.Outcome State Fault Refusal :=
  kStep sq sc (fun i => match i with
    | .kdropt .. => true
    | _ => false) s

end Sys2Proof.Machine
end

