-- ==== Sys2Proof/Decode.lean ====
section
/-! DEFINITION. Decoding words and bundles, and the encoder (03 R53 to R75). -/
namespace Sys2Proof
open Sys2Proof.Machine (leBytes ofBytes)

/-- Why a word is not an instruction. -/
inductive Reject where
  /-- A major that the map does not assign (03 R65, R69). -/
  | major
  /-- A func, op, sub-op or reserved field that the map does not assign (03 R61, R65, R69). -/
  | func
  /-- An operand that names no register of its file, or a code that the instruction does not accept (03 R58 to R75). -/
  | operand
  deriving DecidableEq, Repr

/-- Major 0x03 of class C (03 R65). -/
def decodeC03 (w : Nat) : Except Reject Instr :=
  if w % 4096 = 0 then .ok (.jr (.ofNat 6 (w / 262144)) (.ofNat 6 (w / 4096)))
  else .error .func

/-- Major 0x04 of class C (03 R65). -/
def decodeC04 (w : Nat) : Except Reject Instr :=
  if w % 4096 = 0 ∧ w / 262144 % 64 = 0 then .ok (.btag (.ofNat 6 (w / 4096)))
  else .error .func

/-- Major 0x05 of class C (03 R65). -/
def decodeC05 (w : Nat) : Except Reject Instr :=
  if w / 262144 % 64 = 0 then .ok (.loop (.ofNat 6 (w / 4096)) (.ofNat 12 w))
  else .error .func

/-- Major 0x06 of class C (03 R65). -/
def decodeC06 (w : Nat) : Except Reject Instr :=
  if w % 16777216 = 0 then .ok (.nop)
  else if w % 16777216 = 1 then .ok (.align)
  else .error .func

/-- Major 0x0C of class C (03 R65). -/
def decodeC0C (w : Nat) : Except Reject Instr :=
  if w % 32 = 0 ∧ w / 2048 % 2 = 0 then .ok (.ldb (.ofNat 6 (w / 262144)) (.ofNat 6 (w / 4096)) (.ofNat 1 (w / 1024)) (.ofNat 5 (w / 32)))
  else if w % 32 = 0 ∧ w / 1024 % 4 = 2 then .ok (.stb (.ofNat 6 (w / 262144)) (.ofNat 6 (w / 4096)) (.ofNat 5 (w / 32)))
  else .error .func

/-- Major 0x0D of class C (03 R65). -/
def decodeC0D (w : Nat) : Except Reject Instr :=
  if w / 262144 % 64 = 0 then .ok (.pf (.ofNat 6 (w / 4096)) (.ofNat 12 w))
  else if w / 262144 % 64 = 1 then .ok (.disc (.ofNat 6 (w / 4096)) (.ofNat 12 w))
  else if w / 262144 % 64 = 2 then .ok (.zline (.ofNat 6 (w / 4096)) (.ofNat 12 w))
  else if w / 262144 % 64 = 3 then .ok (.wbk (.ofNat 6 (w / 4096)) (.ofNat 12 w))
  else .error .func

/-- Major 0x0F of class C (03 R65). -/
def decodeC0F (w : Nat) : Except Reject Instr :=
  if w / 32 % 2 = 0 then .ok (.stp (.ofNat 6 (w / 262144)) (.ofNat 6 (w / 4096)) (.ofNat 6 (w / 64)) (.ofNat 1 (w / 16)) (.ofNat 4 w))
  else if w / 32 % 2 = 1 then .ok (.stpm (.ofNat 6 (w / 262144)) (.ofNat 6 (w / 4096)) (.ofNat 6 (w / 64)) (.ofNat 1 (w / 16)) (.ofNat 4 w))
  else .error .func

/-- Major 0x10 of class C (03 R65). -/
def decodeC10 (w : Nat) : Except Reject Instr :=
  if w / 8 % 8 = 0 then .ok (.aadd (.ofNat 1 (w / 16777216)) (.ofNat 5 (w / 524288)) (.ofNat 5 (w / 16384)) (.ofNat 5 (w / 512)) (.ofNat 3 (w / 64)) (.ofNat 3 w))
  else if w / 8 % 8 = 1 then .ok (.amin (.ofNat 1 (w / 16777216)) (.ofNat 5 (w / 524288)) (.ofNat 5 (w / 16384)) (.ofNat 5 (w / 512)) (.ofNat 3 (w / 64)) (.ofNat 3 w))
  else if w / 8 % 8 = 2 then .ok (.amax (.ofNat 1 (w / 16777216)) (.ofNat 5 (w / 524288)) (.ofNat 5 (w / 16384)) (.ofNat 5 (w / 512)) (.ofNat 3 (w / 64)) (.ofNat 3 w))
  else if w / 8 % 8 = 3 then .ok (.aand (.ofNat 1 (w / 16777216)) (.ofNat 5 (w / 524288)) (.ofNat 5 (w / 16384)) (.ofNat 5 (w / 512)) (.ofNat 3 (w / 64)) (.ofNat 3 w))
  else if w / 8 % 8 = 4 then .ok (.aor (.ofNat 1 (w / 16777216)) (.ofNat 5 (w / 524288)) (.ofNat 5 (w / 16384)) (.ofNat 5 (w / 512)) (.ofNat 3 (w / 64)) (.ofNat 3 w))
  else if w / 8 % 8 = 5 then .ok (.axor (.ofNat 1 (w / 16777216)) (.ofNat 5 (w / 524288)) (.ofNat 5 (w / 16384)) (.ofNat 5 (w / 512)) (.ofNat 3 (w / 64)) (.ofNat 3 w))
  else if w / 8 % 8 = 6 then .ok (.aswp (.ofNat 1 (w / 16777216)) (.ofNat 5 (w / 524288)) (.ofNat 5 (w / 16384)) (.ofNat 5 (w / 512)) (.ofNat 3 (w / 64)) (.ofNat 3 w))
  else if w / 8 % 8 = 7 then .ok (.acas (.ofNat 1 (w / 16777216)) (.ofNat 5 (w / 524288)) (.ofNat 5 (w / 16384)) (.ofNat 5 (w / 512)) (.ofNat 3 (w / 64)) (.ofNat 3 w))
  else .error .func

/-- Major 0x11 of class C (03 R65). -/
def decodeC11 (w : Nat) : Except Reject Instr :=
  if w / 8 % 8 = 0 then .ok (.aadd (.ofNat 1 (w / 16777216)) (.ofNat 5 (w / 524288)) (.ofNat 5 (w / 16384)) (.ofNat 5 (w / 512)) (.ofNat 3 (w / 64)) (.ofNat 3 w))
  else if w / 8 % 8 = 1 then .ok (.amin (.ofNat 1 (w / 16777216)) (.ofNat 5 (w / 524288)) (.ofNat 5 (w / 16384)) (.ofNat 5 (w / 512)) (.ofNat 3 (w / 64)) (.ofNat 3 w))
  else if w / 8 % 8 = 2 then .ok (.amax (.ofNat 1 (w / 16777216)) (.ofNat 5 (w / 524288)) (.ofNat 5 (w / 16384)) (.ofNat 5 (w / 512)) (.ofNat 3 (w / 64)) (.ofNat 3 w))
  else if w / 8 % 8 = 3 then .ok (.aand (.ofNat 1 (w / 16777216)) (.ofNat 5 (w / 524288)) (.ofNat 5 (w / 16384)) (.ofNat 5 (w / 512)) (.ofNat 3 (w / 64)) (.ofNat 3 w))
  else if w / 8 % 8 = 4 then .ok (.aor (.ofNat 1 (w / 16777216)) (.ofNat 5 (w / 524288)) (.ofNat 5 (w / 16384)) (.ofNat 5 (w / 512)) (.ofNat 3 (w / 64)) (.ofNat 3 w))
  else if w / 8 % 8 = 5 then .ok (.axor (.ofNat 1 (w / 16777216)) (.ofNat 5 (w / 524288)) (.ofNat 5 (w / 16384)) (.ofNat 5 (w / 512)) (.ofNat 3 (w / 64)) (.ofNat 3 w))
  else if w / 8 % 8 = 6 then .ok (.aswp (.ofNat 1 (w / 16777216)) (.ofNat 5 (w / 524288)) (.ofNat 5 (w / 16384)) (.ofNat 5 (w / 512)) (.ofNat 3 (w / 64)) (.ofNat 3 w))
  else if w / 8 % 8 = 7 then .ok (.acas (.ofNat 1 (w / 16777216)) (.ofNat 5 (w / 524288)) (.ofNat 5 (w / 16384)) (.ofNat 5 (w / 512)) (.ofNat 3 (w / 64)) (.ofNat 3 w))
  else .error .func

/-- Major 0x12 of class C (03 R65). -/
def decodeC12 (w : Nat) : Except Reject Instr :=
  if w / 2048 % 2 = 0 then .ok (.rel (.ofNat 6 (w / 262144)) (.ofNat 6 (w / 4096)) (.ofNat 1 (w / 1024)) (.ofNat 3 (w / 128)) (.ofNat 7 w))
  else if w / 2048 % 2 = 1 then .ok (.acq (.ofNat 6 (w / 262144)) (.ofNat 6 (w / 4096)) (.ofNat 1 (w / 1024)) (.ofNat 3 (w / 128)) (.ofNat 7 w))
  else .error .func

/-- Major 0x13 of class C (03 R65). -/
noncomputable def decodeC13 (w : Nat) : Except Reject Instr :=
  if w / 8 % 8 = 0 then .ok (.afadd (.ofNat 5 (w / 524288)) (.ofNat 5 (w / 16384)) (.ofNat 5 (w / 512)) (.ofNat 3 (w / 64)) (.ofNat 3 w))
  else if w % 64 = 56 ∧ w / 512 % 32768 = 0 then .ok (.fence (.ofNat 3 (w / 64)))
  else .error .func

/-- Major 0x14 of class C (03 R65). -/
def decodeC14 (w : Nat) : Except Reject Instr :=
  if w % 64 = 0 ∧ w / 262144 % 64 = 0 then .ok (.hbinit (.ofNat 6 (w / 4096)) (.ofNat 6 (w / 64)))
  else if w % 64 = 1 ∧ w / 4096 % 64 = 0 then .ok (.hbarr (.ofNat 6 (w / 262144)) (.ofNat 6 (w / 64)))
  else if w % 64 = 2 ∧ w / 262144 % 64 = 0 then .ok (.hbwait (.ofNat 6 (w / 4096)) (.ofNat 6 (w / 64)))
  else if w % 64 = 3 then .ok (.hbtest (.ofNat 6 (w / 262144)) (.ofNat 6 (w / 4096)) (.ofNat 6 (w / 64)))
  else .error .func

/-- Major 0x18 of class C (03 R65). -/
def decodeC18 (w : Nat) : Except Reject Instr :=
  if w % 4096 = 0 then .ok (.spawn (.ofNat 6 (w / 262144)) (.ofNat 6 (w / 4096)))
  else if w % 4096 = 1 then .ok (.spawnx (.ofNat 6 (w / 262144)) (.ofNat 6 (w / 4096)))
  else if w % 4096 = 2 then .ok (.tsig (.ofNat 6 (w / 262144)) (.ofNat 6 (w / 4096)))
  else if w % 4096 = 3 then .ok (.tdep (.ofNat 6 (w / 262144)) (.ofNat 6 (w / 4096)))
  else if w % 16777216 = 4 then .ok (.susp)
  else if w % 4096 = 5 then .ok (.wake (.ofNat 6 (w / 262144)) (.ofNat 6 (w / 4096)))
  else if w % 4096 = 6 ∧ w / 262144 % 64 = 0 then .ok (.tret (.ofNat 6 (w / 4096)))
  else if w % 16777216 = 7 then .ok (.yield)
  else if w % 4096 = 8 then .ok (.bktsel (.ofNat 6 (w / 262144)) (.ofNat 6 (w / 4096)))
  else .error .func

/-- Major 0x19 of class C (03 R65). -/
def decodeC19 (w : Nat) : Except Reject Instr :=
  if w % 4096 = 0 then .ok (.stealctl (.ofNat 6 (w / 262144)) (.ofNat 6 (w / 4096)))
  else if w % 64 = 1 then .ok (.budget (.ofNat 6 (w / 262144)) (.ofNat 6 (w / 4096)) (.ofNat 6 (w / 64)))
  else .error .func

/-- Major 0x1C of class C (03 R65). -/
def decodeC1C (w : Nat) : Except Reject Instr :=
  if w % 64 = 0 then .ok (.rbox (.ofNat 6 (w / 262144)) (.ofNat 6 (w / 4096)) (.ofNat 6 (w / 64)))
  else if w % 4096 = 1 then .ok (.rld (.ofNat 6 (w / 262144)) (.ofNat 6 (w / 4096)))
  else if w % 4096 = 2 then .ok (.rst (.ofNat 6 (w / 262144)) (.ofNat 6 (w / 4096)))
  else if w % 64 = 3 then .ok (.runi (.ofNat 6 (w / 262144)) (.ofNat 6 (w / 4096)) (.ofNat 6 (w / 64)))
  else if w % 64 = 4 then .ok (.rint (.ofNat 6 (w / 262144)) (.ofNat 6 (w / 4096)) (.ofNat 6 (w / 64)))
  else if w % 64 = 5 then .ok (.rsub (.ofNat 6 (w / 262144)) (.ofNat 6 (w / 4096)) (.ofNat 6 (w / 64)))
  else if w % 64 = 6 then .ok (.rdil (.ofNat 6 (w / 262144)) (.ofNat 6 (w / 4096)) (.ofNat 6 (w / 64)))
  else if w % 64 = 7 then .ok (.rprj (.ofNat 6 (w / 262144)) (.ofNat 6 (w / 4096)) (.ofNat 6 (w / 64)))
  else if w % 64 = 8 then .ok (.rspl (.ofNat 6 (w / 262144)) (.ofNat 6 (w / 4096)) (.ofNat 6 (w / 64)))
  else if w % 64 = 9 then .ok (.rstrd (.ofNat 6 (w / 262144)) (.ofNat 6 (w / 4096)) (.ofNat 6 (w / 64)))
  else if w % 64 = 10 then .ok (.rrag (.ofNat 6 (w / 262144)) (.ofNat 6 (w / 4096)) (.ofNat 6 (w / 64)))
  else if w % 64 = 11 then .ok (.rshf (.ofNat 6 (w / 262144)) (.ofNat 6 (w / 4096)) (.ofNat 6 (w / 64)))
  else if w % 64 = 12 then .ok (.rcmp (.ofNat 6 (w / 262144)) (.ofNat 6 (w / 4096)) (.ofNat 6 (w / 64)))
  else if w % 4096 = 13 then .ok (.rcnt (.ofNat 6 (w / 262144)) (.ofNat 6 (w / 4096)))
  else if w % 4096 = 14 then .ok (.rvol (.ofNat 6 (w / 262144)) (.ofNat 6 (w / 4096)))
  else if w % 64 = 15 then .ok (.rtst (.ofNat 6 (w / 262144)) (.ofNat 6 (w / 4096)) (.ofNat 6 (w / 64)))
  else .error .func

/-- Major 0x20 of class C (03 R65). -/
def decodeC20 (w : Nat) : Except Reject Instr :=
  if w % 64 = 0 then .ok (.copy (.ofNat 6 (w / 262144)) (.ofNat 6 (w / 4096)) (.ofNat 6 (w / 64)))
  else if w % 64 = 1 ∧ w / 262144 % 64 = 0 then .ok (.cwait (.ofNat 6 (w / 4096)) (.ofNat 6 (w / 64)))
  else if w % 4096 = 2 then .ok (.cwp (.ofNat 6 (w / 262144)) (.ofNat 6 (w / 4096)))
  else if w % 4096 = 3 then .ok (.pres (.ofNat 6 (w / 262144)) (.ofNat 6 (w / 4096)))
  else if w % 64 = 4 then .ok (.gath (.ofNat 6 (w / 262144)) (.ofNat 6 (w / 4096)) (.ofNat 6 (w / 64)))
  else if w % 64 = 5 then .ok (.scat (.ofNat 6 (w / 262144)) (.ofNat 6 (w / 4096)) (.ofNat 6 (w / 64)))
  else if w % 4096 = 6 ∧ w / 262144 % 64 = 0 then .ok (.migr (.ofNat 6 (w / 4096)))
  else if w % 4096 = 7 then .ok (.tseq (.ofNat 6 (w / 262144)) (.ofNat 6 (w / 4096)))
  else if w % 64 = 8 ∧ w / 262144 % 64 = 0 then .ok (.tseqWt (.ofNat 6 (w / 4096)) (.ofNat 6 (w / 64)))
  else .error .func

/-- Major 0x21 of class C (03 R65). -/
noncomputable def decodeC21 (w : Nat) : Except Reject Instr :=
  if w % 4096 = 0 then .ok (.fopen (.ofNat 6 (w / 262144)) (.ofNat 6 (w / 4096)))
  else if w % 4096 = 1 then .ok (.fnext (.ofNat 6 (w / 262144)) (.ofNat 6 (w / 4096)))
  else if w % 64 = 2 then .ok (.fnextge (.ofNat 6 (w / 262144)) (.ofNat 6 (w / 4096)) (.ofNat 6 (w / 64)))
  else if w % 4096 = 3 then .ok (.fend (.ofNat 6 (w / 262144)) (.ofNat 6 (w / 4096)))
  else if w % 4096 = 4 ∧ w / 262144 % 64 = 0 then .ok (.fclose (.ofNat 6 (w / 4096)))
  else .error .func

/-- Major 0x24 of class C (03 R65). -/
def decodeC24 (w : Nat) : Except Reject Instr :=
  if w % 64 = 0 then .ok (.mclaim (.ofNat 6 (w / 262144)) (.ofNat 6 (w / 4096)) (.ofNat 6 (w / 64)))
  else if w % 64 = 1 ∧ w / 262144 % 64 = 0 then .ok (.mrel (.ofNat 6 (w / 4096)) (.ofNat 6 (w / 64)))
  else if w % 64 = 2 then .ok (.mlda (.ofNat 6 (w / 262144)) (.ofNat 6 (w / 4096)) (.ofNat 6 (w / 64)))
  else if w % 64 = 18 then .ok (.mldaRg (.ofNat 6 (w / 262144)) (.ofNat 6 (w / 4096)) (.ofNat 6 (w / 64)))
  else if w % 64 = 34 then .ok (.mldaSt (.ofNat 6 (w / 262144)) (.ofNat 6 (w / 4096)) (.ofNat 6 (w / 64)))
  else if w % 64 = 50 then .ok (.mldaAv (.ofNat 6 (w / 262144)) (.ofNat 6 (w / 4096)) (.ofNat 6 (w / 64)))
  else if w % 64 = 3 then .ok (.mldb (.ofNat 6 (w / 262144)) (.ofNat 6 (w / 4096)) (.ofNat 6 (w / 64)))
  else if w % 64 = 19 then .ok (.mldbRg (.ofNat 6 (w / 262144)) (.ofNat 6 (w / 4096)) (.ofNat 6 (w / 64)))
  else if w % 64 = 35 then .ok (.mldbSt (.ofNat 6 (w / 262144)) (.ofNat 6 (w / 4096)) (.ofNat 6 (w / 64)))
  else if w % 64 = 51 then .ok (.mldbAv (.ofNat 6 (w / 262144)) (.ofNat 6 (w / 4096)) (.ofNat 6 (w / 64)))
  else if w % 4096 = 4 then .ok (.mseq (.ofNat 6 (w / 262144)) (.ofNat 6 (w / 4096)))
  else if w % 64 = 5 ∧ w / 262144 % 64 = 0 then .ok (.mwait (.ofNat 6 (w / 4096)) (.ofNat 6 (w / 64)))
  else if w % 4096 = 6 ∧ w / 262144 % 64 = 0 then .ok (.mrec (.ofNat 6 (w / 4096)))
  else if w % 4096 = 7 ∧ w / 262144 % 64 = 0 then .ok (.mrev (.ofNat 6 (w / 4096)))
  else if w % 4096 = 8 ∧ w / 262144 % 64 = 0 then .ok (.mlog (.ofNat 6 (w / 4096)))
  else .error .func

/-- Major 0x25 of class C (03 R65). -/
def decodeC25 (w : Nat) : Except Reject Instr :=
  if w % 4096 = 0 then .ok (.mqw (.ofNat 6 (w / 262144)) (.ofNat 6 (w / 4096)))
  else .error .func

/-- Major 0x26 of class C (03 R65). -/
def decodeC26 (w : Nat) : Except Reject Instr :=
  if w % 16 = 0 ∧ w / 65536 % 256 = 0 then .ok (.tmma (.ofNat 6 (w / 1024)) (.ofNat 6 (w / 16)))
  else if w % 16 = 1 ∧ w / 65536 % 256 = 0 then .ok (.tmmt (.ofNat 6 (w / 1024)) (.ofNat 6 (w / 16)))
  else if w % 16 = 2 ∧ w / 65536 % 256 = 0 then .ok (.ttmm (.ofNat 6 (w / 1024)) (.ofNat 6 (w / 16)))
  else if w % 1024 = 3 ∧ w / 65536 % 256 = 0 then .ok (.tadd (.ofNat 6 (w / 1024)))
  else if w % 1024 = 4 ∧ w / 65536 % 256 = 0 then .ok (.tmul (.ofNat 6 (w / 1024)))
  else if w % 1024 = 5 ∧ w / 65536 % 256 = 0 then .ok (.tsclMul (.ofNat 6 (w / 1024)))
  else if w % 1024 = 21 ∧ w / 65536 % 256 = 0 then .ok (.tsclSet (.ofNat 6 (w / 1024)))
  else if w % 1024 = 6 ∧ w / 65536 % 256 = 0 then .ok (.texp (.ofNat 6 (w / 1024)))
  else if w % 1024 = 7 ∧ w / 65536 % 256 = 0 then .ok (.trmax (.ofNat 6 (w / 1024)))
  else if w % 1024 = 8 ∧ w / 65536 % 256 = 0 then .ok (.trsum (.ofNat 6 (w / 1024)))
  else if w % 1024 = 9 ∧ w / 65536 % 256 = 0 then .ok (.tcvt (.ofNat 6 (w / 1024)))
  else if w % 16 = 10 ∧ w / 65536 % 256 = 0 then .ok (.ttrn (.ofNat 6 (w / 1024)) (.ofNat 6 (w / 16)))
  else if w % 16777216 = 11 then .ok (.tactRelu)
  else if w % 16777216 = 27 then .ok (.tactSqrelu)
  else if w % 16777216 = 43 then .ok (.tactTanh)
  else .error .func

/-- Major 0x27 of class C (03 R65). -/
def decodeC27 (w : Nat) : Except Reject Instr :=
  if w % 16 = 0 then .ok (.tmmaRdy (.ofNat 8 (w / 65536)) (.ofNat 6 (w / 1024)) (.ofNat 6 (w / 16)))
  else if w % 16 = 1 then .ok (.tmmtRdy (.ofNat 8 (w / 65536)) (.ofNat 6 (w / 1024)) (.ofNat 6 (w / 16)))
  else if w % 16 = 2 then .ok (.ttmmRdy (.ofNat 8 (w / 65536)) (.ofNat 6 (w / 1024)) (.ofNat 6 (w / 16)))
  else if w % 1024 = 3 then .ok (.taddRdy (.ofNat 8 (w / 65536)) (.ofNat 6 (w / 1024)))
  else if w % 1024 = 4 then .ok (.tmulRdy (.ofNat 8 (w / 65536)) (.ofNat 6 (w / 1024)))
  else if w % 1024 = 5 then .ok (.tsclMulRdy (.ofNat 8 (w / 65536)) (.ofNat 6 (w / 1024)))
  else if w % 1024 = 21 then .ok (.tsclSetRdy (.ofNat 8 (w / 65536)) (.ofNat 6 (w / 1024)))
  else if w % 1024 = 6 then .ok (.texpRdy (.ofNat 8 (w / 65536)) (.ofNat 6 (w / 1024)))
  else if w % 65536 = 11 then .ok (.tactReluRdy (.ofNat 8 (w / 65536)))
  else if w % 65536 = 27 then .ok (.tactSqreluRdy (.ofNat 8 (w / 65536)))
  else if w % 65536 = 43 then .ok (.tactTanhRdy (.ofNat 8 (w / 65536)))
  else .error .func

/-- Major 0x2A of class C (03 R65). -/
def decodeC2A (w : Nat) : Except Reject Instr :=
  if w % 64 = 0 then .ok (.kopen (.ofNat 6 (w / 262144)) (.ofNat 6 (w / 4096)) (.ofNat 6 (w / 64)))
  else if w % 4096 = 1 then .ok (.kclose (.ofNat 6 (w / 262144)) (.ofNat 6 (w / 4096)))
  else if w % 64 = 2 then .ok (.kapp (.ofNat 6 (w / 262144)) (.ofNat 6 (w / 4096)) (.ofNat 6 (w / 64)))
  else if w % 4096 = 3 then .ok (.kacc (.ofNat 6 (w / 262144)) (.ofNat 6 (w / 4096)))
  else if w % 262144 = 4 then .ok (.krej (.ofNat 6 (w / 262144)))
  else if w % 64 = 5 then .ok (.kpb (.ofNat 6 (w / 262144)) (.ofNat 6 (w / 4096)) (.ofNat 6 (w / 64)))
  else if w % 64 = 6 then .ok (.kspl (.ofNat 6 (w / 262144)) (.ofNat 6 (w / 4096)) (.ofNat 6 (w / 64)))
  else if w % 4096 = 7 then .ok (.kfork (.ofNat 6 (w / 262144)) (.ofNat 6 (w / 4096)))
  else if w % 64 = 8 then .ok (.kload (.ofNat 6 (w / 262144)) (.ofNat 6 (w / 4096)) (.ofNat 6 (w / 64)))
  else if w % 64 = 9 then .ok (.kval (.ofNat 6 (w / 262144)) (.ofNat 6 (w / 4096)) (.ofNat 6 (w / 64)))
  else if w % 64 = 10 then .ok (.kmarg (.ofNat 6 (w / 262144)) (.ofNat 6 (w / 4096)) (.ofNat 6 (w / 64)))
  else if w % 64 = 11 then .ok (.kpfx (.ofNat 6 (w / 262144)) (.ofNat 6 (w / 4096)) (.ofNat 6 (w / 64)))
  else if w % 64 = 12 then .ok (.kins (.ofNat 6 (w / 262144)) (.ofNat 6 (w / 4096)) (.ofNat 6 (w / 64)))
  else if w % 4096 = 13 then .ok (.ktent (.ofNat 6 (w / 262144)) (.ofNat 6 (w / 4096)))
  else if w % 262144 = 14 then .ok (.kdropt (.ofNat 6 (w / 262144)))
  else if w % 4096 = 15 then .ok (.kseq (.ofNat 6 (w / 262144)) (.ofNat 6 (w / 4096)))
  else if w % 64 = 16 ∧ w / 262144 % 64 = 0 then .ok (.kseqWt (.ofNat 6 (w / 4096)) (.ofNat 6 (w / 64)))
  else .error .func

/-- Major 0x2E of class C (03 R65). -/
def decodeC2E (w : Nat) : Except Reject Instr :=
  if w % 4096 = 0 then .ok (.ccomm (.ofNat 6 (w / 262144)) (.ofNat 6 (w / 4096)))
  else if w % 64 = 1 ∧ w / 262144 % 64 = 0 then .ok (.ctt (.ofNat 6 (w / 4096)) (.ofNat 6 (w / 64)))
  else if w % 4096 = 2 ∧ w / 262144 % 64 = 0 then .ok (.crdy (.ofNat 6 (w / 4096)))
  else if w % 4096 = 3 then .ok (.cpost (.ofNat 6 (w / 262144)) (.ofNat 6 (w / 4096)))
  else if w % 64 = 4 then .ok (.cpoll (.ofNat 6 (w / 262144)) (.ofNat 6 (w / 4096)) (.ofNat 6 (w / 64)))
  else if w % 64 = 5 ∧ w / 262144 % 64 = 0 then .ok (.cwaitf (.ofNat 6 (w / 4096)) (.ofNat 6 (w / 64)))
  else if w % 262144 = 6 then .ok (.cbar (.ofNat 6 (w / 262144)))
  else if w % 4096 = 7 then .ok (.cstat (.ofNat 6 (w / 262144)) (.ofNat 6 (w / 4096)))
  else if w % 262144 = 8 then .ok (.cclose (.ofNat 6 (w / 262144)))
  else if w % 4096 = 9 then .ok (.cseq (.ofNat 6 (w / 262144)) (.ofNat 6 (w / 4096)))
  else if w % 64 = 10 ∧ w / 262144 % 64 = 0 then .ok (.cseqWt (.ofNat 6 (w / 4096)) (.ofNat 6 (w / 64)))
  else .error .func

/-- Major 0x2F of class C (03 R65). -/
def decodeC2F (w : Nat) : Except Reject Instr :=
  if w % 4096 = 0 then .ok (.carb (.ofNat 6 (w / 262144)) (.ofNat 6 (w / 4096)))
  else .error .func

/-- Major 0x32 of class C (03 R65). -/
noncomputable def decodeC32 (w : Nat) : Except Reject Instr :=
  if w % 64 = 0 then .ok (.trap (.ofNat 18 (w / 64)))
  else if w % 64 = 1 then .ok (.sysc (.ofNat 18 (w / 64)))
  else if w % 4096 = 2 then .ok (.mfk (.ofNat 6 (w / 262144)) (.ofNat 6 (w / 4096)))
  else if w % 4096 = 3 then .ok (.mtk (.ofNat 6 (w / 262144)) (.ofNat 6 (w / 4096)))
  else if w % 4096 = 4 ∧ w / 262144 % 64 = 0 then .ok (.sleep (.ofNat 6 (w / 4096)))
  else .error .func

/-- Major 0x33 of class C (03 R65). -/
def decodeC33 (w : Nat) : Except Reject Instr :=
  if w % 16777216 = 0 then .ok (.rett)
  else if w % 16777216 = 1 then .ok (.halt)
  else if w % 4096 = 2 then .ok (.repart (.ofNat 6 (w / 262144)) (.ofNat 6 (w / 4096)))
  else .error .func

/-- Major 0x34 of class C (03 R65). -/
def decodeC34 (w : Nat) : Except Reject Instr :=
  if w % 64 = 0 then .ok (.pgmig (.ofNat 6 (w / 262144)) (.ofNat 6 (w / 4096)) (.ofNat 6 (w / 64)))
  else if w % 64 = 1 then .ok (.pgheat (.ofNat 6 (w / 262144)) (.ofNat 6 (w / 4096)) (.ofNat 6 (w / 64)))
  else if w % 4096 = 2 then .ok (.rowret (.ofNat 6 (w / 262144)) (.ofNat 6 (w / 4096)))
  else if w % 64 = 3 ∧ w / 262144 % 64 = 0 then .ok (.shoot (.ofNat 6 (w / 4096)) (.ofNat 6 (w / 64)))
  else if w % 64 = 4 then .ok (.pgref (.ofNat 6 (w / 262144)) (.ofNat 6 (w / 4096)) (.ofNat 6 (w / 64)))
  else if w % 64 = 5 then .ok (.plbw (.ofNat 6 (w / 262144)) (.ofNat 6 (w / 4096)) (.ofNat 6 (w / 64)))
  else if w % 64 = 6 then .ok (.domset (.ofNat 6 (w / 262144)) (.ofNat 6 (w / 4096)) (.ofNat 6 (w / 64)))
  else .error .func

/-- Major 0x35 of class C (03 R65). -/
def decodeC35 (w : Nat) : Except Reject Instr :=
  if w % 64 = 0 ∧ w / 262144 % 64 = 0 then .ok (.irq (.ofNat 6 (w / 4096)) (.ofNat 6 (w / 64)))
  else if w % 4096 = 1 then .ok (.dreset (.ofNat 6 (w / 262144)) (.ofNat 6 (w / 4096)))
  else if w % 4096 = 2 then .ok (.qosp (.ofNat 6 (w / 262144)) (.ofNat 6 (w / 4096)))
  else .error .func

/-- Major 0x00 of class A (03 R69). -/
def decodeA00 (w : Nat) : Except Reject Instr :=
  if w % 32 = 0 then .ok (.add (.ofNat 6 (w / 262144)) (.ofNat 6 (w / 4096)) (.ofNat 6 (w / 64)) (.ofNat 1 (w / 32)))
  else if w % 32 = 1 then .ok (.sub (.ofNat 6 (w / 262144)) (.ofNat 6 (w / 4096)) (.ofNat 6 (w / 64)) (.ofNat 1 (w / 32)))
  else if w % 32 = 2 then .ok (.mul (.ofNat 6 (w / 262144)) (.ofNat 6 (w / 4096)) (.ofNat 6 (w / 64)) (.ofNat 1 (w / 32)))
  else if w % 32 = 3 then .ok (.mulh (.ofNat 6 (w / 262144)) (.ofNat 6 (w / 4096)) (.ofNat 6 (w / 64)) (.ofNat 1 (w / 32)))
  else if w % 32 = 4 then .ok (.mulhn (.ofNat 6 (w / 262144)) (.ofNat 6 (w / 4096)) (.ofNat 6 (w / 64)) (.ofNat 1 (w / 32)))
  else if w % 32 = 5 then .ok (.div (.ofNat 6 (w / 262144)) (.ofNat 6 (w / 4096)) (.ofNat 6 (w / 64)) (.ofNat 1 (w / 32)))
  else if w % 32 = 6 then .ok (.divn (.ofNat 6 (w / 262144)) (.ofNat 6 (w / 4096)) (.ofNat 6 (w / 64)) (.ofNat 1 (w / 32)))
  else if w % 32 = 7 then .ok (.rem (.ofNat 6 (w / 262144)) (.ofNat 6 (w / 4096)) (.ofNat 6 (w / 64)) (.ofNat 1 (w / 32)))
  else if w % 32 = 8 then .ok (.remn (.ofNat 6 (w / 262144)) (.ofNat 6 (w / 4096)) (.ofNat 6 (w / 64)) (.ofNat 1 (w / 32)))
  else if w % 32 = 9 then .ok (.and (.ofNat 6 (w / 262144)) (.ofNat 6 (w / 4096)) (.ofNat 6 (w / 64)) (.ofNat 1 (w / 32)))
  else if w % 32 = 10 then .ok (.or (.ofNat 6 (w / 262144)) (.ofNat 6 (w / 4096)) (.ofNat 6 (w / 64)) (.ofNat 1 (w / 32)))
  else if w % 32 = 11 then .ok (.xor (.ofNat 6 (w / 262144)) (.ofNat 6 (w / 4096)) (.ofNat 6 (w / 64)) (.ofNat 1 (w / 32)))
  else if w % 32 = 12 then .ok (.andn (.ofNat 6 (w / 262144)) (.ofNat 6 (w / 4096)) (.ofNat 6 (w / 64)) (.ofNat 1 (w / 32)))
  else if w % 32 = 13 then .ok (.shl (.ofNat 6 (w / 262144)) (.ofNat 6 (w / 4096)) (.ofNat 6 (w / 64)) (.ofNat 1 (w / 32)))
  else if w % 32 = 14 then .ok (.shr (.ofNat 6 (w / 262144)) (.ofNat 6 (w / 4096)) (.ofNat 6 (w / 64)) (.ofNat 1 (w / 32)))
  else if w % 32 = 15 then .ok (.sra (.ofNat 6 (w / 262144)) (.ofNat 6 (w / 4096)) (.ofNat 6 (w / 64)) (.ofNat 1 (w / 32)))
  else if w % 32 = 16 then .ok (.rot (.ofNat 6 (w / 262144)) (.ofNat 6 (w / 4096)) (.ofNat 6 (w / 64)) (.ofNat 1 (w / 32)))
  else if w % 32 = 17 then .ok (.min (.ofNat 6 (w / 262144)) (.ofNat 6 (w / 4096)) (.ofNat 6 (w / 64)) (.ofNat 1 (w / 32)))
  else if w % 32 = 18 then .ok (.max (.ofNat 6 (w / 262144)) (.ofNat 6 (w / 4096)) (.ofNat 6 (w / 64)) (.ofNat 1 (w / 32)))
  else if w % 32 = 19 then .ok (.minn (.ofNat 6 (w / 262144)) (.ofNat 6 (w / 4096)) (.ofNat 6 (w / 64)) (.ofNat 1 (w / 32)))
  else if w % 32 = 20 then .ok (.maxn (.ofNat 6 (w / 262144)) (.ofNat 6 (w / 4096)) (.ofNat 6 (w / 64)) (.ofNat 1 (w / 32)))
  else if w % 32 = 21 then .ok (.sel (.ofNat 6 (w / 262144)) (.ofNat 6 (w / 4096)) (.ofNat 6 (w / 64)) (.ofNat 1 (w / 32)))
  else if w % 32 = 22 ∧ w / 64 % 64 = 0 then .ok (.clz (.ofNat 6 (w / 262144)) (.ofNat 6 (w / 4096)) (.ofNat 1 (w / 32)))
  else if w % 32 = 23 ∧ w / 64 % 64 = 0 then .ok (.ctz (.ofNat 6 (w / 262144)) (.ofNat 6 (w / 4096)) (.ofNat 1 (w / 32)))
  else if w % 32 = 24 ∧ w / 64 % 64 = 0 then .ok (.popc (.ofNat 6 (w / 262144)) (.ofNat 6 (w / 4096)) (.ofNat 1 (w / 32)))
  else if w % 32 = 25 ∧ w / 64 % 64 = 0 then .ok (.bswap (.ofNat 6 (w / 262144)) (.ofNat 6 (w / 4096)) (.ofNat 1 (w / 32)))
  else .error .func

/-- Major 0x07 of class A (03 R69). -/
def decodeA07 (w : Nat) : Except Reject Instr :=
  if w / 1024 % 4 = 0 then .ok (.minImm (.ofNat 6 (w / 262144)) (.ofNat 6 (w / 4096)) (.ofNat 10 w))
  else if w / 1024 % 4 = 1 then .ok (.maxImm (.ofNat 6 (w / 262144)) (.ofNat 6 (w / 4096)) (.ofNat 10 w))
  else if w / 1024 % 4 = 2 then .ok (.minnImm (.ofNat 6 (w / 262144)) (.ofNat 6 (w / 4096)) (.ofNat 10 w))
  else if w / 1024 % 4 = 3 then .ok (.maxnImm (.ofNat 6 (w / 262144)) (.ofNat 6 (w / 4096)) (.ofNat 10 w))
  else .error .func

/-- Major 0x08 of class A (03 R69). -/
def decodeA08 (w : Nat) : Except Reject Instr :=
  if w / 64 % 64 = 0 then .ok (.shlImm (.ofNat 6 (w / 262144)) (.ofNat 6 (w / 4096)) (.ofNat 6 w))
  else if w / 64 % 64 = 1 then .ok (.shrImm (.ofNat 6 (w / 262144)) (.ofNat 6 (w / 4096)) (.ofNat 6 w))
  else if w / 64 % 64 = 2 then .ok (.sraImm (.ofNat 6 (w / 262144)) (.ofNat 6 (w / 4096)) (.ofNat 6 w))
  else if w / 64 % 64 = 3 then .ok (.rotImm (.ofNat 6 (w / 262144)) (.ofNat 6 (w / 4096)) (.ofNat 6 w))
  else .error .func

/-- Major 0x10 of class A (03 R69). -/
def decodeA10 (w : Nat) : Except Reject Instr :=
  if w / 8 % 8 = 0 then .ok (.fadd (.ofNat 6 (w / 262144)) (.ofNat 6 (w / 4096)) (.ofNat 6 (w / 64)) (.ofNat 3 w))
  else if w / 8 % 8 = 1 then .ok (.fsub (.ofNat 6 (w / 262144)) (.ofNat 6 (w / 4096)) (.ofNat 6 (w / 64)) (.ofNat 3 w))
  else if w / 8 % 8 = 2 then .ok (.fmul (.ofNat 6 (w / 262144)) (.ofNat 6 (w / 4096)) (.ofNat 6 (w / 64)) (.ofNat 3 w))
  else if w % 64 = 24 then .ok (.fmin (.ofNat 6 (w / 262144)) (.ofNat 6 (w / 4096)) (.ofNat 6 (w / 64)))
  else if w % 64 = 32 then .ok (.fmax (.ofNat 6 (w / 262144)) (.ofNat 6 (w / 4096)) (.ofNat 6 (w / 64)))
  else .error .func

/-- Major 0x11 of class A (03 R69). -/
def decodeA11 (w : Nat) : Except Reject Instr :=
  if w / 8 % 8 = 0 then .ok (.ffma (.ofNat 6 (w / 262144)) (.ofNat 6 (w / 4096)) (.ofNat 6 (w / 64)) (.ofNat 3 w))
  else .error .func

/-- Major 0x13 of class A (03 R69). -/
def decodeA13 (w : Nat) : Except Reject Instr :=
  if w / 512 % 8 = 0 then .ok (.fcvt (.ofNat 6 (w / 262144)) (.ofNat 6 (w / 4096)) (.ofNat 3 (w / 64)) (.ofNat 3 (w / 8)) (.ofNat 3 w))
  else .error .func

/-- Major 0x18 of class A (03 R69). -/
def decodeA18 (w : Nat) : Except Reject Instr :=
  if w / 64 % 8 = 0 then .ok (.vmin (.ofNat 4 (w / 1048576)) (.ofNat 4 (w / 65536)) (.ofNat 4 (w / 4096)) (.ofNat 3 (w / 512)) (.ofNat 6 w))
  else .error .func

/-- Major 0x19 of class A (03 R69). -/
def decodeA19 (w : Nat) : Except Reject Instr :=
  if w / 64 % 8 = 0 then .ok (.vmax (.ofNat 4 (w / 1048576)) (.ofNat 4 (w / 65536)) (.ofNat 4 (w / 4096)) (.ofNat 3 (w / 512)) (.ofNat 6 w))
  else .error .func

/-- Major 0x1A of class A (03 R69). -/
def decodeA1A (w : Nat) : Except Reject Instr :=
  if w / 64 % 8 = 0 ∧ w / 4096 % 16 = 0 then .ok (.vabs (.ofNat 4 (w / 1048576)) (.ofNat 4 (w / 65536)) (.ofNat 3 (w / 512)) (.ofNat 6 w))
  else .error .func

/-- Major 0x1B of class A (03 R69). -/
def decodeA1B (w : Nat) : Except Reject Instr :=
  if w / 64 % 8 = 0 ∧ w / 4096 % 16 = 0 then .ok (.vneg (.ofNat 4 (w / 1048576)) (.ofNat 4 (w / 65536)) (.ofNat 3 (w / 512)) (.ofNat 6 w))
  else .error .func

/-- Major 0x1C of class A (03 R69). -/
def decodeA1C (w : Nat) : Except Reject Instr :=
  if w / 64 % 8 = 0 then .ok (.vand (.ofNat 4 (w / 1048576)) (.ofNat 4 (w / 65536)) (.ofNat 4 (w / 4096)) (.ofNat 3 (w / 512)) (.ofNat 6 w))
  else .error .func

/-- Major 0x1D of class A (03 R69). -/
def decodeA1D (w : Nat) : Except Reject Instr :=
  if w / 64 % 8 = 0 then .ok (.vor (.ofNat 4 (w / 1048576)) (.ofNat 4 (w / 65536)) (.ofNat 4 (w / 4096)) (.ofNat 3 (w / 512)) (.ofNat 6 w))
  else .error .func

/-- Major 0x1E of class A (03 R69). -/
def decodeA1E (w : Nat) : Except Reject Instr :=
  if w / 64 % 8 = 0 then .ok (.vxor (.ofNat 4 (w / 1048576)) (.ofNat 4 (w / 65536)) (.ofNat 4 (w / 4096)) (.ofNat 3 (w / 512)) (.ofNat 6 w))
  else .error .func

/-- Major 0x1F of class A (03 R69). -/
def decodeA1F (w : Nat) : Except Reject Instr :=
  if w / 64 % 8 = 0 then .ok (.vshl (.ofNat 4 (w / 1048576)) (.ofNat 4 (w / 65536)) (.ofNat 4 (w / 4096)) (.ofNat 3 (w / 512)) (.ofNat 6 w))
  else .error .func

/-- Major 0x20 of class A (03 R69). -/
def decodeA20 (w : Nat) : Except Reject Instr :=
  if w / 64 % 8 = 0 then .ok (.vshr (.ofNat 4 (w / 1048576)) (.ofNat 4 (w / 65536)) (.ofNat 4 (w / 4096)) (.ofNat 3 (w / 512)) (.ofNat 6 w))
  else .error .func

/-- Major 0x22 of class A (03 R69). -/
def decodeA22 (w : Nat) : Except Reject Instr :=
  if w / 64 % 8 = 0 then .ok (.vsel (.ofNat 4 (w / 1048576)) (.ofNat 4 (w / 65536)) (.ofNat 4 (w / 4096)) (.ofNat 3 (w / 512)) (.ofNat 6 w))
  else .error .func

/-- Major 0x25 of class A (03 R69). -/
def decodeA25 (w : Nat) : Except Reject Instr :=
  if w / 64 % 8 = 0 ∧ w / 4096 % 4 = 0 then .ok (.vbcast (.ofNat 4 (w / 1048576)) (.ofNat 6 (w / 16384)) (.ofNat 3 (w / 512)) (.ofNat 6 w))
  else .error .func

/-- Major 0x26 of class A (03 R69). -/
def decodeA26 (w : Nat) : Except Reject Instr :=
  if w / 64 % 8 = 0 ∧ w / 4096 % 256 = 0 then .ok (.viota (.ofNat 4 (w / 1048576)) (.ofNat 3 (w / 512)) (.ofNat 6 w))
  else .error .func

/-- Major 0x27 of class A (03 R69). -/
def decodeA27 (w : Nat) : Except Reject Instr :=
  if w / 64 % 8 = 0 ∧ w / 4096 % 16 = 0 then .ok (.vredAdd (.ofNat 4 (w / 1048576)) (.ofNat 4 (w / 65536)) (.ofNat 3 (w / 512)) (.ofNat 6 w))
  else if w / 64 % 8 = 1 ∧ w / 4096 % 16 = 0 then .ok (.vredMax (.ofNat 4 (w / 1048576)) (.ofNat 4 (w / 65536)) (.ofNat 3 (w / 512)) (.ofNat 6 w))
  else if w / 64 % 8 = 2 ∧ w / 4096 % 16 = 0 then .ok (.vredMin (.ofNat 4 (w / 1048576)) (.ofNat 4 (w / 65536)) (.ofNat 3 (w / 512)) (.ofNat 6 w))
  else .error .func

/-- Major 0x28 of class A (03 R69). -/
def decodeA28 (w : Nat) : Except Reject Instr :=
  if w / 64 % 8 = 0 ∧ w / 4096 % 16 = 0 then .ok (.vscanInc (.ofNat 4 (w / 1048576)) (.ofNat 4 (w / 65536)) (.ofNat 3 (w / 512)) (.ofNat 6 w))
  else if w / 64 % 8 = 1 ∧ w / 4096 % 16 = 0 then .ok (.vscanMaxinc (.ofNat 4 (w / 1048576)) (.ofNat 4 (w / 65536)) (.ofNat 3 (w / 512)) (.ofNat 6 w))
  else if w / 64 % 8 = 2 ∧ w / 4096 % 16 = 0 then .ok (.vscanMininc (.ofNat 4 (w / 1048576)) (.ofNat 4 (w / 65536)) (.ofNat 3 (w / 512)) (.ofNat 6 w))
  else if w / 64 % 8 = 3 ∧ w / 4096 % 16 = 0 then .ok (.vscanExc (.ofNat 4 (w / 1048576)) (.ofNat 4 (w / 65536)) (.ofNat 3 (w / 512)) (.ofNat 6 w))
  else if w / 64 % 8 = 4 ∧ w / 4096 % 16 = 0 then .ok (.vscanMaxexc (.ofNat 4 (w / 1048576)) (.ofNat 4 (w / 65536)) (.ofNat 3 (w / 512)) (.ofNat 6 w))
  else if w / 64 % 8 = 5 ∧ w / 4096 % 16 = 0 then .ok (.vscanMinexc (.ofNat 4 (w / 1048576)) (.ofNat 4 (w / 65536)) (.ofNat 3 (w / 512)) (.ofNat 6 w))
  else .error .func

/-- Major 0x30 of class A (03 R69). -/
def decodeA30 (w : Nat) : Except Reject Instr :=
  if w / 64 % 8 = 0 ∧ w / 4096 % 16 = 0 then .ok (.vrcp (.ofNat 4 (w / 1048576)) (.ofNat 4 (w / 65536)) (.ofNat 3 (w / 512)) (.ofNat 6 w))
  else if w / 64 % 8 = 1 ∧ w / 4096 % 16 = 0 then .ok (.vrsq (.ofNat 4 (w / 1048576)) (.ofNat 4 (w / 65536)) (.ofNat 3 (w / 512)) (.ofNat 6 w))
  else if w / 64 % 8 = 2 ∧ w / 4096 % 16 = 0 then .ok (.vsqrt (.ofNat 4 (w / 1048576)) (.ofNat 4 (w / 65536)) (.ofNat 3 (w / 512)) (.ofNat 6 w))
  else if w / 64 % 8 = 3 ∧ w / 4096 % 16 = 0 then .ok (.vexp (.ofNat 4 (w / 1048576)) (.ofNat 4 (w / 65536)) (.ofNat 3 (w / 512)) (.ofNat 6 w))
  else if w / 64 % 8 = 4 ∧ w / 4096 % 16 = 0 then .ok (.vexp2 (.ofNat 4 (w / 1048576)) (.ofNat 4 (w / 65536)) (.ofNat 3 (w / 512)) (.ofNat 6 w))
  else if w / 64 % 8 = 5 ∧ w / 4096 % 16 = 0 then .ok (.vlog (.ofNat 4 (w / 1048576)) (.ofNat 4 (w / 65536)) (.ofNat 3 (w / 512)) (.ofNat 6 w))
  else if w / 64 % 8 = 6 ∧ w / 4096 % 16 = 0 then .ok (.vlog2 (.ofNat 4 (w / 1048576)) (.ofNat 4 (w / 65536)) (.ofNat 3 (w / 512)) (.ofNat 6 w))
  else if w / 64 % 8 = 7 ∧ w / 4096 % 16 = 0 then .ok (.vtanh (.ofNat 4 (w / 1048576)) (.ofNat 4 (w / 65536)) (.ofNat 3 (w / 512)) (.ofNat 6 w))
  else .error .func

/-- Major 0x31 of class A (03 R69). -/
def decodeA31 (w : Nat) : Except Reject Instr :=
  if w % 16384 = 0 then .ok (.vshape (.ofNat 4 (w / 1048576)) (.ofNat 6 (w / 16384)))
  else .error .func

/-- Major 0x32 of class A (03 R69). -/
def decodeA32 (w : Nat) : Except Reject Instr :=
  if w % 16384 = 0 then .ok (.vloop (.ofNat 4 (w / 1048576)) (.ofNat 6 (w / 16384)))
  else .error .func

/-- Major 0x33 of class A (03 R69). -/
def decodeA33 (w : Nat) : Except Reject Instr :=
  if w % 16777216 = 0 then .ok (.vsync)
  else .error .func

/-- Major 0x34 of class A (03 R69). -/
def decodeA34 (w : Nat) : Except Reject Instr :=
  if w % 16777216 = 0 then .ok (.vtbl)
  else .error .func

/-- The class-C map (03 R65): a word's instruction by its major `m`. -/
noncomputable def decodeC (m w : Nat) : Except Reject Instr :=
  if m = 0 then .ok (.br (.ofNat 6 (w / 262144)) (.ofNat 6 (w / 4096)) (.ofNat 12 w))
  else if m = 1 then .ok (.jmp (.ofNat 24 w))
  else if m = 2 then .ok (.call (.ofNat 24 w))
  else if m = 3 then decodeC03 w
  else if m = 4 then decodeC04 w
  else if m = 5 then decodeC05 w
  else if m = 6 then decodeC06 w
  else if m = 8 then .ok (.ldD (.ofNat 6 (w / 262144)) (.ofNat 6 (w / 4096)) (.ofNat 12 w))
  else if m = 9 then .ok (.stD (.ofNat 6 (w / 262144)) (.ofNat 6 (w / 4096)) (.ofNat 12 w))
  else if m = 10 then .ok (.ld (.ofNat 6 (w / 262144)) (.ofNat 6 (w / 4096)) (.ofNat 3 (w / 512)) (.ofNat 9 w))
  else if m = 11 then .ok (.st (.ofNat 6 (w / 262144)) (.ofNat 6 (w / 4096)) (.ofNat 3 (w / 512)) (.ofNat 9 w))
  else if m = 12 then decodeC0C w
  else if m = 13 then decodeC0D w
  else if m = 14 then .ok (.ldfW (.ofNat 6 (w / 262144)) (.ofNat 6 (w / 4096)) (.ofNat 12 w))
  else if m = 15 then decodeC0F w
  else if m = 16 then decodeC10 w
  else if m = 17 then decodeC11 w
  else if m = 18 then decodeC12 w
  else if m = 19 then decodeC13 w
  else if m = 20 then decodeC14 w
  else if m = 24 then decodeC18 w
  else if m = 25 then decodeC19 w
  else if m = 28 then decodeC1C w
  else if m = 32 then decodeC20 w
  else if m = 33 then decodeC21 w
  else if m = 36 then decodeC24 w
  else if m = 37 then decodeC25 w
  else if m = 38 then decodeC26 w
  else if m = 39 then decodeC27 w
  else if m = 42 then decodeC2A w
  else if m = 46 then decodeC2E w
  else if m = 47 then decodeC2F w
  else if m = 50 then decodeC32 w
  else if m = 51 then decodeC33 w
  else if m = 52 then decodeC34 w
  else if m = 53 then decodeC35 w
  else .error .major

/-- The class-A map (03 R69): a word's instruction by its major `m`; `lit` is the literal word of LIM and LIH (R57). -/
def decodeA (m w lit : Nat) : Except Reject Instr :=
  if m = 0 then decodeA00 w
  else if m = 1 then .ok (.cmp (.ofNat 6 (w / 262144)) (.ofNat 6 (w / 4096)) (.ofNat 6 (w / 64)) (.ofNat 6 w))
  else if m = 2 then .ok (.addImm (.ofNat 6 (w / 262144)) (.ofNat 6 (w / 4096)) (.ofNat 12 w))
  else if m = 3 then .ok (.mulImm (.ofNat 6 (w / 262144)) (.ofNat 6 (w / 4096)) (.ofNat 12 w))
  else if m = 4 then .ok (.andImm (.ofNat 6 (w / 262144)) (.ofNat 6 (w / 4096)) (.ofNat 12 w))
  else if m = 5 then .ok (.orImm (.ofNat 6 (w / 262144)) (.ofNat 6 (w / 4096)) (.ofNat 12 w))
  else if m = 6 then .ok (.xorImm (.ofNat 6 (w / 262144)) (.ofNat 6 (w / 4096)) (.ofNat 12 w))
  else if m = 7 then decodeA07 w
  else if m = 8 then decodeA08 w
  else if m = 9 then .ok (.bfx (.ofNat 6 (w / 262144)) (.ofNat 6 (w / 4096)) (.ofNat 6 (w / 64)) (.ofNat 6 w))
  else if m = 10 then .ok (.bfi (.ofNat 6 (w / 262144)) (.ofNat 6 (w / 4096)) (.ofNat 6 (w / 64)) (.ofNat 6 w))
  else if m = 11 then .ok (.cmpImm (.ofNat 6 (w / 262144)) (.ofNat 6 (w / 4096)) (.ofNat 4 (w / 256)) (.ofNat 8 w))
  else if m = 13 then if w % 262144 = 0 then .ok (.lim (.ofNat 6 (w / 262144)) (.ofNat 32 lit)) else .error .func
  else if m = 14 then if w % 262144 = 0 then .ok (.lih (.ofNat 6 (w / 262144)) (.ofNat 32 lit)) else .error .func
  else if m = 16 then decodeA10 w
  else if m = 17 then decodeA11 w
  else if m = 18 then .ok (.fcmp (.ofNat 6 (w / 262144)) (.ofNat 6 (w / 4096)) (.ofNat 6 (w / 64)) (.ofNat 6 w))
  else if m = 19 then decodeA13 w
  else if m = 20 then .ok (.vadd (.ofNat 4 (w / 1048576)) (.ofNat 4 (w / 65536)) (.ofNat 4 (w / 4096)) (.ofNat 3 (w / 512)) (.ofNat 3 (w / 64)) (.ofNat 6 w))
  else if m = 21 then .ok (.vsub (.ofNat 4 (w / 1048576)) (.ofNat 4 (w / 65536)) (.ofNat 4 (w / 4096)) (.ofNat 3 (w / 512)) (.ofNat 3 (w / 64)) (.ofNat 6 w))
  else if m = 22 then .ok (.vmul (.ofNat 4 (w / 1048576)) (.ofNat 4 (w / 65536)) (.ofNat 4 (w / 4096)) (.ofNat 3 (w / 512)) (.ofNat 3 (w / 64)) (.ofNat 6 w))
  else if m = 23 then .ok (.vfma (.ofNat 4 (w / 1048576)) (.ofNat 4 (w / 65536)) (.ofNat 4 (w / 4096)) (.ofNat 3 (w / 512)) (.ofNat 3 (w / 64)) (.ofNat 6 w))
  else if m = 24 then decodeA18 w
  else if m = 25 then decodeA19 w
  else if m = 26 then decodeA1A w
  else if m = 27 then decodeA1B w
  else if m = 28 then decodeA1C w
  else if m = 29 then decodeA1D w
  else if m = 30 then decodeA1E w
  else if m = 31 then decodeA1F w
  else if m = 32 then decodeA20 w
  else if m = 33 then .ok (.vcmp (.ofNat 4 (w / 1048576)) (.ofNat 4 (w / 65536)) (.ofNat 4 (w / 4096)) (.ofNat 3 (w / 512)) (.ofNat 3 (w / 64)) (.ofNat 6 w))
  else if m = 34 then decodeA22 w
  else if m = 35 then .ok (.vcvt (.ofNat 4 (w / 1048576)) (.ofNat 4 (w / 65536)) (.ofNat 4 (w / 4096)) (.ofNat 3 (w / 512)) (.ofNat 3 (w / 64)) (.ofNat 6 w))
  else if m = 36 then .ok (.vcvtHi (.ofNat 4 (w / 1048576)) (.ofNat 4 (w / 65536)) (.ofNat 4 (w / 4096)) (.ofNat 3 (w / 512)) (.ofNat 3 (w / 64)) (.ofNat 6 w))
  else if m = 37 then decodeA25 w
  else if m = 38 then decodeA26 w
  else if m = 39 then decodeA27 w
  else if m = 40 then decodeA28 w
  else if m = 48 then decodeA30 w
  else if m = 49 then decodeA31 w
  else if m = 50 then decodeA32 w
  else if m = 51 then decodeA33 w
  else if m = 52 then decodeA34 w
  else .error .major

/-- The fields of a word, without regard to L (03 R53). -/
noncomputable def decodeFields (w lit : Nat) : Except Reject Instr :=
  if w / 1073741824 % 2 = 0 then decodeC (w / 16777216 % 64) w else decodeA (w / 16777216 % 64) w lit

/-- A word decoded on its own: its fields, then what its operands must satisfy in every state. -/
noncomputable def decodeWord (w lit : Nat) : Except Reject Instr :=
  match decodeFields w lit with
  | .ok i => if i.wf then .ok i else .error .operand
  | .error r => .error r

/-- The instruction at the front of a list of bytes, least significant byte first: a word, and its literal for LIM and
LIH. Missing bytes count as 0. -/
noncomputable def decodeBytes (b : List Byte) : Except Reject Instr :=
  decodeWord (ofBytes (b.take 4)) (ofBytes ((b.drop 4).take 4))

/-- The instruction of an opcode-table word: the words laid out as memory holds them, then decoded. -/
noncomputable def decodeTableWord (nbits w : Nat) : Option Instr :=
  match decodeBytes (leBytes 8 (w % 2 ^ nbits)) with
  | .ok i => some i
  | .error _ => none

/-! ### The encoder -/

/-- The word of an instruction with L = 0 (03 R62, R65, R69); 0 for a step of the hardware. -/
def encodeNat : Instr → Nat
  | .br c a i => 0 + c.toNat * 262144 + a.toNat * 4096 + i.toNat
  | .jmp j => 16777216 + j.toNat
  | .call j => 33554432 + j.toNat
  | .jr d a => 50331648 + d.toNat * 262144 + a.toNat * 4096
  | .btag a => 67108864 + a.toNat * 4096
  | .loop a i => 83886080 + a.toNat * 4096 + i.toNat
  | .nop => 100663296
  | .align => 100663297
  | .ldD d a i => 134217728 + d.toNat * 262144 + a.toNat * 4096 + i.toNat
  | .stD d a i => 150994944 + d.toNat * 262144 + a.toNat * 4096 + i.toNat
  | .ld d a s o => 167772160 + d.toNat * 262144 + a.toNat * 4096 + s.toNat * 512 + o.toNat
  | .st d a s o => 184549376 + d.toNat * 262144 + a.toNat * 4096 + s.toNat * 512 + o.toNat
  | .ldb d a x w => 201326592 + d.toNat * 262144 + a.toNat * 4096 + x.toNat * 1024 + w.toNat * 32
  | .stb d a w => 201328640 + d.toNat * 262144 + a.toNat * 4096 + w.toNat * 32
  | .pf a o => 218103808 + a.toNat * 4096 + o.toNat
  | .disc a o => 218365952 + a.toNat * 4096 + o.toNat
  | .zline a o => 218628096 + a.toNat * 4096 + o.toNat
  | .wbk a o => 218890240 + a.toNat * 4096 + o.toNat
  | .ldfW d a i => 234881024 + d.toNat * 262144 + a.toNat * 4096 + i.toNat
  | .stp d a b z o => 251658240 + d.toNat * 262144 + a.toNat * 4096 + b.toNat * 64 + z.toNat * 16 + o.toNat
  | .stpm d a b z o => 251658272 + d.toNat * 262144 + a.toNat * 4096 + b.toNat * 64 + z.toNat * 16 + o.toNat
  | .aadd z d a b s f => 268435456 + z.toNat * 16777216 + d.toNat * 524288 + a.toNat * 16384 + b.toNat * 512 + s.toNat * 64 + f.toNat
  | .amin z d a b s f => 268435464 + z.toNat * 16777216 + d.toNat * 524288 + a.toNat * 16384 + b.toNat * 512 + s.toNat * 64 + f.toNat
  | .amax z d a b s f => 268435472 + z.toNat * 16777216 + d.toNat * 524288 + a.toNat * 16384 + b.toNat * 512 + s.toNat * 64 + f.toNat
  | .aand z d a b s f => 268435480 + z.toNat * 16777216 + d.toNat * 524288 + a.toNat * 16384 + b.toNat * 512 + s.toNat * 64 + f.toNat
  | .aor z d a b s f => 268435488 + z.toNat * 16777216 + d.toNat * 524288 + a.toNat * 16384 + b.toNat * 512 + s.toNat * 64 + f.toNat
  | .axor z d a b s f => 268435496 + z.toNat * 16777216 + d.toNat * 524288 + a.toNat * 16384 + b.toNat * 512 + s.toNat * 64 + f.toNat
  | .aswp z d a b s f => 268435504 + z.toNat * 16777216 + d.toNat * 524288 + a.toNat * 16384 + b.toNat * 512 + s.toNat * 64 + f.toNat
  | .acas z d a b s f => 268435512 + z.toNat * 16777216 + d.toNat * 524288 + a.toNat * 16384 + b.toNat * 512 + s.toNat * 64 + f.toNat
  | .rel d a z s o => 301989888 + d.toNat * 262144 + a.toNat * 4096 + z.toNat * 1024 + s.toNat * 128 + o.toNat
  | .acq d a z s o => 301991936 + d.toNat * 262144 + a.toNat * 4096 + z.toNat * 1024 + s.toNat * 128 + o.toNat
  | .afadd d a b s f => 318767104 + d.toNat * 524288 + a.toNat * 16384 + b.toNat * 512 + s.toNat * 64 + f.toNat
  | .fence s => 318767160 + s.toNat * 64
  | .hbinit a b => 335544320 + a.toNat * 4096 + b.toNat * 64
  | .hbarr d b => 335544321 + d.toNat * 262144 + b.toNat * 64
  | .hbwait a b => 335544322 + a.toNat * 4096 + b.toNat * 64
  | .hbtest d a b => 335544323 + d.toNat * 262144 + a.toNat * 4096 + b.toNat * 64
  | .spawn d a => 402653184 + d.toNat * 262144 + a.toNat * 4096
  | .spawnx d a => 402653185 + d.toNat * 262144 + a.toNat * 4096
  | .tsig d a => 402653186 + d.toNat * 262144 + a.toNat * 4096
  | .tdep d a => 402653187 + d.toNat * 262144 + a.toNat * 4096
  | .susp => 402653188
  | .wake d a => 402653189 + d.toNat * 262144 + a.toNat * 4096
  | .tret a => 402653190 + a.toNat * 4096
  | .yield => 402653191
  | .bktsel d a => 402653192 + d.toNat * 262144 + a.toNat * 4096
  | .stealctl d a => 419430400 + d.toNat * 262144 + a.toNat * 4096
  | .budget d a b => 419430401 + d.toNat * 262144 + a.toNat * 4096 + b.toNat * 64
  | .rbox d a b => 469762048 + d.toNat * 262144 + a.toNat * 4096 + b.toNat * 64
  | .rld d a => 469762049 + d.toNat * 262144 + a.toNat * 4096
  | .rst d a => 469762050 + d.toNat * 262144 + a.toNat * 4096
  | .runi d a b => 469762051 + d.toNat * 262144 + a.toNat * 4096 + b.toNat * 64
  | .rint d a b => 469762052 + d.toNat * 262144 + a.toNat * 4096 + b.toNat * 64
  | .rsub d a b => 469762053 + d.toNat * 262144 + a.toNat * 4096 + b.toNat * 64
  | .rdil d a b => 469762054 + d.toNat * 262144 + a.toNat * 4096 + b.toNat * 64
  | .rprj d a b => 469762055 + d.toNat * 262144 + a.toNat * 4096 + b.toNat * 64
  | .rspl d a b => 469762056 + d.toNat * 262144 + a.toNat * 4096 + b.toNat * 64
  | .rstrd d a b => 469762057 + d.toNat * 262144 + a.toNat * 4096 + b.toNat * 64
  | .rrag d a b => 469762058 + d.toNat * 262144 + a.toNat * 4096 + b.toNat * 64
  | .rshf d a b => 469762059 + d.toNat * 262144 + a.toNat * 4096 + b.toNat * 64
  | .rcmp d a b => 469762060 + d.toNat * 262144 + a.toNat * 4096 + b.toNat * 64
  | .rcnt d a => 469762061 + d.toNat * 262144 + a.toNat * 4096
  | .rvol d a => 469762062 + d.toNat * 262144 + a.toNat * 4096
  | .rtst d a b => 469762063 + d.toNat * 262144 + a.toNat * 4096 + b.toNat * 64
  | .copy d a b => 536870912 + d.toNat * 262144 + a.toNat * 4096 + b.toNat * 64
  | .cwait a b => 536870913 + a.toNat * 4096 + b.toNat * 64
  | .cwp d a => 536870914 + d.toNat * 262144 + a.toNat * 4096
  | .pres d a => 536870915 + d.toNat * 262144 + a.toNat * 4096
  | .gath d a b => 536870916 + d.toNat * 262144 + a.toNat * 4096 + b.toNat * 64
  | .scat d a b => 536870917 + d.toNat * 262144 + a.toNat * 4096 + b.toNat * 64
  | .migr a => 536870918 + a.toNat * 4096
  | .tseq d a => 536870919 + d.toNat * 262144 + a.toNat * 4096
  | .tseqWt a b => 536870920 + a.toNat * 4096 + b.toNat * 64
  | .fopen d a => 553648128 + d.toNat * 262144 + a.toNat * 4096
  | .fnext d a => 553648129 + d.toNat * 262144 + a.toNat * 4096
  | .fnextge d a b => 553648130 + d.toNat * 262144 + a.toNat * 4096 + b.toNat * 64
  | .fend d a => 553648131 + d.toNat * 262144 + a.toNat * 4096
  | .fclose a => 553648132 + a.toNat * 4096
  | .mclaim d a b => 603979776 + d.toNat * 262144 + a.toNat * 4096 + b.toNat * 64
  | .mrel a b => 603979777 + a.toNat * 4096 + b.toNat * 64
  | .mlda d a b => 603979778 + d.toNat * 262144 + a.toNat * 4096 + b.toNat * 64
  | .mldaRg d a b => 603979794 + d.toNat * 262144 + a.toNat * 4096 + b.toNat * 64
  | .mldaSt d a b => 603979810 + d.toNat * 262144 + a.toNat * 4096 + b.toNat * 64
  | .mldaAv d a b => 603979826 + d.toNat * 262144 + a.toNat * 4096 + b.toNat * 64
  | .mldb d a b => 603979779 + d.toNat * 262144 + a.toNat * 4096 + b.toNat * 64
  | .mldbRg d a b => 603979795 + d.toNat * 262144 + a.toNat * 4096 + b.toNat * 64
  | .mldbSt d a b => 603979811 + d.toNat * 262144 + a.toNat * 4096 + b.toNat * 64
  | .mldbAv d a b => 603979827 + d.toNat * 262144 + a.toNat * 4096 + b.toNat * 64
  | .mseq d a => 603979780 + d.toNat * 262144 + a.toNat * 4096
  | .mwait a b => 603979781 + a.toNat * 4096 + b.toNat * 64
  | .mrec a => 603979782 + a.toNat * 4096
  | .mrev a => 603979783 + a.toNat * 4096
  | .mlog a => 603979784 + a.toNat * 4096
  | .mqw d a => 620756992 + d.toNat * 262144 + a.toNat * 4096
  | .tmma a b => 637534208 + a.toNat * 1024 + b.toNat * 16
  | .tmmaRdy t a b => 654311424 + t.toNat * 65536 + a.toNat * 1024 + b.toNat * 16
  | .tmmt a b => 637534209 + a.toNat * 1024 + b.toNat * 16
  | .tmmtRdy t a b => 654311425 + t.toNat * 65536 + a.toNat * 1024 + b.toNat * 16
  | .ttmm a b => 637534210 + a.toNat * 1024 + b.toNat * 16
  | .ttmmRdy t a b => 654311426 + t.toNat * 65536 + a.toNat * 1024 + b.toNat * 16
  | .tadd a => 637534211 + a.toNat * 1024
  | .taddRdy t a => 654311427 + t.toNat * 65536 + a.toNat * 1024
  | .tmul a => 637534212 + a.toNat * 1024
  | .tmulRdy t a => 654311428 + t.toNat * 65536 + a.toNat * 1024
  | .tsclMul a => 637534213 + a.toNat * 1024
  | .tsclMulRdy t a => 654311429 + t.toNat * 65536 + a.toNat * 1024
  | .tsclSet a => 637534229 + a.toNat * 1024
  | .tsclSetRdy t a => 654311445 + t.toNat * 65536 + a.toNat * 1024
  | .texp a => 637534214 + a.toNat * 1024
  | .texpRdy t a => 654311430 + t.toNat * 65536 + a.toNat * 1024
  | .trmax a => 637534215 + a.toNat * 1024
  | .trsum a => 637534216 + a.toNat * 1024
  | .tcvt a => 637534217 + a.toNat * 1024
  | .ttrn a b => 637534218 + a.toNat * 1024 + b.toNat * 16
  | .tactRelu => 637534219
  | .tactReluRdy t => 654311435 + t.toNat * 65536
  | .tactSqrelu => 637534235
  | .tactSqreluRdy t => 654311451 + t.toNat * 65536
  | .tactTanh => 637534251
  | .tactTanhRdy t => 654311467 + t.toNat * 65536
  | .kopen d a b => 704643072 + d.toNat * 262144 + a.toNat * 4096 + b.toNat * 64
  | .kclose d a => 704643073 + d.toNat * 262144 + a.toNat * 4096
  | .kapp d a b => 704643074 + d.toNat * 262144 + a.toNat * 4096 + b.toNat * 64
  | .kacc d a => 704643075 + d.toNat * 262144 + a.toNat * 4096
  | .krej d => 704643076 + d.toNat * 262144
  | .kpb d a b => 704643077 + d.toNat * 262144 + a.toNat * 4096 + b.toNat * 64
  | .kspl d a b => 704643078 + d.toNat * 262144 + a.toNat * 4096 + b.toNat * 64
  | .kfork d a => 704643079 + d.toNat * 262144 + a.toNat * 4096
  | .kload d a b => 704643080 + d.toNat * 262144 + a.toNat * 4096 + b.toNat * 64
  | .kval d a b => 704643081 + d.toNat * 262144 + a.toNat * 4096 + b.toNat * 64
  | .kmarg d a b => 704643082 + d.toNat * 262144 + a.toNat * 4096 + b.toNat * 64
  | .kpfx d a b => 704643083 + d.toNat * 262144 + a.toNat * 4096 + b.toNat * 64
  | .kins d a b => 704643084 + d.toNat * 262144 + a.toNat * 4096 + b.toNat * 64
  | .ktent d a => 704643085 + d.toNat * 262144 + a.toNat * 4096
  | .kdropt d => 704643086 + d.toNat * 262144
  | .kseq d a => 704643087 + d.toNat * 262144 + a.toNat * 4096
  | .kseqWt a b => 704643088 + a.toNat * 4096 + b.toNat * 64
  | .ccomm d a => 771751936 + d.toNat * 262144 + a.toNat * 4096
  | .ctt a b => 771751937 + a.toNat * 4096 + b.toNat * 64
  | .crdy a => 771751938 + a.toNat * 4096
  | .cpost d a => 771751939 + d.toNat * 262144 + a.toNat * 4096
  | .cpoll d a b => 771751940 + d.toNat * 262144 + a.toNat * 4096 + b.toNat * 64
  | .cwaitf a b => 771751941 + a.toNat * 4096 + b.toNat * 64
  | .cbar d => 771751942 + d.toNat * 262144
  | .cstat d a => 771751943 + d.toNat * 262144 + a.toNat * 4096
  | .cclose d => 771751944 + d.toNat * 262144
  | .cseq d a => 771751945 + d.toNat * 262144 + a.toNat * 4096
  | .cseqWt a b => 771751946 + a.toNat * 4096 + b.toNat * 64
  | .carb d a => 788529152 + d.toNat * 262144 + a.toNat * 4096
  | .trap c => 838860800 + c.toNat * 64
  | .sysc c => 838860801 + c.toNat * 64
  | .mfk d a => 838860802 + d.toNat * 262144 + a.toNat * 4096
  | .mtk d a => 838860803 + d.toNat * 262144 + a.toNat * 4096
  | .sleep a => 838860804 + a.toNat * 4096
  | .rett => 855638016
  | .halt => 855638017
  | .repart d a => 855638018 + d.toNat * 262144 + a.toNat * 4096
  | .pgmig d a b => 872415232 + d.toNat * 262144 + a.toNat * 4096 + b.toNat * 64
  | .pgheat d a b => 872415233 + d.toNat * 262144 + a.toNat * 4096 + b.toNat * 64
  | .rowret d a => 872415234 + d.toNat * 262144 + a.toNat * 4096
  | .shoot a b => 872415235 + a.toNat * 4096 + b.toNat * 64
  | .pgref d a b => 872415236 + d.toNat * 262144 + a.toNat * 4096 + b.toNat * 64
  | .plbw d a b => 872415237 + d.toNat * 262144 + a.toNat * 4096 + b.toNat * 64
  | .domset d a b => 872415238 + d.toNat * 262144 + a.toNat * 4096 + b.toNat * 64
  | .irq a b => 889192448 + a.toNat * 4096 + b.toNat * 64
  | .dreset d a => 889192449 + d.toNat * 262144 + a.toNat * 4096
  | .qosp d a => 889192450 + d.toNat * 262144 + a.toNat * 4096
  | .add d a b e => 1073741824 + d.toNat * 262144 + a.toNat * 4096 + b.toNat * 64 + e.toNat * 32
  | .sub d a b e => 1073741825 + d.toNat * 262144 + a.toNat * 4096 + b.toNat * 64 + e.toNat * 32
  | .mul d a b e => 1073741826 + d.toNat * 262144 + a.toNat * 4096 + b.toNat * 64 + e.toNat * 32
  | .mulh d a b e => 1073741827 + d.toNat * 262144 + a.toNat * 4096 + b.toNat * 64 + e.toNat * 32
  | .mulhn d a b e => 1073741828 + d.toNat * 262144 + a.toNat * 4096 + b.toNat * 64 + e.toNat * 32
  | .div d a b e => 1073741829 + d.toNat * 262144 + a.toNat * 4096 + b.toNat * 64 + e.toNat * 32
  | .divn d a b e => 1073741830 + d.toNat * 262144 + a.toNat * 4096 + b.toNat * 64 + e.toNat * 32
  | .rem d a b e => 1073741831 + d.toNat * 262144 + a.toNat * 4096 + b.toNat * 64 + e.toNat * 32
  | .remn d a b e => 1073741832 + d.toNat * 262144 + a.toNat * 4096 + b.toNat * 64 + e.toNat * 32
  | .and d a b e => 1073741833 + d.toNat * 262144 + a.toNat * 4096 + b.toNat * 64 + e.toNat * 32
  | .or d a b e => 1073741834 + d.toNat * 262144 + a.toNat * 4096 + b.toNat * 64 + e.toNat * 32
  | .xor d a b e => 1073741835 + d.toNat * 262144 + a.toNat * 4096 + b.toNat * 64 + e.toNat * 32
  | .andn d a b e => 1073741836 + d.toNat * 262144 + a.toNat * 4096 + b.toNat * 64 + e.toNat * 32
  | .shl d a b e => 1073741837 + d.toNat * 262144 + a.toNat * 4096 + b.toNat * 64 + e.toNat * 32
  | .shr d a b e => 1073741838 + d.toNat * 262144 + a.toNat * 4096 + b.toNat * 64 + e.toNat * 32
  | .sra d a b e => 1073741839 + d.toNat * 262144 + a.toNat * 4096 + b.toNat * 64 + e.toNat * 32
  | .rot d a b e => 1073741840 + d.toNat * 262144 + a.toNat * 4096 + b.toNat * 64 + e.toNat * 32
  | .min d a b e => 1073741841 + d.toNat * 262144 + a.toNat * 4096 + b.toNat * 64 + e.toNat * 32
  | .max d a b e => 1073741842 + d.toNat * 262144 + a.toNat * 4096 + b.toNat * 64 + e.toNat * 32
  | .minn d a b e => 1073741843 + d.toNat * 262144 + a.toNat * 4096 + b.toNat * 64 + e.toNat * 32
  | .maxn d a b e => 1073741844 + d.toNat * 262144 + a.toNat * 4096 + b.toNat * 64 + e.toNat * 32
  | .sel d a b e => 1073741845 + d.toNat * 262144 + a.toNat * 4096 + b.toNat * 64 + e.toNat * 32
  | .clz d a e => 1073741846 + d.toNat * 262144 + a.toNat * 4096 + e.toNat * 32
  | .ctz d a e => 1073741847 + d.toNat * 262144 + a.toNat * 4096 + e.toNat * 32
  | .popc d a e => 1073741848 + d.toNat * 262144 + a.toNat * 4096 + e.toNat * 32
  | .bswap d a e => 1073741849 + d.toNat * 262144 + a.toNat * 4096 + e.toNat * 32
  | .cmp d a b c => 1090519040 + d.toNat * 262144 + a.toNat * 4096 + b.toNat * 64 + c.toNat
  | .addImm d a i => 1107296256 + d.toNat * 262144 + a.toNat * 4096 + i.toNat
  | .mulImm d a i => 1124073472 + d.toNat * 262144 + a.toNat * 4096 + i.toNat
  | .andImm d a i => 1140850688 + d.toNat * 262144 + a.toNat * 4096 + i.toNat
  | .orImm d a i => 1157627904 + d.toNat * 262144 + a.toNat * 4096 + i.toNat
  | .xorImm d a i => 1174405120 + d.toNat * 262144 + a.toNat * 4096 + i.toNat
  | .minImm d a i => 1191182336 + d.toNat * 262144 + a.toNat * 4096 + i.toNat
  | .maxImm d a i => 1191183360 + d.toNat * 262144 + a.toNat * 4096 + i.toNat
  | .minnImm d a i => 1191184384 + d.toNat * 262144 + a.toNat * 4096 + i.toNat
  | .maxnImm d a i => 1191185408 + d.toNat * 262144 + a.toNat * 4096 + i.toNat
  | .shlImm d a s => 1207959552 + d.toNat * 262144 + a.toNat * 4096 + s.toNat
  | .shrImm d a s => 1207959616 + d.toNat * 262144 + a.toNat * 4096 + s.toNat
  | .sraImm d a s => 1207959680 + d.toNat * 262144 + a.toNat * 4096 + s.toNat
  | .rotImm d a s => 1207959744 + d.toNat * 262144 + a.toNat * 4096 + s.toNat
  | .bfx d a p w => 1224736768 + d.toNat * 262144 + a.toNat * 4096 + p.toNat * 64 + w.toNat
  | .bfi d a p w => 1241513984 + d.toNat * 262144 + a.toNat * 4096 + p.toNat * 64 + w.toNat
  | .cmpImm d a c i => 1258291200 + d.toNat * 262144 + a.toNat * 4096 + c.toNat * 256 + i.toNat
  | .fadd d a b r => 1342177280 + d.toNat * 262144 + a.toNat * 4096 + b.toNat * 64 + r.toNat
  | .fsub d a b r => 1342177288 + d.toNat * 262144 + a.toNat * 4096 + b.toNat * 64 + r.toNat
  | .fmul d a b r => 1342177296 + d.toNat * 262144 + a.toNat * 4096 + b.toNat * 64 + r.toNat
  | .fmin d a b => 1342177304 + d.toNat * 262144 + a.toNat * 4096 + b.toNat * 64
  | .fmax d a b => 1342177312 + d.toNat * 262144 + a.toNat * 4096 + b.toNat * 64
  | .ffma d a b r => 1358954496 + d.toNat * 262144 + a.toNat * 4096 + b.toNat * 64 + r.toNat
  | .fcmp d a b c => 1375731712 + d.toNat * 262144 + a.toNat * 4096 + b.toNat * 64 + c.toNat
  | .fcvt d a r t s => 1392508928 + d.toNat * 262144 + a.toNat * 4096 + r.toNat * 64 + t.toNat * 8 + s.toNat
  | .vadd h a b m r t => 1409286144 + h.toNat * 1048576 + a.toNat * 65536 + b.toNat * 4096 + m.toNat * 512 + r.toNat * 64 + t.toNat
  | .vsub h a b m r t => 1426063360 + h.toNat * 1048576 + a.toNat * 65536 + b.toNat * 4096 + m.toNat * 512 + r.toNat * 64 + t.toNat
  | .vmul h a b m r t => 1442840576 + h.toNat * 1048576 + a.toNat * 65536 + b.toNat * 4096 + m.toNat * 512 + r.toNat * 64 + t.toNat
  | .vfma h a b m r t => 1459617792 + h.toNat * 1048576 + a.toNat * 65536 + b.toNat * 4096 + m.toNat * 512 + r.toNat * 64 + t.toNat
  | .vmin h a b m t => 1476395008 + h.toNat * 1048576 + a.toNat * 65536 + b.toNat * 4096 + m.toNat * 512 + t.toNat
  | .vmax h a b m t => 1493172224 + h.toNat * 1048576 + a.toNat * 65536 + b.toNat * 4096 + m.toNat * 512 + t.toNat
  | .vabs h a m t => 1509949440 + h.toNat * 1048576 + a.toNat * 65536 + m.toNat * 512 + t.toNat
  | .vneg h a m t => 1526726656 + h.toNat * 1048576 + a.toNat * 65536 + m.toNat * 512 + t.toNat
  | .vand h a b m t => 1543503872 + h.toNat * 1048576 + a.toNat * 65536 + b.toNat * 4096 + m.toNat * 512 + t.toNat
  | .vor h a b m t => 1560281088 + h.toNat * 1048576 + a.toNat * 65536 + b.toNat * 4096 + m.toNat * 512 + t.toNat
  | .vxor h a b m t => 1577058304 + h.toNat * 1048576 + a.toNat * 65536 + b.toNat * 4096 + m.toNat * 512 + t.toNat
  | .vshl h a b m t => 1593835520 + h.toNat * 1048576 + a.toNat * 65536 + b.toNat * 4096 + m.toNat * 512 + t.toNat
  | .vshr h a b m t => 1610612736 + h.toNat * 1048576 + a.toNat * 65536 + b.toNat * 4096 + m.toNat * 512 + t.toNat
  | .vcmp h a b m c t => 1627389952 + h.toNat * 1048576 + a.toNat * 65536 + b.toNat * 4096 + m.toNat * 512 + c.toNat * 64 + t.toNat
  | .vsel h a b k t => 1644167168 + h.toNat * 1048576 + a.toNat * 65536 + b.toNat * 4096 + k.toNat * 512 + t.toNat
  | .vcvt h a s m v t => 1660944384 + h.toNat * 1048576 + a.toNat * 65536 + s.toNat * 4096 + m.toNat * 512 + v.toNat * 64 + t.toNat
  | .vcvtHi h a s m v t => 1677721600 + h.toNat * 1048576 + a.toNat * 65536 + s.toNat * 4096 + m.toNat * 512 + v.toNat * 64 + t.toNat
  | .vbcast h a m t => 1694498816 + h.toNat * 1048576 + a.toNat * 16384 + m.toNat * 512 + t.toNat
  | .viota h m t => 1711276032 + h.toNat * 1048576 + m.toNat * 512 + t.toNat
  | .vredAdd h a m t => 1728053248 + h.toNat * 1048576 + a.toNat * 65536 + m.toNat * 512 + t.toNat
  | .vredMax h a m t => 1728053312 + h.toNat * 1048576 + a.toNat * 65536 + m.toNat * 512 + t.toNat
  | .vredMin h a m t => 1728053376 + h.toNat * 1048576 + a.toNat * 65536 + m.toNat * 512 + t.toNat
  | .vscanInc h a k t => 1744830464 + h.toNat * 1048576 + a.toNat * 65536 + k.toNat * 512 + t.toNat
  | .vscanMaxinc h a k t => 1744830528 + h.toNat * 1048576 + a.toNat * 65536 + k.toNat * 512 + t.toNat
  | .vscanMininc h a k t => 1744830592 + h.toNat * 1048576 + a.toNat * 65536 + k.toNat * 512 + t.toNat
  | .vscanExc h a k t => 1744830656 + h.toNat * 1048576 + a.toNat * 65536 + k.toNat * 512 + t.toNat
  | .vscanMaxexc h a k t => 1744830720 + h.toNat * 1048576 + a.toNat * 65536 + k.toNat * 512 + t.toNat
  | .vscanMinexc h a k t => 1744830784 + h.toNat * 1048576 + a.toNat * 65536 + k.toNat * 512 + t.toNat
  | .vrcp h a m t => 1879048192 + h.toNat * 1048576 + a.toNat * 65536 + m.toNat * 512 + t.toNat
  | .vrsq h a m t => 1879048256 + h.toNat * 1048576 + a.toNat * 65536 + m.toNat * 512 + t.toNat
  | .vsqrt h a m t => 1879048320 + h.toNat * 1048576 + a.toNat * 65536 + m.toNat * 512 + t.toNat
  | .vexp h a m t => 1879048384 + h.toNat * 1048576 + a.toNat * 65536 + m.toNat * 512 + t.toNat
  | .vexp2 h a m t => 1879048448 + h.toNat * 1048576 + a.toNat * 65536 + m.toNat * 512 + t.toNat
  | .vlog h a m t => 1879048512 + h.toNat * 1048576 + a.toNat * 65536 + m.toNat * 512 + t.toNat
  | .vlog2 h a m t => 1879048576 + h.toNat * 1048576 + a.toNat * 65536 + m.toNat * 512 + t.toNat
  | .vtanh h a m t => 1879048640 + h.toNat * 1048576 + a.toNat * 65536 + m.toNat * 512 + t.toNat
  | .vshape h a => 1895825408 + h.toNat * 1048576 + a.toNat * 16384
  | .vloop k a => 1912602624 + k.toNat * 1048576 + a.toNat * 16384
  | .vsync => 1929379840
  | .vtbl => 1946157056
  | .lim d _ => 1291845632 + d.toNat * 262144
  | .lih d _ => 1308622848 + d.toNat * 262144
  | _ => 0

/-- The literal that follows a long instruction (03 R57). -/
def literalOf : Instr → Nat
  | .lim _ v => v.toNat
  | .lih _ v => v.toNat
  | _ => 0

/-- The words of an instruction that stands alone: L = 1, and the literal of a long instruction. -/
def encode (i : Instr) : List Nat :=
  if i.isEvent then [] else (encodeNat i + 2147483648) :: (if i.isLong then [literalOf i] else [])

/-! ### Bundles -/

/-- What stands at a program counter (03 R54): a lone word, a pair, or an illegal bundle with the word that R56 names. -/
inductive Bundle where
  | lone (i : Instr) (w : Nat) (len : Nat)
  | pair (c a : Option Instr) (wc wa : Nat)
  | ill (w : Nat) (second : Bool)
  deriving DecidableEq, Repr

/-- A word of a pair decoded on its own; a long instruction is none (03 R57). -/
noncomputable def decodeOne (w : Nat) : Option Instr :=
  match decodeWord w 0 with
  | .ok i => if i.isLong then none else some i
  | .error _ => none

/-- The bundle at an address: `at4` when the address is 4 mod 8, the word there and the word after it (03 R54, R56,
R57). The words of a pair are decoded, and left to be reported in R56's order. -/
noncomputable def bundleAt (at4 : Bool) (w0 w1 : Nat) : Bundle :=
  if w0 / 2147483648 % 2 = 1 then
    match decodeWord w0 w1 with
    | .error _ => .ill w0 false
    | .ok i => if i.isLong then (if at4 then .ill w0 false else .lone i w0 8) else .lone i w0 4
  else if at4 then .ill w0 false
  else if w0 / 1073741824 % 2 = 1 then .ill w0 false
  else if w1 / 2147483648 % 2 = 1 ∨ w1 / 1073741824 % 2 = 0 then
    .ill w1 true
  else
    .pair (decodeOne w0) (decodeOne w1) w0 w1

end Sys2Proof
end

