-- ==== Sys2Proof/Machine/Fetch.lean ====
section
/-! DEFINITION. The rotation, the fetch of a bundle and the pair rule (07 R164, 03 R54 to R57, 20 R429, R431). -/
namespace Sys2Proof.Machine

/-! ### The rotation (07 R164) -/

/-- The context may issue in cycle `t`: ready, its last issue 8 or more cycles ago, and not about to be pre-empted (07
R164, R174). -/
def mayIssue (k : Core) (t x : Nat) : Bool :=
  let c := k.ctxAt x
  c.st == .ready &&
    (match c.lastIssue with
      | none => true
      | some l => decide (l + 8 ≤ t)) &&
    !(k.kplive.getLsbD x && !c.packetOpen)

/-- Cycles from `t` to the next own cycle of context `x`, at least 1. -/
def toOwn (k : Core) (t x : Nat) : Nat :=
  let n := k.nctx
  (x + n - (t - k.began) % n + n - 1) % n + 1

/-- The older of two contexts by their last issue; the first on a tie. -/
def olderOf (k : Core) (a b : Nat) : Nat :=
  match (k.ctxAt a).lastIssue, (k.ctxAt b).lastIssue with
  | none, _ => a
  | some _, none => b
  | some i, some j => if i ≤ j then a else b

/-- The context that issues on a core in cycle `t` (07 R164); none in the cycle in which a REPART has switched the core, for the
new rotation begins with the next (log 28). -/
def pickCtx (k : Core) (t : Nat) : Option Nat :=
  let owner := (t - k.began) % k.nctx
  if t < k.began then none
  else if mayIssue k t owner then some owner
  else
    match (upTo k.nctx).filter (fun x => mayIssue k t x && decide (8 ≤ toOwn k t x)) with
    | [] => none
    | x :: r => some (r.foldl (olderOf k) x)

/-! ### Fetch -/

/-- The value of `n` instruction bytes at the PC: local memory under R200 step 2, global memory with execute rights
(20 R429, R431). -/
def fetchLe (pc n : Nat) (s : State) : Run (Nat × State) := do
  if pc % 4 ≠ 0 then misaligned pc
  else if isLocal pc then
    let b ← localRead pc n s
    pure (ofBytes b, s)
  else if !isGlobal pc then prot pc
  else
    let (e, s) ← held (plbLook s.focus.core s.kdom (segOf pc) s)
    if !granted (rightsBits e.rights.toNat) needX then prot pc
    else
      let (pa, s) ← globalPlace e .read pc s
      pure (memLe s.mem pa n, s)

/-- Fetch and decode the bundle at the PC (03 R54). -/
noncomputable def fetchBundle (s : State) : Run (Bundle × State) := do
  let pc := s.focus.pc.toNat
  if pc % 8 = 0 then
    let (v, s) ← fetchLe pc 8 s
    pure (bundleAt false (v % 2 ^ 32) (v / 2 ^ 32), s)
  else
    let (v, s) ← fetchLe pc 4 s
    pure (bundleAt true v 0, s)

/-- The state in which a word executes: focus on the bundle and its word, the PC already at the next bundle. -/
def atWord (s : State) (len w : Nat) (second : Bool) : State :=
  let pc := s.focus.pc
  let s := { s with focus := { s.focus with next := pc + wd len, word := BitVec.ofNat 32 w, second := second } }
  s.setPc (pc + wd len)

/-! ### Pairs (03 R54 to R59) -/

/-- The registers a word writes. -/
def destsOf (i : Instr) : List Nat :=
  i.uses.filterMap (fun u => match u with
    | .dst f => some f
    | .gen f => some f
    | .src _ => none)

/-- The two words name one register as a destination: a general register (02 R40), or a send port, which a pair may send on
once (R59; log 57). -/
def sameDest (c a : Instr) : Bool :=
  (destsOf c).any (fun d => (decide (d ≤ 55) || d == 58 || d == 59) && (destsOf a).contains d)

/-- The class-A word of a pair is illegal: undefined, illegal for the context, or in conflict with the class-C word (R40,
R59). Two words that name a receive port twice are the class-A word's conflict (log 57). -/
def pairIllegal (s : State) (c : Instr) : Option Instr → Bool
  | none => true
  | some a => !legal s a || sameDest c a || !portsOnce (c.uses ++ a.uses)

/-- The sources of a pair, taken before either word writes (02 R40). A control register that a word uses without naming it, such as
kfpe, kseed, kscnt or kstat, is no named source: the class-A word finds it as the class-C word leaves it (log 72). -/
def pinOf (s : State) : Option Pin := some ⟨s.cur.g, s.cur.m, s.cur.rx0.units.head?⟩

/-- How a step's answer ended. -/
def endingOf : Host.Outcome State Fault Refusal → Option Ending
  | .next t => some t.last
  | _ => none

/-- Stop a pair as one of its words stops on its own: the whole bundle is undone (03 R55), and what the accesses of both words have
left in caches, in `u`, stays. -/
def undo (s u : State) (st : Stop) : Host.Outcome State Fault Refusal := finish (s.seenAs u) (.error st)

/-- Give up the pin after a pair. -/
def unpin (t : State) : State := { t with pin := none }

/-- A pair whose class-C word goes first: the class-A word's effect joins it only when both succeed (03 R55). A class-C word
that waits or is dropped stops the pair before any trap of the class-A word (log 57). `ex` is the meaning of a word. -/
def pairCFirst (ex : Instr → State → Host.Outcome State Fault Refusal) (c a : Instr) (wc wa : Nat) (s : State) :
    Host.Outcome State Fault Refusal :=
  let sc := atWord s 8 wc false
  let sa (t : State) : State :=
    { t with focus := { t.focus with word := BitVec.ofNat 32 wa, second := true }, pin := pinOf s }
  match ex c sc with
  | .next t =>
    match t.last with
    | .stopped _ => .next t
    | .done =>
      match ex a (sa t) with
      | .next u => match u.last with
        | .stopped st => undo (atWord s 8 wa true) u st
        | _ => .next (unpin u)
      | o => o
    | .held =>
      match ex a (sa t) with
      | .next u => match u.last with
        | .stopped st => undo (atWord s 8 wa true) u st
        | _ => .next t
      | o => o
  | o => o

/-- A pair whose class-C word ends the continuation: the class-A word's results belong to what is saved, so it goes
first; the class-C word's own stop is still the one reported (03 R55; log 12). -/
def pairAFirst (ex : Instr → State → Host.Outcome State Fault Refusal) (c a : Instr) (wc wa : Nat) (s : State) :
    Host.Outcome State Fault Refusal :=
  match ex a (atWord s 8 wa true) with
  | .next t =>
    match t.last with
    | .stopped st =>
      match ex c (atWord (s.seenAs t) 8 wc false) with
      | .next u => match u.last with
        | .stopped _ => .next u
        | _ => undo (atWord s 8 wa true) u st
      | o => o
    | _ =>
      match ex c { t with focus := { t.focus with word := BitVec.ofNat 32 wc, second := false }, pin := pinOf s } with
      | .next u => match u.last with
        | .stopped st => undo (atWord s 8 wc false) u st
        | _ => .next (unpin u)
      | o => o
  | o => o

/-- The step that ends a bundle in an ILL of one of its words. -/
def illAt (s : State) (len w : Nat) (second : Bool) : Host.Outcome State Fault Refusal :=
  let t := atWord s len w second
  finish t (ill t)

/-- A pair whose class-A word is illegal: that word is reported, unless the class-C word traps on its own (R55, R56; log
10). -/
def pairBadA (ex : Instr → State → Host.Outcome State Fault Refusal) (c : Instr) (wc wa : Nat) (s : State) :
    Host.Outcome State Fault Refusal :=
  match ex c (atWord s 8 wc false) with
  | .next u => match u.last with
    | .stopped (.trap ..) => .next u
    | .stopped (.flags _) => .next u
    | _ => illAt s 8 wa true
  | o => o

/-- Run a bundle with the meaning `ex` of words. -/
def runBundle (ex : Instr → State → Host.Outcome State Fault Refusal) (s : State) :
    Bundle → Host.Outcome State Fault Refusal
  | .ill w second => illAt s 4 w second
  | .lone i w len => ex i (atWord s len w false)
  | .pair none _ wc _ => illAt s 8 wc false
  | .pair (some c) a wc wa =>
    if !legal s c then illAt s 8 wc false
    else if pairIllegal s c a then pairBadA ex c wc wa s
    else match a with
      | none => illAt s 8 wa true
      | some a => if c.leaves then pairAFirst ex c a wc wa s else pairCFirst ex c a wc wa s

/-! ### The issue of a context -/

/-- Focus on context `x` of core `c` at its PC. -/
def focusOn (s : State) (c x : Nat) : State :=
  let pc := (s.ctxAt c x).pc
  { s with focus := ⟨c, x, pc, pc + 4, 0, false⟩, pin := none }

/-- The issue slot a context takes: its last issue and its domain's budget (07 R164, 06 R160). -/
def chargeIssue (s : State) : State :=
  (s.setCur { s.cur with lastIssue := some s.cycle }).spend s.kdom 0 s.focus.core 1

/-- Run the bundle at the PC of the context in focus, or its pending reload trap (07 R176). -/
noncomputable def runAtPc (ex : Instr → State → Host.Outcome State Fault Refusal) (s : State) :
    Host.Outcome State Fault Refusal :=
  match s.cur.reloadTrap with
  | some (cause, info) => finish (s.setCur { s.cur with reloadTrap := none }) (.error (.trap cause info))
  | none =>
    match (fetchBundle s).ans with
    | .error st => finish (s.seeing (fetchBundle s).left) (.error st)
    | .ok (b, s) => runBundle ex s b

/-- Issue a bundle of context `x` of core `c`: it takes a slot. -/
noncomputable def issueCtx (ex : Instr → State → Host.Outcome State Fault Refusal) (c x : Nat) (s : State) :
    Host.Outcome State Fault Refusal :=
  runAtPc ex (chargeIssue (focusOn s c x))

/-- The context's operation makes its changes now that its wait is over (R166). -/
def CtxState.isCompleting : CtxState → Bool
  | .completing _ => true
  | _ => false

/-- A context whose operation has made its changes is in state 1 (R163, R166). -/
def State.completed (s : State) (c x : Nat) : State :=
  if (s.ctxAt c x).st.isCompleting then s.setCtx c x { s.ctxAt c x with st := .ready } else s

/-- Complete the operation of context `x` of core `c`: it issued before, and takes no slot. -/
noncomputable def completeCtx (ex : Instr → State → Host.Outcome State Fault Refusal) (c x : Nat) (s : State) :
    Host.Outcome State Fault Refusal :=
  match runAtPc ex (focusOn s c x) with
  | .next t => .next (t.completed c x)
  | o => o

/-- A ready context of a core whose domain has used its issue slots leaves the rotation (06 R161). -/
def spentReady (s : State) (c : Nat) (x : Ctx) : Bool := x.st == .ready && (s.budget x.kdom.toNat 0 c).spent

/-- The ready contexts whose issue slots are used leave the rotation, so that their cycles are shared (06 R161, R164). -/
def State.holdSpent (s : State) (c : Nat) : State :=
  let k := s.coreAt c
  if k.ctxs.any (fun p => spentReady s c p.2) then
    s.setCore c { k with ctxs := k.ctxs.map (fun p => if spentReady s c p.2 then (p.1, { p.2 with st := .budgetHeld }) else p) }
  else s

/-- The first context of a core whose operation completes. Of two that wait for one full bit, the one whose MEMORY_REPLY has come is
served, the lowest where it has come for both (log 87). -/
def Core.completer (k : Core) : Option Nat := (upTo k.nctx).find? (fun x => (k.ctxAt x).st.isCompleting)

/-- The turn of core `turn` in its cycle: operations whose waits are over complete, one a step, and then it issues at most
one bundle (07 R164, R166); a gated core issues none (21 R463). -/
noncomputable def turnStep (ex : Instr → State → Host.Outcome State Fault Refusal) (s : State) :
    Host.Outcome State Fault Refusal :=
  let c := s.turn
  let t := { s with turn := c + 1 }
  if (s.coreAt c).gated then .next { t with last := .done }
  else match (s.coreAt c).completer with
    | some x => completeCtx ex c x s
    | none =>
      match pickCtx ((t.holdSpent c).coreAt c) s.cycle with
      | some x => issueCtx ex c x (t.holdSpent c)
      | none => .next { t.holdSpent c with last := .done }

/-! ### Between cycles -/

/-- A hardware or host step that comes about on its own, at no time that the spec sets. The two steps of kpreq come about
inside MTK (07 R174, R176); the timed steps when they are due. -/
def onAgenda : Instr → Bool
  | .kpreqSet .. | .kpreqClear .. | .reuseCountHalving .. | .heatPeriodHalving | .budgetPeriodStart .. => false
  | i => i.isEvent

/-- How many multiples of a period of `p` nanoseconds lie above `a` and not above `b`. -/
def periodsIn (p a b : Nat) : Nat := if p = 0 then 0 else b / p - a / p

/-- The activities whose next period has begun (06 R161). -/
noncomputable def duePeriods (s : State) : List Instr :=
  (s.budgets.filter (fun p => decide (p.2.index < s.ktime.toNat / (1000 * p.2.period)))).map
    (fun p => .budgetPeriodStart (p.1 / 65536) (p.1 / 8192 % 8) (p.1 % 8192))

/-- The halvings that fall due as ktime passes from `a` to `b`: reuse counts every 16 microseconds, heat at the heat period
(10 R277, 20 R440). A count is 0 after as many halvings as it has bits. -/
noncomputable def dueHalvings (s : State) (a b : Nat) : List Instr :=
  (List.replicate (min 8 (periodsIn 16000 a b)) (s.squares.map (fun p => Instr.reuseCountHalving p.1))).flatten ++
    List.replicate (min 16 (periodsIn (1000 * s.pkg.heat) a b)) Instr.heatPeriodHalving

/-- The dispatcher's look at every idle context, while a deque holds an entry (06 R146, R148): the context takes an entry of its own
core, else it steals one, and then takes that. -/
noncomputable def dueDispatch (s : State) : List Instr :=
  if !s.sweeps || s.cores.all (fun p => p.2.deque.isEmpty) then []
  else ((upTo 1024).map (fun c =>
    (((upTo (s.coreAt c).nctx).filter (fun x => ((s.coreAt c).ctxAt x).st == .idle)).map (fun x =>
      [Instr.dispatchTask c x, .dispatchContinuation c x, .stealRequest c x, .dispatchTask c x,
        .dispatchContinuation c x])).flatten)).flatten

/-- The sleeps whose deadline ktime has reached (08 R227). -/
noncomputable def dueSleeps (s : State) : List Instr :=
  (s.cores.map (fun p => p.2.ctxs.filterMap (fun q => match q.2.st with
    | .sleeping d => if d ≠ 0 ∧ d.toNat ≤ s.ktime.toNat then some (Instr.sleepDeadline p.1 q.1) else none
    | _ => none))).flatten

/-- The vector sequencer of a core that holds entries ends the one it executes and begins the next, at the latest when the
dispatcher looks at every core: every pending entry that is not held begins in the end (12 R289; log 6). -/
noncomputable def dueVector (s : State) : List Instr :=
  if s.sweeps then
    ((s.cores.filter (fun p => p.2.ctxs.any (fun q => !q.2.vq.isEmpty))).map (fun p =>
      [Instr.vectorEntryComplete p.1, .vectorEntryBegin p.1])).flatten
  else []

/-- A unit from another package reaches the collective engine of its square, where the square is ready (17 R414, 01 R27). -/
def State.linkArrive (s : State) (u : LinkUnit) : State :=
  if u.square < 128 && s.squareReady u.square && u.msg.package != s.package.toNat then
    let k := s.sqAt u.square
    s.setSq u.square { k with cin := k.cin ++ [u.msg] }
  else s

/-- The end of a cycle: units leave for other packages and come from them, the host's configuration writes land, what the
hardware retries is tried again, time passes, and the next hardware steps are known (log 2). -/
noncomputable def nextCycle (s : State) : State :=
  let a := s.ktime.toNat
  let n := s.freeCtr
  let s := (Config.linkIn n).foldl State.linkArrive { s with linkOut := [] }
  let s := ((Config.hostConfig n).foldl writeCapability s).retryHw
  let s := { s with
    turn := 0
    cycle := s.cycle + 1
    ktime := s.ktime + wd (Config.ktimeStep n)
    freeCtr := s.freeCtr + 1 }
  { s with agenda := duePeriods s ++ dueHalvings s a s.ktime.toNat ++ dueSleeps s ++ dueDispatch s ++ dueVector s ++ (Config.hwMoves n).filter onAgenda }

/-! ### The table's words in memory -/

/-- The local address where withFetchWord places its bundle (log 4). -/
def fetchHome : Nat := 0x8000

/-- The two words of the bundle that runs a table word: a pair with ADD gz, gz, gz for a class-C word with L = 0, a
pair with NOP for a class-A word with L = 0, the word itself otherwise. -/
def tableBundle (w : Nat) : Nat :=
  let w0 := w % 2 ^ 32
  let w1 := w / 2 ^ 32 % 2 ^ 32
  if w0 / 2147483648 % 2 = 1 then w0 + w1 * 2 ^ 32
  else if w0 / 1073741824 % 2 = 0 then w0 + 0x40FBEF80 * 2 ^ 32
  else 0x06000000 + w0 * 2 ^ 32

/-- Context 0 of core 0 ready at a bundle in its local memory, its turn next (log 4). -/
def placeBundle (s : State) (w : Nat) : State :=
  let s := s.localPut 0 fetchHome (leBytes 8 (tableBundle w))
  let s := s.setCtx 0 0 { s.ctxAt 0 0 with pc := localAddr fetchHome, st := .ready, lastIssue := none, reloadTrap := none }
  { s with agenda := [], turn := 0 }

end Sys2Proof.Machine
end

