-- ==== Sys2Proof/Machine/LoadStore.lean ====
section
/-! DEFINITION. The meanings of the memory words: loads, stores, bit fields, full bits, lines, push stores, atomics,
releases and acquires (08 R200 to R210). -/
namespace Sys2Proof.Machine

/-! ### Loads and stores (R201) -/

/-- A load of `n` bytes into a register, extended by `ext`. -/
def loadReg (d a : BitVec 6) (off : Int) (n : Nat) (ext : Nat → Word) (s : State) : Run State := do
  let (x, s) ← readReg a.toNat s
  let (v, s) ← loadV (effAddr x off) n s
  writeReg d.toNat (ext v) s

/-- A store of the low `n` bytes of a register. -/
def storeReg (d a : BitVec 6) (off : Int) (n : Nat) (s : State) : Run State := do
  let (x, v, s) ← readTwo a d s
  storeV (effAddr x off) n v.toNat s

/-- LD.d (R201). -/
def execLdD (d a : BitVec 6) (i : BitVec 12) (s : State) : Host.Outcome State Fault Refusal :=
  guardedRun (.ldD d a i) s (loadReg d a (disp i) 8 wd)

/-- ST.d (R201). -/
def execStD (d a : BitVec 6) (i : BitVec 12) (s : State) : Host.Outcome State Fault Refusal :=
  guardedRun (.stD d a i) s (storeReg d a (disp i) 8)

/-- LD.b, .h, .w and their zero-extending forms (R201): size codes 0 to 2 and 4 to 6. -/
def execLd (d a : BitVec 6) (sz : BitVec 3) (o : BitVec 9) (s : State) : Host.Outcome State Fault Refusal :=
  let n := 2 ^ (sz.toNat % 4)
  guardedRun (.ld d a sz o) s (loadReg d a (disp o) n (if sz.toNat < 4 then sextW (8 * n) else wd))

/-- ST.b, .h, .w (R201). -/
def execSt (d a : BitVec 6) (sz : BitVec 3) (o : BitVec 9) (s : State) : Host.Outcome State Fault Refusal :=
  guardedRun (.st d a sz o) s (storeReg d a (disp o) (2 ^ (sz.toNat % 4)))

/-! ### Bit fields of local memory (R202) -/

/-- The local bytes of bits k to k + w - 1: offset and count. -/
def bitSpan (k w : Nat) : Nat × Nat := (k / 8, (k + w - 1) / 8 + 1 - k / 8)

/-- The checks of LDB and STB; the bit address. -/
def bitCheck (wr : Bool) (x : Word) (w : Nat) (s : State) : Except Stop Nat :=
  let k := x.toNat
  if 2 ^ 22 < k + w then prot k
  else do
    localCheck wr (localAddr (bitSpan k w).1).toNat (bitSpan k w).2 s
    pure k

/-- LDB (R202): the width is the field plus 1. -/
def execLdb (d a : BitVec 6) (sx : BitVec 1) (w : BitVec 5) (s : State) : Host.Outcome State Fault Refusal :=
  guarded (.ldb d a sx w) s (fun s => do
    let n := w.toNat + 1
    let (x, s) ← readReg a.toNat s
    let k ← bitCheck false x n s
    let (b, s) ← localBytes (localAddr (bitSpan k n).1).toNat (bitSpan k n).2 s
    let v := fieldN (ofBytes b) (k % 8) n
    writeReg d.toNat (if sx = 1 then sextW n v else wd v) s)

/-- STB (R202). -/
def execStb (d a : BitVec 6) (w : BitVec 5) (s : State) : Host.Outcome State Fault Refusal :=
  guarded (.stb d a w) s (fun s => do
    let n := w.toNat + 1
    let (x, v, s) ← readTwo a d s
    let k ← bitCheck true x n s
    let (o, m) := bitSpan k n
    let b := leBytes m (putN (memLe s.core.mem o m) (k % 8) n v.toNat)
    pure (s.setCoreCur (s.core.localBits o b (k % 8) n)))

/-! ### LDF (R203) -/

/-- LDF.w (R203): waits for the word's full bit, takes the word and clears the bit: the word stands with its bit, whatever an
entry of the context has yet to order (05 R126), and once it is taken no older word is in reach. R203 asks for a local address before the checks of R200 (log 25). -/
def execLdfW (d a : BitVec 6) (i : BitVec 12) (s : State) : Host.Outcome State Fault Refusal :=
  guarded (.ldfW d a i) s (fun s => do
    let (x, s) ← readReg a.toNat s
    let ea := effAddr x (disp i)
    if !isLocal ea then prot ea
    else if ea % 4 ≠ 0 then misaligned ea
    else
      let b ← localRead ea 4 s
      let w := localOff ea / 4
      if s.core.full.contains w then
        let k := s.core.dropOld (8 * ea) 32
        writeReg d.toNat (sextW 32 (ofBytes b)) (s.setCoreCur { k with full := k.full.filter (· != w) })
      else .error (.wait (.fullBit w)))

/-! ### Lines (R204) -/

/-- The line address of the Line form: bits 6:0 cleared. -/
def lineAddr (x : Word) (o : BitVec 12) : Nat := alignDown (effAddr x (disp o)) 128

/-- The zero flag of a line at its home tile and in every filled stash entry that holds it, whose data is that of the line (10
R273). -/
def State.markZero (s : State) (line paLine : Nat) : State :=
  { s with
    zeroLines := if s.zeroLines.contains paLine then s.zeroLines else paLine :: s.zeroLines
    cores := s.cores.map (fun p => (p.1, { p.2 with stash := p.2.stash.map (fun e =>
      if e.line == line && e.f then { e with d := false, z := true } else e) })) }

/-- The dirty data of the core's own entry for a line is discarded (R204). -/
def State.discard (s : State) (line : Nat) : State :=
  s.setCoreCur { s.core with stash := s.core.stash.map (fun e =>
    if e.line == line && e.dom == s.kdom then { e with d := false } else e) }

/-- Zeros over a whole line, as one store of 128 bytes: at its home tile, and in an entry of the core's stash for it, which it
fills (R204, 05 R135, 10 R272, R273). -/
def zeroLine (ea : Nat) (s : State) : Run State :=
  let b := leBytes 128 0
  if isLocal ea then storeBytes ea b s
  else do
    let (e, s) ← globalGrant .write ea 128 s
    let (pa, s) ← globalPlace e .write ea (s.discard (ea / 128))
    let s := (s.putPhys pa b).stashesWritten (some (s.focus.core, s.kdom)) ea 128
    let s := match s.core.stashFor (ea / 128) s.kdom with
      | some t => if t.f then s else fillEntry s s.focus.core t pa
      | none => s
    pure (s.markZero (ea / 128) (pa / 128))

/-- The issuer's L1 with or without a line. -/
def State.l1Set (s : State) (line : Nat) (held : Bool) : State :=
  let r := s.core.l1.filter (· != line)
  s.setCoreCur { s.core with l1 := if held then line :: r else r }

/-- PF (R204): a fill of the line into L1, or nothing. -/
def execPf (a : BitVec 6) (o : BitVec 12) (s : State) : Host.Outcome State Fault Refusal :=
  guarded (.pf a o) s (fun s => do
    let (x, s) ← readReg a.toNat s
    let ea := lineAddr x o
    if isLocal ea then pure s
    else
      let got : Run State := do
        let (e, t) ← globalGrant .read ea 128 s
        let (_, t) ← globalPlace e .read ea t
        pure (t.l1Set (ea / 128) true)
      match got.ans with
      | .ok t => pure t
      | .error _ => pure (s.seeing got.left))

/-- DISC (R204). -/
def execDisc (a : BitVec 6) (o : BitVec 12) (s : State) : Host.Outcome State Fault Refusal :=
  guardedRun (.disc a o) s (fun s => do
    let (x, s) ← readReg a.toNat s
    let ea := lineAddr x o
    let s ← zeroLine ea s
    pure (if isLocal ea then s else s.l1Set (ea / 128) false))

/-- ZLINE (R204). -/
def execZline (a : BitVec 6) (o : BitVec 12) (s : State) : Host.Outcome State Fault Refusal :=
  guardedRun (.zline a o) s (fun s => do
    let (x, s) ← readReg a.toNat s
    let ea := lineAddr x o
    let s ← zeroLine ea s
    pure (if isLocal ea then s else s.l1Set (ea / 128) true))

/-- A dirty copy of a line in the core's stash goes back to the line's home tile, and level two's to the frame (R204, 10 R272);
a page that is not served takes the data when it can (log 18), for WBK has no visible effect. -/
def State.writeBack (s : State) (line : Nat) : State :=
  let home := s.homeOf (segOf (128 * line))
  let s := s.giveBackAll s.focus.core (fun e => e.line == line && e.dom == s.kdom)
  match home with
  | some q => s.l2Clean (some s.kdom) q line
  | none => s

/-- WBK (R204): read rights, no footprint, and no wait for the page. -/
def execWbk (a : BitVec 6) (o : BitVec 12) (s : State) : Host.Outcome State Fault Refusal :=
  guardedRun (.wbk a o) s (fun s => do
    let (x, s) ← readReg a.toNat s
    let ea := lineAddr x o
    if isLocal ea then (if localOk ea then pure s else prot ea)
    else if !isGlobal ea then prot ea
    else
      let (e, s) ← held (plbLook s.focus.core s.kdom (segOf ea) s)
      if granted (rightsBits e.rights.toNat) needR then pure (s.writeBack (ea / 128)) else prot ea)

/-! ### Push stores (R205 to R207) -/

/-- The targets of a push store in ascending order, without the issuing core (R206). -/
def pushTargets (many : Bool) (x : Word) (me : Nat) : List Nat :=
  (if many then ((upTo 8).filter (fun c => bitW x (8 + c))).map (fun c => bitsW x 6 0 * 8 + c) else [bitsW x 9 0]).filter
    (· != me)

/-- STP and STPM (R206): the store; the copies are installed or refused by later steps of the receivers. -/
def pushStore (many : Bool) (d a b : BitVec 6) (z : BitVec 1) (o : BitVec 4) (s : State) : Run State := do
  let (x, v, t, s) ← readThree a b d s
  let ea := effAddr x (8 * o.toNat : Nat)
  let n := if z = 1 then 8 else 4
  if ea % n ≠ 0 then misaligned ea
  else if isLocal ea then prot ea
  else
    let s ← storeBytes ea (leBytes n v.toNat) s
    pure (s.setCur { s.cur with pushes := s.cur.pushes ++ (pushTargets many t s.focus.core).map (Push.mk (ea / 128)) })

/-- STP (R206). -/
def execStp (d a b : BitVec 6) (z : BitVec 1) (o : BitVec 4) (s : State) : Host.Outcome State Fault Refusal :=
  guardedRun (.stp d a b z o) s (pushStore false d a b z o)

/-- STPM (R206). -/
def execStpm (d a b : BitVec 6) (z : BitVec 1) (o : BitVec 4) (s : State) : Host.Outcome State Fault Refusal :=
  guardedRun (.stpm d a b z o) s (pushStore true d a b z o)

/-- One more refusal, saturating (R206, R207). -/
def bumpRef (kovf : Word) : Word := wd (min (bitsW kovf 31 0 + 1) 0xFFFFFFFF)

/-- The oldest pushed copy of context `x` of core `c` is installed, or refused: its quota is used up, its square is not
ready, or the line is busy there (R206, 05 R132). A refusal is counted in the context's kovf, also while the context is saved and its
reload will set kovf anew (R207; log 77). A core that is gated keeps nothing of an installed line (20 R445; log 49). -/
def installPush (c x : Nat) (busy : Bool) (s : State) : State :=
  let k := s.ctxAt c x
  match k.pushes with
  | [] => s
  | p :: r =>
    let used := sget 0 k.quota p.target
    if decide (32 ≤ used) || !s.squareReady (squareOf p.target) || busy then
      s.setCtx c x { k with pushes := r, kovf := bumpRef k.kovf }
    else
      let s := s.setCtx c x { k with pushes := r, quota := sset k.quota p.target (used + 1) }
      let t := s.coreAt p.target
      if t.gated then s else s.setCore p.target { t with l1 := p.line :: t.l1.filter (· != p.line) }

/-- PUSH_COPY_INSTALL (R206). -/
def execPushCopyInstall (core ctx : Nat) (busy : Bool) (s : State) : Host.Outcome State Fault Refusal :=
  hwStep (decide (core < 1024 ∧ ctx < 16)) s (installPush core ctx busy)

/-! ### Atomics (R208, R209) -/

/-- The new value of an atomic on `n`-bit values (R208). -/
def minSN (n x y : Nat) : Nat := if sextI n x ≤ sextI n y then x else y
/-- Signed maximum. -/
def maxSN (n x y : Nat) : Nat := if sextI n x ≤ sextI n y then y else x

/-- An atomic: a release and an acquire; `f` takes the width in bits, the old value, the operand and g(d) (R208). -/
def atomicOp (f : Nat → Nat → Nat → Nat → Nat) (ext : Nat → Nat → Word) (n : Nat) (d a b : BitVec 5) (o : BitVec 3)
    (s : State) : Run State := do
  let s ← release s
  let x := s.genReg (reg5 a)
  let v := (s.genReg (reg5 b)).toNat % 2 ^ (8 * n)
  let e := (s.genReg (reg5 d)).toNat % 2 ^ (8 * n)
  let (old, s) ← atomicV (effAddr x (8 * o.toNat : Nat)) n (fun old => f (8 * n) old v e % 2 ^ (8 * n)) s
  writeReg (reg5 d) (ext (8 * n) old) s

/-- The width in bytes of an atomic. -/
def atomicBytes (z : BitVec 1) : Nat := if z = 1 then 8 else 4

/-- AADD (R208). -/
def execAadd (z : BitVec 1) (d a b : BitVec 5) (sc o : BitVec 3) (s : State) : Host.Outcome State Fault Refusal :=
  guardedRun (.aadd z d a b sc o) s (atomicOp (fun _ old v _ => old + v) sextW (atomicBytes z) d a b o)

/-- AMIN (R208). -/
def execAmin (z : BitVec 1) (d a b : BitVec 5) (sc o : BitVec 3) (s : State) : Host.Outcome State Fault Refusal :=
  guardedRun (.amin z d a b sc o) s (atomicOp (fun n old v _ => minSN n old v) sextW (atomicBytes z) d a b o)

/-- AMAX (R208). -/
def execAmax (z : BitVec 1) (d a b : BitVec 5) (sc o : BitVec 3) (s : State) : Host.Outcome State Fault Refusal :=
  guardedRun (.amax z d a b sc o) s (atomicOp (fun n old v _ => maxSN n old v) sextW (atomicBytes z) d a b o)

/-- AAND (R208). -/
def execAand (z : BitVec 1) (d a b : BitVec 5) (sc o : BitVec 3) (s : State) : Host.Outcome State Fault Refusal :=
  guardedRun (.aand z d a b sc o) s (atomicOp (fun _ old v _ => old &&& v) sextW (atomicBytes z) d a b o)

/-- AOR (R208). -/
def execAor (z : BitVec 1) (d a b : BitVec 5) (sc o : BitVec 3) (s : State) : Host.Outcome State Fault Refusal :=
  guardedRun (.aor z d a b sc o) s (atomicOp (fun _ old v _ => old ||| v) sextW (atomicBytes z) d a b o)

/-- AXOR (R208). -/
def execAxor (z : BitVec 1) (d a b : BitVec 5) (sc o : BitVec 3) (s : State) : Host.Outcome State Fault Refusal :=
  guardedRun (.axor z d a b sc o) s (atomicOp (fun _ old v _ => old ^^^ v) sextW (atomicBytes z) d a b o)

/-- ASWP (R208). -/
def execAswp (z : BitVec 1) (d a b : BitVec 5) (sc o : BitVec 3) (s : State) : Host.Outcome State Fault Refusal :=
  guardedRun (.aswp z d a b sc o) s (atomicOp (fun _ _ v _ => v) sextW (atomicBytes z) d a b o)

/-- ACAS (R208). -/
def execAcas (z : BitVec 1) (d a b : BitVec 5) (sc o : BitVec 3) (s : State) : Host.Outcome State Fault Refusal :=
  guardedRun (.acas z d a b sc o) s (atomicOp (fun _ old v e => if old = e then v else old) sextW (atomicBytes z) d a b o)

/-- AFADD.w (R209): a float sum at the home tile, with no flags. -/
def execAfadd (d a b : BitVec 5) (sc o : BitVec 3) (s : State) : Host.Outcome State Fault Refusal :=
  guardedRun (.afadd d a b sc o) s
    (atomicOp (fun _ old v _ => rne32 ((f32Val old).add false (f32Val v)).1) (fun _ old => wd old) 4 d a b o)

/-! ### Releases and acquires (R210) -/

/-- The address of the Ordered form: g(a) plus off7 in units of the access size. -/
def orderedAddr (x : Word) (n : Nat) (o : BitVec 7) : Nat := effAddr x ((n * o.toNat : Nat) : Int)

/-- REL (R210). -/
def execRel (d a : BitVec 6) (z : BitVec 1) (sc : BitVec 3) (o : BitVec 7) (s : State) :
    Host.Outcome State Fault Refusal :=
  guardedRun (.rel d a z sc o) s (fun s => do
    let (x, v, s) ← readTwo a d s
    let s ← release s
    storeV (orderedAddr x (atomicBytes z) o) (atomicBytes z) v.toNat s)

/-- ACQ (R210). -/
def execAcq (d a : BitVec 6) (z : BitVec 1) (sc : BitVec 3) (o : BitVec 7) (s : State) :
    Host.Outcome State Fault Refusal :=
  guardedRun (.acq d a z sc o) s (fun s => do
    let (x, s) ← readReg a.toNat s
    let (v, s) ← loadV (orderedAddr x (atomicBytes z) o) (atomicBytes z) s
    writeReg d.toNat (sextW (8 * atomicBytes z) v) s)

end Sys2Proof.Machine
end

