-- ==== Sys2Proof/Machine/Contexts.lean ====
section
/-! DEFINITION. Control registers, pre-emption and the save area, sleep, REPART, and what returns a context to the rotation
(07 R163 to R185, 08 R225 to R227, 12 R313). -/
namespace Sys2Proof.Machine

/-! ### Quiescence (07 R184) -/

/-- A context holds no entry that is pending, executing or parked, and no loop with iterations left (R184). -/
def Ctx.vectorQuiet (x : Ctx) : Bool := x.vq.all (fun e => e.st == .done) && x.vleft == 0

/-- Core `c` is quiescent apart from context `me` (R184). -/
def quiescent (s : State) (c me : Nat) : Bool :=
  let k := s.coreAt c
  let q := s.sqAt (squareOf c)
  (upTo k.nctx).all (fun x => x == me || (k.ctxAt x).st == .idle) && k.ctxs.all (fun p => p.2.vectorQuiet) &&
    (upTo 4).all (fun e => (q.seqno e (c % 8)).completed == (q.seqno e (c % 8)).issued) && k.spill.isEmpty

/-- The pool and stash ranges that kcpool and kmap give fit beside the accumulator window and the save areas (R183). A stash size of
17 to 31 has no meaning and does not fit (log 85). -/
def layoutOk (kcpool kmap : Word) : Bool :=
  let k : Core := { Core.reset with kcpool := kcpool, kmap := kmap }
  let p := k.pool
  let t := k.stashRange
  let ok (r : Nat × Nat) : Bool := r.1 == r.2 || decide (r.2 ≤ 0x6D000)
  bitsW kcpool 63 25 == 0 && bitsW kcpool 15 9 == 0 && bitsW kmap 63 13 == 0 && bitsW kmap 7 5 == 0 &&
    decide (bitsW kmap 12 8 ≤ 16) && ok p && ok t && (p.1 == p.2 || t.1 == t.2 || decide (p.2 ≤ t.1 ∨ t.2 ≤ p.1))

/-! ### The save area (07 R177) -/

/-- Where context `x`'s save area begins in local memory (07 R167). -/
def saveBase (x : Nat) : Nat := 0x6F000 + x * 0x1100

/-- A fibre register's image (10 R278). -/
def Fibre.image (f : Fibre) : List Byte :=
  if f.isOpen then
    leBytes 8 f.cur.toNat ++ leBytes 8 f.val.toNat ++ leBytes 4 f.left ++ leBytes 4 f.coord ++
      leBytes 8 ((if f.stream then 1 else 0) + f.size % 4 * 2 + 8)
  else leBytes 32 0

/-- The fibre register of an image (10 R278). -/
def parseFibre (b : List Byte) : Fibre :=
  let w := leAt b 24 8
  if fieldN w 3 1 = 1 then
    ⟨wd (leAt b 0 8), wd (leAt b 8 8), leAt b 16 4, leAt b 20 4, fieldN w 0 1 == 1, fieldN w 1 2, true⟩
  else Fibre.closed

/-- The copy of a held entry (R177, 12 R313): the word with D and B for L and class, then what it holds. -/
def VEntry.image (e : VEntry) : List Byte :=
  let w := encodeNat e.insn % 2 ^ 30 + (if e.st = .done then 2 ^ 31 else 0) + (if e.body then 2 ^ 30 else 0)
  let at_ (h : Option Shape) : Nat := match h with
    | some h => h.addr
    | none => 0
  let b := match e.insn with
    | .vbcast .. => e.scalar.toNat
    | _ => at_ e.ha
  let c := match e.insn with
    | .vcvt .. | .vcvtHi .. => e.rsCtr.toNat
    | _ => at_ e.hb
  leBytes 4 w ++ leBytes 4 0 ++ leBytes 8 (at_ e.hd) ++ leBytes 8 b ++ leBytes 8 c

/-- A loop runs: an iteration is left, or the last one has entries to run (12 R313). -/
def Ctx.looping (x : Ctx) : Bool := x.vleft != 0 || x.vq.any (fun e => e.body && e.st != .done)

/-- The 0x1100 bytes of a context's save area (R177); `n` is how many general registers it has. -/
def Ctx.image (x : Ctx) (n : Nat) : List Byte :=
  let words (l : List Word) : List Byte := (l.map (fun w => leBytes 8 w.toNat)).flatten
  words ((upTo 56).map (fun i => if i < n then sget 0 x.g i else 0)) ++
    leBytes 8 (x.pc.toNat / 4 * 4 + (if x.sup then 2 else 0)) ++
    words [x.kfpe, x.kscnt, x.kseed, x.kepc, x.kcause, x.kinfo, x.kstat] ++
    leBytes 8 (x.xfa.toNat + x.xfb.toNat * 2 ^ 8 + x.xfo.toNat * 2 ^ 16 + x.vflags.toNat * 2 ^ 32) ++
    words [x.xsa, x.xsb, x.xdt] ++ words ((upTo 4).map (sget 0 x.sq)) ++ words ((upTo 16).map (sget 0 x.h)) ++
    ((upTo 8).map (fun i => leBytes 64 (sget 0 x.m i).toNat)).flatten ++
    ((upTo 8).map (fun i => (sget Fibre.closed x.f i).image)).flatten ++
    ((upTo 8).map (fun i => regionBytes (sget Region.null x.q i))).flatten ++
    ((upTo 16).map (fun i => match x.vq[i]? with
      | some e => e.image
      | none => leBytes 32 0)).flatten ++
    leBytes 8 x.vq.length ++ leBytes 8 (if x.looping then x.vk else 0) ++ leBytes 4 x.vleft ++
    leBytes 4 (bitsW x.kovf 31 0) ++ words ((upTo 4).map (sget 0 x.kscr)) ++ words [x.ktvec]

/-- The region image of register `i` in a save area; none where it is not canonical (R176). -/
def savedRegion (b : List Byte) (i : Nat) : Option Region := parseRegion ((b.drop (0x5C0 + 288 * i)).take 288)

/-- The regions of a save area; a register whose image is not canonical is null (R176; log 64). -/
def savedRegions (b : List Byte) : SMap Region :=
  (upTo 8).foldl (fun m i => match savedRegion b i with
    | some r => if r.isNull then m else sset m i r
    | none => m) []

/-- A context with the registers of a save area (R176, R177). The sequencer fields are not read. -/
def Ctx.reload (x : Ctx) (n : Nat) (b : List Byte) : Ctx :=
  let w (o : Nat) : Word := wd (leAt b o 8)
  let table (k o : Nat) : SMap Word := (upTo k).map (fun i => (i, w (o + 8 * i)))
  let st := w 0x1F8
  let fmts := leAt b 0x200 8
  { x with
    g := table n 0
    pc := wd (putN (leAt b 0x1C0 8) 1 1 0)
    kfpe := kfpeMask (w 0x1C8)
    kscnt := w 0x1D0
    kseed := w 0x1D8
    kepc := w 0x1E0
    kcause := wd (leAt b 0x1E8 8 % 16)
    kinfo := w 0x1F0
    kstat := mkStat (fieldN (leAt b 0x1C0 8) 1 1 == 1) (bitW st 1) (bitW st 2) (bitW st 3)
    xfa := BitVec.ofNat 6 fmts
    xfb := BitVec.ofNat 6 (fmts / 2 ^ 8)
    xfo := BitVec.ofNat 6 (fmts / 2 ^ 16)
    vflags := BitVec.ofNat 5 (fmts / 2 ^ 32)
    xsa := w 0x208
    xsb := w 0x210
    xdt := w 0x218
    sq := table 4 0x220
    h := table 16 0x240
    m := (upTo 8).map (fun i => (i, BitVec.ofNat 512 (leAt b (0x2C0 + 64 * i) 64)))
    f := (upTo 8).map (fun i => (i, parseFibre ((b.drop (0x4C0 + 32 * i)).take 32)))
    q := savedRegions b
    kovf := wd (leAt b 0x10D4 4)
    kscr := table 4 0x10D8
    ktvec := w 0x10F8 }

/-! ### Pre-emption (07 R174 to R176) -/

/-- The wait of an operation that is pre-emptible and reissued (R174). A memory reply, the release of a memory word, DRESET,
VTBL, the room for a vector entry, a word that waits at the hub before it appends, and a header send that waits for its
destination to accept complete first. -/
def Wait.stops : Wait → Bool
  | .recall _ => false
  | .beats _ _ => false
  | .pushes => false
  | .reset _ => false
  | .entry => false
  | .append => false
  | .header .. => false
  | _ => true

/-- A context in this state stops at once on a request (R174). -/
def CtxState.stops : CtxState → Bool
  | .ready => true
  | .waiting w => w.stops
  | .completing w => w.stops
  | .dropped .. => true
  | .rxBlocked _ => true
  | .budgetHeld => true
  | .poolHeld => true
  | .sleeping _ => true
  | .idle => false
  | .halted => false
  | .preempted => false

/-- The context may stop for its request now (R174, R175). -/
def mayPreempt (k : Core) (x : Nat) : Bool :=
  let c := k.ctxAt x
  decide (x < k.nctx) && k.kplive.getLsbD x && !c.packetOpen && c.st.stops && k.vexec != some x

/-- Stop a context: its save area is written and its entries are parked (R175, R177). -/
def preempt (c x : Nat) (s : State) : State :=
  let k := s.coreAt c
  if mayPreempt k x then
    let s := s.localPut c (saveBase x) ((k.ctxAt x).image k.ngreg)
    let k := s.coreAt c
    s.setCore c ({ k with
      kplive := k.kplive &&& ~~~(1#16 <<< x) }.setCtx x { k.ctxAt x with st := .preempted })
  else s

/-- PREEMPT_STOP (R174, R175). -/
def execPreemptStop (core ctx : Nat) (s : State) : Host.Outcome State Fault Refusal :=
  hwStep (decide (core < 1024 ∧ ctx < 16)) s (preempt core ctx)

/-- A request for a context (R174): in force unless its context is idle, halted or pre-empted. -/
def requestPreempt (c x : Nat) (s : State) : State :=
  let k := s.coreAt c
  let st := (k.ctxAt x).st
  let live := st != .idle && st != .halted && st != .preempted
  s.setCore c { k with
    kpreq := k.kpreq ||| (1#16 <<< x)
    kplive := if live then k.kplive ||| (1#16 <<< x) else k.kplive }

/-- The trap that the parked entries of the context in focus give at a reload (12 R313): those with D = 0 or B = 1 are
checked again. A rights table that cannot be read gives none. -/
def parkedTrap (s : State) : Option (Nat × Word) × State :=
  let m := recheckOperands (((s.cur.vq.filter (fun e => e.st != .done || e.body)).map VEntry.operands).flatten) s
  match m.ans with
  | .ok t => (none, t)
  | .error (.trap c i) => (some (c, i), s.seeing m.left)
  | .error _ => (none, s.seeing m.left)

/-- A context's save area has a poisoned line (20 R447). -/
def Core.saveBad (k : Core) (x : Nat) : Bool := k.poisoned (saveBase x) 0x1100

/-- Reload a pre-empted context from its save area (R176, 12 R313). The trap of a bad image waits for the first issue; a second
pre-emption before it loses the trap, for the next reload decides anew (log 84). -/
def reloadCtx (c x : Nat) (s : State) : State :=
  let k := s.coreAt c
  let b := memRead k.mem (saveBase x) 0x1100
  let y := (k.ctxAt x).reload k.ngreg b
  let s := s.setCtx c x { y with st := .ready }
  let t := { s with focus := { s.focus with core := c, ctx := x }, pin := none }
  let (v, t) := parkedTrap t
  let s := { t with focus := s.focus, pin := s.pin }
  let y := s.ctxAt c x
  let y := if v.isSome then { y with vq := [], vk := 0, vleft := 0, vadv := [] } else y
  let trap := if (upTo 8).any (fun i => (savedRegion b i).isNone) then some (1, Config.freeWord s.freeCtr)
    else if y.pc.toNat % 4 ≠ 0 then some (3, y.pc) else v
  { s.setCtx c x { y with reloadTrap := trap } with freeCtr := s.freeCtr + 1 }

/-- A halt of a context is pending no longer (21 R452). -/
def State.haltSeen (s : State) (c x : Nat) : State :=
  let d := (s.ctxAt c x).kdom.toNat
  let b := s.bar d
  if b.halts.contains (16 * c + x) then s.setBar d { b with halts := b.halts.filter (· != 16 * c + x) } else s

/-- A request is withdrawn; a pre-empted context is reloaded (R176), and a halt counts as seen (21 R452). -/
def releasePreempt (c x : Nat) (s : State) : State :=
  let s := s.haltSeen c x
  let k := s.coreAt c
  let was := (k.ctxAt x).st == .preempted
  let s := s.setCore c { k with kpreq := k.kpreq &&& ~~~(1#16 <<< x), kplive := k.kplive &&& ~~~(1#16 <<< x) }
  if was then reloadCtx c x s else s

/-- KPREQ_SET (R174). -/
def execKpreqSet (core ctx : Nat) (s : State) : Host.Outcome State Fault Refusal :=
  hwStep (decide (core < 1024 ∧ ctx < 16)) s (requestPreempt core ctx)

/-- A release would reload a context from a poisoned save area, which nothing may consume (20 R447; log 66). -/
def Core.reloadBad (k : Core) (x : Nat) : Bool := (k.ctxAt x).st == .preempted && k.saveBad x

/-- KPREQ_CLEAR (R176). -/
def execKpreqClear (core ctx : Nat) (s : State) : Host.Outcome State Fault Refusal :=
  hwStep (decide (core < 1024 ∧ ctx < 16)) s (fun s =>
    if (s.coreAt core).reloadBad ctx then s else releasePreempt core ctx s)

/-- A write to kpreq: each bit requests or releases. A reload from a poisoned save area drops the word that asks for it (20 R447;
log 66). -/
def writeKpreq (v : Word) (s : State) : Except Stop State :=
  match (upTo s.core.nctx).find? (fun x => !bitW v x && s.core.reloadBad x) with
  | some x => .error (.drop (localAddr (saveBase x)) 4 4)
  | none => .ok ((upTo s.core.nctx).foldl (fun s x =>
    if bitW v x then requestPreempt s.focus.core x s else releasePreempt s.focus.core x s) s)

/-! ### Control registers (07 R183, 08 R226) -/

/-- The code of a context state in kcstate (R163). -/
def CtxState.code : CtxState → Nat
  | .idle => 0
  | .ready => 1
  | .waiting _ => 2
  | .completing _ => 2
  | .dropped .. => 3
  | .rxBlocked _ => 4
  | .budgetHeld => 5
  | .poolHeld => 6
  | .sleeping _ => 7
  | .halted => 8
  | .preempted => 9

/-- kcstate (R183). -/
def kcstate (k : Core) : Word :=
  wd ((upTo k.nctx).foldl (fun n x => n + (k.ctxAt x).st.code * 2 ^ (4 * x)) 0)

/-- kbudget (R183): the issue slots left to the running domain in this period. -/
def kbudget (s : State) : Word :=
  let b := s.budget s.kdom 0 s.focus.core
  if b.amount = 0xFFFFFFFFFFFF then wd b.amount else wd (b.amount - b.used)

/-- Who may read a control register (R183): 0 nobody, 1 supervisor mode, 2 both modes. -/
def kReadable (n : Nat) : Nat :=
  if n = 4 ∨ (9 ≤ n ∧ n ≤ 12) ∨ n = 16 ∨ n = 17 ∨ n = 19 ∨ n = 20 ∨ (22 ≤ n ∧ n ≤ 25) then 1
  else if n ≤ 27 then 2 else 0

/-- Who may write a control register. -/
def kWritable (n : Nat) : Nat :=
  if n = 6 ∨ n = 8 ∨ n = 14 then 2
  else if n ≤ 4 ∨ n = 7 ∨ (9 ≤ n ∧ n ≤ 12) ∨ n = 16 ∨ n = 17 ∨ n = 20 then 1
  else 0

/-- The access is allowed in the executing context's mode. -/
def kAllowed (s : State) (who : Nat) : Bool := who == 2 || (who == 1 && s.cur.sup)

/-- The value of control register `n`. -/
def ctlRead (s : State) (n : Nat) : Word :=
  let x := s.cur
  match n with
  | 0 => x.kstat
  | 1 => x.kcause
  | 2 => x.kepc
  | 3 => x.kinfo
  | 4 => x.ktvec
  | 5 => x.kdom.setWidth 64
  | 6 => x.kfpe
  | 7 => x.kseed
  | 8 => x.kscnt
  | 9 | 10 | 11 | 12 => sget 0 x.kscr (n - 9)
  | 13 => x.kfault
  | 14 => x.kovf
  | 15 => kbudget s
  | 16 => s.core.kcpool
  | 17 => s.core.kmap
  | 18 => if s.core.kmode then 1 else 0
  | 19 => kcstate s.core
  | 20 => s.core.kpreq.setWidth 64
  | 21 => s.kscope
  | 22 | 23 | 24 | 25 => s.readyWord (n - 22)
  | 26 => wd s.focus.core
  | 27 => s.ktime
  | _ => 0

/-- MFK (08 R226). -/
def execMfk (d a : BitVec 6) (s : State) : Host.Outcome State Fault Refusal :=
  guarded (.mfk d a) s (fun s =>
    if kAllowed s (kReadable a.toNat) then writeReg d.toNat (ctlRead s a.toNat) s else ill s)

/-- A write to kcpool or kmap: only at quiescence, and only to a layout that fits (R183, R184). A new pool starts with no
chain, a new stash range with no entry, once the dirty ones are written back (10 R272). -/
def writeLayout (kcpool kmap : Word) (s : State) : Except Stop State :=
  if !quiescent s s.focus.core s.focus.ctx || !layoutOk kcpool kmap then ill s
  else
    let s := if kmap = s.core.kmap then s else s.giveBackAll s.focus.core (fun _ => true)
    let k := s.core
    .ok (s.setCoreCur { k with
    kcpool := kcpool, kmap := kmap
    chains := if kcpool = k.kcpool then k.chains else []
    stash := if kmap = k.kmap then k.stash else [] })

/-- Write control register `n` (R183). -/
def ctlWrite (n : Nat) (v : Word) (s : State) : Except Stop State :=
  let x := s.cur
  match n with
  | 0 => .ok (s.setCur { x with kstat := mkStat x.sup (bitW v 1) (bitW v 2) (bitW v 3) })
  | 1 => .ok (s.setCur { x with kcause := v &&& 15 })
  | 2 => .ok (s.setCur { x with kepc := v })
  | 3 => .ok (s.setCur { x with kinfo := v })
  | 4 => if v.toNat % 4 ≠ 0 then ill s else .ok (s.setCur { x with ktvec := v })
  | 6 => .ok (s.setCur { x with kfpe := kfpeMask v })
  | 7 => .ok (s.setCur { x with kseed := v })
  | 8 => .ok (s.setCur { x with kscnt := v })
  | 9 | 10 | 11 | 12 => .ok (s.setCur { x with kscr := sset x.kscr (n - 9) v })
  | 14 => .ok (s.setCur { x with kovf := wd (bitsW v 31 0) })
  | 16 => writeLayout v s.core.kmap s
  | 17 => writeLayout s.core.kcpool v s
  | 20 => writeKpreq v s
  | _ => ill s

/-- MTK (08 R226). The word waits for a unit at the port it reads before it raises ILL for the register (log 78). -/
def execMtk (d a : BitVec 6) (s : State) : Host.Outcome State Fault Refusal :=
  guarded (.mtk d a) s (fun s => do
    let (v, s) ← readReg a.toNat s
    if kAllowed s (kWritable d.toNat) then ctlWrite d.toNat v s else ill s)

/-! ### SLEEP (08 R227) -/

/-- A unit stands at a port that SLEEP watches. -/
def sleepUnit (s : State) : Bool :=
  !s.cur.rx0.units.isEmpty || (s.isComm && !s.cur.rx1.units.isEmpty)

/-- SLEEP goes on: what must hold already does, `unit` of its ports; W is cleared. None when the context has to sleep. While the page
of its slot is not served it drops (log 90). -/
def sleepOver (unit : Bool) (x : Word) (s : State) : Run (Option State) := do
  let slot := s.cur.slot.toNat
  let (b, s) ← (if slot = 0 then pure (leBytes 8 0, s) else hvRead slot 8 s)
  let w := ofBytes b
  let set := fieldN w 0 1 == 1
  if set then do
    let s ← hvWrite slot (leBytes 8 (w - 1)) s
    pure (some s)
  else pure (if (x != 0 && decide (x.toNat ≤ s.ktime.toNat)) || unit then some s else none)

/-- SLEEP's operand, and how it goes on. A unit that the operand itself takes stood at the port when the word issued. -/
def sleepBody (a : BitVec 6) (s : State) : Run (Word × Option State) := do
  let (x, t) ← readReg a.toNat s
  let r ← sleepOver (sleepUnit s) x t
  pure (x, r)

/-- SLEEP (R227): the bundle is issued again when an event ends the sleep. -/
def execSleep (a : BitVec 6) (s : State) : Host.Outcome State Fault Refusal :=
  if legal s (.sleep a) then
    let m := sleepBody a s
    match m.ans with
    | .error st => finish (s.seeing m.left) (.error st)
    | .ok (_, some t) => finish s (.ok t)
    | .ok (x, none) => .next { backOut (s.seeing m.left) (.sleeping x) with last := .held }
  else finish s (ill s)

/-- Return a context to state 1 where a condition holds of it. -/
def wakeIf (c x : Nat) (p : State → Ctx → Bool) (s : State) : State :=
  let k := s.ctxAt c x
  if p s k then s.setCtx c x { k with st := .ready } else s

/-- The wait of a context in state 2 is over where a condition holds of it: its operation now makes its changes (R166). -/
def overIf (c x : Nat) (p : State → Wait → Bool) (s : State) : State :=
  let k := s.ctxAt c x
  match k.st with
  | .waiting w => if p s w then s.setCtx c x { k with st := .completing w } else s
  | _ => s

/-- SLEEP_DEADLINE (R227). -/
def execSleepDeadline (core ctx : Nat) (s : State) : Host.Outcome State Fault Refusal :=
  hwStep (decide (core < 1024 ∧ ctx < 16)) s (wakeIf core ctx (fun s k => match k.st with
    | .sleeping d => d != 0 && decide (d.toNat ≤ s.ktime.toNat)
    | _ => false))

/-! ### What ends the other waits (07 R163, R170, R172, 05 R128) -/

/-- What a wait of state 2 waits for has come about. Waits that other steps end, or whose end shows only when the bundle is
issued again, are told apart by their constructors. What stands in a flag word is known without an access (log 81). -/
def waitOver (s : State) (c x : Nat) (w : Wait) : Bool :=
  match w with
  | .seqno eng sq n t => reached ((s.sqAt sq).seqno eng (n % 8)).completed t
  | .barrier n p => match (s.coreAt c).hbAt n with
    | some h => reached32 h.phase p
    | none => true
  | .fullBit o => (s.coreAt c).full.contains o
  | .flag line t => match s.peekLe (line + 120) 8 with
    | some f => flagReached f t
    | none => true
  | .portFull core dest port => !((s.ctxAt core dest).rx port).full
  | .pushes => (s.ctxAt c x).pushes.isEmpty
  | .reset d => (s.bar d).resetting.all (· == 16 * c + x)
  | .beats d n => !(s.budget d 2 n).spent
  | .region .. => true
  | .vector => true
  | .entry => true
  | .hub => true
  | .append => true
  | .header .. => false
  | .recall _ => false
  | .quiesce => false

/-- MEMORY_REPLY (R163): the wait of a context has ended, and its operation completes. -/
def execMemoryReply (core ctx : Nat) (s : State) : Host.Outcome State Fault Refusal :=
  hwStep (decide (core < 1024 ∧ ctx < 16)) s (overIf core ctx (fun s w => waitOver s core ctx w))

/-- PACKET_HEADER_ACCEPT (08 R218, R219): the port or ring that a header send aims at has become free. -/
def execPacketHeaderAccept (core ctx : Nat) (s : State) : Host.Outcome State Fault Refusal :=
  hwStep (decide (core < 1024 ∧ ctx < 16)) s (overIf core ctx (fun s w => match w with
    | .header c d p g n =>
      headerRoom s (core, ctx, 0) c d p g n || headerRoom s (core, ctx, 1) c d p g n
    | _ => false))

/-- HOME_RECALL (05 R128): the engine that owned the line has written it. -/
def execHomeRecall (core ctx : Nat) (s : State) : Host.Outcome State Fault Refusal :=
  hwStep (decide (core < 1024 ∧ ctx < 16)) s (overIf core ctx (fun s w => match w with
    | .recall l => !s.owned.any (fun o => o.line == l)
    | _ => false))

/-- WAKE_MESSAGE (R169, R170): the oldest message for the context about a page reaches it; it is stale, and discarded, unless the
context is dropped under the request that the message names. -/
def execWakeMessage (core ctx : Nat) (page : Nat) (s : State) : Host.Outcome State Fault Refusal :=
  hwStep (decide (core < 1024 ∧ ctx < 16)) s (fun s =>
    match s.wakeMsgs.find? (fun m => m.core == core && m.ctx == ctx && m.page == page) with
    | none => s
    | some m => wakeIf core ctx (fun _ k => match k.st with
      | .dropped _ _ r => r == m.req
      | _ => false) { s with wakeMsgs := s.wakeMsgs.erase m })

/-- PORT_UNIT_ARRIVAL (R172, 08 R219, R227): the next unit on its way stands at the port, and a context that is blocked on
it, or that sleeps, goes on. -/
def execPortUnitArrival (core ctx port : Nat) (s : State) : Host.Outcome State Fault Refusal :=
  hwStep (decide (core < 1024 ∧ ctx < 16 ∧ port < 2)) s (fun s =>
    let k := s.ctxAt core ctx
    let p := k.rx port
    match p.flight with
    | [] => s
    | u :: r =>
      let k := k.setRx port { p with units := p.units ++ [u], flight := r }
      let wakes := match k.st with
        | .rxBlocked n => n == port
        | .sleeping _ => port == 0 || ctx == (s.coreAt core).comm
        | _ => false
      s.setCtx core ctx (if wakes then { k with st := .ready } else k))

/-! ### REPART (07 R185) -/

/-- A port whose words are discarded; a packet that is open to it stays open, and no other may begin before it closes (08 R219). -/
def Port.discarded (p : Port) : Port := { Port.empty with openBy := p.openBy }

/-- A context across a switch of modes: one that goes on existing keeps its receive ports, all else is zero. -/
def Ctx.cleared (x : Ctx) (ports : Bool) : Ctx :=
  { Ctx.reset with rx0 := if ports then x.rx0 else x.rx0.discarded, rx1 := if ports then x.rx1 else x.rx1.discarded
                   lastIssue := x.lastIssue }

/-- The registers of a context that every REPART resets, and its held entries, which end there (12 R286). -/
def Ctx.unbound (x : Ctx) : Ctx :=
  { x with q := [], h := [], f := [], sq := [], vq := [], vk := 0, vleft := 0, vadv := [] }

/-- The effect of REPART on a quiescent core (R185); `began` is the first cycle of the new rotation. Requests recorded in kpreq stay,
those of contexts that cease to exist too (log 86). -/
def Core.switchTo (k : Core) (mode : Bool) (began : Nat) : Core :=
  let k := { k with ctxs := k.ctxs.map (fun p => (p.1, p.2.unbound)), full := [], hb := [] }
  if mode = k.kmode then k
  else
    let zero := k.ctxAt 0
    { k with
      ctxs := (k.ctxs.filter (fun p => p.1 != 0)).foldl (fun m p => sset m p.1 (p.2.cleared (decide (p.1 < 8))))
        [(0, { zero with g := zero.g.filter (fun r => decide (r.1 < 28)) })]
      kmode := mode
      began := began }

/-- The value d receives: the previous kmode. -/
def modeWord (m : Bool) : Word := if m then 1 else 0

/-- REPART (R185): d receives the old mode, and the core is switched once it is quiescent; until then REPART waits, and dispatch
to the other contexts is stopped (`Core.reparting`). The new rotation begins with the next cycle. -/
def execRepart (d a : BitVec 6) (s : State) : Host.Outcome State Fault Refusal :=
  guarded (.repart d a) s (fun s => do
    if s.focus.ctx ≠ 0 then ill s
    else
      let (x, s) ← readReg a.toNat s
      if !quiescent s s.focus.core 0 then .error (.wait .quiesce)
      else
        let s ← writeReg d.toNat (modeWord s.core.kmode) s
        pure (s.setCoreCur (s.core.switchTo (bitW x 0) (s.cycle + 1))))

/-- REPART_SWITCH (R185): the core has become quiescent under a REPART that waits, which now makes its changes. -/
def execRepartSwitch (core : Nat) (s : State) : Host.Outcome State Fault Refusal :=
  hwStep (decide (core < 1024)) s (overIf core 0 (fun s w => w == .quiesce && quiescent s core 0))

end Sys2Proof.Machine
end

