-- ==== Sys2Proof/Machine/Control.lean ====
section
/-! DEFINITION. The meanings of the control words of class C: branches, calls, traps and FENCE (08 R197 to R199, R211,
R225, R228). -/
namespace Sys2Proof.Machine

/-- BR (R197, R198). -/
def execBr (c a : BitVec 6) (i : BitVec 12) (s : State) : Host.Outcome State Fault Refusal :=
  guarded (.br c a i) s (fun s => do
    let (x, s) ← readReg a.toNat s
    pure (if brCond c.toNat x then s.setPc (branchTo s (disp i)) else s))

/-- JMP (R197). -/
def execJmp (j : BitVec 24) (s : State) : Host.Outcome State Fault Refusal :=
  finish s (.ok (s.setPc (branchTo s (disp j))))

/-- CALL (R197): g27 takes the next bundle's address in both modes. -/
def execCall (j : BitVec 24) (s : State) : Host.Outcome State Fault Refusal :=
  guarded (.call j) s (fun s => do
    let s ← writeReg 27 s.focus.next s
    pure (s.setPc (branchTo s (disp j))))

/-- JR (R197, R198, 03 R68). -/
def execJr (d a : BitVec 6) (s : State) : Host.Outcome State Fault Refusal :=
  guarded (.jr d a) s (fun s => do
    let (x, s) ← readReg a.toNat s
    if x.toNat % 4 ≠ 0 then misaligned x.toNat
    else
      let s ← writeReg d.toNat s.focus.next s
      pure (s.setPc x))

/-- BTAG (R199): branch through a table by the tag at the head of rx0, which stays. -/
def execBtag (a : BitVec 6) (s : State) : Host.Outcome State Fault Refusal :=
  guardedRun (.btag a) s (fun s0 => do
    let (x, s) ← readReg a.toNat s0
    let (t, _) ← readReg 60 s0
    let (v, s) ← loadV (effAddr x (8 * (t.toNat % 8 : Nat))) 8 s
    if v % 4 ≠ 0 then misaligned v else pure (s.setPc (wd v)))

/-- LOOP (R197, R198). -/
def execLoop (a : BitVec 6) (i : BitVec 12) (s : State) : Host.Outcome State Fault Refusal :=
  guarded (.loop a i) s (fun s => do
    let v := s.genReg a.toNat - 1
    let s ← writeReg a.toNat v s
    pure (if v ≠ 0 then s.setPc (branchTo s (disp i)) else s))

/-- NOP (R197). -/
def execNop (s : State) : Host.Outcome State Fault Refusal := finish s (.ok s)

/-- ALIGN (R197, R198). -/
def execAlign (s : State) : Host.Outcome State Fault Refusal := finish s (.ok s)

/-- FENCE (R211, 05 R119): a release and an acquire at its scope. -/
def execFence (_sc : BitVec 3) (s : State) : Host.Outcome State Fault Refusal := finish s (release s)

/-- TRAP (R225): BKPT with the code in kinfo. -/
def execTrap (c : BitVec 18) (s : State) : Host.Outcome State Fault Refusal :=
  finish s (.error (.trap 9 (c.setWidth 64)))

/-- SYSC (R225): the system call with the code in kinfo. -/
def execSysc (c : BitVec 18) (s : State) : Host.Outcome State Fault Refusal :=
  finish s (.error (.trap 10 (c.setWidth 64)))

/-- RETT (R228, 07 R182, R173): privileged, ILL with a packet open. -/
def execRett (s : State) : Host.Outcome State Fault Refusal :=
  finish s (if !s.cur.sup || s.cur.packetOpen then ill s else .ok (returnTrap s))

/-- HALT (R228): privileged; the context halts until DRESET of its domain, and the halt is reported (21 R452). -/
def execHalt (s : State) : Host.Outcome State Fault Refusal :=
  finish s (if !s.cur.sup then ill s
    else .ok ((s.setCur { s.cur with st := .halted }).haltReport s.focus.core s.focus.ctx s.kdom))

end Sys2Proof.Machine
end

