-- ==== Sys2Proof/Machine/Float.lean ====
section
/-! DEFINITION. The meanings of the scalar float words (08 R193 to R196). -/
namespace Sys2Proof.Machine

/-- FADD (R194). -/
def execFadd (d a b : BitVec 6) (r : BitVec 3) (s : State) : Host.Outcome State Fault Refusal :=
  guarded (.fadd d a b r) s (floatRR (Val.add (r == 3)) r.toNat d a b)

/-- FSUB (R194). -/
def execFsub (d a b : BitVec 6) (r : BitVec 3) (s : State) : Host.Outcome State Fault Refusal :=
  guarded (.fsub d a b r) s (floatRR (fun x y => Val.add (r == 3) x y.neg) r.toNat d a b)

/-- FMUL (R194). -/
def execFmul (d a b : BitVec 6) (r : BitVec 3) (s : State) : Host.Outcome State Fault Refusal :=
  guarded (.fmul d a b r) s (floatRR Val.mul r.toNat d a b)

/-- FMIN (R194, 04 R84). -/
def execFmin (d a b : BitVec 6) (s : State) : Host.Outcome State Fault Refusal :=
  guarded (.fmin d a b) s (floatRR (Val.pick false) 0 d a b)

/-- FMAX (R194, 04 R84). -/
def execFmax (d a b : BitVec 6) (s : State) : Host.Outcome State Fault Refusal :=
  guarded (.fmax d a b) s (floatRR (Val.pick true) 0 d a b)

/-- FFMA (R194): g(d) is the addend. -/
def execFfma (d a b : BitVec 6) (r : BitVec 3) (s : State) : Host.Outcome State Fault Refusal :=
  guarded (.ffma d a b r) s (fun s => do
    let z := s.genReg d.toNat
    let (x, y, s) ← readTwo a b s
    floatOut d (fRound r.toNat (Val.fma (r == 3) (fOp x) (fOp y) (fOp z))) s)

/-- FCMP (R195). -/
def execFcmp (d a b c : BitVec 6) (s : State) : Host.Outcome State Fault Refusal :=
  guarded (.fcmp d a b c) s (fun s => do
    let (x, y, s) ← readTwo a b s
    let (h, f) := fcmpCond c.toNat (fOp x) (fOp y)
    floatOut d ((boolW h).toNat, f) s)

/-- FCVT (R196). -/
def execFcvt (d a : BitVec 6) (r t sf : BitVec 3) (s : State) : Host.Outcome State Fault Refusal :=
  guarded (.fcvt d a r t sf) s (fun s => do
    let (x, s) ← readReg a.toNat s
    let v := valueOf [] (fcvtType sf.toNat) x.toNat
    let (y, f) := roundTo ⟨false, []⟩ (fcvtType t.toNat) r.toNat 0 v
    withFlags d (fcvtOut (fcvtType t.toNat) y) (f ||| v.sigFl) s)

end Sys2Proof.Machine
end

