-- ==== Sys2Proof/Machine/MemoryUnit.lean ====
section
/-! DEFINITION. The privileged memory words and the steps of the memory system: migration, heat, row retirement,
shoot-downs, fault answers, scrubbing and the domain records (20 R428 to R448). -/
namespace Sys2Proof.Machine

/-! ### Addresses and homes (R429, R430) -/

/-- The home of a page that a memory word names: PROT outside both spaces (R429), a drop while its square is not ready
(R430), none for an address without a home. -/
def pageHome (va : Word) (s : State) : Except Stop (Option Nat) :=
  let a := va.toNat
  if isLocal a then .ok none
  else if !isGlobal a then prot a
  else match s.homeOf (segOf a) with
    | none => .ok none
    | some q => if s.squareReady q then .ok (some q) else .error (.drop va 1 0)

/-- The addresses that a cached page-table entry covers: the first, and the first beyond. -/
def pteSpan (key : Nat) : Nat × Nat :=
  let w := 2 ^ (39 - 9 * (key % 4))
  (key / 4 * w, (key / 4 + 1) * w)

/-- A home tile discards the cached page-table entries that meet a range, and what they gave its lines (R436, R444). -/
def Square.forget (k : Square) (lo hi : Nat) : Square :=
  { k with
    ptc := k.ptc.filter (fun e => decide ((pteSpan e.1).2 ≤ lo ∨ hi ≤ (pteSpan e.1).1))
    l2 := k.l2.map (fun e => if lo ≤ 128 * e.line ∧ 128 * e.line < hi then { e with tr := none } else e) }

/-! ### Dropped contexts and fault records (R434 to R438) -/

/-- A context dropped on a page of a range; `dom` restricts it to a domain. -/
def Ctx.droppedIn (lo hi : Nat) (dom : Option Nat) (x : Ctx) : Bool :=
  match x.st with
  | .dropped p _ _ => decide (lo ≤ p ∧ p < hi) && (dom.isNone || dom == some x.kdom.toNat)
  | _ => false

/-- The wake message for a context that is dropped: its page and its request (07 R170). -/
def Ctx.wakeMsg (x : Ctx) (core ctx : Nat) : List WakeMsg :=
  match x.st with
  | .dropped p _ r => [⟨core, ctx, alignDown p 4096, r⟩]
  | _ => []

/-- The contexts dropped on a range, as core and context. -/
def droppedOn (s : State) (lo hi : Nat) (dom : Option Nat) : List (Nat × Nat) :=
  (s.cores.map (fun p => (p.2.ctxs.filter (fun q => q.2.droppedIn lo hi dom)).map (fun q => (p.1, q.1)))).flatten

/-- Send wake messages to contexts, as core and context. -/
def State.sendWakes (s : State) (l : List (Nat × Nat)) : State :=
  { s with wakeMsgs := s.wakeMsgs ++ (l.map (fun p => (s.ctxAt p.1 p.2).wakeMsg p.1 p.2)).flatten }

/-- Wake the contexts dropped on a range: each is sent a message; it reissues, and may fault again (R436, R438, 07 R170). -/
def State.wakeDropped (s : State) (lo hi : Nat) (dom : Option Nat) : State := s.sendWakes (droppedOn s lo hi dom)

/-- Close the fault records of a range; `dom` restricts it to a domain. -/
def State.closeFaults (s : State) (lo hi : Nat) (dom : Option Nat) : State :=
  let out (p d : Nat) : Bool := decide (lo ≤ p ∧ p < hi) && (dom.isNone || dom == some d)
  { s with faults := s.faults.filter (fun f => !out f.page f.dom) }

/-! ### PGMIG and the migration engine (R437, R438) -/

/-- The code of PGMIG for the leaf of a page (R437), apart from a full queue. -/
def migCode (s : State) (d : District) (l : Leaf) (va dst : Nat) (h : Bool) : Nat :=
  let size := 2 ^ leafShift l
  let page := alignDown va size
  let src := leafPa l page
  if fieldN l.e 4 1 = 1 || d.migs.any (fun m => m.page == page) then 1
  else if fieldN l.e 5 1 = 0 then 2
  else if !frameValid dst || decide (dst % size ≠ 0) || decide (dst < src + size ∧ src < dst + size) ||
      !s.memReady (backing dst) || (h && decide (dst < 2 ^ 43)) || leafShift l == 30 ||
      (leafShift l == 16 && decide (alignDown va 4096 ≠ page)) then 3
  else if 16 ≤ d.migs.length then 4 else 0

/-- PGMIG (R437). -/
def execPgmig (d a b : BitVec 6) (s : State) : Host.Outcome State Fault Refusal :=
  guardedRun (.pgmig d a b) s (fun s => do
    let (x, y, s) ← readTwo a b s
    let home ← pageHome x s
    match home with
    | none => writeReg d.toNat 2 s
    | some q =>
      let (l, s) ← saw (walkTop q x.toNat s)
      match l with
      | none => writeReg d.toNat 2 s
      | some l =>
        let dst := bitsW y 51 0
        let n := districtOf q
        let t := s.district n
        let code := migCode s t l x.toNat dst (bitW y 63)
        let page := alignDown x.toNat (2 ^ leafShift l)
        let m : Migr := ⟨page, 2 ^ leafShift l, dst, bitW y 63, leafPa l page, false, false, 0⟩
        writeReg d.toNat (wd code) (if code = 0 then s.setDistrict n { t with migs := t.migs ++ [m] } else s))

/-- The head of a district's migration engine with its home square. -/
def State.migHead (s : State) (n : Nat) : Option (Migr × Nat) :=
  match (s.district n).migs with
  | [] => none
  | m :: _ => (s.homeOf (segOf m.page)).map (fun q => (m, q))

/-- Replace the head of a district's requests, or drop it. -/
def State.setMigHead (s : State) (n : Nat) (m : Option Migr) : State :=
  let t := s.district n
  s.setDistrict n { t with migs := m.toList ++ t.migs.drop 1 }

/-- Give up a district's first request: what dropped on its page is woken, to meet the page as it stands (07 R169). -/
def State.giveUpMigr (s : State) (n : Nat) (m : Migr) : State :=
  (s.setMigHead n none).wakeDropped m.page (m.page + m.size) none

/-- MIGRATION_START (R438): M is set, once no vector entry that executes holds the page (12 R288). A request whose page has been
unmapped or resized since is given up. What stashes alone hold of the page is written back first, since writes wait from then
on (10 R272). -/
def execMigrationStart (district : Nat) (s : State) : Host.Outcome State Fault Refusal :=
  hwStep (decide (district < 4)) s (fun s =>
    match s.migHead district with
    | none => s.setMigHead district none
    | some (m, q) =>
      if m.running || s.entryOn m.page (m.page + m.size) then s
      else match walkTop q m.page s with
        | (some l, s) =>
          if 2 ^ leafShift l = m.size ∧ fieldN l.e 4 1 = 0 ∧ fieldN l.e 5 1 = 1 then
            ((s.flushStashes m.page (m.page + m.size) m.promo).rewriteLeaves q m.page (fun _ e => putN e 4 1 1)).setMigHead district
              (some { m with running := true, oldFrame := leafPa l m.page })
          else s.giveUpMigr district m
        | (none, s) => s.giveUpMigr district m)

/-- Copy one line from a frame to another, poison and zero flag included (R438, R447, 10 R273). -/
def State.copyLine (s : State) (src dst : Nat) : State :=
  let t := s.putPhys dst (memRead s.mem src 128)
  { t with
    poison := if s.poison.contains (src / 128) then dst / 128 :: t.poison else t.poison
    zeroLines := if s.zeroLines.contains (src / 128) then dst / 128 :: t.zeroLines else t.zeroLines }

/-- MIGRATION_LINE_COPY (R438). -/
def execMigrationLineCopy (district : Nat) (s : State) : Host.Outcome State Fault Refusal :=
  hwStep (decide (district < 4)) s (fun s =>
    match s.migHead district with
    | none => s
    | some (m, _) =>
      let o := 128 * m.next
      if !m.running || decide (m.size ≤ o) || s.owned.any (fun w => w.line == (m.page + o) / 128) ||
          s.entryOn m.page (m.page + m.size) then s
      else (s.copyLine (m.oldFrame + o) (m.newFrame + o)).setMigHead district (some { m with next := m.next + 1 }))

/-- The entry of leaf `i` of a page once its contents stand in the new frame (R438). -/
def migrated (m : Migr) (i e : Nat) : Nat :=
  putN (putN (putN (putN e 12 40 (m.newFrame / 4096 + i)) 3 1 (if m.newH then 1 else 0)) 5 1 1) 4 1 0

/-- MIGRATION_FINISH (R438): the new frame, once no vector entry that executes holds the page (12 R288), and every context dropped on
the page is woken. -/
def execMigrationFinish (district : Nat) (s : State) : Host.Outcome State Fault Refusal :=
  hwStep (decide (district < 4)) s (fun s =>
    match s.migHead district with
    | none => s
    | some (m, q) =>
      if m.running && decide (m.size ≤ 128 * m.next) && !s.entryOn m.page (m.page + m.size) then
        let s := s.setSq q ((s.sqAt q).l2Move m.page (m.page + m.size) (decide (m.newFrame < 2 ^ 43)))
        ((s.rewriteLeaves q m.page (migrated m)).setMigHead district none).wakeDropped m.page (m.page + m.size) none
      else s)

/-! ### PGHEAT and heat (R440, R441) -/

/-- A page's count at its home tile, 0 when it is not cached, and the state in which the tile holds what it walked. -/
def State.heatOf (s : State) (q va : Nat) : Nat × State :=
  let (l, s) := walkTop q va s
  let shift := match l with
    | some l => leafShift l
    | none => 12
  (sget 0 (s.sqAt q).heat (alignDown va (2 ^ shift)), s)

/-- PGHEAT (R441). -/
def execPgheat (d a b : BitVec 6) (s : State) : Host.Outcome State Fault Refusal :=
  guardedRun (.pgheat d a b) s (fun s => do
    let (x, y, s) ← readTwo a b s
    let t := s.district (bitsW x 1 0)
    match bitsW y 1 0 with
    | 0 =>
      let home ← pageHome x s
      match home with
      | none => writeReg d.toNat 0 s
      | some q =>
        let (n, s) ← saw (s.heatOf q x.toNat)
        writeReg d.toNat (wd n) s
    | 1 => writeReg d.toNat (if bitW x 2 then t.expFills else t.hbmFills) s
    | 2 => writeReg d.toNat t.corrected s
    | _ => writeReg d.toNat t.uncorrected s)

/-- HEAT_PERIOD_HALVING (R440). -/
def execHeatPeriodHalving (s : State) : Host.Outcome State Fault Refusal :=
  hwStep true s (fun s => { s with squares := s.squares.map (fun p =>
    (p.1, { p.2 with heat := p.2.heat.map (fun e => (e.1, e.2 / 2)) })) })

/-! ### ROWRET (R442) -/

/-- The bank of a row name: stack, channel, pseudo-channel and bank. -/
def bankOf (row : Nat) : Nat := row % 2 ^ 15

/-- The code of ROWRET for a row (R442). -/
def rowCode (s : State) (row : Nat) : Nat :=
  if !s.memReady (row % 8) || !Config.rowInRange row then 4
  else if s.retired.contains row then 1
  else if 4 ≤ (s.retired.filter (fun r => bankOf r == bankOf row)).length then 2
  else if 4096 ≤ s.retired.length then 3 else 0

/-- ROWRET (R442): the redirection shows only in the retirement list, for the row's data moves with it. -/
def execRowret (d a : BitVec 6) (s : State) : Host.Outcome State Fault Refusal :=
  guarded (.rowret d a) s (fun s => do
    let (x, s) ← readReg a.toNat s
    let row := bitsW x 31 0
    let code := rowCode s row
    writeReg d.toNat (wd code) (if code = 0 then { s with retired := s.retired ++ [row] } else s))

/-! ### SHOOT (R444, R445) -/

/-- The home squares of a range. -/
def homesOf (s : State) (lo hi : Nat) : List Nat :=
  ((segPieces ((hi - lo) / 2 ^ 21 + 2) lo (hi - lo)).filterMap (fun a => s.homeOf (segOf a))).eraseDups

/-- A core's L1 without its lines of a range. -/
def Core.flushRange (k : Core) (lo hi : Nat) : Core :=
  { k with l1 := k.l1.filter (fun l => !decide (lo ≤ 128 * l ∧ 128 * l < hi)) }

/-- Every L1, stash and level-two slice writes its lines of a range back and has them no longer (R444, 10 R272); the domain `dom`,
whose SHOOT it is, pays the beats of what leaves level two. -/
def State.flushRange (s : State) (dom : Nat) (lo hi : Nat) : State :=
  let s := s.flushStashes lo hi true
  let s : State := { s with cores := s.cores.map (fun p => (p.1, p.2.flushRange lo hi)) }
  (s.squares.map (·.1)).foldl (fun s q =>
    let out := (s.sqAt q).l2.filter (fun e => decide (lo ≤ 128 * e.line ∧ 128 * e.line < hi))
    (s.setSq q ((s.sqAt q).l2Flush lo hi)).spendBeats (some dom) (districtOf q) (beatsBack out)) s

/-- A core without the PLB pairs whose segment meets a range (R444). -/
def Core.dropPairs (k : Core) (lo hi : Nat) : Core :=
  { k with plb := k.plb.filter (fun e => decide ((e.seg + 1) * 2 ^ 21 ≤ lo ∨ hi ≤ e.seg * 2 ^ 21)) }

/-- The effect of SHOOT on a range (R444). -/
def shootRange (lo hi : Nat) (f sBit : Bool) (s : State) : State :=
  let homes := homesOf s lo hi
  let s := if f then s.flushRange s.kdom lo hi else s
  let s := homes.foldl (fun s q => s.setSq q ((s.sqAt q).forget lo hi)) s
  let s := (s.closeFaults lo hi none).wakeDropped lo hi none
  { s with cores := s.cores.map (fun p => (p.1, if sBit then p.2.dropPairs lo hi else p.2)) }

/-- SHOOT (R444): a release and an acquire at level 3. -/
def execShoot (a b : BitVec 6) (s : State) : Host.Outcome State Fault Refusal :=
  guarded (.shoot a b) s (fun s => do
    let (x, y, s) ← readTwo a b s
    let n := bitsW y 23 0
    if x.toNat % 4096 ≠ 0 then misaligned x.toNat
    else if !isGlobal x.toNat && !isLocal x.toNat then prot x.toNat
    else if n = 0 then fmtTrap y.toNat
    else do
      let s ← release s
      pure (if isLocal x.toNat then s
        else shootRange x.toNat (x.toNat + 4096 * n) (bitW y 32) (bitW y 33) s))

/-! ### PGREF (R436) -/

/-- The address that dropped a context. -/
def Ctx.dropAddr (x : Ctx) : Nat :=
  match x.st with
  | .dropped p _ _ => p
  | _ => 0

/-- Abort the contexts of a list, each with its faulting address (07 R171). -/
def abortAll (l : List (Nat × Nat)) (s : State) : State :=
  l.foldl (fun s p => abortTask p.1 p.2 (wd (s.ctxAt p.1 p.2).dropAddr) s) s

/-- The engine commands of a domain that wait on a page are to fail on it, and wait no more (R436). -/
def State.failWaiting (s : State) (page dom : Nat) : State :=
  let hit (w : PageWait) : Bool := w.dom == dom && w.page == page
  { s with aborted := s.aborted ++ s.pageWaits.filter hit, pageWaits := s.pageWaits.filter (fun w => !hit w) }

/-- The answer to an open fault on a page of 4 KiB (R436): its home tile walks it again, and how many contexts it wakes or aborts. -/
def answerFault (home : Option Nat) (page dom : Nat) (abort : Bool) (s : State) : Nat × State :=
  let hi := page + 4096
  let s := match home with
    | some q => (s.setSq q ((s.sqAt q).forget page hi)).walked page
    | none => s
  let s := s.closeFaults page hi (some dom)
  let l := droppedOn s page hi (some dom)
  if abort then (l.length, abortAll l (s.failWaiting page dom))
  else (l.length, s.wakeDropped page hi (some dom))

/-- PGREF (R436). -/
def execPgref (d a b : BitVec 6) (s : State) : Host.Outcome State Fault Refusal :=
  guardedRun (.pgref d a b) s (fun s => do
    let (x, y, s) ← readTwo a b s
    let dom := bitsW y 15 0
    if (s.dom? dom).isNone then protOpen s
    else do
      let home ← pageHome x s
      let s ← release s
      let (n, s) ← saw (answerFault home (alignDown x.toNat 4096) dom (bitW y 16) s)
      writeReg d.toNat (wd n) s)

/-- FAULT_RING_RETRY (R435): the domain's oldest record that waits for room. A ring that the record finds full for the first time
raises vector 3 (21 R452). -/
def execFaultRingRetry (dom : Nat) (s : State) : Host.Outcome State Fault Refusal :=
  hwStep (decide (dom < 256)) s (fun s =>
    match s.faults.find? (fun f => f.dom == dom && f.place.isNone) with
    | none => s
    | some f =>
      match s.writeRecord (8 * (s.homeOf (segOf f.page)).getD 0) f with
      | .written n a s => { s with faults := s.faults.map (fun g =>
          if g.dom == f.dom && g.page == f.page then { g with place := some (n, a) } else g) }
      | .full s =>
        if f.told then s
        else { s.raiseVector f.dom 3 with faults := s.faults.map (fun g =>
          if g.dom == f.dom && g.page == f.page then { g with told := true } else g) }
      | .absent => s)

/-! ### PLBW (R446) -/

/-- Every PLB discards a pair (R446). -/
def State.dropPair (s : State) (dom seg : Nat) : State :=
  { s with cores := s.cores.map (fun p =>
      (p.1, { p.2 with plb := p.2.plb.filter (fun e => !(e.dom == dom && e.seg == seg)) })) }

/-- PLBW (R446): a release and an acquire at level 3 (R445). -/
def execPlbw (d a b : BitVec 6) (s : State) : Host.Outcome State Fault Refusal :=
  guardedRun (.plbw d a b) s (fun s => do
    let (x, y, s) ← readTwo a b s
    let dom := bitsW x 15 0
    let seg := bitsW x 42 16
    match s.dom? dom with
    | none => prot x.toNat
    | some r =>
      if r.segs ≤ seg then fmtTrap x.toNat
      else do
        let at_ := r.rights.toNat + 2 * seg
        let s ← release s
        let (old, s) ← hvRead at_ 2 s
        let s ← hvWrite at_ (leBytes 2 (bitsW y 15 0)) s
        writeReg d.toNat (wd (ofBytes old)) (s.dropPair dom seg))

/-! ### DOMSET (R448) -/

/-- A power of two from 4 to 65,536. -/
def ringEntries (n : Nat) : Bool := (upTo 15).any (fun i => n == 4 * 2 ^ i)

/-- A domain record that breaks its layout (R448). -/
def domainBad (b : List Byte) : Bool :=
  decide (leAt b 0 8 % 128 ≠ 0) || decide (leAt b 12 4 / 4 ≠ 0) || decide (leAt b 16 8 % 64 ≠ 0) ||
    decide (leAt b 28 4 ≠ 0) || decide (leAt b 32 8 % 128 ≠ 0) || decide (leAt b 44 4 ≠ 0) ||
    decide (leAt b 56 8 % 128 ≠ 0) || !ringEntries (leAt b 64 4) || decide (leAt b 68 60 ≠ 0)

/-- The domain of a record; `next` is the next task id. -/
def parseDomain (b : List Byte) (next : Nat) : Domain :=
  ⟨leAt b 12 4 % 2 == 1, leAt b 12 4 / 2 % 2 == 1, wd (leAt b 0 8), leAt b 8 4, wd (leAt b 16 8), leAt b 24 4,
    wd (leAt b 32 8), leAt b 40 4, wd (leAt b 48 8), wd (leAt b 56 8), leAt b 64 4, next⟩

/-- A package record that breaks its layout (R448). -/
def packageBad (b : List Byte) : Bool :=
  decide (leAt b 0 8 % 4096 ≠ 0) || decide (leAt b 20 4 < 1 ∨ 1024 < leAt b 20 4) || decide (leAt b 48 80 ≠ 0)

/-- The package record of its bytes. -/
def parsePackage (b : List Byte) : PkgRec :=
  ⟨wd (leAt b 0 8), wd (leAt b 8 8), leAt b 16 4, leAt b 20 4, wd (leAt b 24 8), wd (leAt b 32 8), wd (leAt b 40 8)⟩

/-- A context runs for a domain. -/
def Ctx.runsFor (dom : Nat) (x : Ctx) : Bool := x.st != .idle && x.kdom.toNat == dom

/-- A square holds communicators, sequence contexts or claims of a domain. -/
def Square.holdsFor (dom : Nat) (k : Square) : Bool :=
  let mine (c : Option (Nat × Nat)) : Bool := c.any (fun h => h.2 == dom)
  k.cms.any (fun p => p.2.state != 0 && p.2.dom == dom) || k.scs.any (fun p => mine p.2.holder) ||
    k.slots.any (fun p => mine p.2.claim) || mine k.acc

/-- One of the first `n` slots of a pool holds a continuation (06 R143); a slot that cannot be read now holds the context. -/
def poolHeld (pool : Nat) : Nat → State → Run (Bool × State)
  | 0, s => pure (false, s)
  | n + 1, s => do
    let (b, s) ← hvRead (pool + 128 * n + 104) 8 s
    if ofBytes b ≠ 0 && !s.hw.contains (.freeSlot (pool + 128 * n)) then pure (true, s) else poolHeld pool n s

/-- The domain still has contexts, continuations, communicators, sequence contexts or claims (R448). -/
def State.domainBusy (s : State) (dom : Nat) (d : Domain) : Run (Bool × State) :=
  if s.cores.any (fun p => p.2.ctxs.any (fun q => q.2.runsFor dom)) || s.squares.any (fun p => p.2.holdsFor dom)
  then pure (true, s) else poolHeld d.pool.toNat d.slots s

/-- Delete a domain (R448): code 1 while it still has something. -/
def deleteDomain (dom : Nat) (s : State) : Run (Nat × State) :=
  match s.dom? dom with
  | none => pure (0, s)
  | some d => do
    let (busy, s) ← s.domainBusy dom d
    pure (if busy then (1, s) else (0, s.setDom dom none))

/-- Install a domain record. A domain that did not exist starts with no limits and with task id 1 (06 R144, R161). -/
def installDomain (dom : Nat) (b : List Byte) (s : State) : State :=
  match s.dom? dom with
  | some d => s.setDom dom (some (parseDomain b d.nextTask))
  | none =>
    { s.setDom dom (some (parseDomain b 1)) with budgets := s.budgets.filter (fun p => p.1 / 65536 != dom) }

/-- DOMSET (R448). -/
def execDomset (d a b : BitVec 6) (s : State) : Host.Outcome State Fault Refusal :=
  guardedRun (.domset d a b) s (fun s => do
    let (x, y, s) ← readTwo a b s
    let dom := bitsW x 15 0
    if !isGlobal y.toNat || decide (y.toNat % 128 ≠ 0) then misaligned y.toNat
    else if 256 ≤ dom ∧ dom ≠ 0xFFFF then fmtTrap x.toNat
    else if y = 0 ∧ dom ≠ 0xFFFF then
      let (n, s) ← deleteDomain dom s
      writeReg d.toNat (wd n) s
    else do
      let (r, s) ← hvRead y.toNat 128 s
      if dom = 0xFFFF then
        if packageBad r then fmtTrap y.toNat else writeReg d.toNat 0 { s with pkg := parsePackage r }
      else if domainBad r then fmtTrap y.toNat
      else writeReg d.toNat 0 (installDomain dom r s))

/-! ### Soft errors (R447) -/

/-- Which memory an error lies in, as SCRUB_PASS numbers lines (log 66): line `n` of the physical address space; from 2^40 on,
4,096 lines of local memory for each core, its stash among them; from 2^41 on, 64 operand slots for each square; from 2^42 on,
four tables for each core: its PLB, its deques, its engines' queues and its sequencer. -/
inductive ScrubPlace where
  | phys (line : Nat)
  | loc (core line : Nat)
  | slot (square n : Nat)
  | table (core n : Nat)
  deriving DecidableEq, Repr

/-- The memory that a line number of SCRUB_PASS names. -/
def scrubPlace (n : Nat) : Option ScrubPlace :=
  if n < 2 ^ 40 then (if frameValid (128 * n) then some (.phys n) else none)
  else if n < 2 ^ 41 then (if n - 2 ^ 40 < 2 ^ 22 then some (.loc ((n - 2 ^ 40) / 4096) ((n - 2 ^ 40) % 4096)) else none)
  else if n < 2 ^ 42 then (if n - 2 ^ 41 < 2 ^ 13 then some (.slot ((n - 2 ^ 41) / 64) ((n - 2 ^ 41) % 64)) else none)
  else if n - 2 ^ 42 < 2 ^ 12 then some (.table ((n - 2 ^ 42) / 4) ((n - 2 ^ 42) % 4))
  else none

/-- The district that counts an error. -/
def ScrubPlace.district : ScrubPlace → Nat
  | .phys n => Config.errorDistrict n % 4
  | .loc c _ => districtOf (squareOf c)
  | .slot q _ => districtOf q
  | .table c _ => districtOf (squareOf c)

/-- An uncorrected error poisons a line (R447); a table has no lines, and the spec gives its entry no other outcome (log 66). -/
def State.poisonAt (s : State) : ScrubPlace → State
  | .phys n => { s with poison := if s.poison.contains n then s.poison else n :: s.poison }
  | .loc c n =>
    let k := s.coreAt c
    s.setCore c { k with lpoison := if k.lpoison.contains n then k.lpoison else n :: k.lpoison }
  | .slot q n =>
    let k := s.sqAt q
    s.setSq q (k.setSlot n { k.slot n with bad := true })
  | .table .. => s

/-- SCRUB_PASS (R447): an error in a line, corrected or, with `bad`, not. -/
def execScrubPass (line : Nat) (bad : Bool) (s : State) : Host.Outcome State Fault Refusal :=
  match scrubPlace line with
  | none => hwStep false s id
  | some p => hwStep true s (fun s =>
    let t := s.district p.district
    if bad then (s.setDistrict p.district { t with uncorrected := t.uncorrected + 1 }).poisonAt p
    else s.setDistrict p.district { t with corrected := t.corrected + 1 })

end Sys2Proof.Machine
end

