-- ==== Sys2Proof/Machine/Sha3.lean ====
section
/-! DEFINITION. SHA3-256 of FIPS 202, which attestation measures with (21 R461, R462; log 9). Its numbers are computed as the
standard defines them, from the walk of the lanes and from the feedback register of the round bits. -/
namespace Sys2Proof.Machine

/-! ### The sponge's words (FIPS 202, 3.1) -/

/-- Where a lane stands among the sponge's 25 words; coordinates count modulo 5. -/
def spongeIdx (x y : Nat) : Nat := y % 5 * 5 + x % 5

/-- A word of the sponge. -/
def spongeWord (w : List Word) (x y : Nat) : Word := (w[spongeIdx x y]?).getD 0

/-- Change every word of the sponge by its coordinates. -/
def spongeMap (f : Nat → Nat → Word → Word) (w : List Word) : List Word := w.zipIdx.map (fun p => f (p.2 % 5) (p.2 / 5) p.1)

/-! ### The step mappings (FIPS 202, 3.2) -/

/-- The parity of a column's words. -/
def columnParity (w : List Word) (x : Nat) : Word :=
  spongeWord w x 0 ^^^ spongeWord w x 1 ^^^ spongeWord w x 2 ^^^ spongeWord w x 3 ^^^ spongeWord w x 4

/-- θ: a word takes in the parities of the columns at its sides, the right one turned by a bit. -/
def stepTheta (w : List Word) : List Word :=
  spongeMap (fun x _ v => v ^^^ columnParity w (x + 4) ^^^ (columnParity w (x + 1)).rotateLeft 1) w

/-- ρ and π along the walk (x, y) → (y, 2x + 3y): the word met after `t` moves turns by the triangular number of t + 1 and
goes to the walk's next place. The number bounds the moves that are left. -/
def walkLanes (w : List Word) : Nat → Nat → Nat → Nat → List Word → List Word
  | 0, _, _, _, out => out
  | n + 1, t, x, y, out =>
    let turned := (spongeWord w x y).rotateLeft ((t + 1) * (t + 2) / 2 % 64)
    walkLanes w n (t + 1) (y % 5) ((2 * x + 3 * y) % 5) (out.set (spongeIdx y (2 * x + 3 * y)) turned)

/-- ρ and π: the word at (0, 0) stays, and the walk from (1, 0) meets the 24 others. -/
def stepRhoPi (w : List Word) : List Word := walkLanes w 24 0 1 0 w

/-- χ, along the rows. -/
def stepChi (w : List Word) : List Word :=
  spongeMap (fun x y v => v ^^^ (spongeWord w (x + 2) y &&& ~~~spongeWord w (x + 1) y)) w

/-- The next value of the round bits' register: a multiplication by x modulo x⁸ + x⁶ + x⁵ + x⁴ + 1. -/
def roundBitNext (r : Nat) : Nat := if r < 128 then 2 * r else (2 * r) ^^^ 0x171

/-- ι's constant of a round and the register after it: seven bits of the register's stream, bit `j` of them at place 2^j − 1. -/
def roundConst (r : Nat) : Word × Nat :=
  (upTo 7).foldl (fun p j => (if p.2 % 2 = 1 then p.1 ||| 1 <<< (2 ^ j - 1) else p.1, roundBitNext p.2)) (0, r)

/-- The permutation, for a number of rounds from a value of the register. -/
def permute : Nat → Nat → List Word → List Word
  | 0, _, w => w
  | n + 1, r, w =>
    let c := roundConst r
    let w := stepChi (stepRhoPi (stepTheta w))
    permute n c.2 (w.modify 0 (· ^^^ c.1))

/-! ### SHA3-256 (FIPS 202, 4 to 6) -/

/-- The bytes of a block. -/
def sha3Rate : Nat := 136

/-- The message with its domain bits and its padding, a whole number of blocks. -/
def sha3Pad (m : List Byte) : List Byte :=
  let n := sha3Rate - m.length % sha3Rate
  if n = 1 then m ++ [0x86] else m ++ [0x06] ++ leBytes (n - 2) 0 ++ [0x80]

/-- Take in the first `n` blocks of a padded message. -/
def absorb : Nat → List Byte → List Word → List Word
  | 0, _, w => w
  | n + 1, m, w =>
    let block := spongeMap (fun x y v => if spongeIdx x y < sha3Rate / 8 then v ^^^ wd (leAt m (8 * spongeIdx x y) 8) else v) w
    absorb n (m.drop sha3Rate) (permute 24 1 block)

/-- The digest of 32 bytes. -/
def sha3_256 (m : List Byte) : List Byte :=
  let p := sha3Pad m
  ((absorb (p.length / sha3Rate) p (List.replicate 25 0)).take 4).flatMap (fun w => leBytes 8 w.toNat)

end Sys2Proof.Machine
end

