-- ==== Sys2Proof/Machine/Host.lean ====
section
/-! DEFINITION. Domains and the host: interrupts, domain reset, usage, launch rings, the BAR, bring-up, firmware and power
(21 R450 to R463, 01 R25 to R27, 05 R139). -/
namespace Sys2Proof.Machine

/-! ### IRQ (R454) -/

/-- WAKE of a domain's pager continuation by an instruction (R454, 06 R155). -/
def irqPager (dom : Nat) (s : State) : Run State :=
  match s.dom? dom with
  | none => pure s
  | some d =>
    if d.pager = 0 then pure s
    else if d.pager.toNat % 128 ≠ 0 then misaligned d.pager.toNat
    else if !isGlobal d.pager.toNat then prot d.pager.toNat
    else do
      let (_, s) ← wakeHeld s.focus.core d.pager.toNat s
      pure s

/-- IRQ (R454). -/
def execIrq (a b : BitVec 6) (s : State) : Host.Outcome State Fault Refusal :=
  guardedRun (.irq a b) s (fun s => do
    let (x, y, s) ← readTwo a b s
    let dom := bitsW x 15 0
    let v := bitsW y 6 0
    if (s.dom? dom).isNone then prot x.toNat
    else do
      let s ← release s
      if bitW x 16 then irqPager dom s
      else if v < 4 then fmtTrap y.toNat
      else pure (s.raiseVector dom v))

/-! ### Domain reset, part by part (R455) -/

/-- The number that names a context in a BAR's lists. -/
def ctxNo (c x : Nat) : Nat := 16 * c + x

/-- A reset of a domain is complete: FSTAT bit 0 clears and vector 1 is raised (R455, R452). -/
def endReset (dom : Nat) (s : State) : State :=
  (s.setBar dom { s.bar dom with resetting := none }).raiseVector dom 1

/-- A context that a reset stops leaves the resets it asked for: its own one ends without it. -/
def leaveResets (n : Nat) (s : State) : State :=
  s.bars.foldl (fun s p =>
    let b := s.bar p.1
    let s := s.setBar p.1 { b with joined := b.joined.filter (· != n) }
    if b.resetting = some n then endReset p.1 s else s) s

/-- Step 2 for one context, once the domain's packets have their abort closes: empty receive ports, state 0, no request; the core
forgets its wait at a barrier and its executing entry. -/
def stopContext (c x : Nat) (s : State) : State :=
  let s := leaveResets (ctxNo c x) s
  let k := s.coreAt c
  let y := (k.ctxAt x).leave
  let y := { y with rx0 := { y.rx0 with units := [], flight := [] }, rx1 := { y.rx1 with units := [], flight := [] }
                    reloadTrap := none }
  let hb := k.hb.map (fun (p : Nat × Option HBar) => (p.1, p.2.map (fun (h : HBar) => { h with pend := sdel h.pend x })))
  let k := { k with
    kpreq := k.kpreq &&& ~~~(1#16 <<< x)
    kplive := k.kplive &&& ~~~(1#16 <<< x)
    vexec := if k.vexec = some x then none else k.vexec
    hb := hb }
  s.setCore c (k.setCtx x y)

/-- The contexts that run continuations of a domain, as core and context. -/
def contextsOf (s : State) (dom : Nat) : List (Nat × Nat) :=
  (s.cores.map (fun p => (p.2.ctxs.filter (fun q => q.2.runsFor dom)).map (fun q => (p.1, q.1)))).flatten

/-- The domain of a deque entry: what its slot or record says, or, while that cannot be read, whose pool the slot lies in and
for whom the record was entered. -/
def State.domOfEntry (s : State) (e : Word) : Nat :=
  match entryInfo s e with
  | some (d, _) => d
  | none => s.entryDom e

/-- Step 3 for one core: its deque loses the domain's entries. -/
def dropEntries (dom c : Nat) (s : State) : State :=
  let k := s.coreAt c
  let t := s.setCore c { k with deque := k.deque.filter (fun e => s.domOfEntry e != dom) }
  (t.fitSpill c).getD t

/-- What the hardware still has to do concerns a continuation or an entry of a domain. -/
def workFor (s : State) (dom : Nat) (d : Domain) : HwWork → Bool
  | .wake _ slot => d.hasSlot slot
  | .push _ e => s.domOfEntry e == dom
  | .retire _ slot _ _ => d.hasSlot slot
  | .freeSlot slot => d.hasSlot slot
  | .write .. => false
  | .word .. => false
  | .back .. => false

/-- Step 3 for the package: slots, fault records, joiners and graphs of the domain. A slot whose page is not served is free from
now on, and is written so when it can be. -/
def releaseSlots (dom : Nat) (d : Domain) (s : State) : State :=
  let s := { s with
    joiners := s.joiners.filter (fun p => !d.hasSlot p.2.toNat && sget 0 s.entered p.1 != dom)
    joinDest := s.joinDest.filter (fun p => !d.hasSlot p.1)
    entered := s.entered.filter (fun p => p.2 != dom)
    graphs := s.graphs.filter (fun g => g.dom != dom)
    faults := s.faults.filter (fun f => f.dom != dom)
    hw := s.hw.filter (fun w => !workFor s dom d w) }
  (upTo d.slots).foldl (fun s i => s.hwTry (.freeSlot (d.pool.toNat + 128 * i))) s

/-- The commands of a domain that a reset discards in a square, with their engines; those of its communicators among them. -/
def Square.commandsOf (dom : Nat) (k : Square) : List (Nat × CmdHdr) :=
  let cm (c : CCmd) : List CmdHdr := match c with
    | .comm h => [h]
    | .ctt h _ _ => [h]
    | .close h => [h]
    | .post p => p.seqd.toList
  let coll := (k.cms.filter (fun p => p.2.state != 0 && p.2.dom == dom)).map (fun p =>
    ((p.2.order ++ (p.2.run.map (fun r => CCmd.post r.post)).toList).map cm).flatten)
  let hub : List (Nat × CmdHdr) := k.tq.map (fun (c : TCmd) => (0, c.hdr)) ++ k.mq.map (fun (c : MCmd) => (1, c.hdr)) ++
    k.kq.map (fun (c : KCmd) => (2, c.hdr))
  hub.filter (fun p => p.2.dom == dom) ++ coll.flatten.map (fun h => (3, h))

/-- The chain blocks that hold entries of a list, as core, engine and block. -/
def heldBlocks (s : State) (l : List (Nat × CmdHdr)) : List (Nat × Nat × Nat) :=
  (l.map (fun (e, h) =>
    ((sget [] (s.coreAt h.core).chains e).filter (fun b => b.live.contains h.seq)).map (fun b => (h.core, e, b.blk)))).flatten

/-- A block returns to its pool, though it is the tail, once no entry is left in it (step 5). -/
def returnBlock (s : State) (p : Nat × Nat × Nat) : State :=
  s.setChain p.1 p.2.1 ((sget [] (s.coreAt p.1).chains p.2.1).filter (fun b => !(b.blk == p.2.2 && b.live.isEmpty)))

/-- Discard the transfer commands of a domain: they count as complete, and each channel passes their units when their turn comes
(10 R267, R456). -/
def dropTransfers (dom q : Nat) (s : State) : State :=
  let k := s.sqAt q
  let mine (c : TCmd) : Bool := c.hdr.dom == dom && !c.dead
  let tq := (k.tq.filter (fun c => !(mine c && c.kind == .migr))).map (fun c => if mine c then { c with dead := true } else c)
  let s := (k.tq.filter mine).foldl (fun s c => s.completeCmd 0 c.hdr) (s.setSq q { k with tq := tq })
  (upTo 16).foldl (fun s ch => passDead q ch (tq.length + 1) s) s

/-- Discard a matrix command. -/
def dropMatrix (q : Nat) (c : MCmd) (s : State) : State :=
  let k := s.sqAt q
  finishMatrix q c (s.setSq q { k with active := if k.active = some c.hdr.ord then none else k.active })

/-- Free the matrix claims of a domain, as MREL does (14 R325). -/
def freeClaims (dom : Nat) (k : Square) : Square :=
  let mine (c : Option (Nat × Nat)) : Bool := c.any (fun h => h.2 == dom)
  let gone := k.slots.filter (fun p => mine p.2.claim)
  { k with
    slots := k.slots.map (fun p => if mine p.2.claim then (p.1, MSlot.reset) else p)
    acc := if mine k.acc then none else k.acc
    mcores := k.mcores.map (fun p => (p.1, { p.2 with producer := p.2.producer.filter (fun e =>
      !gone.any (fun g => g.1 == e.1 && g.2.claim.any (fun h => h.1 == p.1))) })) }

/-- Close a communicator as CCLOSE does, without waiting for its posts (17 R419). -/
def dropComm (q n : Nat) (s : State) : State :=
  let c := (s.sqAt q).cm n
  let s := c.order.foldl dropCmd (freeCm q n s)
  match c.run with
  | some r => dropCmd s (.post r.post)
  | none => s

/-- Step 4 for one square, and the chain blocks of step 5. -/
def resetSquare (dom q : Nat) (s : State) : State :=
  let k := s.sqAt q
  let held := heldBlocks s (k.commandsOf dom)
  let s := dropTransfers dom q s
  let s := (k.mq.filter (fun c => c.hdr.dom == dom)).foldl (fun s c => dropMatrix q c s) s
  let s := (k.kq.filter (fun c => c.hdr.dom == dom)).foldl (fun s c => finishK q c s) s
  let k := freeClaims dom (s.sqAt q)
  let s := s.setSq q { k with scs := k.scs.map (fun p =>
    if p.2.holder.any (fun h => h.2 == dom) then (p.1, SeqCtx.free) else p) }
  let s := (((s.sqAt q).cms.filter (fun p => p.2.state != 0 && p.2.dom == dom)).map (·.1)).foldl (fun s n => dropComm q n s) s
  held.foldl returnBlock s

/-- Clear E of the receive-ring descriptors that name a domain (08 R222). -/
def dropRings (dom c : Nat) (s : State) : State :=
  (upTo 8).foldl (fun s i =>
    let w := s.localLe c (32 * i) 8
    if (ringDesc s c i).1 = dom ∧ fieldN w 31 1 = 1 then s.localPut c (32 * i) (leBytes 8 (putN w 31 1 0)) else s) s

/-- Step 5 for one core: barriers, stash entries and receive rings of the domain; a dirty entry is written back first (10
R272). -/
def resetCore (dom c : Nat) (s : State) : State :=
  let s := s.giveBackAll c (fun e => e.dom == dom)
  let k := s.coreAt c
  dropRings dom c (s.setCore c { k with
    hb := k.hb.filter (fun p => !p.2.any (fun h => h.dom == dom))
    stash := k.stash.filter (fun e => e.dom != dom) })

/-- The steps of a domain reset (R455). The amounts held in step 1 are given back in step 6, so none changes. Every packet of the
domain is closed before a context's ports are emptied, so that no abort unit stays in a port of the domain. -/
def resetDomain (dom : Nat) (s : State) : State :=
  let s := (contextsOf s dom).foldl (fun s p => abortClose s p.1 p.2) s
  let s := (contextsOf s dom).foldl (fun s p => stopContext p.1 p.2 s) s
  let s := (s.cores.map (·.1)).foldl (fun s c => dropEntries dom c s) s
  let s := match s.dom? dom with
    | some d => releaseSlots dom d s
    | none => s
  let s := (s.squares.map (·.1)).foldl (fun s q => resetSquare dom q s) s
  let s := (s.cores.map (·.1)).foldl (fun s c => resetCore dom c s) s
  s.setBar dom { s.bar dom with halts := [] }

/-- The context waits until the reset ends; its bundle is issued again then. -/
def awaitReset (dom : Nat) (s : State) : Host.Outcome State Fault Refusal :=
  .next { backOut s (.waiting (.reset dom)) with last := .held }

/-- DRESET (R455): the issuer waits, and its bundle, issued again, ends the reset; one that found the reset under way
writes 1. -/
def execDreset (d a : BitVec 6) (s : State) : Host.Outcome State Fault Refusal :=
  if !legal s (.dreset d a) then finish s (ill s)
  else match readReg a.toNat s with
    | .error st => finish s (.error st)
    | .ok (x, t) =>
      let dom := bitsW x 15 0
      let me := ctxNo s.focus.core s.focus.ctx
      let b := s.bar dom
      if b.joined.contains me then
        if b.resetting.isSome then awaitReset dom s
        else finish s (writeReg d.toNat 1 (t.setBar dom { b with joined := b.joined.filter (· != me) }))
      else if b.resetting = some me then finish s (writeReg d.toNat 0 (endReset dom t))
      else if dom = s.kdom then finish s (ill s)
      else if (s.dom? dom).isNone then finish s (prot x.toNat)
      else if b.resetting.isSome then awaitReset dom (s.setBar dom { b with joined := b.joined ++ [me] })
      else awaitReset dom (resetDomain dom (s.setBar dom { b with resetting := some me }))

/-! ### QOSP (R457) -/

/-- QOSP (R457). -/
def execQosp (d a : BitVec 6) (s : State) : Host.Outcome State Fault Refusal :=
  guarded (.qosp d a) s (fun s => do
    let (x, s) ← readReg a.toNat s
    let dom := bitsW x 15 0
    let res := bitsW x 18 16
    let inst := bitsW x 31 19
    if budgetInstances res ≤ inst ∨ (s.dom? dom).isNone ∨ bitsW x 63 38 ≠ 0 then trapS 12 x
    else
      let b := s.budget dom res inst
      writeReg d.toNat (wd (b.used % 2 ^ 48 + b.index % 2 ^ 16 * 2 ^ 48)) s)

/-! ### The BAR (R450 to R452) -/

/-- FSTAT (R450). -/
def State.fstat (s : State) (fn : Nat) : Word :=
  wd ((if s.underReset fn then 1 else 0) + (if (s.dom? fn).isSome then 2 else 0) +
    (if (s.bar fn).halts.isEmpty then 0 else 4))

/-- The word at an 8-aligned offset of a function's BAR (R450). -/
def State.barWord (s : State) (fn off : Nat) : Word :=
  let b := s.bar fn
  if off = 0 then b.lrbase else if off = 8 then b.lrsize else if off = 0x18 then b.lrhead
  else if off = 0x20 then s.fstat fn
  else if off = 0x400 then b.pba.setWidth 64
  else if off = 0x408 then (b.pba >>> 64).setWidth 64
  else if 0x800 ≤ off ∧ off < 0x1000 then b.tableWord (off - 0x800) else 0

/-- What the host reads at an 8-aligned offset of a function's BAR; a function that is not enabled answers nothing (R450). -/
def State.barRead (s : State) (fn off : Nat) : Option Word := if s.barOpen fn then some (s.barWord fn off) else none

/-- The doorbell (R450, R451). -/
def ringDoorbell (fn : Nat) (tail : Word) (s : State) : State :=
  if s.barOpen fn then s.setBar fn { s.bar fn with lrtail := tail } else s

/-- A host write of 8 bytes to a BAR (R450); offsets that ignore writes change nothing. -/
def barWrite (fn off : Nat) (v : Word) (s : State) : State :=
  let b := s.bar fn
  if !s.barOpen fn then s
  else if off = 0 then s.setBar fn { b with lrbase := v }
  else if off = 8 then s.setBar fn { b with lrsize := v }
  else if off = 0x10 then ringDoorbell fn v s
  else if 0x800 ≤ off ∧ off < 0x1000 then
    unmaskVector fn ((off - 0x800) / 16) (s.setBar fn { b with msix := sset b.msix (off - 0x800) v })
  else s

/-- LRTAIL (R451). -/
def execLrtail (fn : Nat) (tail : BitVec 64) (s : State) : Host.Outcome State Fault Refusal :=
  hwStep (decide (fn < 256)) s (ringDoorbell fn tail)

/-- BAR_REGISTER_WRITE (R450). -/
def execBarRegisterWrite (fn off : Nat) (v : BitVec 64) (s : State) : Host.Outcome State Fault Refusal :=
  hwStep (decide (fn < 256 ∧ off < 4096 ∧ off % 8 = 0)) s (barWrite fn off v)

/-! ### Launches (R451) -/

/-- How a launch entry's checks end (06 R144): passed with the record, failed, or a page it needs cannot be served; with the
state after what was read. -/
inductive LaunchCheck where
  | good (b : List Byte) (s : State)
  | bad (s : State)
  | absent (va reason code : Nat)
  deriving DecidableEq, Repr

/-- The checks of R144 as supervisor of domain `fn`; the record is written, so its page must take a write. -/
def launchCheck (fn p : Nat) (s : State) : LaunchCheck :=
  if !isGlobal p then .bad s
  else match translate (s.homeOf (segOf p)) true p s with
    | (.stop r c, _) => .absent p r c
    | (.ok _ _, s) =>
      if p % 128 ≠ 0 then .bad s
      else match s.rightsEntry fn (segOf p) with
        | .stop va r c => .absent va r c
        | .entry e s =>
          if !granted (rightsBits e) needR then .bad s
          else match hvTry false p s with
            | .error (va, r, c) => .absent va r c
            | .ok (pa, s) =>
              let b := memRead s.mem pa 128
              if (s.dom? (recDom b)).isNone || !recOk b then .bad s else .good b s

/-- The first ready square at or after the package's pointer, with wrap (R451). -/
def State.launchTarget (s : State) : Option Nat :=
  ((upTo 128).map (fun i => (s.launchSquare + i) % 128)).find? s.squareReady

/-- The entry is taken: LRHEAD advances. -/
def takeLaunch (fn : Nat) (s : State) : State :=
  let b := s.bar fn
  s.setBar fn { b with lrhead := b.lrhead + 1 }

/-- An entry that fails a check: all ones in its completion word, and then vector 0. -/
def failLaunch (fn word : Nat) (s : State) : State := s.finishWord fn word (2 ^ 64 - 1)

/-- An entry that passes: a task id, a new graph, and a push onto the next core; none while the push has no block. -/
def launch (fn p word : Nat) (b : List Byte) (s : State) : Option State := do
  let q ← s.launchTarget
  let k := s.sqAt q
  let c := 8 * q + k.launchCore % 8
  let s := { s.setSq q { k with launchCore := (k.launchCore + 1) % 8 } with launchSquare := (q + 1) % 128 }
  let s ← s.pushBottom c (wd p)
  let (id, s) := takeTaskId (recDom b) s
  let (g, s) := s.graphOpen fn (some (wd word))
  let s ← s.hvPut (p + 104) (leBytes 8 id)
  let s ← s.hvPut (p + 72) (leBytes 8 g)
  pure (s.enters p (recDom b))

/-- A host write to memory is still to be performed. Writes made before an entry of a ring go before its task (05 R139). -/
def State.hostWrites (s : State) : Bool :=
  s.hw.any (fun w => match w with
    | .write .. => true
    | _ => false)

/-- The dispatcher asks for a page that a launch of a function needs. -/
def State.askLaunch (s : State) (fn va reason code : Nat) : State :=
  s.faultedEngine (8 * (s.homeOf (segOf va)).getD 0) fn va reason code

/-- The dispatcher looks at the next entry of a ring (R451). -/
def launchNext (fn : Nat) (s : State) : State :=
  let b := s.bar fn
  if b.lrhead = b.lrtail || s.underReset fn || (s.dom? fn).isNone || b.lrsize = 0 || s.hostWrites then s
  else
    let at_ := b.lrbase.toNat + 16 * (b.lrhead.toNat % b.lrsize.toNat)
    match hvTry false at_ s with
    | .error (va, r, c) => s.askLaunch fn va r c
    | .ok (pa, s) =>
      let p := memLe s.mem pa 8
      let word := memLe s.mem (pa + 8) 8
      match launchCheck fn p s with
      | .absent va r c => s.askLaunch fn va r c
      | .bad s => takeLaunch fn (failLaunch fn word s)
      | .good b s => match launch fn p word b s with
        | some t => takeLaunch fn t
        | none => s

/-- LAUNCH_RING_ENTRY (R451). -/
def execLaunchRingEntry (fn : Nat) (s : State) : Host.Outcome State Fault Refusal :=
  hwStep (decide (fn < 256)) s (launchNext fn)

/-! ### Host memory accesses (05 R139) -/

/-- HOST_MEMORY_ACCESS: a posted write is performed line by line, in order; a line whose page is not served waits for it, and
holds back the writes after it. A read changes nothing. -/
def execHostMemoryAccess (wr : Bool) (addr : BitVec 64) (data : List (BitVec 8)) (s : State) :
    Host.Outcome State Fault Refusal :=
  hwStep true s (fun s =>
    if !wr || !bitW (s.readyWord 2) 16 || !isGlobal addr.toNat then s
    else (linePieces (data.length + 1) addr.toNat data.length).foldl (fun s (x : Nat × Nat) =>
      s.hwTry (.write x.1 ((data.drop (x.1 - addr.toNat)).take x.2))) s)

/-! ### Bring-up (R461, R443, 01 R23 to R26) -/

/-- kscope with the levels 4 to 7 that firmware discovers: radii never fall, and an absent level repeats the one below
(01 R21 to R23). -/
def scopeTable (kscope high : Word) : Word :=
  wd (([4, 5, 6, 7].foldl (fun (p : Nat × Nat) n =>
    let e := bitsW high (8 * (n - 4) + 7) (8 * (n - 4))
    let r := if e / 128 = 1 then max p.2 (e % 128) else p.2
    (p.1 + (e / 128 * 128 + r) * 2 ^ (8 * n), r)) (bitsW kscope 31 0, bitsW kscope 30 24)).1)

/-- POWER_UP (R461 steps 1 and 2, R443): the image and the retirement list are verified. -/
def execPowerUp (listOk : Bool) (s : State) : Host.Outcome State Fault Refusal :=
  hwStep true s (fun s =>
    if s.fw.powered then s
    else { s with fw := { s.fw with
      powered := true
      recovery := !Config.imageGood s.fw.image
      listGood := listOk
      applied := if listOk then s.retired else [] } })

/-- The boot firmware installs the package record and domain 0's, as DOMSET would, and what it discovered (R461 step 4, 20
R448). It runs once, as the package comes up. -/
def bootFirmware (s : State) : State :=
  if s.fw.booted then s else
  let n := s.fw.image
  let p := Config.bootPackage n
  let d := Config.bootDomain0 n
  let s := if packageBad p then s else { s with pkg := parsePackage p }
  let s := if domainBad d then s else installDomain 0 d s
  { s with
    fw := { s.fw with booted := true }
    package := Config.packageNumber n
    kscope := scopeTable s.kscope (Config.scopeHigh n) }

/-- A part may report ready: the image runs, a stack only with a good retirement list, a square only after its district
(R443, R461, 01 R26). Parts 0 to 32 are the bits of word 2, 64 to 191 the squares. -/
def mayReport (s : State) (part : Nat) : Bool :=
  s.fw.powered && !s.fw.recovery &&
    (if part < 4 then true
    else if part < 12 then s.fw.listGood
    else if part < 33 then true
    else decide (64 ≤ part ∧ part < 192) && bitW (s.readyWord 2) (districtOf (part - 64)))

/-- The part's bit in the readiness map as word and bit (01 R25). -/
def partBit (part : Nat) : Nat × Nat := if part < 64 then (2, part) else ((part - 64) / 64, (part - 64) % 64)

/-- A page waits for a part: its home is the square, or its frame lies behind the stack or the port (20 R430, 01 R27). -/
def waitsForPart (s : State) (part page : Nat) : Bool :=
  match s.homeOf (segOf page) with
  | none => false
  | some q =>
    if 64 ≤ part then q == part - 64
    else match (walkTop q page s).1 with
      | some l => backing (leafPa l page) + 4 == part
      | none => false

/-- The contexts that are dropped for reason 1 on a page that waits for a part, as core and context. -/
def droppedFor (s : State) (part : Nat) : List (Nat × Nat) :=
  (s.cores.map (fun p => (p.2.ctxs.filter (fun q => match q.2.st with
    | .dropped page 1 _ => waitsForPart s part page
    | _ => false)).map (fun q => (p.1, q.1)))).flatten

/-- PART_READY (01 R26, R27, R461): contexts that wait for the part are sent a wake message. -/
def execPartReady (part : Nat) (s : State) : Host.Outcome State Fault Refusal :=
  hwStep (decide (part < 33 ∨ (64 ≤ part ∧ part < 192))) s (fun s =>
    let p := partBit part
    if !mayReport s part || bitW (s.readyWord p.1) p.2 then s
    else
      let s := (if part = 16 then bootFirmware s else s).setReady p.1 p.2 true
      s.sendWakes (droppedFor s part))

/-- PART_OUT_OF_SERVICE (01 R26): a district takes its squares with it. -/
def execPartOutOfService (part : Nat) (s : State) : Host.Outcome State Fault Refusal :=
  hwStep (decide (part < 33 ∨ (64 ≤ part ∧ part < 192))) s (fun s =>
    let s := s.setReady (partBit part).1 (partBit part).2 false
    if part < 4 then
      (upTo 32).foldl (fun s i => s.setReady (partBit (64 + 32 * part + i)).1 (partBit (64 + 32 * part + i)).2 false) s
    else s)

/-- LINK_PORT_FAILURE (R460). -/
def execLinkPortFailure (port : Nat) (s : State) : Host.Outcome State Fault Refusal :=
  hwStep (decide (port < 16)) s (fun s => s.setReady 2 (17 + port) false)

/-- FLIT_CRC_RETRY (R460): no visible effect. -/
def execFlitCrcRetry (port : Nat) (s : State) : Host.Outcome State Fault Refusal :=
  hwStep (decide (port < 16)) s id

/-! ### Resets (R459) -/

/-- A package reset: everything as at reset, apart from what flash holds; a verified update becomes the image (R461,
20 R442). -/
def packageReset (s : State) : State :=
  { State.reset with
    retired := s.retired
    fw := { Firmware.reset with image := s.fw.update.getD s.fw.image }
    freeCtr := s.freeCtr }

/-- PACKAGE_RESET (R459). -/
def execPackageReset (s : State) : Host.Outcome State Fault Refusal := hwStep true s packageReset

/-- FUNCTION_LEVEL_RESET (R459): of the physical function a package reset, else the domain's reset by the device. -/
def execFunctionLevelReset (fn : Nat) (s : State) : Host.Outcome State Fault Refusal :=
  hwStep (decide (fn < 256)) s (fun s =>
    if fn = 0 then packageReset s
    else if (s.dom? fn).isNone || s.underReset fn then s
    else endReset fn (resetDomain fn s))

/-! ### Firmware, attestation and power (R461 to R463) -/

/-- FIRMWARE_UPDATE (R461): a verified image takes effect at the next package reset. -/
def execFirmwareUpdate (image : Nat) (s : State) : Host.Outcome State Fault Refusal :=
  hwStep true s (fun s =>
    if s.fw.powered && Config.imageGood image then { s with fw := { s.fw with update := some image } } else s)

/-- A measurement (R462): digests of the running image and of the retirement list as applied, whose row names stand in four
bytes each (log 9), and the readiness map. -/
def measured (s : State) (idx : Nat) : Option (List Byte) :=
  match idx with
  | 1 => some (sha3_256 (Config.imageBytes s.fw.image))
  | 2 => some (sha3_256 ((s.fw.applied.map (leBytes 4)).flatten))
  | 3 => some (((upTo 4).map (fun n => leBytes 8 (s.readyWord n).toNat)).flatten)
  | _ => none

/-- ATTESTATION_REQUEST (R462): the measurement and the signature over it, asked for at the host port's mailbox, which is there
while that port is ready. In recovery mode the package accepts an image and nothing else (R461). -/
def execAttestationRequest (idx : Nat) (s : State) : Host.Outcome State Fault Refusal :=
  hwStep true s (fun s =>
    match measured s idx with
    | some l =>
      if s.fw.powered && !s.fw.recovery && bitW (s.readyWord 2) 16 then
        { s with fw := { s.fw with answers := s.fw.answers ++ [⟨idx, l, Config.sign l⟩] } }
      else s
    | none => s)

/-- CLOCK_STEP (R463): 100 MHz down, or up to 3.3 GHz at most. -/
def execClockStep (up : Bool) (s : State) : Host.Outcome State Fault Refusal :=
  hwStep true s (fun s =>
    let f := s.fw.clock
    { s with fw := { s.fw with clock := if up then min 3300 (f + 100) else if 200 ≤ f then f - 100 else f } })

/-- CORE_POWER_GATING (R463, 20 R445): the core loses its L1 and PLB and issues nothing; the next such step of the core ends
the gating. -/
def execCorePowerGating (core : Nat) (s : State) : Host.Outcome State Fault Refusal :=
  hwStep (decide (core < 1024)) s (fun s =>
    let k := s.coreAt core
    s.setCore core (if k.gated then { k with gated := false } else { k with gated := true, l1 := [], plb := [] }))

end Sys2Proof.Machine
end

