-- ==== Sys2Proof/Machine/Integer.lean ====
section
/-! DEFINITION. The meanings of the integer words of class A (08 R186 to R192). -/
namespace Sys2Proof.Machine

/-- ADD (R186). -/
def execAdd (d a b : BitVec 6) (e : BitVec 1) (s : State) : Host.Outcome State Fault Refusal :=
  guarded (.add d a b e) s (aluRR (· + ·) d a b e)

/-- SUB (R186). -/
def execSub (d a b : BitVec 6) (e : BitVec 1) (s : State) : Host.Outcome State Fault Refusal :=
  guarded (.sub d a b e) s (aluRR (· - ·) d a b e)

/-- MUL (R186). -/
def execMul (d a b : BitVec 6) (e : BitVec 1) (s : State) : Host.Outcome State Fault Refusal :=
  guarded (.mul d a b e) s (aluRR (· * ·) d a b e)

/-- MULH (R186). -/
def execMulh (d a b : BitVec 6) (e : BitVec 1) (s : State) : Host.Outcome State Fault Refusal :=
  guarded (.mulh d a b e) s (aluRR mulhS d a b e)

/-- MULHN (R186). -/
def execMulhn (d a b : BitVec 6) (e : BitVec 1) (s : State) : Host.Outcome State Fault Refusal :=
  guarded (.mulhn d a b e) s (aluRR mulhU d a b e)

/-- DIV (R186). -/
def execDiv (d a b : BitVec 6) (e : BitVec 1) (s : State) : Host.Outcome State Fault Refusal :=
  guarded (.div d a b e) s (aluRR divS d a b e)

/-- DIVN (R186). -/
def execDivn (d a b : BitVec 6) (e : BitVec 1) (s : State) : Host.Outcome State Fault Refusal :=
  guarded (.divn d a b e) s (aluRR divU d a b e)

/-- REM (R186). -/
def execRem (d a b : BitVec 6) (e : BitVec 1) (s : State) : Host.Outcome State Fault Refusal :=
  guarded (.rem d a b e) s (aluRR remS d a b e)

/-- REMN (R186). -/
def execRemn (d a b : BitVec 6) (e : BitVec 1) (s : State) : Host.Outcome State Fault Refusal :=
  guarded (.remn d a b e) s (aluRR remU d a b e)

/-- AND (R186). -/
def execAnd (d a b : BitVec 6) (e : BitVec 1) (s : State) : Host.Outcome State Fault Refusal :=
  guarded (.and d a b e) s (aluRR (· &&& ·) d a b e)

/-- OR (R186). -/
def execOr (d a b : BitVec 6) (e : BitVec 1) (s : State) : Host.Outcome State Fault Refusal :=
  guarded (.or d a b e) s (aluRR (· ||| ·) d a b e)

/-- XOR (R186). -/
def execXor (d a b : BitVec 6) (e : BitVec 1) (s : State) : Host.Outcome State Fault Refusal :=
  guarded (.xor d a b e) s (aluRR (· ^^^ ·) d a b e)

/-- ANDN (R186). -/
def execAndn (d a b : BitVec 6) (e : BitVec 1) (s : State) : Host.Outcome State Fault Refusal :=
  guarded (.andn d a b e) s (aluRR andnW d a b e)

/-- SHL (R186). -/
def execShl (d a b : BitVec 6) (e : BitVec 1) (s : State) : Host.Outcome State Fault Refusal :=
  guarded (.shl d a b e) s (aluRR shlW d a b e)

/-- SHR (R186). -/
def execShr (d a b : BitVec 6) (e : BitVec 1) (s : State) : Host.Outcome State Fault Refusal :=
  guarded (.shr d a b e) s (aluRR shrW d a b e)

/-- SRA (R186). -/
def execSra (d a b : BitVec 6) (e : BitVec 1) (s : State) : Host.Outcome State Fault Refusal :=
  guarded (.sra d a b e) s (aluRR sraW d a b e)

/-- ROT (R186). -/
def execRot (d a b : BitVec 6) (e : BitVec 1) (s : State) : Host.Outcome State Fault Refusal :=
  guarded (.rot d a b e) s (aluRR rotW d a b e)

/-- MIN (R186). -/
def execMin (d a b : BitVec 6) (e : BitVec 1) (s : State) : Host.Outcome State Fault Refusal :=
  guarded (.min d a b e) s (aluRR minS d a b e)

/-- MAX (R186). -/
def execMax (d a b : BitVec 6) (e : BitVec 1) (s : State) : Host.Outcome State Fault Refusal :=
  guarded (.max d a b e) s (aluRR maxS d a b e)

/-- MINN (R186). -/
def execMinn (d a b : BitVec 6) (e : BitVec 1) (s : State) : Host.Outcome State Fault Refusal :=
  guarded (.minn d a b e) s (aluRR minU d a b e)

/-- MAXN (R186). -/
def execMaxn (d a b : BitVec 6) (e : BitVec 1) (s : State) : Host.Outcome State Fault Refusal :=
  guarded (.maxn d a b e) s (aluRR maxU d a b e)

/-- CLZ (R186). -/
def execClz (d a : BitVec 6) (e : BitVec 1) (s : State) : Host.Outcome State Fault Refusal :=
  guarded (.clz d a e) s (aluR clzW d a e)

/-- CTZ (R186). -/
def execCtz (d a : BitVec 6) (e : BitVec 1) (s : State) : Host.Outcome State Fault Refusal :=
  guarded (.ctz d a e) s (aluR ctzW d a e)

/-- POPC (R186). -/
def execPopc (d a : BitVec 6) (e : BitVec 1) (s : State) : Host.Outcome State Fault Refusal :=
  guarded (.popc d a e) s (aluR popcW d a e)

/-- BSWAP (R186). -/
def execBswap (d a : BitVec 6) (e : BitVec 1) (s : State) : Host.Outcome State Fault Refusal :=
  guarded (.bswap d a e) s (aluR bswapW d a e)

/-- ADD with an immediate (R186, 03 R69). -/
def execAddImm (d a : BitVec 6) (i : BitVec 12) (s : State) : Host.Outcome State Fault Refusal :=
  guarded (.addImm d a i) s (aluRI (· + ·) d a (immS i))

/-- MUL with an immediate (R186, 03 R69). -/
def execMulImm (d a : BitVec 6) (i : BitVec 12) (s : State) : Host.Outcome State Fault Refusal :=
  guarded (.mulImm d a i) s (aluRI (· * ·) d a (immS i))

/-- AND with an immediate (R186, 03 R69). -/
def execAndImm (d a : BitVec 6) (i : BitVec 12) (s : State) : Host.Outcome State Fault Refusal :=
  guarded (.andImm d a i) s (aluRI (· &&& ·) d a (immS i))

/-- OR with an immediate (R186, 03 R69). -/
def execOrImm (d a : BitVec 6) (i : BitVec 12) (s : State) : Host.Outcome State Fault Refusal :=
  guarded (.orImm d a i) s (aluRI (· ||| ·) d a (immS i))

/-- XOR with an immediate (R186, 03 R69). -/
def execXorImm (d a : BitVec 6) (i : BitVec 12) (s : State) : Host.Outcome State Fault Refusal :=
  guarded (.xorImm d a i) s (aluRI (· ^^^ ·) d a (immS i))

/-- MIN with an immediate (R186, 03 R69). -/
def execMinImm (d a : BitVec 6) (i : BitVec 10) (s : State) : Host.Outcome State Fault Refusal :=
  guarded (.minImm d a i) s (aluRI minS d a (immS i))

/-- MAX with an immediate (R186, 03 R69). -/
def execMaxImm (d a : BitVec 6) (i : BitVec 10) (s : State) : Host.Outcome State Fault Refusal :=
  guarded (.maxImm d a i) s (aluRI maxS d a (immS i))

/-- MINN with an immediate (R186, 03 R69). -/
def execMinnImm (d a : BitVec 6) (i : BitVec 10) (s : State) : Host.Outcome State Fault Refusal :=
  guarded (.minnImm d a i) s (aluRI minU d a (immU i))

/-- MAXN with an immediate (R186, 03 R69). -/
def execMaxnImm (d a : BitVec 6) (i : BitVec 10) (s : State) : Host.Outcome State Fault Refusal :=
  guarded (.maxnImm d a i) s (aluRI maxU d a (immU i))

/-- SHL with an immediate (R186, 03 R69). -/
def execShlImm (d a : BitVec 6) (i : BitVec 6) (s : State) : Host.Outcome State Fault Refusal :=
  guarded (.shlImm d a i) s (aluRI shlW d a (immU i))

/-- SHR with an immediate (R186, 03 R69). -/
def execShrImm (d a : BitVec 6) (i : BitVec 6) (s : State) : Host.Outcome State Fault Refusal :=
  guarded (.shrImm d a i) s (aluRI shrW d a (immU i))

/-- SRA with an immediate (R186, 03 R69). -/
def execSraImm (d a : BitVec 6) (i : BitVec 6) (s : State) : Host.Outcome State Fault Refusal :=
  guarded (.sraImm d a i) s (aluRI sraW d a (immU i))

/-- ROT with an immediate (R186, 03 R69). -/
def execRotImm (d a : BitVec 6) (i : BitVec 6) (s : State) : Host.Outcome State Fault Refusal :=
  guarded (.rotImm d a i) s (aluRI rotW d a (immU i))

/-- SEL (R186, R188): g(a) if the old g(d) is not 0, else g(b). -/
def execSel (d a b : BitVec 6) (e : BitVec 1) (s : State) : Host.Outcome State Fault Refusal :=
  guarded (.sel d a b e) s (fun s => do
    let c := s.genReg d.toNat
    let (x, y, s) ← readTwo a b s
    writeRegE d.toNat (if c ≠ 0 then x else y) (e == 1) s)

/-- CMP (R189). -/
def execCmp (d a b c : BitVec 6) (s : State) : Host.Outcome State Fault Refusal :=
  guarded (.cmp d a b c) s (aluRR (fun x y => boolW (cmpCond c.toNat x y)) d a b 0)

/-- CMP with an immediate (R189). -/
def execCmpImm (d a : BitVec 6) (c : BitVec 4) (i : BitVec 8) (s : State) : Host.Outcome State Fault Refusal :=
  guarded (.cmpImm d a c i) s
    (aluRI (fun x y => boolW (cmpCond c.toNat x y)) d a (if c.toNat ≤ 5 then immS i else immU i))

/-- BFX (R190). -/
def execBfx (d a p w : BitVec 6) (s : State) : Host.Outcome State Fault Refusal :=
  guarded (.bfx d a p w) s (fun s => do
    let (x, s) ← readReg a.toNat s
    writeReg d.toNat (wd (fieldN x.toNat p.toNat (w.toNat + 1))) s)

/-- BFI (R190). -/
def execBfi (d a p w : BitVec 6) (s : State) : Host.Outcome State Fault Refusal :=
  guarded (.bfi d a p w) s (fun s => do
    let old := s.genReg d.toNat
    let (x, s) ← readReg a.toNat s
    writeReg d.toNat (wd (putN old.toNat p.toNat (w.toNat + 1) x.toNat)) s)

/-- LIM (R191). -/
def execLim (d : BitVec 6) (v : BitVec 32) (s : State) : Host.Outcome State Fault Refusal :=
  guarded (.lim d v) s (writeReg d.toNat (immS v))

/-- LIH (R191). -/
def execLih (d : BitVec 6) (v : BitVec 32) (s : State) : Host.Outcome State Fault Refusal :=
  guarded (.lih d v) s (fun s => writeReg d.toNat (wd (v.toNat * 2 ^ 32 + (s.genReg d.toNat).toNat % 2 ^ 32)) s)

end Sys2Proof.Machine
end

