-- ==== Sys2Proof/Machine/Dispatch.lean ====
section
/-! DEFINITION. The dispatch of every instruction and hardware step to its meaning. -/
namespace Sys2Proof.Machine
open Sys2Proof

def exec (i : Instr) (s : State) : Host.Outcome State Fault Refusal :=
  match i with
  | .br c a im => Sys2Proof.Machine.execBr c a im s
  | .call j => Sys2Proof.Machine.execCall j s
  | .jr d a => Sys2Proof.Machine.execJr d a s
  | .btag a => Sys2Proof.Machine.execBtag a s
  | .loop a im => Sys2Proof.Machine.execLoop a im s
  | .ldD d a im => Sys2Proof.Machine.execLdD d a im s
  | .stD d a im => Sys2Proof.Machine.execStD d a im s
  | .ld d a sf o => Sys2Proof.Machine.execLd d a sf o s
  | .st d a sf o => Sys2Proof.Machine.execSt d a sf o s
  | .ldb d a x w => Sys2Proof.Machine.execLdb d a x w s
  | .stb d a w => Sys2Proof.Machine.execStb d a w s
  | .pf a o => Sys2Proof.Machine.execPf a o s
  | .disc a o => Sys2Proof.Machine.execDisc a o s
  | .zline a o => Sys2Proof.Machine.execZline a o s
  | .wbk a o => Sys2Proof.Machine.execWbk a o s
  | .ldfW d a im => Sys2Proof.Machine.execLdfW d a im s
  | .stp d a b z o => Sys2Proof.Machine.execStp d a b z o s
  | .stpm d a b z o => Sys2Proof.Machine.execStpm d a b z o s
  | .aadd z d a b sf f => Sys2Proof.Machine.execAadd z d a b sf f s
  | .amin z d a b sf f => Sys2Proof.Machine.execAmin z d a b sf f s
  | .amax z d a b sf f => Sys2Proof.Machine.execAmax z d a b sf f s
  | .aand z d a b sf f => Sys2Proof.Machine.execAand z d a b sf f s
  | .aor z d a b sf f => Sys2Proof.Machine.execAor z d a b sf f s
  | .axor z d a b sf f => Sys2Proof.Machine.execAxor z d a b sf f s
  | .aswp z d a b sf f => Sys2Proof.Machine.execAswp z d a b sf f s
  | .acas z d a b sf f => Sys2Proof.Machine.execAcas z d a b sf f s
  | .rel d a z sf o => Sys2Proof.Machine.execRel d a z sf o s
  | .acq d a z sf o => Sys2Proof.Machine.execAcq d a z sf o s
  | .afadd d a b sf f => Sys2Proof.Machine.execAfadd d a b sf f s
  | .hbinit a b => Sys2Proof.Machine.execHbinit a b s
  | .hbarr d b => Sys2Proof.Machine.execHbarr d b s
  | .hbwait a b => Sys2Proof.Machine.execHbwait a b s
  | .hbtest d a b => Sys2Proof.Machine.execHbtest d a b s
  | .spawn d a => Sys2Proof.Machine.execSpawn d a s
  | .spawnx d a => Sys2Proof.Machine.execSpawnx d a s
  | .tsig d a => Sys2Proof.Machine.execTsig d a s
  | .tdep d a => Sys2Proof.Machine.execTdep d a s
  | .wake d a => Sys2Proof.Machine.execWake d a s
  | .tret a => Sys2Proof.Machine.execTret a s
  | .bktsel d a => Sys2Proof.Machine.execBktsel d a s
  | .stealctl d a => Sys2Proof.Machine.execStealctl d a s
  | .budget d a b => Sys2Proof.Machine.execBudget d a b s
  | .rbox d a b => Sys2Proof.Machine.execRbox d a b s
  | .rld d a => Sys2Proof.Machine.execRld d a s
  | .rst d a => Sys2Proof.Machine.execRst d a s
  | .runi d a b => Sys2Proof.Machine.execRuni d a b s
  | .rint d a b => Sys2Proof.Machine.execRint d a b s
  | .rsub d a b => Sys2Proof.Machine.execRsub d a b s
  | .rdil d a b => Sys2Proof.Machine.execRdil d a b s
  | .rprj d a b => Sys2Proof.Machine.execRprj d a b s
  | .rspl d a b => Sys2Proof.Machine.execRspl d a b s
  | .rstrd d a b => Sys2Proof.Machine.execRstrd d a b s
  | .rrag d a b => Sys2Proof.Machine.execRrag d a b s
  | .rshf d a b => Sys2Proof.Machine.execRshf d a b s
  | .rcmp d a b => Sys2Proof.Machine.execRcmp d a b s
  | .rcnt d a => Sys2Proof.Machine.execRcnt d a s
  | .rvol d a => Sys2Proof.Machine.execRvol d a s
  | .rtst d a b => Sys2Proof.Machine.execRtst d a b s
  | .copy d a b => Sys2Proof.Machine.execCopy d a b s
  | .cwait a b => Sys2Proof.Machine.execCwait a b s
  | .cwp d a => Sys2Proof.Machine.execCwp d a s
  | .pres d a => Sys2Proof.Machine.execPres d a s
  | .gath d a b => Sys2Proof.Machine.execGath d a b s
  | .scat d a b => Sys2Proof.Machine.execScat d a b s
  | .migr a => Sys2Proof.Machine.execMigr a s
  | .tseq d a => Sys2Proof.Machine.execTseq d a s
  | .tseqWt a b => Sys2Proof.Machine.execTseqWt a b s
  | .fopen d a => Sys2Proof.Machine.execFopen d a s
  | .fnext d a => Sys2Proof.Machine.execFnext d a s
  | .fnextge d a b => Sys2Proof.Machine.execFnextge d a b s
  | .fend d a => Sys2Proof.Machine.execFend d a s
  | .mclaim d a b => Sys2Proof.Machine.execMclaim d a b s
  | .mrel a b => Sys2Proof.Machine.execMrel a b s
  | .mlda d a b => Sys2Proof.Machine.execMlda d a b s
  | .mldaRg d a b => Sys2Proof.Machine.execMldaRg d a b s
  | .mldaSt d a b => Sys2Proof.Machine.execMldaSt d a b s
  | .mldaAv d a b => Sys2Proof.Machine.execMldaAv d a b s
  | .mldb d a b => Sys2Proof.Machine.execMldb d a b s
  | .mldbRg d a b => Sys2Proof.Machine.execMldbRg d a b s
  | .mldbSt d a b => Sys2Proof.Machine.execMldbSt d a b s
  | .mldbAv d a b => Sys2Proof.Machine.execMldbAv d a b s
  | .mseq d a => Sys2Proof.Machine.execMseq d a s
  | .mwait a b => Sys2Proof.Machine.execMwait a b s
  | .mrec a => Sys2Proof.Machine.execMrec a s
  | .mrev a => Sys2Proof.Machine.execMrev a s
  | .mlog a => Sys2Proof.Machine.execMlog a s
  | .mqw d a => Sys2Proof.Machine.execMqw d a s
  | .tmma a b => Sys2Proof.Machine.execTmma a b s
  | .tmmaRdy t a b => Sys2Proof.Machine.execTmmaRdy t a b s
  | .tmmt a b => Sys2Proof.Machine.execTmmt a b s
  | .tmmtRdy t a b => Sys2Proof.Machine.execTmmtRdy t a b s
  | .ttmm a b => Sys2Proof.Machine.execTtmm a b s
  | .ttmmRdy t a b => Sys2Proof.Machine.execTtmmRdy t a b s
  | .tadd a => Sys2Proof.Machine.execTadd a s
  | .taddRdy t a => Sys2Proof.Machine.execTaddRdy t a s
  | .tmul a => Sys2Proof.Machine.execTmul a s
  | .tmulRdy t a => Sys2Proof.Machine.execTmulRdy t a s
  | .tsclMul a => Sys2Proof.Machine.execTsclMul a s
  | .tsclMulRdy t a => Sys2Proof.Machine.execTsclMulRdy t a s
  | .tsclSet a => Sys2Proof.Machine.execTsclSet a s
  | .tsclSetRdy t a => Sys2Proof.Machine.execTsclSetRdy t a s
  | .texp a => Sys2Proof.Machine.execTexp a s
  | .texpRdy t a => Sys2Proof.Machine.execTexpRdy t a s
  | .trmax a => Sys2Proof.Machine.execTrmax a s
  | .trsum a => Sys2Proof.Machine.execTrsum a s
  | .tcvt a => Sys2Proof.Machine.execTcvt a s
  | .ttrn a b => Sys2Proof.Machine.execTtrn a b s
  | .tactReluRdy t => Sys2Proof.Machine.execTactReluRdy t s
  | .tactSqreluRdy t => Sys2Proof.Machine.execTactSqreluRdy t s
  | .tactTanhRdy t => Sys2Proof.Machine.execTactTanhRdy t s
  | .kopen d a b => Sys2Proof.Machine.execKopen d a b s
  | .kclose d a => Sys2Proof.Machine.execKclose d a s
  | .kapp d a b => Sys2Proof.Machine.execKapp d a b s
  | .kacc d a => Sys2Proof.Machine.execKacc d a s
  | .krej d => Sys2Proof.Machine.execKrej d s
  | .kpb d a b => Sys2Proof.Machine.execKpb d a b s
  | .kspl d a b => Sys2Proof.Machine.execKspl d a b s
  | .kfork d a => Sys2Proof.Machine.execKfork d a s
  | .kload d a b => Sys2Proof.Machine.execKload d a b s
  | .kval d a b => Sys2Proof.Machine.execKval d a b s
  | .kmarg d a b => Sys2Proof.Machine.execKmarg d a b s
  | .kpfx d a b => Sys2Proof.Machine.execKpfx d a b s
  | .kins d a b => Sys2Proof.Machine.execKins d a b s
  | .ktent d a => Sys2Proof.Machine.execKtent d a s
  | .kdropt d => Sys2Proof.Machine.execKdropt d s
  | .kseq d a => Sys2Proof.Machine.execKseq d a s
  | .kseqWt a b => Sys2Proof.Machine.execKseqWt a b s
  | .ccomm d a => Sys2Proof.Machine.execCcomm d a s
  | .ctt a b => Sys2Proof.Machine.execCtt a b s
  | .crdy a => Sys2Proof.Machine.execCrdy a s
  | .cpost d a => Sys2Proof.Machine.execCpost d a s
  | .cpoll d a b => Sys2Proof.Machine.execCpoll d a b s
  | .cwaitf a b => Sys2Proof.Machine.execCwaitf a b s
  | .cbar d => Sys2Proof.Machine.execCbar d s
  | .cstat d a => Sys2Proof.Machine.execCstat d a s
  | .cclose d => Sys2Proof.Machine.execCclose d s
  | .cseq d a => Sys2Proof.Machine.execCseq d a s
  | .cseqWt a b => Sys2Proof.Machine.execCseqWt a b s
  | .carb d a => Sys2Proof.Machine.execCarb d a s
  | .mfk d a => Sys2Proof.Machine.execMfk d a s
  | .mtk d a => Sys2Proof.Machine.execMtk d a s
  | .sleep a => Sys2Proof.Machine.execSleep a s
  | .repart d a => Sys2Proof.Machine.execRepart d a s
  | .pgmig d a b => Sys2Proof.Machine.execPgmig d a b s
  | .pgheat d a b => Sys2Proof.Machine.execPgheat d a b s
  | .rowret d a => Sys2Proof.Machine.execRowret d a s
  | .shoot a b => Sys2Proof.Machine.execShoot a b s
  | .pgref d a b => Sys2Proof.Machine.execPgref d a b s
  | .plbw d a b => Sys2Proof.Machine.execPlbw d a b s
  | .domset d a b => Sys2Proof.Machine.execDomset d a b s
  | .irq a b => Sys2Proof.Machine.execIrq a b s
  | .dreset d a => Sys2Proof.Machine.execDreset d a s
  | .qosp d a => Sys2Proof.Machine.execQosp d a s
  | .add d a b e => Sys2Proof.Machine.execAdd d a b e s
  | .sub d a b e => Sys2Proof.Machine.execSub d a b e s
  | .mul d a b e => Sys2Proof.Machine.execMul d a b e s
  | .mulh d a b e => Sys2Proof.Machine.execMulh d a b e s
  | .mulhn d a b e => Sys2Proof.Machine.execMulhn d a b e s
  | .div d a b e => Sys2Proof.Machine.execDiv d a b e s
  | .divn d a b e => Sys2Proof.Machine.execDivn d a b e s
  | .rem d a b e => Sys2Proof.Machine.execRem d a b e s
  | .remn d a b e => Sys2Proof.Machine.execRemn d a b e s
  | .and d a b e => Sys2Proof.Machine.execAnd d a b e s
  | .or d a b e => Sys2Proof.Machine.execOr d a b e s
  | .xor d a b e => Sys2Proof.Machine.execXor d a b e s
  | .andn d a b e => Sys2Proof.Machine.execAndn d a b e s
  | .shl d a b e => Sys2Proof.Machine.execShl d a b e s
  | .shr d a b e => Sys2Proof.Machine.execShr d a b e s
  | .sra d a b e => Sys2Proof.Machine.execSra d a b e s
  | .rot d a b e => Sys2Proof.Machine.execRot d a b e s
  | .min d a b e => Sys2Proof.Machine.execMin d a b e s
  | .max d a b e => Sys2Proof.Machine.execMax d a b e s
  | .minn d a b e => Sys2Proof.Machine.execMinn d a b e s
  | .maxn d a b e => Sys2Proof.Machine.execMaxn d a b e s
  | .sel d a b e => Sys2Proof.Machine.execSel d a b e s
  | .clz d a e => Sys2Proof.Machine.execClz d a e s
  | .ctz d a e => Sys2Proof.Machine.execCtz d a e s
  | .popc d a e => Sys2Proof.Machine.execPopc d a e s
  | .bswap d a e => Sys2Proof.Machine.execBswap d a e s
  | .cmp d a b c => Sys2Proof.Machine.execCmp d a b c s
  | .addImm d a im => Sys2Proof.Machine.execAddImm d a im s
  | .mulImm d a im => Sys2Proof.Machine.execMulImm d a im s
  | .andImm d a im => Sys2Proof.Machine.execAndImm d a im s
  | .orImm d a im => Sys2Proof.Machine.execOrImm d a im s
  | .xorImm d a im => Sys2Proof.Machine.execXorImm d a im s
  | .minImm d a im => Sys2Proof.Machine.execMinImm d a im s
  | .maxImm d a im => Sys2Proof.Machine.execMaxImm d a im s
  | .minnImm d a im => Sys2Proof.Machine.execMinnImm d a im s
  | .maxnImm d a im => Sys2Proof.Machine.execMaxnImm d a im s
  | .shlImm d a sf => Sys2Proof.Machine.execShlImm d a sf s
  | .shrImm d a sf => Sys2Proof.Machine.execShrImm d a sf s
  | .sraImm d a sf => Sys2Proof.Machine.execSraImm d a sf s
  | .rotImm d a sf => Sys2Proof.Machine.execRotImm d a sf s
  | .bfx d a p w => Sys2Proof.Machine.execBfx d a p w s
  | .bfi d a p w => Sys2Proof.Machine.execBfi d a p w s
  | .cmpImm d a c im => Sys2Proof.Machine.execCmpImm d a c im s
  | .lim d v => Sys2Proof.Machine.execLim d v s
  | .lih d v => Sys2Proof.Machine.execLih d v s
  | .fadd d a b r => Sys2Proof.Machine.execFadd d a b r s
  | .fsub d a b r => Sys2Proof.Machine.execFsub d a b r s
  | .fmul d a b r => Sys2Proof.Machine.execFmul d a b r s
  | .fmin d a b => Sys2Proof.Machine.execFmin d a b s
  | .fmax d a b => Sys2Proof.Machine.execFmax d a b s
  | .ffma d a b r => Sys2Proof.Machine.execFfma d a b r s
  | .fcmp d a b c => Sys2Proof.Machine.execFcmp d a b c s
  | .fcvt d a r t sf => Sys2Proof.Machine.execFcvt d a r t sf s
  | .vadd h a b m r t => Sys2Proof.Machine.execVadd h a b m r t s
  | .vsub h a b m r t => Sys2Proof.Machine.execVsub h a b m r t s
  | .vmul h a b m r t => Sys2Proof.Machine.execVmul h a b m r t s
  | .vfma h a b m r t => Sys2Proof.Machine.execVfma h a b m r t s
  | .vmin h a b m t => Sys2Proof.Machine.execVmin h a b m t s
  | .vmax h a b m t => Sys2Proof.Machine.execVmax h a b m t s
  | .vabs h a m t => Sys2Proof.Machine.execVabs h a m t s
  | .vneg h a m t => Sys2Proof.Machine.execVneg h a m t s
  | .vand h a b m t => Sys2Proof.Machine.execVand h a b m t s
  | .vor h a b m t => Sys2Proof.Machine.execVor h a b m t s
  | .vxor h a b m t => Sys2Proof.Machine.execVxor h a b m t s
  | .vshl h a b m t => Sys2Proof.Machine.execVshl h a b m t s
  | .vshr h a b m t => Sys2Proof.Machine.execVshr h a b m t s
  | .vcmp h a b m c t => Sys2Proof.Machine.execVcmp h a b m c t s
  | .vsel h a b k t => Sys2Proof.Machine.execVsel h a b k t s
  | .vcvt h a sf m v t => Sys2Proof.Machine.execVcvt h a sf m v t s
  | .vcvtHi h a sf m v t => Sys2Proof.Machine.execVcvtHi h a sf m v t s
  | .vbcast h a m t => Sys2Proof.Machine.execVbcast h a m t s
  | .viota h m t => Sys2Proof.Machine.execViota h m t s
  | .vredAdd h a m t => Sys2Proof.Machine.execVredAdd h a m t s
  | .vredMax h a m t => Sys2Proof.Machine.execVredMax h a m t s
  | .vredMin h a m t => Sys2Proof.Machine.execVredMin h a m t s
  | .vscanInc h a k t => Sys2Proof.Machine.execVscanInc h a k t s
  | .vscanMaxinc h a k t => Sys2Proof.Machine.execVscanMaxinc h a k t s
  | .vscanMininc h a k t => Sys2Proof.Machine.execVscanMininc h a k t s
  | .vscanExc h a k t => Sys2Proof.Machine.execVscanExc h a k t s
  | .vscanMaxexc h a k t => Sys2Proof.Machine.execVscanMaxexc h a k t s
  | .vscanMinexc h a k t => Sys2Proof.Machine.execVscanMinexc h a k t s
  | .vrcp h a m t => Sys2Proof.Machine.execVrcp h a m t s
  | .vrsq h a m t => Sys2Proof.Machine.execVrsq h a m t s
  | .vsqrt h a m t => Sys2Proof.Machine.execVsqrt h a m t s
  | .vexp h a m t => Sys2Proof.Machine.execVexp h a m t s
  | .vexp2 h a m t => Sys2Proof.Machine.execVexp2 h a m t s
  | .vlog h a m t => Sys2Proof.Machine.execVlog h a m t s
  | .vlog2 h a m t => Sys2Proof.Machine.execVlog2 h a m t s
  | .vtanh h a m t => Sys2Proof.Machine.execVtanh h a m t s
  | .vshape h a => Sys2Proof.Machine.execVshape h a s
  | .vloop k a => Sys2Proof.Machine.execVloop k a s
  | .jmp j => Sys2Proof.Machine.execJmp j s
  | .fence sf => Sys2Proof.Machine.execFence sf s
  | .fclose a => Sys2Proof.Machine.execFclose a s
  | .trap c => Sys2Proof.Machine.execTrap c s
  | .sysc c => Sys2Proof.Machine.execSysc c s
  | .nop => Sys2Proof.Machine.execNop s
  | .align => Sys2Proof.Machine.execAlign s
  | .susp => Sys2Proof.Machine.execSusp s
  | .yield => Sys2Proof.Machine.execYield s
  | .tactRelu => Sys2Proof.Machine.execTactRelu s
  | .tactSqrelu => Sys2Proof.Machine.execTactSqrelu s
  | .tactTanh => Sys2Proof.Machine.execTactTanh s
  | .rett => Sys2Proof.Machine.execRett s
  | .halt => Sys2Proof.Machine.execHalt s
  | .vsync => Sys2Proof.Machine.execVsync s
  | .vtbl => Sys2Proof.Machine.execVtbl s
  | .pushCopyInstall core ctx busy => Sys2Proof.Machine.execPushCopyInstall core ctx busy s
  | .copyUnitDelivery sq ch => Sys2Proof.Machine.execCopyUnitDelivery sq ch s
  | .gatherElementDelivery sq ch => Sys2Proof.Machine.execGatherElementDelivery sq ch s
  | .scatterElementWrite sq ch => Sys2Proof.Machine.execScatterElementWrite sq ch s
  | .migrationShip sq core => Sys2Proof.Machine.execMigrationShip sq core s
  | .reuseCountHalving sq => Sys2Proof.Machine.execReuseCountHalving sq s
  | .fillExecute sq core idx => Sys2Proof.Machine.execFillExecute sq core idx s
  | .tileOpcodeStart sq => Sys2Proof.Machine.execTileOpcodeStart sq s
  | .tileOpcodeComplete sq => Sys2Proof.Machine.execTileOpcodeComplete sq s
  | .mrevExecute sq core => Sys2Proof.Machine.execMrevExecute sq core s
  | .kopenExecute sq sc => Sys2Proof.Machine.execKopenExecute sq sc s
  | .kcloseExecute sq sc => Sys2Proof.Machine.execKcloseExecute sq sc s
  | .kappExecute sq sc => Sys2Proof.Machine.execKappExecute sq sc s
  | .pageAllocate sq sc => Sys2Proof.Machine.execPageAllocate sq sc s
  | .kaccExecute sq sc => Sys2Proof.Machine.execKaccExecute sq sc s
  | .krejExecute sq sc => Sys2Proof.Machine.execKrejExecute sq sc s
  | .kpbExecute sq sc => Sys2Proof.Machine.execKpbExecute sq sc s
  | .ksplExecute sq sc => Sys2Proof.Machine.execKsplExecute sq sc s
  | .kforkExecute sq sc => Sys2Proof.Machine.execKforkExecute sq sc s
  | .kloadExecute sq sc => Sys2Proof.Machine.execKloadExecute sq sc s
  | .kvalExecute sq sc => Sys2Proof.Machine.execKvalExecute sq sc s
  | .kmargExecute sq sc => Sys2Proof.Machine.execKmargExecute sq sc s
  | .ktentExecute sq sc => Sys2Proof.Machine.execKtentExecute sq sc s
  | .kdroptExecute sq sc => Sys2Proof.Machine.execKdroptExecute sq sc s
  | .ccommExecute sq cm => Sys2Proof.Machine.execCcommExecute sq cm s
  | .cttExecute sq cm => Sys2Proof.Machine.execCttExecute sq cm s
  | .postStart sq cm => Sys2Proof.Machine.execPostStart sq cm s
  | .chunkSend sq => Sys2Proof.Machine.execChunkSend sq s
  | .chunkArrival sq cm => Sys2Proof.Machine.execChunkArrival sq cm s
  | .connectArrival sq cm => Sys2Proof.Machine.execConnectArrival sq cm s
  | .freedReport sq cm => Sys2Proof.Machine.execFreedReport sq cm s
  | .barrierTokenArrival sq cm => Sys2Proof.Machine.execBarrierTokenArrival sq cm s
  | .disconnectArrival sq cm => Sys2Proof.Machine.execDisconnectArrival sq cm s
  | .postComplete sq cm => Sys2Proof.Machine.execPostComplete sq cm s
  | .tileEntryFire sq ent => Sys2Proof.Machine.execTileEntryFire sq ent s
  | .firingComplete sq ent => Sys2Proof.Machine.execFiringComplete sq ent s
  | .ccloseExecute sq cm => Sys2Proof.Machine.execCcloseExecute sq cm s
  | .collectiveEventDelivery core => Sys2Proof.Machine.execCollectiveEventDelivery core s
  | .kpreqSet core ctx => Sys2Proof.Machine.execKpreqSet core ctx s
  | .kpreqClear core ctx => Sys2Proof.Machine.execKpreqClear core ctx s
  | .preemptStop core ctx => Sys2Proof.Machine.execPreemptStop core ctx s
  | .sleepDeadline core ctx => Sys2Proof.Machine.execSleepDeadline core ctx s
  | .repartSwitch core => Sys2Proof.Machine.execRepartSwitch core s
  | .vectorEntryBegin core => Sys2Proof.Machine.execVectorEntryBegin core s
  | .vectorEntryComplete core => Sys2Proof.Machine.execVectorEntryComplete core s
  | .dispatchTask core ctx => Sys2Proof.Machine.execDispatchTask core ctx s
  | .dispatchContinuation core ctx => Sys2Proof.Machine.execDispatchContinuation core ctx s
  | .stealRequest core ctx => Sys2Proof.Machine.execStealRequest core ctx s
  | .budgetPeriodStart dom res inst => Sys2Proof.Machine.execBudgetPeriodStart dom res inst s
  | .wakeMessage core ctx page => Sys2Proof.Machine.execWakeMessage core ctx page s
  | .poolBlockFree core => Sys2Proof.Machine.execPoolBlockFree core s
  | .packetHeaderAccept core ctx => Sys2Proof.Machine.execPacketHeaderAccept core ctx s
  | .portUnitArrival core ctx port => Sys2Proof.Machine.execPortUnitArrival core ctx port s
  | .faultRingRetry dom => Sys2Proof.Machine.execFaultRingRetry dom s
  | .homeRecall core ctx => Sys2Proof.Machine.execHomeRecall core ctx s
  | .migrationStart district => Sys2Proof.Machine.execMigrationStart district s
  | .migrationLineCopy district => Sys2Proof.Machine.execMigrationLineCopy district s
  | .migrationFinish district => Sys2Proof.Machine.execMigrationFinish district s
  | .heatPeriodHalving => Sys2Proof.Machine.execHeatPeriodHalving s
  | .scrubPass line bad => Sys2Proof.Machine.execScrubPass line bad s
  | .powerUp listOk => Sys2Proof.Machine.execPowerUp listOk s
  | .partReady part => Sys2Proof.Machine.execPartReady part s
  | .partOutOfService part => Sys2Proof.Machine.execPartOutOfService part s
  | .linkPortFailure port => Sys2Proof.Machine.execLinkPortFailure port s
  | .flitCrcRetry port => Sys2Proof.Machine.execFlitCrcRetry port s
  | .packageReset => Sys2Proof.Machine.execPackageReset s
  | .functionLevelReset fn => Sys2Proof.Machine.execFunctionLevelReset fn s
  | .firmwareUpdate image => Sys2Proof.Machine.execFirmwareUpdate image s
  | .attestationRequest idx => Sys2Proof.Machine.execAttestationRequest idx s
  | .clockStep up => Sys2Proof.Machine.execClockStep up s
  | .lrtail fn tail => Sys2Proof.Machine.execLrtail fn tail s
  | .launchRingEntry fn => Sys2Proof.Machine.execLaunchRingEntry fn s
  | .barRegisterWrite fn off v => Sys2Proof.Machine.execBarRegisterWrite fn off v s
  | .memoryReply core ctx => Sys2Proof.Machine.execMemoryReply core ctx s
  | .hostMemoryAccess wr addr data => Sys2Proof.Machine.execHostMemoryAccess wr addr data s
  | .corePowerGating core => Sys2Proof.Machine.execCorePowerGating core s

end Sys2Proof.Machine
end

