-- ==== Sys2Proof/Machine/Step.lean ====
section
/-! DEFINITION. One step of the package, and the fetch of a word of the opcode table (log 2, log 4). -/
namespace Sys2Proof.Machine
open Sys2Proof

/-- One step: the next hardware step of the agenda, else the next core's turn in the cycle, else the end of the cycle
(log 2). -/
noncomputable def step (s : State) : Host.Outcome State Fault Refusal :=
  match s.agenda with
  | e :: r => exec e { s with agenda := r }
  | [] =>
    if s.turn < 1024 then turnStep exec s
    else .next (nextCycle s)

/-- The state whose next step fetches and runs the instruction of the table with bits `w` (log 4). -/
def State.withFetchWord (s : State) (nbits w : Nat) : State := placeBundle s (w % 2 ^ nbits)

end Sys2Proof.Machine
end

