-- ==== Sys2Proof/Laws/PerInstr.lean ====
section
/-! SUPPORT. Encoding and decoding agree, instruction by instruction (03 R53 to R75). -/
namespace Sys2Proof.Laws

/-- A field read from a number is the field's value. -/
theorem ofNat_field {n : Nat} (x : BitVec n) (k : Nat) (h : k % 2 ^ n = x.toNat) : BitVec.ofNat n k = x := by
  apply BitVec.eq_of_toNat_eq
  rw [BitVec.toNat_ofNat, h]

/-! ### Where the fields of each layout stand -/

theorem layout_0 (w B l x0 x1 x2 : Nat) (_ : B / 262144 % 64 = 0) (_ : B / 4096 % 64 = 0) (_ : B % 4096 = 0) (_ : B < 2147483648) (_ : x0 < 64)
    (_ : x1 < 64) (_ : x2 < 4096) (_ : l ≤ 1) (_ : w = B + x0 * 262144 + x1 * 4096 + x2 + l * 2147483648) :
    w / 1073741824 % 2 = B / 1073741824 % 2 ∧ w / 16777216 % 64 = B / 16777216 % 64 ∧ w / 262144 % 64 = x0 ∧
    w / 4096 % 64 = x1 ∧ w % 4096 = x2 := by
  refine ⟨?_, ?_, ?_, ?_, ?_⟩ <;> omega

theorem layout_1 (w B l x0 : Nat) (_ : B % 16777216 = 0) (_ : B < 2147483648) (_ : x0 < 16777216) (_ : l ≤ 1) (_ : w = B + x0 + l * 2147483648) :
    w / 1073741824 % 2 = B / 1073741824 % 2 ∧ w / 16777216 % 64 = B / 16777216 % 64 ∧ w % 16777216 = x0 := by
  refine ⟨?_, ?_, ?_⟩ <;> omega

theorem layout_2 (w B l x0 x1 : Nat) (_ : B / 262144 % 64 = 0) (_ : B / 4096 % 64 = 0) (_ : B < 2147483648) (_ : x0 < 64) (_ : x1 < 64) (_ : l ≤ 1)
    (_ : w = B + x0 * 262144 + x1 * 4096 + l * 2147483648) :
    w / 1073741824 % 2 = B / 1073741824 % 2 ∧ w / 16777216 % 64 = B / 16777216 % 64 ∧ w % 64 = B % 64 ∧
    w % 4096 = B % 4096 ∧ w / 262144 % 64 = x0 ∧ w / 4096 % 64 = x1 := by
  refine ⟨?_, ?_, ?_, ?_, ?_, ?_⟩ <;> omega

theorem layout_3 (w B l x0 : Nat) (_ : B / 4096 % 64 = 0) (_ : B < 2147483648) (_ : x0 < 64) (_ : l ≤ 1)
    (_ : w = B + x0 * 4096 + l * 2147483648) :
    w / 1073741824 % 2 = B / 1073741824 % 2 ∧ w / 16777216 % 64 = B / 16777216 % 64 ∧ w % 64 = B % 64 ∧
    w % 4096 = B % 4096 ∧ w / 262144 % 64 = B / 262144 % 64 ∧ w / 4096 % 64 = x0 := by
  refine ⟨?_, ?_, ?_, ?_, ?_, ?_⟩ <;> omega

theorem layout_4 (w B l x0 x1 : Nat) (_ : B / 4096 % 64 = 0) (_ : B % 4096 = 0) (_ : B < 2147483648) (_ : x0 < 64) (_ : x1 < 4096) (_ : l ≤ 1)
    (_ : w = B + x0 * 4096 + x1 + l * 2147483648) :
    w / 1073741824 % 2 = B / 1073741824 % 2 ∧ w / 16777216 % 64 = B / 16777216 % 64 ∧
    w / 262144 % 64 = B / 262144 % 64 ∧ w / 4096 % 64 = x0 ∧ w % 4096 = x1 := by
  refine ⟨?_, ?_, ?_, ?_, ?_⟩ <;> omega

theorem layout_5 (w B l : Nat) (_ : B < 2147483648) (_ : l ≤ 1) (_ : w = B + l * 2147483648) :
    w / 1073741824 % 2 = B / 1073741824 % 2 ∧ w / 16777216 % 64 = B / 16777216 % 64 ∧ w % 64 = B % 64 ∧
    w % 16 = B % 16 ∧ w % 1024 = B % 1024 ∧ w % 4096 = B % 4096 ∧ w % 16777216 = B % 16777216 ∧
    w / 65536 % 256 = B / 65536 % 256 ∧ w / 262144 % 64 = B / 262144 % 64 := by
  refine ⟨?_, ?_, ?_, ?_, ?_, ?_, ?_, ?_, ?_⟩ <;> omega

theorem layout_6 (w B l x0 x1 x2 x3 : Nat) (_ : B / 262144 % 64 = 0) (_ : B / 4096 % 64 = 0) (_ : B / 512 % 8 = 0) (_ : B % 512 = 0) (_ : B < 2147483648)
    (_ : x0 < 64) (_ : x1 < 64) (_ : x2 < 8) (_ : x3 < 512) (_ : l ≤ 1)
    (_ : w = B + x0 * 262144 + x1 * 4096 + x2 * 512 + x3 + l * 2147483648) :
    w / 1073741824 % 2 = B / 1073741824 % 2 ∧ w / 16777216 % 64 = B / 16777216 % 64 ∧ w / 262144 % 64 = x0 ∧
    w / 4096 % 64 = x1 ∧ w / 512 % 8 = x2 ∧ w % 512 = x3 := by
  refine ⟨?_, ?_, ?_, ?_, ?_, ?_⟩ <;> omega

theorem layout_7 (w B l x0 x1 x2 x3 : Nat) (_ : B / 262144 % 64 = 0) (_ : B / 4096 % 64 = 0) (_ : B / 1024 % 2 = 0) (_ : B / 32 % 32 = 0)
    (_ : B < 2147483648) (_ : x0 < 64) (_ : x1 < 64) (_ : x2 < 2) (_ : x3 < 32) (_ : l ≤ 1)
    (_ : w = B + x0 * 262144 + x1 * 4096 + x2 * 1024 + x3 * 32 + l * 2147483648) :
    w / 1073741824 % 2 = B / 1073741824 % 2 ∧ w / 16777216 % 64 = B / 16777216 % 64 ∧ w % 32 = B % 32 ∧
    w / 2048 % 2 = B / 2048 % 2 ∧ w / 262144 % 64 = x0 ∧ w / 4096 % 64 = x1 ∧ w / 1024 % 2 = x2 ∧
    w / 32 % 32 = x3 := by
  refine ⟨?_, ?_, ?_, ?_, ?_, ?_, ?_, ?_⟩ <;> omega

theorem layout_8 (w B l x0 x1 x2 : Nat) (_ : B / 262144 % 64 = 0) (_ : B / 4096 % 64 = 0) (_ : B / 32 % 32 = 0) (_ : B < 2147483648) (_ : x0 < 64)
    (_ : x1 < 64) (_ : x2 < 32) (_ : l ≤ 1) (_ : w = B + x0 * 262144 + x1 * 4096 + x2 * 32 + l * 2147483648) :
    w / 1073741824 % 2 = B / 1073741824 % 2 ∧ w / 16777216 % 64 = B / 16777216 % 64 ∧ w % 32 = B % 32 ∧
    w / 1024 % 4 = B / 1024 % 4 ∧ w / 2048 % 2 = B / 2048 % 2 ∧ w / 262144 % 64 = x0 ∧ w / 4096 % 64 = x1 ∧
    w / 32 % 32 = x2 := by
  refine ⟨?_, ?_, ?_, ?_, ?_, ?_, ?_, ?_⟩ <;> omega

theorem layout_9 (w B l x0 x1 x2 x3 x4 : Nat) (_ : B / 262144 % 64 = 0) (_ : B / 4096 % 64 = 0) (_ : B / 64 % 64 = 0) (_ : B / 16 % 2 = 0) (_ : B % 16 = 0)
    (_ : B < 2147483648) (_ : x0 < 64) (_ : x1 < 64) (_ : x2 < 64) (_ : x3 < 2) (_ : x4 < 16) (_ : l ≤ 1)
    (_ : w = B + x0 * 262144 + x1 * 4096 + x2 * 64 + x3 * 16 + x4 + l * 2147483648) :
    w / 1073741824 % 2 = B / 1073741824 % 2 ∧ w / 16777216 % 64 = B / 16777216 % 64 ∧ w / 32 % 2 = B / 32 % 2 ∧
    w / 262144 % 64 = x0 ∧ w / 4096 % 64 = x1 ∧ w / 64 % 64 = x2 ∧ w / 16 % 2 = x3 ∧ w % 16 = x4 := by
  refine ⟨?_, ?_, ?_, ?_, ?_, ?_, ?_, ?_⟩ <;> omega

theorem layout_10 (w B l x0 x1 x2 x3 x4 x5 : Nat) (_ : B / 16777216 % 2 = 0) (_ : B / 524288 % 32 = 0) (_ : B / 16384 % 32 = 0) (_ : B / 512 % 32 = 0)
    (_ : B / 64 % 8 = 0) (_ : B % 8 = 0) (_ : B < 2147483648) (_ : x0 < 2) (_ : x1 < 32) (_ : x2 < 32)
    (_ : x3 < 32) (_ : x4 < 8) (_ : x5 < 8) (_ : l ≤ 1)
    (_ : w = B + x0 * 16777216 + x1 * 524288 + x2 * 16384 + x3 * 512 + x4 * 64 + x5 + l * 2147483648) :
    w / 1073741824 % 2 = B / 1073741824 % 2 ∧ w / 16777216 % 64 = B / 16777216 % 64 + x0 ∧ w / 8 % 8 = B / 8 % 8 ∧
    w / 16777216 % 2 = x0 ∧ w / 524288 % 32 = x1 ∧ w / 16384 % 32 = x2 ∧ w / 512 % 32 = x3 ∧ w / 64 % 8 = x4 ∧
    w % 8 = x5 := by
  refine ⟨?_, ?_, ?_, ?_, ?_, ?_, ?_, ?_, ?_⟩ <;> omega

theorem layout_11 (w B l x0 x1 x2 x3 x4 : Nat) (_ : B / 262144 % 64 = 0) (_ : B / 4096 % 64 = 0) (_ : B / 1024 % 2 = 0) (_ : B / 128 % 8 = 0)
    (_ : B % 128 = 0) (_ : B < 2147483648) (_ : x0 < 64) (_ : x1 < 64) (_ : x2 < 2) (_ : x3 < 8) (_ : x4 < 128)
    (_ : l ≤ 1) (_ : w = B + x0 * 262144 + x1 * 4096 + x2 * 1024 + x3 * 128 + x4 + l * 2147483648) :
    w / 1073741824 % 2 = B / 1073741824 % 2 ∧ w / 16777216 % 64 = B / 16777216 % 64 ∧
    w / 2048 % 2 = B / 2048 % 2 ∧ w / 262144 % 64 = x0 ∧ w / 4096 % 64 = x1 ∧ w / 1024 % 2 = x2 ∧
    w / 128 % 8 = x3 ∧ w % 128 = x4 := by
  refine ⟨?_, ?_, ?_, ?_, ?_, ?_, ?_, ?_⟩ <;> omega

theorem layout_12 (w B l x0 x1 x2 x3 x4 : Nat) (_ : B / 524288 % 32 = 0) (_ : B / 16384 % 32 = 0) (_ : B / 512 % 32 = 0) (_ : B / 64 % 8 = 0) (_ : B % 8 = 0)
    (_ : B < 2147483648) (_ : x0 < 32) (_ : x1 < 32) (_ : x2 < 32) (_ : x3 < 8) (_ : x4 < 8) (_ : l ≤ 1)
    (_ : w = B + x0 * 524288 + x1 * 16384 + x2 * 512 + x3 * 64 + x4 + l * 2147483648) :
    w / 1073741824 % 2 = B / 1073741824 % 2 ∧ w / 16777216 % 64 = B / 16777216 % 64 ∧ w / 8 % 8 = B / 8 % 8 ∧
    w / 524288 % 32 = x0 ∧ w / 16384 % 32 = x1 ∧ w / 512 % 32 = x2 ∧ w / 64 % 8 = x3 ∧ w % 8 = x4 := by
  refine ⟨?_, ?_, ?_, ?_, ?_, ?_, ?_, ?_⟩ <;> omega

theorem layout_13 (w B l x0 : Nat) (_ : B / 64 % 8 = 0) (_ : B < 2147483648) (_ : x0 < 8) (_ : l ≤ 1) (_ : w = B + x0 * 64 + l * 2147483648) :
    w / 1073741824 % 2 = B / 1073741824 % 2 ∧ w / 16777216 % 64 = B / 16777216 % 64 ∧ w % 64 = B % 64 ∧
    w / 8 % 8 = B / 8 % 8 ∧ w / 512 % 32768 = B / 512 % 32768 ∧ w / 64 % 8 = x0 := by
  refine ⟨?_, ?_, ?_, ?_, ?_, ?_⟩ <;> omega

theorem layout_14 (w B l x0 x1 : Nat) (_ : B / 4096 % 64 = 0) (_ : B / 64 % 64 = 0) (_ : B < 2147483648) (_ : x0 < 64) (_ : x1 < 64) (_ : l ≤ 1)
    (_ : w = B + x0 * 4096 + x1 * 64 + l * 2147483648) :
    w / 1073741824 % 2 = B / 1073741824 % 2 ∧ w / 16777216 % 64 = B / 16777216 % 64 ∧ w % 64 = B % 64 ∧
    w / 4096 % 64 = x0 ∧ w / 262144 % 64 = B / 262144 % 64 ∧ w / 64 % 64 = x1 := by
  refine ⟨?_, ?_, ?_, ?_, ?_, ?_⟩ <;> omega

theorem layout_15 (w B l x0 x1 : Nat) (_ : B / 262144 % 64 = 0) (_ : B / 64 % 64 = 0) (_ : B < 2147483648) (_ : x0 < 64) (_ : x1 < 64) (_ : l ≤ 1)
    (_ : w = B + x0 * 262144 + x1 * 64 + l * 2147483648) :
    w / 1073741824 % 2 = B / 1073741824 % 2 ∧ w / 16777216 % 64 = B / 16777216 % 64 ∧ w % 64 = B % 64 ∧
    w / 4096 % 64 = B / 4096 % 64 ∧ w / 262144 % 64 = x0 ∧ w / 64 % 64 = x1 := by
  refine ⟨?_, ?_, ?_, ?_, ?_, ?_⟩ <;> omega

theorem layout_16 (w B l x0 x1 x2 : Nat) (_ : B / 262144 % 64 = 0) (_ : B / 4096 % 64 = 0) (_ : B / 64 % 64 = 0) (_ : B < 2147483648) (_ : x0 < 64)
    (_ : x1 < 64) (_ : x2 < 64) (_ : l ≤ 1) (_ : w = B + x0 * 262144 + x1 * 4096 + x2 * 64 + l * 2147483648) :
    w / 1073741824 % 2 = B / 1073741824 % 2 ∧ w / 16777216 % 64 = B / 16777216 % 64 ∧ w % 64 = B % 64 ∧
    w / 8 % 8 = B / 8 % 8 ∧ w / 4096 % 64 = x1 ∧ w / 262144 % 64 = x0 ∧ w / 64 % 64 = x2 := by
  refine ⟨?_, ?_, ?_, ?_, ?_, ?_, ?_⟩ <;> omega

theorem layout_17 (w B l x0 x1 : Nat) (_ : B / 1024 % 64 = 0) (_ : B / 16 % 64 = 0) (_ : B < 2147483648) (_ : x0 < 64) (_ : x1 < 64) (_ : l ≤ 1)
    (_ : w = B + x0 * 1024 + x1 * 16 + l * 2147483648) :
    w / 1073741824 % 2 = B / 1073741824 % 2 ∧ w / 16777216 % 64 = B / 16777216 % 64 ∧ w % 16 = B % 16 ∧
    w / 65536 % 256 = B / 65536 % 256 ∧ w / 1024 % 64 = x0 ∧ w / 16 % 64 = x1 := by
  refine ⟨?_, ?_, ?_, ?_, ?_, ?_⟩ <;> omega

theorem layout_18 (w B l x0 x1 x2 : Nat) (_ : B / 65536 % 256 = 0) (_ : B / 1024 % 64 = 0) (_ : B / 16 % 64 = 0) (_ : B < 2147483648) (_ : x0 < 256)
    (_ : x1 < 64) (_ : x2 < 64) (_ : l ≤ 1) (_ : w = B + x0 * 65536 + x1 * 1024 + x2 * 16 + l * 2147483648) :
    w / 1073741824 % 2 = B / 1073741824 % 2 ∧ w / 16777216 % 64 = B / 16777216 % 64 ∧ w % 16 = B % 16 ∧
    w / 65536 % 256 = x0 ∧ w / 1024 % 64 = x1 ∧ w / 16 % 64 = x2 := by
  refine ⟨?_, ?_, ?_, ?_, ?_, ?_⟩ <;> omega

theorem layout_19 (w B l x0 : Nat) (_ : B / 1024 % 64 = 0) (_ : B < 2147483648) (_ : x0 < 64) (_ : l ≤ 1)
    (_ : w = B + x0 * 1024 + l * 2147483648) :
    w / 1073741824 % 2 = B / 1073741824 % 2 ∧ w / 16777216 % 64 = B / 16777216 % 64 ∧ w % 64 = B % 64 ∧
    w % 16 = B % 16 ∧ w % 1024 = B % 1024 ∧ w / 65536 % 256 = B / 65536 % 256 ∧ w / 1024 % 64 = x0 := by
  refine ⟨?_, ?_, ?_, ?_, ?_, ?_, ?_⟩ <;> omega

theorem layout_20 (w B l x0 x1 : Nat) (_ : B / 65536 % 256 = 0) (_ : B / 1024 % 64 = 0) (_ : B < 2147483648) (_ : x0 < 256) (_ : x1 < 64)
    (_ : l ≤ 1) (_ : w = B + x0 * 65536 + x1 * 1024 + l * 2147483648) :
    w / 1073741824 % 2 = B / 1073741824 % 2 ∧ w / 16777216 % 64 = B / 16777216 % 64 ∧ w % 64 = B % 64 ∧
    w % 16 = B % 16 ∧ w % 1024 = B % 1024 ∧ w / 65536 % 256 = x0 ∧ w / 1024 % 64 = x1 := by
  refine ⟨?_, ?_, ?_, ?_, ?_, ?_, ?_⟩ <;> omega

theorem layout_21 (w B l x0 : Nat) (_ : B / 65536 % 256 = 0) (_ : B < 2147483648) (_ : x0 < 256) (_ : l ≤ 1)
    (_ : w = B + x0 * 65536 + l * 2147483648) :
    w / 1073741824 % 2 = B / 1073741824 % 2 ∧ w / 16777216 % 64 = B / 16777216 % 64 ∧ w % 64 = B % 64 ∧
    w % 16 = B % 16 ∧ w % 1024 = B % 1024 ∧ w % 65536 = B % 65536 ∧ w / 65536 % 256 = x0 := by
  refine ⟨?_, ?_, ?_, ?_, ?_, ?_, ?_⟩ <;> omega

theorem layout_22 (w B l x0 : Nat) (_ : B / 262144 % 64 = 0) (_ : B < 2147483648) (_ : x0 < 64) (_ : l ≤ 1)
    (_ : w = B + x0 * 262144 + l * 2147483648) :
    w / 1073741824 % 2 = B / 1073741824 % 2 ∧ w / 16777216 % 64 = B / 16777216 % 64 ∧ w % 64 = B % 64 ∧
    w % 4096 = B % 4096 ∧ w % 262144 = B % 262144 ∧ w / 262144 % 64 = x0 := by
  refine ⟨?_, ?_, ?_, ?_, ?_, ?_⟩ <;> omega

theorem layout_23 (w B l x0 : Nat) (_ : B / 64 % 262144 = 0) (_ : B < 2147483648) (_ : x0 < 262144) (_ : l ≤ 1)
    (_ : w = B + x0 * 64 + l * 2147483648) :
    w / 1073741824 % 2 = B / 1073741824 % 2 ∧ w / 16777216 % 64 = B / 16777216 % 64 ∧ w % 64 = B % 64 ∧
    w / 64 % 262144 = x0 := by
  refine ⟨?_, ?_, ?_, ?_⟩ <;> omega

theorem layout_24 (w B l x0 x1 x2 x3 : Nat) (_ : B / 262144 % 64 = 0) (_ : B / 4096 % 64 = 0) (_ : B / 64 % 64 = 0) (_ : B / 32 % 2 = 0)
    (_ : B < 2147483648) (_ : x0 < 64) (_ : x1 < 64) (_ : x2 < 64) (_ : x3 < 2) (_ : l ≤ 1)
    (_ : w = B + x0 * 262144 + x1 * 4096 + x2 * 64 + x3 * 32 + l * 2147483648) :
    w / 1073741824 % 2 = B / 1073741824 % 2 ∧ w / 16777216 % 64 = B / 16777216 % 64 ∧ w % 32 = B % 32 ∧
    w / 262144 % 64 = x0 ∧ w / 4096 % 64 = x1 ∧ w / 64 % 64 = x2 ∧ w / 32 % 2 = x3 := by
  refine ⟨?_, ?_, ?_, ?_, ?_, ?_, ?_⟩ <;> omega

theorem layout_25 (w B l x0 x1 x2 : Nat) (_ : B / 262144 % 64 = 0) (_ : B / 4096 % 64 = 0) (_ : B / 32 % 2 = 0) (_ : B < 2147483648) (_ : x0 < 64)
    (_ : x1 < 64) (_ : x2 < 2) (_ : l ≤ 1) (_ : w = B + x0 * 262144 + x1 * 4096 + x2 * 32 + l * 2147483648) :
    w / 1073741824 % 2 = B / 1073741824 % 2 ∧ w / 16777216 % 64 = B / 16777216 % 64 ∧ w % 32 = B % 32 ∧
    w / 64 % 64 = B / 64 % 64 ∧ w / 262144 % 64 = x0 ∧ w / 4096 % 64 = x1 ∧ w / 32 % 2 = x2 := by
  refine ⟨?_, ?_, ?_, ?_, ?_, ?_, ?_⟩ <;> omega

theorem layout_26 (w B l x0 x1 x2 x3 : Nat) (_ : B / 262144 % 64 = 0) (_ : B / 4096 % 64 = 0) (_ : B / 64 % 64 = 0) (_ : B % 64 = 0) (_ : B < 2147483648)
    (_ : x0 < 64) (_ : x1 < 64) (_ : x2 < 64) (_ : x3 < 64) (_ : l ≤ 1)
    (_ : w = B + x0 * 262144 + x1 * 4096 + x2 * 64 + x3 + l * 2147483648) :
    w / 1073741824 % 2 = B / 1073741824 % 2 ∧ w / 16777216 % 64 = B / 16777216 % 64 ∧ w % 64 = x3 ∧
    w / 262144 % 64 = x0 ∧ w / 4096 % 64 = x1 ∧ w / 64 % 64 = x2 := by
  refine ⟨?_, ?_, ?_, ?_, ?_, ?_⟩ <;> omega

theorem layout_27 (w B l x0 x1 x2 : Nat) (_ : B / 262144 % 64 = 0) (_ : B / 4096 % 64 = 0) (_ : B % 1024 = 0) (_ : B < 2147483648) (_ : x0 < 64)
    (_ : x1 < 64) (_ : x2 < 1024) (_ : l ≤ 1) (_ : w = B + x0 * 262144 + x1 * 4096 + x2 + l * 2147483648) :
    w / 1073741824 % 2 = B / 1073741824 % 2 ∧ w / 16777216 % 64 = B / 16777216 % 64 ∧
    w / 1024 % 4 = B / 1024 % 4 ∧ w / 262144 % 64 = x0 ∧ w / 4096 % 64 = x1 ∧ w % 1024 = x2 := by
  refine ⟨?_, ?_, ?_, ?_, ?_, ?_⟩ <;> omega

theorem layout_28 (w B l x0 x1 x2 : Nat) (_ : B / 262144 % 64 = 0) (_ : B / 4096 % 64 = 0) (_ : B % 64 = 0) (_ : B < 2147483648) (_ : x0 < 64)
    (_ : x1 < 64) (_ : x2 < 64) (_ : l ≤ 1) (_ : w = B + x0 * 262144 + x1 * 4096 + x2 + l * 2147483648) :
    w / 1073741824 % 2 = B / 1073741824 % 2 ∧ w / 16777216 % 64 = B / 16777216 % 64 ∧ w % 64 = x2 ∧
    w / 64 % 64 = B / 64 % 64 ∧ w / 262144 % 64 = x0 ∧ w / 4096 % 64 = x1 := by
  refine ⟨?_, ?_, ?_, ?_, ?_, ?_⟩ <;> omega

theorem layout_29 (w B l x0 x1 x2 x3 : Nat) (_ : B / 262144 % 64 = 0) (_ : B / 4096 % 64 = 0) (_ : B / 256 % 16 = 0) (_ : B % 256 = 0)
    (_ : B < 2147483648) (_ : x0 < 64) (_ : x1 < 64) (_ : x2 < 16) (_ : x3 < 256) (_ : l ≤ 1)
    (_ : w = B + x0 * 262144 + x1 * 4096 + x2 * 256 + x3 + l * 2147483648) :
    w / 1073741824 % 2 = B / 1073741824 % 2 ∧ w / 16777216 % 64 = B / 16777216 % 64 ∧ w / 262144 % 64 = x0 ∧
    w / 4096 % 64 = x1 ∧ w / 256 % 16 = x2 ∧ w % 256 = x3 := by
  refine ⟨?_, ?_, ?_, ?_, ?_, ?_⟩ <;> omega

theorem layout_30 (w B l x0 x1 x2 x3 : Nat) (_ : B / 262144 % 64 = 0) (_ : B / 4096 % 64 = 0) (_ : B / 64 % 64 = 0) (_ : B % 8 = 0) (_ : B < 2147483648)
    (_ : x0 < 64) (_ : x1 < 64) (_ : x2 < 64) (_ : x3 < 8) (_ : l ≤ 1)
    (_ : w = B + x0 * 262144 + x1 * 4096 + x2 * 64 + x3 + l * 2147483648) :
    w / 1073741824 % 2 = B / 1073741824 % 2 ∧ w / 16777216 % 64 = B / 16777216 % 64 ∧ w / 8 % 8 = B / 8 % 8 ∧
    w / 262144 % 64 = x0 ∧ w / 4096 % 64 = x1 ∧ w / 64 % 64 = x2 ∧ w % 8 = x3 := by
  refine ⟨?_, ?_, ?_, ?_, ?_, ?_, ?_⟩ <;> omega

theorem layout_31 (w B l x0 x1 x2 x3 x4 : Nat) (_ : B / 262144 % 64 = 0) (_ : B / 4096 % 64 = 0) (_ : B / 64 % 8 = 0) (_ : B / 8 % 8 = 0) (_ : B % 8 = 0)
    (_ : B < 2147483648) (_ : x0 < 64) (_ : x1 < 64) (_ : x2 < 8) (_ : x3 < 8) (_ : x4 < 8) (_ : l ≤ 1)
    (_ : w = B + x0 * 262144 + x1 * 4096 + x2 * 64 + x3 * 8 + x4 + l * 2147483648) :
    w / 1073741824 % 2 = B / 1073741824 % 2 ∧ w / 16777216 % 64 = B / 16777216 % 64 ∧ w / 512 % 8 = B / 512 % 8 ∧
    w / 262144 % 64 = x0 ∧ w / 4096 % 64 = x1 ∧ w / 64 % 8 = x2 ∧ w / 8 % 8 = x3 ∧ w % 8 = x4 := by
  refine ⟨?_, ?_, ?_, ?_, ?_, ?_, ?_, ?_⟩ <;> omega

theorem layout_32 (w B l x0 x1 x2 x3 x4 x5 : Nat) (_ : B / 1048576 % 16 = 0) (_ : B / 65536 % 16 = 0) (_ : B / 4096 % 16 = 0) (_ : B / 512 % 8 = 0)
    (_ : B / 64 % 8 = 0) (_ : B % 64 = 0) (_ : B < 2147483648) (_ : x0 < 16) (_ : x1 < 16) (_ : x2 < 16)
    (_ : x3 < 8) (_ : x4 < 8) (_ : x5 < 64) (_ : l ≤ 1)
    (_ : w = B + x0 * 1048576 + x1 * 65536 + x2 * 4096 + x3 * 512 + x4 * 64 + x5 + l * 2147483648) :
    w / 1073741824 % 2 = B / 1073741824 % 2 ∧ w / 16777216 % 64 = B / 16777216 % 64 ∧ w % 64 = x5 ∧
    w / 1048576 % 16 = x0 ∧ w / 65536 % 16 = x1 ∧ w / 4096 % 16 = x2 ∧ w / 512 % 8 = x3 ∧ w / 64 % 8 = x4 := by
  refine ⟨?_, ?_, ?_, ?_, ?_, ?_, ?_, ?_⟩ <;> omega

theorem layout_33 (w B l x0 x1 x2 x3 x4 : Nat) (_ : B / 1048576 % 16 = 0) (_ : B / 65536 % 16 = 0) (_ : B / 4096 % 16 = 0) (_ : B / 512 % 8 = 0)
    (_ : B % 64 = 0) (_ : B < 2147483648) (_ : x0 < 16) (_ : x1 < 16) (_ : x2 < 16) (_ : x3 < 8) (_ : x4 < 64)
    (_ : l ≤ 1) (_ : w = B + x0 * 1048576 + x1 * 65536 + x2 * 4096 + x3 * 512 + x4 + l * 2147483648) :
    w / 1073741824 % 2 = B / 1073741824 % 2 ∧ w / 16777216 % 64 = B / 16777216 % 64 ∧ w % 64 = x4 ∧
    w / 64 % 8 = B / 64 % 8 ∧ w / 1048576 % 16 = x0 ∧ w / 65536 % 16 = x1 ∧ w / 4096 % 16 = x2 ∧
    w / 512 % 8 = x3 := by
  refine ⟨?_, ?_, ?_, ?_, ?_, ?_, ?_, ?_⟩ <;> omega

theorem layout_34 (w B l x0 x1 x2 x3 : Nat) (_ : B / 1048576 % 16 = 0) (_ : B / 65536 % 16 = 0) (_ : B / 512 % 8 = 0) (_ : B % 64 = 0)
    (_ : B < 2147483648) (_ : x0 < 16) (_ : x1 < 16) (_ : x2 < 8) (_ : x3 < 64) (_ : l ≤ 1)
    (_ : w = B + x0 * 1048576 + x1 * 65536 + x2 * 512 + x3 + l * 2147483648) :
    w / 1073741824 % 2 = B / 1073741824 % 2 ∧ w / 16777216 % 64 = B / 16777216 % 64 ∧ w % 64 = x3 ∧
    w / 64 % 8 = B / 64 % 8 ∧ w / 4096 % 16 = B / 4096 % 16 ∧ w / 1048576 % 16 = x0 ∧ w / 65536 % 16 = x1 ∧
    w / 512 % 8 = x2 := by
  refine ⟨?_, ?_, ?_, ?_, ?_, ?_, ?_, ?_⟩ <;> omega

theorem layout_35 (w B l x0 x1 x2 x3 : Nat) (_ : B / 1048576 % 16 = 0) (_ : B / 16384 % 64 = 0) (_ : B / 512 % 8 = 0) (_ : B % 64 = 0)
    (_ : B < 2147483648) (_ : x0 < 16) (_ : x1 < 64) (_ : x2 < 8) (_ : x3 < 64) (_ : l ≤ 1)
    (_ : w = B + x0 * 1048576 + x1 * 16384 + x2 * 512 + x3 + l * 2147483648) :
    w / 1073741824 % 2 = B / 1073741824 % 2 ∧ w / 16777216 % 64 = B / 16777216 % 64 ∧ w % 64 = x3 ∧
    w / 64 % 8 = B / 64 % 8 ∧ w / 4096 % 4 = B / 4096 % 4 ∧ w / 1048576 % 16 = x0 ∧ w / 16384 % 64 = x1 ∧
    w / 512 % 8 = x2 := by
  refine ⟨?_, ?_, ?_, ?_, ?_, ?_, ?_, ?_⟩ <;> omega

theorem layout_36 (w B l x0 x1 x2 : Nat) (_ : B / 1048576 % 16 = 0) (_ : B / 512 % 8 = 0) (_ : B % 64 = 0) (_ : B < 2147483648) (_ : x0 < 16)
    (_ : x1 < 8) (_ : x2 < 64) (_ : l ≤ 1) (_ : w = B + x0 * 1048576 + x1 * 512 + x2 + l * 2147483648) :
    w / 1073741824 % 2 = B / 1073741824 % 2 ∧ w / 16777216 % 64 = B / 16777216 % 64 ∧ w % 64 = x2 ∧
    w / 64 % 8 = B / 64 % 8 ∧ w / 4096 % 256 = B / 4096 % 256 ∧ w / 1048576 % 16 = x0 ∧ w / 512 % 8 = x1 := by
  refine ⟨?_, ?_, ?_, ?_, ?_, ?_, ?_⟩ <;> omega

theorem layout_37 (w B l x0 x1 : Nat) (_ : B / 1048576 % 16 = 0) (_ : B / 16384 % 64 = 0) (_ : B < 2147483648) (_ : x0 < 16) (_ : x1 < 64)
    (_ : l ≤ 1) (_ : w = B + x0 * 1048576 + x1 * 16384 + l * 2147483648) :
    w / 1073741824 % 2 = B / 1073741824 % 2 ∧ w / 16777216 % 64 = B / 16777216 % 64 ∧ w % 64 = B % 64 ∧
    w % 16384 = B % 16384 ∧ w / 1048576 % 16 = x0 ∧ w / 16384 % 64 = x1 := by
  refine ⟨?_, ?_, ?_, ?_, ?_, ?_⟩ <;> omega

/-! ### The round trip -/

/-- What the encoder writes, with either L bit, the decoder reads back. -/
def RoundTrip.Statement (i : Instr) : Prop :=
  i.wf = true → ∀ l, l ≤ 1 → decodeWord (encodeNat i + l * 2147483648) (literalOf i) = .ok i

/-- The fields decide; well-formedness is what the decoder checks after them. -/
theorem RoundTrip.of_fields (i : Instr)
    (h : ∀ l, l ≤ 1 → decodeFields (encodeNat i + l * 2147483648) (literalOf i) = .ok i) : RoundTrip.Statement i := by
  intro hw l hl
  rw [decodeWord, h l hl]
  simp [hw]

/-- A step of the hardware is no word. -/
theorem RoundTrip.of_event (i : Instr) (h : i.isEvent = true) : RoundTrip.Statement i := by
  intro hw
  simp [Instr.wf, h] at hw

theorem RoundTrip.br (c : BitVec 6) (a : BitVec 6) (i : BitVec 12) : RoundTrip.Statement (.br c a i) := by
  refine RoundTrip.of_fields _ fun l hl => ?_
  have henc : encodeNat (.br c a i) = 0 + c.toNat * 262144 + a.toNat * 4096 + i.toNat := rfl
  rw [henc]
  have hf := layout_0 _ 0 l c.toNat a.toNat i.toNat (by decide) (by decide) (by decide) (by decide) c.isLt a.isLt i.isLt hl rfl
  generalize 0 + c.toNat * 262144 + a.toNat * 4096 + i.toNat + l * 2147483648 = wo at hf ⊢
  obtain ⟨f0, f1, f2, f3, f4⟩ := hf
  have e_c : BitVec.ofNat 6 (wo / 262144) = c := ofNat_field _ _ f2
  have e_a : BitVec.ofNat 6 (wo / 4096) = a := ofNat_field _ _ f3
  have e_i : BitVec.ofNat 12 (wo) = i := ofNat_field _ _ f4
  simp [decodeFields, decodeC, *]

theorem RoundTrip.call (j : BitVec 24) : RoundTrip.Statement (.call j) := by
  refine RoundTrip.of_fields _ fun l hl => ?_
  have henc : encodeNat (.call j) = 33554432 + j.toNat := rfl
  rw [henc]
  have hf := layout_1 _ 33554432 l j.toNat (by decide) (by decide) j.isLt hl rfl
  generalize 33554432 + j.toNat + l * 2147483648 = wo at hf ⊢
  obtain ⟨f0, f1, f2⟩ := hf
  have e_j : BitVec.ofNat 24 (wo) = j := ofNat_field _ _ f2
  simp [decodeFields, decodeC, *]

theorem RoundTrip.jr (d : BitVec 6) (a : BitVec 6) : RoundTrip.Statement (.jr d a) := by
  refine RoundTrip.of_fields _ fun l hl => ?_
  have henc : encodeNat (.jr d a) = 50331648 + d.toNat * 262144 + a.toNat * 4096 := rfl
  rw [henc]
  have hf := layout_2 _ 50331648 l d.toNat a.toNat (by decide) (by decide) (by decide) d.isLt a.isLt hl rfl
  generalize 50331648 + d.toNat * 262144 + a.toNat * 4096 + l * 2147483648 = wo at hf ⊢
  obtain ⟨f0, f1, f2, f3, f4, f5⟩ := hf
  have e_d : BitVec.ofNat 6 (wo / 262144) = d := ofNat_field _ _ f4
  have e_a : BitVec.ofNat 6 (wo / 4096) = a := ofNat_field _ _ f5
  simp [decodeFields, decodeC, decodeC03, *]

theorem RoundTrip.btag (a : BitVec 6) : RoundTrip.Statement (.btag a) := by
  refine RoundTrip.of_fields _ fun l hl => ?_
  have henc : encodeNat (.btag a) = 67108864 + a.toNat * 4096 := rfl
  rw [henc]
  have hf := layout_3 _ 67108864 l a.toNat (by decide) (by decide) a.isLt hl rfl
  generalize 67108864 + a.toNat * 4096 + l * 2147483648 = wo at hf ⊢
  obtain ⟨f0, f1, f2, f3, f4, f5⟩ := hf
  have e_a : BitVec.ofNat 6 (wo / 4096) = a := ofNat_field _ _ f5
  simp [decodeFields, decodeC, decodeC04, *]

theorem RoundTrip.loop (a : BitVec 6) (i : BitVec 12) : RoundTrip.Statement (.loop a i) := by
  refine RoundTrip.of_fields _ fun l hl => ?_
  have henc : encodeNat (.loop a i) = 83886080 + a.toNat * 4096 + i.toNat := rfl
  rw [henc]
  have hf := layout_4 _ 83886080 l a.toNat i.toNat (by decide) (by decide) (by decide) a.isLt i.isLt hl rfl
  generalize 83886080 + a.toNat * 4096 + i.toNat + l * 2147483648 = wo at hf ⊢
  obtain ⟨f0, f1, f2, f3, f4⟩ := hf
  have e_a : BitVec.ofNat 6 (wo / 4096) = a := ofNat_field _ _ f3
  have e_i : BitVec.ofNat 12 (wo) = i := ofNat_field _ _ f4
  simp [decodeFields, decodeC, decodeC05, *]

theorem RoundTrip.ldD (d : BitVec 6) (a : BitVec 6) (i : BitVec 12) : RoundTrip.Statement (.ldD d a i) := by
  refine RoundTrip.of_fields _ fun l hl => ?_
  have henc : encodeNat (.ldD d a i) = 134217728 + d.toNat * 262144 + a.toNat * 4096 + i.toNat := rfl
  rw [henc]
  have hf := layout_0 _ 134217728 l d.toNat a.toNat i.toNat (by decide) (by decide) (by decide) (by decide) d.isLt a.isLt i.isLt hl rfl
  generalize 134217728 + d.toNat * 262144 + a.toNat * 4096 + i.toNat + l * 2147483648 = wo at hf ⊢
  obtain ⟨f0, f1, f2, f3, f4⟩ := hf
  have e_d : BitVec.ofNat 6 (wo / 262144) = d := ofNat_field _ _ f2
  have e_a : BitVec.ofNat 6 (wo / 4096) = a := ofNat_field _ _ f3
  have e_i : BitVec.ofNat 12 (wo) = i := ofNat_field _ _ f4
  simp [decodeFields, decodeC, *]

theorem RoundTrip.stD (d : BitVec 6) (a : BitVec 6) (i : BitVec 12) : RoundTrip.Statement (.stD d a i) := by
  refine RoundTrip.of_fields _ fun l hl => ?_
  have henc : encodeNat (.stD d a i) = 150994944 + d.toNat * 262144 + a.toNat * 4096 + i.toNat := rfl
  rw [henc]
  have hf := layout_0 _ 150994944 l d.toNat a.toNat i.toNat (by decide) (by decide) (by decide) (by decide) d.isLt a.isLt i.isLt hl rfl
  generalize 150994944 + d.toNat * 262144 + a.toNat * 4096 + i.toNat + l * 2147483648 = wo at hf ⊢
  obtain ⟨f0, f1, f2, f3, f4⟩ := hf
  have e_d : BitVec.ofNat 6 (wo / 262144) = d := ofNat_field _ _ f2
  have e_a : BitVec.ofNat 6 (wo / 4096) = a := ofNat_field _ _ f3
  have e_i : BitVec.ofNat 12 (wo) = i := ofNat_field _ _ f4
  simp [decodeFields, decodeC, *]

theorem RoundTrip.ld (d : BitVec 6) (a : BitVec 6) (s : BitVec 3) (o : BitVec 9) : RoundTrip.Statement (.ld d a s o) := by
  refine RoundTrip.of_fields _ fun l hl => ?_
  have henc : encodeNat (.ld d a s o) = 167772160 + d.toNat * 262144 + a.toNat * 4096 + s.toNat * 512 + o.toNat := rfl
  rw [henc]
  have hf := layout_6 _ 167772160 l d.toNat a.toNat s.toNat o.toNat (by decide) (by decide) (by decide) (by decide) (by decide) d.isLt a.isLt s.isLt o.isLt hl rfl
  generalize 167772160 + d.toNat * 262144 + a.toNat * 4096 + s.toNat * 512 + o.toNat + l * 2147483648 = wo at hf ⊢
  obtain ⟨f0, f1, f2, f3, f4, f5⟩ := hf
  have e_d : BitVec.ofNat 6 (wo / 262144) = d := ofNat_field _ _ f2
  have e_a : BitVec.ofNat 6 (wo / 4096) = a := ofNat_field _ _ f3
  have e_s : BitVec.ofNat 3 (wo / 512) = s := ofNat_field _ _ f4
  have e_o : BitVec.ofNat 9 (wo) = o := ofNat_field _ _ f5
  simp [decodeFields, decodeC, *]

theorem RoundTrip.st (d : BitVec 6) (a : BitVec 6) (s : BitVec 3) (o : BitVec 9) : RoundTrip.Statement (.st d a s o) := by
  refine RoundTrip.of_fields _ fun l hl => ?_
  have henc : encodeNat (.st d a s o) = 184549376 + d.toNat * 262144 + a.toNat * 4096 + s.toNat * 512 + o.toNat := rfl
  rw [henc]
  have hf := layout_6 _ 184549376 l d.toNat a.toNat s.toNat o.toNat (by decide) (by decide) (by decide) (by decide) (by decide) d.isLt a.isLt s.isLt o.isLt hl rfl
  generalize 184549376 + d.toNat * 262144 + a.toNat * 4096 + s.toNat * 512 + o.toNat + l * 2147483648 = wo at hf ⊢
  obtain ⟨f0, f1, f2, f3, f4, f5⟩ := hf
  have e_d : BitVec.ofNat 6 (wo / 262144) = d := ofNat_field _ _ f2
  have e_a : BitVec.ofNat 6 (wo / 4096) = a := ofNat_field _ _ f3
  have e_s : BitVec.ofNat 3 (wo / 512) = s := ofNat_field _ _ f4
  have e_o : BitVec.ofNat 9 (wo) = o := ofNat_field _ _ f5
  simp [decodeFields, decodeC, *]

theorem RoundTrip.ldb (d : BitVec 6) (a : BitVec 6) (x : BitVec 1) (w : BitVec 5) : RoundTrip.Statement (.ldb d a x w) := by
  refine RoundTrip.of_fields _ fun l hl => ?_
  have henc : encodeNat (.ldb d a x w) = 201326592 + d.toNat * 262144 + a.toNat * 4096 + x.toNat * 1024 + w.toNat * 32 := rfl
  rw [henc]
  have hf := layout_7 _ 201326592 l d.toNat a.toNat x.toNat w.toNat (by decide) (by decide) (by decide) (by decide) (by decide) d.isLt a.isLt x.isLt w.isLt hl rfl
  generalize 201326592 + d.toNat * 262144 + a.toNat * 4096 + x.toNat * 1024 + w.toNat * 32 + l * 2147483648 = wo at hf ⊢
  obtain ⟨f0, f1, f2, f3, f4, f5, f6, f7⟩ := hf
  have e_d : BitVec.ofNat 6 (wo / 262144) = d := ofNat_field _ _ f4
  have e_a : BitVec.ofNat 6 (wo / 4096) = a := ofNat_field _ _ f5
  have e_x : BitVec.ofNat 1 (wo / 1024) = x := ofNat_field _ _ f6
  have e_w : BitVec.ofNat 5 (wo / 32) = w := ofNat_field _ _ f7
  simp [decodeFields, decodeC, decodeC0C, *]

theorem RoundTrip.stb (d : BitVec 6) (a : BitVec 6) (w : BitVec 5) : RoundTrip.Statement (.stb d a w) := by
  refine RoundTrip.of_fields _ fun l hl => ?_
  have henc : encodeNat (.stb d a w) = 201328640 + d.toNat * 262144 + a.toNat * 4096 + w.toNat * 32 := rfl
  rw [henc]
  have hf := layout_8 _ 201328640 l d.toNat a.toNat w.toNat (by decide) (by decide) (by decide) (by decide) d.isLt a.isLt w.isLt hl rfl
  generalize 201328640 + d.toNat * 262144 + a.toNat * 4096 + w.toNat * 32 + l * 2147483648 = wo at hf ⊢
  obtain ⟨f0, f1, f2, f3, f4, f5, f6, f7⟩ := hf
  have e_d : BitVec.ofNat 6 (wo / 262144) = d := ofNat_field _ _ f5
  have e_a : BitVec.ofNat 6 (wo / 4096) = a := ofNat_field _ _ f6
  have e_w : BitVec.ofNat 5 (wo / 32) = w := ofNat_field _ _ f7
  simp [decodeFields, decodeC, decodeC0C, *]

theorem RoundTrip.pf (a : BitVec 6) (o : BitVec 12) : RoundTrip.Statement (.pf a o) := by
  refine RoundTrip.of_fields _ fun l hl => ?_
  have henc : encodeNat (.pf a o) = 218103808 + a.toNat * 4096 + o.toNat := rfl
  rw [henc]
  have hf := layout_4 _ 218103808 l a.toNat o.toNat (by decide) (by decide) (by decide) a.isLt o.isLt hl rfl
  generalize 218103808 + a.toNat * 4096 + o.toNat + l * 2147483648 = wo at hf ⊢
  obtain ⟨f0, f1, f2, f3, f4⟩ := hf
  have e_a : BitVec.ofNat 6 (wo / 4096) = a := ofNat_field _ _ f3
  have e_o : BitVec.ofNat 12 (wo) = o := ofNat_field _ _ f4
  simp [decodeFields, decodeC, decodeC0D, *]

theorem RoundTrip.disc (a : BitVec 6) (o : BitVec 12) : RoundTrip.Statement (.disc a o) := by
  refine RoundTrip.of_fields _ fun l hl => ?_
  have henc : encodeNat (.disc a o) = 218365952 + a.toNat * 4096 + o.toNat := rfl
  rw [henc]
  have hf := layout_4 _ 218365952 l a.toNat o.toNat (by decide) (by decide) (by decide) a.isLt o.isLt hl rfl
  generalize 218365952 + a.toNat * 4096 + o.toNat + l * 2147483648 = wo at hf ⊢
  obtain ⟨f0, f1, f2, f3, f4⟩ := hf
  have e_a : BitVec.ofNat 6 (wo / 4096) = a := ofNat_field _ _ f3
  have e_o : BitVec.ofNat 12 (wo) = o := ofNat_field _ _ f4
  simp [decodeFields, decodeC, decodeC0D, *]

theorem RoundTrip.zline (a : BitVec 6) (o : BitVec 12) : RoundTrip.Statement (.zline a o) := by
  refine RoundTrip.of_fields _ fun l hl => ?_
  have henc : encodeNat (.zline a o) = 218628096 + a.toNat * 4096 + o.toNat := rfl
  rw [henc]
  have hf := layout_4 _ 218628096 l a.toNat o.toNat (by decide) (by decide) (by decide) a.isLt o.isLt hl rfl
  generalize 218628096 + a.toNat * 4096 + o.toNat + l * 2147483648 = wo at hf ⊢
  obtain ⟨f0, f1, f2, f3, f4⟩ := hf
  have e_a : BitVec.ofNat 6 (wo / 4096) = a := ofNat_field _ _ f3
  have e_o : BitVec.ofNat 12 (wo) = o := ofNat_field _ _ f4
  simp [decodeFields, decodeC, decodeC0D, *]

theorem RoundTrip.wbk (a : BitVec 6) (o : BitVec 12) : RoundTrip.Statement (.wbk a o) := by
  refine RoundTrip.of_fields _ fun l hl => ?_
  have henc : encodeNat (.wbk a o) = 218890240 + a.toNat * 4096 + o.toNat := rfl
  rw [henc]
  have hf := layout_4 _ 218890240 l a.toNat o.toNat (by decide) (by decide) (by decide) a.isLt o.isLt hl rfl
  generalize 218890240 + a.toNat * 4096 + o.toNat + l * 2147483648 = wo at hf ⊢
  obtain ⟨f0, f1, f2, f3, f4⟩ := hf
  have e_a : BitVec.ofNat 6 (wo / 4096) = a := ofNat_field _ _ f3
  have e_o : BitVec.ofNat 12 (wo) = o := ofNat_field _ _ f4
  simp [decodeFields, decodeC, decodeC0D, *]

theorem RoundTrip.ldfW (d : BitVec 6) (a : BitVec 6) (i : BitVec 12) : RoundTrip.Statement (.ldfW d a i) := by
  refine RoundTrip.of_fields _ fun l hl => ?_
  have henc : encodeNat (.ldfW d a i) = 234881024 + d.toNat * 262144 + a.toNat * 4096 + i.toNat := rfl
  rw [henc]
  have hf := layout_0 _ 234881024 l d.toNat a.toNat i.toNat (by decide) (by decide) (by decide) (by decide) d.isLt a.isLt i.isLt hl rfl
  generalize 234881024 + d.toNat * 262144 + a.toNat * 4096 + i.toNat + l * 2147483648 = wo at hf ⊢
  obtain ⟨f0, f1, f2, f3, f4⟩ := hf
  have e_d : BitVec.ofNat 6 (wo / 262144) = d := ofNat_field _ _ f2
  have e_a : BitVec.ofNat 6 (wo / 4096) = a := ofNat_field _ _ f3
  have e_i : BitVec.ofNat 12 (wo) = i := ofNat_field _ _ f4
  simp [decodeFields, decodeC, *]

theorem RoundTrip.stp (d : BitVec 6) (a : BitVec 6) (b : BitVec 6) (z : BitVec 1) (o : BitVec 4) : RoundTrip.Statement (.stp d a b z o) := by
  refine RoundTrip.of_fields _ fun l hl => ?_
  have henc : encodeNat (.stp d a b z o) = 251658240 + d.toNat * 262144 + a.toNat * 4096 + b.toNat * 64 + z.toNat * 16 + o.toNat := rfl
  rw [henc]
  have hf := layout_9 _ 251658240 l d.toNat a.toNat b.toNat z.toNat o.toNat (by decide) (by decide) (by decide) (by decide) (by decide) (by decide) d.isLt a.isLt b.isLt z.isLt o.isLt hl rfl
  generalize 251658240 + d.toNat * 262144 + a.toNat * 4096 + b.toNat * 64 + z.toNat * 16 + o.toNat + l * 2147483648 = wo at hf ⊢
  obtain ⟨f0, f1, f2, f3, f4, f5, f6, f7⟩ := hf
  have e_d : BitVec.ofNat 6 (wo / 262144) = d := ofNat_field _ _ f3
  have e_a : BitVec.ofNat 6 (wo / 4096) = a := ofNat_field _ _ f4
  have e_b : BitVec.ofNat 6 (wo / 64) = b := ofNat_field _ _ f5
  have e_z : BitVec.ofNat 1 (wo / 16) = z := ofNat_field _ _ f6
  have e_o : BitVec.ofNat 4 (wo) = o := ofNat_field _ _ f7
  simp [decodeFields, decodeC, decodeC0F, *]

theorem RoundTrip.stpm (d : BitVec 6) (a : BitVec 6) (b : BitVec 6) (z : BitVec 1) (o : BitVec 4) : RoundTrip.Statement (.stpm d a b z o) := by
  refine RoundTrip.of_fields _ fun l hl => ?_
  have henc : encodeNat (.stpm d a b z o) = 251658272 + d.toNat * 262144 + a.toNat * 4096 + b.toNat * 64 + z.toNat * 16 + o.toNat := rfl
  rw [henc]
  have hf := layout_9 _ 251658272 l d.toNat a.toNat b.toNat z.toNat o.toNat (by decide) (by decide) (by decide) (by decide) (by decide) (by decide) d.isLt a.isLt b.isLt z.isLt o.isLt hl rfl
  generalize 251658272 + d.toNat * 262144 + a.toNat * 4096 + b.toNat * 64 + z.toNat * 16 + o.toNat + l * 2147483648 = wo at hf ⊢
  obtain ⟨f0, f1, f2, f3, f4, f5, f6, f7⟩ := hf
  have e_d : BitVec.ofNat 6 (wo / 262144) = d := ofNat_field _ _ f3
  have e_a : BitVec.ofNat 6 (wo / 4096) = a := ofNat_field _ _ f4
  have e_b : BitVec.ofNat 6 (wo / 64) = b := ofNat_field _ _ f5
  have e_z : BitVec.ofNat 1 (wo / 16) = z := ofNat_field _ _ f6
  have e_o : BitVec.ofNat 4 (wo) = o := ofNat_field _ _ f7
  simp [decodeFields, decodeC, decodeC0F, *]

theorem RoundTrip.aadd (z : BitVec 1) (d : BitVec 5) (a : BitVec 5) (b : BitVec 5) (s : BitVec 3) (f : BitVec 3) : RoundTrip.Statement (.aadd z d a b s f) := by
  refine RoundTrip.of_fields _ fun l hl => ?_
  have henc : encodeNat (.aadd z d a b s f) = 268435456 + z.toNat * 16777216 + d.toNat * 524288 + a.toNat * 16384 + b.toNat * 512 + s.toNat * 64 + f.toNat := rfl
  rw [henc]
  have hf := layout_10 _ 268435456 l z.toNat d.toNat a.toNat b.toNat s.toNat f.toNat (by decide) (by decide) (by decide) (by decide) (by decide) (by decide) (by decide) z.isLt d.isLt a.isLt b.isLt s.isLt f.isLt hl rfl
  generalize 268435456 + z.toNat * 16777216 + d.toNat * 524288 + a.toNat * 16384 + b.toNat * 512 + s.toNat * 64 + f.toNat + l * 2147483648 = wo at hf ⊢
  obtain ⟨f0, f1, f2, f3, f4, f5, f6, f7, f8⟩ := hf
  have e_z : BitVec.ofNat 1 (wo / 16777216) = z := ofNat_field _ _ f3
  have e_d : BitVec.ofNat 5 (wo / 524288) = d := ofNat_field _ _ f4
  have e_a : BitVec.ofNat 5 (wo / 16384) = a := ofNat_field _ _ f5
  have e_b : BitVec.ofNat 5 (wo / 512) = b := ofNat_field _ _ f6
  have e_s : BitVec.ofNat 3 (wo / 64) = s := ofNat_field _ _ f7
  have e_f : BitVec.ofNat 3 (wo) = f := ofNat_field _ _ f8
  have hz : z.toNat = 0 ∨ z.toNat = 1 := by omega
  rcases hz with hz | hz <;> simp [decodeFields, decodeC, decodeC10, decodeC11, *]

theorem RoundTrip.amin (z : BitVec 1) (d : BitVec 5) (a : BitVec 5) (b : BitVec 5) (s : BitVec 3) (f : BitVec 3) : RoundTrip.Statement (.amin z d a b s f) := by
  refine RoundTrip.of_fields _ fun l hl => ?_
  have henc : encodeNat (.amin z d a b s f) = 268435464 + z.toNat * 16777216 + d.toNat * 524288 + a.toNat * 16384 + b.toNat * 512 + s.toNat * 64 + f.toNat := rfl
  rw [henc]
  have hf := layout_10 _ 268435464 l z.toNat d.toNat a.toNat b.toNat s.toNat f.toNat (by decide) (by decide) (by decide) (by decide) (by decide) (by decide) (by decide) z.isLt d.isLt a.isLt b.isLt s.isLt f.isLt hl rfl
  generalize 268435464 + z.toNat * 16777216 + d.toNat * 524288 + a.toNat * 16384 + b.toNat * 512 + s.toNat * 64 + f.toNat + l * 2147483648 = wo at hf ⊢
  obtain ⟨f0, f1, f2, f3, f4, f5, f6, f7, f8⟩ := hf
  have e_z : BitVec.ofNat 1 (wo / 16777216) = z := ofNat_field _ _ f3
  have e_d : BitVec.ofNat 5 (wo / 524288) = d := ofNat_field _ _ f4
  have e_a : BitVec.ofNat 5 (wo / 16384) = a := ofNat_field _ _ f5
  have e_b : BitVec.ofNat 5 (wo / 512) = b := ofNat_field _ _ f6
  have e_s : BitVec.ofNat 3 (wo / 64) = s := ofNat_field _ _ f7
  have e_f : BitVec.ofNat 3 (wo) = f := ofNat_field _ _ f8
  have hz : z.toNat = 0 ∨ z.toNat = 1 := by omega
  rcases hz with hz | hz <;> simp [decodeFields, decodeC, decodeC10, decodeC11, *]

theorem RoundTrip.amax (z : BitVec 1) (d : BitVec 5) (a : BitVec 5) (b : BitVec 5) (s : BitVec 3) (f : BitVec 3) : RoundTrip.Statement (.amax z d a b s f) := by
  refine RoundTrip.of_fields _ fun l hl => ?_
  have henc : encodeNat (.amax z d a b s f) = 268435472 + z.toNat * 16777216 + d.toNat * 524288 + a.toNat * 16384 + b.toNat * 512 + s.toNat * 64 + f.toNat := rfl
  rw [henc]
  have hf := layout_10 _ 268435472 l z.toNat d.toNat a.toNat b.toNat s.toNat f.toNat (by decide) (by decide) (by decide) (by decide) (by decide) (by decide) (by decide) z.isLt d.isLt a.isLt b.isLt s.isLt f.isLt hl rfl
  generalize 268435472 + z.toNat * 16777216 + d.toNat * 524288 + a.toNat * 16384 + b.toNat * 512 + s.toNat * 64 + f.toNat + l * 2147483648 = wo at hf ⊢
  obtain ⟨f0, f1, f2, f3, f4, f5, f6, f7, f8⟩ := hf
  have e_z : BitVec.ofNat 1 (wo / 16777216) = z := ofNat_field _ _ f3
  have e_d : BitVec.ofNat 5 (wo / 524288) = d := ofNat_field _ _ f4
  have e_a : BitVec.ofNat 5 (wo / 16384) = a := ofNat_field _ _ f5
  have e_b : BitVec.ofNat 5 (wo / 512) = b := ofNat_field _ _ f6
  have e_s : BitVec.ofNat 3 (wo / 64) = s := ofNat_field _ _ f7
  have e_f : BitVec.ofNat 3 (wo) = f := ofNat_field _ _ f8
  have hz : z.toNat = 0 ∨ z.toNat = 1 := by omega
  rcases hz with hz | hz <;> simp [decodeFields, decodeC, decodeC10, decodeC11, *]

theorem RoundTrip.aand (z : BitVec 1) (d : BitVec 5) (a : BitVec 5) (b : BitVec 5) (s : BitVec 3) (f : BitVec 3) : RoundTrip.Statement (.aand z d a b s f) := by
  refine RoundTrip.of_fields _ fun l hl => ?_
  have henc : encodeNat (.aand z d a b s f) = 268435480 + z.toNat * 16777216 + d.toNat * 524288 + a.toNat * 16384 + b.toNat * 512 + s.toNat * 64 + f.toNat := rfl
  rw [henc]
  have hf := layout_10 _ 268435480 l z.toNat d.toNat a.toNat b.toNat s.toNat f.toNat (by decide) (by decide) (by decide) (by decide) (by decide) (by decide) (by decide) z.isLt d.isLt a.isLt b.isLt s.isLt f.isLt hl rfl
  generalize 268435480 + z.toNat * 16777216 + d.toNat * 524288 + a.toNat * 16384 + b.toNat * 512 + s.toNat * 64 + f.toNat + l * 2147483648 = wo at hf ⊢
  obtain ⟨f0, f1, f2, f3, f4, f5, f6, f7, f8⟩ := hf
  have e_z : BitVec.ofNat 1 (wo / 16777216) = z := ofNat_field _ _ f3
  have e_d : BitVec.ofNat 5 (wo / 524288) = d := ofNat_field _ _ f4
  have e_a : BitVec.ofNat 5 (wo / 16384) = a := ofNat_field _ _ f5
  have e_b : BitVec.ofNat 5 (wo / 512) = b := ofNat_field _ _ f6
  have e_s : BitVec.ofNat 3 (wo / 64) = s := ofNat_field _ _ f7
  have e_f : BitVec.ofNat 3 (wo) = f := ofNat_field _ _ f8
  have hz : z.toNat = 0 ∨ z.toNat = 1 := by omega
  rcases hz with hz | hz <;> simp [decodeFields, decodeC, decodeC10, decodeC11, *]

theorem RoundTrip.aor (z : BitVec 1) (d : BitVec 5) (a : BitVec 5) (b : BitVec 5) (s : BitVec 3) (f : BitVec 3) : RoundTrip.Statement (.aor z d a b s f) := by
  refine RoundTrip.of_fields _ fun l hl => ?_
  have henc : encodeNat (.aor z d a b s f) = 268435488 + z.toNat * 16777216 + d.toNat * 524288 + a.toNat * 16384 + b.toNat * 512 + s.toNat * 64 + f.toNat := rfl
  rw [henc]
  have hf := layout_10 _ 268435488 l z.toNat d.toNat a.toNat b.toNat s.toNat f.toNat (by decide) (by decide) (by decide) (by decide) (by decide) (by decide) (by decide) z.isLt d.isLt a.isLt b.isLt s.isLt f.isLt hl rfl
  generalize 268435488 + z.toNat * 16777216 + d.toNat * 524288 + a.toNat * 16384 + b.toNat * 512 + s.toNat * 64 + f.toNat + l * 2147483648 = wo at hf ⊢
  obtain ⟨f0, f1, f2, f3, f4, f5, f6, f7, f8⟩ := hf
  have e_z : BitVec.ofNat 1 (wo / 16777216) = z := ofNat_field _ _ f3
  have e_d : BitVec.ofNat 5 (wo / 524288) = d := ofNat_field _ _ f4
  have e_a : BitVec.ofNat 5 (wo / 16384) = a := ofNat_field _ _ f5
  have e_b : BitVec.ofNat 5 (wo / 512) = b := ofNat_field _ _ f6
  have e_s : BitVec.ofNat 3 (wo / 64) = s := ofNat_field _ _ f7
  have e_f : BitVec.ofNat 3 (wo) = f := ofNat_field _ _ f8
  have hz : z.toNat = 0 ∨ z.toNat = 1 := by omega
  rcases hz with hz | hz <;> simp [decodeFields, decodeC, decodeC10, decodeC11, *]

theorem RoundTrip.axor (z : BitVec 1) (d : BitVec 5) (a : BitVec 5) (b : BitVec 5) (s : BitVec 3) (f : BitVec 3) : RoundTrip.Statement (.axor z d a b s f) := by
  refine RoundTrip.of_fields _ fun l hl => ?_
  have henc : encodeNat (.axor z d a b s f) = 268435496 + z.toNat * 16777216 + d.toNat * 524288 + a.toNat * 16384 + b.toNat * 512 + s.toNat * 64 + f.toNat := rfl
  rw [henc]
  have hf := layout_10 _ 268435496 l z.toNat d.toNat a.toNat b.toNat s.toNat f.toNat (by decide) (by decide) (by decide) (by decide) (by decide) (by decide) (by decide) z.isLt d.isLt a.isLt b.isLt s.isLt f.isLt hl rfl
  generalize 268435496 + z.toNat * 16777216 + d.toNat * 524288 + a.toNat * 16384 + b.toNat * 512 + s.toNat * 64 + f.toNat + l * 2147483648 = wo at hf ⊢
  obtain ⟨f0, f1, f2, f3, f4, f5, f6, f7, f8⟩ := hf
  have e_z : BitVec.ofNat 1 (wo / 16777216) = z := ofNat_field _ _ f3
  have e_d : BitVec.ofNat 5 (wo / 524288) = d := ofNat_field _ _ f4
  have e_a : BitVec.ofNat 5 (wo / 16384) = a := ofNat_field _ _ f5
  have e_b : BitVec.ofNat 5 (wo / 512) = b := ofNat_field _ _ f6
  have e_s : BitVec.ofNat 3 (wo / 64) = s := ofNat_field _ _ f7
  have e_f : BitVec.ofNat 3 (wo) = f := ofNat_field _ _ f8
  have hz : z.toNat = 0 ∨ z.toNat = 1 := by omega
  rcases hz with hz | hz <;> simp [decodeFields, decodeC, decodeC10, decodeC11, *]

theorem RoundTrip.aswp (z : BitVec 1) (d : BitVec 5) (a : BitVec 5) (b : BitVec 5) (s : BitVec 3) (f : BitVec 3) : RoundTrip.Statement (.aswp z d a b s f) := by
  refine RoundTrip.of_fields _ fun l hl => ?_
  have henc : encodeNat (.aswp z d a b s f) = 268435504 + z.toNat * 16777216 + d.toNat * 524288 + a.toNat * 16384 + b.toNat * 512 + s.toNat * 64 + f.toNat := rfl
  rw [henc]
  have hf := layout_10 _ 268435504 l z.toNat d.toNat a.toNat b.toNat s.toNat f.toNat (by decide) (by decide) (by decide) (by decide) (by decide) (by decide) (by decide) z.isLt d.isLt a.isLt b.isLt s.isLt f.isLt hl rfl
  generalize 268435504 + z.toNat * 16777216 + d.toNat * 524288 + a.toNat * 16384 + b.toNat * 512 + s.toNat * 64 + f.toNat + l * 2147483648 = wo at hf ⊢
  obtain ⟨f0, f1, f2, f3, f4, f5, f6, f7, f8⟩ := hf
  have e_z : BitVec.ofNat 1 (wo / 16777216) = z := ofNat_field _ _ f3
  have e_d : BitVec.ofNat 5 (wo / 524288) = d := ofNat_field _ _ f4
  have e_a : BitVec.ofNat 5 (wo / 16384) = a := ofNat_field _ _ f5
  have e_b : BitVec.ofNat 5 (wo / 512) = b := ofNat_field _ _ f6
  have e_s : BitVec.ofNat 3 (wo / 64) = s := ofNat_field _ _ f7
  have e_f : BitVec.ofNat 3 (wo) = f := ofNat_field _ _ f8
  have hz : z.toNat = 0 ∨ z.toNat = 1 := by omega
  rcases hz with hz | hz <;> simp [decodeFields, decodeC, decodeC10, decodeC11, *]

theorem RoundTrip.acas (z : BitVec 1) (d : BitVec 5) (a : BitVec 5) (b : BitVec 5) (s : BitVec 3) (f : BitVec 3) : RoundTrip.Statement (.acas z d a b s f) := by
  refine RoundTrip.of_fields _ fun l hl => ?_
  have henc : encodeNat (.acas z d a b s f) = 268435512 + z.toNat * 16777216 + d.toNat * 524288 + a.toNat * 16384 + b.toNat * 512 + s.toNat * 64 + f.toNat := rfl
  rw [henc]
  have hf := layout_10 _ 268435512 l z.toNat d.toNat a.toNat b.toNat s.toNat f.toNat (by decide) (by decide) (by decide) (by decide) (by decide) (by decide) (by decide) z.isLt d.isLt a.isLt b.isLt s.isLt f.isLt hl rfl
  generalize 268435512 + z.toNat * 16777216 + d.toNat * 524288 + a.toNat * 16384 + b.toNat * 512 + s.toNat * 64 + f.toNat + l * 2147483648 = wo at hf ⊢
  obtain ⟨f0, f1, f2, f3, f4, f5, f6, f7, f8⟩ := hf
  have e_z : BitVec.ofNat 1 (wo / 16777216) = z := ofNat_field _ _ f3
  have e_d : BitVec.ofNat 5 (wo / 524288) = d := ofNat_field _ _ f4
  have e_a : BitVec.ofNat 5 (wo / 16384) = a := ofNat_field _ _ f5
  have e_b : BitVec.ofNat 5 (wo / 512) = b := ofNat_field _ _ f6
  have e_s : BitVec.ofNat 3 (wo / 64) = s := ofNat_field _ _ f7
  have e_f : BitVec.ofNat 3 (wo) = f := ofNat_field _ _ f8
  have hz : z.toNat = 0 ∨ z.toNat = 1 := by omega
  rcases hz with hz | hz <;> simp [decodeFields, decodeC, decodeC10, decodeC11, *]

theorem RoundTrip.rel (d : BitVec 6) (a : BitVec 6) (z : BitVec 1) (s : BitVec 3) (o : BitVec 7) : RoundTrip.Statement (.rel d a z s o) := by
  refine RoundTrip.of_fields _ fun l hl => ?_
  have henc : encodeNat (.rel d a z s o) = 301989888 + d.toNat * 262144 + a.toNat * 4096 + z.toNat * 1024 + s.toNat * 128 + o.toNat := rfl
  rw [henc]
  have hf := layout_11 _ 301989888 l d.toNat a.toNat z.toNat s.toNat o.toNat (by decide) (by decide) (by decide) (by decide) (by decide) (by decide) d.isLt a.isLt z.isLt s.isLt o.isLt hl rfl
  generalize 301989888 + d.toNat * 262144 + a.toNat * 4096 + z.toNat * 1024 + s.toNat * 128 + o.toNat + l * 2147483648 = wo at hf ⊢
  obtain ⟨f0, f1, f2, f3, f4, f5, f6, f7⟩ := hf
  have e_d : BitVec.ofNat 6 (wo / 262144) = d := ofNat_field _ _ f3
  have e_a : BitVec.ofNat 6 (wo / 4096) = a := ofNat_field _ _ f4
  have e_z : BitVec.ofNat 1 (wo / 1024) = z := ofNat_field _ _ f5
  have e_s : BitVec.ofNat 3 (wo / 128) = s := ofNat_field _ _ f6
  have e_o : BitVec.ofNat 7 (wo) = o := ofNat_field _ _ f7
  simp [decodeFields, decodeC, decodeC12, *]

theorem RoundTrip.acq (d : BitVec 6) (a : BitVec 6) (z : BitVec 1) (s : BitVec 3) (o : BitVec 7) : RoundTrip.Statement (.acq d a z s o) := by
  refine RoundTrip.of_fields _ fun l hl => ?_
  have henc : encodeNat (.acq d a z s o) = 301991936 + d.toNat * 262144 + a.toNat * 4096 + z.toNat * 1024 + s.toNat * 128 + o.toNat := rfl
  rw [henc]
  have hf := layout_11 _ 301991936 l d.toNat a.toNat z.toNat s.toNat o.toNat (by decide) (by decide) (by decide) (by decide) (by decide) (by decide) d.isLt a.isLt z.isLt s.isLt o.isLt hl rfl
  generalize 301991936 + d.toNat * 262144 + a.toNat * 4096 + z.toNat * 1024 + s.toNat * 128 + o.toNat + l * 2147483648 = wo at hf ⊢
  obtain ⟨f0, f1, f2, f3, f4, f5, f6, f7⟩ := hf
  have e_d : BitVec.ofNat 6 (wo / 262144) = d := ofNat_field _ _ f3
  have e_a : BitVec.ofNat 6 (wo / 4096) = a := ofNat_field _ _ f4
  have e_z : BitVec.ofNat 1 (wo / 1024) = z := ofNat_field _ _ f5
  have e_s : BitVec.ofNat 3 (wo / 128) = s := ofNat_field _ _ f6
  have e_o : BitVec.ofNat 7 (wo) = o := ofNat_field _ _ f7
  simp [decodeFields, decodeC, decodeC12, *]

theorem RoundTrip.afadd (d : BitVec 5) (a : BitVec 5) (b : BitVec 5) (s : BitVec 3) (f : BitVec 3) : RoundTrip.Statement (.afadd d a b s f) := by
  refine RoundTrip.of_fields _ fun l hl => ?_
  have henc : encodeNat (.afadd d a b s f) = 318767104 + d.toNat * 524288 + a.toNat * 16384 + b.toNat * 512 + s.toNat * 64 + f.toNat := rfl
  rw [henc]
  have hf := layout_12 _ 318767104 l d.toNat a.toNat b.toNat s.toNat f.toNat (by decide) (by decide) (by decide) (by decide) (by decide) (by decide) d.isLt a.isLt b.isLt s.isLt f.isLt hl rfl
  generalize 318767104 + d.toNat * 524288 + a.toNat * 16384 + b.toNat * 512 + s.toNat * 64 + f.toNat + l * 2147483648 = wo at hf ⊢
  obtain ⟨f0, f1, f2, f3, f4, f5, f6, f7⟩ := hf
  have e_d : BitVec.ofNat 5 (wo / 524288) = d := ofNat_field _ _ f3
  have e_a : BitVec.ofNat 5 (wo / 16384) = a := ofNat_field _ _ f4
  have e_b : BitVec.ofNat 5 (wo / 512) = b := ofNat_field _ _ f5
  have e_s : BitVec.ofNat 3 (wo / 64) = s := ofNat_field _ _ f6
  have e_f : BitVec.ofNat 3 (wo) = f := ofNat_field _ _ f7
  simp [decodeFields, decodeC, decodeC13, *]

theorem RoundTrip.hbinit (a : BitVec 6) (b : BitVec 6) : RoundTrip.Statement (.hbinit a b) := by
  refine RoundTrip.of_fields _ fun l hl => ?_
  have henc : encodeNat (.hbinit a b) = 335544320 + a.toNat * 4096 + b.toNat * 64 := rfl
  rw [henc]
  have hf := layout_14 _ 335544320 l a.toNat b.toNat (by decide) (by decide) (by decide) a.isLt b.isLt hl rfl
  generalize 335544320 + a.toNat * 4096 + b.toNat * 64 + l * 2147483648 = wo at hf ⊢
  obtain ⟨f0, f1, f2, f3, f4, f5⟩ := hf
  have e_a : BitVec.ofNat 6 (wo / 4096) = a := ofNat_field _ _ f3
  have e_b : BitVec.ofNat 6 (wo / 64) = b := ofNat_field _ _ f5
  simp [decodeFields, decodeC, decodeC14, *]

theorem RoundTrip.hbarr (d : BitVec 6) (b : BitVec 6) : RoundTrip.Statement (.hbarr d b) := by
  refine RoundTrip.of_fields _ fun l hl => ?_
  have henc : encodeNat (.hbarr d b) = 335544321 + d.toNat * 262144 + b.toNat * 64 := rfl
  rw [henc]
  have hf := layout_15 _ 335544321 l d.toNat b.toNat (by decide) (by decide) (by decide) d.isLt b.isLt hl rfl
  generalize 335544321 + d.toNat * 262144 + b.toNat * 64 + l * 2147483648 = wo at hf ⊢
  obtain ⟨f0, f1, f2, f3, f4, f5⟩ := hf
  have e_d : BitVec.ofNat 6 (wo / 262144) = d := ofNat_field _ _ f4
  have e_b : BitVec.ofNat 6 (wo / 64) = b := ofNat_field _ _ f5
  simp [decodeFields, decodeC, decodeC14, *]

theorem RoundTrip.hbwait (a : BitVec 6) (b : BitVec 6) : RoundTrip.Statement (.hbwait a b) := by
  refine RoundTrip.of_fields _ fun l hl => ?_
  have henc : encodeNat (.hbwait a b) = 335544322 + a.toNat * 4096 + b.toNat * 64 := rfl
  rw [henc]
  have hf := layout_14 _ 335544322 l a.toNat b.toNat (by decide) (by decide) (by decide) a.isLt b.isLt hl rfl
  generalize 335544322 + a.toNat * 4096 + b.toNat * 64 + l * 2147483648 = wo at hf ⊢
  obtain ⟨f0, f1, f2, f3, f4, f5⟩ := hf
  have e_a : BitVec.ofNat 6 (wo / 4096) = a := ofNat_field _ _ f3
  have e_b : BitVec.ofNat 6 (wo / 64) = b := ofNat_field _ _ f5
  simp [decodeFields, decodeC, decodeC14, *]

theorem RoundTrip.hbtest (d : BitVec 6) (a : BitVec 6) (b : BitVec 6) : RoundTrip.Statement (.hbtest d a b) := by
  refine RoundTrip.of_fields _ fun l hl => ?_
  have henc : encodeNat (.hbtest d a b) = 335544323 + d.toNat * 262144 + a.toNat * 4096 + b.toNat * 64 := rfl
  rw [henc]
  have hf := layout_16 _ 335544323 l d.toNat a.toNat b.toNat (by decide) (by decide) (by decide) (by decide) d.isLt a.isLt b.isLt hl rfl
  generalize 335544323 + d.toNat * 262144 + a.toNat * 4096 + b.toNat * 64 + l * 2147483648 = wo at hf ⊢
  obtain ⟨f0, f1, f2, f3, f4, f5, f6⟩ := hf
  have e_d : BitVec.ofNat 6 (wo / 262144) = d := ofNat_field _ _ f5
  have e_a : BitVec.ofNat 6 (wo / 4096) = a := ofNat_field _ _ f4
  have e_b : BitVec.ofNat 6 (wo / 64) = b := ofNat_field _ _ f6
  simp [decodeFields, decodeC, decodeC14, *]

theorem RoundTrip.spawn (d : BitVec 6) (a : BitVec 6) : RoundTrip.Statement (.spawn d a) := by
  refine RoundTrip.of_fields _ fun l hl => ?_
  have henc : encodeNat (.spawn d a) = 402653184 + d.toNat * 262144 + a.toNat * 4096 := rfl
  rw [henc]
  have hf := layout_2 _ 402653184 l d.toNat a.toNat (by decide) (by decide) (by decide) d.isLt a.isLt hl rfl
  generalize 402653184 + d.toNat * 262144 + a.toNat * 4096 + l * 2147483648 = wo at hf ⊢
  obtain ⟨f0, f1, f2, f3, f4, f5⟩ := hf
  have e_d : BitVec.ofNat 6 (wo / 262144) = d := ofNat_field _ _ f4
  have e_a : BitVec.ofNat 6 (wo / 4096) = a := ofNat_field _ _ f5
  simp [decodeFields, decodeC, decodeC18, *]

theorem RoundTrip.spawnx (d : BitVec 6) (a : BitVec 6) : RoundTrip.Statement (.spawnx d a) := by
  refine RoundTrip.of_fields _ fun l hl => ?_
  have henc : encodeNat (.spawnx d a) = 402653185 + d.toNat * 262144 + a.toNat * 4096 := rfl
  rw [henc]
  have hf := layout_2 _ 402653185 l d.toNat a.toNat (by decide) (by decide) (by decide) d.isLt a.isLt hl rfl
  generalize 402653185 + d.toNat * 262144 + a.toNat * 4096 + l * 2147483648 = wo at hf ⊢
  obtain ⟨f0, f1, f2, f3, f4, f5⟩ := hf
  have e_d : BitVec.ofNat 6 (wo / 262144) = d := ofNat_field _ _ f4
  have e_a : BitVec.ofNat 6 (wo / 4096) = a := ofNat_field _ _ f5
  simp [decodeFields, decodeC, decodeC18, *]

theorem RoundTrip.tsig (d : BitVec 6) (a : BitVec 6) : RoundTrip.Statement (.tsig d a) := by
  refine RoundTrip.of_fields _ fun l hl => ?_
  have henc : encodeNat (.tsig d a) = 402653186 + d.toNat * 262144 + a.toNat * 4096 := rfl
  rw [henc]
  have hf := layout_2 _ 402653186 l d.toNat a.toNat (by decide) (by decide) (by decide) d.isLt a.isLt hl rfl
  generalize 402653186 + d.toNat * 262144 + a.toNat * 4096 + l * 2147483648 = wo at hf ⊢
  obtain ⟨f0, f1, f2, f3, f4, f5⟩ := hf
  have e_d : BitVec.ofNat 6 (wo / 262144) = d := ofNat_field _ _ f4
  have e_a : BitVec.ofNat 6 (wo / 4096) = a := ofNat_field _ _ f5
  simp [decodeFields, decodeC, decodeC18, *]

theorem RoundTrip.tdep (d : BitVec 6) (a : BitVec 6) : RoundTrip.Statement (.tdep d a) := by
  refine RoundTrip.of_fields _ fun l hl => ?_
  have henc : encodeNat (.tdep d a) = 402653187 + d.toNat * 262144 + a.toNat * 4096 := rfl
  rw [henc]
  have hf := layout_2 _ 402653187 l d.toNat a.toNat (by decide) (by decide) (by decide) d.isLt a.isLt hl rfl
  generalize 402653187 + d.toNat * 262144 + a.toNat * 4096 + l * 2147483648 = wo at hf ⊢
  obtain ⟨f0, f1, f2, f3, f4, f5⟩ := hf
  have e_d : BitVec.ofNat 6 (wo / 262144) = d := ofNat_field _ _ f4
  have e_a : BitVec.ofNat 6 (wo / 4096) = a := ofNat_field _ _ f5
  simp [decodeFields, decodeC, decodeC18, *]

theorem RoundTrip.wake (d : BitVec 6) (a : BitVec 6) : RoundTrip.Statement (.wake d a) := by
  refine RoundTrip.of_fields _ fun l hl => ?_
  have henc : encodeNat (.wake d a) = 402653189 + d.toNat * 262144 + a.toNat * 4096 := rfl
  rw [henc]
  have hf := layout_2 _ 402653189 l d.toNat a.toNat (by decide) (by decide) (by decide) d.isLt a.isLt hl rfl
  generalize 402653189 + d.toNat * 262144 + a.toNat * 4096 + l * 2147483648 = wo at hf ⊢
  obtain ⟨f0, f1, f2, f3, f4, f5⟩ := hf
  have e_d : BitVec.ofNat 6 (wo / 262144) = d := ofNat_field _ _ f4
  have e_a : BitVec.ofNat 6 (wo / 4096) = a := ofNat_field _ _ f5
  have t4_0 : ¬ wo % 16777216 = 4 := by omega
  simp [decodeFields, decodeC, decodeC18, *]

theorem RoundTrip.tret (a : BitVec 6) : RoundTrip.Statement (.tret a) := by
  refine RoundTrip.of_fields _ fun l hl => ?_
  have henc : encodeNat (.tret a) = 402653190 + a.toNat * 4096 := rfl
  rw [henc]
  have hf := layout_3 _ 402653190 l a.toNat (by decide) (by decide) a.isLt hl rfl
  generalize 402653190 + a.toNat * 4096 + l * 2147483648 = wo at hf ⊢
  obtain ⟨f0, f1, f2, f3, f4, f5⟩ := hf
  have e_a : BitVec.ofNat 6 (wo / 4096) = a := ofNat_field _ _ f5
  have t4_0 : ¬ wo % 16777216 = 4 := by omega
  simp [decodeFields, decodeC, decodeC18, *]

theorem RoundTrip.bktsel (d : BitVec 6) (a : BitVec 6) : RoundTrip.Statement (.bktsel d a) := by
  refine RoundTrip.of_fields _ fun l hl => ?_
  have henc : encodeNat (.bktsel d a) = 402653192 + d.toNat * 262144 + a.toNat * 4096 := rfl
  rw [henc]
  have hf := layout_2 _ 402653192 l d.toNat a.toNat (by decide) (by decide) (by decide) d.isLt a.isLt hl rfl
  generalize 402653192 + d.toNat * 262144 + a.toNat * 4096 + l * 2147483648 = wo at hf ⊢
  obtain ⟨f0, f1, f2, f3, f4, f5⟩ := hf
  have e_d : BitVec.ofNat 6 (wo / 262144) = d := ofNat_field _ _ f4
  have e_a : BitVec.ofNat 6 (wo / 4096) = a := ofNat_field _ _ f5
  have t4_0 : ¬ wo % 16777216 = 4 := by omega
  have t7_0 : ¬ wo % 16777216 = 7 := by omega
  simp [decodeFields, decodeC, decodeC18, *]

theorem RoundTrip.stealctl (d : BitVec 6) (a : BitVec 6) : RoundTrip.Statement (.stealctl d a) := by
  refine RoundTrip.of_fields _ fun l hl => ?_
  have henc : encodeNat (.stealctl d a) = 419430400 + d.toNat * 262144 + a.toNat * 4096 := rfl
  rw [henc]
  have hf := layout_2 _ 419430400 l d.toNat a.toNat (by decide) (by decide) (by decide) d.isLt a.isLt hl rfl
  generalize 419430400 + d.toNat * 262144 + a.toNat * 4096 + l * 2147483648 = wo at hf ⊢
  obtain ⟨f0, f1, f2, f3, f4, f5⟩ := hf
  have e_d : BitVec.ofNat 6 (wo / 262144) = d := ofNat_field _ _ f4
  have e_a : BitVec.ofNat 6 (wo / 4096) = a := ofNat_field _ _ f5
  simp [decodeFields, decodeC, decodeC19, *]

theorem RoundTrip.budget (d : BitVec 6) (a : BitVec 6) (b : BitVec 6) : RoundTrip.Statement (.budget d a b) := by
  refine RoundTrip.of_fields _ fun l hl => ?_
  have henc : encodeNat (.budget d a b) = 419430401 + d.toNat * 262144 + a.toNat * 4096 + b.toNat * 64 := rfl
  rw [henc]
  have hf := layout_16 _ 419430401 l d.toNat a.toNat b.toNat (by decide) (by decide) (by decide) (by decide) d.isLt a.isLt b.isLt hl rfl
  generalize 419430401 + d.toNat * 262144 + a.toNat * 4096 + b.toNat * 64 + l * 2147483648 = wo at hf ⊢
  obtain ⟨f0, f1, f2, f3, f4, f5, f6⟩ := hf
  have e_d : BitVec.ofNat 6 (wo / 262144) = d := ofNat_field _ _ f5
  have e_a : BitVec.ofNat 6 (wo / 4096) = a := ofNat_field _ _ f4
  have e_b : BitVec.ofNat 6 (wo / 64) = b := ofNat_field _ _ f6
  have t0_0 : ¬ wo % 4096 = 0 := by omega
  simp [decodeFields, decodeC, decodeC19, *]

theorem RoundTrip.rbox (d : BitVec 6) (a : BitVec 6) (b : BitVec 6) : RoundTrip.Statement (.rbox d a b) := by
  refine RoundTrip.of_fields _ fun l hl => ?_
  have henc : encodeNat (.rbox d a b) = 469762048 + d.toNat * 262144 + a.toNat * 4096 + b.toNat * 64 := rfl
  rw [henc]
  have hf := layout_16 _ 469762048 l d.toNat a.toNat b.toNat (by decide) (by decide) (by decide) (by decide) d.isLt a.isLt b.isLt hl rfl
  generalize 469762048 + d.toNat * 262144 + a.toNat * 4096 + b.toNat * 64 + l * 2147483648 = wo at hf ⊢
  obtain ⟨f0, f1, f2, f3, f4, f5, f6⟩ := hf
  have e_d : BitVec.ofNat 6 (wo / 262144) = d := ofNat_field _ _ f5
  have e_a : BitVec.ofNat 6 (wo / 4096) = a := ofNat_field _ _ f4
  have e_b : BitVec.ofNat 6 (wo / 64) = b := ofNat_field _ _ f6
  simp [decodeFields, decodeC, decodeC1C, *]

theorem RoundTrip.rld (d : BitVec 6) (a : BitVec 6) : RoundTrip.Statement (.rld d a) := by
  refine RoundTrip.of_fields _ fun l hl => ?_
  have henc : encodeNat (.rld d a) = 469762049 + d.toNat * 262144 + a.toNat * 4096 := rfl
  rw [henc]
  have hf := layout_2 _ 469762049 l d.toNat a.toNat (by decide) (by decide) (by decide) d.isLt a.isLt hl rfl
  generalize 469762049 + d.toNat * 262144 + a.toNat * 4096 + l * 2147483648 = wo at hf ⊢
  obtain ⟨f0, f1, f2, f3, f4, f5⟩ := hf
  have e_d : BitVec.ofNat 6 (wo / 262144) = d := ofNat_field _ _ f4
  have e_a : BitVec.ofNat 6 (wo / 4096) = a := ofNat_field _ _ f5
  simp [decodeFields, decodeC, decodeC1C, *]

theorem RoundTrip.rst (d : BitVec 6) (a : BitVec 6) : RoundTrip.Statement (.rst d a) := by
  refine RoundTrip.of_fields _ fun l hl => ?_
  have henc : encodeNat (.rst d a) = 469762050 + d.toNat * 262144 + a.toNat * 4096 := rfl
  rw [henc]
  have hf := layout_2 _ 469762050 l d.toNat a.toNat (by decide) (by decide) (by decide) d.isLt a.isLt hl rfl
  generalize 469762050 + d.toNat * 262144 + a.toNat * 4096 + l * 2147483648 = wo at hf ⊢
  obtain ⟨f0, f1, f2, f3, f4, f5⟩ := hf
  have e_d : BitVec.ofNat 6 (wo / 262144) = d := ofNat_field _ _ f4
  have e_a : BitVec.ofNat 6 (wo / 4096) = a := ofNat_field _ _ f5
  simp [decodeFields, decodeC, decodeC1C, *]

theorem RoundTrip.runi (d : BitVec 6) (a : BitVec 6) (b : BitVec 6) : RoundTrip.Statement (.runi d a b) := by
  refine RoundTrip.of_fields _ fun l hl => ?_
  have henc : encodeNat (.runi d a b) = 469762051 + d.toNat * 262144 + a.toNat * 4096 + b.toNat * 64 := rfl
  rw [henc]
  have hf := layout_16 _ 469762051 l d.toNat a.toNat b.toNat (by decide) (by decide) (by decide) (by decide) d.isLt a.isLt b.isLt hl rfl
  generalize 469762051 + d.toNat * 262144 + a.toNat * 4096 + b.toNat * 64 + l * 2147483648 = wo at hf ⊢
  obtain ⟨f0, f1, f2, f3, f4, f5, f6⟩ := hf
  have e_d : BitVec.ofNat 6 (wo / 262144) = d := ofNat_field _ _ f5
  have e_a : BitVec.ofNat 6 (wo / 4096) = a := ofNat_field _ _ f4
  have e_b : BitVec.ofNat 6 (wo / 64) = b := ofNat_field _ _ f6
  have t1_0 : ¬ wo % 4096 = 1 := by omega
  have t2_0 : ¬ wo % 4096 = 2 := by omega
  simp [decodeFields, decodeC, decodeC1C, *]

theorem RoundTrip.rint (d : BitVec 6) (a : BitVec 6) (b : BitVec 6) : RoundTrip.Statement (.rint d a b) := by
  refine RoundTrip.of_fields _ fun l hl => ?_
  have henc : encodeNat (.rint d a b) = 469762052 + d.toNat * 262144 + a.toNat * 4096 + b.toNat * 64 := rfl
  rw [henc]
  have hf := layout_16 _ 469762052 l d.toNat a.toNat b.toNat (by decide) (by decide) (by decide) (by decide) d.isLt a.isLt b.isLt hl rfl
  generalize 469762052 + d.toNat * 262144 + a.toNat * 4096 + b.toNat * 64 + l * 2147483648 = wo at hf ⊢
  obtain ⟨f0, f1, f2, f3, f4, f5, f6⟩ := hf
  have e_d : BitVec.ofNat 6 (wo / 262144) = d := ofNat_field _ _ f5
  have e_a : BitVec.ofNat 6 (wo / 4096) = a := ofNat_field _ _ f4
  have e_b : BitVec.ofNat 6 (wo / 64) = b := ofNat_field _ _ f6
  have t1_0 : ¬ wo % 4096 = 1 := by omega
  have t2_0 : ¬ wo % 4096 = 2 := by omega
  simp [decodeFields, decodeC, decodeC1C, *]

theorem RoundTrip.rsub (d : BitVec 6) (a : BitVec 6) (b : BitVec 6) : RoundTrip.Statement (.rsub d a b) := by
  refine RoundTrip.of_fields _ fun l hl => ?_
  have henc : encodeNat (.rsub d a b) = 469762053 + d.toNat * 262144 + a.toNat * 4096 + b.toNat * 64 := rfl
  rw [henc]
  have hf := layout_16 _ 469762053 l d.toNat a.toNat b.toNat (by decide) (by decide) (by decide) (by decide) d.isLt a.isLt b.isLt hl rfl
  generalize 469762053 + d.toNat * 262144 + a.toNat * 4096 + b.toNat * 64 + l * 2147483648 = wo at hf ⊢
  obtain ⟨f0, f1, f2, f3, f4, f5, f6⟩ := hf
  have e_d : BitVec.ofNat 6 (wo / 262144) = d := ofNat_field _ _ f5
  have e_a : BitVec.ofNat 6 (wo / 4096) = a := ofNat_field _ _ f4
  have e_b : BitVec.ofNat 6 (wo / 64) = b := ofNat_field _ _ f6
  have t1_0 : ¬ wo % 4096 = 1 := by omega
  have t2_0 : ¬ wo % 4096 = 2 := by omega
  simp [decodeFields, decodeC, decodeC1C, *]

theorem RoundTrip.rdil (d : BitVec 6) (a : BitVec 6) (b : BitVec 6) : RoundTrip.Statement (.rdil d a b) := by
  refine RoundTrip.of_fields _ fun l hl => ?_
  have henc : encodeNat (.rdil d a b) = 469762054 + d.toNat * 262144 + a.toNat * 4096 + b.toNat * 64 := rfl
  rw [henc]
  have hf := layout_16 _ 469762054 l d.toNat a.toNat b.toNat (by decide) (by decide) (by decide) (by decide) d.isLt a.isLt b.isLt hl rfl
  generalize 469762054 + d.toNat * 262144 + a.toNat * 4096 + b.toNat * 64 + l * 2147483648 = wo at hf ⊢
  obtain ⟨f0, f1, f2, f3, f4, f5, f6⟩ := hf
  have e_d : BitVec.ofNat 6 (wo / 262144) = d := ofNat_field _ _ f5
  have e_a : BitVec.ofNat 6 (wo / 4096) = a := ofNat_field _ _ f4
  have e_b : BitVec.ofNat 6 (wo / 64) = b := ofNat_field _ _ f6
  have t1_0 : ¬ wo % 4096 = 1 := by omega
  have t2_0 : ¬ wo % 4096 = 2 := by omega
  simp [decodeFields, decodeC, decodeC1C, *]

theorem RoundTrip.rprj (d : BitVec 6) (a : BitVec 6) (b : BitVec 6) : RoundTrip.Statement (.rprj d a b) := by
  refine RoundTrip.of_fields _ fun l hl => ?_
  have henc : encodeNat (.rprj d a b) = 469762055 + d.toNat * 262144 + a.toNat * 4096 + b.toNat * 64 := rfl
  rw [henc]
  have hf := layout_16 _ 469762055 l d.toNat a.toNat b.toNat (by decide) (by decide) (by decide) (by decide) d.isLt a.isLt b.isLt hl rfl
  generalize 469762055 + d.toNat * 262144 + a.toNat * 4096 + b.toNat * 64 + l * 2147483648 = wo at hf ⊢
  obtain ⟨f0, f1, f2, f3, f4, f5, f6⟩ := hf
  have e_d : BitVec.ofNat 6 (wo / 262144) = d := ofNat_field _ _ f5
  have e_a : BitVec.ofNat 6 (wo / 4096) = a := ofNat_field _ _ f4
  have e_b : BitVec.ofNat 6 (wo / 64) = b := ofNat_field _ _ f6
  have t1_0 : ¬ wo % 4096 = 1 := by omega
  have t2_0 : ¬ wo % 4096 = 2 := by omega
  simp [decodeFields, decodeC, decodeC1C, *]

theorem RoundTrip.rspl (d : BitVec 6) (a : BitVec 6) (b : BitVec 6) : RoundTrip.Statement (.rspl d a b) := by
  refine RoundTrip.of_fields _ fun l hl => ?_
  have henc : encodeNat (.rspl d a b) = 469762056 + d.toNat * 262144 + a.toNat * 4096 + b.toNat * 64 := rfl
  rw [henc]
  have hf := layout_16 _ 469762056 l d.toNat a.toNat b.toNat (by decide) (by decide) (by decide) (by decide) d.isLt a.isLt b.isLt hl rfl
  generalize 469762056 + d.toNat * 262144 + a.toNat * 4096 + b.toNat * 64 + l * 2147483648 = wo at hf ⊢
  obtain ⟨f0, f1, f2, f3, f4, f5, f6⟩ := hf
  have e_d : BitVec.ofNat 6 (wo / 262144) = d := ofNat_field _ _ f5
  have e_a : BitVec.ofNat 6 (wo / 4096) = a := ofNat_field _ _ f4
  have e_b : BitVec.ofNat 6 (wo / 64) = b := ofNat_field _ _ f6
  have t1_0 : ¬ wo % 4096 = 1 := by omega
  have t2_0 : ¬ wo % 4096 = 2 := by omega
  simp [decodeFields, decodeC, decodeC1C, *]

theorem RoundTrip.rstrd (d : BitVec 6) (a : BitVec 6) (b : BitVec 6) : RoundTrip.Statement (.rstrd d a b) := by
  refine RoundTrip.of_fields _ fun l hl => ?_
  have henc : encodeNat (.rstrd d a b) = 469762057 + d.toNat * 262144 + a.toNat * 4096 + b.toNat * 64 := rfl
  rw [henc]
  have hf := layout_16 _ 469762057 l d.toNat a.toNat b.toNat (by decide) (by decide) (by decide) (by decide) d.isLt a.isLt b.isLt hl rfl
  generalize 469762057 + d.toNat * 262144 + a.toNat * 4096 + b.toNat * 64 + l * 2147483648 = wo at hf ⊢
  obtain ⟨f0, f1, f2, f3, f4, f5, f6⟩ := hf
  have e_d : BitVec.ofNat 6 (wo / 262144) = d := ofNat_field _ _ f5
  have e_a : BitVec.ofNat 6 (wo / 4096) = a := ofNat_field _ _ f4
  have e_b : BitVec.ofNat 6 (wo / 64) = b := ofNat_field _ _ f6
  have t1_0 : ¬ wo % 4096 = 1 := by omega
  have t2_0 : ¬ wo % 4096 = 2 := by omega
  simp [decodeFields, decodeC, decodeC1C, *]

theorem RoundTrip.rrag (d : BitVec 6) (a : BitVec 6) (b : BitVec 6) : RoundTrip.Statement (.rrag d a b) := by
  refine RoundTrip.of_fields _ fun l hl => ?_
  have henc : encodeNat (.rrag d a b) = 469762058 + d.toNat * 262144 + a.toNat * 4096 + b.toNat * 64 := rfl
  rw [henc]
  have hf := layout_16 _ 469762058 l d.toNat a.toNat b.toNat (by decide) (by decide) (by decide) (by decide) d.isLt a.isLt b.isLt hl rfl
  generalize 469762058 + d.toNat * 262144 + a.toNat * 4096 + b.toNat * 64 + l * 2147483648 = wo at hf ⊢
  obtain ⟨f0, f1, f2, f3, f4, f5, f6⟩ := hf
  have e_d : BitVec.ofNat 6 (wo / 262144) = d := ofNat_field _ _ f5
  have e_a : BitVec.ofNat 6 (wo / 4096) = a := ofNat_field _ _ f4
  have e_b : BitVec.ofNat 6 (wo / 64) = b := ofNat_field _ _ f6
  have t1_0 : ¬ wo % 4096 = 1 := by omega
  have t2_0 : ¬ wo % 4096 = 2 := by omega
  simp [decodeFields, decodeC, decodeC1C, *]

theorem RoundTrip.rshf (d : BitVec 6) (a : BitVec 6) (b : BitVec 6) : RoundTrip.Statement (.rshf d a b) := by
  refine RoundTrip.of_fields _ fun l hl => ?_
  have henc : encodeNat (.rshf d a b) = 469762059 + d.toNat * 262144 + a.toNat * 4096 + b.toNat * 64 := rfl
  rw [henc]
  have hf := layout_16 _ 469762059 l d.toNat a.toNat b.toNat (by decide) (by decide) (by decide) (by decide) d.isLt a.isLt b.isLt hl rfl
  generalize 469762059 + d.toNat * 262144 + a.toNat * 4096 + b.toNat * 64 + l * 2147483648 = wo at hf ⊢
  obtain ⟨f0, f1, f2, f3, f4, f5, f6⟩ := hf
  have e_d : BitVec.ofNat 6 (wo / 262144) = d := ofNat_field _ _ f5
  have e_a : BitVec.ofNat 6 (wo / 4096) = a := ofNat_field _ _ f4
  have e_b : BitVec.ofNat 6 (wo / 64) = b := ofNat_field _ _ f6
  have t1_0 : ¬ wo % 4096 = 1 := by omega
  have t2_0 : ¬ wo % 4096 = 2 := by omega
  simp [decodeFields, decodeC, decodeC1C, *]

theorem RoundTrip.rcmp (d : BitVec 6) (a : BitVec 6) (b : BitVec 6) : RoundTrip.Statement (.rcmp d a b) := by
  refine RoundTrip.of_fields _ fun l hl => ?_
  have henc : encodeNat (.rcmp d a b) = 469762060 + d.toNat * 262144 + a.toNat * 4096 + b.toNat * 64 := rfl
  rw [henc]
  have hf := layout_16 _ 469762060 l d.toNat a.toNat b.toNat (by decide) (by decide) (by decide) (by decide) d.isLt a.isLt b.isLt hl rfl
  generalize 469762060 + d.toNat * 262144 + a.toNat * 4096 + b.toNat * 64 + l * 2147483648 = wo at hf ⊢
  obtain ⟨f0, f1, f2, f3, f4, f5, f6⟩ := hf
  have e_d : BitVec.ofNat 6 (wo / 262144) = d := ofNat_field _ _ f5
  have e_a : BitVec.ofNat 6 (wo / 4096) = a := ofNat_field _ _ f4
  have e_b : BitVec.ofNat 6 (wo / 64) = b := ofNat_field _ _ f6
  have t1_0 : ¬ wo % 4096 = 1 := by omega
  have t2_0 : ¬ wo % 4096 = 2 := by omega
  simp [decodeFields, decodeC, decodeC1C, *]

theorem RoundTrip.rcnt (d : BitVec 6) (a : BitVec 6) : RoundTrip.Statement (.rcnt d a) := by
  refine RoundTrip.of_fields _ fun l hl => ?_
  have henc : encodeNat (.rcnt d a) = 469762061 + d.toNat * 262144 + a.toNat * 4096 := rfl
  rw [henc]
  have hf := layout_2 _ 469762061 l d.toNat a.toNat (by decide) (by decide) (by decide) d.isLt a.isLt hl rfl
  generalize 469762061 + d.toNat * 262144 + a.toNat * 4096 + l * 2147483648 = wo at hf ⊢
  obtain ⟨f0, f1, f2, f3, f4, f5⟩ := hf
  have e_d : BitVec.ofNat 6 (wo / 262144) = d := ofNat_field _ _ f4
  have e_a : BitVec.ofNat 6 (wo / 4096) = a := ofNat_field _ _ f5
  simp [decodeFields, decodeC, decodeC1C, *]

theorem RoundTrip.rvol (d : BitVec 6) (a : BitVec 6) : RoundTrip.Statement (.rvol d a) := by
  refine RoundTrip.of_fields _ fun l hl => ?_
  have henc : encodeNat (.rvol d a) = 469762062 + d.toNat * 262144 + a.toNat * 4096 := rfl
  rw [henc]
  have hf := layout_2 _ 469762062 l d.toNat a.toNat (by decide) (by decide) (by decide) d.isLt a.isLt hl rfl
  generalize 469762062 + d.toNat * 262144 + a.toNat * 4096 + l * 2147483648 = wo at hf ⊢
  obtain ⟨f0, f1, f2, f3, f4, f5⟩ := hf
  have e_d : BitVec.ofNat 6 (wo / 262144) = d := ofNat_field _ _ f4
  have e_a : BitVec.ofNat 6 (wo / 4096) = a := ofNat_field _ _ f5
  simp [decodeFields, decodeC, decodeC1C, *]

theorem RoundTrip.rtst (d : BitVec 6) (a : BitVec 6) (b : BitVec 6) : RoundTrip.Statement (.rtst d a b) := by
  refine RoundTrip.of_fields _ fun l hl => ?_
  have henc : encodeNat (.rtst d a b) = 469762063 + d.toNat * 262144 + a.toNat * 4096 + b.toNat * 64 := rfl
  rw [henc]
  have hf := layout_16 _ 469762063 l d.toNat a.toNat b.toNat (by decide) (by decide) (by decide) (by decide) d.isLt a.isLt b.isLt hl rfl
  generalize 469762063 + d.toNat * 262144 + a.toNat * 4096 + b.toNat * 64 + l * 2147483648 = wo at hf ⊢
  obtain ⟨f0, f1, f2, f3, f4, f5, f6⟩ := hf
  have e_d : BitVec.ofNat 6 (wo / 262144) = d := ofNat_field _ _ f5
  have e_a : BitVec.ofNat 6 (wo / 4096) = a := ofNat_field _ _ f4
  have e_b : BitVec.ofNat 6 (wo / 64) = b := ofNat_field _ _ f6
  have t1_0 : ¬ wo % 4096 = 1 := by omega
  have t2_0 : ¬ wo % 4096 = 2 := by omega
  have t13_0 : ¬ wo % 4096 = 13 := by omega
  have t14_0 : ¬ wo % 4096 = 14 := by omega
  simp [decodeFields, decodeC, decodeC1C, *]

theorem RoundTrip.copy (d : BitVec 6) (a : BitVec 6) (b : BitVec 6) : RoundTrip.Statement (.copy d a b) := by
  refine RoundTrip.of_fields _ fun l hl => ?_
  have henc : encodeNat (.copy d a b) = 536870912 + d.toNat * 262144 + a.toNat * 4096 + b.toNat * 64 := rfl
  rw [henc]
  have hf := layout_16 _ 536870912 l d.toNat a.toNat b.toNat (by decide) (by decide) (by decide) (by decide) d.isLt a.isLt b.isLt hl rfl
  generalize 536870912 + d.toNat * 262144 + a.toNat * 4096 + b.toNat * 64 + l * 2147483648 = wo at hf ⊢
  obtain ⟨f0, f1, f2, f3, f4, f5, f6⟩ := hf
  have e_d : BitVec.ofNat 6 (wo / 262144) = d := ofNat_field _ _ f5
  have e_a : BitVec.ofNat 6 (wo / 4096) = a := ofNat_field _ _ f4
  have e_b : BitVec.ofNat 6 (wo / 64) = b := ofNat_field _ _ f6
  simp [decodeFields, decodeC, decodeC20, *]

theorem RoundTrip.cwait (a : BitVec 6) (b : BitVec 6) : RoundTrip.Statement (.cwait a b) := by
  refine RoundTrip.of_fields _ fun l hl => ?_
  have henc : encodeNat (.cwait a b) = 536870913 + a.toNat * 4096 + b.toNat * 64 := rfl
  rw [henc]
  have hf := layout_14 _ 536870913 l a.toNat b.toNat (by decide) (by decide) (by decide) a.isLt b.isLt hl rfl
  generalize 536870913 + a.toNat * 4096 + b.toNat * 64 + l * 2147483648 = wo at hf ⊢
  obtain ⟨f0, f1, f2, f3, f4, f5⟩ := hf
  have e_a : BitVec.ofNat 6 (wo / 4096) = a := ofNat_field _ _ f3
  have e_b : BitVec.ofNat 6 (wo / 64) = b := ofNat_field _ _ f5
  simp [decodeFields, decodeC, decodeC20, *]

theorem RoundTrip.cwp (d : BitVec 6) (a : BitVec 6) : RoundTrip.Statement (.cwp d a) := by
  refine RoundTrip.of_fields _ fun l hl => ?_
  have henc : encodeNat (.cwp d a) = 536870914 + d.toNat * 262144 + a.toNat * 4096 := rfl
  rw [henc]
  have hf := layout_2 _ 536870914 l d.toNat a.toNat (by decide) (by decide) (by decide) d.isLt a.isLt hl rfl
  generalize 536870914 + d.toNat * 262144 + a.toNat * 4096 + l * 2147483648 = wo at hf ⊢
  obtain ⟨f0, f1, f2, f3, f4, f5⟩ := hf
  have e_d : BitVec.ofNat 6 (wo / 262144) = d := ofNat_field _ _ f4
  have e_a : BitVec.ofNat 6 (wo / 4096) = a := ofNat_field _ _ f5
  simp [decodeFields, decodeC, decodeC20, *]

theorem RoundTrip.pres (d : BitVec 6) (a : BitVec 6) : RoundTrip.Statement (.pres d a) := by
  refine RoundTrip.of_fields _ fun l hl => ?_
  have henc : encodeNat (.pres d a) = 536870915 + d.toNat * 262144 + a.toNat * 4096 := rfl
  rw [henc]
  have hf := layout_2 _ 536870915 l d.toNat a.toNat (by decide) (by decide) (by decide) d.isLt a.isLt hl rfl
  generalize 536870915 + d.toNat * 262144 + a.toNat * 4096 + l * 2147483648 = wo at hf ⊢
  obtain ⟨f0, f1, f2, f3, f4, f5⟩ := hf
  have e_d : BitVec.ofNat 6 (wo / 262144) = d := ofNat_field _ _ f4
  have e_a : BitVec.ofNat 6 (wo / 4096) = a := ofNat_field _ _ f5
  simp [decodeFields, decodeC, decodeC20, *]

theorem RoundTrip.gath (d : BitVec 6) (a : BitVec 6) (b : BitVec 6) : RoundTrip.Statement (.gath d a b) := by
  refine RoundTrip.of_fields _ fun l hl => ?_
  have henc : encodeNat (.gath d a b) = 536870916 + d.toNat * 262144 + a.toNat * 4096 + b.toNat * 64 := rfl
  rw [henc]
  have hf := layout_16 _ 536870916 l d.toNat a.toNat b.toNat (by decide) (by decide) (by decide) (by decide) d.isLt a.isLt b.isLt hl rfl
  generalize 536870916 + d.toNat * 262144 + a.toNat * 4096 + b.toNat * 64 + l * 2147483648 = wo at hf ⊢
  obtain ⟨f0, f1, f2, f3, f4, f5, f6⟩ := hf
  have e_d : BitVec.ofNat 6 (wo / 262144) = d := ofNat_field _ _ f5
  have e_a : BitVec.ofNat 6 (wo / 4096) = a := ofNat_field _ _ f4
  have e_b : BitVec.ofNat 6 (wo / 64) = b := ofNat_field _ _ f6
  have t2_0 : ¬ wo % 4096 = 2 := by omega
  have t3_0 : ¬ wo % 4096 = 3 := by omega
  simp [decodeFields, decodeC, decodeC20, *]

theorem RoundTrip.scat (d : BitVec 6) (a : BitVec 6) (b : BitVec 6) : RoundTrip.Statement (.scat d a b) := by
  refine RoundTrip.of_fields _ fun l hl => ?_
  have henc : encodeNat (.scat d a b) = 536870917 + d.toNat * 262144 + a.toNat * 4096 + b.toNat * 64 := rfl
  rw [henc]
  have hf := layout_16 _ 536870917 l d.toNat a.toNat b.toNat (by decide) (by decide) (by decide) (by decide) d.isLt a.isLt b.isLt hl rfl
  generalize 536870917 + d.toNat * 262144 + a.toNat * 4096 + b.toNat * 64 + l * 2147483648 = wo at hf ⊢
  obtain ⟨f0, f1, f2, f3, f4, f5, f6⟩ := hf
  have e_d : BitVec.ofNat 6 (wo / 262144) = d := ofNat_field _ _ f5
  have e_a : BitVec.ofNat 6 (wo / 4096) = a := ofNat_field _ _ f4
  have e_b : BitVec.ofNat 6 (wo / 64) = b := ofNat_field _ _ f6
  have t2_0 : ¬ wo % 4096 = 2 := by omega
  have t3_0 : ¬ wo % 4096 = 3 := by omega
  simp [decodeFields, decodeC, decodeC20, *]

theorem RoundTrip.migr (a : BitVec 6) : RoundTrip.Statement (.migr a) := by
  refine RoundTrip.of_fields _ fun l hl => ?_
  have henc : encodeNat (.migr a) = 536870918 + a.toNat * 4096 := rfl
  rw [henc]
  have hf := layout_3 _ 536870918 l a.toNat (by decide) (by decide) a.isLt hl rfl
  generalize 536870918 + a.toNat * 4096 + l * 2147483648 = wo at hf ⊢
  obtain ⟨f0, f1, f2, f3, f4, f5⟩ := hf
  have e_a : BitVec.ofNat 6 (wo / 4096) = a := ofNat_field _ _ f5
  simp [decodeFields, decodeC, decodeC20, *]

theorem RoundTrip.tseq (d : BitVec 6) (a : BitVec 6) : RoundTrip.Statement (.tseq d a) := by
  refine RoundTrip.of_fields _ fun l hl => ?_
  have henc : encodeNat (.tseq d a) = 536870919 + d.toNat * 262144 + a.toNat * 4096 := rfl
  rw [henc]
  have hf := layout_2 _ 536870919 l d.toNat a.toNat (by decide) (by decide) (by decide) d.isLt a.isLt hl rfl
  generalize 536870919 + d.toNat * 262144 + a.toNat * 4096 + l * 2147483648 = wo at hf ⊢
  obtain ⟨f0, f1, f2, f3, f4, f5⟩ := hf
  have e_d : BitVec.ofNat 6 (wo / 262144) = d := ofNat_field _ _ f4
  have e_a : BitVec.ofNat 6 (wo / 4096) = a := ofNat_field _ _ f5
  simp [decodeFields, decodeC, decodeC20, *]

theorem RoundTrip.tseqWt (a : BitVec 6) (b : BitVec 6) : RoundTrip.Statement (.tseqWt a b) := by
  refine RoundTrip.of_fields _ fun l hl => ?_
  have henc : encodeNat (.tseqWt a b) = 536870920 + a.toNat * 4096 + b.toNat * 64 := rfl
  rw [henc]
  have hf := layout_14 _ 536870920 l a.toNat b.toNat (by decide) (by decide) (by decide) a.isLt b.isLt hl rfl
  generalize 536870920 + a.toNat * 4096 + b.toNat * 64 + l * 2147483648 = wo at hf ⊢
  obtain ⟨f0, f1, f2, f3, f4, f5⟩ := hf
  have e_a : BitVec.ofNat 6 (wo / 4096) = a := ofNat_field _ _ f3
  have e_b : BitVec.ofNat 6 (wo / 64) = b := ofNat_field _ _ f5
  have t2_0 : ¬ wo % 4096 = 2 := by omega
  have t3_0 : ¬ wo % 4096 = 3 := by omega
  have t6_0 : ¬ wo % 4096 = 6 := by omega
  have t7_0 : ¬ wo % 4096 = 7 := by omega
  simp [decodeFields, decodeC, decodeC20, *]

theorem RoundTrip.fopen (d : BitVec 6) (a : BitVec 6) : RoundTrip.Statement (.fopen d a) := by
  refine RoundTrip.of_fields _ fun l hl => ?_
  have henc : encodeNat (.fopen d a) = 553648128 + d.toNat * 262144 + a.toNat * 4096 := rfl
  rw [henc]
  have hf := layout_2 _ 553648128 l d.toNat a.toNat (by decide) (by decide) (by decide) d.isLt a.isLt hl rfl
  generalize 553648128 + d.toNat * 262144 + a.toNat * 4096 + l * 2147483648 = wo at hf ⊢
  obtain ⟨f0, f1, f2, f3, f4, f5⟩ := hf
  have e_d : BitVec.ofNat 6 (wo / 262144) = d := ofNat_field _ _ f4
  have e_a : BitVec.ofNat 6 (wo / 4096) = a := ofNat_field _ _ f5
  simp [decodeFields, decodeC, decodeC21, *]

theorem RoundTrip.fnext (d : BitVec 6) (a : BitVec 6) : RoundTrip.Statement (.fnext d a) := by
  refine RoundTrip.of_fields _ fun l hl => ?_
  have henc : encodeNat (.fnext d a) = 553648129 + d.toNat * 262144 + a.toNat * 4096 := rfl
  rw [henc]
  have hf := layout_2 _ 553648129 l d.toNat a.toNat (by decide) (by decide) (by decide) d.isLt a.isLt hl rfl
  generalize 553648129 + d.toNat * 262144 + a.toNat * 4096 + l * 2147483648 = wo at hf ⊢
  obtain ⟨f0, f1, f2, f3, f4, f5⟩ := hf
  have e_d : BitVec.ofNat 6 (wo / 262144) = d := ofNat_field _ _ f4
  have e_a : BitVec.ofNat 6 (wo / 4096) = a := ofNat_field _ _ f5
  simp [decodeFields, decodeC, decodeC21, *]

theorem RoundTrip.fnextge (d : BitVec 6) (a : BitVec 6) (b : BitVec 6) : RoundTrip.Statement (.fnextge d a b) := by
  refine RoundTrip.of_fields _ fun l hl => ?_
  have henc : encodeNat (.fnextge d a b) = 553648130 + d.toNat * 262144 + a.toNat * 4096 + b.toNat * 64 := rfl
  rw [henc]
  have hf := layout_16 _ 553648130 l d.toNat a.toNat b.toNat (by decide) (by decide) (by decide) (by decide) d.isLt a.isLt b.isLt hl rfl
  generalize 553648130 + d.toNat * 262144 + a.toNat * 4096 + b.toNat * 64 + l * 2147483648 = wo at hf ⊢
  obtain ⟨f0, f1, f2, f3, f4, f5, f6⟩ := hf
  have e_d : BitVec.ofNat 6 (wo / 262144) = d := ofNat_field _ _ f5
  have e_a : BitVec.ofNat 6 (wo / 4096) = a := ofNat_field _ _ f4
  have e_b : BitVec.ofNat 6 (wo / 64) = b := ofNat_field _ _ f6
  have t0_0 : ¬ wo % 4096 = 0 := by omega
  have t1_0 : ¬ wo % 4096 = 1 := by omega
  simp [decodeFields, decodeC, decodeC21, *]

theorem RoundTrip.fend (d : BitVec 6) (a : BitVec 6) : RoundTrip.Statement (.fend d a) := by
  refine RoundTrip.of_fields _ fun l hl => ?_
  have henc : encodeNat (.fend d a) = 553648131 + d.toNat * 262144 + a.toNat * 4096 := rfl
  rw [henc]
  have hf := layout_2 _ 553648131 l d.toNat a.toNat (by decide) (by decide) (by decide) d.isLt a.isLt hl rfl
  generalize 553648131 + d.toNat * 262144 + a.toNat * 4096 + l * 2147483648 = wo at hf ⊢
  obtain ⟨f0, f1, f2, f3, f4, f5⟩ := hf
  have e_d : BitVec.ofNat 6 (wo / 262144) = d := ofNat_field _ _ f4
  have e_a : BitVec.ofNat 6 (wo / 4096) = a := ofNat_field _ _ f5
  simp [decodeFields, decodeC, decodeC21, *]

theorem RoundTrip.mclaim (d : BitVec 6) (a : BitVec 6) (b : BitVec 6) : RoundTrip.Statement (.mclaim d a b) := by
  refine RoundTrip.of_fields _ fun l hl => ?_
  have henc : encodeNat (.mclaim d a b) = 603979776 + d.toNat * 262144 + a.toNat * 4096 + b.toNat * 64 := rfl
  rw [henc]
  have hf := layout_16 _ 603979776 l d.toNat a.toNat b.toNat (by decide) (by decide) (by decide) (by decide) d.isLt a.isLt b.isLt hl rfl
  generalize 603979776 + d.toNat * 262144 + a.toNat * 4096 + b.toNat * 64 + l * 2147483648 = wo at hf ⊢
  obtain ⟨f0, f1, f2, f3, f4, f5, f6⟩ := hf
  have e_d : BitVec.ofNat 6 (wo / 262144) = d := ofNat_field _ _ f5
  have e_a : BitVec.ofNat 6 (wo / 4096) = a := ofNat_field _ _ f4
  have e_b : BitVec.ofNat 6 (wo / 64) = b := ofNat_field _ _ f6
  simp [decodeFields, decodeC, decodeC24, *]

theorem RoundTrip.mrel (a : BitVec 6) (b : BitVec 6) : RoundTrip.Statement (.mrel a b) := by
  refine RoundTrip.of_fields _ fun l hl => ?_
  have henc : encodeNat (.mrel a b) = 603979777 + a.toNat * 4096 + b.toNat * 64 := rfl
  rw [henc]
  have hf := layout_14 _ 603979777 l a.toNat b.toNat (by decide) (by decide) (by decide) a.isLt b.isLt hl rfl
  generalize 603979777 + a.toNat * 4096 + b.toNat * 64 + l * 2147483648 = wo at hf ⊢
  obtain ⟨f0, f1, f2, f3, f4, f5⟩ := hf
  have e_a : BitVec.ofNat 6 (wo / 4096) = a := ofNat_field _ _ f3
  have e_b : BitVec.ofNat 6 (wo / 64) = b := ofNat_field _ _ f5
  simp [decodeFields, decodeC, decodeC24, *]

theorem RoundTrip.mlda (d : BitVec 6) (a : BitVec 6) (b : BitVec 6) : RoundTrip.Statement (.mlda d a b) := by
  refine RoundTrip.of_fields _ fun l hl => ?_
  have henc : encodeNat (.mlda d a b) = 603979778 + d.toNat * 262144 + a.toNat * 4096 + b.toNat * 64 := rfl
  rw [henc]
  have hf := layout_16 _ 603979778 l d.toNat a.toNat b.toNat (by decide) (by decide) (by decide) (by decide) d.isLt a.isLt b.isLt hl rfl
  generalize 603979778 + d.toNat * 262144 + a.toNat * 4096 + b.toNat * 64 + l * 2147483648 = wo at hf ⊢
  obtain ⟨f0, f1, f2, f3, f4, f5, f6⟩ := hf
  have e_d : BitVec.ofNat 6 (wo / 262144) = d := ofNat_field _ _ f5
  have e_a : BitVec.ofNat 6 (wo / 4096) = a := ofNat_field _ _ f4
  have e_b : BitVec.ofNat 6 (wo / 64) = b := ofNat_field _ _ f6
  simp [decodeFields, decodeC, decodeC24, *]

theorem RoundTrip.mldaRg (d : BitVec 6) (a : BitVec 6) (b : BitVec 6) : RoundTrip.Statement (.mldaRg d a b) := by
  refine RoundTrip.of_fields _ fun l hl => ?_
  have henc : encodeNat (.mldaRg d a b) = 603979794 + d.toNat * 262144 + a.toNat * 4096 + b.toNat * 64 := rfl
  rw [henc]
  have hf := layout_16 _ 603979794 l d.toNat a.toNat b.toNat (by decide) (by decide) (by decide) (by decide) d.isLt a.isLt b.isLt hl rfl
  generalize 603979794 + d.toNat * 262144 + a.toNat * 4096 + b.toNat * 64 + l * 2147483648 = wo at hf ⊢
  obtain ⟨f0, f1, f2, f3, f4, f5, f6⟩ := hf
  have e_d : BitVec.ofNat 6 (wo / 262144) = d := ofNat_field _ _ f5
  have e_a : BitVec.ofNat 6 (wo / 4096) = a := ofNat_field _ _ f4
  have e_b : BitVec.ofNat 6 (wo / 64) = b := ofNat_field _ _ f6
  simp [decodeFields, decodeC, decodeC24, *]

theorem RoundTrip.mldaSt (d : BitVec 6) (a : BitVec 6) (b : BitVec 6) : RoundTrip.Statement (.mldaSt d a b) := by
  refine RoundTrip.of_fields _ fun l hl => ?_
  have henc : encodeNat (.mldaSt d a b) = 603979810 + d.toNat * 262144 + a.toNat * 4096 + b.toNat * 64 := rfl
  rw [henc]
  have hf := layout_16 _ 603979810 l d.toNat a.toNat b.toNat (by decide) (by decide) (by decide) (by decide) d.isLt a.isLt b.isLt hl rfl
  generalize 603979810 + d.toNat * 262144 + a.toNat * 4096 + b.toNat * 64 + l * 2147483648 = wo at hf ⊢
  obtain ⟨f0, f1, f2, f3, f4, f5, f6⟩ := hf
  have e_d : BitVec.ofNat 6 (wo / 262144) = d := ofNat_field _ _ f5
  have e_a : BitVec.ofNat 6 (wo / 4096) = a := ofNat_field _ _ f4
  have e_b : BitVec.ofNat 6 (wo / 64) = b := ofNat_field _ _ f6
  simp [decodeFields, decodeC, decodeC24, *]

theorem RoundTrip.mldaAv (d : BitVec 6) (a : BitVec 6) (b : BitVec 6) : RoundTrip.Statement (.mldaAv d a b) := by
  refine RoundTrip.of_fields _ fun l hl => ?_
  have henc : encodeNat (.mldaAv d a b) = 603979826 + d.toNat * 262144 + a.toNat * 4096 + b.toNat * 64 := rfl
  rw [henc]
  have hf := layout_16 _ 603979826 l d.toNat a.toNat b.toNat (by decide) (by decide) (by decide) (by decide) d.isLt a.isLt b.isLt hl rfl
  generalize 603979826 + d.toNat * 262144 + a.toNat * 4096 + b.toNat * 64 + l * 2147483648 = wo at hf ⊢
  obtain ⟨f0, f1, f2, f3, f4, f5, f6⟩ := hf
  have e_d : BitVec.ofNat 6 (wo / 262144) = d := ofNat_field _ _ f5
  have e_a : BitVec.ofNat 6 (wo / 4096) = a := ofNat_field _ _ f4
  have e_b : BitVec.ofNat 6 (wo / 64) = b := ofNat_field _ _ f6
  simp [decodeFields, decodeC, decodeC24, *]

theorem RoundTrip.mldb (d : BitVec 6) (a : BitVec 6) (b : BitVec 6) : RoundTrip.Statement (.mldb d a b) := by
  refine RoundTrip.of_fields _ fun l hl => ?_
  have henc : encodeNat (.mldb d a b) = 603979779 + d.toNat * 262144 + a.toNat * 4096 + b.toNat * 64 := rfl
  rw [henc]
  have hf := layout_16 _ 603979779 l d.toNat a.toNat b.toNat (by decide) (by decide) (by decide) (by decide) d.isLt a.isLt b.isLt hl rfl
  generalize 603979779 + d.toNat * 262144 + a.toNat * 4096 + b.toNat * 64 + l * 2147483648 = wo at hf ⊢
  obtain ⟨f0, f1, f2, f3, f4, f5, f6⟩ := hf
  have e_d : BitVec.ofNat 6 (wo / 262144) = d := ofNat_field _ _ f5
  have e_a : BitVec.ofNat 6 (wo / 4096) = a := ofNat_field _ _ f4
  have e_b : BitVec.ofNat 6 (wo / 64) = b := ofNat_field _ _ f6
  simp [decodeFields, decodeC, decodeC24, *]

theorem RoundTrip.mldbRg (d : BitVec 6) (a : BitVec 6) (b : BitVec 6) : RoundTrip.Statement (.mldbRg d a b) := by
  refine RoundTrip.of_fields _ fun l hl => ?_
  have henc : encodeNat (.mldbRg d a b) = 603979795 + d.toNat * 262144 + a.toNat * 4096 + b.toNat * 64 := rfl
  rw [henc]
  have hf := layout_16 _ 603979795 l d.toNat a.toNat b.toNat (by decide) (by decide) (by decide) (by decide) d.isLt a.isLt b.isLt hl rfl
  generalize 603979795 + d.toNat * 262144 + a.toNat * 4096 + b.toNat * 64 + l * 2147483648 = wo at hf ⊢
  obtain ⟨f0, f1, f2, f3, f4, f5, f6⟩ := hf
  have e_d : BitVec.ofNat 6 (wo / 262144) = d := ofNat_field _ _ f5
  have e_a : BitVec.ofNat 6 (wo / 4096) = a := ofNat_field _ _ f4
  have e_b : BitVec.ofNat 6 (wo / 64) = b := ofNat_field _ _ f6
  simp [decodeFields, decodeC, decodeC24, *]

theorem RoundTrip.mldbSt (d : BitVec 6) (a : BitVec 6) (b : BitVec 6) : RoundTrip.Statement (.mldbSt d a b) := by
  refine RoundTrip.of_fields _ fun l hl => ?_
  have henc : encodeNat (.mldbSt d a b) = 603979811 + d.toNat * 262144 + a.toNat * 4096 + b.toNat * 64 := rfl
  rw [henc]
  have hf := layout_16 _ 603979811 l d.toNat a.toNat b.toNat (by decide) (by decide) (by decide) (by decide) d.isLt a.isLt b.isLt hl rfl
  generalize 603979811 + d.toNat * 262144 + a.toNat * 4096 + b.toNat * 64 + l * 2147483648 = wo at hf ⊢
  obtain ⟨f0, f1, f2, f3, f4, f5, f6⟩ := hf
  have e_d : BitVec.ofNat 6 (wo / 262144) = d := ofNat_field _ _ f5
  have e_a : BitVec.ofNat 6 (wo / 4096) = a := ofNat_field _ _ f4
  have e_b : BitVec.ofNat 6 (wo / 64) = b := ofNat_field _ _ f6
  simp [decodeFields, decodeC, decodeC24, *]

theorem RoundTrip.mldbAv (d : BitVec 6) (a : BitVec 6) (b : BitVec 6) : RoundTrip.Statement (.mldbAv d a b) := by
  refine RoundTrip.of_fields _ fun l hl => ?_
  have henc : encodeNat (.mldbAv d a b) = 603979827 + d.toNat * 262144 + a.toNat * 4096 + b.toNat * 64 := rfl
  rw [henc]
  have hf := layout_16 _ 603979827 l d.toNat a.toNat b.toNat (by decide) (by decide) (by decide) (by decide) d.isLt a.isLt b.isLt hl rfl
  generalize 603979827 + d.toNat * 262144 + a.toNat * 4096 + b.toNat * 64 + l * 2147483648 = wo at hf ⊢
  obtain ⟨f0, f1, f2, f3, f4, f5, f6⟩ := hf
  have e_d : BitVec.ofNat 6 (wo / 262144) = d := ofNat_field _ _ f5
  have e_a : BitVec.ofNat 6 (wo / 4096) = a := ofNat_field _ _ f4
  have e_b : BitVec.ofNat 6 (wo / 64) = b := ofNat_field _ _ f6
  simp [decodeFields, decodeC, decodeC24, *]

theorem RoundTrip.mseq (d : BitVec 6) (a : BitVec 6) : RoundTrip.Statement (.mseq d a) := by
  refine RoundTrip.of_fields _ fun l hl => ?_
  have henc : encodeNat (.mseq d a) = 603979780 + d.toNat * 262144 + a.toNat * 4096 := rfl
  rw [henc]
  have hf := layout_2 _ 603979780 l d.toNat a.toNat (by decide) (by decide) (by decide) d.isLt a.isLt hl rfl
  generalize 603979780 + d.toNat * 262144 + a.toNat * 4096 + l * 2147483648 = wo at hf ⊢
  obtain ⟨f0, f1, f2, f3, f4, f5⟩ := hf
  have e_d : BitVec.ofNat 6 (wo / 262144) = d := ofNat_field _ _ f4
  have e_a : BitVec.ofNat 6 (wo / 4096) = a := ofNat_field _ _ f5
  simp [decodeFields, decodeC, decodeC24, *]

theorem RoundTrip.mwait (a : BitVec 6) (b : BitVec 6) : RoundTrip.Statement (.mwait a b) := by
  refine RoundTrip.of_fields _ fun l hl => ?_
  have henc : encodeNat (.mwait a b) = 603979781 + a.toNat * 4096 + b.toNat * 64 := rfl
  rw [henc]
  have hf := layout_14 _ 603979781 l a.toNat b.toNat (by decide) (by decide) (by decide) a.isLt b.isLt hl rfl
  generalize 603979781 + a.toNat * 4096 + b.toNat * 64 + l * 2147483648 = wo at hf ⊢
  obtain ⟨f0, f1, f2, f3, f4, f5⟩ := hf
  have e_a : BitVec.ofNat 6 (wo / 4096) = a := ofNat_field _ _ f3
  have e_b : BitVec.ofNat 6 (wo / 64) = b := ofNat_field _ _ f5
  have t10_0 : ¬ wo % 4096 = 4 := by omega
  simp [decodeFields, decodeC, decodeC24, *]

theorem RoundTrip.mrec (a : BitVec 6) : RoundTrip.Statement (.mrec a) := by
  refine RoundTrip.of_fields _ fun l hl => ?_
  have henc : encodeNat (.mrec a) = 603979782 + a.toNat * 4096 := rfl
  rw [henc]
  have hf := layout_3 _ 603979782 l a.toNat (by decide) (by decide) a.isLt hl rfl
  generalize 603979782 + a.toNat * 4096 + l * 2147483648 = wo at hf ⊢
  obtain ⟨f0, f1, f2, f3, f4, f5⟩ := hf
  have e_a : BitVec.ofNat 6 (wo / 4096) = a := ofNat_field _ _ f5
  simp [decodeFields, decodeC, decodeC24, *]

theorem RoundTrip.mrev (a : BitVec 6) : RoundTrip.Statement (.mrev a) := by
  refine RoundTrip.of_fields _ fun l hl => ?_
  have henc : encodeNat (.mrev a) = 603979783 + a.toNat * 4096 := rfl
  rw [henc]
  have hf := layout_3 _ 603979783 l a.toNat (by decide) (by decide) a.isLt hl rfl
  generalize 603979783 + a.toNat * 4096 + l * 2147483648 = wo at hf ⊢
  obtain ⟨f0, f1, f2, f3, f4, f5⟩ := hf
  have e_a : BitVec.ofNat 6 (wo / 4096) = a := ofNat_field _ _ f5
  simp [decodeFields, decodeC, decodeC24, *]

theorem RoundTrip.mlog (a : BitVec 6) : RoundTrip.Statement (.mlog a) := by
  refine RoundTrip.of_fields _ fun l hl => ?_
  have henc : encodeNat (.mlog a) = 603979784 + a.toNat * 4096 := rfl
  rw [henc]
  have hf := layout_3 _ 603979784 l a.toNat (by decide) (by decide) a.isLt hl rfl
  generalize 603979784 + a.toNat * 4096 + l * 2147483648 = wo at hf ⊢
  obtain ⟨f0, f1, f2, f3, f4, f5⟩ := hf
  have e_a : BitVec.ofNat 6 (wo / 4096) = a := ofNat_field _ _ f5
  simp [decodeFields, decodeC, decodeC24, *]

theorem RoundTrip.mqw (d : BitVec 6) (a : BitVec 6) : RoundTrip.Statement (.mqw d a) := by
  refine RoundTrip.of_fields _ fun l hl => ?_
  have henc : encodeNat (.mqw d a) = 620756992 + d.toNat * 262144 + a.toNat * 4096 := rfl
  rw [henc]
  have hf := layout_2 _ 620756992 l d.toNat a.toNat (by decide) (by decide) (by decide) d.isLt a.isLt hl rfl
  generalize 620756992 + d.toNat * 262144 + a.toNat * 4096 + l * 2147483648 = wo at hf ⊢
  obtain ⟨f0, f1, f2, f3, f4, f5⟩ := hf
  have e_d : BitVec.ofNat 6 (wo / 262144) = d := ofNat_field _ _ f4
  have e_a : BitVec.ofNat 6 (wo / 4096) = a := ofNat_field _ _ f5
  simp [decodeFields, decodeC, decodeC25, *]

theorem RoundTrip.tmma (a : BitVec 6) (b : BitVec 6) : RoundTrip.Statement (.tmma a b) := by
  refine RoundTrip.of_fields _ fun l hl => ?_
  have henc : encodeNat (.tmma a b) = 637534208 + a.toNat * 1024 + b.toNat * 16 := rfl
  rw [henc]
  have hf := layout_17 _ 637534208 l a.toNat b.toNat (by decide) (by decide) (by decide) a.isLt b.isLt hl rfl
  generalize 637534208 + a.toNat * 1024 + b.toNat * 16 + l * 2147483648 = wo at hf ⊢
  obtain ⟨f0, f1, f2, f3, f4, f5⟩ := hf
  have e_a : BitVec.ofNat 6 (wo / 1024) = a := ofNat_field _ _ f4
  have e_b : BitVec.ofNat 6 (wo / 16) = b := ofNat_field _ _ f5
  simp [decodeFields, decodeC, decodeC26, *]

theorem RoundTrip.tmmaRdy (t : BitVec 8) (a : BitVec 6) (b : BitVec 6) : RoundTrip.Statement (.tmmaRdy t a b) := by
  refine RoundTrip.of_fields _ fun l hl => ?_
  have henc : encodeNat (.tmmaRdy t a b) = 654311424 + t.toNat * 65536 + a.toNat * 1024 + b.toNat * 16 := rfl
  rw [henc]
  have hf := layout_18 _ 654311424 l t.toNat a.toNat b.toNat (by decide) (by decide) (by decide) (by decide) t.isLt a.isLt b.isLt hl rfl
  generalize 654311424 + t.toNat * 65536 + a.toNat * 1024 + b.toNat * 16 + l * 2147483648 = wo at hf ⊢
  obtain ⟨f0, f1, f2, f3, f4, f5⟩ := hf
  have e_t : BitVec.ofNat 8 (wo / 65536) = t := ofNat_field _ _ f3
  have e_a : BitVec.ofNat 6 (wo / 1024) = a := ofNat_field _ _ f4
  have e_b : BitVec.ofNat 6 (wo / 16) = b := ofNat_field _ _ f5
  simp [decodeFields, decodeC, decodeC27, *]

theorem RoundTrip.tmmt (a : BitVec 6) (b : BitVec 6) : RoundTrip.Statement (.tmmt a b) := by
  refine RoundTrip.of_fields _ fun l hl => ?_
  have henc : encodeNat (.tmmt a b) = 637534209 + a.toNat * 1024 + b.toNat * 16 := rfl
  rw [henc]
  have hf := layout_17 _ 637534209 l a.toNat b.toNat (by decide) (by decide) (by decide) a.isLt b.isLt hl rfl
  generalize 637534209 + a.toNat * 1024 + b.toNat * 16 + l * 2147483648 = wo at hf ⊢
  obtain ⟨f0, f1, f2, f3, f4, f5⟩ := hf
  have e_a : BitVec.ofNat 6 (wo / 1024) = a := ofNat_field _ _ f4
  have e_b : BitVec.ofNat 6 (wo / 16) = b := ofNat_field _ _ f5
  simp [decodeFields, decodeC, decodeC26, *]

theorem RoundTrip.tmmtRdy (t : BitVec 8) (a : BitVec 6) (b : BitVec 6) : RoundTrip.Statement (.tmmtRdy t a b) := by
  refine RoundTrip.of_fields _ fun l hl => ?_
  have henc : encodeNat (.tmmtRdy t a b) = 654311425 + t.toNat * 65536 + a.toNat * 1024 + b.toNat * 16 := rfl
  rw [henc]
  have hf := layout_18 _ 654311425 l t.toNat a.toNat b.toNat (by decide) (by decide) (by decide) (by decide) t.isLt a.isLt b.isLt hl rfl
  generalize 654311425 + t.toNat * 65536 + a.toNat * 1024 + b.toNat * 16 + l * 2147483648 = wo at hf ⊢
  obtain ⟨f0, f1, f2, f3, f4, f5⟩ := hf
  have e_t : BitVec.ofNat 8 (wo / 65536) = t := ofNat_field _ _ f3
  have e_a : BitVec.ofNat 6 (wo / 1024) = a := ofNat_field _ _ f4
  have e_b : BitVec.ofNat 6 (wo / 16) = b := ofNat_field _ _ f5
  simp [decodeFields, decodeC, decodeC27, *]

theorem RoundTrip.ttmm (a : BitVec 6) (b : BitVec 6) : RoundTrip.Statement (.ttmm a b) := by
  refine RoundTrip.of_fields _ fun l hl => ?_
  have henc : encodeNat (.ttmm a b) = 637534210 + a.toNat * 1024 + b.toNat * 16 := rfl
  rw [henc]
  have hf := layout_17 _ 637534210 l a.toNat b.toNat (by decide) (by decide) (by decide) a.isLt b.isLt hl rfl
  generalize 637534210 + a.toNat * 1024 + b.toNat * 16 + l * 2147483648 = wo at hf ⊢
  obtain ⟨f0, f1, f2, f3, f4, f5⟩ := hf
  have e_a : BitVec.ofNat 6 (wo / 1024) = a := ofNat_field _ _ f4
  have e_b : BitVec.ofNat 6 (wo / 16) = b := ofNat_field _ _ f5
  simp [decodeFields, decodeC, decodeC26, *]

theorem RoundTrip.ttmmRdy (t : BitVec 8) (a : BitVec 6) (b : BitVec 6) : RoundTrip.Statement (.ttmmRdy t a b) := by
  refine RoundTrip.of_fields _ fun l hl => ?_
  have henc : encodeNat (.ttmmRdy t a b) = 654311426 + t.toNat * 65536 + a.toNat * 1024 + b.toNat * 16 := rfl
  rw [henc]
  have hf := layout_18 _ 654311426 l t.toNat a.toNat b.toNat (by decide) (by decide) (by decide) (by decide) t.isLt a.isLt b.isLt hl rfl
  generalize 654311426 + t.toNat * 65536 + a.toNat * 1024 + b.toNat * 16 + l * 2147483648 = wo at hf ⊢
  obtain ⟨f0, f1, f2, f3, f4, f5⟩ := hf
  have e_t : BitVec.ofNat 8 (wo / 65536) = t := ofNat_field _ _ f3
  have e_a : BitVec.ofNat 6 (wo / 1024) = a := ofNat_field _ _ f4
  have e_b : BitVec.ofNat 6 (wo / 16) = b := ofNat_field _ _ f5
  simp [decodeFields, decodeC, decodeC27, *]

theorem RoundTrip.tadd (a : BitVec 6) : RoundTrip.Statement (.tadd a) := by
  refine RoundTrip.of_fields _ fun l hl => ?_
  have henc : encodeNat (.tadd a) = 637534211 + a.toNat * 1024 := rfl
  rw [henc]
  have hf := layout_19 _ 637534211 l a.toNat (by decide) (by decide) a.isLt hl rfl
  generalize 637534211 + a.toNat * 1024 + l * 2147483648 = wo at hf ⊢
  obtain ⟨f0, f1, f2, f3, f4, f5, f6⟩ := hf
  have e_a : BitVec.ofNat 6 (wo / 1024) = a := ofNat_field _ _ f6
  simp [decodeFields, decodeC, decodeC26, *]

theorem RoundTrip.taddRdy (t : BitVec 8) (a : BitVec 6) : RoundTrip.Statement (.taddRdy t a) := by
  refine RoundTrip.of_fields _ fun l hl => ?_
  have henc : encodeNat (.taddRdy t a) = 654311427 + t.toNat * 65536 + a.toNat * 1024 := rfl
  rw [henc]
  have hf := layout_20 _ 654311427 l t.toNat a.toNat (by decide) (by decide) (by decide) t.isLt a.isLt hl rfl
  generalize 654311427 + t.toNat * 65536 + a.toNat * 1024 + l * 2147483648 = wo at hf ⊢
  obtain ⟨f0, f1, f2, f3, f4, f5, f6⟩ := hf
  have e_t : BitVec.ofNat 8 (wo / 65536) = t := ofNat_field _ _ f5
  have e_a : BitVec.ofNat 6 (wo / 1024) = a := ofNat_field _ _ f6
  simp [decodeFields, decodeC, decodeC27, *]

theorem RoundTrip.tmul (a : BitVec 6) : RoundTrip.Statement (.tmul a) := by
  refine RoundTrip.of_fields _ fun l hl => ?_
  have henc : encodeNat (.tmul a) = 637534212 + a.toNat * 1024 := rfl
  rw [henc]
  have hf := layout_19 _ 637534212 l a.toNat (by decide) (by decide) a.isLt hl rfl
  generalize 637534212 + a.toNat * 1024 + l * 2147483648 = wo at hf ⊢
  obtain ⟨f0, f1, f2, f3, f4, f5, f6⟩ := hf
  have e_a : BitVec.ofNat 6 (wo / 1024) = a := ofNat_field _ _ f6
  simp [decodeFields, decodeC, decodeC26, *]

theorem RoundTrip.tmulRdy (t : BitVec 8) (a : BitVec 6) : RoundTrip.Statement (.tmulRdy t a) := by
  refine RoundTrip.of_fields _ fun l hl => ?_
  have henc : encodeNat (.tmulRdy t a) = 654311428 + t.toNat * 65536 + a.toNat * 1024 := rfl
  rw [henc]
  have hf := layout_20 _ 654311428 l t.toNat a.toNat (by decide) (by decide) (by decide) t.isLt a.isLt hl rfl
  generalize 654311428 + t.toNat * 65536 + a.toNat * 1024 + l * 2147483648 = wo at hf ⊢
  obtain ⟨f0, f1, f2, f3, f4, f5, f6⟩ := hf
  have e_t : BitVec.ofNat 8 (wo / 65536) = t := ofNat_field _ _ f5
  have e_a : BitVec.ofNat 6 (wo / 1024) = a := ofNat_field _ _ f6
  simp [decodeFields, decodeC, decodeC27, *]

theorem RoundTrip.tsclMul (a : BitVec 6) : RoundTrip.Statement (.tsclMul a) := by
  refine RoundTrip.of_fields _ fun l hl => ?_
  have henc : encodeNat (.tsclMul a) = 637534213 + a.toNat * 1024 := rfl
  rw [henc]
  have hf := layout_19 _ 637534213 l a.toNat (by decide) (by decide) a.isLt hl rfl
  generalize 637534213 + a.toNat * 1024 + l * 2147483648 = wo at hf ⊢
  obtain ⟨f0, f1, f2, f3, f4, f5, f6⟩ := hf
  have e_a : BitVec.ofNat 6 (wo / 1024) = a := ofNat_field _ _ f6
  simp [decodeFields, decodeC, decodeC26, *]

theorem RoundTrip.tsclMulRdy (t : BitVec 8) (a : BitVec 6) : RoundTrip.Statement (.tsclMulRdy t a) := by
  refine RoundTrip.of_fields _ fun l hl => ?_
  have henc : encodeNat (.tsclMulRdy t a) = 654311429 + t.toNat * 65536 + a.toNat * 1024 := rfl
  rw [henc]
  have hf := layout_20 _ 654311429 l t.toNat a.toNat (by decide) (by decide) (by decide) t.isLt a.isLt hl rfl
  generalize 654311429 + t.toNat * 65536 + a.toNat * 1024 + l * 2147483648 = wo at hf ⊢
  obtain ⟨f0, f1, f2, f3, f4, f5, f6⟩ := hf
  have e_t : BitVec.ofNat 8 (wo / 65536) = t := ofNat_field _ _ f5
  have e_a : BitVec.ofNat 6 (wo / 1024) = a := ofNat_field _ _ f6
  simp [decodeFields, decodeC, decodeC27, *]

theorem RoundTrip.tsclSet (a : BitVec 6) : RoundTrip.Statement (.tsclSet a) := by
  refine RoundTrip.of_fields _ fun l hl => ?_
  have henc : encodeNat (.tsclSet a) = 637534229 + a.toNat * 1024 := rfl
  rw [henc]
  have hf := layout_19 _ 637534229 l a.toNat (by decide) (by decide) a.isLt hl rfl
  generalize 637534229 + a.toNat * 1024 + l * 2147483648 = wo at hf ⊢
  obtain ⟨f0, f1, f2, f3, f4, f5, f6⟩ := hf
  have e_a : BitVec.ofNat 6 (wo / 1024) = a := ofNat_field _ _ f6
  simp [decodeFields, decodeC, decodeC26, *]

theorem RoundTrip.tsclSetRdy (t : BitVec 8) (a : BitVec 6) : RoundTrip.Statement (.tsclSetRdy t a) := by
  refine RoundTrip.of_fields _ fun l hl => ?_
  have henc : encodeNat (.tsclSetRdy t a) = 654311445 + t.toNat * 65536 + a.toNat * 1024 := rfl
  rw [henc]
  have hf := layout_20 _ 654311445 l t.toNat a.toNat (by decide) (by decide) (by decide) t.isLt a.isLt hl rfl
  generalize 654311445 + t.toNat * 65536 + a.toNat * 1024 + l * 2147483648 = wo at hf ⊢
  obtain ⟨f0, f1, f2, f3, f4, f5, f6⟩ := hf
  have e_t : BitVec.ofNat 8 (wo / 65536) = t := ofNat_field _ _ f5
  have e_a : BitVec.ofNat 6 (wo / 1024) = a := ofNat_field _ _ f6
  simp [decodeFields, decodeC, decodeC27, *]

theorem RoundTrip.texp (a : BitVec 6) : RoundTrip.Statement (.texp a) := by
  refine RoundTrip.of_fields _ fun l hl => ?_
  have henc : encodeNat (.texp a) = 637534214 + a.toNat * 1024 := rfl
  rw [henc]
  have hf := layout_19 _ 637534214 l a.toNat (by decide) (by decide) a.isLt hl rfl
  generalize 637534214 + a.toNat * 1024 + l * 2147483648 = wo at hf ⊢
  obtain ⟨f0, f1, f2, f3, f4, f5, f6⟩ := hf
  have e_a : BitVec.ofNat 6 (wo / 1024) = a := ofNat_field _ _ f6
  simp [decodeFields, decodeC, decodeC26, *]

theorem RoundTrip.texpRdy (t : BitVec 8) (a : BitVec 6) : RoundTrip.Statement (.texpRdy t a) := by
  refine RoundTrip.of_fields _ fun l hl => ?_
  have henc : encodeNat (.texpRdy t a) = 654311430 + t.toNat * 65536 + a.toNat * 1024 := rfl
  rw [henc]
  have hf := layout_20 _ 654311430 l t.toNat a.toNat (by decide) (by decide) (by decide) t.isLt a.isLt hl rfl
  generalize 654311430 + t.toNat * 65536 + a.toNat * 1024 + l * 2147483648 = wo at hf ⊢
  obtain ⟨f0, f1, f2, f3, f4, f5, f6⟩ := hf
  have e_t : BitVec.ofNat 8 (wo / 65536) = t := ofNat_field _ _ f5
  have e_a : BitVec.ofNat 6 (wo / 1024) = a := ofNat_field _ _ f6
  simp [decodeFields, decodeC, decodeC27, *]

theorem RoundTrip.trmax (a : BitVec 6) : RoundTrip.Statement (.trmax a) := by
  refine RoundTrip.of_fields _ fun l hl => ?_
  have henc : encodeNat (.trmax a) = 637534215 + a.toNat * 1024 := rfl
  rw [henc]
  have hf := layout_19 _ 637534215 l a.toNat (by decide) (by decide) a.isLt hl rfl
  generalize 637534215 + a.toNat * 1024 + l * 2147483648 = wo at hf ⊢
  obtain ⟨f0, f1, f2, f3, f4, f5, f6⟩ := hf
  have e_a : BitVec.ofNat 6 (wo / 1024) = a := ofNat_field _ _ f6
  simp [decodeFields, decodeC, decodeC26, *]

theorem RoundTrip.trsum (a : BitVec 6) : RoundTrip.Statement (.trsum a) := by
  refine RoundTrip.of_fields _ fun l hl => ?_
  have henc : encodeNat (.trsum a) = 637534216 + a.toNat * 1024 := rfl
  rw [henc]
  have hf := layout_19 _ 637534216 l a.toNat (by decide) (by decide) a.isLt hl rfl
  generalize 637534216 + a.toNat * 1024 + l * 2147483648 = wo at hf ⊢
  obtain ⟨f0, f1, f2, f3, f4, f5, f6⟩ := hf
  have e_a : BitVec.ofNat 6 (wo / 1024) = a := ofNat_field _ _ f6
  simp [decodeFields, decodeC, decodeC26, *]

theorem RoundTrip.tcvt (a : BitVec 6) : RoundTrip.Statement (.tcvt a) := by
  refine RoundTrip.of_fields _ fun l hl => ?_
  have henc : encodeNat (.tcvt a) = 637534217 + a.toNat * 1024 := rfl
  rw [henc]
  have hf := layout_19 _ 637534217 l a.toNat (by decide) (by decide) a.isLt hl rfl
  generalize 637534217 + a.toNat * 1024 + l * 2147483648 = wo at hf ⊢
  obtain ⟨f0, f1, f2, f3, f4, f5, f6⟩ := hf
  have e_a : BitVec.ofNat 6 (wo / 1024) = a := ofNat_field _ _ f6
  simp [decodeFields, decodeC, decodeC26, *]

theorem RoundTrip.ttrn (a : BitVec 6) (b : BitVec 6) : RoundTrip.Statement (.ttrn a b) := by
  refine RoundTrip.of_fields _ fun l hl => ?_
  have henc : encodeNat (.ttrn a b) = 637534218 + a.toNat * 1024 + b.toNat * 16 := rfl
  rw [henc]
  have hf := layout_17 _ 637534218 l a.toNat b.toNat (by decide) (by decide) (by decide) a.isLt b.isLt hl rfl
  generalize 637534218 + a.toNat * 1024 + b.toNat * 16 + l * 2147483648 = wo at hf ⊢
  obtain ⟨f0, f1, f2, f3, f4, f5⟩ := hf
  have e_a : BitVec.ofNat 6 (wo / 1024) = a := ofNat_field _ _ f4
  have e_b : BitVec.ofNat 6 (wo / 16) = b := ofNat_field _ _ f5
  have t3_0 : ¬ wo % 1024 = 3 := by omega
  have t4_0 : ¬ wo % 1024 = 4 := by omega
  have t5_0 : ¬ wo % 1024 = 5 := by omega
  have t6_0 : ¬ wo % 1024 = 21 := by omega
  have t7_0 : ¬ wo % 1024 = 6 := by omega
  have t8_0 : ¬ wo % 1024 = 7 := by omega
  have t9_0 : ¬ wo % 1024 = 8 := by omega
  have t10_0 : ¬ wo % 1024 = 9 := by omega
  simp [decodeFields, decodeC, decodeC26, *]

theorem RoundTrip.tactReluRdy (t : BitVec 8) : RoundTrip.Statement (.tactReluRdy t) := by
  refine RoundTrip.of_fields _ fun l hl => ?_
  have henc : encodeNat (.tactReluRdy t) = 654311435 + t.toNat * 65536 := rfl
  rw [henc]
  have hf := layout_21 _ 654311435 l t.toNat (by decide) (by decide) t.isLt hl rfl
  generalize 654311435 + t.toNat * 65536 + l * 2147483648 = wo at hf ⊢
  obtain ⟨f0, f1, f2, f3, f4, f5, f6⟩ := hf
  have e_t : BitVec.ofNat 8 (wo / 65536) = t := ofNat_field _ _ f6
  simp [decodeFields, decodeC, decodeC27, *]

theorem RoundTrip.tactSqreluRdy (t : BitVec 8) : RoundTrip.Statement (.tactSqreluRdy t) := by
  refine RoundTrip.of_fields _ fun l hl => ?_
  have henc : encodeNat (.tactSqreluRdy t) = 654311451 + t.toNat * 65536 := rfl
  rw [henc]
  have hf := layout_21 _ 654311451 l t.toNat (by decide) (by decide) t.isLt hl rfl
  generalize 654311451 + t.toNat * 65536 + l * 2147483648 = wo at hf ⊢
  obtain ⟨f0, f1, f2, f3, f4, f5, f6⟩ := hf
  have e_t : BitVec.ofNat 8 (wo / 65536) = t := ofNat_field _ _ f6
  simp [decodeFields, decodeC, decodeC27, *]

theorem RoundTrip.tactTanhRdy (t : BitVec 8) : RoundTrip.Statement (.tactTanhRdy t) := by
  refine RoundTrip.of_fields _ fun l hl => ?_
  have henc : encodeNat (.tactTanhRdy t) = 654311467 + t.toNat * 65536 := rfl
  rw [henc]
  have hf := layout_21 _ 654311467 l t.toNat (by decide) (by decide) t.isLt hl rfl
  generalize 654311467 + t.toNat * 65536 + l * 2147483648 = wo at hf ⊢
  obtain ⟨f0, f1, f2, f3, f4, f5, f6⟩ := hf
  have e_t : BitVec.ofNat 8 (wo / 65536) = t := ofNat_field _ _ f6
  simp [decodeFields, decodeC, decodeC27, *]

theorem RoundTrip.kopen (d : BitVec 6) (a : BitVec 6) (b : BitVec 6) : RoundTrip.Statement (.kopen d a b) := by
  refine RoundTrip.of_fields _ fun l hl => ?_
  have henc : encodeNat (.kopen d a b) = 704643072 + d.toNat * 262144 + a.toNat * 4096 + b.toNat * 64 := rfl
  rw [henc]
  have hf := layout_16 _ 704643072 l d.toNat a.toNat b.toNat (by decide) (by decide) (by decide) (by decide) d.isLt a.isLt b.isLt hl rfl
  generalize 704643072 + d.toNat * 262144 + a.toNat * 4096 + b.toNat * 64 + l * 2147483648 = wo at hf ⊢
  obtain ⟨f0, f1, f2, f3, f4, f5, f6⟩ := hf
  have e_d : BitVec.ofNat 6 (wo / 262144) = d := ofNat_field _ _ f5
  have e_a : BitVec.ofNat 6 (wo / 4096) = a := ofNat_field _ _ f4
  have e_b : BitVec.ofNat 6 (wo / 64) = b := ofNat_field _ _ f6
  simp [decodeFields, decodeC, decodeC2A, *]

theorem RoundTrip.kclose (d : BitVec 6) (a : BitVec 6) : RoundTrip.Statement (.kclose d a) := by
  refine RoundTrip.of_fields _ fun l hl => ?_
  have henc : encodeNat (.kclose d a) = 704643073 + d.toNat * 262144 + a.toNat * 4096 := rfl
  rw [henc]
  have hf := layout_2 _ 704643073 l d.toNat a.toNat (by decide) (by decide) (by decide) d.isLt a.isLt hl rfl
  generalize 704643073 + d.toNat * 262144 + a.toNat * 4096 + l * 2147483648 = wo at hf ⊢
  obtain ⟨f0, f1, f2, f3, f4, f5⟩ := hf
  have e_d : BitVec.ofNat 6 (wo / 262144) = d := ofNat_field _ _ f4
  have e_a : BitVec.ofNat 6 (wo / 4096) = a := ofNat_field _ _ f5
  simp [decodeFields, decodeC, decodeC2A, *]

theorem RoundTrip.kapp (d : BitVec 6) (a : BitVec 6) (b : BitVec 6) : RoundTrip.Statement (.kapp d a b) := by
  refine RoundTrip.of_fields _ fun l hl => ?_
  have henc : encodeNat (.kapp d a b) = 704643074 + d.toNat * 262144 + a.toNat * 4096 + b.toNat * 64 := rfl
  rw [henc]
  have hf := layout_16 _ 704643074 l d.toNat a.toNat b.toNat (by decide) (by decide) (by decide) (by decide) d.isLt a.isLt b.isLt hl rfl
  generalize 704643074 + d.toNat * 262144 + a.toNat * 4096 + b.toNat * 64 + l * 2147483648 = wo at hf ⊢
  obtain ⟨f0, f1, f2, f3, f4, f5, f6⟩ := hf
  have e_d : BitVec.ofNat 6 (wo / 262144) = d := ofNat_field _ _ f5
  have e_a : BitVec.ofNat 6 (wo / 4096) = a := ofNat_field _ _ f4
  have e_b : BitVec.ofNat 6 (wo / 64) = b := ofNat_field _ _ f6
  have t1_0 : ¬ wo % 4096 = 1 := by omega
  simp [decodeFields, decodeC, decodeC2A, *]

theorem RoundTrip.kacc (d : BitVec 6) (a : BitVec 6) : RoundTrip.Statement (.kacc d a) := by
  refine RoundTrip.of_fields _ fun l hl => ?_
  have henc : encodeNat (.kacc d a) = 704643075 + d.toNat * 262144 + a.toNat * 4096 := rfl
  rw [henc]
  have hf := layout_2 _ 704643075 l d.toNat a.toNat (by decide) (by decide) (by decide) d.isLt a.isLt hl rfl
  generalize 704643075 + d.toNat * 262144 + a.toNat * 4096 + l * 2147483648 = wo at hf ⊢
  obtain ⟨f0, f1, f2, f3, f4, f5⟩ := hf
  have e_d : BitVec.ofNat 6 (wo / 262144) = d := ofNat_field _ _ f4
  have e_a : BitVec.ofNat 6 (wo / 4096) = a := ofNat_field _ _ f5
  simp [decodeFields, decodeC, decodeC2A, *]

theorem RoundTrip.krej (d : BitVec 6) : RoundTrip.Statement (.krej d) := by
  refine RoundTrip.of_fields _ fun l hl => ?_
  have henc : encodeNat (.krej d) = 704643076 + d.toNat * 262144 := rfl
  rw [henc]
  have hf := layout_22 _ 704643076 l d.toNat (by decide) (by decide) d.isLt hl rfl
  generalize 704643076 + d.toNat * 262144 + l * 2147483648 = wo at hf ⊢
  obtain ⟨f0, f1, f2, f3, f4, f5⟩ := hf
  have e_d : BitVec.ofNat 6 (wo / 262144) = d := ofNat_field _ _ f5
  simp [decodeFields, decodeC, decodeC2A, *]

theorem RoundTrip.kpb (d : BitVec 6) (a : BitVec 6) (b : BitVec 6) : RoundTrip.Statement (.kpb d a b) := by
  refine RoundTrip.of_fields _ fun l hl => ?_
  have henc : encodeNat (.kpb d a b) = 704643077 + d.toNat * 262144 + a.toNat * 4096 + b.toNat * 64 := rfl
  rw [henc]
  have hf := layout_16 _ 704643077 l d.toNat a.toNat b.toNat (by decide) (by decide) (by decide) (by decide) d.isLt a.isLt b.isLt hl rfl
  generalize 704643077 + d.toNat * 262144 + a.toNat * 4096 + b.toNat * 64 + l * 2147483648 = wo at hf ⊢
  obtain ⟨f0, f1, f2, f3, f4, f5, f6⟩ := hf
  have e_d : BitVec.ofNat 6 (wo / 262144) = d := ofNat_field _ _ f5
  have e_a : BitVec.ofNat 6 (wo / 4096) = a := ofNat_field _ _ f4
  have e_b : BitVec.ofNat 6 (wo / 64) = b := ofNat_field _ _ f6
  have t1_0 : ¬ wo % 4096 = 1 := by omega
  have t3_0 : ¬ wo % 4096 = 3 := by omega
  have t4_0 : ¬ wo % 262144 = 4 := by omega
  simp [decodeFields, decodeC, decodeC2A, *]

theorem RoundTrip.kspl (d : BitVec 6) (a : BitVec 6) (b : BitVec 6) : RoundTrip.Statement (.kspl d a b) := by
  refine RoundTrip.of_fields _ fun l hl => ?_
  have henc : encodeNat (.kspl d a b) = 704643078 + d.toNat * 262144 + a.toNat * 4096 + b.toNat * 64 := rfl
  rw [henc]
  have hf := layout_16 _ 704643078 l d.toNat a.toNat b.toNat (by decide) (by decide) (by decide) (by decide) d.isLt a.isLt b.isLt hl rfl
  generalize 704643078 + d.toNat * 262144 + a.toNat * 4096 + b.toNat * 64 + l * 2147483648 = wo at hf ⊢
  obtain ⟨f0, f1, f2, f3, f4, f5, f6⟩ := hf
  have e_d : BitVec.ofNat 6 (wo / 262144) = d := ofNat_field _ _ f5
  have e_a : BitVec.ofNat 6 (wo / 4096) = a := ofNat_field _ _ f4
  have e_b : BitVec.ofNat 6 (wo / 64) = b := ofNat_field _ _ f6
  have t1_0 : ¬ wo % 4096 = 1 := by omega
  have t3_0 : ¬ wo % 4096 = 3 := by omega
  have t4_0 : ¬ wo % 262144 = 4 := by omega
  simp [decodeFields, decodeC, decodeC2A, *]

theorem RoundTrip.kfork (d : BitVec 6) (a : BitVec 6) : RoundTrip.Statement (.kfork d a) := by
  refine RoundTrip.of_fields _ fun l hl => ?_
  have henc : encodeNat (.kfork d a) = 704643079 + d.toNat * 262144 + a.toNat * 4096 := rfl
  rw [henc]
  have hf := layout_2 _ 704643079 l d.toNat a.toNat (by decide) (by decide) (by decide) d.isLt a.isLt hl rfl
  generalize 704643079 + d.toNat * 262144 + a.toNat * 4096 + l * 2147483648 = wo at hf ⊢
  obtain ⟨f0, f1, f2, f3, f4, f5⟩ := hf
  have e_d : BitVec.ofNat 6 (wo / 262144) = d := ofNat_field _ _ f4
  have e_a : BitVec.ofNat 6 (wo / 4096) = a := ofNat_field _ _ f5
  have t4_0 : ¬ wo % 262144 = 4 := by omega
  simp [decodeFields, decodeC, decodeC2A, *]

theorem RoundTrip.kload (d : BitVec 6) (a : BitVec 6) (b : BitVec 6) : RoundTrip.Statement (.kload d a b) := by
  refine RoundTrip.of_fields _ fun l hl => ?_
  have henc : encodeNat (.kload d a b) = 704643080 + d.toNat * 262144 + a.toNat * 4096 + b.toNat * 64 := rfl
  rw [henc]
  have hf := layout_16 _ 704643080 l d.toNat a.toNat b.toNat (by decide) (by decide) (by decide) (by decide) d.isLt a.isLt b.isLt hl rfl
  generalize 704643080 + d.toNat * 262144 + a.toNat * 4096 + b.toNat * 64 + l * 2147483648 = wo at hf ⊢
  obtain ⟨f0, f1, f2, f3, f4, f5, f6⟩ := hf
  have e_d : BitVec.ofNat 6 (wo / 262144) = d := ofNat_field _ _ f5
  have e_a : BitVec.ofNat 6 (wo / 4096) = a := ofNat_field _ _ f4
  have e_b : BitVec.ofNat 6 (wo / 64) = b := ofNat_field _ _ f6
  have t1_0 : ¬ wo % 4096 = 1 := by omega
  have t3_0 : ¬ wo % 4096 = 3 := by omega
  have t4_0 : ¬ wo % 262144 = 4 := by omega
  have t7_0 : ¬ wo % 4096 = 7 := by omega
  simp [decodeFields, decodeC, decodeC2A, *]

theorem RoundTrip.kval (d : BitVec 6) (a : BitVec 6) (b : BitVec 6) : RoundTrip.Statement (.kval d a b) := by
  refine RoundTrip.of_fields _ fun l hl => ?_
  have henc : encodeNat (.kval d a b) = 704643081 + d.toNat * 262144 + a.toNat * 4096 + b.toNat * 64 := rfl
  rw [henc]
  have hf := layout_16 _ 704643081 l d.toNat a.toNat b.toNat (by decide) (by decide) (by decide) (by decide) d.isLt a.isLt b.isLt hl rfl
  generalize 704643081 + d.toNat * 262144 + a.toNat * 4096 + b.toNat * 64 + l * 2147483648 = wo at hf ⊢
  obtain ⟨f0, f1, f2, f3, f4, f5, f6⟩ := hf
  have e_d : BitVec.ofNat 6 (wo / 262144) = d := ofNat_field _ _ f5
  have e_a : BitVec.ofNat 6 (wo / 4096) = a := ofNat_field _ _ f4
  have e_b : BitVec.ofNat 6 (wo / 64) = b := ofNat_field _ _ f6
  have t1_0 : ¬ wo % 4096 = 1 := by omega
  have t3_0 : ¬ wo % 4096 = 3 := by omega
  have t4_0 : ¬ wo % 262144 = 4 := by omega
  have t7_0 : ¬ wo % 4096 = 7 := by omega
  simp [decodeFields, decodeC, decodeC2A, *]

theorem RoundTrip.kmarg (d : BitVec 6) (a : BitVec 6) (b : BitVec 6) : RoundTrip.Statement (.kmarg d a b) := by
  refine RoundTrip.of_fields _ fun l hl => ?_
  have henc : encodeNat (.kmarg d a b) = 704643082 + d.toNat * 262144 + a.toNat * 4096 + b.toNat * 64 := rfl
  rw [henc]
  have hf := layout_16 _ 704643082 l d.toNat a.toNat b.toNat (by decide) (by decide) (by decide) (by decide) d.isLt a.isLt b.isLt hl rfl
  generalize 704643082 + d.toNat * 262144 + a.toNat * 4096 + b.toNat * 64 + l * 2147483648 = wo at hf ⊢
  obtain ⟨f0, f1, f2, f3, f4, f5, f6⟩ := hf
  have e_d : BitVec.ofNat 6 (wo / 262144) = d := ofNat_field _ _ f5
  have e_a : BitVec.ofNat 6 (wo / 4096) = a := ofNat_field _ _ f4
  have e_b : BitVec.ofNat 6 (wo / 64) = b := ofNat_field _ _ f6
  have t1_0 : ¬ wo % 4096 = 1 := by omega
  have t3_0 : ¬ wo % 4096 = 3 := by omega
  have t4_0 : ¬ wo % 262144 = 4 := by omega
  have t7_0 : ¬ wo % 4096 = 7 := by omega
  simp [decodeFields, decodeC, decodeC2A, *]

theorem RoundTrip.kpfx (d : BitVec 6) (a : BitVec 6) (b : BitVec 6) : RoundTrip.Statement (.kpfx d a b) := by
  refine RoundTrip.of_fields _ fun l hl => ?_
  have henc : encodeNat (.kpfx d a b) = 704643083 + d.toNat * 262144 + a.toNat * 4096 + b.toNat * 64 := rfl
  rw [henc]
  have hf := layout_16 _ 704643083 l d.toNat a.toNat b.toNat (by decide) (by decide) (by decide) (by decide) d.isLt a.isLt b.isLt hl rfl
  generalize 704643083 + d.toNat * 262144 + a.toNat * 4096 + b.toNat * 64 + l * 2147483648 = wo at hf ⊢
  obtain ⟨f0, f1, f2, f3, f4, f5, f6⟩ := hf
  have e_d : BitVec.ofNat 6 (wo / 262144) = d := ofNat_field _ _ f5
  have e_a : BitVec.ofNat 6 (wo / 4096) = a := ofNat_field _ _ f4
  have e_b : BitVec.ofNat 6 (wo / 64) = b := ofNat_field _ _ f6
  have t1_0 : ¬ wo % 4096 = 1 := by omega
  have t3_0 : ¬ wo % 4096 = 3 := by omega
  have t4_0 : ¬ wo % 262144 = 4 := by omega
  have t7_0 : ¬ wo % 4096 = 7 := by omega
  simp [decodeFields, decodeC, decodeC2A, *]

theorem RoundTrip.kins (d : BitVec 6) (a : BitVec 6) (b : BitVec 6) : RoundTrip.Statement (.kins d a b) := by
  refine RoundTrip.of_fields _ fun l hl => ?_
  have henc : encodeNat (.kins d a b) = 704643084 + d.toNat * 262144 + a.toNat * 4096 + b.toNat * 64 := rfl
  rw [henc]
  have hf := layout_16 _ 704643084 l d.toNat a.toNat b.toNat (by decide) (by decide) (by decide) (by decide) d.isLt a.isLt b.isLt hl rfl
  generalize 704643084 + d.toNat * 262144 + a.toNat * 4096 + b.toNat * 64 + l * 2147483648 = wo at hf ⊢
  obtain ⟨f0, f1, f2, f3, f4, f5, f6⟩ := hf
  have e_d : BitVec.ofNat 6 (wo / 262144) = d := ofNat_field _ _ f5
  have e_a : BitVec.ofNat 6 (wo / 4096) = a := ofNat_field _ _ f4
  have e_b : BitVec.ofNat 6 (wo / 64) = b := ofNat_field _ _ f6
  have t1_0 : ¬ wo % 4096 = 1 := by omega
  have t3_0 : ¬ wo % 4096 = 3 := by omega
  have t4_0 : ¬ wo % 262144 = 4 := by omega
  have t7_0 : ¬ wo % 4096 = 7 := by omega
  simp [decodeFields, decodeC, decodeC2A, *]

theorem RoundTrip.ktent (d : BitVec 6) (a : BitVec 6) : RoundTrip.Statement (.ktent d a) := by
  refine RoundTrip.of_fields _ fun l hl => ?_
  have henc : encodeNat (.ktent d a) = 704643085 + d.toNat * 262144 + a.toNat * 4096 := rfl
  rw [henc]
  have hf := layout_2 _ 704643085 l d.toNat a.toNat (by decide) (by decide) (by decide) d.isLt a.isLt hl rfl
  generalize 704643085 + d.toNat * 262144 + a.toNat * 4096 + l * 2147483648 = wo at hf ⊢
  obtain ⟨f0, f1, f2, f3, f4, f5⟩ := hf
  have e_d : BitVec.ofNat 6 (wo / 262144) = d := ofNat_field _ _ f4
  have e_a : BitVec.ofNat 6 (wo / 4096) = a := ofNat_field _ _ f5
  have t4_0 : ¬ wo % 262144 = 4 := by omega
  simp [decodeFields, decodeC, decodeC2A, *]

theorem RoundTrip.kdropt (d : BitVec 6) : RoundTrip.Statement (.kdropt d) := by
  refine RoundTrip.of_fields _ fun l hl => ?_
  have henc : encodeNat (.kdropt d) = 704643086 + d.toNat * 262144 := rfl
  rw [henc]
  have hf := layout_22 _ 704643086 l d.toNat (by decide) (by decide) d.isLt hl rfl
  generalize 704643086 + d.toNat * 262144 + l * 2147483648 = wo at hf ⊢
  obtain ⟨f0, f1, f2, f3, f4, f5⟩ := hf
  have e_d : BitVec.ofNat 6 (wo / 262144) = d := ofNat_field _ _ f5
  simp [decodeFields, decodeC, decodeC2A, *]

theorem RoundTrip.kseq (d : BitVec 6) (a : BitVec 6) : RoundTrip.Statement (.kseq d a) := by
  refine RoundTrip.of_fields _ fun l hl => ?_
  have henc : encodeNat (.kseq d a) = 704643087 + d.toNat * 262144 + a.toNat * 4096 := rfl
  rw [henc]
  have hf := layout_2 _ 704643087 l d.toNat a.toNat (by decide) (by decide) (by decide) d.isLt a.isLt hl rfl
  generalize 704643087 + d.toNat * 262144 + a.toNat * 4096 + l * 2147483648 = wo at hf ⊢
  obtain ⟨f0, f1, f2, f3, f4, f5⟩ := hf
  have e_d : BitVec.ofNat 6 (wo / 262144) = d := ofNat_field _ _ f4
  have e_a : BitVec.ofNat 6 (wo / 4096) = a := ofNat_field _ _ f5
  have t4_0 : ¬ wo % 262144 = 4 := by omega
  have t14_0 : ¬ wo % 262144 = 14 := by omega
  simp [decodeFields, decodeC, decodeC2A, *]

theorem RoundTrip.kseqWt (a : BitVec 6) (b : BitVec 6) : RoundTrip.Statement (.kseqWt a b) := by
  refine RoundTrip.of_fields _ fun l hl => ?_
  have henc : encodeNat (.kseqWt a b) = 704643088 + a.toNat * 4096 + b.toNat * 64 := rfl
  rw [henc]
  have hf := layout_14 _ 704643088 l a.toNat b.toNat (by decide) (by decide) (by decide) a.isLt b.isLt hl rfl
  generalize 704643088 + a.toNat * 4096 + b.toNat * 64 + l * 2147483648 = wo at hf ⊢
  obtain ⟨f0, f1, f2, f3, f4, f5⟩ := hf
  have e_a : BitVec.ofNat 6 (wo / 4096) = a := ofNat_field _ _ f3
  have e_b : BitVec.ofNat 6 (wo / 64) = b := ofNat_field _ _ f5
  have t1_0 : ¬ wo % 4096 = 1 := by omega
  have t3_0 : ¬ wo % 4096 = 3 := by omega
  have t4_0 : ¬ wo % 262144 = 4 := by omega
  have t7_0 : ¬ wo % 4096 = 7 := by omega
  have t13_0 : ¬ wo % 4096 = 13 := by omega
  have t14_0 : ¬ wo % 262144 = 14 := by omega
  have t15_0 : ¬ wo % 4096 = 15 := by omega
  simp [decodeFields, decodeC, decodeC2A, *]

theorem RoundTrip.ccomm (d : BitVec 6) (a : BitVec 6) : RoundTrip.Statement (.ccomm d a) := by
  refine RoundTrip.of_fields _ fun l hl => ?_
  have henc : encodeNat (.ccomm d a) = 771751936 + d.toNat * 262144 + a.toNat * 4096 := rfl
  rw [henc]
  have hf := layout_2 _ 771751936 l d.toNat a.toNat (by decide) (by decide) (by decide) d.isLt a.isLt hl rfl
  generalize 771751936 + d.toNat * 262144 + a.toNat * 4096 + l * 2147483648 = wo at hf ⊢
  obtain ⟨f0, f1, f2, f3, f4, f5⟩ := hf
  have e_d : BitVec.ofNat 6 (wo / 262144) = d := ofNat_field _ _ f4
  have e_a : BitVec.ofNat 6 (wo / 4096) = a := ofNat_field _ _ f5
  simp [decodeFields, decodeC, decodeC2E, *]

theorem RoundTrip.ctt (a : BitVec 6) (b : BitVec 6) : RoundTrip.Statement (.ctt a b) := by
  refine RoundTrip.of_fields _ fun l hl => ?_
  have henc : encodeNat (.ctt a b) = 771751937 + a.toNat * 4096 + b.toNat * 64 := rfl
  rw [henc]
  have hf := layout_14 _ 771751937 l a.toNat b.toNat (by decide) (by decide) (by decide) a.isLt b.isLt hl rfl
  generalize 771751937 + a.toNat * 4096 + b.toNat * 64 + l * 2147483648 = wo at hf ⊢
  obtain ⟨f0, f1, f2, f3, f4, f5⟩ := hf
  have e_a : BitVec.ofNat 6 (wo / 4096) = a := ofNat_field _ _ f3
  have e_b : BitVec.ofNat 6 (wo / 64) = b := ofNat_field _ _ f5
  have t0_0 : ¬ wo % 4096 = 0 := by omega
  simp [decodeFields, decodeC, decodeC2E, *]

theorem RoundTrip.crdy (a : BitVec 6) : RoundTrip.Statement (.crdy a) := by
  refine RoundTrip.of_fields _ fun l hl => ?_
  have henc : encodeNat (.crdy a) = 771751938 + a.toNat * 4096 := rfl
  rw [henc]
  have hf := layout_3 _ 771751938 l a.toNat (by decide) (by decide) a.isLt hl rfl
  generalize 771751938 + a.toNat * 4096 + l * 2147483648 = wo at hf ⊢
  obtain ⟨f0, f1, f2, f3, f4, f5⟩ := hf
  have e_a : BitVec.ofNat 6 (wo / 4096) = a := ofNat_field _ _ f5
  simp [decodeFields, decodeC, decodeC2E, *]

theorem RoundTrip.cpost (d : BitVec 6) (a : BitVec 6) : RoundTrip.Statement (.cpost d a) := by
  refine RoundTrip.of_fields _ fun l hl => ?_
  have henc : encodeNat (.cpost d a) = 771751939 + d.toNat * 262144 + a.toNat * 4096 := rfl
  rw [henc]
  have hf := layout_2 _ 771751939 l d.toNat a.toNat (by decide) (by decide) (by decide) d.isLt a.isLt hl rfl
  generalize 771751939 + d.toNat * 262144 + a.toNat * 4096 + l * 2147483648 = wo at hf ⊢
  obtain ⟨f0, f1, f2, f3, f4, f5⟩ := hf
  have e_d : BitVec.ofNat 6 (wo / 262144) = d := ofNat_field _ _ f4
  have e_a : BitVec.ofNat 6 (wo / 4096) = a := ofNat_field _ _ f5
  simp [decodeFields, decodeC, decodeC2E, *]

theorem RoundTrip.cpoll (d : BitVec 6) (a : BitVec 6) (b : BitVec 6) : RoundTrip.Statement (.cpoll d a b) := by
  refine RoundTrip.of_fields _ fun l hl => ?_
  have henc : encodeNat (.cpoll d a b) = 771751940 + d.toNat * 262144 + a.toNat * 4096 + b.toNat * 64 := rfl
  rw [henc]
  have hf := layout_16 _ 771751940 l d.toNat a.toNat b.toNat (by decide) (by decide) (by decide) (by decide) d.isLt a.isLt b.isLt hl rfl
  generalize 771751940 + d.toNat * 262144 + a.toNat * 4096 + b.toNat * 64 + l * 2147483648 = wo at hf ⊢
  obtain ⟨f0, f1, f2, f3, f4, f5, f6⟩ := hf
  have e_d : BitVec.ofNat 6 (wo / 262144) = d := ofNat_field _ _ f5
  have e_a : BitVec.ofNat 6 (wo / 4096) = a := ofNat_field _ _ f4
  have e_b : BitVec.ofNat 6 (wo / 64) = b := ofNat_field _ _ f6
  have t0_0 : ¬ wo % 4096 = 0 := by omega
  have t2_0 : ¬ wo % 4096 = 2 := by omega
  have t3_0 : ¬ wo % 4096 = 3 := by omega
  simp [decodeFields, decodeC, decodeC2E, *]

theorem RoundTrip.cwaitf (a : BitVec 6) (b : BitVec 6) : RoundTrip.Statement (.cwaitf a b) := by
  refine RoundTrip.of_fields _ fun l hl => ?_
  have henc : encodeNat (.cwaitf a b) = 771751941 + a.toNat * 4096 + b.toNat * 64 := rfl
  rw [henc]
  have hf := layout_14 _ 771751941 l a.toNat b.toNat (by decide) (by decide) (by decide) a.isLt b.isLt hl rfl
  generalize 771751941 + a.toNat * 4096 + b.toNat * 64 + l * 2147483648 = wo at hf ⊢
  obtain ⟨f0, f1, f2, f3, f4, f5⟩ := hf
  have e_a : BitVec.ofNat 6 (wo / 4096) = a := ofNat_field _ _ f3
  have e_b : BitVec.ofNat 6 (wo / 64) = b := ofNat_field _ _ f5
  have t0_0 : ¬ wo % 4096 = 0 := by omega
  have t2_0 : ¬ wo % 4096 = 2 := by omega
  have t3_0 : ¬ wo % 4096 = 3 := by omega
  simp [decodeFields, decodeC, decodeC2E, *]

theorem RoundTrip.cbar (d : BitVec 6) : RoundTrip.Statement (.cbar d) := by
  refine RoundTrip.of_fields _ fun l hl => ?_
  have henc : encodeNat (.cbar d) = 771751942 + d.toNat * 262144 := rfl
  rw [henc]
  have hf := layout_22 _ 771751942 l d.toNat (by decide) (by decide) d.isLt hl rfl
  generalize 771751942 + d.toNat * 262144 + l * 2147483648 = wo at hf ⊢
  obtain ⟨f0, f1, f2, f3, f4, f5⟩ := hf
  have e_d : BitVec.ofNat 6 (wo / 262144) = d := ofNat_field _ _ f5
  simp [decodeFields, decodeC, decodeC2E, *]

theorem RoundTrip.cstat (d : BitVec 6) (a : BitVec 6) : RoundTrip.Statement (.cstat d a) := by
  refine RoundTrip.of_fields _ fun l hl => ?_
  have henc : encodeNat (.cstat d a) = 771751943 + d.toNat * 262144 + a.toNat * 4096 := rfl
  rw [henc]
  have hf := layout_2 _ 771751943 l d.toNat a.toNat (by decide) (by decide) (by decide) d.isLt a.isLt hl rfl
  generalize 771751943 + d.toNat * 262144 + a.toNat * 4096 + l * 2147483648 = wo at hf ⊢
  obtain ⟨f0, f1, f2, f3, f4, f5⟩ := hf
  have e_d : BitVec.ofNat 6 (wo / 262144) = d := ofNat_field _ _ f4
  have e_a : BitVec.ofNat 6 (wo / 4096) = a := ofNat_field _ _ f5
  have t6_0 : ¬ wo % 262144 = 6 := by omega
  simp [decodeFields, decodeC, decodeC2E, *]

theorem RoundTrip.cclose (d : BitVec 6) : RoundTrip.Statement (.cclose d) := by
  refine RoundTrip.of_fields _ fun l hl => ?_
  have henc : encodeNat (.cclose d) = 771751944 + d.toNat * 262144 := rfl
  rw [henc]
  have hf := layout_22 _ 771751944 l d.toNat (by decide) (by decide) d.isLt hl rfl
  generalize 771751944 + d.toNat * 262144 + l * 2147483648 = wo at hf ⊢
  obtain ⟨f0, f1, f2, f3, f4, f5⟩ := hf
  have e_d : BitVec.ofNat 6 (wo / 262144) = d := ofNat_field _ _ f5
  simp [decodeFields, decodeC, decodeC2E, *]

theorem RoundTrip.cseq (d : BitVec 6) (a : BitVec 6) : RoundTrip.Statement (.cseq d a) := by
  refine RoundTrip.of_fields _ fun l hl => ?_
  have henc : encodeNat (.cseq d a) = 771751945 + d.toNat * 262144 + a.toNat * 4096 := rfl
  rw [henc]
  have hf := layout_2 _ 771751945 l d.toNat a.toNat (by decide) (by decide) (by decide) d.isLt a.isLt hl rfl
  generalize 771751945 + d.toNat * 262144 + a.toNat * 4096 + l * 2147483648 = wo at hf ⊢
  obtain ⟨f0, f1, f2, f3, f4, f5⟩ := hf
  have e_d : BitVec.ofNat 6 (wo / 262144) = d := ofNat_field _ _ f4
  have e_a : BitVec.ofNat 6 (wo / 4096) = a := ofNat_field _ _ f5
  have t6_0 : ¬ wo % 262144 = 6 := by omega
  have t8_0 : ¬ wo % 262144 = 8 := by omega
  simp [decodeFields, decodeC, decodeC2E, *]

theorem RoundTrip.cseqWt (a : BitVec 6) (b : BitVec 6) : RoundTrip.Statement (.cseqWt a b) := by
  refine RoundTrip.of_fields _ fun l hl => ?_
  have henc : encodeNat (.cseqWt a b) = 771751946 + a.toNat * 4096 + b.toNat * 64 := rfl
  rw [henc]
  have hf := layout_14 _ 771751946 l a.toNat b.toNat (by decide) (by decide) (by decide) a.isLt b.isLt hl rfl
  generalize 771751946 + a.toNat * 4096 + b.toNat * 64 + l * 2147483648 = wo at hf ⊢
  obtain ⟨f0, f1, f2, f3, f4, f5⟩ := hf
  have e_a : BitVec.ofNat 6 (wo / 4096) = a := ofNat_field _ _ f3
  have e_b : BitVec.ofNat 6 (wo / 64) = b := ofNat_field _ _ f5
  have t0_0 : ¬ wo % 4096 = 0 := by omega
  have t2_0 : ¬ wo % 4096 = 2 := by omega
  have t3_0 : ¬ wo % 4096 = 3 := by omega
  have t6_0 : ¬ wo % 262144 = 6 := by omega
  have t7_0 : ¬ wo % 4096 = 7 := by omega
  have t8_0 : ¬ wo % 262144 = 8 := by omega
  have t9_0 : ¬ wo % 4096 = 9 := by omega
  simp [decodeFields, decodeC, decodeC2E, *]

theorem RoundTrip.carb (d : BitVec 6) (a : BitVec 6) : RoundTrip.Statement (.carb d a) := by
  refine RoundTrip.of_fields _ fun l hl => ?_
  have henc : encodeNat (.carb d a) = 788529152 + d.toNat * 262144 + a.toNat * 4096 := rfl
  rw [henc]
  have hf := layout_2 _ 788529152 l d.toNat a.toNat (by decide) (by decide) (by decide) d.isLt a.isLt hl rfl
  generalize 788529152 + d.toNat * 262144 + a.toNat * 4096 + l * 2147483648 = wo at hf ⊢
  obtain ⟨f0, f1, f2, f3, f4, f5⟩ := hf
  have e_d : BitVec.ofNat 6 (wo / 262144) = d := ofNat_field _ _ f4
  have e_a : BitVec.ofNat 6 (wo / 4096) = a := ofNat_field _ _ f5
  simp [decodeFields, decodeC, decodeC2F, *]

theorem RoundTrip.mfk (d : BitVec 6) (a : BitVec 6) : RoundTrip.Statement (.mfk d a) := by
  refine RoundTrip.of_fields _ fun l hl => ?_
  have henc : encodeNat (.mfk d a) = 838860802 + d.toNat * 262144 + a.toNat * 4096 := rfl
  rw [henc]
  have hf := layout_2 _ 838860802 l d.toNat a.toNat (by decide) (by decide) (by decide) d.isLt a.isLt hl rfl
  generalize 838860802 + d.toNat * 262144 + a.toNat * 4096 + l * 2147483648 = wo at hf ⊢
  obtain ⟨f0, f1, f2, f3, f4, f5⟩ := hf
  have e_d : BitVec.ofNat 6 (wo / 262144) = d := ofNat_field _ _ f4
  have e_a : BitVec.ofNat 6 (wo / 4096) = a := ofNat_field _ _ f5
  simp [decodeFields, decodeC, decodeC32, *]

theorem RoundTrip.mtk (d : BitVec 6) (a : BitVec 6) : RoundTrip.Statement (.mtk d a) := by
  refine RoundTrip.of_fields _ fun l hl => ?_
  have henc : encodeNat (.mtk d a) = 838860803 + d.toNat * 262144 + a.toNat * 4096 := rfl
  rw [henc]
  have hf := layout_2 _ 838860803 l d.toNat a.toNat (by decide) (by decide) (by decide) d.isLt a.isLt hl rfl
  generalize 838860803 + d.toNat * 262144 + a.toNat * 4096 + l * 2147483648 = wo at hf ⊢
  obtain ⟨f0, f1, f2, f3, f4, f5⟩ := hf
  have e_d : BitVec.ofNat 6 (wo / 262144) = d := ofNat_field _ _ f4
  have e_a : BitVec.ofNat 6 (wo / 4096) = a := ofNat_field _ _ f5
  simp [decodeFields, decodeC, decodeC32, *]

theorem RoundTrip.sleep (a : BitVec 6) : RoundTrip.Statement (.sleep a) := by
  refine RoundTrip.of_fields _ fun l hl => ?_
  have henc : encodeNat (.sleep a) = 838860804 + a.toNat * 4096 := rfl
  rw [henc]
  have hf := layout_3 _ 838860804 l a.toNat (by decide) (by decide) a.isLt hl rfl
  generalize 838860804 + a.toNat * 4096 + l * 2147483648 = wo at hf ⊢
  obtain ⟨f0, f1, f2, f3, f4, f5⟩ := hf
  have e_a : BitVec.ofNat 6 (wo / 4096) = a := ofNat_field _ _ f5
  simp [decodeFields, decodeC, decodeC32, *]

theorem RoundTrip.repart (d : BitVec 6) (a : BitVec 6) : RoundTrip.Statement (.repart d a) := by
  refine RoundTrip.of_fields _ fun l hl => ?_
  have henc : encodeNat (.repart d a) = 855638018 + d.toNat * 262144 + a.toNat * 4096 := rfl
  rw [henc]
  have hf := layout_2 _ 855638018 l d.toNat a.toNat (by decide) (by decide) (by decide) d.isLt a.isLt hl rfl
  generalize 855638018 + d.toNat * 262144 + a.toNat * 4096 + l * 2147483648 = wo at hf ⊢
  obtain ⟨f0, f1, f2, f3, f4, f5⟩ := hf
  have e_d : BitVec.ofNat 6 (wo / 262144) = d := ofNat_field _ _ f4
  have e_a : BitVec.ofNat 6 (wo / 4096) = a := ofNat_field _ _ f5
  have t0_0 : ¬ wo % 16777216 = 0 := by omega
  have t1_0 : ¬ wo % 16777216 = 1 := by omega
  simp [decodeFields, decodeC, decodeC33, *]

theorem RoundTrip.pgmig (d : BitVec 6) (a : BitVec 6) (b : BitVec 6) : RoundTrip.Statement (.pgmig d a b) := by
  refine RoundTrip.of_fields _ fun l hl => ?_
  have henc : encodeNat (.pgmig d a b) = 872415232 + d.toNat * 262144 + a.toNat * 4096 + b.toNat * 64 := rfl
  rw [henc]
  have hf := layout_16 _ 872415232 l d.toNat a.toNat b.toNat (by decide) (by decide) (by decide) (by decide) d.isLt a.isLt b.isLt hl rfl
  generalize 872415232 + d.toNat * 262144 + a.toNat * 4096 + b.toNat * 64 + l * 2147483648 = wo at hf ⊢
  obtain ⟨f0, f1, f2, f3, f4, f5, f6⟩ := hf
  have e_d : BitVec.ofNat 6 (wo / 262144) = d := ofNat_field _ _ f5
  have e_a : BitVec.ofNat 6 (wo / 4096) = a := ofNat_field _ _ f4
  have e_b : BitVec.ofNat 6 (wo / 64) = b := ofNat_field _ _ f6
  simp [decodeFields, decodeC, decodeC34, *]

theorem RoundTrip.pgheat (d : BitVec 6) (a : BitVec 6) (b : BitVec 6) : RoundTrip.Statement (.pgheat d a b) := by
  refine RoundTrip.of_fields _ fun l hl => ?_
  have henc : encodeNat (.pgheat d a b) = 872415233 + d.toNat * 262144 + a.toNat * 4096 + b.toNat * 64 := rfl
  rw [henc]
  have hf := layout_16 _ 872415233 l d.toNat a.toNat b.toNat (by decide) (by decide) (by decide) (by decide) d.isLt a.isLt b.isLt hl rfl
  generalize 872415233 + d.toNat * 262144 + a.toNat * 4096 + b.toNat * 64 + l * 2147483648 = wo at hf ⊢
  obtain ⟨f0, f1, f2, f3, f4, f5, f6⟩ := hf
  have e_d : BitVec.ofNat 6 (wo / 262144) = d := ofNat_field _ _ f5
  have e_a : BitVec.ofNat 6 (wo / 4096) = a := ofNat_field _ _ f4
  have e_b : BitVec.ofNat 6 (wo / 64) = b := ofNat_field _ _ f6
  simp [decodeFields, decodeC, decodeC34, *]

theorem RoundTrip.rowret (d : BitVec 6) (a : BitVec 6) : RoundTrip.Statement (.rowret d a) := by
  refine RoundTrip.of_fields _ fun l hl => ?_
  have henc : encodeNat (.rowret d a) = 872415234 + d.toNat * 262144 + a.toNat * 4096 := rfl
  rw [henc]
  have hf := layout_2 _ 872415234 l d.toNat a.toNat (by decide) (by decide) (by decide) d.isLt a.isLt hl rfl
  generalize 872415234 + d.toNat * 262144 + a.toNat * 4096 + l * 2147483648 = wo at hf ⊢
  obtain ⟨f0, f1, f2, f3, f4, f5⟩ := hf
  have e_d : BitVec.ofNat 6 (wo / 262144) = d := ofNat_field _ _ f4
  have e_a : BitVec.ofNat 6 (wo / 4096) = a := ofNat_field _ _ f5
  simp [decodeFields, decodeC, decodeC34, *]

theorem RoundTrip.shoot (a : BitVec 6) (b : BitVec 6) : RoundTrip.Statement (.shoot a b) := by
  refine RoundTrip.of_fields _ fun l hl => ?_
  have henc : encodeNat (.shoot a b) = 872415235 + a.toNat * 4096 + b.toNat * 64 := rfl
  rw [henc]
  have hf := layout_14 _ 872415235 l a.toNat b.toNat (by decide) (by decide) (by decide) a.isLt b.isLt hl rfl
  generalize 872415235 + a.toNat * 4096 + b.toNat * 64 + l * 2147483648 = wo at hf ⊢
  obtain ⟨f0, f1, f2, f3, f4, f5⟩ := hf
  have e_a : BitVec.ofNat 6 (wo / 4096) = a := ofNat_field _ _ f3
  have e_b : BitVec.ofNat 6 (wo / 64) = b := ofNat_field _ _ f5
  have t2_0 : ¬ wo % 4096 = 2 := by omega
  simp [decodeFields, decodeC, decodeC34, *]

theorem RoundTrip.pgref (d : BitVec 6) (a : BitVec 6) (b : BitVec 6) : RoundTrip.Statement (.pgref d a b) := by
  refine RoundTrip.of_fields _ fun l hl => ?_
  have henc : encodeNat (.pgref d a b) = 872415236 + d.toNat * 262144 + a.toNat * 4096 + b.toNat * 64 := rfl
  rw [henc]
  have hf := layout_16 _ 872415236 l d.toNat a.toNat b.toNat (by decide) (by decide) (by decide) (by decide) d.isLt a.isLt b.isLt hl rfl
  generalize 872415236 + d.toNat * 262144 + a.toNat * 4096 + b.toNat * 64 + l * 2147483648 = wo at hf ⊢
  obtain ⟨f0, f1, f2, f3, f4, f5, f6⟩ := hf
  have e_d : BitVec.ofNat 6 (wo / 262144) = d := ofNat_field _ _ f5
  have e_a : BitVec.ofNat 6 (wo / 4096) = a := ofNat_field _ _ f4
  have e_b : BitVec.ofNat 6 (wo / 64) = b := ofNat_field _ _ f6
  have t2_0 : ¬ wo % 4096 = 2 := by omega
  simp [decodeFields, decodeC, decodeC34, *]

theorem RoundTrip.plbw (d : BitVec 6) (a : BitVec 6) (b : BitVec 6) : RoundTrip.Statement (.plbw d a b) := by
  refine RoundTrip.of_fields _ fun l hl => ?_
  have henc : encodeNat (.plbw d a b) = 872415237 + d.toNat * 262144 + a.toNat * 4096 + b.toNat * 64 := rfl
  rw [henc]
  have hf := layout_16 _ 872415237 l d.toNat a.toNat b.toNat (by decide) (by decide) (by decide) (by decide) d.isLt a.isLt b.isLt hl rfl
  generalize 872415237 + d.toNat * 262144 + a.toNat * 4096 + b.toNat * 64 + l * 2147483648 = wo at hf ⊢
  obtain ⟨f0, f1, f2, f3, f4, f5, f6⟩ := hf
  have e_d : BitVec.ofNat 6 (wo / 262144) = d := ofNat_field _ _ f5
  have e_a : BitVec.ofNat 6 (wo / 4096) = a := ofNat_field _ _ f4
  have e_b : BitVec.ofNat 6 (wo / 64) = b := ofNat_field _ _ f6
  have t2_0 : ¬ wo % 4096 = 2 := by omega
  simp [decodeFields, decodeC, decodeC34, *]

theorem RoundTrip.domset (d : BitVec 6) (a : BitVec 6) (b : BitVec 6) : RoundTrip.Statement (.domset d a b) := by
  refine RoundTrip.of_fields _ fun l hl => ?_
  have henc : encodeNat (.domset d a b) = 872415238 + d.toNat * 262144 + a.toNat * 4096 + b.toNat * 64 := rfl
  rw [henc]
  have hf := layout_16 _ 872415238 l d.toNat a.toNat b.toNat (by decide) (by decide) (by decide) (by decide) d.isLt a.isLt b.isLt hl rfl
  generalize 872415238 + d.toNat * 262144 + a.toNat * 4096 + b.toNat * 64 + l * 2147483648 = wo at hf ⊢
  obtain ⟨f0, f1, f2, f3, f4, f5, f6⟩ := hf
  have e_d : BitVec.ofNat 6 (wo / 262144) = d := ofNat_field _ _ f5
  have e_a : BitVec.ofNat 6 (wo / 4096) = a := ofNat_field _ _ f4
  have e_b : BitVec.ofNat 6 (wo / 64) = b := ofNat_field _ _ f6
  have t2_0 : ¬ wo % 4096 = 2 := by omega
  simp [decodeFields, decodeC, decodeC34, *]

theorem RoundTrip.irq (a : BitVec 6) (b : BitVec 6) : RoundTrip.Statement (.irq a b) := by
  refine RoundTrip.of_fields _ fun l hl => ?_
  have henc : encodeNat (.irq a b) = 889192448 + a.toNat * 4096 + b.toNat * 64 := rfl
  rw [henc]
  have hf := layout_14 _ 889192448 l a.toNat b.toNat (by decide) (by decide) (by decide) a.isLt b.isLt hl rfl
  generalize 889192448 + a.toNat * 4096 + b.toNat * 64 + l * 2147483648 = wo at hf ⊢
  obtain ⟨f0, f1, f2, f3, f4, f5⟩ := hf
  have e_a : BitVec.ofNat 6 (wo / 4096) = a := ofNat_field _ _ f3
  have e_b : BitVec.ofNat 6 (wo / 64) = b := ofNat_field _ _ f5
  simp [decodeFields, decodeC, decodeC35, *]

theorem RoundTrip.dreset (d : BitVec 6) (a : BitVec 6) : RoundTrip.Statement (.dreset d a) := by
  refine RoundTrip.of_fields _ fun l hl => ?_
  have henc : encodeNat (.dreset d a) = 889192449 + d.toNat * 262144 + a.toNat * 4096 := rfl
  rw [henc]
  have hf := layout_2 _ 889192449 l d.toNat a.toNat (by decide) (by decide) (by decide) d.isLt a.isLt hl rfl
  generalize 889192449 + d.toNat * 262144 + a.toNat * 4096 + l * 2147483648 = wo at hf ⊢
  obtain ⟨f0, f1, f2, f3, f4, f5⟩ := hf
  have e_d : BitVec.ofNat 6 (wo / 262144) = d := ofNat_field _ _ f4
  have e_a : BitVec.ofNat 6 (wo / 4096) = a := ofNat_field _ _ f5
  simp [decodeFields, decodeC, decodeC35, *]

theorem RoundTrip.qosp (d : BitVec 6) (a : BitVec 6) : RoundTrip.Statement (.qosp d a) := by
  refine RoundTrip.of_fields _ fun l hl => ?_
  have henc : encodeNat (.qosp d a) = 889192450 + d.toNat * 262144 + a.toNat * 4096 := rfl
  rw [henc]
  have hf := layout_2 _ 889192450 l d.toNat a.toNat (by decide) (by decide) (by decide) d.isLt a.isLt hl rfl
  generalize 889192450 + d.toNat * 262144 + a.toNat * 4096 + l * 2147483648 = wo at hf ⊢
  obtain ⟨f0, f1, f2, f3, f4, f5⟩ := hf
  have e_d : BitVec.ofNat 6 (wo / 262144) = d := ofNat_field _ _ f4
  have e_a : BitVec.ofNat 6 (wo / 4096) = a := ofNat_field _ _ f5
  simp [decodeFields, decodeC, decodeC35, *]

theorem RoundTrip.add (d : BitVec 6) (a : BitVec 6) (b : BitVec 6) (e : BitVec 1) : RoundTrip.Statement (.add d a b e) := by
  refine RoundTrip.of_fields _ fun l hl => ?_
  have henc : encodeNat (.add d a b e) = 1073741824 + d.toNat * 262144 + a.toNat * 4096 + b.toNat * 64 + e.toNat * 32 := rfl
  rw [henc]
  have hf := layout_24 _ 1073741824 l d.toNat a.toNat b.toNat e.toNat (by decide) (by decide) (by decide) (by decide) (by decide) d.isLt a.isLt b.isLt e.isLt hl rfl
  generalize 1073741824 + d.toNat * 262144 + a.toNat * 4096 + b.toNat * 64 + e.toNat * 32 + l * 2147483648 = wo at hf ⊢
  obtain ⟨f0, f1, f2, f3, f4, f5, f6⟩ := hf
  have e_d : BitVec.ofNat 6 (wo / 262144) = d := ofNat_field _ _ f3
  have e_a : BitVec.ofNat 6 (wo / 4096) = a := ofNat_field _ _ f4
  have e_b : BitVec.ofNat 6 (wo / 64) = b := ofNat_field _ _ f5
  have e_e : BitVec.ofNat 1 (wo / 32) = e := ofNat_field _ _ f6
  simp [decodeFields, decodeA, decodeA00, *]

theorem RoundTrip.sub (d : BitVec 6) (a : BitVec 6) (b : BitVec 6) (e : BitVec 1) : RoundTrip.Statement (.sub d a b e) := by
  refine RoundTrip.of_fields _ fun l hl => ?_
  have henc : encodeNat (.sub d a b e) = 1073741825 + d.toNat * 262144 + a.toNat * 4096 + b.toNat * 64 + e.toNat * 32 := rfl
  rw [henc]
  have hf := layout_24 _ 1073741825 l d.toNat a.toNat b.toNat e.toNat (by decide) (by decide) (by decide) (by decide) (by decide) d.isLt a.isLt b.isLt e.isLt hl rfl
  generalize 1073741825 + d.toNat * 262144 + a.toNat * 4096 + b.toNat * 64 + e.toNat * 32 + l * 2147483648 = wo at hf ⊢
  obtain ⟨f0, f1, f2, f3, f4, f5, f6⟩ := hf
  have e_d : BitVec.ofNat 6 (wo / 262144) = d := ofNat_field _ _ f3
  have e_a : BitVec.ofNat 6 (wo / 4096) = a := ofNat_field _ _ f4
  have e_b : BitVec.ofNat 6 (wo / 64) = b := ofNat_field _ _ f5
  have e_e : BitVec.ofNat 1 (wo / 32) = e := ofNat_field _ _ f6
  simp [decodeFields, decodeA, decodeA00, *]

theorem RoundTrip.mul (d : BitVec 6) (a : BitVec 6) (b : BitVec 6) (e : BitVec 1) : RoundTrip.Statement (.mul d a b e) := by
  refine RoundTrip.of_fields _ fun l hl => ?_
  have henc : encodeNat (.mul d a b e) = 1073741826 + d.toNat * 262144 + a.toNat * 4096 + b.toNat * 64 + e.toNat * 32 := rfl
  rw [henc]
  have hf := layout_24 _ 1073741826 l d.toNat a.toNat b.toNat e.toNat (by decide) (by decide) (by decide) (by decide) (by decide) d.isLt a.isLt b.isLt e.isLt hl rfl
  generalize 1073741826 + d.toNat * 262144 + a.toNat * 4096 + b.toNat * 64 + e.toNat * 32 + l * 2147483648 = wo at hf ⊢
  obtain ⟨f0, f1, f2, f3, f4, f5, f6⟩ := hf
  have e_d : BitVec.ofNat 6 (wo / 262144) = d := ofNat_field _ _ f3
  have e_a : BitVec.ofNat 6 (wo / 4096) = a := ofNat_field _ _ f4
  have e_b : BitVec.ofNat 6 (wo / 64) = b := ofNat_field _ _ f5
  have e_e : BitVec.ofNat 1 (wo / 32) = e := ofNat_field _ _ f6
  simp [decodeFields, decodeA, decodeA00, *]

theorem RoundTrip.mulh (d : BitVec 6) (a : BitVec 6) (b : BitVec 6) (e : BitVec 1) : RoundTrip.Statement (.mulh d a b e) := by
  refine RoundTrip.of_fields _ fun l hl => ?_
  have henc : encodeNat (.mulh d a b e) = 1073741827 + d.toNat * 262144 + a.toNat * 4096 + b.toNat * 64 + e.toNat * 32 := rfl
  rw [henc]
  have hf := layout_24 _ 1073741827 l d.toNat a.toNat b.toNat e.toNat (by decide) (by decide) (by decide) (by decide) (by decide) d.isLt a.isLt b.isLt e.isLt hl rfl
  generalize 1073741827 + d.toNat * 262144 + a.toNat * 4096 + b.toNat * 64 + e.toNat * 32 + l * 2147483648 = wo at hf ⊢
  obtain ⟨f0, f1, f2, f3, f4, f5, f6⟩ := hf
  have e_d : BitVec.ofNat 6 (wo / 262144) = d := ofNat_field _ _ f3
  have e_a : BitVec.ofNat 6 (wo / 4096) = a := ofNat_field _ _ f4
  have e_b : BitVec.ofNat 6 (wo / 64) = b := ofNat_field _ _ f5
  have e_e : BitVec.ofNat 1 (wo / 32) = e := ofNat_field _ _ f6
  simp [decodeFields, decodeA, decodeA00, *]

theorem RoundTrip.mulhn (d : BitVec 6) (a : BitVec 6) (b : BitVec 6) (e : BitVec 1) : RoundTrip.Statement (.mulhn d a b e) := by
  refine RoundTrip.of_fields _ fun l hl => ?_
  have henc : encodeNat (.mulhn d a b e) = 1073741828 + d.toNat * 262144 + a.toNat * 4096 + b.toNat * 64 + e.toNat * 32 := rfl
  rw [henc]
  have hf := layout_24 _ 1073741828 l d.toNat a.toNat b.toNat e.toNat (by decide) (by decide) (by decide) (by decide) (by decide) d.isLt a.isLt b.isLt e.isLt hl rfl
  generalize 1073741828 + d.toNat * 262144 + a.toNat * 4096 + b.toNat * 64 + e.toNat * 32 + l * 2147483648 = wo at hf ⊢
  obtain ⟨f0, f1, f2, f3, f4, f5, f6⟩ := hf
  have e_d : BitVec.ofNat 6 (wo / 262144) = d := ofNat_field _ _ f3
  have e_a : BitVec.ofNat 6 (wo / 4096) = a := ofNat_field _ _ f4
  have e_b : BitVec.ofNat 6 (wo / 64) = b := ofNat_field _ _ f5
  have e_e : BitVec.ofNat 1 (wo / 32) = e := ofNat_field _ _ f6
  simp [decodeFields, decodeA, decodeA00, *]

theorem RoundTrip.div (d : BitVec 6) (a : BitVec 6) (b : BitVec 6) (e : BitVec 1) : RoundTrip.Statement (.div d a b e) := by
  refine RoundTrip.of_fields _ fun l hl => ?_
  have henc : encodeNat (.div d a b e) = 1073741829 + d.toNat * 262144 + a.toNat * 4096 + b.toNat * 64 + e.toNat * 32 := rfl
  rw [henc]
  have hf := layout_24 _ 1073741829 l d.toNat a.toNat b.toNat e.toNat (by decide) (by decide) (by decide) (by decide) (by decide) d.isLt a.isLt b.isLt e.isLt hl rfl
  generalize 1073741829 + d.toNat * 262144 + a.toNat * 4096 + b.toNat * 64 + e.toNat * 32 + l * 2147483648 = wo at hf ⊢
  obtain ⟨f0, f1, f2, f3, f4, f5, f6⟩ := hf
  have e_d : BitVec.ofNat 6 (wo / 262144) = d := ofNat_field _ _ f3
  have e_a : BitVec.ofNat 6 (wo / 4096) = a := ofNat_field _ _ f4
  have e_b : BitVec.ofNat 6 (wo / 64) = b := ofNat_field _ _ f5
  have e_e : BitVec.ofNat 1 (wo / 32) = e := ofNat_field _ _ f6
  simp [decodeFields, decodeA, decodeA00, *]

theorem RoundTrip.divn (d : BitVec 6) (a : BitVec 6) (b : BitVec 6) (e : BitVec 1) : RoundTrip.Statement (.divn d a b e) := by
  refine RoundTrip.of_fields _ fun l hl => ?_
  have henc : encodeNat (.divn d a b e) = 1073741830 + d.toNat * 262144 + a.toNat * 4096 + b.toNat * 64 + e.toNat * 32 := rfl
  rw [henc]
  have hf := layout_24 _ 1073741830 l d.toNat a.toNat b.toNat e.toNat (by decide) (by decide) (by decide) (by decide) (by decide) d.isLt a.isLt b.isLt e.isLt hl rfl
  generalize 1073741830 + d.toNat * 262144 + a.toNat * 4096 + b.toNat * 64 + e.toNat * 32 + l * 2147483648 = wo at hf ⊢
  obtain ⟨f0, f1, f2, f3, f4, f5, f6⟩ := hf
  have e_d : BitVec.ofNat 6 (wo / 262144) = d := ofNat_field _ _ f3
  have e_a : BitVec.ofNat 6 (wo / 4096) = a := ofNat_field _ _ f4
  have e_b : BitVec.ofNat 6 (wo / 64) = b := ofNat_field _ _ f5
  have e_e : BitVec.ofNat 1 (wo / 32) = e := ofNat_field _ _ f6
  simp [decodeFields, decodeA, decodeA00, *]

theorem RoundTrip.rem (d : BitVec 6) (a : BitVec 6) (b : BitVec 6) (e : BitVec 1) : RoundTrip.Statement (.rem d a b e) := by
  refine RoundTrip.of_fields _ fun l hl => ?_
  have henc : encodeNat (.rem d a b e) = 1073741831 + d.toNat * 262144 + a.toNat * 4096 + b.toNat * 64 + e.toNat * 32 := rfl
  rw [henc]
  have hf := layout_24 _ 1073741831 l d.toNat a.toNat b.toNat e.toNat (by decide) (by decide) (by decide) (by decide) (by decide) d.isLt a.isLt b.isLt e.isLt hl rfl
  generalize 1073741831 + d.toNat * 262144 + a.toNat * 4096 + b.toNat * 64 + e.toNat * 32 + l * 2147483648 = wo at hf ⊢
  obtain ⟨f0, f1, f2, f3, f4, f5, f6⟩ := hf
  have e_d : BitVec.ofNat 6 (wo / 262144) = d := ofNat_field _ _ f3
  have e_a : BitVec.ofNat 6 (wo / 4096) = a := ofNat_field _ _ f4
  have e_b : BitVec.ofNat 6 (wo / 64) = b := ofNat_field _ _ f5
  have e_e : BitVec.ofNat 1 (wo / 32) = e := ofNat_field _ _ f6
  simp [decodeFields, decodeA, decodeA00, *]

theorem RoundTrip.remn (d : BitVec 6) (a : BitVec 6) (b : BitVec 6) (e : BitVec 1) : RoundTrip.Statement (.remn d a b e) := by
  refine RoundTrip.of_fields _ fun l hl => ?_
  have henc : encodeNat (.remn d a b e) = 1073741832 + d.toNat * 262144 + a.toNat * 4096 + b.toNat * 64 + e.toNat * 32 := rfl
  rw [henc]
  have hf := layout_24 _ 1073741832 l d.toNat a.toNat b.toNat e.toNat (by decide) (by decide) (by decide) (by decide) (by decide) d.isLt a.isLt b.isLt e.isLt hl rfl
  generalize 1073741832 + d.toNat * 262144 + a.toNat * 4096 + b.toNat * 64 + e.toNat * 32 + l * 2147483648 = wo at hf ⊢
  obtain ⟨f0, f1, f2, f3, f4, f5, f6⟩ := hf
  have e_d : BitVec.ofNat 6 (wo / 262144) = d := ofNat_field _ _ f3
  have e_a : BitVec.ofNat 6 (wo / 4096) = a := ofNat_field _ _ f4
  have e_b : BitVec.ofNat 6 (wo / 64) = b := ofNat_field _ _ f5
  have e_e : BitVec.ofNat 1 (wo / 32) = e := ofNat_field _ _ f6
  simp [decodeFields, decodeA, decodeA00, *]

theorem RoundTrip.and (d : BitVec 6) (a : BitVec 6) (b : BitVec 6) (e : BitVec 1) : RoundTrip.Statement (.and d a b e) := by
  refine RoundTrip.of_fields _ fun l hl => ?_
  have henc : encodeNat (.and d a b e) = 1073741833 + d.toNat * 262144 + a.toNat * 4096 + b.toNat * 64 + e.toNat * 32 := rfl
  rw [henc]
  have hf := layout_24 _ 1073741833 l d.toNat a.toNat b.toNat e.toNat (by decide) (by decide) (by decide) (by decide) (by decide) d.isLt a.isLt b.isLt e.isLt hl rfl
  generalize 1073741833 + d.toNat * 262144 + a.toNat * 4096 + b.toNat * 64 + e.toNat * 32 + l * 2147483648 = wo at hf ⊢
  obtain ⟨f0, f1, f2, f3, f4, f5, f6⟩ := hf
  have e_d : BitVec.ofNat 6 (wo / 262144) = d := ofNat_field _ _ f3
  have e_a : BitVec.ofNat 6 (wo / 4096) = a := ofNat_field _ _ f4
  have e_b : BitVec.ofNat 6 (wo / 64) = b := ofNat_field _ _ f5
  have e_e : BitVec.ofNat 1 (wo / 32) = e := ofNat_field _ _ f6
  simp [decodeFields, decodeA, decodeA00, *]

theorem RoundTrip.or (d : BitVec 6) (a : BitVec 6) (b : BitVec 6) (e : BitVec 1) : RoundTrip.Statement (.or d a b e) := by
  refine RoundTrip.of_fields _ fun l hl => ?_
  have henc : encodeNat (.or d a b e) = 1073741834 + d.toNat * 262144 + a.toNat * 4096 + b.toNat * 64 + e.toNat * 32 := rfl
  rw [henc]
  have hf := layout_24 _ 1073741834 l d.toNat a.toNat b.toNat e.toNat (by decide) (by decide) (by decide) (by decide) (by decide) d.isLt a.isLt b.isLt e.isLt hl rfl
  generalize 1073741834 + d.toNat * 262144 + a.toNat * 4096 + b.toNat * 64 + e.toNat * 32 + l * 2147483648 = wo at hf ⊢
  obtain ⟨f0, f1, f2, f3, f4, f5, f6⟩ := hf
  have e_d : BitVec.ofNat 6 (wo / 262144) = d := ofNat_field _ _ f3
  have e_a : BitVec.ofNat 6 (wo / 4096) = a := ofNat_field _ _ f4
  have e_b : BitVec.ofNat 6 (wo / 64) = b := ofNat_field _ _ f5
  have e_e : BitVec.ofNat 1 (wo / 32) = e := ofNat_field _ _ f6
  simp [decodeFields, decodeA, decodeA00, *]

theorem RoundTrip.xor (d : BitVec 6) (a : BitVec 6) (b : BitVec 6) (e : BitVec 1) : RoundTrip.Statement (.xor d a b e) := by
  refine RoundTrip.of_fields _ fun l hl => ?_
  have henc : encodeNat (.xor d a b e) = 1073741835 + d.toNat * 262144 + a.toNat * 4096 + b.toNat * 64 + e.toNat * 32 := rfl
  rw [henc]
  have hf := layout_24 _ 1073741835 l d.toNat a.toNat b.toNat e.toNat (by decide) (by decide) (by decide) (by decide) (by decide) d.isLt a.isLt b.isLt e.isLt hl rfl
  generalize 1073741835 + d.toNat * 262144 + a.toNat * 4096 + b.toNat * 64 + e.toNat * 32 + l * 2147483648 = wo at hf ⊢
  obtain ⟨f0, f1, f2, f3, f4, f5, f6⟩ := hf
  have e_d : BitVec.ofNat 6 (wo / 262144) = d := ofNat_field _ _ f3
  have e_a : BitVec.ofNat 6 (wo / 4096) = a := ofNat_field _ _ f4
  have e_b : BitVec.ofNat 6 (wo / 64) = b := ofNat_field _ _ f5
  have e_e : BitVec.ofNat 1 (wo / 32) = e := ofNat_field _ _ f6
  simp [decodeFields, decodeA, decodeA00, *]

theorem RoundTrip.andn (d : BitVec 6) (a : BitVec 6) (b : BitVec 6) (e : BitVec 1) : RoundTrip.Statement (.andn d a b e) := by
  refine RoundTrip.of_fields _ fun l hl => ?_
  have henc : encodeNat (.andn d a b e) = 1073741836 + d.toNat * 262144 + a.toNat * 4096 + b.toNat * 64 + e.toNat * 32 := rfl
  rw [henc]
  have hf := layout_24 _ 1073741836 l d.toNat a.toNat b.toNat e.toNat (by decide) (by decide) (by decide) (by decide) (by decide) d.isLt a.isLt b.isLt e.isLt hl rfl
  generalize 1073741836 + d.toNat * 262144 + a.toNat * 4096 + b.toNat * 64 + e.toNat * 32 + l * 2147483648 = wo at hf ⊢
  obtain ⟨f0, f1, f2, f3, f4, f5, f6⟩ := hf
  have e_d : BitVec.ofNat 6 (wo / 262144) = d := ofNat_field _ _ f3
  have e_a : BitVec.ofNat 6 (wo / 4096) = a := ofNat_field _ _ f4
  have e_b : BitVec.ofNat 6 (wo / 64) = b := ofNat_field _ _ f5
  have e_e : BitVec.ofNat 1 (wo / 32) = e := ofNat_field _ _ f6
  simp [decodeFields, decodeA, decodeA00, *]

theorem RoundTrip.shl (d : BitVec 6) (a : BitVec 6) (b : BitVec 6) (e : BitVec 1) : RoundTrip.Statement (.shl d a b e) := by
  refine RoundTrip.of_fields _ fun l hl => ?_
  have henc : encodeNat (.shl d a b e) = 1073741837 + d.toNat * 262144 + a.toNat * 4096 + b.toNat * 64 + e.toNat * 32 := rfl
  rw [henc]
  have hf := layout_24 _ 1073741837 l d.toNat a.toNat b.toNat e.toNat (by decide) (by decide) (by decide) (by decide) (by decide) d.isLt a.isLt b.isLt e.isLt hl rfl
  generalize 1073741837 + d.toNat * 262144 + a.toNat * 4096 + b.toNat * 64 + e.toNat * 32 + l * 2147483648 = wo at hf ⊢
  obtain ⟨f0, f1, f2, f3, f4, f5, f6⟩ := hf
  have e_d : BitVec.ofNat 6 (wo / 262144) = d := ofNat_field _ _ f3
  have e_a : BitVec.ofNat 6 (wo / 4096) = a := ofNat_field _ _ f4
  have e_b : BitVec.ofNat 6 (wo / 64) = b := ofNat_field _ _ f5
  have e_e : BitVec.ofNat 1 (wo / 32) = e := ofNat_field _ _ f6
  simp [decodeFields, decodeA, decodeA00, *]

theorem RoundTrip.shr (d : BitVec 6) (a : BitVec 6) (b : BitVec 6) (e : BitVec 1) : RoundTrip.Statement (.shr d a b e) := by
  refine RoundTrip.of_fields _ fun l hl => ?_
  have henc : encodeNat (.shr d a b e) = 1073741838 + d.toNat * 262144 + a.toNat * 4096 + b.toNat * 64 + e.toNat * 32 := rfl
  rw [henc]
  have hf := layout_24 _ 1073741838 l d.toNat a.toNat b.toNat e.toNat (by decide) (by decide) (by decide) (by decide) (by decide) d.isLt a.isLt b.isLt e.isLt hl rfl
  generalize 1073741838 + d.toNat * 262144 + a.toNat * 4096 + b.toNat * 64 + e.toNat * 32 + l * 2147483648 = wo at hf ⊢
  obtain ⟨f0, f1, f2, f3, f4, f5, f6⟩ := hf
  have e_d : BitVec.ofNat 6 (wo / 262144) = d := ofNat_field _ _ f3
  have e_a : BitVec.ofNat 6 (wo / 4096) = a := ofNat_field _ _ f4
  have e_b : BitVec.ofNat 6 (wo / 64) = b := ofNat_field _ _ f5
  have e_e : BitVec.ofNat 1 (wo / 32) = e := ofNat_field _ _ f6
  simp [decodeFields, decodeA, decodeA00, *]

theorem RoundTrip.sra (d : BitVec 6) (a : BitVec 6) (b : BitVec 6) (e : BitVec 1) : RoundTrip.Statement (.sra d a b e) := by
  refine RoundTrip.of_fields _ fun l hl => ?_
  have henc : encodeNat (.sra d a b e) = 1073741839 + d.toNat * 262144 + a.toNat * 4096 + b.toNat * 64 + e.toNat * 32 := rfl
  rw [henc]
  have hf := layout_24 _ 1073741839 l d.toNat a.toNat b.toNat e.toNat (by decide) (by decide) (by decide) (by decide) (by decide) d.isLt a.isLt b.isLt e.isLt hl rfl
  generalize 1073741839 + d.toNat * 262144 + a.toNat * 4096 + b.toNat * 64 + e.toNat * 32 + l * 2147483648 = wo at hf ⊢
  obtain ⟨f0, f1, f2, f3, f4, f5, f6⟩ := hf
  have e_d : BitVec.ofNat 6 (wo / 262144) = d := ofNat_field _ _ f3
  have e_a : BitVec.ofNat 6 (wo / 4096) = a := ofNat_field _ _ f4
  have e_b : BitVec.ofNat 6 (wo / 64) = b := ofNat_field _ _ f5
  have e_e : BitVec.ofNat 1 (wo / 32) = e := ofNat_field _ _ f6
  simp [decodeFields, decodeA, decodeA00, *]

theorem RoundTrip.rot (d : BitVec 6) (a : BitVec 6) (b : BitVec 6) (e : BitVec 1) : RoundTrip.Statement (.rot d a b e) := by
  refine RoundTrip.of_fields _ fun l hl => ?_
  have henc : encodeNat (.rot d a b e) = 1073741840 + d.toNat * 262144 + a.toNat * 4096 + b.toNat * 64 + e.toNat * 32 := rfl
  rw [henc]
  have hf := layout_24 _ 1073741840 l d.toNat a.toNat b.toNat e.toNat (by decide) (by decide) (by decide) (by decide) (by decide) d.isLt a.isLt b.isLt e.isLt hl rfl
  generalize 1073741840 + d.toNat * 262144 + a.toNat * 4096 + b.toNat * 64 + e.toNat * 32 + l * 2147483648 = wo at hf ⊢
  obtain ⟨f0, f1, f2, f3, f4, f5, f6⟩ := hf
  have e_d : BitVec.ofNat 6 (wo / 262144) = d := ofNat_field _ _ f3
  have e_a : BitVec.ofNat 6 (wo / 4096) = a := ofNat_field _ _ f4
  have e_b : BitVec.ofNat 6 (wo / 64) = b := ofNat_field _ _ f5
  have e_e : BitVec.ofNat 1 (wo / 32) = e := ofNat_field _ _ f6
  simp [decodeFields, decodeA, decodeA00, *]

theorem RoundTrip.min (d : BitVec 6) (a : BitVec 6) (b : BitVec 6) (e : BitVec 1) : RoundTrip.Statement (.min d a b e) := by
  refine RoundTrip.of_fields _ fun l hl => ?_
  have henc : encodeNat (.min d a b e) = 1073741841 + d.toNat * 262144 + a.toNat * 4096 + b.toNat * 64 + e.toNat * 32 := rfl
  rw [henc]
  have hf := layout_24 _ 1073741841 l d.toNat a.toNat b.toNat e.toNat (by decide) (by decide) (by decide) (by decide) (by decide) d.isLt a.isLt b.isLt e.isLt hl rfl
  generalize 1073741841 + d.toNat * 262144 + a.toNat * 4096 + b.toNat * 64 + e.toNat * 32 + l * 2147483648 = wo at hf ⊢
  obtain ⟨f0, f1, f2, f3, f4, f5, f6⟩ := hf
  have e_d : BitVec.ofNat 6 (wo / 262144) = d := ofNat_field _ _ f3
  have e_a : BitVec.ofNat 6 (wo / 4096) = a := ofNat_field _ _ f4
  have e_b : BitVec.ofNat 6 (wo / 64) = b := ofNat_field _ _ f5
  have e_e : BitVec.ofNat 1 (wo / 32) = e := ofNat_field _ _ f6
  simp [decodeFields, decodeA, decodeA00, *]

theorem RoundTrip.max (d : BitVec 6) (a : BitVec 6) (b : BitVec 6) (e : BitVec 1) : RoundTrip.Statement (.max d a b e) := by
  refine RoundTrip.of_fields _ fun l hl => ?_
  have henc : encodeNat (.max d a b e) = 1073741842 + d.toNat * 262144 + a.toNat * 4096 + b.toNat * 64 + e.toNat * 32 := rfl
  rw [henc]
  have hf := layout_24 _ 1073741842 l d.toNat a.toNat b.toNat e.toNat (by decide) (by decide) (by decide) (by decide) (by decide) d.isLt a.isLt b.isLt e.isLt hl rfl
  generalize 1073741842 + d.toNat * 262144 + a.toNat * 4096 + b.toNat * 64 + e.toNat * 32 + l * 2147483648 = wo at hf ⊢
  obtain ⟨f0, f1, f2, f3, f4, f5, f6⟩ := hf
  have e_d : BitVec.ofNat 6 (wo / 262144) = d := ofNat_field _ _ f3
  have e_a : BitVec.ofNat 6 (wo / 4096) = a := ofNat_field _ _ f4
  have e_b : BitVec.ofNat 6 (wo / 64) = b := ofNat_field _ _ f5
  have e_e : BitVec.ofNat 1 (wo / 32) = e := ofNat_field _ _ f6
  simp [decodeFields, decodeA, decodeA00, *]

theorem RoundTrip.minn (d : BitVec 6) (a : BitVec 6) (b : BitVec 6) (e : BitVec 1) : RoundTrip.Statement (.minn d a b e) := by
  refine RoundTrip.of_fields _ fun l hl => ?_
  have henc : encodeNat (.minn d a b e) = 1073741843 + d.toNat * 262144 + a.toNat * 4096 + b.toNat * 64 + e.toNat * 32 := rfl
  rw [henc]
  have hf := layout_24 _ 1073741843 l d.toNat a.toNat b.toNat e.toNat (by decide) (by decide) (by decide) (by decide) (by decide) d.isLt a.isLt b.isLt e.isLt hl rfl
  generalize 1073741843 + d.toNat * 262144 + a.toNat * 4096 + b.toNat * 64 + e.toNat * 32 + l * 2147483648 = wo at hf ⊢
  obtain ⟨f0, f1, f2, f3, f4, f5, f6⟩ := hf
  have e_d : BitVec.ofNat 6 (wo / 262144) = d := ofNat_field _ _ f3
  have e_a : BitVec.ofNat 6 (wo / 4096) = a := ofNat_field _ _ f4
  have e_b : BitVec.ofNat 6 (wo / 64) = b := ofNat_field _ _ f5
  have e_e : BitVec.ofNat 1 (wo / 32) = e := ofNat_field _ _ f6
  simp [decodeFields, decodeA, decodeA00, *]

theorem RoundTrip.maxn (d : BitVec 6) (a : BitVec 6) (b : BitVec 6) (e : BitVec 1) : RoundTrip.Statement (.maxn d a b e) := by
  refine RoundTrip.of_fields _ fun l hl => ?_
  have henc : encodeNat (.maxn d a b e) = 1073741844 + d.toNat * 262144 + a.toNat * 4096 + b.toNat * 64 + e.toNat * 32 := rfl
  rw [henc]
  have hf := layout_24 _ 1073741844 l d.toNat a.toNat b.toNat e.toNat (by decide) (by decide) (by decide) (by decide) (by decide) d.isLt a.isLt b.isLt e.isLt hl rfl
  generalize 1073741844 + d.toNat * 262144 + a.toNat * 4096 + b.toNat * 64 + e.toNat * 32 + l * 2147483648 = wo at hf ⊢
  obtain ⟨f0, f1, f2, f3, f4, f5, f6⟩ := hf
  have e_d : BitVec.ofNat 6 (wo / 262144) = d := ofNat_field _ _ f3
  have e_a : BitVec.ofNat 6 (wo / 4096) = a := ofNat_field _ _ f4
  have e_b : BitVec.ofNat 6 (wo / 64) = b := ofNat_field _ _ f5
  have e_e : BitVec.ofNat 1 (wo / 32) = e := ofNat_field _ _ f6
  simp [decodeFields, decodeA, decodeA00, *]

theorem RoundTrip.sel (d : BitVec 6) (a : BitVec 6) (b : BitVec 6) (e : BitVec 1) : RoundTrip.Statement (.sel d a b e) := by
  refine RoundTrip.of_fields _ fun l hl => ?_
  have henc : encodeNat (.sel d a b e) = 1073741845 + d.toNat * 262144 + a.toNat * 4096 + b.toNat * 64 + e.toNat * 32 := rfl
  rw [henc]
  have hf := layout_24 _ 1073741845 l d.toNat a.toNat b.toNat e.toNat (by decide) (by decide) (by decide) (by decide) (by decide) d.isLt a.isLt b.isLt e.isLt hl rfl
  generalize 1073741845 + d.toNat * 262144 + a.toNat * 4096 + b.toNat * 64 + e.toNat * 32 + l * 2147483648 = wo at hf ⊢
  obtain ⟨f0, f1, f2, f3, f4, f5, f6⟩ := hf
  have e_d : BitVec.ofNat 6 (wo / 262144) = d := ofNat_field _ _ f3
  have e_a : BitVec.ofNat 6 (wo / 4096) = a := ofNat_field _ _ f4
  have e_b : BitVec.ofNat 6 (wo / 64) = b := ofNat_field _ _ f5
  have e_e : BitVec.ofNat 1 (wo / 32) = e := ofNat_field _ _ f6
  simp [decodeFields, decodeA, decodeA00, *]

theorem RoundTrip.clz (d : BitVec 6) (a : BitVec 6) (e : BitVec 1) : RoundTrip.Statement (.clz d a e) := by
  refine RoundTrip.of_fields _ fun l hl => ?_
  have henc : encodeNat (.clz d a e) = 1073741846 + d.toNat * 262144 + a.toNat * 4096 + e.toNat * 32 := rfl
  rw [henc]
  have hf := layout_25 _ 1073741846 l d.toNat a.toNat e.toNat (by decide) (by decide) (by decide) (by decide) d.isLt a.isLt e.isLt hl rfl
  generalize 1073741846 + d.toNat * 262144 + a.toNat * 4096 + e.toNat * 32 + l * 2147483648 = wo at hf ⊢
  obtain ⟨f0, f1, f2, f3, f4, f5, f6⟩ := hf
  have e_d : BitVec.ofNat 6 (wo / 262144) = d := ofNat_field _ _ f4
  have e_a : BitVec.ofNat 6 (wo / 4096) = a := ofNat_field _ _ f5
  have e_e : BitVec.ofNat 1 (wo / 32) = e := ofNat_field _ _ f6
  simp [decodeFields, decodeA, decodeA00, *]

theorem RoundTrip.ctz (d : BitVec 6) (a : BitVec 6) (e : BitVec 1) : RoundTrip.Statement (.ctz d a e) := by
  refine RoundTrip.of_fields _ fun l hl => ?_
  have henc : encodeNat (.ctz d a e) = 1073741847 + d.toNat * 262144 + a.toNat * 4096 + e.toNat * 32 := rfl
  rw [henc]
  have hf := layout_25 _ 1073741847 l d.toNat a.toNat e.toNat (by decide) (by decide) (by decide) (by decide) d.isLt a.isLt e.isLt hl rfl
  generalize 1073741847 + d.toNat * 262144 + a.toNat * 4096 + e.toNat * 32 + l * 2147483648 = wo at hf ⊢
  obtain ⟨f0, f1, f2, f3, f4, f5, f6⟩ := hf
  have e_d : BitVec.ofNat 6 (wo / 262144) = d := ofNat_field _ _ f4
  have e_a : BitVec.ofNat 6 (wo / 4096) = a := ofNat_field _ _ f5
  have e_e : BitVec.ofNat 1 (wo / 32) = e := ofNat_field _ _ f6
  simp [decodeFields, decodeA, decodeA00, *]

theorem RoundTrip.popc (d : BitVec 6) (a : BitVec 6) (e : BitVec 1) : RoundTrip.Statement (.popc d a e) := by
  refine RoundTrip.of_fields _ fun l hl => ?_
  have henc : encodeNat (.popc d a e) = 1073741848 + d.toNat * 262144 + a.toNat * 4096 + e.toNat * 32 := rfl
  rw [henc]
  have hf := layout_25 _ 1073741848 l d.toNat a.toNat e.toNat (by decide) (by decide) (by decide) (by decide) d.isLt a.isLt e.isLt hl rfl
  generalize 1073741848 + d.toNat * 262144 + a.toNat * 4096 + e.toNat * 32 + l * 2147483648 = wo at hf ⊢
  obtain ⟨f0, f1, f2, f3, f4, f5, f6⟩ := hf
  have e_d : BitVec.ofNat 6 (wo / 262144) = d := ofNat_field _ _ f4
  have e_a : BitVec.ofNat 6 (wo / 4096) = a := ofNat_field _ _ f5
  have e_e : BitVec.ofNat 1 (wo / 32) = e := ofNat_field _ _ f6
  simp [decodeFields, decodeA, decodeA00, *]

theorem RoundTrip.bswap (d : BitVec 6) (a : BitVec 6) (e : BitVec 1) : RoundTrip.Statement (.bswap d a e) := by
  refine RoundTrip.of_fields _ fun l hl => ?_
  have henc : encodeNat (.bswap d a e) = 1073741849 + d.toNat * 262144 + a.toNat * 4096 + e.toNat * 32 := rfl
  rw [henc]
  have hf := layout_25 _ 1073741849 l d.toNat a.toNat e.toNat (by decide) (by decide) (by decide) (by decide) d.isLt a.isLt e.isLt hl rfl
  generalize 1073741849 + d.toNat * 262144 + a.toNat * 4096 + e.toNat * 32 + l * 2147483648 = wo at hf ⊢
  obtain ⟨f0, f1, f2, f3, f4, f5, f6⟩ := hf
  have e_d : BitVec.ofNat 6 (wo / 262144) = d := ofNat_field _ _ f4
  have e_a : BitVec.ofNat 6 (wo / 4096) = a := ofNat_field _ _ f5
  have e_e : BitVec.ofNat 1 (wo / 32) = e := ofNat_field _ _ f6
  simp [decodeFields, decodeA, decodeA00, *]

theorem RoundTrip.cmp (d : BitVec 6) (a : BitVec 6) (b : BitVec 6) (c : BitVec 6) : RoundTrip.Statement (.cmp d a b c) := by
  refine RoundTrip.of_fields _ fun l hl => ?_
  have henc : encodeNat (.cmp d a b c) = 1090519040 + d.toNat * 262144 + a.toNat * 4096 + b.toNat * 64 + c.toNat := rfl
  rw [henc]
  have hf := layout_26 _ 1090519040 l d.toNat a.toNat b.toNat c.toNat (by decide) (by decide) (by decide) (by decide) (by decide) d.isLt a.isLt b.isLt c.isLt hl rfl
  generalize 1090519040 + d.toNat * 262144 + a.toNat * 4096 + b.toNat * 64 + c.toNat + l * 2147483648 = wo at hf ⊢
  obtain ⟨f0, f1, f2, f3, f4, f5⟩ := hf
  have e_d : BitVec.ofNat 6 (wo / 262144) = d := ofNat_field _ _ f3
  have e_a : BitVec.ofNat 6 (wo / 4096) = a := ofNat_field _ _ f4
  have e_b : BitVec.ofNat 6 (wo / 64) = b := ofNat_field _ _ f5
  have e_c : BitVec.ofNat 6 (wo) = c := ofNat_field _ _ f2
  simp [decodeFields, decodeA, *]

theorem RoundTrip.addImm (d : BitVec 6) (a : BitVec 6) (i : BitVec 12) : RoundTrip.Statement (.addImm d a i) := by
  refine RoundTrip.of_fields _ fun l hl => ?_
  have henc : encodeNat (.addImm d a i) = 1107296256 + d.toNat * 262144 + a.toNat * 4096 + i.toNat := rfl
  rw [henc]
  have hf := layout_0 _ 1107296256 l d.toNat a.toNat i.toNat (by decide) (by decide) (by decide) (by decide) d.isLt a.isLt i.isLt hl rfl
  generalize 1107296256 + d.toNat * 262144 + a.toNat * 4096 + i.toNat + l * 2147483648 = wo at hf ⊢
  obtain ⟨f0, f1, f2, f3, f4⟩ := hf
  have e_d : BitVec.ofNat 6 (wo / 262144) = d := ofNat_field _ _ f2
  have e_a : BitVec.ofNat 6 (wo / 4096) = a := ofNat_field _ _ f3
  have e_i : BitVec.ofNat 12 (wo) = i := ofNat_field _ _ f4
  simp [decodeFields, decodeA, *]

theorem RoundTrip.mulImm (d : BitVec 6) (a : BitVec 6) (i : BitVec 12) : RoundTrip.Statement (.mulImm d a i) := by
  refine RoundTrip.of_fields _ fun l hl => ?_
  have henc : encodeNat (.mulImm d a i) = 1124073472 + d.toNat * 262144 + a.toNat * 4096 + i.toNat := rfl
  rw [henc]
  have hf := layout_0 _ 1124073472 l d.toNat a.toNat i.toNat (by decide) (by decide) (by decide) (by decide) d.isLt a.isLt i.isLt hl rfl
  generalize 1124073472 + d.toNat * 262144 + a.toNat * 4096 + i.toNat + l * 2147483648 = wo at hf ⊢
  obtain ⟨f0, f1, f2, f3, f4⟩ := hf
  have e_d : BitVec.ofNat 6 (wo / 262144) = d := ofNat_field _ _ f2
  have e_a : BitVec.ofNat 6 (wo / 4096) = a := ofNat_field _ _ f3
  have e_i : BitVec.ofNat 12 (wo) = i := ofNat_field _ _ f4
  simp [decodeFields, decodeA, *]

theorem RoundTrip.andImm (d : BitVec 6) (a : BitVec 6) (i : BitVec 12) : RoundTrip.Statement (.andImm d a i) := by
  refine RoundTrip.of_fields _ fun l hl => ?_
  have henc : encodeNat (.andImm d a i) = 1140850688 + d.toNat * 262144 + a.toNat * 4096 + i.toNat := rfl
  rw [henc]
  have hf := layout_0 _ 1140850688 l d.toNat a.toNat i.toNat (by decide) (by decide) (by decide) (by decide) d.isLt a.isLt i.isLt hl rfl
  generalize 1140850688 + d.toNat * 262144 + a.toNat * 4096 + i.toNat + l * 2147483648 = wo at hf ⊢
  obtain ⟨f0, f1, f2, f3, f4⟩ := hf
  have e_d : BitVec.ofNat 6 (wo / 262144) = d := ofNat_field _ _ f2
  have e_a : BitVec.ofNat 6 (wo / 4096) = a := ofNat_field _ _ f3
  have e_i : BitVec.ofNat 12 (wo) = i := ofNat_field _ _ f4
  simp [decodeFields, decodeA, *]

theorem RoundTrip.orImm (d : BitVec 6) (a : BitVec 6) (i : BitVec 12) : RoundTrip.Statement (.orImm d a i) := by
  refine RoundTrip.of_fields _ fun l hl => ?_
  have henc : encodeNat (.orImm d a i) = 1157627904 + d.toNat * 262144 + a.toNat * 4096 + i.toNat := rfl
  rw [henc]
  have hf := layout_0 _ 1157627904 l d.toNat a.toNat i.toNat (by decide) (by decide) (by decide) (by decide) d.isLt a.isLt i.isLt hl rfl
  generalize 1157627904 + d.toNat * 262144 + a.toNat * 4096 + i.toNat + l * 2147483648 = wo at hf ⊢
  obtain ⟨f0, f1, f2, f3, f4⟩ := hf
  have e_d : BitVec.ofNat 6 (wo / 262144) = d := ofNat_field _ _ f2
  have e_a : BitVec.ofNat 6 (wo / 4096) = a := ofNat_field _ _ f3
  have e_i : BitVec.ofNat 12 (wo) = i := ofNat_field _ _ f4
  simp [decodeFields, decodeA, *]

theorem RoundTrip.xorImm (d : BitVec 6) (a : BitVec 6) (i : BitVec 12) : RoundTrip.Statement (.xorImm d a i) := by
  refine RoundTrip.of_fields _ fun l hl => ?_
  have henc : encodeNat (.xorImm d a i) = 1174405120 + d.toNat * 262144 + a.toNat * 4096 + i.toNat := rfl
  rw [henc]
  have hf := layout_0 _ 1174405120 l d.toNat a.toNat i.toNat (by decide) (by decide) (by decide) (by decide) d.isLt a.isLt i.isLt hl rfl
  generalize 1174405120 + d.toNat * 262144 + a.toNat * 4096 + i.toNat + l * 2147483648 = wo at hf ⊢
  obtain ⟨f0, f1, f2, f3, f4⟩ := hf
  have e_d : BitVec.ofNat 6 (wo / 262144) = d := ofNat_field _ _ f2
  have e_a : BitVec.ofNat 6 (wo / 4096) = a := ofNat_field _ _ f3
  have e_i : BitVec.ofNat 12 (wo) = i := ofNat_field _ _ f4
  simp [decodeFields, decodeA, *]

theorem RoundTrip.minImm (d : BitVec 6) (a : BitVec 6) (i : BitVec 10) : RoundTrip.Statement (.minImm d a i) := by
  refine RoundTrip.of_fields _ fun l hl => ?_
  have henc : encodeNat (.minImm d a i) = 1191182336 + d.toNat * 262144 + a.toNat * 4096 + i.toNat := rfl
  rw [henc]
  have hf := layout_27 _ 1191182336 l d.toNat a.toNat i.toNat (by decide) (by decide) (by decide) (by decide) d.isLt a.isLt i.isLt hl rfl
  generalize 1191182336 + d.toNat * 262144 + a.toNat * 4096 + i.toNat + l * 2147483648 = wo at hf ⊢
  obtain ⟨f0, f1, f2, f3, f4, f5⟩ := hf
  have e_d : BitVec.ofNat 6 (wo / 262144) = d := ofNat_field _ _ f3
  have e_a : BitVec.ofNat 6 (wo / 4096) = a := ofNat_field _ _ f4
  have e_i : BitVec.ofNat 10 (wo) = i := ofNat_field _ _ f5
  simp [decodeFields, decodeA, decodeA07, *]

theorem RoundTrip.maxImm (d : BitVec 6) (a : BitVec 6) (i : BitVec 10) : RoundTrip.Statement (.maxImm d a i) := by
  refine RoundTrip.of_fields _ fun l hl => ?_
  have henc : encodeNat (.maxImm d a i) = 1191183360 + d.toNat * 262144 + a.toNat * 4096 + i.toNat := rfl
  rw [henc]
  have hf := layout_27 _ 1191183360 l d.toNat a.toNat i.toNat (by decide) (by decide) (by decide) (by decide) d.isLt a.isLt i.isLt hl rfl
  generalize 1191183360 + d.toNat * 262144 + a.toNat * 4096 + i.toNat + l * 2147483648 = wo at hf ⊢
  obtain ⟨f0, f1, f2, f3, f4, f5⟩ := hf
  have e_d : BitVec.ofNat 6 (wo / 262144) = d := ofNat_field _ _ f3
  have e_a : BitVec.ofNat 6 (wo / 4096) = a := ofNat_field _ _ f4
  have e_i : BitVec.ofNat 10 (wo) = i := ofNat_field _ _ f5
  simp [decodeFields, decodeA, decodeA07, *]

theorem RoundTrip.minnImm (d : BitVec 6) (a : BitVec 6) (i : BitVec 10) : RoundTrip.Statement (.minnImm d a i) := by
  refine RoundTrip.of_fields _ fun l hl => ?_
  have henc : encodeNat (.minnImm d a i) = 1191184384 + d.toNat * 262144 + a.toNat * 4096 + i.toNat := rfl
  rw [henc]
  have hf := layout_27 _ 1191184384 l d.toNat a.toNat i.toNat (by decide) (by decide) (by decide) (by decide) d.isLt a.isLt i.isLt hl rfl
  generalize 1191184384 + d.toNat * 262144 + a.toNat * 4096 + i.toNat + l * 2147483648 = wo at hf ⊢
  obtain ⟨f0, f1, f2, f3, f4, f5⟩ := hf
  have e_d : BitVec.ofNat 6 (wo / 262144) = d := ofNat_field _ _ f3
  have e_a : BitVec.ofNat 6 (wo / 4096) = a := ofNat_field _ _ f4
  have e_i : BitVec.ofNat 10 (wo) = i := ofNat_field _ _ f5
  simp [decodeFields, decodeA, decodeA07, *]

theorem RoundTrip.maxnImm (d : BitVec 6) (a : BitVec 6) (i : BitVec 10) : RoundTrip.Statement (.maxnImm d a i) := by
  refine RoundTrip.of_fields _ fun l hl => ?_
  have henc : encodeNat (.maxnImm d a i) = 1191185408 + d.toNat * 262144 + a.toNat * 4096 + i.toNat := rfl
  rw [henc]
  have hf := layout_27 _ 1191185408 l d.toNat a.toNat i.toNat (by decide) (by decide) (by decide) (by decide) d.isLt a.isLt i.isLt hl rfl
  generalize 1191185408 + d.toNat * 262144 + a.toNat * 4096 + i.toNat + l * 2147483648 = wo at hf ⊢
  obtain ⟨f0, f1, f2, f3, f4, f5⟩ := hf
  have e_d : BitVec.ofNat 6 (wo / 262144) = d := ofNat_field _ _ f3
  have e_a : BitVec.ofNat 6 (wo / 4096) = a := ofNat_field _ _ f4
  have e_i : BitVec.ofNat 10 (wo) = i := ofNat_field _ _ f5
  simp [decodeFields, decodeA, decodeA07, *]

theorem RoundTrip.shlImm (d : BitVec 6) (a : BitVec 6) (s : BitVec 6) : RoundTrip.Statement (.shlImm d a s) := by
  refine RoundTrip.of_fields _ fun l hl => ?_
  have henc : encodeNat (.shlImm d a s) = 1207959552 + d.toNat * 262144 + a.toNat * 4096 + s.toNat := rfl
  rw [henc]
  have hf := layout_28 _ 1207959552 l d.toNat a.toNat s.toNat (by decide) (by decide) (by decide) (by decide) d.isLt a.isLt s.isLt hl rfl
  generalize 1207959552 + d.toNat * 262144 + a.toNat * 4096 + s.toNat + l * 2147483648 = wo at hf ⊢
  obtain ⟨f0, f1, f2, f3, f4, f5⟩ := hf
  have e_d : BitVec.ofNat 6 (wo / 262144) = d := ofNat_field _ _ f4
  have e_a : BitVec.ofNat 6 (wo / 4096) = a := ofNat_field _ _ f5
  have e_s : BitVec.ofNat 6 (wo) = s := ofNat_field _ _ f2
  simp [decodeFields, decodeA, decodeA08, *]

theorem RoundTrip.shrImm (d : BitVec 6) (a : BitVec 6) (s : BitVec 6) : RoundTrip.Statement (.shrImm d a s) := by
  refine RoundTrip.of_fields _ fun l hl => ?_
  have henc : encodeNat (.shrImm d a s) = 1207959616 + d.toNat * 262144 + a.toNat * 4096 + s.toNat := rfl
  rw [henc]
  have hf := layout_28 _ 1207959616 l d.toNat a.toNat s.toNat (by decide) (by decide) (by decide) (by decide) d.isLt a.isLt s.isLt hl rfl
  generalize 1207959616 + d.toNat * 262144 + a.toNat * 4096 + s.toNat + l * 2147483648 = wo at hf ⊢
  obtain ⟨f0, f1, f2, f3, f4, f5⟩ := hf
  have e_d : BitVec.ofNat 6 (wo / 262144) = d := ofNat_field _ _ f4
  have e_a : BitVec.ofNat 6 (wo / 4096) = a := ofNat_field _ _ f5
  have e_s : BitVec.ofNat 6 (wo) = s := ofNat_field _ _ f2
  simp [decodeFields, decodeA, decodeA08, *]

theorem RoundTrip.sraImm (d : BitVec 6) (a : BitVec 6) (s : BitVec 6) : RoundTrip.Statement (.sraImm d a s) := by
  refine RoundTrip.of_fields _ fun l hl => ?_
  have henc : encodeNat (.sraImm d a s) = 1207959680 + d.toNat * 262144 + a.toNat * 4096 + s.toNat := rfl
  rw [henc]
  have hf := layout_28 _ 1207959680 l d.toNat a.toNat s.toNat (by decide) (by decide) (by decide) (by decide) d.isLt a.isLt s.isLt hl rfl
  generalize 1207959680 + d.toNat * 262144 + a.toNat * 4096 + s.toNat + l * 2147483648 = wo at hf ⊢
  obtain ⟨f0, f1, f2, f3, f4, f5⟩ := hf
  have e_d : BitVec.ofNat 6 (wo / 262144) = d := ofNat_field _ _ f4
  have e_a : BitVec.ofNat 6 (wo / 4096) = a := ofNat_field _ _ f5
  have e_s : BitVec.ofNat 6 (wo) = s := ofNat_field _ _ f2
  simp [decodeFields, decodeA, decodeA08, *]

theorem RoundTrip.rotImm (d : BitVec 6) (a : BitVec 6) (s : BitVec 6) : RoundTrip.Statement (.rotImm d a s) := by
  refine RoundTrip.of_fields _ fun l hl => ?_
  have henc : encodeNat (.rotImm d a s) = 1207959744 + d.toNat * 262144 + a.toNat * 4096 + s.toNat := rfl
  rw [henc]
  have hf := layout_28 _ 1207959744 l d.toNat a.toNat s.toNat (by decide) (by decide) (by decide) (by decide) d.isLt a.isLt s.isLt hl rfl
  generalize 1207959744 + d.toNat * 262144 + a.toNat * 4096 + s.toNat + l * 2147483648 = wo at hf ⊢
  obtain ⟨f0, f1, f2, f3, f4, f5⟩ := hf
  have e_d : BitVec.ofNat 6 (wo / 262144) = d := ofNat_field _ _ f4
  have e_a : BitVec.ofNat 6 (wo / 4096) = a := ofNat_field _ _ f5
  have e_s : BitVec.ofNat 6 (wo) = s := ofNat_field _ _ f2
  simp [decodeFields, decodeA, decodeA08, *]

theorem RoundTrip.bfx (d : BitVec 6) (a : BitVec 6) (p : BitVec 6) (w : BitVec 6) : RoundTrip.Statement (.bfx d a p w) := by
  refine RoundTrip.of_fields _ fun l hl => ?_
  have henc : encodeNat (.bfx d a p w) = 1224736768 + d.toNat * 262144 + a.toNat * 4096 + p.toNat * 64 + w.toNat := rfl
  rw [henc]
  have hf := layout_26 _ 1224736768 l d.toNat a.toNat p.toNat w.toNat (by decide) (by decide) (by decide) (by decide) (by decide) d.isLt a.isLt p.isLt w.isLt hl rfl
  generalize 1224736768 + d.toNat * 262144 + a.toNat * 4096 + p.toNat * 64 + w.toNat + l * 2147483648 = wo at hf ⊢
  obtain ⟨f0, f1, f2, f3, f4, f5⟩ := hf
  have e_d : BitVec.ofNat 6 (wo / 262144) = d := ofNat_field _ _ f3
  have e_a : BitVec.ofNat 6 (wo / 4096) = a := ofNat_field _ _ f4
  have e_p : BitVec.ofNat 6 (wo / 64) = p := ofNat_field _ _ f5
  have e_w : BitVec.ofNat 6 (wo) = w := ofNat_field _ _ f2
  simp [decodeFields, decodeA, *]

theorem RoundTrip.bfi (d : BitVec 6) (a : BitVec 6) (p : BitVec 6) (w : BitVec 6) : RoundTrip.Statement (.bfi d a p w) := by
  refine RoundTrip.of_fields _ fun l hl => ?_
  have henc : encodeNat (.bfi d a p w) = 1241513984 + d.toNat * 262144 + a.toNat * 4096 + p.toNat * 64 + w.toNat := rfl
  rw [henc]
  have hf := layout_26 _ 1241513984 l d.toNat a.toNat p.toNat w.toNat (by decide) (by decide) (by decide) (by decide) (by decide) d.isLt a.isLt p.isLt w.isLt hl rfl
  generalize 1241513984 + d.toNat * 262144 + a.toNat * 4096 + p.toNat * 64 + w.toNat + l * 2147483648 = wo at hf ⊢
  obtain ⟨f0, f1, f2, f3, f4, f5⟩ := hf
  have e_d : BitVec.ofNat 6 (wo / 262144) = d := ofNat_field _ _ f3
  have e_a : BitVec.ofNat 6 (wo / 4096) = a := ofNat_field _ _ f4
  have e_p : BitVec.ofNat 6 (wo / 64) = p := ofNat_field _ _ f5
  have e_w : BitVec.ofNat 6 (wo) = w := ofNat_field _ _ f2
  simp [decodeFields, decodeA, *]

theorem RoundTrip.cmpImm (d : BitVec 6) (a : BitVec 6) (c : BitVec 4) (i : BitVec 8) : RoundTrip.Statement (.cmpImm d a c i) := by
  refine RoundTrip.of_fields _ fun l hl => ?_
  have henc : encodeNat (.cmpImm d a c i) = 1258291200 + d.toNat * 262144 + a.toNat * 4096 + c.toNat * 256 + i.toNat := rfl
  rw [henc]
  have hf := layout_29 _ 1258291200 l d.toNat a.toNat c.toNat i.toNat (by decide) (by decide) (by decide) (by decide) (by decide) d.isLt a.isLt c.isLt i.isLt hl rfl
  generalize 1258291200 + d.toNat * 262144 + a.toNat * 4096 + c.toNat * 256 + i.toNat + l * 2147483648 = wo at hf ⊢
  obtain ⟨f0, f1, f2, f3, f4, f5⟩ := hf
  have e_d : BitVec.ofNat 6 (wo / 262144) = d := ofNat_field _ _ f2
  have e_a : BitVec.ofNat 6 (wo / 4096) = a := ofNat_field _ _ f3
  have e_c : BitVec.ofNat 4 (wo / 256) = c := ofNat_field _ _ f4
  have e_i : BitVec.ofNat 8 (wo) = i := ofNat_field _ _ f5
  simp [decodeFields, decodeA, *]

theorem RoundTrip.lim (d : BitVec 6) (v : BitVec 32) : RoundTrip.Statement (.lim d v) := by
  refine RoundTrip.of_fields _ fun l hl => ?_
  have henc : encodeNat (.lim d v) = 1291845632 + d.toNat * 262144 := rfl
  rw [henc]
  have hf := layout_22 _ 1291845632 l d.toNat (by decide) (by decide) d.isLt hl rfl
  generalize 1291845632 + d.toNat * 262144 + l * 2147483648 = wo at hf ⊢
  obtain ⟨f0, f1, f2, f3, f4, f5⟩ := hf
  have e_d : BitVec.ofNat 6 (wo / 262144) = d := ofNat_field _ _ f5
  have hlit : literalOf (.lim d v) = v.toNat := rfl
  simp [decodeFields, decodeA, *]

theorem RoundTrip.lih (d : BitVec 6) (v : BitVec 32) : RoundTrip.Statement (.lih d v) := by
  refine RoundTrip.of_fields _ fun l hl => ?_
  have henc : encodeNat (.lih d v) = 1308622848 + d.toNat * 262144 := rfl
  rw [henc]
  have hf := layout_22 _ 1308622848 l d.toNat (by decide) (by decide) d.isLt hl rfl
  generalize 1308622848 + d.toNat * 262144 + l * 2147483648 = wo at hf ⊢
  obtain ⟨f0, f1, f2, f3, f4, f5⟩ := hf
  have e_d : BitVec.ofNat 6 (wo / 262144) = d := ofNat_field _ _ f5
  have hlit : literalOf (.lih d v) = v.toNat := rfl
  simp [decodeFields, decodeA, *]

theorem RoundTrip.fadd (d : BitVec 6) (a : BitVec 6) (b : BitVec 6) (r : BitVec 3) : RoundTrip.Statement (.fadd d a b r) := by
  refine RoundTrip.of_fields _ fun l hl => ?_
  have henc : encodeNat (.fadd d a b r) = 1342177280 + d.toNat * 262144 + a.toNat * 4096 + b.toNat * 64 + r.toNat := rfl
  rw [henc]
  have hf := layout_30 _ 1342177280 l d.toNat a.toNat b.toNat r.toNat (by decide) (by decide) (by decide) (by decide) (by decide) d.isLt a.isLt b.isLt r.isLt hl rfl
  generalize 1342177280 + d.toNat * 262144 + a.toNat * 4096 + b.toNat * 64 + r.toNat + l * 2147483648 = wo at hf ⊢
  obtain ⟨f0, f1, f2, f3, f4, f5, f6⟩ := hf
  have e_d : BitVec.ofNat 6 (wo / 262144) = d := ofNat_field _ _ f3
  have e_a : BitVec.ofNat 6 (wo / 4096) = a := ofNat_field _ _ f4
  have e_b : BitVec.ofNat 6 (wo / 64) = b := ofNat_field _ _ f5
  have e_r : BitVec.ofNat 3 (wo) = r := ofNat_field _ _ f6
  simp [decodeFields, decodeA, decodeA10, *]

theorem RoundTrip.fsub (d : BitVec 6) (a : BitVec 6) (b : BitVec 6) (r : BitVec 3) : RoundTrip.Statement (.fsub d a b r) := by
  refine RoundTrip.of_fields _ fun l hl => ?_
  have henc : encodeNat (.fsub d a b r) = 1342177288 + d.toNat * 262144 + a.toNat * 4096 + b.toNat * 64 + r.toNat := rfl
  rw [henc]
  have hf := layout_30 _ 1342177288 l d.toNat a.toNat b.toNat r.toNat (by decide) (by decide) (by decide) (by decide) (by decide) d.isLt a.isLt b.isLt r.isLt hl rfl
  generalize 1342177288 + d.toNat * 262144 + a.toNat * 4096 + b.toNat * 64 + r.toNat + l * 2147483648 = wo at hf ⊢
  obtain ⟨f0, f1, f2, f3, f4, f5, f6⟩ := hf
  have e_d : BitVec.ofNat 6 (wo / 262144) = d := ofNat_field _ _ f3
  have e_a : BitVec.ofNat 6 (wo / 4096) = a := ofNat_field _ _ f4
  have e_b : BitVec.ofNat 6 (wo / 64) = b := ofNat_field _ _ f5
  have e_r : BitVec.ofNat 3 (wo) = r := ofNat_field _ _ f6
  simp [decodeFields, decodeA, decodeA10, *]

theorem RoundTrip.fmul (d : BitVec 6) (a : BitVec 6) (b : BitVec 6) (r : BitVec 3) : RoundTrip.Statement (.fmul d a b r) := by
  refine RoundTrip.of_fields _ fun l hl => ?_
  have henc : encodeNat (.fmul d a b r) = 1342177296 + d.toNat * 262144 + a.toNat * 4096 + b.toNat * 64 + r.toNat := rfl
  rw [henc]
  have hf := layout_30 _ 1342177296 l d.toNat a.toNat b.toNat r.toNat (by decide) (by decide) (by decide) (by decide) (by decide) d.isLt a.isLt b.isLt r.isLt hl rfl
  generalize 1342177296 + d.toNat * 262144 + a.toNat * 4096 + b.toNat * 64 + r.toNat + l * 2147483648 = wo at hf ⊢
  obtain ⟨f0, f1, f2, f3, f4, f5, f6⟩ := hf
  have e_d : BitVec.ofNat 6 (wo / 262144) = d := ofNat_field _ _ f3
  have e_a : BitVec.ofNat 6 (wo / 4096) = a := ofNat_field _ _ f4
  have e_b : BitVec.ofNat 6 (wo / 64) = b := ofNat_field _ _ f5
  have e_r : BitVec.ofNat 3 (wo) = r := ofNat_field _ _ f6
  simp [decodeFields, decodeA, decodeA10, *]

theorem RoundTrip.fmin (d : BitVec 6) (a : BitVec 6) (b : BitVec 6) : RoundTrip.Statement (.fmin d a b) := by
  refine RoundTrip.of_fields _ fun l hl => ?_
  have henc : encodeNat (.fmin d a b) = 1342177304 + d.toNat * 262144 + a.toNat * 4096 + b.toNat * 64 := rfl
  rw [henc]
  have hf := layout_16 _ 1342177304 l d.toNat a.toNat b.toNat (by decide) (by decide) (by decide) (by decide) d.isLt a.isLt b.isLt hl rfl
  generalize 1342177304 + d.toNat * 262144 + a.toNat * 4096 + b.toNat * 64 + l * 2147483648 = wo at hf ⊢
  obtain ⟨f0, f1, f2, f3, f4, f5, f6⟩ := hf
  have e_d : BitVec.ofNat 6 (wo / 262144) = d := ofNat_field _ _ f5
  have e_a : BitVec.ofNat 6 (wo / 4096) = a := ofNat_field _ _ f4
  have e_b : BitVec.ofNat 6 (wo / 64) = b := ofNat_field _ _ f6
  simp [decodeFields, decodeA, decodeA10, *]

theorem RoundTrip.fmax (d : BitVec 6) (a : BitVec 6) (b : BitVec 6) : RoundTrip.Statement (.fmax d a b) := by
  refine RoundTrip.of_fields _ fun l hl => ?_
  have henc : encodeNat (.fmax d a b) = 1342177312 + d.toNat * 262144 + a.toNat * 4096 + b.toNat * 64 := rfl
  rw [henc]
  have hf := layout_16 _ 1342177312 l d.toNat a.toNat b.toNat (by decide) (by decide) (by decide) (by decide) d.isLt a.isLt b.isLt hl rfl
  generalize 1342177312 + d.toNat * 262144 + a.toNat * 4096 + b.toNat * 64 + l * 2147483648 = wo at hf ⊢
  obtain ⟨f0, f1, f2, f3, f4, f5, f6⟩ := hf
  have e_d : BitVec.ofNat 6 (wo / 262144) = d := ofNat_field _ _ f5
  have e_a : BitVec.ofNat 6 (wo / 4096) = a := ofNat_field _ _ f4
  have e_b : BitVec.ofNat 6 (wo / 64) = b := ofNat_field _ _ f6
  simp [decodeFields, decodeA, decodeA10, *]

theorem RoundTrip.ffma (d : BitVec 6) (a : BitVec 6) (b : BitVec 6) (r : BitVec 3) : RoundTrip.Statement (.ffma d a b r) := by
  refine RoundTrip.of_fields _ fun l hl => ?_
  have henc : encodeNat (.ffma d a b r) = 1358954496 + d.toNat * 262144 + a.toNat * 4096 + b.toNat * 64 + r.toNat := rfl
  rw [henc]
  have hf := layout_30 _ 1358954496 l d.toNat a.toNat b.toNat r.toNat (by decide) (by decide) (by decide) (by decide) (by decide) d.isLt a.isLt b.isLt r.isLt hl rfl
  generalize 1358954496 + d.toNat * 262144 + a.toNat * 4096 + b.toNat * 64 + r.toNat + l * 2147483648 = wo at hf ⊢
  obtain ⟨f0, f1, f2, f3, f4, f5, f6⟩ := hf
  have e_d : BitVec.ofNat 6 (wo / 262144) = d := ofNat_field _ _ f3
  have e_a : BitVec.ofNat 6 (wo / 4096) = a := ofNat_field _ _ f4
  have e_b : BitVec.ofNat 6 (wo / 64) = b := ofNat_field _ _ f5
  have e_r : BitVec.ofNat 3 (wo) = r := ofNat_field _ _ f6
  simp [decodeFields, decodeA, decodeA11, *]

theorem RoundTrip.fcmp (d : BitVec 6) (a : BitVec 6) (b : BitVec 6) (c : BitVec 6) : RoundTrip.Statement (.fcmp d a b c) := by
  refine RoundTrip.of_fields _ fun l hl => ?_
  have henc : encodeNat (.fcmp d a b c) = 1375731712 + d.toNat * 262144 + a.toNat * 4096 + b.toNat * 64 + c.toNat := rfl
  rw [henc]
  have hf := layout_26 _ 1375731712 l d.toNat a.toNat b.toNat c.toNat (by decide) (by decide) (by decide) (by decide) (by decide) d.isLt a.isLt b.isLt c.isLt hl rfl
  generalize 1375731712 + d.toNat * 262144 + a.toNat * 4096 + b.toNat * 64 + c.toNat + l * 2147483648 = wo at hf ⊢
  obtain ⟨f0, f1, f2, f3, f4, f5⟩ := hf
  have e_d : BitVec.ofNat 6 (wo / 262144) = d := ofNat_field _ _ f3
  have e_a : BitVec.ofNat 6 (wo / 4096) = a := ofNat_field _ _ f4
  have e_b : BitVec.ofNat 6 (wo / 64) = b := ofNat_field _ _ f5
  have e_c : BitVec.ofNat 6 (wo) = c := ofNat_field _ _ f2
  simp [decodeFields, decodeA, *]

theorem RoundTrip.fcvt (d : BitVec 6) (a : BitVec 6) (r : BitVec 3) (t : BitVec 3) (s : BitVec 3) : RoundTrip.Statement (.fcvt d a r t s) := by
  refine RoundTrip.of_fields _ fun l hl => ?_
  have henc : encodeNat (.fcvt d a r t s) = 1392508928 + d.toNat * 262144 + a.toNat * 4096 + r.toNat * 64 + t.toNat * 8 + s.toNat := rfl
  rw [henc]
  have hf := layout_31 _ 1392508928 l d.toNat a.toNat r.toNat t.toNat s.toNat (by decide) (by decide) (by decide) (by decide) (by decide) (by decide) d.isLt a.isLt r.isLt t.isLt s.isLt hl rfl
  generalize 1392508928 + d.toNat * 262144 + a.toNat * 4096 + r.toNat * 64 + t.toNat * 8 + s.toNat + l * 2147483648 = wo at hf ⊢
  obtain ⟨f0, f1, f2, f3, f4, f5, f6, f7⟩ := hf
  have e_d : BitVec.ofNat 6 (wo / 262144) = d := ofNat_field _ _ f3
  have e_a : BitVec.ofNat 6 (wo / 4096) = a := ofNat_field _ _ f4
  have e_r : BitVec.ofNat 3 (wo / 64) = r := ofNat_field _ _ f5
  have e_t : BitVec.ofNat 3 (wo / 8) = t := ofNat_field _ _ f6
  have e_s : BitVec.ofNat 3 (wo) = s := ofNat_field _ _ f7
  simp [decodeFields, decodeA, decodeA13, *]

theorem RoundTrip.vadd (h : BitVec 4) (a : BitVec 4) (b : BitVec 4) (m : BitVec 3) (r : BitVec 3) (t : BitVec 6) : RoundTrip.Statement (.vadd h a b m r t) := by
  refine RoundTrip.of_fields _ fun l hl => ?_
  have henc : encodeNat (.vadd h a b m r t) = 1409286144 + h.toNat * 1048576 + a.toNat * 65536 + b.toNat * 4096 + m.toNat * 512 + r.toNat * 64 + t.toNat := rfl
  rw [henc]
  have hf := layout_32 _ 1409286144 l h.toNat a.toNat b.toNat m.toNat r.toNat t.toNat (by decide) (by decide) (by decide) (by decide) (by decide) (by decide) (by decide) h.isLt a.isLt b.isLt m.isLt r.isLt t.isLt hl rfl
  generalize 1409286144 + h.toNat * 1048576 + a.toNat * 65536 + b.toNat * 4096 + m.toNat * 512 + r.toNat * 64 + t.toNat + l * 2147483648 = wo at hf ⊢
  obtain ⟨f0, f1, f2, f3, f4, f5, f6, f7⟩ := hf
  have e_h : BitVec.ofNat 4 (wo / 1048576) = h := ofNat_field _ _ f3
  have e_a : BitVec.ofNat 4 (wo / 65536) = a := ofNat_field _ _ f4
  have e_b : BitVec.ofNat 4 (wo / 4096) = b := ofNat_field _ _ f5
  have e_m : BitVec.ofNat 3 (wo / 512) = m := ofNat_field _ _ f6
  have e_r : BitVec.ofNat 3 (wo / 64) = r := ofNat_field _ _ f7
  have e_t : BitVec.ofNat 6 (wo) = t := ofNat_field _ _ f2
  simp [decodeFields, decodeA, *]

theorem RoundTrip.vsub (h : BitVec 4) (a : BitVec 4) (b : BitVec 4) (m : BitVec 3) (r : BitVec 3) (t : BitVec 6) : RoundTrip.Statement (.vsub h a b m r t) := by
  refine RoundTrip.of_fields _ fun l hl => ?_
  have henc : encodeNat (.vsub h a b m r t) = 1426063360 + h.toNat * 1048576 + a.toNat * 65536 + b.toNat * 4096 + m.toNat * 512 + r.toNat * 64 + t.toNat := rfl
  rw [henc]
  have hf := layout_32 _ 1426063360 l h.toNat a.toNat b.toNat m.toNat r.toNat t.toNat (by decide) (by decide) (by decide) (by decide) (by decide) (by decide) (by decide) h.isLt a.isLt b.isLt m.isLt r.isLt t.isLt hl rfl
  generalize 1426063360 + h.toNat * 1048576 + a.toNat * 65536 + b.toNat * 4096 + m.toNat * 512 + r.toNat * 64 + t.toNat + l * 2147483648 = wo at hf ⊢
  obtain ⟨f0, f1, f2, f3, f4, f5, f6, f7⟩ := hf
  have e_h : BitVec.ofNat 4 (wo / 1048576) = h := ofNat_field _ _ f3
  have e_a : BitVec.ofNat 4 (wo / 65536) = a := ofNat_field _ _ f4
  have e_b : BitVec.ofNat 4 (wo / 4096) = b := ofNat_field _ _ f5
  have e_m : BitVec.ofNat 3 (wo / 512) = m := ofNat_field _ _ f6
  have e_r : BitVec.ofNat 3 (wo / 64) = r := ofNat_field _ _ f7
  have e_t : BitVec.ofNat 6 (wo) = t := ofNat_field _ _ f2
  simp [decodeFields, decodeA, *]

theorem RoundTrip.vmul (h : BitVec 4) (a : BitVec 4) (b : BitVec 4) (m : BitVec 3) (r : BitVec 3) (t : BitVec 6) : RoundTrip.Statement (.vmul h a b m r t) := by
  refine RoundTrip.of_fields _ fun l hl => ?_
  have henc : encodeNat (.vmul h a b m r t) = 1442840576 + h.toNat * 1048576 + a.toNat * 65536 + b.toNat * 4096 + m.toNat * 512 + r.toNat * 64 + t.toNat := rfl
  rw [henc]
  have hf := layout_32 _ 1442840576 l h.toNat a.toNat b.toNat m.toNat r.toNat t.toNat (by decide) (by decide) (by decide) (by decide) (by decide) (by decide) (by decide) h.isLt a.isLt b.isLt m.isLt r.isLt t.isLt hl rfl
  generalize 1442840576 + h.toNat * 1048576 + a.toNat * 65536 + b.toNat * 4096 + m.toNat * 512 + r.toNat * 64 + t.toNat + l * 2147483648 = wo at hf ⊢
  obtain ⟨f0, f1, f2, f3, f4, f5, f6, f7⟩ := hf
  have e_h : BitVec.ofNat 4 (wo / 1048576) = h := ofNat_field _ _ f3
  have e_a : BitVec.ofNat 4 (wo / 65536) = a := ofNat_field _ _ f4
  have e_b : BitVec.ofNat 4 (wo / 4096) = b := ofNat_field _ _ f5
  have e_m : BitVec.ofNat 3 (wo / 512) = m := ofNat_field _ _ f6
  have e_r : BitVec.ofNat 3 (wo / 64) = r := ofNat_field _ _ f7
  have e_t : BitVec.ofNat 6 (wo) = t := ofNat_field _ _ f2
  simp [decodeFields, decodeA, *]

theorem RoundTrip.vfma (h : BitVec 4) (a : BitVec 4) (b : BitVec 4) (m : BitVec 3) (r : BitVec 3) (t : BitVec 6) : RoundTrip.Statement (.vfma h a b m r t) := by
  refine RoundTrip.of_fields _ fun l hl => ?_
  have henc : encodeNat (.vfma h a b m r t) = 1459617792 + h.toNat * 1048576 + a.toNat * 65536 + b.toNat * 4096 + m.toNat * 512 + r.toNat * 64 + t.toNat := rfl
  rw [henc]
  have hf := layout_32 _ 1459617792 l h.toNat a.toNat b.toNat m.toNat r.toNat t.toNat (by decide) (by decide) (by decide) (by decide) (by decide) (by decide) (by decide) h.isLt a.isLt b.isLt m.isLt r.isLt t.isLt hl rfl
  generalize 1459617792 + h.toNat * 1048576 + a.toNat * 65536 + b.toNat * 4096 + m.toNat * 512 + r.toNat * 64 + t.toNat + l * 2147483648 = wo at hf ⊢
  obtain ⟨f0, f1, f2, f3, f4, f5, f6, f7⟩ := hf
  have e_h : BitVec.ofNat 4 (wo / 1048576) = h := ofNat_field _ _ f3
  have e_a : BitVec.ofNat 4 (wo / 65536) = a := ofNat_field _ _ f4
  have e_b : BitVec.ofNat 4 (wo / 4096) = b := ofNat_field _ _ f5
  have e_m : BitVec.ofNat 3 (wo / 512) = m := ofNat_field _ _ f6
  have e_r : BitVec.ofNat 3 (wo / 64) = r := ofNat_field _ _ f7
  have e_t : BitVec.ofNat 6 (wo) = t := ofNat_field _ _ f2
  simp [decodeFields, decodeA, *]

theorem RoundTrip.vmin (h : BitVec 4) (a : BitVec 4) (b : BitVec 4) (m : BitVec 3) (t : BitVec 6) : RoundTrip.Statement (.vmin h a b m t) := by
  refine RoundTrip.of_fields _ fun l hl => ?_
  have henc : encodeNat (.vmin h a b m t) = 1476395008 + h.toNat * 1048576 + a.toNat * 65536 + b.toNat * 4096 + m.toNat * 512 + t.toNat := rfl
  rw [henc]
  have hf := layout_33 _ 1476395008 l h.toNat a.toNat b.toNat m.toNat t.toNat (by decide) (by decide) (by decide) (by decide) (by decide) (by decide) h.isLt a.isLt b.isLt m.isLt t.isLt hl rfl
  generalize 1476395008 + h.toNat * 1048576 + a.toNat * 65536 + b.toNat * 4096 + m.toNat * 512 + t.toNat + l * 2147483648 = wo at hf ⊢
  obtain ⟨f0, f1, f2, f3, f4, f5, f6, f7⟩ := hf
  have e_h : BitVec.ofNat 4 (wo / 1048576) = h := ofNat_field _ _ f4
  have e_a : BitVec.ofNat 4 (wo / 65536) = a := ofNat_field _ _ f5
  have e_b : BitVec.ofNat 4 (wo / 4096) = b := ofNat_field _ _ f6
  have e_m : BitVec.ofNat 3 (wo / 512) = m := ofNat_field _ _ f7
  have e_t : BitVec.ofNat 6 (wo) = t := ofNat_field _ _ f2
  simp [decodeFields, decodeA, decodeA18, *]

theorem RoundTrip.vmax (h : BitVec 4) (a : BitVec 4) (b : BitVec 4) (m : BitVec 3) (t : BitVec 6) : RoundTrip.Statement (.vmax h a b m t) := by
  refine RoundTrip.of_fields _ fun l hl => ?_
  have henc : encodeNat (.vmax h a b m t) = 1493172224 + h.toNat * 1048576 + a.toNat * 65536 + b.toNat * 4096 + m.toNat * 512 + t.toNat := rfl
  rw [henc]
  have hf := layout_33 _ 1493172224 l h.toNat a.toNat b.toNat m.toNat t.toNat (by decide) (by decide) (by decide) (by decide) (by decide) (by decide) h.isLt a.isLt b.isLt m.isLt t.isLt hl rfl
  generalize 1493172224 + h.toNat * 1048576 + a.toNat * 65536 + b.toNat * 4096 + m.toNat * 512 + t.toNat + l * 2147483648 = wo at hf ⊢
  obtain ⟨f0, f1, f2, f3, f4, f5, f6, f7⟩ := hf
  have e_h : BitVec.ofNat 4 (wo / 1048576) = h := ofNat_field _ _ f4
  have e_a : BitVec.ofNat 4 (wo / 65536) = a := ofNat_field _ _ f5
  have e_b : BitVec.ofNat 4 (wo / 4096) = b := ofNat_field _ _ f6
  have e_m : BitVec.ofNat 3 (wo / 512) = m := ofNat_field _ _ f7
  have e_t : BitVec.ofNat 6 (wo) = t := ofNat_field _ _ f2
  simp [decodeFields, decodeA, decodeA19, *]

theorem RoundTrip.vabs (h : BitVec 4) (a : BitVec 4) (m : BitVec 3) (t : BitVec 6) : RoundTrip.Statement (.vabs h a m t) := by
  refine RoundTrip.of_fields _ fun l hl => ?_
  have henc : encodeNat (.vabs h a m t) = 1509949440 + h.toNat * 1048576 + a.toNat * 65536 + m.toNat * 512 + t.toNat := rfl
  rw [henc]
  have hf := layout_34 _ 1509949440 l h.toNat a.toNat m.toNat t.toNat (by decide) (by decide) (by decide) (by decide) (by decide) h.isLt a.isLt m.isLt t.isLt hl rfl
  generalize 1509949440 + h.toNat * 1048576 + a.toNat * 65536 + m.toNat * 512 + t.toNat + l * 2147483648 = wo at hf ⊢
  obtain ⟨f0, f1, f2, f3, f4, f5, f6, f7⟩ := hf
  have e_h : BitVec.ofNat 4 (wo / 1048576) = h := ofNat_field _ _ f5
  have e_a : BitVec.ofNat 4 (wo / 65536) = a := ofNat_field _ _ f6
  have e_m : BitVec.ofNat 3 (wo / 512) = m := ofNat_field _ _ f7
  have e_t : BitVec.ofNat 6 (wo) = t := ofNat_field _ _ f2
  simp [decodeFields, decodeA, decodeA1A, *]

theorem RoundTrip.vneg (h : BitVec 4) (a : BitVec 4) (m : BitVec 3) (t : BitVec 6) : RoundTrip.Statement (.vneg h a m t) := by
  refine RoundTrip.of_fields _ fun l hl => ?_
  have henc : encodeNat (.vneg h a m t) = 1526726656 + h.toNat * 1048576 + a.toNat * 65536 + m.toNat * 512 + t.toNat := rfl
  rw [henc]
  have hf := layout_34 _ 1526726656 l h.toNat a.toNat m.toNat t.toNat (by decide) (by decide) (by decide) (by decide) (by decide) h.isLt a.isLt m.isLt t.isLt hl rfl
  generalize 1526726656 + h.toNat * 1048576 + a.toNat * 65536 + m.toNat * 512 + t.toNat + l * 2147483648 = wo at hf ⊢
  obtain ⟨f0, f1, f2, f3, f4, f5, f6, f7⟩ := hf
  have e_h : BitVec.ofNat 4 (wo / 1048576) = h := ofNat_field _ _ f5
  have e_a : BitVec.ofNat 4 (wo / 65536) = a := ofNat_field _ _ f6
  have e_m : BitVec.ofNat 3 (wo / 512) = m := ofNat_field _ _ f7
  have e_t : BitVec.ofNat 6 (wo) = t := ofNat_field _ _ f2
  simp [decodeFields, decodeA, decodeA1B, *]

theorem RoundTrip.vand (h : BitVec 4) (a : BitVec 4) (b : BitVec 4) (m : BitVec 3) (t : BitVec 6) : RoundTrip.Statement (.vand h a b m t) := by
  refine RoundTrip.of_fields _ fun l hl => ?_
  have henc : encodeNat (.vand h a b m t) = 1543503872 + h.toNat * 1048576 + a.toNat * 65536 + b.toNat * 4096 + m.toNat * 512 + t.toNat := rfl
  rw [henc]
  have hf := layout_33 _ 1543503872 l h.toNat a.toNat b.toNat m.toNat t.toNat (by decide) (by decide) (by decide) (by decide) (by decide) (by decide) h.isLt a.isLt b.isLt m.isLt t.isLt hl rfl
  generalize 1543503872 + h.toNat * 1048576 + a.toNat * 65536 + b.toNat * 4096 + m.toNat * 512 + t.toNat + l * 2147483648 = wo at hf ⊢
  obtain ⟨f0, f1, f2, f3, f4, f5, f6, f7⟩ := hf
  have e_h : BitVec.ofNat 4 (wo / 1048576) = h := ofNat_field _ _ f4
  have e_a : BitVec.ofNat 4 (wo / 65536) = a := ofNat_field _ _ f5
  have e_b : BitVec.ofNat 4 (wo / 4096) = b := ofNat_field _ _ f6
  have e_m : BitVec.ofNat 3 (wo / 512) = m := ofNat_field _ _ f7
  have e_t : BitVec.ofNat 6 (wo) = t := ofNat_field _ _ f2
  simp [decodeFields, decodeA, decodeA1C, *]

theorem RoundTrip.vor (h : BitVec 4) (a : BitVec 4) (b : BitVec 4) (m : BitVec 3) (t : BitVec 6) : RoundTrip.Statement (.vor h a b m t) := by
  refine RoundTrip.of_fields _ fun l hl => ?_
  have henc : encodeNat (.vor h a b m t) = 1560281088 + h.toNat * 1048576 + a.toNat * 65536 + b.toNat * 4096 + m.toNat * 512 + t.toNat := rfl
  rw [henc]
  have hf := layout_33 _ 1560281088 l h.toNat a.toNat b.toNat m.toNat t.toNat (by decide) (by decide) (by decide) (by decide) (by decide) (by decide) h.isLt a.isLt b.isLt m.isLt t.isLt hl rfl
  generalize 1560281088 + h.toNat * 1048576 + a.toNat * 65536 + b.toNat * 4096 + m.toNat * 512 + t.toNat + l * 2147483648 = wo at hf ⊢
  obtain ⟨f0, f1, f2, f3, f4, f5, f6, f7⟩ := hf
  have e_h : BitVec.ofNat 4 (wo / 1048576) = h := ofNat_field _ _ f4
  have e_a : BitVec.ofNat 4 (wo / 65536) = a := ofNat_field _ _ f5
  have e_b : BitVec.ofNat 4 (wo / 4096) = b := ofNat_field _ _ f6
  have e_m : BitVec.ofNat 3 (wo / 512) = m := ofNat_field _ _ f7
  have e_t : BitVec.ofNat 6 (wo) = t := ofNat_field _ _ f2
  simp [decodeFields, decodeA, decodeA1D, *]

theorem RoundTrip.vxor (h : BitVec 4) (a : BitVec 4) (b : BitVec 4) (m : BitVec 3) (t : BitVec 6) : RoundTrip.Statement (.vxor h a b m t) := by
  refine RoundTrip.of_fields _ fun l hl => ?_
  have henc : encodeNat (.vxor h a b m t) = 1577058304 + h.toNat * 1048576 + a.toNat * 65536 + b.toNat * 4096 + m.toNat * 512 + t.toNat := rfl
  rw [henc]
  have hf := layout_33 _ 1577058304 l h.toNat a.toNat b.toNat m.toNat t.toNat (by decide) (by decide) (by decide) (by decide) (by decide) (by decide) h.isLt a.isLt b.isLt m.isLt t.isLt hl rfl
  generalize 1577058304 + h.toNat * 1048576 + a.toNat * 65536 + b.toNat * 4096 + m.toNat * 512 + t.toNat + l * 2147483648 = wo at hf ⊢
  obtain ⟨f0, f1, f2, f3, f4, f5, f6, f7⟩ := hf
  have e_h : BitVec.ofNat 4 (wo / 1048576) = h := ofNat_field _ _ f4
  have e_a : BitVec.ofNat 4 (wo / 65536) = a := ofNat_field _ _ f5
  have e_b : BitVec.ofNat 4 (wo / 4096) = b := ofNat_field _ _ f6
  have e_m : BitVec.ofNat 3 (wo / 512) = m := ofNat_field _ _ f7
  have e_t : BitVec.ofNat 6 (wo) = t := ofNat_field _ _ f2
  simp [decodeFields, decodeA, decodeA1E, *]

theorem RoundTrip.vshl (h : BitVec 4) (a : BitVec 4) (b : BitVec 4) (m : BitVec 3) (t : BitVec 6) : RoundTrip.Statement (.vshl h a b m t) := by
  refine RoundTrip.of_fields _ fun l hl => ?_
  have henc : encodeNat (.vshl h a b m t) = 1593835520 + h.toNat * 1048576 + a.toNat * 65536 + b.toNat * 4096 + m.toNat * 512 + t.toNat := rfl
  rw [henc]
  have hf := layout_33 _ 1593835520 l h.toNat a.toNat b.toNat m.toNat t.toNat (by decide) (by decide) (by decide) (by decide) (by decide) (by decide) h.isLt a.isLt b.isLt m.isLt t.isLt hl rfl
  generalize 1593835520 + h.toNat * 1048576 + a.toNat * 65536 + b.toNat * 4096 + m.toNat * 512 + t.toNat + l * 2147483648 = wo at hf ⊢
  obtain ⟨f0, f1, f2, f3, f4, f5, f6, f7⟩ := hf
  have e_h : BitVec.ofNat 4 (wo / 1048576) = h := ofNat_field _ _ f4
  have e_a : BitVec.ofNat 4 (wo / 65536) = a := ofNat_field _ _ f5
  have e_b : BitVec.ofNat 4 (wo / 4096) = b := ofNat_field _ _ f6
  have e_m : BitVec.ofNat 3 (wo / 512) = m := ofNat_field _ _ f7
  have e_t : BitVec.ofNat 6 (wo) = t := ofNat_field _ _ f2
  simp [decodeFields, decodeA, decodeA1F, *]

theorem RoundTrip.vshr (h : BitVec 4) (a : BitVec 4) (b : BitVec 4) (m : BitVec 3) (t : BitVec 6) : RoundTrip.Statement (.vshr h a b m t) := by
  refine RoundTrip.of_fields _ fun l hl => ?_
  have henc : encodeNat (.vshr h a b m t) = 1610612736 + h.toNat * 1048576 + a.toNat * 65536 + b.toNat * 4096 + m.toNat * 512 + t.toNat := rfl
  rw [henc]
  have hf := layout_33 _ 1610612736 l h.toNat a.toNat b.toNat m.toNat t.toNat (by decide) (by decide) (by decide) (by decide) (by decide) (by decide) h.isLt a.isLt b.isLt m.isLt t.isLt hl rfl
  generalize 1610612736 + h.toNat * 1048576 + a.toNat * 65536 + b.toNat * 4096 + m.toNat * 512 + t.toNat + l * 2147483648 = wo at hf ⊢
  obtain ⟨f0, f1, f2, f3, f4, f5, f6, f7⟩ := hf
  have e_h : BitVec.ofNat 4 (wo / 1048576) = h := ofNat_field _ _ f4
  have e_a : BitVec.ofNat 4 (wo / 65536) = a := ofNat_field _ _ f5
  have e_b : BitVec.ofNat 4 (wo / 4096) = b := ofNat_field _ _ f6
  have e_m : BitVec.ofNat 3 (wo / 512) = m := ofNat_field _ _ f7
  have e_t : BitVec.ofNat 6 (wo) = t := ofNat_field _ _ f2
  simp [decodeFields, decodeA, decodeA20, *]

theorem RoundTrip.vcmp (h : BitVec 4) (a : BitVec 4) (b : BitVec 4) (m : BitVec 3) (c : BitVec 3) (t : BitVec 6) : RoundTrip.Statement (.vcmp h a b m c t) := by
  refine RoundTrip.of_fields _ fun l hl => ?_
  have henc : encodeNat (.vcmp h a b m c t) = 1627389952 + h.toNat * 1048576 + a.toNat * 65536 + b.toNat * 4096 + m.toNat * 512 + c.toNat * 64 + t.toNat := rfl
  rw [henc]
  have hf := layout_32 _ 1627389952 l h.toNat a.toNat b.toNat m.toNat c.toNat t.toNat (by decide) (by decide) (by decide) (by decide) (by decide) (by decide) (by decide) h.isLt a.isLt b.isLt m.isLt c.isLt t.isLt hl rfl
  generalize 1627389952 + h.toNat * 1048576 + a.toNat * 65536 + b.toNat * 4096 + m.toNat * 512 + c.toNat * 64 + t.toNat + l * 2147483648 = wo at hf ⊢
  obtain ⟨f0, f1, f2, f3, f4, f5, f6, f7⟩ := hf
  have e_h : BitVec.ofNat 4 (wo / 1048576) = h := ofNat_field _ _ f3
  have e_a : BitVec.ofNat 4 (wo / 65536) = a := ofNat_field _ _ f4
  have e_b : BitVec.ofNat 4 (wo / 4096) = b := ofNat_field _ _ f5
  have e_m : BitVec.ofNat 3 (wo / 512) = m := ofNat_field _ _ f6
  have e_c : BitVec.ofNat 3 (wo / 64) = c := ofNat_field _ _ f7
  have e_t : BitVec.ofNat 6 (wo) = t := ofNat_field _ _ f2
  simp [decodeFields, decodeA, *]

theorem RoundTrip.vsel (h : BitVec 4) (a : BitVec 4) (b : BitVec 4) (k : BitVec 3) (t : BitVec 6) : RoundTrip.Statement (.vsel h a b k t) := by
  refine RoundTrip.of_fields _ fun l hl => ?_
  have henc : encodeNat (.vsel h a b k t) = 1644167168 + h.toNat * 1048576 + a.toNat * 65536 + b.toNat * 4096 + k.toNat * 512 + t.toNat := rfl
  rw [henc]
  have hf := layout_33 _ 1644167168 l h.toNat a.toNat b.toNat k.toNat t.toNat (by decide) (by decide) (by decide) (by decide) (by decide) (by decide) h.isLt a.isLt b.isLt k.isLt t.isLt hl rfl
  generalize 1644167168 + h.toNat * 1048576 + a.toNat * 65536 + b.toNat * 4096 + k.toNat * 512 + t.toNat + l * 2147483648 = wo at hf ⊢
  obtain ⟨f0, f1, f2, f3, f4, f5, f6, f7⟩ := hf
  have e_h : BitVec.ofNat 4 (wo / 1048576) = h := ofNat_field _ _ f4
  have e_a : BitVec.ofNat 4 (wo / 65536) = a := ofNat_field _ _ f5
  have e_b : BitVec.ofNat 4 (wo / 4096) = b := ofNat_field _ _ f6
  have e_k : BitVec.ofNat 3 (wo / 512) = k := ofNat_field _ _ f7
  have e_t : BitVec.ofNat 6 (wo) = t := ofNat_field _ _ f2
  simp [decodeFields, decodeA, decodeA22, *]

theorem RoundTrip.vcvt (h : BitVec 4) (a : BitVec 4) (s : BitVec 4) (m : BitVec 3) (v : BitVec 3) (t : BitVec 6) : RoundTrip.Statement (.vcvt h a s m v t) := by
  refine RoundTrip.of_fields _ fun l hl => ?_
  have henc : encodeNat (.vcvt h a s m v t) = 1660944384 + h.toNat * 1048576 + a.toNat * 65536 + s.toNat * 4096 + m.toNat * 512 + v.toNat * 64 + t.toNat := rfl
  rw [henc]
  have hf := layout_32 _ 1660944384 l h.toNat a.toNat s.toNat m.toNat v.toNat t.toNat (by decide) (by decide) (by decide) (by decide) (by decide) (by decide) (by decide) h.isLt a.isLt s.isLt m.isLt v.isLt t.isLt hl rfl
  generalize 1660944384 + h.toNat * 1048576 + a.toNat * 65536 + s.toNat * 4096 + m.toNat * 512 + v.toNat * 64 + t.toNat + l * 2147483648 = wo at hf ⊢
  obtain ⟨f0, f1, f2, f3, f4, f5, f6, f7⟩ := hf
  have e_h : BitVec.ofNat 4 (wo / 1048576) = h := ofNat_field _ _ f3
  have e_a : BitVec.ofNat 4 (wo / 65536) = a := ofNat_field _ _ f4
  have e_s : BitVec.ofNat 4 (wo / 4096) = s := ofNat_field _ _ f5
  have e_m : BitVec.ofNat 3 (wo / 512) = m := ofNat_field _ _ f6
  have e_v : BitVec.ofNat 3 (wo / 64) = v := ofNat_field _ _ f7
  have e_t : BitVec.ofNat 6 (wo) = t := ofNat_field _ _ f2
  simp [decodeFields, decodeA, *]

theorem RoundTrip.vcvtHi (h : BitVec 4) (a : BitVec 4) (s : BitVec 4) (m : BitVec 3) (v : BitVec 3) (t : BitVec 6) : RoundTrip.Statement (.vcvtHi h a s m v t) := by
  refine RoundTrip.of_fields _ fun l hl => ?_
  have henc : encodeNat (.vcvtHi h a s m v t) = 1677721600 + h.toNat * 1048576 + a.toNat * 65536 + s.toNat * 4096 + m.toNat * 512 + v.toNat * 64 + t.toNat := rfl
  rw [henc]
  have hf := layout_32 _ 1677721600 l h.toNat a.toNat s.toNat m.toNat v.toNat t.toNat (by decide) (by decide) (by decide) (by decide) (by decide) (by decide) (by decide) h.isLt a.isLt s.isLt m.isLt v.isLt t.isLt hl rfl
  generalize 1677721600 + h.toNat * 1048576 + a.toNat * 65536 + s.toNat * 4096 + m.toNat * 512 + v.toNat * 64 + t.toNat + l * 2147483648 = wo at hf ⊢
  obtain ⟨f0, f1, f2, f3, f4, f5, f6, f7⟩ := hf
  have e_h : BitVec.ofNat 4 (wo / 1048576) = h := ofNat_field _ _ f3
  have e_a : BitVec.ofNat 4 (wo / 65536) = a := ofNat_field _ _ f4
  have e_s : BitVec.ofNat 4 (wo / 4096) = s := ofNat_field _ _ f5
  have e_m : BitVec.ofNat 3 (wo / 512) = m := ofNat_field _ _ f6
  have e_v : BitVec.ofNat 3 (wo / 64) = v := ofNat_field _ _ f7
  have e_t : BitVec.ofNat 6 (wo) = t := ofNat_field _ _ f2
  simp [decodeFields, decodeA, *]

theorem RoundTrip.vbcast (h : BitVec 4) (a : BitVec 6) (m : BitVec 3) (t : BitVec 6) : RoundTrip.Statement (.vbcast h a m t) := by
  refine RoundTrip.of_fields _ fun l hl => ?_
  have henc : encodeNat (.vbcast h a m t) = 1694498816 + h.toNat * 1048576 + a.toNat * 16384 + m.toNat * 512 + t.toNat := rfl
  rw [henc]
  have hf := layout_35 _ 1694498816 l h.toNat a.toNat m.toNat t.toNat (by decide) (by decide) (by decide) (by decide) (by decide) h.isLt a.isLt m.isLt t.isLt hl rfl
  generalize 1694498816 + h.toNat * 1048576 + a.toNat * 16384 + m.toNat * 512 + t.toNat + l * 2147483648 = wo at hf ⊢
  obtain ⟨f0, f1, f2, f3, f4, f5, f6, f7⟩ := hf
  have e_h : BitVec.ofNat 4 (wo / 1048576) = h := ofNat_field _ _ f5
  have e_a : BitVec.ofNat 6 (wo / 16384) = a := ofNat_field _ _ f6
  have e_m : BitVec.ofNat 3 (wo / 512) = m := ofNat_field _ _ f7
  have e_t : BitVec.ofNat 6 (wo) = t := ofNat_field _ _ f2
  simp [decodeFields, decodeA, decodeA25, *]

theorem RoundTrip.viota (h : BitVec 4) (m : BitVec 3) (t : BitVec 6) : RoundTrip.Statement (.viota h m t) := by
  refine RoundTrip.of_fields _ fun l hl => ?_
  have henc : encodeNat (.viota h m t) = 1711276032 + h.toNat * 1048576 + m.toNat * 512 + t.toNat := rfl
  rw [henc]
  have hf := layout_36 _ 1711276032 l h.toNat m.toNat t.toNat (by decide) (by decide) (by decide) (by decide) h.isLt m.isLt t.isLt hl rfl
  generalize 1711276032 + h.toNat * 1048576 + m.toNat * 512 + t.toNat + l * 2147483648 = wo at hf ⊢
  obtain ⟨f0, f1, f2, f3, f4, f5, f6⟩ := hf
  have e_h : BitVec.ofNat 4 (wo / 1048576) = h := ofNat_field _ _ f5
  have e_m : BitVec.ofNat 3 (wo / 512) = m := ofNat_field _ _ f6
  have e_t : BitVec.ofNat 6 (wo) = t := ofNat_field _ _ f2
  simp [decodeFields, decodeA, decodeA26, *]

theorem RoundTrip.vredAdd (h : BitVec 4) (a : BitVec 4) (m : BitVec 3) (t : BitVec 6) : RoundTrip.Statement (.vredAdd h a m t) := by
  refine RoundTrip.of_fields _ fun l hl => ?_
  have henc : encodeNat (.vredAdd h a m t) = 1728053248 + h.toNat * 1048576 + a.toNat * 65536 + m.toNat * 512 + t.toNat := rfl
  rw [henc]
  have hf := layout_34 _ 1728053248 l h.toNat a.toNat m.toNat t.toNat (by decide) (by decide) (by decide) (by decide) (by decide) h.isLt a.isLt m.isLt t.isLt hl rfl
  generalize 1728053248 + h.toNat * 1048576 + a.toNat * 65536 + m.toNat * 512 + t.toNat + l * 2147483648 = wo at hf ⊢
  obtain ⟨f0, f1, f2, f3, f4, f5, f6, f7⟩ := hf
  have e_h : BitVec.ofNat 4 (wo / 1048576) = h := ofNat_field _ _ f5
  have e_a : BitVec.ofNat 4 (wo / 65536) = a := ofNat_field _ _ f6
  have e_m : BitVec.ofNat 3 (wo / 512) = m := ofNat_field _ _ f7
  have e_t : BitVec.ofNat 6 (wo) = t := ofNat_field _ _ f2
  simp [decodeFields, decodeA, decodeA27, *]

theorem RoundTrip.vredMax (h : BitVec 4) (a : BitVec 4) (m : BitVec 3) (t : BitVec 6) : RoundTrip.Statement (.vredMax h a m t) := by
  refine RoundTrip.of_fields _ fun l hl => ?_
  have henc : encodeNat (.vredMax h a m t) = 1728053312 + h.toNat * 1048576 + a.toNat * 65536 + m.toNat * 512 + t.toNat := rfl
  rw [henc]
  have hf := layout_34 _ 1728053312 l h.toNat a.toNat m.toNat t.toNat (by decide) (by decide) (by decide) (by decide) (by decide) h.isLt a.isLt m.isLt t.isLt hl rfl
  generalize 1728053312 + h.toNat * 1048576 + a.toNat * 65536 + m.toNat * 512 + t.toNat + l * 2147483648 = wo at hf ⊢
  obtain ⟨f0, f1, f2, f3, f4, f5, f6, f7⟩ := hf
  have e_h : BitVec.ofNat 4 (wo / 1048576) = h := ofNat_field _ _ f5
  have e_a : BitVec.ofNat 4 (wo / 65536) = a := ofNat_field _ _ f6
  have e_m : BitVec.ofNat 3 (wo / 512) = m := ofNat_field _ _ f7
  have e_t : BitVec.ofNat 6 (wo) = t := ofNat_field _ _ f2
  simp [decodeFields, decodeA, decodeA27, *]

theorem RoundTrip.vredMin (h : BitVec 4) (a : BitVec 4) (m : BitVec 3) (t : BitVec 6) : RoundTrip.Statement (.vredMin h a m t) := by
  refine RoundTrip.of_fields _ fun l hl => ?_
  have henc : encodeNat (.vredMin h a m t) = 1728053376 + h.toNat * 1048576 + a.toNat * 65536 + m.toNat * 512 + t.toNat := rfl
  rw [henc]
  have hf := layout_34 _ 1728053376 l h.toNat a.toNat m.toNat t.toNat (by decide) (by decide) (by decide) (by decide) (by decide) h.isLt a.isLt m.isLt t.isLt hl rfl
  generalize 1728053376 + h.toNat * 1048576 + a.toNat * 65536 + m.toNat * 512 + t.toNat + l * 2147483648 = wo at hf ⊢
  obtain ⟨f0, f1, f2, f3, f4, f5, f6, f7⟩ := hf
  have e_h : BitVec.ofNat 4 (wo / 1048576) = h := ofNat_field _ _ f5
  have e_a : BitVec.ofNat 4 (wo / 65536) = a := ofNat_field _ _ f6
  have e_m : BitVec.ofNat 3 (wo / 512) = m := ofNat_field _ _ f7
  have e_t : BitVec.ofNat 6 (wo) = t := ofNat_field _ _ f2
  simp [decodeFields, decodeA, decodeA27, *]

theorem RoundTrip.vscanInc (h : BitVec 4) (a : BitVec 4) (k : BitVec 3) (t : BitVec 6) : RoundTrip.Statement (.vscanInc h a k t) := by
  refine RoundTrip.of_fields _ fun l hl => ?_
  have henc : encodeNat (.vscanInc h a k t) = 1744830464 + h.toNat * 1048576 + a.toNat * 65536 + k.toNat * 512 + t.toNat := rfl
  rw [henc]
  have hf := layout_34 _ 1744830464 l h.toNat a.toNat k.toNat t.toNat (by decide) (by decide) (by decide) (by decide) (by decide) h.isLt a.isLt k.isLt t.isLt hl rfl
  generalize 1744830464 + h.toNat * 1048576 + a.toNat * 65536 + k.toNat * 512 + t.toNat + l * 2147483648 = wo at hf ⊢
  obtain ⟨f0, f1, f2, f3, f4, f5, f6, f7⟩ := hf
  have e_h : BitVec.ofNat 4 (wo / 1048576) = h := ofNat_field _ _ f5
  have e_a : BitVec.ofNat 4 (wo / 65536) = a := ofNat_field _ _ f6
  have e_k : BitVec.ofNat 3 (wo / 512) = k := ofNat_field _ _ f7
  have e_t : BitVec.ofNat 6 (wo) = t := ofNat_field _ _ f2
  simp [decodeFields, decodeA, decodeA28, *]

theorem RoundTrip.vscanMaxinc (h : BitVec 4) (a : BitVec 4) (k : BitVec 3) (t : BitVec 6) : RoundTrip.Statement (.vscanMaxinc h a k t) := by
  refine RoundTrip.of_fields _ fun l hl => ?_
  have henc : encodeNat (.vscanMaxinc h a k t) = 1744830528 + h.toNat * 1048576 + a.toNat * 65536 + k.toNat * 512 + t.toNat := rfl
  rw [henc]
  have hf := layout_34 _ 1744830528 l h.toNat a.toNat k.toNat t.toNat (by decide) (by decide) (by decide) (by decide) (by decide) h.isLt a.isLt k.isLt t.isLt hl rfl
  generalize 1744830528 + h.toNat * 1048576 + a.toNat * 65536 + k.toNat * 512 + t.toNat + l * 2147483648 = wo at hf ⊢
  obtain ⟨f0, f1, f2, f3, f4, f5, f6, f7⟩ := hf
  have e_h : BitVec.ofNat 4 (wo / 1048576) = h := ofNat_field _ _ f5
  have e_a : BitVec.ofNat 4 (wo / 65536) = a := ofNat_field _ _ f6
  have e_k : BitVec.ofNat 3 (wo / 512) = k := ofNat_field _ _ f7
  have e_t : BitVec.ofNat 6 (wo) = t := ofNat_field _ _ f2
  simp [decodeFields, decodeA, decodeA28, *]

theorem RoundTrip.vscanMininc (h : BitVec 4) (a : BitVec 4) (k : BitVec 3) (t : BitVec 6) : RoundTrip.Statement (.vscanMininc h a k t) := by
  refine RoundTrip.of_fields _ fun l hl => ?_
  have henc : encodeNat (.vscanMininc h a k t) = 1744830592 + h.toNat * 1048576 + a.toNat * 65536 + k.toNat * 512 + t.toNat := rfl
  rw [henc]
  have hf := layout_34 _ 1744830592 l h.toNat a.toNat k.toNat t.toNat (by decide) (by decide) (by decide) (by decide) (by decide) h.isLt a.isLt k.isLt t.isLt hl rfl
  generalize 1744830592 + h.toNat * 1048576 + a.toNat * 65536 + k.toNat * 512 + t.toNat + l * 2147483648 = wo at hf ⊢
  obtain ⟨f0, f1, f2, f3, f4, f5, f6, f7⟩ := hf
  have e_h : BitVec.ofNat 4 (wo / 1048576) = h := ofNat_field _ _ f5
  have e_a : BitVec.ofNat 4 (wo / 65536) = a := ofNat_field _ _ f6
  have e_k : BitVec.ofNat 3 (wo / 512) = k := ofNat_field _ _ f7
  have e_t : BitVec.ofNat 6 (wo) = t := ofNat_field _ _ f2
  simp [decodeFields, decodeA, decodeA28, *]

theorem RoundTrip.vscanExc (h : BitVec 4) (a : BitVec 4) (k : BitVec 3) (t : BitVec 6) : RoundTrip.Statement (.vscanExc h a k t) := by
  refine RoundTrip.of_fields _ fun l hl => ?_
  have henc : encodeNat (.vscanExc h a k t) = 1744830656 + h.toNat * 1048576 + a.toNat * 65536 + k.toNat * 512 + t.toNat := rfl
  rw [henc]
  have hf := layout_34 _ 1744830656 l h.toNat a.toNat k.toNat t.toNat (by decide) (by decide) (by decide) (by decide) (by decide) h.isLt a.isLt k.isLt t.isLt hl rfl
  generalize 1744830656 + h.toNat * 1048576 + a.toNat * 65536 + k.toNat * 512 + t.toNat + l * 2147483648 = wo at hf ⊢
  obtain ⟨f0, f1, f2, f3, f4, f5, f6, f7⟩ := hf
  have e_h : BitVec.ofNat 4 (wo / 1048576) = h := ofNat_field _ _ f5
  have e_a : BitVec.ofNat 4 (wo / 65536) = a := ofNat_field _ _ f6
  have e_k : BitVec.ofNat 3 (wo / 512) = k := ofNat_field _ _ f7
  have e_t : BitVec.ofNat 6 (wo) = t := ofNat_field _ _ f2
  simp [decodeFields, decodeA, decodeA28, *]

theorem RoundTrip.vscanMaxexc (h : BitVec 4) (a : BitVec 4) (k : BitVec 3) (t : BitVec 6) : RoundTrip.Statement (.vscanMaxexc h a k t) := by
  refine RoundTrip.of_fields _ fun l hl => ?_
  have henc : encodeNat (.vscanMaxexc h a k t) = 1744830720 + h.toNat * 1048576 + a.toNat * 65536 + k.toNat * 512 + t.toNat := rfl
  rw [henc]
  have hf := layout_34 _ 1744830720 l h.toNat a.toNat k.toNat t.toNat (by decide) (by decide) (by decide) (by decide) (by decide) h.isLt a.isLt k.isLt t.isLt hl rfl
  generalize 1744830720 + h.toNat * 1048576 + a.toNat * 65536 + k.toNat * 512 + t.toNat + l * 2147483648 = wo at hf ⊢
  obtain ⟨f0, f1, f2, f3, f4, f5, f6, f7⟩ := hf
  have e_h : BitVec.ofNat 4 (wo / 1048576) = h := ofNat_field _ _ f5
  have e_a : BitVec.ofNat 4 (wo / 65536) = a := ofNat_field _ _ f6
  have e_k : BitVec.ofNat 3 (wo / 512) = k := ofNat_field _ _ f7
  have e_t : BitVec.ofNat 6 (wo) = t := ofNat_field _ _ f2
  simp [decodeFields, decodeA, decodeA28, *]

theorem RoundTrip.vscanMinexc (h : BitVec 4) (a : BitVec 4) (k : BitVec 3) (t : BitVec 6) : RoundTrip.Statement (.vscanMinexc h a k t) := by
  refine RoundTrip.of_fields _ fun l hl => ?_
  have henc : encodeNat (.vscanMinexc h a k t) = 1744830784 + h.toNat * 1048576 + a.toNat * 65536 + k.toNat * 512 + t.toNat := rfl
  rw [henc]
  have hf := layout_34 _ 1744830784 l h.toNat a.toNat k.toNat t.toNat (by decide) (by decide) (by decide) (by decide) (by decide) h.isLt a.isLt k.isLt t.isLt hl rfl
  generalize 1744830784 + h.toNat * 1048576 + a.toNat * 65536 + k.toNat * 512 + t.toNat + l * 2147483648 = wo at hf ⊢
  obtain ⟨f0, f1, f2, f3, f4, f5, f6, f7⟩ := hf
  have e_h : BitVec.ofNat 4 (wo / 1048576) = h := ofNat_field _ _ f5
  have e_a : BitVec.ofNat 4 (wo / 65536) = a := ofNat_field _ _ f6
  have e_k : BitVec.ofNat 3 (wo / 512) = k := ofNat_field _ _ f7
  have e_t : BitVec.ofNat 6 (wo) = t := ofNat_field _ _ f2
  simp [decodeFields, decodeA, decodeA28, *]

theorem RoundTrip.vrcp (h : BitVec 4) (a : BitVec 4) (m : BitVec 3) (t : BitVec 6) : RoundTrip.Statement (.vrcp h a m t) := by
  refine RoundTrip.of_fields _ fun l hl => ?_
  have henc : encodeNat (.vrcp h a m t) = 1879048192 + h.toNat * 1048576 + a.toNat * 65536 + m.toNat * 512 + t.toNat := rfl
  rw [henc]
  have hf := layout_34 _ 1879048192 l h.toNat a.toNat m.toNat t.toNat (by decide) (by decide) (by decide) (by decide) (by decide) h.isLt a.isLt m.isLt t.isLt hl rfl
  generalize 1879048192 + h.toNat * 1048576 + a.toNat * 65536 + m.toNat * 512 + t.toNat + l * 2147483648 = wo at hf ⊢
  obtain ⟨f0, f1, f2, f3, f4, f5, f6, f7⟩ := hf
  have e_h : BitVec.ofNat 4 (wo / 1048576) = h := ofNat_field _ _ f5
  have e_a : BitVec.ofNat 4 (wo / 65536) = a := ofNat_field _ _ f6
  have e_m : BitVec.ofNat 3 (wo / 512) = m := ofNat_field _ _ f7
  have e_t : BitVec.ofNat 6 (wo) = t := ofNat_field _ _ f2
  simp [decodeFields, decodeA, decodeA30, *]

theorem RoundTrip.vrsq (h : BitVec 4) (a : BitVec 4) (m : BitVec 3) (t : BitVec 6) : RoundTrip.Statement (.vrsq h a m t) := by
  refine RoundTrip.of_fields _ fun l hl => ?_
  have henc : encodeNat (.vrsq h a m t) = 1879048256 + h.toNat * 1048576 + a.toNat * 65536 + m.toNat * 512 + t.toNat := rfl
  rw [henc]
  have hf := layout_34 _ 1879048256 l h.toNat a.toNat m.toNat t.toNat (by decide) (by decide) (by decide) (by decide) (by decide) h.isLt a.isLt m.isLt t.isLt hl rfl
  generalize 1879048256 + h.toNat * 1048576 + a.toNat * 65536 + m.toNat * 512 + t.toNat + l * 2147483648 = wo at hf ⊢
  obtain ⟨f0, f1, f2, f3, f4, f5, f6, f7⟩ := hf
  have e_h : BitVec.ofNat 4 (wo / 1048576) = h := ofNat_field _ _ f5
  have e_a : BitVec.ofNat 4 (wo / 65536) = a := ofNat_field _ _ f6
  have e_m : BitVec.ofNat 3 (wo / 512) = m := ofNat_field _ _ f7
  have e_t : BitVec.ofNat 6 (wo) = t := ofNat_field _ _ f2
  simp [decodeFields, decodeA, decodeA30, *]

theorem RoundTrip.vsqrt (h : BitVec 4) (a : BitVec 4) (m : BitVec 3) (t : BitVec 6) : RoundTrip.Statement (.vsqrt h a m t) := by
  refine RoundTrip.of_fields _ fun l hl => ?_
  have henc : encodeNat (.vsqrt h a m t) = 1879048320 + h.toNat * 1048576 + a.toNat * 65536 + m.toNat * 512 + t.toNat := rfl
  rw [henc]
  have hf := layout_34 _ 1879048320 l h.toNat a.toNat m.toNat t.toNat (by decide) (by decide) (by decide) (by decide) (by decide) h.isLt a.isLt m.isLt t.isLt hl rfl
  generalize 1879048320 + h.toNat * 1048576 + a.toNat * 65536 + m.toNat * 512 + t.toNat + l * 2147483648 = wo at hf ⊢
  obtain ⟨f0, f1, f2, f3, f4, f5, f6, f7⟩ := hf
  have e_h : BitVec.ofNat 4 (wo / 1048576) = h := ofNat_field _ _ f5
  have e_a : BitVec.ofNat 4 (wo / 65536) = a := ofNat_field _ _ f6
  have e_m : BitVec.ofNat 3 (wo / 512) = m := ofNat_field _ _ f7
  have e_t : BitVec.ofNat 6 (wo) = t := ofNat_field _ _ f2
  simp [decodeFields, decodeA, decodeA30, *]

theorem RoundTrip.vexp (h : BitVec 4) (a : BitVec 4) (m : BitVec 3) (t : BitVec 6) : RoundTrip.Statement (.vexp h a m t) := by
  refine RoundTrip.of_fields _ fun l hl => ?_
  have henc : encodeNat (.vexp h a m t) = 1879048384 + h.toNat * 1048576 + a.toNat * 65536 + m.toNat * 512 + t.toNat := rfl
  rw [henc]
  have hf := layout_34 _ 1879048384 l h.toNat a.toNat m.toNat t.toNat (by decide) (by decide) (by decide) (by decide) (by decide) h.isLt a.isLt m.isLt t.isLt hl rfl
  generalize 1879048384 + h.toNat * 1048576 + a.toNat * 65536 + m.toNat * 512 + t.toNat + l * 2147483648 = wo at hf ⊢
  obtain ⟨f0, f1, f2, f3, f4, f5, f6, f7⟩ := hf
  have e_h : BitVec.ofNat 4 (wo / 1048576) = h := ofNat_field _ _ f5
  have e_a : BitVec.ofNat 4 (wo / 65536) = a := ofNat_field _ _ f6
  have e_m : BitVec.ofNat 3 (wo / 512) = m := ofNat_field _ _ f7
  have e_t : BitVec.ofNat 6 (wo) = t := ofNat_field _ _ f2
  simp [decodeFields, decodeA, decodeA30, *]

theorem RoundTrip.vexp2 (h : BitVec 4) (a : BitVec 4) (m : BitVec 3) (t : BitVec 6) : RoundTrip.Statement (.vexp2 h a m t) := by
  refine RoundTrip.of_fields _ fun l hl => ?_
  have henc : encodeNat (.vexp2 h a m t) = 1879048448 + h.toNat * 1048576 + a.toNat * 65536 + m.toNat * 512 + t.toNat := rfl
  rw [henc]
  have hf := layout_34 _ 1879048448 l h.toNat a.toNat m.toNat t.toNat (by decide) (by decide) (by decide) (by decide) (by decide) h.isLt a.isLt m.isLt t.isLt hl rfl
  generalize 1879048448 + h.toNat * 1048576 + a.toNat * 65536 + m.toNat * 512 + t.toNat + l * 2147483648 = wo at hf ⊢
  obtain ⟨f0, f1, f2, f3, f4, f5, f6, f7⟩ := hf
  have e_h : BitVec.ofNat 4 (wo / 1048576) = h := ofNat_field _ _ f5
  have e_a : BitVec.ofNat 4 (wo / 65536) = a := ofNat_field _ _ f6
  have e_m : BitVec.ofNat 3 (wo / 512) = m := ofNat_field _ _ f7
  have e_t : BitVec.ofNat 6 (wo) = t := ofNat_field _ _ f2
  simp [decodeFields, decodeA, decodeA30, *]

theorem RoundTrip.vlog (h : BitVec 4) (a : BitVec 4) (m : BitVec 3) (t : BitVec 6) : RoundTrip.Statement (.vlog h a m t) := by
  refine RoundTrip.of_fields _ fun l hl => ?_
  have henc : encodeNat (.vlog h a m t) = 1879048512 + h.toNat * 1048576 + a.toNat * 65536 + m.toNat * 512 + t.toNat := rfl
  rw [henc]
  have hf := layout_34 _ 1879048512 l h.toNat a.toNat m.toNat t.toNat (by decide) (by decide) (by decide) (by decide) (by decide) h.isLt a.isLt m.isLt t.isLt hl rfl
  generalize 1879048512 + h.toNat * 1048576 + a.toNat * 65536 + m.toNat * 512 + t.toNat + l * 2147483648 = wo at hf ⊢
  obtain ⟨f0, f1, f2, f3, f4, f5, f6, f7⟩ := hf
  have e_h : BitVec.ofNat 4 (wo / 1048576) = h := ofNat_field _ _ f5
  have e_a : BitVec.ofNat 4 (wo / 65536) = a := ofNat_field _ _ f6
  have e_m : BitVec.ofNat 3 (wo / 512) = m := ofNat_field _ _ f7
  have e_t : BitVec.ofNat 6 (wo) = t := ofNat_field _ _ f2
  simp [decodeFields, decodeA, decodeA30, *]

theorem RoundTrip.vlog2 (h : BitVec 4) (a : BitVec 4) (m : BitVec 3) (t : BitVec 6) : RoundTrip.Statement (.vlog2 h a m t) := by
  refine RoundTrip.of_fields _ fun l hl => ?_
  have henc : encodeNat (.vlog2 h a m t) = 1879048576 + h.toNat * 1048576 + a.toNat * 65536 + m.toNat * 512 + t.toNat := rfl
  rw [henc]
  have hf := layout_34 _ 1879048576 l h.toNat a.toNat m.toNat t.toNat (by decide) (by decide) (by decide) (by decide) (by decide) h.isLt a.isLt m.isLt t.isLt hl rfl
  generalize 1879048576 + h.toNat * 1048576 + a.toNat * 65536 + m.toNat * 512 + t.toNat + l * 2147483648 = wo at hf ⊢
  obtain ⟨f0, f1, f2, f3, f4, f5, f6, f7⟩ := hf
  have e_h : BitVec.ofNat 4 (wo / 1048576) = h := ofNat_field _ _ f5
  have e_a : BitVec.ofNat 4 (wo / 65536) = a := ofNat_field _ _ f6
  have e_m : BitVec.ofNat 3 (wo / 512) = m := ofNat_field _ _ f7
  have e_t : BitVec.ofNat 6 (wo) = t := ofNat_field _ _ f2
  simp [decodeFields, decodeA, decodeA30, *]

theorem RoundTrip.vtanh (h : BitVec 4) (a : BitVec 4) (m : BitVec 3) (t : BitVec 6) : RoundTrip.Statement (.vtanh h a m t) := by
  refine RoundTrip.of_fields _ fun l hl => ?_
  have henc : encodeNat (.vtanh h a m t) = 1879048640 + h.toNat * 1048576 + a.toNat * 65536 + m.toNat * 512 + t.toNat := rfl
  rw [henc]
  have hf := layout_34 _ 1879048640 l h.toNat a.toNat m.toNat t.toNat (by decide) (by decide) (by decide) (by decide) (by decide) h.isLt a.isLt m.isLt t.isLt hl rfl
  generalize 1879048640 + h.toNat * 1048576 + a.toNat * 65536 + m.toNat * 512 + t.toNat + l * 2147483648 = wo at hf ⊢
  obtain ⟨f0, f1, f2, f3, f4, f5, f6, f7⟩ := hf
  have e_h : BitVec.ofNat 4 (wo / 1048576) = h := ofNat_field _ _ f5
  have e_a : BitVec.ofNat 4 (wo / 65536) = a := ofNat_field _ _ f6
  have e_m : BitVec.ofNat 3 (wo / 512) = m := ofNat_field _ _ f7
  have e_t : BitVec.ofNat 6 (wo) = t := ofNat_field _ _ f2
  simp [decodeFields, decodeA, decodeA30, *]

theorem RoundTrip.vshape (h : BitVec 4) (a : BitVec 6) : RoundTrip.Statement (.vshape h a) := by
  refine RoundTrip.of_fields _ fun l hl => ?_
  have henc : encodeNat (.vshape h a) = 1895825408 + h.toNat * 1048576 + a.toNat * 16384 := rfl
  rw [henc]
  have hf := layout_37 _ 1895825408 l h.toNat a.toNat (by decide) (by decide) (by decide) h.isLt a.isLt hl rfl
  generalize 1895825408 + h.toNat * 1048576 + a.toNat * 16384 + l * 2147483648 = wo at hf ⊢
  obtain ⟨f0, f1, f2, f3, f4, f5⟩ := hf
  have e_h : BitVec.ofNat 4 (wo / 1048576) = h := ofNat_field _ _ f4
  have e_a : BitVec.ofNat 6 (wo / 16384) = a := ofNat_field _ _ f5
  simp [decodeFields, decodeA, decodeA31, *]

theorem RoundTrip.vloop (k : BitVec 4) (a : BitVec 6) : RoundTrip.Statement (.vloop k a) := by
  refine RoundTrip.of_fields _ fun l hl => ?_
  have henc : encodeNat (.vloop k a) = 1912602624 + k.toNat * 1048576 + a.toNat * 16384 := rfl
  rw [henc]
  have hf := layout_37 _ 1912602624 l k.toNat a.toNat (by decide) (by decide) (by decide) k.isLt a.isLt hl rfl
  generalize 1912602624 + k.toNat * 1048576 + a.toNat * 16384 + l * 2147483648 = wo at hf ⊢
  obtain ⟨f0, f1, f2, f3, f4, f5⟩ := hf
  have e_k : BitVec.ofNat 4 (wo / 1048576) = k := ofNat_field _ _ f4
  have e_a : BitVec.ofNat 6 (wo / 16384) = a := ofNat_field _ _ f5
  simp [decodeFields, decodeA, decodeA32, *]

theorem RoundTrip.jmp (j : BitVec 24) : RoundTrip.Statement (.jmp j) := by
  refine RoundTrip.of_fields _ fun l hl => ?_
  have henc : encodeNat (.jmp j) = 16777216 + j.toNat := rfl
  rw [henc]
  have hf := layout_1 _ 16777216 l j.toNat (by decide) (by decide) j.isLt hl rfl
  generalize 16777216 + j.toNat + l * 2147483648 = wo at hf ⊢
  obtain ⟨f0, f1, f2⟩ := hf
  have e_j : BitVec.ofNat 24 (wo) = j := ofNat_field _ _ f2
  simp [decodeFields, decodeC, *]

theorem RoundTrip.fence (s : BitVec 3) : RoundTrip.Statement (.fence s) := by
  refine RoundTrip.of_fields _ fun l hl => ?_
  have henc : encodeNat (.fence s) = 318767160 + s.toNat * 64 := rfl
  rw [henc]
  have hf := layout_13 _ 318767160 l s.toNat (by decide) (by decide) s.isLt hl rfl
  generalize 318767160 + s.toNat * 64 + l * 2147483648 = wo at hf ⊢
  obtain ⟨f0, f1, f2, f3, f4, f5⟩ := hf
  have e_s : BitVec.ofNat 3 (wo / 64) = s := ofNat_field _ _ f5
  simp [decodeFields, decodeC, decodeC13, *]

theorem RoundTrip.fclose (a : BitVec 6) : RoundTrip.Statement (.fclose a) := by
  refine RoundTrip.of_fields _ fun l hl => ?_
  have henc : encodeNat (.fclose a) = 553648132 + a.toNat * 4096 := rfl
  rw [henc]
  have hf := layout_3 _ 553648132 l a.toNat (by decide) (by decide) a.isLt hl rfl
  generalize 553648132 + a.toNat * 4096 + l * 2147483648 = wo at hf ⊢
  obtain ⟨f0, f1, f2, f3, f4, f5⟩ := hf
  have e_a : BitVec.ofNat 6 (wo / 4096) = a := ofNat_field _ _ f5
  simp [decodeFields, decodeC, decodeC21, *]

theorem RoundTrip.trap (c : BitVec 18) : RoundTrip.Statement (.trap c) := by
  refine RoundTrip.of_fields _ fun l hl => ?_
  have henc : encodeNat (.trap c) = 838860800 + c.toNat * 64 := rfl
  rw [henc]
  have hf := layout_23 _ 838860800 l c.toNat (by decide) (by decide) c.isLt hl rfl
  generalize 838860800 + c.toNat * 64 + l * 2147483648 = wo at hf ⊢
  obtain ⟨f0, f1, f2, f3⟩ := hf
  have e_c : BitVec.ofNat 18 (wo / 64) = c := ofNat_field _ _ f3
  simp [decodeFields, decodeC, decodeC32, *]

theorem RoundTrip.sysc (c : BitVec 18) : RoundTrip.Statement (.sysc c) := by
  refine RoundTrip.of_fields _ fun l hl => ?_
  have henc : encodeNat (.sysc c) = 838860801 + c.toNat * 64 := rfl
  rw [henc]
  have hf := layout_23 _ 838860801 l c.toNat (by decide) (by decide) c.isLt hl rfl
  generalize 838860801 + c.toNat * 64 + l * 2147483648 = wo at hf ⊢
  obtain ⟨f0, f1, f2, f3⟩ := hf
  have e_c : BitVec.ofNat 18 (wo / 64) = c := ofNat_field _ _ f3
  simp [decodeFields, decodeC, decodeC32, *]

theorem RoundTrip.nop : RoundTrip.Statement (.nop) := by
  refine RoundTrip.of_fields _ fun l hl => ?_
  have henc : encodeNat (.nop) = 100663296 := rfl
  rw [henc]
  have hf := layout_5 _ 100663296 l (by decide) hl rfl
  generalize 100663296 + l * 2147483648 = wo at hf ⊢
  obtain ⟨f0, f1, f2, f3, f4, f5, f6, f7, f8⟩ := hf
  simp [decodeFields, decodeC, decodeC06, *]

theorem RoundTrip.align : RoundTrip.Statement (.align) := by
  refine RoundTrip.of_fields _ fun l hl => ?_
  have henc : encodeNat (.align) = 100663297 := rfl
  rw [henc]
  have hf := layout_5 _ 100663297 l (by decide) hl rfl
  generalize 100663297 + l * 2147483648 = wo at hf ⊢
  obtain ⟨f0, f1, f2, f3, f4, f5, f6, f7, f8⟩ := hf
  simp [decodeFields, decodeC, decodeC06, *]

theorem RoundTrip.susp : RoundTrip.Statement (.susp) := by
  refine RoundTrip.of_fields _ fun l hl => ?_
  have henc : encodeNat (.susp) = 402653188 := rfl
  rw [henc]
  have hf := layout_5 _ 402653188 l (by decide) hl rfl
  generalize 402653188 + l * 2147483648 = wo at hf ⊢
  obtain ⟨f0, f1, f2, f3, f4, f5, f6, f7, f8⟩ := hf
  simp [decodeFields, decodeC, decodeC18, *]

theorem RoundTrip.yield : RoundTrip.Statement (.yield) := by
  refine RoundTrip.of_fields _ fun l hl => ?_
  have henc : encodeNat (.yield) = 402653191 := rfl
  rw [henc]
  have hf := layout_5 _ 402653191 l (by decide) hl rfl
  generalize 402653191 + l * 2147483648 = wo at hf ⊢
  obtain ⟨f0, f1, f2, f3, f4, f5, f6, f7, f8⟩ := hf
  simp [decodeFields, decodeC, decodeC18, *]

theorem RoundTrip.tactRelu : RoundTrip.Statement (.tactRelu) := by
  refine RoundTrip.of_fields _ fun l hl => ?_
  have henc : encodeNat (.tactRelu) = 637534219 := rfl
  rw [henc]
  have hf := layout_5 _ 637534219 l (by decide) hl rfl
  generalize 637534219 + l * 2147483648 = wo at hf ⊢
  obtain ⟨f0, f1, f2, f3, f4, f5, f6, f7, f8⟩ := hf
  simp [decodeFields, decodeC, decodeC26, *]

theorem RoundTrip.tactSqrelu : RoundTrip.Statement (.tactSqrelu) := by
  refine RoundTrip.of_fields _ fun l hl => ?_
  have henc : encodeNat (.tactSqrelu) = 637534235 := rfl
  rw [henc]
  have hf := layout_5 _ 637534235 l (by decide) hl rfl
  generalize 637534235 + l * 2147483648 = wo at hf ⊢
  obtain ⟨f0, f1, f2, f3, f4, f5, f6, f7, f8⟩ := hf
  simp [decodeFields, decodeC, decodeC26, *]

theorem RoundTrip.tactTanh : RoundTrip.Statement (.tactTanh) := by
  refine RoundTrip.of_fields _ fun l hl => ?_
  have henc : encodeNat (.tactTanh) = 637534251 := rfl
  rw [henc]
  have hf := layout_5 _ 637534251 l (by decide) hl rfl
  generalize 637534251 + l * 2147483648 = wo at hf ⊢
  obtain ⟨f0, f1, f2, f3, f4, f5, f6, f7, f8⟩ := hf
  simp [decodeFields, decodeC, decodeC26, *]

theorem RoundTrip.rett : RoundTrip.Statement (.rett) := by
  refine RoundTrip.of_fields _ fun l hl => ?_
  have henc : encodeNat (.rett) = 855638016 := rfl
  rw [henc]
  have hf := layout_5 _ 855638016 l (by decide) hl rfl
  generalize 855638016 + l * 2147483648 = wo at hf ⊢
  obtain ⟨f0, f1, f2, f3, f4, f5, f6, f7, f8⟩ := hf
  simp [decodeFields, decodeC, decodeC33, *]

theorem RoundTrip.halt : RoundTrip.Statement (.halt) := by
  refine RoundTrip.of_fields _ fun l hl => ?_
  have henc : encodeNat (.halt) = 855638017 := rfl
  rw [henc]
  have hf := layout_5 _ 855638017 l (by decide) hl rfl
  generalize 855638017 + l * 2147483648 = wo at hf ⊢
  obtain ⟨f0, f1, f2, f3, f4, f5, f6, f7, f8⟩ := hf
  simp [decodeFields, decodeC, decodeC33, *]

theorem RoundTrip.vsync : RoundTrip.Statement (.vsync) := by
  refine RoundTrip.of_fields _ fun l hl => ?_
  have henc : encodeNat (.vsync) = 1929379840 := rfl
  rw [henc]
  have hf := layout_5 _ 1929379840 l (by decide) hl rfl
  generalize 1929379840 + l * 2147483648 = wo at hf ⊢
  obtain ⟨f0, f1, f2, f3, f4, f5, f6, f7, f8⟩ := hf
  simp [decodeFields, decodeA, decodeA33, *]

theorem RoundTrip.vtbl : RoundTrip.Statement (.vtbl) := by
  refine RoundTrip.of_fields _ fun l hl => ?_
  have henc : encodeNat (.vtbl) = 1946157056 := rfl
  rw [henc]
  have hf := layout_5 _ 1946157056 l (by decide) hl rfl
  generalize 1946157056 + l * 2147483648 = wo at hf ⊢
  obtain ⟨f0, f1, f2, f3, f4, f5, f6, f7, f8⟩ := hf
  simp [decodeFields, decodeA, decodeA34, *]

theorem RoundTrip.pushCopyInstall (core : Nat) (ctx : Nat) (busy : Bool) : RoundTrip.Statement (.pushCopyInstall core ctx busy) := RoundTrip.of_event _ rfl
theorem RoundTrip.copyUnitDelivery (sq : Nat) (ch : Nat) : RoundTrip.Statement (.copyUnitDelivery sq ch) := RoundTrip.of_event _ rfl
theorem RoundTrip.gatherElementDelivery (sq : Nat) (ch : Nat) : RoundTrip.Statement (.gatherElementDelivery sq ch) := RoundTrip.of_event _ rfl
theorem RoundTrip.scatterElementWrite (sq : Nat) (ch : Nat) : RoundTrip.Statement (.scatterElementWrite sq ch) := RoundTrip.of_event _ rfl
theorem RoundTrip.migrationShip (sq : Nat) (core : Nat) : RoundTrip.Statement (.migrationShip sq core) := RoundTrip.of_event _ rfl
theorem RoundTrip.reuseCountHalving (sq : Nat) : RoundTrip.Statement (.reuseCountHalving sq) := RoundTrip.of_event _ rfl
theorem RoundTrip.fillExecute (sq : Nat) (core : Nat) (idx : Nat) : RoundTrip.Statement (.fillExecute sq core idx) := RoundTrip.of_event _ rfl
theorem RoundTrip.tileOpcodeStart (sq : Nat) : RoundTrip.Statement (.tileOpcodeStart sq) := RoundTrip.of_event _ rfl
theorem RoundTrip.tileOpcodeComplete (sq : Nat) : RoundTrip.Statement (.tileOpcodeComplete sq) := RoundTrip.of_event _ rfl
theorem RoundTrip.mrevExecute (sq : Nat) (core : Nat) : RoundTrip.Statement (.mrevExecute sq core) := RoundTrip.of_event _ rfl
theorem RoundTrip.kopenExecute (sq : Nat) (sc : Nat) : RoundTrip.Statement (.kopenExecute sq sc) := RoundTrip.of_event _ rfl
theorem RoundTrip.kcloseExecute (sq : Nat) (sc : Nat) : RoundTrip.Statement (.kcloseExecute sq sc) := RoundTrip.of_event _ rfl
theorem RoundTrip.kappExecute (sq : Nat) (sc : Nat) : RoundTrip.Statement (.kappExecute sq sc) := RoundTrip.of_event _ rfl
theorem RoundTrip.pageAllocate (sq : Nat) (sc : Nat) : RoundTrip.Statement (.pageAllocate sq sc) := RoundTrip.of_event _ rfl
theorem RoundTrip.kaccExecute (sq : Nat) (sc : Nat) : RoundTrip.Statement (.kaccExecute sq sc) := RoundTrip.of_event _ rfl
theorem RoundTrip.krejExecute (sq : Nat) (sc : Nat) : RoundTrip.Statement (.krejExecute sq sc) := RoundTrip.of_event _ rfl
theorem RoundTrip.kpbExecute (sq : Nat) (sc : Nat) : RoundTrip.Statement (.kpbExecute sq sc) := RoundTrip.of_event _ rfl
theorem RoundTrip.ksplExecute (sq : Nat) (sc : Nat) : RoundTrip.Statement (.ksplExecute sq sc) := RoundTrip.of_event _ rfl
theorem RoundTrip.kforkExecute (sq : Nat) (sc : Nat) : RoundTrip.Statement (.kforkExecute sq sc) := RoundTrip.of_event _ rfl
theorem RoundTrip.kloadExecute (sq : Nat) (sc : Nat) : RoundTrip.Statement (.kloadExecute sq sc) := RoundTrip.of_event _ rfl
theorem RoundTrip.kvalExecute (sq : Nat) (sc : Nat) : RoundTrip.Statement (.kvalExecute sq sc) := RoundTrip.of_event _ rfl
theorem RoundTrip.kmargExecute (sq : Nat) (sc : Nat) : RoundTrip.Statement (.kmargExecute sq sc) := RoundTrip.of_event _ rfl
theorem RoundTrip.ktentExecute (sq : Nat) (sc : Nat) : RoundTrip.Statement (.ktentExecute sq sc) := RoundTrip.of_event _ rfl
theorem RoundTrip.kdroptExecute (sq : Nat) (sc : Nat) : RoundTrip.Statement (.kdroptExecute sq sc) := RoundTrip.of_event _ rfl
theorem RoundTrip.ccommExecute (sq : Nat) (cm : Nat) : RoundTrip.Statement (.ccommExecute sq cm) := RoundTrip.of_event _ rfl
theorem RoundTrip.cttExecute (sq : Nat) (cm : Nat) : RoundTrip.Statement (.cttExecute sq cm) := RoundTrip.of_event _ rfl
theorem RoundTrip.postStart (sq : Nat) (cm : Nat) : RoundTrip.Statement (.postStart sq cm) := RoundTrip.of_event _ rfl
theorem RoundTrip.chunkSend (sq : Nat) : RoundTrip.Statement (.chunkSend sq) := RoundTrip.of_event _ rfl
theorem RoundTrip.chunkArrival (sq : Nat) (cm : Nat) : RoundTrip.Statement (.chunkArrival sq cm) := RoundTrip.of_event _ rfl
theorem RoundTrip.connectArrival (sq : Nat) (cm : Nat) : RoundTrip.Statement (.connectArrival sq cm) := RoundTrip.of_event _ rfl
theorem RoundTrip.freedReport (sq : Nat) (cm : Nat) : RoundTrip.Statement (.freedReport sq cm) := RoundTrip.of_event _ rfl
theorem RoundTrip.barrierTokenArrival (sq : Nat) (cm : Nat) : RoundTrip.Statement (.barrierTokenArrival sq cm) := RoundTrip.of_event _ rfl
theorem RoundTrip.disconnectArrival (sq : Nat) (cm : Nat) : RoundTrip.Statement (.disconnectArrival sq cm) := RoundTrip.of_event _ rfl
theorem RoundTrip.postComplete (sq : Nat) (cm : Nat) : RoundTrip.Statement (.postComplete sq cm) := RoundTrip.of_event _ rfl
theorem RoundTrip.tileEntryFire (sq : Nat) (ent : Nat) : RoundTrip.Statement (.tileEntryFire sq ent) := RoundTrip.of_event _ rfl
theorem RoundTrip.firingComplete (sq : Nat) (ent : Nat) : RoundTrip.Statement (.firingComplete sq ent) := RoundTrip.of_event _ rfl
theorem RoundTrip.ccloseExecute (sq : Nat) (cm : Nat) : RoundTrip.Statement (.ccloseExecute sq cm) := RoundTrip.of_event _ rfl
theorem RoundTrip.collectiveEventDelivery (core : Nat) : RoundTrip.Statement (.collectiveEventDelivery core) := RoundTrip.of_event _ rfl
theorem RoundTrip.kpreqSet (core : Nat) (ctx : Nat) : RoundTrip.Statement (.kpreqSet core ctx) := RoundTrip.of_event _ rfl
theorem RoundTrip.kpreqClear (core : Nat) (ctx : Nat) : RoundTrip.Statement (.kpreqClear core ctx) := RoundTrip.of_event _ rfl
theorem RoundTrip.preemptStop (core : Nat) (ctx : Nat) : RoundTrip.Statement (.preemptStop core ctx) := RoundTrip.of_event _ rfl
theorem RoundTrip.sleepDeadline (core : Nat) (ctx : Nat) : RoundTrip.Statement (.sleepDeadline core ctx) := RoundTrip.of_event _ rfl
theorem RoundTrip.repartSwitch (core : Nat) : RoundTrip.Statement (.repartSwitch core) := RoundTrip.of_event _ rfl
theorem RoundTrip.vectorEntryBegin (core : Nat) : RoundTrip.Statement (.vectorEntryBegin core) := RoundTrip.of_event _ rfl
theorem RoundTrip.vectorEntryComplete (core : Nat) : RoundTrip.Statement (.vectorEntryComplete core) := RoundTrip.of_event _ rfl
theorem RoundTrip.dispatchTask (core : Nat) (ctx : Nat) : RoundTrip.Statement (.dispatchTask core ctx) := RoundTrip.of_event _ rfl
theorem RoundTrip.dispatchContinuation (core : Nat) (ctx : Nat) : RoundTrip.Statement (.dispatchContinuation core ctx) := RoundTrip.of_event _ rfl
theorem RoundTrip.stealRequest (core : Nat) (ctx : Nat) : RoundTrip.Statement (.stealRequest core ctx) := RoundTrip.of_event _ rfl
theorem RoundTrip.budgetPeriodStart (dom : Nat) (res : Nat) (inst : Nat) : RoundTrip.Statement (.budgetPeriodStart dom res inst) := RoundTrip.of_event _ rfl
theorem RoundTrip.wakeMessage (core : Nat) (ctx : Nat) (page : Nat) : RoundTrip.Statement (.wakeMessage core ctx page) := RoundTrip.of_event _ rfl
theorem RoundTrip.poolBlockFree (core : Nat) : RoundTrip.Statement (.poolBlockFree core) := RoundTrip.of_event _ rfl
theorem RoundTrip.packetHeaderAccept (core : Nat) (ctx : Nat) : RoundTrip.Statement (.packetHeaderAccept core ctx) := RoundTrip.of_event _ rfl
theorem RoundTrip.portUnitArrival (core : Nat) (ctx : Nat) (port : Nat) : RoundTrip.Statement (.portUnitArrival core ctx port) := RoundTrip.of_event _ rfl
theorem RoundTrip.faultRingRetry (dom : Nat) : RoundTrip.Statement (.faultRingRetry dom) := RoundTrip.of_event _ rfl
theorem RoundTrip.homeRecall (core : Nat) (ctx : Nat) : RoundTrip.Statement (.homeRecall core ctx) := RoundTrip.of_event _ rfl
theorem RoundTrip.migrationStart (district : Nat) : RoundTrip.Statement (.migrationStart district) := RoundTrip.of_event _ rfl
theorem RoundTrip.migrationLineCopy (district : Nat) : RoundTrip.Statement (.migrationLineCopy district) := RoundTrip.of_event _ rfl
theorem RoundTrip.migrationFinish (district : Nat) : RoundTrip.Statement (.migrationFinish district) := RoundTrip.of_event _ rfl
theorem RoundTrip.heatPeriodHalving : RoundTrip.Statement (.heatPeriodHalving) := RoundTrip.of_event _ rfl
theorem RoundTrip.scrubPass (line : Nat) (bad : Bool) : RoundTrip.Statement (.scrubPass line bad) := RoundTrip.of_event _ rfl
theorem RoundTrip.powerUp (listOk : Bool) : RoundTrip.Statement (.powerUp listOk) := RoundTrip.of_event _ rfl
theorem RoundTrip.partReady (part : Nat) : RoundTrip.Statement (.partReady part) := RoundTrip.of_event _ rfl
theorem RoundTrip.partOutOfService (part : Nat) : RoundTrip.Statement (.partOutOfService part) := RoundTrip.of_event _ rfl
theorem RoundTrip.linkPortFailure (port : Nat) : RoundTrip.Statement (.linkPortFailure port) := RoundTrip.of_event _ rfl
theorem RoundTrip.flitCrcRetry (port : Nat) : RoundTrip.Statement (.flitCrcRetry port) := RoundTrip.of_event _ rfl
theorem RoundTrip.packageReset : RoundTrip.Statement (.packageReset) := RoundTrip.of_event _ rfl
theorem RoundTrip.functionLevelReset (fn : Nat) : RoundTrip.Statement (.functionLevelReset fn) := RoundTrip.of_event _ rfl
theorem RoundTrip.firmwareUpdate (image : Nat) : RoundTrip.Statement (.firmwareUpdate image) := RoundTrip.of_event _ rfl
theorem RoundTrip.attestationRequest (idx : Nat) : RoundTrip.Statement (.attestationRequest idx) := RoundTrip.of_event _ rfl
theorem RoundTrip.clockStep (up : Bool) : RoundTrip.Statement (.clockStep up) := RoundTrip.of_event _ rfl
theorem RoundTrip.lrtail (fn : Nat) (tail : BitVec 64) : RoundTrip.Statement (.lrtail fn tail) := RoundTrip.of_event _ rfl
theorem RoundTrip.launchRingEntry (fn : Nat) : RoundTrip.Statement (.launchRingEntry fn) := RoundTrip.of_event _ rfl
theorem RoundTrip.barRegisterWrite (fn : Nat) (off : Nat) (v : BitVec 64) : RoundTrip.Statement (.barRegisterWrite fn off v) := RoundTrip.of_event _ rfl
theorem RoundTrip.memoryReply (core : Nat) (ctx : Nat) : RoundTrip.Statement (.memoryReply core ctx) := RoundTrip.of_event _ rfl
theorem RoundTrip.hostMemoryAccess (wr : Bool) (addr : BitVec 64) (data : List (BitVec 8)) : RoundTrip.Statement (.hostMemoryAccess wr addr data) := RoundTrip.of_event _ rfl
theorem RoundTrip.corePowerGating (core : Nat) : RoundTrip.Statement (.corePowerGating core) := RoundTrip.of_event _ rfl

end Sys2Proof.Laws
end

