-- ==== Sys2Proof/Safety.lean ====
section
/-! DEFINITION. What counts as a safe run, and the words in which claims speak: the invariants of the package's state,
how an instruction ends, and the results of the scalar instructions as the spec's tables give them. -/
namespace Sys2Proof.Safety
open Sys2Proof.Machine

/-! ### Invariants -/

/-- Every memory of the package is in canonical form: the frames and the local memory of every core. -/
def MemOk (s : State) : Prop :=
  Memory.wf s.mem = true ∧ ∀ c, Memory.wf (s.coreAt c).mem = true

/-- No stash holds data of a line that the line's frame does not hold, or has yet to give it back (10 R272). -/
def Settled (s : State) : Prop :=
  (∀ p ∈ s.cores, ∀ e ∈ p.2.stash, e.d = false) ∧ ∀ w ∈ s.hw, ∀ l, w.backOf l = none

/-- What byte `x` of memory holds in `u` is what a written stash entry of `s`, or a write-back that `s` still has to make,
holds for its line: the home tile recalls such a line before it is accessed (10 R272). -/
def GivenBack (s u : State) (x : Nat) : Prop :=
  (∃ p ∈ s.cores, ∃ e ∈ p.2.stash, e.d = true ∧ (s.coreAt p.1).entryRead e (x % 128) 1 = [memGet u.mem x]) ∨
  ∃ w ∈ s.hw, ∃ l b bad i, w = .back l b bad ∧ i % 128 = x % 128 ∧ b[i]? = some (memGet u.mem x)

/-- Byte `x` of memory is in `u` what it is in `s`, or has been given back. -/
def KeepsByte (s u : State) (x : Nat) : Prop := memGet u.mem x = memGet s.mem x ∨ GivenBack s u x

/-- A run is safe while no step ends in a fault or a refusal. -/
def Goes (s : State) : Prop := ∃ t, step s = .next t

/-! ### How an instruction ends -/

/-- The instruction has its own effect: it answers the state `t`. -/
def Completes (i : Instr) (s t : State) : Prop := exec i s = .next { t with last := .done }

/-- The instruction stops in one of the ways of 02 R50 and has no other effect. -/
def StopsWith (i : Instr) (s : State) (st : Stop) : Prop := exec i s = .next { stopState s st with last := .stopped st }

/-- The instruction stops in one of the ways of 02 R50, after accesses that the home tiles and its core's PLB keep (log 71). -/
def StopsAfter (i : Instr) (s : State) (st : Stop) : Prop :=
  ∃ l, exec i s = .next { stopState (s.seeing l) st with last := .stopped st }

/-- The instruction takes a trap with a cause and its information. -/
def Traps (i : Instr) (s : State) (cause : Nat) (info : Word) : Prop := StopsWith i s (.trap cause info)

/-- The instruction takes a trap after accesses (log 71). -/
def TrapsAfter (i : Instr) (s : State) (cause : Nat) (info : Word) : Prop := StopsAfter i s (.trap cause info)

/-! ### Results of the integer instructions (08 R186 to R189), from the spec's tables -/

/-- The register forms with two sources, and what each computes. -/
def regForms : List ((BitVec 6 → BitVec 6 → BitVec 6 → BitVec 1 → Instr) × (Word → Word → Word)) := [
  (.add, fun x y => x + y),
  (.sub, fun x y => x - y),
  (.mul, fun x y => x * y),
  (.mulh, fun x y => BitVec.ofInt 64 (x.toInt * y.toInt / 18446744073709551616)),
  (.mulhn, fun x y => BitVec.ofNat 64 (x.toNat * y.toNat / 18446744073709551616)),
  (.and, fun x y => x &&& y),
  (.or, fun x y => x ||| y),
  (.xor, fun x y => x ^^^ y),
  (.andn, fun x y => x &&& ~~~y),
  (.shl, fun x y => x <<< (y.toNat % 64)),
  (.shr, fun x y => x >>> (y.toNat % 64)),
  (.sra, fun x y => x.sshiftRight (y.toNat % 64)),
  (.rot, fun x y => x >>> (y.toNat % 64) ||| x <<< (64 - y.toNat % 64)),
  (.min, fun x y => if x.toInt ≤ y.toInt then x else y),
  (.max, fun x y => if x.toInt ≤ y.toInt then y else x),
  (.minn, fun x y => if x.toNat ≤ y.toNat then x else y),
  (.maxn, fun x y => if x.toNat ≤ y.toNat then y else x)]

/-- The four division forms, and R187's results on the borderline inputs. -/
def divForms : List ((BitVec 6 → BitVec 6 → BitVec 6 → BitVec 1 → Instr) × (Word → Word → Word)) := [
  (.div, fun x y => if y = 0 then 0xFFFFFFFFFFFFFFFF
    else if x = 0x8000000000000000 ∧ y = 0xFFFFFFFFFFFFFFFF then 0x8000000000000000
    else BitVec.ofInt 64 (Int.tdiv x.toInt y.toInt)),
  (.divn, fun x y => if y = 0 then 0xFFFFFFFFFFFFFFFF else BitVec.ofNat 64 (x.toNat / y.toNat)),
  (.rem, fun x y => if y = 0 then x
    else if x = 0x8000000000000000 ∧ y = 0xFFFFFFFFFFFFFFFF then 0
    else BitVec.ofInt 64 (x.toInt - y.toInt * Int.tdiv x.toInt y.toInt)),
  (.remn, fun x y => if y = 0 then x else BitVec.ofNat 64 (x.toNat % y.toNat))]

/-- The unary forms, and what their result `r` is of `x`. -/
def unaryForms : List ((BitVec 6 → BitVec 6 → BitVec 1 → Instr) × (Word → Word → Prop)) := [
  (.clz, fun x r => r.toNat ≤ 64 ∧ (∀ k, 64 - r.toNat ≤ k → x.getLsbD k = false) ∧
    (r.toNat < 64 → x.getLsbD (63 - r.toNat) = true)),
  (.ctz, fun x r => r.toNat ≤ 64 ∧ (∀ k, k < r.toNat → x.getLsbD k = false) ∧ (r.toNat < 64 → x.getLsbD r.toNat = true)),
  (.popc, fun x r => r.toNat = ((List.range 64).filter (fun k => x.getLsbD k)).length),
  (.bswap, fun x r => ∀ k, k < 8 → r.toNat / 256 ^ k % 256 = x.toNat / 256 ^ (7 - k) % 256)]

/-- The immediate forms whose immediate is 12 bits and sign-extended. -/
def imm12Forms : List ((BitVec 6 → BitVec 6 → BitVec 12 → Instr) × (Word → Word → Word)) := [
  (.addImm, fun x y => x + y),
  (.mulImm, fun x y => x * y),
  (.andImm, fun x y => x &&& y),
  (.orImm, fun x y => x ||| y),
  (.xorImm, fun x y => x ^^^ y)]

/-- The immediate forms whose immediate is 10 bits, with its extension: signed for MIN and MAX, zero for MINN and
MAXN. -/
def imm10Forms : List ((BitVec 6 → BitVec 6 → BitVec 10 → Instr) × (BitVec 10 → Word) × (Word → Word → Word)) := [
  (.minImm, fun i => i.signExtend 64, fun x y => if x.toInt ≤ y.toInt then x else y),
  (.maxImm, fun i => i.signExtend 64, fun x y => if x.toInt ≤ y.toInt then y else x),
  (.minnImm, fun i => i.setWidth 64, fun x y => if x.toNat ≤ y.toNat then x else y),
  (.maxnImm, fun i => i.setWidth 64, fun x y => if x.toNat ≤ y.toNat then y else x)]

/-- The shifts by an amount in the word. -/
def shiftForms : List ((BitVec 6 → BitVec 6 → BitVec 6 → Instr) × (Word → Nat → Word)) := [
  (.shlImm, fun x n => x <<< n),
  (.shrImm, fun x n => x >>> n),
  (.sraImm, fun x n => x.sshiftRight n),
  (.rotImm, fun x n => x >>> n ||| x <<< (64 - n))]

/-- The conditions of CMP by their code (03 R72). -/
def cmpHolds (c : Nat) (x y : Word) : Bool :=
  match c with
  | 0 => decide (x = y)
  | 1 => decide (x ≠ y)
  | 2 => decide (x.toInt < y.toInt)
  | 3 => decide (y.toInt ≤ x.toInt)
  | 4 => decide (x.toInt ≤ y.toInt)
  | 5 => decide (y.toInt < x.toInt)
  | 6 => decide (x.toNat < y.toNat)
  | 7 => decide (y.toNat ≤ x.toNat)
  | 8 => decide (x.toNat ≤ y.toNat)
  | _ => decide (y.toNat < x.toNat)

/-- The conditions of BR by their code (03 R67). -/
def brHolds (c : Nat) (x : Word) : Bool :=
  match c with
  | 0 => decide (x = 0)
  | 1 => decide (x ≠ 0)
  | 2 => decide (x.toInt < 0)
  | 3 => decide (0 ≤ x.toInt)
  | 4 => decide (0 < x.toInt)
  | _ => decide (x.toInt ≤ 0)

/-! ### The words of the matrix engine (14 R335 to R339) -/

/-- A tile opcode's word: the instruction, the opcode and the entry that its end sets ready. -/
structure TileWord where
  insn : Instr
  op : TileOp
  rdy : Option Nat

/-- Every tile opcode's words with fields `a` and `b`, and with entry `t` where it has `.rdy`. -/
def tileWords (t : BitVec 8) (a b : BitVec 6) : List TileWord := [
  ⟨.tmma a b, .mma, none⟩, ⟨.tmmaRdy t a b, .mma, some t.toNat⟩, ⟨.tmmt a b, .mmt, none⟩,
  ⟨.tmmtRdy t a b, .mmt, some t.toNat⟩, ⟨.ttmm a b, .tmm, none⟩, ⟨.ttmmRdy t a b, .tmm, some t.toNat⟩,
  ⟨.tadd a, .add, none⟩, ⟨.taddRdy t a, .add, some t.toNat⟩, ⟨.tmul a, .mul, none⟩, ⟨.tmulRdy t a, .mul, some t.toNat⟩,
  ⟨.tsclMul a, .sclMul, none⟩, ⟨.tsclMulRdy t a, .sclMul, some t.toNat⟩, ⟨.tsclSet a, .sclSet, none⟩,
  ⟨.tsclSetRdy t a, .sclSet, some t.toNat⟩, ⟨.texp a, .exp, none⟩, ⟨.texpRdy t a, .exp, some t.toNat⟩,
  ⟨.trmax a, .rmax, none⟩, ⟨.trsum a, .rsum, none⟩, ⟨.tcvt a, .cvt, none⟩, ⟨.ttrn a b, .trn, none⟩,
  ⟨.tactRelu, .relu, none⟩, ⟨.tactReluRdy t, .relu, some t.toNat⟩, ⟨.tactSqrelu, .sqrelu, none⟩,
  ⟨.tactSqreluRdy t, .sqrelu, some t.toNat⟩, ⟨.tactTanh, .tanh, none⟩, ⟨.tactTanhRdy t, .tanh, some t.toNat⟩]

/-! ### Hardware steps (spec/95) -/

/-- The part that a hardware step acts on exists (01 R3, R9, 06 R160, 20 R428). -/
def partExists : Instr → Bool
  | .pushCopyInstall c x _ | .kpreqSet c x | .kpreqClear c x | .preemptStop c x | .sleepDeadline c x | .dispatchTask c x
  | .dispatchContinuation c x | .stealRequest c x | .wakeMessage c x _ | .packetHeaderAccept c x | .homeRecall c x
  | .memoryReply c x => decide (c < 1024 ∧ x < 16)
  | .portUnitArrival c x p => decide (c < 1024 ∧ x < 16 ∧ p < 2)
  | .vectorEntryBegin c | .vectorEntryComplete c | .repartSwitch c | .poolBlockFree c | .collectiveEventDelivery c
  | .corePowerGating c => decide (c < 1024)
  | .copyUnitDelivery q n | .gatherElementDelivery q n | .scatterElementWrite q n | .ccommExecute q n | .cttExecute q n
  | .postStart q n | .chunkArrival q n | .connectArrival q n | .freedReport q n | .barrierTokenArrival q n
  | .disconnectArrival q n | .postComplete q n | .ccloseExecute q n => decide (q < 128 ∧ n < 16)
  | .migrationShip q c | .fillExecute q c _ | .mrevExecute q c => decide (q < 128 ∧ c < 8)
  | .reuseCountHalving q | .tileOpcodeStart q | .tileOpcodeComplete q | .chunkSend q => decide (q < 128)
  | .kopenExecute q n | .kcloseExecute q n | .kappExecute q n | .pageAllocate q n | .kaccExecute q n | .krejExecute q n
  | .kpbExecute q n | .ksplExecute q n | .kforkExecute q n | .kloadExecute q n | .kvalExecute q n | .kmargExecute q n
  | .ktentExecute q n | .kdroptExecute q n => decide (q < 128 ∧ n < 64)
  | .tileEntryFire q n | .firingComplete q n => decide (q < 128 ∧ n < 256)
  | .budgetPeriodStart d r n => decide (d < 65536 ∧ n < budgetInstances r)
  | .faultRingRetry d | .functionLevelReset d | .lrtail d _ | .launchRingEntry d => decide (d < 256)
  | .barRegisterWrite d o _ => decide (d < 256 ∧ o < 4096 ∧ o % 8 = 0)
  | .migrationStart n | .migrationLineCopy n | .migrationFinish n => decide (n < 4)
  | .scrubPass l _ => (scrubPlace l).isSome
  | .partReady n | .partOutOfService n => decide (n < 33 ∨ (64 ≤ n ∧ n < 192))
  | .linkPortFailure n | .flitCrcRetry n => decide (n < 16)
  | _ => true

/-- A step of the context engine: its square, its sequence context and the kind of command that it executes (15 R364 to
R376). -/
def contextStep : Instr → Option (Nat × Nat × (Instr → Bool))
  | .kopenExecute q n => some (q, n, fun i => match i with | .kopen .. => true | _ => false)
  | .kcloseExecute q n => some (q, n, fun i => match i with | .kclose .. => true | _ => false)
  | .kappExecute q n => some (q, n, fun i => match i with | .kapp .. => true | _ => false)
  | .kaccExecute q n => some (q, n, fun i => match i with | .kacc .. => true | _ => false)
  | .krejExecute q n => some (q, n, fun i => match i with | .krej .. => true | _ => false)
  | .kpbExecute q n => some (q, n, fun i => match i with | .kpb .. => true | _ => false)
  | .ksplExecute q n => some (q, n, fun i => match i with | .kspl .. => true | _ => false)
  | .kforkExecute q n => some (q, n, fun i => match i with | .kfork .. => true | _ => false)
  | .kloadExecute q n => some (q, n, fun i => match i with | .kload .. => true | _ => false)
  | .kvalExecute q n => some (q, n, fun i => match i with | .kval .. => true | _ => false)
  | .kmargExecute q n => some (q, n, fun i => match i with | .kmarg .. => true | _ => false)
  | .ktentExecute q n => some (q, n, fun i => match i with | .ktent .. => true | _ => false)
  | .kdroptExecute q n => some (q, n, fun i => match i with | .kdropt .. => true | _ => false)
  | _ => none

/-! ### What words leave as it was -/

/-- The words whose only effect is on registers, ports, flags and the program counter, with the field they write. -/
def regWord : Instr → Option (Option (BitVec 6))
  | .add d _ _ _ | .sub d _ _ _ | .mul d _ _ _ | .mulh d _ _ _ | .mulhn d _ _ _ | .div d _ _ _ | .divn d _ _ _
  | .rem d _ _ _ | .remn d _ _ _ | .and d _ _ _ | .or d _ _ _ | .xor d _ _ _ | .andn d _ _ _ | .shl d _ _ _
  | .shr d _ _ _ | .sra d _ _ _ | .rot d _ _ _ | .min d _ _ _ | .max d _ _ _ | .minn d _ _ _ | .maxn d _ _ _
  | .sel d _ _ _ => some (some d)
  | .clz d _ _ | .ctz d _ _ | .popc d _ _ | .bswap d _ _ => some (some d)
  | .cmp d _ _ _ | .addImm d _ _ | .mulImm d _ _ | .andImm d _ _ | .orImm d _ _ | .xorImm d _ _ | .minImm d _ _
  | .maxImm d _ _ | .minnImm d _ _ | .maxnImm d _ _ | .shlImm d _ _ | .shrImm d _ _ | .sraImm d _ _ | .rotImm d _ _
  | .bfx d _ _ _ | .bfi d _ _ _ | .cmpImm d _ _ _ | .lim d _ | .lih d _ => some (some d)
  | .fadd d _ _ _ | .fsub d _ _ _ | .fmul d _ _ _ | .ffma d _ _ _ | .fmin d _ _ | .fmax d _ _ | .fcmp d _ _ _
  | .fcvt d _ _ _ _ => some (some d)
  | .jr d _ | .loop d _ => some (some d)
  | .call _ => some (some 27)
  | .br _ _ _ | .jmp _ | .nop | .align => some none
  | _ => none

/-- The words of `regWord` that take flags (08 R193). -/
def takesFlags : Instr → Bool
  | .fadd .. | .fsub .. | .fmul .. | .ffma .. | .fmin .. | .fmax .. | .fcmp .. | .fcvt .. => true
  | _ => false

/-- The words that store a value at an address: the address, the size, and the state in which the access is made, after
the fields are read and a release is done. -/
def storeWord (i : Instr) (s : State) : Option (Nat × Nat × State) :=
  match i with
  | .stD d a o => match readTwo a d s with
    | .ok (x, _, t) => some ((x + o.signExtend 64).toNat, 8, t)
    | .error _ => none
  | .st d a z o => match readTwo a d s with
    | .ok (x, _, t) => some ((x + o.signExtend 64).toNat, 2 ^ (z.toNat % 4), t)
    | .error _ => none
  | .stb d a w => match readTwo a d s with
    | .ok (x, _, t) => some ((localAddr (bitSpan x.toNat (w.toNat + 1)).1).toNat, (bitSpan x.toNat (w.toNat + 1)).2, t)
    | .error _ => none
  | .rel d a z _ o => match readTwo a d s with
    | .ok (x, _, t) => match release t with
      | .ok r => some ((x + BitVec.ofNat 64 ((if z = 1 then 8 else 4) * o.toNat)).toNat, if z = 1 then 8 else 4, r)
      | .error _ => none
    | .error _ => none
  | .stp d a b z o | .stpm d a b z o => match readThree a b d s with
    | .ok (x, _, _, t) => some ((x + BitVec.ofNat 64 (8 * o.toNat)).toNat, if z = 1 then 8 else 4, t)
    | .error _ => none
  | .aadd z _ a _ _ o | .amin z _ a _ _ o | .amax z _ a _ _ o | .aand z _ a _ _ o | .aor z _ a _ _ o | .axor z _ a _ _ o
  | .aswp z _ a _ _ o | .acas z _ a _ _ o => match release s with
    | .ok r => some ((s.genReg (reg5 a) + BitVec.ofNat 64 (8 * o.toNat)).toNat, if z = 1 then 8 else 4, r)
    | .error _ => none
  | .afadd _ a _ _ o => match release s with
    | .ok r => some ((s.genReg (reg5 a) + BitVec.ofNat 64 (8 * o.toNat)).toNat, 4, r)
    | .error _ => none
  | _ => none

/-- A storing word is an atomic, and the field that takes the old value. -/
def atomicDest : Instr → Option Nat
  | .aadd _ d .. | .amin _ d .. | .amax _ d .. | .aand _ d .. | .aor _ d .. | .axor _ d .. | .aswp _ d ..
  | .acas _ d .. => some (reg5 d)
  | .afadd d .. => some (reg5 d)
  | _ => none

/-- The words that load, with the field they write. -/
def loadWord : Instr → Option (BitVec 6)
  | .ldD d _ _ | .ldfW d _ _ => some d
  | .ld d _ _ _ | .ldb d _ _ _ => some d
  | .acq d _ _ _ _ => some d
  | _ => none

/-- The words that append a command to an engine's queue, with the general register they write; MIGR, which makes its
continuation leave, is not among them (01 R10, 10 R264, R276, 14 R326, R335, R347, 15 R365 to R376, 17 R392 to R419). -/
def appendWord : Instr → Option (Option (BitVec 6))
  | .copy d _ _ | .gath d _ _ | .scat d _ _ => some (some d)
  | .mlda .. | .mldaRg .. | .mldaSt .. | .mldaAv .. | .mldb .. | .mldbRg .. | .mldbSt .. | .mldbAv .. | .mrev .. => some none
  | .tmma .. | .tmmaRdy .. | .tmmt .. | .tmmtRdy .. | .ttmm .. | .ttmmRdy .. | .tadd .. | .taddRdy .. | .tmul ..
  | .tmulRdy .. | .tsclMul .. | .tsclMulRdy .. | .tsclSet .. | .tsclSetRdy .. | .texp .. | .texpRdy .. | .trmax ..
  | .trsum .. | .tcvt .. | .ttrn .. | .tactRelu | .tactReluRdy .. | .tactSqrelu | .tactSqreluRdy .. | .tactTanh
  | .tactTanhRdy .. => some none
  | .kopen .. | .kclose .. | .kapp .. | .kacc .. | .krej .. | .kpb .. | .kspl .. | .kfork .. | .kload .. | .kval ..
  | .kmarg .. | .ktent .. | .kdropt .. => some none
  | .ccomm .. | .ctt .. | .cpost .. | .cbar .. | .cclose .. => some none
  | _ => none

/-- A byte of local memory that no block of a core's chains holds, before or after (01 R7 to R9). -/
def outsideChains (k l : Core) (a : Nat) : Prop :=
  ∀ e, ∀ b ∈ sget [] k.chains e ++ sget [] l.chains e, a < 1024 * b.blk ∨ 1024 * b.blk + 1024 ≤ a

/-- A byte of the executing core's local memory that no stash entry holds. -/
def outsideStash (s : State) (a : Nat) : Prop :=
  ∀ e ∈ s.core.stash, a < s.core.stashOff e ∨ s.core.stashOff e + 128 ≤ a

end Sys2Proof.Safety
end

