-- ==== Sys2Proof/Certificates/Slice0/Obligations.lean ====
section
/-! DEFINITION. What is to be proved of the model: encodings, steps, registers, results, traps, memory, the units, frames
and invariants. -/
open Sys2Proof Sys2Proof.Machine Sys2Proof.Safety

/-! ### Encodings and steps -/

/-- Decoding the encoding of a well-formed instruction gives it back, with either value of L (03 R53 to R75). -/
def Obligations.EncodingRoundTrip : Prop :=  ∀ i : Instr, Sys2Proof.Laws.RoundTrip.Statement i

/-- A word that decodes is the encoding of what it decodes to, apart from L, and what it decodes to is well formed: no
reserved bit of an encoding is ignored (03 R54, R56, R62). -/
def Obligations.DecodeExact : Prop :=
  ∀ (w lit : Nat) (i : Instr), w < 2 ^ 32 → lit < 2 ^ 32 → decodeWord w lit = .ok i →
    encodeNat i = w % 2 ^ 31 ∧ i.fieldsOk = true ∧ i.isEvent = false ∧ (i.isLong = true → literalOf i = lit)

/-- Words written out in the spec's tables of encodings decode to the instructions that stand beside them (08 R192,
R194, R196, R199, 20 R428, 21 R453). -/
def Obligations.WordsDecode : Prop :=
  decodeWord 0xC00C4140 0 = .ok (.add 3 4 5 0) ∧ decodeWord 0xC0E86FAA 0 = .ok (.or 58 6 62 1) ∧
  decodeWord 0xC8082003 0 = .ok (.shlImm 2 2 3) ∧ decodeWord 0xC910520B 0 = .ok (.bfx 4 5 8 11) ∧
  decodeWord 0xCB0836C8 0 = .ok (.cmpImm 2 3 6 200) ∧ decodeWord 0xCD140000 0x12345678 = .ok (.lim 5 0x12345678) ∧
  decodeWord 0xD0083102 0 = .ok (.fadd 2 3 4 2) ∧ decodeWord 0xD3083060 0 = .ok (.fcvt 2 3 1 4 0) ∧
  decodeWord 0x80004003 0 = .ok (.br 0 4 3) ∧ decodeWord 0xB4083100 0 = .ok (.pgmig 2 3 4) ∧
  decodeWord 0xB50020C0 0 = .ok (.irq 2 3)

/-- A bundle at the program counter runs: when a core's turn comes and no operation of a waiting context completes,
the rotation picks among the contexts that have issue slots left, the picked context pays for its slot, and the step
is the bundle's meaning: of a lone word, the meaning of the instruction that it decodes to, with the program counter
already past it; a reload trap that is pending comes first (03 R54, 07 R164, R166, R176). That an operation whose wait
is over makes its changes before the rotation, and pays for nothing, is the model's choice (log 6, DESIGN CHOICE). A
hardware step that has come about runs next (spec/95; log 2). -/
def Obligations.StepRunsWhatIsNext : Prop :=
  (∀ (s t : State) (x : Nat), s.agenda = [] → s.turn < 1024 → (s.coreAt s.turn).gated = false →
      let c := s.turn
      let r := { s with turn := c + 1 }.holdSpent c
      ((s.coreAt c).completer = none → pickCtx (r.coreAt c) s.cycle = some x → (r.ctxAt c x).reloadTrap = none → ∀ b,
        (fetchBundle (chargeIssue (focusOn r c x))).ans = .ok (b, t) →
        step s = runBundle exec t b ∧ ∀ i w len, b = .lone i w len → step s = exec i (atWord t len w false)) ∧
      ((s.coreAt c).completer = none → pickCtx (r.coreAt c) s.cycle = some x → ∀ cause info,
        (r.ctxAt c x).reloadTrap = some (cause, info) → ∃ u, step s = .next u ∧
          u.last = .stopped (.trap cause info) ∧ (u.ctxAt c x).reloadTrap = none) ∧
      ((s.coreAt c).completer = none → pickCtx (r.coreAt c) s.cycle = none → step s = .next { r with last := .done }) ∧
      ((s.coreAt c).completer = some x → (s.ctxAt c x).reloadTrap = none → ∀ i w len u,
        (fetchBundle (focusOn s c x)).ans = .ok (.lone i w len, t) → exec i (atWord t len w false) = .next u →
        step s = .next (u.completed c x))) ∧
  (∀ (s : State) (e : Instr) (r : List Instr), s.agenda = e :: r → step s = exec e { s with agenda := r })

/-- What stands at a program counter in local memory: eight bytes at an address that is a multiple of 8 and four bytes
at one that is 4 more, little-endian, as far as the context may read them and none of them is poisoned; a program
counter that is no multiple of 4 raises ALIGN with it (03 R54, 02 R51, 07 R167). The fetch of four bytes at an address
that is 4 more, and the ALIGN, are the model's reading (log 10, DEDUCED). -/
def Obligations.FetchReadsTheProgramCounter : Prop :=
  ∀ (s : State), isLocal s.focus.pc.toNat = true →
    let off := localOff s.focus.pc.toNat
    (s.focus.pc.toNat % 8 = 0 → localCheck false s.focus.pc.toNat 8 s = .ok () → s.core.poisoned off 8 = false →
      (fetchBundle s).ans = .ok (bundleAt false (memLe s.core.mem off 8 % 2 ^ 32) (memLe s.core.mem off 8 / 2 ^ 32), s)) ∧
    (s.focus.pc.toNat % 8 = 4 → localCheck false s.focus.pc.toNat 4 s = .ok () → s.core.poisoned off 4 = false →
      (fetchBundle s).ans = .ok (bundleAt true (memLe s.core.mem off 4) 0, s)) ∧
    (s.focus.pc.toNat % 4 ≠ 0 → (fetchBundle s).ans = .error (.trap 3 s.focus.pc))

/-- A pair at the program counter runs: both words see the registers as they stood before either, their effects join,
and if either stops neither has any effect; where the class-C word stops, its stop is the pair's, whatever the class-A
word does (03 R55, 02 R40). That a class-C word that waits or is dropped stops the pair before a trap of the class-A
word is the model's reading (log 57, DEDUCED), and so is that the accesses of a pair that stops stay in its core's PLB
and in the home tiles (log 71, DEDUCED). A word that ends its continuation takes its effect after the class-A word has
taken its own (log 12); the stop of the class-C word goes before a stop of the class-A word there too. -/
def Obligations.PairRunsAsOne : Prop :=
  ∀ (s t u : State) (c a : Instr) (wc wa : Nat), legal s c = true → pairIllegal s c (some a) = false →
    let run := runBundle exec s (.pair (some c) (some a) wc wa)
    let cAlone := atWord s 8 wc false
    let aAlone := atWord s 8 wa true
    let stops (v : State) (st : Stop) : Host.Outcome State Fault Refusal :=
      .next { stopState v st with last := .stopped st }
    let joined (v : State) (w : Nat) (second : Bool) : State :=
      { v with focus := { v.focus with word := BitVec.ofNat 32 w, second := second }, pin := pinOf s }
    (c.leaves = false →
      (∀ st, exec c cAlone = .next t → t.last = .stopped st → run = .next t) ∧
      (exec c cAlone = .next t → t.last = .done → exec a (joined t wa true) = .next u →
        (u.last = .done → run = .next { u with pin := none }) ∧
        (∀ st, u.last = .stopped st → (∀ f, st ≠ .fault f) → run = stops (aAlone.seenAs u) st)) ∧
      (exec c cAlone = .next t → t.last = .held → exec a (joined t wa true) = .next u →
        (u.last = .done → run = .next t) ∧
        (∀ st, u.last = .stopped st → (∀ f, st ≠ .fault f) → run = stops (aAlone.seenAs u) st))) ∧
    (c.leaves = true →
      (∀ st, exec a aAlone = .next t → t.last = .stopped st → exec c (atWord (s.seenAs t) 8 wc false) = .next u →
        (∀ st', u.last = .stopped st' → run = .next u) ∧
        ((∀ f, st ≠ .fault f) → u.last = .done ∨ u.last = .held → run = stops (aAlone.seenAs u) st)) ∧
      (exec a aAlone = .next t → t.last = .done → exec c (joined t wc false) = .next u →
        (u.last = .done ∨ u.last = .held → run = .next { u with pin := none }) ∧
        (∀ st, u.last = .stopped st → (∀ f, st ≠ .fault f) → run = stops (cAlone.seenAs u) st)))

/-- What reset leaves: domain 0 exists and is enabled, and alone; kcpool, CARB and the steal setting have their reset
values, a core has 16 contexts, the sequence numbers and copy channels are 0, the operand slots are free, and every
communicator and sequence context is free (01 R13, 06 R159, 07 R162, R183, 10 R262, 14 R322, 15 R358, 17 R413, R415,
20 R448). That no context runs (log 3) and that no square is ready (log 8) are the model's choices. -/
def Obligations.ResetValues : Prop :=
  ∀ c x q n, (State.reset.ctxAt c x).st = .idle ∧ State.reset.squareReady q = false ∧
    (State.reset.coreAt c).kcpool = 0x340180 ∧ (State.reset.coreAt c).steal = 0b1011 ∧
    (State.reset.coreAt c).kmode = false ∧ (State.reset.sqAt q).carb = 0x811 ∧
    ((State.reset.sqAt q).seqno n x).issued = 0 ∧ ((State.reset.sqAt q).seqno n x).completed = 0 ∧
    ((State.reset.sqAt q).chan n).delivered = 0 ∧ ((State.reset.sqAt q).slot n).claim = none ∧
    ((State.reset.sqAt q).sc n).holder = none ∧ ((State.reset.sqAt q).cm n).state = 0 ∧
    (State.reset.dom? 0).map (·.enabled) = some true ∧ (0 < n → State.reset.dom? n = none)

/-- After reset every memory is in the canonical form in which the model keeps the bytes of 02 R51 and 20 R433 (log 5,
DESIGN CHOICE). -/
def Obligations.ResetMemoryIsCanonical : Prop :=  MemOk State.reset

/-- Every step keeps every memory in canonical form: addresses rising, and no byte listed that reads as an unlisted
one. The form is the model's (log 5, DESIGN CHOICE); the memories are those of 07 R167 and 20 R433. -/
def Obligations.StepKeepsMemoryCanonical : Prop :=  ∀ s t : State, MemOk s → step s = .next t → MemOk t

/-! ### Registers and integer words -/

/-- What a source field reads: a general register, gz, the PC, the slot, ptag, and the receive ports, which give up a
unit (03 R58, 07 R172, 08 R220). What a destination field writes: a general register and no other, nothing for gz, and
a unit for the send ports (03 R58, 08 R216). -/
def Obligations.RegisterFields : Prop :=
  (∀ (s : State),
      (∀ f, f < s.core.ngreg → readReg f s = .ok (s.greg f, s)) ∧
      readReg 62 s = .ok (0, s) ∧ readReg 63 s = .ok (s.focus.pc, s) ∧ readReg 61 s = .ok (s.cur.slot, s) ∧
      (s.cur.rx0.units = [] → readReg 56 s = .error (.rx 0)) ∧
      (∀ u r, s.cur.rx0.units = u :: r →
        readReg 56 s = .ok (u.data, s.setCur { s.cur with rx0 := { s.cur.rx0 with units := r } })) ∧
      (s.isComm = true → ∀ u r, s.cur.rx1.units = u :: r →
        readReg 57 s = .ok (u.data, s.setCur { s.cur with rx1 := { s.cur.rx1 with units := r } })) ∧
      (s.pin = none → ∀ u r, s.cur.rx0.units = u :: r → ∃ v, readReg 60 s = .ok (v, s) ∧ v.toNat % 256 = u.tag.toNat ∧
        v.getLsbD 8 = u.first ∧ v.getLsbD 9 = u.last ∧ v.getLsbD 10 = u.abort ∧ v.getLsbD 11 = u.sup ∧
        v.toNat / 2 ^ 12 % 2 ^ 10 = u.score % 1024 ∧ v.toNat / 2 ^ 22 % 2 ^ 4 = u.sctx % 16)) ∧
  (∀ (s : State) (v : Word) (e : Bool),
      (∀ f, f < s.core.ngreg → ∃ t, writeRegE f v e s = .ok t ∧ sget 0 t.cur.g f = v ∧
        (∀ r, r ≠ f → sget 0 t.cur.g r = sget 0 s.cur.g r) ∧ t = s.setCur { s.cur with g := t.cur.g }) ∧
      writeRegE 62 v e s = .ok s ∧ writeRegE 58 v e s = send 0 v e s ∧
      (s.isComm = true → writeRegE 59 v e s = send 1 v e s))

/-- The register forms of R186 write their result, whatever fields the operands are: the two sources as the fields
read and the destination as the field is written. CLZ, CTZ, POPC and BSWAP write the number that R186 describes. The
immediate forms write the result of R186 with the immediate extended as R69 lays down. -/
def Obligations.IntegerForms : Prop :=
  (∀ p ∈ regForms, ∀ (d a b : BitVec 6) (e : BitVec 1) (s t u : State) (x y : Word),
      legal s (p.1 d a b e) = true → readTwo a b s = .ok (x, y, t) → writeRegE d.toNat (p.2 x y) (e == 1) t = .ok u →
      Completes (p.1 d a b e) s u) ∧
  (∀ p ∈ unaryForms, ∀ (d a : BitVec 6) (e : BitVec 1) (s t : State) (x : Word),
      legal s (p.1 d a e) = true → readReg a.toNat s = .ok (x, t) →
      ∃ r, p.2 x r ∧ ∀ u, writeRegE d.toNat r (e == 1) t = .ok u → Completes (p.1 d a e) s u) ∧
  ((∀ p ∈ imm12Forms, ∀ (d a : BitVec 6) (i : BitVec 12) (s t u : State) (x : Word),
      legal s (p.1 d a i) = true → readReg a.toNat s = .ok (x, t) →
      writeReg d.toNat (p.2 x (i.signExtend 64)) t = .ok u → Completes (p.1 d a i) s u) ∧
    (∀ p ∈ imm10Forms, ∀ (d a : BitVec 6) (i : BitVec 10) (s t u : State) (x : Word),
      legal s (p.1 d a i) = true → readReg a.toNat s = .ok (x, t) →
      writeReg d.toNat (p.2.2 x (p.2.1 i)) t = .ok u → Completes (p.1 d a i) s u) ∧
    (∀ p ∈ shiftForms, ∀ (d a i : BitVec 6) (s t u : State) (x : Word),
      legal s (p.1 d a i) = true → readReg a.toNat s = .ok (x, t) →
      writeReg d.toNat (p.2 x i.toNat) t = .ok u → Completes (p.1 d a i) s u))

/-- Division never traps: DIV, DIVN, REM and REMN write R187's results on its two borderline inputs and the truncating
quotient or its remainder on all others. -/
def Obligations.DivisionNeverTraps : Prop :=
  ∀ p ∈ divForms, ∀ (d a b : BitVec 6) (e : BitVec 1) (s t u : State) (x y : Word),
    legal s (p.1 d a b e) = true → readTwo a b s = .ok (x, y, t) → writeRegE d.toNat (p.2 x y) (e == 1) t = .ok u →
    Completes (p.1 d a b e) s u

/-- SEL takes g(a) where the old g(d) is not 0 and g(b) where it is; d = gz reads 0 as its condition and discards the
result; a d that names a port, ptag, gk or gpc raises ILL (R188). -/
def Obligations.SelectReadsItsDestination : Prop :=
  ∀ (d a b : BitVec 6) (e : BitVec 1) (s : State),
    (∀ t u x y, legal s (.sel d a b e) = true → readTwo a b s = .ok (x, y, t) →
      writeRegE d.toNat (if d.toNat ≠ 62 ∧ s.greg d.toNat ≠ 0 then x else y) (e == 1) t = .ok u →
      Completes (.sel d a b e) s u) ∧
    (d.toNat = 62 → ∀ t x y, legal s (.sel d a b e) = true → readTwo a b s = .ok (x, y, t) →
      Completes (.sel d a b e) s t) ∧
    (56 ≤ d.toNat → d.toNat ≠ 62 → Traps (.sel d a b e) s 1 (illInfo s))

/-- CMP writes 1 where its condition of R72 holds and 0 where it does not; an immediate is sign-extended for
conditions 0 to 5 and zero-extended for 6 to 9 (R189). BFX writes the field of g(a), BFI replaces the field of g(d)
and keeps its other bits, LIM writes the sign-extended literal, LIH the literal above the low half of g(d) (R190,
R191). The field fits the register, as every encoding that decodes has it. -/
def Obligations.ComparesAndFields : Prop :=
  (∀ (d a : BitVec 6) (s t u : State) (x : Word),
      (∀ (b c : BitVec 6) y, legal s (.cmp d a b c) = true → readTwo a b s = .ok (x, y, t) →
        writeReg d.toNat (if cmpHolds c.toNat x y then 1 else 0) t = .ok u → Completes (.cmp d a b c) s u) ∧
      (∀ (c : BitVec 4) (i : BitVec 8), legal s (.cmpImm d a c i) = true → readReg a.toNat s = .ok (x, t) →
        writeReg d.toNat (if cmpHolds c.toNat x (if c.toNat ≤ 5 then i.signExtend 64 else i.setWidth 64) then 1 else 0) t =
          .ok u → Completes (.cmpImm d a c i) s u)) ∧
  (∀ (d : BitVec 6) (s : State),
      (∀ (a p w : BitVec 6) x t, p.toNat + w.toNat + 1 ≤ 64 → legal s (.bfx d a p w) = true →
        readReg a.toNat s = .ok (x, t) →
        ∃ r : Word, (∀ k, k < 64 → r.getLsbD k = (decide (k ≤ w.toNat) && x.getLsbD (p.toNat + k))) ∧
          ∀ u, writeReg d.toNat r t = .ok u → Completes (.bfx d a p w) s u) ∧
      (∀ (a p w : BitVec 6) x t, p.toNat + w.toNat + 1 ≤ 64 → legal s (.bfi d a p w) = true →
        readReg a.toNat s = .ok (x, t) →
        ∃ r : Word, (∀ k, k < 64 → r.getLsbD k =
            if p.toNat ≤ k ∧ k ≤ p.toNat + w.toNat then x.getLsbD (k - p.toNat) else (s.genReg d.toNat).getLsbD k) ∧
          ∀ u, writeReg d.toNat r t = .ok u → Completes (.bfi d a p w) s u) ∧
      (∀ (v : BitVec 32) u, legal s (.lim d v) = true → writeReg d.toNat (v.signExtend 64) s = .ok u →
        Completes (.lim d v) s u) ∧
      (∀ (v : BitVec 32) u, legal s (.lih d v) = true →
        writeReg d.toNat (v ++ (s.genReg d.toNat).setWidth 32) s = .ok u → Completes (.lih d v) s u))

/-- FADD, FSUB, FMUL and FFMA round the exact result once, FMIN and FMAX pick an operand; the result is written, bits
63:32 as 0, and the flags are taken after what the write may raise (R193, R194, 04 R84, R90, 07 R179). FCMP writes 1
where its condition of R72 holds and 0 where not; FCVT writes the converted value as R196 places it; both take their
flags after what the write may raise (R195, R196, 04 R90, 07 R179). -/
def Obligations.FloatForms : Prop :=
  (∀ (d a b : BitVec 6) (r : BitVec 3) (s t : State) (x y : Word), readTwo a b s = .ok (x, y, t) →
      let X := f32Val x.toNat
      let Y := f32Val y.toNat
      let Z := f32Val (s.genReg d.toNat).toNat
      let out (i : Instr) (rm : Nat) (v : Val × Fl) : Prop :=
        legal s i = true →
        let res := f32.round false rm 0 v.1
        ∀ u w, writeReg d.toNat (BitVec.ofNat 64 res.1) t = .ok u → raiseFlags (res.2 ||| v.2) u = .ok w → Completes i s w
      out (.fadd d a b r) r.toNat (X.add (r == 3) Y) ∧ out (.fsub d a b r) r.toNat (X.add (r == 3) Y.neg) ∧
      out (.fmul d a b r) r.toNat (X.mul Y) ∧ out (.ffma d a b r) r.toNat (Val.fma (r == 3) X Y Z) ∧
      out (.fmin d a b) 0 (Val.pick false X Y) ∧ out (.fmax d a b) 0 (Val.pick true X Y)) ∧
  (∀ (d a : BitVec 6) (s t : State) (x : Word),
      (∀ (b c : BitVec 6) y u w, legal s (.fcmp d a b c) = true → readTwo a b s = .ok (x, y, t) →
        writeReg d.toNat (if (fcmpCond c.toNat (f32Val x.toNat) (f32Val y.toNat)).1 then 1 else 0) t = .ok u →
        raiseFlags (fcmpCond c.toNat (f32Val x.toNat) (f32Val y.toNat)).2 u = .ok w →
        Completes (.fcmp d a b c) s w) ∧
      (∀ (r ty sf : BitVec 3) u w, legal s (.fcvt d a r ty sf) = true → readReg a.toNat s = .ok (x, t) →
        let v := valueOf [] (fcvtType sf.toNat) x.toNat
        let res := roundTo ⟨false, []⟩ (fcvtType ty.toNat) r.toNat 0 v
        writeReg d.toNat (if fcvtType ty.toNat = 18 then sextW 32 res.1 else BitVec.ofNat 64 res.1) t = .ok u →
        raiseFlags (res.2 ||| v.sigFl) u = .ok w → Completes (.fcvt d a r ty sf) s w))

/-- Flags are sticky unless they are enabled: kfpe takes them in its low five bits and keeps the rest; an enabled one
raises FPE with the flags in kinfo and no result (04 R89, R90). A number that f32 holds rounds to its own code, under
every rounding and with no flag (04 R85). -/
def Obligations.FlagsAndExactNumbers : Prop :=
  (∀ (f : Fl) (s : State),
      (f &&& BitVec.ofNat 5 (s.cur.kfpe.toNat / 256) = 0 → ∃ t, raiseFlags f s = .ok t ∧
        t = s.setCur { s.cur with kfpe := s.cur.kfpe ||| f.setWidth 64 }) ∧
      (f &&& BitVec.ofNat 5 (s.cur.kfpe.toNat / 256) ≠ 0 → raiseFlags f s = .error (.trap 8 (f.setWidth 64)))) ∧
  (∀ (c rm : Nat), c < 2 ^ 32 → (c / 2 ^ 23 % 2 ^ 8 ≠ 255) → f32.round false rm 0 (f32Val c) = (c, 0))

/-! ### Control and traps -/

/-- BR, JMP, CALL, JR, LOOP, BTAG, NOP, ALIGN and FENCE: the condition is tested on the value read, displacements
count words from the bundle, and a call or JR keeps the address of the next bundle (R197 to R199, R211, 03 R67, R68).
-/
def Obligations.ControlFlow : Prop :=
  ∀ (s : State),
    (∀ (c a : BitVec 6) (i : BitVec 12) x t, legal s (.br c a i) = true → readReg a.toNat s = .ok (x, t) →
      Completes (.br c a i) s
        (if brHolds c.toNat x then t.setPc (s.focus.pc + BitVec.ofInt 64 (4 * i.toInt)) else t)) ∧
    (∀ (j : BitVec 24), Completes (.jmp j) s (s.setPc (s.focus.pc + BitVec.ofInt 64 (4 * j.toInt)))) ∧
    (∀ (j : BitVec 24),
      Completes (.call j) s ((s.setG 27 s.focus.next).setPc (s.focus.pc + BitVec.ofInt 64 (4 * j.toInt)))) ∧
    (∀ (d a : BitVec 6) x t u, legal s (.jr d a) = true → readReg a.toNat s = .ok (x, t) → x.toNat % 4 = 0 →
      writeReg d.toNat s.focus.next t = .ok u → Completes (.jr d a) s (u.setPc x)) ∧
    (∀ (d a : BitVec 6) x t, legal s (.jr d a) = true → readReg a.toNat s = .ok (x, t) → x.toNat % 4 ≠ 0 →
      Traps (.jr d a) s 3 x) ∧
    (∀ (a : BitVec 6) (i : BitVec 12) u, legal s (.loop a i) = true →
      writeReg a.toNat (s.genReg a.toNat - 1) s = .ok u →
      Completes (.loop a i) s
        (if s.genReg a.toNat = 1 then u else u.setPc (s.focus.pc + BitVec.ofInt 64 (4 * i.toInt)))) ∧
    (∀ (a : BitVec 6) x tag t t' v u, legal s (.btag a) = true → readReg a.toNat s = .ok (x, t) →
      readReg 60 s = .ok (tag, t') → (loadV (x + BitVec.ofNat 64 (8 * (tag.toNat % 8))).toNat 8 t).ans = .ok (v, u) →
      v % 4 = 0 → Completes (.btag a) s (u.setPc (BitVec.ofNat 64 v))) ∧
    Completes .nop s s ∧ Completes .align s s ∧
    (∀ (sc : BitVec 3), s.cur.pushes = [] → Completes (.fence sc) s (s.setCur { s.cur with quota := [] }))

/-- Trap entry: kepc, kcause and kinfo take the trap, kstat.PM the mode, S and T are set, RCHK keeps its value, the PC
goes to ktvec, and every other register of the context and everything else keeps its value, the sequence numbers among
it (R180). BKPT and SYSC save the next bundle, every other cause the bundle (R178). A trap taken while kstat.T = 1
halts the context in state 8, with kepc, kcause and kinfo as the first trap left them, and the halt is reported to the
domain (R181). -/
def Obligations.TrapEntry : Prop :=
  (∀ (s : State) (cause : Nat) (info : Word), s.cur.inTrap = false →
      ∃ st : Word, st.getLsbD 0 = true ∧ st.getLsbD 1 = s.cur.sup ∧ st.getLsbD 2 = true ∧ st.getLsbD 3 = s.cur.rchk ∧
        st.toNat < 16 ∧
        takeTrap s cause info = s.setCur { s.cur with
          kepc := if cause = 9 ∨ cause = 10 then s.focus.next else s.focus.pc
          kcause := BitVec.ofNat 64 cause
          kinfo := info
          kstat := st
          pc := s.cur.ktvec
          st := .ready }) ∧
  (∀ (s : State) (cause : Nat) (info : Word), s.cur.inTrap = true →
      takeTrap s cause info =
        (s.setCur { s.cur with st := .halted, pc := s.focus.pc }).haltReport s.focus.core s.focus.ctx s.cur.kdom.toNat ∧
      (takeTrap s cause info).cur.st = .halted ∧ (takeTrap s cause info).cur.kepc = s.cur.kepc ∧
      (takeTrap s cause info).cur.kcause = s.cur.kcause ∧ (takeTrap s cause info).cur.kinfo = s.cur.kinfo)

/-- TRAP and SYSC take BKPT and SYSC: the code goes to kinfo, the next bundle's address to kepc, and the context goes
on at ktvec in supervisor mode, its general registers as they were; in a trap handler they halt it (R225, R180, R181).
HALT in supervisor mode puts the context in state 8 and its halt is reported; in user mode it raises ILL (R228, 21
R452). -/
def Obligations.TrapWordsAndHalt : Prop :=
  (∀ (c : BitVec 18) (s : State) (i : Instr) (cause : Nat), (i, cause) ∈ [(Instr.trap c, 9), (Instr.sysc c, 10)] →
      ∃ t, exec i s = .next t ∧
        (s.cur.inTrap = false → t.cur.pc = s.cur.ktvec ∧ t.cur.kepc = s.focus.next ∧
          t.cur.kcause = BitVec.ofNat 64 cause ∧ t.cur.kinfo = c.setWidth 64 ∧ t.cur.sup = true ∧ t.cur.inTrap = true ∧
          t.cur.pm = s.cur.sup ∧ t.cur.g = s.cur.g ∧ t.mem = s.mem ∧ t.squares = s.squares) ∧
        (s.cur.inTrap = true → t.cur.st = .halted ∧ t.cur.kepc = s.cur.kepc ∧ t.cur.kcause = s.cur.kcause ∧
          t.cur.kinfo = s.cur.kinfo)) ∧
  (∀ (s : State),
      (s.cur.sup = true → Completes .halt s
        ((s.setCur { s.cur with st := .halted }).haltReport s.focus.core s.focus.ctx s.cur.kdom.toNat)) ∧
      (s.cur.sup = false → Traps .halt s 1 (illInfo s)))

/-- RETT: PC = kepc, kstat.S = kstat.PM, kstat.T = 0, and kcause, kinfo and every other register keep their values; in
user mode, or with a packet open, it raises ILL (R182, R173). -/
def Obligations.ReturnFromTrap : Prop :=
  ∀ (s : State),
    (s.cur.sup = true → s.cur.packetOpen = false → ∃ st : Word, st.getLsbD 0 = s.cur.pm ∧ st.getLsbD 1 = s.cur.pm ∧
      st.getLsbD 2 = false ∧ st.getLsbD 3 = s.cur.rchk ∧ st.toNat < 16 ∧
      Completes .rett s (s.setCur { s.cur with pc := s.cur.kepc, kstat := st })) ∧
    (s.cur.sup = false ∨ s.cur.packetOpen = true → Traps .rett s 1 (illInfo s))

/-- A word with a register field that names what its use does not allow, a privileged word in user mode, and a word of
the communication context elsewhere all raise ILL and have no other effect (03 R56, R58, R65, 01 R6). -/
def Obligations.IllegalWordsTrap : Prop :=
  ∀ (i : Instr) (s : State), i.isEvent = false → legal s i = false → Traps i s 1 (illInfo s)

/-! ### Memory -/

/-- A local access of an aligned value: the checks of R200 step 2 passed, a load of bytes that are not poisoned reads
the little-endian bytes at the offset, each element that a vector entry has written since the last VSYNC old or new; a
store writes exactly its bytes, and a load of what was stored gives the value (R200, R201, 02 R34, R51, 05 R112, 20
R447). Which local bytes may be accessed: an offset of 512 KiB or more raises PROT; so does, in user mode, a byte
outside the scratchpad and the accumulator window; and a store to the chain pool raises PROT in either mode. A span
with no such byte passes; another raises PROT with its lowest such byte (R200 step 2, 07 R167, 01 R9). That it is the
lowest is the model's reading (log 24, DEDUCED). -/
def Obligations.LocalAccesses : Prop :=
  (∀ (s : State) (ea n v : Nat), isLocal ea = true → ea < 2 ^ 64 → ea % n = 0 → 0 < n →
      s.core.poisoned (ea % 2 ^ 19) n = false →
      (localCheck false ea n s = .ok () → let r := oldOrNew ea (memRead s.core.mem (ea % 2 ^ 19) n) s
        (loadV ea n s).ans = .ok (ofBytes r.1, r.2) ∧ (s.cur.vold = [] → r = (memRead s.core.mem (ea % 2 ^ 19) n, s))) ∧
      (localCheck true ea n s = .ok () → MemOk s → ∃ t, (storeV ea n v s).ans = .ok t ∧
        (∀ x, memGet t.core.mem x =
          if ea % 2 ^ 19 ≤ x ∧ x < ea % 2 ^ 19 + n then (leBytes n v).getD (x - ea % 2 ^ 19) 0 else memGet s.core.mem x) ∧
        ∃ u, (loadV ea n t).ans = .ok (v % 256 ^ n, u))) ∧
  (∀ (s : State) (wr : Bool) (ea n : Nat), isLocal ea = true →
      let at_ := ea % 2 ^ 19
      let open_ (k : Nat) : Prop := k < 2 ^ 19 ∧
        (s.cur.sup = false → k < 0x6F000 ∧ inRange s.core.pool k = false ∧ inRange s.core.stashRange k = false) ∧
        (wr = true → inRange s.core.pool k = false)
      (ea / 2 ^ 19 % 2 ^ 29 ≠ 0 → localCheck wr ea n s = .error (.trap 2 (BitVec.ofNat 64 ea))) ∧
      (ea / 2 ^ 19 % 2 ^ 29 = 0 → (localCheck wr ea n s = .ok () ↔ ∀ k, k < n → open_ (at_ + k)) ∧
        ∀ k, k < n → ¬open_ (at_ + k) → (∀ j, j < k → open_ (at_ + j)) →
          localCheck wr ea n s = .error (.trap 2 (localAddr (at_ + k)))))

/-- A global access needs its domain's rights in the segment and lies in its footprints: without them it raises PROT
with the address. Where all is granted it reaches the frame that its home tile's page tables give, unless the page is
not served, which drops it; what a stash alone holds of the line is in the frame by then. A load reads the frame's
bytes, or those of a filled entry of the core's stash; a store writes exactly its bytes, in the frame, or in such an
entry, which alone holds them then (R200 step 3, R201, 05 R112, R128, 06 R161, 09 R244, 10 R271, R272, 20 R431, R434,
R447). That a store writes its frame at once, with no copy of its data in level two, is the model's choice (log 18,
log 70, DESIGN CHOICE), and that a word which stops keeps in its core's PLB the pair that it looked up is the model's
reading (log 71, DEDUCED). -/
def Obligations.GlobalAccessChecks : Prop :=
  ∀ (s : State) (ea n : Nat), isGlobal ea = true →
    (∀ (t : State) (k : Access) (m : Run State) (st : Stop),
      (∀ e, plbLook s.focus.core s.kdom (segOf ea) s = (.ok e, t) →
        (granted (rightsBits e.rights.toNat) k.need = false ∨ poolDenied t k ea n = true →
          (globalGrant k ea n s).ans = .error (.trap 2 (BitVec.ofNat 64 ea))) ∧
        (granted (rightsBits e.rights.toNat) k.need = true → poolDenied t k ea n = false →
          (globalGrant k ea n s).ans = match footDenied t k ea n with
            | some x => .error (.trap 2 (BitVec.ofNat 64 x))
            | none => .ok (e, t))) ∧
      (∀ h, plbLook s.focus.core s.kdom (segOf ea) s = (.error h, t) → (globalGrant k ea n s).ans = .error (pageStop h)) ∧
      ((plbLook s.focus.core s.kdom (segOf ea) s).2 = t → (globalGrant k ea n s).left = [t] ∧
        (m.ans = .error st → m.left = [t] → (∀ f, st ≠ .fault f) →
          finishRun s m = .next { stopState (s.seenAs t) st with last := .stopped st } ∧
          (s.seenAs t).core.plb = t.core.plb))) ∧
    (∀ (e : PlbEntry) (k : Access) (g v : State), (∀ r c, translate e.home k.wr ea g = (.stop r c, v) →
        (globalPlace e k ea g).ans = .error (.drop (BitVec.ofNat 64 ea) r c)) ∧
      (∀ pa sh, translate e.home k.wr ea g = (.ok pa sh, v) → (∀ o ∈ v.owned, o.line ≠ ea / 128) →
        v.beatsSpent v.kdom (e.home.getD 0) ea pa = false → (∀ w ∈ v.hw, w.backOf (ea / 128) = none) →
        (v.dirtyEntry (ea / 128) = none → (k = .write ∨ v.frameBad pa = false) →
          ∃ p, (globalPlace e k ea g).ans = .ok (pa, p) ∧ p.mem = v.mem ∧ p.cores = v.cores) ∧
        (∀ c x, v.dirtyEntry (ea / 128) = some (c, x) → (v.coreAt c).entryBad x 0 128 = false →
          ∃ p, (globalPlace e k ea g).ans = .ok (pa, p) ∧
            p.mem = memWrite v.mem (pa / 128 * 128) ((v.coreAt c).entryRead x 0 128)))) ∧
    (∀ (e : PlbEntry) (g : State), 0 < n → ea % n = 0 → (globalGrant .read ea n s).ans = .ok (e, g) →
      (∀ pa p, g.core.stashFor (ea / 128) g.kdom = none → (globalPlace e .read ea g).ans = .ok (pa, p) →
        (loadV ea n s).ans = .ok (ofBytes (oldOrNew ea (memRead p.mem pa n) p).1, (oldOrNew ea (memRead p.mem pa n) p).2)) ∧
      (∀ x, g.core.stashFor (ea / 128) g.kdom = some x → x.f = true → (∀ o ∈ g.owned, o.line ≠ ea / 128) →
        g.core.entryBad x (ea % 128) n = false →
        let b := if x.z then leBytes n 0 else memRead g.core.mem (g.core.stashOff x + ea % 128) n
        (loadV ea n s).ans = .ok (ofBytes (oldOrNew ea b g).1, (oldOrNew ea b g).2))) ∧
    (∀ (e : PlbEntry) (g : State) (v : Nat), 0 < n → ea % n = 0 → MemOk s → (globalGrant .write ea n s).ans = .ok (e, g) →
      (∀ pa p, g.core.stashFor (ea / 128) g.kdom = none → (globalPlace e .write ea g).ans = .ok (pa, p) →
        ∃ t, (storeV ea n v s).ans = .ok t ∧
        ∀ x, memGet t.mem x = if pa ≤ x ∧ x < pa + n then (leBytes n v).getD (x - pa) 0 else memGet p.mem x) ∧
      (∀ y, g.core.stashFor (ea / 128) g.kdom = some y → y.f = true → y.z = false → (∀ o ∈ g.owned, o.line ≠ ea / 128) →
        g.migrating ea = false → ∃ t, (storeV ea n v s).ans = .ok t ∧ t.mem = g.mem ∧
        t.core.stashFor (ea / 128) g.kdom = some { y with d := true } ∧
        let off := g.core.stashOff y + ea % 128
        ∀ x, memGet t.core.mem x = if off ≤ x ∧ x < off + n then (leBytes n v).getD (x - off) 0 else memGet g.core.mem x))

/-- The loads and stores of R201: the value at g(a) plus the sign-extended offset, with its extension, and the low
bytes of g(d). -/
def Obligations.LoadsAndStores : Prop :=
  ∀ (d a : BitVec 6) (s t u w : State) (x y : Word) (v : Nat),
    (∀ (i : BitVec 12), legal s (.ldD d a i) = true → readReg a.toNat s = .ok (x, t) →
      (loadV (x + i.signExtend 64).toNat 8 t).ans = .ok (v, u) → writeReg d.toNat (BitVec.ofNat 64 v) u = .ok w →
      Completes (.ldD d a i) s w) ∧
    (∀ (z : BitVec 3) (o : BitVec 9), z.toNat < 3 → legal s (.ld d a z o) = true → readReg a.toNat s = .ok (x, t) →
      (loadV (x + o.signExtend 64).toNat (2 ^ z.toNat) t).ans = .ok (v, u) →
      writeReg d.toNat ((BitVec.ofNat (8 * 2 ^ z.toNat) v).signExtend 64) u = .ok w → Completes (.ld d a z o) s w) ∧
    (∀ (z : BitVec 3) (o : BitVec 9), 4 ≤ z.toNat → z.toNat < 7 → legal s (.ld d a z o) = true →
      readReg a.toNat s = .ok (x, t) → (loadV (x + o.signExtend 64).toNat (2 ^ (z.toNat - 4)) t).ans = .ok (v, u) →
      writeReg d.toNat (BitVec.ofNat 64 v) u = .ok w → Completes (.ld d a z o) s w) ∧
    (∀ (i : BitVec 12), legal s (.stD d a i) = true → readTwo a d s = .ok (x, y, t) →
      (storeV (x + i.signExtend 64).toNat 8 y.toNat t).ans = .ok w → Completes (.stD d a i) s w) ∧
    (∀ (z : BitVec 3) (o : BitVec 9), z.toNat < 3 → legal s (.st d a z o) = true → readTwo a d s = .ok (x, y, t) →
      (storeV (x + o.signExtend 64).toNat (2 ^ z.toNat) y.toNat t).ans = .ok w → Completes (.st d a z o) s w)

/-- An address that is no multiple of the access size raises ALIGN with the address, before any other check of R200:
LD and ST, LDF, STP and STPM, the atomics, AFADD among them, REL and ACQ. LDF asks for a local address first (log 25),
and what releases waits for its push copies first. -/
def Obligations.MisalignedAccessesTrap : Prop :=
  ∀ (d a b : BitVec 6) (d5 a5 b5 : BitVec 5) (s t : State) (x y z : Word),
    (∀ (i : BitVec 12), readReg a.toNat s = .ok (x, t) → (x + i.signExtend 64).toNat % 8 ≠ 0 →
      legal s (.ldD d a i) = true → Traps (.ldD d a i) s 3 (x + i.signExtend 64)) ∧
    (∀ (i : BitVec 12), readReg a.toNat s = .ok (x, t) → legal s (.ldfW d a i) = true →
      (isLocal (x + i.signExtend 64).toNat = false → Traps (.ldfW d a i) s 2 (x + i.signExtend 64)) ∧
      (isLocal (x + i.signExtend 64).toNat = true → (x + i.signExtend 64).toNat % 4 ≠ 0 →
        Traps (.ldfW d a i) s 3 (x + i.signExtend 64))) ∧
    (∀ (i : BitVec 12), readTwo a d s = .ok (x, y, t) → (x + i.signExtend 64).toNat % 8 ≠ 0 →
      legal s (.stD d a i) = true → Traps (.stD d a i) s 3 (x + i.signExtend 64)) ∧
    (∀ (sz : BitVec 3) (o : BitVec 9), readReg a.toNat s = .ok (x, t) →
      (x + o.signExtend 64).toNat % 2 ^ (sz.toNat % 4) ≠ 0 → legal s (.ld d a sz o) = true →
      Traps (.ld d a sz o) s 3 (x + o.signExtend 64)) ∧
    (∀ (sz : BitVec 3) (o : BitVec 9), readTwo a d s = .ok (x, y, t) →
      (x + o.signExtend 64).toNat % 2 ^ (sz.toNat % 4) ≠ 0 → legal s (.st d a sz o) = true →
      Traps (.st d a sz o) s 3 (x + o.signExtend 64)) ∧
    (∀ (w : BitVec 1) (o : BitVec 4), readThree a b d s = .ok (x, y, z, t) →
      (x + BitVec.ofNat 64 (8 * o.toNat)).toNat % (if w = 1 then 8 else 4) ≠ 0 →
      (legal s (.stp d a b w o) = true → Traps (.stp d a b w o) s 3 (x + BitVec.ofNat 64 (8 * o.toNat))) ∧
      (legal s (.stpm d a b w o) = true → Traps (.stpm d a b w o) s 3 (x + BitVec.ofNat 64 (8 * o.toNat)))) ∧
    (∀ (w : BitVec 1) (sc o : BitVec 3), s.cur.pushes = [] →
      (s.genReg (reg5 a5) + BitVec.ofNat 64 (8 * o.toNat)).toNat % (if w = 1 then 8 else 4) ≠ 0 →
      ∀ i ∈ [Instr.aadd w d5 a5 b5 sc o, .amin w d5 a5 b5 sc o, .amax w d5 a5 b5 sc o, .aand w d5 a5 b5 sc o,
        .aor w d5 a5 b5 sc o, .axor w d5 a5 b5 sc o, .aswp w d5 a5 b5 sc o, .acas w d5 a5 b5 sc o],
      legal s i = true → Traps i s 3 (s.genReg (reg5 a5) + BitVec.ofNat 64 (8 * o.toNat))) ∧
    (∀ (sc o : BitVec 3), s.cur.pushes = [] → (s.genReg (reg5 a5) + BitVec.ofNat 64 (8 * o.toNat)).toNat % 4 ≠ 0 →
      legal s (.afadd d5 a5 b5 sc o) = true →
      Traps (.afadd d5 a5 b5 sc o) s 3 (s.genReg (reg5 a5) + BitVec.ofNat 64 (8 * o.toNat))) ∧
    (∀ (w : BitVec 1) (sc : BitVec 3) (o : BitVec 7), readTwo a d s = .ok (x, y, t) → t.cur.pushes = [] →
      let n := if w = 1 then 8 else 4
      (x + BitVec.ofNat 64 (n * o.toNat)).toNat % n ≠ 0 → legal s (.rel d a w sc o) = true →
      Traps (.rel d a w sc o) s 3 (x + BitVec.ofNat 64 (n * o.toNat))) ∧
    (∀ (w : BitVec 1) (sc : BitVec 3) (o : BitVec 7), readReg a.toNat s = .ok (x, t) →
      let n := if w = 1 then 8 else 4
      (x + BitVec.ofNat 64 (n * o.toNat)).toNat % n ≠ 0 → legal s (.acq d a w sc o) = true →
      Traps (.acq d a w sc o) s 3 (x + BitVec.ofNat 64 (n * o.toNat)))

/-- LDB reads the field of local memory whose bit k is its bit 0, with k the bits 21:0 of g(a), whose upper bits are
zero; STB changes exactly the bits of the field, and LDF takes a full word as it stands and leaves its bit clear, or
waits for the bit (R202, R203, 05 R126). -/
def Obligations.BitFieldsAndFullBits : Prop :=
  ∀ (d a : BitVec 6) (s : State),
    (∀ (sx : BitVec 1) (w : BitVec 5) x t k b r u, legal s (.ldb d a sx w) = true → readReg a.toNat s = .ok (x, t) →
      bitCheck false x (w.toNat + 1) t = .ok k →
      localBytes (localAddr (k / 8)).toNat ((k + w.toNat) / 8 + 1 - k / 8) t = .ok (b, r) →
      let v := ofBytes b / 2 ^ (k % 8) % 2 ^ (w.toNat + 1)
      writeReg d.toNat (if sx = 1 then (BitVec.ofNat (w.toNat + 1) v).signExtend 64 else BitVec.ofNat 64 v) r = .ok u →
      Completes (.ldb d a sx w) s u) ∧
    (∀ (w : BitVec 5) x y t k, MemOk s → legal s (.stb d a w) = true → readTwo a d s = .ok (x, y, t) →
      bitCheck true x (w.toNat + 1) t = .ok k → ∃ u, Completes (.stb d a w) s u ∧
      ∀ b, (memGet u.core.mem (b / 8)).getLsbD (b % 8) =
        if k ≤ b ∧ b ≤ k + w.toNat then y.getLsbD (b - k) else (memGet t.core.mem (b / 8)).getLsbD (b % 8)) ∧
    (∀ (wr : Bool) (x : Word) (t : State) w, 0 < w → w ≤ 32 →
      (2 ^ 22 ≤ x.toNat ∨ 2 ^ 22 < x.toNat % 2 ^ 22 + w → bitCheck wr x w t = .error (.trap 2 x)) ∧
      (∀ k, bitCheck wr x w t = .ok k → k = x.toNat % 2 ^ 22 ∧ x.toNat < 2 ^ 22 ∧ k + w ≤ 2 ^ 22 ∧
        localCheck wr (localAddr (k / 8)).toNat ((k + w - 1) / 8 + 1 - k / 8) t = .ok ()) ∧
      (x.toNat < 2 ^ 22 → x.toNat + w ≤ 2 ^ 22 →
        localCheck wr (localAddr (x.toNat / 8)).toNat ((x.toNat + w - 1) / 8 + 1 - x.toNat / 8) t = .ok () →
        bitCheck wr x w t = .ok x.toNat)) ∧
    (∀ (i : BitVec 12) x t w, legal s (.ldfW d a i) = true → readReg a.toNat s = .ok (x, t) →
      let ea := (x + i.signExtend 64).toNat
      isLocal ea = true → ea % 4 = 0 → localCheck false ea 4 t = .ok () → t.core.poisoned (ea % 2 ^ 19) 4 = false →
      (ea % 2 ^ 19 / 4 ∈ t.core.full →
        writeReg d.toNat ((BitVec.ofNat 32 (memLe t.core.mem (ea % 2 ^ 19) 4)).signExtend 64)
          (t.setCoreCur { t.core.dropOld (8 * ea) 32 with full := t.core.full.filter (· != ea % 2 ^ 19 / 4) }) = .ok w →
        Completes (.ldfW d a i) s w) ∧
      (ea % 2 ^ 19 / 4 ∉ t.core.full → StopsWith (.ldfW d a i) s (.wait (.fullBit (ea % 2 ^ 19 / 4)))))

/-- The Line form: PF never traps, DISC and ZLINE write zeros over the whole line, WBK completes wherever the rights
let a load read the line, and waits for no page, which is the model's reading (log 29); PF and WBK change no byte of a
frame where no stash holds newer data (R204, 10 R272). STP and STPM store g(b) at g(a) plus the offset and offer the
line to their targets in ascending order, the issuing core left out; a local address raises PROT (R205, R206). A
pushed copy is installed or refused: a refusal counts in kovf, saturating, and an installed copy counts against the
quota of 32 of its receiver, a gated core keeping nothing of it (R206, R207, 20 R445). That copies install oldest
first, and whether a busy operand refuses one, a free value, are the model's choices (log 19), as is that a gated
core's installs count (log 49). -/
def Obligations.LinesAndPushes : Prop :=
  (∀ (a : BitVec 6) (o : BitVec 12) (s t : State) (x : Word), readReg a.toNat s = .ok (x, t) →
      let ea := (x + o.signExtend 64).toNat / 128 * 128
      (legal s (.pf a o) = true → ∃ u, Completes (.pf a o) s u ∧ (Settled s → u.mem = s.mem)) ∧
      (legal s (.disc a o) = true → ∀ u, (zeroLine ea t).ans = .ok u →
        Completes (.disc a o) s (if isLocal ea then u else u.l1Set (ea / 128) false)) ∧
      (legal s (.zline a o) = true → ∀ u, (zeroLine ea t).ans = .ok u →
        Completes (.zline a o) s (if isLocal ea then u else u.l1Set (ea / 128) true)) ∧
      (legal s (.wbk a o) = true → (localOk ea = true → Completes (.wbk a o) s t) ∧
        (isGlobal ea = true → ∀ e u, plbLook t.focus.core t.kdom (segOf ea) t = (.ok e, u) →
          granted (rightsBits e.rights.toNat) needR = true →
          ∃ w, Completes (.wbk a o) s w ∧ (Settled s → w.mem = s.mem))) ∧
      (isLocal ea = true → localCheck true ea 128 t = .ok () → MemOk s → ∃ u, (zeroLine ea t).ans = .ok u ∧
        ∀ b, memGet u.core.mem b = if ea % 2 ^ 19 ≤ b ∧ b < ea % 2 ^ 19 + 128 then 0 else memGet t.core.mem b) ∧
      (isGlobal ea = true → MemOk s → ∀ e g pa p, (globalGrant .write ea 128 t).ans = .ok (e, g) →
        (globalPlace e .write ea (g.discard (ea / 128))).ans = .ok (pa, p) → ∃ u, (zeroLine ea t).ans = .ok u ∧
        ∀ b, memGet u.mem b = if pa ≤ b ∧ b < pa + 128 then 0 else memGet p.mem b)) ∧
  (∀ (d a b : BitVec 6) (z : BitVec 1) (o : BitVec 4) (s t u : State) (x y m : Word),
      readThree a b d s = .ok (x, y, m, t) →
      let ea := (x + BitVec.ofNat 64 (8 * o.toNat)).toNat
      let n := if z = 1 then 8 else 4
      let one := [m.toNat % 1024].filter (· != s.focus.core)
      let many := (((List.range 8).filter (fun c => m.getLsbD (8 + c))).map (fun c => m.toNat % 128 * 8 + c)).filter
        (· != s.focus.core)
      ea % n = 0 →
      (isLocal ea = false → (storeBytes ea (leBytes n y.toNat) t).ans = .ok u →
        (legal s (.stp d a b z o) = true → Completes (.stp d a b z o) s
          (u.setCur { u.cur with pushes := u.cur.pushes ++ one.map (fun c => ⟨ea / 128, c⟩) })) ∧
        (legal s (.stpm d a b z o) = true → Completes (.stpm d a b z o) s
          (u.setCur { u.cur with pushes := u.cur.pushes ++ many.map (fun c => ⟨ea / 128, c⟩) }))) ∧
      (isLocal ea = true →
        (legal s (.stp d a b z o) = true → Traps (.stp d a b z o) s 2 (BitVec.ofNat 64 ea)) ∧
        (legal s (.stpm d a b z o) = true → Traps (.stpm d a b z o) s 2 (BitVec.ofNat 64 ea)))) ∧
  (∀ (c x : Nat) (busy : Bool) (s : State) (p : Push) (r : List Push), c < 1024 → x < 16 →
      (s.ctxAt c x).pushes = p :: r → ∃ t, Completes (.pushCopyInstall c x busy) s t ∧ (t.ctxAt c x).pushes = r ∧
        (busy = true ∨ s.squareReady (p.target / 8) = false ∨ 32 ≤ sget 0 (s.ctxAt c x).quota p.target →
          (t.ctxAt c x).kovf = BitVec.ofNat 64 (min ((s.ctxAt c x).kovf.toNat % 2 ^ 32 + 1) 0xFFFFFFFF) ∧
          (t.ctxAt c x).quota = (s.ctxAt c x).quota) ∧
        (busy = false → s.squareReady (p.target / 8) = true → sget 0 (s.ctxAt c x).quota p.target < 32 →
          (t.ctxAt c x).kovf = (s.ctxAt c x).kovf ∧
          sget 0 (t.ctxAt c x).quota p.target = sget 0 (s.ctxAt c x).quota p.target + 1 ∧
          ((s.coreAt p.target).gated = false → p.line ∈ (t.coreAt p.target).l1) ∧
          ((s.coreAt p.target).gated = true → (t.coreAt p.target).l1 = (s.coreAt p.target).l1)))

/-- The atomics: a release, then the old value is read and the new one written in one step, and g(d) takes the old
value, sign-extended; ACAS writes only where the old value is g(d)'s; AFADD.w adds f32 values and zero-extends (R208,
R209). An atomic on local memory that is not poisoned reads and rewrites its bytes in one step (R208, 05 R120, 20
R447). -/
def Obligations.Atomics : Prop :=
  (∀ (d a b : BitVec 5) (sc o : BitVec 3) (s r : State), release s = .ok r →
      let ea := (r.genReg (reg5 a) + BitVec.ofNat 64 (8 * o.toNat)).toNat
      let run (i : Instr) (n : Nat) (f : Nat → Nat → Nat → Nat) (ext : Nat → Word) : Prop :=
        legal s i = true →
        let v := (r.genReg (reg5 b)).toNat % 2 ^ (8 * n)
        let e := (r.genReg (reg5 d)).toNat % 2 ^ (8 * n)
        ∀ old t u, (atomicV ea n (fun old => f old v e) r).ans = .ok (old, t) → writeReg (reg5 d) (ext old) t = .ok u →
          Completes i s u
      (∀ (z : BitVec 1) (n : Nat), n = (if z = 1 then 8 else 4) →
        let sx (v : Nat) : Word := (BitVec.ofNat (8 * n) v).signExtend 64
        let sg (v : Nat) : Int := (BitVec.ofNat (8 * n) v).toInt
        run (.aadd z d a b sc o) n (fun old v _ => (old + v) % 2 ^ (8 * n)) sx ∧
        run (.amin z d a b sc o) n (fun old v _ => (if sg old ≤ sg v then old else v) % 2 ^ (8 * n)) sx ∧
        run (.amax z d a b sc o) n (fun old v _ => (if sg old ≤ sg v then v else old) % 2 ^ (8 * n)) sx ∧
        run (.aand z d a b sc o) n (fun old v _ => (old &&& v) % 2 ^ (8 * n)) sx ∧
        run (.aor z d a b sc o) n (fun old v _ => (old ||| v) % 2 ^ (8 * n)) sx ∧
        run (.axor z d a b sc o) n (fun old v _ => (old ^^^ v) % 2 ^ (8 * n)) sx ∧
        run (.aswp z d a b sc o) n (fun _ v _ => v % 2 ^ (8 * n)) sx ∧
        run (.acas z d a b sc o) n (fun old v e => (if old = e then v else old) % 2 ^ (8 * n)) sx) ∧
      run (.afadd d a b sc o) 4 (fun old v _ => rne32 ((f32Val old).add false (f32Val v)).1 % 2 ^ 32)
        (fun v => BitVec.ofNat 64 v)) ∧
  (∀ (s : State) (ea n : Nat) (f : Nat → Nat), isLocal ea = true → ea % n = 0 → localCheck true ea n s = .ok () →
      s.core.poisoned (ea % 2 ^ 19) n = false → MemOk s → ∃ t, (atomicV ea n f s).ans = .ok (memLe s.core.mem (ea % 2 ^ 19) n, t) ∧
        memLe t.core.mem (ea % 2 ^ 19) n = f (memLe s.core.mem (ea % 2 ^ 19) n) % 256 ^ n ∧
        ∀ x, x < ea % 2 ^ 19 ∨ ea % 2 ^ 19 + n ≤ x → memGet t.core.mem x = memGet s.core.mem x)

/-- REL is a store that is a release, ACQ a load that sign-extends; both address g(a) plus the offset in units of
their size (R210). A release waits until every push copy of its context is installed or refused, and then resets the
quotas (05 R132, R133). -/
def Obligations.ReleaseAndAcquire : Prop :=
  (∀ (d a : BitVec 6) (z : BitVec 1) (sc : BitVec 3) (o : BitVec 7) (s : State) (n : Nat), n = (if z = 1 then 8 else 4) →
      (∀ x y t r u, legal s (.rel d a z sc o) = true → readTwo a d s = .ok (x, y, t) → release t = .ok r →
        (storeV (x + BitVec.ofNat 64 (n * o.toNat)).toNat n y.toNat r).ans = .ok u → Completes (.rel d a z sc o) s u) ∧
      (∀ x t v u w, legal s (.acq d a z sc o) = true → readReg a.toNat s = .ok (x, t) →
        (loadV (x + BitVec.ofNat 64 (n * o.toNat)).toNat n t).ans = .ok (v, u) →
        writeReg d.toNat ((BitVec.ofNat (8 * n) v).signExtend 64) u = .ok w → Completes (.acq d a z sc o) s w)) ∧
  (∀ (s : State), (s.cur.pushes ≠ [] → ∀ sc, StopsWith (.fence sc) s (.wait .pushes)) ∧
      (s.cur.pushes = [] → release s = .ok (s.setCur { s.cur with quota := [] })))

/-- HBINIT sets mask and count and zeroes the rest, HBWAIT and HBTEST compare the phase count modulo 2^32, and HBARR
returns the phase count once the phase it arrived in is complete and otherwise waits with its arrival made; the
illegal uses raise ILL (R212 to R215). That HBARR returns the count as it stands when it returns is the model's
reading (log 20, DEDUCED). A phase completes when every core of the mask holds the same mask and phase and all its
arrivals, and then every core's phase count rises by 1 (R212). -/
def Obligations.HardwareBarriers : Prop :=
  (∀ (d a b : BitVec 6) (s t : State) (x : Word),
      let got (p q : BitVec 32) : Prop := (p - q).toNat < 2 ^ 31
      (legal s (.hbinit a b) = true → readReg a.toNat s = .ok (x, t) → x.getLsbD (s.focus.core % 8) = true →
        0 < x.toNat / 256 % 32 → x.toNat / 256 % 32 ≤ s.core.nctx → (∀ h, s.core.hbAt b.toNat = some h → h.arrived = 0) →
        Completes (.hbinit a b) s (completePhases 1 s.focus.core b.toNat
          (t.setCoreCur (t.core.setHb b.toNat (some ⟨x.setWidth 8, x.toNat / 256 % 32, 0, 0, 0, [], s.kdom⟩))))) ∧
      (legal s (.hbinit a b) = true → readReg a.toNat s = .ok (x, t) →
        (x.getLsbD (s.focus.core % 8) = false ∨ x.toNat / 256 % 32 = 0 ∨ s.core.nctx < x.toNat / 256 % 32 ∨
          ∃ h, s.core.hbAt b.toNat = some h ∧ h.arrived ≠ 0) → Traps (.hbinit a b) s 1 (illInfo s)) ∧
      (∀ h, s.core.hbAt b.toNat = some h → readReg a.toNat s = .ok (x, t) →
        (legal s (.hbwait a b) = true → got h.phase (x.setWidth 32) → Completes (.hbwait a b) s t) ∧
        (legal s (.hbwait a b) = true → ¬got h.phase (x.setWidth 32) →
          StopsWith (.hbwait a b) s (.wait (.barrier b.toNat (x.setWidth 32)))) ∧
        (legal s (.hbtest d a b) = true → got h.phase (x.setWidth 32) → ∀ u, writeReg d.toNat 1 t = .ok u →
          Completes (.hbtest d a b) s u) ∧
        (legal s (.hbtest d a b) = true → ¬got h.phase (x.setWidth 32) → ∀ u, writeReg d.toNat 0 t = .ok u →
          Completes (.hbtest d a b) s u)) ∧
      (∀ h p u, legal s (.hbarr d b) = true → s.core.hbAt b.toNat = some h → h.pending s.focus.ctx = some p →
        (got h.phase (p + 1) → writeReg d.toNat (h.phase.setWidth 64)
            (s.setCoreCur (s.core.setHb b.toNat (some { h with pend := sdel h.pend s.focus.ctx }))) = .ok u →
          Completes (.hbarr d b) s u) ∧
        (¬got h.phase (p + 1) → StopsWith (.hbarr d b) s (.wait (.barrier b.toNat (p + 1))))) ∧
      (∀ h r, legal s (.hbarr d b) = true → s.core.hbAt b.toNat = some h → h.pending s.focus.ctx = none →
        release s = .ok r →
        let joins := h.arrived < h.need
        let p := if joins then h.phase else h.phase + 1
        let h' := if joins then { h with arrived := h.arrived + 1, pend := sset h.pend s.focus.ctx p }
          else { h with next := h.next + 1, pend := sset h.pend s.focus.ctx p }
        let v := completePhases 32 s.focus.core b.toNat (r.setCoreCur (r.core.setHb b.toNat (some h')))
        ∀ g, v.core.hbAt b.toNat = some g →
          (got g.phase (p + 1) → ∀ u, writeReg d.toNat (g.phase.setWidth 64)
            (v.setCoreCur (v.core.setHb b.toNat (some { g with pend := sdel g.pend s.focus.ctx }))) = .ok u →
            Completes (.hbarr d b) s u) ∧
          (¬got g.phase (p + 1) →
            exec (.hbarr d b) s = .next { backOut v (.waiting (.barrier b.toNat (p + 1))) with last := .held })) ∧
      (s.core.hbAt b.toNat = none → readReg a.toNat s = .ok (x, t) →
        Traps (.hbarr d b) s 1 (illInfo s) ∧ Traps (.hbwait a b) s 1 (illInfo s) ∧ Traps (.hbtest d a b) s 1 (illInfo s))) ∧
  (∀ (s : State) (c n : Nat) (h : HBar), (s.coreAt c).hbAt n = some h → h.mask.getLsbD (c % 8) = true →
      (phaseFull c n s = true ↔ ∀ k, k < 8 → h.mask.getLsbD k = true → ∃ h', (s.coreAt (c / 8 * 8 + k)).hbAt n = some h' ∧
        h'.mask = h.mask ∧ h'.phase = h.phase ∧ h'.need ≤ h'.arrived) ∧
      (phaseFull c n s = true → ∀ k, k < 8 → h.mask.getLsbD k = true →
        ((completePhases 1 c n s).coreAt (c / 8 * 8 + k)).hbAt n =
          ((s.coreAt (c / 8 * 8 + k)).hbAt n).map HBar.advance) ∧
      (phaseFull c n s = false → completePhases 1 c n s = s))

/-- A send with a packet open: a ninth send raises MSGSIZE with kinfo 18, a send beyond the declared length of a
ring's packet raises MSGSIZE with the length in words, a full port makes the sender wait, and otherwise one unit is
delivered (R216, R219, R224). A header send for a context raises PROT with the header in R218's cases and opens no
packet; where the destination accepts it, its unit is delivered and the packet is open unless `.e` closed it. A sender
in user mode reaches the contexts that run continuations of its own domain (R217 to R219). A header send for a receive
ring: PROT in R218's cases, MSGSIZE for an entry larger than the ring, a wait while the ring has another packet open
or too few free bytes; else its unit stands in the ring 8 bytes past the tail. Closed with that unit, the entry has
its header at the tail, and the tail moves past both (R218, R222 to R224). The ring lies in the scratchpad beside its
descriptors. That a length of 9 to 15 is accepted, and that a base which is no multiple of the ring's size is used as
it stands, are the model's choices (log 88, log 89, DESIGN CHOICE), and so is the tail that a program has written (log
80). -/
def Obligations.Packets : Prop :=
  (∀ (p : Nat) (v : Word) (e : Bool) (s : State) (k : OpenPkt), s.cur.tx p = some k →
      (8 ≤ k.sent → send p v e s = .error (.trap 6 18)) ∧
      (k.sent < 8 → k.ring = true → k.len ≤ k.sent →
        send p v e s = .error (.trap 6 (BitVec.ofNat 64 (2 * (k.len + 1))))) ∧
      (k.sent < 8 → k.ring = false → 16 ≤ ((s.ctxAt k.core k.dest).rx k.port).units.length +
          ((s.ctxAt k.core k.dest).rx k.port).flight.length →
        send p v e s = .error (.wait (.portFull k.core k.dest k.port))) ∧
      (k.sent < 8 → k.ring = false → ((s.ctxAt k.core k.dest).rx k.port).units.length +
          ((s.ctxAt k.core k.dest).rx k.port).flight.length < 16 → p < 2 →
        ∃ t, send p v e s = .ok t ∧
          (t.cur.tx p = if e then none else some { k with sent := k.sent + 1 }) ∧
          ((t.ctxAt k.core k.dest).rx k.port).flight =
            ((s.ctxAt k.core k.dest).rx k.port).flight ++
              [⟨v, k.tag, k.sent == 0, e, false, s.cur.sup, s.focus.core, s.focus.ctx⟩])) ∧
  (∀ (p : Nat) (v : Word) (e : Bool) (s : State), s.cur.tx p = none → p < 2 →
      let h := v.toNat % 2 ^ 32
      let core := h % 1024
      let dest := h / 2 ^ 10 % 16
      let port := h / 2 ^ 14 % 2
      let reach := s.cur.sup = true ∨ ((s.ctxAt core dest).st ≠ .idle ∧ (s.ctxAt core dest).kdom = s.cur.kdom)
      h / 2 ^ 15 % 2 = 0 →
      (h / 2 ^ 20 % 16 ≠ 0 ∨ h / 2 ^ 16 % 16 ≠ 0 ∨ s.squareReady (core / 8) = false ∨ (s.coreAt core).nctx ≤ dest ∨
          (port = 1 ∧ dest ≠ (s.coreAt core).nctx - 1) ∨ ¬reach →
        send p v e s = .error (.trap 2 (BitVec.ofNat 64 h))) ∧
      (h / 2 ^ 16 % 16 = 0 → h / 2 ^ 20 % 16 = 0 → s.squareReady (core / 8) = true → dest < (s.coreAt core).nctx →
        (port = 1 → dest = (s.coreAt core).nctx - 1) → reach → s.cur.pushes = [] →
        let rx := (s.ctxAt core dest).rx port
        (rx.openBy = none → rx.units.length + rx.flight.length < 16 → ∃ t, send p v e s = .ok t ∧
          t.cur.tx p = (if e then none else some ⟨core, dest, false, port, 1, BitVec.ofNat 8 (h / 2 ^ 24), 0, 0⟩) ∧
          ((t.ctxAt core dest).rx port).flight = rx.flight ++
            [⟨v, BitVec.ofNat 8 (h / 2 ^ 24), true, e, false, s.cur.sup, s.focus.core, s.focus.ctx⟩]) ∧
        (16 ≤ rx.units.length + rx.flight.length → send p v e s = .error (.wait (.portFull core dest port))) ∧
        (∀ o, rx.openBy = some o → o ≠ (s.focus.core, s.focus.ctx, p) → rx.units.length + rx.flight.length < 16 →
          send p v e s = .error (.wait (.header core dest port false 0))))) ∧
  (∀ (p : Nat) (v : Word) (e : Bool) (s : State), s.cur.tx p = none → p < 2 →
      let h := v.toNat % 2 ^ 32
      let core := h % 1024
      let ring := h / 2 ^ 10 % 16
      let len := h / 2 ^ 16 % 16
      let d0 := memLe (s.coreAt core).mem (32 * ring) 8
      let head := memLe (s.coreAt core).mem (32 * ring + 8) 8
      let tail := memLe (s.coreAt core).mem (32 * ring + 16) 8
      let z := d0 / 2 ^ 32 % 16
      let size := 2 ^ (6 + z)
      let base := d0 % 2 ^ 19
      let on := d0 / 2 ^ 31 % 2 = 1 ∧ z ≤ 10
      let reach := s.cur.sup = true ∨ (on ∧ d0 / 2 ^ 48 = s.kdom)
      let fits := h / 2 ^ 20 % 16 = 0 ∧ s.squareReady (core / 8) = true ∧ h / 2 ^ 14 % 2 = 0 ∧ ring ≤ 7 ∧ len ≠ 0 ∧ reach
      let free := size - (tail + 2 ^ 64 - head) % 2 ^ 64
      h / 2 ^ 15 % 2 = 1 →
      (¬fits → send p v e s = .error (.trap 2 (BitVec.ofNat 64 h))) ∧
      (fits → size < 8 + 8 * len → send p v e s = .error (.trap 6 (BitVec.ofNat 64 (2 * len)))) ∧
      (fits → 8 + 8 * len ≤ size → s.cur.pushes = [] →
        let held_ := ∃ o, sget none (s.coreAt core).rings ring = some o ∧ o ≠ (s.focus.core, s.focus.ctx, p)
        (held_ ∨ free < 8 + 8 * len → send p v e s = .error (.wait (.header core ring 0 true len))) ∧
        (¬held_ → 8 + 8 * len ≤ free → MemOk s → 0x100 ≤ base → base + size ≤ 2 ^ 19 → ∃ t, send p v e s = .ok t ∧
          t.cur.tx p = (if e then none else some ⟨core, ring, true, 0, 1, BitVec.ofNat 8 (h / 2 ^ 24), len, tail⟩) ∧
          sget none (t.coreAt core).rings ring = (if e then none else some (s.focus.core, s.focus.ctx, p)) ∧
          (∀ k, k < 8 → memGet (t.coreAt core).mem (base + (tail + 8 + k) % size) = (leBytes 8 v.toNat).getD k 0) ∧
          memLe (t.coreAt core).mem (32 * ring + 16) 8 = (if e then (tail + 16) % 2 ^ 64 else tail) ∧
          (e = true → ∀ k, k < 8 → memGet (t.coreAt core).mem (base + (tail + k) % size) =
            (leBytes 8 (1 + (if size < tail % size + 16 then 2 ^ 4 else 0) + h / 2 ^ 24 * 2 ^ 8 +
              s.focus.core % 1024 * 2 ^ 16 + s.focus.ctx % 16 * 2 ^ 26 + (if s.cur.sup then 2 ^ 30 else 0))).getD k 0))))

/-! ### The dispatcher -/

/-- SPAWN: the record's checks, a release, its task id and graph, the push on the core's own deque, and the id in g(d)
(R144, R151). A record that enters takes its domain's next task id into bytes 104 to 111, and into bytes 72 to 79 the
graph id of its issuer, whose count of live tasks rises by 1. An issuer that no task record started opens a new graph,
whose domain is the record's: that it is this domain whose vector 0 is raised when the graph completes is the model's
choice (log 93, DESIGN CHOICE) (R144, R157). A task id is its domain's next one, and the domain's next id rises by 1
modulo 2^48 (R144). -/
def Obligations.SpawnEntersTheTask : Prop :=
  (∀ (d a : BitVec 6) (s t u r v w x : State) (p : Word) (b : List Byte) (id : Nat),
      legal s (.spawn d a) = true → readReg a.toNat s = .ok (p, t) → (entryCheck p.toNat t).ans = .ok (b, u) →
      release u = .ok r → (enterTask p.toNat b r).ans = .ok (id, v) → pushEntry p v = .ok w →
      writeReg d.toNat (BitVec.ofNat 64 id) w = .ok x → Completes (.spawn d a) s x) ∧
  (∀ (s : State) (p : Nat) (b : List Byte) (dm : Domain), s.dom? (recDom b) = some dm →
      let g := if s.cur.task = 0 then s.nextGraph else s.cur.graph.toNat
      let u := s.setDom (recDom b) (some { dm with nextTask := (dm.nextTask + 1) % 2 ^ 48 })
      let v : State := if s.cur.task = 0
        then { u with graphs := s.graphs ++ [⟨g, recDom b, 1, none⟩], nextGraph := s.nextGraph + 1 }
        else { u with graphs := s.graphs.map (fun x => if x.id = g then { x with live := x.live + 1 } else x) }
      ∀ pa t pa' t', hvLook true (p + 104) v = (.ok pa, t) →
        let w := t.putGlobal (p + 104) pa (leBytes 8 dm.nextTask)
        hvLook true (p + 72) w = (.ok pa', t') → ∃ z, (enterTask p b s).ans = .ok (dm.nextTask, z) ∧
          z = { t'.putGlobal (p + 72) pa' (leBytes 8 g) with entered := sset t'.entered p (recDom b) } ∧
          (MemOk s → memLe z.mem pa' 8 = g % 2 ^ 64 ∧
            (t'.mem = w.mem → pa' + 8 ≤ pa → memLe z.mem pa 8 = dm.nextTask % 2 ^ 64))) ∧
  (∀ (s : State) (dom : Nat) (d : Domain), s.dom? dom = some d →
      (takeTaskId dom s).1 = d.nextTask ∧
      (takeTaskId dom s).2.dom? dom = some { d with nextTask := (d.nextTask + 1) % 2 ^ 48 } ∧
      ∀ other, other ≠ dom → (takeTaskId dom s).2.dom? other = s.dom? other)

/-- SPAWNX enters the child with the parent's slot as its joiner and the parent's continuation leaves its context, its
W as it was; YIELD and SUSP save the continuation, SUSP with W set clears it and goes on; TRET retires the task (R143,
R150, R151, R154, R156, R157). With a packet open each of them, and MIGR, is ILL (07 R173). That a record has one
joiner, which a later SPAWNX of it replaces, is the model's choice (log 58, DESIGN CHOICE). A context that its
continuation has left is idle, with no slot, task or graph (07 R163, 06 R157). A task that retires writes its return
value to its joiner, if its slot names one, and queues it as WAKE would; its slot's state becomes 0, its context idle,
and its graph counts one live task fewer. A graph that counts none is complete: its completion word, if it has one, is
written, and then vector 0 is raised (R155, R157, 21 R451). MIGR saves its continuation in state 3 and appends it for
its target; its context becomes idle (R280). -/
def Obligations.ContinuationsLeaveTheirContext : Prop :=
  (∀ (d a : BitVec 6) (s : State),
     (s.cur.packetOpen = true → Traps .susp s 1 (illInfo s) ∧ Traps .yield s 1 (illInfo s) ∧
       (legal s (.tret a) = true → Traps (.tret a) s 1 (illInfo s)) ∧
       (legal s (.migr a) = true → Traps (.migr a) s 1 (illInfo s)) ∧
       (legal s (.spawnx d a) = true → Traps (.spawnx d a) s 1 (illInfo s))) ∧
     (s.cur.packetOpen = false →
      (∀ p t b u v r id w x y, legal s (.spawnx d a) = true → readReg a.toNat s = .ok (p, t) →
        (entryCheck p.toNat t).ans = .ok (b, u) → vsyncWait u = .ok v → release v = .ok r →
        (enterTask p.toNat b r).ans = .ok (id, w) → ∀ w0 q, (hvRead w.cur.slot.toNat 8 w).ans = .ok (w0, q) →
        (saveCont 2 (ofBytes w0 % 2 == 1) q).ans = .ok x →
        pushEntry p { x with joiners := sset x.joiners p.toNat w.cur.slot,
                             joinDest := sset x.joinDest w.cur.slot.toNat d.toNat } = .ok y →
        Completes (.spawnx d a) s (y.setCur y.cur.leave)) ∧
      (∀ v r b q t, vsyncWait s = .ok v → release v = .ok r → (hvRead r.cur.slot.toNat 8 r).ans = .ok (b, q) →
        (ofBytes b % 2 = 1 → (hvWrite q.cur.slot.toNat (leBytes 8 (ofBytes b / 2 * 2)) q).ans = .ok t → Completes .susp s t) ∧
        (ofBytes b % 2 = 0 → (saveCont 2 false q).ans = .ok t → Completes .susp s (t.setCur t.cur.leave)) ∧
        (∀ u, (saveCont 3 (ofBytes b % 2 == 1) q).ans = .ok t →
          t.pushTop t.focus.core (contEntry q.cur.slot.toNat false) = some u →
          Completes .yield s (u.setCur u.cur.leave))) ∧
      (∀ x t v r u, legal s (.tret a) = true → readReg a.toNat s = .ok (x, t) →
        vsyncWait t = .ok v → release v = .ok r → (retireTask r.focus.core r.focus.ctx x r).ans = .ok u →
        Completes (.tret a) s u))) ∧
  (∀ (x : Ctx), x.leave.st = .idle ∧ x.leave.slot = 0 ∧ x.leave.task = 0 ∧ x.leave.g = x.g ∧ x.leave.kdom = x.kdom ∧
      x.leave.rx0 = x.rx0 ∧ x.leave.rx1 = x.rx1) ∧
  ((∀ (c x : Nat) (v : Word) (s t : State) (jb : List Byte),
      let k := s.ctxAt c x
      let j := ofBytes jb
      let leaves_ (u : State) : State := u.setCtx c x (u.ctxAt c x).leave
      let counted (u : State) : State := if k.task = 0 then u else u.graphLeave k.graph.toNat
      (hvRead (k.slot.toNat + 88) 8 s).ans = .ok (jb, t) →
      (j = 0 → ∀ u, (hvWrite (k.slot.toNat + 104) (leBytes 8 0) t).ans = .ok u →
        (retireTask c x v s).ans = .ok (leaves_ (counted u))) ∧
      (j ≠ 0 → ∀ y old z u, (hvWrite (j + 96) (leBytes 8 v.toNat) t).ans = .ok y → wakeSlot c j y = .woke old z →
        (hvWrite (k.slot.toNat + 104) (leBytes 8 0) z).ans = .ok u →
        (retireTask c x v s).ans = .ok (leaves_ (counted u)))) ∧
    ∀ (s : State) (id : Nat) (g : Graph), s.graph? id = some g →
      let gone : State := { s with graphs := s.graphs.filter (fun x => x.id ≠ id) }
      (1 < g.live → s.graphLeave id =
        { s with graphs := s.graphs.map (fun x => if x.id = id then { x with live := x.live - 1 } else x) }) ∧
      (g.live ≤ 1 → g.word = none → s.graphLeave id = gone.raiseVector g.dom 0) ∧
      (g.live ≤ 1 → ∀ w pa t, g.word = some w → hvTry true w.toNat gone = .ok (pa, t) →
        s.graphLeave id = (t.putGlobal w.toNat pa (leBytes 8 id)).raiseVector g.dom 0)) ∧
  (∀ (a : BitVec 6) (s t u v w r q y : State) (x : Word) (b : List Byte) (h : CmdHdr),
      legal s (.migr a) = true → s.cur.packetOpen = false → readReg a.toNat s = .ok (x, t) → vsyncWait t = .ok u →
      isGlobal x.toNat = true → (byteGrant needR none x.toNat x.toNat u).ans = .ok v → release v = .ok r →
      (hvRead r.cur.slot.toNat 8 r).ans = .ok (b, q) → (saveCont 3 (ofBytes b % 2 == 1) q).ans = .ok w →
      appendCmd 0 none w = .ok (h, y) →
      let c : TCmd :=
        { hdr := h, kind := .migr, ch := 0, region := Region.null, desc := none, desc2 := none, begun := false,
          kcpool := y.core.kcpool, kmap := y.core.kmap, dir := 0, base := 0, origin := [], ls := [], reuse := 0, mark := 0,
          units := [], done := 0, index := none, run := 0, seen := [], slot := q.cur.slot, target := x,
          ship := y.homeOf (segOf x.toNat), dead := false }
      Completes (.migr a) s ((pushTransfer c y).setCur (pushTransfer c y).cur.leave))

/-- TSIG counts a dependence counter down, stopping at 0, and gives its old value; the signal that brings it to 0
enters the waiting record and takes it off the counter (R152). TDEP enters its record, and pushes it where the counter
is 0 and leaves it on the counter where it is not; a record without a counter and a counter with a record on it raise
FMT with the record (R153). WAKE gives the slot's old state. A suspended continuation becomes queued and its entry
stands at the bottom of the core's own deque; a running one gets W = 1; in any other state nothing changes (R155). -/
def Obligations.CountersAndWakes : Prop :=
  (∀ (d a : BitVec 6) (s t : State) (x : Word), readReg a.toNat s = .ok (x, t) →
      (∀ at_ u r w, legal s (.tsig d a) = true → (counterAt x.toNat t).ans = .ok (at_, u) → release u = .ok r →
        let c := counterGet x.toNat at_ 0 4 r
        let p := counterGet x.toNat at_ 8 8 r
        (c ≠ 1 ∨ p = 0 → writeReg d.toNat (BitVec.ofNat 64 c)
            (if c = 0 then r else counterPut x.toNat at_ 0 (leBytes 4 (c - 1)) r) = .ok w → Completes (.tsig d a) s w) ∧
        (c = 1 → p ≠ 0 → ∀ b v y, (entryCheck p r).ans = .ok (b, v) →
          pushEntry (BitVec.ofNat 64 p) ((counterPut x.toNat at_ 8 (leBytes 8 0) v).enters p (recDom b)) = .ok y →
          writeReg d.toNat 1 (counterPut x.toNat at_ 0 (leBytes 4 0) y) = .ok w → Completes (.tsig d a) s w)) ∧
      (∀ b u, legal s (.tdep d a) = true → (entryCheck x.toNat t).ans = .ok (b, u) →
        let k := leAt b 32 8
        (k = 0 → TrapsAfter (.tdep d a) s 7 x) ∧
        (k ≠ 0 → ∀ at_ v r, (counterAt k u).ans = .ok (at_, v) → release v = .ok r →
          (counterGet k at_ 0 4 r ≠ 0 → counterGet k at_ 8 8 r ≠ 0 → TrapsAfter (.tdep d a) s 7 x) ∧
          ∀ id w, (enterTask x.toNat b r).ans = .ok (id, w) →
            (counterGet k at_ 0 4 r = 0 → ∀ y z, pushEntry x w = .ok y → writeReg d.toNat (BitVec.ofNat 64 id) y = .ok z →
              Completes (.tdep d a) s z) ∧
            (counterGet k at_ 0 4 r ≠ 0 → counterGet k at_ 8 8 r = 0 → ∀ z,
              writeReg d.toNat (BitVec.ofNat 64 id) (counterPut k at_ 8 (leBytes 8 x.toNat) w) = .ok z →
              Completes (.tdep d a) s z)))) ∧
  ((∀ (d a : BitVec 6) (s t r u w : State) (x : Word) (old : Nat), legal s (.wake d a) = true →
      readReg a.toNat s = .ok (x, t) → x.toNat % 128 = 0 → isGlobal x.toNat = true →
      (s.cur.sup = false → ∃ dm, s.dom? s.kdom = some dm ∧ dm.pool.toNat ≤ x.toNat ∧
        x.toNat < dm.pool.toNat + 128 * dm.slots) →
      release t = .ok r → wakeSlot r.focus.core x.toNat r = .woke old u →
      writeReg d.toNat (BitVec.ofNat 64 old) u = .ok w → Completes (.wake d a) s w) ∧
    ∀ (c slot pa : Nat) (s v : State), hvTry true slot s = .ok (pa, v) → v.frameBad pa = false →
      v.hw.contains (.freeSlot slot) = false →
      let st := memLe v.mem (pa + 104) 8
      let queued := v.putGlobal (slot + 104) (pa + 104) (leBytes 8 3)
      (st = 2 → queued.pushBottom c (contEntry slot false) = none → wakeSlot c slot s = .full) ∧
      (st = 2 → ∀ z, queued.pushBottom c (contEntry slot false) = some z → wakeSlot c slot s = .woke 2 z ∧
        z.mem = memWrite v.mem (pa + 104) (leBytes 8 3) ∧
        (z.coreAt c).deque = contEntry slot false :: (v.coreAt c).deque) ∧
      (st = 1 → ∃ z, wakeSlot c slot s = .woke 1 z ∧
        z.mem = memWrite v.mem pa (leBytes 8 (memLe v.mem pa 8 / 2 * 2 + 1)) ∧
        ∀ k, (z.coreAt k).deque = (v.coreAt k).deque) ∧
      (st ≠ 1 → st ≠ 2 → wakeSlot c slot s = .woke st v))

/-- BKTSEL sets m0 to m3 from the running task's shape values and gives the table's entry for the first bucket that
holds them all; with none it clears the masks and gives all ones (R158). STEALCTL swaps the core's steal setting for
g(a) bits 3:0 and gives the old one; BUDGET sets an activity's next amount and period and gives its old next amount,
which the model takes for the previous one while an earlier BUDGET is pending (log 73), and raises BUDGET with the
selector where the selector or amount is not one of R160's (R159, R160). -/
def Obligations.DispatcherSettings : Prop :=
  (∀ (d a : BitVec 6) (s t r u : State) (x : Word) (tab b : List Byte), legal s (.bktsel d a) = true →
      readReg a.toNat s = .ok (x, t) → x.toNat % 32 = 0 → t.cur.vq.any (writesTaskMask t.cur.vleft) = false →
      (loadSpan x.toNat 512 t).ans = .ok (tab, r) → (runningRec r).ans = .ok (b, u) →
      let nv := min (recNv b) 4
      let sv (j : Nat) : Nat := leAt b (80 + 4 * j) 4
      let holds (i : Nat) : Prop := ∀ j, j < nv → sv j ≤ leAt tab (32 * i + 4 * j) 4
      (∀ i, i < 16 → holds i → (∀ k, k < i → ¬holds k) → ∃ m, (∀ j, j < 4 → sget 0 m j =
          if nv ≤ j then BitVec.allOnes 512 else BitVec.ofNat 512 (2 ^ min (sv j) 512 - 1)) ∧
        ∀ w, writeReg d.toNat (BitVec.ofNat 64 (leAt tab (32 * i + 16) 8)) (u.setCur { u.cur with m := m }) = .ok w →
          Completes (.bktsel d a) s w) ∧
      ((∀ i, i < 16 → ¬holds i) → ∃ m, (∀ j, j < 4 → sget 0 m j = 0) ∧
        ∀ w, writeReg d.toNat (BitVec.allOnes 64) (u.setCur { u.cur with m := m }) = .ok w → Completes (.bktsel d a) s w)) ∧
  (∀ (d a b : BitVec 6) (s t w : State) (x y : Word),
      (legal s (.stealctl d a) = true → readReg a.toNat s = .ok (x, t) →
        writeReg d.toNat (t.core.steal.setWidth 64) (t.setCoreCur { t.core with steal := x.setWidth 4 }) = .ok w →
        Completes (.stealctl d a) s w) ∧
      (legal s (.budget d a b) = true → readTwo a b s = .ok (x, y, t) →
        let dom := x.toNat % 2 ^ 16
        let res := x.toNat / 2 ^ 16 % 8
        let inst := x.toNat / 2 ^ 19 % 2 ^ 13
        let okay : Prop := inst < budgetInstances res ∧ (s.dom? dom).isSome ∧ x.toNat / 2 ^ 38 = 0 ∧ y.toNat / 2 ^ 48 = 0
        (okay → writeReg d.toNat (BitVec.ofNat 64 (t.budget dom res inst).nextAmount)
            (t.setBudget dom res inst { t.budget dom res inst with
              nextAmount := y.toNat % 2 ^ 48, nextPeriod := x.toNat / 2 ^ 32 % 2 ^ 6 + 1 }) = .ok w →
          Completes (.budget d a b) s w) ∧
        (¬okay → Traps (.budget d a b) s 12 x)))

/-! ### Regions -/

/-- The canonical decomposition of a set operation holds a cell exactly where the operation holds of the operands, for
boxes of one rank (R239, R240, R252). Two lists of boxes that hold the same cells have one canonical form (R239). A
result of more than eight boxes raises REGOVF with the destination and the count under TRAP, and is merged to at most
eight under COVER with IX = 1; one of at most eight is written as it is (R241). -/
def Obligations.RegionAlgebra : Prop :=
  (∀ (op : Bool → Bool → Bool) (r : Nat) (a b : List Box) (x : List Int), op false false = false →
      (∀ bx ∈ a, bx.length = r) → (∀ bx ∈ b, bx.length = r) → x.length = r →
      cellIn (decomp op r a b) x = op (cellIn a x) (cellIn b x)) ∧
  (∀ (r : Nat) (a b : List Box), (∀ bx ∈ a, bx.length = r) → (∀ bx ∈ b, bx.length = r) →
      (∀ x : List Int, x.length = r → cellIn a x = cellIn b x) → canon r a = canon r b) ∧
  (∀ (dest handle rank : Nat) (ix cover : Bool) (bs : List Box),
      (bs.length ≤ 8 → finishBoxes dest handle rank ix cover bs = .ok ⟨handle, rank, bs, ix, false, cover, 0⟩) ∧
      (8 < bs.length → cover = false → finishBoxes dest handle rank ix cover bs =
        .error (.trap 4 (BitVec.ofNat 64 (dest % 8 + min bs.length 255 * 2 ^ 8)))) ∧
      (8 < bs.length → cover = true → ∃ q, finishBoxes dest handle rank ix cover bs = .ok q ∧ q.ix = true ∧
        q.boxes.length ≤ 8 ∧ q.handle = handle ∧ q.rank = rank ∧ q.cover = true))

/-- RBOX makes the region of a box record, or of the whole tensor, clipped and in canonical form; RLD and RST move an
image of 288 bytes, RST once it has read the descriptor that its region names (R233, R250, R251). -/
def Obligations.RegionLoadsAndStores : Prop :=
  ∀ (d a b : BitVec 6) (s t : State) (x : Word), readReg a.toNat s = .ok (x, t) →
    (legal s (.rbox d a b) = true → x.getLsbD 25 = true → ∀ db u de q,
      (descFetch (x.toNat % 2 ^ 24) t).ans = .ok (db, u) → descParse u (x.toNat % 2 ^ 24) db = .ok de →
      finishUnion d.toNat (x.toNat % 2 ^ 24) false (x.getLsbD 24) de [de.bounds.map (fun (n : Nat) => Dim.mk 0 (n : Int) 1)] = .ok q →
      Completes (.rbox d a b) s (u.setQ d.toNat q)) ∧
    (legal s (.rbox d a b) = true → x.getLsbD 25 = false → ∀ addr t' rec u db v de q,
      readFrom s b.toNat t = .ok (addr, t') → addr.toNat % 8 = 0 → (descFetch (x.toNat % 2 ^ 24) t').ans = .ok (db, u) →
      (loadSpan addr.toNat 32 u).ans = .ok (rec, v) → descParse v (x.toNat % 2 ^ 24) db = .ok de →
      (parseBox rec 0).2 = 0 → (∀ dm ∈ (parseBox rec 0).1.take de.rank, dm.step ≠ 0) →
      finishUnion d.toNat (x.toNat % 2 ^ 24) false (x.getLsbD 24) de [(parseBox rec 0).1.take de.rank] = .ok q →
      Completes (.rbox d a b) s (v.setQ d.toNat q)) ∧
    (legal s (.rld d a) = true → x.toNat % 8 = 0 → ∀ im u q v, (loadSpan x.toNat 288 t).ans = .ok (im, u) →
      (imageRegion x.toNat im u).ans = .ok (q, v) → Completes (.rld d a) s (v.setQ d.toNat q)) ∧
    (legal s (.rst d a) = true → x.toNat % 8 = 0 →
      ((t.qreg d.toNat).isNull = true → ∀ u, (storeSpan x.toNat (regionBytes (t.qreg d.toNat)) t).ans = .ok u →
        Completes (.rst d a) s u) ∧
      ((t.qreg d.toNat).isNull = false → ∀ db v e u, (descFetch (t.qreg d.toNat).handle t).ans = .ok (db, v) →
        checkDesc (t.qreg d.toNat) db v = .ok e → (storeSpan x.toNat (regionBytes (t.qreg d.toNat)) v).ans = .ok u →
        Completes (.rst d a) s u))

/-- RUNI, RINT and RSUB write the canonical region of the union, intersection and difference, with IX where an operand
is loose, and a subtrahend that may hold too much raises REGOVF with bit 16 set; two null operands give the null
region (R242, R248, R252). -/
def Obligations.RegionSetOperations : Prop :=
  ∀ (d a b : BitVec 6) (s t : State) (de : Option Desc),
    let qa := s.qreg a.toNat
    let qb := s.qreg b.toNat
    let base := if qa.isNull then qb else qa
    let result (op : Bool → Bool → Bool) (ix : Bool) (e : Desc) : Except Stop Region :=
      finishBoxes d.toNat base.handle e.rank ix base.cover
        (decomp op e.rank (clipBoxes e.bounds qa.boxes) (clipBoxes e.bounds qb.boxes))
    (operandsDesc qa qb s).ans = .ok (de, t) →
    (de = none → legal s (.runi d a b) = true → Completes (.runi d a b) s (t.setQ d.toNat Region.null)) ∧
    (de = none → legal s (.rint d a b) = true → Completes (.rint d a b) s (t.setQ d.toNat Region.null)) ∧
    (de = none → legal s (.rsub d a b) = true → qb.loose = false →
      Completes (.rsub d a b) s (t.setQ d.toNat Region.null)) ∧
    (∀ e q, de = some e → legal s (.runi d a b) = true →
      result (fun x y => x || y) (qa.loose || qb.loose) e = .ok q → Completes (.runi d a b) s (t.setQ d.toNat q)) ∧
    (∀ e q, de = some e → legal s (.rint d a b) = true →
      result (fun x y => x && y) (qa.loose || qb.loose) e = .ok q → Completes (.rint d a b) s (t.setQ d.toNat q)) ∧
    (∀ e q, de = some e → legal s (.rsub d a b) = true → qb.loose = false →
      result (fun x y => x && !y) qa.loose e = .ok q → Completes (.rsub d a b) s (t.setQ d.toNat q)) ∧
    (legal s (.rsub d a b) = true → qb.loose = true → TrapsAfter (.rsub d a b) s 4 (BitVec.ofNat 64 (d.toNat % 8 + 2 ^ 16)))

/-- The forms with one region operand that is not null write the canonical region of the boxes their rule makes: RDIL
dilates, RSHF moves, RSTRD meets a lattice, RRAG puts a table of lengths in place, RPRJ maps into another tensor, RSPL
parts into two registers; a null operand gives null (R253 to R258). RPRJ maps each box of its operand into the target
tensor by the map record. A null operand gives the null region; that the target's descriptor is not read then is the
model's choice (log 92, DESIGN CHOICE) (R254). -/
def Obligations.RegionShapes : Prop :=
  (∀ (d a b : BitVec 6) (s t u : State) (x : Word) (e : Desc) (q q' : Region), readReg b.toNat s = .ok (x, t) →
      let qa := t.qreg a.toNat
      let make (cover : Bool) (bs : List Box) : Except Stop Region := finishUnion d.toNat qa.handle qa.loose cover e bs
      (qa.isNull = true →
        (legal s (.rdil d a b) = true → Completes (.rdil d a b) s (t.setQ d.toNat Region.null)) ∧
        (legal s (.rshf d a b) = true → Completes (.rshf d a b) s (t.setQ d.toNat Region.null)) ∧
        (legal s (.rstrd d a b) = true → Completes (.rstrd d a b) s (t.setQ d.toNat Region.null)) ∧
        (legal s (.rspl d a b) = true →
          Completes (.rspl d a b) s ((t.setQ d.toNat Region.null).setQ (d.toNat + 1) Region.null))) ∧
      (qa.isNull = false → (operandDesc qa t).ans = .ok (e, u) →
        (legal s (.rdil d a b) = true → make qa.cover (qa.boxes.map (boxDilate x)).flatten = .ok q →
          Completes (.rdil d a b) s (u.setQ d.toNat q)) ∧
        (legal s (.rshf d a b) = true → make (if x.getLsbD 63 then x.getLsbD 62 else qa.cover)
            (qa.boxes.map (fun bx => bx.zipIdx.map (fun p => dimShift (shfAmt x p.2) p.1))) = .ok q →
          Completes (.rshf d a b) s (u.setQ d.toNat q)) ∧
        (legal s (.rstrd d a b) = true → (∀ i, i < qa.rank → byteW x (4 + i) < byteW x i) →
          finishOp (fun x y => x && y) d.toNat qa.handle qa.loose qa.cover e qa.boxes
            [e.bounds.zipIdx.map (fun p => Dim.mk (byteW x (4 + p.2) : Int) (p.1 : Int) (byteW x p.2))] = .ok q →
          Completes (.rstrd d a b) s (u.setQ d.toNat q)) ∧
        (legal s (.rspl d a b) = true → x.getLsbD 2 = false → x.toNat % 4 < qa.rank →
          let c := (BitVec.ofNat 24 (x.toNat / 2 ^ 8)).toInt
          make qa.cover (qa.boxes.map (boxCut (x.toNat % 4) true c)) = .ok q →
          finishUnion (d.toNat + 1) qa.handle qa.loose qa.cover e (qa.boxes.map (boxCut (x.toNat % 4) false c)) = .ok q' →
          Completes (.rspl d a b) s ((u.setQ d.toNat q).setQ (d.toNat + 1) q')) ∧
        (legal s (.rspl d a b) = true → x.getLsbD 2 = true →
          let lo := qa.boxes.take ((qa.boxes.length + 1) / 2)
          let hi := qa.boxes.drop ((qa.boxes.length + 1) / 2)
          (qa.loose = true → Completes (.rspl d a b) s
            ((u.setQ d.toNat ⟨qa.handle, qa.rank, lo, true, false, qa.cover, 0⟩).setQ (d.toNat + 1)
              ⟨qa.handle, qa.rank, hi, true, false, qa.cover, 0⟩)) ∧
          (qa.loose = false → finishUnion d.toNat qa.handle false qa.cover e lo = .ok q →
            finishUnion (d.toNat + 1) qa.handle false qa.cover e hi = .ok q' →
            Completes (.rspl d a b) s ((u.setQ d.toNat q).setQ (d.toNat + 1) q'))) ∧
        (legal s (.rrag d a b) = true → x.toNat % 4 = 0 → qa.boxes.length = 1 → 2 ≤ qa.rank → qa.loose = false →
          (∀ bx ∈ qa.boxes, ∃ d0 r, bx = d0 :: r ∧ d0.step = 1) →
          Completes (.rrag d a b) s (u.setQ d.toNat { qa with rg := true, table := x })))) ∧
  (∀ (d a b : BitVec 6) (s t u v w : State) (x : Word) (rec : List Byte) (ba bt : Option (List Byte)) (da dt : Desc)
        (q : Region) (h : Nat) (pi sc : List Nat) (off : List Int),
      legal s (.rprj d a b) = true → readReg b.toNat s = .ok (x, t) → x.toNat % 8 = 0 →
      (loadSpan x.toNat 32 t).ans = .ok (rec, u) → parseMap rec = (h, pi, sc, off, true) →
      let qa := u.qreg a.toNat
      (qa.isNull = true → Completes (.rprj d a b) s (u.setQ d.toNat Region.null)) ∧
      (qa.isNull = false → (descFetch qa.handle u).ans = .ok (ba, v) → (descFetch h v).ans = .ok (bt, w) →
        descParse w qa.handle ba = .ok da → descParse w h bt = .ok dt → da.rank = qa.rank →
        (∀ p ∈ pi.take dt.rank, p < qa.rank) → (∀ k ∈ sc.take dt.rank, k ≠ 0) → allDistinct (pi.take dt.rank) = true →
        finishUnion d.toNat h qa.loose qa.cover dt (qa.boxes.map (boxProject dt.rank pi sc off)) = .ok q →
        Completes (.rprj d a b) s (w.setQ d.toNat q)))

/-- RCMP says how two regions lie, RCNT describes one, RVOL counts its cells and RTST says whether a byte belongs to
one; the null region counts as empty (R259). That RTST takes the addresses of cells as unbounded integers, where the
engines take them modulo 2^64, is the model's choice (log 91, DESIGN CHOICE). -/
def Obligations.RegionQueries : Prop :=
  ∀ (d a b : BitVec 6) (s t u w : State) (x : Word) (de : Option Desc) (e : Desc),
    let qa := s.qreg a.toNat
    let qb := s.qreg b.toNat
    let r := max qa.rank qb.rank
    let never (op : Bool → Bool → Bool) : Nat := if decomp op r qa.boxes qb.boxes = [] then 1 else 0
    (legal s (.rcmp d a b) = true → (operandsDesc qa qb s).ans = .ok (de, t) →
      writeReg d.toNat (BitVec.ofNat 64 (never (fun x y => x && !y) * never (fun x y => !x && y) +
        2 * never (fun x y => x && !y) + 4 * never (fun x y => !x && y) + 8 * never (fun x y => x && y) +
        (if qa.loose || qb.loose then 16 else 0))) t = .ok w → Completes (.rcmp d a b) s w) ∧
    (qa.isNull = true →
      (legal s (.rcnt d a) = true → writeReg d.toNat 0 s = .ok w → Completes (.rcnt d a) s w) ∧
      (legal s (.rvol d a) = true → writeReg d.toNat 0 s = .ok w → Completes (.rvol d a) s w)) ∧
    (qa.isNull = false → (operandDesc qa s).ans = .ok (e, t) →
      (legal s (.rcnt d a) = true → writeReg d.toNat (BitVec.ofNat 64 (qa.boxes.length + qa.rank * 2 ^ 4 +
          (if qa.ix then 2 ^ 8 else 0) + (if qa.rg then 2 ^ 9 else 0) + (if qa.cover then 2 ^ 10 else 0) +
          qa.handle * 2 ^ 32)) t = .ok w → Completes (.rcnt d a) s w) ∧
      (legal s (.rvol d a) = true → qa.rg = false →
        writeReg d.toNat (BitVec.ofNat 64 (((canon qa.rank qa.boxes).map boxVolume).foldl (· + ·) 0)) t = .ok w →
        Completes (.rvol d a) s w)) ∧
    (qa.isNull = false → qa.rg = true → qa.tableBad = false → legal s (.rvol d a) = true →
      ∀ db ls v, (descFetch qa.handle s).ans = .ok (db, t) → (loadLens qa.table qa.rows.length t).ans = .ok (ls, v) →
        checkDesc qa db v = .ok e →
        writeReg d.toNat (BitVec.ofNat 64
          (((raggedBoxes qa (fun k => ls.getD k 0)).map boxVolume).foldl (· + ·) 0)) v = .ok w →
        Completes (.rvol d a) s w) ∧
    (readReg b.toNat s = .ok (x, t) → legal s (.rtst d a b) = true →
      (qa.isNull = true → writeReg d.toNat 0 t = .ok w → Completes (.rtst d a b) s w) ∧
      (qa.isNull = false → qa.rg = false → (operandDesc qa t).ans = .ok (e, u) →
        writeReg d.toNat (if boxesHoldByte e qa.boxes x.toNat then 1 else 0) u = .ok w → Completes (.rtst d a b) s w) ∧
      (qa.isNull = false → qa.rg = true → (operandDesc qa t).ans = .ok (e, u) → ∀ ls v,
        (rowLens qa (raggedRowsAt e qa x.toNat) u).ans = .ok (ls, v) →
        writeReg d.toNat (if boxesHoldByte e (raggedBoxes qa (fun k => sget 0 ls k)) x.toNat then 1 else 0) v = .ok w →
        Completes (.rtst d a b) s w))

/-! ### Engines and transfers -/

/-- An append is a release, takes the next sequence number of its engine and core modulo 2^48 and carries the issuer's
core, context, domain and mode; it completes nothing (01 R10 to R13). The completed number rises across an unbroken
run of finished entries, and a number is reached by the comparison of R14 modulo 2^48 (01 R13, R14). A unit that is
delivered, or that fails, raises the channel's write pointer by 1; with the last one the command leaves the queue and
its number completes, and before it no number does (R262, R265, R267, 01 R13). No domain reset has discarded a command
of the square, whose units the channel would pass as well (21 R456). -/
def Obligations.EngineNumbers : Prop :=
  (∀ (e : Nat) (q : Option Region) (s t : State) (h : CmdHdr), e < 4 → appendCmd e q s = .ok (h, t) →
      let n (u : State) := (u.sqAt (s.focus.core / 8)).seqno e (s.focus.core % 8)
      s.cur.pushes = [] ∧ h.seq = ((n s).issued + 1) % 2 ^ 48 ∧ (n t).issued = h.seq ∧
      (n t).completed = (n s).completed ∧ h.core = s.focus.core ∧ h.ctx = s.focus.ctx ∧ h.dom = s.cur.kdom.toNat ∧
      h.sup = s.cur.sup ∧ h.ord = s.appends ∧ t.appends = s.appends + 1 ∧ t.mem = s.mem ∧ t.cur.g = s.cur.g) ∧
  (∀ (q : SeqNo) (n x : Nat), q.completed < 2 ^ 48 →
      (n = (q.completed + 1) % 2 ^ 48 → q.above = [] → (q.complete n).completed = n ∧ (q.complete n).above = []) ∧
      (n ≠ (q.completed + 1) % 2 ^ 48 → (q.completed + 1) % 2 ^ 48 ∉ q.above →
        (q.complete n).completed = q.completed ∧ (q.complete n).above = q.above ++ [n]) ∧
      (x < 2 ^ 48 → (reached q.completed x = true ↔ (q.completed + (2 ^ 48 - x)) % 2 ^ 48 < 2 ^ 47))) ∧
  (∀ (q : Nat) (c : TCmd) (oor fail : Nat) (s : State), (∀ x ∈ (s.sqAt q).tq, x.dead = false) → c.dead = false →
      let t := advance q c oor fail s
      let num (u : State) := (u.sqAt (c.hdr.core / 8)).seqno 0 (c.hdr.core % 8)
      ((t.sqAt q).chan c.ch).delivered = ((s.sqAt q).chan c.ch).delivered + 1 ∧
      ((t.sqAt q).chan c.ch).reserved = ((s.sqAt q).chan c.ch).reserved ∧
      ((t.sqAt q).chan c.ch).fail = satAdd ((s.sqAt q).chan c.ch).fail fail ∧
      ((t.sqAt q).chan c.ch).oor = satAdd ((s.sqAt q).chan c.ch).oor oor ∧
      (c.units.length ≤ c.done + 1 → num t = (num s).complete c.hdr.seq ∧ ∀ x ∈ (t.sqAt q).tq, x.hdr.ord ≠ c.hdr.ord) ∧
      (c.done + 1 < c.units.length → num t = num s ∧ ∀ x ∈ (s.sqAt q).tq, x.hdr.ord = c.hdr.ord →
        { c with done := c.done + 1 } ∈ (t.sqAt q).tq))

/-- TSEQ, MSEQ, KSEQ and CSEQ give the completed number of their engine for a core of the square, and their `.wt`
forms wait until it reaches a target (01 R14 to R17, 10 R270, 14 R333, 15 R382, 17 R412). -/
def Obligations.SequenceQueries : Prop :=
  ∀ (d a b : BitVec 6) (s t w : State) (x y : Word),
    let now (e : Nat) := (((t.sqAt (s.focus.core / 8)).seqno e (x.toNat % 8)).completed)
    (∀ p ∈ [(Instr.tseq d a, 0), (.mseq d a, 1), (.kseq d a, 2), (.cseq d a, 3)], legal s p.1 = true →
      readReg a.toNat s = .ok (x, t) → (p.2 = 1 → x.getLsbD 8 = false) → (p.2 = 2 → x.toNat / 2 ^ 8 % 4 = 0) → writeReg d.toNat (BitVec.ofNat 64 (now p.2)) t = .ok w → Completes p.1 s w) ∧
    (∀ p ∈ [(Instr.tseqWt a b, 0), (.mwait a b, 1), (.kseqWt a b, 2), (.cseqWt a b, 3)], legal s p.1 = true →
      readTwo a b s = .ok (x, y, t) →
      (reached (now p.2) (y.toNat % 2 ^ 48) = true → Completes p.1 s t) ∧
      (reached (now p.2) (y.toNat % 2 ^ 48) = false →
        StopsWith p.1 s (.wait (.seqno p.2 (s.focus.core / 8) (x.toNat % 8) (y.toNat % 2 ^ 48)))))

/-- COPY appends a command with the units of its region, reserves them on its channel and gives the start mark; a
region without cells reserves none (R264, R265; that a null region, which has no descriptor, reserves none is the
model's reading, log 60). GATH and SCAT append a command with one unit for each element of their index array and give
the start mark (R275, R276); that a null region reserves none is the model's reading (log 60). -/
def Obligations.TransfersIssue : Prop :=
  (∀ (d a b : BitVec 6) (s t u v w : State) (x : Word) (rb : List Byte) (de : Option (Desc × Bool)) (units : List Nat)
        (h : CmdHdr),
      legal s (.copy d a b) = true → readReg b.toNat s = .ok (x, t) → recordAt x t = .ok rb →
      let r := parseCopy rb
      let q := t.qreg a.toNat
      (regionDesc q t).ans = .ok (de, u) →
      ((∃ e okRank, de = some (e, okRank) ∧ q.boxes ≠ [] ∧ (copyCells r x.toNat q e okRank u).ans = .ok (units, v)) ∨
       ((de = none ∨ ∃ e, de = some (e, true) ∧ q.boxes = []) ∧ r.reserved = false ∧ r.dir ≠ 3 ∧ units = [] ∧ v = u)) →
      appendCmd 0 (some q) v = .ok (h, w) →
      let ch := (w.sqAt w.sq).chan r.ch
      let x1 := w.setSq w.sq { w.sqAt w.sq with
        chans := sset (w.sqAt w.sq).chans r.ch { ch with reserved := ch.reserved + BitVec.ofNat 64 units.length } }
      let y := if r.dir = 1 then x1.own h.ord (units.filter (fun l => isGlobal (128 * l))) else x1
      let c : TCmd :=
        { hdr := h, kind := .copy, ch := r.ch, region := q, desc := de.map (·.1), desc2 := none, begun := false,
          kcpool := y.core.kcpool, kmap := y.core.kmap, dir := r.dir, base := r.base, origin := r.origin, ls := r.ls,
          reuse := r.reuse, mark := ch.reserved, units := units, done := 0, index := none, run := 1, seen := [], slot := 0,
          target := 0, ship := none, dead := false }
      ∀ z, writeReg d.toNat ch.reserved (pushTransfer c y) = .ok z → Completes (.copy d a b) s z) ∧
  (∀ (out : Bool) (d a b : BitVec 6) (s t u v w : State) (x : Word) (rb : List Byte) (ix : Shape)
        (de : Option (Desc × Bool)) (h : CmdHdr),
      let i : Instr := if out then .scat d a b else .gath d a b
      legal s i = true → readReg b.toNat s = .ok (x, t) → recordAt x t = .ok rb →
      let r := parseGath rb
      let q := t.qreg a.toNat
      let bytes := match de with
        | some (e, _) => ix.count * r.run * typeBytes e.ty
        | none => 0
      let units := if de = none then [] else upTo ix.count
      indexShape r.index t = .ok ix → ix.bad indexType false false = false → (regionDesc q t).ans = .ok (de, u) →
      ((de = none ∧ v = u) ∨ ∃ e, de = some (e, true) ∧ isSub e.ty = false ∧
        (if out then regionDest e q.cells u else regionSource e q.cells u).ans = .ok v ∧ regionLocal out e q.cells v = .ok ()) →
      localBytesGrant (!out) ((upTo bytes).map (fun (k : Nat) => ((r.base + k : Nat) : Int))) v = .ok () →
      r.reserved = false → appendCmd 0 (some q) v = .ok (h, w) →
      let ch := (w.sqAt w.sq).chan r.ch
      let x1 := w.setSq w.sq { w.sqAt w.sq with
        chans := sset (w.sqAt w.sq).chans r.ch { ch with reserved := ch.reserved + BitVec.ofNat 64 units.length } }
      let y := match out, de with
        | true, some (e, _) => x1.own h.ord (linesOf (((cellSpan e q.cells).map (·.2)).filter isGlobal))
        | _, _ => x1
      let c : TCmd :=
        { hdr := h, kind := if out then .scat else .gath, ch := r.ch, region := q, desc := de.map (·.1), desc2 := none,
          begun := false, kcpool := y.core.kcpool, kmap := y.core.kmap, dir := if out then 1 else 0, base := r.base,
          origin := [], ls := [], reuse := r.reuse, mark := ch.reserved, units := units, done := 0, index := some ix,
          run := r.run, seen := [], slot := 0, target := 0, ship := none, dead := false }
      ∀ z, writeReg d.toNat ch.reserved (pushTransfer c y) = .ok z → Completes i s z)

/-- CWP gives a channel's write pointer or its status, PRES the resident cells of a region, CWAIT goes on where each
cell of its region is resident or delivered by the commands appended before it, and waits where one is not (R262,
R268, R269, R274). -/
def Obligations.CopyQueries : Prop :=
  ∀ (d a b : BitVec 6) (s t u w : State) (x : Word) (e : Desc),
    (legal s (.cwp d a) = true → readReg a.toNat s = .ok (x, t) →
      let c := (t.sqAt t.sq).chan (x.toNat % 16)
      writeReg d.toNat (if x.getLsbD 8 then BitVec.ofNat 64 (c.fail.toNat * 2 ^ 32 + c.oor.toNat) else c.delivered) t =
        .ok w → Completes (.cwp d a) s w) ∧
    (legal s (.cwait a b) = true → readReg b.toNat s = .ok (x, t) →
      let q := t.qreg a.toNat
      (q.isNull = true → Completes (.cwait a b) s t) ∧
      (q.isNull = false → (operandDesc q t).ans = .ok (e, u) →
        let n := cwaitOrd u (x.toNat % 16)
        let ready (c : List Int) : Prop :=
          cellResident u e c = true ∨ bytesDelivered u u.focus.core (x.toNat % 16) n (cellBytes e c) = true
        ((∀ m, u.cur.st ≠ .completing (.region (x.toNat % 16) m)) → n = u.appends) ∧
        (∀ m, u.cur.st = .completing (.region (x.toNat % 16) m) → n = m) ∧
        ((∀ c ∈ q.cells, ready c) → Completes (.cwait a b) s u) ∧
        ((∃ c ∈ q.cells, ¬ready c) → StopsAfter (.cwait a b) s (.wait (.region (x.toNat % 16) n))))) ∧
    (legal s (.pres d a) = true →
      let q := s.qreg a.toNat
      (q.isNull = true → Completes (.pres d a) s (s.setQ d.toNat Region.null)) ∧
      (q.isNull = false → q.rg = false → (operandDesc q s).ans = .ok (e, u) → ∀ r,
        finishUnion d.toNat q.handle false q.cover e (((cellsOf q.rank q.boxes).filter (cellResident u e)).map
          (fun c => c.map (fun v => Dim.mk v (v + 1) 1))) = .ok r → Completes (.pres d a) s (u.setQ d.toNat r)) ∧
      (q.isNull = false → q.rg = true → q.tableBad = false → ∀ db ls v r,
        (descFetch q.handle s).ans = .ok (db, u) → (loadLens q.table q.rows.length u).ans = .ok (ls, v) →
        checkDesc q db v = .ok e →
        finishUnion d.toNat q.handle false q.cover e
          (((cellsOf q.rank (raggedBoxes q (fun k => ls.getD k 0))).filter (cellResident v e)).map
            (fun c => c.map (fun v => Dim.mk v (v + 1) 1))) = .ok r → Completes (.pres d a) s (v.setQ d.toNat r)))

/-- FOPEN opens a fibre or a stream from its record, FNEXT and FNEXTGE advance it and give its coordinate or all ones
at its end, FEND gives its value, and FCLOSE closes it; the words on a register that is closed raise ILL (R278, R279).
FNEXTGE on a fibre finds the first entry at or after the current one whose coordinate reaches the key: while the
coordinate is below it the fibre advances, and with no entry left the answer is all ones (R279). -/
def Obligations.Fibres : Prop :=
  (∀ (d a b : BitVec 6) (s t u w : State) (x : Word),
      let f := s.freg a.toNat
      (legal s (.fopen d a) = true → readReg a.toNat s = .ok (x, t) → x.toNat % 8 = 0 → ∀ rec,
        (loadSpan x.toNat 32 t).ans = .ok (rec, u) →
        let ctl := leAt rec 24 8
        let stream := ctl % 2 == 1
        let size := ctl / 2 % 4
        ctl / 8 = 0 → leAt rec 20 4 = 0 → (stream = false → leAt rec 0 8 % 4 = 0 ∧ leAt rec 8 8 % 2 ^ size = 0) →
        (stream = true ∨ leAt rec 16 4 = 0 → Completes (.fopen d a) s (u.setF d.toNat
          ⟨BitVec.ofNat 64 (leAt rec 0 8), BitVec.ofNat 64 (leAt rec 8 8), leAt rec 16 4, 0, stream, size, true⟩)) ∧
        (stream = false → leAt rec 16 4 ≠ 0 → ∀ co v, (loadV (leAt rec 0 8) 4 u).ans = .ok (co, v) →
          Completes (.fopen d a) s (v.setF d.toNat
            ⟨BitVec.ofNat 64 (leAt rec 0 8), BitVec.ofNat 64 (leAt rec 8 8), leAt rec 16 4, co, stream, size, true⟩))) ∧
      (f.isOpen = true → legal s (.fnext d a) = true →
        (f.left ≤ 1 → writeReg d.toNat (BitVec.allOnes 64) (s.setF a.toNat { f with left := 0 }) = .ok w →
          Completes (.fnext d a) s w) ∧
        (1 < f.left → f.stream = true →
          writeReg d.toNat (BitVec.ofNat 64 ((f.coord + 1) % 2 ^ 32)) (s.setF a.toNat
            { f with cur := f.cur + f.val, coord := (f.coord + 1) % 2 ^ 32, left := f.left - 1 }) = .ok w →
          Completes (.fnext d a) s w) ∧
        (1 < f.left → f.stream = false → ∀ co, (loadV (f.cur + 4).toNat 4 s).ans = .ok (co, t) →
          writeReg d.toNat (BitVec.ofNat 64 co) (t.setF a.toNat
            { f with cur := f.cur + 4, val := f.val + BitVec.ofNat 64 (2 ^ f.size), coord := co, left := f.left - 1 }) =
            .ok w → Completes (.fnext d a) s w)) ∧
      (f.isOpen = true → legal s (.fnextge d a b) = true → readReg b.toNat s = .ok (x, t) → f.stream = true →
        let key := x.toNat % 2 ^ 32
        (key - f.coord < f.left →
          writeReg d.toNat (BitVec.ofNat 64 (f.coord + (key - f.coord))) (t.setF a.toNat
            { f with cur := f.cur + BitVec.ofNat 64 (key - f.coord) * f.val, coord := f.coord + (key - f.coord),
                     left := f.left - (key - f.coord) }) = .ok w → Completes (.fnextge d a b) s w) ∧
        (f.left ≤ key - f.coord → writeReg d.toNat (BitVec.allOnes 64) (t.setF a.toNat { f with left := 0 }) = .ok w →
          Completes (.fnextge d a b) s w)) ∧
      (f.isOpen = true → legal s (.fend d a) = true →
        writeReg d.toNat (if f.left = 0 then 0 else if f.stream then f.cur else f.val) s = .ok w →
        Completes (.fend d a) s w) ∧
      (a.toNat < 8 → Completes (.fclose a) s (s.setF a.toNat Fibre.closed)) ∧
      (f.isOpen = false → (legal s (.fnext d a) = true → Traps (.fnext d a) s 1 (illInfo s)) ∧
        (legal s (.fnextge d a b) = true → Traps (.fnextge d a b) s 1 (illInfo s)) ∧
        (legal s (.fend d a) = true → Traps (.fend d a) s 1 (illInfo s)))) ∧
  (∀ (key n : Nat) (f : Fibre) (s : State),
      (f.left ≠ 0 → key ≤ f.coord → (fibreSeek key (n + 1) f s).ans = .ok (some f, s)) ∧
      (f.left = 0 ∨ (f.left = 1 ∧ f.coord < key) → (fibreSeek key (n + 1) f s).ans = .ok (none, s)) ∧
      (∀ g t, 1 < f.left → f.coord < key → (f.advanced s).ans = .ok (g, t) → (fibreSeek key (n + 1) f s).ans = (fibreSeek key n g t).ans) ∧
      (∀ (d a b : BitVec 6) (x : Word) (t u w : State) (r : Option Fibre), legal s (.fnextge d a b) = true →
        readReg b.toNat s = .ok (x, t) → t.freg a.toNat = f → f.isOpen = true → f.stream = false →
        (fibreSeek (x.toNat % 2 ^ 32) (f.left + 1) f t).ans = .ok (r, u) →
        writeReg d.toNat (match r with | some g => BitVec.ofNat 64 g.coord | none => BitVec.allOnes 64)
          (u.setF a.toNat (match r with | some g => g | none => { f with left := 0 })) = .ok w →
        Completes (.fnextge d a b) s w))

/-! ### Vector and matrix -/

/-- The entry instructions queue a pending entry that holds their shape records, the mask, the seed and counter and
the scalar as they stand at issue, once the operands pass their checks and there is room: a queue of 16 gives up its
oldest entry when that is done and no loop is to run it again. A stochastic conversion that quantizes raises ILL
(R286, R287, R297, R304). -/
def Obligations.VectorEntriesAreQueued : Prop :=
  ∀ (i : Instr) (f : VForm) (s u : State) (scalar : Word), vform i = some f →
    let regs := (if f.toMask then [] else [f.dst]) ++ f.a.toList ++ f.b.toList
    let rec' (x : Nat) : Shape := parseShape x (memRead u.core.mem (x % 2 ^ 19) 32)
    let hd := if f.toMask then none else some (rec' (u.hreg f.dst))
    let ha := f.a.map (fun n => rec' (u.hreg n))
    let hb := f.b.map (fun n => rec' (u.hreg n))
    let sc := match hd with
      | some h => if f.quantOk && h.quant then some (rec' (h.addr + 32)) else none
      | none => none
    let quant : Prop := ∃ h, hd = some h ∧ h.quant = true
    legal s i = true →
    (match i with
      | .vbcast _ a _ _ => readReg a.toNat s = .ok (scalar, u)
      | _ => scalar = 0 ∧ u = s) →
    (∀ n ∈ regs, u.hreg n ≠ 0 ∧ u.hreg n ∉ u.cur.vadv) →
    (∀ x ∈ regs.map u.hreg ++ sc.toList.map (·.addr), u.core.poisoned (x % 2 ^ 19) 32 = false) →
    (f.rs = true → quant → Traps i s 1 (illInfo s)) ∧
    ((f.rs = true → ¬quant) → ∀ v, (checkOperands (f.operands hd ha hb sc) u).ans = .ok v → f.shapeOk hd ha = true →
      (usesDt8 f = true → v.cur.xdt = v.core.dt8Tag) → ∀ q, (v.cur.vq.length < 16 → q = v.cur.vq) →
      (16 ≤ v.cur.vq.length → ∃ e, v.cur.vq = e :: q ∧ e.st = .done ∧ (e.body = true → v.cur.vleft = 0)) →
      ∃ e : VEntry, e.insn = i ∧ e.hd = hd ∧ e.ha = ha ∧ e.hb = hb ∧ e.scale = sc ∧ e.st = .pending ∧ e.body = false ∧
        e.scalar = scalar ∧ e.rsCtr = v.cur.kscnt ∧ e.seed = v.cur.kseed ∧ e.dom = v.cur.kdom.toNat ∧ e.sup = v.cur.sup ∧
        (∀ m, f.maskReg = some m → e.mask = v.mreg m) ∧ (f.maskReg = none → e.mask = BitVec.allOnes 512) ∧
        Completes i s (v.setCur { v.cur with
          vq := q ++ [e], kscnt := if f.rs then v.cur.kscnt + 1 else v.cur.kscnt }))

/-- Integer elements wrap at their width: sum, difference, product, minimum, maximum, magnitude, negation, logic and
shifts of an integer type, with signed types in two's complement (R298, R299). -/
def Obligations.IntegerElements : Prop :=
  ∀ (e : VEntry) (f : VForm) (c : NumCtx) (i a b d : Nat) (sel : Bool) (w : Nat) (sg : Bool), 16 ≤ f.t → f.t ≤ 23 →
    (w, sg) = intShape f.t → a < 2 ^ w → b < 2 ^ w → d < 2 ^ w →
    let res (k : VKind) : Nat := (elResult e { f with kind := k } c i sel a b d).1
    let flags (k : VKind) : Fl := (elResult e { f with kind := k } c i sel a b d).2
    let less (x y : Nat) : Prop := if sg then (x + 2 ^ (w - 1)) % 2 ^ w < (y + 2 ^ (w - 1)) % 2 ^ w else x < y
    let minus (x : Nat) : Prop := sg = true ∧ 2 ^ (w - 1) ≤ x
    res (.add 0) = (a + b) % 2 ^ w ∧ res (.sub 0) = (a + (2 ^ w - b)) % 2 ^ w ∧ res (.mul 0) = a * b % 2 ^ w ∧
    res (.fma 0) = (a * b + d) % 2 ^ w ∧ res .neg = (2 ^ w - a) % 2 ^ w ∧
    (minus a → res .abs = 2 ^ w - a) ∧ (¬minus a → res .abs = a) ∧ res .and = a &&& b ∧ res .or = a ||| b ∧
    res .xor = a ^^^ b ∧ res .shl = a * 2 ^ (b % w) % 2 ^ w ∧ (¬minus a → res .shr = a / 2 ^ (b % w)) ∧
    (minus a → res .shr = 2 ^ w - 1 - (2 ^ w - 1 - a) / 2 ^ (b % w)) ∧
    (less a b → res (.pick false) = a ∧ res (.pick true) = b) ∧
    (less b a → res (.pick false) = b ∧ res (.pick true) = a) ∧ (a = b → res (.pick false) = a ∧ res (.pick true) = a) ∧
    res .sel = (if sel then a else b) ∧ res .iota = i % 2 ^ w ∧
    ∀ k ∈ [VKind.add 0, .sub 0, .mul 0, .fma 0, .neg, .abs, .and, .or, .xor, .shl, .shr, .pick false, .pick true, .sel,
      .iota], flags k = 0

/-- VSHAPE sets a shape register to a record that the context may read, 32-aligned in local memory, or to none; VLOOP
marks its body and no other entry, checks every iteration, with n = 0 does nothing, and is illegal without a body;
VSYNC waits for the context's entries and takes their flags, and its queue is empty then, though an enabled flag
raises FPE; VTBL loads the decode table (R290, R309 to R312). An entry begins only when the core's sequencer is free,
and then one entry of one context executes; an entry's end marks it done and gives its flags to kfpe and to the next
VSYNC (R288, R289, 04 R90). -/
def Obligations.VectorControl : Prop :=
  (∀ (h k : BitVec 4) (a : BitVec 6) (s t u : State) (x : Word),
      (readReg a.toNat s = .ok (x, t) → legal s (.vshape h a) = true →
        (x = 0 ∨ (x.toNat % 32 = 0 ∧ isLocal x.toNat = true ∧ localCheck false x.toNat 32 t = .ok ()) →
          Completes (.vshape h a) s (t.setCur { t.cur with h := sset t.cur.h h.toNat x })) ∧
        (x ≠ 0 → x.toNat % 32 ≠ 0 → Traps (.vshape h a) s 3 x) ∧
        (x ≠ 0 → x.toNat % 32 = 0 → isLocal x.toNat = false → Traps (.vshape h a) s 2 x)) ∧
      (readReg a.toNat s = .ok (x, t) → legal s (.vloop k a) = true →
        let n := x.toNat % 2 ^ 32
        let len := k.toNat + 1
        let busy : Prop := t.cur.vq.length < len ∨ t.cur.vleft ≠ 0 ∨
          ∃ e ∈ t.cur.vq, e.body = true ∧ e.st ≠ .done
        (busy → Traps (.vloop k a) s 1 (illInfo s)) ∧ (¬busy → n = 0 → Completes (.vloop k a) s t) ∧
        (¬busy → n ≠ 0 → (loopChecks n (t.cur.vq.drop (t.cur.vq.length - len)) t).ans = .ok u → ∃ v,
          Completes (.vloop k a) s (rearm v.focus.core v.focus.ctx v) ∧ v.cur.vleft = n ∧ v.cur.vk = len ∧
          v.cur.vq = (u.cur.vq.take (t.cur.vq.length - len)).map (fun e => { e with body := false }) ++
            (t.cur.vq.drop (t.cur.vq.length - len)).map (fun e => { e with body := true }) ∧
          v.cur.vcnt = u.cur.kscnt ∧
          v.cur.kscnt = u.cur.kscnt + BitVec.ofNat 64 (n * rsCount (t.cur.vq.drop (t.cur.vq.length - len))))) ∧
      ((∃ e ∈ s.cur.vq, e.st ≠ .done) → StopsWith .vsync s (.wait .vector)) ∧
      ((∀ e ∈ s.cur.vq, e.st = .done) → s.cur.vflags &&& enabledOf s.cur.kfpe ≠ 0 →
        StopsWith .vsync s (.flags (s.cur.vflags.setWidth 64))) ∧
      (∀ info, let r := (stopState s (.flags info)).cur
        r.vq = [] ∧ r.vflags = 0 ∧ r.vleft = 0 ∧ (s.cur.inTrap = false → r.kcause = 8 ∧ r.kinfo = info ∧
          r.kepc = s.focus.pc ∧ r.pc = s.cur.ktvec)) ∧
      ((∀ e ∈ s.cur.vq, e.st = .done) → s.cur.vflags &&& enabledOf s.cur.kfpe = 0 → ∃ t, Completes .vsync s t ∧
        t.cur.vq = [] ∧ t.cur.vflags = 0 ∧ t.cur.vleft = 0 ∧ t.cur.g = s.cur.g ∧ t.cur.kfpe = s.cur.kfpe) ∧
      (∀ b, s.core.ctxs.any (fun p => p.2.dt8Busy) = false → s.cur.xdt.toNat % 4 = 0 →
        (loadSpan s.cur.xdt.toNat 1024 s).ans = .ok (b, t) →
        let tab := (upTo 256).map (fun i => BitVec.ofNat 32 (leAt b (4 * i) 4))
        (dt8Ok tab = true → Completes .vtbl s (t.setCoreCur { t.core with dt8 := tab, dt8Tag := t.cur.xdt })) ∧
        (dt8Ok tab = false → TrapsAfter .vtbl s 7 s.cur.xdt))) ∧
  (∀ (core : Nat) (s : State), core < 1024 →
      (∀ x, (s.coreAt core).vexec = some x → Completes (.vectorEntryBegin core) s s) ∧
      ((s.coreAt core).vexec = none → Completes (.vectorEntryComplete core) s s) ∧
      (∀ x i e, (s.coreAt core).vexec = none → x < (s.coreAt core).nctx →
        ((s.coreAt core).vlast + 1) % (s.coreAt core).nctx = x → nextEntry (s.ctxAt core x) = some (i, e) →
        entryHold s core e = .free → ∃ t, Completes (.vectorEntryBegin core) s t ∧ (t.coreAt core).vexec = some x ∧
          ((t.ctxAt core x).vq[i]?).map (·.st) = some .executing) ∧
      (∀ x i e p t, (s.coreAt core).vexec = some x → findIdx? (fun e => e.st == .executing) (s.ctxAt core x).vq = some i →
        (s.ctxAt core x).vq[i]? = some e → runEntry core e s = .ok (p, t) → (t.ctxAt core x).vleft = 0 →
        (t.ctxAt core x).vq[i]?.isSome → ∃ u, Completes (.vectorEntryComplete core) s u ∧ (u.coreAt core).vexec = none ∧
          (u.coreAt core).vlast = x ∧ ((u.ctxAt core x).vq[i]?).map (·.st) = some .done ∧
          (u.ctxAt core x).kfpe = (t.ctxAt core x).kfpe ||| p.fl.setWidth 64 ∧
          (u.ctxAt core x).vflags = (t.ctxAt core x).vflags ||| p.fl))

/-- MCLAIM gives the claimant every slot of its mask and the accumulator if asked, or none of them when another core
holds one; MREL needs them all to be its core's, waits while a command of the core in the matrix or context engine's
queue names one of them, and makes them free, whatever else is queued (R324, R325). MLOG sets the arenas from its
record, MREC turns record mode on or off, MREV appends the reversal of the log and empties it, MSEQ with bit 8 gives
the counts of abandoned work, and MQW swaps a core's weight (R333, R334, R341, R342, R347). In record mode a command's
entries are those of its source slots that no logged command has produced, saved, and then its own: 64 bytes each, the
saved copies and gradient buffers one after the other in their arenas, each in whole lines, and the written slot's
producer becomes the entry. Where the entries do not fit the arenas LOGOVF is raised with the own entry's address and
nothing is recorded; outside record mode nothing is logged (R343 to R346). -/
def Obligations.MatrixControl : Prop :=
  (∀ (d a b : BitVec 6) (s t : State) (x y : Word), readTwo a b s = .ok (x, y, t) →
      let k := t.sqAt t.sq
      let lane := t.focus.core % 8
      let taken (c : Option (Nat × Nat)) : Prop := ∃ h, c = some h ∧ h.1 ≠ lane
      let clash : Prop := (∃ n, n < 64 ∧ x.getLsbD n = true ∧ taken (k.slot n).claim) ∨ (y.getLsbD 0 = true ∧ taken k.acc)
      let mine : Prop := (∀ n, n < 64 → x.getLsbD n = true → ∃ dom, (k.slot n).claim = some (lane, dom)) ∧
        (y.getLsbD 0 = true → ∃ dom, k.acc = some (lane, dom))
      let busy : Prop := (∃ c ∈ k.mq, c.hdr.core = t.focus.core ∧
          ((∃ n ∈ c.reads ++ c.writes, n < 64 ∧ x.getLsbD n = true) ∨ (y.getLsbD 0 = true ∧ c.acc = true))) ∨
        ∃ c ∈ k.kq, c.hdr.core = t.focus.core ∧ ∃ n, c.slot = some n ∧ n < 64 ∧ x.getLsbD n = true
      (legal s (.mclaim d a b) = true → clash → ∀ u, writeReg d.toNat 1 t = .ok u → Completes (.mclaim d a b) s u) ∧
      (legal s (.mclaim d a b) = true → ¬clash → ∃ k' : Square,
        (∀ n, n < 64 → x.getLsbD n = true → (k'.slot n).claim = some (lane, t.cur.kdom.toNat) ∧
          ((k.slot n).claim = none → (k'.slot n).decl = none)) ∧
        (∀ n, n < 64 → x.getLsbD n = false → k'.slot n = k.slot n) ∧
        k'.acc = (if y.getLsbD 0 then some (lane, t.cur.kdom.toNat) else k.acc) ∧
        k' = { k with slots := k'.slots, acc := k'.acc } ∧
        ∀ u, writeReg d.toNat 0 (t.setSq t.sq k') = .ok u → Completes (.mclaim d a b) s u) ∧
      (legal s (.mrel a b) = true → (¬mine ∨ (k.mcore lane).recording = true) → Traps (.mrel a b) s 1 (illInfo s)) ∧
      (legal s (.mrel a b) = true → mine → (k.mcore lane).recording = false → busy →
        StopsWith (.mrel a b) s (.wait .hub)) ∧
      (legal s (.mrel a b) = true → mine → (k.mcore lane).recording = false → ¬busy → ∃ u, Completes (.mrel a b) s u ∧
        (∀ n, n < 64 → x.getLsbD n = true → (u.sqAt t.sq).slot n = MSlot.reset) ∧
        (∀ n, n < 64 → x.getLsbD n = false → (u.sqAt t.sq).slot n = k.slot n) ∧
        (u.sqAt t.sq).acc = (if y.getLsbD 0 then none else k.acc))) ∧
  (∀ (d a : BitVec 6) (s t : State) (x : Word), readReg a.toNat s = .ok (x, t) →
      let k := t.sqAt t.sq
      let lane := t.focus.core % 8
      let m := k.mcore lane
      let quiet : Prop := ∀ c ∈ k.mq, ¬(c.kind = .mrev ∧ c.hdr.lane = lane)
      (legal s (.mlog a) = true → x.toNat % 8 = 0 → localCheck false x.toNat 48 t = .ok () →
        t.core.poisoned (x.toNat % 2 ^ 19) 48 = false →
        let v := (List.range 6).map (fun i => memLe t.core.mem (x.toNat % 2 ^ 19 + 8 * i) 8)
        (∀ y ∈ v, isGlobal y = true ∧ y % 128 = 0) → v.getD 0 0 ≤ v.getD 1 0 → v.getD 2 0 ≤ v.getD 3 0 →
        v.getD 4 0 ≤ v.getD 5 0 → ∀ u0 u1 u2,
        (spanGrant needW t.destFoot (v.getD 0 0) (v.getD 1 0 - v.getD 0 0) t).ans = .ok u0 →
        (spanGrant needW t.destFoot (v.getD 2 0) (v.getD 3 0 - v.getD 2 0) u0).ans = .ok u1 →
        (spanGrant needW t.destFoot (v.getD 4 0) (v.getD 5 0 - v.getD 4 0) u1).ans = .ok u2 →
        (u2.sqAt u2.sq).reversing u2.lane = false →
        ∃ m' : MCore, m'.armed = true ∧ m'.logBase.toNat = v.getD 0 0 ∧ m'.logLimit.toNat = v.getD 1 0 ∧
          m'.saveBase.toNat = v.getD 2 0 ∧ m'.saveLimit.toNat = v.getD 3 0 ∧ m'.gradBase.toNat = v.getD 4 0 ∧
          m'.gradLimit.toNat = v.getD 5 0 ∧
          Completes (.mlog a) s (u2.setSq u2.sq ((u2.sqAt u2.sq).setMcore u2.lane m'))) ∧
      (legal s (.mrec a) = true → (x.getLsbD 0 = true → m.armed = true ∧ m.logBase.toNat < m.logLimit.toNat ∧ quiet) →
        Completes (.mrec a) s (t.setSq t.sq (k.setMcore lane { m with recording := x.getLsbD 0 }))) ∧
      (legal s (.mrev a) = true →
        let w0 := x.toNat % 64
        let w1 := x.toNat / 256 % 64
        let ready : Prop := m.recording = false ∧ t.holdsSlot w0 = true ∧ t.holdsSlot w1 = true ∧ t.holdsAcc = true ∧ w0 ≠ w1
        (¬ready → Traps (.mrev a) s 1 (illInfo s)) ∧
        (ready → m.armed = true → ∀ h w, appendCmd 1 none t = .ok (h, w) → ∃ c u, Completes (.mrev a) s u ∧
          (u.sqAt w.sq).mq = (w.sqAt w.sq).mq ++ [c] ∧ c.hdr = h ∧ c.kind = .mrev ∧ c.reads = [w0, w1] ∧
          c.writes = [w0, w1] ∧ c.acc = true ∧ c.entries = (m.logPos.toNat - m.logBase.toNat) / 64 ∧ c.arena = m.logBase ∧
          ((u.sqAt w.sq).mcore w.lane).logPos = m.logBase ∧ ((u.sqAt w.sq).mcore w.lane).savePos = m.saveBase ∧
          ((u.sqAt w.sq).mcore w.lane).gradPos = m.gradBase)) ∧
      (legal s (.mseq d a) = true → x.getLsbD 8 = true →
        let c := k.mcore (x.toNat % 8)
        ∀ u, writeReg d.toNat (BitVec.ofNat 64 (c.nf.toNat * 2 ^ 32 + c.fail.toNat)) t = .ok u →
          Completes (.mseq d a) s u) ∧
      (legal s (.mqw d a) = true →
        let c := k.mcore (x.toNat % 8)
        ∀ u, writeReg d.toNat (BitVec.ofNat 64 c.weight)
          (t.setSq t.sq (k.setMcore (x.toNat % 8) { c with weight := x.toNat / 256 % 16 })) = .ok u →
          Completes (.mqw d a) s u)) ∧
  (∀ (srcA srcB : Option Nat) (e : LogEnt) (s : State),
      let m := (s.sqAt s.sq).mcore s.lane
      let srcs := srcA.toList ++ srcB.toList
      let lines (n : Nat) : Nat := (n + 127) / 128 * 128
      let grad (x : LogEnt) : Nat := match x.slot, x.decl with
        | some _, some d => lines (4 * d.rows * d.cols)
        | _, _ => 0
      let save (x : LogEnt) : Nat := (match x.sv, x.decl with
        | true, some d => lines (d.rows * rowBytes d.ty d.cols + d.scaleCount)
        | _, _ => 0) + (if x.sc then 65536 else 0)
      (m.recording = false → ∃ m', logEntries srcA srcB e s = .ok ([], m') ∧
        m' = { m with producer := m'.producer } ∧ (∀ n, e.slot = some n → m'.producerOf n = none) ∧
        ∀ n, e.slot ≠ some n → m'.producerOf n = m.producerOf n) ∧
      (m.recording = true → ∀ l m', logEntries srcA srcB e s = .ok (l, m') → ∃ own snaps, l = snaps ++ [own] ∧
        own.kind = e.kind ∧ own.word = s.focus.word.toNat % 2 ^ 31 ∧ own.core = s.focus.core % 8 ∧ own.decl = e.decl ∧
        own.slot = e.slot ∧ own.sv = e.sv ∧ own.sc = e.sc ∧ own.src = e.src ∧ own.pitch = e.pitch ∧ own.scale = e.scale ∧
        (∀ x ∈ snaps, x.kind = 2 ∧ x.sv = true ∧ x.sc = false ∧ ∃ n ∈ srcs, x.slot = some n ∧ m.producerOf n = none ∧
          x.decl = ((s.sqAt s.sq).slot n).decl) ∧
        (∀ n ∈ srcs, m.producerOf n = none → ∃ x ∈ snaps, x.slot = some n) ∧
        m'.logPos = m.logPos + BitVec.ofNat 64 (64 * l.length) ∧
        m'.savePos = m.savePos + BitVec.ofNat 64 ((l.map save).foldl (· + ·) 0) ∧
        m'.gradPos = m.gradPos + BitVec.ofNat 64 ((l.map grad).foldl (· + ·) 0) ∧
        (∀ i x, l[i]? = some x → x.addr = (m.logPos + BitVec.ofNat 64 (64 * i)).toNat) ∧
        (∀ n, e.slot = some n → m'.producerOf n = some ((own.addr - m.logBase.toNat) / 64)) ∧
        MCore.inArenas m m' = true) ∧
      (m.recording = true → (∀ n ∈ srcs, (m.producerOf n).isSome = true) →
        (m.logLimit.toNat < (m.logPos + 64).toNat → logEntries srcA srcB e s = .error (.trap 5 m.logPos)) ∧
        ((m.logPos + 64).toNat ≤ m.logLimit.toNat → save e = 0 → grad e = 0 → ∃ l m', logEntries srcA srcB e s = .ok (l, m'))))

/-- A fill is appended with the declared state of its slot, which is type XFA or XFB, the rows and columns of g(b) or
of the region's hull, and its scales; it reads local rows, a neighbour square's slot or the region (R326 to R328). In
record mode it carries the entry that R343 gives it: its source, pitch, scales, declared state and `.rdy` entry, with
a saved copy where R345 asks for one. -/
def Obligations.MatrixFillsAreQueued : Prop :=
  ∀ (isB : Bool) (d a b : BitVec 6) (s t u u' u'' w : State) (x y : Word) (h : CmdHdr) (form : FillForm) (r : FillRegion)
      (rows cols : Nat),
    let i : Instr := match form, isB with
      | .loc, false => .mlda d a b | .rg, false => .mldaRg d a b
      | .street, false => .mldaSt d a b | .avenue, false => .mldaAv d a b
      | .loc, true => .mldb d a b | .rg, true => .mldbRg d a b
      | .street, true => .mldbSt d a b | .avenue, true => .mldbAv d a b
    (if form = .rg then readReg b.toNat s = .ok (y, t) ∧ x = 0 else readTwo a b s = .ok (x, y, t)) →
    let q : Region := if form = .rg then t.qreg a.toNat else Region.null
    let ty := (if isB then t.cur.xfb else t.cur.xfa).toNat
    let sa := (if isB then t.cur.xsb else t.cur.xsa).toNat
    let dec : Decl := ⟨ty, rows, cols, if sa = 0 then 0 else if isB then 2 else 1⟩
    let nbr := neighbourOf t.sq (form == .street) (x.getLsbD 8)
    (match q.hull4 with
      | none => rows = y.toNat % 256 + 1 ∧ cols = y.toNat / 256 % 256 + 1
      | some hl => rows = ((hl.getD 1 (0, 1)).2 - (hl.getD 1 (0, 1)).1).toNat ∧
          cols = ((hl.getD 0 (0, 1)).2 - (hl.getD 0 (0, 1)).1).toNat) →
    legal s i = true → t.holdsSlot d.toNat = true → (form = .street ∨ form = .avenue → nbr.isSome = true) →
    (form = .loc → fillAligned ty x.toNat = true ∧ rowBytes ty cols ≤ y.toNat / 2 ^ 32 ∧
      rowsCheck x.toNat (y.toNat / 2 ^ 32) rows (rowBytes ty cols) t = .ok ()) →
    (scaleCheck sa dec.scaleCount t).ans = .ok u → (fillRegion q u).ans = .ok (r, u') → (r.check u').ans = .ok u'' →
    shapeFits ty rows cols = true → (sa ≠ 0 → 3 < ty ∧ ty ≠ 9) → (sa = 0 → isSub ty = false) → r.bad ty = false →
    (ty = 9 → u''.cur.xdt = u''.core.dt8Tag) →
    (((u''.sqAt u''.sq).mcore u''.lane).recording = true → ((u''.sqAt u''.sq).mcore u''.lane).armed = true) →
    let de := r.desc.map (·.1)
    let entry : LogEnt :=
      { addr := 0, word := 0, kind := 1, core := 0, sc := false, rdy := y.getLsbD 24
        sv := y.getLsbD 25 || form == .street || form == .avenue || (form == .rg && !(de.any q.plain))
        entry := if y.getLsbD 24 then y.toNat / 2 ^ 16 % 256 else 0, slot := some d.toNat, srcA := none, srcB := none
        src := match form, de, q.hull4 with
          | .loc, _, _ => x.toNat
          | .rg, some e, some hl => cellAddr e ((hl.map (·.1)).take q.rank)
          | _, _, _ => 0
        scale := sa, saved := 0, grad := 0, savedC := 0, decl := some dec
        pitch := match form, de with
          | .loc, _ => y.toNat / 2 ^ 32
          | .rg, some e => (BitVec.ofInt 32 (e.strides.getD 1 0)).toNat
          | _, _ => 0 }
    ∀ l m, logEntries none none entry u'' = .ok (l, m) →
    appendCmd 1 (if form = .rg then some q else none) u'' = .ok (h, w) →
    ∃ c v, Completes i s v ∧ (v.sqAt w.sq).mq = (w.sqAt w.sq).mq ++ [c] ∧ c.hdr = h ∧ c.kind = .fill ∧ c.a = d.toNat ∧
      c.decl = some dec ∧ c.scale.toNat = sa ∧ c.begun = false ∧ c.log = l ∧ (v.sqAt w.sq).mcore w.lane = m ∧
      c.src = (match form with
        | .loc => .loc x
        | .rg => if q.boxes = [] then .nothing else .reg q
        | _ => .nbr (nbr.getD 0) (x.toNat % 64)) ∧
      ((v.sqAt w.sq).slot d.toNat).decl = some dec ∧
      ((v.sqAt w.sq).slot d.toNat).claim = ((w.sqAt w.sq).slot d.toNat).claim ∧
      ((v.sqAt w.sq).slot d.toNat).data = ((w.sqAt w.sq).slot d.toNat).data ∧
      (∀ n, n ≠ d.toNat → (v.sqAt w.sq).slot n = (w.sqAt w.sq).slot n) ∧ v.mem = w.mem

/-- A tile opcode needs its slots and, unless it is TTRN, the accumulator claimed by its core, else it raises ILL;
once its operands' declared states keep its rules it is appended, and the slot that it writes takes its declared state
(R335 to R339). In record mode it carries the entry that R343 gives it, with its slot's saved copy, and with a saved C
where R344 asks for one. That the decode table's tag is compared for the types its source slots are declared with, and
not for the shadows, is the model's choice against 04 R95 (log 76, DESIGN CHOICE). -/
def Obligations.TileOpcodesAreQueued : Prop :=
  ∀ (tn : BitVec 8) (a b : BitVec 6) (s : State),
    ∀ p ∈ tileWords tn a b, legal s p.insn = true →
      let k := s.sqAt s.sq
      let src := (p.op.sources a.toNat b.toNat).1.toList ++ (p.op.sources a.toNat b.toNat).2.toList
      let dst := if p.op.writesSlot then [a.toNat] else []
      let ready : Prop := (∀ n ∈ src ++ dst, s.holdsSlot n = true) ∧ (p.op ≠ .trn → s.holdsAcc = true)
      (¬ready → Traps p.insn s 1 (illInfo s)) ∧
      (ready → ∀ h w,
        (∀ n ∈ src, (k.slot n).decl.isSome = true ∧ ((k.slot n).decl.map (·.ty) = some 9 → s.cur.xdt = s.core.dt8Tag)) →
        p.op.operandsOk ((p.op.sources a.toNat b.toNat).1.bind (fun n => (k.slot n).decl))
          ((p.op.sources a.toNat b.toNat).2.bind (fun n => (k.slot n).decl)) s.cur.xfo.toNat = true →
        let res := p.op.result ((p.op.sources a.toNat b.toNat).2.bind (fun n => (k.slot n).decl)) s.cur.xfo.toNat
        let entry : LogEnt :=
          { addr := 0, word := 0, kind := 3, core := 0, sv := p.op.writesSlot
            sc := decide (p.op ∈ [.mul, .sclMul, .exp, .rmax, .relu, .sqrelu, .tanh]), rdy := p.rdy.isSome, entry := p.rdy.getD 0
            slot := dst.head?, srcA := none, srcB := none, src := 0, scale := 0, saved := 0, grad := 0, savedC := 0
            decl := res, pitch := 0 }
        ∀ l m, logEntries (p.op.sources a.toNat b.toNat).1 (p.op.sources a.toNat b.toNat).2 entry s = .ok (l, m) →
        appendCmd 1 none s = .ok (h, w) →
        ∃ c v, Completes p.insn s v ∧ (v.sqAt w.sq).mq = (w.sqAt w.sq).mq ++ [c] ∧ c.hdr = h ∧ c.kind = .tile p.op ∧
          c.reads = src ∧ c.writes = dst ∧ c.acc = decide (p.op ≠ .trn) ∧ c.rdy = p.rdy ∧ c.begun = false ∧
          c.log = l ∧ (v.sqAt w.sq).mcore w.lane = m ∧ (∀ n ∈ dst, ((v.sqAt w.sq).slot n).decl = res) ∧
          (∀ n, n ∉ dst → (v.sqAt w.sq).slot n = (w.sqAt w.sq).slot n) ∧ v.mem = w.mem)

/-! ### Context and collective engines -/

/-- KOPEN takes a free sequence context of the square, the lowest (which one is the model's choice, log 16), and gives
its handle; the other words of the engine are appended with their operands for the context that their handle names,
KCLOSE taking the handle back (R358, R363 to R376). -/
def Obligations.ContextWordsAreAppended : Prop :=
  ∀ (d a b : BitVec 6) (s t : State) (x y : Word),
    let appends (i : Instr) (n : Nat) (p : Option Nat) (x y : Word) (u v : State) : Prop := ∃ h w,
      appendCmd 2 none u = .ok (h, w) ∧ v = w.setSq w.sq { w.sqAt w.sq with kq := (w.sqAt w.sq).kq ++
        [{ hdr := h, insn := i, sc := n, x := x, y := y, slot := none, region := none, page := none, parent := p,
           waitPage := false, got := none }] }
    (readTwo a b s = .ok (x, y, t) → legal s (.kopen d a b) = true → (t.sqReg d.toNat).getLsbD 15 = false →
      x.toNat % 128 = 0 → isGlobal x.toNat = true → slotFormat (y.toNat % 64) = true → ∀ u n v,
      (spanGrant needRW none x.toNat 256 t).ans = .ok u → ((u.sqAt u.sq).sc n).holder = none → n < 64 →
      (∀ k, k < n → ((u.sqAt u.sq).sc k).holder.isSome = true) → appends (.kopen d a b) n none x y u v →
      Completes (.kopen d a b) s ((v.setSq v.sq ((v.sqAt v.sq).setSc n { SeqCtx.free with
          holder := some (v.lane, v.kdom), record := x, fmt := y.toNat % 64 })).setCur
        { v.cur with sq := sset v.cur.sq d.toNat (BitVec.ofNat 64 (2 ^ 15 + y.toNat % 64 * 2 ^ 8 + n)) })) ∧
    (∀ n f, readReg a.toNat s = .ok (x, t) → handle d.toNat t = .ok (n, f) →
      (legal s (.kclose d a) = true → ∀ v, appends (.kclose d a) n none x 0 t v →
        Completes (.kclose d a) s (v.setCur { v.cur with sq := sset v.cur.sq d.toNat 0 })) ∧
      (legal s (.kacc d a) = true → ∀ v, appends (.kacc d a) n none x 0 t v → Completes (.kacc d a) s v) ∧
      (legal s (.ktent d a) = true → ∀ v, appends (.ktent d a) n none x 0 t v → Completes (.ktent d a) s v)) ∧
    (∀ n f, readTwo a b s = .ok (x, y, t) → handle d.toNat t = .ok (n, f) →
      (legal s (.kapp d a b) = true → x.toNat % 8 = 0 → localCheck false x.toNat (64 + 32 * rowSize f) t = .ok () →
        1 ≤ y.toNat % 32 → y.toNat % 32 ≤ 16 → ∀ v, appends (.kapp d a b) n none x y t v →
        Completes (.kapp d a b) s v) ∧
      (legal s (.kpb d a b) = true → ∀ v, appends (.kpb d a b) n none x y t v → Completes (.kpb d a b) s v) ∧
      (legal s (.kspl d a b) = true → y.toNat / 2 ^ 41 = 0 → y.toNat / 2 ^ 32 % 2 ^ 8 ≠ 0 →
        ∀ v, appends (.kspl d a b) n none x y t v → Completes (.kspl d a b) s v) ∧
      (legal s (.kmarg d a b) = true → (y = 0 ∨ (y.toNat % 8 = 0 ∧ localCheck false y.toNat 1032 t = .ok ())) →
        ∀ v, appends (.kmarg d a b) n none x y t v → Completes (.kmarg d a b) s v)) ∧
    (∀ n f, handle d.toNat s = .ok (n, f) →
      (legal s (.krej d) = true → ∀ v, appends (.krej d) n none 0 0 s v → Completes (.krej d) s v) ∧
      (legal s (.kdropt d) = true → ∀ v, appends (.kdropt d) n none 0 0 s v → Completes (.kdropt d) s v) ∧
      (∀ p g, legal s (.kfork d a) = true → handle a.toNat s = .ok (p, g) → d ≠ a →
        ∀ v, appends (.kfork d a) n (some p) 0 0 s v → Completes (.kfork d a) s v)) ∧
    (∀ n, (s.sqReg d.toNat).getLsbD 15 = true → (s.sqReg d.toNat).toNat % 64 = n →
      (∀ dom, ((s.sqAt s.sq).sc n).holder ≠ some (s.focus.core % 8, dom)) →
      handle d.toNat s = .error (.trap 1 (illInfo s))) ∧
    ((s.sqReg d.toNat).getLsbD 15 = false → handle d.toNat s = .error (.trap 1 (illInfo s)))

/-- KLOAD and KVAL need their slot and their context idle, check the chain index and the region, resolve the page and
append; the slot's declared state becomes the context's (R374). KPFX and KINS act at once when the context is idle
(R380, R381); that on a broken context they answer all ones and 3 is the model's reading (log 37). KSEQ gives a
context's lengths or a core's counts (R382). -/
def Obligations.ContextLoadsAndQueries : Prop :=
  ∀ (d a b : BitVec 6) (s t : State) (y : Word) (n f : Nat),
    let sc := (t.sqAt t.sq).sc n
    (readReg b.toNat s = .ok (y, t) → handle a.toNat t = .ok (n, f) → (t.sqAt t.sq).pendingOn n = false →
      (∀ (val : Bool) (i : Instr), i = (if val then .kval d a b else .kload d a b) → legal s i = true →
        t.holdsSlot d.toNat = true → y.toNat / 2 ^ 40 = 0 → y.toNat / 2 ^ 36 % 2 ^ 3 = 0 →
        (y.getLsbD 39 = true → val = true) → (sc.broken = false → y.toNat % 2 ^ 32 < sc.pages) → ∀ q u p v h w,
        (loadRegion y f t).ans = .ok (q, u) → (resolvePage sc (y.toNat % 2 ^ 32) val (!(val && y.getLsbD 39)) u).ans = .ok (p, v) →
        appendCmd 2 q v = .ok (h, w) → ∃ c z, Completes i s z ∧ (z.sqAt w.sq).kq = (w.sqAt w.sq).kq ++ [c] ∧
          c.hdr = h ∧ c.insn = i ∧ c.sc = n ∧ c.y = y ∧ c.slot = some d.toNat ∧ c.region = q ∧ c.page = p ∧
          ((z.sqAt w.sq).slot d.toNat).decl = some (loadDecl f) ∧ z.mem = w.mem) ∧
      (legal s (.kpfx d a b) = true → y.toNat % 8 = 0 → localCheck false y.toNat 72 t = .ok () →
        (sc.broken = true → ∀ z, writeReg d.toNat (BitVec.allOnes 64) t = .ok z → Completes (.kpfx d a b) s z) ∧
        (sc.broken = false → t.core.poisoned (localOff y.toNat) 72 = false → ∀ w v w' z,
          workOn ⟨t.appends, t.kdom, false, 1⟩ t.focus.core sc t = .ok w →
          kPfxRun (BitVec.ofNat 64 (leAt (memRead t.core.mem (localOff y.toNat) 72) 0 8))
            ((List.range 16).map (fun i => leAt (memRead t.core.mem (localOff y.toNat) 72) (8 + 4 * i) 4)) w =
            .ok (v, w') → writeReg d.toNat v w'.s = .ok z → Completes (.kpfx d a b) s z)) ∧
      (legal s (.kins d a b) = true →
        (sc.broken = true → ∀ z, writeReg d.toNat 3 t = .ok z → Completes (.kins d a b) s z) ∧
        (sc.broken = false → ∀ w v w' z, workOn ⟨t.appends, t.kdom, false, 1⟩ t.focus.core sc t = .ok w →
          kInsRun (y.toNat % 2 ^ 32) w = .ok (v, w') →
          (2 ≤ v.toNat → writeReg d.toNat v w'.s = .ok z → Completes (.kins d a b) s z) ∧
          (∀ r, v.toNat < 2 → release w'.s = .ok r → writeReg d.toNat v r = .ok z → Completes (.kins d a b) s z)))) ∧
    (readReg a.toNat s = .ok (y, t) → legal s (.kseq d a) = true → ∀ z,
      (y.toNat / 2 ^ 8 % 4 = 1 → writeReg d.toNat (BitVec.ofNat 64 ((sget 0 (t.sqAt t.sq).kpr (y.toNat % 8)).toNat * 2 ^ 32 +
        (sget 0 (t.sqAt t.sq).kfail (y.toNat % 8)).toNat)) t = .ok z → Completes (.kseq d a) s z) ∧
      (y.toNat / 2 ^ 8 % 4 = 2 → handle (y.toNat / 2 ^ 16 % 4) t = .ok (n, f) → (t.sqAt t.sq).pendingOn n = false →
        writeReg d.toNat (BitVec.ofNat 64 (sc.tlen * 2 ^ 32 + sc.clen)) t = .ok z → Completes (.kseq d a) s z) ∧
      (y.toNat / 2 ^ 8 % 4 = 3 → Traps (.kseq d a) s 7 y))

/-- CCOMM makes a free cm a communicator from its record; CPOST, CBAR, CCLOSE and CTT put their command into the order
of their cm, CCOMM and CPOST with the lines that they are to write (log 63); CRDY sets an entry ready; a cm that is
another core's or free raises ILL (R390, R392, R399, R406, R407, R409, R419). CPOLL gives 0 while the flag word has
not reached its target and the word once it has, freeing ring slots when asked; CWAITF waits for it; CSTAT gives a
cm's or an entry's status, the core's counts or the package number; CARB swaps the square's weights (R410, R411, R413,
R415). -/
def Obligations.CollectiveWords : Prop :=
  (∀ (d a b : BitVec 6) (s t u v w : State) (x y : Word) (h : CmdHdr) (c : Comm),
      (readReg a.toNat s = .ok (x, t) → legal s (.ccomm d a) = true → ((t.sqAt t.sq).cm d.toNat).state = 0 →
        ∀ rec u1 u2, collRecord x.toNat (fun w => 64 + 8 * (w / 2 ^ 32 % 2 ^ 10 + 1)) t = .ok rec → c = parseComm rec →
        c.ring.toNat % 128 = 0 → c.credit.toNat % 8 = 0 → c.putBase.toNat % 128 = 0 →
        (globalSpan needW none c.ring.toNat (c.depth * c.chunk * 128) t).ans = .ok u1 →
        (globalSpan needW none c.credit.toNat 8 u1).ans = .ok u2 →
        (c.putBase = 0 ∧ u = u2 ∨ c.putBase ≠ 0 ∧ (globalSpan needW none c.putBase.toNat c.putSize u2).ans = .ok u) →
        commBad u.kscope (u.memberOf u.sq d.toNat) rec c = false → appendCmd 3 none u = .ok (h, w) →
        Completes (.ccomm d a) s ((w.own h.ord (c.credit.toNat / 128 ::
          (List.range (c.depth * c.chunk)).map (c.ring.toNat / 128 + ·)).eraseDups).setCm w.sq d.toNat { c with
          owner := w.lane, dom := w.kdom, scope := (commScope w.kscope c.members).getD 0, order := [.comm h] })) ∧
      (readReg a.toNat s = .ok (x, t) → legal s (.cpost d a) = true → ownCm d.toNat t = .ok c → ∀ rec,
        collRecord x.toNat (fun _ => 64) t = .ok rec → (parsePost c rec).align = .ok () → c.dom = t.kdom →
        ((parsePost c rec).sourceGrant t).ans = .ok u → ((parsePost c rec).destGrant c.n u).ans = .ok v →
        (parsePost c rec).fmtBad c = false → appendPost d.toNat (parsePost c rec).post v = .ok (h, w) →
        Completes (.cpost d a) s (w.own h.ord ((parsePost c rec).owns c w))) ∧
      (readTwo a b s = .ok (x, y, t) → legal s (.ctt a b) = true → ∀ rec, collRecord x.toNat (fun _ => 48) t = .ok rec →
        let cm := leAt rec 0 8 % 16
        let ent := y.toNat % 256
        let old := (t.sqAt t.sq).tent ent
        ownCm cm t = .ok c → c.dom = t.kdom → (old.valid = true → ((t.sqAt t.sq).cm old.cm).owner = t.lane ∧
          ((t.sqAt t.sq).cm old.cm).dom = t.kdom) →
        (leAt rec 0 8 / 2 ^ 7 % 2 = 1 → (parseTent c rec).align = .ok () → (entryChecks x.toNat c (parseTent c rec) t).ans = .ok u →
          appendC cm (fun h => .ctt h ent ((parseTent c rec).entry cm)) u = .ok (h, w) → Completes (.ctt a b) s w) ∧
        (leAt rec 0 8 / 2 ^ 7 % 2 = 0 → appendC cm (fun h => .ctt h ent TEntry.invalid) t = .ok (h, w) →
          Completes (.ctt a b) s w)) ∧
      (readReg a.toNat s = .ok (x, t) → legal s (.crdy a) = true →
        let e := (t.sqAt t.sq).tent (x.toNat % 256)
        (e.valid = false → Traps (.crdy a) s 1 (illInfo s)) ∧
        (e.valid = true → ((t.sqAt t.sq).cm e.cm).dom = t.kdom → release t = .ok u → ∃ z, Completes (.crdy a) s z ∧
          ((z.sqAt u.sq).tent (x.toNat % 256)) = e.set ∧ z.mem = u.mem)) ∧
      (ownCm d.toNat s = .ok c → c.dom = s.kdom →
        (legal s (.cbar d) = true → appendPost d.toNat (fun h =>
          { kind := .bar, root := 0, src := 0, dst := 0, elems := 0, peers := [], acc := false, wire := 0, op := 0,
            dty := 0, chunk := 1, entry := none, count := 0, ord := h.ord, seqd := some h }) s = .ok (h, w) →
          Completes (.cbar d) s w) ∧
        (legal s (.cclose d) = true → appendC d.toNat CCmd.close s = .ok (h, w) → Completes (.cclose d) s w)) ∧
      (((s.sqAt s.sq).cm d.toNat).state = 0 ∨ ((s.sqAt s.sq).cm d.toNat).owner ≠ s.focus.core % 8 →
        (legal s (.cbar d) = true → Traps (.cbar d) s 1 (illInfo s)) ∧
        (legal s (.cclose d) = true → Traps (.cclose d) s 1 (illInfo s)))) ∧
  (∀ (d a b : BitVec 6) (s t u w : State) (x y : Word) (f : Nat),
      let there : Prop := flagReached f (y.toNat % 2 ^ 40) = true
      (readTwo a b s = .ok (x, y, t) → (flagWord false x y t).ans = .ok (f, u) → legal s (.cpoll d a b) = true →
        (¬there → writeReg d.toNat 0 u = .ok w → Completes (.cpoll d a b) s w) ∧
        (there → y.getLsbD 60 = false → writeReg d.toNat (BitVec.ofNat 64 f) u = .ok w → Completes (.cpoll d a b) s w) ∧
        (there → y.getLsbD 60 = true → ∀ r, release u = .ok r →
          let n := y.toNat / 2 ^ 56 % 2 ^ 4
          let c := (r.sqAt r.sq).cm n
          writeReg d.toNat (BitVec.ofNat 64 f) (freeSlots r.sq n (c.held.filter (fun q => reached40 (y.toNat % 2 ^ 40) q))
            (r.setCm r.sq n { c with held := c.held.filter (fun q => !reached40 (y.toNat % 2 ^ 40) q) })) = .ok w →
          Completes (.cpoll d a b) s w)) ∧
      (readTwo a b s = .ok (x, y, t) → (flagWord true x y t).ans = .ok (f, u) → legal s (.cwaitf a b) = true →
        (there → Completes (.cwaitf a b) s u) ∧
        (¬there → StopsAfter (.cwaitf a b) s (.wait (.flag x.toNat (y.toNat % 2 ^ 40))))) ∧
      (readReg a.toNat s = .ok (x, t) → legal s (.cstat d a) = true →
        let k := t.sqAt t.sq
        let sel := x.toNat / 2 ^ 8 % 4
        (sel = 0 → x.getLsbD 12 = false →
          let c := k.cm (x.toNat % 16)
          c.state < 4 → (c.state = 0 ∨ c.dom = t.kdom) → ∃ r : Word, r.toNat % 4 = c.state ∧ r.getLsbD 2 = c.ovf ∧
            r.getLsbD 3 = c.mis ∧ r.getLsbD 4 = c.xf ∧ r.toNat / 2 ^ 5 % 2 ^ 3 = c.scope % 8 ∧ r.toNat / 2 ^ 8 % 2 ^ 16 = 0 ∧
            r.toNat / 2 ^ 24 = c.posts % 2 ^ 40 ∧ ∀ w, writeReg d.toNat r t = .ok w → Completes (.cstat d a) s w) ∧
        (sel = 0 → x.getLsbD 12 = true →
          let c := k.cm (x.toNat % 16)
          c.state ≠ 0 → c.owner = t.focus.core % 8 → t.isComm = true → c.dom = t.kdom →
          writeReg d.toNat c.status (t.setCm t.sq (x.toNat % 16) { c with ovf := false, xf := false }) = .ok w →
          Completes (.cstat d a) s w) ∧
        (sel = 1 →
          let e := k.tent (x.toNat % 256)
          (e.valid = true → (k.cm e.cm).dom = t.kdom) → writeReg d.toNat e.status t = .ok w → Completes (.cstat d a) s w) ∧
        (sel = 2 → writeReg d.toNat (BitVec.ofNat 64 ((sget 0 k.cfail (x.toNat % 8)).toNat +
          (sget 0 k.crdyx (x.toNat % 8)).toNat * 2 ^ 32 + (sget 0 k.clost (x.toNat % 8)).toNat * 2 ^ 48)) t = .ok w →
          Completes (.cstat d a) s w) ∧
        (sel = 3 → writeReg d.toNat (BitVec.ofNat 64 t.package.toNat) t = .ok w → Completes (.cstat d a) s w)) ∧
      (readReg a.toNat s = .ok (x, t) → legal s (.carb d a) = true →
        writeReg d.toNat ((t.sqAt t.sq).carb.setWidth 64) (t.setSq t.sq { t.sqAt t.sq with carb := x.setWidth 12 }) = .ok w →
        Completes (.carb d a) s w))

/-! ### System, memory and host -/

/-- MFK reads and MTK writes the registers of R183, each in the modes that it allows, and raises ILL for the others.
SLEEP goes on at once past its deadline, with a unit at a port as it issues or with W set, which it clears, and
otherwise the context sleeps; while its continuation slot cannot be read the context is dropped (log 90). REPART needs
context 0 and, on a quiescent core, gives the old mode and switches, which ends every region and held entry; a core
that is not quiescent makes it wait (R227, R185, 12 R286). -/
def Obligations.SystemWords : Prop :=
  (∀ (d a : BitVec 6) (s t u : State) (v : Word),
      let supReads := [4, 9, 10, 11, 12, 16, 17, 19, 20, 22, 23, 24, 25]
      let supWrites := [0, 1, 2, 3, 4, 7, 9, 10, 11, 12, 16, 17, 20]
      let mayRead (n : Nat) : Prop := n ≤ 27 ∧ (n ∈ supReads → s.cur.sup = true)
      let mayWrite (n : Nat) : Prop := n ∈ [6, 8, 14] ∨ (n ∈ supWrites ∧ s.cur.sup = true)
      (legal s (.mfk d a) = true → mayRead a.toNat → writeReg d.toNat (ctlRead s a.toNat) s = .ok u →
        Completes (.mfk d a) s u) ∧
      (legal s (.mfk d a) = true → ¬mayRead a.toNat → Traps (.mfk d a) s 1 (illInfo s)) ∧
      (legal s (.mtk d a) = true → readReg a.toNat s = .ok (v, t) → mayWrite d.toNat → ctlWrite d.toNat v t = .ok u →
        Completes (.mtk d a) s u) ∧
      (legal s (.mtk d a) = true → readReg a.toNat s = .ok (v, t) → ¬mayWrite d.toNat → Traps (.mtk d a) s 1 (illInfo s)) ∧
      (ctlRead s 0 = s.cur.kstat ∧ ctlRead s 1 = s.cur.kcause ∧ ctlRead s 2 = s.cur.kepc ∧ ctlRead s 3 = s.cur.kinfo ∧
        ctlRead s 4 = s.cur.ktvec ∧ ctlRead s 5 = s.cur.kdom.setWidth 64 ∧ ctlRead s 6 = s.cur.kfpe ∧
        ctlRead s 7 = s.cur.kseed ∧ ctlRead s 8 = s.cur.kscnt ∧ (∀ n, n < 4 → ctlRead s (9 + n) = sget 0 s.cur.kscr n) ∧
        ctlRead s 13 = s.cur.kfault ∧ ctlRead s 14 = s.cur.kovf ∧ ctlRead s 16 = s.core.kcpool ∧
        ctlRead s 17 = s.core.kmap ∧ ctlRead s 18 = (if s.core.kmode then 1 else 0) ∧
        ctlRead s 20 = s.core.kpreq.setWidth 64 ∧ ctlRead s 21 = s.kscope ∧ ctlRead s 26 = BitVec.ofNat 64 s.focus.core ∧
        ctlRead s 27 = s.ktime) ∧
      ((∃ st : Word, ctlWrite 0 v s = .ok (s.setCur { s.cur with kstat := st }) ∧ st.getLsbD 0 = s.cur.sup ∧
          st.getLsbD 1 = v.getLsbD 1 ∧ st.getLsbD 2 = v.getLsbD 2 ∧ st.getLsbD 3 = v.getLsbD 3 ∧ st.toNat < 16) ∧
        ctlWrite 2 v s = .ok (s.setCur { s.cur with kepc := v }) ∧ ctlWrite 3 v s = .ok (s.setCur { s.cur with kinfo := v }) ∧
        (v.toNat % 4 = 0 → ctlWrite 4 v s = .ok (s.setCur { s.cur with ktvec := v })) ∧
        (v.toNat % 4 ≠ 0 → ctlWrite 4 v s = .error (.trap 1 (illInfo s))) ∧
        ctlWrite 7 v s = .ok (s.setCur { s.cur with kseed := v }) ∧ ctlWrite 8 v s = .ok (s.setCur { s.cur with kscnt := v }) ∧
        ctlWrite 14 v s = .ok (s.setCur { s.cur with kovf := BitVec.ofNat 64 (v.toNat % 2 ^ 32) }) ∧
        (∃ f : Word, ctlWrite 6 v s = .ok (s.setCur { s.cur with kfpe := f }) ∧
          ∀ k, f.getLsbD k = ((decide (k < 5) || decide (8 ≤ k ∧ k < 13) || decide (k = 16)) && v.getLsbD k)) ∧
        (∀ n, n < 4 → ctlWrite (9 + n) v s = .ok (s.setCur { s.cur with kscr := sset s.cur.kscr n v })) ∧
        (quiescent s s.focus.core s.focus.ctx = false → ctlWrite 16 v s = .error (.trap 1 (illInfo s)) ∧
          ctlWrite 17 v s = .error (.trap 1 (illInfo s))))) ∧
  (∀ (d a : BitVec 6) (s t u : State) (x : Word), readReg a.toNat s = .ok (x, t) →
      let due : Prop := (x ≠ 0 ∧ x.toNat ≤ t.ktime.toNat) ∨ s.cur.rx0.units ≠ [] ∨ (s.isComm = true ∧ s.cur.rx1.units ≠ [])
      (legal s (.sleep a) = true → t.cur.slot = 0 → due → Completes (.sleep a) s t) ∧
      (legal s (.sleep a) = true → t.cur.slot = 0 → ¬due →
        exec (.sleep a) s = .next { backOut s (.sleeping x) with last := .held }) ∧
      (legal s (.sleep a) = true → t.cur.slot ≠ 0 → ∀ b q, (hvRead t.cur.slot.toNat 8 t).ans = .ok (b, q) →
        (ofBytes b % 2 = 1 → (hvWrite t.cur.slot.toNat (leBytes 8 (ofBytes b - 1)) q).ans = .ok u → Completes (.sleep a) s u) ∧
        (ofBytes b % 2 = 0 → due → Completes (.sleep a) s q) ∧
        (ofBytes b % 2 = 0 → ¬due → ∃ l, exec (.sleep a) s = .next { backOut (s.seeing l) (.sleeping x) with last := .held })) ∧
      (legal s (.sleep a) = true → t.cur.slot ≠ 0 → ∀ p n r, (hvRead t.cur.slot.toNat 8 t).ans = .error (.drop p n r) →
        StopsAfter (.sleep a) s (.drop p n r)) ∧
      (legal s (.repart d a) = true → s.focus.ctx ≠ 0 → Traps (.repart d a) s 1 (illInfo s)) ∧
      (legal s (.repart d a) = true → s.focus.ctx = 0 →
        (quiescent t t.focus.core 0 = true → writeReg d.toNat (if t.core.kmode then 1 else 0) t = .ok u →
          Completes (.repart d a) s (u.setCoreCur (u.core.switchTo (x.getLsbD 0) (u.cycle + 1)))) ∧
        (quiescent t t.focus.core 0 = false → StopsWith (.repart d a) s (.wait .quiesce))) ∧
      (∀ (k : Core) (m : Bool) (n : Nat), (k.switchTo m n).kmode = m ∧ (k.switchTo m n).full = [] ∧
        (k.switchTo m n).hb = [] ∧ (∀ x, ((k.switchTo m n).ctxAt x).vq = [] ∧ ((k.switchTo m n).ctxAt x).q = []) ∧
        (m ≠ k.kmode → (k.switchTo m n).began = n ∧ ∀ x, x ≠ 0 → ((k.switchTo m n).ctxAt x).st = .idle)))

/-- PGMIG accepts a request or gives its code, PGHEAT gives a page's heat or a district's counts, ROWRET adds a row to
the retirement list, SHOOT discards what is cached of a range, PGREF answers a fault, PLBW writes a rights entry and
DOMSET a domain's record (R436, R437, R441, R442, R444, R446, R448). Some of this is the model's: the order of PGMIG's
and ROWRET's codes (logs 42, 45), what SHOOT does to local memory (log 43), PGREF's rounding to a 4 KiB page (log 44)
and DOMSET's reading of a pool slot (log 46). IRQ raises a vector of its function, or with K wakes the pager; DRESET
of another domain resets it, its issuer waiting until it is issued again (that it does every step as it begins and
ends on re-issue is log 47); QOSP gives what an activity has used (R454, R455, R457). -/
def Obligations.MemoryAndHostWords : Prop :=
  (∀ (d a b : BitVec 6) (s t u w : State) (x y : Word),
      (readTwo a b s = .ok (x, y, t) →
        (legal s (.pgmig d a b) = true → pageHome x t = .ok none → writeReg d.toNat 2 t = .ok w →
          Completes (.pgmig d a b) s w) ∧
        (legal s (.pgmig d a b) = true → ∀ q l, pageHome x t = .ok (some q) → walkTop q x.toNat t = (some l, u) →
          let n := districtOf q
          let page := x.toNat / 2 ^ leafShift l * 2 ^ leafShift l
          let code := migCode u (u.district n) l x.toNat (y.toNat % 2 ^ 52) (y.getLsbD 63)
          (code ≠ 0 → writeReg d.toNat (BitVec.ofNat 64 code) u = .ok w → Completes (.pgmig d a b) s w) ∧
          (code = 0 → writeReg d.toNat 0 (u.setDistrict n { u.district n with migs := (u.district n).migs ++
              [⟨page, 2 ^ leafShift l, y.toNat % 2 ^ 52, y.getLsbD 63, leafPa l page, false, false, 0⟩] }) = .ok w →
            Completes (.pgmig d a b) s w)) ∧
        (legal s (.pgheat d a b) = true →
          (∀ q, y.toNat % 4 = 0 → pageHome x t = .ok (some q) →
            writeReg d.toNat (BitVec.ofNat 64 (t.heatOf q x.toNat).1) (t.heatOf q x.toNat).2 = .ok w →
            Completes (.pgheat d a b) s w) ∧
          (y.toNat % 4 = 1 → writeReg d.toNat (if x.getLsbD 2 then (t.district (x.toNat % 4)).expFills
            else (t.district (x.toNat % 4)).hbmFills) t = .ok w → Completes (.pgheat d a b) s w) ∧
          (y.toNat % 4 = 2 → writeReg d.toNat (t.district (x.toNat % 4)).corrected t = .ok w →
            Completes (.pgheat d a b) s w) ∧
          (y.toNat % 4 = 3 → writeReg d.toNat (t.district (x.toNat % 4)).uncorrected t = .ok w →
            Completes (.pgheat d a b) s w)) ∧
        (legal s (.shoot a b) = true →
          let n := y.toNat % 2 ^ 24
          (x.toNat % 4096 ≠ 0 → Traps (.shoot a b) s 3 x) ∧
          (x.toNat % 4096 = 0 → isGlobal x.toNat = true → n = 0 → Traps (.shoot a b) s 7 y) ∧
          (x.toNat % 4096 = 0 → isGlobal x.toNat = true → isLocal x.toNat = false → n ≠ 0 → release t = .ok u →
            Completes (.shoot a b) s (shootRange x.toNat (x.toNat + 4096 * n) (y.getLsbD 32) (y.getLsbD 33) u))) ∧
        (legal s (.pgref d a b) = true → ∀ home, (t.dom? (y.toNat % 2 ^ 16)).isSome = true → pageHome x t = .ok home →
          release t = .ok u → ∀ n v, answerFault home (x.toNat / 4096 * 4096) (y.toNat % 2 ^ 16) (y.getLsbD 16) u = (n, v) →
          writeReg d.toNat (BitVec.ofNat 64 n) v = .ok w → Completes (.pgref d a b) s w) ∧
        (legal s (.plbw d a b) = true → ∀ r old q v,
          let dom := x.toNat % 2 ^ 16
          let seg := x.toNat / 2 ^ 16 % 2 ^ 27
          t.dom? dom = some r → seg < r.segs → release t = .ok u → (hvRead (r.rights.toNat + 2 * seg) 2 u).ans = .ok (old, q) →
          (hvWrite (r.rights.toNat + 2 * seg) (leBytes 2 (y.toNat % 2 ^ 16)) q).ans = .ok v →
          writeReg d.toNat (BitVec.ofNat 64 (ofBytes old)) (v.dropPair dom seg) = .ok w → Completes (.plbw d a b) s w) ∧
        (legal s (.domset d a b) = true →
          let dom := x.toNat % 2 ^ 16
          (isGlobal y.toNat = true → y ≠ 0 → y.toNat % 128 = 0 → ∀ rec q, (hvRead y.toNat 128 t).ans = .ok (rec, q) →
            (dom < 256 → domainBad rec = false → writeReg d.toNat 0 (installDomain dom rec q) = .ok w →
              Completes (.domset d a b) s w) ∧
            (dom = 0xFFFF → packageBad rec = false → writeReg d.toNat 0 { q with pkg := parsePackage rec } = .ok w →
              Completes (.domset d a b) s w)) ∧
          (y = 0 → dom < 256 → ∀ r q, t.dom? dom = some r →
            ((t.domainBusy dom r).ans = .ok (true, q) → writeReg d.toNat 1 q = .ok w → Completes (.domset d a b) s w) ∧
            ((t.domainBusy dom r).ans = .ok (false, q) → writeReg d.toNat 0 (q.setDom dom none) = .ok w →
              Completes (.domset d a b) s w)))) ∧
      (readReg a.toNat s = .ok (x, t) → legal s (.rowret d a) = true →
        let row := x.toNat % 2 ^ 32
        (rowCode t row = 0 → writeReg d.toNat 0 { t with retired := t.retired ++ [row] } = .ok w →
          Completes (.rowret d a) s w) ∧
        (rowCode t row ≠ 0 → writeReg d.toNat (BitVec.ofNat 64 (rowCode t row)) t = .ok w → Completes (.rowret d a) s w))) ∧
  (∀ (d a b : BitVec 6) (s t u w : State) (x y : Word),
      let dom := x.toNat % 2 ^ 16
      (readTwo a b s = .ok (x, y, t) → legal s (.irq a b) = true →
        (t.dom? dom = none → Traps (.irq a b) s 2 x) ∧
        ((t.dom? dom).isSome = true → release t = .ok u →
          (x.getLsbD 16 = false → y.toNat % 128 < 4 → Traps (.irq a b) s 7 y) ∧
          (x.getLsbD 16 = false → 4 ≤ y.toNat % 128 → Completes (.irq a b) s (u.raiseVector dom (y.toNat % 128))) ∧
          (x.getLsbD 16 = true → (irqPager dom u).ans = .ok w → Completes (.irq a b) s w))) ∧
      (readReg a.toNat s = .ok (x, t) → legal s (.dreset d a) = true →
        let me := 16 * s.focus.core + s.focus.ctx
        let b := s.bar dom
        (me ∉ b.joined → b.resetting = none → dom = s.cur.kdom.toNat → Traps (.dreset d a) s 1 (illInfo s)) ∧
        (me ∉ b.joined → b.resetting = none → dom ≠ s.cur.kdom.toNat → s.dom? dom = none → Traps (.dreset d a) s 2 x) ∧
        (me ∉ b.joined → b.resetting = none → dom ≠ s.cur.kdom.toNat → (s.dom? dom).isSome = true →
          exec (.dreset d a) s = .next { backOut (resetDomain dom (s.setBar dom { b with resetting := some me }))
            (.waiting (.reset dom)) with last := .held }) ∧
        (me ∉ b.joined → b.resetting = some me → writeReg d.toNat 0 (endReset dom t) = .ok w →
          Completes (.dreset d a) s w) ∧
        (me ∈ b.joined → b.resetting = none →
          writeReg d.toNat 1 (t.setBar dom { b with joined := b.joined.filter (· != me) }) = .ok w →
          Completes (.dreset d a) s w)) ∧
      (readReg a.toNat s = .ok (x, t) → legal s (.qosp d a) = true →
        let res := x.toNat / 2 ^ 16 % 8
        let inst := x.toNat / 2 ^ 19 % 2 ^ 13
        let okay : Prop := inst < budgetInstances res ∧ (t.dom? dom).isSome = true ∧ x.toNat / 2 ^ 38 = 0
        (¬okay → Traps (.qosp d a) s 12 x) ∧
        (okay → writeReg d.toNat (BitVec.ofNat 64 ((t.budget dom res inst).used % 2 ^ 48 +
            (t.budget dom res inst).index % 2 ^ 16 * 2 ^ 48)) t = .ok w → Completes (.qosp d a) s w)))

/-- Every hardware step on a part that exists comes to its end, whatever the state; one on a part that does not is a
fault of the model, since the spec has no such step (log 50) (spec/95). -/
def Obligations.HardwareStepsComplete : Prop :=
  ∀ (i : Instr) (s : State), i.isEvent = true →
    (partExists i = true → ∃ t, Completes i s t) ∧ (partExists i = false → exec i s = .fault .noSuchPart)

/-- What the engines' steps do: a context-engine step executes the oldest command on its context when it is of its
kind; a request to pre-empt sets its bit; the operation of a context that waits completes exactly when its wait is
over; a wake message that names the context's request makes it ready, and any other is discarded (that drops are
numbered is log 67); the next unit on its way reaches its port; a fault ring with nothing to retry stays as it is (05
R128, 07 R163, R170, R172, R174, R185, 08 R227, 15 R364, 20 R435). What the memory's and the host's steps do: a
migration copies a line at a time; heat halves; an error is counted in its district and, when it cannot be corrected,
poisons its line in a frame or in local memory (log 66 numbers the lines and the tables, an error of which is only
counted); a port that fails is no longer ready; a retry shows nowhere; a package reset leaves what reset leaves but
for the retirement list and the firmware, the clock moves by 100 MHz within its bounds, and gating drops a core's
caches (log 49); the doorbell moves the tail of a ring; a host read changes nothing, and a posted write is performed
in its order or waits for its page (log 48) (05 R139, 20 R438, R440, R447, 21 R450, R451, R459 to R463). The steps of
the transfer engine and of the matrix engine. A channel delivers in its turn alone (log 60), and the unit of the
command at its head; an element whose run leaves the tensor or the region is zero-filled by a gather. A fill writes
its slot and completes; the arbiter starts the first core from its pointer on that has a ready opcode and a credit; an
opcode's end writes C and frees the datapath, its poisoned slots and lines of C read as +0 and count in FAIL (log 66);
MREV of an empty log leaves C as it is but for those lines, and its working slots without contents (log 36) (10 R261,
R265, R276, 14 R329, R331, R332, R347, R353, 20 R447). The steps of the collective engine, in the order of commands of
logs 40 and 63. A post begins when it is the next of its communicator and none runs, and completes at once on a broken
communicator; the priority channel sends before the bulk channels, and a chunk that leaves takes its sequence number;
a chunk that arrives lands, and then the ring is worked off; CONNECT opens the way to a ring; a post is complete when
its lines are placed and its chunks are answered, and a firing counts in its entry (17 R391, R393, R397, R398, R400,
R404, R405, R408, R414). The dispatcher's steps. An idle context takes the best entry of its deque, of the kind of the
step, for a domain that is drawn and passing over entries that could not go on now (logs 15, 52, 82), and a task
starts with its record's program counter and argument; a thief takes one entry that it may take from the first core
that has one, to the bottom of its own deque (log 74); what makes a context stop, what withdraws the request (log 41)
and what the reload then gives (log 26 for the saved S), but for a poisoned save area, which keeps the request (log
66); an entry of a launch ring is taken, and a failed one reports all ones (log 48 for what a launch waits for); the
image is verified at power-up, and a part that may report becomes ready (06 R146, R147, 07 R174, R175, R176, 21 R451,
R461, 01 R26). Further steps of the hardware. MIGR's record reaches its square, and the entry goes to the bottom of
the first core from the one of the target address on that has an idle context (log 82), or to the issuing core while
the square has not reported ready; the counts of hot lines halve, and a line below 16 is pinned no longer; a page is
taken from the free list for a waiting command; a held event is sent once the port has room; an activity's period
begins, and then what it held goes on; with a free block the pool-held contexts issue again; a migration begins with M
= 1, or is given up where the page is no more what it was (log 42), and ends with the new frame and the wake of what
dropped on the page; a part out of service, in the numbers of log 49, is not ready, a district with its squares; a
function's reset is its domain's in one step, and the physical function's the package's (log 49); a good image is
staged; the host's mailbox gets a signed measurement (log 9), but not in recovery mode (log 49); a register of an
enabled function takes what the host writes, and offsets that ignore writes change nothing (01 R9, R26, 06 R161, 10
R277, R280, 15 R357, 17 R391, 20 R438, 21 R450, R459, R461, R462). -/
def Obligations.HardwareStepEffects : Prop :=
  (∀ (s : State) (c x : Nat), c < 1024 → x < 16 →
      (∀ i q n kind, contextStep i = some (q, n, kind) → q < 128 → n < 64 → Completes i s
        (match (s.sqAt q).kHead n with
          | none => s
          | some k => if kind k.insn then kExecute q k s else s)) ∧
      (∃ t, Completes (.kpreqSet c x) s t ∧ (t.coreAt c).kpreq.getLsbD x = true ∧
        (∀ y, y < 16 → y ≠ x → (t.coreAt c).kpreq.getLsbD y = (s.coreAt c).kpreq.getLsbD y) ∧ t.mem = s.mem) ∧
      (∀ d, (s.ctxAt c x).st = .sleeping d → Completes (.sleepDeadline c x) s
        (if d ≠ 0 ∧ d.toNat ≤ s.ktime.toNat then s.setCtx c x { s.ctxAt c x with st := .ready } else s)) ∧
      (∀ w, (s.ctxAt c x).st = .waiting w → Completes (.memoryReply c x) s
        (if waitOver s c x w = true then s.setCtx c x { s.ctxAt c x with st := .completing w } else s)) ∧
      (∀ l, (s.ctxAt c x).st = .waiting (.recall l) → Completes (.homeRecall c x) s
        (if ∃ o ∈ s.owned, o.line = l then s else s.setCtx c x { s.ctxAt c x with st := .completing (.recall l) })) ∧
      (∀ d e p g n, (s.ctxAt c x).st = .waiting (.header d e p g n) → Completes (.packetHeaderAccept c x) s
        (if headerRoom s (c, x, 0) d e p g n = true ∨ headerRoom s (c, x, 1) d e p g n = true
          then s.setCtx c x { s.ctxAt c x with st := .completing (.header d e p g n) } else s)) ∧
      ((s.ctxAt c 0).st = .waiting .quiesce → Completes (.repartSwitch c) s
        (if quiescent s c 0 = true then s.setCtx c 0 { s.ctxAt c 0 with st := .completing .quiesce } else s)) ∧
      (∀ page, (∀ m ∈ s.wakeMsgs, ¬(m.core = c ∧ m.ctx = x ∧ m.page = page)) → Completes (.wakeMessage c x page) s s) ∧
      (∀ page m p r n, s.wakeMsgs.find? (fun m => m.core == c && m.ctx == x && m.page == page) = some m →
        (s.ctxAt c x).st = .dropped p r n →
        let t := { s with wakeMsgs := s.wakeMsgs.erase m }
        Completes (.wakeMessage c x page) s (if n = m.req then t.setCtx c x { t.ctxAt c x with st := .ready } else t)) ∧
      (∀ p u r, p < 2 → ((s.ctxAt c x).rx p).flight = u :: r → ∃ t, Completes (.portUnitArrival c x p) s t ∧
        ((t.ctxAt c x).rx p).units = ((s.ctxAt c x).rx p).units ++ [u] ∧ ((t.ctxAt c x).rx p).flight = r ∧
        (∀ n, (s.ctxAt c x).st = .rxBlocked n → (t.ctxAt c x).st = if n = p then .ready else .rxBlocked n) ∧
        (∀ d, (s.ctxAt c x).st = .sleeping d →
          (t.ctxAt c x).st = if p = 0 ∨ x = (s.coreAt c).comm then .ready else .sleeping d)) ∧
      (∀ dom, dom < 256 → (∀ f ∈ s.faults, f.dom = dom → f.place.isSome = true) → Completes (.faultRingRetry dom) s s)) ∧
  (∀ (s : State),
      (∀ n m q, n < 4 → s.migHead n = some (m, q) → m.running = true → 128 * m.next < m.size →
        (∀ o ∈ s.owned, o.line ≠ (m.page + 128 * m.next) / 128) →
        s.entryOn m.page (m.page + m.size) = false → ∃ t, Completes (.migrationLineCopy n) s t ∧
          t.mem = memWrite s.mem (m.newFrame + 128 * m.next) (memRead s.mem (m.oldFrame + 128 * m.next) 128) ∧
          (t.district n).migs = { m with next := m.next + 1 } :: (s.district n).migs.drop 1) ∧
      (∃ t, Completes .heatPeriodHalving s t ∧ t.mem = s.mem ∧
        ∀ q, (t.sqAt q).heat = (s.sqAt q).heat.map (fun e => (e.1, e.2 / 2))) ∧
      (∀ l, l < 2 ^ 40 → frameValid (128 * l) = true → scrubPlace l = some (.phys l)) ∧
      (∀ k n, k < 1024 → n < 4096 → scrubPlace (2 ^ 40 + 4096 * k + n) = some (.loc k n)) ∧
      (∀ q n, q < 128 → n < 64 → scrubPlace (2 ^ 41 + 64 * q + n) = some (.slot q n)) ∧
      (∀ k n, k < 1024 → n < 4 → scrubPlace (2 ^ 42 + 4 * k + n) = some (.table k n)) ∧
      (∀ l p bad, scrubPlace l = some p → ∃ t, Completes (.scrubPass l bad) s t ∧ p.district < 4 ∧
        (t.district p.district).corrected = (s.district p.district).corrected + (if bad then 0 else 1) ∧
        (t.district p.district).uncorrected = (s.district p.district).uncorrected + (if bad then 1 else 0) ∧ t.mem = s.mem ∧
        (bad = false → t.poison = s.poison ∧ t.cores = s.cores ∧ t.squares = s.squares) ∧
        (bad = true → (∀ n, p = .phys n → n ∈ t.poison) ∧ (∀ k n, p = .loc k n → n ∈ (t.coreAt k).lpoison) ∧
          (∀ q n, p = .slot q n → ((t.sqAt q).slot n).held = ((s.sqAt q).slot n).held))) ∧
      (∀ p, p < 16 → ∃ t, Completes (.linkPortFailure p) s t ∧ (t.readyWord 2).getLsbD (17 + p) = false ∧
        ∀ k, k ≠ 17 + p → (t.readyWord 2).getLsbD k = (s.readyWord 2).getLsbD k) ∧
      (∀ p, p < 16 → Completes (.flitCrcRetry p) s s) ∧
      (∃ t, Completes .packageReset s t ∧ t.retired = s.retired ∧ t.mem = [] ∧ t.cores = State.reset.cores ∧
        t.squares = State.reset.squares ∧ t.fw.image = s.fw.update.getD s.fw.image) ∧
      (∀ up, ∃ t, Completes (.clockStep up) s t ∧
        t.fw.clock = (if up then min 3300 (s.fw.clock + 100) else if 200 ≤ s.fw.clock then s.fw.clock - 100 else s.fw.clock)) ∧
      (∀ fn tail, fn < 256 → Completes (.lrtail fn tail) s
        (if s.barOpen fn then s.setBar fn { s.bar fn with lrtail := tail } else s)) ∧
      (∀ addr data, Completes (.hostMemoryAccess false addr data) s s) ∧
      (∀ (addr : Word) (data : List Byte), (s.readyWord 2).getLsbD 16 = true → isGlobal addr.toNat = true → data ≠ [] →
        addr.toNat % 128 + data.length ≤ 128 →
        (∀ t, s.hw = [] → s.hvPut addr.toNat data = some t → Completes (.hostMemoryAccess true addr data) s t) ∧
        (s.hvPut addr.toNat data = none ∨ HwWork.write addr.toNat data ∈ s.hw →
          Completes (.hostMemoryAccess true addr data) s { s with hw := s.hw ++ [.write addr.toNat data] })) ∧
      (∀ c, c < 1024 → ∃ t, Completes (.corePowerGating c) s t ∧ (t.coreAt c).gated = !(s.coreAt c).gated ∧
        ((s.coreAt c).gated = false → (t.coreAt c).l1 = [] ∧ (t.coreAt c).plb = []) ∧ (t.coreAt c).ctxs = (s.coreAt c).ctxs)) ∧
  (∀ (s : State) (q n : Nat), q < 128 →
      let k := s.sqAt q
      (n < 16 → k.turnOf ≠ some n → Completes (.copyUnitDelivery q n) s s ∧ Completes (.gatherElementDelivery q n) s s ∧
        Completes (.scatterElementWrite q n) s s) ∧
      (n < 16 → k.turnOf = some n → ∀ c u de, k.channelHead n = some c → c.units[c.done]? = some u → c.begun = true →
        c.desc2 = some de →
        let v := s.setSq q { k with trr := n }
        (c.kind = .copy →
          (∀ t, copyUnit c de u v = .ok t →
            Completes (.copyUnitDelivery q n) s (advance q c 0 0 (t.disown c.hdr.ord u))) ∧
          (∀ w, copyUnit c de u v = .error (.abandon w) →
            Completes (.copyUnitDelivery q n) s (advance q c 0 1 ((v.metPoison w).disown c.hdr.ord u))) ∧
          (∀ va r e, copyUnit c de u v = .error (.wait va r e) →
            Completes (.copyUnitDelivery q n) s (v.engineWaits c.hdr.core c.hdr.agent va r e))) ∧
        (∀ h, c.index = some h → c.kind = .gath ∨ c.kind = .scat →
          let i : Instr := if c.kind = .gath then .gatherElementDelivery q n else .scatterElementWrite q n
          (∀ out c2 t, elementUnit c de h v = .ok (out, c2, t) →
            Completes i s (advance q c2 (if out then 1 else 0) 0 t)) ∧
          (∀ w, elementUnit c de h v = .error (.abandon w) → Completes i s (advance q c 0 1 (v.metPoison w))) ∧
          (∀ va r e, elementUnit c de h v = .error (.wait va r e) →
            Completes i s (v.engineWaits c.hdr.core c.hdr.agent va r e)))) ∧
      (∀ c de h i t u, indexValue c h c.done s = .ok (i, t) →
        let size := c.run * typeBytes de.ty
        let place := c.base + c.done * size
        (runInside c de i t = .ok (none, u) → c.kind = .scat → elementUnit c de h s = .ok (true, c, u)) ∧
        (runInside c de i t = .ok (none, u) → c.kind = .gath →
          (∀ j, j < size → c.moved (u.coreAt c.hdr.core) (place + j) = false) →
          elementUnit c de h s = .ok (true, c, u.localPut c.hdr.core place (leBytes size 0))) ∧
        (∀ cells b w, runInside c de i t = .ok (some cells, u) → c.kind = .gath → c.seen = [] →
          (∀ j, j < size → c.moved (u.coreAt c.hdr.core) (place + j) = false) →
          engineGather c.agent c.hdr.core ((cells.map (cellBytes de)).flatten) u = .ok (b, w) →
          elementUnit c de h s = .ok (false, { c with seen := [(i, b)] },
            touchReuse c.reuse ((cells.map (cellBytes de)).flatten) (w.localPut c.hdr.core place b))) ∧
        (∀ cells b w, runInside c de i t = .ok (some cells, u) → c.kind = .scat →
          engineLocal c.hdr.core place size u = .ok b →
          c.movedAt (u.coreAt c.hdr.core) ((cells.map (cellBytes de)).flatten) = false →
          engineScatter c.agent c.hdr.core (((cells.map (cellBytes de)).flatten).zip b) u = .ok w →
          elementUnit c de h s =
            .ok (false, c, touchReuse c.reuse ((cells.map (cellBytes de)).flatten) w))) ∧
      (n < 8 → ∀ j m d, (k.mq.filter (fun m => m.hdr.lane == n))[j]? = some m → m.kind = .fill → m.decl = some d →
        (m.begun = false → k.mayBegin m = false → Completes (.fillExecute q n j) s s) ∧
        (m.begun = true ∨ k.mayBegin m = true → let v := s.beginMq q m
          (∀ data sc f t, fillData m d v = .ok (data, sc, f, t) → m.log = [] → ∃ w, Completes (.fillExecute q n j) s w ∧
            ((w.sqAt q).slot m.a).held = some d ∧ ((w.sqAt q).slot m.a).data = data ∧
            ((w.sqAt q).slot m.a).scales = sc ∧ ((w.sqAt q).slot m.a).claim = ((t.sqAt q).slot m.a).claim ∧
            ((w.sqAt q).mcore m.hdr.lane).fail = satAdd ((t.sqAt q).mcore m.hdr.lane).fail f ∧
            (∀ x ∈ (w.sqAt q).mq, x.hdr.ord ≠ m.hdr.ord) ∧ w.mem = t.mem) ∧
          (∀ va r e, fillData m d v = .error (.wait va r e) →
            Completes (.fillExecute q n j) s (v.engineWaits m.hdr.core m.hdr.agent va r e)))) ∧
      (k.active.isSome = true → Completes (.tileOpcodeStart q) s s) ∧
      ((∀ l, l < 8 → readyTile s q l = none) → Completes (.tileOpcodeStart q) s s) ∧
      (∀ l m op, k.active = none → readyTile s q l = some (m, op) →
        (((List.range 8).map (fun i => (k.arbP + i) % 8)).find?
          (fun c => (readyTile s q c).isSome && decide (0 < sget 0 k.credits c)) = some l ∨
          l < 8 ∧ ∀ j, j < 8 → j ≠ l → readyTile s q j = none) →
        ∃ t, Completes (.tileOpcodeStart q) s t ∧ (t.sqAt q).active = some m.hdr.ord ∧ (t.sqAt q).arbP = (l + 1) % 8 ∧
          (t.sqAt q).mq = (k.setMq { m with begun := true }).mq ∧ t.mem = s.mem ∧ t.cores = s.cores) ∧
      (∀ m op, k.mq.find? (fun c => k.active == some c.hdr.ord) = some m → m.kind = .tile op →
        (∀ t, tileStep q m op s = .ok t → Completes (.tileOpcodeComplete q) s t ∧ (t.sqAt q).active = none ∧
          ∀ x ∈ (t.sqAt q).mq, x.hdr.ord ≠ m.hdr.ord) ∧
        (∀ va r e, tileStep q m op s = .error (.wait va r e) →
          Completes (.tileOpcodeComplete q) s (s.engineWaits m.hdr.core m.hdr.agent va r e)) ∧
        (m.log = [] → m.rdy = none → op.usesAcc = true → op.writesSlot = false →
          let slot (o : Option Nat) := (k.slot (o.getD 0)).sound
          let vals (o : Option Nat) := ((k.heldDecl o).map (fun d => tileVals m.dt8 d (slot o).data (slot o).scales)).getD []
          let sa := (op.sources m.a m.b).1
          let sb := (op.sources m.a m.b).2
          let c1 := accAfter op (k.heldDecl sa) (k.heldDecl sb) (vals sa) (vals sb) (slot sa).data (accRows s q)
          let dims := accWritten op (k.heldDecl sa) (k.heldDecl sb)
          let lost := (sortNats (sa.toList ++ sb.toList)).countP (fun n => (k.slot n).bad) +
            accFails s q (accRead op (k.heldDecl sa) (k.heldDecl sb) false)
          ∃ t, Completes (.tileOpcodeComplete q) s t ∧
            (∀ c, c ≠ m.hdr.core → (t.coreAt c).mem = ((putAcc q dims c1 s).coreAt c).mem) ∧
            ((t.sqAt q).mcore m.hdr.lane).fail = satAdd (k.mcore m.hdr.lane).fail lost ∧
            ((t.sqAt q).mcore m.hdr.lane).nf =
              satAdd (k.mcore m.hdr.lane).nf (if accNonFinite dims c1 then 1 else 0))) ∧
      (n < 8 → ∀ m, k.mq.find? (fun c => c.hdr.lane == n) = some m → m.kind = .mrev →
        m.begun = true ∨ k.mayBegin m = true → let v := s.beginMq q m
          (∀ t, reverseStep q m v = .ok t → Completes (.mrevExecute q n) s t) ∧
          (∀ va r e, reverseStep q m v = .error (.wait va r e) →
            Completes (.mrevExecute q n) s (v.engineWaits m.hdr.core m.hdr.agent va r e)) ∧
          (m.entries = 0 → let u := v.matrixStatus q m.hdr.lane (accFails v q (128, 128)) 0
            let ku := u.sqAt q
            reverseStep q m v = .ok (finishMatrix q m (putAcc q (128, 128) (accRows u q)
              (u.setSq q ((ku.setSlot m.a (ku.slot m.a).lost).setSlot m.b (ku.slot m.b).lost))))))) ∧
  (∀ (s : State) (q n : Nat), q < 128 → n < 16 →
      let k := s.sqAt q
      let c := k.cm n
      (c.run ≠ none ∨ c.state = 0 ∨ c.nextPost = none → Completes (.postStart q n) s s) ∧
      (∀ i p, c.run = none → c.state ≠ 0 → c.nextPost = some (i, p) →
        (∀ t, beginPost q n i p s = .ok t → Completes (.postStart q n) s (drainAll q n t)) ∧
        (∀ va r e, beginPost q n i p s = .error (.wait va r e) →
          Completes (.postStart q n) s (s.engineWaits (q * 8 + c.owner) ⟨p.ord, c.dom, true, 1⟩ va r e)) ∧
        (c.state = 2 → p.entry = none → ∃ t, beginPost q n i p s = .ok t ∧ t.mem = s.mem ∧ ((t.sqAt q).cm n).run = none ∧
          ((t.sqAt q).cm n).order = c.order.eraseIdx i ∧ ((t.sqAt q).cm n).queue = c.queue)) ∧
      (∀ t, nextControl q n s = some (.connect, t) → Completes (.connectArrival q n) s
        (if c.state = 0 then s
          else t.setCm q n { (t.sqAt q).cm n with connected := true, gone := false })) ∧
      ((∀ m ∈ k.cin, ¬(m.cm = n ∧ ∃ ch, m.body = .chunk ch)) → Completes (.chunkArrival q n) s (drainAll q n s)) ∧
      (∀ l m r ch, k.cin = l ++ m :: r → (∀ x ∈ l, ¬(x.cm = n ∧ ∃ ch, x.body = .chunk ch)) → m.cm = n →
        m.body = .chunk ch →
        let v := s.setSq q { k with cin := l ++ r }
        (∀ t, acceptChunk q n m ch v = .ok t → Completes (.chunkArrival q n) s (drainAll q n t)) ∧
        (∀ va rs e, acceptChunk q n m ch v = .error (.wait va rs e) → Completes (.chunkArrival q n) s
          (s.engineWaits (q * 8 + c.owner) (c.lander (m.package == s.package.toNat) ch) va rs e)) ∧
        (∀ t, landChunk q n (c.lander (m.package == s.package.toNat) ch) ch v = .ok (0, t) → c.state = 1 →
          ((t.sqAt q).cm n).state = 1 → (ch.kind = .put → acceptChunk q n m ch v = .ok (t.answer q n m ch 0)) ∧
          (ch.kind ≠ .put → ((t.answer q n m ch 0).sqAt q).cm n = (t.sqAt q).cm n →
            let a := t.answer q n m ch 0
            acceptChunk q n m ch v = .ok (a.setCm q n (if ch.kind = .ring
              then { (a.sqAt q).cm n with held := ((a.sqAt q).cm n).held ++ [ch.seq] }
              else { (a.sqAt q).cm n with slots := ((a.sqAt q).cm n).slots ++ [ch] }))))) ∧
      (∀ k2, s.nextChunk q = (none, k2) → Completes (.chunkSend q) s s) ∧
      (∀ x ch k2, s.nextChunk q = (some (x, ch), k2) → x < 16 ∧ (k.cm x).candidate = some ch ∧
        (s.candidates q 2 ≠ [] → k.carb.toNat / 2 ^ 8 % 16 = 0 → (x, ch) ∈ s.candidates q 2) ∧
        ∃ t, Completes (.chunkSend q) s t ∧
          ((t.sqAt q).cm x).chunks = (if ch.kind = .put then (k.cm x).chunks else inc40 (k.cm x).chunks) ∧
          ((t.sqAt q).cm x).queue = (if ch.inject then (k.cm x).queue.drop 1 else (k.cm x).queue) ∧
          (ch.inject = false → ((t.sqAt q).cm x).fwd = none) ∧ t.mem = s.mem) ∧
      (∀ t, t = takeAnswers q n k.cin.length s →
        (((t.sqAt q).cm n).run = none → Completes (.postComplete q n) s t) ∧
        (∀ r, ((t.sqAt q).cm n).run = some r → r.post.entry = none →
          (((t.sqAt q).cm n).runDone r = false → Completes (.postComplete q n) s t) ∧
          (((t.sqAt q).cm n).runDone r = true → ∃ w, Completes (.postComplete q n) s w ∧ ((w.sqAt q).cm n).run = none ∧
            w.mem = t.mem)) ∧
        (∀ r e, e < 256 → ((t.sqAt q).cm n).run = some r → r.post.entry = some e → k.firingIn e = some n →
          ((t.sqAt q).cm n).runDone r = true → ∃ w, Completes (.firingComplete q e) s w ∧ ((w.sqAt q).cm n).run = none ∧
            ((w.sqAt q).tent e).fire = satInc ((t.sqAt q).tent e).fire ∧
            ((w.sqAt q).tent e).st = (if ((t.sqAt q).tent e).st = 3 then 1 else 0))) ∧
      (∀ e, e < 256 → k.firingIn e = none → Completes (.firingComplete q e) s s)) ∧
  (∀ (s : State) (c x : Nat), c < 1024 → x < 16 →
      let k := s.coreAt c
      (mayDispatch s c x = false → Completes (.dispatchTask c x) s s.drawn ∧ Completes (.dispatchContinuation c x) s s.drawn ∧
        Completes (.stealRequest c x) s s) ∧
      (mayDispatch s c x = true → k.gated = false ∧ x < k.nctx ∧ (k.ctxAt x).st = .idle ∧
        ∀ y, y < x → (k.ctxAt y).st ≠ .idle) ∧
      (∀ i e, takeEntry c x s = some (i, e) →
        let t := askDeque c x c s.drawn
        k.deque[i]? = some e ∧ entryReady s c x e = true ∧
        (∀ u, startEntry c x i e t = .ok u →
          (e.getLsbD 0 = false → Completes (.dispatchTask c x) s u ∧ Completes (.dispatchContinuation c x) s t) ∧
          (e.getLsbD 0 = true → Completes (.dispatchContinuation c x) s u ∧ Completes (.dispatchTask c x) s t))) ∧
      (∀ i p b v d slot u, let s0 := { s with focus := { s.focus with core := c, ctx := x }, pin := none }
        needBytes p 128 s0 = .ok (b, v) → v.dom? (recDom b) = some d → freeSlot v d = .ok slot → recOk b = true →
        leAt b 16 8 = 0 → leAt b 24 8 = 0 → startTask c x i p s = .ok u →
        let y := u.ctxAt c x
        y.st = .ready ∧ y.pc.toNat = leAt b 0 8 % 2 ^ 64 ∧ sget 0 y.g 1 = BitVec.ofNat 64 (leAt b 8 8) ∧
          (∀ r, r ≠ 1 → sget 0 y.g r = 0) ∧ y.kdom = BitVec.ofNat 16 (recDom b) ∧ y.sup = false ∧
          y.slot = BitVec.ofNat 64 slot ∧ y.task = BitVec.ofNat 64 p ∧ y.q = [] ∧ y.vq = [] ∧ u.focus = s.focus) ∧
      (∀ d ok last l i e, bestEntry s d ok last l = some (i, e) → l[i]? = some e ∧ ok e = true ∧
        ∃ pr, entryInfo s e = some (d, pr) ∧ ∀ f ∈ l, ∀ pf, entryInfo s f = some (d, pf) → ok f = true → pf ≤ pr) ∧
      (k.steal.getLsbD 0 = false → Completes (.stealRequest c x) s s) ∧
      (mayDispatch s c x = true → k.steal.getLsbD 0 = true →
        let vs := victims s c
        let w := vs.foldl (fun s v => askDeque c x v s) s
        let mine := entryDomains w ((w.coreAt c).deque.filter (entryReady w c x))
        let ds := (entryDomains w ((vs.map (fun v => (w.coreAt v).deque.filter (stealable w c x v))).flatten)).filter
          (fun d => !mine.contains d && !w.underReset d)
        (ds = [] → Completes (.stealRequest c x) s w) ∧
        (∀ d l v r i e t, pickDomain w ds = some d → vs = l ++ v :: r →
          (∀ a ∈ l, bestEntry w d (stealable w c x a) true (w.coreAt a).deque = none) →
          bestEntry w d (stealable w c x v) true (w.coreAt v).deque = some (i, e) →
          (w.drawn.dequeDrop v i).pushBottom c e = some t → Completes (.stealRequest c x) s t)) ∧
      (mayPreempt k x = false → Completes (.preemptStop c x) s s) ∧
      (mayPreempt k x = true → k.kplive.getLsbD x = true ∧ (k.ctxAt x).packetOpen = false ∧ ∃ t,
        Completes (.preemptStop c x) s t ∧ (t.ctxAt c x).st = .preempted ∧ (t.coreAt c).kplive.getLsbD x = false ∧
          (∀ r, r < k.ngreg → memLe (t.coreAt c).mem (0x6F000 + 0x1100 * x + 8 * r) 8 = (sget 0 (k.ctxAt x).g r).toNat) ∧
          t.mem = s.mem ∧ ∀ y, y ≠ x → t.ctxAt c y = { s.ctxAt c y with vold := (t.ctxAt c y).vold }) ∧
      ((k.ctxAt x).st ≠ .preempted → ∃ t, Completes (.kpreqClear c x) s t ∧ (t.coreAt c).kpreq.getLsbD x = false ∧
        (∀ y, y < 16 → y ≠ x → (t.coreAt c).kpreq.getLsbD y = k.kpreq.getLsbD y) ∧ t.ctxAt c x = s.ctxAt c x ∧
        t.mem = s.mem) ∧
      (k.reloadBad x = true → Completes (.kpreqClear c x) s s) ∧
      ((k.ctxAt x).st = .preempted → (k.ctxAt x).vq = [] → k.reloadBad x = false → ∃ t, Completes (.kpreqClear c x) s t ∧
        (t.coreAt c).kpreq.getLsbD x = false ∧ (t.ctxAt c x).st = .ready ∧
        let a := 0x6F000 + 0x1100 * x
        (∀ r, r < k.ngreg → (sget 0 (t.ctxAt c x).g r).toNat = memLe k.mem (a + 8 * r) 8) ∧
        (t.ctxAt c x).sup = decide (memLe k.mem (a + 0x1C0) 8 / 2 % 2 = 1) ∧
        (t.ctxAt c x).pc.toNat + (if memLe k.mem (a + 0x1C0) 8 / 2 % 2 = 1 then 2 else 0) = memLe k.mem (a + 0x1C0) 8 ∧
        t.mem = s.mem ∧ (t.coreAt c).mem = k.mem) ∧
      (∀ fn, fn < 256 → let b := s.bar fn
        (b.lrhead = b.lrtail ∨ s.underReset fn = true ∨ s.dom? fn = none ∨ b.lrsize = 0 → Completes (.launchRingEntry fn) s s) ∧
        (b.lrhead ≠ b.lrtail → s.underReset fn = false → (s.dom? fn).isSome = true → b.lrsize ≠ 0 → s.hw = [] →
          ∀ pa t, hvTry false (b.lrbase.toNat + 16 * (b.lrhead.toNat % b.lrsize.toNat)) s = .ok (pa, t) →
          let p := memLe t.mem pa 8
          let word := memLe t.mem (pa + 8) 8
          (∀ u, launchCheck fn p t = .bad u → Completes (.launchRingEntry fn) s (takeLaunch fn (failLaunch fn word u))) ∧
          (∀ r u v, launchCheck fn p t = .good r u → launch fn p word r u = some v →
            Completes (.launchRingEntry fn) s (takeLaunch fn v)) ∧
          (isGlobal p = false → launchCheck fn p t = .bad t)) ∧
        ((takeLaunch fn s).bar fn).lrhead = b.lrhead + 1) ∧
      (∀ good, (s.fw.powered = true → Completes (.powerUp good) s s) ∧
        (s.fw.powered = false → ∃ t, Completes (.powerUp good) s t ∧ t.fw.powered = true ∧ t.fw.listGood = good ∧
          t.fw.recovery = !Config.imageGood s.fw.image ∧ t.fw.applied = (if good then s.retired else []) ∧
          t.ready = s.ready ∧ t.mem = s.mem ∧ t.cores = s.cores)) ∧
      (∀ part, part < 33 ∨ (64 ≤ part ∧ part < 192) →
        (mayReport s part = false → Completes (.partReady part) s s) ∧
        (s.fw.recovery = true → mayReport s part = false) ∧
        (4 ≤ part → part < 12 → s.fw.listGood = false → mayReport s part = false) ∧
        (64 ≤ part → (s.readyWord 2).getLsbD ((part - 64) / 32) = false → mayReport s part = false) ∧
        (mayReport s part = true → part ≠ 16 →
          (s.readyWord (partBit part).1).getLsbD (partBit part).2 = false →
          let u := s.setReady (partBit part).1 (partBit part).2 true
          (u.readyWord (partBit part).1).getLsbD (partBit part).2 = true ∧
            Completes (.partReady part) s (u.sendWakes (droppedFor u part))))) ∧
  (∀ (s : State),
      (∀ q n c t, q < 128 → n < 8 →
        (s.sqAt q).tq.find? (fun c => c.kind == .migr && c.hdr.core == q * 8 + n) = some c →
        (∀ h r, c.ship = some h → s.squareReady h = true →
          let core (i : Nat) : Nat := h * 8 + (c.target.toNat / 2 ^ 7 % 8 + i) % 8
          let idle (i : Nat) : Prop := ∃ x, x < (s.coreAt (core i)).nctx ∧ (s.ctxAt (core i) x).st = .idle
          ((∀ i, i < r → ¬idle i) ∧ r < 8 ∧ idle r ∨ (∀ i, i < 8 → ¬idle i) ∧ r = 0) →
          s.pushBottom (core r) (contEntry c.slot.toNat true) = some t →
          Completes (.migrationShip q n) s (finishTransfer q c t)) ∧
        ((∀ h, c.ship = some h → s.squareReady h = false) →
          s.pushBottom c.hdr.core (contEntry c.slot.toNat false) = some t →
          Completes (.migrationShip q n) s (finishTransfer q c t))) ∧
      (∀ q, q < 128 → let k := s.sqAt q
        (k.hot.map (·.1)).Nodup → ∃ t, Completes (.reuseCountHalving q) s t ∧ t.mem = s.mem ∧
          ∀ l, sget 0 (t.sqAt q).hot l = sget 0 k.hot l / 2 ∧
            (l ∈ (t.sqAt q).pinned ↔ l ∈ k.pinned ∧ 16 ≤ sget 0 k.hot l / 2)) ∧
      (∀ q n c, q < 128 → n < 64 → (s.sqAt q).kHead n = some c →
        let taken (w : KWork) := allocate 0 w.c.kt w
        (c.waitPage = false → Completes (.pageAllocate q n) s s) ∧
        (∀ p w, c.waitPage = true → c.got = none →
          (kStart q c ((s.sqAt q).parentOf c) s).bind taken = .ok (p, w) →
          Completes (.pageAllocate q n) s (w.s.setSq q ((w.s.sqAt q).setKq { c with waitPage := false, got := some p }))) ∧
        (c.waitPage = true → c.got = none → (kStart q c ((s.sqAt q).parentOf c) s).bind taken = .error .page →
          Completes (.pageAllocate q n) s s)) ∧
      (∀ c, c < 1024 → let k := s.coreAt c
        let p := (k.ctxAt k.comm).rx1
        (k.events = [] ∨ p.openBy.isSome = true ∨ p.full = true → Completes (.collectiveEventDelivery c) s s) ∧
        (∀ u r, k.events = u :: r → p.openBy = none → p.full = false → ∃ t, Completes (.collectiveEventDelivery c) s t ∧
          (t.coreAt c).events = r ∧ ((t.ctxAt c k.comm).rx1).flight = p.flight ++ [u] ∧ t.mem = s.mem)) ∧
      (∀ d r n, d < 65536 → n < budgetInstances r → let b := s.budget d r n
        (s.ktime.toNat / (1000 * b.period) ≤ b.index → Completes (.budgetPeriodStart d r n) s s) ∧
        (b.index < s.ktime.toNat / (1000 * b.period) → ∃ t, Completes (.budgetPeriodStart d r n) s t ∧ t.mem = s.mem ∧
          t.budget d r n = { b with
            amount := b.nextAmount, period := b.nextPeriod, used := 0, index := s.ktime.toNat / (1000 * b.nextPeriod) } ∧
          ∀ c x, (t.ctxAt c x).st =
            if r = 0 ∧ c = n ∧ (s.ctxAt c x).st = .budgetHeld ∧ (s.ctxAt c x).kdom.toNat = d then .ready
            else (s.ctxAt c x).st)) ∧
      (∀ c, c < 1024 →
        ((s.coreAt c).freeBlock = none → Completes (.poolBlockFree c) s s) ∧
        ((s.coreAt c).freeBlock.isSome = true → ∃ t, Completes (.poolBlockFree c) s t ∧ t.mem = s.mem ∧
          ∀ x, (t.ctxAt c x).st = if (s.ctxAt c x).st = .poolHeld then .ready else (s.ctxAt c x).st)) ∧
      (∀ n m q, n < 4 → s.migHead n = some (m, q) →
        (m.running = true ∨ s.entryOn m.page (m.page + m.size) = true → Completes (.migrationStart n) s s) ∧
        (∀ o u, m.running = false → s.entryOn m.page (m.page + m.size) = false → walkTop q m.page s = (o, u) →
          (∀ l, o = some l → 2 ^ leafShift l = m.size → l.e / 2 ^ 4 % 2 = 0 → l.e / 2 ^ 5 % 2 = 1 →
            Completes (.migrationStart n) s (((u.flushStashes m.page (m.page + m.size) m.promo).rewriteLeaves q m.page
              (fun _ e => putN e 4 1 1)).setMigHead n (some { m with running := true, oldFrame := leafPa l m.page }))) ∧
          ((∀ l, o = some l → 2 ^ leafShift l ≠ m.size ∨ l.e / 2 ^ 4 % 2 = 1 ∨ l.e / 2 ^ 5 % 2 = 0) →
            Completes (.migrationStart n) s ((u.setMigHead n none).wakeDropped m.page (m.page + m.size) none))) ∧
        (m.running = false ∨ 128 * m.next < m.size ∨ s.entryOn m.page (m.page + m.size) = true →
          Completes (.migrationFinish n) s s) ∧
        (m.running = true → m.size ≤ 128 * m.next → s.entryOn m.page (m.page + m.size) = false →
          let v := s.setSq q ((s.sqAt q).l2Move m.page (m.page + m.size) (decide (m.newFrame < 2 ^ 43)))
          Completes (.migrationFinish n) s
            (((v.rewriteLeaves q m.page (migrated m)).setMigHead n none).wakeDropped m.page (m.page + m.size) none)) ∧
        (∀ i e, e < 2 ^ 64 → m.newFrame / 4096 + i < 2 ^ 40 → let f := migrated m i e
          f / 2 ^ 12 % 2 ^ 40 = m.newFrame / 4096 + i ∧ f / 2 ^ 3 % 2 = (if m.newH then 1 else 0) ∧ f / 2 ^ 5 % 2 = 1 ∧
            f / 2 ^ 4 % 2 = 0)) ∧
      (∀ part, part < 33 ∨ (64 ≤ part ∧ part < 192) → ∃ t, Completes (.partOutOfService part) s t ∧ t.mem = s.mem ∧
        ∀ p, p < 33 ∨ (64 ≤ p ∧ p < 192) → (t.readyWord (partBit p).1).getLsbD (partBit p).2 =
          if p = part ∨ (part < 4 ∧ 64 + 32 * part ≤ p ∧ p < 96 + 32 * part) then false
          else (s.readyWord (partBit p).1).getLsbD (partBit p).2) ∧
      (exec (.functionLevelReset 0) s = exec .packageReset s) ∧
      (∀ fn, 0 < fn → fn < 256 →
        (s.dom? fn = none ∨ s.underReset fn = true → Completes (.functionLevelReset fn) s s) ∧
        ((s.dom? fn).isSome = true → s.underReset fn = false →
          Completes (.functionLevelReset fn) s (endReset fn (resetDomain fn s)))) ∧
      (∀ image, Completes (.firmwareUpdate image) s
        (if s.fw.powered = true ∧ Config.imageGood image = true then { s with fw := { s.fw with update := some image } }
          else s)) ∧
      (∀ idx,
        (measured s idx = none ∨ s.fw.powered = false ∨ s.fw.recovery = true ∨ (s.readyWord 2).getLsbD 16 = false →
          Completes (.attestationRequest idx) s s) ∧
        (∀ l, measured s idx = some l → s.fw.powered = true → s.fw.recovery = false → (s.readyWord 2).getLsbD 16 = true →
          Completes (.attestationRequest idx) s
            { s with fw := { s.fw with answers := s.fw.answers ++ [⟨idx, l, Config.sign l⟩] } })) ∧
      (∀ fn off v, fn < 256 → off < 4096 → off % 8 = 0 → let b := s.bar fn
        (s.barOpen fn = false ∨ (0x18 ≤ off ∧ off < 0x800) → Completes (.barRegisterWrite fn off v) s s) ∧
        (s.barOpen fn = true →
          (off = 0 → Completes (.barRegisterWrite fn off v) s (s.setBar fn { b with lrbase := v })) ∧
          (off = 8 → Completes (.barRegisterWrite fn off v) s (s.setBar fn { b with lrsize := v })) ∧
          (off = 0x10 → Completes (.barRegisterWrite fn off v) s (s.setBar fn { b with lrtail := v })) ∧
          (0x800 ≤ off → ∃ t, Completes (.barRegisterWrite fn off v) s t ∧ t.mem = s.mem ∧
            ∀ o, (t.bar fn).tableWord o = if o = off - 0x800 then v else b.tableWord o))))

/-! ### What words leave as it was -/

/-- A word that works on registers leaves every other general register, the memories, every other context and core and
the other registers of its own context as they were; the receive ports only give up units, the program counter may
change, and flags change only where the word takes them. With a send port as its destination, the packet's side is the
send's (08 R186 to R199, R216). What the words that write system and control registers leave: STEALCTL writes its
core's setting, BKTSEL the masks m0 to m3, and each its destination; MTK writes the one register that it names, and
kpreq alone reaches other contexts, of which it reloads the pre-empted ones; of memory BKTSEL and a write of kmap or
kpreq change what is given back from a written stash entry; where BKTSEL's reads fill a stash entry, the values from
before a vector entry go that stood there (06 R158, R159, 07 R176, R183, 08 R226, 05 R112). -/
def Obligations.RegisterWordsFrame : Prop :=
  (∀ (i : Instr) (s u : State) (d : Option (BitVec 6)), regWord i = some d → exec i s = .next u → u.last = .done →
      (∀ r, (∀ f, d = some f → f.toNat ≠ r) → sget 0 u.cur.g r = sget 0 s.cur.g r) ∧
      u.mem = s.mem ∧ u.squares = s.squares ∧ (takesFlags i = false → u.cur.kfpe = s.cur.kfpe) ∧
      ((∀ f, d = some f → f.toNat ≠ 58 ∧ f.toNat ≠ 59) →
        u = { s with cores := u.cores, last := .done } ∧ (∀ c, c ≠ s.focus.core → u.coreAt c = s.coreAt c) ∧
        u.core = { s.core with ctxs := u.core.ctxs } ∧
        (∀ x, x ≠ s.focus.ctx → u.ctxAt s.focus.core x = s.ctxAt s.focus.core x) ∧
        u.cur = { s.cur with
          g := u.cur.g, pc := u.cur.pc, kfpe := u.cur.kfpe
          rx0 := { s.cur.rx0 with units := u.cur.rx0.units }
          rx1 := { s.cur.rx1 with units := u.cur.rx1.units } } ∧
        u.cur.rx0.units <:+ s.cur.rx0.units ∧ u.cur.rx1.units <:+ s.cur.rx1.units)) ∧
  (∀ (d a : BitVec 6) (s u : State),
      (∀ i, i = .stealctl d a ∨ i = .bktsel d a → exec i s = .next u → u.last = .done →
        (i = .stealctl d a ∨ Settled s → u.mem = s.mem) ∧ (∀ r, r ≠ d.toNat → sget 0 u.cur.g r = sget 0 s.cur.g r) ∧
        (d.toNat ≠ 58 → d.toNat ≠ 59 → u.focus = s.focus ∧
          (∀ c, c ≠ s.focus.core → u.coreAt c = { s.coreAt c with stash := (u.coreAt c).stash }) ∧
          (∀ x, x ≠ s.focus.ctx → u.ctxAt s.focus.core x =
            { s.ctxAt s.focus.core x with vold := (u.ctxAt s.focus.core x).vold }) ∧
          (i = .stealctl d a → u.squares = s.squares ∧
            u.core = { s.core with ctxs := u.core.ctxs, steal := u.core.steal } ∧
            u.cur = { s.cur with g := u.cur.g, rx0 := u.cur.rx0, rx1 := u.cur.rx1 }) ∧
          (i = .bktsel d a → u.core.steal = s.core.steal ∧
            (∀ b, outsideStash s b → memGet u.core.mem b = memGet s.core.mem b) ∧
            u.cur = { s.cur with g := u.cur.g, m := u.cur.m, rx0 := u.cur.rx0, rx1 := u.cur.rx1, vold := u.cur.vold } ∧
            ∀ j, 4 ≤ j → sget 0 u.cur.m j = sget 0 s.cur.m j))) ∧
      (exec (.mtk d a) s = .next u → u.last = .done →
        (d.toNat ≠ 17 ∧ d.toNat ≠ 20 ∨ Settled s → u.mem = s.mem) ∧ (MemOk s → ∀ b, KeepsByte s u b) ∧
        u.focus = s.focus ∧ u.core.mem = s.core.mem ∧
        (∀ c, c ≠ s.focus.core → (u.coreAt c).mem = (s.coreAt c).mem ∧ (u.coreAt c).ctxs = (s.coreAt c).ctxs) ∧
        (∀ x, x ≠ s.focus.ctx → d.toNat ≠ 20 ∨ (s.ctxAt s.focus.core x).st ≠ .preempted →
          u.ctxAt s.focus.core x = s.ctxAt s.focus.core x) ∧
        (d.toNat = 20 → s.cur.st ≠ .preempted → u.cur = { s.cur with rx0 := u.cur.rx0, rx1 := u.cur.rx1 }) ∧
        (d.toNat ≠ 20 → (d.toNat ≠ 17 → u = { s with cores := u.cores, last := .done }) ∧
          u.core = { s.core with
            ctxs := u.core.ctxs, kcpool := u.core.kcpool, kmap := u.core.kmap, chains := u.core.chains, stash := u.core.stash } ∧
          (d.toNat ≠ 16 → u.core.kcpool = s.core.kcpool ∧ u.core.chains = s.core.chains) ∧
          (d.toNat ≠ 17 → u.core.kmap = s.core.kmap ∧ u.core.stash = s.core.stash) ∧
          u.cur = { s.cur with
            rx0 := u.cur.rx0, rx1 := u.cur.rx1
            kstat := if d.toNat = 0 then u.cur.kstat else s.cur.kstat
            kcause := if d.toNat = 1 then u.cur.kcause else s.cur.kcause
            kepc := if d.toNat = 2 then u.cur.kepc else s.cur.kepc
            kinfo := if d.toNat = 3 then u.cur.kinfo else s.cur.kinfo
            ktvec := if d.toNat = 4 then u.cur.ktvec else s.cur.ktvec
            kfpe := if d.toNat = 6 then u.cur.kfpe else s.cur.kfpe
            kseed := if d.toNat = 7 then u.cur.kseed else s.cur.kseed
            kscnt := if d.toNat = 8 then u.cur.kscnt else s.cur.kscnt
            kscr := if 9 ≤ d.toNat ∧ d.toNat ≤ 12 then u.cur.kscr else s.cur.kscr
            kovf := if d.toNat = 14 then u.cur.kovf else s.cur.kovf })))

/-- A load leaves every byte of memory as it was, but for what the home tile recalls from a written stash entry, and
of local memory all but the copy that a stash entry of its core takes; it leaves every general register but its
destination, every other context and core, and the other registers of its context, but for the values from before a
vector entry that such a copy, or LDF's word, ends (08 R200 to R203, R210, 10 R272, 05 R112, R126). A store, STB among
them, a push store or an atomic changes only the bytes that it stores, at the address that its fields give: in the
frame, or in the stash entry that its core has for the line, besides what the home tile recalls from a written stash
entry. It leaves every general register but an atomic's destination, every other core's memory and contexts, and its
context's other registers, but for the values from before a vector entry that a context may still read, which the
store ends (08 R201, R202, R205, R208, R210, 10 R271, R272, 05 R112). The Line form writes no general register. PF and
WBK leave every byte of memory, and DISC and ZLINE every byte outside their line, with the copies that stash entries
of the core hold of it, but for what is given back from a written stash entry (08 R204, 10 R272, R273, 05 R112). A
word that appends an engine's command leaves all of memory, while no stash entry holds written data, every general
register but its destination, every other context and core, and its context's other registers as they were; of local
memory it changes its queue's chain, and a stash entry may take the copy of a line that it reads, and with either go
the values from before a vector entry that stood there (01 R7 to R9, 05 R112, 10 R264, R272, R276, 14 R326, R335, 15
R363, 17 R390). -/
def Obligations.MemoryWordsFrame : Prop :=
  (∀ (i : Instr) (s u : State) (d : BitVec 6), loadWord i = some d → exec i s = .next u → u.last = .done →
      (Settled s → u.mem = s.mem) ∧ (MemOk s → ∀ a, KeepsByte s u a) ∧
      (∀ r, r ≠ d.toNat → sget 0 u.cur.g r = sget 0 s.cur.g r) ∧
      (d.toNat ≠ 58 → d.toNat ≠ 59 →
        u.focus = s.focus ∧ (∀ a, outsideStash s a → memGet u.core.mem a = memGet s.core.mem a) ∧
        (∀ c, c ≠ s.focus.core → u.coreAt c = { s.coreAt c with stash := (u.coreAt c).stash }) ∧
        (∀ x, x ≠ s.focus.ctx → u.ctxAt s.focus.core x =
          { s.ctxAt s.focus.core x with vold := (u.ctxAt s.focus.core x).vold }) ∧
        u.cur = { s.cur with g := u.cur.g, rx0 := u.cur.rx0, rx1 := u.cur.rx1, vold := u.cur.vold })) ∧
  (∀ (i : Instr) (s u r : State) (ea n : Nat), storeWord i s = some (ea, n, r) → exec i s = .next u → u.last = .done →
      (∀ f, atomicDest i ≠ some f → sget 0 u.cur.g f = sget 0 s.cur.g f) ∧ u.focus = s.focus ∧
      (∀ c, c ≠ s.focus.core → (u.coreAt c).mem = (s.coreAt c).mem ∧
        ∀ x, u.ctxAt c x = { s.ctxAt c x with vold := (u.ctxAt c x).vold }) ∧
      (∀ x, x ≠ s.focus.ctx → u.ctxAt s.focus.core x =
        { s.ctxAt s.focus.core x with vold := (u.ctxAt s.focus.core x).vold }) ∧
      u.cur = { s.cur with
        g := u.cur.g, rx0 := u.cur.rx0, rx1 := u.cur.rx1, vold := u.cur.vold, quota := u.cur.quota
        pushes := u.cur.pushes } ∧
      (isLocal ea = true → u.mem = s.mem ∧
        ∀ a, a < ea % 2 ^ 19 ∨ ea % 2 ^ 19 + n ≤ a → memGet u.core.mem a = memGet s.core.mem a) ∧
      (isLocal ea = false → (∀ a, outsideStash s a → memGet u.core.mem a = memGet s.core.mem a) ∧
        let k : Access := if (atomicDest i).isSome then .atomic else .write
        ∀ e g, MemOk s → (globalGrant k ea n r).ans = .ok (e, g) →
          ((g.core.stashFor (ea / 128) g.kdom).isSome = true → ∀ a, KeepsByte s u a) ∧
          (∀ pa p, g.core.stashFor (ea / 128) g.kdom = none → (globalPlace e k ea g).ans = .ok (pa, p) →
            ∀ a, a < pa ∨ pa + n ≤ a → KeepsByte s u a))) ∧
  (∀ (i : Instr) (a : BitVec 6) (o : BitVec 12) (s t u : State) (x : Word),
      i ∈ [Instr.pf a o, .disc a o, .zline a o, .wbk a o] → readReg a.toNat s = .ok (x, t) → exec i s = .next u →
      u.last = .done →
      let ea := lineAddr x o
      (∀ r, sget 0 u.cur.g r = sget 0 s.cur.g r) ∧ u.focus = s.focus ∧
      (∀ c, c ≠ s.focus.core → (u.coreAt c).mem = (s.coreAt c).mem ∧
        ∀ y, u.ctxAt c y = { s.ctxAt c y with vold := (u.ctxAt c y).vold }) ∧
      (∀ y, y ≠ s.focus.ctx → u.ctxAt s.focus.core y =
        { s.ctxAt s.focus.core y with vold := (u.ctxAt s.focus.core y).vold }) ∧
      u.cur = { s.cur with rx0 := u.cur.rx0, rx1 := u.cur.rx1, vold := u.cur.vold } ∧
      (i = .pf a o ∨ i = .wbk a o → (MemOk s → ∀ b, KeepsByte s u b) ∧ u.core.mem = s.core.mem) ∧
      (isLocal ea = true → u.mem = s.mem ∧
        ∀ b, b < ea % 2 ^ 19 ∨ ea % 2 ^ 19 + 128 ≤ b → memGet u.core.mem b = memGet s.core.mem b) ∧
      (isLocal ea = false → (∀ b, outsideStash s b → memGet u.core.mem b = memGet s.core.mem b) ∧
        ((i = .disc a o ∨ i = .zline a o) → MemOk s → ∀ e g pa p, (globalGrant .write ea 128 t).ans = .ok (e, g) →
          (globalPlace e .write ea (g.discard (ea / 128))).ans = .ok (pa, p) → ∀ b, b < pa ∨ pa + 128 ≤ b → KeepsByte s u b))) ∧
  (∀ (i : Instr) (s u : State) (d : Option (BitVec 6)), appendWord i = some d → exec i s = .next u → u.last = .done →
      (Settled s → u.mem = s.mem) ∧ (∀ r, (∀ f, d = some f → f.toNat ≠ r) → sget 0 u.cur.g r = sget 0 s.cur.g r) ∧
      ((∀ f, d = some f → f.toNat ≠ 58 ∧ f.toNat ≠ 59) →
        u.focus = s.focus ∧ u.domains = s.domains ∧ u.graphs = s.graphs ∧ u.bars = s.bars ∧
        (∀ c, c ≠ s.focus.core → u.coreAt c = { s.coreAt c with stash := (u.coreAt c).stash }) ∧
        (∀ x, x ≠ s.focus.ctx → u.ctxAt s.focus.core x =
          { s.ctxAt s.focus.core x with vold := (u.ctxAt s.focus.core x).vold }) ∧
        u.cur = { s.cur with
          g := u.cur.g, rx0 := u.cur.rx0, rx1 := u.cur.rx1, sq := u.cur.sq, quota := u.cur.quota, vold := u.cur.vold } ∧
        (∀ a, outsideStash s a → outsideChains s.core u.core a → memGet u.core.mem a = memGet s.core.mem a)))
end

