-- ==== Sys2Proof/Laws/Memory.lean ====
section
/-! SUPPORT. The laws of byte memories: the canonical form is kept, and a read after a write. -/
namespace Sys2Proof.Machine

/-! ### Reads after writes -/

/-- A byte of a canonical memory below its first listed address is unlisted. -/
theorem memGet_below {lo : Nat} {m : List Host.Cell} (h : memWfFrom lo m = true) {a : Nat} (ha : a < lo) :
    memGet m a = unlisted := by
  cases m with
  | nil => rfl
  | cons p r =>
    obtain ⟨k, v⟩ := p
    simp only [memWfFrom, Bool.and_eq_true, decide_eq_true_eq] at h
    simp only [memGet]
    rw [if_neg (by omega), if_pos (by omega)]

/-- What a byte reads after one byte of a canonical memory is written. -/
theorem memGet_memSet {lo : Nat} {m : List Host.Cell} (h : memWfFrom lo m = true) (a x : Nat) (b : Byte) :
    memGet (memSet m a b) x = if x = a then b else memGet m x := by
  induction m generalizing lo with
  | nil =>
    simp only [memSet]
    split
    · rename_i hb; subst hb; simp [memGet]
    · by_cases hx : x = a <;> simp [memGet, hx]
  | cons p r ih =>
    obtain ⟨k, v⟩ := p
    simp only [memWfFrom, Bool.and_eq_true, decide_eq_true_eq] at h
    obtain ⟨⟨hk, hv⟩, hr⟩ := h
    simp only [memSet]
    split
    · rename_i e; subst e
      split
      · rename_i hb; subst hb
        by_cases hx : x = a
        · subst hx; simp [memGet_below hr (Nat.lt_succ_self _)]
        · simp only [memGet, hx, if_false]
          split
          · exact memGet_below hr (by omega)
          · rfl
      · by_cases hx : x = a <;> simp [memGet, hx]
    · split
      · rename_i hne hlt
        split
        · rename_i hb; subst hb
          by_cases hx : x = a
          · subst hx; simp [memGet, hne, hlt]
          · simp [hx]
        · by_cases hx : x = a
          · simp [memGet, hx]
          · simp only [memGet, hx, if_false]
            by_cases hxa : x < a
            · have : x ≠ k := by omega
              have : x < k := by omega
              simp [*]
            · simp [hxa]
      · rename_i hne hlt
        simp only [memGet]
        by_cases hx : x = k
        · subst hx
          have : ¬x = a := fun e => hne e.symm
          simp [this]
        · simp only [hx, if_false]
          by_cases hxk : x < k
          · have : ¬x = a := by omega
            simp [hxk, this]
          · simp [hxk, ih hr]

/-! ### The canonical form -/

/-- Writing one byte keeps the canonical form. -/
theorem memWfFrom_memSet {lo : Nat} {m : List Host.Cell} (h : memWfFrom lo m = true) {a : Nat} (ha : lo ≤ a) (b : Byte) :
    memWfFrom lo (memSet m a b) = true := by
  induction m generalizing lo with
  | nil =>
    simp only [memSet]
    split
    · rfl
    · rename_i hb; simp [memWfFrom, ha, hb]
  | cons p r ih =>
    obtain ⟨k, v⟩ := p
    simp only [memWfFrom, Bool.and_eq_true, decide_eq_true_eq] at h
    obtain ⟨⟨hk, hv⟩, hr⟩ := h
    have weaken : ∀ {l l' : Nat} {m : List Host.Cell}, memWfFrom l' m = true → l ≤ l' → memWfFrom l m = true := by
      intro l l' m hm hl
      cases m with
      | nil => rfl
      | cons p r =>
        simp only [memWfFrom, Bool.and_eq_true, decide_eq_true_eq] at hm ⊢
        exact ⟨⟨by omega, hm.1.2⟩, hm.2⟩
    simp only [memSet]
    split
    · rename_i e; subst e
      split
      · exact weaken hr (by omega)
      · rename_i hb; simp [memWfFrom, ha, hb, hr]
    · split
      · split
        · simp [memWfFrom, hk, hv, hr]
        · rename_i hb; simp [memWfFrom, ha, hb, hv, hr]; omega
      · simp only [memWfFrom, Bool.and_eq_true, decide_eq_true_eq]
        exact ⟨⟨hk, hv⟩, ih hr (by omega)⟩

/-- Writing one byte keeps the canonical form. -/
theorem memSet_wf {m : List Host.Cell} (h : Memory.wf m = true) (a : Nat) (b : Byte) :
    Memory.wf (memSet m a b) = true := memWfFrom_memSet h (Nat.zero_le a) b

/-- Writing bytes keeps the canonical form. -/
theorem memWrite_wf {m : List Host.Cell} (h : Memory.wf m = true) (a : Nat) (b : List Byte) :
    Memory.wf (memWrite m a b) = true := by
  induction b generalizing m a with
  | nil => exact h
  | cons x r ih => exact ih (memSet_wf h a x) (a + 1)

/-- What a byte reads after bytes of a canonical memory are written. -/
theorem memGet_memWrite {m : List Host.Cell} (h : Memory.wf m = true) (a : Nat) (b : List Byte) (x : Nat) :
    memGet (memWrite m a b) x = if a ≤ x ∧ x < a + b.length then b.getD (x - a) 0 else memGet m x := by
  induction b generalizing m a with
  | nil => simp only [memWrite, List.length_nil]; rw [if_neg (by omega)]
  | cons y r ih =>
    rw [memWrite, ih (memSet_wf h a y), memGet_memSet h]
    by_cases hx : x = a
    · subst hx
      rw [if_neg (by omega), if_pos rfl, if_pos (by simp only [List.length_cons]; omega)]
      simp
    · by_cases hin : a + 1 ≤ x ∧ x < a + 1 + r.length
      · obtain ⟨n, rfl⟩ : ∃ n, x = a + (n + 1) := ⟨x - a - 1, by omega⟩
        have h1 : a + (n + 1) - (a + 1) = n := by omega
        have h2 : a + (n + 1) - a = n + 1 := by omega
        rw [if_pos hin, if_pos (by simp only [List.length_cons]; omega), h1, h2]
        simp
      · rw [if_neg hin, if_neg hx, if_neg (by simp only [List.length_cons]; omega)]

/-- A byte outside the bytes written reads as before. -/
theorem memGet_memWrite_outside {m : List Host.Cell} (h : Memory.wf m = true) {a x : Nat} {b : List Byte}
    (hx : ¬(a ≤ x ∧ x < a + b.length)) : memGet (memWrite m a b) x = memGet m x := by
  rw [memGet_memWrite h, if_neg hx]

/-- How many bytes a read gives. -/
@[simp] theorem memRead_length (m : List Host.Cell) (a n : Nat) : (memRead m a n).length = n := by
  induction n generalizing a with
  | zero => rfl
  | succ n ih => simp [memRead, ih]

/-- Two memories whose bytes agree over a range give the same bytes of it. -/
theorem memRead_congr {m m' : List Host.Cell} {a n : Nat} (h : ∀ x, a ≤ x → x < a + n → memGet m x = memGet m' x) :
    memRead m a n = memRead m' a n := by
  induction n generalizing a with
  | zero => rfl
  | succ n ih =>
    rw [memRead, memRead, h a (Nat.le_refl _) (by omega), ih (fun x h1 h2 => h x (by omega) (by omega))]

/-- A read of what a write has just written. -/
theorem memRead_memWrite_same {m : List Host.Cell} (h : Memory.wf m = true) (a : Nat) (b : List Byte) :
    memRead (memWrite m a b) a b.length = b := by
  induction b generalizing m a with
  | nil => rfl
  | cons y r ih =>
    rw [List.length_cons, memRead]
    congr 1
    · rw [memGet_memWrite h]; simp
    · exact ih (memSet_wf h a y) (a + 1)

/-- A read of bytes that a write leaves alone. -/
theorem memRead_memWrite_apart {m : List Host.Cell} (h : Memory.wf m = true) {a x n : Nat} {b : List Byte}
    (hx : x + n ≤ a ∨ a + b.length ≤ x) : memRead (memWrite m a b) x n = memRead m x n :=
  memRead_congr (fun y h1 h2 => memGet_memWrite_outside h (by omega))

/-! ### Little-endian values -/

@[simp] theorem leBytes_length (n v : Nat) : (leBytes n v).length = n := by
  induction n generalizing v with
  | zero => rfl
  | succ n ih => simp [leBytes, ih]

/-- The value of the bytes of a value. -/
theorem ofBytes_leBytes (n v : Nat) : ofBytes (leBytes n v) = v % 256 ^ n := by
  induction n generalizing v with
  | zero => simp [leBytes, ofBytes, Nat.mod_one]
  | succ n ih =>
    simp only [leBytes, ofBytes, ih, BitVec.toNat_ofNat]
    rw [show (256 : Nat) ^ (n + 1) = 256 * 256 ^ n by rw [Nat.pow_succ, Nat.mul_comm]]
    rw [show (2 : Nat) ^ 8 = 256 by decide, Nat.mod_mul]

/-- A value that is written little-endian reads back. -/
theorem memLe_memWrite_same {m : List Host.Cell} (h : Memory.wf m = true) (a n v : Nat) :
    memLe (memWrite m a (leBytes n v)) a n = v % 256 ^ n := by
  have := memRead_memWrite_same h a (leBytes n v)
  rw [leBytes_length] at this
  rw [memLe, this, ofBytes_leBytes]

end Sys2Proof.Machine
end

