-- ==== Sys2Proof/Laws/State.lean ====
section
/-! SUPPORT. The laws of the state's tables and updates: what each update of State leaves as it was, and what the parts
of the package read after one. -/
namespace Sys2Proof.Machine

/-! ### Sparse tables -/

@[simp] theorem sget_sset_same {α : Type} (d v : α) (m : SMap α) (k : Nat) : sget d (sset m k v) k = v := by
  induction m with
  | nil => simp [sset, sget]
  | cons p r ih =>
    obtain ⟨k', w⟩ := p
    simp only [sset]
    split
    · simp [sget]
    · split
      · simp [sget]
      · rename_i h _; simp [sget, h, ih]

theorem sget_sset_other {α : Type} (d v : α) (m : SMap α) {k j : Nat} (h : j ≠ k) :
    sget d (sset m k v) j = sget d m j := by
  induction m with
  | nil => simp [sset, sget, h]
  | cons p r ih =>
    obtain ⟨k', w⟩ := p
    simp only [sset]
    split
    · rename_i e; subst e; simp [sget, h]
    · split
      · simp [sget, h]
      · simp [sget, ih]

/-- What a table reads after an update. -/
theorem sget_sset {α : Type} (d v : α) (m : SMap α) (k j : Nat) :
    sget d (sset m k v) j = if j = k then v else sget d m j := by
  by_cases h : j = k
  · simp [h]
  · simp [h, sget_sset_other d v m h]

/-! ### Cores, contexts, squares, domains after an update -/

@[simp] theorem State.coreAt_setCore_same (s : State) (c : Nat) (v : Core) : (s.setCore c v).coreAt c = v :=
  sget_sset_same ..

theorem State.coreAt_setCore (s : State) (c d : Nat) (v : Core) :
    (s.setCore c v).coreAt d = if d = c then v else s.coreAt d := sget_sset ..

@[simp] theorem Core.ctxAt_setCtx_same (k : Core) (x : Nat) (v : Ctx) : (k.setCtx x v).ctxAt x = v := sget_sset_same ..

theorem Core.ctxAt_setCtx (k : Core) (x y : Nat) (v : Ctx) :
    (k.setCtx x v).ctxAt y = if y = x then v else k.ctxAt y := sget_sset ..

@[simp] theorem State.coreAt_setCtx_same (s : State) (c x : Nat) (v : Ctx) :
    (s.setCtx c x v).coreAt c = (s.coreAt c).setCtx x v := sget_sset_same ..

theorem State.coreAt_setCtx (s : State) (c d x : Nat) (v : Ctx) :
    (s.setCtx c x v).coreAt d = if d = c then (s.coreAt c).setCtx x v else s.coreAt d := sget_sset ..

@[simp] theorem State.ctxAt_setCtx_same (s : State) (c x : Nat) (v : Ctx) : (s.setCtx c x v).ctxAt c x = v := by
  simp [State.ctxAt]

theorem State.ctxAt_setCtx (s : State) (c x d y : Nat) (v : Ctx) :
    (s.setCtx c x v).ctxAt d y = if d = c ∧ y = x then v else s.ctxAt d y := by
  unfold State.ctxAt
  rw [State.coreAt_setCtx]
  by_cases h : d = c
  · subst h; simp [Core.ctxAt_setCtx]
  · simp [h]

@[simp] theorem State.cur_setCur (s : State) (v : Ctx) : (s.setCur v).cur = v := State.ctxAt_setCtx_same ..

@[simp] theorem State.core_setCur (s : State) (v : Ctx) : (s.setCur v).core = s.core.setCtx s.focus.ctx v :=
  State.coreAt_setCtx_same ..

@[simp] theorem State.core_setCoreCur (s : State) (v : Core) : (s.setCoreCur v).core = v := State.coreAt_setCore_same ..

@[simp] theorem State.core_setG (s : State) (n : Nat) (v : Word) :
    (s.setG n v).core = s.core.setCtx s.focus.ctx (s.setG n v).cur := by simp [State.setG]

@[simp] theorem State.cur_setG (s : State) (n : Nat) (v : Word) :
    (s.setG n v).cur = { s.cur with g := sset s.cur.g n v } := State.cur_setCur ..

@[simp] theorem State.cur_setPc (s : State) (v : Word) : (s.setPc v).cur = { s.cur with pc := v } := State.cur_setCur ..

@[simp] theorem State.core_setPc (s : State) (v : Word) :
    (s.setPc v).core = s.core.setCtx s.focus.ctx { s.cur with pc := v } := State.core_setCur ..

@[simp] theorem State.sqAt_setSq_same (s : State) (q : Nat) (v : Square) : (s.setSq q v).sqAt q = v := sget_sset_same ..

theorem State.sqAt_setSq (s : State) (q r : Nat) (v : Square) :
    (s.setSq q v).sqAt r = if r = q then v else s.sqAt r := sget_sset ..

@[simp] theorem State.dom?_setDom_same (s : State) (d : Nat) (v : Option Domain) : (s.setDom d v).dom? d = v :=
  sget_sset_same ..

@[simp] theorem State.bar_setBar_same (s : State) (d : Nat) (v : Bar) : (s.setBar d v).bar d = v := sget_sset_same ..

@[simp] theorem State.district_setDistrict_same (s : State) (d : Nat) (v : District) :
    (s.setDistrict d v).district d = v := sget_sset_same ..

/-! ### A core after one of its contexts changes -/

@[simp] theorem Core.mem_setCtx (k : Core) (x : Nat) (v : Ctx) : (k.setCtx x v).mem = k.mem := rfl
@[simp] theorem Core.full_setCtx (k : Core) (x : Nat) (v : Ctx) : (k.setCtx x v).full = k.full := rfl
@[simp] theorem Core.hb_setCtx (k : Core) (x : Nat) (v : Ctx) : (k.setCtx x v).hb = k.hb := rfl
@[simp] theorem Core.rings_setCtx (k : Core) (x : Nat) (v : Ctx) : (k.setCtx x v).rings = k.rings := rfl
@[simp] theorem Core.dt8_setCtx (k : Core) (x : Nat) (v : Ctx) : (k.setCtx x v).dt8 = k.dt8 := rfl
@[simp] theorem Core.dt8Tag_setCtx (k : Core) (x : Nat) (v : Ctx) : (k.setCtx x v).dt8Tag = k.dt8Tag := rfl
@[simp] theorem Core.deque_setCtx (k : Core) (x : Nat) (v : Ctx) : (k.setCtx x v).deque = k.deque := rfl
@[simp] theorem Core.plb_setCtx (k : Core) (x : Nat) (v : Ctx) : (k.setCtx x v).plb = k.plb := rfl
@[simp] theorem Core.kcpool_setCtx (k : Core) (x : Nat) (v : Ctx) : (k.setCtx x v).kcpool = k.kcpool := rfl
@[simp] theorem Core.kmap_setCtx (k : Core) (x : Nat) (v : Ctx) : (k.setCtx x v).kmap = k.kmap := rfl
@[simp] theorem Core.kmode_setCtx (k : Core) (x : Nat) (v : Ctx) : (k.setCtx x v).kmode = k.kmode := rfl
@[simp] theorem Core.kpreq_setCtx (k : Core) (x : Nat) (v : Ctx) : (k.setCtx x v).kpreq = k.kpreq := rfl
@[simp] theorem Core.kplive_setCtx (k : Core) (x : Nat) (v : Ctx) : (k.setCtx x v).kplive = k.kplive := rfl
@[simp] theorem Core.steal_setCtx (k : Core) (x : Nat) (v : Ctx) : (k.setCtx x v).steal = k.steal := rfl
@[simp] theorem Core.chains_setCtx (k : Core) (x : Nat) (v : Ctx) : (k.setCtx x v).chains = k.chains := rfl
@[simp] theorem Core.spill_setCtx (k : Core) (x : Nat) (v : Ctx) : (k.setCtx x v).spill = k.spill := rfl
@[simp] theorem Core.stash_setCtx (k : Core) (x : Nat) (v : Ctx) : (k.setCtx x v).stash = k.stash := rfl
@[simp] theorem Core.l1_setCtx (k : Core) (x : Nat) (v : Ctx) : (k.setCtx x v).l1 = k.l1 := rfl
@[simp] theorem Core.lpoison_setCtx (k : Core) (x : Nat) (v : Ctx) : (k.setCtx x v).lpoison = k.lpoison := rfl
@[simp] theorem Core.vlast_setCtx (k : Core) (x : Nat) (v : Ctx) : (k.setCtx x v).vlast = k.vlast := rfl
@[simp] theorem Core.vexec_setCtx (k : Core) (x : Nat) (v : Ctx) : (k.setCtx x v).vexec = k.vexec := rfl
@[simp] theorem Core.events_setCtx (k : Core) (x : Nat) (v : Ctx) : (k.setCtx x v).events = k.events := rfl
@[simp] theorem Core.began_setCtx (k : Core) (x : Nat) (v : Ctx) : (k.setCtx x v).began = k.began := rfl
@[simp] theorem Core.gated_setCtx (k : Core) (x : Nat) (v : Ctx) : (k.setCtx x v).gated = k.gated := rfl
@[simp] theorem Core.nctx_setCtx (k : Core) (x : Nat) (v : Ctx) : (k.setCtx x v).nctx = k.nctx := rfl
@[simp] theorem Core.comm_setCtx (k : Core) (x : Nat) (v : Ctx) : (k.setCtx x v).comm = k.comm := rfl
@[simp] theorem Core.ngreg_setCtx (k : Core) (x : Nat) (v : Ctx) : (k.setCtx x v).ngreg = k.ngreg := rfl
@[simp] theorem Core.pool_setCtx (k : Core) (x : Nat) (v : Ctx) : (k.setCtx x v).pool = k.pool := rfl
@[simp] theorem Core.stashRange_setCtx (k : Core) (x : Nat) (v : Ctx) : (k.setCtx x v).stashRange = k.stashRange := rfl

@[simp] theorem Core.userLocal_setCtx (k : Core) (x : Nat) (v : Ctx) : (k.setCtx x v).userLocal = k.userLocal := rfl

/-! ### setCore -/

@[simp] theorem State.squares_setCore (s : State) (c : Nat) (v : Core) : (s.setCore c v).squares = s.squares := rfl
@[simp] theorem State.mem_setCore (s : State) (c : Nat) (v : Core) : (s.setCore c v).mem = s.mem := rfl
@[simp] theorem State.poison_setCore (s : State) (c : Nat) (v : Core) : (s.setCore c v).poison = s.poison := rfl
@[simp] theorem State.zeroLines_setCore (s : State) (c : Nat) (v : Core) : (s.setCore c v).zeroLines = s.zeroLines := rfl
@[simp] theorem State.owned_setCore (s : State) (c : Nat) (v : Core) : (s.setCore c v).owned = s.owned := rfl
@[simp] theorem State.appends_setCore (s : State) (c : Nat) (v : Core) : (s.setCore c v).appends = s.appends := rfl
@[simp] theorem State.kscope_setCore (s : State) (c : Nat) (v : Core) : (s.setCore c v).kscope = s.kscope := rfl
@[simp] theorem State.ready_setCore (s : State) (c : Nat) (v : Core) : (s.setCore c v).ready = s.ready := rfl
@[simp] theorem State.ktime_setCore (s : State) (c : Nat) (v : Core) : (s.setCore c v).ktime = s.ktime := rfl
@[simp] theorem State.pkg_setCore (s : State) (c : Nat) (v : Core) : (s.setCore c v).pkg = s.pkg := rfl
@[simp] theorem State.domains_setCore (s : State) (c : Nat) (v : Core) : (s.setCore c v).domains = s.domains := rfl
@[simp] theorem State.graphs_setCore (s : State) (c : Nat) (v : Core) : (s.setCore c v).graphs = s.graphs := rfl
@[simp] theorem State.joiners_setCore (s : State) (c : Nat) (v : Core) : (s.setCore c v).joiners = s.joiners := rfl
@[simp] theorem State.joinDest_setCore (s : State) (c : Nat) (v : Core) : (s.setCore c v).joinDest = s.joinDest := rfl
@[simp] theorem State.nextGraph_setCore (s : State) (c : Nat) (v : Core) : (s.setCore c v).nextGraph = s.nextGraph := rfl
@[simp] theorem State.launchSquare_setCore (s : State) (c : Nat) (v : Core) : (s.setCore c v).launchSquare = s.launchSquare := rfl
@[simp] theorem State.budgets_setCore (s : State) (c : Nat) (v : Core) : (s.setCore c v).budgets = s.budgets := rfl
@[simp] theorem State.bars_setCore (s : State) (c : Nat) (v : Core) : (s.setCore c v).bars = s.bars := rfl
@[simp] theorem State.faults_setCore (s : State) (c : Nat) (v : Core) : (s.setCore c v).faults = s.faults := rfl
@[simp] theorem State.pageWaits_setCore (s : State) (c : Nat) (v : Core) : (s.setCore c v).pageWaits = s.pageWaits := rfl
@[simp] theorem State.aborted_setCore (s : State) (c : Nat) (v : Core) : (s.setCore c v).aborted = s.aborted := rfl
@[simp] theorem State.wakeMsgs_setCore (s : State) (c : Nat) (v : Core) : (s.setCore c v).wakeMsgs = s.wakeMsgs := rfl
@[simp] theorem State.requests_setCore (s : State) (c : Nat) (v : Core) : (s.setCore c v).requests = s.requests := rfl
@[simp] theorem State.hw_setCore (s : State) (c : Nat) (v : Core) : (s.setCore c v).hw = s.hw := rfl
@[simp] theorem State.entered_setCore (s : State) (c : Nat) (v : Core) : (s.setCore c v).entered = s.entered := rfl
@[simp] theorem State.districts_setCore (s : State) (c : Nat) (v : Core) : (s.setCore c v).districts = s.districts := rfl
@[simp] theorem State.retired_setCore (s : State) (c : Nat) (v : Core) : (s.setCore c v).retired = s.retired := rfl
@[simp] theorem State.fw_setCore (s : State) (c : Nat) (v : Core) : (s.setCore c v).fw = s.fw := rfl
@[simp] theorem State.package_setCore (s : State) (c : Nat) (v : Core) : (s.setCore c v).package = s.package := rfl
@[simp] theorem State.linkOut_setCore (s : State) (c : Nat) (v : Core) : (s.setCore c v).linkOut = s.linkOut := rfl
@[simp] theorem State.agenda_setCore (s : State) (c : Nat) (v : Core) : (s.setCore c v).agenda = s.agenda := rfl
@[simp] theorem State.turn_setCore (s : State) (c : Nat) (v : Core) : (s.setCore c v).turn = s.turn := rfl
@[simp] theorem State.cycle_setCore (s : State) (c : Nat) (v : Core) : (s.setCore c v).cycle = s.cycle := rfl
@[simp] theorem State.freeCtr_setCore (s : State) (c : Nat) (v : Core) : (s.setCore c v).freeCtr = s.freeCtr := rfl
@[simp] theorem State.focus_setCore (s : State) (c : Nat) (v : Core) : (s.setCore c v).focus = s.focus := rfl
@[simp] theorem State.pin_setCore (s : State) (c : Nat) (v : Core) : (s.setCore c v).pin = s.pin := rfl
@[simp] theorem State.last_setCore (s : State) (c : Nat) (v : Core) : (s.setCore c v).last = s.last := rfl

/-! ### setSq -/

@[simp] theorem State.cores_setSq (s : State) (q : Nat) (v : Square) : (s.setSq q v).cores = s.cores := rfl
@[simp] theorem State.mem_setSq (s : State) (q : Nat) (v : Square) : (s.setSq q v).mem = s.mem := rfl
@[simp] theorem State.poison_setSq (s : State) (q : Nat) (v : Square) : (s.setSq q v).poison = s.poison := rfl
@[simp] theorem State.zeroLines_setSq (s : State) (q : Nat) (v : Square) : (s.setSq q v).zeroLines = s.zeroLines := rfl
@[simp] theorem State.owned_setSq (s : State) (q : Nat) (v : Square) : (s.setSq q v).owned = s.owned := rfl
@[simp] theorem State.appends_setSq (s : State) (q : Nat) (v : Square) : (s.setSq q v).appends = s.appends := rfl
@[simp] theorem State.kscope_setSq (s : State) (q : Nat) (v : Square) : (s.setSq q v).kscope = s.kscope := rfl
@[simp] theorem State.ready_setSq (s : State) (q : Nat) (v : Square) : (s.setSq q v).ready = s.ready := rfl
@[simp] theorem State.ktime_setSq (s : State) (q : Nat) (v : Square) : (s.setSq q v).ktime = s.ktime := rfl
@[simp] theorem State.pkg_setSq (s : State) (q : Nat) (v : Square) : (s.setSq q v).pkg = s.pkg := rfl
@[simp] theorem State.domains_setSq (s : State) (q : Nat) (v : Square) : (s.setSq q v).domains = s.domains := rfl
@[simp] theorem State.graphs_setSq (s : State) (q : Nat) (v : Square) : (s.setSq q v).graphs = s.graphs := rfl
@[simp] theorem State.joiners_setSq (s : State) (q : Nat) (v : Square) : (s.setSq q v).joiners = s.joiners := rfl
@[simp] theorem State.joinDest_setSq (s : State) (q : Nat) (v : Square) : (s.setSq q v).joinDest = s.joinDest := rfl
@[simp] theorem State.nextGraph_setSq (s : State) (q : Nat) (v : Square) : (s.setSq q v).nextGraph = s.nextGraph := rfl
@[simp] theorem State.launchSquare_setSq (s : State) (q : Nat) (v : Square) : (s.setSq q v).launchSquare = s.launchSquare := rfl
@[simp] theorem State.budgets_setSq (s : State) (q : Nat) (v : Square) : (s.setSq q v).budgets = s.budgets := rfl
@[simp] theorem State.bars_setSq (s : State) (q : Nat) (v : Square) : (s.setSq q v).bars = s.bars := rfl
@[simp] theorem State.faults_setSq (s : State) (q : Nat) (v : Square) : (s.setSq q v).faults = s.faults := rfl
@[simp] theorem State.pageWaits_setSq (s : State) (q : Nat) (v : Square) : (s.setSq q v).pageWaits = s.pageWaits := rfl
@[simp] theorem State.aborted_setSq (s : State) (q : Nat) (v : Square) : (s.setSq q v).aborted = s.aborted := rfl
@[simp] theorem State.wakeMsgs_setSq (s : State) (q : Nat) (v : Square) : (s.setSq q v).wakeMsgs = s.wakeMsgs := rfl
@[simp] theorem State.requests_setSq (s : State) (q : Nat) (v : Square) : (s.setSq q v).requests = s.requests := rfl
@[simp] theorem State.hw_setSq (s : State) (q : Nat) (v : Square) : (s.setSq q v).hw = s.hw := rfl
@[simp] theorem State.entered_setSq (s : State) (q : Nat) (v : Square) : (s.setSq q v).entered = s.entered := rfl
@[simp] theorem State.districts_setSq (s : State) (q : Nat) (v : Square) : (s.setSq q v).districts = s.districts := rfl
@[simp] theorem State.retired_setSq (s : State) (q : Nat) (v : Square) : (s.setSq q v).retired = s.retired := rfl
@[simp] theorem State.fw_setSq (s : State) (q : Nat) (v : Square) : (s.setSq q v).fw = s.fw := rfl
@[simp] theorem State.package_setSq (s : State) (q : Nat) (v : Square) : (s.setSq q v).package = s.package := rfl
@[simp] theorem State.linkOut_setSq (s : State) (q : Nat) (v : Square) : (s.setSq q v).linkOut = s.linkOut := rfl
@[simp] theorem State.agenda_setSq (s : State) (q : Nat) (v : Square) : (s.setSq q v).agenda = s.agenda := rfl
@[simp] theorem State.turn_setSq (s : State) (q : Nat) (v : Square) : (s.setSq q v).turn = s.turn := rfl
@[simp] theorem State.cycle_setSq (s : State) (q : Nat) (v : Square) : (s.setSq q v).cycle = s.cycle := rfl
@[simp] theorem State.freeCtr_setSq (s : State) (q : Nat) (v : Square) : (s.setSq q v).freeCtr = s.freeCtr := rfl
@[simp] theorem State.focus_setSq (s : State) (q : Nat) (v : Square) : (s.setSq q v).focus = s.focus := rfl
@[simp] theorem State.pin_setSq (s : State) (q : Nat) (v : Square) : (s.setSq q v).pin = s.pin := rfl
@[simp] theorem State.last_setSq (s : State) (q : Nat) (v : Square) : (s.setSq q v).last = s.last := rfl

/-! ### setDistrict -/

@[simp] theorem State.cores_setDistrict (s : State) (d : Nat) (v : District) : (s.setDistrict d v).cores = s.cores := rfl
@[simp] theorem State.squares_setDistrict (s : State) (d : Nat) (v : District) : (s.setDistrict d v).squares = s.squares := rfl
@[simp] theorem State.mem_setDistrict (s : State) (d : Nat) (v : District) : (s.setDistrict d v).mem = s.mem := rfl
@[simp] theorem State.poison_setDistrict (s : State) (d : Nat) (v : District) : (s.setDistrict d v).poison = s.poison := rfl
@[simp] theorem State.zeroLines_setDistrict (s : State) (d : Nat) (v : District) : (s.setDistrict d v).zeroLines = s.zeroLines := rfl
@[simp] theorem State.owned_setDistrict (s : State) (d : Nat) (v : District) : (s.setDistrict d v).owned = s.owned := rfl
@[simp] theorem State.appends_setDistrict (s : State) (d : Nat) (v : District) : (s.setDistrict d v).appends = s.appends := rfl
@[simp] theorem State.kscope_setDistrict (s : State) (d : Nat) (v : District) : (s.setDistrict d v).kscope = s.kscope := rfl
@[simp] theorem State.ready_setDistrict (s : State) (d : Nat) (v : District) : (s.setDistrict d v).ready = s.ready := rfl
@[simp] theorem State.ktime_setDistrict (s : State) (d : Nat) (v : District) : (s.setDistrict d v).ktime = s.ktime := rfl
@[simp] theorem State.pkg_setDistrict (s : State) (d : Nat) (v : District) : (s.setDistrict d v).pkg = s.pkg := rfl
@[simp] theorem State.domains_setDistrict (s : State) (d : Nat) (v : District) : (s.setDistrict d v).domains = s.domains := rfl
@[simp] theorem State.graphs_setDistrict (s : State) (d : Nat) (v : District) : (s.setDistrict d v).graphs = s.graphs := rfl
@[simp] theorem State.joiners_setDistrict (s : State) (d : Nat) (v : District) : (s.setDistrict d v).joiners = s.joiners := rfl
@[simp] theorem State.joinDest_setDistrict (s : State) (d : Nat) (v : District) : (s.setDistrict d v).joinDest = s.joinDest := rfl
@[simp] theorem State.nextGraph_setDistrict (s : State) (d : Nat) (v : District) : (s.setDistrict d v).nextGraph = s.nextGraph := rfl
@[simp] theorem State.launchSquare_setDistrict (s : State) (d : Nat) (v : District) : (s.setDistrict d v).launchSquare = s.launchSquare := rfl
@[simp] theorem State.budgets_setDistrict (s : State) (d : Nat) (v : District) : (s.setDistrict d v).budgets = s.budgets := rfl
@[simp] theorem State.bars_setDistrict (s : State) (d : Nat) (v : District) : (s.setDistrict d v).bars = s.bars := rfl
@[simp] theorem State.faults_setDistrict (s : State) (d : Nat) (v : District) : (s.setDistrict d v).faults = s.faults := rfl
@[simp] theorem State.pageWaits_setDistrict (s : State) (d : Nat) (v : District) : (s.setDistrict d v).pageWaits = s.pageWaits := rfl
@[simp] theorem State.aborted_setDistrict (s : State) (d : Nat) (v : District) : (s.setDistrict d v).aborted = s.aborted := rfl
@[simp] theorem State.wakeMsgs_setDistrict (s : State) (d : Nat) (v : District) : (s.setDistrict d v).wakeMsgs = s.wakeMsgs := rfl
@[simp] theorem State.requests_setDistrict (s : State) (d : Nat) (v : District) : (s.setDistrict d v).requests = s.requests := rfl
@[simp] theorem State.hw_setDistrict (s : State) (d : Nat) (v : District) : (s.setDistrict d v).hw = s.hw := rfl
@[simp] theorem State.entered_setDistrict (s : State) (d : Nat) (v : District) : (s.setDistrict d v).entered = s.entered := rfl
@[simp] theorem State.retired_setDistrict (s : State) (d : Nat) (v : District) : (s.setDistrict d v).retired = s.retired := rfl
@[simp] theorem State.fw_setDistrict (s : State) (d : Nat) (v : District) : (s.setDistrict d v).fw = s.fw := rfl
@[simp] theorem State.package_setDistrict (s : State) (d : Nat) (v : District) : (s.setDistrict d v).package = s.package := rfl
@[simp] theorem State.linkOut_setDistrict (s : State) (d : Nat) (v : District) : (s.setDistrict d v).linkOut = s.linkOut := rfl
@[simp] theorem State.agenda_setDistrict (s : State) (d : Nat) (v : District) : (s.setDistrict d v).agenda = s.agenda := rfl
@[simp] theorem State.turn_setDistrict (s : State) (d : Nat) (v : District) : (s.setDistrict d v).turn = s.turn := rfl
@[simp] theorem State.cycle_setDistrict (s : State) (d : Nat) (v : District) : (s.setDistrict d v).cycle = s.cycle := rfl
@[simp] theorem State.freeCtr_setDistrict (s : State) (d : Nat) (v : District) : (s.setDistrict d v).freeCtr = s.freeCtr := rfl
@[simp] theorem State.focus_setDistrict (s : State) (d : Nat) (v : District) : (s.setDistrict d v).focus = s.focus := rfl
@[simp] theorem State.pin_setDistrict (s : State) (d : Nat) (v : District) : (s.setDistrict d v).pin = s.pin := rfl
@[simp] theorem State.last_setDistrict (s : State) (d : Nat) (v : District) : (s.setDistrict d v).last = s.last := rfl

/-! ### setDom -/

@[simp] theorem State.cores_setDom (s : State) (d : Nat) (v : Option Domain) : (s.setDom d v).cores = s.cores := rfl
@[simp] theorem State.squares_setDom (s : State) (d : Nat) (v : Option Domain) : (s.setDom d v).squares = s.squares := rfl
@[simp] theorem State.mem_setDom (s : State) (d : Nat) (v : Option Domain) : (s.setDom d v).mem = s.mem := rfl
@[simp] theorem State.poison_setDom (s : State) (d : Nat) (v : Option Domain) : (s.setDom d v).poison = s.poison := rfl
@[simp] theorem State.zeroLines_setDom (s : State) (d : Nat) (v : Option Domain) : (s.setDom d v).zeroLines = s.zeroLines := rfl
@[simp] theorem State.owned_setDom (s : State) (d : Nat) (v : Option Domain) : (s.setDom d v).owned = s.owned := rfl
@[simp] theorem State.appends_setDom (s : State) (d : Nat) (v : Option Domain) : (s.setDom d v).appends = s.appends := rfl
@[simp] theorem State.kscope_setDom (s : State) (d : Nat) (v : Option Domain) : (s.setDom d v).kscope = s.kscope := rfl
@[simp] theorem State.ready_setDom (s : State) (d : Nat) (v : Option Domain) : (s.setDom d v).ready = s.ready := rfl
@[simp] theorem State.ktime_setDom (s : State) (d : Nat) (v : Option Domain) : (s.setDom d v).ktime = s.ktime := rfl
@[simp] theorem State.pkg_setDom (s : State) (d : Nat) (v : Option Domain) : (s.setDom d v).pkg = s.pkg := rfl
@[simp] theorem State.graphs_setDom (s : State) (d : Nat) (v : Option Domain) : (s.setDom d v).graphs = s.graphs := rfl
@[simp] theorem State.joiners_setDom (s : State) (d : Nat) (v : Option Domain) : (s.setDom d v).joiners = s.joiners := rfl
@[simp] theorem State.joinDest_setDom (s : State) (d : Nat) (v : Option Domain) : (s.setDom d v).joinDest = s.joinDest := rfl
@[simp] theorem State.nextGraph_setDom (s : State) (d : Nat) (v : Option Domain) : (s.setDom d v).nextGraph = s.nextGraph := rfl
@[simp] theorem State.launchSquare_setDom (s : State) (d : Nat) (v : Option Domain) : (s.setDom d v).launchSquare = s.launchSquare := rfl
@[simp] theorem State.budgets_setDom (s : State) (d : Nat) (v : Option Domain) : (s.setDom d v).budgets = s.budgets := rfl
@[simp] theorem State.bars_setDom (s : State) (d : Nat) (v : Option Domain) : (s.setDom d v).bars = s.bars := rfl
@[simp] theorem State.faults_setDom (s : State) (d : Nat) (v : Option Domain) : (s.setDom d v).faults = s.faults := rfl
@[simp] theorem State.pageWaits_setDom (s : State) (d : Nat) (v : Option Domain) : (s.setDom d v).pageWaits = s.pageWaits := rfl
@[simp] theorem State.aborted_setDom (s : State) (d : Nat) (v : Option Domain) : (s.setDom d v).aborted = s.aborted := rfl
@[simp] theorem State.wakeMsgs_setDom (s : State) (d : Nat) (v : Option Domain) : (s.setDom d v).wakeMsgs = s.wakeMsgs := rfl
@[simp] theorem State.requests_setDom (s : State) (d : Nat) (v : Option Domain) : (s.setDom d v).requests = s.requests := rfl
@[simp] theorem State.hw_setDom (s : State) (d : Nat) (v : Option Domain) : (s.setDom d v).hw = s.hw := rfl
@[simp] theorem State.entered_setDom (s : State) (d : Nat) (v : Option Domain) : (s.setDom d v).entered = s.entered := rfl
@[simp] theorem State.districts_setDom (s : State) (d : Nat) (v : Option Domain) : (s.setDom d v).districts = s.districts := rfl
@[simp] theorem State.retired_setDom (s : State) (d : Nat) (v : Option Domain) : (s.setDom d v).retired = s.retired := rfl
@[simp] theorem State.fw_setDom (s : State) (d : Nat) (v : Option Domain) : (s.setDom d v).fw = s.fw := rfl
@[simp] theorem State.package_setDom (s : State) (d : Nat) (v : Option Domain) : (s.setDom d v).package = s.package := rfl
@[simp] theorem State.linkOut_setDom (s : State) (d : Nat) (v : Option Domain) : (s.setDom d v).linkOut = s.linkOut := rfl
@[simp] theorem State.agenda_setDom (s : State) (d : Nat) (v : Option Domain) : (s.setDom d v).agenda = s.agenda := rfl
@[simp] theorem State.turn_setDom (s : State) (d : Nat) (v : Option Domain) : (s.setDom d v).turn = s.turn := rfl
@[simp] theorem State.cycle_setDom (s : State) (d : Nat) (v : Option Domain) : (s.setDom d v).cycle = s.cycle := rfl
@[simp] theorem State.freeCtr_setDom (s : State) (d : Nat) (v : Option Domain) : (s.setDom d v).freeCtr = s.freeCtr := rfl
@[simp] theorem State.focus_setDom (s : State) (d : Nat) (v : Option Domain) : (s.setDom d v).focus = s.focus := rfl
@[simp] theorem State.pin_setDom (s : State) (d : Nat) (v : Option Domain) : (s.setDom d v).pin = s.pin := rfl
@[simp] theorem State.last_setDom (s : State) (d : Nat) (v : Option Domain) : (s.setDom d v).last = s.last := rfl

/-! ### setBar -/

@[simp] theorem State.cores_setBar (s : State) (d : Nat) (v : Bar) : (s.setBar d v).cores = s.cores := rfl
@[simp] theorem State.squares_setBar (s : State) (d : Nat) (v : Bar) : (s.setBar d v).squares = s.squares := rfl
@[simp] theorem State.mem_setBar (s : State) (d : Nat) (v : Bar) : (s.setBar d v).mem = s.mem := rfl
@[simp] theorem State.poison_setBar (s : State) (d : Nat) (v : Bar) : (s.setBar d v).poison = s.poison := rfl
@[simp] theorem State.zeroLines_setBar (s : State) (d : Nat) (v : Bar) : (s.setBar d v).zeroLines = s.zeroLines := rfl
@[simp] theorem State.owned_setBar (s : State) (d : Nat) (v : Bar) : (s.setBar d v).owned = s.owned := rfl
@[simp] theorem State.appends_setBar (s : State) (d : Nat) (v : Bar) : (s.setBar d v).appends = s.appends := rfl
@[simp] theorem State.kscope_setBar (s : State) (d : Nat) (v : Bar) : (s.setBar d v).kscope = s.kscope := rfl
@[simp] theorem State.ready_setBar (s : State) (d : Nat) (v : Bar) : (s.setBar d v).ready = s.ready := rfl
@[simp] theorem State.ktime_setBar (s : State) (d : Nat) (v : Bar) : (s.setBar d v).ktime = s.ktime := rfl
@[simp] theorem State.pkg_setBar (s : State) (d : Nat) (v : Bar) : (s.setBar d v).pkg = s.pkg := rfl
@[simp] theorem State.domains_setBar (s : State) (d : Nat) (v : Bar) : (s.setBar d v).domains = s.domains := rfl
@[simp] theorem State.graphs_setBar (s : State) (d : Nat) (v : Bar) : (s.setBar d v).graphs = s.graphs := rfl
@[simp] theorem State.joiners_setBar (s : State) (d : Nat) (v : Bar) : (s.setBar d v).joiners = s.joiners := rfl
@[simp] theorem State.joinDest_setBar (s : State) (d : Nat) (v : Bar) : (s.setBar d v).joinDest = s.joinDest := rfl
@[simp] theorem State.nextGraph_setBar (s : State) (d : Nat) (v : Bar) : (s.setBar d v).nextGraph = s.nextGraph := rfl
@[simp] theorem State.launchSquare_setBar (s : State) (d : Nat) (v : Bar) : (s.setBar d v).launchSquare = s.launchSquare := rfl
@[simp] theorem State.budgets_setBar (s : State) (d : Nat) (v : Bar) : (s.setBar d v).budgets = s.budgets := rfl
@[simp] theorem State.faults_setBar (s : State) (d : Nat) (v : Bar) : (s.setBar d v).faults = s.faults := rfl
@[simp] theorem State.pageWaits_setBar (s : State) (d : Nat) (v : Bar) : (s.setBar d v).pageWaits = s.pageWaits := rfl
@[simp] theorem State.aborted_setBar (s : State) (d : Nat) (v : Bar) : (s.setBar d v).aborted = s.aborted := rfl
@[simp] theorem State.wakeMsgs_setBar (s : State) (d : Nat) (v : Bar) : (s.setBar d v).wakeMsgs = s.wakeMsgs := rfl
@[simp] theorem State.requests_setBar (s : State) (d : Nat) (v : Bar) : (s.setBar d v).requests = s.requests := rfl
@[simp] theorem State.hw_setBar (s : State) (d : Nat) (v : Bar) : (s.setBar d v).hw = s.hw := rfl
@[simp] theorem State.entered_setBar (s : State) (d : Nat) (v : Bar) : (s.setBar d v).entered = s.entered := rfl
@[simp] theorem State.districts_setBar (s : State) (d : Nat) (v : Bar) : (s.setBar d v).districts = s.districts := rfl
@[simp] theorem State.retired_setBar (s : State) (d : Nat) (v : Bar) : (s.setBar d v).retired = s.retired := rfl
@[simp] theorem State.fw_setBar (s : State) (d : Nat) (v : Bar) : (s.setBar d v).fw = s.fw := rfl
@[simp] theorem State.package_setBar (s : State) (d : Nat) (v : Bar) : (s.setBar d v).package = s.package := rfl
@[simp] theorem State.linkOut_setBar (s : State) (d : Nat) (v : Bar) : (s.setBar d v).linkOut = s.linkOut := rfl
@[simp] theorem State.agenda_setBar (s : State) (d : Nat) (v : Bar) : (s.setBar d v).agenda = s.agenda := rfl
@[simp] theorem State.turn_setBar (s : State) (d : Nat) (v : Bar) : (s.setBar d v).turn = s.turn := rfl
@[simp] theorem State.cycle_setBar (s : State) (d : Nat) (v : Bar) : (s.setBar d v).cycle = s.cycle := rfl
@[simp] theorem State.freeCtr_setBar (s : State) (d : Nat) (v : Bar) : (s.setBar d v).freeCtr = s.freeCtr := rfl
@[simp] theorem State.focus_setBar (s : State) (d : Nat) (v : Bar) : (s.setBar d v).focus = s.focus := rfl
@[simp] theorem State.pin_setBar (s : State) (d : Nat) (v : Bar) : (s.setBar d v).pin = s.pin := rfl
@[simp] theorem State.last_setBar (s : State) (d : Nat) (v : Bar) : (s.setBar d v).last = s.last := rfl

/-! ### setReady -/

@[simp] theorem State.cores_setReady (s : State) (n b : Nat) (v : Bool) : (s.setReady n b v).cores = s.cores := rfl
@[simp] theorem State.squares_setReady (s : State) (n b : Nat) (v : Bool) : (s.setReady n b v).squares = s.squares := rfl
@[simp] theorem State.mem_setReady (s : State) (n b : Nat) (v : Bool) : (s.setReady n b v).mem = s.mem := rfl
@[simp] theorem State.poison_setReady (s : State) (n b : Nat) (v : Bool) : (s.setReady n b v).poison = s.poison := rfl
@[simp] theorem State.zeroLines_setReady (s : State) (n b : Nat) (v : Bool) : (s.setReady n b v).zeroLines = s.zeroLines := rfl
@[simp] theorem State.owned_setReady (s : State) (n b : Nat) (v : Bool) : (s.setReady n b v).owned = s.owned := rfl
@[simp] theorem State.appends_setReady (s : State) (n b : Nat) (v : Bool) : (s.setReady n b v).appends = s.appends := rfl
@[simp] theorem State.kscope_setReady (s : State) (n b : Nat) (v : Bool) : (s.setReady n b v).kscope = s.kscope := rfl
@[simp] theorem State.ktime_setReady (s : State) (n b : Nat) (v : Bool) : (s.setReady n b v).ktime = s.ktime := rfl
@[simp] theorem State.pkg_setReady (s : State) (n b : Nat) (v : Bool) : (s.setReady n b v).pkg = s.pkg := rfl
@[simp] theorem State.domains_setReady (s : State) (n b : Nat) (v : Bool) : (s.setReady n b v).domains = s.domains := rfl
@[simp] theorem State.graphs_setReady (s : State) (n b : Nat) (v : Bool) : (s.setReady n b v).graphs = s.graphs := rfl
@[simp] theorem State.joiners_setReady (s : State) (n b : Nat) (v : Bool) : (s.setReady n b v).joiners = s.joiners := rfl
@[simp] theorem State.joinDest_setReady (s : State) (n b : Nat) (v : Bool) : (s.setReady n b v).joinDest = s.joinDest := rfl
@[simp] theorem State.nextGraph_setReady (s : State) (n b : Nat) (v : Bool) : (s.setReady n b v).nextGraph = s.nextGraph := rfl
@[simp] theorem State.launchSquare_setReady (s : State) (n b : Nat) (v : Bool) : (s.setReady n b v).launchSquare = s.launchSquare := rfl
@[simp] theorem State.budgets_setReady (s : State) (n b : Nat) (v : Bool) : (s.setReady n b v).budgets = s.budgets := rfl
@[simp] theorem State.bars_setReady (s : State) (n b : Nat) (v : Bool) : (s.setReady n b v).bars = s.bars := rfl
@[simp] theorem State.faults_setReady (s : State) (n b : Nat) (v : Bool) : (s.setReady n b v).faults = s.faults := rfl
@[simp] theorem State.pageWaits_setReady (s : State) (n b : Nat) (v : Bool) : (s.setReady n b v).pageWaits = s.pageWaits := rfl
@[simp] theorem State.aborted_setReady (s : State) (n b : Nat) (v : Bool) : (s.setReady n b v).aborted = s.aborted := rfl
@[simp] theorem State.wakeMsgs_setReady (s : State) (n b : Nat) (v : Bool) : (s.setReady n b v).wakeMsgs = s.wakeMsgs := rfl
@[simp] theorem State.requests_setReady (s : State) (n b : Nat) (v : Bool) : (s.setReady n b v).requests = s.requests := rfl
@[simp] theorem State.hw_setReady (s : State) (n b : Nat) (v : Bool) : (s.setReady n b v).hw = s.hw := rfl
@[simp] theorem State.entered_setReady (s : State) (n b : Nat) (v : Bool) : (s.setReady n b v).entered = s.entered := rfl
@[simp] theorem State.districts_setReady (s : State) (n b : Nat) (v : Bool) : (s.setReady n b v).districts = s.districts := rfl
@[simp] theorem State.retired_setReady (s : State) (n b : Nat) (v : Bool) : (s.setReady n b v).retired = s.retired := rfl
@[simp] theorem State.fw_setReady (s : State) (n b : Nat) (v : Bool) : (s.setReady n b v).fw = s.fw := rfl
@[simp] theorem State.package_setReady (s : State) (n b : Nat) (v : Bool) : (s.setReady n b v).package = s.package := rfl
@[simp] theorem State.linkOut_setReady (s : State) (n b : Nat) (v : Bool) : (s.setReady n b v).linkOut = s.linkOut := rfl
@[simp] theorem State.agenda_setReady (s : State) (n b : Nat) (v : Bool) : (s.setReady n b v).agenda = s.agenda := rfl
@[simp] theorem State.turn_setReady (s : State) (n b : Nat) (v : Bool) : (s.setReady n b v).turn = s.turn := rfl
@[simp] theorem State.cycle_setReady (s : State) (n b : Nat) (v : Bool) : (s.setReady n b v).cycle = s.cycle := rfl
@[simp] theorem State.freeCtr_setReady (s : State) (n b : Nat) (v : Bool) : (s.setReady n b v).freeCtr = s.freeCtr := rfl
@[simp] theorem State.focus_setReady (s : State) (n b : Nat) (v : Bool) : (s.setReady n b v).focus = s.focus := rfl
@[simp] theorem State.pin_setReady (s : State) (n b : Nat) (v : Bool) : (s.setReady n b v).pin = s.pin := rfl
@[simp] theorem State.last_setReady (s : State) (n b : Nat) (v : Bool) : (s.setReady n b v).last = s.last := rfl

/-! ### setBudget -/

@[simp] theorem State.cores_setBudget (s : State) (d r i : Nat) (b : Budget) : (s.setBudget d r i b).cores = s.cores := rfl
@[simp] theorem State.squares_setBudget (s : State) (d r i : Nat) (b : Budget) : (s.setBudget d r i b).squares = s.squares := rfl
@[simp] theorem State.mem_setBudget (s : State) (d r i : Nat) (b : Budget) : (s.setBudget d r i b).mem = s.mem := rfl
@[simp] theorem State.poison_setBudget (s : State) (d r i : Nat) (b : Budget) : (s.setBudget d r i b).poison = s.poison := rfl
@[simp] theorem State.zeroLines_setBudget (s : State) (d r i : Nat) (b : Budget) : (s.setBudget d r i b).zeroLines = s.zeroLines := rfl
@[simp] theorem State.owned_setBudget (s : State) (d r i : Nat) (b : Budget) : (s.setBudget d r i b).owned = s.owned := rfl
@[simp] theorem State.appends_setBudget (s : State) (d r i : Nat) (b : Budget) : (s.setBudget d r i b).appends = s.appends := rfl
@[simp] theorem State.kscope_setBudget (s : State) (d r i : Nat) (b : Budget) : (s.setBudget d r i b).kscope = s.kscope := rfl
@[simp] theorem State.ready_setBudget (s : State) (d r i : Nat) (b : Budget) : (s.setBudget d r i b).ready = s.ready := rfl
@[simp] theorem State.ktime_setBudget (s : State) (d r i : Nat) (b : Budget) : (s.setBudget d r i b).ktime = s.ktime := rfl
@[simp] theorem State.pkg_setBudget (s : State) (d r i : Nat) (b : Budget) : (s.setBudget d r i b).pkg = s.pkg := rfl
@[simp] theorem State.domains_setBudget (s : State) (d r i : Nat) (b : Budget) : (s.setBudget d r i b).domains = s.domains := rfl
@[simp] theorem State.graphs_setBudget (s : State) (d r i : Nat) (b : Budget) : (s.setBudget d r i b).graphs = s.graphs := rfl
@[simp] theorem State.joiners_setBudget (s : State) (d r i : Nat) (b : Budget) : (s.setBudget d r i b).joiners = s.joiners := rfl
@[simp] theorem State.joinDest_setBudget (s : State) (d r i : Nat) (b : Budget) : (s.setBudget d r i b).joinDest = s.joinDest := rfl
@[simp] theorem State.nextGraph_setBudget (s : State) (d r i : Nat) (b : Budget) : (s.setBudget d r i b).nextGraph = s.nextGraph := rfl
@[simp] theorem State.launchSquare_setBudget (s : State) (d r i : Nat) (b : Budget) : (s.setBudget d r i b).launchSquare = s.launchSquare := rfl
@[simp] theorem State.bars_setBudget (s : State) (d r i : Nat) (b : Budget) : (s.setBudget d r i b).bars = s.bars := rfl
@[simp] theorem State.faults_setBudget (s : State) (d r i : Nat) (b : Budget) : (s.setBudget d r i b).faults = s.faults := rfl
@[simp] theorem State.pageWaits_setBudget (s : State) (d r i : Nat) (b : Budget) : (s.setBudget d r i b).pageWaits = s.pageWaits := rfl
@[simp] theorem State.aborted_setBudget (s : State) (d r i : Nat) (b : Budget) : (s.setBudget d r i b).aborted = s.aborted := rfl
@[simp] theorem State.wakeMsgs_setBudget (s : State) (d r i : Nat) (b : Budget) : (s.setBudget d r i b).wakeMsgs = s.wakeMsgs := rfl
@[simp] theorem State.requests_setBudget (s : State) (d r i : Nat) (b : Budget) : (s.setBudget d r i b).requests = s.requests := rfl
@[simp] theorem State.hw_setBudget (s : State) (d r i : Nat) (b : Budget) : (s.setBudget d r i b).hw = s.hw := rfl
@[simp] theorem State.entered_setBudget (s : State) (d r i : Nat) (b : Budget) : (s.setBudget d r i b).entered = s.entered := rfl
@[simp] theorem State.districts_setBudget (s : State) (d r i : Nat) (b : Budget) : (s.setBudget d r i b).districts = s.districts := rfl
@[simp] theorem State.retired_setBudget (s : State) (d r i : Nat) (b : Budget) : (s.setBudget d r i b).retired = s.retired := rfl
@[simp] theorem State.fw_setBudget (s : State) (d r i : Nat) (b : Budget) : (s.setBudget d r i b).fw = s.fw := rfl
@[simp] theorem State.package_setBudget (s : State) (d r i : Nat) (b : Budget) : (s.setBudget d r i b).package = s.package := rfl
@[simp] theorem State.linkOut_setBudget (s : State) (d r i : Nat) (b : Budget) : (s.setBudget d r i b).linkOut = s.linkOut := rfl
@[simp] theorem State.agenda_setBudget (s : State) (d r i : Nat) (b : Budget) : (s.setBudget d r i b).agenda = s.agenda := rfl
@[simp] theorem State.turn_setBudget (s : State) (d r i : Nat) (b : Budget) : (s.setBudget d r i b).turn = s.turn := rfl
@[simp] theorem State.cycle_setBudget (s : State) (d r i : Nat) (b : Budget) : (s.setBudget d r i b).cycle = s.cycle := rfl
@[simp] theorem State.freeCtr_setBudget (s : State) (d r i : Nat) (b : Budget) : (s.setBudget d r i b).freeCtr = s.freeCtr := rfl
@[simp] theorem State.focus_setBudget (s : State) (d r i : Nat) (b : Budget) : (s.setBudget d r i b).focus = s.focus := rfl
@[simp] theorem State.pin_setBudget (s : State) (d r i : Nat) (b : Budget) : (s.setBudget d r i b).pin = s.pin := rfl
@[simp] theorem State.last_setBudget (s : State) (d r i : Nat) (b : Budget) : (s.setBudget d r i b).last = s.last := rfl

/-! ### setCtx -/

@[simp] theorem State.squares_setCtx (s : State) (c x : Nat) (v : Ctx) : (s.setCtx c x v).squares = s.squares := rfl
@[simp] theorem State.mem_setCtx (s : State) (c x : Nat) (v : Ctx) : (s.setCtx c x v).mem = s.mem := rfl
@[simp] theorem State.poison_setCtx (s : State) (c x : Nat) (v : Ctx) : (s.setCtx c x v).poison = s.poison := rfl
@[simp] theorem State.zeroLines_setCtx (s : State) (c x : Nat) (v : Ctx) : (s.setCtx c x v).zeroLines = s.zeroLines := rfl
@[simp] theorem State.owned_setCtx (s : State) (c x : Nat) (v : Ctx) : (s.setCtx c x v).owned = s.owned := rfl
@[simp] theorem State.appends_setCtx (s : State) (c x : Nat) (v : Ctx) : (s.setCtx c x v).appends = s.appends := rfl
@[simp] theorem State.kscope_setCtx (s : State) (c x : Nat) (v : Ctx) : (s.setCtx c x v).kscope = s.kscope := rfl
@[simp] theorem State.ready_setCtx (s : State) (c x : Nat) (v : Ctx) : (s.setCtx c x v).ready = s.ready := rfl
@[simp] theorem State.ktime_setCtx (s : State) (c x : Nat) (v : Ctx) : (s.setCtx c x v).ktime = s.ktime := rfl
@[simp] theorem State.pkg_setCtx (s : State) (c x : Nat) (v : Ctx) : (s.setCtx c x v).pkg = s.pkg := rfl
@[simp] theorem State.domains_setCtx (s : State) (c x : Nat) (v : Ctx) : (s.setCtx c x v).domains = s.domains := rfl
@[simp] theorem State.graphs_setCtx (s : State) (c x : Nat) (v : Ctx) : (s.setCtx c x v).graphs = s.graphs := rfl
@[simp] theorem State.joiners_setCtx (s : State) (c x : Nat) (v : Ctx) : (s.setCtx c x v).joiners = s.joiners := rfl
@[simp] theorem State.joinDest_setCtx (s : State) (c x : Nat) (v : Ctx) : (s.setCtx c x v).joinDest = s.joinDest := rfl
@[simp] theorem State.nextGraph_setCtx (s : State) (c x : Nat) (v : Ctx) : (s.setCtx c x v).nextGraph = s.nextGraph := rfl
@[simp] theorem State.launchSquare_setCtx (s : State) (c x : Nat) (v : Ctx) : (s.setCtx c x v).launchSquare = s.launchSquare := rfl
@[simp] theorem State.budgets_setCtx (s : State) (c x : Nat) (v : Ctx) : (s.setCtx c x v).budgets = s.budgets := rfl
@[simp] theorem State.bars_setCtx (s : State) (c x : Nat) (v : Ctx) : (s.setCtx c x v).bars = s.bars := rfl
@[simp] theorem State.faults_setCtx (s : State) (c x : Nat) (v : Ctx) : (s.setCtx c x v).faults = s.faults := rfl
@[simp] theorem State.pageWaits_setCtx (s : State) (c x : Nat) (v : Ctx) : (s.setCtx c x v).pageWaits = s.pageWaits := rfl
@[simp] theorem State.aborted_setCtx (s : State) (c x : Nat) (v : Ctx) : (s.setCtx c x v).aborted = s.aborted := rfl
@[simp] theorem State.wakeMsgs_setCtx (s : State) (c x : Nat) (v : Ctx) : (s.setCtx c x v).wakeMsgs = s.wakeMsgs := rfl
@[simp] theorem State.requests_setCtx (s : State) (c x : Nat) (v : Ctx) : (s.setCtx c x v).requests = s.requests := rfl
@[simp] theorem State.hw_setCtx (s : State) (c x : Nat) (v : Ctx) : (s.setCtx c x v).hw = s.hw := rfl
@[simp] theorem State.entered_setCtx (s : State) (c x : Nat) (v : Ctx) : (s.setCtx c x v).entered = s.entered := rfl
@[simp] theorem State.districts_setCtx (s : State) (c x : Nat) (v : Ctx) : (s.setCtx c x v).districts = s.districts := rfl
@[simp] theorem State.retired_setCtx (s : State) (c x : Nat) (v : Ctx) : (s.setCtx c x v).retired = s.retired := rfl
@[simp] theorem State.fw_setCtx (s : State) (c x : Nat) (v : Ctx) : (s.setCtx c x v).fw = s.fw := rfl
@[simp] theorem State.package_setCtx (s : State) (c x : Nat) (v : Ctx) : (s.setCtx c x v).package = s.package := rfl
@[simp] theorem State.linkOut_setCtx (s : State) (c x : Nat) (v : Ctx) : (s.setCtx c x v).linkOut = s.linkOut := rfl
@[simp] theorem State.agenda_setCtx (s : State) (c x : Nat) (v : Ctx) : (s.setCtx c x v).agenda = s.agenda := rfl
@[simp] theorem State.turn_setCtx (s : State) (c x : Nat) (v : Ctx) : (s.setCtx c x v).turn = s.turn := rfl
@[simp] theorem State.cycle_setCtx (s : State) (c x : Nat) (v : Ctx) : (s.setCtx c x v).cycle = s.cycle := rfl
@[simp] theorem State.freeCtr_setCtx (s : State) (c x : Nat) (v : Ctx) : (s.setCtx c x v).freeCtr = s.freeCtr := rfl
@[simp] theorem State.focus_setCtx (s : State) (c x : Nat) (v : Ctx) : (s.setCtx c x v).focus = s.focus := rfl
@[simp] theorem State.pin_setCtx (s : State) (c x : Nat) (v : Ctx) : (s.setCtx c x v).pin = s.pin := rfl
@[simp] theorem State.last_setCtx (s : State) (c x : Nat) (v : Ctx) : (s.setCtx c x v).last = s.last := rfl

/-! ### setCur -/

@[simp] theorem State.squares_setCur (s : State) (v : Ctx) : (s.setCur v).squares = s.squares := rfl
@[simp] theorem State.mem_setCur (s : State) (v : Ctx) : (s.setCur v).mem = s.mem := rfl
@[simp] theorem State.poison_setCur (s : State) (v : Ctx) : (s.setCur v).poison = s.poison := rfl
@[simp] theorem State.zeroLines_setCur (s : State) (v : Ctx) : (s.setCur v).zeroLines = s.zeroLines := rfl
@[simp] theorem State.owned_setCur (s : State) (v : Ctx) : (s.setCur v).owned = s.owned := rfl
@[simp] theorem State.appends_setCur (s : State) (v : Ctx) : (s.setCur v).appends = s.appends := rfl
@[simp] theorem State.kscope_setCur (s : State) (v : Ctx) : (s.setCur v).kscope = s.kscope := rfl
@[simp] theorem State.ready_setCur (s : State) (v : Ctx) : (s.setCur v).ready = s.ready := rfl
@[simp] theorem State.ktime_setCur (s : State) (v : Ctx) : (s.setCur v).ktime = s.ktime := rfl
@[simp] theorem State.pkg_setCur (s : State) (v : Ctx) : (s.setCur v).pkg = s.pkg := rfl
@[simp] theorem State.domains_setCur (s : State) (v : Ctx) : (s.setCur v).domains = s.domains := rfl
@[simp] theorem State.graphs_setCur (s : State) (v : Ctx) : (s.setCur v).graphs = s.graphs := rfl
@[simp] theorem State.joiners_setCur (s : State) (v : Ctx) : (s.setCur v).joiners = s.joiners := rfl
@[simp] theorem State.joinDest_setCur (s : State) (v : Ctx) : (s.setCur v).joinDest = s.joinDest := rfl
@[simp] theorem State.nextGraph_setCur (s : State) (v : Ctx) : (s.setCur v).nextGraph = s.nextGraph := rfl
@[simp] theorem State.launchSquare_setCur (s : State) (v : Ctx) : (s.setCur v).launchSquare = s.launchSquare := rfl
@[simp] theorem State.budgets_setCur (s : State) (v : Ctx) : (s.setCur v).budgets = s.budgets := rfl
@[simp] theorem State.bars_setCur (s : State) (v : Ctx) : (s.setCur v).bars = s.bars := rfl
@[simp] theorem State.faults_setCur (s : State) (v : Ctx) : (s.setCur v).faults = s.faults := rfl
@[simp] theorem State.pageWaits_setCur (s : State) (v : Ctx) : (s.setCur v).pageWaits = s.pageWaits := rfl
@[simp] theorem State.aborted_setCur (s : State) (v : Ctx) : (s.setCur v).aborted = s.aborted := rfl
@[simp] theorem State.wakeMsgs_setCur (s : State) (v : Ctx) : (s.setCur v).wakeMsgs = s.wakeMsgs := rfl
@[simp] theorem State.requests_setCur (s : State) (v : Ctx) : (s.setCur v).requests = s.requests := rfl
@[simp] theorem State.hw_setCur (s : State) (v : Ctx) : (s.setCur v).hw = s.hw := rfl
@[simp] theorem State.entered_setCur (s : State) (v : Ctx) : (s.setCur v).entered = s.entered := rfl
@[simp] theorem State.districts_setCur (s : State) (v : Ctx) : (s.setCur v).districts = s.districts := rfl
@[simp] theorem State.retired_setCur (s : State) (v : Ctx) : (s.setCur v).retired = s.retired := rfl
@[simp] theorem State.fw_setCur (s : State) (v : Ctx) : (s.setCur v).fw = s.fw := rfl
@[simp] theorem State.package_setCur (s : State) (v : Ctx) : (s.setCur v).package = s.package := rfl
@[simp] theorem State.linkOut_setCur (s : State) (v : Ctx) : (s.setCur v).linkOut = s.linkOut := rfl
@[simp] theorem State.agenda_setCur (s : State) (v : Ctx) : (s.setCur v).agenda = s.agenda := rfl
@[simp] theorem State.turn_setCur (s : State) (v : Ctx) : (s.setCur v).turn = s.turn := rfl
@[simp] theorem State.cycle_setCur (s : State) (v : Ctx) : (s.setCur v).cycle = s.cycle := rfl
@[simp] theorem State.freeCtr_setCur (s : State) (v : Ctx) : (s.setCur v).freeCtr = s.freeCtr := rfl
@[simp] theorem State.focus_setCur (s : State) (v : Ctx) : (s.setCur v).focus = s.focus := rfl
@[simp] theorem State.pin_setCur (s : State) (v : Ctx) : (s.setCur v).pin = s.pin := rfl
@[simp] theorem State.last_setCur (s : State) (v : Ctx) : (s.setCur v).last = s.last := rfl

/-! ### setCoreCur -/

@[simp] theorem State.squares_setCoreCur (s : State) (v : Core) : (s.setCoreCur v).squares = s.squares := rfl
@[simp] theorem State.mem_setCoreCur (s : State) (v : Core) : (s.setCoreCur v).mem = s.mem := rfl
@[simp] theorem State.poison_setCoreCur (s : State) (v : Core) : (s.setCoreCur v).poison = s.poison := rfl
@[simp] theorem State.zeroLines_setCoreCur (s : State) (v : Core) : (s.setCoreCur v).zeroLines = s.zeroLines := rfl
@[simp] theorem State.owned_setCoreCur (s : State) (v : Core) : (s.setCoreCur v).owned = s.owned := rfl
@[simp] theorem State.appends_setCoreCur (s : State) (v : Core) : (s.setCoreCur v).appends = s.appends := rfl
@[simp] theorem State.kscope_setCoreCur (s : State) (v : Core) : (s.setCoreCur v).kscope = s.kscope := rfl
@[simp] theorem State.ready_setCoreCur (s : State) (v : Core) : (s.setCoreCur v).ready = s.ready := rfl
@[simp] theorem State.ktime_setCoreCur (s : State) (v : Core) : (s.setCoreCur v).ktime = s.ktime := rfl
@[simp] theorem State.pkg_setCoreCur (s : State) (v : Core) : (s.setCoreCur v).pkg = s.pkg := rfl
@[simp] theorem State.domains_setCoreCur (s : State) (v : Core) : (s.setCoreCur v).domains = s.domains := rfl
@[simp] theorem State.graphs_setCoreCur (s : State) (v : Core) : (s.setCoreCur v).graphs = s.graphs := rfl
@[simp] theorem State.joiners_setCoreCur (s : State) (v : Core) : (s.setCoreCur v).joiners = s.joiners := rfl
@[simp] theorem State.joinDest_setCoreCur (s : State) (v : Core) : (s.setCoreCur v).joinDest = s.joinDest := rfl
@[simp] theorem State.nextGraph_setCoreCur (s : State) (v : Core) : (s.setCoreCur v).nextGraph = s.nextGraph := rfl
@[simp] theorem State.launchSquare_setCoreCur (s : State) (v : Core) : (s.setCoreCur v).launchSquare = s.launchSquare := rfl
@[simp] theorem State.budgets_setCoreCur (s : State) (v : Core) : (s.setCoreCur v).budgets = s.budgets := rfl
@[simp] theorem State.bars_setCoreCur (s : State) (v : Core) : (s.setCoreCur v).bars = s.bars := rfl
@[simp] theorem State.faults_setCoreCur (s : State) (v : Core) : (s.setCoreCur v).faults = s.faults := rfl
@[simp] theorem State.pageWaits_setCoreCur (s : State) (v : Core) : (s.setCoreCur v).pageWaits = s.pageWaits := rfl
@[simp] theorem State.aborted_setCoreCur (s : State) (v : Core) : (s.setCoreCur v).aborted = s.aborted := rfl
@[simp] theorem State.wakeMsgs_setCoreCur (s : State) (v : Core) : (s.setCoreCur v).wakeMsgs = s.wakeMsgs := rfl
@[simp] theorem State.requests_setCoreCur (s : State) (v : Core) : (s.setCoreCur v).requests = s.requests := rfl
@[simp] theorem State.hw_setCoreCur (s : State) (v : Core) : (s.setCoreCur v).hw = s.hw := rfl
@[simp] theorem State.entered_setCoreCur (s : State) (v : Core) : (s.setCoreCur v).entered = s.entered := rfl
@[simp] theorem State.districts_setCoreCur (s : State) (v : Core) : (s.setCoreCur v).districts = s.districts := rfl
@[simp] theorem State.retired_setCoreCur (s : State) (v : Core) : (s.setCoreCur v).retired = s.retired := rfl
@[simp] theorem State.fw_setCoreCur (s : State) (v : Core) : (s.setCoreCur v).fw = s.fw := rfl
@[simp] theorem State.package_setCoreCur (s : State) (v : Core) : (s.setCoreCur v).package = s.package := rfl
@[simp] theorem State.linkOut_setCoreCur (s : State) (v : Core) : (s.setCoreCur v).linkOut = s.linkOut := rfl
@[simp] theorem State.agenda_setCoreCur (s : State) (v : Core) : (s.setCoreCur v).agenda = s.agenda := rfl
@[simp] theorem State.turn_setCoreCur (s : State) (v : Core) : (s.setCoreCur v).turn = s.turn := rfl
@[simp] theorem State.cycle_setCoreCur (s : State) (v : Core) : (s.setCoreCur v).cycle = s.cycle := rfl
@[simp] theorem State.freeCtr_setCoreCur (s : State) (v : Core) : (s.setCoreCur v).freeCtr = s.freeCtr := rfl
@[simp] theorem State.focus_setCoreCur (s : State) (v : Core) : (s.setCoreCur v).focus = s.focus := rfl
@[simp] theorem State.pin_setCoreCur (s : State) (v : Core) : (s.setCoreCur v).pin = s.pin := rfl
@[simp] theorem State.last_setCoreCur (s : State) (v : Core) : (s.setCoreCur v).last = s.last := rfl

/-! ### setG -/

@[simp] theorem State.squares_setG (s : State) (n : Nat) (v : Word) : (s.setG n v).squares = s.squares := rfl
@[simp] theorem State.mem_setG (s : State) (n : Nat) (v : Word) : (s.setG n v).mem = s.mem := rfl
@[simp] theorem State.poison_setG (s : State) (n : Nat) (v : Word) : (s.setG n v).poison = s.poison := rfl
@[simp] theorem State.zeroLines_setG (s : State) (n : Nat) (v : Word) : (s.setG n v).zeroLines = s.zeroLines := rfl
@[simp] theorem State.owned_setG (s : State) (n : Nat) (v : Word) : (s.setG n v).owned = s.owned := rfl
@[simp] theorem State.appends_setG (s : State) (n : Nat) (v : Word) : (s.setG n v).appends = s.appends := rfl
@[simp] theorem State.kscope_setG (s : State) (n : Nat) (v : Word) : (s.setG n v).kscope = s.kscope := rfl
@[simp] theorem State.ready_setG (s : State) (n : Nat) (v : Word) : (s.setG n v).ready = s.ready := rfl
@[simp] theorem State.ktime_setG (s : State) (n : Nat) (v : Word) : (s.setG n v).ktime = s.ktime := rfl
@[simp] theorem State.pkg_setG (s : State) (n : Nat) (v : Word) : (s.setG n v).pkg = s.pkg := rfl
@[simp] theorem State.domains_setG (s : State) (n : Nat) (v : Word) : (s.setG n v).domains = s.domains := rfl
@[simp] theorem State.graphs_setG (s : State) (n : Nat) (v : Word) : (s.setG n v).graphs = s.graphs := rfl
@[simp] theorem State.joiners_setG (s : State) (n : Nat) (v : Word) : (s.setG n v).joiners = s.joiners := rfl
@[simp] theorem State.joinDest_setG (s : State) (n : Nat) (v : Word) : (s.setG n v).joinDest = s.joinDest := rfl
@[simp] theorem State.nextGraph_setG (s : State) (n : Nat) (v : Word) : (s.setG n v).nextGraph = s.nextGraph := rfl
@[simp] theorem State.launchSquare_setG (s : State) (n : Nat) (v : Word) : (s.setG n v).launchSquare = s.launchSquare := rfl
@[simp] theorem State.budgets_setG (s : State) (n : Nat) (v : Word) : (s.setG n v).budgets = s.budgets := rfl
@[simp] theorem State.bars_setG (s : State) (n : Nat) (v : Word) : (s.setG n v).bars = s.bars := rfl
@[simp] theorem State.faults_setG (s : State) (n : Nat) (v : Word) : (s.setG n v).faults = s.faults := rfl
@[simp] theorem State.pageWaits_setG (s : State) (n : Nat) (v : Word) : (s.setG n v).pageWaits = s.pageWaits := rfl
@[simp] theorem State.aborted_setG (s : State) (n : Nat) (v : Word) : (s.setG n v).aborted = s.aborted := rfl
@[simp] theorem State.wakeMsgs_setG (s : State) (n : Nat) (v : Word) : (s.setG n v).wakeMsgs = s.wakeMsgs := rfl
@[simp] theorem State.requests_setG (s : State) (n : Nat) (v : Word) : (s.setG n v).requests = s.requests := rfl
@[simp] theorem State.hw_setG (s : State) (n : Nat) (v : Word) : (s.setG n v).hw = s.hw := rfl
@[simp] theorem State.entered_setG (s : State) (n : Nat) (v : Word) : (s.setG n v).entered = s.entered := rfl
@[simp] theorem State.districts_setG (s : State) (n : Nat) (v : Word) : (s.setG n v).districts = s.districts := rfl
@[simp] theorem State.retired_setG (s : State) (n : Nat) (v : Word) : (s.setG n v).retired = s.retired := rfl
@[simp] theorem State.fw_setG (s : State) (n : Nat) (v : Word) : (s.setG n v).fw = s.fw := rfl
@[simp] theorem State.package_setG (s : State) (n : Nat) (v : Word) : (s.setG n v).package = s.package := rfl
@[simp] theorem State.linkOut_setG (s : State) (n : Nat) (v : Word) : (s.setG n v).linkOut = s.linkOut := rfl
@[simp] theorem State.agenda_setG (s : State) (n : Nat) (v : Word) : (s.setG n v).agenda = s.agenda := rfl
@[simp] theorem State.turn_setG (s : State) (n : Nat) (v : Word) : (s.setG n v).turn = s.turn := rfl
@[simp] theorem State.cycle_setG (s : State) (n : Nat) (v : Word) : (s.setG n v).cycle = s.cycle := rfl
@[simp] theorem State.freeCtr_setG (s : State) (n : Nat) (v : Word) : (s.setG n v).freeCtr = s.freeCtr := rfl
@[simp] theorem State.focus_setG (s : State) (n : Nat) (v : Word) : (s.setG n v).focus = s.focus := rfl
@[simp] theorem State.pin_setG (s : State) (n : Nat) (v : Word) : (s.setG n v).pin = s.pin := rfl
@[simp] theorem State.last_setG (s : State) (n : Nat) (v : Word) : (s.setG n v).last = s.last := rfl

/-! ### setPc -/

@[simp] theorem State.squares_setPc (s : State) (v : Word) : (s.setPc v).squares = s.squares := rfl
@[simp] theorem State.mem_setPc (s : State) (v : Word) : (s.setPc v).mem = s.mem := rfl
@[simp] theorem State.poison_setPc (s : State) (v : Word) : (s.setPc v).poison = s.poison := rfl
@[simp] theorem State.zeroLines_setPc (s : State) (v : Word) : (s.setPc v).zeroLines = s.zeroLines := rfl
@[simp] theorem State.owned_setPc (s : State) (v : Word) : (s.setPc v).owned = s.owned := rfl
@[simp] theorem State.appends_setPc (s : State) (v : Word) : (s.setPc v).appends = s.appends := rfl
@[simp] theorem State.kscope_setPc (s : State) (v : Word) : (s.setPc v).kscope = s.kscope := rfl
@[simp] theorem State.ready_setPc (s : State) (v : Word) : (s.setPc v).ready = s.ready := rfl
@[simp] theorem State.ktime_setPc (s : State) (v : Word) : (s.setPc v).ktime = s.ktime := rfl
@[simp] theorem State.pkg_setPc (s : State) (v : Word) : (s.setPc v).pkg = s.pkg := rfl
@[simp] theorem State.domains_setPc (s : State) (v : Word) : (s.setPc v).domains = s.domains := rfl
@[simp] theorem State.graphs_setPc (s : State) (v : Word) : (s.setPc v).graphs = s.graphs := rfl
@[simp] theorem State.joiners_setPc (s : State) (v : Word) : (s.setPc v).joiners = s.joiners := rfl
@[simp] theorem State.joinDest_setPc (s : State) (v : Word) : (s.setPc v).joinDest = s.joinDest := rfl
@[simp] theorem State.nextGraph_setPc (s : State) (v : Word) : (s.setPc v).nextGraph = s.nextGraph := rfl
@[simp] theorem State.launchSquare_setPc (s : State) (v : Word) : (s.setPc v).launchSquare = s.launchSquare := rfl
@[simp] theorem State.budgets_setPc (s : State) (v : Word) : (s.setPc v).budgets = s.budgets := rfl
@[simp] theorem State.bars_setPc (s : State) (v : Word) : (s.setPc v).bars = s.bars := rfl
@[simp] theorem State.faults_setPc (s : State) (v : Word) : (s.setPc v).faults = s.faults := rfl
@[simp] theorem State.pageWaits_setPc (s : State) (v : Word) : (s.setPc v).pageWaits = s.pageWaits := rfl
@[simp] theorem State.aborted_setPc (s : State) (v : Word) : (s.setPc v).aborted = s.aborted := rfl
@[simp] theorem State.wakeMsgs_setPc (s : State) (v : Word) : (s.setPc v).wakeMsgs = s.wakeMsgs := rfl
@[simp] theorem State.requests_setPc (s : State) (v : Word) : (s.setPc v).requests = s.requests := rfl
@[simp] theorem State.hw_setPc (s : State) (v : Word) : (s.setPc v).hw = s.hw := rfl
@[simp] theorem State.entered_setPc (s : State) (v : Word) : (s.setPc v).entered = s.entered := rfl
@[simp] theorem State.districts_setPc (s : State) (v : Word) : (s.setPc v).districts = s.districts := rfl
@[simp] theorem State.retired_setPc (s : State) (v : Word) : (s.setPc v).retired = s.retired := rfl
@[simp] theorem State.fw_setPc (s : State) (v : Word) : (s.setPc v).fw = s.fw := rfl
@[simp] theorem State.package_setPc (s : State) (v : Word) : (s.setPc v).package = s.package := rfl
@[simp] theorem State.linkOut_setPc (s : State) (v : Word) : (s.setPc v).linkOut = s.linkOut := rfl
@[simp] theorem State.agenda_setPc (s : State) (v : Word) : (s.setPc v).agenda = s.agenda := rfl
@[simp] theorem State.turn_setPc (s : State) (v : Word) : (s.setPc v).turn = s.turn := rfl
@[simp] theorem State.cycle_setPc (s : State) (v : Word) : (s.setPc v).cycle = s.cycle := rfl
@[simp] theorem State.freeCtr_setPc (s : State) (v : Word) : (s.setPc v).freeCtr = s.freeCtr := rfl
@[simp] theorem State.focus_setPc (s : State) (v : Word) : (s.setPc v).focus = s.focus := rfl
@[simp] theorem State.pin_setPc (s : State) (v : Word) : (s.setPc v).pin = s.pin := rfl
@[simp] theorem State.last_setPc (s : State) (v : Word) : (s.setPc v).last = s.last := rfl

/-! ### localPut -/

@[simp] theorem State.squares_localPut (s : State) (c o : Nat) (b : List Byte) : (s.localPut c o b).squares = s.squares := rfl
@[simp] theorem State.mem_localPut (s : State) (c o : Nat) (b : List Byte) : (s.localPut c o b).mem = s.mem := rfl
@[simp] theorem State.poison_localPut (s : State) (c o : Nat) (b : List Byte) : (s.localPut c o b).poison = s.poison := rfl
@[simp] theorem State.zeroLines_localPut (s : State) (c o : Nat) (b : List Byte) : (s.localPut c o b).zeroLines = s.zeroLines := rfl
@[simp] theorem State.owned_localPut (s : State) (c o : Nat) (b : List Byte) : (s.localPut c o b).owned = s.owned := rfl
@[simp] theorem State.appends_localPut (s : State) (c o : Nat) (b : List Byte) : (s.localPut c o b).appends = s.appends := rfl
@[simp] theorem State.kscope_localPut (s : State) (c o : Nat) (b : List Byte) : (s.localPut c o b).kscope = s.kscope := rfl
@[simp] theorem State.ready_localPut (s : State) (c o : Nat) (b : List Byte) : (s.localPut c o b).ready = s.ready := rfl
@[simp] theorem State.ktime_localPut (s : State) (c o : Nat) (b : List Byte) : (s.localPut c o b).ktime = s.ktime := rfl
@[simp] theorem State.pkg_localPut (s : State) (c o : Nat) (b : List Byte) : (s.localPut c o b).pkg = s.pkg := rfl
@[simp] theorem State.domains_localPut (s : State) (c o : Nat) (b : List Byte) : (s.localPut c o b).domains = s.domains := rfl
@[simp] theorem State.graphs_localPut (s : State) (c o : Nat) (b : List Byte) : (s.localPut c o b).graphs = s.graphs := rfl
@[simp] theorem State.joiners_localPut (s : State) (c o : Nat) (b : List Byte) : (s.localPut c o b).joiners = s.joiners := rfl
@[simp] theorem State.joinDest_localPut (s : State) (c o : Nat) (b : List Byte) : (s.localPut c o b).joinDest = s.joinDest := rfl
@[simp] theorem State.nextGraph_localPut (s : State) (c o : Nat) (b : List Byte) : (s.localPut c o b).nextGraph = s.nextGraph := rfl
@[simp] theorem State.launchSquare_localPut (s : State) (c o : Nat) (b : List Byte) : (s.localPut c o b).launchSquare = s.launchSquare := rfl
@[simp] theorem State.budgets_localPut (s : State) (c o : Nat) (b : List Byte) : (s.localPut c o b).budgets = s.budgets := rfl
@[simp] theorem State.bars_localPut (s : State) (c o : Nat) (b : List Byte) : (s.localPut c o b).bars = s.bars := rfl
@[simp] theorem State.faults_localPut (s : State) (c o : Nat) (b : List Byte) : (s.localPut c o b).faults = s.faults := rfl
@[simp] theorem State.pageWaits_localPut (s : State) (c o : Nat) (b : List Byte) : (s.localPut c o b).pageWaits = s.pageWaits := rfl
@[simp] theorem State.aborted_localPut (s : State) (c o : Nat) (b : List Byte) : (s.localPut c o b).aborted = s.aborted := rfl
@[simp] theorem State.wakeMsgs_localPut (s : State) (c o : Nat) (b : List Byte) : (s.localPut c o b).wakeMsgs = s.wakeMsgs := rfl
@[simp] theorem State.requests_localPut (s : State) (c o : Nat) (b : List Byte) : (s.localPut c o b).requests = s.requests := rfl
@[simp] theorem State.hw_localPut (s : State) (c o : Nat) (b : List Byte) : (s.localPut c o b).hw = s.hw := rfl
@[simp] theorem State.entered_localPut (s : State) (c o : Nat) (b : List Byte) : (s.localPut c o b).entered = s.entered := rfl
@[simp] theorem State.districts_localPut (s : State) (c o : Nat) (b : List Byte) : (s.localPut c o b).districts = s.districts := rfl
@[simp] theorem State.retired_localPut (s : State) (c o : Nat) (b : List Byte) : (s.localPut c o b).retired = s.retired := rfl
@[simp] theorem State.fw_localPut (s : State) (c o : Nat) (b : List Byte) : (s.localPut c o b).fw = s.fw := rfl
@[simp] theorem State.package_localPut (s : State) (c o : Nat) (b : List Byte) : (s.localPut c o b).package = s.package := rfl
@[simp] theorem State.linkOut_localPut (s : State) (c o : Nat) (b : List Byte) : (s.localPut c o b).linkOut = s.linkOut := rfl
@[simp] theorem State.agenda_localPut (s : State) (c o : Nat) (b : List Byte) : (s.localPut c o b).agenda = s.agenda := rfl
@[simp] theorem State.turn_localPut (s : State) (c o : Nat) (b : List Byte) : (s.localPut c o b).turn = s.turn := rfl
@[simp] theorem State.cycle_localPut (s : State) (c o : Nat) (b : List Byte) : (s.localPut c o b).cycle = s.cycle := rfl
@[simp] theorem State.freeCtr_localPut (s : State) (c o : Nat) (b : List Byte) : (s.localPut c o b).freeCtr = s.freeCtr := rfl
@[simp] theorem State.focus_localPut (s : State) (c o : Nat) (b : List Byte) : (s.localPut c o b).focus = s.focus := rfl
@[simp] theorem State.pin_localPut (s : State) (c o : Nat) (b : List Byte) : (s.localPut c o b).pin = s.pin := rfl
@[simp] theorem State.last_localPut (s : State) (c o : Nat) (b : List Byte) : (s.localPut c o b).last = s.last := rfl

end Sys2Proof.Machine
end

