-- ==== Sys2Proof/Laws/Ops.lean ====
section
/-! SUPPORT. The laws of the shared operations: how a word ends, what register fields read and write, what the checks of
R200 let through, and that the operations on memory keep its canonical form. -/
namespace Sys2Proof.Machine
open Sys2Proof.Safety

/-! ### Computations that end well or stop -/

/-- A sequence of two computations ends well exactly when both do. -/
theorem bind_ok {ε α β : Type} {e : Except ε α} {k : α → Except ε β} {r : β} :
    (e >>= k) = .ok r ↔ ∃ v, e = .ok v ∧ k v = .ok r := by
  cases e with
  | error x =>
    constructor
    · intro h; cases h
    · rintro ⟨_, h, _⟩; cases h
  | ok v => exact ⟨fun h => ⟨v, rfl, h⟩, fun ⟨w, h, h'⟩ => by cases h; exact h'⟩

/-- A sequence stops where its first part stops. -/
theorem bind_error {ε α β : Type} {x : ε} {k : α → Except ε β} : (Except.error x >>= k) = .error x := rfl

/-! ### How a word ends (02 R50) -/

/-- A word that ends with its effect is done. -/
theorem finish_ok (s t : State) : finish s (.ok t) = .next { t with last := .done } := rfl

/-- A word is done exactly when its computation ends well, and then the next state is its result. -/
theorem finish_done {s u : State} {e : Except Stop State} (h : finish s e = .next u) (hd : u.last = .done) :
    ∃ t, e = .ok t ∧ u = { t with last := .done } := by
  cases e with
  | ok t => cases h; exact ⟨t, rfl, rfl⟩
  | error st => cases st <;> first | (cases h; done) | (cases h; cases hd)

/-- A word that stops takes a next state in which nothing but the stop shows, unless it is a fault of the model. -/
theorem finish_stop (s : State) (st : Stop) (h : ∀ f, st ≠ .fault f) :
    finish s (.error st) = .next { stopState s st with last := .stopped st } := by
  cases st <;> first | rfl | exact absurd rfl (h _)

/-- A legal word is its effect. -/
theorem guarded_legal {i : Instr} {s : State} (b : State → Except Stop State) (h : legal s i = true) :
    guarded i s b = finish s (b s) := by unfold guarded; rw [h]; rfl

/-- A legal word whose effect ends well completes. -/
theorem guarded_completes {i : Instr} {s t : State} {b : State → Except Stop State} (h : legal s i = true)
    (e : b s = .ok t) : guarded i s b = .next { t with last := .done } := by rw [guarded_legal b h, e]; rfl

/-- A legal word whose effect stops, stops. -/
theorem guarded_stops {i : Instr} {s : State} {b : State → Except Stop State} {st : Stop} (h : legal s i = true)
    (e : b s = .error st) (hf : ∀ f, st ≠ .fault f) :
    guarded i s b = .next { stopState s st with last := .stopped st } := by rw [guarded_legal b h, e, finish_stop s st hf]

/-- A word that is not legal raises ILL (03 R56, R65). -/
theorem guarded_illegal {i : Instr} {s : State} (b : State → Except Stop State) (h : legal s i = false) :
    guarded i s b = .next { stopState s (.trap 1 (illInfo s)) with last := .stopped (.trap 1 (illInfo s)) } := by
  unfold guarded; rw [h]; rfl

/-- A word that is done was legal, and the state is its effect's. -/
theorem guarded_done {i : Instr} {s u : State} {b : State → Except Stop State} (h : guarded i s b = .next u)
    (hd : u.last = .done) : legal s i = true ∧ ∃ t, b s = .ok t ∧ u = { t with last := .done } := by
  cases hl : legal s i with
  | false => rw [guarded_illegal b hl] at h; cases h; cases hd
  | true => rw [guarded_legal b hl] at h; exact ⟨rfl, finish_done h hd⟩

/-! ### How a word ends that accesses global memory (log 71) -/

/-- A word that made no access has left nothing. -/
@[simp] theorem seeing_nil (s : State) : s.seeing [] = s := rfl

/-- What the accesses of a word leave is what the last of them left. -/
@[simp] theorem seeing_concat (s t : State) (l : List State) : s.seeing (l ++ [t]) = s.seenAs t := by
  simp [State.seeing]

/-- A part of the state that is kept when squares, districts and cores are replaced is kept by a fold of such updates. -/
theorem foldl_keeps {α β : Type} (f : State → β) (g : State → α → State) (h : ∀ s a, f (g s a) = f s) (l : List α) (s : State) :
    f (l.foldl g s) = f s := by
  induction l generalizing s with
  | nil => rfl
  | cons a r ih => rw [List.foldl_cons, ih, h]

/-- What accesses have left in the home tiles changes no part of the state but the squares, the districts, the budgets and the counter
of free values. -/
theorem seenHomes_keeps {β : Type} (f : State → β) (hq : ∀ s q v, f (State.setSq s q v) = f s)
    (hd : ∀ s d v, f (State.setDistrict s d v) = f s)
    (hb : ∀ (s : State) b n, f { s with budgets := b, freeCtr := n } = f s) (s t : State) : f (s.seenHomes t) = f s := by
  unfold State.seenHomes
  exact (hb _ _ _).trans ((foldl_keeps f _ (fun _ _ => hd _ _ _) _ _).trans (foldl_keeps f _ (fun _ _ => hq _ _ _) _ _))

/-- What a word has left in caches changes no part of the state but those and its core. -/
theorem seenAs_keeps {β : Type} (f : State → β) (hc : ∀ s v, f (State.setCoreCur s v) = f s)
    (hq : ∀ s q v, f (State.setSq s q v) = f s) (hd : ∀ s d v, f (State.setDistrict s d v) = f s)
    (hb : ∀ (s : State) b n, f { s with budgets := b, freeCtr := n } = f s) (s t : State) : f (s.seenAs t) = f s :=
  (seenHomes_keeps f hq hd hb _ t).trans (hc _ _)

@[simp] theorem seenAs_mem (s t : State) : (s.seenAs t).mem = s.mem :=
  seenAs_keeps (·.mem) (fun _ _ => rfl) (fun _ _ _ => rfl) (fun _ _ _ => rfl) (fun _ _ _ => rfl) s t
@[simp] theorem seenAs_focus (s t : State) : (s.seenAs t).focus = s.focus :=
  seenAs_keeps (·.focus) (fun _ _ => rfl) (fun _ _ _ => rfl) (fun _ _ _ => rfl) (fun _ _ _ => rfl) s t
@[simp] theorem seenAs_poison (s t : State) : (s.seenAs t).poison = s.poison :=
  seenAs_keeps (·.poison) (fun _ _ => rfl) (fun _ _ _ => rfl) (fun _ _ _ => rfl) (fun _ _ _ => rfl) s t
@[simp] theorem seenAs_owned (s t : State) : (s.seenAs t).owned = s.owned :=
  seenAs_keeps (·.owned) (fun _ _ => rfl) (fun _ _ _ => rfl) (fun _ _ _ => rfl) (fun _ _ _ => rfl) s t
@[simp] theorem seenAs_faults (s t : State) : (s.seenAs t).faults = s.faults :=
  seenAs_keeps (·.faults) (fun _ _ => rfl) (fun _ _ _ => rfl) (fun _ _ _ => rfl) (fun _ _ _ => rfl) s t

/-- What a word has left in caches changes of the cores only the PLB of the one in focus. -/
theorem seenAs_coreAt (s t : State) (c : Nat) :
    (s.seenAs t).coreAt c = (s.setCoreCur { s.core with plb := t.core.plb }).coreAt c :=
  seenHomes_keeps (fun s => s.coreAt c) (fun _ _ _ => rfl) (fun _ _ _ => rfl) (fun _ _ _ => rfl) _ t

/-- The executing context is as it was. -/
@[simp] theorem seenAs_cur (s t : State) : (s.seenAs t).cur = s.cur := by
  unfold State.cur State.ctxAt
  rw [seenAs_focus, seenAs_coreAt]
  simp [State.setCoreCur, State.core, Core.ctxAt]

/-- A legal word is its effect. -/
theorem guardedRun_legal {i : Instr} {s : State} (b : State → Run State) (h : legal s i = true) :
    guardedRun i s b = finishRun s (b s) := by unfold guardedRun; rw [if_pos h]

/-- A word that is not legal raises ILL (03 R56, R65). -/
theorem guardedRun_illegal {i : Instr} {s : State} (b : State → Run State) (h : legal s i = false) :
    guardedRun i s b = .next { stopState s (.trap 1 (illInfo s)) with last := .stopped (.trap 1 (illInfo s)) } := by
  unfold guardedRun; rw [h]; rfl

/-- A legal word whose effect ends well completes. -/
theorem guardedRun_completes {i : Instr} {s t : State} {b : State → Run State} (h : legal s i = true)
    (e : (b s).ans = .ok t) : guardedRun i s b = .next { t with last := .done } := by
  rw [guardedRun_legal b h, finishRun, e]; rfl

/-- A legal word whose effect stops, stops; what its accesses have left in caches stays. -/
theorem guardedRun_stops {i : Instr} {s : State} {b : State → Run State} {st : Stop} (h : legal s i = true)
    (e : (b s).ans = .error st) (hf : ∀ f, st ≠ .fault f) :
    guardedRun i s b = .next { stopState (s.seeing (b s).left) st with last := .stopped st } := by
  rw [guardedRun_legal b h, finishRun, e, finish_stop _ st hf]

/-- A word that is done was legal, and the state is its effect's. -/
theorem guardedRun_done {i : Instr} {s u : State} {b : State → Run State} (h : guardedRun i s b = .next u)
    (hd : u.last = .done) : legal s i = true ∧ ∃ t, (b s).ans = .ok t ∧ u = { t with last := .done } := by
  cases hl : legal s i with
  | false => rw [guardedRun_illegal b hl] at h; cases h; cases hd
  | true => rw [guardedRun_legal b hl] at h; exact ⟨rfl, finish_done h hd⟩

/-- A hardware step on a part that exists completes. -/
theorem hwStep_true (s : State) (f : State → State) : hwStep true s f = .next { f s with last := .done } := rfl

/-! ### Traps (07 R180, R181) -/

/-- A trap outside a trap saves the bundle's PC, cause and information and enters supervisor mode at ktvec. -/
theorem takeTrap_enters {s : State} (h : s.cur.inTrap = false) (c : Nat) (i : Word) (hc : c ≠ 9 ∧ c ≠ 10) :
    takeTrap s c i = s.setCur { s.cur with
      kepc := s.focus.pc, kcause := wd c, kinfo := i, kstat := mkStat true s.cur.sup true s.cur.rchk
      pc := s.cur.ktvec, st := .ready } := by
  unfold takeTrap
  simp [h, hc.1, hc.2]

/-! ### Register fields (03 R58) -/

/-- What reading a field can do: a register, or a unit of a port, or a value of the context. -/
theorem readReg_cases {f : Nat} {s t : State} {v : Word} (h : readReg f s = .ok (v, t)) :
    (f < s.core.ngreg ∧ v = s.greg f ∧ t = s) ∨
    (f = 56 ∧ ∃ u r, s.cur.rx0.units = u :: r ∧ v = u.data ∧
      t = s.setCur { s.cur with rx0 := { s.cur.rx0 with units := r } }) ∨
    (f = 57 ∧ s.isComm = true ∧ ∃ u r, s.cur.rx1.units = u :: r ∧ v = u.data ∧
      t = s.setCur { s.cur with rx1 := { s.cur.rx1 with units := r } }) ∨
    (f = 60 ∧ (∃ u, s.tagUnit = some u ∧ v = ptagOf u) ∧ t = s) ∨ (f = 61 ∧ v = s.cur.slot ∧ t = s) ∨
    (f = 62 ∧ v = 0 ∧ t = s) ∨ (f = 63 ∧ v = s.focus.pc ∧ t = s) := by
  unfold readReg at h
  split at h
  · cases h; exact .inl ⟨‹_›, rfl, rfl⟩
  · split at h
    · split at h
      · cases h
      · cases h; exact .inr (.inl ⟨‹_›, _, _, ‹_›, rfl, rfl⟩)
    · split at h
      · rename_i hf
        split at h
        · cases h
        · cases h; exact .inr (.inr (.inl ⟨hf.1, hf.2, _, _, ‹_›, rfl, rfl⟩))
      · split at h
        · split at h
          · cases h
          · cases h; exact .inr (.inr (.inr (.inl ⟨‹_›, ⟨_, ‹_›, rfl⟩, rfl⟩)))
        · split at h
          · cases h; exact .inr (.inr (.inr (.inr (.inl ⟨‹_›, rfl, rfl⟩))))
          · split at h
            · cases h; exact .inr (.inr (.inr (.inr (.inr (.inl ⟨‹_›, rfl, rfl⟩)))))
            · split at h
              · cases h; exact .inr (.inr (.inr (.inr (.inr (.inr ⟨‹_›, rfl, rfl⟩)))))
              · cases h

/-- A read changes at most the units at the context's receive ports. -/
theorem readReg_frame {f : Nat} {s t : State} {v : Word} (h : readReg f s = .ok (v, t)) :
    t = s ∨ ∃ x y, t = s.setCur { s.cur with
      rx0 := { s.cur.rx0 with units := x }, rx1 := { s.cur.rx1 with units := y } } := by
  rcases readReg_cases h with ⟨_, _, e⟩ | ⟨_, u, r, _, _, e⟩ | ⟨_, _, u, r, _, _, e⟩ | ⟨_, _, e⟩ | ⟨_, _, e⟩ | ⟨_, _, e⟩ |
    ⟨_, _, e⟩
  · exact .inl e
  · exact .inr ⟨r, s.cur.rx1.units, e⟩
  · exact .inr ⟨s.cur.rx0.units, r, e⟩
  all_goals exact .inl e

/-- A read keeps the focus. -/
theorem readReg_focus {f : Nat} {s t : State} {v : Word} (h : readReg f s = .ok (v, t)) : t.focus = s.focus := by
  rcases readReg_frame h with rfl | ⟨_, _, rfl⟩ <;> rfl

/-- A read leaves memory as it was. -/
theorem readReg_mem {f : Nat} {s t : State} {v : Word} (h : readReg f s = .ok (v, t)) : t.mem = s.mem := by
  rcases readReg_frame h with rfl | ⟨_, _, rfl⟩ <;> rfl

/-- A general register field reads its register and changes nothing. -/
theorem readReg_gen {f : Nat} {s : State} (h : f < s.core.ngreg) : readReg f s = .ok (s.greg f, s) := by
  unfold readReg; rw [if_pos h]

/-- gz reads 0. -/
theorem readReg_gz {s : State} (h : s.core.ngreg ≤ 62) : readReg 62 s = .ok (0, s) := by
  unfold readReg; rw [if_neg (by omega)]; rfl

/-- A context has 28 or 56 general registers (07 R162). -/
theorem ngreg_le (k : Core) : k.ngreg ≤ 56 := by unfold Core.ngreg; split <;> omega

/-- A context has 28 general registers at least. -/
theorem ngreg_ge (k : Core) : 28 ≤ k.ngreg := by unfold Core.ngreg; split <;> omega

/-- A general register field takes its value. -/
theorem writeReg_gen {f : Nat} {s : State} (h : f < s.core.ngreg) (v : Word) (e : Bool) :
    writeRegE f v e s = .ok (s.setG f v) := by unfold writeRegE; rw [if_pos h]

/-- gz discards what is written to it. -/
theorem writeReg_gz (s : State) (v : Word) (e : Bool) : writeRegE 62 v e s = .ok s := by
  unfold writeRegE
  have := ngreg_le s.core
  rw [if_neg (by omega)]
  rfl

/-- What writing a field can do: a register, a send, or nothing. -/
theorem writeReg_cases {f : Nat} {s t : State} {v : Word} {e : Bool} (h : writeRegE f v e s = .ok t) :
    (f < s.core.ngreg ∧ t = s.setG f v) ∨ (f = 58 ∧ send 0 v e s = .ok t) ∨
    (f = 59 ∧ s.isComm = true ∧ send 1 v e s = .ok t) ∨ (f = 62 ∧ t = s) := by
  unfold writeRegE at h
  split at h
  · cases h; exact .inl ⟨‹_›, rfl⟩
  · split at h
    · exact .inr (.inl ⟨‹_›, h⟩)
    · split at h
      · rename_i hf; exact .inr (.inr (.inl ⟨hf.1, hf.2, h⟩))
      · split at h
        · cases h; exact .inr (.inr (.inr ⟨‹_›, rfl⟩))
        · cases h

/-- Writing a register changes that register alone. -/
@[simp] theorem setG_cur (s : State) (n : Nat) (v : Word) :
    (s.setG n v).cur = { s.cur with g := sset s.cur.g n v } := by simp [State.setG]

@[simp] theorem setG_mem (s : State) (n : Nat) (v : Word) : (s.setG n v).mem = s.mem := rfl
@[simp] theorem setG_focus (s : State) (n : Nat) (v : Word) : (s.setG n v).focus = s.focus := rfl

/-! ### Releases and local accesses -/

/-- A release waits for push copies, and then resets the quotas (05 R132, R133). -/
theorem release_cases {s t : State} (h : release s = .ok t) : s.cur.pushes = [] ∧ t = s.setCur { s.cur with quota := [] } := by
  unfold release at h
  split at h
  · rename_i e; cases h; exact ⟨by simpa using e, rfl⟩
  · cases h

/-- Where no vector entry of the context has written since its last VSYNC, a load finds what memory holds. -/
theorem oldOrNew_nil {s : State} (h : s.cur.vold = []) (ea : Nat) (b : List Byte) : oldOrNew ea b s = (b, s) := by
  simp [oldOrNew, h]

/-- Forgetting what vector entries replaced changes a core's contexts alone (05 R112). -/
@[simp] theorem dropOld_mem (k : Core) (ea n : Nat) : (k.dropOld ea n).mem = k.mem := by unfold Core.dropOld; split <;> rfl
@[simp] theorem dropOld_lpoison (k : Core) (ea n : Nat) : (k.dropOld ea n).lpoison = k.lpoison := by
  unfold Core.dropOld; split <;> rfl
@[simp] theorem dropOld_stash (k : Core) (ea n : Nat) : (k.dropOld ea n).stash = k.stash := by
  unfold Core.dropOld; split <;> rfl

/-- Where no context's vector entry has replaced anything, a write has nothing to forget. -/
theorem dropOld_nil {k : Core} (h : k.ctxs.all (fun p => p.2.vold.isEmpty) = true) (ea n : Nat) : k.dropOld ea n = k := by
  unfold Core.dropOld; rw [if_pos h]

/-- A core's memory after a write of bytes. -/
@[simp] theorem localPut_mem (k : Core) (off : Nat) (b : List Byte) : (k.localPut off b).mem = memWrite k.mem off b := by
  simp [Core.localPut, Core.localBits]

/-- A local load that its checks let through reads the bytes, old or new where a vector entry has written them, and changes
nothing (08 R200, R201, 05 R112). -/
theorem loadV_local {s : State} {ea n : Nat} (hl : isLocal ea = true) (ha : ea % n = 0)
    (hc : localCheck false ea n s = .ok ()) (hp : s.core.poisoned (localOff ea) n = false) :
    (loadV ea n s).ans = .ok (ofBytes (oldOrNew ea (memRead s.core.mem (localOff ea) n) s).1,
      (oldOrNew ea (memRead s.core.mem (localOff ea) n) s).2) := by
  have hr : localRead ea n s = .ok (memRead s.core.mem (localOff ea) n) := by
    unfold localRead; rw [hc]; simp [hp, bind, Except.bind, pure, Except.pure]
  unfold loadV loadBytes standing
  rw [if_neg (by simp [ha]), if_pos hl, hr]
  rfl

/-- A local store that its checks let through writes exactly its bytes (08 R200, R201). -/
theorem storeV_local {s : State} {ea n v : Nat} (hl : isLocal ea = true) (ha : ea % n = 0)
    (hc : localCheck true ea (leBytes n v).length s = .ok ()) :
    (storeV ea n v s).ans =
      .ok (s.localPut s.focus.core (localOff ea) (leBytes n v)) := by
  unfold storeV storeBytes
  rw [if_neg (by simp [ha]), if_pos hl, hc]
  rfl

/-! ### The canonical form of memory -/

/-- Replacing a core whose memory is canonical keeps every memory canonical. -/
theorem memOk_setCore {s : State} (h : MemOk s) (c : Nat) {k : Core} (hk : Memory.wf k.mem = true) :
    MemOk (s.setCore c k) := by
  refine ⟨h.1, fun d => ?_⟩
  by_cases e : d = c
  · subst e; simpa [State.coreAt, State.setCore] using hk
  · simpa [State.coreAt, State.setCore, sget_sset_other _ _ _ e] using h.2 d

/-- Replacing a context keeps every memory as it is. -/
theorem memOk_setCtx {s : State} (h : MemOk s) (c x : Nat) (v : Ctx) : MemOk (s.setCtx c x v) :=
  memOk_setCore h c (h.2 c)

/-- Replacing the executing context keeps every memory as it is. -/
theorem memOk_setCur {s : State} (h : MemOk s) (v : Ctx) : MemOk (s.setCur v) := memOk_setCtx h _ _ v

/-- A state with the same memory and cores. -/
theorem memOk_same {s t : State} (h : MemOk s) (hm : t.mem = s.mem) (hc : t.cores = s.cores) : MemOk t :=
  ⟨hm ▸ h.1, fun c => by simpa [State.coreAt, hc] using h.2 c⟩

/-- Bytes written into a core's memory keep the form. -/
theorem memOk_localPut {s : State} (h : MemOk s) (c off : Nat) (b : List Byte) : MemOk (s.localPut c off b) :=
  memOk_setCore h c (by rw [localPut_mem]; exact memWrite_wf (h.2 c) _ _)

/-- Bytes written into the frames keep the form. -/
theorem memOk_putPhys {s : State} (h : MemOk s) (pa : Nat) (b : List Byte) : MemOk (s.putPhys pa b) := by
  unfold State.putPhys
  split <;> exact ⟨memWrite_wf h.1 _ _, h.2⟩

/-- A line written into a frame, poisoned or not, keeps the form. -/
theorem memOk_putLine {s : State} (h : MemOk s) (pa : Nat) (b : List Byte) (bad : Bool) : MemOk (s.putLine pa b bad) := by
  unfold State.putLine
  split
  · exact memOk_same (memOk_putPhys h _ b) rfl rfl
  · exact memOk_putPhys h _ b

/-- An access that reaches a home tile changes no memory and no core (20 R440). -/
theorem touch_frame (s : State) (dom : Option Nat) (reuse q va pa shift : Nat) (wr : Bool) :
    (s.touch dom reuse q va pa shift wr).mem = s.mem ∧ (s.touch dom reuse q va pa shift wr).cores = s.cores := by
  cases dom <;> exact ⟨rfl, rfl⟩

/-- A recall of a line keeps the form: it writes the line's frame and clears a D flag (10 R272). -/
theorem memOk_recall {s : State} (h : MemOk s) (q line pa shift : Nat) : MemOk (s.recall q line pa shift) := by
  unfold State.recall
  have step : ∀ t : State, MemOk t → MemOk (match t.dirtyEntry line with
      | none => t
      | some (c, e) =>
        ((t.putLine pa ((t.coreAt c).entryRead e 0 128) ((t.coreAt c).entryBad e 0 128)).setCore c
          ((t.coreAt c).cleaned e)).touch (some e.dom) 1 q (128 * line) pa shift true) := by
    intro t ht
    split
    · exact ht
    · rename_i c e _
      have f := touch_frame ((t.putLine pa ((t.coreAt c).entryRead e 0 128) ((t.coreAt c).entryBad e 0 128)).setCore c
        ((t.coreAt c).cleaned e)) (some e.dom) 1 q (128 * line) pa shift true
      refine memOk_same ?_ f.1 f.2
      exact memOk_setCore (memOk_putLine ht _ _ _) c (show Memory.wf (t.coreAt c).mem = true from ht.2 c)
  split
  · exact step _ (memOk_same (memOk_putLine h _ _ _) rfl rfl)
  · exact step _ h

end Sys2Proof.Machine
end

