-- ==== Sys2Proof/Tests/Slice0.lean ====
section
/-! SUPPORT. Tests: ill-formed terms are refused, words written out bit by bit from the encodings of spec/03, 08 to 21
decode, and each statement's hypotheses are met by a concrete state and operands. Expected results stand in the spec's
worked encodings or are worked out by hand from its rules. -/

namespace Sys2Proof.Tests
open Sys2Proof.Machine Sys2Proof.Safety
set_option Elab.async false

/-! ### Small states -/

/-- Frames that hold a page table with one leaf of 1 GiB, the home and the rights of segment 0. -/
def frames : List Host.Cell :=
  [(0x1000, 1), (0x1001, 0x20), (0x2000, 35), (0x10000, 0x80), (0x11000, 7), (0x11001, 0x80)]

/-- A package with square 0 ready, whose domain 0 may read, write and execute segment 0. -/
def base : State := { State.reset with
  mem := frames
  pkg := ⟨0x1000, 0x10000, 1, 0, 0, 0, 0⟩
  domains := [(0, some { Domain.reset with rights := 0x11000, segs := 1 })]
  ready := [(0, 1), (2, 17)] }

/-- `base` with its executing context changed. -/
def ctxOf (f : Ctx → Ctx) : State := base.setCur (f base.cur)

/-- General registers of the executing context. -/
def regs (l : List (Nat × Nat)) : SMap Word := l.map (fun p => (p.1, BitVec.ofNat 64 p.2))

/-- User mode with some registers. -/
def user (l : List (Nat × Nat)) : State := ctxOf (fun x => { x with g := regs l, kstat := 0 })

/-- Supervisor mode with some registers. -/
def super (l : List (Nat × Nat)) : State := ctxOf (fun x => { x with g := regs l, kstat := 1 })

/-- A unit at a receive port. -/
def unit1 : Machine.PUnit := ⟨77, 5, true, false, false, true, 3, 2⟩

/-- A state with a unit at rx0. -/
def withUnit : State := ctxOf (fun x => { x with rx0 := { x.rx0 with units := [unit1] } })

/-- The communication context of core 0, in user mode, with a unit at rx1. -/
def commState (l : List (Nat × Nat)) : State :=
  let s := { base with focus := { base.focus with ctx := 15 } }
  s.setCur { s.cur with g := regs l, kstat := 1, rx1 := { s.cur.rx1 with units := [unit1] } }

/-- A computation that ends well in a value with a property. -/
def okAnd {α : Type} (e : Except Stop α) (p : α → Bool) : Bool :=
  match e with
  | .ok v => p v
  | .error _ => false

/-- An instruction that completes in a state with a property. -/
def completesIn (i : Instr) (s : State) (p : State → Bool) : Bool :=
  match exec i s with
  | .next t => t.last == .done && p t
  | _ => false

/-- The state after an instruction. -/
def after (i : Instr) (s : State) : State :=
  match exec i s with
  | .next t => t
  | _ => s

/-- A computation that ends well ends in a value. -/
theorem ok_of {α : Type} {e : Except Stop α} (h : e.isOk = true) : ∃ v, e = .ok v := by
  cases e with
  | error _ => exact Bool.noConfusion h
  | ok v => exact ⟨v, rfl⟩

/-! ### Ill-formed words are refused, one for each check -/

theorem refuse_register_fields : [Instr.add 56 4 5 0, .add 3 58 5 0, .sel 58 4 5 0, .add 3 56 56 0].all (fun i => !i.wf) = true := by
  decide

theorem refuse_codes : [Instr.br 6 4 0, .loop 56 0, .ld 3 4 3 0, .st 3 4 4 0, .hbinit 3 32, .spawnx 6 4, .cmp 3 4 5 10,
    .cmpImm 3 4 10 0, .fcmp 3 4 5 8, .bfx 3 4 60 10, .fadd 3 4 5 4, .fcvt 3 4 0 4 4, .mfk 3 28, .mtk 28 3].all
    (fun i => !i.fieldsOk) = true := by decide

theorem refuse_files : [Instr.rbox 8 4 5, .runi 0 8 1, .rdil 0 8 5, .rspl 7 0 5, .rcmp 3 8 0, .rcnt 3 8, .copy 3 8 5, .pres 8 0,
    .fopen 8 4, .fnext 3 8, .mldaRg 1 8 4, .ttrn 1 1, .kopen 4 4 5, .kfork 1 1, .kload 1 4 5, .ccomm 16 4].all
    (fun i => !i.fieldsOk) = true := by decide

theorem refuse_types : [Instr.add 3 4 5 1, .clz 3 4 1, .vadd 1 2 3 0 4 0, .vmin 1 2 3 0 4, .vabs 1 2 0 20, .vand 1 2 3 0 0,
    .vcmp 8 2 3 0 0 0, .vsel 1 2 3 0 63, .vbcast 1 2 0 10, .viota 1 0 1, .vcvt 1 2 0 0 0 0, .vredAdd 1 2 0 3,
    .vscanInc 1 2 0 1, .vexp 1 2 0 3].all (fun i => !i.fieldsOk) = true := by decide

theorem refuse_events : Instr.wf .heatPeriodHalving = false := by decide

/-! ### Words from the spec's encodings -/

theorem decode_integer : decodeWord 0xC00C4140 0 = .ok (.add 3 4 5 0) ∧ decodeWord 0xC0E86FAA 0 = .ok (.or 58 6 62 1) ∧
    decodeWord 0xC8082003 0 = .ok (.shlImm 2 2 3) ∧ decodeWord 0xC910520B 0 = .ok (.bfx 4 5 8 11) ∧
    decodeWord 0xCB0836C8 0 = .ok (.cmpImm 2 3 6 200) ∧ decodeWord 0xCD140000 0x12345678 = .ok (.lim 5 0x12345678) :=
  ⟨rfl, rfl, rfl, rfl, rfl, rfl⟩

theorem decode_float : decodeWord 0xD0083102 0 = .ok (.fadd 2 3 4 2) ∧ decodeWord 0xD3083060 0 = .ok (.fcvt 2 3 1 4 0) :=
  ⟨rfl, rfl⟩

theorem decode_control : decodeWord 0x80004003 0 = .ok (.br 0 4 3) ∧ decodeWord 0xB2000140 0 = .ok (.trap 5) ∧
    decodeWord 0xB3000000 0 = .ok .rett ∧ decodeWord 0xB3000001 0 = .ok .halt ∧ decodeWord 0x930000F8 0 = .ok (.fence 3) :=
  ⟨rfl, rfl, rfl, rfl, rfl⟩

theorem decode_memory : decodeWord 0x8C146560 0 = .ok (.ldb 5 6 1 11) ∧ decodeWord 0x8F2421D2 0 = .ok (.stp 9 2 7 1 2) ∧
    decodeWord 0x91208CF9 0 = .ok (.acas 1 4 2 6 3 1) ∧ decodeWord 0x92146C82 0 = .ok (.acq 5 6 1 1 2) ∧
    decodeWord 0x941000C1 0 = .ok (.hbarr 4 3) :=
  ⟨rfl, rfl, rfl, rfl, rfl⟩

theorem decode_system : decodeWord 0xB20C6002 0 = .ok (.mfk 3 6) ∧ decodeWord 0xB4083100 0 = .ok (.pgmig 2 3 4) ∧
    decodeWord 0xB50020C0 0 = .ok (.irq 2 3) ∧ decodeWord 0xA0083007 0 = .ok (.tseq 2 3) ∧
    decodeWord 0xA0003108 0 = .ok (.tseqWt 3 4) :=
  ⟨rfl, rfl, rfl, rfl, rfl⟩

theorem decode_reserved : (match decodeWord 0x7F000000 0 with | .ok _ => false | .error _ => true) = true := rfl

/-! ### Witnesses: a state and operands that meet each clause's hypotheses, with what the statement then says -/

theorem witness_round_trip : Instr.wf (.add 27 63 62 0) = true ∧ Instr.wf (.lim 27 0xFFFFFFFF) = true ∧
    Instr.wf (.jmp 0xFFFFFF) = true := by decide

theorem witness_decode_exact : (0xC00C4140 : Nat) < 2 ^ 32 ∧ decodeWord 0xC00C4140 0 = .ok (.add 3 4 5 0) :=
  ⟨by decide, rfl⟩

/-- The state in which core 0 comes to its turn with an ADD at the program counter. -/
def atTurn : State := base.withFetchWord 32 0xC00C4140

/-- `atTurn` with context 0 changed. -/
def turnOf (f : Ctx → Ctx) : State := atTurn.setCtx 0 0 (f (atTurn.ctxAt 0 0))

theorem witness_step_lone : ∃ t i w len, let s := atTurn
    let r := { s with turn := s.turn + 1 }.holdSpent s.turn
    s.agenda = [] ∧ s.turn < 1024 ∧ (s.coreAt s.turn).gated = false ∧ (s.coreAt s.turn).completer = none ∧
    pickCtx (r.coreAt s.turn) s.cycle = some 0 ∧ (r.ctxAt s.turn 0).reloadTrap = none ∧
    (fetchBundle (chargeIssue (focusOn r s.turn 0))).ans = .ok (.lone i w len, t) ∧ i = .add 3 4 5 0 :=
  ⟨_, _, _, _, rfl, by decide, rfl, rfl, rfl, rfl, rfl, rfl⟩

theorem witness_step_reload : let s := turnOf (fun x => { x with reloadTrap := some (3, 5) })
    let r := { s with turn := s.turn + 1 }.holdSpent s.turn
    s.agenda = [] ∧ s.turn < 1024 ∧ (s.coreAt s.turn).gated = false ∧ (s.coreAt s.turn).completer = none ∧
    pickCtx (r.coreAt s.turn) s.cycle = some 0 ∧ (r.ctxAt s.turn 0).reloadTrap = some (3, 5) :=
  ⟨rfl, by decide, rfl, rfl, rfl, rfl⟩

theorem witness_step_idle : let s := turnOf (fun x => { x with st := .idle })
    let r := { s with turn := s.turn + 1 }.holdSpent s.turn
    s.agenda = [] ∧ s.turn < 1024 ∧ (s.coreAt s.turn).gated = false ∧ (s.coreAt s.turn).completer = none ∧
    pickCtx (r.coreAt s.turn) s.cycle = none := ⟨rfl, by decide, rfl, rfl, rfl⟩

theorem witness_step_completes : ∃ t u i w len, let s := turnOf (fun x => { x with st := .completing .entry })
    s.agenda = [] ∧ s.turn < 1024 ∧ (s.coreAt s.turn).gated = false ∧ (s.coreAt s.turn).completer = some 0 ∧
    (s.ctxAt s.turn 0).reloadTrap = none ∧ (fetchBundle (focusOn s s.turn 0)).ans = .ok (.lone i w len, t) ∧
    exec i (atWord t len w false) = .next u := ⟨_, _, _, _, _, rfl, by decide, rfl, rfl, rfl, rfl, rfl⟩

theorem witness_step_hardware : ∃ r, ({ base with agenda := [.heatPeriodHalving] } : State).agenda = .heatPeriodHalving :: r :=
  ⟨_, rfl⟩

/-- `base` with its focus at a program counter. -/
def atPc (pc : Nat) : State := { base with focus := { base.focus with pc := BitVec.ofNat 64 pc } }

theorem witness_fetch : isLocal (atPc 0xFFFF000000008000).focus.pc.toNat = true ∧
    localCheck false 0xFFFF000000008000 8 (atPc 0xFFFF000000008000) = .ok () ∧
    (atPc 0xFFFF00000006EFFC).focus.pc.toNat % 8 = 4 ∧
    localCheck false 0xFFFF00000006EFFC 4 (atPc 0xFFFF00000006EFFC) = .ok () ∧
    (atPc 0xFFFF000000008002).focus.pc.toNat % 4 ≠ 0 := ⟨rfl, rfl, rfl, rfl, by decide⟩

/-- The second word of a pair, run after the first has left `t`. -/
def secondIn (s t : State) (w : Nat) (second : Bool) : State :=
  { t with focus := { t.focus with word := BitVec.ofNat 32 w, second := second }, pin := pinOf s }

/-- How a step ended. -/
def endsIn (o : Host.Outcome State Fault Refusal) (e : Ending) : Bool :=
  match o with
  | .next t => t.last == e
  | _ => false

/-- A pair whose words are legal, and legal together. -/
def pairOk (s : State) (c a : Instr) : Bool := legal s c && !pairIllegal s c (some a)

theorem witness_pair : let s := user [(4, 7), (5, 9)]
    let t := after (.jmp 1) (atWord s 8 0 false)
    pairOk s (.jmp 1) (.add 3 4 5 0) = true ∧ (Instr.jmp 1).leaves = false ∧
    endsIn (exec (.jmp 1) (atWord s 8 0 false)) .done = true ∧
    endsIn (exec (.add 3 4 5 0) (secondIn s t 0 true)) .done = true ∧
    pairOk s (.jmp 1) (.add 3 56 5 0) = true ∧
    endsIn (exec (.add 3 56 5 0) (secondIn s t 0 true)) (.stopped (.rx 0)) = true := by decide +kernel

theorem witness_pair_class_c_stops : let s := user [(4, 7)]
    pairOk s (.trap 5) (.add 3 4 5 0) = true ∧ (Instr.trap 5).leaves = false ∧
    ∃ st, exec (.trap 5) (atWord s 8 0 false) =
      .next { stopState (atWord s 8 0 false) st with last := .stopped st } := ⟨by decide +kernel, rfl, _, rfl⟩

/-- `user` with a continuation slot. -/
def withSlot (a : Nat) : State := let s := user [(4, 7)]; s.setCur { s.cur with slot := BitVec.ofNat 64 a }

theorem witness_pair_leaves : let s := withSlot 0x3080
    let t := after (.add 3 4 5 0) (atWord s 8 0 true)
    pairOk s .susp (.add 3 4 5 0) = true ∧ Instr.susp.leaves = true ∧
    endsIn (exec (.add 3 4 5 0) (atWord s 8 0 true)) .done = true ∧
    endsIn (exec .susp (secondIn s t 0 false)) .done = true ∧
    pairOk s .susp (.add 3 56 5 0) = true ∧
    endsIn (exec (.add 3 56 5 0) (atWord s 8 0 true)) (.stopped (.rx 0)) = true ∧
    endsIn (exec .susp (atWord s 8 0 false)) .done = true := by decide +kernel

theorem witness_pair_both_stop : let s := withSlot 0x800000000080
    pairOk s .susp (.add 3 56 5 0) = true ∧ Instr.susp.leaves = true ∧
    (∃ st, exec (.add 3 56 5 0) (atWord s 8 0 true) =
      .next { stopState (atWord s 8 0 true) st with last := .stopped st }) ∧
    ∃ st, exec .susp (atWord s 8 0 false) = .next { stopState (atWord s 8 0 false) st with last := .stopped st } :=
  ⟨by decide +kernel, rfl, ⟨_, rfl⟩, _, rfl⟩

theorem witness_pair_leaver_stops : let s := withSlot 0x800000000080
    let t := after (.add 3 4 5 0) (atWord s 8 0 true)
    pairOk s .susp (.add 3 4 5 0) = true ∧ endsIn (exec (.add 3 4 5 0) (atWord s 8 0 true)) .done = true ∧
    (match exec .susp (secondIn s t 0 false) with
      | .next u => match u.last with
        | .stopped (.fault _) => false
        | .stopped _ => true
        | _ => false
      | _ => false) = true := by decide +kernel

theorem witness_step_keeps_memory : MemOk base ∧ ∃ t, step (base.withFetchWord 32 0xC00C4140) = .next t := by
  refine ⟨⟨by decide, fun c => ?_⟩, _, rfl⟩
  rfl

theorem witness_register_fields : 27 < base.core.ngreg ∧ base.cur.rx0.units = [] ∧ withUnit.cur.rx0.units = [unit1] ∧
    (commState []).isComm = true ∧ (commState []).cur.rx1.units = [unit1] ∧ withUnit.pin = none := by decide

theorem witness_integer : ∃ x y t u, let s := user [(4, 7), (27, 9)]
    legal s (.sub 0 4 27 0) = true ∧ readTwo 4 27 s = .ok (x, y, t) ∧ writeRegE 0 (x - y) false t = .ok u ∧
    Completes (.sub 0 4 27 0) s u := ⟨_, _, _, _, rfl, rfl, rfl, rfl⟩

theorem witness_integer_port : ∃ x y t u, legal withUnit (.add 62 56 60 0) = true ∧
    readTwo 56 60 withUnit = .ok (x, y, t) ∧ writeRegE 62 (x + y) false t = .ok u ∧
    Completes (.add 62 56 60 0) withUnit u := ⟨_, _, _, _, rfl, rfl, rfl, rfl⟩

theorem witness_unary : ∃ x t u, legal (user [(4, 0)]) (.clz 3 4 0) = true ∧ readReg 4 (user [(4, 0)]) = .ok (x, t) ∧
    writeRegE 3 64 false t = .ok u ∧ Completes (.clz 3 4 0) (user [(4, 0)]) u := ⟨_, _, _, rfl, rfl, rfl, rfl⟩

theorem witness_immediates : ∃ x t u v w, let s := user [(4, 7)]
    readReg 4 s = .ok (x, t) ∧ legal s (.addImm 3 4 0xFFF) = true ∧ writeReg 3 (x - 1) t = .ok u ∧
    Completes (.addImm 3 4 0xFFF) s u ∧ legal s (.maxnImm 3 4 0x3FF) = true ∧ writeReg 3 0x3FF t = .ok v ∧
    Completes (.maxnImm 3 4 0x3FF) s v ∧ legal s (.rotImm 3 4 63) = true ∧ writeReg 3 14 t = .ok w ∧
    Completes (.rotImm 3 4 63) s w := ⟨_, _, _, _, _, rfl, rfl, rfl, rfl, rfl, rfl, rfl, rfl, rfl, rfl⟩

theorem witness_division : ∃ x y t u v, let s := user [(4, 0x8000000000000000), (5, 0xFFFFFFFFFFFFFFFF)]
    readTwo 4 5 s = .ok (x, y, t) ∧ legal s (.div 3 4 5 0) = true ∧ writeRegE 3 0x8000000000000000 false t = .ok u ∧
    Completes (.div 3 4 5 0) s u ∧ legal s (.rem 3 4 5 0) = true ∧ writeRegE 3 0 false t = .ok v ∧
    Completes (.rem 3 4 5 0) s v := ⟨_, _, _, _, _, rfl, rfl, rfl, rfl, rfl, rfl, rfl⟩

theorem witness_division_by_zero : ∃ x y t u v, let s := user [(4, 7)]
    readTwo 4 5 s = .ok (x, y, t) ∧ writeRegE 3 0xFFFFFFFFFFFFFFFF false t = .ok u ∧ Completes (.divn 3 4 5 0) s u ∧
    writeRegE 3 7 false t = .ok v ∧ Completes (.remn 3 4 5 0) s v := ⟨_, _, _, _, _, rfl, rfl, rfl, rfl, rfl⟩

theorem witness_select : ∃ t u x y, let s := user [(3, 1), (4, 7), (5, 9)]
    legal s (.sel 3 4 5 0) = true ∧ readTwo 4 5 s = .ok (x, y, t) ∧ writeRegE 3 7 false t = .ok u ∧
    Completes (.sel 3 4 5 0) s u ∧ legal s (.sel 62 4 5 0) = true ∧ Completes (.sel 62 4 5 0) s t ∧
    Traps (.sel 58 4 5 0) s 1 (illInfo s) := ⟨_, _, _, _, rfl, rfl, rfl, rfl, rfl, rfl, rfl⟩

theorem witness_compare : ∃ x y t u v w, let s := user [(4, 0xFFFFFFFFFFFFFFFF), (5, 1)]
    readTwo 4 5 s = .ok (x, y, t) ∧ legal s (.cmp 3 4 5 9) = true ∧ writeReg 3 1 t = .ok u ∧ Completes (.cmp 3 4 5 9) s u ∧
    readReg 4 s = .ok (x, t) ∧ legal s (.cmpImm 3 4 5 255) = true ∧ writeReg 3 0 t = .ok v ∧
    Completes (.cmpImm 3 4 5 255) s v ∧ writeReg 3 1 t = .ok w ∧ Completes (.cmpImm 3 4 9 255) s w :=
  ⟨_, _, _, _, _, _, rfl, rfl, rfl, rfl, rfl, rfl, rfl, rfl, rfl, rfl⟩

theorem witness_fields : ∃ x t u v w z, let s := user [(3, 0x1234), (4, 0xF0)]
    readReg 4 s = .ok (x, t) ∧ legal s (.bfx 3 4 4 59) = true ∧ writeReg 3 15 t = .ok u ∧ Completes (.bfx 3 4 4 59) s u ∧
    legal s (.bfi 3 4 63 0) = true ∧ writeReg 3 0x1234 t = .ok v ∧ Completes (.bfi 3 4 63 0) s v ∧
    legal s (.lim 3 0x80000000) = true ∧ writeReg 3 0xFFFFFFFF80000000 s = .ok w ∧ Completes (.lim 3 0x80000000) s w ∧
    legal s (.lih 3 5) = true ∧ writeReg 3 0x500001234 s = .ok z ∧ Completes (.lih 3 5) s z :=
  ⟨_, _, _, _, _, _, rfl, rfl, rfl, rfl, rfl, rfl, rfl, rfl, rfl, rfl, rfl, rfl, rfl⟩

theorem witness_floats : ∃ x y t u w, let s := user [(4, 0x3F800000), (5, 0x40000000)]
    readTwo 4 5 s = .ok (x, y, t) ∧ legal s (.fadd 3 4 5 0) = true ∧ raiseFlags 0 t = .ok u ∧
    writeReg 3 0x40400000 u = .ok w ∧ Completes (.fadd 3 4 5 0) s w := ⟨_, _, _, _, _, rfl, rfl, rfl, rfl, rfl⟩

theorem witness_float_compare : ∃ x y t u w z, let s := user [(4, 0x3F800000), (5, 0x40000000)]
    readTwo 4 5 s = .ok (x, y, t) ∧ legal s (.fcmp 3 4 5 2) = true ∧ raiseFlags 0 t = .ok u ∧ writeReg 3 1 u = .ok w ∧
    Completes (.fcmp 3 4 5 2) s w ∧ legal s (.fcvt 3 4 0 4 0) = true ∧ Completes (.fcvt 3 4 0 4 0) s z :=
  ⟨_, _, _, _, _, _, rfl, rfl, rfl, rfl, rfl, rfl, rfl⟩

theorem witness_flags : (1 : Fl) &&& BitVec.ofNat 5 ((user []).cur.kfpe.toNat / 256) = 0 ∧
    (1 : Fl) &&& BitVec.ofNat 5 ((ctxOf (fun x => { x with kfpe := 0x1F00 })).cur.kfpe.toNat / 256) ≠ 0 ∧
    (0xFF7FFFFF : Nat) < 2 ^ 32 ∧ 0xFF7FFFFF / 2 ^ 23 % 2 ^ 8 ≠ 255 ∧ f32.round false 0 0 (f32Val 0xFF7FFFFF) = (0xFF7FFFFF, 0) ∧
    f32.round false 1 0 (f32Val 1) = (1, 0) := ⟨rfl, by decide, by decide, by decide, by decide, by decide⟩

theorem witness_control : ∃ x t u, let s := user [(4, 0), (5, 1)]
    legal s (.br 0 4 0x800) = true ∧ readReg 4 s = .ok (x, t) ∧
    Completes (.br 0 4 0x800) s (t.setPc (s.focus.pc + BitVec.ofInt 64 (-8192))) ∧
    Completes (.br 5 5 1) s s ∧ legal s (.loop 5 3) = true ∧ writeReg 5 (s.genReg 5 - 1) s = .ok u ∧
    Completes (.loop 5 3) s u := ⟨_, _, _, rfl, rfl, rfl, rfl, rfl, rfl, rfl⟩

theorem witness_jumps : ∃ x t u, let s := user [(4, 0x1000), (5, 0x1002)]
    legal s (.jr 27 4) = true ∧ readReg 4 s = .ok (x, t) ∧ x.toNat % 4 = 0 ∧ writeReg 27 s.focus.next t = .ok u ∧
    Completes (.jr 27 4) s (u.setPc x) ∧ Traps (.jr 27 5) s 3 0x1002 := ⟨_, _, _, rfl, rfl, rfl, rfl, rfl, rfl⟩

theorem witness_btag : ∃ x tag t t' v u, let s := withUnit.setCur { withUnit.cur with g := regs [(4, 0xFFFF000000000000)] }
    legal s (.btag 4) = true ∧ readReg 4 s = .ok (x, t) ∧ readReg 60 s = .ok (tag, t') ∧
    (loadV (x + BitVec.ofNat 64 (8 * (tag.toNat % 8))).toNat 8 t).ans = .ok (v, u) ∧ v % 4 = 0 ∧
    Completes (.btag 4) s (u.setPc 0) := ⟨_, _, _, _, _, _, rfl, rfl, rfl, rfl, rfl, rfl⟩

theorem witness_fence : (user []).cur.pushes = [] ∧ Completes (.fence 3) (user []) ((user []).setCur { (user []).cur with quota := [] }) :=
  ⟨rfl, rfl⟩

/-- A context in a trap handler. -/
def inHandler : State := ctxOf (fun x => { x with kstat := 5, kepc := 0x44, kcause := 3, kinfo := 9 })

theorem witness_traps : (user []).cur.inTrap = false ∧ inHandler.cur.inTrap = true ∧
    (takeTrap (user []) 1 0).cur.kstat = 5 ∧ (takeTrap inHandler 1 0).cur.st = .halted := ⟨rfl, rfl, rfl, rfl⟩

theorem witness_trap_words : ∃ t u, exec (.trap 5) (user []) = .next t ∧ t.cur.kcause = 9 ∧ t.cur.kinfo = 5 ∧
    exec (.sysc 0x3FFFF) inHandler = .next u ∧ u.cur.st = .halted ∧ u.cur.kcause = 3 :=
  ⟨_, _, rfl, rfl, rfl, rfl, rfl, rfl⟩

theorem witness_halt : (super []).cur.sup = true ∧ (user []).cur.sup = false ∧ Traps .halt (user []) 1 (illInfo (user [])) ∧
    ∃ t, exec .halt (super []) = .next t ∧ t.cur.st = .halted := ⟨rfl, rfl, rfl, _, rfl, rfl⟩

theorem witness_rett : inHandler.cur.sup = true ∧ inHandler.cur.packetOpen = false ∧
    Completes .rett inHandler (inHandler.setCur { inHandler.cur with pc := 0x44, kstat := 0 }) ∧
    Traps .rett (user []) 1 (illInfo (user [])) := ⟨rfl, rfl, rfl, rfl⟩

theorem witness_illegal : (Instr.rett).isEvent = false ∧ legal (user []) .rett = false ∧ legal (user []) (.add 28 4 5 0) = false ∧
    legal (super []) (.cbar 3) = false ∧ Traps (.add 28 4 5 0) (user []) 1 (illInfo (user [])) := ⟨rfl, rfl, rfl, rfl, rfl⟩

/-- The small states of these tests have memories in canonical form. -/
theorem memOk_user (l : List (Nat × Nat)) : MemOk (user l) := by
  refine ⟨rfl, fun c => ?_⟩
  cases c <;> rfl

theorem witness_local : isLocal 0xFFFF00000006EFF8 = true ∧ 0xFFFF00000006EFF8 % 8 = 0 ∧
    localCheck true 0xFFFF00000006EFF8 8 (user []) = .ok () ∧ localCheck false 0xFFFF00000006EFF8 8 (user []) = .ok () ∧
    MemOk (user []) := by
  exact ⟨rfl, rfl, rfl, rfl, memOk_user []⟩

theorem witness_local_denied : (0xFFFF000000080000 : Nat) / 2 ^ 19 % 2 ^ 29 ≠ 0 ∧
    localCheck false 0xFFFF00000006EFFC 8 (user []) ≠ .ok () ∧
    localCheck false 0xFFFF00000006EFFC 8 (user []) = .error (.trap 2 0xFFFF00000006F000) := by
  refine ⟨by decide, ?_, rfl⟩
  rw [show localCheck false 0xFFFF00000006EFFC 8 (user []) = .error (.trap 2 0xFFFF00000006F000) from rfl]
  intro h
  cases h

/-- A state whose task may write segment 0 only up to its byte 0x4000. -/
def footed : State := ctxOf (fun x => { x with g := regs [(4, 0x3000)], kstat := 0 })

theorem witness_global : ∃ e t, plbLook base.focus.core base.kdom 0 base = (.ok e, t) ∧ isGlobal 0x3000 = true ∧
    granted (rightsBits e.rights.toNat) Access.read.need = true ∧ poolDenied t .read 0x3000 8 = false :=
  ⟨_, _, rfl, rfl, rfl, rfl⟩

theorem witness_global_denied : ∃ e t, let s := { base with mem := frames.take 4 }
    plbLook s.focus.core s.kdom 0 s = (.ok e, t) ∧ granted (rightsBits e.rights.toNat) Access.write.need = false ∧
    (globalGrant .write 0x3000 8 s).ans = .error (.trap 2 0x3000) ∧ (globalGrant .write 0x3000 8 s).left = [t] ∧
    t.core.plb.length = 1 := ⟨_, _, rfl, rfl, rfl, rfl, rfl⟩

/-- A granted access of eight bytes at an address that is placed in the frame of the same number, with nothing that owns its
line, no spent beats and no poison. -/
def placedHere (k : Access) (ea : Nat) (s : State) : Bool :=
  match (globalGrant k ea 8 s).ans with
  | .ok (e, g) =>
      (match (globalPlace e k ea g).ans with
        | .ok (pa, _) => pa == ea
        | _ => false) &&
      match translate e.home k.wr ea g with
      | (.ok pa _, v) => pa == ea && v.owned.isEmpty && !v.beatsSpent v.kdom (e.home.getD 0) ea pa && !v.frameBad pa && v.hw.isEmpty &&
          (v.dirtyEntry (ea / 128)).isNone && (g.core.stashFor (ea / 128) g.kdom).isNone
      | _ => false
  | _ => false

theorem witness_global_placed : placedHere .read 0x3000 (user []) = true ∧ placedHere .write 0x3000 (user []) = true ∧
    MemOk (user []) ∧ ∃ r c v, translate (some 0) false 0x3000 { user [] with ready := [] } = (.stop r c, v) :=
  ⟨by decide +kernel, by decide +kernel, memOk_user [], _, _, _, rfl⟩

/-- `user []` with a written stash entry of line 0x60 on core `c`, which holds byte `b` first. -/
def stashing (c : Nat) (b : Byte) : State :=
  let s := user []
  let k := s.coreAt c
  s.setCore c { k with
    kmap := 0x105, stash := [⟨0x60, 0, 0, true, true, false⟩]
    mem := memWrite k.mem (k.stashOff ⟨0x60, 0, 0, true, true, false⟩ + 0x14000) [b] }

theorem witness_global_stashed : ∃ e g x, let s := stashing 0 7
    (globalGrant .read 0x3000 8 s).ans = .ok (e, g) ∧ g.core.stashFor (0x3000 / 128) g.kdom = some x ∧ x.f = true ∧ x.z = false ∧
    g.owned = [] ∧ g.core.entryBad x (0x3000 % 128) 8 = false ∧ g.migrating 0x3000 = false :=
  ⟨_, _, _, rfl, rfl, rfl, rfl, rfl, rfl, rfl⟩

/-- A line that another core holds written is recalled as an access reaches it. -/
theorem witness_recalled : (match (globalGrant .read 0x3000 8 (stashing 1 7)).ans with
    | .ok (e, g) => match translate e.home false 0x3000 g with
      | (.ok _ _, v) => match v.dirtyEntry 0x60 with
        | some (c, x) => c == 1 && !(v.coreAt c).entryBad x 0 128 && okAnd (loadV 0x3000 8 (stashing 1 7)).ans (fun p => p.1 == 7)
        | none => false
      | _ => false
    | _ => false) = true := by decide +kernel

/-- Bytes at the foot of core 0's local memory, and one full word. -/
def scratch (l : List (Nat × Nat)) : State :=
  let s := user l
  s.setCoreCur { s.core with mem := memWrite [] 0x100 [0x78, 0x56, 0x34, 0x92], full := [0x40] }

theorem witness_loads : ∃ x t v u w, let s := scratch [(4, 0xFFFF000000000100)]
    readReg 4 s = .ok (x, t) ∧ legal s (.ldD 3 4 0) = true ∧ (loadV 0xFFFF000000000100 8 t).ans = .ok (v, u) ∧ v = 0x92345678 ∧
    writeReg 3 0x92345678 u = .ok w ∧ Completes (.ldD 3 4 0) s w := ⟨_, _, _, _, _, rfl, rfl, rfl, rfl, rfl, rfl⟩

theorem witness_narrow_loads : ∃ x t v u w z, let s := scratch [(4, 0xFFFF000000000203)]
    readReg 4 s = .ok (x, t) ∧ legal s (.ld 3 4 0 0x100) = true ∧ (loadV 0xFFFF000000000103 1 t).ans = .ok (v, u) ∧ v = 0x92 ∧
    writeReg 3 0xFFFFFFFFFFFFFF92 u = .ok w ∧ Completes (.ld 3 4 0 0x100) s w ∧ writeReg 3 0x92 u = .ok z ∧
    Completes (.ld 3 4 4 0x100) s z := ⟨_, _, _, _, _, _, rfl, rfl, rfl, rfl, rfl, rfl, rfl, rfl⟩

theorem witness_stores : ∃ x y t w v, let s := user [(3, 0x1234567890), (4, 0x3008)]
    legal s (.stD 3 4 0xFF8) = true ∧ readTwo 4 3 s = .ok (x, y, t) ∧ (storeV 0x3000 8 0x1234567890 t).ans = .ok w ∧
    Completes (.stD 3 4 0xFF8) s w ∧ legal s (.st 3 4 2 0x1F8) = true ∧ (storeV 0x3000 4 0x1234567890 t).ans = .ok v ∧
    Completes (.st 3 4 2 0x1F8) s v := ⟨_, _, _, _, _, rfl, rfl, rfl, rfl, rfl, rfl, rfl⟩

theorem witness_misaligned : let s := user [(2, 0x3001), (4, 0x3004), (6, 0xFFFF000000008001)]
    legal s (.ldD 3 4 0) = true ∧ Traps (.ldD 3 4 0) s 3 0x3004 ∧ Traps (.ldfW 3 2 0) s 2 0x3001 ∧
    isLocal 0x3001 = false ∧ isLocal 0xFFFF000000008001 = true ∧ Traps (.ldfW 3 6 0) s 3 0xFFFF000000008001 ∧ Traps (.stD 3 4 0) s 3 0x3004 ∧
    Traps (.ld 3 2 5 0) s 3 0x3001 ∧ Traps (.st 3 2 1 0) s 3 0x3001 ∧ Traps (.stp 3 4 5 1 0) s 3 0x3004 ∧
    Traps (.stpm 3 2 5 0 0) s 3 0x3001 ∧ Traps (.aadd 1 3 4 5 3 0) s 3 0x3004 ∧ Traps (.acas 0 3 2 5 3 0) s 3 0x3001 ∧
    Traps (.acq 3 4 1 3 0) s 3 0x3004 ∧ Traps (.afadd 3 2 5 3 0) s 3 0x3001 ∧ s.cur.pushes = [] ∧
    legal s (.rel 3 4 1 3 0) = true ∧ Traps (.rel 3 4 1 3 0) s 3 0x3004 :=
  ⟨rfl, rfl, rfl, rfl, rfl, rfl, rfl, rfl, rfl, rfl, rfl, rfl, rfl, rfl, rfl, rfl, rfl, rfl⟩

theorem witness_bits : ∃ x t k u w b r, let s := scratch [(4, 0x81C)]
    readReg 4 s = .ok (x, t) ∧ legal s (.ldb 3 4 1 3) = true ∧ bitCheck false x 4 t = .ok k ∧ k = 0x81C ∧
    localBytes 0xFFFF000000000103 1 t = .ok (b, r) ∧ b = [0x92] ∧
    writeReg 3 0xFFFFFFFFFFFFFFF9 t = .ok u ∧ Completes (.ldb 3 4 1 3) s u ∧ writeReg 3 9 t = .ok w ∧
    Completes (.ldb 3 4 0 3) s w := ⟨_, _, _, _, _, _, _, rfl, rfl, rfl, rfl, rfl, rfl, rfl, rfl, rfl, rfl⟩

theorem witness_bit_store : ∃ x y t k u, let s := scratch [(3, 5), (4, 0x81C)]
    legal s (.stb 3 4 31) = true ∧ readTwo 4 3 s = .ok (x, y, t) ∧ bitCheck true x 32 t = .ok k ∧ Completes (.stb 3 4 31) s u ∧
    memLe u.core.mem 0x100 8 = 0x52345678 := ⟨_, _, _, _, _, rfl, rfl, rfl, rfl, rfl⟩

theorem witness_full_bit : ∃ x t w, let s := scratch [(4, 0xFFFF000000000100), (5, 0xFFFF000000000104)]
    legal s (.ldfW 3 4 0) = true ∧ readReg 4 s = .ok (x, t) ∧ localCheck false 0xFFFF000000000100 4 t = .ok () ∧
    t.core.poisoned 0x100 4 = false ∧ 0x40 ∈ t.core.full ∧
    writeReg 3 0xFFFFFFFF92345678 (t.setCoreCur { t.core.dropOld (8 * 0xFFFF000000000100) 32 with
      full := t.core.full.filter (· != 0x40) }) = .ok w ∧
    Completes (.ldfW 3 4 0) s w ∧ StopsWith (.ldfW 3 5 0) s (.wait (.fullBit 0x41)) :=
  ⟨_, _, _, rfl, rfl, rfl, rfl, by decide, rfl, rfl, rfl⟩

theorem witness_bit_number : bitCheck false 0x3FFFFD 4 (scratch []) = .error (.trap 2 0x3FFFFD) ∧
    bitCheck false 0x400000 1 (scratch []) = .error (.trap 2 0x400000) ∧
    bitCheck false 0x81C 4 (scratch []) = .ok 0x81C ∧
    localCheck false (localAddr (0x81C / 8)).toNat 1 (scratch []) = .ok () := by decide +kernel

/-- Spans at the ends of what user mode may access, and a store at the edge of the chain pool in supervisor mode. -/
theorem witness_local_edges : localCheck false 0xFFFF00000006EFF8 8 (user []) = .ok () ∧
    localCheck true 0xFFFF00000006EFF8 8 (user []) = .ok () ∧
    localCheck false 0xFFFF00000007FFFC 8 (super []) = .error (.trap 2 0xFFFF000000080000) ∧
    localCheck false 0xFFFF000000080000 1 (super []) = .error (.trap 2 0xFFFF000000080000) ∧
    (let s := (super []).setCoreCur { (super []).core with kcpool := 0x20008 };
      inRange s.core.pool 0x2000 = true ∧ inRange s.core.pool 0x1FFF = false ∧
      localCheck true 0xFFFF000000001FF8 8 s = .ok () ∧ localCheck false 0xFFFF000000001FFC 8 s = .ok () ∧
      localCheck true 0xFFFF000000001FFC 8 s = .error (.trap 2 0xFFFF000000002000)) := by decide +kernel

theorem witness_lines : let s := scratch [(4, 0xFFFF000000000104), (5, 0x3000)]
    (∃ x, readReg 4 s = .ok (x, s)) ∧ (∃ u, (zeroLine 0xFFFF000000000100 s).ans = .ok u) ∧
    (localCheck true 0xFFFF000000000100 128 s).isOk = true ∧ legal s (.pf 4 0) = true ∧ legal s (.disc 4 0) = true ∧
    legal s (.zline 4 0) = true ∧ legal s (.wbk 4 0) = true ∧ localOk 0xFFFF000000000100 = true ∧ Completes (.wbk 4 0) s s ∧
    (∃ x, readReg 5 s = .ok (x, s)) ∧ (∃ u, (zeroLine 0x3000 s).ans = .ok u) :=
  ⟨⟨_, rfl⟩, ok_of (by decide +kernel), by decide +kernel, rfl, rfl, rfl, rfl, rfl, rfl, ⟨_, rfl⟩, ok_of (by decide +kernel)⟩

theorem witness_wbk : ∃ e u, let s := user [(5, 0x3000)]
    plbLook s.focus.core s.kdom 0 s = (.ok e, u) ∧ granted (rightsBits e.rights.toNat) needR = true ∧
    isGlobal 0x3000 = true ∧ legal s (.wbk 5 0) = true := ⟨_, _, rfl, rfl, rfl, rfl⟩

theorem witness_pushes : ∃ x y m t u, let s := user [(3, 0x107), (4, 0x3000), (5, 6)]
    readThree 4 5 3 s = .ok (x, y, m, t) ∧ (globalWrite 0x3000 (leBytes 8 6) t).ans = .ok u ∧ legal s (.stp 3 4 5 1 0) = true ∧
    legal s (.stpm 3 4 5 1 0) = true := ⟨_, _, _, _, _, rfl, rfl, rfl, rfl⟩

theorem witness_push_local : let s := user [(4, 0xFFFF000000000000)]
    Traps (.stp 3 4 5 1 0) s 2 0xFFFF000000000000 ∧ Traps (.stpm 3 4 5 1 0) s 2 0xFFFF000000000000 := ⟨rfl, rfl⟩

/-- A context with one push on its way to core 1, of which it has `n` outstanding. -/
def pushing (n : Nat) : State := ctxOf (fun x => { x with pushes := [⟨0x60, 1⟩], quota := [(1, n)] })

theorem witness_push_copies : ∃ t u, let s := pushing 31
    (s.ctxAt 0 0).pushes = [⟨0x60, 1⟩] ∧ s.squareReady 0 = true ∧ sget 0 (s.ctxAt 0 0).quota 1 < 32 ∧
    Completes (.pushCopyInstall 0 0 false) s t ∧ (t.coreAt 1).l1 = [0x60] ∧ 32 ≤ sget 0 ((pushing 32).ctxAt 0 0).quota 1 ∧
    Completes (.pushCopyInstall 0 0 false) (pushing 32) u ∧ (u.ctxAt 0 0).kovf = 1 :=
  ⟨_, _, rfl, rfl, by decide, rfl, rfl, by decide, rfl, rfl⟩

theorem witness_atomics : ∃ r old t u, let s := scratch [(4, 0xFFFF000000000100), (5, 2)]
    release s = .ok r ∧ legal s (.aadd 1 3 4 5 3 0) = true ∧
    (atomicV 0xFFFF000000000100 8 (fun old => (old + 2) % 2 ^ 64) r).ans = .ok (old, t) ∧ old = 0x92345678 ∧
    writeReg 3 0x92345678 t = .ok u ∧ Completes (.aadd 1 3 4 5 3 0) s u ∧ memLe u.core.mem 0x100 8 = 0x9234567A := ⟨_, _, _, _, rfl, rfl, rfl, rfl, rfl, rfl, rfl⟩

theorem witness_atomic_local : localCheck true 0xFFFF000000000100 4 (scratch []) = .ok () ∧
    ∃ t, (atomicV 0xFFFF000000000100 4 (fun x => x + 1) (scratch [])).ans = .ok (0x92345678, t) := ⟨rfl, _, rfl⟩

theorem witness_ordered : ∃ x y t r u w v z, let s := scratch [(3, 5), (4, 0xFFFF000000000100)]
    legal s (.rel 3 4 1 3 127) = true ∧ readTwo 4 3 s = .ok (x, y, t) ∧ release t = .ok r ∧
    (storeV 0xFFFF0000000004F8 8 5 r).ans = .ok u ∧ Completes (.rel 3 4 1 3 127) s u ∧ readReg 4 s = .ok (x, t) ∧
    (loadV 0xFFFF000000000100 4 t).ans = .ok (v, w) ∧ writeReg 3 0xFFFFFFFF92345678 w = .ok z ∧ Completes (.acq 3 4 0 1 0) s z :=
  ⟨_, _, _, _, _, _, _, _, rfl, rfl, rfl, rfl, rfl, rfl, rfl, rfl, rfl⟩

theorem witness_release_waits : (pushing 1).cur.pushes ≠ [] ∧ StopsWith (.fence 1) (pushing 1) (.wait .pushes) :=
  ⟨by decide, rfl⟩

/-! ### Barriers and packets -/

/-- Barrier 3 of core 0 for this core alone, in phase `p`, with `n` arrivals needed and context 0's request. -/
def barred (p : BitVec 32) (n : Nat) (pend : SMap (BitVec 32)) : State :=
  let s := user [(4, p.toNat), (5, p.toNat + 1), (6, 0x1001), (7, 0x1101)]
  s.setCoreCur { s.core with hb := [(3, some ⟨1, n, 0, 0, p, pend, 0⟩)] }

theorem witness_hbinit : ∃ x t, let s := user [(6, 0x1001)]
    legal s (.hbinit 6 31) = true ∧ readReg 6 s = .ok (x, t) ∧ x.getLsbD (s.focus.core % 8) = true ∧ 0 < x.toNat / 256 % 32 ∧
    x.toNat / 256 % 32 ≤ s.core.nctx ∧ s.core.hbAt 31 = none := ⟨_, _, rfl, rfl, rfl, by decide, by decide, rfl⟩

theorem witness_hbinit_illegal : ∃ x t, let s := user [(7, 0x1101)]
    legal s (.hbinit 7 31) = true ∧ readReg 7 s = .ok (x, t) ∧ s.core.nctx < x.toNat / 256 % 32 ∧
    Traps (.hbinit 7 31) s 1 (illInfo s) := ⟨_, _, rfl, rfl, by decide, rfl⟩

theorem witness_hbwait : ∃ h x y t u v, let s := barred 7 2 []
    s.core.hbAt 3 = some h ∧ readReg 4 s = .ok (x, t) ∧ (h.phase - x.setWidth 32).toNat < 2 ^ 31 ∧
    Completes (.hbwait 4 3) s t ∧ writeReg 8 1 t = .ok u ∧ Completes (.hbtest 8 4 3) s u ∧ readReg 5 s = .ok (y, t) ∧
    ¬(h.phase - y.setWidth 32).toNat < 2 ^ 31 ∧ StopsWith (.hbwait 5 3) s (.wait (.barrier 3 8)) ∧ writeReg 8 0 t = .ok v ∧
    Completes (.hbtest 8 5 3) s v :=
  ⟨_, _, _, _, _, _, rfl, rfl, by decide, rfl, rfl, rfl, rfl, by decide, rfl, rfl, rfl⟩

theorem witness_hbarr_return : ∃ h u, let s := barred 8 2 [(0, 7)]
    legal s (.hbarr 4 3) = true ∧ s.core.hbAt 3 = some h ∧ h.pending s.focus.ctx = some 7 ∧
    writeReg 4 8 (s.setCoreCur (s.core.setHb 3 (some { h with pend := sdel h.pend s.focus.ctx }))) = .ok u ∧
    Completes (.hbarr 4 3) s u ∧ StopsWith (.hbarr 4 3) (barred 7 2 [(0, 7)]) (.wait (.barrier 3 8)) :=
  ⟨_, _, rfl, rfl, rfl, rfl, rfl, rfl⟩

theorem witness_hbarr_arrive : ∃ h r v, let s := barred 7 2 []
    legal s (.hbarr 4 3) = true ∧ s.core.hbAt 3 = some h ∧ h.pending s.focus.ctx = none ∧ release s = .ok r ∧
    exec (.hbarr 4 3) s = .next v ∧ v.cur.st = .waiting (.barrier 3 8) ∧
    (v.core.hbAt 3).map (·.arrived) = some 1 := ⟨_, _, _, rfl, rfl, rfl, rfl, rfl, rfl, rfl⟩

theorem witness_hbarr_completes : ∃ u, exec (.hbarr 4 3) (barred 7 1 []) = .next u ∧ u.last = .done ∧ sget 0 u.cur.g 4 = 8 :=
  ⟨_, rfl, rfl, rfl⟩

theorem witness_barrier_phase : ∃ h, ((barred 7 1 []).coreAt 0).hbAt 3 = some h ∧ h.mask.getLsbD 0 = true ∧
    phaseFull 0 3 (barred 7 1 []) = false ∧ phaseFull 0 3 (barred 7 0 []) = true ∧
    ((user []).core.hbAt 3) = none ∧ Traps (.hbarr 4 3) (user []) 1 (illInfo (user [])) :=
  ⟨_, rfl, rfl, rfl, rfl, rfl, rfl⟩

/-- A context with a packet of `n` units open on send port 0. -/
def sending (n len : Nat) (ring : Bool) : State := ctxOf (fun x => { x with kstat := 1, tx0 := some ⟨0, 1, ring, 0, n, 9, len, 0⟩ })

theorem witness_sends : send 0 5 false (sending 8 0 false) = .error (.trap 6 18) ∧
    send 0 5 false (sending 4 4 true) = .error (.trap 6 10) ∧
    ∃ t, send 0 5 true (sending 7 0 false) = .ok t ∧ t.cur.tx 0 = none ∧ ((t.ctxAt 0 1).rx 0).flight.length = 1 :=
  ⟨rfl, rfl, _, rfl, rfl, rfl⟩

theorem witness_port_full : let s := (sending 1 0 false).setCtx 0 1 { base.ctxAt 0 1 with
      rx0 := { (base.ctxAt 0 1).rx0 with units := List.replicate 15 unit1, flight := [unit1] } }
    send 0 5 false s = .error (.wait (.portFull 0 1 0)) := rfl

theorem witness_headers : let s := super []
    s.cur.tx 0 = none ∧ send 0 0x100400 false s = .error (.trap 2 0x100400) ∧ s.squareReady 0 = true ∧ s.cur.pushes = [] ∧
    ∃ t, send 0 0x5000400 false s = .ok t ∧ t.cur.tx 0 = some ⟨0, 1, false, 0, 1, 5, 0, 0⟩ := ⟨rfl, rfl, rfl, rfl, _, rfl, rfl⟩

/-! ### The dispatcher -/

theorem witness_spawn : ∃ p t b u r id v w x, let s := user [(4, 0x3000)]
    legal s (.spawn 3 4) = true ∧ readReg 4 s = .ok (p, t) ∧ (entryCheck p.toNat t).ans = .ok (b, u) ∧ release u = .ok r ∧
    (enterTask p.toNat b r).ans = .ok (id, v) ∧ pushEntry p v = .ok w ∧ writeReg 3 (BitVec.ofNat 64 id) w = .ok x :=
  ⟨_, _, _, _, _, _, _, _, _, rfl, rfl, rfl, rfl, rfl, rfl, rfl⟩

theorem witness_task_ids : ∃ d, base.dom? 0 = some d ∧ (takeTaskId 0 base).1 = d.nextTask := ⟨_, rfl, rfl⟩

/-- A running continuation with its slot at 0x3080. -/
def running (l : List (Nat × Nat)) : State := ctxOf (fun x => { x with g := regs l, kstat := 0, slot := 0x3080 })

theorem witness_spawnx : let s := running [(4, 0x3000)]
    s.cur.packetOpen = false ∧ legal s (.spawnx 3 4) = true ∧ okAnd (readReg 4 s) (fun p =>
      okAnd (entryCheck p.1.toNat p.2).ans fun b => okAnd (vsyncWait b.2) fun v => okAnd (release v) fun r =>
        okAnd (enterTask p.1.toNat b.1 r).ans fun w => okAnd (hvRead w.2.cur.slot.toNat 8 w.2).ans fun w0 =>
          okAnd (saveCont 2 (ofBytes w0.1 % 2 == 1) w0.2).ans fun x => (pushEntry p.1 { x with
            joiners := sset x.joiners p.1.toNat w.2.cur.slot
            joinDest := sset x.joinDest w.2.cur.slot.toNat 3 }).isOk) = true := by decide +kernel

theorem witness_open_packet : let s := (running [(4, 0x3000)]).setCur { (running [(4, 0x3000)]).cur with
      tx0 := some ⟨0, 1, false, 0, 1, 5, 0, 0⟩ }
    s.cur.packetOpen = true ∧ Traps .susp s 1 (illInfo s) ∧ Traps .yield s 1 (illInfo s) ∧
    Traps (.tret 4) s 1 (illInfo s) ∧ Traps (.spawnx 3 4) s 1 (illInfo s) := ⟨rfl, rfl, rfl, rfl, rfl⟩

theorem witness_susp : ∃ v r b q t, let s := running []
    s.cur.packetOpen = false ∧ vsyncWait s = .ok v ∧ release v = .ok r ∧ (hvRead r.cur.slot.toNat 8 r).ans = .ok (b, q) ∧
    ofBytes b % 2 = 0 ∧ (saveCont 2 false q).ans = .ok t ∧ Completes .susp s (t.setCur t.cur.leave) :=
  ⟨_, _, _, _, _, rfl, rfl, rfl, rfl, rfl, rfl, rfl⟩

theorem witness_susp_pending : ∃ v r b q t, let s := { running [] with mem := memWrite frames 0x3080 [5] }
    vsyncWait s = .ok v ∧ release v = .ok r ∧ (hvRead r.cur.slot.toNat 8 r).ans = .ok (b, q) ∧ ofBytes b = 5 ∧
    (hvWrite q.cur.slot.toNat (leBytes 8 (ofBytes b / 2 * 2)) q).ans = .ok t ∧ Completes .susp s t :=
  ⟨_, _, _, _, _, rfl, rfl, rfl, rfl, rfl, rfl⟩

theorem witness_yield : ∃ v r b q t u, let s := running []
    vsyncWait s = .ok v ∧ release v = .ok r ∧ (hvRead r.cur.slot.toNat 8 r).ans = .ok (b, q) ∧ (saveCont 3 (ofBytes b % 2 == 1) q).ans = .ok t ∧
    t.pushTop t.focus.core (contEntry q.cur.slot.toNat false) = some u ∧ Completes .yield s (u.setCur u.cur.leave) :=
  ⟨_, _, _, _, _, _, rfl, rfl, rfl, rfl, rfl, rfl⟩

theorem witness_tret : ∃ x t v r u, let s := running [(4, 9)]
    legal s (.tret 4) = true ∧ readReg 4 s = .ok (x, t) ∧ t.cur.packetOpen = false ∧ vsyncWait t = .ok v ∧ release v = .ok r ∧
    (retireTask r.focus.core r.focus.ctx x r).ans = .ok u := ⟨_, _, _, _, _, rfl, rfl, rfl, rfl, rfl, rfl⟩

/-- Frames with a dependence counter at 0x3100 of value `n` whose waiting record is at 0x3000, and a parked record there
that names the counter. -/
def counting (n p : Nat) : State :=
  { user [(4, 0x3100), (5, 0x3000)] with
    mem := memWrite (memWrite frames 0x3100 (leBytes 4 n ++ leBytes 4 0 ++ leBytes 8 p)) 0x3020 (leBytes 8 0x3100) }

theorem witness_tsig : ∃ x t pa u r w, let s := counting 2 0x3000
    readReg 4 s = .ok (x, t) ∧ legal s (.tsig 3 4) = true ∧ (counterAt x.toNat t).ans = .ok (pa, u) ∧ release u = .ok r ∧
    counterGet 0x3100 pa 0 4 r = 2 ∧ writeReg 3 2 (counterPut x.toNat pa 0 (leBytes 4 1) r) = .ok w :=
  ⟨_, _, _, _, _, _, rfl, rfl, rfl, rfl, rfl, rfl⟩

theorem witness_tsig_enters : ∃ x t pa u r b v y w, let s := counting 1 0x3000
    readReg 4 s = .ok (x, t) ∧ (counterAt x.toNat t).ans = .ok (pa, u) ∧ release u = .ok r ∧ counterGet 0x3100 pa 0 4 r = 1 ∧
    counterGet 0x3100 pa 8 8 r = 0x3000 ∧ (entryCheck 0x3000 r).ans = .ok (b, v) ∧
    pushEntry 0x3000 ((counterPut x.toNat pa 8 (leBytes 8 0) v).enters 0x3000 (recDom b)) = .ok y ∧
    writeReg 3 1 (counterPut x.toNat pa 0 (leBytes 4 0) y) = .ok w :=
  ⟨_, _, _, _, _, _, _, _, _, rfl, rfl, rfl, rfl, rfl, rfl, rfl, rfl⟩

theorem witness_tdep : ∃ x t b u pa v r id w z, let s := counting 2 0
    readReg 5 s = .ok (x, t) ∧ legal s (.tdep 3 5) = true ∧ (entryCheck x.toNat t).ans = .ok (b, u) ∧ leAt b 32 8 = 0x3100 ∧
    (counterAt 0x3100 u).ans = .ok (pa, v) ∧ release v = .ok r ∧ (enterTask x.toNat b r).ans = .ok (id, w) ∧ counterGet 0x3100 pa 0 4 r ≠ 0 ∧
    counterGet 0x3100 pa 8 8 r = 0 ∧
    writeReg 3 (BitVec.ofNat 64 id) (counterPut 0x3100 pa 8 (leBytes 8 x.toNat) w) = .ok z :=
  ⟨_, _, _, _, _, _, _, _, _, _, rfl, rfl, rfl, rfl, rfl, rfl, rfl, by decide, rfl, rfl⟩

theorem witness_tdep_pushes : ∃ x t b u pa v r id w y z, let s := counting 0 0
    readReg 5 s = .ok (x, t) ∧ (entryCheck x.toNat t).ans = .ok (b, u) ∧ (counterAt 0x3100 u).ans = .ok (pa, v) ∧ release v = .ok r ∧
    (enterTask x.toNat b r).ans = .ok (id, w) ∧ counterGet 0x3100 pa 0 4 r = 0 ∧ pushEntry x w = .ok y ∧
    writeReg 3 (BitVec.ofNat 64 id) y = .ok z := ⟨_, _, _, _, _, _, _, _, _, _, _, rfl, rfl, rfl, rfl, rfl, rfl, rfl, rfl⟩

theorem witness_wake : ∃ x t r old u w, let s := { super [(4, 0x3080)] with mem := memWrite frames 0x30E8 [2] }
    legal s (.wake 3 4) = true ∧ readReg 4 s = .ok (x, t) ∧ x.toNat % 128 = 0 ∧ isGlobal x.toNat = true ∧ s.cur.sup = true ∧
    release t = .ok r ∧ wakeSlot r.focus.core x.toNat r = .woke old u ∧ old = 2 ∧ writeReg 3 2 u = .ok w :=
  ⟨_, _, _, _, _, _, rfl, rfl, rfl, rfl, rfl, rfl, rfl, rfl, rfl⟩

/-- What WAKE does to a slot whose state is `st`, as core 0 wakes it. -/
def woken (st : Nat) : WakeRes := wakeSlot 0 0x3080 { super [] with mem := memWrite frames 0x30E8 [BitVec.ofNat 8 st] }

theorem witness_wake_slot : (∃ pa v, hvTry true 0x3080 { super [] with mem := memWrite frames 0x30E8 [2] } = .ok (pa, v) ∧
      v.frameBad pa = false ∧ v.hw = [] ∧ memLe v.mem (pa + 104) 8 = 2 ∧
      (v.putGlobal 0x30E8 (pa + 104) (leBytes 8 3)).pushBottom 0 (contEntry 0x3080 false) ≠ none) ∧
    (∃ z, woken 2 = .woke 2 z ∧ (z.coreAt 0).deque = [contEntry 0x3080 false] ∧ memLe z.mem 0x30E8 1 = 3) ∧
    (∃ z, woken 1 = .woke 1 z ∧ (z.coreAt 0).deque = [] ∧ memLe z.mem 0x3080 1 = 1) ∧
    ∃ z, woken 3 = .woke 3 z ∧ (z.coreAt 0).deque = [] ∧ memLe z.mem 0x3080 1 = 0 :=
  ⟨⟨_, _, rfl, rfl, rfl, rfl, fun h => by cases h⟩, ⟨_, rfl, rfl, rfl⟩, ⟨_, rfl, rfl, rfl⟩, _, rfl, rfl, rfl⟩

theorem witness_wake_pool : ∃ dm, ({ user [] with domains := [(0, some { Domain.reset with pool := 0x3000, slots := 2 })] } :
    State).dom? 0 = some dm ∧ dm.pool.toNat ≤ 0x3080 ∧ 0x3080 < dm.pool.toNat + 128 * dm.slots := ⟨_, rfl, by decide, by decide⟩

/-- A running task with its record at 0x3000, shape values given, and a bucket table of zeros in local memory but for the
first bucket. -/
def bucketed (nv v b : Nat) : State :=
  let s := { running [(4, 0xFFFF000000000000)] with
    mem := memWrite (memWrite frames 0x3040 (leBytes 8 (nv * 2 ^ 27))) 0x3050 (leBytes 4 v) }
  let s := s.setCur { s.cur with task := 0x3000 }
  s.setCoreCur { s.core with mem := memWrite [] 0 (leBytes 4 b) }

theorem witness_bktsel : let s := bucketed 1 5 8
    legal s (.bktsel 3 4) = true ∧ readReg 4 s = .ok (0xFFFF000000000000, s) ∧
    s.cur.vq.any (writesTaskMask s.cur.vleft) = false ∧
    (match (loadSpan 0xFFFF000000000000 512 s).ans with
      | .ok (tab, u) => match (runningRec u).ans with
        | .ok (b, _) => decide (recNv b = 1 ∧ leAt b 80 4 = 5 ∧ leAt tab 0 4 = 8)
        | .error _ => false
      | .error _ => false) = true := ⟨rfl, rfl, rfl, by decide +kernel⟩

theorem witness_steal_budget : ∃ x t w y u v z, let s := super [(4, 6), (5, 0), (6, 100), (7, 5 * 2 ^ 16)]
    legal s (.stealctl 3 4) = true ∧ readReg 4 s = .ok (x, t) ∧
    writeReg 3 11 (t.setCoreCur { t.core with steal := x.setWidth 4 }) = .ok w ∧ Completes (.stealctl 3 4) s w ∧
    legal s (.budget 3 5 6) = true ∧ readTwo 5 6 s = .ok (y, z, u) ∧ (s.dom? 0).isSome = true ∧
    Completes (.budget 3 5 6) s v ∧ Traps (.budget 3 7 6) s 12 (5 * 2 ^ 16) :=
  ⟨_, _, _, _, _, _, _, rfl, rfl, rfl, rfl, rfl, rfl, rfl, rfl, rfl⟩

/-! ### Regions -/

/-- Bytes put into a memory. -/
def put (a n v : Nat) (m : List Host.Cell) : List Host.Cell := memWrite m a (leBytes n v)

/-- `base` with a descriptor table at 4000H whose entry 1 is a tensor of 16 by 4 numbers of type `ty` at 8000H. -/
def tensorBase (ty : Nat) : State := { base with
  mem := put 0x4040 8 0x8000 (put 0x4048 4 16 (put 0x404C 4 4 (put 0x4050 4 1 (put 0x4054 4 1 (put 0x4058 8 4
    (put 0x4060 8 64 (put 0x4078 8 (2 + 256 * ty) frames)))))))
  domains := [(0, some { Domain.reset with rights := 0x11000, segs := 1, dtab := 0x4000, dcount := 2 })] }

/-- The box of the tensor's cells with first coordinate in `lo … hi - 1`. -/
def cols (lo hi : Int) : Box := [⟨lo, hi, 1⟩, ⟨0, 4, 1⟩]

/-- A region of the tensor. -/
def regionOf (bs : List Box) (ix : Bool) : Region := ⟨1, 2, bs, ix, false, false, 0⟩

/-- The tensor, with two regions in q1 and q2, some registers and some local memory. -/
def tensors (bs cs : List Box) (ix : Bool) (l : List (Nat × Nat)) (mem : List Host.Cell) : State :=
  let s := tensorBase 18
  let s := s.setCur { s.cur with g := regs l, kstat := 0, q := [(1, regionOf bs ix), (2, regionOf cs ix)] }
  s.setCoreCur { s.core with mem := mem }

/-- A local address in the scratchpad. -/
def loc (o : Nat) : Nat := 0xFFFF000000000000 + o

theorem witness_algebra : (false || false) = false ∧ (∀ bx ∈ [cols 0 8], bx.length = 2) ∧ [3, (1 : Int)].length = 2 ∧
    cellIn (decomp (fun x y => x && !y) 2 [cols 0 8] [cols 2 4]) [3, 1] = false ∧
    canon 2 [cols 0 2, cols 2 8] = canon 2 [cols 0 8] ∧ [cols 0 8].length ≤ 8 ∧ 8 < (List.replicate 9 (cols 0 8)).length := by
  decide

theorem witness_rbox_tensor : ∃ x t db u de q v, let s := tensors [] [] false [(4, 0x2000001)] []
    readReg 4 s = .ok (x, t) ∧ legal s (.rbox 3 4 5) = true ∧ x.getLsbD 25 = true ∧
    (descFetch (x.toNat % 2 ^ 24) t).ans = .ok (db, u) ∧ descParse u (x.toNat % 2 ^ 24) db = .ok de ∧
    finishUnion 3 (x.toNat % 2 ^ 24) false (x.getLsbD 24) de [de.bounds.map (fun (n : Nat) => Dim.mk 0 (n : Int) 1)] = .ok q ∧
    Completes (.rbox 3 4 5) s v := ⟨_, _, _, _, _, _, _, rfl, rfl, rfl, rfl, rfl, rfl, rfl⟩

/-- A box record at local offset 100H: the cells 2 to 7 of dimension 0 and all of dimension 1. -/
def boxRecord : List Host.Cell :=
  put 0x100 3 2 (put 0x10C 3 8 (put 0x10F 3 4 (put 0x112 3 1 (put 0x115 3 1 (put 0x118 4 0x01010101 [])))))

theorem witness_rbox_record : ∃ x t a t' rec u db v de q w, let s := tensors [] [] false [(4, 1), (5, loc 0x100)] boxRecord
    readReg 4 s = .ok (x, t) ∧ legal s (.rbox 3 4 5) = true ∧ x.getLsbD 25 = false ∧ readFrom s 5 t = .ok (a, t') ∧
    a.toNat % 8 = 0 ∧ (loadSpan a.toNat 32 t').ans = .ok (rec, u) ∧ (descFetch (x.toNat % 2 ^ 24) u).ans = .ok (db, v) ∧
    descParse v (x.toNat % 2 ^ 24) db = .ok de ∧ (parseBox rec 0).2 = 0 ∧
    (parseBox rec 0).1.take de.rank = [⟨2, 8, 1⟩, ⟨0, 4, 1⟩] ∧
    finishUnion 3 (x.toNat % 2 ^ 24) false (x.getLsbD 24) de [(parseBox rec 0).1.take de.rank] = .ok q ∧
    Completes (.rbox 3 4 5) s w :=
  ⟨_, _, _, _, _, _, _, _, _, _, _, rfl, rfl, rfl, rfl, rfl, rfl, rfl, rfl, rfl, rfl, rfl, rfl⟩

/-- A state whose local offset 200H holds the image of a region. -/
def imaged : State := tensors [cols 0 8] [] false [(4, loc 0x200)] (memWrite [] 0x200 (regionBytes (regionOf [cols 0 8] false)))

theorem witness_rst : ∃ x t u, readReg 4 imaged = .ok (x, t) ∧ legal imaged (.rst 1 4) = true ∧ x.toNat % 8 = 0 ∧
    (storeSpan x.toNat (regionBytes (t.qreg 1)) t).ans = .ok u := by
  obtain ⟨u, hu⟩ := ok_of (e := (storeSpan (loc 0x200) (regionBytes (imaged.qreg 1)) imaged).ans) (by decide +kernel)
  exact ⟨_, _, u, rfl, rfl, rfl, hu⟩

theorem witness_rld : ∃ im u q v, legal imaged (.rld 3 4) = true ∧ readReg 4 imaged = .ok (BitVec.ofNat 64 (loc 0x200), imaged) ∧
    (loadSpan (loc 0x200) 288 imaged).ans = .ok (im, u) ∧ (imageRegion (loc 0x200) im u).ans = .ok (q, v) := by
  obtain ⟨⟨im, u⟩, h⟩ := ok_of (e := (loadSpan (loc 0x200) 288 imaged).ans) (by decide +kernel)
  obtain ⟨⟨q, v⟩, h'⟩ := ok_of (e := (loadSpan (loc 0x200) 288 imaged).ans >>= fun p => (imageRegion (loc 0x200) p.1 p.2).ans) (by decide +kernel)
  rw [h] at h'
  exact ⟨im, u, q, v, rfl, rfl, h, h'⟩

theorem witness_sets : ∃ de t e u v w, let s := tensors [cols 0 8] [cols 4 12] false [] []
    (operandsDesc (s.qreg 1) (s.qreg 2) s).ans = .ok (de, t) ∧ de = some e ∧ legal s (.runi 3 1 2) = true ∧
    Completes (.runi 3 1 2) s u ∧ u.qreg 3 = regionOf [cols 0 12] false ∧ Completes (.rint 3 1 2) s v ∧
    v.qreg 3 = regionOf [cols 4 8] false ∧ Completes (.rsub 3 1 2) s w ∧ w.qreg 3 = regionOf [cols 0 4] false :=
  ⟨_, _, _, _, _, _, rfl, rfl, rfl, rfl, rfl, rfl, rfl, rfl, rfl⟩

theorem witness_sets_loose : let s := tensors [cols 0 8] [cols 4 12] true [] []
    legal s (.rsub 3 1 2) = true ∧ (s.qreg 2).loose = true ∧ (after (.rsub 3 1 2) s).last = .stopped (.trap 4 0x10003) := by decide +kernel

theorem witness_sets_null : ∃ t, let s := user []
    (operandsDesc (s.qreg 1) (s.qreg 2) s).ans = .ok (none, t) ∧ Completes (.runi 3 1 2) s (t.setQ 3 Region.null) ∧
    Completes (.rint 3 1 2) s (t.setQ 3 Region.null) ∧ Completes (.rsub 3 1 2) s (t.setQ 3 Region.null) :=
  ⟨_, rfl, rfl, rfl, rfl⟩

theorem witness_shapes : ∃ x t e u v w y z,
    let s := tensors [cols 2 8] [] false [(4, 0x101), (5, 0x40), (6, 0x0001000000000202), (7, 0x500)] []
    readReg 4 s = .ok (x, t) ∧ (t.qreg 1).isNull = false ∧ (operandDesc (t.qreg 1) t).ans = .ok (e, u) ∧
    legal s (.rdil 3 1 4) = true ∧ Completes (.rdil 3 1 4) s v ∧ (v.qreg 3).boxes = [[⟨1, 8, 1⟩, ⟨0, 4, 1⟩]] ∧
    legal s (.rshf 3 1 5) = true ∧ Completes (.rshf 3 1 5) s w ∧
    legal s (.rstrd 3 1 6) = true ∧ Completes (.rstrd 3 1 6) s y ∧
    legal s (.rspl 3 1 7) = true ∧ Completes (.rspl 3 1 7) s z ∧
    (z.qreg 3).boxes = [cols 2 5] ∧ (z.qreg 4).boxes = [cols 5 8] :=
  ⟨_, _, _, _, _, _, _, _, rfl, rfl, rfl, rfl, rfl, rfl, rfl, rfl, rfl, rfl, rfl, rfl, rfl, rfl⟩

theorem witness_split_boxes : ∃ z y, let s := tensors [[⟨0, 2, 1⟩, ⟨0, 2, 1⟩], [⟨4, 6, 1⟩, ⟨2, 4, 1⟩]] [] false [(4, 4)] []
    Completes (.rspl 3 1 4) s z ∧ (z.qreg 4).boxes = [[⟨4, 6, 1⟩, ⟨2, 4, 1⟩]] ∧
    Completes (.rspl 3 1 4) (tensors [cols 0 2, cols 1 4] [] true [(4, 4)] []) y ∧ (y.qreg 3).ix = true :=
  ⟨_, _, rfl, rfl, rfl, rfl⟩

theorem witness_shapes_null : ∃ x t, let s := user []
    readReg 62 s = .ok (x, t) ∧ (t.qreg 1).isNull = true ∧ Completes (.rdil 3 1 62) s (t.setQ 3 Region.null) :=
  ⟨_, _, rfl, rfl, rfl⟩

theorem witness_ragged : ∃ x t e u, let s := tensors [cols 0 8] [] false [(4, loc 0x300)] []
    readReg 4 s = .ok (x, t) ∧ (operandDesc (t.qreg 1) t).ans = .ok (e, u) ∧ legal s (.rrag 3 1 4) = true ∧ x.toNat % 4 = 0 ∧
    (t.qreg 1).boxes.length = 1 ∧ 2 ≤ (t.qreg 1).rank ∧ (t.qreg 1).loose = false ∧
    Completes (.rrag 3 1 4) s (u.setQ 3 { t.qreg 1 with rg := true, table := x }) :=
  ⟨_, _, _, _, rfl, rfl, rfl, rfl, rfl, Nat.le.refl, rfl, rfl⟩

/-- A map record at local offset 100H: tensor 1, dimension 0 from 0 and 1 from 1, dimension 0 doubled and moved by 3. -/
def mapRecord : List Host.Cell :=
  put 0x100 8 (1 + 2 ^ 26 * (1 + 4 * 2 + 16 * 3)) (put 0x108 4 0x01010102 (put 0x10C 3 3 []))

theorem witness_project : ∃ x t rec u h pi sc off ba v bt w da dt q z, let s := tensors [cols 0 4] [] false [(4, loc 0x100)] mapRecord
    legal s (.rprj 3 1 4) = true ∧ readReg 4 s = .ok (x, t) ∧ x.toNat % 8 = 0 ∧ (loadSpan x.toNat 32 t).ans = .ok (rec, u) ∧
    parseMap rec = (h, pi, sc, off, true) ∧ (u.qreg 1).isNull = false ∧ (descFetch (u.qreg 1).handle u).ans = .ok (ba, v) ∧
    (descFetch h v).ans = .ok (bt, w) ∧ descParse w (u.qreg 1).handle ba = .ok da ∧ descParse w h bt = .ok dt ∧
    da.rank = (u.qreg 1).rank ∧ pi.take dt.rank = [0, 1] ∧ sc.take dt.rank = [2, 1] ∧ allDistinct (pi.take dt.rank) = true ∧
    finishUnion 3 h false false dt ((u.qreg 1).boxes.map (boxProject dt.rank pi sc off)) = .ok q ∧
    Completes (.rprj 3 1 4) s z ∧ z.qreg 3 = q :=
  ⟨_, _, _, _, _, _, _, _, _, _, _, _, _, _, _, _, rfl, rfl, rfl, rfl, rfl, rfl, rfl, rfl, rfl, rfl, rfl, rfl, rfl, rfl,
    rfl, rfl, rfl⟩

theorem witness_region_queries : ∃ de t e u v w y z, let s := tensors [cols 0 8] [cols 4 12] false [(4, 0x8000), (5, 0x8024)] []
    (operandsDesc (s.qreg 1) (s.qreg 2) s).ans = .ok (de, t) ∧ legal s (.rcmp 3 1 2) = true ∧ Completes (.rcmp 3 1 2) s u ∧
    sget 0 u.cur.g 3 = 0 ∧ (operandDesc (s.qreg 1) s).ans = .ok (e, t) ∧ Completes (.rcnt 3 1) s v ∧
    sget 0 v.cur.g 3 = 0x100000021 ∧ Completes (.rvol 3 1) s w ∧ sget 0 w.cur.g 3 = 32 ∧
    legal s (.rtst 3 1 4) = true ∧ Completes (.rtst 3 1 4) s y ∧ sget 0 y.cur.g 3 = 1 ∧
    Completes (.rtst 3 1 5) s z ∧ sget 0 z.cur.g 3 = 0 :=
  ⟨_, _, _, _, _, _, _, _, rfl, rfl, rfl, rfl, rfl, rfl, rfl, rfl, rfl, rfl, rfl, rfl, rfl, rfl⟩

theorem witness_region_queries_null : ∃ v w y t x, let s := user []
    (s.qreg 1).isNull = true ∧ Completes (.rcnt 3 1) s v ∧ Completes (.rvol 3 1) s w ∧ readReg 4 s = .ok (x, t) ∧
    Completes (.rtst 3 1 4) s y := ⟨_, _, _, _, _, rfl, rfl, rfl, rfl, rfl⟩

/-- A ragged region whose table at local offset 300H gives row `k` a length of 2. -/
def ragged : State :=
  let s := tensors [] [] false [(4, 0x8004)] (put 0x300 8 0x0000000200000002 (put 0x308 8 0x0000000200000002 []))
  s.setCur { s.cur with q := [(1, ⟨1, 2, [cols 0 16], false, true, false, BitVec.ofNat 64 (loc 0x300)⟩)] }

theorem witness_ragged_queries : ∃ db e t ls u w y v x, (descFetch (ragged.qreg 1).handle ragged).ans = .ok (db, t) ∧
    (ragged.qreg 1).rg = true ∧ (ragged.qreg 1).tableBad = false ∧
    (loadLens (ragged.qreg 1).table (ragged.qreg 1).rows.length t).ans = .ok (ls, u) ∧ checkDesc (ragged.qreg 1) db u = .ok e ∧
    Completes (.rvol 3 1) ragged w ∧ sget 0 w.cur.g 3 = 8 ∧ readReg 4 ragged = .ok (x, v) ∧
    Completes (.rtst 3 1 4) ragged y ∧ sget 0 y.cur.g 3 = 1 :=
  ⟨_, _, _, _, _, _, _, _, _, rfl, rfl, rfl, rfl, rfl, rfl, rfl, rfl, rfl, rfl⟩

theorem witness_ragged_byte : ∃ e t ls v, (operandDesc (ragged.qreg 1) ragged).ans = .ok (e, t) ∧
    (rowLens (ragged.qreg 1) (raggedRowsAt e (ragged.qreg 1) 0x8004) t).ans = .ok (ls, v) := ⟨_, _, _, _, rfl, rfl⟩

/-! ### Engines and transfers -/

theorem witness_append : ∃ h t, let s := user []
    appendCmd 2 none s = .ok (h, t) ∧ h.seq = 1 ∧ ((t.sqAt 0).seqno 2 0).issued = 1 := ⟨_, _, rfl, rfl, rfl⟩

theorem witness_numbers : (⟨9, 4, []⟩ : SeqNo).completed < 2 ^ 48 ∧ 5 = ((⟨9, 4, []⟩ : SeqNo).completed + 1) % 2 ^ 48 ∧
    7 ≠ ((⟨9, 4, []⟩ : SeqNo).completed + 1) % 2 ^ 48 ∧ 5 ∉ (⟨9, 4, []⟩ : SeqNo).above ∧
    (((⟨9, 4, []⟩ : SeqNo).complete 6).complete 5).completed = 6 ∧ reached 3 (2 ^ 48 - 1) = true ∧ reached 3 4 = false := by
  decide

theorem witness_sequence_query : ∃ x y t u, let s := user [(4, 0), (5, 1)]
    legal s (.tseq 3 4) = true ∧ readReg 4 s = .ok (x, t) ∧ Completes (.tseq 3 4) s u ∧ legal s (.cseqWt 4 5) = true ∧
    readTwo 4 5 s = .ok (x, y, t) ∧ reached 0 (y.toNat % 2 ^ 48) = false ∧
    StopsWith (.cseqWt 4 5) s (.wait (.seqno 3 0 0 1)) ∧ Completes (.cseqWt 4 4) s t :=
  ⟨_, _, _, _, rfl, rfl, rfl, rfl, rfl, rfl, rfl, rfl⟩

/-- A copy record at local offset 100H: channel 2, direction `dir`, local base 1000H, rows 64 bytes apart. -/
def copyRecord (dir : Nat) : List Host.Cell := put 0x100 8 (0x1000 + 2 ^ 32 * dir + 2 ^ 34 * 2) (put 0x114 4 64 [])

/-- A state about to issue a transfer of the 32 cells of q1. -/
def copying (dir : Nat) : State := tensors [cols 0 8] [] false [(4, loc 0x100)] (copyRecord dir)

theorem witness_copy_in : legal (copying 0) (.copy 3 1 4) = true ∧ okAnd (readReg 4 (copying 0)) (fun p =>
    okAnd (recordAt p.1 p.2) fun rb => okAnd (regionDesc (p.2.qreg 1) p.2).ans fun q => match q.1 with
      | some (e, true) => okAnd (copyCells (parseCopy rb) p.1.toNat (p.2.qreg 1) e true q.2).ans fun c =>
          c.1.length == 2 && (appendCmd 0 (some (p.2.qreg 1)) c.2).isOk
      | _ => false) = true ∧
    completesIn (.copy 3 1 4) (copying 0) (fun z => ((z.sqAt 0).chan 2).reserved == 2 && sget 0 z.cur.g 3 == 0) = true := by
  decide +kernel

theorem witness_copy_out : completesIn (.copy 3 1 4) (copying 1) (fun z =>
    ((z.sqAt 0).chan 2).reserved == 2 && z.owned.length == 2) = true := by decide +kernel

theorem witness_copy_nothing : ∃ x t rb h w z, let s := user [(4, loc 0x100)]
    readReg 4 s = .ok (x, t) ∧ recordAt x t = .ok rb ∧ (regionDesc (t.qreg 1) t).ans = .ok (none, t) ∧
    (parseCopy rb).reserved = false ∧ (parseCopy rb).dir ≠ 3 ∧ appendCmd 0 (some (t.qreg 1)) t = .ok (h, w) ∧
    Completes (.copy 3 1 4) s z ∧ ((z.sqAt 0).chan 0).reserved = 0 :=
  ⟨_, _, _, _, _, _, rfl, rfl, rfl, rfl, by decide, rfl, rfl, rfl⟩

/-- A gather record at local offset 100H with the index array of 3 n32 at 2000H, its shape record at 200H. -/
def gatherRecord : List Host.Cell :=
  put 0x100 8 (0x1000 + 2 ^ 34 * 2) (put 0x108 8 (loc 0x200) (put 0x200 8 (loc 0x2000) (put 0x208 8 0x0001000100010003
    (put 0x210 3 4 (put 0x21C 4 22 [])))))

/-- A state about to issue a gather or a scatter. -/
def gathering : State := tensors [cols 0 8] [] false [(4, loc 0x100)] gatherRecord

/-- The hypotheses of GATH or SCAT hold. -/
def gatherReady (out : Bool) (s : State) : Bool :=
  okAnd (readReg 4 s) fun p => okAnd (recordAt p.1 p.2) fun rb => okAnd (indexShape (parseGath rb).index p.2) fun ix =>
    !ix.bad indexType false false && !(parseGath rb).reserved && okAnd (regionDesc (p.2.qreg 1) p.2).ans fun q => match q.1 with
      | some (e, true) => !isSub e.ty && okAnd (if out then (regionDest e (p.2.qreg 1).cells q.2).ans else
            (regionSource e (p.2.qreg 1).cells q.2).ans) fun v =>
          (localBytesGrant (!out) ((upTo (ix.count * (parseGath rb).run * typeBytes e.ty)).map
            (fun (k : Nat) => (((parseGath rb).base + k : Nat) : Int))) v).isOk && (appendCmd 0 (some (p.2.qreg 1)) v).isOk
      | _ => false

theorem witness_gather : legal gathering (.gath 3 1 4) = true ∧ gatherReady false gathering = true ∧
    completesIn (.gath 3 1 4) gathering (fun z => ((z.sqAt 0).chan 2).reserved == 3) = true := by decide +kernel

theorem witness_scatter_ready : legal gathering (.scat 3 1 4) = true ∧ gatherReady true gathering = true := by decide +kernel

theorem witness_scatter : completesIn (.scat 3 1 4) gathering (fun z => ((z.sqAt 0).chan 2).reserved == 3) = true := by
  decide +kernel

theorem witness_gather_null : ∃ z, let s := (user [(4, loc 0x100)]).setCoreCur { (user []).core with mem := gatherRecord }
    Completes (.gath 3 1 4) (s.setCur (user [(4, loc 0x100)]).cur) z ∧ ((z.sqAt 0).chan 2).reserved = 0 := ⟨_, rfl, rfl⟩

theorem witness_cwp : ∃ x t u, let s := user [(4, 0x103)]
    legal s (.cwp 3 4) = true ∧ readReg 4 s = .ok (x, t) ∧ Completes (.cwp 3 4) s u := ⟨_, _, _, rfl, rfl, rfl⟩

theorem witness_cwait : ∃ x t e u, let s := tensors [cols 0 8] [] false [(4, 3)] []
    legal s (.cwait 1 4) = true ∧ readReg 4 s = .ok (x, t) ∧ (t.qreg 1).isNull = false ∧
    (operandDesc (t.qreg 1) t).ans = .ok (e, u) ∧ (t.qreg 1).cells.all (fun c => bytesDelivered u 0 3 (cwaitOrd u 3) (cellBytes e c)) = true ∧
    Completes (.cwait 1 4) s u := ⟨_, _, _, _, rfl, rfl, rfl, rfl, rfl, rfl⟩

theorem witness_cwait_null : ∃ x t, readReg 4 (user []) = .ok (x, t) ∧ (t.qreg 1).isNull = true ∧
    Completes (.cwait 1 4) (user []) t := ⟨_, _, rfl, rfl, rfl⟩

/-- After a copy is issued on channel 2, with the channel in g5. -/
def copied : State :=
  let t := after (.copy 3 1 4) (copying 0)
  t.setCur { t.cur with g := [(5, 2)] }

theorem witness_cwait_waits : okAnd (readReg 5 copied) (fun p => okAnd (operandDesc (p.2.qreg 1) p.2).ans fun q =>
      (p.2.qreg 1).cells.any (fun c => !cellResident q.2 q.1 c && !bytesDelivered q.2 0 2 (cwaitOrd q.2 2) (cellBytes q.1 c))) = true ∧
    (after (.cwait 1 5) copied).last = .stopped (.wait (.region 2 2)) ∧ copied.appends = 2 := by decide +kernel

theorem witness_cwait_again : let s := copied.setCur { copied.cur with st := .completing (.region 2 2) }
    cwaitOrd s 2 = 2 ∧ (after (.cwait 1 5) { s with appends := 7 }).last = .stopped (.wait (.region 2 2)) := by decide +kernel

/-- The tensor with its first line in the stash. -/
def stashed : State :=
  let s := tensors [cols 0 8] [] false [(4, 3)] []
  s.setCoreCur { s.core with stash := [⟨256, 0, 0, true, false, false⟩] }

theorem witness_present : legal stashed (.pres 3 1) = true ∧ (stashed.qreg 1).isNull = false ∧ (stashed.qreg 1).rg = false ∧
    completesIn (.pres 3 1) stashed (fun z => z.qreg 3 == regionOf [[⟨0, 8, 1⟩, ⟨0, 2, 1⟩]] false) = true := by decide +kernel

theorem witness_ragged_present : ∃ v, Completes (.pres 3 1) ragged v ∧ (v.qreg 3).boxes = [] := ⟨_, rfl, rfl⟩

/-- A state with a fibre record at local offset 100H: coordinates 2, 5, 9 at 200H and values of 4 bytes at 300H. -/
def fibred (stream : Nat) (f : Fibre) : State :=
  let s := user [(4, loc 0x100), (5, 6), (6, 20)]
  let s := s.setCur { s.cur with f := [(0, f)] }
  s.setCoreCur { s.core with mem := put 0x100 8 (loc 0x200) (put 0x108 8 (if stream = 1 then 4 else loc 0x300)
    (put 0x110 4 3 (put 0x118 8 (stream + 4) (put 0x200 4 2 (put 0x204 4 5 (put 0x208 4 9 [])))))) }

/-- The fibre of that record when it is open. -/
def fibre0 : Fibre := ⟨BitVec.ofNat 64 (loc 0x200), BitVec.ofNat 64 (loc 0x300), 3, 2, false, 2, true⟩

theorem witness_fopen : ∃ x t rec u co v, let s := fibred 0 Fibre.closed
    legal s (.fopen 0 4) = true ∧ readReg 4 s = .ok (x, t) ∧ x.toNat % 8 = 0 ∧ (loadSpan x.toNat 32 t).ans = .ok (rec, u) ∧
    leAt rec 24 8 / 8 = 0 ∧ leAt rec 20 4 = 0 ∧ leAt rec 0 8 % 4 = 0 ∧ leAt rec 16 4 = 3 ∧
    (loadV (leAt rec 0 8) 4 u).ans = .ok (co, v) ∧ Completes (.fopen 0 4) s (v.setF 0 fibre0) :=
  ⟨_, _, _, _, _, _, rfl, rfl, rfl, rfl, rfl, rfl, rfl, rfl, rfl, rfl⟩

theorem witness_fnext : ∃ u v w, let s := fibred 0 fibre0
    (s.freg 0).isOpen = true ∧ legal s (.fnext 3 0) = true ∧ 1 < (s.freg 0).left ∧ Completes (.fnext 3 0) s u ∧
    sget 0 u.cur.g 3 = 5 ∧ legal s (.fnextge 3 0 5) = true ∧ Completes (.fnextge 3 0 5) s v ∧ sget 0 v.cur.g 3 = 9 ∧
    legal s (.fend 3 0) = true ∧ Completes (.fend 3 0) s w ∧ sget 0 w.cur.g 3 = BitVec.ofNat 64 (loc 0x300) :=
  ⟨_, _, _, rfl, rfl, by decide, rfl, rfl, rfl, rfl, rfl, rfl, rfl, rfl⟩

theorem witness_stream : ∃ u v w y, let s := fibred 1 ⟨100, 4, 3, 7, true, 2, true⟩
    (s.freg 0).stream = true ∧ Completes (.fnext 3 0) s u ∧ sget 0 u.cur.g 3 = 8 ∧ Completes (.fnextge 3 0 5) s v ∧
    sget 0 v.cur.g 3 = 7 ∧ Completes (.fnextge 3 0 6) s w ∧ sget 0 w.cur.g 3 = BitVec.allOnes 64 ∧
    Completes (.fopen 1 4) s y ∧ (y.freg 1).stream = true := ⟨_, _, _, _, rfl, rfl, rfl, rfl, rfl, rfl, rfl, rfl, rfl⟩

theorem witness_fibre_closed : ∃ u, let s := fibred 0 Fibre.closed
    (s.freg 0).isOpen = false ∧ legal s (.fnext 3 0) = true ∧ Traps (.fnext 3 0) s 1 (illInfo s) ∧
    Traps (.fend 3 0) s 1 (illInfo s) ∧ Traps (.fnextge 3 0 5) s 1 (illInfo s) ∧ Completes (.fclose 0) (fibred 0 fibre0) u ∧ (u.freg 0).isOpen = false :=
  ⟨_, rfl, rfl, rfl, rfl, rfl, rfl, rfl⟩

theorem witness_fibre_seek : ∃ g t, let s := fibred 0 fibre0
    fibre0.left ≠ 0 ∧ 2 ≤ fibre0.coord ∧ 1 < fibre0.left ∧ fibre0.coord < 6 ∧ (fibre0.advanced s).ans = .ok (g, t) ∧
    ({ fibre0 with left := 1 } : Fibre).coord < 6 := ⟨_, _, by decide, by decide, by decide, by decide, rfl, by decide⟩

/-! ### The vector unit -/

/-- A shape record at local offset `o`: `n` elements of type `ty`, 4 elements apart from `base` on. -/
def shapeRec (o base n ty : Nat) (m : List Host.Cell) : List Host.Cell :=
  put o 8 base (put (o + 8) 8 (0x0001000100010000 + n) (put (o + 16) 3 4 (put (o + 28) 4 ty m)))

/-- Three operands of 8 elements of type i32 in h1, h2 and h3; `vq` is the entry queue. -/
def vectored (vq : List VEntry) : State :=
  let s := user [(4, loc 0x200), (5, loc 0x204), (6, 0x300), (7, 2)]
  let s := s.setCur { s.cur with
    h := [(1, wd (loc 0x200)), (2, wd (loc 0x220)), (3, wd (loc 0x240))]
    vq := vq }
  s.setCoreCur { s.core with mem := shapeRec 0x200 (loc 0x2000) 8 18 (shapeRec 0x220 (loc 0x3000) 8 18
    (shapeRec 0x240 (loc 0x4000) 8 18 (put 0x3000 4 7 (put 0x4000 4 9 [])))) }

/-- The shape register's record. -/
def shapeOf (n : Nat) : Shape := parseShape ((vectored []).hreg n)
  (memRead (vectored []).core.mem (localOff ((vectored []).hreg n)) 32)

theorem witness_vector_entry : vform (.vadd 1 2 3 0 0 18) = some (formAB (.add 0) 1 2 3 0 18) ∧
    legal (vectored []) (.vadd 1 2 3 0 0 18) = true ∧
    (∀ n ∈ [1, 2, 3], (vectored []).hreg n ≠ 0 ∧ (vectored []).hreg n ∉ (vectored []).cur.vadv) ∧
    (formAB (.add 0) 1 2 3 0 18).shapeOk (some (shapeOf 1)) (some (shapeOf 2)) = true ∧
    (checkOperands ((formAB (.add 0) 1 2 3 0 18).operands (some (shapeOf 1)) (some (shapeOf 2)) (some (shapeOf 3)) none)
      (vectored [])).ans.isOk = true ∧
    completesIn (.vadd 1 2 3 0 0 18) (vectored []) (fun t => t.cur.vq.length == 1) = true := by decide +kernel

/-- A stochastic conversion of f32 to e4m3 whose destination record quantizes if `q` is 1. -/
def stochastic (q : Nat) : State :=
  let s := vectored []
  s.setCoreCur { s.core with mem := shapeRec 0x200 (loc 0x2000) 8 (4 + 64 * q) (shapeRec 0x220 (loc 0x3000) 8 0 []) }

theorem witness_vector_stochastic : ((vform (.vcvt 1 2 0 0 4 4)).map (·.rs)) = some true ∧
    legal (stochastic 1) (.vcvt 1 2 0 0 4 4) = true ∧
    okAnd (shapeAt ((stochastic 1).hreg 1) (stochastic 1)) (·.quant) = true ∧
    (after (.vcvt 1 2 0 0 4 4) (stochastic 1)).last = .stopped (.trap 1 (illInfo (stochastic 1))) ∧
    completesIn (.vcvt 1 2 0 0 4 4) (stochastic 0) (fun t => t.cur.kscnt == (stochastic 0).cur.kscnt + 1) = true := by
  decide +kernel

/-- A queue of 16 entries whose oldest is done. -/
def fullQueue : State :=
  let e := (after (.vadd 1 2 3 0 0 18) (vectored [])).cur.vq.head?.toList
  vectored (e.map (fun x => { x with st := .done }) ++ (List.replicate 15 e).flatten)

theorem witness_vector_full : fullQueue.cur.vq.length = 16 ∧ (fullQueue.cur.vq.map (·.st)).head? = some .done ∧
    completesIn (.vadd 1 2 3 0 0 18) fullQueue (fun t => t.cur.vq.length == 16) = true := by decide +kernel

theorem witness_vector_scalar : completesIn (.vbcast 1 4 0 18) (vectored []) (fun t =>
    (t.cur.vq.map (·.scalar)) == [wd (loc 0x200)]) = true := by decide +kernel

/-- The state after VADD was issued. -/
def queued : State := after (.vadd 1 2 3 0 0 18) (vectored [])

theorem witness_vector_begin : (queued.coreAt 0).vexec = none ∧ (nextEntry (queued.ctxAt 0 0)).map (·.1) = some 0 ∧
    completesIn (.vectorEntryBegin 0) queued (fun t => (t.coreAt 0).vexec == some 0) = true := by decide +kernel

theorem witness_vector_complete : let s := after (.vectorEntryBegin 0) queued
    (s.coreAt 0).vexec = some 0 ∧ findIdx? (fun e => e.st == .executing) (s.ctxAt 0 0).vq = some 0 ∧
    completesIn (.vectorEntryComplete 0) s (fun t => (t.ctxAt 0 0).vq.map (·.st) == [.done] && (t.coreAt 0).vexec == none &&
      memLe (t.coreAt 0).mem 0x2000 4 == 16) = true := by decide +kernel

theorem witness_integer_elements : (16 ≤ 18 ∧ 18 ≤ 23) ∧ intShape 18 = (32, true) ∧ intShape 22 = (32, false) ∧
    0xFFFFFFFF < 2 ^ 32 ∧ 2 ^ (32 - 1) ≤ 0xFFFFFFFF ∧
    (0xFFFFFFFF + 2 ^ (32 - 1)) % 2 ^ 32 < (1 + 2 ^ (32 - 1)) % 2 ^ 32 ∧ intShape 16 = (8, true) := by decide

theorem witness_vshape : ∃ x t u y v, let s := vectored []
    readReg 4 s = .ok (x, t) ∧ legal s (.vshape 5 4) = true ∧ x.toNat % 32 = 0 ∧ isLocal x.toNat = true ∧
    localCheck false x.toNat 32 t = .ok () ∧ Completes (.vshape 5 4) s u ∧ readReg 5 s = .ok (y, v) ∧ y.toNat % 32 = 4 ∧
    Traps (.vshape 5 5) s 3 y ∧ Traps (.vshape 5 6) (user [(6, 0x20)]) 2 0x20 :=
  ⟨_, _, _, _, _, rfl, rfl, rfl, rfl, rfl, rfl, rfl, rfl, rfl, rfl⟩

theorem witness_vloop_illegal : ∃ x t, let s := vectored []
    readReg 7 s = .ok (x, t) ∧ legal s (.vloop 0 7) = true ∧ t.cur.vq.length < 1 ∧ Traps (.vloop 0 7) s 1 (illInfo s) :=
  ⟨_, _, rfl, rfl, by decide, rfl⟩

theorem witness_vloop : okAnd (readReg 7 queued) (fun p => !(decide (p.2.cur.vq.length < 1)) && p.2.cur.vleft == 0 &&
      p.1.toNat == 2 && (loopChecks 2 p.2.cur.vq p.2).ans.isOk) = true ∧
    completesIn (.vloop 0 7) queued (fun t => t.cur.vleft == 2 && t.cur.vk == 1) = true ∧
    completesIn (.vloop 0 62) queued (fun t => t.cur.vleft == 0) = true := by decide +kernel

theorem witness_vsync : ∃ t, let s := ctxOf (fun x => { x with vflags := 1 })
    s.cur.vflags &&& enabledOf s.cur.kfpe = 0 ∧ Completes .vsync s t ∧ t.cur.vflags = 0 ∧ s.cur.inTrap = false ∧
    StopsWith .vsync (ctxOf (fun x => { x with vflags := 1, kfpe := 0x100 })) (.flags 1) := ⟨_, rfl, rfl, rfl, rfl, rfl⟩

theorem witness_vsync_waits : (after .vsync queued).last = .stopped (.wait .vector) ∧
    queued.cur.vq.map (·.st) = [.pending] := by decide +kernel

/-- A state with a decode table in local memory whose first word is `v`. -/
def tabled (v : Nat) : State :=
  let s := ctxOf (fun x => { x with xdt := wd (loc 0x1000) })
  s.setCoreCur { s.core with mem := put 0x1000 4 v [] }

theorem witness_vtbl : (tabled 0).core.ctxs.any (fun p => p.2.dt8Busy) = false ∧
    completesIn .vtbl (tabled 0) (fun t => t.core.dt8Tag == wd (loc 0x1000)) = true ∧
    (after .vtbl (tabled 0x7F800001)).last = .stopped (.trap 7 (wd (loc 0x1000))) := by decide +kernel

/-! ### The matrix unit -/

/-- A state with slots 1 and 2 of the square claimed by core 0, declared as 4 by 4 bf16 operands, and the accumulator. -/
def matrixed (l : List (Nat × Nat)) : State :=
  let s := ctxOf (fun x => { x with g := regs l, xfa := 1, xfb := 1, xfo := 1 })
  let slot : MSlot := ⟨some (0, 0), some ⟨1, 4, 4, 0⟩, none, [], [], [], false⟩
  s.setSq 0 { s.sqAt 0 with slots := [(1, slot), (2, slot)], acc := some (0, 0) }

theorem witness_mclaim : ∃ x y t u v, let s := super [(4, 0x60), (5, 1)]
    readTwo 4 5 s = .ok (x, y, t) ∧ legal s (.mclaim 3 4 5) = true ∧ Completes (.mclaim 3 4 5) s u ∧
    ((u.sqAt 0).slot 5).claim = some (0, 0) ∧ (u.sqAt 0).acc = some (0, 0) ∧ ((u.sqAt 0).slot 4).claim = none ∧
    legal u (.mrel 4 5) = true ∧ Completes (.mrel 4 5) u v ∧ ((v.sqAt 0).slot 5).claim = none ∧
    Traps (.mrel 4 5) s 1 (illInfo s) :=
  ⟨_, _, _, _, _, rfl, rfl, rfl, rfl, rfl, rfl, rfl, rfl, rfl, rfl⟩

/-- A state whose slot 1 is claimed by another core. -/
def clashing : State :=
  (super [(4, 2), (5, 0)]).setSq 0 { (super []).sqAt 0 with slots := [(1, ⟨some (3, 0), none, none, [], [], [], false⟩)] }

theorem witness_mclaim_clash : ∃ u, let s := clashing
    Completes (.mclaim 3 4 5) s u ∧ sget 0 u.cur.g 3 = 1 ∧ (u.sqAt 0).slots = [(1, ⟨some (3, 0), none, none, [], [], [], false⟩)] :=
  ⟨_, rfl, rfl, rfl⟩

/-- A log record at local offset 100H: arenas of 4 KiB each from 10000H on. -/
def logRecord : List Host.Cell := put 0x100 8 0x10000 (put 0x108 8 0x11000 (put 0x110 8 0x11000 (put 0x118 8 0x12000
  (put 0x120 8 0x12000 (put 0x128 8 0x13000 [])))))

/-- A state that may arm its log. -/
def logging : State :=
  let s := super [(4, loc 0x100), (5, 1), (6, 0x201)]
  let s := s.setCoreCur { s.core with mem := logRecord }
  { s with mem := frames }

theorem witness_mlog : legal logging (.mlog 4) = true ∧ (localCheck false (loc 0x100) 48 logging).isOk = true ∧
    completesIn (.mlog 4) logging (fun t => ((t.sqAt 0).mcore 0).armed) = true := by decide +kernel

theorem witness_mrec : completesIn (.mrec 5) (after (.mlog 4) logging) (fun t => ((t.sqAt 0).mcore 0).recording) = true ∧
    completesIn (.mrec 62) logging (fun t => !((t.sqAt 0).mcore 0).recording) = true := by decide +kernel

/-- With the arenas set and slots 1 and 2 claimed. -/
def reversible : State :=
  let s := after (.mlog 4) logging
  let k := s.sqAt 0
  let slot : MSlot := ⟨some (0, 0), none, none, [], [], [], false⟩
  s.setSq 0 { k with slots := [(1, slot), (2, slot)], acc := some (0, 0) }

theorem witness_mrev : legal reversible (.mrev 6) = true ∧ reversible.holdsSlot 1 = true ∧ reversible.holdsSlot 2 = true ∧
    reversible.holdsAcc = true ∧ ((reversible.sqAt 0).mcore 0).armed = true ∧
    ((reversible.sqAt 0).mcore 0).recording = false ∧ (appendCmd 1 none reversible).isOk = true ∧
    completesIn (.mrev 6) reversible (fun t => (t.sqAt 0).mq.length == 1) = true ∧
    (after (.mrev 5) reversible).last = .stopped (.trap 1 (illInfo reversible)) := by decide +kernel

theorem witness_mseq_mqw : ∃ u v, let s := super [(4, 0x100), (5, 0x700)]
    legal s (.mseq 3 4) = true ∧ Completes (.mseq 3 4) s u ∧ legal s (.mqw 3 5) = true ∧ Completes (.mqw 3 5) s v ∧
    ((v.sqAt 0).mcore 0).weight = 7 ∧ sget 0 v.cur.g 3 = 1 := ⟨_, _, rfl, rfl, rfl, rfl, rfl, rfl⟩

/-- A state about to fill slot 1 with 4 rows of 4 numbers of 2 bytes from local offset 1000H, 8 bytes apart. -/
def filling : State := matrixed [(4, loc 0x1000), (5, 3 + 3 * 2 ^ 8 + 8 * 2 ^ 32), (6, 0x102)]

theorem witness_fill : legal filling (.mlda 1 4 5) = true ∧ filling.holdsSlot 1 = true ∧ fillAligned 1 (loc 0x1000) = true ∧
    rowBytes 1 4 ≤ 8 ∧ (rowsCheck (loc 0x1000) 8 4 8 filling).isOk = true ∧ (scaleCheck 0 0 filling).ans.isOk = true ∧
    okAnd (fillRegion Region.null filling).ans (fun p => (p.1.check p.2).ans.isOk && !p.1.bad 1) = true ∧
    shapeFits 1 4 4 = true ∧ isSub 1 = false ∧ ((filling.sqAt 0).mcore 0).recording = false ∧
    (appendCmd 1 none filling).isOk = true ∧
    completesIn (.mlda 1 4 5) filling (fun t => ((t.sqAt 0).slot 1).decl == some ⟨1, 4, 4, 0⟩) = true ∧
    completesIn (.mldb 2 4 5) filling (fun t => (t.sqAt 0).mq.length == 1) = true := by decide +kernel

theorem witness_fill_neighbour : (neighbourOf 0 true true).isSome = true ∧ (neighbourOf 0 false true).isSome = true ∧
    completesIn (.mldaSt 1 6 5) filling (fun t => (t.sqAt 0).mq.length == 1) = true ∧
    completesIn (.mldaAv 1 6 5) filling (fun t => (t.sqAt 0).mq.length == 1) = true := by decide +kernel

/-- A state about to fill slot 1 from a region of 4 by 4 bf16. -/
def regionFilling : State :=
  let s := tensors [cols 0 4] [] false [] []
  let s := { s with mem := put 0x4058 8 2 (put 0x4060 8 64 (put 0x4079 1 1 s.mem)) }
  let s := s.setCur { s.cur with xfa := 1, xfb := 1 }
  s.setSq 0 { s.sqAt 0 with slots := [(1, ⟨some (0, 0), none, none, [], [], [], false⟩)] }

theorem witness_fill_region : completesIn (.mldaRg 1 1 62) regionFilling (fun t =>
    ((t.sqAt 0).slot 1).decl == some ⟨1, 4, 4, 0⟩) = true ∧
    completesIn (.mldbRg 1 1 62) regionFilling (fun t => (t.sqAt 0).mq.length == 1) = true := by decide +kernel

theorem witness_tile : (∀ n ∈ [1, 2], (matrixed []).holdsSlot n = true) ∧ (matrixed []).holdsAcc = true ∧
    TileOp.mma.operandsOk (some ⟨1, 4, 4, 0⟩) (some ⟨1, 4, 4, 0⟩) 1 = true ∧ (appendCmd 1 none (matrixed [])).isOk = true ∧
    (tileWords 9 1 2).all (fun p => (p.op == .sclMul || p.op == .sclSet || p.op == .exp) ||
      completesIn p.insn (matrixed []) (fun t => (t.sqAt 0).mq.length == 1)) = true ∧
    (after (.tmma 1 2) (user [])).last = .stopped (.trap 1 (illInfo (user []))) := by decide +kernel

/-- With slot 1 declared as a column of f32. -/
def scaling : State :=
  let s := matrixed []
  s.setSq 0 { s.sqAt 0 with slots := [(1, ⟨some (0, 0), some ⟨0, 4, 1, 0⟩, none, [], [], [], false⟩)] }

theorem witness_tile_column : completesIn (.tsclMul 1) scaling (fun t => (t.sqAt 0).mq.length == 1) = true ∧
    completesIn (.tsclSetRdy 9 1) scaling (fun t => (t.sqAt 0).mq.length == 1) = true ∧
    completesIn (.texp 1) scaling (fun t => (t.sqAt 0).mq.length == 1) = true := by decide +kernel

theorem witness_mrel_busy : let s := (after (.mlda 1 4 5) filling)
    let u := s.setCur { s.cur with g := regs [(4, 2), (5, 0), (6, 4)] }
    (u.sqAt 0).mq.length = 1 ∧ ((u.sqAt 0).mq.map (fun c => c.reads ++ c.writes)) = [[1]] ∧ legal u (.mrel 4 5) = true ∧
    (after (.mrel 4 5) u).last = .stopped (.wait .hub) ∧
    completesIn (.mrel 6 5) u (fun v => ((v.sqAt 0).slot 2).claim.isNone && ((v.sqAt 0).slot 1).claim.isSome) = true := by
  decide +kernel

/-- `matrixed` in record mode, with arenas of `log`, `save` and 4096 bytes. -/
def recording (log save : Nat) (l : List (Nat × Nat)) : State :=
  let s := matrixed l
  s.setSq 0 ((s.sqAt 0).setMcore 0 { (s.sqAt 0).mcore 0 with
    armed := true, recording := true, logBase := 0x10000, logPos := 0x10000, logLimit := wd (0x10000 + log),
    saveBase := 0x20000, savePos := 0x20000, saveLimit := wd (0x20000 + save),
    gradBase := 0x30000, gradPos := 0x30000, gradLimit := 0x31000 })

theorem witness_record_fill : let s := recording 0x1000 0x1000 [(4, loc 0x1000), (5, 3 + 3 * 2 ^ 8 + 8 * 2 ^ 32)]
    ((s.sqAt 0).mcore 0).recording = true ∧ ((s.sqAt 0).mcore 0).armed = true ∧
    completesIn (.mlda 1 4 5) s (fun t => ((t.sqAt 0).mcore 0).logPos == 0x10040 &&
      ((t.sqAt 0).mq.map (fun c => c.log.map (fun e => (e.kind, e.slot, e.sv)))) == [[(1, some 1, false)]] &&
      ((t.sqAt 0).mcore 0).producerOf 1 == some 0) = true := by decide +kernel

theorem witness_record_tile : let s := recording 0x1000 0x1000 []
    completesIn (.tmma 1 2) s (fun t => ((t.sqAt 0).mcore 0).logPos == 0x100C0 &&
      ((t.sqAt 0).mq.map (fun c => c.log.map (fun e => (e.kind, e.slot, e.sv)))) ==
        [[(2, some 1, true), (2, some 2, true), (3, none, false)]] &&
      ((t.sqAt 0).mcore 0).savePos == 0x20100) = true ∧
    (after (.tmma 1 2) (recording 0 0x1000 [])).last = .stopped (.trap 5 0x10080) := by decide +kernel

/-- An entry of a tile opcode that saves nothing. -/
def plainEntry : LogEnt :=
  { addr := 0, word := 0, kind := 3, core := 0, sv := false, sc := false, rdy := false, entry := 0, slot := none
    srcA := none, srcB := none, src := 0, scale := 0, saved := 0, grad := 0, savedC := 0, decl := none, pitch := 0 }

theorem witness_record_entries : ((matrixed []).sqAt 0).mcore 0 = MCore.reset ∧ MCore.reset.recording = false ∧
    (logEntries (some 1) (some 2) plainEntry (matrixed [])).isOk = true ∧
    okAnd (logEntries none none plainEntry (recording 0x1000 0x1000 [])) (fun p => p.1.length == 1) = true ∧
    (0x10000 + 64) ≤ 0x11000 ∧ okAnd ((logEntries none none plainEntry (recording 0 0x1000 [])).map (fun _ => 0)) (fun _ => true) =
      false := by decide +kernel

/-! ### The context engine -/

/-- A square with sequence context 5 open for core 0, broken or empty, and handle registers naming it and context 6. -/
def sequenced (broken : Bool) (l : List (Nat × Nat)) : State :=
  let s := super l
  let s := s.setCur { s.cur with sq := [(0, wd 0x8105), (1, wd 0x8106)] }
  let c : SeqCtx := { SeqCtx.free with holder := some (0, 0), broken := broken, record := wd 0x20000, pool := wd 0x30000, fmt := 1 }
  let k := s.sqAt 0
  s.setSq 0 { k with scs := [(5, c), (6, c)], slots := [(1, ⟨some (0, 0), none, none, [], [], [], false⟩)] }

theorem witness_kopen : okAnd (readTwo (a := 4) (b := 5) (super [(4, 0x20000), (5, 1)])) (fun p =>
      (spanGrant needRW none p.1.toNat 256 p.2.2).ans.isOk) = true ∧
    completesIn (.kopen 0 4 5) (super [(4, 0x20000), (5, 1)]) (fun t =>
      t.cur.sq == [(0, wd 0x8100)] && ((t.sqAt 0).sc 0).holder == some (0, 0) && (t.sqAt 0).kq.length == 1) = true := by
  decide +kernel

theorem witness_context_words : ∃ n f, let s := sequenced true [(4, 1), (5, loc 0x100), (6, 2 ^ 32), (7, 3)]
    handle 0 s = .ok (n, f) ∧ handle 1 s = .ok (6, f) ∧ (appendCmd 2 none s).isOk = true ∧
    ([Instr.kclose 0 4, .kacc 0 4, .ktent 0 4, .kapp 0 5 7, .kpb 0 4 7, .kspl 0 4 6, .kmarg 0 4 62, .krej 0, .kdropt 0,
      .kfork 0 1].all (fun i => completesIn i s (fun t => (t.sqAt 0).kq.length == 1))) = true := by
  refine ⟨5, 1, rfl, rfl, rfl, ?_⟩
  decide +kernel

theorem witness_handle_illegal : ∃ e, let s := super []
    (s.sqReg 0).getLsbD 15 = false ∧ handle 0 s = .error (.trap 1 (illInfo s)) ∧
    e = (sequenced true []).setSq 0 ((super []).sqAt 0) ∧ (e.sqReg 0).getLsbD 15 = true ∧ ((e.sqAt e.sq).sc 5).holder = none ∧
    handle 0 e = .error (.trap 1 (illInfo e)) := ⟨_, rfl, rfl, rfl, rfl, rfl, rfl⟩

/-- Operands of the context engine's loads and queries. -/
def loading (broken : Bool) : State := sequenced broken [(5, 0), (6, loc 0x100)]

theorem witness_kload : handle 0 (loading true) = .ok (5, 1) ∧ ((loading true).sqAt 0).pendingOn 5 = false ∧
    (loading true).holdsSlot 1 = true ∧
    okAnd (loadRegion 0 1 (loading true)).ans (fun p => okAnd (resolvePage (((loading true).sqAt 0).sc 5) 0 false true p.2).ans fun r =>
      (appendCmd 2 p.1 r.2).isOk) = true ∧
    completesIn (.kload 1 0 5) (loading true) (fun t => ((t.sqAt 0).slot 1).decl == some (loadDecl 1)) = true ∧
    completesIn (.kval 1 0 5) (loading true) (fun t => (t.sqAt 0).kq.length == 1) = true :=
  ⟨rfl, by decide +kernel, by decide +kernel, by decide +kernel, by decide +kernel, by decide +kernel⟩

theorem witness_kpfx : legal (loading false) (.kpfx 3 0 6) = true ∧ (localCheck false (loc 0x100) 72 (loading false)).isOk = true ∧
    completesIn (.kpfx 3 0 6) (loading false) (fun t => sget 0 t.cur.g 3 == BitVec.allOnes 64) = true ∧
    completesIn (.kins 3 0 5) (loading false) (fun t => sget 0 t.cur.g 3 == 3) = true ∧
    completesIn (.kpfx 3 0 6) (loading true) (fun t => sget 0 t.cur.g 3 == BitVec.allOnes 64) = true ∧
    completesIn (.kins 3 0 5) (loading true) (fun t => sget 0 t.cur.g 3 == 3) = true := by decide +kernel

/-- Context 5 with page 0 of a pool of 4 pages, whose header holds hash 9, and an index of one set. -/
def indexed : State :=
  let s := loading false
  let k := s.sqAt 0
  let s := s.setSq 0 { k with scs := [(5, { k.sc 5 with head := 0, pages := 1 })] }
  { s with mem := put 0x30000 8 0x40000 (put 0x30008 8 0x50000 (put 0x30010 8 0x60000 (put 0x30018 4 4 (put 0x3001C 4 1
    (put 0x30028 8 0x70000 (put 0x30030 4 1 (put 0x50010 8 9 (put 0x60000 2 1 s.mem)))))))) }

theorem witness_kins : completesIn (.kins 3 0 5) indexed (fun t => sget 0 t.cur.g 3 == 0 && memLe t.mem 0x60000 2 == 2 &&
    memLe t.mem 0x70000 8 == 9) = true := by decide +kernel

theorem witness_kload_page : completesIn (.kload 1 0 5) indexed (fun t => ((t.sqAt 0).kq.map (·.page)) == [some 0]) = true := by
  decide +kernel

theorem witness_kseq : ∃ x t u v y, let s := sequenced false [(4, 0x100), (5, 0x200), (6, 0x300)]
    readReg 4 s = .ok (x, t) ∧ legal s (.kseq 3 4) = true ∧ Completes (.kseq 3 4) s u ∧ sget 0 u.cur.g 3 = 0 ∧
    Completes (.kseq 3 5) s v ∧ readReg 6 s = .ok (y, t) ∧ Traps (.kseq 3 6) s 7 y :=
  ⟨_, _, _, _, _, rfl, rfl, rfl, rfl, rfl, rfl, rfl⟩

/-! ### Collectives -/

/-- The communication context of core 0 in package 0, with cm 2 a communicator of two members. -/
def comm2 : Comm := { Comm.free with
  state := 2, n := 2, chunk := 1, depth := 2, op := 1, dty := 0, wire := 0, ring := 0x20000, credit := 0x21000
  members := [wd (2 * 2 ^ 22), wd (2 ^ 15 + 2 * 2 ^ 22)], scope := 2 }

/-- A state of the communication context with cm 2 as given and some local memory. -/
def collective (c : Comm) (l : List (Nat × Nat)) (mem : List Host.Cell) : State :=
  let s := { base with focus := { base.focus with ctx := 15 }, package := 0, kscope := 0x8786858483828180 }
  let s := s.setCur { s.cur with g := regs l, kstat := 1 }
  let s := s.setCoreCur { s.core with mem := mem }
  s.setSq 0 { s.sqAt 0 with cms := [(2, c)] }

/-- A communicator record at local offset 100H: 2 members, rank 0, depth 2, a chunk of one line, sum of f32. -/
def commRecord : List Host.Cell :=
  put 0x100 8 (2 ^ 32 + 2 ^ 20 + 2 ^ 16) (put 0x108 8 0x20000 (put 0x110 8 0x21000 (put 0x140 8 (2 * 2 ^ 22)
    (put 0x148 8 (2 ^ 15 + 2 * 2 ^ 22) []))))

/-- A state about to make cm 2 a communicator. -/
def communing : State := collective Comm.free [(4, loc 0x100)] commRecord

theorem witness_ccomm : legal communing (.ccomm 2 4) = true ∧ ((communing.sqAt 0).cm 2).state = 0 ∧
    okAnd (collRecord (loc 0x100) (fun w => 64 + 8 * (w / 2 ^ 32 % 2 ^ 10 + 1)) communing) (fun rec =>
      (parseComm rec).putBase == 0 && okAnd (globalSpan needW none 0x20000 256 communing).ans fun u =>
        okAnd (globalSpan needW none 0x21000 8 u).ans fun v => !commBad v.kscope (v.memberOf v.sq 2) rec (parseComm rec)) = true ∧
    completesIn (.ccomm 2 4) communing (fun t => ((t.sqAt 0).cm 2).n == 2) = true := by decide +kernel

/-- A post record at local offset 100H: an all-reduce of 32 f32 from 22000H to 23000H. -/
def postRecord : List Host.Cell := put 0x100 8 2 (put 0x108 8 0x22000 (put 0x110 8 0x23000 (put 0x118 4 32 [])))

/-- A tile-table record at local offset 200H for cm 2, valid, of the same. -/
def entryRecord : List Host.Cell := put 0x200 8 (2 + 2 ^ 4 * 2 + 2 ^ 7 + 2 ^ 22) (put 0x208 8 0x22000 (put 0x210 8 0x23000
  (put 0x218 4 32 [])))

/-- A state about to post. -/
def posting : State := collective comm2 [(4, loc 0x100), (5, 9)] postRecord

theorem witness_cpost : legal posting (.cpost 2 4) = true ∧ okAnd (ownCm 2 posting) (fun c => c.dom == posting.kdom) = true ∧
    okAnd (collRecord (loc 0x100) (fun _ => 64) posting) (fun rec => (parsePost comm2 rec).align.isOk &&
      !(parsePost comm2 rec).fmtBad comm2 && okAnd ((parsePost comm2 rec).sourceGrant posting).ans fun u =>
        okAnd ((parsePost comm2 rec).destGrant 2 u).ans fun v =>
          (appendPost 2 (parsePost comm2 rec).post v).isOk) = true ∧
    completesIn (.cpost 2 4) posting (fun t => ((t.sqAt 0).cm 2).order.length == 1) = true ∧
    completesIn (.cbar 2) posting (fun t => ((t.sqAt 0).cm 2).order.length == 1) = true ∧
    completesIn (.cclose 2) posting (fun t => ((t.sqAt 0).cm 2).order.length == 1) = true := by decide +kernel

/-- A state about to write a tile-table entry. -/
def tabling : State := collective comm2 [(4, loc 0x200), (5, 9), (6, loc 0x300)] (put 0x300 8 2 entryRecord)

theorem witness_ctt : legal tabling (.ctt 4 5) = true ∧ okAnd (collRecord (loc 0x200) (fun _ => 48) tabling) (fun rec =>
      (parseTent comm2 rec).align.isOk && okAnd (entryChecks (loc 0x200) comm2 (parseTent comm2 rec) tabling).ans fun u =>
        (appendC 2 (fun h => .ctt h 9 ((parseTent comm2 rec).entry 2)) u).isOk) = true ∧
    completesIn (.ctt 4 5) tabling (fun t => ((t.sqAt 0).cm 2).order.length == 1) = true ∧
    completesIn (.ctt 6 5) tabling (fun t => ((t.sqAt 0).cm 2).order.length == 1) = true := by decide +kernel

/-- With entry 9 valid. -/
def ticking : State :=
  let s := collective comm2 [(4, 9)] []
  s.setSq 0 { s.sqAt 0 with tents := [(9, { TEntry.invalid with valid := true, cm := 2 })] }

theorem witness_crdy : ((ticking.sqAt 0).tent 9).valid = true ∧ (release ticking).isOk = true ∧
    completesIn (.crdy 4) ticking (fun t => (t.sqAt 0).tent 9 == ((ticking.sqAt 0).tent 9).set) = true ∧
    (after (.crdy 4) posting).last = .stopped (.trap 1 (illInfo posting)) ∧
    (after (.cbar 2) communing).last = .stopped (.trap 1 (illInfo communing)) ∧
    (after (.cclose 2) communing).last = .stopped (.trap 1 (illInfo communing)) := by decide +kernel

/-- A state whose flag word at 20078H is `f`. -/
def flagged (f : Nat) : State :=
  let s := collective comm2 [(4, 0x20000), (5, 3 + 2 ^ 57), (6, 3 + 2 ^ 57 + 2 ^ 60)] []
  { s with mem := put 0x20078 8 f s.mem }

theorem witness_cpoll : okAnd (flagWord false 0x20000 (wd (3 + 2 ^ 57)) (flagged 5)).ans (fun p => flagReached p.1 3) = true ∧
    okAnd (flagWord false 0x20000 (wd (3 + 2 ^ 57)) (flagged 1)).ans (fun p => !flagReached p.1 3) = true ∧
    completesIn (.cpoll 3 4 5) (flagged 5) (fun t => sget 0 t.cur.g 3 == 5) = true ∧
    completesIn (.cpoll 3 4 5) (flagged 1) (fun t => sget 0 t.cur.g 3 == 0) = true ∧
    completesIn (.cpoll 3 4 6) (flagged 5) (fun t => sget 0 t.cur.g 3 == 5) = true ∧
    completesIn (.cwaitf 4 5) (flagged 5) (fun _ => true) = true ∧
    (after (.cwaitf 4 5) (flagged 1)).last = .stopped (.wait (.flag 0x20000 3)) := by decide +kernel

theorem witness_cstat : let i := Instr.cstat 3 4
    completesIn i (collective comm2 [(4, 2)] []) (fun t => (sget 0 t.cur.g 3).toNat % 4 == 2) = true ∧
    completesIn i (collective { comm2 with ovf := true } [(4, 0x1002)] []) (fun t => !((t.sqAt 0).cm 2).ovf) = true ∧
    completesIn i (collective comm2 [(4, 0x109)] []) (fun _ => true) = true ∧
    completesIn i (collective comm2 [(4, 0x200)] []) (fun t => sget 0 t.cur.g 3 == 0) = true ∧
    completesIn i (collective comm2 [(4, 0x300)] []) (fun t => sget 0 t.cur.g 3 == 0) = true ∧
    completesIn (.carb 3 4) (collective comm2 [(4, 0x249)] []) (fun t => (t.sqAt 0).carb == 0x249) = true := by decide +kernel

/-! ### System, memory and host -/

theorem witness_control_registers : let s := super [(4, 0x40)]
    legal s (.mfk 3 26) = true ∧ completesIn (.mfk 3 26) s (fun t => sget 1 t.cur.g 3 == 0) = true ∧
    (after (.mfk 3 28) s).last = .stopped (.trap 1 (illInfo s)) ∧
    completesIn (.mtk 4 4) s (fun t => t.cur.ktvec == 0x40) = true ∧
    (after (.mtk 5 4) s).last = .stopped (.trap 1 (illInfo s)) ∧
    (after (.mfk 3 4) (user [])).last = .stopped (.trap 1 (illInfo (user []))) :=
  ⟨rfl, by decide +kernel, by decide +kernel, by decide +kernel, by decide +kernel, by decide +kernel⟩

theorem witness_quiescence : quiescent (super []) 0 0 = true ∧
    quiescent ((super []).setCtx 0 1 { (super []).ctxAt 0 1 with st := .ready }) 0 0 = false := by decide +kernel

theorem witness_sleep : ∃ x t, let s := { super [(4, 5)] with ktime := 4 }
    readReg 4 s = .ok (x, t) ∧ legal s (.sleep 4) = true ∧ t.cur.slot = 0 ∧ t.cur.rx0.units = [] ∧ t.isComm = false ∧
    exec (.sleep 4) s = .next { backOut s (.sleeping x) with last := .held } ∧
    Completes (.sleep 4) { super [(4, 5)] with ktime := 5 } { super [(4, 5)] with ktime := 5 } :=
  ⟨_, _, rfl, rfl, rfl, rfl, rfl, rfl, rfl⟩

/-- A task's context whose slot is at 3000H, with `w` in the slot's first word. -/
def slotted (w : Nat) : State :=
  let s := super [(4, 0)]
  { s.setCur { s.cur with slot := 0x3000 } with mem := put 0x3000 8 w frames }

theorem witness_sleep_slot : okAnd (hvRead 0x3000 8 (slotted 5)).ans (fun p => ofBytes p.1 == 5 &&
      (hvWrite 0x3000 (leBytes 8 4) p.2).ans.isOk) = true ∧
    completesIn (.sleep 4) (slotted 5) (fun t => memLe t.mem 0x3000 8 == 4) = true ∧
    (after (.sleep 4) (slotted 4)).last = .held := by decide +kernel

theorem witness_repart : ∃ x t, let s := super [(4, 1)]
    readReg 4 s = .ok (x, t) ∧ legal s (.repart 3 4) = true ∧ s.focus.ctx = 0 ∧ quiescent t 0 0 = true ∧
    completesIn (.repart 3 4) s (fun u => u.core.kmode && u.core.began == u.cycle + 1) = true ∧
    (after (.repart 3 4) (s.setCtx 0 1 { s.ctxAt 0 1 with st := .ready })).last = .stopped (.wait .quiesce) ∧
    true ≠ s.core.kmode := ⟨_, _, rfl, rfl, rfl, rfl, by decide +kernel, by decide +kernel, by decide⟩

theorem witness_sleep_unit : ∃ x t, let s := withUnit
    readReg 56 s = .ok (x, t) ∧ legal s (.sleep 56) = true ∧ t.cur.slot = 0 ∧ s.cur.rx0.units ≠ [] ∧
    Completes (.sleep 56) s t := ⟨_, _, rfl, rfl, rfl, by decide, rfl⟩

theorem witness_repart_elsewhere : let s := { super [] with focus := { base.focus with ctx := 1 } }
    let t := s.setCur { s.cur with kstat := 1 }
    legal t (.repart 3 4) = true ∧ t.focus.ctx ≠ 0 ∧ Traps (.repart 3 4) t 1 (illInfo t) := ⟨rfl, by decide, rfl⟩

/-- Segment 0 in pages of 2 MiB, the first of them mapped. -/
def paged (l : List (Nat × Nat)) : State :=
  { super l with mem := put 0x2000 8 0x3001 (put 0x3000 8 35 frames) }

theorem witness_pgmig : okAnd (pageHome 0x5000 (paged [])) (fun h => h == some 0) = true ∧
    completesIn (.pgmig 3 4 5) (paged [(4, 0x5000), (5, 0x200000)]) (fun t =>
      sget 1 t.cur.g 3 == 0 && (t.district 0).migs.length == 1) = true ∧
    completesIn (.pgmig 3 4 5) (paged [(4, 0x5000), (5, 0x201000)]) (fun t => sget 0 t.cur.g 3 == 3) = true ∧
    okAnd (pageHome (wd (loc 0)) (paged [])) (fun h => h == none) = true ∧
    completesIn (.pgmig 3 4 5) (paged [(4, loc 0), (5, 0)]) (fun t => sget 0 t.cur.g 3 == 2) = true := by decide +kernel

theorem witness_pgheat : ∀ n ∈ [0, 1, 2, 3], completesIn (.pgheat 3 4 5) (paged [(4, 0), (5, n)]) (fun _ => true) = true := by
  decide +kernel

theorem witness_shoot : ∃ u, let s := super [(4, 0x1000), (5, 1), (6, 0x1004)]
    legal s (.shoot 4 5) = true ∧ Traps (.shoot 6 5) s 3 0x1004 ∧ Traps (.shoot 4 62) s 7 0 ∧ release s = .ok s ∧
    Completes (.shoot 4 5) s u := ⟨_, rfl, rfl, rfl, rfl, rfl⟩

theorem witness_pgref : ∃ u v, let s := super [(4, 0x1000), (5, 0), (6, 0x10000)]
    (s.dom? 0).isSome = true ∧ legal s (.pgref 3 4 5) = true ∧ release s = .ok s ∧ Completes (.pgref 3 4 5) s u ∧
    Completes (.pgref 3 4 6) s v ∧ v.aborted.length = 0 := ⟨_, _, rfl, rfl, rfl, rfl, rfl, rfl⟩

theorem witness_pgref_aborts : ∃ v, let s := { super [(4, 0x1000), (6, 0x10000)] with pageWaits := [⟨3, 0, 0x1000⟩] }
    Completes (.pgref 3 4 6) s v ∧ v.aborted = [⟨3, 0, 0x1000⟩] ∧ v.pageWaits = [] := ⟨_, rfl, rfl, rfl⟩

theorem witness_plbw : completesIn (.plbw 3 4 5) (super [(4, 0), (5, 3)]) (fun t =>
    sget 0 t.cur.g 3 == 0x8007 && memLe t.mem 0x11000 2 == 3) = true := by decide +kernel

theorem witness_domset : completesIn (.domset 3 4 5) { super [(4, 7), (5, 0x3000)] with mem := put 0x3040 4 64 frames }
      (fun t => (t.dom? 7).isSome) = true ∧
    completesIn (.domset 3 4 5) { super [(4, 0xFFFF), (5, 0x3000)] with mem := put 0x3000 8 0x1000 (put 0x3014 4 1 frames) }
      (fun t => t.pkg.root == 0x1000) = true ∧
    completesIn (.domset 3 4 62) ((super [(4, 0)]).setCtx 0 1 { base.ctxAt 0 1 with st := .ready }) (fun t => sget 0 t.cur.g 3 == 1) = true ∧
    completesIn (.domset 3 4 62) { super [(4, 7)] with domains := base.domains ++ [(7, some Domain.reset)] }
      (fun t => (t.dom? 7).isNone) = true := by decide +kernel

theorem witness_rowret : (Config.rowInRange 8 = false → rowCode base 8 = 4) ∧ (Config.rowInRange 8 = true → rowCode base 8 = 0) := by
  constructor <;> intro h <;> unfold rowCode <;> rw [h] <;> rfl

theorem witness_irq : ∃ u v, let s := super [(4, 0), (5, 9), (6, 7), (7, 0x10000)]
    legal s (.irq 4 5) = true ∧ Traps (.irq 6 5) s 2 7 ∧ Traps (.irq 4 62) s 7 0 ∧ release s = .ok s ∧
    Completes (.irq 4 5) s u ∧ Completes (.irq 7 5) s v := ⟨_, _, rfl, rfl, rfl, rfl, rfl, rfl⟩

/-- A supervisor context of domain 0 beside a domain 7. -/
def resetting (l : List (Nat × Nat)) (b : Bar) : State :=
  let s := { super l with domains := base.domains ++ [(7, some Domain.reset)] }
  s.setBar 7 b

theorem witness_dreset : let s := resetting [(4, 7), (5, 0), (6, 9)] (base.bar 7)
    legal s (.dreset 3 4) = true ∧ 0 ∉ (s.bar 7).joined ∧ (s.bar 7).resetting = none ∧ (s.dom? 7).isSome = true ∧
    (after (.dreset 3 4) s).last = .held ∧ Traps (.dreset 3 5) s 1 (illInfo s) ∧ Traps (.dreset 3 6) s 2 9 :=
  ⟨rfl, by decide, rfl, rfl, by decide +kernel, rfl, rfl⟩

theorem witness_dreset_ends :
    completesIn (.dreset 3 4) (resetting [(4, 7)] { base.bar 7 with resetting := some 0 }) (fun t =>
      sget 1 t.cur.g 3 == 0 && (t.bar 7).resetting.isNone) = true ∧
    completesIn (.dreset 3 4) (resetting [(4, 7)] { base.bar 7 with joined := [0] }) (fun t => sget 0 t.cur.g 3 == 1) = true := by
  decide +kernel

theorem witness_qosp : ∃ u, let s := super [(4, 0), (5, 7)]
    legal s (.qosp 3 4) = true ∧ Completes (.qosp 3 4) s u ∧ Traps (.qosp 3 5) s 12 7 := ⟨_, rfl, rfl, rfl⟩

/-! ### Migration of a continuation -/

/-- A task's context that may migrate. -/
def migrating : State :=
  let s := user [(4, 0x3000)]
  { s.setCur { s.cur with slot := 0x4000, task := 1 } with mem := frames }

theorem witness_migr : legal migrating (.migr 4) = true ∧ migrating.cur.packetOpen = false ∧
    okAnd (vsyncWait migrating) (fun v => okAnd (byteGrant needR none 0x3000 0x3000 v).ans fun w => okAnd (release w) fun r =>
      okAnd (hvRead r.cur.slot.toNat 8 r).ans fun b => okAnd (saveCont 3 (ofBytes b.1 % 2 == 1) b.2).ans fun u =>
        (appendCmd 0 none u).isOk) = true ∧
    completesIn (.migr 4) migrating (fun t => t.cur.st == .idle && (t.sqAt 0).tq.length == 1) = true := by decide +kernel

/-! ### Hardware steps -/

theorem witness_hardware : (Instr.kpreqSet 5 3).isEvent = true ∧ partExists (.kpreqSet 5 3) = true ∧
    (Instr.kpreqSet 5000 3).isEvent = true ∧ partExists (.kpreqSet 5000 3) = false ∧
    exec (.kpreqSet 5000 3) base = .fault .noSuchPart := ⟨rfl, rfl, rfl, rfl, rfl⟩

theorem witness_context_step : contextStep (.kaccExecute 0 5) =
      some (0, 5, fun i => match i with | .kacc .. => true | _ => false) ∧
    completesIn (.kaccExecute 0 5) (after (.kacc 0 4) (sequenced true [(4, 1)])) (fun t => (t.sqAt 0).kq.isEmpty) = true :=
  ⟨rfl, by decide +kernel⟩

/-- `base` with the state of context 1 of core 0 changed. -/
def inState (st : CtxState) : State := base.setCtx 0 1 { base.ctxAt 0 1 with st := st }

/-- `inState` with a wake message on its way for request 5 on page 1000H. -/
def messaged (req : Nat) : State := { inState (.dropped 0x1000 2 req) with wakeMsgs := [⟨0, 1, 0x1000, 5⟩] }

theorem witness_wakings : ((inState (.sleeping 3)).ctxAt 0 1).st = .sleeping 3 ∧
    completesIn (.sleepDeadline 0 1) { inState (.sleeping 3) with ktime := 3 } (fun t => (t.ctxAt 0 1).st == .ready) = true ∧
    completesIn (.memoryReply 0 1) (inState (.waiting .vector)) (fun t => (t.ctxAt 0 1).st == .completing .vector) = true ∧
    completesIn (.homeRecall 0 1) (inState (.waiting (.recall 9))) (fun t => (t.ctxAt 0 1).st == .completing (.recall 9)) = true ∧
    completesIn (.packetHeaderAccept 0 1) (inState (.waiting (.header 0 2 0 false 0)))
      (fun t => (t.ctxAt 0 1).st == .completing (.header 0 2 0 false 0)) = true ∧
    completesIn (.repartSwitch 0) (base.setCtx 0 0 { base.ctxAt 0 0 with st := .waiting .quiesce })
      (fun t => (t.ctxAt 0 0).st == .completing .quiesce) = true ∧
    completesIn (.faultRingRetry 0) base (fun _ => true) = true := by decide +kernel

theorem witness_wake_messages : completesIn (.wakeMessage 0 1 0x1000) (messaged 5) (fun t =>
      (t.ctxAt 0 1).st == .ready && t.wakeMsgs == []) = true ∧
    completesIn (.wakeMessage 0 1 0x1000) (messaged 6) (fun t =>
      (t.ctxAt 0 1).st == .dropped 0x1000 2 6 && t.wakeMsgs == []) = true ∧
    completesIn (.wakeMessage 0 1 0x2000) (messaged 5) (fun t => t.wakeMsgs.length == 1) = true := by decide +kernel

/-- A context blocked on rx0 with a unit on its way. -/
def arriving : State := (inState (.rxBlocked 0)).setCtx 0 1
  { (inState (.rxBlocked 0)).ctxAt 0 1 with rx0 := { (base.ctxAt 0 1).rx0 with flight := [unit1] } }

theorem witness_unit_arrives : ((arriving.ctxAt 0 1).rx 0).flight = [unit1] ∧
    completesIn (.portUnitArrival 0 1 0) arriving (fun t => (t.ctxAt 0 1).st == .ready && (t.ctxAt 0 1).rx0.units == [unit1]) = true :=
  ⟨rfl, by decide +kernel⟩

/-- With a migration under way. -/
noncomputable def moving : State := after (.migrationStart 0) (after (.pgmig 3 4 5) (paged [(4, 0x5000), (5, 0x200000)]))

theorem witness_migration : ((moving.migHead 0).map (fun p => p.1.running && decide (128 * p.1.next < p.1.size))) = some true ∧
    moving.owned = [] ∧ completesIn (.migrationLineCopy 0) moving (fun t => ((t.district 0).migs.map (·.next)) == [1]) = true := by
  decide +kernel

theorem witness_memory_steps : frameValid (128 * 32) = true ∧
    completesIn (.scrubPass 32 true) base (fun t => t.poison.contains 32) = true ∧
    completesIn .heatPeriodHalving base (fun _ => true) = true ∧ completesIn (.flitCrcRetry 3) base (fun _ => true) = true ∧
    completesIn (.linkPortFailure 3) base (fun _ => true) = true ∧ completesIn .packageReset base (fun t => t.mem == []) = true ∧
    completesIn (.lrtail 0 5) { base with ready := [(0, 1), (2, 0x10011)] } (fun t => (t.bar 0).lrtail.toNat == 5) = true ∧
    completesIn (.corePowerGating 2) base (fun t => (t.coreAt 2).gated) = true :=
  ⟨rfl, by decide +kernel, by decide +kernel, by decide +kernel, by decide +kernel, by decide +kernel, by decide +kernel,
    by decide +kernel⟩

/-! ### Frames -/

theorem witness_register_frame : ∃ u, regWord (.add 3 4 5 0) = some (some 3) ∧ exec (.add 3 4 5 0) (user [(4, 7)]) = .next u ∧
    u.last = .done ∧ ∀ f, (some 3 : Option (BitVec 6)) = some f → f.toNat ≠ 58 ∧ f.toNat ≠ 59 :=
  ⟨_, rfl, rfl, rfl, fun f h => by cases h; decide⟩

/-- A load and a store of global memory. -/
def stores : State := user [(4, 0x8000), (5, 7)]

theorem witness_memory_frame : loadWord (.ldD 3 4 0) = some 3 ∧ completesIn (.ldD 3 4 0) stores (fun _ => true) = true ∧
    storeWord (.stD 5 4 0) stores = some (0x8000, 8, stores) ∧ completesIn (.stD 5 4 0) stores (fun _ => true) = true ∧
    isLocal 0x8000 = false ∧ okAnd (globalGrant .write 0x8000 8 stores).ans (fun e =>
      (e.2.core.stashFor (0x8000 / 128) e.2.kdom).isNone && okAnd (globalPlace e.1 .write 0x8000 e.2).ans fun p =>
        p.1 == 0x8000) = true ∧ MemOk stores ∧ Settled stores :=
  ⟨rfl, by decide +kernel, rfl, by decide +kernel, rfl, by decide +kernel, memOk_user _, by decide +kernel, fun _ h => by cases h⟩

/-- The store goes to the entry that the core has for the line, and a load of what another core's entry holds has it given
back. -/
theorem witness_stash_frame : let s := (stashing 0 7).setCur { (stashing 0 7).cur with g := regs [(4, 0x3000), (5, 9)] }
    (storeWord (.stD 5 4 0) s).isSome = true ∧ okAnd (globalGrant .write 0x3000 8 s).ans (fun e =>
      (e.2.core.stashFor (0x3000 / 128) e.2.kdom).isSome) = true ∧
    completesIn (.stD 5 4 0) s (fun u => memGet u.mem 0x3000 == 0 && memGet u.core.mem 0x14000 == 9) = true ∧
    (let r := (stashing 1 7).setCur { (stashing 1 7).cur with g := regs [(4, 0x3000)] }
     completesIn (.ldD 3 4 0) r (fun u => sget 0 u.cur.g 3 == 7 && memGet u.mem 0x3000 == 7) = true) := by decide +kernel

theorem witness_local_store : ∃ v, storeWord (.stD 5 4 0) (user [(4, loc 0x100), (5, 7)]) =
      some (loc 0x100, 8, user [(4, loc 0x100), (5, 7)]) ∧
    exec (.stD 5 4 0) (user [(4, loc 0x100), (5, 7)]) = .next v ∧ v.last = .done ∧ isLocal (loc 0x100) = true :=
  ⟨_, rfl, rfl, rfl, rfl⟩

/-! ### What the engines' steps do -/

/-- The commands of square 0's transfer queue have begun, with the descriptor of their issue. -/
def begunAll (s : State) : State :=
  s.setSq 0 { s.sqAt 0 with tq := (s.sqAt 0).tq.map (fun c => { c with begun := true, desc2 := c.desc }) }

/-- A hardware step from a state: what the state after it satisfies. -/
def stepGives (i : Instr) (s : State) (p : State → Bool) : Bool := completesIn i s p

theorem witness_copy_turn : let s := begunAll copied
    (s.sqAt 0).turnOf = some 2 ∧ ((s.sqAt 0).channelHead 2).map (fun c => (c.begun, c.desc2.isSome, c.kind == .copy, c.units.length)) =
      some (true, true, true, 2) ∧
    stepGives (.copyUnitDelivery 0 2) s (fun t => ((t.sqAt 0).chan 2).delivered == 1 && (t.sqAt 0).tq.length == 1) = true ∧
    stepGives (.copyUnitDelivery 0 3) s (fun t => ((t.sqAt 0).chan 2).delivered == 0) = true ∧ (s.sqAt 0).turnOf ≠ some 3 := by
  decide +kernel

theorem witness_copy_completes : let s := after (.copyUnitDelivery 0 2) (begunAll copied)
    stepGives (.copyUnitDelivery 0 2) s (fun t => ((t.sqAt 0).chan 2).delivered == 2 && (t.sqAt 0).tq.isEmpty &&
      ((t.sqAt 0).seqno 0 0).completed == 1) = true ∧ ∀ x ∈ (s.sqAt 0).tq, x.dead = false := by decide +kernel

/-- `gathering` with its index array 0, 1 and 99 in global memory, issued and begun. -/
def gathered (out : Bool) : State :=
  let s := gathering
  let s := s.setCore 0 { s.coreAt 0 with mem := put 0x200 8 0xA000 gatherRecord }
  let s := { s with mem := put 0xA010 4 1 (put 0xA020 4 99 s.mem) }
  begunAll (after (if out then .scat 3 1 4 else .gath 3 1 4) s)

theorem witness_gather_element : ((gathered false).sqAt 0).turnOf = some 2 ∧
    stepGives (.gatherElementDelivery 0 2) (gathered false) (fun t => ((t.sqAt 0).chan 2).delivered == 1 &&
      ((t.sqAt 0).chan 2).oor == 0) = true ∧
    stepGives (.gatherElementDelivery 0 2)
      (after (.gatherElementDelivery 0 2) (after (.gatherElementDelivery 0 2) (gathered false)))
      (fun t => ((t.sqAt 0).chan 2).delivered == 3 && ((t.sqAt 0).chan 2).oor == 1 && (t.sqAt 0).tq.isEmpty) = true := by
  decide +kernel

/-- The scatter at its last element, whose index is out of range. -/
def scattered : State :=
  let s := gathered true
  s.setSq 0 { s.sqAt 0 with tq := (s.sqAt 0).tq.map (fun c => { c with done := 2 }) }

theorem witness_scatter_element : ((gathered true).sqAt 0).turnOf = some 2 ∧
    ((gathered true).sqAt 0).tq.map (fun c => okAnd ((match c.index with
        | some h => indexValue c h 0 (gathered true)
        | none => .error (.abandon none)).mapError (fun _ => Stop.pool)) (fun p => p.1 == 0)) = [true] ∧
    stepGives (.scatterElementWrite 0 2) scattered (fun t => ((t.sqAt 0).chan 2).oor == 1 && (t.sqAt 0).tq.isEmpty) = true := by
  decide +kernel

/-- A fill of slot 1 in the queue. -/
def fillQueued : State := after (.mlda 1 4 5) filling

theorem witness_fill_executes : ((fillQueued.sqAt 0).mq.map (fun m => (m.hdr.lane, m.kind == .fill, m.begun, m.decl.isSome, m.log.isEmpty,
      (fillQueued.sqAt 0).mayBegin m))) = [(0, true, false, true, true, true)] ∧
    stepGives (.fillExecute 0 0 0) fillQueued (fun t => (t.sqAt 0).mq.isEmpty && ((t.sqAt 0).slot 1).held == some ⟨1, 4, 4, 0⟩ &&
      ((t.sqAt 0).slot 1).data.length == 16) = true := by decide +kernel

/-- Two fills of slot 1, the second behind the first. -/
def fillBehind : State :=
  let s := fillQueued
  after (.mlda 1 4 5) (s.setCur filling.cur)

theorem witness_fill_waits : ((fillBehind.sqAt 0).mq.map (fun m => (fillBehind.sqAt 0).mayBegin m)) = [true, false] ∧
    stepGives (.fillExecute 0 0 1) fillBehind (fun t => (t.sqAt 0).mq.length == 2) = true := by decide +kernel

/-- A tile opcode in the queue, whose operands are held. -/
def tileQueued : State :=
  let s := matrixed []
  let slot : MSlot := ⟨some (0, 0), some ⟨1, 4, 4, 0⟩, some ⟨1, 4, 4, 0⟩, List.replicate 16 0x3F80, [], [], false⟩
  after (.tmma 1 2) (s.setSq 0 { s.sqAt 0 with slots := [(1, slot), (2, slot)] })

theorem witness_tile_starts : (readyTile tileQueued 0 0).isSome = true ∧ (∀ j, j < 8 → j ≠ 0 → readyTile tileQueued 0 j = none) ∧
    (tileQueued.sqAt 0).active = none ∧
    stepGives (.tileOpcodeStart 0) tileQueued (fun t => (t.sqAt 0).active.isSome && (t.sqAt 0).arbP == 1) = true ∧
    stepGives (.tileOpcodeStart 0) base (fun t => (t.sqAt 0).active.isNone) = true ∧
    (∀ l, l < 8 → readyTile base 0 l = none) := by decide +kernel

theorem witness_tile_completes : let s := after (.tileOpcodeStart 0) tileQueued
    (s.sqAt 0).active.isSome = true ∧ ((s.sqAt 0).mq.map (fun m => m.rdy.isNone && m.log.isEmpty)) = [true] ∧
    stepGives (.tileOpcodeStart 0) s (fun t => (t.sqAt 0).mq.length == 1) = true ∧
    (∃ m t, (s.sqAt 0).mq = [m] ∧ tileStep 0 m .mma s = .ok t) := by
  refine ⟨by decide +kernel, by decide +kernel, by decide +kernel, _, _, rfl, rfl⟩

theorem witness_mrev_empty : let s := after (.mrev 6) reversible
    ((s.sqAt 0).mq.map (fun m => (m.kind == .mrev, m.entries, (s.sqAt 0).mayBegin m))) = [(true, 0, true)] ∧
    stepGives (.mrevExecute 0 0) s (fun t => (t.sqAt 0).mq.isEmpty) = true := by decide +kernel

/-- An open communicator. -/
def openComm : Comm := { comm2 with state := 1, connected := true }

/-- A chunk of one line of zeros. -/
def chunk1 (k : PostKind) (inject : Bool) : Chunk :=
  { kind := k, count := 1, seq := 1, phase := 0, origin := 0, seg := 0, hop := 0, index := 0, first := 0, last := true
    wire := 0, inject := inject, peer := 0, dst := 0, stamp := 1, lane := 0, lines := [⟨List.replicate 30 0, true, false⟩] }

/-- A message for cm 2 of this square. -/
def message (b : CUnit) : CMsg := ⟨2, 0, 0, 2, b⟩

/-- cm 2 as given, with messages that have come. -/
def incoming (c : Comm) (ms : List CMsg) : State :=
  let s := collective c [] []
  s.setSq 0 { s.sqAt 0 with cin := ms }

theorem witness_post_start : let s := after (.cpost 2 4) posting
    ((s.sqAt 0).cm 2).state = 2 ∧ ((s.sqAt 0).cm 2).run = none ∧
    (((s.sqAt 0).cm 2).nextPost.map (fun p => (p.1, p.2.entry))) = some (0, none) ∧
    stepGives (.postStart 0 2) s (fun t => ((t.sqAt 0).cm 2).order.isEmpty && ((t.sqAt 0).cm 2).run.isNone) = true ∧
    stepGives (.postStart 0 2) posting (fun t => ((t.sqAt 0).cm 2).order.isEmpty) = true ∧
    (posting.sqAt 0).cm 2 = comm2 ∧ comm2.nextPost = none := by decide +kernel

theorem witness_post_runs : let s := after (.cpost 2 4) (collective openComm [(4, loc 0x100), (5, 9)] postRecord)
    ((s.sqAt 0).cm 2).state = 1 ∧ stepGives (.postStart 0 2) s (fun t => ((t.sqAt 0).cm 2).run.isSome) = true := by decide +kernel

theorem witness_connect : let s := incoming { openComm with connected := false } [message .connect]
    ((nextControl 0 2 s).map (fun p => p.1)) = some .connect ∧
    stepGives (.connectArrival 0 2) s (fun t => ((t.sqAt 0).cm 2).connected && (t.sqAt 0).cin.isEmpty) = true := by decide +kernel

theorem witness_chunk_arrives : let s := incoming openComm [message (.chunk (chunk1 .ring false))]
    okAnd ((landChunk 0 2 (openComm.lander true (chunk1 .ring false)) (chunk1 .ring false) (incoming openComm [])).mapError
      (fun _ => Stop.pool)) (fun p => p.1 == 0) = true ∧
    stepGives (.chunkArrival 0 2) s (fun t => ((t.sqAt 0).cm 2).held == [1]) = true ∧
    stepGives (.chunkArrival 0 2) (incoming openComm []) (fun t => ((t.sqAt 0).cm 2).held == []) = true := by decide +kernel

/-- cm 2 with a chunk to send. -/
def outgoing : State := incoming { openComm with queue := [chunk1 .ring true] } []

theorem witness_chunk_sends : (outgoing.nextChunk 0).1 = some (2, chunk1 .ring true) ∧
    ((outgoing.sqAt 0).cm 2).candidate = some (chunk1 .ring true) ∧ outgoing.candidates 0 2 = [] ∧
    stepGives (.chunkSend 0) outgoing (fun t => ((t.sqAt 0).cm 2).queue.isEmpty && ((t.sqAt 0).cm 2).chunks == 1) = true ∧
    (base.nextChunk 0).1 = none ∧
    ((incoming { openComm with queue := [chunk1 .ring true], vc := 2 } []).candidates 0 2).length = 1 := by decide +kernel

/-- A post that has all its lines, of a tile-table entry if `e` names one. -/
def finished (e : Option Nat) : Running :=
  { post := { kind := .allReduce, root := 0, src := 0x22000, dst := 0x23000, elems := 32, peers := [], acc := false, wire := 0, op := 1
              dty := 0, chunk := 1, entry := e, count := 1, ord := 0, seqd := none }
    own := [], len := 1, placed := 1, need := 1, pending := 0 }

/-- cm 2 with a post that runs, whose entry 9 fires if it is of one. -/
def runningPost (e : Option Nat) (st : Nat) : State :=
  let s := incoming { openComm with run := some (finished e) } []
  s.setSq 0 { s.sqAt 0 with tents := [(9, { TEntry.invalid with valid := true, cm := 2, st := st })] }

theorem witness_post_completes : openComm.runDone (finished none) = true ∧
    openComm.runDone { finished none with pending := 1 } = false ∧
    stepGives (.postComplete 0 2) (runningPost none 0) (fun t => ((t.sqAt 0).cm 2).run.isNone) = true ∧
    stepGives (.postComplete 0 2) (incoming openComm []) (fun t => ((t.sqAt 0).cm 2).run.isNone) = true := by decide +kernel

theorem witness_firing_completes : ((runningPost (some 9) 2).sqAt 0).firingIn 9 = some 2 ∧
    ((runningPost none 2).sqAt 0).firingIn 9 = none ∧
    stepGives (.firingComplete 0 9) (runningPost (some 9) 2) (fun t => ((t.sqAt 0).cm 2).run.isNone &&
      ((t.sqAt 0).tent 9).fire == 1 && ((t.sqAt 0).tent 9).st == 0) = true ∧
    stepGives (.firingComplete 0 9) (runningPost (some 9) 3) (fun t => ((t.sqAt 0).tent 9).st == 1) = true := by decide +kernel

/-! ### What the dispatcher's steps do -/

/-- A domain with a pool of two slots at 4000H, a record at 3000H that starts at local 8000H, and core `c`'s deque as given. -/
def dispatching (c : Nat) (dq : List Word) : State :=
  let s := { base with
    domains := [(0, some { Domain.reset with rights := 0x11000, segs := 1, pool := 0x4000, slots := 2 })]
    mem := put 0x3000 8 (loc 0x8000) (put 0x3008 8 77 frames) }
  s.setCore c { s.coreAt c with deque := dq }

/-- One domain leaves the sweep no choice. -/
theorem pick_one (s : State) (d : Nat) : pickDomain s [d] = some d := by
  simp [pickDomain, Nat.mod_one]

/-- A started task is at its record's program counter, with its argument in g1. -/
def startsTask (s : State) : Bool :=
  match startTask 0 0 0 0x3000 s with
  | .ok u => (u.ctxAt 0 0).st == .ready && (u.ctxAt 0 0).pc == wd (loc 0x8000) && sget 0 (u.ctxAt 0 0).g 1 == 77 &&
      (u.ctxAt 0 0).slot == 0x4000
  | .error _ => false

theorem witness_dispatch : mayDispatch (dispatching 0 [0x3000]) 0 0 = true ∧ mayDispatch (dispatching 0 []) 0 1 = false ∧
    takeEntry 0 0 (dispatching 0 [0x3000]) = some (0, 0x3000) ∧ startsTask (dispatching 0 [0x3000]) = true ∧
    (match needBytes 0x3000 128 (dispatching 0 [0x3000]) with
      | .ok (b, v) => recOk b && (v.dom? (recDom b)).any (fun d => match freeSlot v d with
        | .ok slot => slot == 0x4000
        | .error _ => false)
      | .error _ => false) = true := by
  refine ⟨by decide +kernel, by decide +kernel, ?_, by decide +kernel, by decide +kernel⟩
  have h : mayDispatch (dispatching 0 [0x3000]) 0 0 = true := by decide +kernel
  have h2 : (entryDomains (dispatching 0 [0x3000]) (((dispatching 0 [0x3000]).coreAt 0).deque.filter
      (entryReady (dispatching 0 [0x3000]) 0 0))).filter (fun d => !(dispatching 0 [0x3000]).underReset d) = [0] := by
    decide +kernel
  unfold takeEntry
  rw [if_pos h]
  simp only [h2, pick_one, Option.bind_eq_bind, Option.bind_some]
  decide +kernel

theorem witness_steal : let s := dispatching 1 [0x3000]
    mayDispatch s 0 0 = true ∧ (s.coreAt 0).steal.getLsbD 0 = true ∧ victims s 0 = [1, 2, 3, 4, 5, 6, 7] ∧
    bestEntry s 0 (stealable s 0 0 1) true (s.coreAt 1).deque = some (0, 0x3000) ∧
    ((s.drawn.dequeDrop 1 0).pushBottom 0 0x3000).isSome = true ∧
    pickDomain s [0] = some 0 := ⟨by decide +kernel, by decide +kernel, by decide +kernel, by decide +kernel, by decide +kernel, pick_one _ _⟩

/-- Context 1 of core 0, ready, with a request to pre-empt it live, and a register. -/
def preemptible : State :=
  let s := base.setCtx 0 1 { base.ctxAt 0 1 with st := .ready, g := [(3, 55)], pc := wd (loc 0x8000) }
  s.setCore 0 { s.coreAt 0 with kpreq := 2, kplive := 2 }

/-- Context 1 of core 0, pre-empted, with a register in its save area. -/
def stopped : State :=
  let s := base.setCtx 0 1 { base.ctxAt 0 1 with st := .preempted }
  s.setCore 0 { s.coreAt 0 with kpreq := 2, mem := put (0x6F000 + 0x1100 + 24) 8 55 [] }

theorem witness_preempt : mayPreempt (preemptible.coreAt 0) 1 = true ∧ mayPreempt (base.coreAt 0) 1 = false ∧
    stepGives (.preemptStop 0 1) preemptible (fun t => (t.ctxAt 0 1).st == .preempted) = true ∧
    stepGives (.kpreqClear 0 1) preemptible (fun t => (t.coreAt 0).kpreq == 0 && (t.ctxAt 0 1).st == .ready) = true := by
  decide +kernel

theorem witness_reload : (stopped.ctxAt 0 1).vq = [] ∧ stepGives (.kpreqClear 0 1) stopped (fun t => (t.ctxAt 0 1).st == .ready &&
    sget 0 (t.ctxAt 0 1).g 3 == 55) = true := by decide +kernel

/-- A launch ring of four entries at 5000H whose first entry names record `p`. -/
def launching (p : Nat) : State :=
  let s := dispatching 0 []
  let s := { s with mem := put 0x5000 8 p (put 0x5008 8 0x6000 s.mem), ready := [(0, 1), (2, 0x10011)] }
  s.setBar 0 { s.bar 0 with lrbase := 0x5000, lrsize := 4, lrtail := 1 }

theorem witness_launch : ((launching 0x3000).bar 0).lrhead ≠ ((launching 0x3000).bar 0).lrtail ∧
    (launching 0x3000).hw = [] ∧ (launching 0x3000).underReset 0 = false ∧
    (match launchCheck 0 0x3000 (launching 0x3000) with
      | .good r u => (launch 0 0x3000 0x6000 r u).isSome
      | _ => false) = true ∧
    stepGives (.launchRingEntry 0) (launching 0x3000) (fun t => (t.bar 0).lrhead == 1 && t.graphs.length == 1) = true ∧
    stepGives (.launchRingEntry 0) (launching 0x3001) (fun t => (t.bar 0).lrhead == 1 && memLe t.mem 0x6000 8 == 2 ^ 64 - 1) = true ∧
    stepGives (.launchRingEntry 0) base (fun t => (t.bar 0).lrhead == 0) = true := by decide +kernel

theorem witness_power_up : stepGives (.powerUp true) { base with fw := { base.fw with powered := false } }
      (fun t => t.fw.powered && t.fw.listGood) = true ∧ base.fw.powered = false := by decide +kernel

/-- A package whose image runs and whose district 0 is ready. -/
def powered : State := { base with ready := [(2, 1)], fw := { base.fw with powered := true, recovery := false } }

theorem witness_part_ready : mayReport powered 64 = true ∧ mayReport base 64 = false ∧
    stepGives (.partReady 64) powered (fun t => t.squareReady 0) = true := by decide +kernel

/-! ### Errors, host writes and more frames -/

theorem witness_scrub : scrubPlace 32 = some (.phys 32) ∧ scrubPlace (2 ^ 40 + 4096 * 3 + 9) = some (.loc 3 9) ∧
    scrubPlace (2 ^ 41 + 64 * 5 + 7) = some (.slot 5 7) ∧ scrubPlace (2 ^ 42 + 4 * 1023 + 3) = some (.table 1023 3) ∧
    scrubPlace (2 ^ 42 + 2 ^ 12) = none ∧
    stepGives (.scrubPass (2 ^ 42 + 9) false) base (fun t => (t.district 0).corrected == 1) = true ∧
    stepGives (.scrubPass (2 ^ 40 + 4096 * 3 + 9) true) base (fun t => (t.coreAt 3).lpoison == [9] &&
      (t.district 0).uncorrected == 1) = true ∧
    stepGives (.scrubPass (2 ^ 40 + 4096 * 3 + 9) false) base (fun t => (t.coreAt 3).lpoison == [] &&
      (t.district 0).corrected == 1) = true ∧
    stepGives (.scrubPass (2 ^ 41 + 7) true) base (fun t => (t.district 0).uncorrected == 1) = true := by decide +kernel

/-- `base` with its host interface ready. -/
def hosted : State := { base with ready := [(0, 1), (2, 0x10011)] }

theorem witness_host_write : (hosted.readyWord 2).getLsbD 16 = true ∧ isGlobal 0x6000 = true ∧ hosted.hw = [] ∧
    (hosted.hvPut 0x6000 [1, 2]).isSome = true ∧ { hosted with ready := [(2, 0x10010)] }.hvPut 0x6000 [1, 2] = none ∧
    stepGives (.hostMemoryAccess true 0x6000 [1, 2]) hosted (fun t => memLe t.mem 0x6000 2 == 513) = true ∧
    stepGives (.hostMemoryAccess true 0x6000 [1, 2]) { hosted with ready := [(2, 0x10010)] } (fun t =>
      t.hw == [.write 0x6000 [1, 2]]) = true := by decide +kernel

theorem witness_bit_store_frame : ∃ u, let s := scratch [(3, 5), (4, 0x81C)]
    (storeWord (.stb 3 4 31) s).isSome = true ∧ exec (.stb 3 4 31) s = .next u ∧ u.last = .done := ⟨_, rfl, rfl, rfl⟩

theorem witness_line_frame : (∀ i ∈ [Instr.pf 4 0, .disc 4 0, .zline 4 0, .wbk 4 0], completesIn i stores (fun _ => true) = true) ∧
    (∀ i ∈ [Instr.pf 4 0, .disc 4 0, .zline 4 0, .wbk 4 0],
      completesIn i (user [(4, loc 0x100)]) (fun _ => true) = true) ∧
    placedHere .write 0x8000 stores = true := by decide +kernel

theorem witness_system_frame : completesIn (.stealctl 3 4) (super [(4, 6)]) (fun t => t.core.steal == 6) = true ∧
    completesIn (.mtk 20 4) (super [(4, 2)]) (fun t => t.core.kpreq == 2) = true ∧
    completesIn (.mtk 9 4) (super [(4, 2)]) (fun t => sget 0 t.cur.kscr 0 == 2) = true ∧
    completesIn (.mtk 17 4) (super [(4, 0x105)]) (fun t => t.core.kmap == 0x105) = true ∧
    completesIn (.bktsel 3 4) (bucketed 1 5 8) (fun _ => true) = true := by decide +kernel

theorem witness_append_frame : ∃ u, appendWord (.mlda 1 4 5) = some none ∧ exec (.mlda 1 4 5) filling = .next u ∧ u.last = .done ∧
    (appendWord (.copy 3 1 4)).isSome = true ∧ completesIn (.copy 3 1 4) (copying 0) (fun _ => true) = true := 
  ⟨_, rfl, rfl, rfl, rfl, by decide +kernel⟩

/-- The published SHA3-256 digest of the empty message. -/
theorem test_sha3_empty : (sha3_256 []).map (·.toNat) = [0xA7, 0xFF, 0xC6, 0xF8, 0xBF, 0x1E, 0xD7, 0x66, 0x51, 0xC1, 0x47, 0x56,
    0xA0, 0x61, 0xD6, 0x62, 0xF5, 0x80, 0xFF, 0x4D, 0xE4, 0x3B, 0x49, 0xFA, 0x82, 0xD8, 0x0A, 0x4B, 0x80, 0xF8, 0x43, 0x4A] := by
  decide +kernel

/-! ### Packets to rings, records, retirement and the remaining hardware steps -/

/-- Core 1 with ring 2 of 64 bytes at local offset 400H, enabled for domain 0, and a sender in user mode. -/
def ringed (d0 : Nat) : State :=
  let s := user []
  s.setCore 1 { s.coreAt 1 with mem := put 0x40 8 d0 [] }

theorem witness_ring_headers : (ringed 0x80000400).cur.tx 0 = none ∧ (ringed 0x80000400).squareReady 0 = true ∧
    (match send 0 0x5038801 false (ringed 0x80000400) with
      | .ok t => t.cur.tx 0 == some ⟨1, 2, true, 0, 1, 5, 3, 0⟩ && sget none (t.coreAt 1).rings 2 == some (0, 0, 0) &&
          memLe (t.coreAt 1).mem 0x408 8 == 0x5038801
      | _ => false) = true ∧
    send 0 0x5038801 false (ringed 0x400) = .error (.trap 2 0x5038801) ∧
    send 0 0x5088801 false (ringed 0x80000400) = .error (.trap 6 16) ∧
    send 0 0x5038801 false ((ringed 0x80000400).setCore 1 { (ringed 0x80000400).coreAt 1 with
      rings := [(2, some (3, 0, 0))] }) = .error (.wait (.header 1 2 0 true 3)) := by decide +kernel

theorem witness_header_waits : (let s := (super []).setCtx 0 1 { (super []).ctxAt 0 1 with
      rx0 := { ((super []).ctxAt 0 1).rx0 with openBy := some (5, 0, 0) } }
    send 0 0x5000400 false s = .error (.wait (.header 0 1 0 false 0))) ∧
    send 0 0x5000400 false ((super []).setCtx 0 1 { (super []).ctxAt 0 1 with
      rx0 := { ((super []).ctxAt 0 1).rx0 with units := List.replicate 16 unit1 } }) = .error (.wait (.portFull 0 1 0)) := by
  decide +kernel

theorem witness_enters : (base.dom? (recDom [])).isSome = true ∧
    (match hvLook true (0x3000 + 104) { base.setDom 0 (some { Domain.reset with nextTask := 2 }) with
        graphs := [⟨1, 0, 1, none⟩], nextGraph := 2 } with
      | (.ok pa, t) => pa == 0x3068 && (match hvLook true (0x3000 + 72) (t.putGlobal 0x3068 pa (leBytes 8 1)) with
        | (.ok pb, _) => pb == 0x3048
        | _ => false)
      | _ => false) = true ∧
    okAnd (enterTask 0x3000 [] (user [])).ans (fun r => r.1 == 1 && memLe r.2.mem 0x3068 8 == 1) = true := by decide +kernel

theorem witness_retires : (let s := running [];
      okAnd (hvRead (s.cur.slot.toNat + 88) 8 s).ans (fun p => ofBytes p.1 == 0 &&
        (hvWrite (s.cur.slot.toNat + 104) (leBytes 8 0) p.2).ans.isOk)) = true ∧
    (let s := { running [] with mem := memWrite frames 0x30D8 (leBytes 8 0x3200) };
      okAnd (hvRead (s.cur.slot.toNat + 88) 8 s).ans (fun p => ofBytes p.1 == 0x3200 &&
        okAnd (hvWrite (0x3200 + 96) (leBytes 8 9) p.2).ans fun y => (match wakeSlot 0 0x3200 y with
          | .woke _ z => (hvWrite (s.cur.slot.toNat + 104) (leBytes 8 0) z).ans.isOk
          | _ => false))) = true ∧
    (let s := { base with graphs := [⟨4, 0, 1, none⟩, ⟨5, 0, 2, none⟩, ⟨6, 0, 1, some 0x3000⟩] };
      (s.graph? 4).map (·.live) = some 1 ∧ (s.graph? 5).map (·.live) = some 2 ∧ (s.graph? 6).map (·.word) = some (some 0x3000) ∧
      (s.graphLeave 5).graphs.map (·.live) = [1, 1, 1] ∧ (s.graphLeave 4).graphs.length = 2 ∧
      memLe (s.graphLeave 6).mem 0x3000 8 = 6) := by decide +kernel

theorem witness_migr_open : let s := migrating.setCur { migrating.cur with tx0 := some ⟨0, 1, false, 0, 1, 5, 0, 0⟩ }
    s.cur.packetOpen = true ∧ legal s (.migr 4) = true ∧ Traps (.migr 4) s 1 (illInfo s) := ⟨rfl, rfl, rfl⟩

theorem witness_sleep_dropped : let s := { slotted 4 with ready := [] }
    (match (hvRead 0x3000 8 s).ans with
      | .error (.drop _ r _) => r == 1
      | _ => false) = true ∧
    (match (after (.sleep 4) s).last with
      | .stopped (.drop ..) => true
      | _ => false) = true := by decide +kernel

theorem witness_reload_poisoned : let s := stopped.setCore 0 { stopped.coreAt 0 with lpoison := [(0x6F000 + 0x1100) / 128] }
    (s.coreAt 0).reloadBad 1 = true ∧ (stopped.coreAt 0).reloadBad 1 = false ∧
    stepGives (.kpreqClear 0 1) s (fun t => (t.ctxAt 0 1).st == .preempted && (t.coreAt 0).kpreq == 2) = true := by decide +kernel

theorem witness_push_gated : let s := base.setCtx 0 1 { base.ctxAt 0 1 with pushes := [⟨0x60, 3⟩] }
    s.squareReady 0 = true ∧ stepGives (.pushCopyInstall 0 1 false) s (fun t => (t.coreAt 3).l1 == [0x60]) = true ∧
    stepGives (.pushCopyInstall 0 1 false) (s.setCore 3 { s.coreAt 3 with gated := true }) (fun t =>
      (t.coreAt 3).l1 == [] && sget 0 (t.ctxAt 0 1).quota 3 == 1) = true := by decide +kernel

theorem witness_ship : let s := after (.migr 4) migrating
    ((s.sqAt 0).tq.find? (fun c => c.kind == .migr && c.hdr.core == 0 * 8 + 0)).map (fun c => c.ship) = some (some 0) ∧
    s.squareReady 0 = true ∧ (s.ctxAt 0 0).st = .idle ∧
    stepGives (.migrationShip 0 0) s (fun t => (t.sqAt 0).tq.isEmpty && (t.coreAt 0).deque == [0x4003]) = true ∧
    stepGives (.migrationShip 0 0) { s with ready := [] } (fun t => (t.coreAt 0).deque == [0x4001]) = true := by decide +kernel

theorem witness_hot : let s := base.setSq 0 { base.sqAt 0 with hot := [(7, 40), (9, 20)], pinned := [7, 9] }
    ((s.sqAt 0).hot.map (·.1)).Nodup ∧ stepGives (.reuseCountHalving 0) s (fun t =>
      (t.sqAt 0).pinned == [7] && sget 0 (t.sqAt 0).hot 9 == 10) = true := by decide +kernel

/-- Context 5 of a pool of 4 pages, with a KAPP that waits for a page; `h` is the head of the free list. -/
def waiting (h : Nat) : State :=
  let s := after (.kapp 0 5 7) ((sequenced false [(5, loc 0x100), (7, 3)]).setCur
    { (sequenced false []).cur with g := regs [(5, loc 0x100), (7, 3)] })
  let k := s.sqAt 0
  let s := s.setSq 0 { k with kq := k.kq.map (fun c => { c with waitPage := true }) }
  { s with mem := put 0x30000 8 0x40000 (put 0x30008 8 0x50000 (put 0x30010 8 0x60000 (put 0x30018 4 4 (put 0x3001C 4 1
    (put 0x30020 4 h (put 0x30024 4 1 (put 0x30028 8 0x70000 (put 0x30030 4 1 (put 0x50080 4 0xFFFFFFFF frames))))))))) }

theorem witness_page_allocate : (((waiting 1).sqAt 0).kHead 5).map (fun c => (c.waitPage, c.got)) = some (true, none) ∧
    (((waiting 1).sqAt 0).kHead 5).map (fun c => match (kStart 0 c (((waiting 1).sqAt 0).parentOf c) (waiting 1)).bind
        (fun w => allocate 0 w.c.kt w) with
      | .ok (p, w) => p == 1 && memLe w.s.mem 0x60002 2 == 1 && memLe w.s.mem 0x30020 8 == 0xFFFFFFFF
      | _ => false) = some true ∧
    stepGives (.pageAllocate 0 5) (waiting 1) (fun t => (t.sqAt 0).kq.map (·.got) == [some 1]) = true ∧
    (((waiting 0xFFFFFFFF).sqAt 0).kHead 5).map (fun c => (match (kStart 0 c (((waiting 0xFFFFFFFF).sqAt 0).parentOf c)
        (waiting 0xFFFFFFFF)).bind (fun w => allocate 0 w.c.kt w) with
      | .error .page => true
      | _ => false)) = some true := by decide +kernel

theorem witness_event_delivery : let s := base.setCore 0 { base.coreAt 0 with events := [unit1] }
    stepGives (.collectiveEventDelivery 0) s (fun t => (t.coreAt 0).events == [] && ((t.ctxAt 0 15).rx1).flight == [unit1]) = true ∧
    (s.coreAt 0).comm = 15 ∧ ((s.ctxAt 0 15).rx1).openBy = none ∧ ((s.ctxAt 0 15).rx1).full = false := by decide +kernel

theorem witness_period : let b : Budget := { amount := 5, period := 1, nextAmount := 9, nextPeriod := 2, used := 5, index := 0 }
    let s := { (base.setBudget 0 0 0 b).setCtx 0 1 { base.ctxAt 0 1 with st := .budgetHeld } with ktime := 6000 }
    stepGives (.budgetPeriodStart 0 0 0) s (fun t => t.budget 0 0 0 == ⟨9, 2, 9, 2, 0, 3⟩ && (t.ctxAt 0 1).st == .ready) = true ∧
    stepGives (.budgetPeriodStart 0 0 0) { s with ktime := 900 } (fun t => (t.ctxAt 0 1).st == .budgetHeld) = true := by
  decide +kernel

theorem witness_pool_free : let s := base.setCtx 0 1 { base.ctxAt 0 1 with st := .poolHeld }
    ((s.setCore 0 { s.coreAt 0 with kcpool := 0 }).coreAt 0).freeBlock = none ∧ (let t := s.setCore 0 { s.coreAt 0 with kcpool := 0x20010 }
      (t.coreAt 0).freeBlock.isSome = true ∧ stepGives (.poolBlockFree 0) t (fun u => (u.ctxAt 0 1).st == .ready) = true) := by
  decide +kernel

/-- A migration that has been asked for, and one whose last line is copied. -/
noncomputable def asked : State := after (.pgmig 3 4 5) (paged [(4, 0x5000), (5, 0x200000)])
/-- The same, begun, with its lines copied. -/
noncomputable def copiedOver : State :=
  let s := after (.migrationStart 0) asked
  s.setDistrict 0 { s.district 0 with migs := (s.district 0).migs.map (fun m => { m with next := 2 ^ 23 }) }

theorem witness_migration_ends : (asked.migHead 0).map (fun p => p.1.running) = some false ∧
    (asked.migHead 0).map (fun p => asked.entryOn p.1.page (p.1.page + p.1.size)) = some false ∧
    (asked.migHead 0).map (fun p => match (walkTop p.2 p.1.page asked).1 with
      | some l => decide (2 ^ leafShift l = p.1.size) && l.e / 16 % 2 == 0 && l.e / 32 % 2 == 1
      | none => false) = some true ∧
    stepGives (.migrationStart 0) asked (fun t => (t.migHead 0).map (fun p => p.1.running) == some true) = true ∧
    stepGives (.migrationStart 0) { asked with mem := frames, squares := [] } (fun t => (t.migHead 0).isNone) = true ∧
    stepGives (.migrationFinish 0) copiedOver (fun t => (t.migHead 0).isNone && memLe t.mem 0x3000 8 / 4096 == 0x200) = true := by
  decide +kernel

theorem witness_out_of_service : stepGives (.partOutOfService 0) base (fun t => !t.squareReady 0) = true ∧
    stepGives (.partOutOfService 64) base (fun t => !t.squareReady 0 && (t.readyWord 2).getLsbD 0) = true := by decide +kernel

theorem witness_function_reset : stepGives (.functionLevelReset 0) base (fun t => t.mem == []) = true ∧
    (base.dom? 0).isSome = true ∧ base.dom? 9 = none ∧
    (let s := base.setDom 9 (some Domain.reset);
      (s.dom? 9).isSome = true ∧ s.underReset 9 = false ∧
      stepGives (.functionLevelReset 9) s (fun t => (t.bar 9).pba.getLsbD 1) = true) := by decide +kernel

theorem witness_firmware : stepGives (.firmwareUpdate 5) { base with fw := { base.fw with powered := false } } (fun t =>
      t.fw.update.isNone) = true ∧
    (let s := { base with ready := [(2, 0x10000)], fw := { base.fw with powered := true, recovery := false } };
      (measured s 3).map (·.length) = some 32 ∧ (s.readyWord 2).getLsbD 16 = true ∧
      stepGives (.attestationRequest 3) s (fun t => t.fw.answers.map (·.index) == [3]) = true) ∧
    measured base 4 = none := by decide +kernel

theorem witness_bar_write : hosted.barOpen 0 = true ∧ base.barOpen 0 = false ∧
    stepGives (.barRegisterWrite 0 0 0x8000) hosted (fun t => (t.bar 0).lrbase == 0x8000) = true ∧
    stepGives (.barRegisterWrite 0 8 64) hosted (fun t => (t.bar 0).lrsize == 64) = true ∧
    stepGives (.barRegisterWrite 0 0x10 3) hosted (fun t => (t.bar 0).lrtail == 3) = true ∧
    stepGives (.barRegisterWrite 0 0x18 3) hosted (fun t => (t.bar 0).lrhead == 0) = true ∧
    stepGives (.barRegisterWrite 0 0x808 3) hosted (fun t => (t.bar 0).tableWord 8 == 3 && (t.bar 0).tableWord 24 == 2 ^ 32) = true := by
  decide +kernel

end Sys2Proof.Tests
end

section
/-! PROOF. What reset leaves, the queries and waits on sequence numbers, and that hardware steps complete. -/
namespace Sys2Proof.Machine
open Sys2Proof.Safety

/-! ### What reset leaves -/

@[simp] theorem coreAt_reset (c : Nat) : State.reset.coreAt c = Core.reset := rfl

@[simp] theorem ctxAt_reset (c x : Nat) : State.reset.ctxAt c x = Ctx.reset := rfl

@[simp] theorem sqAt_reset (q : Nat) : State.reset.sqAt q = Square.reset := rfl

theorem bitW_zero (i : Nat) : bitW 0 i = false := by simp [bitW, fieldN]

/-- The readiness map is 0 after reset: no square has reported ready (log 8). -/
theorem squareReady_reset (q : Nat) : State.reset.squareReady q = false := bitW_zero _

/-- Reset leaves no domain but domain 0 (20 R448). -/
theorem dom?_reset_of_pos {n : Nat} (h : 0 < n) : State.reset.dom? n = none := by
  simp [State.dom?, State.reset, sget, Nat.ne_of_gt h]

/-- Settles O7: the tables of cores and squares are empty after reset, so every core, context and square is the constant
that says what reset leaves of one. -/
theorem resetValues : Obligations.ResetValues := by
  intro c x q n
  simp only [coreAt_reset, ctxAt_reset, sqAt_reset]
  exact ⟨rfl, squareReady_reset q, rfl, rfl, rfl, rfl, rfl, rfl, rfl, rfl, rfl, rfl, rfl, dom?_reset_of_pos⟩

/-! ### Queries and waits on sequence numbers (01 R13 to R17) -/

/-- A field at the low end of a register. -/
theorem bitsW_low (x : Word) (hi : Nat) : bitsW x hi 0 = x.toNat % 2 ^ (hi + 1) := by
  simp [bitsW, fieldN]

/-- The core of the square that a query or a wait names (01 R17). -/
theorem bitsW_core (x : Word) : bitsW x 2 0 = x.toNat % 8 := bitsW_low x 2

/-- The target that a wait names (10 R270). -/
theorem bitsW_target (y : Word) : bitsW y 47 0 = y.toNat % 2 ^ 48 := bitsW_low y 47

/-- A bit of a register, by its number. -/
theorem bitW_eq_getLsbD (x : Word) (i : Nat) : bitW x i = x.getLsbD i := by
  rw [BitVec.getLsbD, Nat.testBit_eq_decide_div_mod_eq, bitW, fieldN, beq_eq_decide, Nat.pow_one]

/-- Reading a source that sees the start of its word keeps the focus. -/
theorem readFrom_focus {s0 s t : State} {f : Nat} {v : Word} (h : readFrom s0 f s = .ok (v, t)) : t.focus = s.focus := by
  unfold readFrom at h
  split at h
  · obtain ⟨_, _, e⟩ := bind_ok.mp h
    cases e
    rfl
  · exact readReg_focus h

/-- Reading two sources keeps the focus. -/
theorem readTwo_focus {a b : BitVec 6} {s t : State} {x y : Word} (h : readTwo a b s = .ok (x, y, t)) :
    t.focus = s.focus := by
  obtain ⟨⟨_, u⟩, hx, h⟩ := bind_ok.mp h
  obtain ⟨⟨_, v⟩, hy, h⟩ := bind_ok.mp h
  cases h
  exact (readFrom_focus hy).trans (readReg_focus hx)

/-- The completed number of an engine, in a state with the focus of `s`. -/
theorem completedOf_eq {s t : State} (h : t.focus = s.focus) (e c : Nat) :
    t.completedOf e c = ((t.sqAt (s.focus.core / 8)).seqno e (c % 8)).completed := by
  rw [State.completedOf, State.sq, squareOf, h]

section Wait
variable {e : Nat} {a b : BitVec 6} {s t : State} {x y : Word} (hr : readTwo a b s = .ok (x, y, t))
include hr

/-- A wait, once its sources are read, is the comparison of R14. -/
theorem waitSeq_eq : waitSeq e a b s =
    if reached ((t.sqAt (s.focus.core / 8)).seqno e (x.toNat % 8)).completed (y.toNat % 2 ^ 48) then .ok t
    else .error (.wait (.seqno e (s.focus.core / 8) (x.toNat % 8) (y.toNat % 2 ^ 48))) := by
  have hf := readTwo_focus hr
  have hq : t.sq = s.focus.core / 8 := by rw [State.sq, squareOf, hf]
  simp only [waitSeq, hr, bind, Except.bind, pure, Except.pure, completedOf_eq hf, hq, bitsW_core, bitsW_target,
    Nat.mod_mod]

/-- A legal wait completes when its number is reached, and waits for that number while it is not. -/
theorem waitSeq_ends {i : Instr} (hl : legal s i = true) (hi : exec i s = guarded i s (waitSeq e a b)) :
    let n := ((t.sqAt (s.focus.core / 8)).seqno e (x.toNat % 8)).completed
    (reached n (y.toNat % 2 ^ 48) = true → Completes i s t) ∧
    (reached n (y.toNat % 2 ^ 48) = false →
      StopsWith i s (.wait (.seqno e (s.focus.core / 8) (x.toNat % 8) (y.toNat % 2 ^ 48)))) := by
  constructor
  · intro h
    exact hi.trans (guarded_completes hl ((waitSeq_eq hr).trans (if_pos h)))
  · intro h
    exact hi.trans (guarded_stops hl ((waitSeq_eq hr).trans (if_neg (ne_true_of_eq_false h))) (fun _ => nofun))

end Wait

/-- A legal query completes with the write of a completed number, where that is what it does after its source is read. -/
theorem query_completes {d a : BitVec 6} {s t w : State} {x : Word} {e : Nat} {i : Instr}
    {k : Word × State → Except Stop State} (hr : readReg a.toNat s = .ok (x, t)) (hl : legal s i = true)
    (hi : exec i s = guarded i s (fun s => readReg a.toNat s >>= k))
    (hk : k (x, t) = writeReg d.toNat (wd (t.completedOf e (bitsW x 2 0))) t)
    (hw : writeReg d.toNat (BitVec.ofNat 64 ((t.sqAt (s.focus.core / 8)).seqno e (x.toNat % 8)).completed) t = .ok w) :
    Completes i s w := by
  rw [completedOf_eq (readReg_focus hr), bitsW_core, Nat.mod_mod] at hk
  exact hi.trans (guarded_completes hl (bind_ok.mpr ⟨_, hr, hk.trans hw⟩))

/-- Settles O42: each query writes the number once its source has named the core and, of MSEQ and KSEQ, asks for it; each
wait is the comparison of R14. -/
theorem sequenceQueries : Obligations.SequenceQueries := by
  intro d a b s t w x y
  constructor
  · simp only [List.forall_mem_cons]
    refine ⟨fun hl hr _ _ => query_completes hr hl rfl rfl, fun hl hr hm _ => query_completes hr hl rfl ?mseq,
      fun hl hr _ hk => query_completes hr hl rfl ?kseq, fun hl hr _ _ => query_completes hr hl rfl rfl,
      List.forall_mem_nil _⟩
    case mseq =>
      have hx : bitW x 8 = false := (bitW_eq_getLsbD x 8).trans (hm trivial)
      simp [hx]
    case kseq =>
      have hx : bitsW x 9 8 = 0 := hk trivial
      simp [hx]
  · simp only [List.forall_mem_cons]
    exact ⟨fun hl hr => waitSeq_ends hr hl rfl, fun hl hr => waitSeq_ends hr hl rfl,
      fun hl hr => waitSeq_ends hr hl rfl, fun hl hr => waitSeq_ends hr hl rfl, List.forall_mem_nil _⟩

/-! ### Hardware steps (spec/95) -/

/-- A step of the context engine exists for every sequence context of every square (15 R358). -/
theorem kStep_eq_hwStep (q n : Nat) (kind : Instr → Bool) (s : State) :
    ∃ f, kStep q n kind s = hwStep (decide (q < 128 ∧ n < 64)) s f := ⟨_, rfl⟩

/-- SCRUB_PASS exists for every number that names a line or a table (log 66). -/
theorem execScrubPass_eq_hwStep (l : Nat) (bad : Bool) (s : State) :
    ∃ f, execScrubPass l bad s = hwStep (scrubPlace l).isSome s f := by
  cases h : scrubPlace l with
  | none => exact ⟨id, by rw [execScrubPass, h]; rfl⟩
  | some p => exact ⟨_, by rw [execScrubPass, h]; rfl⟩

/-- Every hardware step is an effect on the state, made exactly where its part exists. -/
theorem exec_event_eq_hwStep {i : Instr} (h : i.isEvent = true) (s : State) :
    ∃ f, exec i s = hwStep (partExists i) s f := by
  cases i with
  | scrubPass l bad => exact execScrubPass_eq_hwStep l bad s
  | kopenExecute q n | kcloseExecute q n | kappExecute q n | kaccExecute q n | krejExecute q n | kpbExecute q n
  | ksplExecute q n | kforkExecute q n | kloadExecute q n | kvalExecute q n | kmargExecute q n | ktentExecute q n
  | kdroptExecute q n =>
    dsimp only [exec]
    exact kStep_eq_hwStep q n _ s
  | pushCopyInstall | copyUnitDelivery | gatherElementDelivery | scatterElementWrite | migrationShip
  | reuseCountHalving | fillExecute | tileOpcodeStart | tileOpcodeComplete | mrevExecute | pageAllocate | ccommExecute
  | cttExecute | postStart | chunkSend | chunkArrival | connectArrival | freedReport | barrierTokenArrival
  | disconnectArrival | postComplete | tileEntryFire | firingComplete | ccloseExecute | collectiveEventDelivery
  | kpreqSet | kpreqClear | preemptStop | sleepDeadline | repartSwitch | vectorEntryBegin | vectorEntryComplete
  | dispatchTask | dispatchContinuation | stealRequest | budgetPeriodStart | wakeMessage | poolBlockFree
  | packetHeaderAccept | portUnitArrival | faultRingRetry | homeRecall | migrationStart | migrationLineCopy
  | migrationFinish | heatPeriodHalving | powerUp | partReady | partOutOfService | linkPortFailure | flitCrcRetry
  | packageReset | functionLevelReset | firmwareUpdate | attestationRequest | clockStep | lrtail | launchRingEntry
  | barRegisterWrite | memoryReply | hostMemoryAccess | corePowerGating =>
    dsimp only [exec]
    exact ⟨_, rfl⟩
  | _ => exact absurd h Bool.false_ne_true

/-- Settles O57: the step is its effect on a part that exists, and the model's fault on one that does not. -/
theorem hardwareStepsComplete : Obligations.HardwareStepsComplete := by
  intro i s hi
  obtain ⟨f, hf⟩ := exec_event_eq_hwStep hi s
  constructor
  · intro hp
    exact ⟨f s, by rw [Completes, hf, hp, hwStep_true]⟩
  · intro hp
    rw [hf, hp]
    rfl

end Sys2Proof.Machine
end

section
/-! PROOF. Memory in canonical form, at reset. -/
namespace Sys2Proof.Safety

/-- Settles O8: every memory is empty at reset. -/
theorem resetMemoryIsCanonical : Obligations.ResetMemoryIsCanonical := ⟨rfl, fun _ => rfl⟩

end Sys2Proof.Safety
end

section
/-! PROOF. Every step keeps every memory in canonical form (log 5).

A memory is written by `memWrite` alone, which keeps its form; so each function of the machine that gives a state keeps
`MemOk`. `Ends`, `RunEnds`, `Finds` and `Nexts` say it of the results of the model's kinds of programs, with one rule
for each way in which programs are put together. Then `MemOk.f` says it of the function `f`, in the order of the model's
files, and its proof follows `f`'s body: `h.f` is the state after `f`, from the proof `h` for the state before. -/
namespace Sys2Proof.Safety
open Sys2Proof.Machine

/-- Every value that the computation ends with has `P`. -/
def Ends {ε α : Type} (P : α → Prop) (m : Except ε α) : Prop := ∀ a, m = .ok a → P a

/-- Every value that the run ends with has `P`. -/
def RunEnds {α : Type} (P : α → Prop) (m : Run α) : Prop := Ends P m.ans

/-- A value that is found has `P`. -/
def Finds {α : Type} (P : α → Prop) (o : Option α) : Prop := ∀ a, o = some a → P a

/-- A next state has its memories in canonical form. -/
def Nexts (o : Host.Outcome State Fault Refusal) : Prop := ∀ t, o = .next t → MemOk t

/-! ### The rules of the programs: one for each way in which the model puts computations together -/

section Rules
variable {ε α β : Type} {P : α → Prop} {Q : β → Prop}

theorem Ends.ok {a : α} (h : P a) : Ends P (.ok a : Except ε α) := fun _ e => by cases e; exact h

theorem Ends.stop {x : ε} : Ends P (.error x : Except ε α) := fun _ e => nomatch e

theorem Ends.of_ok {m : Except ε α} {a : α} (h : Ends P m) (e : m = .ok a) : P a := h a e

theorem Ends.bind {m : Except ε α} {f : α → Except ε β} (hm : Ends P m) (hf : ∀ a, P a → Ends Q (f a)) :
    Ends Q (m >>= f) := fun r e => by
  obtain ⟨a, ha, e⟩ := bind_ok.mp e
  exact hf a (hm a ha) r e

/-- A first part of which nothing needs to be known. -/
theorem Ends.skip {m : Except ε α} {f : α → Except ε β} (hf : ∀ a, Ends Q (f a)) : Ends Q (m >>= f) :=
  Ends.bind (P := fun _ => True) (fun _ _ => trivial) (fun a _ => hf a)

theorem Ends.ite {c : Prop} [Decidable c] {a b : Except ε α} (ha : Ends P a) (hb : Ends P b) :
    Ends P (if c then a else b) := by split <;> assumption

theorem Ends.mapOf {f : α → β} {m : Except ε α} (hm : Ends P m) (hf : ∀ a, P a → Q (f a)) : Ends Q (m.map f) := by
  intro r e
  rcases m with x | a
  · cases e
  · cases e; exact hf _ (hm _ rfl)

theorem Ends.mapAny {f : α → β} {m : Except ε α} (hf : ∀ a, Q (f a)) : Ends Q (m.map f) :=
  Ends.mapOf (P := fun _ => True) (fun _ _ => trivial) fun a _ => hf a

theorem Ends.toOption {m : Except ε α} (hm : Ends P m) : Finds P m.toOption := fun r e => by
  rcases m with x | a
  · cases e
  · cases e; exact hm _ rfl

theorem Ends.kAccess {m : Except EStop α} (hm : Ends P m) : Ends P (kAccess m) := fun r e => by
  rcases m with (_ | _) | a
  · cases e
  · cases e
  · cases e; exact hm _ rfl

theorem Ends.foldlM {f : α → β → Except ε α} {l : List β} {a : α} (ha : P a) (hf : ∀ a b, P a → Ends P (f a b)) :
    Ends P (l.foldlM f a) := by
  induction l generalizing a with
  | nil => exact .ok ha
  | cons b r ih => exact (hf a b ha).bind fun _ h => ih h

theorem RunEnds.pure {a : α} (h : P a) : RunEnds P (pure a) := .ok h

theorem RunEnds.stop {x : Stop} : RunEnds P (throw x : Run α) := Ends.stop

theorem RunEnds.of_ok {m : Run α} {a : α} (h : RunEnds P m) (e : m.ans = .ok a) : P a := h a e

theorem RunEnds.bind {m : Run α} {f : α → Run β} (hm : RunEnds P m) (hf : ∀ a, P a → RunEnds Q (f a)) :
    RunEnds Q (m >>= f) := fun r e => by
  rw [Run.ans_bind] at e
  split at e
  · exact hf _ (hm _ ‹_›) r e
  · cases e

theorem RunEnds.skip {m : Run α} {f : α → Run β} (hf : ∀ a, RunEnds Q (f a)) : RunEnds Q (m >>= f) :=
  RunEnds.bind (P := fun _ => True) (fun _ _ => trivial) (fun a _ => hf a)

theorem RunEnds.ite {c : Prop} [Decidable c] {a b : Run α} (ha : RunEnds P a) (hb : RunEnds P b) :
    RunEnds P (if c then a else b) := by split <;> assumption

theorem Ends.lift {m : Except Stop α} (h : Ends P m) : RunEnds P (liftM m : Run α) := h

theorem RunEnds.lift {m : Except Stop α} (h : Ends P m) : RunEnds P (liftM m : Run α) := h

protected theorem RunEnds.tryCatch {m : Run α} {f : Stop → Run α} (hm : RunEnds P m) (hf : ∀ x, RunEnds P (f x)) :
    RunEnds P (tryCatch m f) :=
  match m, hm with
  | (.ok _, _), hm => hm
  | (.error x, _), _ => hf x

theorem RunEnds.foldlM {f : α → β → Run α} {l : List β} {a : α} (ha : P a) (hf : ∀ a b, P a → RunEnds P (f a b)) :
    RunEnds P (l.foldlM f a) := by
  induction l generalizing a with
  | nil => exact .pure ha
  | cons b r ih => exact (hf a b ha).bind fun _ h => ih h

theorem Finds.of_some {o : Option α} {a : α} (h : Finds P o) (e : o = some a) : P a := h a e

theorem Finds.some {a : α} (h : P a) : Finds P (some a) := fun _ e => by cases e; exact h

theorem Finds.none : Finds P none := fun _ e => nomatch e

theorem Finds.bind {m : Option α} {f : α → Option β} (hm : Finds P m) (hf : ∀ a, P a → Finds Q (f a)) :
    Finds Q (m >>= f) := fun r e => by
  cases m with
  | none => cases e
  | some a => exact hf a (hm a rfl) r e

theorem Finds.skip {m : Option α} {f : α → Option β} (hf : ∀ a, Finds Q (f a)) : Finds Q (m >>= f) :=
  Finds.bind (P := fun _ => True) (fun _ _ => trivial) fun a _ => hf a

theorem Finds.ite {c : Prop} [Decidable c] {a b : Option α} (ha : Finds P a) (hb : Finds P b) :
    Finds P (if c then a else b) := by split <;> assumption

theorem Finds.map {f : α → β} {m : Option α} (hm : Finds P m) (hf : ∀ a, P a → Q (f a)) : Finds Q (m.map f) := by
  intro r e
  cases m with
  | none => cases e
  | some a => cases e; exact hf a (hm a rfl)

theorem Finds.mapAny {f : α → β} {m : Option α} (hf : ∀ a, Q (f a)) : Finds Q (m.map f) :=
  Finds.map (P := fun _ => True) (fun _ _ => trivial) fun a _ => hf a

theorem Finds.getD {o : Option α} {d : α} (ho : Finds P o) (hd : P d) : P (o.getD d) := by
  cases o with
  | none => exact hd
  | some a => exact ho a rfl

end Rules

/-! `bind` again with the property named, for a first part whose own proof begins with a dot. -/

section StateRules
variable {ε α β γ : Type} {Q : β → Prop}

theorem Ends.bindState {m : Except ε State} {f : State → Except ε β} (hm : Ends MemOk m)
    (hf : ∀ s, MemOk s → Ends Q (f s)) : Ends Q (m >>= f) := hm.bind hf

theorem Ends.bindSnd {m : Except ε (α × State)} {f : α × State → Except ε β} (hm : Ends (fun r => MemOk r.2) m)
    (hf : ∀ r, MemOk r.2 → Ends Q (f r)) : Ends Q (m >>= f) := hm.bind hf

theorem Ends.bindSndSnd {m : Except ε (α × γ × State)} {f : α × γ × State → Except ε β}
    (hm : Ends (fun r => MemOk r.2.2) m) (hf : ∀ r, MemOk r.2.2 → Ends Q (f r)) : Ends Q (m >>= f) := hm.bind hf

theorem Ends.bindWork {m : Except ε KWork} {f : KWork → Except ε β} (hm : Ends (fun w => MemOk w.s) m)
    (hf : ∀ w, MemOk w.s → Ends Q (f w)) : Ends Q (m >>= f) := hm.bind hf

theorem Ends.bindSndWork {m : Except ε (α × KWork)} {f : α × KWork → Except ε β} (hm : Ends (fun r => MemOk r.2.s) m)
    (hf : ∀ r, MemOk r.2.s → Ends Q (f r)) : Ends Q (m >>= f) := hm.bind hf

theorem RunEnds.bindState {m : Run State} {f : State → Run β} (hm : RunEnds MemOk m)
    (hf : ∀ s, MemOk s → RunEnds Q (f s)) : RunEnds Q (m >>= f) := hm.bind hf

theorem RunEnds.bindSnd {m : Run (α × State)} {f : α × State → Run β} (hm : RunEnds (fun r => MemOk r.2) m)
    (hf : ∀ r, MemOk r.2 → RunEnds Q (f r)) : RunEnds Q (m >>= f) := hm.bind hf

theorem RunEnds.bindSndSnd {m : Run (α × γ × State)} {f : α × γ × State → Run β}
    (hm : RunEnds (fun r => MemOk r.2.2) m) (hf : ∀ r, MemOk r.2.2 → RunEnds Q (f r)) : RunEnds Q (m >>= f) :=
  hm.bind hf

theorem Finds.bindState {m : Option State} {f : State → Option β} (hm : Finds MemOk m)
    (hf : ∀ s, MemOk s → Finds Q (f s)) : Finds Q (m >>= f) := hm.bind hf

theorem Finds.bindSnd {m : Option (α × State)} {f : α × State → Option β} (hm : Finds (fun r => MemOk r.2) m)
    (hf : ∀ r, MemOk r.2 → Finds Q (f r)) : Finds Q (m >>= f) := hm.bind hf

theorem RunEnds.leaves {r : Except Stop α × State} (h : MemOk r.2) : RunEnds (fun r => MemOk r.2) (leaves r) := by
  intro a e
  obtain ⟨_ | _, t⟩ := r
  · cases e
  · cases e; exact h

theorem RunEnds.held {x : Except (Nat × Nat × Nat) α × State} (h : MemOk x.2) :
    RunEnds (fun r => MemOk r.2) (held x) := .leaves h

theorem RunEnds.saw {x : α × State} (h : MemOk x.2) : RunEnds (fun r => MemOk r.2) (saw x) := .leaves h

end StateRules

theorem Nexts.next {s : State} (h : MemOk s) : Nexts (.next s) := fun _ e => by cases e; exact h

theorem Nexts.fault {f : Fault} : Nexts (.fault f) := fun _ e => nomatch e

theorem Nexts.ite {c : Prop} [Decidable c] {a b : Host.Outcome State Fault Refusal} (ha : Nexts a) (hb : Nexts b) :
    Nexts (if c then a else b) := by split <;> assumption

theorem MemOk.same {s t : State} (h : MemOk s) (hm : t.mem = s.mem) (hc : t.cores = s.cores) : MemOk t :=
  memOk_same h hm hc

theorem MemOk.hwStep {s : State} {ok : Bool} {f : State → State} (h : MemOk (f s)) : Nexts (hwStep ok s f) :=
  .ite (.next (h.same rfl rfl)) .fault

/-! ### The rules of the state: what keeps `MemOk` -/

theorem MemOk.of_eq {α : Type} {x : α × State} {a : α} {t : State} (h : MemOk x.2) (e : x = (a, t)) : MemOk t := by
  rw [e] at h; exact h

theorem MemOk.coreAt {s : State} (h : MemOk s) (c : Nat) : Memory.wf (s.coreAt c).mem = true := h.2 c

theorem MemOk.ite {c : Prop} [Decidable c] {s t : State} (ha : MemOk s) (hb : MemOk t) :
    MemOk (if c then s else t) := by
  split <;> assumption

theorem MemOk.foldl {α : Type} {f : State → α → State} {l : List α} {s : State} (h : MemOk s)
    (hf : ∀ t a, MemOk t → MemOk (f t a)) : MemOk (l.foldl f s) := by
  induction l generalizing s with
  | nil => exact h
  | cons a r ih => exact ih (hf s a h)

theorem MemOk.foldlSnd {α β : Type} {f : β × State → α → β × State} {l : List α} {p : β × State} (h : MemOk p.2)
    (hf : ∀ p a, MemOk p.2 → MemOk (f p a).2) : MemOk (l.foldl f p).2 := by
  induction l generalizing p with
  | nil => exact h
  | cons a r ih => exact ih (hf p a h)

/-- The cores, each with its memory as it was. -/
theorem MemOk.mapCores {s t : State} {g : Nat × Core → Nat × Core} (h : MemOk s) (hm : t.mem = s.mem)
    (hc : t.cores = s.cores.map g) (hk : ∀ p, (g p).1 = p.1) (hg : ∀ p, (g p).2.mem = p.2.mem) : MemOk t := by
  have look : ∀ m : SMap Core, ∀ c, (sget Core.reset (m.map g) c).mem = (sget Core.reset m c).mem := fun m c => by
    induction m with
    | nil => rfl
    | cons p r ih =>
      have e : g p = (p.1, (g p).2) := by rw [← hk p]
      rw [List.map_cons, e, sget, sget]
      split
      · exact hg p
      · exact ih
  refine ⟨hm ▸ h.1, fun c => ?_⟩
  rw [State.coreAt, hc, look]
  exact h.2 c

theorem MemOk.setCore {s : State} {c : Nat} {k : Core} (h : MemOk s) (hk : Memory.wf k.mem = true) :
    MemOk (s.setCore c k) := memOk_setCore h c hk

theorem MemOk.setCoreCur {s : State} {k : Core} (h : MemOk s) (hk : Memory.wf k.mem = true) : MemOk (s.setCoreCur k) :=
  memOk_setCore h _ hk

theorem MemOk.setCtx {s : State} {c x : Nat} {v : Ctx} (h : MemOk s) : MemOk (s.setCtx c x v) := memOk_setCtx h ..

theorem MemOk.setCur {s : State} {v : Ctx} (h : MemOk s) : MemOk (s.setCur v) := memOk_setCur h _

theorem MemOk.localPut {s : State} {c off : Nat} {b : List Byte} (h : MemOk s) : MemOk (s.localPut c off b) :=
  memOk_localPut h ..

theorem MemOk.putPhys {s : State} {pa : Nat} {b : List Byte} (h : MemOk s) : MemOk (s.putPhys pa b) :=
  memOk_putPhys h ..

theorem MemOk.putLine {s : State} {pa : Nat} {b : List Byte} {bad : Bool} (h : MemOk s) : MemOk (s.putLine pa b bad) :=
  memOk_putLine h ..

theorem MemOk.touch {s : State} {dom : Option Nat} {reuse q va pa shift : Nat} {wr : Bool} (h : MemOk s) :
    MemOk (s.touch dom reuse q va pa shift wr) :=
  h.same (touch_frame ..).1 (touch_frame ..).2

theorem MemOk.recall {s : State} {q line pa shift : Nat} (h : MemOk s) : MemOk (s.recall q line pa shift) :=
  memOk_recall h ..

/-! ### The rules of a core: what its memory is after each operation on it -/

@[simp] theorem stashWritten_mem (k : Core) (mine : Option Nat) (lo n : Nat) :
    (k.stashWritten mine lo n).mem = k.mem := by
  fun_cases k.stashWritten mine lo n <;> exact dropOld_mem ..

@[simp] theorem l1Written_mem (k : Core) (line : Nat) : (k.l1Written line).mem = k.mem := by
  fun_cases k.l1Written line <;> rfl

@[simp] theorem switchTo_mem (k : Core) (mode : Bool) (n : Nat) : (k.switchTo mode n).mem = k.mem := by
  fun_cases k.switchTo mode n <;> rfl

theorem wf_localBits {k : Core} {off lo n : Nat} {b : List Byte} (h : Memory.wf k.mem = true) :
    Memory.wf (k.localBits off b lo n).mem = true := by
  rw [Core.localBits]; exact memWrite_wf (by rwa [dropOld_mem]) ..

theorem wf_localPut {k : Core} {off : Nat} {b : List Byte} (h : Memory.wf k.mem = true) :
    Memory.wf (k.localPut off b).mem = true := wf_localBits h

theorem wf_dropOld {k : Core} {lo n : Nat} (h : Memory.wf k.mem = true) : Memory.wf (k.dropOld lo n).mem = true := by
  rwa [dropOld_mem]

theorem wf_switchTo {k : Core} {mode : Bool} {n : Nat} (h : Memory.wf k.mem = true) :
    Memory.wf (k.switchTo mode n).mem = true := by
  rwa [switchTo_mem]

/-- `MemOk` of the two fields that it reads: a record update of a state shows them. -/
def MemsOk (m : List Host.Cell) (cs : SMap Core) : Prop :=
  Memory.wf m = true ∧ ∀ c, Memory.wf (sget Core.reset cs c).mem = true

theorem memOk_iff {s : State} : MemOk s ↔ MemsOk s.mem s.cores := Iff.rfl

/-! ### The results that carry a state beside its failures -/

/-- The state of a wake has its memories in canonical form. -/
def wakeResKeeps : WakeRes → Prop
  | .woke _ t => MemOk t
  | .full | .absent _ => True

/-- The state of a fault record's writing has its memories in canonical form. -/
def recResKeeps : RecRes → Prop
  | .written _ _ t | .full t => MemOk t
  | .absent => True

theorem recResKeeps.written {r : RecRes} {n a : Nat} {t : State} (h : recResKeeps r) (e : r = .written n a t) :
    MemOk t := by
  rw [e] at h; exact h

theorem recResKeeps.full {r : RecRes} {t : State} (h : recResKeeps r) (e : r = .full t) : MemOk t := by
  rw [e] at h; exact h

/-- The state of a footprint's load has its memories in canonical form. -/
def footResKeeps : FootRes → Prop
  | .loaded _ t => MemOk t
  | .absent _ | .failed => True

theorem footResKeeps.loaded {r : FootRes} {v : Footprint} {t : State} (h : footResKeeps r) (e : r = .loaded v t) :
    MemOk t := by
  rw [e] at h; exact h

/-- The state of a rights entry's read has its memories in canonical form. -/
def rightsReadKeeps : RightsRead → Prop
  | .entry _ t => MemOk t
  | .stop .. => True

theorem rightsReadKeeps.entry {r : RightsRead} {e : Nat} {t : State} (h : rightsReadKeeps r) (he : r = .entry e t) :
    MemOk t := by
  rw [he] at h; exact h

/-- The state of a launch's check has its memories in canonical form. -/
def launchKeeps : LaunchCheck → Prop
  | .good _ t | .bad t => MemOk t
  | .absent .. => True

theorem launchKeeps.good {r : LaunchCheck} {b : List Byte} {t : State} (h : launchKeeps r) (e : r = .good b t) :
    MemOk t := by
  rw [e] at h; exact h

theorem launchKeeps.bad {r : LaunchCheck} {t : State} (h : launchKeeps r) (e : r = .bad t) : MemOk t := by
  rw [e] at h; exact h

/-! ### The parts of the state -/

protected theorem MemOk.setSq {s : State} {q : ℕ} {v : Square} (h : MemOk s) : MemOk (s.setSq q v) := h

protected theorem MemOk.setDistrict {s : State} {d : ℕ} {v : District} (h : MemOk s) : MemOk (s.setDistrict d v) := h

protected theorem MemOk.setDom {s : State} {d : ℕ} {v : Option Domain} (h : MemOk s) : MemOk (s.setDom d v) := h

protected theorem MemOk.setBar {s : State} {d : ℕ} {v : Bar} (h : MemOk s) : MemOk (s.setBar d v) := h

protected theorem MemOk.setReady {s : State} {n b : ℕ} {v : Bool} (h : MemOk s) : MemOk (s.setReady n b v) := h

protected theorem MemOk.setBudget {s : State} {dom res inst : ℕ} {b : Budget} (h : MemOk s) :
    MemOk (s.setBudget dom res inst b) := h

protected theorem MemOk.spend {s : State} {dom res inst n : ℕ} (h : MemOk s) : MemOk (s.spend dom res inst n) := h

/-! ### Translation, residency and the global memory -/

protected theorem MemOk.pteRead {s : State} {q lvl va table : ℕ} (h : MemOk s) :
    MemOk (pteRead q lvl va table s).2 := by
  fun_cases pteRead q lvl va table s <;> grind [MemOk.setSq]

protected theorem MemOk.groupAgrees {s : State} {q va table : ℕ}
    (h : MemOk s) : MemOk (groupAgrees q va table s).2 := by
  unfold Machine.groupAgrees
  refine MemOk.foldlSnd h ?_
  intro p j hp
  exact hp.pteRead

protected theorem MemOk.walk {s : State} {q va : ℕ} {a2 : List ℕ} {a3 : ℕ} (h : MemOk s) :
    MemOk (walk q va a2 a3 s).2 := by
  fun_induction walk q va a2 a3 s <;> grind [MemOk.pteRead, MemOk.groupAgrees]

protected theorem MemOk.walkTop {s : State} {q va : ℕ} (h : MemOk s) : MemOk (walkTop q va s).2 := h.walk

protected theorem MemOk.translatePage {s : State} {home : Option ℕ} {wr : Bool} {va : ℕ} (h : MemOk s) :
    MemOk (translatePage home wr va s).2 := by
  fun_cases translatePage home wr va s <;> grind [MemOk.walkTop]

protected theorem MemOk.translate {s : State} {home : Option ℕ} {wr : Bool} {va : ℕ} (h : MemOk s) :
    MemOk (translate home wr va s).2 := by
  fun_cases translate home wr va s <;> grind [MemOk.translatePage]

protected theorem MemOk.walked {s : State} {va : ℕ} (h : MemOk s) : MemOk (s.walked va) := h.translatePage

protected theorem MemOk.spendBeats {s : State} {dom : Option ℕ} {d n : ℕ} (h : MemOk s) :
    MemOk (s.spendBeats dom d n) := by
  unfold State.spendBeats
  split
  · exact h.spend
  · exact h

protected theorem MemOk.l2Clean {s : State} {dom : Option ℕ} {q line : ℕ} (h : MemOk s) :
    MemOk (s.l2Clean dom q line) :=
  h.setSq.spendBeats

protected theorem MemOk.bitsWritten {s : State} {w : Option (ℕ × ℕ)} {lo n : ℕ} (h : MemOk s) :
    MemOk (s.bitsWritten w lo n) := by
  refine h.mapCores rfl rfl (fun _ => rfl) fun p => ?_
  dsimp only
  split
  · split <;> simp
  · simp

protected theorem MemOk.stashesWritten {s : State} {by_ : Option (ℕ × ℕ)} {va n : ℕ} (h : MemOk s) :
    MemOk (s.stashesWritten by_ va n) :=
  h.bitsWritten

protected theorem MemOk.giveBack {s : State} {c : ℕ} {e : StashEntry} (h : MemOk s) : MemOk (s.giveBack c e) := by
  unfold State.giveBack
  dsimp only
  split
  · have h2 := h.translate.of_eq ‹_›
    exact h2.recall
  · exact (h.setCore (by exact h.coreAt _)).same rfl rfl

protected theorem MemOk.giveBackAll {s : State} {c : ℕ} {which : StashEntry → Bool} (h : MemOk s) :
    MemOk (s.giveBackAll c which) :=
  h.foldl fun _ _ h => h.giveBack

protected theorem MemOk.flushStashes {s : State} {lo hi : ℕ} {out : Bool} (h : MemOk s) :
    MemOk (s.flushStashes lo hi out) :=
  have h : MemOk (s.cores.foldl (fun s p => s.giveBackAll p.1 _) s) := h.foldl fun _ _ h => h.giveBackAll
  .ite (h.mapCores rfl rfl (fun _ => rfl) fun _ => rfl) h

protected theorem MemOk.fillEntry {s : State} {c : ℕ} {e : StashEntry} {pa : ℕ} (h : MemOk s) :
    MemOk (fillEntry s c e pa) := by
  fun_cases fillEntry s c e pa
  grind [MemOk.setCore, MemOk.coreAt, wf_localPut]

protected theorem MemOk.entryBits {s : State} {c : ℕ} {e : StashEntry} {va : ℕ} {b : List Byte} {lo n : ℕ}
    (h : MemOk s) :
    MemOk (s.entryBits c e va b lo n) := by
  fun_cases s.entryBits c e va b lo n
  grind [MemOk.bitsWritten, MemOk.setCore, MemOk.coreAt, wf_localPut]

protected theorem MemOk.entryPut {s : State} {c : ℕ} {e : StashEntry} {va : ℕ} {b : List Byte} (h : MemOk s) :
    MemOk (s.entryPut c e va b) :=
  h.entryBits

protected theorem MemOk.putGlobal {s : State} {va pa : ℕ} {b : List Byte} (h : MemOk s) :
    MemOk (s.putGlobal va pa b) :=
  h.putPhys.stashesWritten

protected theorem MemOk.hvLook {s : State} {wr : Bool} {va : ℕ} (h : MemOk s) : MemOk (hvLook wr va s).2 := by
  fun_cases hvLook wr va s <;> grind [MemOk.translate, MemOk.touch, MemOk.recall]

protected theorem MemOk.hvTry {s : State} {wr : Bool} {va : ℕ} (h : MemOk s) :
    Ends (fun r => MemOk r.2) (hvTry wr va s) := by
  unfold Machine.hvTry
  split
  · have h := h.hvLook.of_eq ‹_›
    exact .ok h
  · exact .stop

protected theorem MemOk.hvSeen {s : State} {va : ℕ} (h : MemOk s) : MemOk (s.hvSeen va) := h.hvLook

protected theorem MemOk.hvPut {s : State} {va : ℕ} {b : List Byte} (h : MemOk s) : Finds MemOk (s.hvPut va b) := by
  unfold State.hvPut
  split
  · have h := h.hvTry.of_ok ‹_›
    exact .some h.putGlobal
  · exact .none

protected theorem MemOk.rightsEntry {s : State} {dom seg : ℕ} (h : MemOk s) :
    rightsReadKeeps (s.rightsEntry dom seg) := by
  fun_cases s.rightsEntry dom seg with
  | case1 | case4 => exact h
  | case2 _ _ _ _ _ e => exact h.hvTry.of_ok e
  | case3 => trivial

protected theorem MemOk.plbLook {s : State} {c dom seg : ℕ} (h : MemOk s) : MemOk (plbLook c dom seg s).2 := by
  have hr : rightsReadKeeps (s.rightsEntry dom seg) := h.rightsEntry
  unfold Machine.plbLook
  dsimp only
  split
  · exact h.setCore (h.coreAt c)
  · split <;> rename_i e <;> rw [e] at hr
    · exact h.hvSeen
    · exact MemOk.setCore hr (MemOk.coreAt hr c)

protected theorem MemOk.metPoison {s : State} {a1 : Option (Agent × ℕ)} (h : MemOk s) : MemOk (s.metPoison a1) := by
  fun_cases s.metPoison a1 <;> grind [MemOk.translate, MemOk.touch]

protected theorem MemOk.waitsFor {s : State} {a : Agent} {va : ℕ} (h : MemOk s) : MemOk (s.waitsFor a va) :=
  MemOk.ite (h.same rfl rfl) h

protected theorem MemOk.waitsNot {s : State} {a : Agent} {va : ℕ} (h : MemOk s) : MemOk (s.waitsNot a va) := h

protected theorem MemOk.engineAt {s : State} {a : Agent} {wr : Bool} {va : ℕ} (h : MemOk s) :
    Ends (fun r => MemOk r.2) (engineAt a wr va s) := by
  unfold Machine.engineAt
  refine .ite .stop ?_
  split
  · exact .stop
  · have h := h.rightsEntry.entry ‹_›
    refine .ite .stop <| .ite .stop ?_
    split
    · exact .stop
    · have h : MemOk _ := MemOk.of_eq h.translate ‹_›
      exact .ite .stop <| .ite .stop <| .ok h.recall.waitsNot.waitsNot.touch

protected theorem MemOk.engineRead {s : State} {a : Agent} {va n : ℕ} (h : MemOk s) :
    Ends (fun r => MemOk r.2) (engineRead a va n s) := by
  unfold Machine.engineRead
  split
  · exact .stop
  · have h := h.engineAt.of_ok ‹_›
    exact .ok h

protected theorem MemOk.engineWrite {s : State} {a : Agent} {va : ℕ} {b : List Byte} (h : MemOk s) :
    Ends MemOk (engineWrite a va b s) := by
  unfold Machine.engineWrite
  split
  · exact .stop
  · have h := h.engineAt.of_ok ‹_›
    exact .ok h.putGlobal

protected theorem MemOk.engineReads {s : State} {a : Agent} {va n : ℕ} (h : MemOk s) :
    Ends (fun r => MemOk r.2) (engineReads a va n s) :=
  .foldlM h fun _ _ h => h.engineRead.bind fun _ h => .ok h

protected theorem MemOk.engineWrites {s : State} {a : Agent} {va : ℕ} {b : List Byte} (h : MemOk s) :
    Ends MemOk (engineWrites a va b s) :=
  .foldlM h fun _ _ h => h.engineWrite

protected theorem MemOk.own {s : State} {ord : ℕ} {lines : List ℕ} (h : MemOk s) : MemOk (s.own ord lines) := h

protected theorem MemOk.disown {s : State} {ord line : ℕ} (h : MemOk s) : MemOk (s.disown ord line) := h

protected theorem MemOk.disownOnce {s : State} {ord line : ℕ} (h : MemOk s) : MemOk (s.disownOnce ord line) := h

protected theorem MemOk.disownAll {s : State} {ord : ℕ} (h : MemOk s) : MemOk (s.disownAll ord) := h

/-! ### Deques, wakes, fault records and graphs -/

protected theorem MemOk.scribble {s : State} {c off n : ℕ} (h : MemOk s) : MemOk (s.scribble c off n) :=
  h.localPut.same rfl rfl

protected theorem MemOk.startBlock {s : State} {c blk : ℕ} (h : MemOk s) : MemOk (s.startBlock c blk) :=
  h.localPut

protected theorem MemOk.linkBlock {s : State} {c blk next : ℕ} (h : MemOk s) : MemOk (s.linkBlock c blk next) :=
  h.localPut

protected theorem MemOk.skipRest {s : State} {c : ℕ} {t : ChainBlk} (h : MemOk s) : MemOk (s.skipRest c t) :=
  h.scribble

protected theorem MemOk.relink {s : State} {c : ℕ} {chain : List ChainBlk} (h : MemOk s) :
    MemOk (s.relink c chain) :=
  h.foldl fun _ _ h => h.linkBlock

protected theorem MemOk.setChain {s : State} {c e : ℕ} {chain : List ChainBlk} (h : MemOk s) :
    MemOk (s.setChain c e chain) :=
  (h.setCore (by exact h.coreAt _)).relink

protected theorem MemOk.chainPlace {s : State} {c e slots seq : ℕ} (h : MemOk s) :
    Finds (fun r => MemOk r.1) (chainPlace c e slots seq s) := by
  fun_cases chainPlace c e slots seq s <;> grind [MemOk.setCore, MemOk.startBlock, MemOk.skipRest, MemOk.setChain,
    MemOk.coreAt, Finds.some, Finds.none]

protected theorem MemOk.chainDone {s : State} {c e seq : ℕ} (h : MemOk s) : MemOk (s.chainDone c e seq) :=
  h.setChain

protected theorem MemOk.completeCmd {s : State} {e : ℕ} {hd : CmdHdr} (h : MemOk s) : MemOk (s.completeCmd e hd) := by
  fun_cases s.completeCmd e hd
  grind [MemOk.setSq, MemOk.disownAll, MemOk.chainDone, memOk_iff]

protected theorem MemOk.writeSpill {s : State} {c : ℕ} (h : MemOk s) : MemOk (s.writeSpill c) :=
  h.foldl fun _ _ h => h.localPut

protected theorem MemOk.fitSpill {s : State} {c : ℕ} (h : MemOk s) : Finds MemOk (s.fitSpill c) := by
  fun_cases s.fitSpill c <;> grind [MemOk.setCore, MemOk.localPut, MemOk.writeSpill, MemOk.scribble, MemOk.coreAt,
    Finds.some, Finds.none]

protected theorem MemOk.pushBottom {s : State} {c : ℕ} {e : Word} (h : MemOk s) : Finds MemOk (s.pushBottom c e) :=
  (h.setCore (by exact h.coreAt _)).fitSpill

protected theorem MemOk.pushTop {s : State} {c : ℕ} {e : Word} (h : MemOk s) : Finds MemOk (s.pushTop c e) :=
  (h.setCore (by exact h.coreAt _)).fitSpill

protected theorem MemOk.dequeDrop {s : State} {c i : ℕ} (h : MemOk s) : MemOk (s.dequeDrop c i) :=
  ((h.setCore (by exact h.coreAt _)).fitSpill).getD (h.setCore (h.coreAt _))

protected theorem MemOk.raiseVector {s : State} {dom v : ℕ} (h : MemOk s) : MemOk (s.raiseVector dom v) := h

protected theorem MemOk.unmaskVector {s : State} {fn v : ℕ} (h : MemOk s) : MemOk (unmaskVector fn v s) :=
  MemOk.ite h.setBar h

protected theorem MemOk.writeCapability {s : State} {w : ℕ × Bool × Bool} (h : MemOk s) :
    MemOk (writeCapability s w) :=
  MemOk.ite (h.setBar.foldl fun _ _ h => h.unmaskVector) h

protected theorem MemOk.wakeSleeper {s : State} {slot : ℕ} (h : MemOk s) : MemOk (s.wakeSleeper slot) :=
  h.mapCores rfl rfl (fun _ => rfl) fun _ => rfl

protected theorem MemOk.later {s : State} {w : HwWork} (h : MemOk s) : MemOk (s.later w) := h

protected theorem MemOk.wakeSlot {s : State} {c slot : ℕ} (h : MemOk s) : wakeResKeeps (wakeSlot c slot s) := by
  fun_cases wakeSlot c slot s <;>
    grind [wakeResKeeps, MemOk.hvTry, Ends.of_ok, MemOk.putGlobal, MemOk.pushBottom, Finds.of_some, MemOk.wakeSleeper]

protected theorem MemOk.tryWake {s : State} {c slot : ℕ} (h : MemOk s) : Finds MemOk (tryWake c slot s) := by
  have hw : wakeResKeeps (wakeSlot c slot s) := h.wakeSlot
  fun_cases tryWake c slot s with
  | case1 _ t e => rw [e] at hw; exact .some hw
  | case2 => exact h.hvPut.map fun _ h => h.later
  | case3 => exact .none

protected theorem MemOk.hwWake {s : State} {c slot : ℕ} (h : MemOk s) : MemOk (s.hwWake c slot) :=
  MemOk.ite h (h.tryWake.getD h.later)

protected theorem MemOk.wakePager {s : State} {c dom : ℕ} (h : MemOk s) : MemOk (s.wakePager c dom) := by
  unfold State.wakePager
  split
  · exact h.hwWake
  · exact h

protected theorem MemOk.haltReport {s : State} {c x dom : ℕ} (h : MemOk s) : MemOk (s.haltReport c x dom) :=
  h.setBar.raiseVector.wakePager

protected theorem MemOk.faultRing {s : State} {d : Domain} (h : MemOk s) :
    Finds (fun r => MemOk r.2.2) (s.faultRing d) := by
  unfold State.faultRing
  split
  · have h := h.hvTry.of_ok ‹_›
    exact .ite .none <| .some h
  · exact .none

protected theorem MemOk.joinRecord {s : State} {f : FaultRec} (h : MemOk s) : MemOk (s.joinRecord f) := by
  have h' : MemOk { s with
      faults := s.faults.map (fun x => if x == f then { f with waiters := f.waiters + 1 } else x) } := h
  unfold State.joinRecord
  dsimp only
  split
  · split
    · exact h'
    · have hr := h'.faultRing.of_some ‹_›
      exact .ite (hr.hvPut.getD hr) hr
  · exact h'

protected theorem MemOk.writeRecord {s : State} {c : ℕ} {f : FaultRec}
    (h : MemOk s) : recResKeeps (s.writeRecord c f) := by
  unfold State.writeRecord
  split
  · trivial
  · split
    · trivial
    · have hr := h.faultRing.of_some ‹_›
      split
      · exact hr
      · dsimp only
        split
        · trivial
        · have hp := (hr.hvPut.bind fun _ h => h.hvPut).of_some ‹_›
          exact hp.wakePager

protected theorem MemOk.openRecord {s : State} {c : ℕ} {f : FaultRec} (h : MemOk s) : MemOk (s.openRecord c f) := by
  have hw : recResKeeps (s.writeRecord c f) := h.writeRecord
  unfold State.openRecord
  cases e : s.writeRecord c f with
  | written n a t => rw [e] at hw; exact hw.same rfl rfl
  | full t => rw [e] at hw; exact hw
  | absent => exact h.same rfl rfl

protected theorem MemOk.recordFault {s : State} {c dom page code w : ℕ} (h : MemOk s) :
    MemOk (s.recordFault c dom page code w) := by
  fun_cases s.recordFault c dom page code w <;> grind [MemOk.joinRecord, MemOk.openRecord]

protected theorem MemOk.rewriteLeaves {s : State} {q va : ℕ} {f : ℕ → ℕ → ℕ} (h : MemOk s) :
    MemOk (s.rewriteLeaves q va f) :=
  h.foldl fun _ _ h => h.putPhys.setSq

protected theorem MemOk.popFrame {s : State} {shift : ℕ} (h : MemOk s) :
    Finds (fun r => MemOk r.2) (s.popFrame shift) :=
  .ite .none <| .some h.putPhys

protected theorem MemOk.promote {s : State} {c dom va w : ℕ} (h : MemOk s) : MemOk (s.promote c dom va w) := by
  fun_cases s.promote c dom va w <;> grind [MemOk.popFrame, MemOk.recordFault, MemOk.rewriteLeaves,
    MemOk.flushStashes, MemOk.setDistrict, Finds.of_some]

protected theorem MemOk.fetchAhead {s : State} {va : ℕ} (h : MemOk s) : MemOk (s.fetchAhead va) := by
  fun_cases s.fetchAhead va <;> grind [MemOk.popFrame, MemOk.setDistrict, Finds.of_some]

protected theorem MemOk.faulted {s : State} {c dom va reason code w : ℕ} (h : MemOk s) :
    MemOk (s.faulted c dom va reason code w) :=
  MemOk.ite h.walked.promote (MemOk.ite h.walked.recordFault h.walked)

protected theorem MemOk.faultedEngine {s : State} {c dom va reason code : ℕ} (h : MemOk s) :
    MemOk (s.faultedEngine c dom va reason code) :=
  h.faulted

protected theorem MemOk.graphEnter {s : State} {id : ℕ} (h : MemOk s) : MemOk (s.graphEnter id) := h

protected theorem MemOk.graphOpen {s : State} {dom : ℕ} {word : Option Word} (h : MemOk s) :
    MemOk (s.graphOpen dom word).2 := h

protected theorem MemOk.finishWord {s : State} {dom va v : ℕ} (h : MemOk s) : MemOk (s.finishWord dom va v) := by
  unfold State.finishWord
  split
  · have h := h.hvPut.of_some ‹_›
    exact h.raiseVector
  · exact h.later

protected theorem MemOk.graphLeave {s : State} {id : ℕ} (h : MemOk s) : MemOk (s.graphLeave id) := by
  unfold State.graphLeave
  split
  · exact h
  · refine MemOk.ite ?_ (h.same rfl rfl)
    dsimp only
    split
    · exact MemOk.finishWord (h.same rfl rfl)
    · exact MemOk.raiseVector (h.same rfl rfl)

protected theorem MemOk.retireSlot {s : State} {c slot : ℕ} {v : Word} {graph : Option ℕ} (h : MemOk s) :
    Finds MemOk (s.retireSlot c slot v graph) := by
  refine h.hvTry.toOption.bind fun _ h => .ite (.bindState (.some h) fun _ h => h.hvPut.bind fun _ h => .some ?_) <|
      (h.hvPut.map fun _ h => h.hwWake).bind fun _ h => h.hvPut.bind fun _ h => .some ?_
  · split
    · exact h.graphLeave
    · exact h
  · split
    · exact h.graphLeave
    · exact h

protected theorem MemOk.hwDo {s : State} {a1 : HwWork} (h : MemOk s) : Finds MemOk (hwDo s a1) := by
  unfold Machine.hwDo
  split
  · exact h.tryWake
  · exact h.pushBottom
  · exact .ite .none h.hvPut
  · exact h.hvPut.map fun _ h => h.raiseVector
  · exact h.retireSlot
  · exact h.hvPut
  · split
    · have h := h.hvTry.of_ok ‹_›
      exact .some h.putLine
    · exact .none

protected theorem MemOk.hwTry {s : State} {w : HwWork} (h : MemOk s) : MemOk (s.hwTry w) :=
  h.hwDo.getD h.later

protected theorem MemOk.askPage {s : State} {w : HwWork} (h : MemOk s) : MemOk (s.askPage w) := by
  refine h.foldl fun _ _ h => ?_
  split
  · exact h
  · exact MemOk.ite h h.faultedEngine

protected theorem MemOk.retryOf {s : State} {which : HwWork → Bool} (h : MemOk s) : MemOk (s.retryOf which) :=
  MemOk.foldl (h.same rfl rfl) fun _ _ h => h.hwTry

protected theorem MemOk.retryHw {s : State} (h : MemOk s) : MemOk (s.retryHw) :=
  ((h.foldl fun _ _ h => h.askPage).retryOf).retryOf

/-! ### What a run has seen -/

protected theorem MemOk.seenHomes {s : State} {t : State} (h : MemOk s) : MemOk (s.seenHomes t) :=
  ((h.foldl fun _ _ h => h.setSq).foldl fun _ _ h => h.setDistrict).same rfl rfl

protected theorem MemOk.seenAs {s : State} {t : State} (h : MemOk s) : MemOk (s.seenAs t) :=
  (h.setCoreCur (by exact h.coreAt _)).seenHomes

protected theorem MemOk.seeing {s : State} {l : List State} (h : MemOk s) : MemOk (s.seeing l) := by
  fun_cases s.seeing l <;> grind [MemOk.seenAs]

/-! ### Registers, accesses and the local memory -/

protected theorem MemOk.takeTrap {s : State} {cause : ℕ} {info : Word} (h : MemOk s) :
    MemOk (takeTrap s cause info) :=
  MemOk.ite h.setCur.haltReport h.setCur

protected theorem MemOk.returnTrap {s : State} (h : MemOk s) : MemOk (returnTrap s) := h.setCur

protected theorem MemOk.backOut {s : State} {st : CtxState} (h : MemOk s) : MemOk (backOut s st) := h.setCur

protected theorem MemOk.dropOut {s : State} {addr : Word} {reason code : ℕ} (h : MemOk s) :
    MemOk (dropOut s addr reason code) :=
  MemOk.faulted (h.setCur.same rfl rfl)

protected theorem MemOk.stopState {s : State} {a1 : Stop} (h : MemOk s) : MemOk (stopState s a1) := by
  unfold Machine.stopState
  split
  · exact h.takeTrap.same rfl rfl
  · exact h.setCur.takeTrap.same rfl rfl
  · exact h.dropOut
  · exact h.backOut
  · exact h.backOut
  · exact h.backOut
  · exact h

protected theorem MemOk.finish {s : State} {e : Except Stop State} (h : MemOk s) (he : Ends MemOk e) :
    Nexts (finish s e) := by
  fun_cases Machine.finish s e with
  | case1 t => exact .next (he t rfl)
  | case2 => exact .fault
  | case3 => exact .next h.stopState

protected theorem MemOk.guarded {s : State} {i : Instr} {b : State → Except Stop State} (h : MemOk s)
    (hb : Ends MemOk (b s)) : Nexts (guarded i s b) :=
  h.finish (.ite hb .stop)

protected theorem MemOk.finishRun {s : State} {m : Run State} (h : MemOk s) (hm : RunEnds MemOk m) :
    Nexts (finishRun s m) :=
  h.seeing.finish hm

protected theorem MemOk.guardedRun {s : State} {i : Instr} {b : State → Run State} (h : MemOk s)
    (hb : RunEnds MemOk (b s)) : Nexts (guardedRun i s b) :=
  .ite (h.finishRun hb) (h.finish .stop)

protected theorem MemOk.setG {s : State} {n : ℕ} {v : Word} (h : MemOk s) : MemOk (s.setG n v) := h.setCur

protected theorem MemOk.readReg {s : State} {f : ℕ} (h : MemOk s) : Ends (fun r => MemOk r.2) (readReg f s) := by
  refine .ite (.ok h) <| .ite ?_ <| .ite ?_ <| .ite ?_ <| .ite (.ok h) <| .ite (.ok h) <| .ite (.ok h) .stop
  · split
    · exact .stop
    · exact .ok h.setCur
  · split
    · exact .stop
    · exact .ok h.setCur
  · split
    · exact .stop
    · exact .ok h

protected theorem MemOk.release {s : State} (h : MemOk s) : Ends MemOk (release s) :=
  .ite (.ok h.setCur) .stop

protected theorem MemOk.ringPut {s : State} {c i pos : ℕ} {b : List Byte} (h : MemOk s) :
    MemOk (ringPut s c i pos b) :=
  h.foldl fun _ _ h => h.localPut

protected theorem MemOk.deliverUnit {s : State} {c x p : ℕ} {k : OpenPkt} {v : Word} {e ab : Bool} (h : MemOk s) :
    MemOk (deliverUnit s c x p k v e ab) := by
  have hr : MemOk (if ab && decide (k.len ≤ k.sent) then s
      else ringPut s k.core k.dest (k.tail + 8 + 8 * k.sent) (leBytes 8 v.toNat)) := .ite h h.ringPut
  have close : ∀ {t : State} {r q}, MemOk t →
      MemOk ((t.setCore k.core { t.coreAt k.core with rings := r }).setCtx c x q) :=
    fun ht => MemOk.setCtx (ht.setCore (ht.coreAt _))
  exact .ite (.ite (close hr.ringPut.localPut) (close hr)) h.setCtx.setCtx

protected theorem MemOk.openPacket {s : State} {p : ℕ} {v : Word} {e : Bool} (h : MemOk s) :
    Ends MemOk (openPacket p v e s) :=
  .ite .stop <| .ite .stop <| .ite .stop <| .ite .stop <| .ite .stop <| .ite .stop <| .ite .stop <| .ite .stop <|
    .ite .stop <| h.release.bind fun _ h => .ite .stop <| .ok h.deliverUnit

protected theorem MemOk.send {s : State} {p : ℕ} {v : Word} {e : Bool} (h : MemOk s) : Ends MemOk (send p v e s) := by
  unfold Machine.send
  split
  · exact h.openPacket
  · exact .ite .stop <| .ite (.ite .stop <| .ok h.deliverUnit) <| .ite .stop <| .ok h.deliverUnit

protected theorem MemOk.abortClose {s : State} {c x : ℕ} (h : MemOk s) : MemOk (abortClose s c x) := by
  refine h.foldl fun _ _ h => ?_
  split
  · exact h
  · exact h.deliverUnit

protected theorem MemOk.writeRegE {s : State} {f : ℕ} {v : Word} {e : Bool} (h : MemOk s) :
    Ends MemOk (writeRegE f v e s) :=
  .ite (.ok h.setG) <| .ite h.send <| .ite h.send <| .ite (.ok h) .stop

protected theorem MemOk.writeReg {s : State} {f : ℕ} {v : Word} (h : MemOk s) : Ends MemOk (writeReg f v s) :=
  h.writeRegE

protected theorem MemOk.rightsGrant {s : State} {k : Access} {ea n : ℕ} (h : MemOk s) :
    RunEnds (fun r => MemOk r.2) (rightsGrant k ea n s) :=
  .ite (.skip fun _ => (RunEnds.held h.plbLook).bind fun _ h => .ite .stop <| .pure h) <|
    (RunEnds.held h.plbLook).bind fun _ h => .ite .stop <| .pure h

protected theorem MemOk.globalGrant {s : State} {k : Access} {ea n : ℕ} (h : MemOk s) :
    RunEnds (fun r => MemOk r.2) (globalGrant k ea n s) := by
  refine h.rightsGrant.bind fun (_, _) h => ?_
  dsimp only
  split
  · exact .stop
  · exact .pure h

protected theorem MemOk.placeAt {s : State} {home : Option ℕ} {k : Access} {ea : ℕ} (h : MemOk s) :
    MemOk (placeAt home k ea s).2 := by
  fun_cases placeAt home k ea s <;> grind [MemOk.translate, MemOk.touch, MemOk.recall]

protected theorem MemOk.globalPlace {s : State} {e : PlbEntry} {k : Access} {ea : ℕ} (h : MemOk s) :
    RunEnds (fun r => MemOk r.2) (globalPlace e k ea s) :=
  .leaves h.placeAt

protected theorem MemOk.accessSpot {s : State} {e : PlbEntry} {k : Access} {ea n : ℕ} (h : MemOk s) :
    RunEnds (fun r => MemOk r.2) (accessSpot e k ea n s) := by
  unfold Machine.accessSpot
  split
  · exact h.globalPlace.bind fun _ h => .pure h
  · exact .ite (.ite .stop <| .ite .stop <| .ite .stop <| .pure h) <| h.globalPlace.bind fun _ h => .pure h.fillEntry

protected theorem MemOk.spotPut {s : State} {w : Spot} {ea : ℕ} {b : List Byte} (h : MemOk s) :
    MemOk (s.spotPut w ea b) := by
  unfold State.spotPut
  split
  · exact h.putPhys.stashesWritten
  · exact h.entryPut

protected theorem MemOk.grantedRead {s : State} {e : PlbEntry} {ea n : ℕ} (h : MemOk s) :
    RunEnds (fun r => MemOk r.2) (grantedRead e ea n s) :=
  h.accessSpot.bind fun _ h => .pure h

protected theorem MemOk.globalRead {s : State} {ea n : ℕ} (h : MemOk s) :
    RunEnds (fun r => MemOk r.2) (globalRead ea n s) :=
  h.globalGrant.bind fun _ h => h.grantedRead

protected theorem MemOk.globalWrite {s : State} {ea : ℕ} {b : List Byte} (h : MemOk s) :
    RunEnds MemOk (globalWrite ea b s) :=
  h.globalGrant.bind fun _ h => h.accessSpot.bind fun _ h => .pure h.spotPut

protected theorem MemOk.globalAtomic {s : State} {ea n : ℕ} {f : ℕ → ℕ} (h : MemOk s) :
    RunEnds (fun r => MemOk r.2) (globalAtomic ea n f s) :=
  h.globalGrant.bind fun _ h => h.accessSpot.bind fun _ h => .pure h.spotPut

protected theorem MemOk.oldOrNew {s : State} {ea : ℕ} {b : List Byte} (h : MemOk s) : MemOk (oldOrNew ea b s).2 := by
  fun_cases oldOrNew ea b s <;> grind [memOk_iff]

protected theorem MemOk.localBytes {s : State} {ea n : ℕ} (h : MemOk s) :
    Ends (fun r => MemOk r.2) (localBytes ea n s) :=
  .skip fun _ => .ok h.oldOrNew

protected theorem MemOk.standing {s : State} {ea n : ℕ} (h : MemOk s) :
    RunEnds (fun r => MemOk r.2) (standing ea n s) :=
  .ite (.skip fun _ => .pure h) h.globalRead

protected theorem MemOk.loadBytes {s : State} {ea n : ℕ} (h : MemOk s) :
    RunEnds (fun r => MemOk r.2) (loadBytes ea n s) :=
  h.standing.bind fun _ h => .pure h.oldOrNew

protected theorem MemOk.loadV {s : State} {ea n : ℕ} (h : MemOk s) : RunEnds (fun r => MemOk r.2) (loadV ea n s) :=
  .ite .stop <| h.loadBytes.bind fun _ h => .pure h

protected theorem MemOk.storeBytes {s : State} {ea : ℕ} {b : List Byte} (h : MemOk s) :
    RunEnds MemOk (storeBytes ea b s) :=
  .ite (.skip fun _ => .pure h.localPut) h.globalWrite

protected theorem MemOk.storeV {s : State} {ea n v : ℕ} (h : MemOk s) : RunEnds MemOk (storeV ea n v s) :=
  .ite .stop h.storeBytes

protected theorem MemOk.atomicV {s : State} {ea n : ℕ} {f : ℕ → ℕ} (h : MemOk s) :
    RunEnds (fun r => MemOk r.2) (atomicV ea n f s) :=
  .ite (.skip fun _ => .ite (.skip fun _ => .skip fun _ => .pure h.localPut) h.globalAtomic) <|
    .ite (.skip fun _ => .skip fun _ => .pure h.localPut) h.globalAtomic

protected theorem MemOk.loadSpan {s : State} {ea n : ℕ} (h : MemOk s) :
    RunEnds (fun r => MemOk r.2) (loadSpan ea n s) :=
  .ite h.loadBytes <| .bindSnd (.foldlM h fun _ _ h => h.standing.bind fun _ h => .pure h) fun _ h =>
    .pure h.oldOrNew

protected theorem MemOk.storeSpan {s : State} {ea : ℕ} {b : List Byte} (h : MemOk s) :
    RunEnds MemOk (storeSpan ea b s) :=
  .ite h.storeBytes <| .foldlM h fun _ _ h => h.storeBytes

protected theorem MemOk.descFetch {s : State} {hd : ℕ} (h : MemOk s) :
    RunEnds (fun r => MemOk r.2) (descFetch hd s) :=
  .ite .stop <| h.rightsGrant.bind fun _ h => .ite (.pure h) <| h.grantedRead.bind fun _ h => .pure h

protected theorem MemOk.setPc {s : State} {pc : Word} (h : MemOk s) : MemOk (s.setPc pc) := h.setCur

/-! ### Flags -/

protected theorem MemOk.raiseFlags {s : State} {f : Fl} (h : MemOk s) : Ends MemOk (raiseFlags f s) :=
  .ite .stop <| .ok h.setCur

/-! ### Operands -/

protected theorem MemOk.readFrom {s s0 : State} {f : ℕ} (h : MemOk s) : Ends (fun r => MemOk r.2) (readFrom s0 f s) :=
  .ite (.skip fun _ => .ok h) h.readReg

protected theorem MemOk.readTwo {s : State} {a b : BitVec 6} (h : MemOk s) :
    Ends (fun r => MemOk r.2.2) (readTwo a b s) :=
  h.readReg.bind fun _ h => h.readFrom.bind fun _ h => .ok h

protected theorem MemOk.readThree {s : State} {a b c : BitVec 6} (h : MemOk s) :
    Ends (fun r => MemOk r.2.2.2) (readThree a b c s) :=
  h.readReg.bind fun _ h => h.readFrom.bind fun _ h => h.readFrom.bind fun _ h => .ok h

protected theorem MemOk.aluRR {s : State} {f : Word → Word → Word} {d a b : BitVec 6} {e : BitVec 1} (h : MemOk s) :
    Ends MemOk (aluRR f d a b e s) :=
  h.readTwo.bind fun _ h => h.writeRegE

protected theorem MemOk.aluR {s : State} {f : Word → Word} {d a : BitVec 6} {e : BitVec 1} (h : MemOk s) :
    Ends MemOk (aluR f d a e s) :=
  h.readReg.bind fun _ h => h.writeRegE

protected theorem MemOk.aluRI {s : State} {f : Word → Word → Word} {d a : BitVec 6} {y : Word} (h : MemOk s) :
    Ends MemOk (aluRI f d a y s) :=
  h.readReg.bind fun _ h => h.writeReg

protected theorem MemOk.withFlags {s : State} {d : BitVec 6} {v : Word} {f : Fl} (h : MemOk s) :
    Ends MemOk (withFlags d v f s) :=
  h.writeReg.bind fun _ h => h.raiseFlags

protected theorem MemOk.floatOut {s : State} {d : BitVec 6} {r : ℕ × Fl} (h : MemOk s) :
    Ends MemOk (floatOut d r s) :=
  h.withFlags

protected theorem MemOk.floatRR {s : State} {f : Val → Val → Val × Fl} {rm : ℕ} {d a b : BitVec 6} (h : MemOk s) :
    Ends MemOk (floatRR f rm d a b s) :=
  h.readTwo.bind fun _ h => h.floatOut

/-! ### Barriers -/

protected theorem MemOk.completePhases {s : State} {f c n : ℕ} (h : MemOk s) : MemOk (completePhases f c n s) := by
  fun_induction Machine.completePhases f c n s with
  | case1 | case3 | case4 => exact h
  | case2 _ _ _ _ _ _ _ ih => exact ih (h.foldl fun t c h => h.setCore (h.coreAt c))

protected theorem MemOk.execHbinit {s : State} {a b : BitVec 6} (h : MemOk s) : Nexts (execHbinit a b s) :=
  h.guarded <| h.readReg.bind fun _ h => .ite .stop <| .ok ((h.setCoreCur (by exact h.coreAt _)).completePhases)

protected theorem MemOk.hbReturn {s : State} {d : BitVec 6} {n : ℕ} (h : MemOk s) : Ends MemOk (hbReturn d n s) := by
  unfold Machine.hbReturn
  split
  · exact .stop
  · exact (h.setCoreCur (by exact h.coreAt _)).writeReg

protected theorem MemOk.execHbarr {s : State} {d b : BitVec 6} (h : MemOk s) : Nexts (execHbarr d b s) := by
  fun_cases Machine.execHbarr d b s with
  | case1 => exact h.finish .stop
  | case2 => exact h.finish (.ite h.hbReturn .stop)
  | case3 => exact h.finish .stop
  | case4 _ _ _ _ t e _ _ _ t' =>
    have ht : MemOk t := h.release.of_ok e
    have ht' : MemOk t' := (ht.setCoreCur (by exact ht.coreAt _)).completePhases
    exact h.finish ht'.hbReturn
  | case5 _ _ _ _ t e _ _ _ t' =>
    have ht : MemOk t := h.release.of_ok e
    have ht' : MemOk t' := (ht.setCoreCur (by exact ht.coreAt _)).completePhases
    exact .next (ht'.backOut.same rfl rfl)

protected theorem MemOk.execHbwait {s : State} {a b : BitVec 6} (h : MemOk s) : Nexts (execHbwait a b s) := by
  refine h.guarded <| h.readReg.bind fun (_, _) h => ?_
  dsimp only
  split
  · exact .stop
  · exact .ite (.ok h) .stop

protected theorem MemOk.execHbtest {s : State} {d a b : BitVec 6} (h : MemOk s) : Nexts (execHbtest d a b s) := by
  refine h.guarded <| h.readReg.bind fun (_, _) h => ?_
  dsimp only
  split
  · exact .stop
  · exact h.writeReg

/-! ### The tile table -/

protected theorem MemOk.tableSet {s : State} {q n dom lane : ℕ} (h : MemOk s) : MemOk (s.tableSet q n dom lane) :=
  MemOk.ite h.setSq h.setSq

/-! ### The region unit -/

protected theorem MemOk.setQ {s : State} {n : ℕ} {v : Region} (h : MemOk s) : MemOk (s.setQ n v) := h.setCur

protected theorem MemOk.operandDesc {s : State} {q : Region} (h : MemOk s) :
    RunEnds (fun r => MemOk r.2) (operandDesc q s) :=
  h.descFetch.bind fun _ h => .skip fun _ => .pure h

protected theorem MemOk.operandsDesc {s : State} {qa qb : Region} (h : MemOk s) :
    RunEnds (fun r => MemOk r.2) (operandsDesc qa qb s) :=
  .ite (.ite (.pure h) <| h.operandDesc.bind fun _ h => .pure h) <| .ite (h.operandDesc.bind fun _ h =>
    .ite .stop <| .pure h) <| .skip fun _ => .skip fun _ => .skip fun _ => .skip fun _ => .ite .stop <|
    .ite .stop .stop

protected theorem MemOk.execRbox {s : State} {d a b : BitVec 6} (h : MemOk s) : Nexts (execRbox d a b s) :=
  h.guardedRun <| h.readReg.lift.bind fun _ h => .ite (h.descFetch.bind fun _ h => .skip fun _ => .skip fun _ =>
    .pure h.setQ) <| h.readFrom.lift.bind fun _ h => .ite .stop <| h.descFetch.bind fun _ h =>
    h.loadSpan.bind fun _ h => .skip fun _ => .ite .stop <| .skip fun _ => .pure h.setQ

protected theorem MemOk.imageRegion {s : State} {addr : ℕ} {b : List Byte} (h : MemOk s) :
    RunEnds (fun r => MemOk r.2) (imageRegion addr b s) := by
  refine .ite (.pure h) <| h.descFetch.bind fun (_, _) h => ?_
  dsimp only
  split
  · exact .stop
  · exact .skip fun _ => .ite .stop <| .pure h

protected theorem MemOk.execRld {s : State} {d a : BitVec 6} (h : MemOk s) : Nexts (execRld d a s) :=
  h.guardedRun <| h.readReg.lift.bind fun _ h => .ite .stop <| h.loadSpan.bind fun _ h =>
    h.imageRegion.bind fun _ h => .pure h.setQ

protected theorem MemOk.execRst {s : State} {d a : BitVec 6} (h : MemOk s) : Nexts (execRst d a s) :=
  h.guardedRun <| h.readReg.lift.bind fun _ h => .ite .stop <| .ite h.storeSpan <| h.descFetch.bind fun _ h =>
    h.storeSpan.bind fun _ h => .skip fun _ => .pure h

protected theorem MemOk.setOp {s : State} {op : Bool → Bool → Bool} {looseB : Bool} {d a b : BitVec 6} (h : MemOk s) :
    RunEnds MemOk (setOp op looseB d a b s) := by
  refine h.operandsDesc.bind fun (_, _) h => ?_
  dsimp only
  split
  · exact .pure h.setQ
  · exact .skip fun _ => .pure h.setQ

protected theorem MemOk.execRuni {s : State} {d a b : BitVec 6} (h : MemOk s) : Nexts (execRuni d a b s) :=
  h.guardedRun h.setOp

protected theorem MemOk.execRint {s : State} {d a b : BitVec 6} (h : MemOk s) : Nexts (execRint d a b s) :=
  h.guardedRun h.setOp

protected theorem MemOk.execRsub {s : State} {d a b : BitVec 6} (h : MemOk s) : Nexts (execRsub d a b s) :=
  h.guardedRun <| .skip fun _ => .ite .stop h.setOp

protected theorem MemOk.oneOp {s : State} {f : Region → List Box} {cover : Region → Bool} {d a : BitVec 6}
    (h : MemOk s) :
    RunEnds MemOk (oneOp f cover d a s) :=
  .ite (.pure h.setQ) <| h.operandDesc.bind fun _ h => .skip fun _ => .pure h.setQ

protected theorem MemOk.execRdil {s : State} {d a b : BitVec 6} (h : MemOk s) : Nexts (execRdil d a b s) :=
  h.guardedRun <| h.readReg.lift.bind fun _ h => h.oneOp

protected theorem MemOk.execRprj {s : State} {d a b : BitVec 6} (h : MemOk s) : Nexts (execRprj d a b s) :=
  h.guardedRun <| h.readReg.lift.bind fun _ h => .ite .stop <| h.loadSpan.bind fun _ h => .ite (.pure h.setQ) <|
    h.descFetch.bind fun _ h => h.descFetch.bind fun _ h => .skip fun _ => .skip fun _ => .ite .stop <|
    .ite .stop <| .skip fun _ => .pure h.setQ

protected theorem MemOk.execRspl {s : State} {d a b : BitVec 6} (h : MemOk s) : Nexts (execRspl d a b s) :=
  h.guardedRun <| h.readReg.lift.bind fun _ h => .ite (.pure h.setQ.setQ) <| h.operandDesc.bind fun _ h =>
    .ite (.ite (.pure h.setQ.setQ) <| .skip fun _ => .skip fun _ => .pure h.setQ.setQ) <| .ite .stop <|
    .skip fun _ => .skip fun _ => .pure h.setQ.setQ

protected theorem MemOk.execRstrd {s : State} {d a b : BitVec 6} (h : MemOk s) : Nexts (execRstrd d a b s) :=
  h.guardedRun <| h.readReg.lift.bind fun _ h => .ite (.pure h.setQ) <| h.operandDesc.bind fun _ h =>
    .ite .stop <| .skip fun _ => .pure h.setQ

protected theorem MemOk.execRrag {s : State} {d a b : BitVec 6} (h : MemOk s) : Nexts (execRrag d a b s) :=
  h.guardedRun <| h.readReg.lift.bind fun _ h => .ite .stop <| .ite .stop <| h.operandDesc.bind fun _ h =>
    .ite .stop <| .pure h.setQ

protected theorem MemOk.execRshf {s : State} {d a b : BitVec 6} (h : MemOk s) : Nexts (execRshf d a b s) :=
  h.guardedRun <| h.readReg.lift.bind fun _ h => h.oneOp

protected theorem MemOk.execRcmp {s : State} {d a b : BitVec 6} (h : MemOk s) : Nexts (execRcmp d a b s) :=
  h.guardedRun <| h.operandsDesc.bind fun _ h => .lift h.writeReg

protected theorem MemOk.execRcnt {s : State} {d a : BitVec 6} (h : MemOk s) : Nexts (execRcnt d a s) :=
  h.guardedRun <| .ite (.lift h.writeReg) <| h.operandDesc.bind fun _ h => .lift h.writeReg

protected theorem MemOk.loadLens {s : State} {table : Word} {n : ℕ} (h : MemOk s) :
    RunEnds (fun r => MemOk r.2) (loadLens table n s) :=
  .foldlM h fun _ _ h => h.loadV.bind fun _ h => .pure h

protected theorem MemOk.execRvol {s : State} {d a : BitVec 6} (h : MemOk s) : Nexts (execRvol d a s) :=
  h.guardedRun <| .ite (.lift h.writeReg) <| .ite (h.operandDesc.bind fun _ h => .lift h.writeReg) <|
    .ite .stop <| h.descFetch.bind fun _ h => h.loadLens.bind fun _ h => .skip fun _ => .lift h.writeReg

protected theorem MemOk.rowLen {s : State} {table : Word} {k : ℕ} (h : MemOk s) :
    RunEnds (fun r => MemOk r.2) (rowLen table k s) :=
  h.loadV

protected theorem MemOk.rowLens {s : State} {q : Region} {rows : List ℕ} (h : MemOk s) :
    RunEnds (fun r => MemOk r.2) (rowLens q rows s) :=
  .foldlM h fun _ _ h => h.rowLen.bind fun _ h => .pure h

protected theorem MemOk.execRtst {s : State} {d a b : BitVec 6} (h : MemOk s) : Nexts (execRtst d a b s) :=
  h.guardedRun <| h.readReg.lift.bind fun _ h => .ite (.lift h.writeReg) <| h.operandDesc.bind fun _ h =>
    .ite (h.rowLens.bind fun _ h => .lift h.writeReg) <| .lift h.writeReg

/-! ### The engines' accesses and commands -/

protected theorem MemOk.byteGrant {s : State} {need : ℕ} {foot : Option Footprint} {report b : ℕ} (h : MemOk s) :
    RunEnds MemOk (byteGrant need foot report b s) :=
  .ite (.pure h) <| .ite .stop <| (RunEnds.held h.plbLook).bind fun _ h => .ite .stop <| .pure h

protected theorem MemOk.bytesGrant {s : State} {need : ℕ} {foot : Option Footprint} {l : List (ℕ × ℕ)} (h : MemOk s) :
    RunEnds MemOk (bytesGrant need foot l s) :=
  .foldlM h fun _ _ h => h.byteGrant

protected theorem MemOk.spanGrant {s : State} {need : ℕ} {foot : Option Footprint} {a n : ℕ} (h : MemOk s) :
    RunEnds MemOk (spanGrant need foot a n s) := by
  unfold Machine.spanGrant
  split
  · exact h.bytesGrant
  · exact h.bytesGrant

protected theorem MemOk.regionSource {s : State} {de : Desc} {cells : List (List ℤ)} (h : MemOk s) :
    RunEnds MemOk (regionSource de cells s) :=
  h.bytesGrant

protected theorem MemOk.regionDest {s : State} {de : Desc} {cells : List (List ℤ)} (h : MemOk s) :
    RunEnds MemOk (regionDest de cells s) :=
  h.bytesGrant

protected theorem MemOk.appendCmd {s : State} {e : ℕ} {q : Option Region} (h : MemOk s) :
    Ends (fun r => MemOk r.2) (appendCmd e q s) := by
  refine h.release.bind fun s h => ?_
  dsimp only
  split
  · exact .stop
  · rename_i t off e
    have h : MemOk (t.scribble s.focus.core off 64) := (h.chainPlace.of_some e).scribble
    cases q with
    | none => exact .ok (h.same rfl rfl)
    | some r =>
      have h : MemOk (State.localPut _ s.focus.core (off + 64) (regionBytes r ++ leBytes 32 0)) := h.localPut
      exact .ok (h.same rfl rfl)

protected theorem MemOk.waitSeq {s : State} {e : ℕ} {a b : BitVec 6} (h : MemOk s) : Ends MemOk (waitSeq e a b s) :=
  h.readTwo.bind fun _ h => .ite (.ok h) .stop

protected theorem MemOk.engineWaits {s : State} {core : ℕ} {a : Agent} {va reason code : ℕ} (h : MemOk s) :
    MemOk (s.engineWaits core a va reason code) :=
  MemOk.ite h h.waitsFor.faultedEngine

protected theorem MemOk.engineStep {s : State} {core : ℕ} {a : Agent} {fail : State → State} {x : Except EStop State}
    (h : MemOk s) (hf : ∀ t, MemOk t → MemOk (fail t)) (hx : Ends MemOk x) : MemOk (engineStep core a fail s x) := by
  unfold Machine.engineStep
  split
  · exact hx _ rfl
  · exact hf _ h.metPoison
  · exact h.engineWaits

protected theorem MemOk.putMasked {s : State} {va pa : ℕ} {l : List (ℕ × Byte)} (h : MemOk s) :
    MemOk (s.putMasked va pa l) :=
  MemOk.ite h.putGlobal (h.foldl fun _ _ h => h.putGlobal)

protected theorem MemOk.localMasked {s : State} {core : ℕ} {l : List (ℕ × Byte)} (h : MemOk s) :
    MemOk (s.localMasked core l) := by
  unfold State.localMasked
  dsimp only
  split
  · exact h
  · exact MemOk.ite h.localPut (h.foldl fun _ _ h => h.localPut)

protected theorem MemOk.agentRead {s : State} {a : Agent} {core addr n : ℕ} (h : MemOk s) :
    Ends (fun r => MemOk r.2) (agentRead a core addr n s) :=
  .ite (.ite (Ends.mapAny fun _ => h) .stop) h.engineReads

protected theorem MemOk.engineGather {s : State} {a : Agent} {core : ℕ} {addrs : List ℕ} (h : MemOk s) :
    Ends (fun r => MemOk r.2) (engineGather a core addrs s) :=
  .bindSnd (.foldlM h fun _ _ h => h.agentRead.bind fun _ h => .ok h) fun _ h => .ok h

protected theorem MemOk.engineScatter {s : State} {a : Agent} {core : ℕ} {l : List (ℕ × Byte)} (h : MemOk s) :
    Ends MemOk (engineScatter a core l s) :=
  .foldlM h fun _ _ h => .ite (.ite (.ok h.localMasked) .stop) <| h.engineAt.bind fun _ h => .ok h.putMasked

protected theorem MemOk.execDesc {s : State} {a : Agent} {q : Region} (h : MemOk s) :
    Ends (fun r => MemOk r.2) (execDesc a q s) := by
  refine .ite (.ok h) ?_
  split
  · exact .ok h.metPoison
  · exact .stop
  · have h := h.engineRead.of_ok ‹_›
    exact .ok h

protected theorem MemOk.engineReadsZero {s : State} {a : Agent} {va n : ℕ} (h : MemOk s) :
    Ends (fun r => MemOk r.2.2) (engineReadsZero a va n s) := by
  refine .foldlM h fun _ _ h => ?_
  split
  · have h := h.engineRead.of_ok ‹_›
    exact .ok h
  · exact .ok h.metPoison
  · exact .stop

protected theorem MemOk.engineWritesSkip {s : State} {a : Agent} {va : ℕ} {b : List Byte} (h : MemOk s) :
    Ends MemOk (engineWritesSkip a va b s) := by
  refine .foldlM h fun _ _ h => ?_
  split
  · have h := h.engineWrite.of_ok ‹_›
    exact .ok h
  · exact .ok h.metPoison
  · exact .stop

/-! ### Tasks -/

protected theorem MemOk.pageServed {s : State} {va : ℕ} (h : MemOk s) :
    RunEnds (fun r => MemOk r.2) (pageServed va s) := by
  unfold Machine.pageServed
  split
  · have h := h.translate.of_eq ‹_›
    exact .leaves h
  · have h := h.translate.of_eq ‹_›
    exact .leaves h

protected theorem MemOk.entryCheck {s : State} {p : ℕ} (h : MemOk s) :
    RunEnds (fun r => MemOk r.2) (entryCheck p s) := by
  refine .ite (.ite (.skip fun _ => ?_) (.skip fun _ => ?_)) ?_ <;>
    refine h.pageServed.bind fun _ h => .ite (.skip fun _ => ?_) ?_ <;>
    exact h.rightsGrant.bind fun _ h => (RunEnds.held h.hvLook).bind fun _ h => .ite .stop <| .ite (.pure h) .stop

protected theorem MemOk.hvWrite {s : State} {va : ℕ} {b : List Byte} (h : MemOk s) :
    RunEnds MemOk (hvWrite va b s) :=
  (RunEnds.held h.hvLook).bind fun _ h => .pure h.putGlobal

protected theorem MemOk.hvRead {s : State} {va n : ℕ} (h : MemOk s) : RunEnds (fun r => MemOk r.2) (hvRead va n s) :=
  (RunEnds.held h.hvLook).bind fun _ h => .pure h

protected theorem MemOk.wakeHeld {s : State} {c slot : ℕ} (h : MemOk s) :
    RunEnds (fun r => MemOk r.2) (wakeHeld c slot s) := by
  have hw : wakeResKeeps (wakeSlot c slot s) := h.wakeSlot
  unfold Machine.wakeHeld
  split <;> rename_i e <;> rw [e] at hw
  · exact .pure hw
  · exact .stop
  · exact .held h.hvLook

protected theorem MemOk.takeTaskId {s : State} {dom : ℕ} (h : MemOk s) : MemOk (takeTaskId dom s).2 := by
  fun_cases takeTaskId dom s <;> grind [MemOk.setDom]

protected theorem MemOk.entryGraph {s : State} {dom : ℕ} (h : MemOk s) : MemOk (entryGraph dom s).2 := by
  fun_cases entryGraph dom s <;> grind [MemOk.graphOpen, MemOk.graphEnter]

protected theorem MemOk.enters {s : State} {p dom : ℕ} (h : MemOk s) : MemOk (s.enters p dom) := h

protected theorem MemOk.enterTask {s : State} {p : ℕ} {b : List Byte} (h : MemOk s) :
    RunEnds (fun r => MemOk r.2) (enterTask p b s) :=
  h.takeTaskId.entryGraph.hvWrite.bind fun _ h => h.hvWrite.bind fun _ h => .pure h.enters

protected theorem MemOk.pushEntry {s : State} {e : Word} (h : MemOk s) : Ends MemOk (pushEntry e s) := by
  unfold Machine.pushEntry
  split
  · have h := h.pushBottom.of_some ‹_›
    exact .ok h
  · exact .stop

protected theorem MemOk.vectorIdle {s : State} (h : MemOk s) : Ends MemOk (vectorIdle s) :=
  .ite .stop <| .ok h

protected theorem MemOk.vsyncWait {s : State} (h : MemOk s) : Ends MemOk (vsyncWait s) :=
  h.vectorIdle.bind fun _ h => .ite .stop <| .ok h

protected theorem MemOk.saveCont {s : State} {state : ℕ} {w : Bool} (h : MemOk s) :
    RunEnds MemOk (saveCont state w s) :=
  h.hvWrite.bind fun _ h => h.hvWrite.bind fun _ h => h.hvWrite

protected theorem MemOk.leaveCur {s : State} (h : MemOk s) : MemOk (leaveCur s) := h.setCur

protected theorem MemOk.slotW {s : State} (h : MemOk s) : RunEnds (fun r => MemOk r.2) (slotW s) :=
  h.hvRead.bind fun _ h => .pure h

protected theorem MemOk.execSpawn {s : State} {d a : BitVec 6} (h : MemOk s) : Nexts (execSpawn d a s) :=
  h.guardedRun <| h.readReg.lift.bind fun _ h => h.entryCheck.bind fun _ h => h.release.lift.bind fun _ h =>
    h.enterTask.bind fun _ h => h.pushEntry.lift.bind fun _ h => .lift h.writeReg

protected theorem MemOk.unlessOpen {s : State}
    {body : State → Run State} (_ : MemOk s) (hb : RunEnds MemOk (body s)) :
    RunEnds MemOk (unlessOpen s body) :=
  .ite .stop hb

protected theorem MemOk.execSpawnx {s : State} {d a : BitVec 6} (h : MemOk s) : Nexts (execSpawnx d a s) :=
  h.guardedRun <| h.unlessOpen <| h.readReg.lift.bind fun _ h => h.entryCheck.bind fun _ h =>
    h.vsyncWait.lift.bind fun _ h => h.release.lift.bind fun _ h => h.enterTask.bind fun _ h =>
    h.slotW.bind fun _ h => h.saveCont.bind fun _ h =>
    .bindState (.lift (MemOk.pushEntry (h.same rfl rfl))) fun _ h => .pure h.leaveCur

protected theorem MemOk.counterAt {s : State} {a : ℕ} (h : MemOk s) : RunEnds (fun r => MemOk r.2) (counterAt a s) :=
  .ite .stop <| h.globalGrant.bind fun _ h => h.accessSpot

protected theorem MemOk.counterPut {s : State} {a : ℕ} {w : Spot} {o : ℕ} {b : List Byte} (h : MemOk s) :
    MemOk (counterPut a w o b s) :=
  h.spotPut

protected theorem MemOk.execTsig {s : State} {d a : BitVec 6} (h : MemOk s) : Nexts (execTsig d a s) :=
  h.guardedRun <| h.readReg.lift.bind fun _ h => h.counterAt.bind fun _ h => h.release.lift.bind fun _ h =>
    .bindState (.ite (h.entryCheck.bind fun _ h => .lift h.counterPut.enters.pushEntry) <| .pure h) fun _ h =>
    .lift ((MemOk.ite h.counterPut h).writeReg)

protected theorem MemOk.depCounter {s : State} {k : ℕ} (h : MemOk s) :
    RunEnds (fun r => MemOk r.2) (depCounter k s) :=
  .tryCatch h.counterAt fun _ => by split <;> exact .stop

protected theorem MemOk.execTdep {s : State} {d a : BitVec 6} (h : MemOk s) : Nexts (execTdep d a s) :=
  h.guardedRun <| h.readReg.lift.bind fun _ h => h.entryCheck.bind fun _ h => .ite .stop <|
    h.depCounter.bind fun _ h => h.release.lift.bind fun _ h => .ite .stop <| h.enterTask.bind fun _ h =>
    .bindState (.ite (.lift h.pushEntry) <| .pure h.counterPut) fun _ h => .lift h.writeReg

protected theorem MemOk.execSusp {s : State} (h : MemOk s) : Nexts (execSusp s) :=
  h.finishRun <| h.unlessOpen <| h.vsyncWait.lift.bind fun _ h => h.release.lift.bind fun _ h =>
    h.hvRead.bind fun _ h => .ite h.hvWrite <| h.saveCont.bind fun _ h => .pure h.leaveCur

protected theorem MemOk.execWake {s : State} {d a : BitVec 6} (h : MemOk s) : Nexts (execWake d a s) :=
  h.guardedRun <| h.readReg.lift.bind fun _ h => .ite .stop <| .ite .stop <| h.release.lift.bind fun _ h =>
    h.wakeHeld.bind fun _ h => .lift h.writeReg

protected theorem MemOk.execYield {s : State} (h : MemOk s) : Nexts (execYield s) := by
  refine h.finishRun <| h.unlessOpen <| h.vsyncWait.lift.bind fun _ h => h.release.lift.bind fun _ h =>
      h.slotW.bind fun _ h => h.saveCont.bind fun _ h => ?_
  split
  · have h := h.pushTop.of_some ‹_›
    exact .pure h.leaveCur
  · exact .stop

protected theorem MemOk.queueJoiner {s : State} {c joiner : ℕ} {v : Word} (h : MemOk s) :
    RunEnds MemOk (queueJoiner c joiner v s) :=
  h.hvWrite.bind fun _ h => h.wakeHeld.bind fun _ h => .pure h

protected theorem MemOk.retireTask {s : State} {c x : ℕ} {v : Word} (h : MemOk s) :
    RunEnds MemOk (retireTask c x v s) :=
  h.hvRead.bind fun _ h => .bindState (.ite h.queueJoiner <| .pure h) fun _ h => h.hvWrite.bind fun _ h =>
    .pure ((MemOk.ite h h.graphLeave).setCtx)

protected theorem MemOk.execTret {s : State} {a : BitVec 6} (h : MemOk s) : Nexts (execTret a s) :=
  h.guardedRun <| h.unlessOpen <| h.readReg.lift.bind fun _ h => h.vsyncWait.lift.bind fun _ h =>
    h.release.lift.bind fun _ h => h.retireTask

protected theorem MemOk.abortTask {s : State} {c x : ℕ} {info : Word} (h : MemOk s) : MemOk (abortTask c x info s) :=
  MemOk.ite h.abortClose.setCtx h.abortClose.setCtx.hwTry

protected theorem MemOk.runningRec {s : State} (h : MemOk s) : RunEnds (fun r => MemOk r.2) (runningRec s) :=
  .ite (.pure h) h.hvRead

protected theorem MemOk.execBktsel {s : State} {d a : BitVec 6} (h : MemOk s) : Nexts (execBktsel d a s) := by
  refine h.guardedRun <| h.readReg.lift.bind fun _ h => .ite .stop <| .ite .stop <| h.loadSpan.bind fun _ h =>
      h.runningRec.bind fun (_, _) h => ?_
  dsimp only
  split
  · exact .lift ((h.foldl fun _ _ h => h.setCur).writeReg)
  · exact .lift ((h.foldl fun _ _ h => h.setCur).writeReg)

protected theorem MemOk.execStealctl {s : State} {d a : BitVec 6} (h : MemOk s) : Nexts (execStealctl d a s) :=
  h.guarded <| h.readReg.bind fun _ h => (h.setCoreCur (by exact h.coreAt _)).writeReg

protected theorem MemOk.execBudget {s : State} {d a b : BitVec 6} (h : MemOk s) : Nexts (execBudget d a b s) :=
  h.guarded <| h.readTwo.bind fun _ h => .ite .stop h.setBudget.writeReg

protected theorem MemOk.wakeWhere {s : State} {c : ℕ} {p : Ctx → Bool} (h : MemOk s) : MemOk (s.wakeWhere c p) :=
  h.setCore (h.coreAt _)

protected theorem MemOk.startPeriod {s : State} {dom res inst : ℕ} (h : MemOk s) :
    MemOk (startPeriod dom res inst s) :=
  MemOk.ite h (MemOk.ite h.setBudget.wakeWhere h.setBudget)

protected theorem MemOk.execBudgetPeriodStart {s : State} {dom res inst : ℕ} (h : MemOk s) :
    Nexts (execBudgetPeriodStart dom res inst s) :=
  MemOk.hwStep h.startPeriod

protected theorem MemOk.execPoolBlockFree {s : State} {core : ℕ} (h : MemOk s) : Nexts (execPoolBlockFree core s) :=
  MemOk.hwStep (MemOk.ite h.wakeWhere h)

protected theorem MemOk.needBytes {s : State} {va n : ℕ} (h : MemOk s) :
    Ends (fun r => MemOk r.2) (needBytes va n s) := by
  unfold Machine.needBytes
  split
  · have h := h.hvTry.of_ok ‹_›
    exact .ok h
  · exact .stop

protected theorem MemOk.needPut {s : State} {va : ℕ} {b : List Byte} (h : MemOk s) : Ends MemOk (needPut va b s) := by
  unfold Machine.needPut
  split
  · have h := h.hvTry.of_ok ‹_›
    exact .ok h.putGlobal
  · exact .stop

protected theorem MemOk.loadFoot {s : State} {a : ℕ} (h : MemOk s) : footResKeeps (loadFoot a s) := by
  have hg : RunEnds (fun r => MemOk r.2) (do
      let (b, s) ← loadSpan a 288 s
      let (q, s) ← imageRegion a b s
      if q.isNull then pure (⟨q, none⟩, s)
      else
        let (db, s) ← descFetch q.handle s
        let d ← descParse s q.handle db
        pure (⟨q, some d⟩, s) : Run (Footprint × State)) :=
    h.loadSpan.bind fun _ h => h.imageRegion.bind fun _ h => .ite (.pure h) <| h.descFetch.bind fun _ h =>
      .skip fun _ => .pure h
  unfold Machine.loadFoot
  split
  · exact h
  · dsimp only
    split
    · exact hg.of_ok ‹_›
    · trivial
    · trivial
    · trivial

protected theorem MemOk.loadFeet {s : State} {b : List Byte} {task : Word} (h : MemOk s) :
    Ends MemOk (loadFeet b task s) := by
  unfold Machine.loadFeet
  split
  · exact .stop
  · exact .ok (MemOk.abortTask h.setCur)
  · have h := h.loadFoot.loaded ‹_›
    split
    · exact .stop
    · exact .ok (MemOk.abortTask h.setCur)
    · exact .ok (h.loadFoot.loaded ‹_›).setCur

protected theorem MemOk.withFocus {s : State} {c x : ℕ} {f : State → Except Blocked State} (h : MemOk s)
    (hf : ∀ t, MemOk t → Ends MemOk (f t)) : Ends MemOk (withFocus c x s f) :=
  Ends.mapOf (hf _ (h.same rfl rfl)) fun t ht => show MemOk { t with focus := s.focus, pin := s.pin } from ht

protected theorem MemOk.retireUnstarted {s : State} {c p : ℕ} {b : List Byte} (h : MemOk s) :
    Ends MemOk (retireUnstarted c p b s) :=
  .ite (.bindState (.ok h) fun _ h => .ok (MemOk.graphLeave (h.same rfl rfl))) <| (h.needPut.mapOf fun _ h =>
    h.hwWake).bind fun _ h => .ok (MemOk.graphLeave (h.same rfl rfl))

protected theorem MemOk.startTask {s : State} {c x i p : ℕ} (h : MemOk s) : Ends MemOk (startTask c x i p s) := by
  refine h.withFocus (fun _ h => h.needBytes.bind fun (_, _) h => ?_)
  dsimp only
  split
  · exact h.dequeDrop.retireUnstarted
  · split
    · exact .stop
    · exact h.dequeDrop.needPut.bind fun _ h => h.needPut.bind fun _ h => h.needPut.bind fun _ h =>
        .ite (MemOk.loadFeet (MemOk.setCur (h.same rfl rfl))) <|
        .ok (MemOk.abortTask (MemOk.setCur (MemOk.setCur (h.same rfl rfl))))

protected theorem MemOk.resumeCont {s : State} {c x i slot : ℕ} (h : MemOk s) :
    Ends MemOk (resumeCont c x i slot s) := by
  refine h.withFocus fun _ h => h.needBytes.bind fun _ h =>
    .ite (.bindSnd (.ok h) fun (_, _) h => ?_) (h.needBytes.bind fun (_, _) h => ?_)
  all_goals
    dsimp only
    split
    · exact .ok h.dequeDrop.hwTry
    · exact h.dequeDrop.needPut.bind fun _ h => .ite (.ok (MemOk.setCur (h.same rfl rfl))) <|
        .ite (MemOk.loadFeet (MemOk.setCur (h.same rfl rfl))) <|
        .ok (MemOk.abortTask (MemOk.setCur (MemOk.setCur (h.same rfl rfl))))

protected theorem MemOk.startEntry {s : State} {c x i : ℕ} {e : Word} (h : MemOk s) :
    Ends MemOk (startEntry c x i e s) :=
  .ite h.resumeCont h.startTask

protected theorem MemOk.askEntry {s : State} {c x : ℕ} {e : Word} (h : MemOk s) : MemOk (askEntry c x s e) := by
  fun_cases askEntry c x s e <;> grind [MemOk.hvSeen, MemOk.faultedEngine]

protected theorem MemOk.askDeque {s : State} {c x v : ℕ} (h : MemOk s) : MemOk (askDeque c x v s) :=
  h.foldl fun _ _ h => h.askEntry

protected theorem MemOk.drawn {s : State} (h : MemOk s) : MemOk (s.drawn) := h

protected theorem MemOk.dispatch {s : State} {cont : Bool} {core ctx : ℕ} (h : MemOk s) :
    MemOk (dispatch cont core ctx s) := by
  have ht : MemOk (if mayDispatch s core ctx then askDeque core ctx core s.drawn else s.drawn) :=
    .ite h.drawn.askDeque h.drawn
  unfold Machine.dispatch
  dsimp only
  split
  · refine .ite ?_ ht
    split
    · exact ht.startEntry.of_ok ‹_›
    · exact ht
  · exact ht

protected theorem MemOk.execDispatchTask {s : State} {core ctx : ℕ} (h : MemOk s) :
    Nexts (execDispatchTask core ctx s) :=
  MemOk.hwStep h.dispatch

protected theorem MemOk.execDispatchContinuation {s : State} {core ctx : ℕ} (h : MemOk s) :
    Nexts (execDispatchContinuation core ctx s) :=
  MemOk.hwStep h.dispatch

protected theorem MemOk.stealFor {s : State} {c x : ℕ} (h : MemOk s) : MemOk (stealFor c x s) := by
  have hs : MemOk ((victims s c).foldl (fun s v => askDeque c x v s) s) := h.foldl fun _ _ h => h.askDeque
  refine .ite h ?_
  dsimp only
  split
  · exact hs
  · split
    · exact hs.drawn
    · exact (hs.drawn.dequeDrop.pushBottom).getD hs.drawn

protected theorem MemOk.execStealRequest {s : State} {core ctx : ℕ} (h : MemOk s) :
    Nexts (execStealRequest core ctx s) :=
  MemOk.hwStep h.stealFor

/-! ### The transfer engine -/

protected theorem MemOk.regionDesc {s : State} {q : Region} (h : MemOk s) :
    RunEnds (fun r => MemOk r.2) (regionDesc q s) :=
  .ite (.pure h) <| h.descFetch.bind fun _ h => .skip fun _ => .pure h

protected theorem MemOk.reserve {s : State} {ch n : ℕ} (h : MemOk s) : MemOk (reserve ch n s).2 := h

protected theorem MemOk.pushTransfer {s : State} {c : TCmd} (h : MemOk s) : MemOk (pushTransfer c s) := h

protected theorem MemOk.copyCells {s : State} {r : CopyRec} {addr : ℕ} {q : Region} {de : Desc} {okRank : Bool}
    (h : MemOk s) :
    RunEnds (fun r => MemOk r.2) (copyCells r addr q de okRank s) :=
  .ite .stop <| .bindState (.ite h.regionDest h.regionSource) fun _ h => .ite (.skip fun _ => .skip fun _ =>
    .ite .stop <| .ite .stop <| .pure h) <| .skip fun _ => .ite .stop <| .ite .stop <| .pure h

protected theorem MemOk.execCopy {s : State} {d a b : BitVec 6} (h : MemOk s) : Nexts (execCopy d a b s) := by
  refine h.guardedRun <| h.readReg.lift.bind fun _ h => .skip fun _ => h.regionDesc.bind fun _ h =>
      .bindSnd ?_ fun _ h => h.appendCmd.lift.bind fun _ h =>
      .lift (((MemOk.ite h.reserve.own h.reserve).pushTransfer).writeReg)
  split
  · exact .ite (.ite .stop <| .ite .stop <| .pure h) h.copyCells
  · exact .ite .stop <| .pure h

protected theorem MemOk.leaveQueue {s : State} {q : ℕ} {c : TCmd} (h : MemOk s) : MemOk (leaveQueue q c s) :=
  h.setSq.completeCmd

protected theorem MemOk.passDead {s : State} {q ch a2 : ℕ} (h : MemOk s) : MemOk (passDead q ch a2 s) := by
  fun_induction passDead q ch a2 s <;> grind [MemOk.setSq]

protected theorem MemOk.finishTransfer {s : State} {q : ℕ} {c : TCmd} (h : MemOk s) : MemOk (finishTransfer q c s) :=
  h.leaveQueue.passDead

protected theorem MemOk.advance {s : State} {q : ℕ} {c : TCmd} {oor fail : ℕ} (h : MemOk s) :
    MemOk (advance q c oor fail s) :=
  MemOk.ite h.setSq.finishTransfer h.setSq

protected theorem MemOk.touchHot {s : State} {line : ℕ} (h : MemOk s) : MemOk (touchHot line s) := by
  unfold Machine.touchHot
  split
  · exact h
  · exact h.setSq

protected theorem MemOk.touchReuse {s : State} {reuse : ℕ} {addrs : List ℕ} (h : MemOk s) :
    MemOk (touchReuse reuse addrs s) :=
  MemOk.ite (h.foldl fun _ _ h => h.touchHot) h

protected theorem MemOk.execReuseCountHalving {s : State} {sq : ℕ} (h : MemOk s) :
    Nexts (execReuseCountHalving sq s) :=
  MemOk.hwStep h.setSq

protected theorem MemOk.applied {s : State} {a : Agent} {core : ℕ} {q : Region} {cells : List (List ℤ)}
    (h : MemOk s) :
    Ends (fun r => MemOk r.2) (applied a core q cells s) :=
  .ite (.ok h) <| .bindSnd (.foldlM h fun _ _ h => h.agentRead.bind fun _ h => .ok h) fun _ h => .ok h

protected theorem MemOk.stashPlace {s : State} {c line dom : ℕ}
    (h : MemOk s) : MemOk (stashPlace c line dom s).2 := by
  fun_cases stashPlace c line dom s <;> grind [MemOk.setCore, MemOk.giveBack, MemOk.coreAt]

protected theorem MemOk.stashUnit {s : State} {c : TCmd} {line : ℕ} (h : MemOk s) :
    Ends MemOk (stashUnit c line s) :=
  .ite (.ok h) <| h.engineAt.bind fun _ h => .ok h.stashPlace.fillEntry.touchReuse

protected theorem MemOk.copyUnit {s : State} {c : TCmd} {de : Desc} {u : ℕ} (h : MemOk s) :
    Ends MemOk (copyUnit c de u s) :=
  h.applied.bind fun _ h => .ite (.ok h) <| .ite (.ite .stop <| h.engineGather.bind fun _ h =>
    .ok h.localMasked.touchReuse) <| .ite (.ite (.skip fun _ => h.engineScatter.bind fun _ h =>
    .ok h.touchReuse) <| h.engineScatter.bind fun _ h => .ok h.touchReuse) h.stashUnit

protected theorem MemOk.startTransfer {s : State} {q : ℕ} {c : TCmd} (h : MemOk s) :
    Ends (fun r => MemOk r.2) (startTransfer q c s) :=
  .ite (.ok h) <| .bindSnd (.ite h.execDesc <| .ok h) fun _ h => .ok h.setSq

protected theorem MemOk.unitStep {s : State} {q : ℕ} {c : TCmd}
    {f : TCmd → Desc → Nat → State → Except EStop State} (h : MemOk s)
    (hf : ∀ c d u t, MemOk t → Ends MemOk (f c d u t)) : MemOk (unitStep q c f s) := by
  have hfail : ∀ (c : TCmd) (u : Nat) (t : State), MemOk t →
      MemOk (advance q c 0 1 (if c.kind = .copy then t.disown c.hdr.ord u else t)) :=
    fun c u t h => MemOk.advance (.ite h.disown h)
  unfold Machine.unitStep
  split
  · exact h.finishTransfer
  · dsimp only
    split
    · exact h.engineStep (hfail _ _) .stop
    · have ht := h.startTransfer.of_ok ‹_›
      split
      · exact hfail _ _ _ ht
      · exact MemOk.engineStep ht (hfail _ _) (hf _ _ _ _ ht)

protected theorem MemOk.inTurn {s : State} {kind : TKind} {q ch : ℕ} {f : State → State} (h : MemOk s)
    (hf : ∀ t, MemOk t → MemOk (f t)) : MemOk (inTurn kind q ch f s) :=
  .ite (hf _ h.setSq) h

protected theorem MemOk.copyStep {s : State} {q ch : ℕ} (h : MemOk s) : MemOk (copyStep q ch s) := by
  unfold Machine.copyStep
  split
  · exact h
  · exact MemOk.ite h (h.unitStep (fun _ _ _ _ h => h.copyUnit.mapOf fun _ h => h.disown.advance))

protected theorem MemOk.execCopyUnitDelivery {s : State} {sq ch : ℕ} (h : MemOk s) :
    Nexts (execCopyUnitDelivery sq ch s) :=
  MemOk.hwStep (h.inTurn (fun _ h => h.copyStep))

protected theorem MemOk.execCwp {s : State} {d a : BitVec 6} (h : MemOk s) : Nexts (execCwp d a s) :=
  h.guarded <| h.readReg.bind fun _ h => h.writeReg

protected theorem MemOk.execCwait {s : State} {a b : BitVec 6} (h : MemOk s) : Nexts (execCwait a b s) :=
  h.guardedRun <| h.readReg.lift.bind fun _ h => .ite (.pure h) <| h.operandDesc.bind fun _ h => .ite (.pure h) <|
    .stop

protected theorem MemOk.execTseq {s : State} {d a : BitVec 6} (h : MemOk s) : Nexts (execTseq d a s) :=
  h.guarded <| h.readReg.bind fun _ h => h.writeReg

protected theorem MemOk.execTseqWt {s : State} {a b : BitVec 6} (h : MemOk s) : Nexts (execTseqWt a b s) :=
  h.guarded h.waitSeq

protected theorem MemOk.execPres {s : State} {d a : BitVec 6} (h : MemOk s) : Nexts (execPres d a s) :=
  h.guardedRun <| .ite (.pure h.setQ) <| .ite .stop <| h.descFetch.bind fun _ h =>
    .bindSnd (.ite (h.loadLens.bind fun _ h => .pure h) <| .pure h) fun _ h => .skip fun _ => .skip fun _ =>
    .pure h.setQ

protected theorem MemOk.gather {s : State} {out : Bool} {d a b : BitVec 6} (h : MemOk s) :
    RunEnds MemOk (gather out d a b s) := by
  refine h.readReg.lift.bind fun _ h => .skip fun _ => .skip fun _ => h.regionDesc.bind fun _ h =>
      .bindState ?_ fun _ h => .skip fun _ => .ite .stop <| .ite .stop <| .ite .stop <|
      h.appendCmd.lift.bind fun _ h => .lift (MemOk.writeReg (MemOk.pushTransfer ?_))
  · split
    · exact .bindState (.ite h.regionDest h.regionSource) fun _ h => .skip fun _ => .pure h
    · exact .pure h
  · split
    · exact h.reserve.own
    · exact h.reserve

protected theorem MemOk.execGath {s : State} {d a b : BitVec 6} (h : MemOk s) : Nexts (execGath d a b s) :=
  h.guardedRun h.gather

protected theorem MemOk.execScat {s : State} {d a b : BitVec 6} (h : MemOk s) : Nexts (execScat d a b s) :=
  h.guardedRun h.gather

protected theorem MemOk.indexValue {s : State} {c : TCmd} {hd : Shape} {e : ℕ} (h : MemOk s) :
    Ends (fun r => MemOk r.2) (indexValue c hd e s) :=
  .ite .stop <| h.agentRead.bind fun _ h => .ok h

protected theorem MemOk.runInside {s : State} {c : TCmd} {de : Desc} {v : ℕ} (h : MemOk s) :
    Ends (fun r => MemOk r.2) (runInside c de v s) := by
  unfold Machine.runInside
  split
  · exact .ok h
  · exact .ite (h.applied.bind fun _ h => .ok h) <| .ok h

protected theorem MemOk.elementUnit {s : State} {c : TCmd} {de : Desc} {hd : Shape} (h : MemOk s) :
    Ends (fun r => MemOk r.2.2) (elementUnit c de hd s) := by
  refine h.indexValue.bind fun _ h => h.runInside.bind fun (_, _) h => ?_
  dsimp only
  split
  · exact .ite (.ok h) <| .ite .stop <| .ok h.localPut
  · exact .ite (.skip fun _ => .ite (.skip fun _ => h.engineScatter.bind fun _ h => .ok h.touchReuse) <|
      h.engineScatter.bind fun _ h => .ok h.touchReuse) <| .ite .stop <| .bindSnd (.ite (.ok h) h.engineGather)
      fun _ h => .ok h.localPut.touchReuse

protected theorem MemOk.elementStep {s : State} {kind : TKind} {q ch : ℕ} (h : MemOk s) :
    MemOk (elementStep kind q ch s) := by
  unfold Machine.elementStep
  split
  · exact h
  · refine MemOk.ite h ?_
    split
    · exact h
    · exact h.unitStep (fun _ _ _ _ h => h.elementUnit.mapOf fun _ h => h.advance)

protected theorem MemOk.execGatherElementDelivery {s : State} {sq ch : ℕ} (h : MemOk s) :
    Nexts (execGatherElementDelivery sq ch s) :=
  MemOk.hwStep (h.inTurn (fun _ h => h.elementStep))

protected theorem MemOk.execScatterElementWrite {s : State} {sq ch : ℕ} (h : MemOk s) :
    Nexts (execScatterElementWrite sq ch s) :=
  MemOk.hwStep (h.inTurn (fun _ h => h.elementStep))

protected theorem MemOk.setF {s : State} {n : ℕ} {v : Fibre} (h : MemOk s) : MemOk (s.setF n v) := h.setCur

protected theorem MemOk.execFopen {s : State} {d a : BitVec 6} (h : MemOk s) : Nexts (execFopen d a s) :=
  h.guardedRun <| h.readReg.lift.bind fun _ h => .ite .stop <| h.loadSpan.bind fun _ h => .ite .stop <|
    .ite .stop <| .ite .stop <| .bindSnd (.ite h.loadV <| .pure h) fun _ h => .pure h.setF

protected theorem MemOk.fibreAdvanced {s : State} {f : Fibre} (h : MemOk s) :
    RunEnds (fun r => MemOk r.2) (Fibre.advanced f s) :=
  .ite (.pure h) <| h.loadV.bind fun _ h => .pure h

protected theorem MemOk.execFnext {s : State} {d a : BitVec 6} (h : MemOk s) : Nexts (execFnext d a s) :=
  h.guardedRun <| .skip fun _ => .ite (.lift h.setF.writeReg) <| h.fibreAdvanced.bind fun _ h =>
    .lift h.setF.writeReg

protected theorem MemOk.fibreSeek {s : State} {key n : ℕ} {f : Fibre} (h : MemOk s) :
    RunEnds (fun r => MemOk r.2) (fibreSeek key n f s) := by
  induction n generalizing f s with
  | zero => exact .pure h
  | succ n ih => exact .ite (.pure h) <| .ite (.pure h) <| .ite (.pure h) <| h.fibreAdvanced.bind fun _ h => ih h

protected theorem MemOk.execFnextge {s : State} {d a b : BitVec 6} (h : MemOk s) : Nexts (execFnextge d a b s) := by
  refine h.guardedRun <| .skip fun _ => h.readReg.lift.bind fun _ h =>
      .bindSnd (.ite (.pure h) h.fibreSeek) fun (_, _) h => ?_
  dsimp only
  split
  · exact .lift h.setF.writeReg
  · exact .lift h.setF.writeReg

protected theorem MemOk.execFend {s : State} {d a : BitVec 6} (h : MemOk s) : Nexts (execFend d a s) :=
  h.guarded <| .skip fun _ => h.writeReg

protected theorem MemOk.execFclose {s : State} {a : BitVec 6} (h : MemOk s) : Nexts (execFclose a s) :=
  h.finish <| .ite .stop <| .ok h.setF

protected theorem MemOk.execMigr {s : State} {a : BitVec 6} (h : MemOk s) : Nexts (execMigr a s) :=
  h.guardedRun <| h.unlessOpen <| h.readReg.lift.bind fun _ h => h.vsyncWait.lift.bind fun _ h => .ite .stop <|
    h.byteGrant.bind fun _ h => h.release.lift.bind fun _ h => h.slotW.bind fun _ h => h.saveCont.bind fun _ h =>
    h.appendCmd.lift.bind fun _ h => .pure h.pushTransfer.leaveCur

protected theorem MemOk.shipStep {s : State} {q core : ℕ} (h : MemOk s) : MemOk (shipStep q core s) := by
  fun_cases shipStep q core s <;> grind [MemOk.pushBottom, MemOk.finishTransfer, Finds.of_some]

protected theorem MemOk.execMigrationShip {s : State} {sq core : ℕ} (h : MemOk s) :
    Nexts (execMigrationShip sq core s) :=
  MemOk.hwStep h.shipStep

/-! ### The vector unit -/

protected theorem MemOk.vOperandGrant {s : State} {o : VOperand} (h : MemOk s) :
    RunEnds MemOk (VOperand.grant o s) := by
  refine .ite ?_ <| .foldlM h fun _ _ h => .ite (.skip fun _ => .pure h) <| .bindState (.ite h.byteGrant <|
      .pure h) fun _ h => .ite h.byteGrant <| .pure h
  split
  · exact .stop
  · exact .pure h

protected theorem MemOk.checkOperands {s : State} {os : List VOperand} (h : MemOk s) :
    RunEnds MemOk (checkOperands os s) := by
  unfold Machine.checkOperands
  dsimp only
  split
  · exact .stop
  · exact .bindState (.foldlM h fun _ _ h => h.vOperandGrant) fun _ h => by
      split
      · exact .stop
      · exact .pure h

protected theorem MemOk.recheckOperands {s : State} {os : List VOperand} (h : MemOk s) :
    RunEnds MemOk (recheckOperands os s) := by
  unfold Machine.recheckOperands
  split
  · exact .stop
  · exact .foldlM h fun _ _ h => h.vOperandGrant

protected theorem MemOk.makeRoom {s : State} (h : MemOk s) : Ends MemOk (makeRoom s) := by
  refine .ite (.ok h) ?_
  split
  · exact .ok h
  · exact .ite (.ok h.setCur) .stop

protected theorem MemOk.queueEntry {s : State} {i : Instr} {scalar : Word} (h : MemOk s) :
    RunEnds MemOk (queueEntry i scalar s) := by
  unfold Machine.queueEntry
  split
  · exact .stop
  · exact .ite .stop <| .skip fun _ => .skip fun _ => .skip fun _ => .skip fun _ => .ite (.skip fun _ =>
      h.checkOperands.bind fun _ h => .ite .stop <| h.makeRoom.lift.bind fun _ h => .pure h.setCur) <|
      h.checkOperands.bind fun _ h => .ite .stop <| h.makeRoom.lift.bind fun _ h => .pure h.setCur

protected theorem MemOk.pieceSpot {s : State} {x : VAgent} {wr : Bool} {va : ℕ} (h : MemOk s) :
    Ends (fun r => MemOk r.2) (pieceSpot x wr va s) := by
  unfold Machine.pieceSpot
  split
  · exact h.engineAt.bind fun _ h => .ok h
  · split
    · split
      · exact .stop
      · have h := h.rightsEntry.entry ‹_›
        exact .ite .stop <| .ite .stop <| .ite .stop <| .ok h
    · exact h.engineAt.bind fun _ h => .ok h.fillEntry

protected theorem MemOk.pieceRead {s : State} {x : VAgent} {va n : ℕ} (h : MemOk s) :
    Ends (fun r => MemOk r.2) (pieceRead x va n s) :=
  .ite (Ends.mapAny fun _ => h) <| h.pieceSpot.bind fun _ h => .ok h

protected theorem MemOk.pieceUpdate {s : State} {x : VAgent} {va n lo w : ℕ} {f : List Byte → List Byte}
    (h : MemOk s) :
    Ends MemOk (pieceUpdate x va n lo w f s) := by
  refine .ite (.ok (h.setCore (wf_localBits (h.coreAt _)))) <| h.pieceSpot.bind fun _ h => .ok ?_
  split
  · exact h.putPhys.bitsWritten
  · exact h.entryBits

protected theorem MemOk.pieceWrite {s : State} {x : VAgent} {va : ℕ} {b : List Byte} (h : MemOk s) :
    Ends MemOk (pieceWrite x va b s) :=
  h.pieceUpdate

protected theorem MemOk.elRead {s : State} {x : VAgent} {hd : Shape} {i : ℕ} (h : MemOk s) :
    Ends (fun r => MemOk r.2) (elRead x hd i s) :=
  .foldlM h fun _ _ h => h.pieceRead.bind fun _ h => .ok h

protected theorem MemOk.readEl {s : State} {x : VAgent} {hd : Shape} {i : ℕ} (h : MemOk s) :
    Ends (fun r => MemOk r.2) (readEl x hd i s) := by
  refine .ite (.ok h) ?_
  split
  · have h := h.elRead.of_ok ‹_›
    exact .ok h
  · exact .ok h.metPoison
  · exact .stop

protected theorem MemOk.nbrWrite {s : State} {c off v : ℕ} (h : MemOk s) : MemOk (nbrWrite c off v s) :=
  h.localPut.setCore (h.localPut.coreAt _)

protected theorem MemOk.subWrite {s : State} {x : VAgent} {o : OldEl} {q : ℕ × ℕ} (h : MemOk s) :
    Ends MemOk (subWrite x o q s) := by
  fun_cases subWrite x o q s
  grind [MemOk.pieceUpdate]

protected theorem MemOk.writeEl {s : State} {x : VAgent} {hd : Shape} {i code : ℕ} (h : MemOk s) :
    Ends MemOk (writeEl x hd i code s) := by
  unfold Machine.writeEl
  refine .ite (.ok h.nbrWrite) ?_
  dsimp only
  split
  · exact .ok h.metPoison
  · exact .ite (.foldlM h fun _ _ h => h.subWrite) h.pieceWrite

protected theorem MemOk.readOpt {s : State} {x : VAgent} {hd : Option Shape} {i : ℕ} (h : MemOk s) :
    Ends (fun r => MemOk r.2) (readOpt x hd i s) := by
  unfold Machine.readOpt
  split
  · exact h.readEl
  · exact .ok h

protected theorem MemOk.runPass {s : State} {x : VAgent} {e : VEntry} {f : VForm} {c : NumCtx} {ext is : List ℕ}
    {p : VAcc} (h : MemOk s) :
    Ends (fun r => MemOk r.2) (runPass x e f c ext is p s) := by
  refine .bindSndSnd (.foldlM h fun _ _ h => .ite (h.readOpt.bind fun _ h => h.readOpt.bind fun _ h =>
      .bindSnd (.ite h.readOpt <| .ok h) fun _ h => .ok h) <| .ok h) fun _ h =>
      .bindState (.foldlM h fun _ _ h => ?_) fun _ h => .ok h
  split
  · exact h.writeEl
  · exact .ok h

protected theorem MemOk.runEntry {s : State} {core : ℕ} {e : VEntry} (h : MemOk s) :
    Ends (fun r => MemOk r.2) (runEntry core e s) := by
  unfold Machine.runEntry
  split
  · exact .foldlM h fun _ _ h => h.runPass
  · exact .ok h

protected theorem MemOk.beginFrom {s : State} {core : ℕ} {a1 : List ℕ}
    (h : MemOk s) : MemOk (beginFrom core a1 s) := by
  fun_induction beginFrom core a1 s <;> grind [MemOk.setCore, MemOk.engineWaits, MemOk.coreAt, Core.mem_setCtx]

protected theorem MemOk.execVectorEntryBegin {s : State} {core : ℕ} (h : MemOk s) :
    Nexts (execVectorEntryBegin core s) :=
  MemOk.hwStep (MemOk.ite h h.beginFrom)

protected theorem MemOk.rearm {s : State} {core x : ℕ} (h : MemOk s) : MemOk (rearm core x s) :=
  MemOk.ite h ((h.foldl fun _ _ h => h.localPut).setCtx)

protected theorem MemOk.completeEntry {s : State} {core : ℕ} (h : MemOk s) : MemOk (completeEntry core s) := by
  unfold Machine.completeEntry
  split
  · exact h
  · dsimp only
    split
    · exact h.setCore (h.coreAt _)
    · split
      · exact h
      · exact h.engineStep (fun _ h => h) (h.runEntry.mapOf fun _ h => (h.setCore (by exact h.coreAt _)).rearm)

protected theorem MemOk.execVectorEntryComplete {s : State} {core : ℕ} (h : MemOk s) :
    Nexts (execVectorEntryComplete core s) :=
  MemOk.hwStep h.completeEntry

protected theorem MemOk.execVadd {s : State} {hd a b : BitVec 4} {m r : BitVec 3} {t : BitVec 6} (h : MemOk s) :
    Nexts (execVadd hd a b m r t s) :=
  h.guardedRun h.queueEntry

protected theorem MemOk.execVsub {s : State} {hd a b : BitVec 4} {m r : BitVec 3} {t : BitVec 6} (h : MemOk s) :
    Nexts (execVsub hd a b m r t s) :=
  h.guardedRun h.queueEntry

protected theorem MemOk.execVmul {s : State} {hd a b : BitVec 4} {m r : BitVec 3} {t : BitVec 6} (h : MemOk s) :
    Nexts (execVmul hd a b m r t s) :=
  h.guardedRun h.queueEntry

protected theorem MemOk.execVfma {s : State} {hd a b : BitVec 4} {m r : BitVec 3} {t : BitVec 6} (h : MemOk s) :
    Nexts (execVfma hd a b m r t s) :=
  h.guardedRun h.queueEntry

protected theorem MemOk.execVmin {s : State} {hd a b : BitVec 4} {m : BitVec 3} {t : BitVec 6} (h : MemOk s) :
    Nexts (execVmin hd a b m t s) :=
  h.guardedRun h.queueEntry

protected theorem MemOk.execVmax {s : State} {hd a b : BitVec 4} {m : BitVec 3} {t : BitVec 6} (h : MemOk s) :
    Nexts (execVmax hd a b m t s) :=
  h.guardedRun h.queueEntry

protected theorem MemOk.execVabs {s : State} {hd a : BitVec 4} {m : BitVec 3} {t : BitVec 6} (h : MemOk s) :
    Nexts (execVabs hd a m t s) :=
  h.guardedRun h.queueEntry

protected theorem MemOk.execVneg {s : State} {hd a : BitVec 4} {m : BitVec 3} {t : BitVec 6} (h : MemOk s) :
    Nexts (execVneg hd a m t s) :=
  h.guardedRun h.queueEntry

protected theorem MemOk.execVand {s : State} {hd a b : BitVec 4} {m : BitVec 3} {t : BitVec 6} (h : MemOk s) :
    Nexts (execVand hd a b m t s) :=
  h.guardedRun h.queueEntry

protected theorem MemOk.execVor {s : State} {hd a b : BitVec 4} {m : BitVec 3} {t : BitVec 6} (h : MemOk s) :
    Nexts (execVor hd a b m t s) :=
  h.guardedRun h.queueEntry

protected theorem MemOk.execVxor {s : State} {hd a b : BitVec 4} {m : BitVec 3} {t : BitVec 6} (h : MemOk s) :
    Nexts (execVxor hd a b m t s) :=
  h.guardedRun h.queueEntry

protected theorem MemOk.execVshl {s : State} {hd a b : BitVec 4} {m : BitVec 3} {t : BitVec 6} (h : MemOk s) :
    Nexts (execVshl hd a b m t s) :=
  h.guardedRun h.queueEntry

protected theorem MemOk.execVshr {s : State} {hd a b : BitVec 4} {m : BitVec 3} {t : BitVec 6} (h : MemOk s) :
    Nexts (execVshr hd a b m t s) :=
  h.guardedRun h.queueEntry

protected theorem MemOk.execVcmp {s : State} {hd a b : BitVec 4} {m c : BitVec 3} {t : BitVec 6} (h : MemOk s) :
    Nexts (execVcmp hd a b m c t s) :=
  h.guardedRun h.queueEntry

protected theorem MemOk.execVsel {s : State} {hd a b : BitVec 4} {k : BitVec 3} {t : BitVec 6} (h : MemOk s) :
    Nexts (execVsel hd a b k t s) :=
  h.guardedRun h.queueEntry

protected theorem MemOk.execVcvt {s : State} {hd a sr : BitVec 4} {m v : BitVec 3} {t : BitVec 6} (h : MemOk s) :
    Nexts (execVcvt hd a sr m v t s) :=
  h.guardedRun h.queueEntry

protected theorem MemOk.execVcvtHi {s : State} {hd a sr : BitVec 4} {m v : BitVec 3} {t : BitVec 6} (h : MemOk s) :
    Nexts (execVcvtHi hd a sr m v t s) :=
  h.guardedRun h.queueEntry

protected theorem MemOk.execVbcast {s : State} {hd : BitVec 4} {a : BitVec 6} {m : BitVec 3} {t : BitVec 6}
    (h : MemOk s) :
    Nexts (execVbcast hd a m t s) :=
  h.guardedRun <| h.readReg.lift.bind fun _ h => h.queueEntry

protected theorem MemOk.execViota {s : State} {hd : BitVec 4} {m : BitVec 3} {t : BitVec 6} (h : MemOk s) :
    Nexts (execViota hd m t s) :=
  h.guardedRun h.queueEntry

protected theorem MemOk.execVredAdd {s : State} {hd a : BitVec 4} {m : BitVec 3} {t : BitVec 6} (h : MemOk s) :
    Nexts (execVredAdd hd a m t s) :=
  h.guardedRun h.queueEntry

protected theorem MemOk.execVredMax {s : State} {hd a : BitVec 4} {m : BitVec 3} {t : BitVec 6} (h : MemOk s) :
    Nexts (execVredMax hd a m t s) :=
  h.guardedRun h.queueEntry

protected theorem MemOk.execVredMin {s : State} {hd a : BitVec 4} {m : BitVec 3} {t : BitVec 6} (h : MemOk s) :
    Nexts (execVredMin hd a m t s) :=
  h.guardedRun h.queueEntry

protected theorem MemOk.execVscanInc {s : State} {hd a : BitVec 4} {k : BitVec 3} {t : BitVec 6} (h : MemOk s) :
    Nexts (execVscanInc hd a k t s) :=
  h.guardedRun h.queueEntry

protected theorem MemOk.execVscanMaxinc {s : State} {hd a : BitVec 4} {k : BitVec 3} {t : BitVec 6} (h : MemOk s) :
    Nexts (execVscanMaxinc hd a k t s) :=
  h.guardedRun h.queueEntry

protected theorem MemOk.execVscanMininc {s : State} {hd a : BitVec 4} {k : BitVec 3} {t : BitVec 6} (h : MemOk s) :
    Nexts (execVscanMininc hd a k t s) :=
  h.guardedRun h.queueEntry

protected theorem MemOk.execVscanExc {s : State} {hd a : BitVec 4} {k : BitVec 3} {t : BitVec 6} (h : MemOk s) :
    Nexts (execVscanExc hd a k t s) :=
  h.guardedRun h.queueEntry

protected theorem MemOk.execVscanMaxexc {s : State} {hd a : BitVec 4} {k : BitVec 3} {t : BitVec 6} (h : MemOk s) :
    Nexts (execVscanMaxexc hd a k t s) :=
  h.guardedRun h.queueEntry

protected theorem MemOk.execVscanMinexc {s : State} {hd a : BitVec 4} {k : BitVec 3} {t : BitVec 6} (h : MemOk s) :
    Nexts (execVscanMinexc hd a k t s) :=
  h.guardedRun h.queueEntry

protected theorem MemOk.execVrcp {s : State} {hd a : BitVec 4} {m : BitVec 3} {t : BitVec 6} (h : MemOk s) :
    Nexts (execVrcp hd a m t s) :=
  h.guardedRun h.queueEntry

protected theorem MemOk.execVrsq {s : State} {hd a : BitVec 4} {m : BitVec 3} {t : BitVec 6} (h : MemOk s) :
    Nexts (execVrsq hd a m t s) :=
  h.guardedRun h.queueEntry

protected theorem MemOk.execVsqrt {s : State} {hd a : BitVec 4} {m : BitVec 3} {t : BitVec 6} (h : MemOk s) :
    Nexts (execVsqrt hd a m t s) :=
  h.guardedRun h.queueEntry

protected theorem MemOk.execVexp {s : State} {hd a : BitVec 4} {m : BitVec 3} {t : BitVec 6} (h : MemOk s) :
    Nexts (execVexp hd a m t s) :=
  h.guardedRun h.queueEntry

protected theorem MemOk.execVexp2 {s : State} {hd a : BitVec 4} {m : BitVec 3} {t : BitVec 6} (h : MemOk s) :
    Nexts (execVexp2 hd a m t s) :=
  h.guardedRun h.queueEntry

protected theorem MemOk.execVlog {s : State} {hd a : BitVec 4} {m : BitVec 3} {t : BitVec 6} (h : MemOk s) :
    Nexts (execVlog hd a m t s) :=
  h.guardedRun h.queueEntry

protected theorem MemOk.execVlog2 {s : State} {hd a : BitVec 4} {m : BitVec 3} {t : BitVec 6} (h : MemOk s) :
    Nexts (execVlog2 hd a m t s) :=
  h.guardedRun h.queueEntry

protected theorem MemOk.execVtanh {s : State} {hd a : BitVec 4} {m : BitVec 3} {t : BitVec 6} (h : MemOk s) :
    Nexts (execVtanh hd a m t s) :=
  h.guardedRun h.queueEntry

protected theorem MemOk.execVshape {s : State} {hd : BitVec 4} {a : BitVec 6} (h : MemOk s) :
    Nexts (execVshape hd a s) :=
  h.guarded <| h.readReg.bind fun _ h => .ite (.ok h.setCur) <| .ite .stop <| .ite .stop <| .skip fun _ =>
    .ok h.setCur

protected theorem MemOk.loopChecks {s : State} {n : ℕ} {body : List VEntry} (h : MemOk s) :
    RunEnds MemOk (loopChecks n body s) :=
  .foldlM h fun _ _ h => .foldlM h fun _ _ h => h.recheckOperands

protected theorem MemOk.execVloop {s : State} {k : BitVec 4} {a : BitVec 6} (h : MemOk s) :
    Nexts (execVloop k a s) :=
  h.guardedRun <| h.readReg.lift.bind fun _ h => .ite .stop <| .ite (.pure h) <| h.loopChecks.bind fun _ h =>
    .pure h.setCur.rearm

protected theorem MemOk.execVsync {s : State} (h : MemOk s) : Nexts (execVsync s) :=
  h.finish <| h.vectorIdle.bind fun _ h => .ite .stop <| .ok h.setCur

protected theorem MemOk.execVtbl {s : State} (h : MemOk s) : Nexts (execVtbl s) :=
  h.finishRun <| .ite .stop <| .ite .stop <| h.loadSpan.bind fun _ h =>
    .ite (.pure (h.setCoreCur (h.coreAt _))) <| .stop

/-! ### The matrix unit at issue -/

protected theorem MemOk.matrixStatus {s : State} {q lane fail nf : ℕ} (h : MemOk s) :
    MemOk (s.matrixStatus q lane fail nf) := h

protected theorem MemOk.putAcc {s : State} {q : ℕ} {p : ℕ × ℕ} {m : List (List ℕ)} (h : MemOk s) :
    MemOk (putAcc q p m s) :=
  h.foldl fun _ _ h => h.foldl fun _ _ h => h.localPut

protected theorem MemOk.execMclaim {s : State} {d a b : BitVec 6} (h : MemOk s) : Nexts (execMclaim d a b s) :=
  h.guarded <| h.readTwo.bind fun _ h => .ite h.writeReg h.setSq.writeReg

protected theorem MemOk.execMrel {s : State} {a b : BitVec 6} (h : MemOk s) : Nexts (execMrel a b s) :=
  h.guarded <| h.readTwo.bind fun _ h => .ite .stop <| .ite .stop <| .ok h.setSq

protected theorem MemOk.writeLog {s : State} {a : Agent} {dt8 : List (BitVec 32)} {e : LogEnt} {m : MSlot}
    {c : List (List ℕ)} (h : MemOk s) :
    Ends MemOk (writeLog a dt8 e m c s) := by
  refine h.engineWritesSkip.bind fun _ h => .bindState ?_ fun _ h => .ite h.engineWritesSkip <| .ok h
  split
  · exact h.engineWritesSkip
  · exact .ok h

protected theorem MemOk.appendMatrix {s : State} {q : Option Region} {dst : List (ℕ × Option Decl)}
    {l : List LogEnt} {m : MCore} {owns : List ℕ} {c : CmdHdr → MCmd} (h : MemOk s) :
    Ends MemOk (appendMatrix q dst l m owns c s) :=
  h.appendCmd.bind fun _ h => .ok h.setSq.own

protected theorem MemOk.scaleCheck {s : State} {sa n : ℕ} (h : MemOk s) : RunEnds MemOk (scaleCheck sa n s) :=
  .ite (.pure h) <| .ite (.skip fun _ => .pure h) h.spanGrant

protected theorem MemOk.fillRegion {s : State} {q : Region} (h : MemOk s) :
    RunEnds (fun r => MemOk r.2) (fillRegion q s) :=
  .ite (.pure h) <| h.descFetch.bind fun _ h => .pure h

protected theorem MemOk.fillRegionCheck {s : State} {r : FillRegion} (h : MemOk s) :
    RunEnds MemOk (FillRegion.check r s) := by
  unfold Machine.FillRegion.check
  split
  · exact .ite (.pure h) <| h.regionSource.bind fun _ h => .skip fun _ => .pure h
  · exact .pure h

protected theorem MemOk.fillBody {s : State} {form : FillForm} {isB : Bool} {d a b : BitVec 6} (h : MemOk s) :
    RunEnds MemOk (fillBody form isB d a b s) := by
  refine .bindSndSnd ?_ fun _ h => .ite .stop <| .ite .stop ?_
  · split
    · exact h.readReg.lift.bind fun _ h => .pure h
    · exact .lift h.readTwo
  · refine .ite (.skip fun _ => ?_) ?_ <;>
      exact h.scaleCheck.bind fun _ h => h.fillRegion.bind fun _ h => h.fillRegionCheck.bind fun _ h =>
        .ite .stop <| .ite .stop <| .ite .stop <| .ite .stop <| .ite .stop <| .ite .stop <|
        .skip fun _ => .lift h.appendMatrix

protected theorem MemOk.execMlda {s : State} {d a b : BitVec 6} (h : MemOk s) : Nexts (execMlda d a b s) :=
  h.guardedRun h.fillBody

protected theorem MemOk.execMldaRg {s : State} {d a b : BitVec 6} (h : MemOk s) : Nexts (execMldaRg d a b s) :=
  h.guardedRun h.fillBody

protected theorem MemOk.execMldaSt {s : State} {d a b : BitVec 6} (h : MemOk s) : Nexts (execMldaSt d a b s) :=
  h.guardedRun h.fillBody

protected theorem MemOk.execMldaAv {s : State} {d a b : BitVec 6} (h : MemOk s) : Nexts (execMldaAv d a b s) :=
  h.guardedRun h.fillBody

protected theorem MemOk.execMldb {s : State} {d a b : BitVec 6} (h : MemOk s) : Nexts (execMldb d a b s) :=
  h.guardedRun h.fillBody

protected theorem MemOk.execMldbRg {s : State} {d a b : BitVec 6} (h : MemOk s) : Nexts (execMldbRg d a b s) :=
  h.guardedRun h.fillBody

protected theorem MemOk.execMldbSt {s : State} {d a b : BitVec 6} (h : MemOk s) : Nexts (execMldbSt d a b s) :=
  h.guardedRun h.fillBody

protected theorem MemOk.execMldbAv {s : State} {d a b : BitVec 6} (h : MemOk s) : Nexts (execMldbAv d a b s) :=
  h.guardedRun h.fillBody

protected theorem MemOk.execMseq {s : State} {d a : BitVec 6} (h : MemOk s) : Nexts (execMseq d a s) :=
  h.guarded <| h.readReg.bind fun _ h => h.writeReg

protected theorem MemOk.execMwait {s : State} {a b : BitVec 6} (h : MemOk s) : Nexts (execMwait a b s) :=
  h.guarded h.waitSeq

protected theorem MemOk.execMqw {s : State} {d a : BitVec 6} (h : MemOk s) : Nexts (execMqw d a s) :=
  h.guarded <| h.readReg.bind fun _ h => h.setSq.writeReg

protected theorem MemOk.tileBody {s : State} {op : TileOp} {rdy : Option ℕ} {a b : ℕ} (h : MemOk s) :
    Ends MemOk (tileBody op rdy a b s) :=
  .ite .stop <| .ite .stop <| .ite (.ite .stop .stop) <| .ite .stop <| .skip fun _ => h.appendMatrix

protected theorem MemOk.execTmma {s : State} {a b : BitVec 6} (h : MemOk s) : Nexts (execTmma a b s) :=
  h.guarded h.tileBody

protected theorem MemOk.execTmmaRdy {s : State} {t : BitVec 8} {a b : BitVec 6} (h : MemOk s) :
    Nexts (execTmmaRdy t a b s) :=
  h.guarded h.tileBody

protected theorem MemOk.execTmmt {s : State} {a b : BitVec 6} (h : MemOk s) : Nexts (execTmmt a b s) :=
  h.guarded h.tileBody

protected theorem MemOk.execTmmtRdy {s : State} {t : BitVec 8} {a b : BitVec 6} (h : MemOk s) :
    Nexts (execTmmtRdy t a b s) :=
  h.guarded h.tileBody

protected theorem MemOk.execTtmm {s : State} {a b : BitVec 6} (h : MemOk s) : Nexts (execTtmm a b s) :=
  h.guarded h.tileBody

protected theorem MemOk.execTtmmRdy {s : State} {t : BitVec 8} {a b : BitVec 6} (h : MemOk s) :
    Nexts (execTtmmRdy t a b s) :=
  h.guarded h.tileBody

protected theorem MemOk.execTadd {s : State} {a : BitVec 6} (h : MemOk s) : Nexts (execTadd a s) :=
  h.guarded h.tileBody

protected theorem MemOk.execTaddRdy {s : State} {t : BitVec 8} {a : BitVec 6} (h : MemOk s) :
    Nexts (execTaddRdy t a s) :=
  h.guarded h.tileBody

protected theorem MemOk.execTmul {s : State} {a : BitVec 6} (h : MemOk s) : Nexts (execTmul a s) :=
  h.guarded h.tileBody

protected theorem MemOk.execTmulRdy {s : State} {t : BitVec 8} {a : BitVec 6} (h : MemOk s) :
    Nexts (execTmulRdy t a s) :=
  h.guarded h.tileBody

protected theorem MemOk.execTsclMul {s : State} {a : BitVec 6} (h : MemOk s) : Nexts (execTsclMul a s) :=
  h.guarded h.tileBody

protected theorem MemOk.execTsclMulRdy {s : State} {t : BitVec 8} {a : BitVec 6} (h : MemOk s) :
    Nexts (execTsclMulRdy t a s) :=
  h.guarded h.tileBody

protected theorem MemOk.execTsclSet {s : State} {a : BitVec 6} (h : MemOk s) : Nexts (execTsclSet a s) :=
  h.guarded h.tileBody

protected theorem MemOk.execTsclSetRdy {s : State} {t : BitVec 8} {a : BitVec 6} (h : MemOk s) :
    Nexts (execTsclSetRdy t a s) :=
  h.guarded h.tileBody

protected theorem MemOk.execTexp {s : State} {a : BitVec 6} (h : MemOk s) : Nexts (execTexp a s) :=
  h.guarded h.tileBody

protected theorem MemOk.execTexpRdy {s : State} {t : BitVec 8} {a : BitVec 6} (h : MemOk s) :
    Nexts (execTexpRdy t a s) :=
  h.guarded h.tileBody

protected theorem MemOk.execTrmax {s : State} {a : BitVec 6} (h : MemOk s) : Nexts (execTrmax a s) :=
  h.guarded h.tileBody

protected theorem MemOk.execTrsum {s : State} {a : BitVec 6} (h : MemOk s) : Nexts (execTrsum a s) :=
  h.guarded h.tileBody

protected theorem MemOk.execTcvt {s : State} {a : BitVec 6} (h : MemOk s) : Nexts (execTcvt a s) :=
  h.guarded h.tileBody

protected theorem MemOk.execTtrn {s : State} {a b : BitVec 6} (h : MemOk s) : Nexts (execTtrn a b s) :=
  h.guarded h.tileBody

protected theorem MemOk.tactBody {s : State} {op : TileOp} {rdy : Option ℕ} (h : MemOk s) :
    Nexts (tactBody op rdy s) :=
  h.finish h.tileBody

protected theorem MemOk.execTactRelu {s : State} (h : MemOk s) : Nexts (execTactRelu s) := h.tactBody

protected theorem MemOk.execTactSqrelu {s : State} (h : MemOk s) : Nexts (execTactSqrelu s) := h.tactBody

protected theorem MemOk.execTactTanh {s : State} (h : MemOk s) : Nexts (execTactTanh s) := h.tactBody

protected theorem MemOk.execTactReluRdy {s : State} {t : BitVec 8} (h : MemOk s) : Nexts (execTactReluRdy t s) :=
  h.tactBody

protected theorem MemOk.execTactSqreluRdy {s : State} {t : BitVec 8} (h : MemOk s) : Nexts (execTactSqreluRdy t s) :=
  h.tactBody

protected theorem MemOk.execTactTanhRdy {s : State} {t : BitVec 8} (h : MemOk s) : Nexts (execTactTanhRdy t s) :=
  h.tactBody

/-! ### Collectives at issue -/

protected theorem MemOk.setCm {s : State} {q n : ℕ} {v : Comm} (h : MemOk s) : MemOk (s.setCm q n v) := h

protected theorem MemOk.globalSpan {s : State} {need : ℕ} {foot : Option Footprint} {a n : ℕ} (h : MemOk s) :
    RunEnds MemOk (globalSpan need foot a n s) :=
  .ite h.spanGrant .stop

protected theorem MemOk.appendC {s : State} {d : ℕ} {f : CmdHdr → CCmd} (h : MemOk s) :
    Ends (fun r => MemOk r.2) (appendC d f s) :=
  h.appendCmd.bind fun _ h => .ok h.setCm

protected theorem MemOk.appendPost {s : State} {d : ℕ} {f : CmdHdr → Post} (h : MemOk s) :
    Ends (fun r => MemOk r.2) (appendPost d f s) :=
  h.appendCmd.bind fun _ h => .ok h.setCm

protected theorem MemOk.execCcomm {s : State} {d a : BitVec 6} (h : MemOk s) : Nexts (execCcomm d a s) :=
  h.guardedRun <| h.readReg.lift.bind fun _ h => .ite .stop <| .skip fun _ => .skip fun _ =>
    h.globalSpan.bind fun _ h => h.globalSpan.bind fun _ h => .bindState (.ite (.pure h) h.globalSpan) fun _ h =>
    .ite .stop <| h.appendCmd.lift.bind fun _ h => .pure h.own.setCm

protected theorem MemOk.postRecSourceGrant {s : State} {r : PostRec} (h : MemOk s) :
    RunEnds MemOk (PostRec.sourceGrant r s) :=
  .ite (.pure h) <| .ite (.skip fun _ => .pure h) h.globalSpan

protected theorem MemOk.postRecDestGrant {s : State} {r : PostRec} {n : ℕ} (h : MemOk s) :
    RunEnds MemOk (PostRec.destGrant r n s) :=
  h.globalSpan

protected theorem MemOk.execCpost {s : State} {d a : BitVec 6} (h : MemOk s) : Nexts (execCpost d a s) :=
  h.guardedRun <| h.readReg.lift.bind fun _ h => .skip fun _ => .skip fun _ => .skip fun _ => .skip fun _ =>
    h.postRecSourceGrant.bind fun _ h => h.postRecDestGrant.bind fun _ h => .ite .stop <|
    h.appendPost.lift.bind fun _ h => .pure h.own

protected theorem MemOk.entryChecks {s : State} {p : ℕ} {c : Comm} {r : PostRec} (h : MemOk s) :
    RunEnds MemOk (entryChecks p c r s) :=
  h.postRecSourceGrant.bind fun _ h => .ite .stop <| .pure h

protected theorem MemOk.execCtt {s : State} {a b : BitVec 6} (h : MemOk s) : Nexts (execCtt a b s) :=
  h.guardedRun <| h.readTwo.lift.bind fun _ h => .skip fun _ => .skip fun _ => .ite .stop <| .ite (.skip fun _ =>
    .skip fun _ => .ite .stop <| .bindState (.ite h.entryChecks <| .pure h) fun _ h =>
    h.appendC.lift.bind fun _ h => .pure h) <| .skip fun _ => .ite .stop <| .bindState (.ite h.entryChecks <|
    .pure h) fun _ h => h.appendC.lift.bind fun _ h => .pure h

protected theorem MemOk.execCrdy {s : State} {a : BitVec 6} (h : MemOk s) : Nexts (execCrdy a s) :=
  h.guarded <| h.readReg.bind fun _ h => .ite .stop <| .ite .stop <| h.release.bind fun _ h => .ok h.setSq

protected theorem MemOk.execCbar {s : State} {d : BitVec 6} (h : MemOk s) : Nexts (execCbar d s) :=
  h.guarded <| .skip fun _ => .skip fun _ => h.appendPost.bind fun _ h => .ok h

protected theorem MemOk.execCclose {s : State} {d : BitVec 6} (h : MemOk s) : Nexts (execCclose d s) :=
  h.guarded <| .skip fun _ => .skip fun _ => h.appendC.bind fun _ h => .ok h

protected theorem MemOk.hubFlag {s : State} {e : PlbEntry} {ea : ℕ} (h : MemOk s) :
    RunEnds (fun r => MemOk r.2) (hubFlag e ea s) :=
  .bindSnd (MemOk.globalPlace (h.same rfl rfl)) fun _ h => .pure (h.same rfl rfl)

protected theorem MemOk.flagWord {s : State} {wt : Bool} {x y : Word} (h : MemOk s) :
    RunEnds (fun r => MemOk r.2) (flagWord wt x y s) :=
  .ite .stop <| .ite .stop <| .ite .stop <| .skip fun _ => h.globalGrant.bind fun _ h => .ite .stop h.hubFlag

protected theorem MemOk.sendUnit {s : State} {q cm : ℕ} {m : Word} {u : CUnit} (h : MemOk s) :
    MemOk (s.sendUnit q cm m u) :=
  MemOk.ite h.setSq (h.same rfl rfl)

protected theorem MemOk.freeSlots {s : State} {q n : ℕ} {seqs : List ℕ} (h : MemOk s) :
    MemOk (freeSlots q n seqs s) :=
  MemOk.ite h.setCm h.setCm.sendUnit

protected theorem MemOk.execCpoll {s : State} {d a b : BitVec 6} (h : MemOk s) : Nexts (execCpoll d a b s) :=
  h.guardedRun <| h.readTwo.lift.bind fun _ h => h.flagWord.bind fun _ h => .ite (.lift h.writeReg) <|
    .bindState (.ite (h.release.lift.bind fun _ h => .pure h.setCm.freeSlots) <| .pure h) fun _ h =>
    .lift h.writeReg

protected theorem MemOk.execCwaitf {s : State} {a b : BitVec 6} (h : MemOk s) : Nexts (execCwaitf a b s) :=
  h.guardedRun <| h.readTwo.lift.bind fun _ h => h.flagWord.bind fun _ h => .ite (.pure h) .stop

protected theorem MemOk.execCseq {s : State} {d a : BitVec 6} (h : MemOk s) : Nexts (execCseq d a s) :=
  h.guarded <| h.readReg.bind fun _ h => h.writeReg

protected theorem MemOk.execCseqWt {s : State} {a b : BitVec 6} (h : MemOk s) : Nexts (execCseqWt a b s) :=
  h.guarded h.waitSeq

protected theorem MemOk.execCstat {s : State} {d a : BitVec 6} (h : MemOk s) : Nexts (execCstat d a s) := by
  refine h.guarded <| h.readReg.bind fun (_, _) h => ?_
  dsimp only
  split
  · exact .ite .stop <| .ite .stop <| (MemOk.ite h.setCm h).writeReg
  · exact .ite .stop h.writeReg
  · exact h.writeReg
  · exact h.writeReg

protected theorem MemOk.execCarb {s : State} {d a : BitVec 6} (h : MemOk s) : Nexts (execCarb d a s) :=
  h.guarded <| h.readReg.bind fun _ h => h.setSq.writeReg

/-! ### Collectives at execution -/

protected theorem MemOk.collFail {s : State} {q lane n : ℕ} (h : MemOk s) : MemOk (s.collFail q lane n) := h

protected theorem MemOk.sendEvent {s : State} {c : ℕ} {u : Machine.PUnit} (h : MemOk s) : MemOk (s.sendEvent c u) :=
  h.setCtx

protected theorem MemOk.collEvent {s : State} {q n tag : ℕ} {ent : Option ℕ} (h : MemOk s) :
    MemOk (s.collEvent q n tag ent) :=
  MemOk.ite h (MemOk.ite h.sendEvent (MemOk.ite (h.setCore (h.coreAt _)) h.setSq))

protected theorem MemOk.execCollectiveEventDelivery {s : State} {core : ℕ} (h : MemOk s) :
    Nexts (execCollectiveEventDelivery core s) := by
  refine MemOk.hwStep ?_
  split
  · exact h
  · exact MemOk.ite ((h.setCore (by exact h.coreAt _)).sendEvent) h

protected theorem MemOk.forgetOrd {s : State} {ord : ℕ} (h : MemOk s) : MemOk (s.forgetOrd ord) := h

protected theorem MemOk.endPost {s : State} {q n : ℕ} {p : Post} (h : MemOk s) : MemOk (endPost q n p s) := by
  fun_cases endPost q n p s
  grind [MemOk.setCm, MemOk.completeCmd, MemOk.forgetOrd, MemOk.setSq, MemOk.collEvent]

protected theorem MemOk.breakCm {s : State} {q n : ℕ} (h : MemOk s) : MemOk (breakCm q n s) := by
  unfold Machine.breakCm
  dsimp only
  split
  · exact h.setCm.collEvent.endPost
  · exact h.setCm.collEvent

protected theorem MemOk.tryEnd {s : State} {q n : ℕ} {ok : Post → Bool} (h : MemOk s) : MemOk (tryEnd q n ok s) := by
  unfold Machine.tryEnd
  dsimp only
  split
  · exact MemOk.ite h.setCm.endPost h
  · exact h

protected theorem MemOk.answered {s : State} {q n stamp lane dropped : ℕ} (h : MemOk s) :
    MemOk (s.answered q n stamp lane dropped) := by
  unfold State.answered
  dsimp only
  split
  · exact MemOk.ite ((MemOk.ite h h.collFail).setCm) (MemOk.ite h h.collFail)
  · exact MemOk.ite h h.collFail

protected theorem MemOk.answer {s : State} {q n : ℕ} {m : CMsg} {c : Chunk} {dropped : ℕ} (h : MemOk s) :
    MemOk (s.answer q n m c dropped) :=
  MemOk.ite h.answered (h.same rfl rfl)

protected theorem MemOk.takeAnswers {s : State} {q n a2 : ℕ} (h : MemOk s) : MemOk (takeAnswers q n a2 s) := by
  fun_induction takeAnswers q n a2 s <;> grind [MemOk.answered, MemOk.setSq]

protected theorem MemOk.nextControl {s : State} {q n : ℕ} (h : MemOk s) :
    Finds (fun r => MemOk r.2) (nextControl q n s) :=
  Finds.mapAny fun _ => h.setSq

protected theorem MemOk.execConnectArrival {s : State} {sq cm : ℕ} (h : MemOk s) :
    Nexts (execConnectArrival sq cm s) := by
  refine MemOk.hwStep ?_
  split
  · have h2 := h.nextControl.of_some ‹_›
    exact MemOk.ite h h2.setCm
  · exact h

protected theorem MemOk.abortUsed {s : State} {a : Agent} {va : ℕ} (h : MemOk s) : MemOk (s.abortUsed a va) :=
  MemOk.ite (h.same rfl rfl) h

protected theorem MemOk.execFreedReport {s : State} {sq cm : ℕ} (h : MemOk s) : Nexts (execFreedReport sq cm s) := by
  refine MemOk.hwStep ?_
  split
  · have h2 := h.nextControl.of_some ‹_›
    exact MemOk.ite h2 (h.engineStep (fun _ h4 => h2.setCm.collFail.abortUsed) h2.setCm.engineWrite)
  · exact h

protected theorem MemOk.execDisconnectArrival {s : State} {sq cm : ℕ} (h : MemOk s) :
    Nexts (execDisconnectArrival sq cm s) := by
  refine MemOk.hwStep ?_
  split
  · have h := h.nextControl.of_some ‹_›
    exact MemOk.ite h h.setCm.collFail
  · exact h

protected theorem MemOk.execBarrierTokenArrival {s : State} {sq cm : ℕ} (h : MemOk s) :
    Nexts (execBarrierTokenArrival sq cm s) := by
  refine MemOk.hwStep ?_
  split
  · have h2 := h.nextControl.of_some ‹_›
    exact MemOk.ite h (MemOk.ite h2 (MemOk.ite (MemOk.ite h2.breakCm h2) h2.setCm.tryEnd))
  · exact h

protected theorem MemOk.sourceCodes {s : State} {q lane : ℕ} {a : Agent} {p : Post} {i n : ℕ} (h : MemOk s) :
    Ends (fun r => MemOk r.2) (sourceCodes q lane a p i n s) :=
  .ite (.ite .stop <| .ok h) <| h.agentRead.bind fun _ h => .ok h

protected theorem MemOk.ownLines {s : State} {q lane : ℕ} {a : Agent} {p : Post} (h : MemOk s) :
    Ends (fun r => MemOk r.2) (ownLines q lane a p s) := by
  refine .foldlM h fun _ _ h => ?_
  dsimp only
  split
  · have h := h.sourceCodes.of_ok ‹_›
    exact .ok h
  · exact .ok h.metPoison.collFail
  · exact .stop

protected theorem MemOk.stage {s : State} {q n : ℕ} {l : List Chunk} (h : MemOk s) : MemOk (stage q n l s) :=
  (MemOk.ite h.collFail h).setCm

protected theorem MemOk.placeLine {s : State} {q n : ℕ} {p : Post} {ch : Chunk} {lastLine : Bool} {at_ : ℕ}
    {l : CLine} (h : MemOk s) :
    Ends MemOk (placeLine q n p ch lastLine at_ l s) := by
  unfold Machine.placeLine
  dsimp only
  split
  · have h := h.engineWrite.of_ok ‹_›
    exact .ok h.setCm.setCm.disown
  · exact .ok h.metPoison.collFail.setCm.disown
  · exact .stop

protected theorem MemOk.placeChunk {s : State} {q n : ℕ} {p : Post} {base : ℕ} {ch : Chunk} (h : MemOk s) :
    Ends MemOk (placeChunk q n p base ch s) :=
  .foldlM h fun _ _ h => h.placeLine

protected theorem MemOk.sendTokens {s : State} {q n : ℕ} {p : Post} (h : MemOk s) : MemOk (sendTokens q n p s) :=
  h.setCm.foldl fun _ _ h => MemOk.ite h h.sendUnit

protected theorem MemOk.beginPost {s : State} {q n i : ℕ} {p : Post} (h : MemOk s) :
    Ends MemOk (beginPost q n i p s) := by
  refine .ite (.ok h.setCm.endPost) <| .ite (.ok h.setCm.endPost) <| .ite (.ok h.setCm.breakCm) <|
      .ite (.ok h.setCm.sendTokens) <| .bindSnd (.ite (.ok h.setCm) h.setCm.ownLines) fun _ h =>
      .bindState ?_ fun _ h => .ok h.stage
  split
  · exact .foldlM h.setCm fun _ _ h => h.placeChunk
  · exact .ok h.setCm

protected theorem MemOk.takeChunk {s : State} {q n : ℕ} {r : Running} {ch : Chunk} (h : MemOk s) :
    Ends MemOk (takeChunk q n r ch s) :=
  .ite (.ite (.ok h.stage) <| h.placeChunk.bind fun _ h => .ok h.stage) <| h.placeChunk.bind fun _ h =>
    .ok (MemOk.ite h h.stage)

protected theorem MemOk.drain {s : State} {q n a2 : ℕ} (h : MemOk s) : MemOk (drain q n a2 s) := by
  fun_induction drain q n a2 s <;> grind [MemOk.freeSlots, MemOk.setCm, MemOk.breakCm, MemOk.takeChunk,
    MemOk.engineWaits, MemOk.metPoison, Ends.of_ok]

protected theorem MemOk.drainAll {s : State} {q n : ℕ} (h : MemOk s) : MemOk (drainAll q n s) := h.drain

protected theorem MemOk.execPostStart {s : State} {sq cm : ℕ} (h : MemOk s) : Nexts (execPostStart sq cm s) := by
  refine MemOk.hwStep ?_
  dsimp only
  split
  · exact MemOk.ite h (h.engineStep (fun _ h => h) (h.beginPost.mapOf fun _ h => h.drainAll))
  · exact h

protected theorem MemOk.landChunk {s : State} {q n : ℕ} {w : Agent} {ch : Chunk} (h : MemOk s) :
    Ends (fun r => MemOk r.2) (landChunk q n w ch s) := by
  refine .foldlM h fun _ _ h => .ite (.ok (MemOk.ite h.disownOnce h)) ?_
  dsimp only
  split
  · have h := h.engineWrite.of_ok ‹_›
    exact .ok (MemOk.ite h.disownOnce h)
  · exact .ok (MemOk.ite h.abortUsed.disownOnce h.abortUsed)
  · exact .stop

protected theorem MemOk.acceptChunk {s : State} {q n : ℕ} {m : CMsg} {ch : Chunk} (h : MemOk s) :
    Ends MemOk (acceptChunk q n m ch s) :=
  .ite (.ok h.answer) <| h.landChunk.bind fun _ h => .ite (.ok h.answer) <|
    .ite (.ok ((MemOk.ite h.answer h.answer.collFail).freeSlots)) <|
    .ite (.ok ((MemOk.ite h.answer h.answer.collFail).setCm)) <|
    .ok ((MemOk.ite h.answer h.answer.collFail).setCm)

protected theorem MemOk.execChunkArrival {s : State} {sq cm : ℕ} (h : MemOk s) : Nexts (execChunkArrival sq cm s) := by
  refine MemOk.hwStep ?_
  dsimp only
  split
  · exact h.drainAll
  · split
    · split
      · exact h.engineStep (fun _ h => h) (h.setSq.acceptChunk.mapOf fun _ h => h.drainAll)
      · exact h
    · exact h

protected theorem MemOk.sendChunk {s : State} {q n : ℕ} {ch : Chunk} (h : MemOk s) : MemOk (sendChunk q n ch s) :=
  (MemOk.ite h.setCm.spend h.setCm.spend.spend).sendUnit

protected theorem MemOk.execChunkSend {s : State} {sq : ℕ} (h : MemOk s) : Nexts (execChunkSend sq s) := by
  refine MemOk.hwStep ?_
  split
  · exact h.setSq.sendChunk
  · exact h

protected theorem MemOk.commOpen {s : State} {q n : ℕ} {hd : CmdHdr} (h : MemOk s) :
    Ends MemOk (commOpen q n hd s) := by
  refine .bindState ?_ fun _ h => .bindState (.foldlM h fun _ _ h => ?_) fun _ h => .ok h.setCm.sendUnit.completeCmd
  · dsimp only
    split
    · have h := h.engineWrite.of_ok ‹_›
      exact .ok h
    · exact .ok h.metPoison.collFail
    · exact .stop
  · dsimp only
    split
    · have h := h.engineWrite.of_ok ‹_›
      exact .ok h
    · exact .ok h.metPoison.collFail
    · exact .stop

protected theorem MemOk.execCcommExecute {s : State} {sq cm : ℕ} (h : MemOk s) : Nexts (execCcommExecute sq cm s) := by
  refine MemOk.hwStep ?_
  dsimp only
  split
  · exact h.engineStep (fun _ h => h) h.commOpen
  · exact h

protected theorem MemOk.writeTent {s : State} {q : ℕ} {hd : CmdHdr} {e : ℕ} {v : TEntry} (h : MemOk s) :
    MemOk (writeTent q hd e v s) :=
  h.setSq.completeCmd

protected theorem MemOk.execCttExecute {s : State} {sq cm : ℕ} (h : MemOk s) : Nexts (execCttExecute sq cm s) := by
  refine MemOk.hwStep ?_
  dsimp only
  split
  · exact h.setCm.writeTent
  · exact h

protected theorem MemOk.dropCmd {s : State} {a1 : CCmd} (h : MemOk s) : MemOk (dropCmd s a1) := by
  fun_cases dropCmd s a1 <;> grind [MemOk.completeCmd, MemOk.forgetOrd]

protected theorem MemOk.freeCm {s : State} {q n : ℕ} (h : MemOk s) : MemOk (freeCm q n s) := h.setSq.sendUnit

protected theorem MemOk.behindClose {s : State} {q : ℕ} {a2 : CCmd} (h : MemOk s) : MemOk (behindClose q s a2) := by
  fun_cases behindClose q s a2 <;> grind [MemOk.writeTent, MemOk.dropCmd]

protected theorem MemOk.closeCm {s : State} {q n : ℕ} {hd : CmdHdr} {rest : List CCmd} (h : MemOk s) :
    MemOk (closeCm q n hd rest s) :=
  h.freeCm.completeCmd.foldl fun _ _ h => h.behindClose

protected theorem MemOk.execCcloseExecute {s : State} {sq cm : ℕ} (h : MemOk s) :
    Nexts (execCcloseExecute sq cm s) := by
  refine MemOk.hwStep ?_
  dsimp only
  split
  · exact MemOk.ite h h.closeCm
  · exact h

protected theorem MemOk.execPostComplete {s : State} {sq cm : ℕ} (h : MemOk s) : Nexts (execPostComplete sq cm s) :=
  MemOk.hwStep h.takeAnswers.tryEnd

protected theorem MemOk.execFiringComplete {s : State} {sq ent : ℕ} (h : MemOk s) :
    Nexts (execFiringComplete sq ent s) := by
  refine MemOk.hwStep ?_
  split
  · exact h
  · exact h.takeAnswers.tryEnd

protected theorem MemOk.execTileEntryFire {s : State} {sq ent : ℕ} (h : MemOk s) :
    Nexts (execTileEntryFire sq ent s) :=
  .hwStep (.ite (h.same rfl rfl) h)

/-! ### The matrix unit at execution -/

protected theorem MemOk.beginMq {s : State} {q : ℕ} {c : MCmd} (h : MemOk s) : MemOk (s.beginMq q c) := h

protected theorem MemOk.finishMatrix {s : State} {q : ℕ} {c : MCmd} (h : MemOk s) : MemOk (finishMatrix q c s) :=
  h.setSq.completeCmd

protected theorem MemOk.gatherOr {s : State} {a : Agent} {core : ℕ} {addrs : List ℕ} (h : MemOk s) :
    Ends (fun r => MemOk r.2.2) (gatherOr a core addrs s) := by
  refine .foldlM h fun _ _ h => ?_
  split
  · have h := h.agentRead.of_ok ‹_›
    exact .ok h
  · exact .ok h.metPoison
  · exact .stop

protected theorem MemOk.regionCodes {s : State} {a : Agent} {core : ℕ} {q : Region} {de : Desc} {d : Decl}
    (h : MemOk s) :
    Ends (fun r => MemOk r.2.2) (regionCodes a core q de d s) :=
  h.applied.bind fun _ h => h.gatherOr.bind fun _ h => .ok h

protected theorem MemOk.scaleCodes {s : State} {a : Agent} {core sa n : ℕ} (h : MemOk s) :
    Ends (fun r => MemOk r.2.2) (scaleCodes a core sa n s) :=
  .ite (.ok h) <| .ite (.ok h) <| h.engineReadsZero.bind fun _ h => .ok h

protected theorem MemOk.fillData {s : State} {c : MCmd} {d : Decl} (h : MemOk s) :
    Ends (fun r => MemOk r.2.2.2) (fillData c d s) := by
  unfold Machine.fillData
  dsimp only
  split
  · exact .ok h
  · exact h.scaleCodes.bind fun _ h => .ok h
  · refine h.execDesc.bind fun (de, s) h => ?_
    refine .bindSndSnd ?_ fun _ h => h.scaleCodes.bind fun _ h => .ok h
    dsimp only
    split
    · refine .ite (.ok h) ?_
      split
      · exact .ok h.metPoison
      · exact h.regionCodes
    · exact .ok h
  · refine .ite .stop <| .ite (.ok ?_) (.ok h)
    split
    · exact h
    · split <;> exact h

protected theorem MemOk.writeLogs {s : State} {q : ℕ} {c : MCmd} {cin : List (List ℕ)} (h : MemOk s) :
    Ends MemOk (writeLogs q c cin s) :=
  .foldlM h fun _ _ h => h.writeLog

protected theorem MemOk.fillStep {s : State} {q : ℕ} {c : MCmd} (h : MemOk s) : Ends MemOk (fillStep q c s) := by
  unfold Machine.fillStep
  split
  · exact .ok h.finishMatrix
  · exact h.fillData.bind fun _ h => h.setSq.writeLogs.bind fun _ h => .ok h.matrixStatus.finishMatrix

protected theorem MemOk.execFillExecute {s : State} {sq core idx : ℕ} (h : MemOk s) :
    Nexts (execFillExecute sq core idx s) := by
  refine MemOk.hwStep ?_
  dsimp only
  split
  · exact h
  · exact MemOk.ite (h.beginMq.engineStep (fun _ h => h) h.beginMq.fillStep) h

protected theorem MemOk.startTile {s : State} {q lane : ℕ} (h : MemOk s) : MemOk (startTile q lane s) := by
  unfold Machine.startTile
  split
  · exact h
  · exact h.setSq.spend

protected theorem MemOk.arbitrate {s : State} {q : ℕ} (h : MemOk s) : MemOk (arbitrate q s) := by
  fun_cases arbitrate q s <;> grind [MemOk.startTile, MemOk.setSq]

protected theorem MemOk.execTileOpcodeStart {s : State} {sq : ℕ} (h : MemOk s) : Nexts (execTileOpcodeStart sq s) :=
  MemOk.hwStep h.arbitrate

protected theorem MemOk.tileStep {s : State} {q : ℕ} {c : MCmd} {op : TileOp} (h : MemOk s) :
    Ends MemOk (tileStep q c op s) := by
  refine h.writeLogs.bind fun s h => ?_
  split
  rename_i nf t e
  have h : MemOk t := by
    split at e <;> obtain ⟨-, rfl⟩ := Prod.mk.inj e
    · exact h.setSq
    · exact .ite h.putAcc h
  refine h.writeLogs.bind fun s h => ?_
  cases c.rdy
  · exact .ok (MemOk.finishMatrix (MemOk.setSq h.matrixStatus))
  · exact .ok (MemOk.finishMatrix (MemOk.setSq (MemOk.tableSet h.matrixStatus)))

protected theorem MemOk.execTileOpcodeComplete {s : State} {sq : ℕ} (h : MemOk s) :
    Nexts (execTileOpcodeComplete sq s) := by
  refine MemOk.hwStep ?_
  dsimp only
  split
  · exact h
  · split
    · exact h.engineStep (fun _ h => h) h.tileStep
    · exact h

/-! ### The matrix unit's reverse walk -/

protected theorem MemOk.execMlog {s : State} {a : BitVec 6} (h : MemOk s) : Nexts (execMlog a s) :=
  h.guardedRun <| h.readReg.lift.bind fun _ h => .ite .stop <| .skip fun _ => .ite .stop <|
    .bindState (.foldlM h fun _ _ h => h.spanGrant) fun _ h => .ite .stop <| .pure h.setSq

protected theorem MemOk.execMrec {s : State} {a : BitVec 6} (h : MemOk s) : Nexts (execMrec a s) :=
  h.guarded <| h.readReg.bind fun _ h => .ite .stop <| .ite .stop <| .ok h.setSq

protected theorem MemOk.execMrev {s : State} {a : BitVec 6} (h : MemOk s) : Nexts (execMrev a s) :=
  h.guarded <| h.readReg.bind fun _ h => .ite .stop <| .ite .stop h.appendMatrix

protected theorem MemOk.readMat {s : State} {a : Agent} {addr rows cols : ℕ} (h : MemOk s) :
    Ends (fun r => MemOk r.2) (readMat a addr rows cols s) :=
  h.engineReadsZero.bind fun _ h => .ok h

protected theorem MemOk.gradOf {s : State} {a : Agent} {e : LogEnt} (h : MemOk s) :
    Ends (fun r => MemOk r.2) (gradOf a e s) := by
  unfold Machine.gradOf
  split
  · exact h.readMat
  · exact .ok h

protected theorem MemOk.addGrad {s : State} {a : Agent} {p : Option LogEnt} {f : List (List ℕ) → List (List ℕ)}
    (h : MemOk s) :
    Ends MemOk (addGrad a p f s) := by
  unfold Machine.addGrad
  split
  · exact .ok h
  · exact h.gradOf.bind fun _ h => h.engineWritesSkip

protected theorem MemOk.recompute {s : State} {a : Agent} {core : ℕ} {e : LogEnt} {d : Decl} (h : MemOk s) :
    Ends (fun r => MemOk r.2.2) (recompute a core e d s) :=
  .bindSnd (.foldlM h fun _ _ h => h.agentRead.bind fun _ h => .ok h) fun _ h => .bindSnd (.ite (.ok h) <|
    h.agentRead) fun _ h => .ok h

protected theorem MemOk.valueAt {s : State} {q : ℕ} {c : MCmd} {p : Option LogEnt} (h : MemOk s) :
    Ends (fun r => MemOk r.2) (valueAt q c p s) := by
  unfold Machine.valueAt
  split
  · exact .ok h
  · dsimp only
    split
    · exact .ok h
    · refine .ite (h.engineReadsZero.bind fun _ h => .ok h) ?_
      split
      · have h := h.recompute.of_ok ‹_›
        exact .ok h
      · exact .ok h.metPoison.matrixStatus
      · exact .stop

protected theorem MemOk.adjoint {s : State} {q : ℕ} {c : MCmd} {w : Walk} {e : LogEnt} {op : TileOp} (h : MemOk s) :
    Ends (fun r => MemOk r.2) (adjoint q c w e op s) := by
  refine .bindSnd (.ite h.readMat <| .ok h) fun _ h => .bindSnd (.ite h.valueAt <| .ok h) fun _ h =>
      .bindSnd (.ite h.valueAt <| .ok h) fun _ h => .bindSnd (.ite h.gradOf <| .ok h) fun (_, _) h => ?_
  dsimp only
  split
  · split
    · exact h.addGrad.bind fun _ h => h.addGrad.bind fun _ h => .ok h
    · exact .ok h
  · split
    · exact h.addGrad.bind fun _ h => h.addGrad.bind fun _ h => .ok h
    · exact .ok h
  · split
    · exact h.addGrad.bind fun _ h => h.addGrad.bind fun _ h => .ok h
    · exact .ok h
  · exact h.addGrad.bind fun _ h => .ok h
  · exact h.addGrad.bind fun _ h => .ok h
  · exact h.addGrad.bind fun _ h => .ok h
  · exact h.addGrad.bind fun _ h => .ok h
  · exact h.addGrad.bind fun _ h => .ok h
  · exact .ok h
  · exact .ok h
  · exact .ok h
  · exact .ok h
  · exact .ok h
  · exact .ok h
  · exact h.addGrad.bind fun _ h => .ok h

protected theorem MemOk.walkBack {s : State} {q : ℕ} {c : MCmd} {ents l : List LogEnt} {dc : List (List ℕ)}
    (h : MemOk s) : Ends (fun r => MemOk r.2) (walkBack q c ents l dc s) := by
  induction l generalizing dc s with
  | nil => exact .ok h
  | cons e r ih =>
    unfold Machine.walkBack
    refine .bindSnd ?_ fun _ h => ih (.ite h.tableSet h)
    split
    · exact h.adjoint
    · exact .ok h

protected theorem MemOk.reverseStep {s : State} {q : ℕ} {c : MCmd} (h : MemOk s) : Ends MemOk (reverseStep q c s) := by
  refine h.engineReadsZero.bind fun _ h => .bindState (.foldlM h fun _ _ h => ?_) fun _ h =>
      h.matrixStatus.walkBack.bind fun _ h => .ok h.setSq.putAcc.finishMatrix
  split
  · exact h.engineWritesSkip
  · exact .ok h

protected theorem MemOk.execMrevExecute {s : State} {sq core : ℕ} (h : MemOk s) :
    Nexts (execMrevExecute sq core s) := by
  refine MemOk.hwStep ?_
  dsimp only
  split
  · exact h
  · exact MemOk.ite (h.beginMq.engineStep (fun _ h => h) h.beginMq.reverseStep) h

/-! ### The context engine's work -/

protected theorem MemOk.kResident {s : State} {va : ℕ} (h : MemOk s) : Ends MemOk (kResident va s) := by
  unfold Machine.kResident
  split
  · have h := h.translate.of_eq ‹_›
    exact .ok h
  · exact .stop

protected theorem MemOk.kBytes {w : KWork} {va n : ℕ} (h : MemOk w.s) :
    Ends (fun r => MemOk r.2.s) (kBytes va n w) :=
  .bindState (.ite h.kResident <| .ok h) fun _ h => h.engineReads.kAccess.bind fun _ h => .ok h

protected theorem MemOk.kRead {w : KWork} {va n : ℕ} (h : MemOk w.s) : Ends (fun r => MemOk r.2.s) (kRead va n w) :=
  h.kBytes.bind fun _ h => .ok h

protected theorem MemOk.kWrite {w : KWork} {va : ℕ} {b : List Byte} (h : MemOk w.s) :
    Ends (fun r => MemOk r.s) (kWrite va b w) :=
  h.engineWrites.kAccess.bind fun _ h => .ok h

protected theorem MemOk.kCount {w : KWork} {p : ℕ} (h : MemOk w.s) : Ends (fun r => MemOk r.2.s) (kCount p w) :=
  h.kRead

protected theorem MemOk.kSetCount {w : KWork} {p n : ℕ} (h : MemOk w.s) :
    Ends (fun r => MemOk r.s) (kSetCount p n w) :=
  h.kWrite

protected theorem MemOk.kPage {w : KWork} {p : ℕ} (h : MemOk w.s) : Ends (fun r => MemOk r.2.s) (kPage p w) :=
  .ite (.ok h) .stop

protected theorem MemOk.kSucc {w : KWork} {p : ℕ} (h : MemOk w.s) : Ends (fun r => MemOk r.2.s) (kSucc p w) :=
  h.kRead.bind fun _ h => h.kPage

protected theorem MemOk.pageAt {w : KWork} {n : ℕ} (h : MemOk w.s) : Ends (fun r => MemOk r.2.s) (pageAt n w) := by
  induction n generalizing w with
  | zero => exact h.kPage
  | succ n ih =>
    unfold Machine.pageAt
    split
    · exact h.kPage
    · exact (ih h).bind fun _ h => h.kSucc

protected theorem MemOk.place {w : KWork} {i q : ℕ} (h : MemOk w.s) : Ends (fun r => MemOk r.s) (place i q w) :=
  .ite (.ok h) <| .ite (.ok h) <| h.pageAt.bind fun _ h => h.kCount.bind fun _ h => .ite h.kWrite <| .ite .stop <|
    .ok h

protected theorem MemOk.pagesFrom {w : KWork} {lo n : ℕ} (h : MemOk w.s) :
    Ends (fun r => MemOk r.2.s) (pagesFrom lo n w) :=
  .foldlM h fun _ _ h => h.pageAt.bind fun _ h => .ok h

protected theorem MemOk.takeFree {w : KWork} (h : MemOk w.s) : Ends (fun r => MemOk r.2.s) (takeFree w) :=
  h.kRead.bind fun _ h => .ite .stop <| h.kPage.bind fun _ h => h.kRead.bind fun _ h => h.kRead.bind fun _ h =>
    h.kWrite.bind fun _ h => h.kSetCount.bind fun _ h => .ok h

protected theorem MemOk.allocate {w : KWork} {pbase : ℕ} {t : Bool} (h : MemOk w.s) :
    Ends (fun r => MemOk r.2.s) (allocate pbase t w) := by
  refine .bindSndWork ?_ fun _ h => h.kWrite.bind fun _ h => .ok h
  split
  · exact .ok h
  · exact h.takeFree

protected theorem MemOk.releasePage {w : KWork} {p : ℕ} (h : MemOk w.s) :
    Ends (fun r => MemOk r.s) (releasePage p w) :=
  h.kCount.bind fun _ h => .ite .stop <| h.kSetCount.bind fun _ h => .ite (h.kRead.bind fun _ h =>
    h.kRead.bind fun _ h => h.kWrite.bind fun _ h => h.kWrite) <| .ok h

protected theorem MemOk.newPage {w : KWork} (h : MemOk w.s) : Ends (fun r => MemOk r.s) (newPage w) :=
  .bindSndWork (.ite (.ok h) <| h.pageAt.bind fun _ h => h.kRead.bind fun _ h => .ok h) fun _ h =>
    h.allocate.bind fun _ h => h.place.bind fun _ h => .ok h

protected theorem MemOk.copyPage {w : KWork} {p : ℕ} (h : MemOk w.s) : Ends (fun r => MemOk r.2.s) (copyPage p w) :=
  h.allocate.bind fun _ h => h.kBytes.bind fun _ h => h.kWrite.bind fun _ h => h.kBytes.bind fun _ h =>
    h.kWrite.bind fun _ h => .ok h

protected theorem MemOk.copyOnWrite {w : KWork} {i : ℕ} (h : MemOk w.s) :
    Ends (fun r => MemOk r.s) (copyOnWrite i w) :=
  h.pageAt.bind fun _ h => h.copyPage.bind fun _ h => h.place.bind fun _ h => h.releasePage

protected theorem MemOk.kOpenRun {w : KWork} (h : MemOk w.s) : Ends (fun r => MemOk r.s) (kOpenRun w) :=
  h.kBytes.bind fun _ h => .ite .stop <| h.kBytes.bind fun _ h => .ite .stop <| h.kBytes.bind fun _ h => .ok h

protected theorem MemOk.kCloseRun {w : KWork} {discard : Bool} (h : MemOk w.s) :
    Ends (fun r => MemOk r.s) (kCloseRun discard w) :=
  .bindWork (.ite (h.pagesFrom.bind fun _ h => .bindWork (.foldlM h fun _ _ h => h.releasePage) fun _ h =>
    .ok h) <| .ok h) fun _ h => h.kWrite

protected theorem MemOk.appendToken {w : KWork} {off j : ℕ} (h : MemOk w.s) :
    Ends (fun r => MemOk r.s) (appendToken off j w) :=
  .ite .stop <| .ite .stop <| .bindWork (.ite h.newPage <| h.pageAt.bind fun _ h => h.kCount.bind fun _ h =>
    .ite h.copyOnWrite <| .ok h) fun _ h => h.pageAt.bind fun _ h => h.kWrite.bind fun _ h =>
    h.kWrite.bind fun _ h => h.kWrite.bind fun _ h => h.kRead.bind fun _ h => h.kWrite.bind fun _ h =>
    h.kRead.bind fun _ h => h.kWrite.bind fun _ h => .ok h

protected theorem MemOk.kAppRun {w : KWork} {blk : Word} {n : ℕ} (h : MemOk w.s) :
    Ends (fun r => MemOk r.s) (kAppRun blk n w) :=
  .foldlM h fun _ _ h => h.appendToken

protected theorem MemOk.hashPage {w : KWork} {j : ℕ} (h : MemOk w.s) : Ends (fun r => MemOk r.s) (hashPage w j) :=
  h.pageAt.bind fun _ h => h.kBytes.bind fun _ h => h.kWrite.bind fun _ h => .ok h

protected theorem MemOk.kAccRun {w : KWork} {n : ℕ} (h : MemOk w.s) : Ends (fun r => MemOk r.s) (kAccRun n w) :=
  .foldlM h fun _ _ h => h.hashPage

protected theorem MemOk.kRejRun {w : KWork} (h : MemOk w.s) : Ends (fun r => MemOk r.s) (kRejRun w) := .ok h

protected theorem MemOk.clearTentative {w : KWork} {l : List ℕ} (h : MemOk w.s) :
    Ends (fun r => MemOk r.s) (clearTentative l w) :=
  .foldlM h fun _ _ h => h.kRead.bind fun _ h => .ite h.kWrite <| .ok h

protected theorem MemOk.kTentRun {w : KWork} {on : Bool} (h : MemOk w.s) :
    Ends (fun r => MemOk r.s) (kTentRun on w) :=
  .ite (.ok (by split <;> exact h)) <| .ite (.ok h) <| h.pagesFrom.bind fun _ h =>
    h.clearTentative.bind fun _ h => .ok h

protected theorem MemOk.firstTentative {w : KWork} {l : List ℕ} {i : ℕ} (h : MemOk w.s) :
    Ends (fun r => MemOk r.2.s) (firstTentative l i w) := by
  induction l generalizing i w with
  | nil => exact .ok h
  | cons p r ih => exact h.kRead.bind fun _ h => .ite (.ok h) (ih h)

protected theorem MemOk.kDroptRun {w : KWork} (h : MemOk w.s) : Ends (fun r => MemOk r.s) (kDroptRun w) :=
  .ite (.ok h) <| h.pagesFrom.bind fun _ h => h.firstTentative.bind fun _ h => .bindWork (.foldlM h fun _ _ h =>
    h.releasePage) fun _ h => .ok h

protected theorem MemOk.sharePage {w : KWork} {ip : ℕ × ℕ} (h : MemOk w.s) :
    Ends (fun r => MemOk r.s) (sharePage w ip) :=
  h.kCount.bind fun _ h => .ite (h.copyPage.bind fun _ h => h.place) h.kSetCount

protected theorem MemOk.kForkRun {w : KWork} {p : SeqCtx} (h : MemOk w.s) :
    Ends (fun r => MemOk r.s) (kForkRun p w) := by
  have hp : ∀ sc f, Ends (fun r => MemOk r.2.s) (pagesFrom 0 f { w with c := sc }) := fun sc _ =>
    MemOk.pagesFrom (w := { w with c := sc }) h
  exact .ite .stop <| (hp _ _).bind fun _ h => .foldlM (P := fun w : KWork => MemOk w.s) h fun _ _ h => h.sharePage

protected theorem MemOk.kPbRun {w : KWork} {i pb : ℕ} (h : MemOk w.s) : Ends (fun r => MemOk r.s) (kPbRun i pb w) :=
  .ite .stop <| h.pageAt.bind fun _ h => h.kWrite

protected theorem MemOk.spanPages {w : KWork} {n p : ℕ} (h : MemOk w.s) :
    Ends (fun r => MemOk r.2.s) (spanPages n p w) := by
  induction n generalizing p w with
  | zero => exact .ok h
  | succ k ih =>
    cases k with
    | zero => exact h.kPage.bind fun _ h => .ok h
    | succ k =>
      exact h.kPage.bind fun _ h => h.kRead.bind fun _ h => .ite .stop <| h.kSucc.bind fun _ h =>
        (ih h).bind fun _ h => .ok h

protected theorem MemOk.raiseCount {w : KWork} {p : ℕ} (h : MemOk w.s) :
    Ends (fun r => MemOk r.s) (raiseCount w p) :=
  h.kCount.bind fun _ h => .ite .stop h.kSetCount

protected theorem MemOk.kSplRun {w : KWork} {i k p : ℕ} {hd : Bool} (h : MemOk w.s) :
    Ends (fun r => MemOk r.s) (kSplRun i k p hd w) :=
  .ite .stop <| h.spanPages.bind fun _ h => h.pagesFrom.bind fun _ h =>
    .bindWork (.foldlM (P := fun w : KWork => MemOk w.s) h fun _ _ h => h.releasePage) fun w h =>
    (MemOk.place (w := { w with c := { w.c with joins := w.c.joins.filter (fun j => decide (j.1 < i)), pages := i } })
      h).bind fun _ h => .bindWork (.foldlM (P := fun w : KWork => MemOk w.s) h fun _ _ h => h.raiseCount) fun _ h =>
    h.kBytes.bind fun _ h => .ok h

protected theorem MemOk.kCells {w : KWork} {q : Region} (h : MemOk w.s) : Ends (fun r => MemOk r.2.s) (kCells q w) := by
  refine .ite (.ok h) <| h.execDesc.kAccess.bind fun (_, _) h => ?_
  dsimp only
  split
  · exact .stop
  · exact .ite .stop <| h.applied.kAccess.bind fun _ h => .ok h

protected theorem MemOk.kLoadRun {w : KWork} {n : ℕ} {page : Option ℕ} {q : Option Region} {val prune : Bool}
    (h : MemOk w.s) :
    Ends (fun r => MemOk r.2.s) (kLoadRun n page q val prune w) := by
  unfold Machine.kLoadRun
  split
  · exact .stop
  · refine h.kBytes.bind fun _ h => .ite .stop <| .ite (.ok h) <| .bindSndWork ?_ fun _ h =>
        .bindSndWork (.foldlM h fun _ _ h => h.kBytes.bind fun _ h => .ok h) fun _ h => .ok h
    split
    · exact h.kCells
    · exact .ok h

protected theorem MemOk.askFor {s : State} {core dom va : ℕ} (h : MemOk s) : MemOk (askFor core dom va s) := by
  unfold Machine.askFor
  dsimp only
  split
  · exact MemOk.ite h.walked.fetchAhead h.walked
  · exact h.walked.faultedEngine

protected theorem MemOk.prefetch {w : KWork} {n : ℕ} {val : Bool} (h : MemOk w.s) : MemOk (prefetch n val w) := by
  unfold Machine.prefetch
  refine h.foldl fun t i ht => ?_
  split
  · exact ht
  · split
    · exact .ite ht ht.faultedEngine
    · exact ht
    · exact ht.askFor.askFor

protected theorem MemOk.findHit {w : KWork} {hash prev : Word} {ids : List ℕ} {l : List KWay} (h : MemOk w.s) :
    Ends (fun r => MemOk r.2.s) (findHit hash prev ids l w) := by
  induction l generalizing w with
  | nil => exact .ok h
  | cons y r ih => exact .ite (ih h) <| h.kBytes.bind fun _ h => .ite (.ok h) (ih h)

protected theorem MemOk.kPfxRun {w : KWork} {prev : Word} {ids : List ℕ} (h : MemOk w.s) :
    Ends (fun r => MemOk r.2.s) (kPfxRun prev ids w) := by
  refine .ite (.ok h) <| h.kBytes.bind fun _ h => h.findHit.bind fun (_, _) h => ?_
  dsimp only
  split
  · exact .ok h
  · exact h.kCount.bind fun _ h => .ite (.ok h) <| h.kSetCount.bind fun _ h => .ok h

protected theorem MemOk.setWay {w : KWork} {hd : Word} {i page : ℕ} (h : MemOk w.s) :
    Ends (fun r => MemOk r.s) (setWay hd i page w) :=
  h.kWrite

protected theorem MemOk.kInsRun {w : KWork} {i : ℕ} (h : MemOk w.s) : Ends (fun r => MemOk r.2.s) (kInsRun i w) := by
  refine .ite (.ok h) <| h.pageAt.bind fun _ h => h.kRead.bind fun _ h => .ite (.ok h) <| h.kBytes.bind fun _ h =>
      h.kCount.bind fun _ h => .ite (.ok h) <| .ite (.ok h) ?_
  split
  · exact h.kSetCount.bind fun _ h => h.setWay.bind fun _ h => .ok h
  · exact h.kPage.bind fun _ h => h.kCount.bind fun _ h => .ite (.ok h) <| h.setWay.bind fun _ h =>
      h.raiseCount.bind fun _ h => h.releasePage.bind fun _ h => .ok h

/-! ### The context unit -/

protected theorem MemOk.setSqReg {s : State} {n : ℕ} {v : Word} (h : MemOk s) : MemOk (s.setSqReg n v) :=
  h.setCur

protected theorem MemOk.appendK {s : State} {q : Option Region} {c : CmdHdr → KCmd} (h : MemOk s) :
    Ends MemOk (appendK q c s) :=
  h.appendCmd.bind fun _ h => .ok h.setSq

protected theorem MemOk.execKopen {s : State} {d a b : BitVec 6} (h : MemOk s) : Nexts (execKopen d a b s) := by
  refine h.guardedRun <| h.readTwo.lift.bind fun _ h => .ite .stop <| .ite .stop <| .ite .stop <|
      h.spanGrant.bind fun _ h => .ite .stop ?_
  split
  · exact .stop
  · exact h.appendK.lift.bind fun _ h => .pure h.setSq.setSqReg

protected theorem MemOk.execKclose {s : State} {d a : BitVec 6} (h : MemOk s) : Nexts (execKclose d a s) :=
  h.guarded <| h.readReg.bind fun _ h => .skip fun _ => h.appendK.bind fun _ h => .ok h.setSqReg

protected theorem MemOk.execKapp {s : State} {d a b : BitVec 6} (h : MemOk s) : Nexts (execKapp d a b s) :=
  h.guarded <| h.readTwo.bind fun _ h => .skip fun _ => .skip fun _ => .ite .stop h.appendK

protected theorem MemOk.execKacc {s : State} {d a : BitVec 6} (h : MemOk s) : Nexts (execKacc d a s) :=
  h.guarded <| h.readReg.bind fun _ h => .skip fun _ => h.appendK

protected theorem MemOk.execKrej {s : State} {d : BitVec 6} (h : MemOk s) : Nexts (execKrej d s) :=
  h.guarded <| .skip fun _ => h.appendK

protected theorem MemOk.execKpb {s : State} {d a b : BitVec 6} (h : MemOk s) : Nexts (execKpb d a b s) :=
  h.guarded <| h.readTwo.bind fun _ h => .skip fun _ => h.appendK

protected theorem MemOk.execKspl {s : State} {d a b : BitVec 6} (h : MemOk s) : Nexts (execKspl d a b s) :=
  h.guarded <| h.readTwo.bind fun _ h => .skip fun _ => .ite .stop h.appendK

protected theorem MemOk.execKfork {s : State} {d a : BitVec 6} (h : MemOk s) : Nexts (execKfork d a s) :=
  h.guarded <| .skip fun _ => .skip fun _ => .ite .stop h.appendK

protected theorem MemOk.execKmarg {s : State} {d a b : BitVec 6} (h : MemOk s) : Nexts (execKmarg d a b s) :=
  h.guarded <| h.readTwo.bind fun _ h => .skip fun _ => .ite (.skip fun _ => h.appendK) h.appendK

protected theorem MemOk.execKtent {s : State} {d a : BitVec 6} (h : MemOk s) : Nexts (execKtent d a s) :=
  h.guarded <| h.readReg.bind fun _ h => .skip fun _ => h.appendK

protected theorem MemOk.execKdropt {s : State} {d : BitVec 6} (h : MemOk s) : Nexts (execKdropt d s) :=
  h.guarded <| .skip fun _ => h.appendK

protected theorem MemOk.workOn {s : State} {a : Agent} {core : ℕ} {c : SeqCtx} (h : MemOk s) :
    Ends (fun r => MemOk r.s) (workOn a core c s) :=
  h.kBytes.bind fun _ h => .ok h

protected theorem MemOk.hubAccess {α : Type} {s : State} {held : Wait} {st : α → State} {x : Except KStop α}
    (h : MemOk s) (hx : Ends (fun v => MemOk (st v)) x) : RunEnds (fun r => MemOk r.2) (hubAccess held st s x) := by
  unfold Machine.hubAccess
  split
  · exact .leaves (hx _ rfl)
  · exact .leaves h.metPoison
  · exact .stop
  · exact .stop

protected theorem MemOk.loadRegion {s : State} {y : Word} {fmt : ℕ} (h : MemOk s) :
    RunEnds (fun r => MemOk r.2) (loadRegion y fmt s) :=
  .ite (.pure h) <| .ite (.pure h) <| h.descFetch.bind fun _ h => .skip fun _ => .ite .stop <| .pure h

protected theorem MemOk.resolvePage {s : State} {c : SeqCtx} {n : ℕ} {val check : Bool} (h : MemOk s) :
    RunEnds (fun r => MemOk r.2) (resolvePage c n val check s) := by
  have hp : Ends (fun r => MemOk r.2.s) (do
      let w ← workOn ⟨s.appends, s.kdom, false, 1⟩ s.focus.core c s
      pageAt n { w with issue := true }) :=
    h.workOn.bind fun w h => MemOk.pageAt (w := { w with issue := true }) h
  refine .ite (.pure h) <| (MemOk.hubAccess h hp).bind fun (r, s) h => ?_
  dsimp only
  split
  · exact .pure h
  · exact .ite (.pure h) <| (MemOk.hubAccess h (MemOk.kResident h)).bind fun _ h => .pure h

protected theorem MemOk.loadBody {s : State} {val : Bool} {i : Instr} {d a b : BitVec 6} (h : MemOk s) :
    RunEnds MemOk (loadBody val i d a b s) :=
  h.readReg.lift.bind fun _ h => .skip fun _ => .ite .stop <| .ite .stop <| .ite .stop <| .ite .stop <|
    h.loadRegion.bind fun _ h => h.resolvePage.bind fun _ h => h.appendK.lift.bind fun _ h => .pure h.setSq

protected theorem MemOk.execKload {s : State} {d a b : BitVec 6} (h : MemOk s) : Nexts (execKload d a b s) :=
  h.guardedRun h.loadBody

protected theorem MemOk.execKval {s : State} {d a b : BitVec 6} (h : MemOk s) : Nexts (execKval d a b s) :=
  h.guardedRun h.loadBody

protected theorem MemOk.execKpfx {s : State} {d a b : BitVec 6} (h : MemOk s) : Nexts (execKpfx d a b s) := by
  refine h.guardedRun <| h.readReg.lift.bind fun _ h => .skip fun _ => .skip fun _ => .ite .stop <|
      .ite (.lift h.writeReg) <| (h.hubAccess <| h.workOn.bind fun _ h => h.kPfxRun).bind fun (_, _) h => ?_
  dsimp only
  split
  · exact .lift h.writeReg
  · exact .lift h.writeReg

protected theorem MemOk.execKins {s : State} {d a b : BitVec 6} (h : MemOk s) : Nexts (execKins d a b s) := by
  refine h.guardedRun <| h.readReg.lift.bind fun _ h => .skip fun _ => .ite .stop <| .ite (.lift h.writeReg) <|
      (h.hubAccess <| h.workOn.bind fun _ h => h.kInsRun).bind fun (_, _) h => ?_
  dsimp only
  split
  · exact .lift h.writeReg
  · exact .bindState (.ite (.lift h.release) <| .pure h) fun _ h => .lift h.writeReg

protected theorem MemOk.execKseq {s : State} {d a : BitVec 6} (h : MemOk s) : Nexts (execKseq d a s) := by
  refine h.guarded <| h.readReg.bind fun (_, _) h => ?_
  dsimp only
  split
  · exact h.writeReg
  · exact h.writeReg
  · exact .skip fun _ => .ite .stop h.writeReg
  · exact .stop

protected theorem MemOk.execKseqWt {s : State} {a b : BitVec 6} (h : MemOk s) : Nexts (execKseqWt a b s) :=
  h.guarded h.waitSeq

protected theorem MemOk.finishK {s : State} {q : ℕ} {c : KCmd} (h : MemOk s) : MemOk (finishK q c s) :=
  h.setSq.completeCmd

protected theorem MemOk.kPerform {w : KWork} {c : KCmd} {p : SeqCtx} (h : MemOk w.s) :
    Ends (fun r => MemOk r.2.s) (kPerform c p w) := by
  unfold Machine.kPerform
  dsimp only
  split
  · exact h.kOpenRun.mapOf fun _ h => h
  · exact Ends.mapOf (.ite (.ok h) h.kCloseRun) fun _ h => h
  · exact h.kAppRun.mapOf fun _ h => h
  · exact h.kAccRun.mapOf fun _ h => h
  · exact h.kRejRun.mapOf fun _ h => h
  · exact h.kPbRun.mapOf fun _ h => h
  · exact h.kSplRun.mapOf fun _ h => h
  · exact h.kForkRun.mapOf fun _ h => h
  · exact Ends.mapOf (.ok h) fun _ h => h
  · exact h.kTentRun.mapOf fun _ h => h
  · exact h.kDroptRun.mapOf fun _ h => h
  · exact h.kLoadRun.mapOf fun _ h => h
  · exact h.kLoadRun.mapOf fun _ h => h
  · exact .stop

protected theorem MemOk.kStart {s : State} {q : ℕ} {c : KCmd} {p : SeqCtx} (h : MemOk s) :
    Ends (fun r => MemOk r.s) (kStart q c p s) :=
  .ite .stop <| .ite (h.workOn.mapOf fun _ h => h) <| .ok h

protected theorem MemOk.kSlot {s : State} {q : ℕ} {c : KCmd} {data : List ℕ} (h : MemOk s) :
    MemOk (kSlot q c data s) := by
  unfold Machine.kSlot
  split
  · exact h
  · exact h.setSq

protected theorem MemOk.kDone {w : KWork} {q : ℕ} {c : KCmd} {l : Option KLoaded} (h : MemOk w.s) :
    MemOk (kDone q c l w) :=
  (((MemOk.ite h.prefetch h).kSlot).setSq).finishK

protected theorem MemOk.spareBack {w : KWork} (h : MemOk w.s) : Ends (fun r => MemOk r.s) (spareBack w) := by
  fun_cases spareBack w <;> grind [MemOk.releasePage, Ends.ok]

protected theorem MemOk.kWaits {s : State} {c : KCmd} {va reason code : ℕ} (h : MemOk s) :
    MemOk (kWaits c va reason code s) :=
  h.engineWaits

protected theorem MemOk.kGiveBack {s : State} {q : ℕ} {c : KCmd} (h : MemOk s) : Ends MemOk (kGiveBack q c s) := by
  unfold Machine.kGiveBack
  split
  · exact .ok h
  · split
    · have h := (h.workOn.bind fun _ h => h.releasePage).of_ok ‹_›
      exact .ok h
    · exact .stop
    · exact .ok h

protected theorem MemOk.kFailure {s : State} {q : ℕ} {c : KCmd} (h : MemOk s) : MemOk (kFailure q c s) :=
  h.kSlot.setSq.finishK

protected theorem MemOk.kFailed {s : State} {q : ℕ} {c : KCmd} (h : MemOk s) : MemOk (kFailed q c s) := by
  unfold Machine.kFailed
  split
  · have h := h.kGiveBack.of_ok ‹_›
    exact h.kFailure
  · exact h.kWaits
  · exact h.kFailure

protected theorem MemOk.kExecute {s : State} {q : ℕ} {c : KCmd} (h : MemOk s) : MemOk (kExecute q c s) := by
  refine MemOk.ite h (MemOk.ite h.kFailed ?_)
  split
  · have hw := (h.kStart.bind fun _ h => h.kPerform).of_ok ‹_›
    split
    · have hb := hw.spareBack.of_ok ‹_›
      exact hb.kDone
    · exact h.kWaits
    · exact hw.kDone
  · exact h.metPoison.kFailed
  · exact h.setSq
  · exact h.kWaits

protected theorem MemOk.kStep {s : State} {sq sc : ℕ} {kind : Instr → Bool} (h : MemOk s) :
    Nexts (kStep sq sc kind s) := by
  refine MemOk.hwStep ?_
  split
  · exact h
  · exact MemOk.ite h.kExecute h

protected theorem MemOk.execKopenExecute {s : State} {sq sc : ℕ} (h : MemOk s) : Nexts (execKopenExecute sq sc s) :=
  h.kStep

protected theorem MemOk.execKcloseExecute {s : State} {sq sc : ℕ} (h : MemOk s) :
    Nexts (execKcloseExecute sq sc s) :=
  h.kStep

protected theorem MemOk.execKappExecute {s : State} {sq sc : ℕ} (h : MemOk s) : Nexts (execKappExecute sq sc s) :=
  h.kStep

protected theorem MemOk.execPageAllocate {s : State} {sq sc : ℕ} (h : MemOk s) : Nexts (execPageAllocate sq sc s) := by
  refine MemOk.hwStep ?_
  split
  · exact h
  · refine MemOk.ite h (MemOk.ite h.setSq ?_)
    split
    · have h := (h.kStart.bind fun _ h => h.allocate).of_ok ‹_›
      exact h.setSq
    · exact h.metPoison.kFailed
    · exact h
    · exact h.kWaits

protected theorem MemOk.execKaccExecute {s : State} {sq sc : ℕ} (h : MemOk s) : Nexts (execKaccExecute sq sc s) :=
  h.kStep

protected theorem MemOk.execKrejExecute {s : State} {sq sc : ℕ} (h : MemOk s) : Nexts (execKrejExecute sq sc s) :=
  h.kStep

protected theorem MemOk.execKpbExecute {s : State} {sq sc : ℕ} (h : MemOk s) : Nexts (execKpbExecute sq sc s) :=
  h.kStep

protected theorem MemOk.execKsplExecute {s : State} {sq sc : ℕ} (h : MemOk s) : Nexts (execKsplExecute sq sc s) :=
  h.kStep

protected theorem MemOk.execKforkExecute {s : State} {sq sc : ℕ} (h : MemOk s) : Nexts (execKforkExecute sq sc s) :=
  h.kStep

protected theorem MemOk.execKloadExecute {s : State} {sq sc : ℕ} (h : MemOk s) : Nexts (execKloadExecute sq sc s) :=
  h.kStep

protected theorem MemOk.execKvalExecute {s : State} {sq sc : ℕ} (h : MemOk s) : Nexts (execKvalExecute sq sc s) :=
  h.kStep

protected theorem MemOk.execKmargExecute {s : State} {sq sc : ℕ} (h : MemOk s) : Nexts (execKmargExecute sq sc s) :=
  h.kStep

protected theorem MemOk.execKtentExecute {s : State} {sq sc : ℕ} (h : MemOk s) : Nexts (execKtentExecute sq sc s) :=
  h.kStep

protected theorem MemOk.execKdroptExecute {s : State} {sq sc : ℕ} (h : MemOk s) :
    Nexts (execKdroptExecute sq sc s) :=
  h.kStep

/-! ### Fetching and pairs -/

protected theorem MemOk.fetchLe {s : State} {pc n : ℕ} (h : MemOk s) :
    RunEnds (fun r => MemOk r.2) (fetchLe pc n s) :=
  .ite .stop <| .ite (.skip fun _ => .pure h) <| .ite .stop <| (RunEnds.held h.plbLook).bind fun _ h =>
    .ite .stop <| h.globalPlace.bind fun _ h => .pure h

protected theorem MemOk.fetchBundle {s : State} (h : MemOk s) : RunEnds (fun r => MemOk r.2) (fetchBundle s) :=
  .ite (h.fetchLe.bind fun _ h => .pure h) <| h.fetchLe.bind fun _ h => .pure h

protected theorem MemOk.atWord {s : State} {len w : ℕ} {second : Bool} (h : MemOk s) :
    MemOk (atWord s len w second) :=
  MemOk.setPc (h.same rfl rfl)

protected theorem MemOk.undo {s : State} {u : State} {st : Stop} (h : MemOk s) : Nexts (undo s u st) :=
  h.seenAs.finish .stop

protected theorem MemOk.unpin {s : State} (h : MemOk s) : MemOk (unpin s) := h

protected theorem MemOk.illAt {s : State} {len w : ℕ} {second : Bool}
    (h : MemOk s) : Nexts (illAt s len w second) := by
  unfold Machine.illAt
  exact h.atWord.finish .stop

protected theorem MemOk.focusOn {s : State} {c x : ℕ} (h : MemOk s) : MemOk (focusOn s c x) := h

protected theorem MemOk.chargeIssue {s : State} (h : MemOk s) : MemOk (chargeIssue s) := h.setCur.spend

protected theorem MemOk.completed {s : State} {c x : ℕ} (h : MemOk s) : MemOk (s.completed c x) :=
  MemOk.ite h.setCtx h

protected theorem MemOk.holdSpent {s : State} {c : ℕ} (h : MemOk s) : MemOk (s.holdSpent c) :=
  MemOk.ite (h.setCore (h.coreAt _)) h

protected theorem MemOk.linkArrive {s : State} {u : LinkUnit} (h : MemOk s) : MemOk (s.linkArrive u) :=
  MemOk.ite h.setSq h

protected theorem MemOk.nextCycle {s : State} (h : MemOk s) : MemOk (nextCycle s) := by
  have hl : MemOk ((Config.linkIn s.freeCtr).foldl State.linkArrive { s with linkOut := [] }) :=
    MemOk.foldl (s := { s with linkOut := [] }) h fun _ _ h => h.linkArrive
  have hw : MemOk (((Config.hostConfig s.freeCtr).foldl writeCapability
      ((Config.linkIn s.freeCtr).foldl State.linkArrive { s with linkOut := [] })).retryHw) :=
    MemOk.retryHw (hl.foldl fun _ _ h => h.writeCapability)
  exact hw.same rfl rfl

/-! ### Loads and stores -/

protected theorem MemOk.loadReg {s : State} {d a : BitVec 6} {off : ℤ} {n : ℕ} {ext : ℕ → Word} (h : MemOk s) :
    RunEnds MemOk (loadReg d a off n ext s) :=
  h.readReg.lift.bind fun _ h => h.loadV.bind fun _ h => .lift h.writeReg

protected theorem MemOk.storeReg {s : State} {d a : BitVec 6} {off : ℤ} {n : ℕ} (h : MemOk s) :
    RunEnds MemOk (storeReg d a off n s) :=
  h.readTwo.lift.bind fun _ h => h.storeV

protected theorem MemOk.execLdD {s : State} {d a : BitVec 6} {i : BitVec 12} (h : MemOk s) :
    Nexts (execLdD d a i s) :=
  h.guardedRun h.loadReg

protected theorem MemOk.execStD {s : State} {d a : BitVec 6} {i : BitVec 12} (h : MemOk s) :
    Nexts (execStD d a i s) :=
  h.guardedRun h.storeReg

protected theorem MemOk.execLd {s : State} {d a : BitVec 6} {sz : BitVec 3} {o : BitVec 9} (h : MemOk s) :
    Nexts (execLd d a sz o s) :=
  h.guardedRun h.loadReg

protected theorem MemOk.execSt {s : State} {d a : BitVec 6} {sz : BitVec 3} {o : BitVec 9} (h : MemOk s) :
    Nexts (execSt d a sz o s) :=
  h.guardedRun h.storeReg

protected theorem MemOk.execLdb {s : State} {d a : BitVec 6} {sx : BitVec 1} {w : BitVec 5} (h : MemOk s) :
    Nexts (execLdb d a sx w s) :=
  h.guarded <| h.readReg.bind fun _ h => .skip fun _ => h.localBytes.bind fun _ h => h.writeReg

protected theorem MemOk.execStb {s : State} {d a : BitVec 6} {w : BitVec 5} (h : MemOk s) :
    Nexts (execStb d a w s) :=
  h.guarded <| h.readTwo.bind fun _ h => .skip fun _ => .ok (h.setCoreCur (wf_localBits (h.coreAt _)))

protected theorem MemOk.execLdfW {s : State} {d a : BitVec 6} {i : BitVec 12} (h : MemOk s) :
    Nexts (execLdfW d a i s) :=
  h.guarded <| h.readReg.bind fun _ h => .ite .stop <| .ite .stop <| .skip fun _ => .ite ((h.setCoreCur
    (by exact wf_dropOld (h.coreAt _))).writeReg) .stop

protected theorem MemOk.markZero {s : State} {line paLine : ℕ} (h : MemOk s) : MemOk (s.markZero line paLine) :=
  h.mapCores rfl rfl (fun _ => rfl) fun _ => rfl

protected theorem MemOk.discard {s : State} {line : ℕ} (h : MemOk s) : MemOk (s.discard line) :=
  h.setCoreCur (h.coreAt _)

protected theorem MemOk.zeroLine {s : State} {ea : ℕ} (h : MemOk s) : RunEnds MemOk (zeroLine ea s) := by
  refine .ite h.storeBytes <| h.globalGrant.bind fun _ h => h.discard.globalPlace.bind fun (pa, s) h => ?_
  have hs : MemOk ((s.putPhys pa (leBytes 128 0)).stashesWritten (some (s.focus.core, s.kdom)) ea 128) :=
    h.putPhys.stashesWritten
  refine .pure (MemOk.markZero ?_)
  split
  · exact .ite hs hs.fillEntry
  · exact hs

protected theorem MemOk.l1Set {s : State} {line : ℕ} {held : Bool} (h : MemOk s) : MemOk (s.l1Set line held) :=
  h.setCoreCur (h.coreAt _)

protected theorem MemOk.execPf {s : State} {a : BitVec 6} {o : BitVec 12} (h : MemOk s) : Nexts (execPf a o s) :=
  h.guarded <| h.readReg.bind fun (x, s) h => .ite (.ok h) <| by
    have h : MemOk s := h
    have hg : RunEnds MemOk (do
        let (e, t) ← globalGrant .read (lineAddr x o) 128 s
        let (_, t) ← globalPlace e .read (lineAddr x o) t
        pure (t.l1Set (lineAddr x o / 128) true)) :=
      h.globalGrant.bind fun r h => h.globalPlace.bind fun t h => .pure h.l1Set
    dsimp only
    split
    · exact .ok (hg.of_ok ‹_›)
    · exact .ok h.seeing

protected theorem MemOk.execDisc {s : State} {a : BitVec 6} {o : BitVec 12} (h : MemOk s) : Nexts (execDisc a o s) :=
  h.guardedRun <| h.readReg.lift.bind fun _ h => h.zeroLine.bind fun _ h => .pure (MemOk.ite h h.l1Set)

protected theorem MemOk.execZline {s : State} {a : BitVec 6} {o : BitVec 12} (h : MemOk s) :
    Nexts (execZline a o s) :=
  h.guardedRun <| h.readReg.lift.bind fun _ h => h.zeroLine.bind fun _ h => .pure (MemOk.ite h h.l1Set)

protected theorem MemOk.writeBack {s : State} {line : ℕ} (h : MemOk s) : MemOk (s.writeBack line) := by
  unfold State.writeBack
  dsimp only
  split
  · exact h.giveBackAll.l2Clean
  · exact h.giveBackAll

protected theorem MemOk.execWbk {s : State} {a : BitVec 6} {o : BitVec 12} (h : MemOk s) : Nexts (execWbk a o s) :=
  h.guardedRun <| h.readReg.lift.bind fun _ h => .ite (.ite (.pure h) .stop) <| .ite .stop <|
    (RunEnds.held h.plbLook).bind fun _ h => .ite (.pure h.writeBack) .stop

protected theorem MemOk.pushStore {s : State} {many : Bool} {d a b : BitVec 6} {z : BitVec 1} {o : BitVec 4}
    (h : MemOk s) :
    RunEnds MemOk (pushStore many d a b z o s) :=
  h.readThree.lift.bind fun _ h => .ite .stop <| .ite .stop <| h.storeBytes.bind fun _ h => .pure h.setCur

protected theorem MemOk.execStp {s : State} {d a b : BitVec 6} {z : BitVec 1} {o : BitVec 4} (h : MemOk s) :
    Nexts (execStp d a b z o s) :=
  h.guardedRun h.pushStore

protected theorem MemOk.execStpm {s : State} {d a b : BitVec 6} {z : BitVec 1} {o : BitVec 4} (h : MemOk s) :
    Nexts (execStpm d a b z o s) :=
  h.guardedRun h.pushStore

protected theorem MemOk.installPush {s : State} {c x : ℕ} {busy : Bool} (h : MemOk s) :
    MemOk (installPush c x busy s) := by
  unfold Machine.installPush
  dsimp only
  split
  · exact h
  · exact MemOk.ite h.setCtx (MemOk.ite h.setCtx (h.setCtx.setCore (h.setCtx.coreAt _)))

protected theorem MemOk.execPushCopyInstall {s : State} {core ctx : ℕ} {busy : Bool} (h : MemOk s) :
    Nexts (execPushCopyInstall core ctx busy s) :=
  MemOk.hwStep h.installPush

protected theorem MemOk.atomicOp {s : State} {f : ℕ → ℕ → ℕ → ℕ → ℕ} {ext : ℕ → ℕ → Word} {n : ℕ} {d a b : BitVec 5}
    {o : BitVec 3} (h : MemOk s) :
    RunEnds MemOk (atomicOp f ext n d a b o s) :=
  h.release.lift.bind fun _ h => h.atomicV.bind fun _ h => .lift h.writeReg

protected theorem MemOk.execAadd {s : State} {z : BitVec 1} {d a b : BitVec 5} {sc o : BitVec 3} (h : MemOk s) :
    Nexts (execAadd z d a b sc o s) :=
  h.guardedRun h.atomicOp

protected theorem MemOk.execAmin {s : State} {z : BitVec 1} {d a b : BitVec 5} {sc o : BitVec 3} (h : MemOk s) :
    Nexts (execAmin z d a b sc o s) :=
  h.guardedRun h.atomicOp

protected theorem MemOk.execAmax {s : State} {z : BitVec 1} {d a b : BitVec 5} {sc o : BitVec 3} (h : MemOk s) :
    Nexts (execAmax z d a b sc o s) :=
  h.guardedRun h.atomicOp

protected theorem MemOk.execAand {s : State} {z : BitVec 1} {d a b : BitVec 5} {sc o : BitVec 3} (h : MemOk s) :
    Nexts (execAand z d a b sc o s) :=
  h.guardedRun h.atomicOp

protected theorem MemOk.execAor {s : State} {z : BitVec 1} {d a b : BitVec 5} {sc o : BitVec 3} (h : MemOk s) :
    Nexts (execAor z d a b sc o s) :=
  h.guardedRun h.atomicOp

protected theorem MemOk.execAxor {s : State} {z : BitVec 1} {d a b : BitVec 5} {sc o : BitVec 3} (h : MemOk s) :
    Nexts (execAxor z d a b sc o s) :=
  h.guardedRun h.atomicOp

protected theorem MemOk.execAswp {s : State} {z : BitVec 1} {d a b : BitVec 5} {sc o : BitVec 3} (h : MemOk s) :
    Nexts (execAswp z d a b sc o s) :=
  h.guardedRun h.atomicOp

protected theorem MemOk.execAcas {s : State} {z : BitVec 1} {d a b : BitVec 5} {sc o : BitVec 3} (h : MemOk s) :
    Nexts (execAcas z d a b sc o s) :=
  h.guardedRun h.atomicOp

protected theorem MemOk.execAfadd {s : State} {d a b : BitVec 5} {sc o : BitVec 3} (h : MemOk s) :
    Nexts (execAfadd d a b sc o s) :=
  h.guardedRun h.atomicOp

protected theorem MemOk.execRel {s : State} {d a : BitVec 6} {z : BitVec 1} {sc : BitVec 3} {o : BitVec 7}
    (h : MemOk s) :
    Nexts (execRel d a z sc o s) :=
  h.guardedRun <| h.readTwo.lift.bind fun _ h => h.release.lift.bind fun _ h => h.storeV

protected theorem MemOk.execAcq {s : State} {d a : BitVec 6} {z : BitVec 1} {sc : BitVec 3} {o : BitVec 7}
    (h : MemOk s) :
    Nexts (execAcq d a z sc o s) :=
  h.guardedRun <| h.readReg.lift.bind fun _ h => h.loadV.bind fun _ h => .lift h.writeReg

/-! ### Contexts -/

protected theorem MemOk.preempt {s : State} {c x : ℕ} (h : MemOk s) : MemOk (preempt c x s) :=
  MemOk.ite (h.localPut.setCore (h.localPut.coreAt _)) h

protected theorem MemOk.execPreemptStop {s : State} {core ctx : ℕ} (h : MemOk s) :
    Nexts (execPreemptStop core ctx s) :=
  MemOk.hwStep h.preempt

protected theorem MemOk.requestPreempt {s : State} {c x : ℕ} (h : MemOk s) : MemOk (requestPreempt c x s) :=
  h.setCore (h.coreAt _)

protected theorem MemOk.parkedTrap {s : State} (h : MemOk s) : MemOk (parkedTrap s).2 := by
  unfold Machine.parkedTrap
  dsimp only
  split
  · exact h.recheckOperands.of_ok ‹_›
  · exact h.seeing
  · exact h.seeing

protected theorem MemOk.reloadCtx {s : State} {c x : ℕ} (h : MemOk s) : MemOk (reloadCtx c x s) := by
  fun_cases reloadCtx c x s
  grind [MemOk.setCtx, MemOk.parkedTrap, memOk_iff]

protected theorem MemOk.haltSeen {s : State} {c x : ℕ} (h : MemOk s) : MemOk (s.haltSeen c x) :=
  MemOk.ite h.setBar h

protected theorem MemOk.releasePreempt {s : State} {c x : ℕ} (h : MemOk s) : MemOk (releasePreempt c x s) :=
  MemOk.ite ((h.haltSeen.setCore (by exact h.haltSeen.coreAt _)).reloadCtx) (h.haltSeen.setCore (h.haltSeen.coreAt _))

protected theorem MemOk.execKpreqSet {s : State} {core ctx : ℕ} (h : MemOk s) : Nexts (execKpreqSet core ctx s) :=
  MemOk.hwStep h.requestPreempt

protected theorem MemOk.execKpreqClear {s : State} {core ctx : ℕ} (h : MemOk s) :
    Nexts (execKpreqClear core ctx s) :=
  MemOk.hwStep (MemOk.ite h h.releasePreempt)

protected theorem MemOk.writeKpreq {s : State} {v : Word} (h : MemOk s) : Ends MemOk (writeKpreq v s) := by
  unfold Machine.writeKpreq
  split
  · exact .stop
  · exact .ok (h.foldl fun _ _ h => MemOk.ite h.requestPreempt h.releasePreempt)

protected theorem MemOk.execMfk {s : State} {d a : BitVec 6} (h : MemOk s) : Nexts (execMfk d a s) :=
  h.guarded <| .ite h.writeReg .stop

protected theorem MemOk.writeLayout {s : State} {kcpool kmap : Word} (h : MemOk s) :
    Ends MemOk (writeLayout kcpool kmap s) :=
  .ite .stop <| .ok ((MemOk.ite h h.giveBackAll).setCoreCur ((MemOk.ite h h.giveBackAll).coreAt _))

protected theorem MemOk.ctlWrite {s : State} {n : ℕ} {v : Word} (h : MemOk s) : Ends MemOk (ctlWrite n v s) := by
  unfold Machine.ctlWrite
  dsimp only
  split
  · exact .ok h.setCur
  · exact .ok h.setCur
  · exact .ok h.setCur
  · exact .ok h.setCur
  · exact .ite .stop <| .ok h.setCur
  · exact .ok h.setCur
  · exact .ok h.setCur
  · exact .ok h.setCur
  · exact .ok h.setCur
  · exact .ok h.setCur
  · exact .ok h.setCur
  · exact .ok h.setCur
  · exact .ok h.setCur
  · exact h.writeLayout
  · exact h.writeLayout
  · exact h.writeKpreq
  · exact .stop

protected theorem MemOk.execMtk {s : State} {d a : BitVec 6} (h : MemOk s) : Nexts (execMtk d a s) :=
  h.guarded <| h.readReg.bind fun _ h => .ite h.ctlWrite .stop

protected theorem MemOk.sleepOver {s : State} {unit : Bool} {x : Word} (h : MemOk s) :
    RunEnds (Finds MemOk) (sleepOver unit x s) :=
  .bindSnd (.ite (.pure h) h.hvRead) fun _ h => .ite (h.hvWrite.bind fun _ h => .pure (.some h)) <|
    .pure (.ite (.some h) .none)

protected theorem MemOk.sleepBody {s : State} {a : BitVec 6} (h : MemOk s) :
    RunEnds (fun r => Finds MemOk r.2) (sleepBody a s) :=
  h.readReg.lift.bind fun _ h => h.sleepOver.bind fun _ h => .pure h

protected theorem MemOk.execSleep {s : State} {a : BitVec 6} (h : MemOk s) : Nexts (execSleep a s) := by
  unfold Machine.execSleep
  split
  · dsimp only
    split
    · exact h.seeing.finish .stop
    · exact h.finish (.ok (h.sleepBody.of_ok ‹_› _ rfl))
    · exact .next (h.seeing.backOut.same rfl rfl)
  · exact h.finish .stop

protected theorem MemOk.wakeIf {s : State} {c x : ℕ} {p : State → Ctx → Bool} (h : MemOk s) :
    MemOk (wakeIf c x p s) :=
  MemOk.ite h.setCtx h

protected theorem MemOk.overIf {s : State} {c x : ℕ} {p : State → Wait → Bool} (h : MemOk s) :
    MemOk (overIf c x p s) := by
  fun_cases overIf c x p s <;> grind [MemOk.setCtx]

protected theorem MemOk.execSleepDeadline {s : State} {core ctx : ℕ} (h : MemOk s) :
    Nexts (execSleepDeadline core ctx s) :=
  MemOk.hwStep h.wakeIf

protected theorem MemOk.execMemoryReply {s : State} {core ctx : ℕ} (h : MemOk s) :
    Nexts (execMemoryReply core ctx s) :=
  MemOk.hwStep h.overIf

protected theorem MemOk.execPacketHeaderAccept {s : State} {core ctx : ℕ} (h : MemOk s) :
    Nexts (execPacketHeaderAccept core ctx s) :=
  MemOk.hwStep h.overIf

protected theorem MemOk.execHomeRecall {s : State} {core ctx : ℕ} (h : MemOk s) :
    Nexts (execHomeRecall core ctx s) :=
  MemOk.hwStep h.overIf

protected theorem MemOk.execWakeMessage {s : State} {core ctx page : ℕ} (h : MemOk s) :
    Nexts (execWakeMessage core ctx page s) := by
  refine MemOk.hwStep ?_
  split
  · exact h
  · exact MemOk.wakeIf (h.same rfl rfl)

protected theorem MemOk.execPortUnitArrival {s : State} {core ctx port : ℕ} (h : MemOk s) :
    Nexts (execPortUnitArrival core ctx port s) := by
  refine MemOk.hwStep ?_
  dsimp only
  split
  · exact h
  · exact h.setCtx

protected theorem MemOk.execRepart {s : State} {d a : BitVec 6} (h : MemOk s) : Nexts (execRepart d a s) :=
  h.guarded <| .ite .stop <| h.readReg.bind fun _ h => .ite .stop <| h.writeReg.bind fun _ h =>
    .ok (h.setCoreCur (wf_switchTo (h.coreAt _)))

protected theorem MemOk.execRepartSwitch {s : State} {core : ℕ} (h : MemOk s) : Nexts (execRepartSwitch core s) :=
  MemOk.hwStep h.overIf

/-! ### Branches and flow -/

protected theorem MemOk.execBr {s : State} {c a : BitVec 6} {i : BitVec 12} (h : MemOk s) : Nexts (execBr c a i s) :=
  h.guarded <| h.readReg.bind fun _ h => .ok (MemOk.ite h.setPc h)

protected theorem MemOk.execJmp {s : State} {j : BitVec 24} (h : MemOk s) : Nexts (execJmp j s) :=
  h.finish <| .ok h.setPc

protected theorem MemOk.execCall {s : State} {j : BitVec 24} (h : MemOk s) : Nexts (execCall j s) :=
  h.guarded <| h.writeReg.bind fun _ h => .ok h.setPc

protected theorem MemOk.execJr {s : State} {d a : BitVec 6} (h : MemOk s) : Nexts (execJr d a s) :=
  h.guarded <| h.readReg.bind fun _ h => .ite .stop <| h.writeReg.bind fun _ h => .ok h.setPc

protected theorem MemOk.execBtag {s : State} {a : BitVec 6} (h : MemOk s) : Nexts (execBtag a s) :=
  h.guardedRun <| h.readReg.lift.bind fun _ h1 => .skip fun _ => h1.loadV.bind fun _ h25 => .ite .stop <|
    .pure h25.setPc

protected theorem MemOk.execLoop {s : State} {a : BitVec 6} {i : BitVec 12} (h : MemOk s) : Nexts (execLoop a i s) :=
  h.guarded <| h.writeReg.bind fun _ h => .ok (MemOk.ite h.setPc h)

protected theorem MemOk.execNop {s : State} (h : MemOk s) : Nexts (execNop s) := h.finish <| .ok h

protected theorem MemOk.execAlign {s : State} (h : MemOk s) : Nexts (execAlign s) := h.finish <| .ok h

protected theorem MemOk.execFence {s : State} {sc : BitVec 3} (h : MemOk s) : Nexts (execFence sc s) :=
  h.finish h.release

protected theorem MemOk.execTrap {s : State} {c : BitVec 18} (h : MemOk s) : Nexts (execTrap c s) :=
  h.finish .stop

protected theorem MemOk.execSysc {s : State} {c : BitVec 18} (h : MemOk s) : Nexts (execSysc c s) :=
  h.finish .stop

protected theorem MemOk.execRett {s : State} (h : MemOk s) : Nexts (execRett s) :=
  h.finish <| .ite .stop <| .ok h.returnTrap

protected theorem MemOk.execHalt {s : State} (h : MemOk s) : Nexts (execHalt s) :=
  h.finish <| .ite .stop <| .ok h.setCur.haltReport

/-! ### Float words -/

protected theorem MemOk.execFadd {s : State} {d a b : BitVec 6} {r : BitVec 3} (h : MemOk s) :
    Nexts (execFadd d a b r s) :=
  h.guarded h.floatRR

protected theorem MemOk.execFsub {s : State} {d a b : BitVec 6} {r : BitVec 3} (h : MemOk s) :
    Nexts (execFsub d a b r s) :=
  h.guarded h.floatRR

protected theorem MemOk.execFmul {s : State} {d a b : BitVec 6} {r : BitVec 3} (h : MemOk s) :
    Nexts (execFmul d a b r s) :=
  h.guarded h.floatRR

protected theorem MemOk.execFmin {s : State} {d a b : BitVec 6} (h : MemOk s) : Nexts (execFmin d a b s) :=
  h.guarded h.floatRR

protected theorem MemOk.execFmax {s : State} {d a b : BitVec 6} (h : MemOk s) : Nexts (execFmax d a b s) :=
  h.guarded h.floatRR

protected theorem MemOk.execFfma {s : State} {d a b : BitVec 6} {r : BitVec 3} (h : MemOk s) :
    Nexts (execFfma d a b r s) :=
  h.guarded <| h.readTwo.bind fun _ h => h.floatOut

protected theorem MemOk.execFcmp {s : State} {d a b c : BitVec 6} (h : MemOk s) : Nexts (execFcmp d a b c s) :=
  h.guarded <| h.readTwo.bind fun _ h => h.floatOut

protected theorem MemOk.execFcvt {s : State} {d a : BitVec 6} {r t sf : BitVec 3} (h : MemOk s) :
    Nexts (execFcvt d a r t sf s) :=
  h.guarded <| h.readReg.bind fun _ h => h.withFlags

/-! ### Memory and domains -/

protected theorem MemOk.sendWakes {s : State} {l : List (ℕ × ℕ)} (h : MemOk s) : MemOk (s.sendWakes l) := h

protected theorem MemOk.wakeDropped {s : State} {lo hi : ℕ} {dom : Option ℕ} (h : MemOk s) :
    MemOk (s.wakeDropped lo hi dom) := h

protected theorem MemOk.closeFaults {s : State} {lo hi : ℕ} {dom : Option ℕ} (h : MemOk s) :
    MemOk (s.closeFaults lo hi dom) := h

protected theorem MemOk.execPgmig {s : State} {d a b : BitVec 6} (h : MemOk s) : Nexts (execPgmig d a b s) := by
  refine h.guardedRun <| h.readTwo.lift.bind fun _ h => .skip fun _ => ?_
  split
  · exact .lift h.writeReg
  · exact (RunEnds.saw h.walkTop).bind fun (_, _) h => by
      dsimp only
      split
      · exact .lift h.writeReg
      · exact .lift ((MemOk.ite h.setDistrict h).writeReg)

protected theorem MemOk.setMigHead {s : State} {n : ℕ} {m : Option Migr} (h : MemOk s) : MemOk (s.setMigHead n m) := h

protected theorem MemOk.giveUpMigr {s : State} {n : ℕ} {m : Migr} (h : MemOk s) : MemOk (s.giveUpMigr n m) := h

protected theorem MemOk.execMigrationStart {s : State} {district : ℕ} (h : MemOk s) :
    Nexts (execMigrationStart district s) := by
  refine MemOk.hwStep ?_
  split
  · exact h.setMigHead
  · refine MemOk.ite h ?_
    split
    · have h := h.walkTop.of_eq ‹_›
      exact MemOk.ite h.flushStashes.rewriteLeaves.setMigHead h.giveUpMigr
    · have h := h.walkTop.of_eq ‹_›
      exact h.giveUpMigr

protected theorem MemOk.copyLine {s : State} {src dst : ℕ} (h : MemOk s) : MemOk (s.copyLine src dst) := by
  fun_cases s.copyLine src dst
  grind [MemOk.putPhys, memOk_iff]

protected theorem MemOk.execMigrationLineCopy {s : State} {district : ℕ} (h : MemOk s) :
    Nexts (execMigrationLineCopy district s) := by
  refine MemOk.hwStep ?_
  split
  · exact h
  · exact MemOk.ite h h.copyLine.setMigHead

protected theorem MemOk.execMigrationFinish {s : State} {district : ℕ} (h : MemOk s) :
    Nexts (execMigrationFinish district s) := by
  refine MemOk.hwStep ?_
  split
  · exact h
  · exact MemOk.ite h.setSq.rewriteLeaves.setMigHead.wakeDropped h

protected theorem MemOk.heatOf {s : State} {q va : ℕ} (h : MemOk s) : MemOk (s.heatOf q va).2 := h.walkTop

protected theorem MemOk.execPgheat {s : State} {d a b : BitVec 6} (h : MemOk s) : Nexts (execPgheat d a b s) := by
  refine h.guardedRun <| h.readTwo.lift.bind fun (_, _, _) h => ?_
  dsimp only
  split
  · refine .skip fun _ => ?_
    split
    · exact .lift h.writeReg
    · exact (RunEnds.saw h.heatOf).bind fun _ h => .lift h.writeReg
  · exact .lift h.writeReg
  · exact .lift h.writeReg
  · exact .lift h.writeReg

protected theorem MemOk.execHeatPeriodHalving {s : State} (h : MemOk s) : Nexts (execHeatPeriodHalving s) :=
  MemOk.hwStep (h.same rfl rfl)

protected theorem MemOk.execRowret {s : State} {d a : BitVec 6} (h : MemOk s) : Nexts (execRowret d a s) :=
  h.guarded <| h.readReg.bind fun _ h => MemOk.writeReg (MemOk.ite (h.same rfl rfl) h)

protected theorem MemOk.flushRange {s : State} {dom lo hi : ℕ} (h : MemOk s) : MemOk (s.flushRange dom lo hi) :=
  MemOk.foldl (h.flushStashes.mapCores rfl rfl (fun _ => rfl) fun _ => rfl) fun _ _ h => h.setSq.spendBeats

protected theorem MemOk.shootRange {s : State} {lo hi : ℕ} {f sBit : Bool} (h : MemOk s) :
    MemOk (shootRange lo hi f sBit s) := by
  have hf : MemOk (if f then s.flushRange s.kdom lo hi else s) := .ite h.flushRange h
  refine ((hf.foldl fun _ _ h => h.setSq).closeFaults.wakeDropped).mapCores rfl rfl (fun _ => rfl) fun p => ?_
  dsimp only
  split <;> rfl

protected theorem MemOk.execShoot {s : State} {a b : BitVec 6} (h : MemOk s) : Nexts (execShoot a b s) :=
  h.guarded <| h.readTwo.bind fun _ h => .ite .stop <| .ite .stop <| .ite .stop <| h.release.bind fun _ h =>
    .ok (MemOk.ite h h.shootRange)

protected theorem MemOk.abortAll {s : State} {l : List (ℕ × ℕ)} (h : MemOk s) : MemOk (abortAll l s) :=
  h.foldl fun _ _ h => h.abortTask

protected theorem MemOk.failWaiting {s : State} {page dom : ℕ} (h : MemOk s) : MemOk (s.failWaiting page dom) := h

protected theorem MemOk.answerFault {s : State} {home : Option ℕ} {page dom : ℕ} {abort : Bool} (h : MemOk s) :
    MemOk (answerFault home page dom abort s).2 := by
  unfold Machine.answerFault
  dsimp only
  split
  · cases home
    · exact h.closeFaults.failWaiting.abortAll
    · exact (MemOk.walked h.setSq).closeFaults.failWaiting.abortAll
  · cases home
    · exact h.closeFaults.wakeDropped
    · exact (MemOk.walked h.setSq).closeFaults.wakeDropped

protected theorem MemOk.execPgref {s : State} {d a b : BitVec 6} (h : MemOk s) : Nexts (execPgref d a b s) :=
  h.guardedRun <| h.readTwo.lift.bind fun _ h => .ite .stop <| .skip fun _ => h.release.lift.bind fun _ h =>
    (RunEnds.saw h.answerFault).bind fun _ h => .lift h.writeReg

protected theorem MemOk.execFaultRingRetry {s : State} {dom : ℕ} (h : MemOk s) :
    Nexts (execFaultRingRetry dom s) := by
  refine MemOk.hwStep ?_
  split
  · exact h
  · split
    · have h := h.writeRecord.written ‹_›
      exact h.same rfl rfl
    · rename_i f _ _ t e
      have h : MemOk t := h.writeRecord.full e
      have hv : MemOk (t.raiseVector f.dom 3) := h.raiseVector
      exact .ite h (hv.same rfl rfl)
    · exact h

protected theorem MemOk.dropPair {s : State} {dom seg : ℕ} (h : MemOk s) : MemOk (s.dropPair dom seg) :=
  h.mapCores rfl rfl (fun _ => rfl) fun _ => rfl

protected theorem MemOk.execPlbw {s : State} {d a b : BitVec 6} (h : MemOk s) : Nexts (execPlbw d a b s) := by
  refine h.guardedRun <| h.readTwo.lift.bind fun (_, _, _) h => ?_
  dsimp only
  split
  · exact .stop
  · exact .ite .stop <| h.release.lift.bind fun _ h => h.hvRead.bind fun _ h => h.hvWrite.bind fun _ h => .lift
      h.dropPair.writeReg

protected theorem MemOk.poolHeld {s : State} {pool n : ℕ} (h : MemOk s) :
    RunEnds (fun r => MemOk r.2) (poolHeld pool n s) := by
  induction n generalizing s with
  | zero => exact .pure h
  | succ n ih => exact h.hvRead.bind fun _ h => .ite (.pure h) (ih h)

protected theorem MemOk.domainBusy {s : State} {dom : ℕ} {d : Domain} (h : MemOk s) :
    RunEnds (fun r => MemOk r.2) (s.domainBusy dom d) :=
  .ite (.pure h) h.poolHeld

protected theorem MemOk.deleteDomain {s : State} {dom : ℕ} (h : MemOk s) :
    RunEnds (fun r => MemOk r.2) (deleteDomain dom s) := by
  unfold Machine.deleteDomain
  split
  · exact .pure h
  · exact h.domainBusy.bind fun _ h => .pure (by split; exacts [h, h.setDom])

protected theorem MemOk.installDomain {s : State} {dom : ℕ} {b : List Byte} (h : MemOk s) :
    MemOk (installDomain dom b s) := by
  fun_cases installDomain dom b s <;> grind [MemOk.setDom, memOk_iff]

protected theorem MemOk.execDomset {s : State} {d a b : BitVec 6} (h : MemOk s) : Nexts (execDomset d a b s) :=
  h.guardedRun <| h.readTwo.lift.bind fun _ h => .ite .stop <| .ite .stop <| .ite (h.deleteDomain.bind fun _ h =>
    .lift h.writeReg) <| h.hvRead.bind fun _ h => .ite (.ite .stop <| .lift (MemOk.writeReg (h.same rfl rfl))) <|
    .ite .stop <| .lift h.installDomain.writeReg

protected theorem MemOk.poisonAt {s : State} {a1 : ScrubPlace} (h : MemOk s) : MemOk (s.poisonAt a1) := by
  unfold State.poisonAt
  split
  · exact h.same rfl rfl
  · exact h.setCore (h.coreAt _)
  · exact h.setSq
  · exact h

protected theorem MemOk.execScrubPass {s : State} {line : ℕ} {bad : Bool} (h : MemOk s) :
    Nexts (execScrubPass line bad s) := by
  unfold Machine.execScrubPass
  split
  · exact MemOk.hwStep h
  · exact MemOk.hwStep (MemOk.ite h.setDistrict.poisonAt h.setDistrict)

/-! ### The host and the links -/

protected theorem MemOk.irqPager {s : State} {dom : ℕ} (h : MemOk s) : RunEnds MemOk (irqPager dom s) := by
  unfold Machine.irqPager
  split
  · exact .pure h
  · exact .ite (.pure h) <| .ite .stop <| .ite .stop <| h.wakeHeld.bind fun _ h => .pure h

protected theorem MemOk.execIrq {s : State} {a b : BitVec 6} (h : MemOk s) : Nexts (execIrq a b s) :=
  h.guardedRun <| h.readTwo.lift.bind fun _ h => .ite .stop <| h.release.lift.bind fun _ h => .ite h.irqPager <|
    .ite .stop <| .pure h.raiseVector

protected theorem MemOk.endReset {s : State} {dom : ℕ} (h : MemOk s) : MemOk (endReset dom s) := h

protected theorem MemOk.leaveResets {s : State} {n : ℕ} (h : MemOk s) : MemOk (leaveResets n s) :=
  h.foldl fun _ _ h => MemOk.ite h.setBar.endReset h.setBar

protected theorem MemOk.stopContext {s : State} {c x : ℕ} (h : MemOk s) : MemOk (stopContext c x s) :=
  h.leaveResets.setCore (h.leaveResets.coreAt _)

protected theorem MemOk.dropEntries {s : State} {dom c : ℕ} (h : MemOk s) : MemOk (dropEntries dom c s) :=
  ((h.setCore (by exact h.coreAt _)).fitSpill).getD (h.setCore (h.coreAt _))

protected theorem MemOk.releaseSlots {s : State} {dom : ℕ} {d : Domain} (h : MemOk s) :
    MemOk (releaseSlots dom d s) :=
  MemOk.foldl (h.same rfl rfl) fun _ _ h => h.hwTry

protected theorem MemOk.returnBlock {s : State} {p : ℕ × ℕ × ℕ} (h : MemOk s) : MemOk (returnBlock s p) :=
  h.setChain

protected theorem MemOk.dropTransfers {s : State} {dom q : ℕ} (h : MemOk s) : MemOk (dropTransfers dom q s) :=
  (h.setSq.foldl fun _ _ h => h.completeCmd).foldl fun _ _ h => h.passDead

protected theorem MemOk.dropMatrix {s : State} {q : ℕ} {c : MCmd} (h : MemOk s) : MemOk (dropMatrix q c s) :=
  h.setSq.finishMatrix

protected theorem MemOk.dropComm {s : State} {q n : ℕ} (h : MemOk s) : MemOk (dropComm q n s) := by
  unfold Machine.dropComm
  dsimp only
  split
  · exact (h.freeCm.foldl fun _ _ h => h.dropCmd).dropCmd
  · exact h.freeCm.foldl fun _ _ h => h.dropCmd

protected theorem MemOk.resetSquare {s : State} {dom q : ℕ} (h : MemOk s) : MemOk (resetSquare dom q s) :=
  ((((h.dropTransfers.foldl fun _ _ h => h.dropMatrix).foldl fun _ _ h => h.finishK).setSq).foldl fun _ _ h =>
    h.dropComm).foldl fun _ _ h => h.returnBlock

protected theorem MemOk.dropRings {s : State} {dom c : ℕ} (h : MemOk s) : MemOk (dropRings dom c s) :=
  h.foldl fun _ _ h => MemOk.ite h.localPut h

protected theorem MemOk.resetCore {s : State} {dom c : ℕ} (h : MemOk s) : MemOk (resetCore dom c s) :=
  (h.giveBackAll.setCore (by exact h.giveBackAll.coreAt _)).dropRings

protected theorem MemOk.resetDomain {s : State} {dom : ℕ} (h : MemOk s) : MemOk (resetDomain dom s) := by
  refine MemOk.setBar (MemOk.foldl (MemOk.foldl ?_ fun _ _ h => h.resetSquare) fun _ _ h => h.resetCore)
  split
  · exact (((h.foldl fun _ _ h => h.abortClose).foldl fun _ _ h => h.stopContext).foldl fun _ _ h =>
      h.dropEntries).releaseSlots
  · exact ((h.foldl fun _ _ h => h.abortClose).foldl fun _ _ h => h.stopContext).foldl fun _ _ h => h.dropEntries

protected theorem MemOk.awaitReset {s : State} {dom : ℕ} (h : MemOk s) : Nexts (awaitReset dom s) :=
  .next (h.backOut.same rfl rfl)

protected theorem MemOk.execDreset {s : State} {d a : BitVec 6} (h : MemOk s) : Nexts (execDreset d a s) := by
  refine .ite (h.finish .stop) ?_
  split
  · exact h.finish .stop
  · have h2 := h.readReg.of_ok ‹_›
    exact .ite (.ite h.awaitReset <| h.finish h2.setBar.writeReg) <| .ite (h.finish h2.endReset.writeReg) <|
      .ite (h.finish .stop) <| .ite (h.finish .stop) <| .ite h.setBar.awaitReset <|
      h.setBar.resetDomain.awaitReset

protected theorem MemOk.execQosp {s : State} {d a : BitVec 6} (h : MemOk s) : Nexts (execQosp d a s) :=
  h.guarded <| h.readReg.bind fun _ h => .ite .stop h.writeReg

protected theorem MemOk.ringDoorbell {s : State} {fn : ℕ} {tail : Word} (h : MemOk s) :
    MemOk (ringDoorbell fn tail s) :=
  MemOk.ite h.setBar h

protected theorem MemOk.barWrite {s : State} {fn off : ℕ} {v : Word} (h : MemOk s) : MemOk (barWrite fn off v s) :=
  MemOk.ite h (MemOk.ite h.setBar (MemOk.ite h.setBar (MemOk.ite h.ringDoorbell (MemOk.ite h.setBar.unmaskVector h))))

protected theorem MemOk.execLrtail {s : State} {fn : ℕ} {tail : BitVec 64} (h : MemOk s) :
    Nexts (execLrtail fn tail s) :=
  MemOk.hwStep h.ringDoorbell

protected theorem MemOk.execBarRegisterWrite {s : State} {fn off : ℕ} {v : BitVec 64} (h : MemOk s) :
    Nexts (execBarRegisterWrite fn off v s) :=
  MemOk.hwStep h.barWrite

protected theorem MemOk.takeLaunch {s : State} {fn : ℕ} (h : MemOk s) : MemOk (takeLaunch fn s) := h

protected theorem MemOk.failLaunch {s : State} {fn word : ℕ} (h : MemOk s) : MemOk (failLaunch fn word s) :=
  h.finishWord

protected theorem MemOk.launch {s : State} {fn p word : ℕ} {b : List Byte} (h : MemOk s) :
    Finds MemOk (launch fn p word b s) :=
  .skip fun _ => .bindState (MemOk.pushBottom (h.same rfl rfl)) fun _ h =>
    h.takeTaskId.graphOpen.hvPut.bind fun _ h => h.hvPut.bind fun _ h => .some h.enters

protected theorem MemOk.askLaunch {s : State} {fn va reason code : ℕ} (h : MemOk s) :
    MemOk (s.askLaunch fn va reason code) :=
  h.faultedEngine

protected theorem MemOk.launchCheck {s : State} {fn p : ℕ} (h : MemOk s) : launchKeeps (launchCheck fn p s) := by
  unfold Machine.launchCheck
  split
  · exact h
  · split
    · trivial
    · have h := MemOk.of_eq h.translate ‹_›
      split
      · exact h
      · split
        · trivial
        · have h := h.rightsEntry.entry ‹_›
          split
          · exact h
          · split
            · trivial
            · have h := h.hvTry.of_ok ‹_›
              dsimp only
              split
              · exact h
              · exact h

protected theorem MemOk.launchNext {s : State} {fn : ℕ} (h : MemOk s) : MemOk (launchNext fn s) := by
  unfold Machine.launchNext
  dsimp only
  split
  · exact h
  · split
    · exact h.askLaunch
    · have h : MemOk _ := h.hvTry.of_ok ‹_›
      split
      · exact h.askLaunch
      · exact (h.launchCheck.bad ‹_›).failLaunch.takeLaunch
      · have h := h.launchCheck.good ‹_›
        split
        · exact (h.launch.of_some ‹_›).takeLaunch
        · exact h

protected theorem MemOk.execLaunchRingEntry {s : State} {fn : ℕ} (h : MemOk s) : Nexts (execLaunchRingEntry fn s) :=
  MemOk.hwStep h.launchNext

protected theorem MemOk.execHostMemoryAccess {s : State} {wr : Bool} {addr : BitVec 64} {data : List (BitVec 8)}
    (h : MemOk s) :
    Nexts (execHostMemoryAccess wr addr data s) :=
  MemOk.hwStep (MemOk.ite h (h.foldl fun _ _ h => h.hwTry))

protected theorem MemOk.execPowerUp {s : State} {listOk : Bool} (h : MemOk s) : Nexts (execPowerUp listOk s) :=
  MemOk.hwStep (MemOk.ite h (h.same rfl rfl))

protected theorem MemOk.bootFirmware {s : State} (h : MemOk s) : MemOk (bootFirmware s) := by
  fun_cases bootFirmware s <;> grind [MemOk.installDomain, memOk_iff]

protected theorem MemOk.execPartReady {s : State} {part : ℕ} (h : MemOk s) : Nexts (execPartReady part s) :=
  MemOk.hwStep (MemOk.ite h (((MemOk.ite h.bootFirmware h).setReady).sendWakes))

protected theorem MemOk.execPartOutOfService {s : State} {part : ℕ} (h : MemOk s) :
    Nexts (execPartOutOfService part s) :=
  MemOk.hwStep (MemOk.ite (h.setReady.foldl fun _ _ h => h.setReady) h.setReady)

protected theorem MemOk.execLinkPortFailure {s : State} {port : ℕ} (h : MemOk s) :
    Nexts (execLinkPortFailure port s) :=
  MemOk.hwStep h.setReady

protected theorem MemOk.execFlitCrcRetry {s : State} {port : ℕ} (h : MemOk s) : Nexts (execFlitCrcRetry port s) :=
  MemOk.hwStep h

protected theorem MemOk.packageReset {s : State} (_ : MemOk s) : MemOk (packageReset s) := ⟨rfl, fun _ => rfl⟩

protected theorem MemOk.execPackageReset {s : State} (h : MemOk s) : Nexts (execPackageReset s) :=
  MemOk.hwStep h.packageReset

protected theorem MemOk.execFunctionLevelReset {s : State} {fn : ℕ} (h : MemOk s) :
    Nexts (execFunctionLevelReset fn s) :=
  MemOk.hwStep (MemOk.ite h.packageReset (MemOk.ite h h.resetDomain.endReset))

protected theorem MemOk.execFirmwareUpdate {s : State} {image : ℕ} (h : MemOk s) :
    Nexts (execFirmwareUpdate image s) :=
  MemOk.hwStep (MemOk.ite (h.same rfl rfl) h)

protected theorem MemOk.execAttestationRequest {s : State} {idx : ℕ} (h : MemOk s) :
    Nexts (execAttestationRequest idx s) := by
  refine MemOk.hwStep ?_
  split
  · exact MemOk.ite (h.same rfl rfl) h
  · exact h

protected theorem MemOk.execClockStep {s : State} {up : Bool} (h : MemOk s) : Nexts (execClockStep up s) :=
  MemOk.hwStep (h.same rfl rfl)

protected theorem MemOk.execCorePowerGating {s : State} {core : ℕ} (h : MemOk s) :
    Nexts (execCorePowerGating core s) :=
  .hwStep (h.setCore (by split <;> exact h.coreAt core))

/-! ### Integer words -/

protected theorem MemOk.execAdd {s : State} {d a b : BitVec 6} {e : BitVec 1} (h : MemOk s) :
    Nexts (execAdd d a b e s) :=
  h.guarded h.aluRR

protected theorem MemOk.execSub {s : State} {d a b : BitVec 6} {e : BitVec 1} (h : MemOk s) :
    Nexts (execSub d a b e s) :=
  h.guarded h.aluRR

protected theorem MemOk.execMul {s : State} {d a b : BitVec 6} {e : BitVec 1} (h : MemOk s) :
    Nexts (execMul d a b e s) :=
  h.guarded h.aluRR

protected theorem MemOk.execMulh {s : State} {d a b : BitVec 6} {e : BitVec 1} (h : MemOk s) :
    Nexts (execMulh d a b e s) :=
  h.guarded h.aluRR

protected theorem MemOk.execMulhn {s : State} {d a b : BitVec 6} {e : BitVec 1} (h : MemOk s) :
    Nexts (execMulhn d a b e s) :=
  h.guarded h.aluRR

protected theorem MemOk.execDiv {s : State} {d a b : BitVec 6} {e : BitVec 1} (h : MemOk s) :
    Nexts (execDiv d a b e s) :=
  h.guarded h.aluRR

protected theorem MemOk.execDivn {s : State} {d a b : BitVec 6} {e : BitVec 1} (h : MemOk s) :
    Nexts (execDivn d a b e s) :=
  h.guarded h.aluRR

protected theorem MemOk.execRem {s : State} {d a b : BitVec 6} {e : BitVec 1} (h : MemOk s) :
    Nexts (execRem d a b e s) :=
  h.guarded h.aluRR

protected theorem MemOk.execRemn {s : State} {d a b : BitVec 6} {e : BitVec 1} (h : MemOk s) :
    Nexts (execRemn d a b e s) :=
  h.guarded h.aluRR

protected theorem MemOk.execAnd {s : State} {d a b : BitVec 6} {e : BitVec 1} (h : MemOk s) :
    Nexts (execAnd d a b e s) :=
  h.guarded h.aluRR

protected theorem MemOk.execOr {s : State} {d a b : BitVec 6} {e : BitVec 1} (h : MemOk s) :
    Nexts (execOr d a b e s) :=
  h.guarded h.aluRR

protected theorem MemOk.execXor {s : State} {d a b : BitVec 6} {e : BitVec 1} (h : MemOk s) :
    Nexts (execXor d a b e s) :=
  h.guarded h.aluRR

protected theorem MemOk.execAndn {s : State} {d a b : BitVec 6} {e : BitVec 1} (h : MemOk s) :
    Nexts (execAndn d a b e s) :=
  h.guarded h.aluRR

protected theorem MemOk.execShl {s : State} {d a b : BitVec 6} {e : BitVec 1} (h : MemOk s) :
    Nexts (execShl d a b e s) :=
  h.guarded h.aluRR

protected theorem MemOk.execShr {s : State} {d a b : BitVec 6} {e : BitVec 1} (h : MemOk s) :
    Nexts (execShr d a b e s) :=
  h.guarded h.aluRR

protected theorem MemOk.execSra {s : State} {d a b : BitVec 6} {e : BitVec 1} (h : MemOk s) :
    Nexts (execSra d a b e s) :=
  h.guarded h.aluRR

protected theorem MemOk.execRot {s : State} {d a b : BitVec 6} {e : BitVec 1} (h : MemOk s) :
    Nexts (execRot d a b e s) :=
  h.guarded h.aluRR

protected theorem MemOk.execMin {s : State} {d a b : BitVec 6} {e : BitVec 1} (h : MemOk s) :
    Nexts (execMin d a b e s) :=
  h.guarded h.aluRR

protected theorem MemOk.execMax {s : State} {d a b : BitVec 6} {e : BitVec 1} (h : MemOk s) :
    Nexts (execMax d a b e s) :=
  h.guarded h.aluRR

protected theorem MemOk.execMinn {s : State} {d a b : BitVec 6} {e : BitVec 1} (h : MemOk s) :
    Nexts (execMinn d a b e s) :=
  h.guarded h.aluRR

protected theorem MemOk.execMaxn {s : State} {d a b : BitVec 6} {e : BitVec 1} (h : MemOk s) :
    Nexts (execMaxn d a b e s) :=
  h.guarded h.aluRR

protected theorem MemOk.execClz {s : State} {d a : BitVec 6} {e : BitVec 1} (h : MemOk s) :
    Nexts (execClz d a e s) :=
  h.guarded h.aluR

protected theorem MemOk.execCtz {s : State} {d a : BitVec 6} {e : BitVec 1} (h : MemOk s) :
    Nexts (execCtz d a e s) :=
  h.guarded h.aluR

protected theorem MemOk.execPopc {s : State} {d a : BitVec 6} {e : BitVec 1} (h : MemOk s) :
    Nexts (execPopc d a e s) :=
  h.guarded h.aluR

protected theorem MemOk.execBswap {s : State} {d a : BitVec 6} {e : BitVec 1} (h : MemOk s) :
    Nexts (execBswap d a e s) :=
  h.guarded h.aluR

protected theorem MemOk.execAddImm {s : State} {d a : BitVec 6} {i : BitVec 12} (h : MemOk s) :
    Nexts (execAddImm d a i s) :=
  h.guarded h.aluRI

protected theorem MemOk.execMulImm {s : State} {d a : BitVec 6} {i : BitVec 12} (h : MemOk s) :
    Nexts (execMulImm d a i s) :=
  h.guarded h.aluRI

protected theorem MemOk.execAndImm {s : State} {d a : BitVec 6} {i : BitVec 12} (h : MemOk s) :
    Nexts (execAndImm d a i s) :=
  h.guarded h.aluRI

protected theorem MemOk.execOrImm {s : State} {d a : BitVec 6} {i : BitVec 12} (h : MemOk s) :
    Nexts (execOrImm d a i s) :=
  h.guarded h.aluRI

protected theorem MemOk.execXorImm {s : State} {d a : BitVec 6} {i : BitVec 12} (h : MemOk s) :
    Nexts (execXorImm d a i s) :=
  h.guarded h.aluRI

protected theorem MemOk.execMinImm {s : State} {d a : BitVec 6} {i : BitVec 10} (h : MemOk s) :
    Nexts (execMinImm d a i s) :=
  h.guarded h.aluRI

protected theorem MemOk.execMaxImm {s : State} {d a : BitVec 6} {i : BitVec 10} (h : MemOk s) :
    Nexts (execMaxImm d a i s) :=
  h.guarded h.aluRI

protected theorem MemOk.execMinnImm {s : State} {d a : BitVec 6} {i : BitVec 10} (h : MemOk s) :
    Nexts (execMinnImm d a i s) :=
  h.guarded h.aluRI

protected theorem MemOk.execMaxnImm {s : State} {d a : BitVec 6} {i : BitVec 10} (h : MemOk s) :
    Nexts (execMaxnImm d a i s) :=
  h.guarded h.aluRI

protected theorem MemOk.execShlImm {s : State} {d a i : BitVec 6} (h : MemOk s) : Nexts (execShlImm d a i s) :=
  h.guarded h.aluRI

protected theorem MemOk.execShrImm {s : State} {d a i : BitVec 6} (h : MemOk s) : Nexts (execShrImm d a i s) :=
  h.guarded h.aluRI

protected theorem MemOk.execSraImm {s : State} {d a i : BitVec 6} (h : MemOk s) : Nexts (execSraImm d a i s) :=
  h.guarded h.aluRI

protected theorem MemOk.execRotImm {s : State} {d a i : BitVec 6} (h : MemOk s) : Nexts (execRotImm d a i s) :=
  h.guarded h.aluRI

protected theorem MemOk.execSel {s : State} {d a b : BitVec 6} {e : BitVec 1} (h : MemOk s) :
    Nexts (execSel d a b e s) :=
  h.guarded <| h.readTwo.bind fun _ h => h.writeRegE

protected theorem MemOk.execCmp {s : State} {d a b c : BitVec 6} (h : MemOk s) : Nexts (execCmp d a b c s) :=
  h.guarded h.aluRR

protected theorem MemOk.execCmpImm {s : State} {d a : BitVec 6} {c : BitVec 4} {i : BitVec 8} (h : MemOk s) :
    Nexts (execCmpImm d a c i s) :=
  h.guarded h.aluRI

protected theorem MemOk.execBfx {s : State} {d a p w : BitVec 6} (h : MemOk s) : Nexts (execBfx d a p w s) :=
  h.guarded <| h.readReg.bind fun _ h => h.writeReg

protected theorem MemOk.execBfi {s : State} {d a p w : BitVec 6} (h : MemOk s) : Nexts (execBfi d a p w s) :=
  h.guarded <| h.readReg.bind fun _ h => h.writeReg

protected theorem MemOk.execLim {s : State} {d : BitVec 6} {v : BitVec 32} (h : MemOk s) : Nexts (execLim d v s) :=
  h.guarded h.writeReg

protected theorem MemOk.execLih {s : State} {d : BitVec 6} {v : BitVec 32} (h : MemOk s) : Nexts (execLih d v s) :=
  h.guarded h.writeReg

/-! ### Every instruction -/

/-- Every instruction and every hardware or host step, in the order of the instruction type. -/
protected theorem MemOk.exec {s : State} {i : Instr} (h : MemOk s) : Nexts (exec i s) := by
  cases i
  case fence sc => exact h.execFence (sc := sc)
  exacts [
    h.execBr, h.execCall, h.execJr, h.execBtag, h.execLoop, h.execLdD, h.execStD, h.execLd, h.execSt, h.execLdb,
    h.execStb, h.execPf, h.execDisc, h.execZline, h.execWbk, h.execLdfW, h.execStp, h.execStpm, h.execAadd,
    h.execAmin, h.execAmax, h.execAand, h.execAor, h.execAxor, h.execAswp, h.execAcas, h.execRel, h.execAcq,
    h.execAfadd, h.execHbinit, h.execHbarr, h.execHbwait, h.execHbtest, h.execSpawn, h.execSpawnx, h.execTsig,
    h.execTdep, h.execWake, h.execTret, h.execBktsel, h.execStealctl, h.execBudget, h.execRbox, h.execRld,
    h.execRst, h.execRuni, h.execRint, h.execRsub, h.execRdil, h.execRprj, h.execRspl, h.execRstrd, h.execRrag,
    h.execRshf, h.execRcmp, h.execRcnt, h.execRvol, h.execRtst, h.execCopy, h.execCwait, h.execCwp, h.execPres,
    h.execGath, h.execScat, h.execMigr, h.execTseq, h.execTseqWt, h.execFopen, h.execFnext, h.execFnextge,
    h.execFend, h.execMclaim, h.execMrel, h.execMlda, h.execMldaRg, h.execMldaSt, h.execMldaAv, h.execMldb,
    h.execMldbRg, h.execMldbSt, h.execMldbAv, h.execMseq, h.execMwait, h.execMrec, h.execMrev, h.execMlog,
    h.execMqw, h.execTmma, h.execTmmaRdy, h.execTmmt, h.execTmmtRdy, h.execTtmm, h.execTtmmRdy, h.execTadd,
    h.execTaddRdy, h.execTmul, h.execTmulRdy, h.execTsclMul, h.execTsclMulRdy, h.execTsclSet, h.execTsclSetRdy,
    h.execTexp, h.execTexpRdy, h.execTrmax, h.execTrsum, h.execTcvt, h.execTtrn, h.execTactReluRdy,
    h.execTactSqreluRdy, h.execTactTanhRdy, h.execKopen, h.execKclose, h.execKapp, h.execKacc, h.execKrej,
    h.execKpb, h.execKspl, h.execKfork, h.execKload, h.execKval, h.execKmarg, h.execKpfx, h.execKins, h.execKtent,
    h.execKdropt, h.execKseq, h.execKseqWt, h.execCcomm, h.execCtt, h.execCrdy, h.execCpost, h.execCpoll,
    h.execCwaitf, h.execCbar, h.execCstat, h.execCclose, h.execCseq, h.execCseqWt, h.execCarb, h.execMfk, h.execMtk,
    h.execSleep, h.execRepart, h.execPgmig, h.execPgheat, h.execRowret, h.execShoot, h.execPgref, h.execPlbw,
    h.execDomset, h.execIrq, h.execDreset, h.execQosp, h.execAdd, h.execSub, h.execMul, h.execMulh, h.execMulhn,
    h.execDiv, h.execDivn, h.execRem, h.execRemn, h.execAnd, h.execOr, h.execXor, h.execAndn, h.execShl, h.execShr,
    h.execSra, h.execRot, h.execMin, h.execMax, h.execMinn, h.execMaxn, h.execSel, h.execClz, h.execCtz, h.execPopc,
    h.execBswap, h.execCmp, h.execAddImm, h.execMulImm, h.execAndImm, h.execOrImm, h.execXorImm, h.execMinImm,
    h.execMaxImm, h.execMinnImm, h.execMaxnImm, h.execShlImm, h.execShrImm, h.execSraImm, h.execRotImm, h.execBfx,
    h.execBfi, h.execCmpImm, h.execLim, h.execLih, h.execFadd, h.execFsub, h.execFmul, h.execFmin, h.execFmax,
    h.execFfma, h.execFcmp, h.execFcvt, h.execVadd, h.execVsub, h.execVmul, h.execVfma, h.execVmin, h.execVmax,
    h.execVabs, h.execVneg, h.execVand, h.execVor, h.execVxor, h.execVshl, h.execVshr, h.execVcmp, h.execVsel,
    h.execVcvt, h.execVcvtHi, h.execVbcast, h.execViota, h.execVredAdd, h.execVredMax, h.execVredMin,
    h.execVscanInc, h.execVscanMaxinc, h.execVscanMininc, h.execVscanExc, h.execVscanMaxexc, h.execVscanMinexc,
    h.execVrcp, h.execVrsq, h.execVsqrt, h.execVexp, h.execVexp2, h.execVlog, h.execVlog2, h.execVtanh,
    h.execVshape, h.execVloop, h.execJmp, h.execFclose, h.execTrap, h.execSysc, h.execNop, h.execAlign, h.execSusp,
    h.execYield, h.execTactRelu, h.execTactSqrelu, h.execTactTanh, h.execRett, h.execHalt, h.execVsync, h.execVtbl,
    h.execPushCopyInstall, h.execCopyUnitDelivery, h.execGatherElementDelivery, h.execScatterElementWrite,
    h.execMigrationShip, h.execReuseCountHalving, h.execFillExecute, h.execTileOpcodeStart,
    h.execTileOpcodeComplete, h.execMrevExecute, h.execKopenExecute, h.execKcloseExecute, h.execKappExecute,
    h.execPageAllocate, h.execKaccExecute, h.execKrejExecute, h.execKpbExecute, h.execKsplExecute,
    h.execKforkExecute, h.execKloadExecute, h.execKvalExecute, h.execKmargExecute, h.execKtentExecute,
    h.execKdroptExecute, h.execCcommExecute, h.execCttExecute, h.execPostStart, h.execChunkSend, h.execChunkArrival,
    h.execConnectArrival, h.execFreedReport, h.execBarrierTokenArrival, h.execDisconnectArrival, h.execPostComplete,
    h.execTileEntryFire, h.execFiringComplete, h.execCcloseExecute, h.execCollectiveEventDelivery, h.execKpreqSet,
    h.execKpreqClear, h.execPreemptStop, h.execSleepDeadline, h.execRepartSwitch, h.execVectorEntryBegin,
    h.execVectorEntryComplete, h.execDispatchTask, h.execDispatchContinuation, h.execStealRequest,
    h.execBudgetPeriodStart, h.execWakeMessage, h.execPoolBlockFree, h.execPacketHeaderAccept,
    h.execPortUnitArrival, h.execFaultRingRetry, h.execHomeRecall, h.execMigrationStart, h.execMigrationLineCopy,
    h.execMigrationFinish, h.execHeatPeriodHalving, h.execScrubPass, h.execPowerUp, h.execPartReady,
    h.execPartOutOfService, h.execLinkPortFailure, h.execFlitCrcRetry, h.execPackageReset, h.execFunctionLevelReset,
    h.execFirmwareUpdate, h.execAttestationRequest, h.execClockStep, h.execLrtail, h.execLaunchRingEntry,
    h.execBarRegisterWrite, h.execMemoryReply, h.execHostMemoryAccess, h.execCorePowerGating]

/-! ### Bundles, turns and the cycle, for the meaning of a word that keeps `MemOk` -/

section
variable {ex : Instr → State → Host.Outcome State Fault Refusal}

protected theorem MemOk.pairBadA {s : State} {c : Instr} {wc wa : ℕ} (h : MemOk s)
    (hex : ∀ i t, MemOk t → Nexts (ex i t)) : Nexts (pairBadA ex c wc wa s) := by
  have hc := hex c _ (h.atWord (len := 8) (w := wc) (second := false))
  unfold Machine.pairBadA
  split
  · have hu := hc _ ‹_›
    split
    · exact .next hu
    · exact .next hu
    · exact h.illAt
  · exact hc

protected theorem MemOk.pairAFirst {s : State} {c a : Instr} {wc wa : ℕ} (h : MemOk s)
    (hex : ∀ i t, MemOk t → Nexts (ex i t)) : Nexts (pairAFirst ex c a wc wa s) := by
  have ha := hex a _ (h.atWord (len := 8) (w := wa) (second := true))
  unfold Machine.pairAFirst
  split
  · rename_i t e
    have ht : MemOk t := ha t e
    split
    · have hc := hex c _ ((h.seenAs (t := t)).atWord (len := 8) (w := wc) (second := false))
      split
      · have hu := hc _ ‹_›
        split
        · exact .next hu
        · exact h.atWord.undo
      · exact hc
    · have hc := hex c
        { t with focus := { t.focus with word := BitVec.ofNat 32 wc, second := false }, pin := pinOf s } ht
      split
      · have hu := hc _ ‹_›
        split
        · exact h.atWord.undo
        · exact .next hu.unpin
      · exact hc
  · exact ha

protected theorem MemOk.pairCFirst {s : State} {c a : Instr} {wc wa : ℕ} (h : MemOk s)
    (hex : ∀ i t, MemOk t → Nexts (ex i t)) : Nexts (pairCFirst ex c a wc wa s) := by
  have hc := hex c _ (h.atWord (len := 8) (w := wc) (second := false))
  unfold Machine.pairCFirst
  dsimp only
  split
  · rename_i t e
    have ht : MemOk t := hc t e
    have ha := hex a { t with focus := { t.focus with word := BitVec.ofNat 32 wa, second := true }, pin := pinOf s } ht
    split
    · exact .next ht
    · split
      · have hu := ha _ ‹_›
        split
        · exact h.atWord.undo
        · exact .next hu.unpin
      · exact ha
    · split
      · have hu := ha _ ‹_›
        split
        · exact h.atWord.undo
        · exact .next ht
      · exact ha
  · exact hc

protected theorem MemOk.runBundle {s : State} {b : Bundle} (h : MemOk s)
    (hex : ∀ i t, MemOk t → Nexts (ex i t)) : Nexts (runBundle ex s b) := by
  unfold Machine.runBundle
  split
  · exact h.illAt
  · exact hex _ _ h.atWord
  · exact h.illAt
  · refine .ite h.illAt (.ite (h.pairBadA hex) ?_)
    split
    · exact h.illAt
    · exact .ite (h.pairAFirst hex) (h.pairCFirst hex)

protected theorem MemOk.runAtPc {s : State} (h : MemOk s) (hex : ∀ i t, MemOk t → Nexts (ex i t)) :
    Nexts (runAtPc ex s) := by
  unfold Machine.runAtPc
  split
  · exact MemOk.finish h.setCur .stop
  · split
    · exact h.seeing.finish .stop
    · exact MemOk.runBundle (h.fetchBundle.of_ok ‹_›) hex

protected theorem MemOk.completeCtx {s : State} {c x : ℕ} (h : MemOk s) (hex : ∀ i t, MemOk t → Nexts (ex i t)) :
    Nexts (completeCtx ex c x s) := by
  have hr := (h.focusOn (c := c) (x := x)).runAtPc hex
  unfold Machine.completeCtx
  split
  · exact .next (MemOk.completed (hr _ ‹_›))
  · exact hr

protected theorem MemOk.issueCtx {s : State} {c x : ℕ} (h : MemOk s) (hex : ∀ i t, MemOk t → Nexts (ex i t)) :
    Nexts (issueCtx ex c x s) :=
  h.focusOn.chargeIssue.runAtPc hex

protected theorem MemOk.turnStep {s : State} (h : MemOk s) (hex : ∀ i t, MemOk t → Nexts (ex i t)) :
    Nexts (turnStep ex s) := by
  have ht : MemOk ({ s with turn := s.turn + 1 }.holdSpent s.turn) := MemOk.holdSpent h
  unfold Machine.turnStep
  refine .ite (.next h) ?_
  split
  · exact h.completeCtx hex
  · dsimp only
    split
    · exact ht.issueCtx hex
    · exact .next ht
end

/-- Settles O9: each instruction, hardware step and turn, and the cycle's end, keeps memory in canonical form. -/
theorem stepKeepsMemoryCanonical : Obligations.StepKeepsMemoryCanonical := by
  intro s t h
  suffices hs : Nexts (step s) from hs t
  unfold Machine.step
  split
  · exact MemOk.exec h
  · exact .ite (h.turnStep fun _ _ h => h.exec) (.next h.nextCycle)

end Sys2Proof.Safety
end
section
/-! PROOF. Encoding and decoding (03 R53 to R75): O1 -/

namespace Sys2Proof.Laws

/-- Settles O1: every constructor has its law, a word's by where its fields stand, a hardware step's since it is no
word. -/
theorem encodingRoundTrip : Obligations.EncodingRoundTrip := by
  intro i
  cases i
  exacts [
    RoundTrip.br _ _ _, RoundTrip.call _, RoundTrip.jr _ _, RoundTrip.btag _, RoundTrip.loop _ _, RoundTrip.ldD _ _ _,
    RoundTrip.stD _ _ _, RoundTrip.ld _ _ _ _, RoundTrip.st _ _ _ _, RoundTrip.ldb _ _ _ _, RoundTrip.stb _ _ _,
    RoundTrip.pf _ _, RoundTrip.disc _ _, RoundTrip.zline _ _, RoundTrip.wbk _ _, RoundTrip.ldfW _ _ _,
    RoundTrip.stp _ _ _ _ _, RoundTrip.stpm _ _ _ _ _, RoundTrip.aadd _ _ _ _ _ _, RoundTrip.amin _ _ _ _ _ _,
    RoundTrip.amax _ _ _ _ _ _, RoundTrip.aand _ _ _ _ _ _, RoundTrip.aor _ _ _ _ _ _, RoundTrip.axor _ _ _ _ _ _,
    RoundTrip.aswp _ _ _ _ _ _, RoundTrip.acas _ _ _ _ _ _, RoundTrip.rel _ _ _ _ _, RoundTrip.acq _ _ _ _ _,
    RoundTrip.afadd _ _ _ _ _, RoundTrip.hbinit _ _, RoundTrip.hbarr _ _, RoundTrip.hbwait _ _,
    RoundTrip.hbtest _ _ _, RoundTrip.spawn _ _, RoundTrip.spawnx _ _, RoundTrip.tsig _ _, RoundTrip.tdep _ _,
    RoundTrip.wake _ _, RoundTrip.tret _, RoundTrip.bktsel _ _, RoundTrip.stealctl _ _, RoundTrip.budget _ _ _,
    RoundTrip.rbox _ _ _, RoundTrip.rld _ _, RoundTrip.rst _ _, RoundTrip.runi _ _ _, RoundTrip.rint _ _ _,
    RoundTrip.rsub _ _ _, RoundTrip.rdil _ _ _, RoundTrip.rprj _ _ _, RoundTrip.rspl _ _ _, RoundTrip.rstrd _ _ _,
    RoundTrip.rrag _ _ _, RoundTrip.rshf _ _ _, RoundTrip.rcmp _ _ _, RoundTrip.rcnt _ _, RoundTrip.rvol _ _,
    RoundTrip.rtst _ _ _, RoundTrip.copy _ _ _, RoundTrip.cwait _ _, RoundTrip.cwp _ _, RoundTrip.pres _ _,
    RoundTrip.gath _ _ _, RoundTrip.scat _ _ _, RoundTrip.migr _, RoundTrip.tseq _ _, RoundTrip.tseqWt _ _,
    RoundTrip.fopen _ _, RoundTrip.fnext _ _, RoundTrip.fnextge _ _ _, RoundTrip.fend _ _, RoundTrip.mclaim _ _ _,
    RoundTrip.mrel _ _, RoundTrip.mlda _ _ _, RoundTrip.mldaRg _ _ _, RoundTrip.mldaSt _ _ _, RoundTrip.mldaAv _ _ _,
    RoundTrip.mldb _ _ _, RoundTrip.mldbRg _ _ _, RoundTrip.mldbSt _ _ _, RoundTrip.mldbAv _ _ _, RoundTrip.mseq _ _,
    RoundTrip.mwait _ _, RoundTrip.mrec _, RoundTrip.mrev _, RoundTrip.mlog _, RoundTrip.mqw _ _, RoundTrip.tmma _ _,
    RoundTrip.tmmaRdy _ _ _, RoundTrip.tmmt _ _, RoundTrip.tmmtRdy _ _ _, RoundTrip.ttmm _ _, RoundTrip.ttmmRdy _ _ _,
    RoundTrip.tadd _, RoundTrip.taddRdy _ _, RoundTrip.tmul _, RoundTrip.tmulRdy _ _, RoundTrip.tsclMul _,
    RoundTrip.tsclMulRdy _ _, RoundTrip.tsclSet _, RoundTrip.tsclSetRdy _ _, RoundTrip.texp _, RoundTrip.texpRdy _ _,
    RoundTrip.trmax _, RoundTrip.trsum _, RoundTrip.tcvt _, RoundTrip.ttrn _ _, RoundTrip.tactReluRdy _,
    RoundTrip.tactSqreluRdy _, RoundTrip.tactTanhRdy _, RoundTrip.kopen _ _ _, RoundTrip.kclose _ _,
    RoundTrip.kapp _ _ _, RoundTrip.kacc _ _, RoundTrip.krej _, RoundTrip.kpb _ _ _, RoundTrip.kspl _ _ _,
    RoundTrip.kfork _ _, RoundTrip.kload _ _ _, RoundTrip.kval _ _ _, RoundTrip.kmarg _ _ _, RoundTrip.kpfx _ _ _,
    RoundTrip.kins _ _ _, RoundTrip.ktent _ _, RoundTrip.kdropt _, RoundTrip.kseq _ _, RoundTrip.kseqWt _ _,
    RoundTrip.ccomm _ _, RoundTrip.ctt _ _, RoundTrip.crdy _, RoundTrip.cpost _ _, RoundTrip.cpoll _ _ _,
    RoundTrip.cwaitf _ _, RoundTrip.cbar _, RoundTrip.cstat _ _, RoundTrip.cclose _, RoundTrip.cseq _ _,
    RoundTrip.cseqWt _ _, RoundTrip.carb _ _, RoundTrip.mfk _ _, RoundTrip.mtk _ _, RoundTrip.sleep _,
    RoundTrip.repart _ _, RoundTrip.pgmig _ _ _, RoundTrip.pgheat _ _ _, RoundTrip.rowret _ _, RoundTrip.shoot _ _,
    RoundTrip.pgref _ _ _, RoundTrip.plbw _ _ _, RoundTrip.domset _ _ _, RoundTrip.irq _ _, RoundTrip.dreset _ _,
    RoundTrip.qosp _ _, RoundTrip.add _ _ _ _, RoundTrip.sub _ _ _ _, RoundTrip.mul _ _ _ _, RoundTrip.mulh _ _ _ _,
    RoundTrip.mulhn _ _ _ _, RoundTrip.div _ _ _ _, RoundTrip.divn _ _ _ _, RoundTrip.rem _ _ _ _,
    RoundTrip.remn _ _ _ _, RoundTrip.and _ _ _ _, RoundTrip.or _ _ _ _, RoundTrip.xor _ _ _ _,
    RoundTrip.andn _ _ _ _, RoundTrip.shl _ _ _ _, RoundTrip.shr _ _ _ _, RoundTrip.sra _ _ _ _,
    RoundTrip.rot _ _ _ _, RoundTrip.min _ _ _ _, RoundTrip.max _ _ _ _, RoundTrip.minn _ _ _ _,
    RoundTrip.maxn _ _ _ _, RoundTrip.sel _ _ _ _, RoundTrip.clz _ _ _, RoundTrip.ctz _ _ _, RoundTrip.popc _ _ _,
    RoundTrip.bswap _ _ _, RoundTrip.cmp _ _ _ _, RoundTrip.addImm _ _ _, RoundTrip.mulImm _ _ _,
    RoundTrip.andImm _ _ _, RoundTrip.orImm _ _ _, RoundTrip.xorImm _ _ _, RoundTrip.minImm _ _ _,
    RoundTrip.maxImm _ _ _, RoundTrip.minnImm _ _ _, RoundTrip.maxnImm _ _ _, RoundTrip.shlImm _ _ _,
    RoundTrip.shrImm _ _ _, RoundTrip.sraImm _ _ _, RoundTrip.rotImm _ _ _, RoundTrip.bfx _ _ _ _,
    RoundTrip.bfi _ _ _ _, RoundTrip.cmpImm _ _ _ _, RoundTrip.lim _ _, RoundTrip.lih _ _, RoundTrip.fadd _ _ _ _,
    RoundTrip.fsub _ _ _ _, RoundTrip.fmul _ _ _ _, RoundTrip.fmin _ _ _, RoundTrip.fmax _ _ _,
    RoundTrip.ffma _ _ _ _, RoundTrip.fcmp _ _ _ _, RoundTrip.fcvt _ _ _ _ _, RoundTrip.vadd _ _ _ _ _ _,
    RoundTrip.vsub _ _ _ _ _ _, RoundTrip.vmul _ _ _ _ _ _, RoundTrip.vfma _ _ _ _ _ _, RoundTrip.vmin _ _ _ _ _,
    RoundTrip.vmax _ _ _ _ _, RoundTrip.vabs _ _ _ _, RoundTrip.vneg _ _ _ _, RoundTrip.vand _ _ _ _ _,
    RoundTrip.vor _ _ _ _ _, RoundTrip.vxor _ _ _ _ _, RoundTrip.vshl _ _ _ _ _, RoundTrip.vshr _ _ _ _ _,
    RoundTrip.vcmp _ _ _ _ _ _, RoundTrip.vsel _ _ _ _ _, RoundTrip.vcvt _ _ _ _ _ _, RoundTrip.vcvtHi _ _ _ _ _ _,
    RoundTrip.vbcast _ _ _ _, RoundTrip.viota _ _ _, RoundTrip.vredAdd _ _ _ _, RoundTrip.vredMax _ _ _ _,
    RoundTrip.vredMin _ _ _ _, RoundTrip.vscanInc _ _ _ _, RoundTrip.vscanMaxinc _ _ _ _,
    RoundTrip.vscanMininc _ _ _ _, RoundTrip.vscanExc _ _ _ _, RoundTrip.vscanMaxexc _ _ _ _,
    RoundTrip.vscanMinexc _ _ _ _, RoundTrip.vrcp _ _ _ _, RoundTrip.vrsq _ _ _ _, RoundTrip.vsqrt _ _ _ _,
    RoundTrip.vexp _ _ _ _, RoundTrip.vexp2 _ _ _ _, RoundTrip.vlog _ _ _ _, RoundTrip.vlog2 _ _ _ _,
    RoundTrip.vtanh _ _ _ _, RoundTrip.vshape _ _, RoundTrip.vloop _ _, RoundTrip.jmp _, RoundTrip.fence _,
    RoundTrip.fclose _, RoundTrip.trap _, RoundTrip.sysc _, RoundTrip.nop, RoundTrip.align, RoundTrip.susp,
    RoundTrip.yield, RoundTrip.tactRelu, RoundTrip.tactSqrelu, RoundTrip.tactTanh, RoundTrip.rett, RoundTrip.halt,
    RoundTrip.vsync, RoundTrip.vtbl, RoundTrip.pushCopyInstall _ _ _, RoundTrip.copyUnitDelivery _ _,
    RoundTrip.gatherElementDelivery _ _, RoundTrip.scatterElementWrite _ _, RoundTrip.migrationShip _ _,
    RoundTrip.reuseCountHalving _, RoundTrip.fillExecute _ _ _, RoundTrip.tileOpcodeStart _,
    RoundTrip.tileOpcodeComplete _, RoundTrip.mrevExecute _ _, RoundTrip.kopenExecute _ _,
    RoundTrip.kcloseExecute _ _, RoundTrip.kappExecute _ _, RoundTrip.pageAllocate _ _, RoundTrip.kaccExecute _ _,
    RoundTrip.krejExecute _ _, RoundTrip.kpbExecute _ _, RoundTrip.ksplExecute _ _, RoundTrip.kforkExecute _ _,
    RoundTrip.kloadExecute _ _, RoundTrip.kvalExecute _ _, RoundTrip.kmargExecute _ _, RoundTrip.ktentExecute _ _,
    RoundTrip.kdroptExecute _ _, RoundTrip.ccommExecute _ _, RoundTrip.cttExecute _ _, RoundTrip.postStart _ _,
    RoundTrip.chunkSend _, RoundTrip.chunkArrival _ _, RoundTrip.connectArrival _ _, RoundTrip.freedReport _ _,
    RoundTrip.barrierTokenArrival _ _, RoundTrip.disconnectArrival _ _, RoundTrip.postComplete _ _,
    RoundTrip.tileEntryFire _ _, RoundTrip.firingComplete _ _, RoundTrip.ccloseExecute _ _,
    RoundTrip.collectiveEventDelivery _, RoundTrip.kpreqSet _ _, RoundTrip.kpreqClear _ _, RoundTrip.preemptStop _ _,
    RoundTrip.sleepDeadline _ _, RoundTrip.repartSwitch _, RoundTrip.vectorEntryBegin _,
    RoundTrip.vectorEntryComplete _, RoundTrip.dispatchTask _ _, RoundTrip.dispatchContinuation _ _,
    RoundTrip.stealRequest _ _, RoundTrip.budgetPeriodStart _ _ _, RoundTrip.wakeMessage _ _ _,
    RoundTrip.poolBlockFree _, RoundTrip.packetHeaderAccept _ _, RoundTrip.portUnitArrival _ _ _,
    RoundTrip.faultRingRetry _, RoundTrip.homeRecall _ _, RoundTrip.migrationStart _, RoundTrip.migrationLineCopy _,
    RoundTrip.migrationFinish _, RoundTrip.heatPeriodHalving, RoundTrip.scrubPass _ _, RoundTrip.powerUp _,
    RoundTrip.partReady _, RoundTrip.partOutOfService _, RoundTrip.linkPortFailure _, RoundTrip.flitCrcRetry _,
    RoundTrip.packageReset, RoundTrip.functionLevelReset _, RoundTrip.firmwareUpdate _,
    RoundTrip.attestationRequest _, RoundTrip.clockStep _, RoundTrip.lrtail _ _, RoundTrip.launchRingEntry _,
    RoundTrip.barRegisterWrite _ _ _, RoundTrip.memoryReply _ _, RoundTrip.hostMemoryAccess _ _ _,
    RoundTrip.corePowerGating _]

end Sys2Proof.Laws
end
section
/-! PROOF. What the decoder lets through (03 R54, R56, R62): O2 -/

namespace Sys2Proof.Laws

section
variable {w lit m k : Nat}

/-! ### Where the fields of a row stand in a word

A row's law is named after its form (03 R62) and the fields that it keeps; the rest of the word is the row's own. -/

theorem Row.rForm_dab (hm : w / 16777216 % 128 = m) (hk : w % 64 = k) :
    (m * 16777216 + k) + (BitVec.ofNat 6 (w / 262144)).toNat * 262144 + (BitVec.ofNat 6 (w / 4096)).toNat * 4096 +
      (BitVec.ofNat 6 (w / 64)).toNat * 64 = w % 2 ^ 31 := by
  simp only [BitVec.toNat_ofNat]
  omega

theorem Row.rForm_da (hm : w / 16777216 % 128 = m) (hk : w % 4096 = k) :
    (m * 16777216 + k) + (BitVec.ofNat 6 (w / 262144)).toNat * 262144 + (BitVec.ofNat 6 (w / 4096)).toNat * 4096
      = w % 2 ^ 31 := by
  simp only [BitVec.toNat_ofNat]
  omega

theorem Row.rForm_dabe (hm : w / 16777216 % 128 = m) (hk : w % 32 = k) :
    (m * 16777216 + k) + (BitVec.ofNat 6 (w / 262144)).toNat * 262144 + (BitVec.ofNat 6 (w / 4096)).toNat * 4096 +
      (BitVec.ofNat 6 (w / 64)).toNat * 64 + (BitVec.ofNat 1 (w / 32)).toNat * 32 = w % 2 ^ 31 := by
  simp only [BitVec.toNat_ofNat]
  omega

theorem Row.rForm_dae (hm : w / 16777216 % 128 = m) (hk : w % 32 = k ∧ w / 64 % 64 = 0) :
    (m * 16777216 + k) + (BitVec.ofNat 6 (w / 262144)).toNat * 262144 + (BitVec.ofNat 6 (w / 4096)).toNat * 4096 +
      (BitVec.ofNat 1 (w / 32)).toNat * 32 = w % 2 ^ 31 := by
  simp only [BitVec.toNat_ofNat]
  omega

theorem Row.rForm_ab (hm : w / 16777216 % 128 = m) (hk : w % 64 = k ∧ w / 262144 % 64 = 0) :
    (m * 16777216 + k) + (BitVec.ofNat 6 (w / 4096)).toNat * 4096 + (BitVec.ofNat 6 (w / 64)).toNat * 64
      = w % 2 ^ 31 := by
  simp only [BitVec.toNat_ofNat]
  omega

theorem Row.rForm_db (hm : w / 16777216 % 128 = m) (hk : w % 64 = k ∧ w / 4096 % 64 = 0) :
    (m * 16777216 + k) + (BitVec.ofNat 6 (w / 262144)).toNat * 262144 + (BitVec.ofNat 6 (w / 64)).toNat * 64
      = w % 2 ^ 31 := by
  simp only [BitVec.toNat_ofNat]
  omega

theorem Row.rForm_a (hm : w / 16777216 % 128 = m) (hk : w % 4096 = k ∧ w / 262144 % 64 = 0) :
    (m * 16777216 + k) + (BitVec.ofNat 6 (w / 4096)).toNat * 4096 = w % 2 ^ 31 := by
  simp only [BitVec.toNat_ofNat]
  omega

theorem Row.rForm_d (hm : w / 16777216 % 128 = m) (hk : w % 262144 = k) :
    (m * 16777216 + k) + (BitVec.ofNat 6 (w / 262144)).toNat * 262144 = w % 2 ^ 31 := by
  simp only [BitVec.toNat_ofNat]
  omega

theorem Row.rForm_none (hm : w / 16777216 % 128 = m) (hk : w % 16777216 = k) :
    (m * 16777216 + k) = w % 2 ^ 31 := by omega

theorem Row.rForm_rounded (hm : w / 16777216 % 128 = m) (hk : w / 8 % 8 = k) :
    (m * 16777216 + k * 8) + (BitVec.ofNat 6 (w / 262144)).toNat * 262144 + (BitVec.ofNat 6 (w / 4096)).toNat * 4096 +
      (BitVec.ofNat 6 (w / 64)).toNat * 64 + (BitVec.ofNat 3 w).toNat = w % 2 ^ 31 := by
  simp only [BitVec.toNat_ofNat]
  omega

theorem Row.rForm_push (hm : w / 16777216 % 128 = m) (hk : w / 32 % 2 = k) :
    (m * 16777216 + k * 32) + (BitVec.ofNat 6 (w / 262144)).toNat * 262144 + (BitVec.ofNat 6 (w / 4096)).toNat * 4096
      + (BitVec.ofNat 6 (w / 64)).toNat * 64 + (BitVec.ofNat 1 (w / 16)).toNat * 16 + (BitVec.ofNat 4 w).toNat
      = w % 2 ^ 31 := by
  simp only [BitVec.toNat_ofNat]
  omega

theorem Row.rForm_convert (hm : w / 16777216 % 128 = m) (hk : w / 512 % 8 = k) :
    (m * 16777216 + k * 512) + (BitVec.ofNat 6 (w / 262144)).toNat * 262144 + (BitVec.ofNat 6 (w / 4096)).toNat * 4096
      + (BitVec.ofNat 3 (w / 64)).toNat * 64 + (BitVec.ofNat 3 (w / 8)).toNat * 8 + (BitVec.ofNat 3 w).toNat
      = w % 2 ^ 31 := by
  simp only [BitVec.toNat_ofNat]
  omega

theorem Row.rForm_code (hm : w / 16777216 % 128 = m) (hk : w % 64 = k) :
    (m * 16777216 + k) + (BitVec.ofNat 18 (w / 64)).toNat * 64 = w % 2 ^ 31 := by
  simp only [BitVec.toNat_ofNat]
  omega

theorem Row.iForm_da (hm : w / 16777216 % 128 = m) :
    m * 16777216 + (BitVec.ofNat 6 (w / 262144)).toNat * 262144 + (BitVec.ofNat 6 (w / 4096)).toNat * 4096 +
      (BitVec.ofNat 12 w).toNat = w % 2 ^ 31 := by
  simp only [BitVec.toNat_ofNat]
  omega

theorem Row.iForm_a (hm : w / 16777216 % 128 = m) (hk : w / 262144 % 64 = k) :
    (m * 16777216 + k * 262144) + (BitVec.ofNat 6 (w / 4096)).toNat * 4096 + (BitVec.ofNat 12 w).toNat
      = w % 2 ^ 31 := by
  simp only [BitVec.toNat_ofNat]
  omega

theorem Row.iForm_imm10 (hm : w / 16777216 % 128 = m) (hk : w / 1024 % 4 = k) :
    (m * 16777216 + k * 1024) + (BitVec.ofNat 6 (w / 262144)).toNat * 262144 +
      (BitVec.ofNat 6 (w / 4096)).toNat * 4096 + (BitVec.ofNat 10 w).toNat = w % 2 ^ 31 := by
  simp only [BitVec.toNat_ofNat]
  omega

theorem Row.iForm_compare (hm : w / 16777216 % 128 = m) :
    m * 16777216 + (BitVec.ofNat 6 (w / 262144)).toNat * 262144 + (BitVec.ofNat 6 (w / 4096)).toNat * 4096 +
      (BitVec.ofNat 4 (w / 256)).toNat * 256 + (BitVec.ofNat 8 w).toNat = w % 2 ^ 31 := by
  simp only [BitVec.toNat_ofNat]
  omega

theorem Row.jForm (hm : w / 16777216 % 128 = m) :
    m * 16777216 + (BitVec.ofNat 24 w).toNat = w % 2 ^ 31 := by
  simp only [BitVec.toNat_ofNat]
  omega

theorem Row.mForm (hm : w / 16777216 % 128 = m) :
    m * 16777216 + (BitVec.ofNat 6 (w / 262144)).toNat * 262144 + (BitVec.ofNat 6 (w / 4096)).toNat * 4096 +
      (BitVec.ofNat 3 (w / 512)).toNat * 512 + (BitVec.ofNat 9 w).toNat = w % 2 ^ 31 := by
  simp only [BitVec.toNat_ofNat]
  omega

theorem Row.atomic (hm : w / 16777216 % 128 = m) (hk : w / 8 % 8 = k) :
    (m * 16777216 + k * 8) + (BitVec.ofNat 5 (w / 524288)).toNat * 524288 + (BitVec.ofNat 5 (w / 16384)).toNat * 16384
      + (BitVec.ofNat 5 (w / 512)).toNat * 512 + (BitVec.ofNat 3 (w / 64)).toNat * 64 + (BitVec.ofNat 3 w).toNat
      = w % 2 ^ 31 := by
  simp only [BitVec.toNat_ofNat]
  omega

/-- The size of an atomic word is the low bit of its major (03 R65). -/
theorem Row.atomic_sized (hm : w / 16777216 % 128 / 2 = m) (hk : w / 8 % 8 = k) :
    (m * 33554432 + k * 8) + (BitVec.ofNat 1 (w / 16777216)).toNat * 16777216 +
      (BitVec.ofNat 5 (w / 524288)).toNat * 524288 + (BitVec.ofNat 5 (w / 16384)).toNat * 16384 +
      (BitVec.ofNat 5 (w / 512)).toNat * 512 + (BitVec.ofNat 3 (w / 64)).toNat * 64 + (BitVec.ofNat 3 w).toNat
      = w % 2 ^ 31 := by
  have hz : w / 16777216 % 128 = m * 2 + (BitVec.ofNat 1 (w / 16777216)).toNat := by
    rw [BitVec.toNat_ofNat]
    omega
  rw [← Row.atomic hz hk]
  ring

theorem Row.atomic_fence (hm : w / 16777216 % 128 = m) (hk : w % 64 = k ∧ w / 512 % 32768 = 0) :
    (m * 16777216 + k) + (BitVec.ofNat 3 (w / 64)).toNat * 64 = w % 2 ^ 31 := by
  simp only [BitVec.toNat_ofNat]
  omega

theorem Row.ordered (hm : w / 16777216 % 128 = m) (hk : w / 2048 % 2 = k) :
    (m * 16777216 + k * 2048) + (BitVec.ofNat 6 (w / 262144)).toNat * 262144 +
      (BitVec.ofNat 6 (w / 4096)).toNat * 4096 + (BitVec.ofNat 1 (w / 1024)).toNat * 1024 +
      (BitVec.ofNat 3 (w / 128)).toNat * 128 + (BitVec.ofNat 7 w).toNat = w % 2 ^ 31 := by
  simp only [BitVec.toNat_ofNat]
  omega

theorem Row.bit_load (hm : w / 16777216 % 128 = m) (hk : w % 32 = 0 ∧ w / 2048 % 2 = 0) :
    m * 16777216 + (BitVec.ofNat 6 (w / 262144)).toNat * 262144 + (BitVec.ofNat 6 (w / 4096)).toNat * 4096 +
      (BitVec.ofNat 1 (w / 1024)).toNat * 1024 + (BitVec.ofNat 5 (w / 32)).toNat * 32 = w % 2 ^ 31 := by
  simp only [BitVec.toNat_ofNat]
  omega

theorem Row.bit_store (hm : w / 16777216 % 128 = m) (hk : w % 32 = 0 ∧ w / 1024 % 4 = k) :
    (m * 16777216 + k * 1024) + (BitVec.ofNat 6 (w / 262144)).toNat * 262144 +
      (BitVec.ofNat 6 (w / 4096)).toNat * 4096 + (BitVec.ofNat 5 (w / 32)).toNat * 32 = w % 2 ^ 31 := by
  simp only [BitVec.toNat_ofNat]
  omega

theorem Row.shift (hm : w / 16777216 % 128 = m) (hk : w / 64 % 64 = k) :
    (m * 16777216 + k * 64) + (BitVec.ofNat 6 (w / 262144)).toNat * 262144 + (BitVec.ofNat 6 (w / 4096)).toNat * 4096
      + (BitVec.ofNat 6 w).toNat = w % 2 ^ 31 := by
  simp only [BitVec.toNat_ofNat]
  omega

theorem Row.field (hm : w / 16777216 % 128 = m) :
    m * 16777216 + (BitVec.ofNat 6 (w / 262144)).toNat * 262144 + (BitVec.ofNat 6 (w / 4096)).toNat * 4096 +
      (BitVec.ofNat 6 (w / 64)).toNat * 64 + (BitVec.ofNat 6 w).toNat = w % 2 ^ 31 := by
  simp only [BitVec.toNat_ofNat]
  omega

theorem Row.tile_ab (hm : w / 16777216 % 128 = m) (hk : w % 16 = k ∧ w / 65536 % 256 = 0) :
    (m * 16777216 + k) + (BitVec.ofNat 6 (w / 1024)).toNat * 1024 + (BitVec.ofNat 6 (w / 16)).toNat * 16
      = w % 2 ^ 31 := by
  simp only [BitVec.toNat_ofNat]
  omega

theorem Row.tile_a (hm : w / 16777216 % 128 = m) (hk : w % 1024 = k ∧ w / 65536 % 256 = 0) :
    (m * 16777216 + k) + (BitVec.ofNat 6 (w / 1024)).toNat * 1024 = w % 2 ^ 31 := by
  simp only [BitVec.toNat_ofNat]
  omega

theorem Row.tile_tab (hm : w / 16777216 % 128 = m) (hk : w % 16 = k) :
    (m * 16777216 + k) + (BitVec.ofNat 8 (w / 65536)).toNat * 65536 + (BitVec.ofNat 6 (w / 1024)).toNat * 1024 +
      (BitVec.ofNat 6 (w / 16)).toNat * 16 = w % 2 ^ 31 := by
  simp only [BitVec.toNat_ofNat]
  omega

theorem Row.tile_ta (hm : w / 16777216 % 128 = m) (hk : w % 1024 = k) :
    (m * 16777216 + k) + (BitVec.ofNat 8 (w / 65536)).toNat * 65536 + (BitVec.ofNat 6 (w / 1024)).toNat * 1024
      = w % 2 ^ 31 := by
  simp only [BitVec.toNat_ofNat]
  omega

theorem Row.tile_t (hm : w / 16777216 % 128 = m) (hk : w % 65536 = k) :
    (m * 16777216 + k) + (BitVec.ofNat 8 (w / 65536)).toNat * 65536 = w % 2 ^ 31 := by
  simp only [BitVec.toNat_ofNat]
  omega

theorem Row.vector_habmvt (hm : w / 16777216 % 128 = m) :
    m * 16777216 + (BitVec.ofNat 4 (w / 1048576)).toNat * 1048576 + (BitVec.ofNat 4 (w / 65536)).toNat * 65536 +
      (BitVec.ofNat 4 (w / 4096)).toNat * 4096 + (BitVec.ofNat 3 (w / 512)).toNat * 512 +
      (BitVec.ofNat 3 (w / 64)).toNat * 64 + (BitVec.ofNat 6 w).toNat = w % 2 ^ 31 := by
  simp only [BitVec.toNat_ofNat]
  omega

theorem Row.vector_habmt (hm : w / 16777216 % 128 = m) (hk : w / 64 % 8 = k) :
    (m * 16777216 + k * 64) + (BitVec.ofNat 4 (w / 1048576)).toNat * 1048576 +
      (BitVec.ofNat 4 (w / 65536)).toNat * 65536 + (BitVec.ofNat 4 (w / 4096)).toNat * 4096 +
      (BitVec.ofNat 3 (w / 512)).toNat * 512 + (BitVec.ofNat 6 w).toNat = w % 2 ^ 31 := by
  simp only [BitVec.toNat_ofNat]
  omega

theorem Row.vector_hamt (hm : w / 16777216 % 128 = m) (hk : w / 64 % 8 = k ∧ w / 4096 % 16 = 0) :
    (m * 16777216 + k * 64) + (BitVec.ofNat 4 (w / 1048576)).toNat * 1048576 +
      (BitVec.ofNat 4 (w / 65536)).toNat * 65536 + (BitVec.ofNat 3 (w / 512)).toNat * 512 + (BitVec.ofNat 6 w).toNat
      = w % 2 ^ 31 := by
  simp only [BitVec.toNat_ofNat]
  omega

theorem Row.vector_hmt (hm : w / 16777216 % 128 = m) (hk : w / 64 % 8 = 0 ∧ w / 4096 % 256 = 0) :
    m * 16777216 + (BitVec.ofNat 4 (w / 1048576)).toNat * 1048576 + (BitVec.ofNat 3 (w / 512)).toNat * 512 +
      (BitVec.ofNat 6 w).toNat = w % 2 ^ 31 := by
  simp only [BitVec.toNat_ofNat]
  omega

theorem Row.vectorScalar_hamt (hm : w / 16777216 % 128 = m) (hk : w / 64 % 8 = 0 ∧ w / 4096 % 4 = 0) :
    m * 16777216 + (BitVec.ofNat 4 (w / 1048576)).toNat * 1048576 + (BitVec.ofNat 6 (w / 16384)).toNat * 16384 +
      (BitVec.ofNat 3 (w / 512)).toNat * 512 + (BitVec.ofNat 6 w).toNat = w % 2 ^ 31 := by
  simp only [BitVec.toNat_ofNat]
  omega

theorem Row.vectorScalar_ha (hm : w / 16777216 % 128 = m) (hk : w % 16384 = k) :
    (m * 16777216 + k) + (BitVec.ofNat 4 (w / 1048576)).toNat * 1048576 + (BitVec.ofNat 6 (w / 16384)).toNat * 16384
      = w % 2 ^ 31 := by
  simp only [BitVec.toNat_ofNat]
  omega

/-! ### Decoders that ignore nothing of a word -/

/-- What a decoder answers for the word `w` with the literal `lit` is no instruction, or one whose encoding they are,
apart from L. -/
def Exact (w lit : Nat) (r : Except Reject Instr) : Prop :=
  ∀ i, r = .ok i → encodeNat i = w % 2 ^ 31 ∧ (i.isLong = true → literalOf i = lit)

theorem Exact.error {e : Reject} : Exact w lit (.error e) := by
  intro i h
  injection h

/-- A table is exact when each of its parts is where its condition holds. -/
theorem Exact.ite {p : Prop} [Decidable p] {r q : Except Reject Instr} (hr : p → Exact w lit r)
    (hq : Exact w lit q) : Exact w lit (if p then r else q) := by
  split
  · exact hr ‹_›
  · exact hq

theorem Exact.word {i : Instr} {n : Nat} (h : n = w % 2 ^ 31) (he : encodeNat i = n) (hl : i.isLong = false) :
    Exact w lit (.ok i) := by
  rintro _ ⟨⟩
  exact ⟨he.trans h, fun hi => by simp [hl] at hi⟩

/-- A long instruction keeps the literal too (03 R57). -/
theorem Exact.long {i : Instr} {n : Nat} (h : n = w % 2 ^ 31) (he : encodeNat i = n) (hl : literalOf i = lit) :
    Exact w lit (.ok i) := by
  rintro _ ⟨⟩
  exact ⟨he.trans h, fun _ => hl⟩

/-- A row of a table: a condition and the instruction that stands beside it. -/
theorem Exact.row {p : Prop} [Decidable p] {i : Instr} {n : Nat} {q : Except Reject Instr} (h : p → n = w % 2 ^ 31)
    (he : encodeNat i = n) (hl : i.isLong = false) (hq : Exact w lit q) : Exact w lit (if p then Except.ok i else q) :=
  .ite (fun hp => .word (h hp) he hl) hq

/-! ### The sub-maps of the majors (03 R65, R69) -/

theorem Exact.decodeC03 (hm : w / 16777216 % 128 = 3) : Exact w lit (decodeC03 w) := by
  unfold Sys2Proof.decodeC03
  refine .row (Row.rForm_da hm) rfl rfl ?_
  exact .error

theorem Exact.decodeC04 (hm : w / 16777216 % 128 = 4) : Exact w lit (decodeC04 w) := by
  unfold Sys2Proof.decodeC04
  refine .row (Row.rForm_a hm) rfl rfl ?_
  exact .error

theorem Exact.decodeC05 (hm : w / 16777216 % 128 = 5) : Exact w lit (decodeC05 w) := by
  unfold Sys2Proof.decodeC05
  refine .row (Row.iForm_a hm) rfl rfl ?_
  exact .error

theorem Exact.decodeC06 (hm : w / 16777216 % 128 = 6) : Exact w lit (decodeC06 w) := by
  unfold Sys2Proof.decodeC06
  iterate 2 refine .row (Row.rForm_none hm) rfl rfl ?_
  exact .error

theorem Exact.decodeC0C (hm : w / 16777216 % 128 = 12) : Exact w lit (decodeC0C w) := by
  unfold Sys2Proof.decodeC0C
  refine .row (Row.bit_load hm) rfl rfl ?_
  refine .row (Row.bit_store hm) rfl rfl ?_
  exact .error

theorem Exact.decodeC0D (hm : w / 16777216 % 128 = 13) : Exact w lit (decodeC0D w) := by
  unfold Sys2Proof.decodeC0D
  iterate 4 refine .row (Row.iForm_a hm) rfl rfl ?_
  exact .error

theorem Exact.decodeC0F (hm : w / 16777216 % 128 = 15) : Exact w lit (decodeC0F w) := by
  unfold Sys2Proof.decodeC0F
  iterate 2 refine .row (Row.rForm_push hm) rfl rfl ?_
  exact .error

theorem Exact.decodeC10 (hm : w / 16777216 % 128 / 2 = 8) : Exact w lit (decodeC10 w) := by
  unfold Sys2Proof.decodeC10
  iterate 8 refine .row (Row.atomic_sized hm) rfl rfl ?_
  exact .error

theorem Exact.decodeC11 (hm : w / 16777216 % 128 / 2 = 8) : Exact w lit (decodeC11 w) := by
  unfold Sys2Proof.decodeC11
  iterate 8 refine .row (Row.atomic_sized hm) rfl rfl ?_
  exact .error

theorem Exact.decodeC12 (hm : w / 16777216 % 128 = 18) : Exact w lit (decodeC12 w) := by
  unfold Sys2Proof.decodeC12
  iterate 2 refine .row (Row.ordered hm) rfl rfl ?_
  exact .error

theorem Exact.decodeC13 (hm : w / 16777216 % 128 = 19) : Exact w lit (decodeC13 w) := by
  unfold Sys2Proof.decodeC13
  refine .row (Row.atomic hm) rfl rfl ?_
  refine .row (Row.atomic_fence hm) rfl rfl ?_
  exact .error

theorem Exact.decodeC14 (hm : w / 16777216 % 128 = 20) : Exact w lit (decodeC14 w) := by
  unfold Sys2Proof.decodeC14
  refine .row (Row.rForm_ab hm) rfl rfl ?_
  refine .row (Row.rForm_db hm) rfl rfl ?_
  refine .row (Row.rForm_ab hm) rfl rfl ?_
  refine .row (Row.rForm_dab hm) rfl rfl ?_
  exact .error

theorem Exact.decodeC18 (hm : w / 16777216 % 128 = 24) : Exact w lit (decodeC18 w) := by
  unfold Sys2Proof.decodeC18
  iterate 4 refine .row (Row.rForm_da hm) rfl rfl ?_
  refine .row (Row.rForm_none hm) rfl rfl ?_
  refine .row (Row.rForm_da hm) rfl rfl ?_
  refine .row (Row.rForm_a hm) rfl rfl ?_
  refine .row (Row.rForm_none hm) rfl rfl ?_
  refine .row (Row.rForm_da hm) rfl rfl ?_
  exact .error

theorem Exact.decodeC19 (hm : w / 16777216 % 128 = 25) : Exact w lit (decodeC19 w) := by
  unfold Sys2Proof.decodeC19
  refine .row (Row.rForm_da hm) rfl rfl ?_
  refine .row (Row.rForm_dab hm) rfl rfl ?_
  exact .error

theorem Exact.decodeC1C (hm : w / 16777216 % 128 = 28) : Exact w lit (decodeC1C w) := by
  unfold Sys2Proof.decodeC1C
  refine .row (Row.rForm_dab hm) rfl rfl ?_
  iterate 2 refine .row (Row.rForm_da hm) rfl rfl ?_
  iterate 10 refine .row (Row.rForm_dab hm) rfl rfl ?_
  iterate 2 refine .row (Row.rForm_da hm) rfl rfl ?_
  refine .row (Row.rForm_dab hm) rfl rfl ?_
  exact .error

theorem Exact.decodeC20 (hm : w / 16777216 % 128 = 32) : Exact w lit (decodeC20 w) := by
  unfold Sys2Proof.decodeC20
  refine .row (Row.rForm_dab hm) rfl rfl ?_
  refine .row (Row.rForm_ab hm) rfl rfl ?_
  iterate 2 refine .row (Row.rForm_da hm) rfl rfl ?_
  iterate 2 refine .row (Row.rForm_dab hm) rfl rfl ?_
  refine .row (Row.rForm_a hm) rfl rfl ?_
  refine .row (Row.rForm_da hm) rfl rfl ?_
  refine .row (Row.rForm_ab hm) rfl rfl ?_
  exact .error

theorem Exact.decodeC21 (hm : w / 16777216 % 128 = 33) : Exact w lit (decodeC21 w) := by
  unfold Sys2Proof.decodeC21
  iterate 2 refine .row (Row.rForm_da hm) rfl rfl ?_
  refine .row (Row.rForm_dab hm) rfl rfl ?_
  refine .row (Row.rForm_da hm) rfl rfl ?_
  refine .row (Row.rForm_a hm) rfl rfl ?_
  exact .error

theorem Exact.decodeC24 (hm : w / 16777216 % 128 = 36) : Exact w lit (decodeC24 w) := by
  unfold Sys2Proof.decodeC24
  refine .row (Row.rForm_dab hm) rfl rfl ?_
  refine .row (Row.rForm_ab hm) rfl rfl ?_
  iterate 8 refine .row (Row.rForm_dab hm) rfl rfl ?_
  refine .row (Row.rForm_da hm) rfl rfl ?_
  refine .row (Row.rForm_ab hm) rfl rfl ?_
  iterate 3 refine .row (Row.rForm_a hm) rfl rfl ?_
  exact .error

theorem Exact.decodeC25 (hm : w / 16777216 % 128 = 37) : Exact w lit (decodeC25 w) := by
  unfold Sys2Proof.decodeC25
  refine .row (Row.rForm_da hm) rfl rfl ?_
  exact .error

theorem Exact.decodeC26 (hm : w / 16777216 % 128 = 38) : Exact w lit (decodeC26 w) := by
  unfold Sys2Proof.decodeC26
  iterate 3 refine .row (Row.tile_ab hm) rfl rfl ?_
  iterate 8 refine .row (Row.tile_a hm) rfl rfl ?_
  refine .row (Row.tile_ab hm) rfl rfl ?_
  iterate 3 refine .row (Row.rForm_none hm) rfl rfl ?_
  exact .error

theorem Exact.decodeC27 (hm : w / 16777216 % 128 = 39) : Exact w lit (decodeC27 w) := by
  unfold Sys2Proof.decodeC27
  iterate 3 refine .row (Row.tile_tab hm) rfl rfl ?_
  iterate 5 refine .row (Row.tile_ta hm) rfl rfl ?_
  iterate 3 refine .row (Row.tile_t hm) rfl rfl ?_
  exact .error

theorem Exact.decodeC2A (hm : w / 16777216 % 128 = 42) : Exact w lit (decodeC2A w) := by
  unfold Sys2Proof.decodeC2A
  refine .row (Row.rForm_dab hm) rfl rfl ?_
  refine .row (Row.rForm_da hm) rfl rfl ?_
  refine .row (Row.rForm_dab hm) rfl rfl ?_
  refine .row (Row.rForm_da hm) rfl rfl ?_
  refine .row (Row.rForm_d hm) rfl rfl ?_
  iterate 2 refine .row (Row.rForm_dab hm) rfl rfl ?_
  refine .row (Row.rForm_da hm) rfl rfl ?_
  iterate 5 refine .row (Row.rForm_dab hm) rfl rfl ?_
  refine .row (Row.rForm_da hm) rfl rfl ?_
  refine .row (Row.rForm_d hm) rfl rfl ?_
  refine .row (Row.rForm_da hm) rfl rfl ?_
  refine .row (Row.rForm_ab hm) rfl rfl ?_
  exact .error

theorem Exact.decodeC2E (hm : w / 16777216 % 128 = 46) : Exact w lit (decodeC2E w) := by
  unfold Sys2Proof.decodeC2E
  refine .row (Row.rForm_da hm) rfl rfl ?_
  refine .row (Row.rForm_ab hm) rfl rfl ?_
  refine .row (Row.rForm_a hm) rfl rfl ?_
  refine .row (Row.rForm_da hm) rfl rfl ?_
  refine .row (Row.rForm_dab hm) rfl rfl ?_
  refine .row (Row.rForm_ab hm) rfl rfl ?_
  refine .row (Row.rForm_d hm) rfl rfl ?_
  refine .row (Row.rForm_da hm) rfl rfl ?_
  refine .row (Row.rForm_d hm) rfl rfl ?_
  refine .row (Row.rForm_da hm) rfl rfl ?_
  refine .row (Row.rForm_ab hm) rfl rfl ?_
  exact .error

theorem Exact.decodeC2F (hm : w / 16777216 % 128 = 47) : Exact w lit (decodeC2F w) := by
  unfold Sys2Proof.decodeC2F
  refine .row (Row.rForm_da hm) rfl rfl ?_
  exact .error

theorem Exact.decodeC32 (hm : w / 16777216 % 128 = 50) : Exact w lit (decodeC32 w) := by
  unfold Sys2Proof.decodeC32
  iterate 2 refine .row (Row.rForm_code hm) rfl rfl ?_
  iterate 2 refine .row (Row.rForm_da hm) rfl rfl ?_
  refine .row (Row.rForm_a hm) rfl rfl ?_
  exact .error

theorem Exact.decodeC33 (hm : w / 16777216 % 128 = 51) : Exact w lit (decodeC33 w) := by
  unfold Sys2Proof.decodeC33
  iterate 2 refine .row (Row.rForm_none hm) rfl rfl ?_
  refine .row (Row.rForm_da hm) rfl rfl ?_
  exact .error

theorem Exact.decodeC34 (hm : w / 16777216 % 128 = 52) : Exact w lit (decodeC34 w) := by
  unfold Sys2Proof.decodeC34
  iterate 2 refine .row (Row.rForm_dab hm) rfl rfl ?_
  refine .row (Row.rForm_da hm) rfl rfl ?_
  refine .row (Row.rForm_ab hm) rfl rfl ?_
  iterate 3 refine .row (Row.rForm_dab hm) rfl rfl ?_
  exact .error

theorem Exact.decodeC35 (hm : w / 16777216 % 128 = 53) : Exact w lit (decodeC35 w) := by
  unfold Sys2Proof.decodeC35
  refine .row (Row.rForm_ab hm) rfl rfl ?_
  iterate 2 refine .row (Row.rForm_da hm) rfl rfl ?_
  exact .error

theorem Exact.decodeA00 (hm : w / 16777216 % 128 = 64) : Exact w lit (decodeA00 w) := by
  unfold Sys2Proof.decodeA00
  iterate 22 refine .row (Row.rForm_dabe hm) rfl rfl ?_
  iterate 4 refine .row (Row.rForm_dae hm) rfl rfl ?_
  exact .error

theorem Exact.decodeA07 (hm : w / 16777216 % 128 = 71) : Exact w lit (decodeA07 w) := by
  unfold Sys2Proof.decodeA07
  iterate 4 refine .row (Row.iForm_imm10 hm) rfl rfl ?_
  exact .error

theorem Exact.decodeA08 (hm : w / 16777216 % 128 = 72) : Exact w lit (decodeA08 w) := by
  unfold Sys2Proof.decodeA08
  iterate 4 refine .row (Row.shift hm) rfl rfl ?_
  exact .error

theorem Exact.decodeA10 (hm : w / 16777216 % 128 = 80) : Exact w lit (decodeA10 w) := by
  unfold Sys2Proof.decodeA10
  iterate 3 refine .row (Row.rForm_rounded hm) rfl rfl ?_
  iterate 2 refine .row (Row.rForm_dab hm) rfl rfl ?_
  exact .error

theorem Exact.decodeA11 (hm : w / 16777216 % 128 = 81) : Exact w lit (decodeA11 w) := by
  unfold Sys2Proof.decodeA11
  refine .row (Row.rForm_rounded hm) rfl rfl ?_
  exact .error

theorem Exact.decodeA13 (hm : w / 16777216 % 128 = 83) : Exact w lit (decodeA13 w) := by
  unfold Sys2Proof.decodeA13
  refine .row (Row.rForm_convert hm) rfl rfl ?_
  exact .error

theorem Exact.decodeA18 (hm : w / 16777216 % 128 = 88) : Exact w lit (decodeA18 w) := by
  unfold Sys2Proof.decodeA18
  refine .row (Row.vector_habmt hm) rfl rfl ?_
  exact .error

theorem Exact.decodeA19 (hm : w / 16777216 % 128 = 89) : Exact w lit (decodeA19 w) := by
  unfold Sys2Proof.decodeA19
  refine .row (Row.vector_habmt hm) rfl rfl ?_
  exact .error

theorem Exact.decodeA1A (hm : w / 16777216 % 128 = 90) : Exact w lit (decodeA1A w) := by
  unfold Sys2Proof.decodeA1A
  refine .row (Row.vector_hamt hm) rfl rfl ?_
  exact .error

theorem Exact.decodeA1B (hm : w / 16777216 % 128 = 91) : Exact w lit (decodeA1B w) := by
  unfold Sys2Proof.decodeA1B
  refine .row (Row.vector_hamt hm) rfl rfl ?_
  exact .error

theorem Exact.decodeA1C (hm : w / 16777216 % 128 = 92) : Exact w lit (decodeA1C w) := by
  unfold Sys2Proof.decodeA1C
  refine .row (Row.vector_habmt hm) rfl rfl ?_
  exact .error

theorem Exact.decodeA1D (hm : w / 16777216 % 128 = 93) : Exact w lit (decodeA1D w) := by
  unfold Sys2Proof.decodeA1D
  refine .row (Row.vector_habmt hm) rfl rfl ?_
  exact .error

theorem Exact.decodeA1E (hm : w / 16777216 % 128 = 94) : Exact w lit (decodeA1E w) := by
  unfold Sys2Proof.decodeA1E
  refine .row (Row.vector_habmt hm) rfl rfl ?_
  exact .error

theorem Exact.decodeA1F (hm : w / 16777216 % 128 = 95) : Exact w lit (decodeA1F w) := by
  unfold Sys2Proof.decodeA1F
  refine .row (Row.vector_habmt hm) rfl rfl ?_
  exact .error

theorem Exact.decodeA20 (hm : w / 16777216 % 128 = 96) : Exact w lit (decodeA20 w) := by
  unfold Sys2Proof.decodeA20
  refine .row (Row.vector_habmt hm) rfl rfl ?_
  exact .error

theorem Exact.decodeA22 (hm : w / 16777216 % 128 = 98) : Exact w lit (decodeA22 w) := by
  unfold Sys2Proof.decodeA22
  refine .row (Row.vector_habmt hm) rfl rfl ?_
  exact .error

theorem Exact.decodeA25 (hm : w / 16777216 % 128 = 101) : Exact w lit (decodeA25 w) := by
  unfold Sys2Proof.decodeA25
  refine .row (Row.vectorScalar_hamt hm) rfl rfl ?_
  exact .error

theorem Exact.decodeA26 (hm : w / 16777216 % 128 = 102) : Exact w lit (decodeA26 w) := by
  unfold Sys2Proof.decodeA26
  refine .row (Row.vector_hmt hm) rfl rfl ?_
  exact .error

theorem Exact.decodeA27 (hm : w / 16777216 % 128 = 103) : Exact w lit (decodeA27 w) := by
  unfold Sys2Proof.decodeA27
  iterate 3 refine .row (Row.vector_hamt hm) rfl rfl ?_
  exact .error

theorem Exact.decodeA28 (hm : w / 16777216 % 128 = 104) : Exact w lit (decodeA28 w) := by
  unfold Sys2Proof.decodeA28
  iterate 6 refine .row (Row.vector_hamt hm) rfl rfl ?_
  exact .error

theorem Exact.decodeA30 (hm : w / 16777216 % 128 = 112) : Exact w lit (decodeA30 w) := by
  unfold Sys2Proof.decodeA30
  iterate 8 refine .row (Row.vector_hamt hm) rfl rfl ?_
  exact .error

theorem Exact.decodeA31 (hm : w / 16777216 % 128 = 113) : Exact w lit (decodeA31 w) := by
  unfold Sys2Proof.decodeA31
  refine .row (Row.vectorScalar_ha hm) rfl rfl ?_
  exact .error

theorem Exact.decodeA32 (hm : w / 16777216 % 128 = 114) : Exact w lit (decodeA32 w) := by
  unfold Sys2Proof.decodeA32
  refine .row (Row.vectorScalar_ha hm) rfl rfl ?_
  exact .error

theorem Exact.decodeA33 (hm : w / 16777216 % 128 = 115) : Exact w lit (decodeA33 w) := by
  unfold Sys2Proof.decodeA33
  refine .row (Row.rForm_none hm) rfl rfl ?_
  exact .error

theorem Exact.decodeA34 (hm : w / 16777216 % 128 = 116) : Exact w lit (decodeA34 w) := by
  unfold Sys2Proof.decodeA34
  refine .row (Row.rForm_none hm) rfl rfl ?_
  exact .error

/-! ### The two maps -/

theorem major_classC (hc : w / 1073741824 % 2 = 0) : w / 16777216 % 128 = w / 16777216 % 64 := by omega

theorem major_classA (hc : w / 1073741824 % 2 = 1) : w / 16777216 % 128 = 64 + w / 16777216 % 64 := by omega

/-- The class-C map ignores nothing (03 R65). -/
theorem Exact.decodeC (hc : w / 1073741824 % 2 = 0) : Exact w lit (decodeC (w / 16777216 % 64) w) := by
  have hm {m : Nat} (h : w / 16777216 % 64 = m) : w / 16777216 % 128 = m := h ▸ major_classC hc
  unfold Sys2Proof.decodeC
  refine .ite (fun h => .word (Row.iForm_da (hm h)) rfl rfl) ?_
  refine .ite (fun h => .word (Row.jForm (hm h)) rfl rfl) ?_
  refine .ite (fun h => .word (Row.jForm (hm h)) rfl rfl) ?_
  refine .ite (fun h => .decodeC03 (hm h)) ?_
  refine .ite (fun h => .decodeC04 (hm h)) ?_
  refine .ite (fun h => .decodeC05 (hm h)) ?_
  refine .ite (fun h => .decodeC06 (hm h)) ?_
  refine .ite (fun h => .word (Row.iForm_da (hm h)) rfl rfl) ?_
  refine .ite (fun h => .word (Row.iForm_da (hm h)) rfl rfl) ?_
  refine .ite (fun h => .word (Row.mForm (hm h)) rfl rfl) ?_
  refine .ite (fun h => .word (Row.mForm (hm h)) rfl rfl) ?_
  refine .ite (fun h => .decodeC0C (hm h)) ?_
  refine .ite (fun h => .decodeC0D (hm h)) ?_
  refine .ite (fun h => .word (Row.iForm_da (hm h)) rfl rfl) ?_
  refine .ite (fun h => .decodeC0F (hm h)) ?_
  refine .ite (fun h => .decodeC10 (by rw [hm h])) ?_
  refine .ite (fun h => .decodeC11 (by rw [hm h])) ?_
  refine .ite (fun h => .decodeC12 (hm h)) ?_
  refine .ite (fun h => .decodeC13 (hm h)) ?_
  refine .ite (fun h => .decodeC14 (hm h)) ?_
  refine .ite (fun h => .decodeC18 (hm h)) ?_
  refine .ite (fun h => .decodeC19 (hm h)) ?_
  refine .ite (fun h => .decodeC1C (hm h)) ?_
  refine .ite (fun h => .decodeC20 (hm h)) ?_
  refine .ite (fun h => .decodeC21 (hm h)) ?_
  refine .ite (fun h => .decodeC24 (hm h)) ?_
  refine .ite (fun h => .decodeC25 (hm h)) ?_
  refine .ite (fun h => .decodeC26 (hm h)) ?_
  refine .ite (fun h => .decodeC27 (hm h)) ?_
  refine .ite (fun h => .decodeC2A (hm h)) ?_
  refine .ite (fun h => .decodeC2E (hm h)) ?_
  refine .ite (fun h => .decodeC2F (hm h)) ?_
  refine .ite (fun h => .decodeC32 (hm h)) ?_
  refine .ite (fun h => .decodeC33 (hm h)) ?_
  refine .ite (fun h => .decodeC34 (hm h)) ?_
  refine .ite (fun h => .decodeC35 (hm h)) ?_
  exact .error

/-- The class-A map ignores nothing (03 R69). -/
theorem Exact.decodeA (hc : w / 1073741824 % 2 = 1) (hlit : lit < 2 ^ 32) :
    Exact w lit (decodeA (w / 16777216 % 64) w lit) := by
  have hm {m : Nat} (h : w / 16777216 % 64 = m) : w / 16777216 % 128 = 64 + m := h ▸ major_classA hc
  have hv : (BitVec.ofNat 32 lit).toNat = lit := by rw [BitVec.toNat_ofNat, Nat.mod_eq_of_lt hlit]
  unfold Sys2Proof.decodeA
  refine .ite (fun h => .decodeA00 (hm h)) ?_
  refine .ite (fun h => .word (Row.field (hm h)) rfl rfl) ?_
  iterate 5 refine .ite (fun h => .word (Row.iForm_da (hm h)) rfl rfl) ?_
  refine .ite (fun h => .decodeA07 (hm h)) ?_
  refine .ite (fun h => .decodeA08 (hm h)) ?_
  refine .ite (fun h => .word (Row.field (hm h)) rfl rfl) ?_
  refine .ite (fun h => .word (Row.field (hm h)) rfl rfl) ?_
  refine .ite (fun h => .word (Row.iForm_compare (hm h)) rfl rfl) ?_
  refine .ite (fun h => .ite (fun hk => .long (Row.rForm_d (hm h) hk) rfl hv) .error) ?_
  refine .ite (fun h => .ite (fun hk => .long (Row.rForm_d (hm h) hk) rfl hv) .error) ?_
  refine .ite (fun h => .decodeA10 (hm h)) ?_
  refine .ite (fun h => .decodeA11 (hm h)) ?_
  refine .ite (fun h => .word (Row.field (hm h)) rfl rfl) ?_
  refine .ite (fun h => .decodeA13 (hm h)) ?_
  iterate 4 refine .ite (fun h => .word (Row.vector_habmvt (hm h)) rfl rfl) ?_
  refine .ite (fun h => .decodeA18 (hm h)) ?_
  refine .ite (fun h => .decodeA19 (hm h)) ?_
  refine .ite (fun h => .decodeA1A (hm h)) ?_
  refine .ite (fun h => .decodeA1B (hm h)) ?_
  refine .ite (fun h => .decodeA1C (hm h)) ?_
  refine .ite (fun h => .decodeA1D (hm h)) ?_
  refine .ite (fun h => .decodeA1E (hm h)) ?_
  refine .ite (fun h => .decodeA1F (hm h)) ?_
  refine .ite (fun h => .decodeA20 (hm h)) ?_
  refine .ite (fun h => .word (Row.vector_habmvt (hm h)) rfl rfl) ?_
  refine .ite (fun h => .decodeA22 (hm h)) ?_
  refine .ite (fun h => .word (Row.vector_habmvt (hm h)) rfl rfl) ?_
  refine .ite (fun h => .word (Row.vector_habmvt (hm h)) rfl rfl) ?_
  refine .ite (fun h => .decodeA25 (hm h)) ?_
  refine .ite (fun h => .decodeA26 (hm h)) ?_
  refine .ite (fun h => .decodeA27 (hm h)) ?_
  refine .ite (fun h => .decodeA28 (hm h)) ?_
  refine .ite (fun h => .decodeA30 (hm h)) ?_
  refine .ite (fun h => .decodeA31 (hm h)) ?_
  refine .ite (fun h => .decodeA32 (hm h)) ?_
  refine .ite (fun h => .decodeA33 (hm h)) ?_
  refine .ite (fun h => .decodeA34 (hm h)) ?_
  exact .error

end

/-- A word is told by its class to one of the two maps (03 R53). -/
theorem decodeFields_exact {w lit : Nat} (hlit : lit < 2 ^ 32) : Exact w lit (decodeFields w lit) := by
  unfold decodeFields
  split
  · exact .decodeC ‹_›
  · exact .decodeA (by omega) hlit

/-- A word that decodes has the fields of its instruction, and they meet its conditions. -/
theorem decodeWord_ok {w lit : Nat} {i : Instr} (h : decodeWord w lit = .ok i) :
    decodeFields w lit = .ok i ∧ i.wf = true := by
  unfold decodeWord at h
  split at h
  · split at h
    · cases h
      exact ⟨‹_›, ‹_›⟩
    · cases h
  · cases h

/-- Settles O2: the decoder's tables ignore nothing of a word, row by row, and it lets through what is well formed
alone. -/
theorem decodeExact : Obligations.DecodeExact := by
  intro w lit i _ hlit h
  obtain ⟨hf, hwf⟩ := decodeWord_ok h
  obtain ⟨henc, hlong⟩ := decodeFields_exact hlit i hf
  simp only [Instr.wf, Bool.and_eq_true, Bool.not_eq_true'] at hwf
  obtain ⟨⟨⟨hev, hfields⟩, -⟩, -⟩ := hwf
  exact ⟨henc, hfields, hev, hlong⟩

end Sys2Proof.Laws
end
section
/-! PROOF. Words that are not legal (03 R56, R65): O21 -/

namespace Sys2Proof.Safety
open Sys2Proof.Machine

section
variable {i : Instr} {s : State} (hl : legal s i = false) (m : State → Host.Outcome State Fault Refusal)

/-- A word whose meaning asks first whether it is legal traps where it is not. -/
theorem Traps.asked (he : exec i s = m s) (hm : m s = finish s (ill s)) : Traps i s 1 (illInfo s) :=
  he.trans hm

include hl

/-- A word whose meaning is guarded traps where it is not legal (03 R56, R65). -/
theorem Traps.guarded {b : State → Except Stop State} (he : exec i s = m s) (hm : m s = Machine.guarded i s b) :
    Traps i s 1 (illInfo s) :=
  (he.trans hm).trans (guarded_illegal b hl)

/-- A word that accesses global memory traps where it is not legal (03 R56, R65). -/
theorem Traps.guardedRun {b : State → Run State} (he : exec i s = m s) (hm : m s = Machine.guardedRun i s b) :
    Traps i s 1 (illInfo s) :=
  (he.trans hm).trans (guardedRun_illegal b hl)
end

/-- Settles O21: the words that name no register are legal everywhere, RETT and HALT ask for their mode themselves, and
the meaning of every other word begins with the check. -/
theorem illegalWordsTrap : Obligations.IllegalWordsTrap := by
  intro i s he hl
  cases i
  case
    pushCopyInstall | copyUnitDelivery | gatherElementDelivery | scatterElementWrite | migrationShip |
    reuseCountHalving | fillExecute | tileOpcodeStart | tileOpcodeComplete | mrevExecute | kopenExecute |
    kcloseExecute | kappExecute | pageAllocate | kaccExecute | krejExecute | kpbExecute | ksplExecute | kforkExecute |
    kloadExecute | kvalExecute | kmargExecute | ktentExecute | kdroptExecute | ccommExecute | cttExecute | postStart |
    chunkSend | chunkArrival | connectArrival | freedReport | barrierTokenArrival | disconnectArrival | postComplete |
    tileEntryFire | firingComplete | ccloseExecute | collectiveEventDelivery | kpreqSet | kpreqClear | preemptStop |
    sleepDeadline | repartSwitch | vectorEntryBegin | vectorEntryComplete | dispatchTask | dispatchContinuation |
    stealRequest | budgetPeriodStart | wakeMessage | poolBlockFree | packetHeaderAccept | portUnitArrival |
    faultRingRetry | homeRecall | migrationStart | migrationLineCopy | migrationFinish | heatPeriodHalving |
    scrubPass | powerUp | partReady | partOutOfService | linkPortFailure | flitCrcRetry | packageReset |
    functionLevelReset | firmwareUpdate | attestationRequest | clockStep | lrtail | launchRingEntry |
    barRegisterWrite | memoryReply | hostMemoryAccess | corePowerGating =>
    exact (Bool.false_ne_true he.symm).elim
  case
    jmp | fence | fclose | trap | sysc | nop | align | susp | yield | tactReluRdy | tactSqreluRdy | tactTanhRdy |
    tactRelu | tactSqrelu | tactTanh | vsync | vtbl =>
    exact (Bool.false_ne_true hl.symm).elim
  case hbarr d b => exact .asked (execHbarr d b) rfl (by unfold execHbarr; rw [hl]; rfl)
  case sleep a => exact .asked (execSleep a) rfl (by unfold execSleep; rw [hl]; rfl)
  case dreset d a => exact .asked (execDreset d a) rfl (by unfold execDreset; rw [hl]; rfl)
  case rett =>
    have hs : s.cur.sup = false := by
      change (true && true && (false || s.cur.sup) && true) = false at hl
      simpa using hl
    exact .asked execRett rfl (by unfold execRett; rw [hs]; rfl)
  case halt =>
    have hs : s.cur.sup = false := by
      change (true && true && (false || s.cur.sup) && true) = false at hl
      simpa using hl
    exact .asked execHalt rfl (by unfold execHalt; rw [hs]; rfl)
  exacts [
    .guarded hl (execBr _ _ _) rfl rfl, .guarded hl (execCall _) rfl rfl, .guarded hl (execJr _ _) rfl rfl,
    .guardedRun hl (execBtag _) rfl rfl, .guarded hl (execLoop _ _) rfl rfl, .guardedRun hl (execLdD _ _ _) rfl rfl,
    .guardedRun hl (execStD _ _ _) rfl rfl, .guardedRun hl (execLd _ _ _ _) rfl rfl,
    .guardedRun hl (execSt _ _ _ _) rfl rfl, .guarded hl (execLdb _ _ _ _) rfl rfl,
    .guarded hl (execStb _ _ _) rfl rfl, .guarded hl (execPf _ _) rfl rfl, .guardedRun hl (execDisc _ _) rfl rfl,
    .guardedRun hl (execZline _ _) rfl rfl, .guardedRun hl (execWbk _ _) rfl rfl,
    .guarded hl (execLdfW _ _ _) rfl rfl, .guardedRun hl (execStp _ _ _ _ _) rfl rfl,
    .guardedRun hl (execStpm _ _ _ _ _) rfl rfl, .guardedRun hl (execAadd _ _ _ _ _ _) rfl rfl,
    .guardedRun hl (execAmin _ _ _ _ _ _) rfl rfl, .guardedRun hl (execAmax _ _ _ _ _ _) rfl rfl,
    .guardedRun hl (execAand _ _ _ _ _ _) rfl rfl, .guardedRun hl (execAor _ _ _ _ _ _) rfl rfl,
    .guardedRun hl (execAxor _ _ _ _ _ _) rfl rfl, .guardedRun hl (execAswp _ _ _ _ _ _) rfl rfl,
    .guardedRun hl (execAcas _ _ _ _ _ _) rfl rfl, .guardedRun hl (execRel _ _ _ _ _) rfl rfl,
    .guardedRun hl (execAcq _ _ _ _ _) rfl rfl, .guardedRun hl (execAfadd _ _ _ _ _) rfl rfl,
    .guarded hl (execHbinit _ _) rfl rfl, .guarded hl (execHbwait _ _) rfl rfl,
    .guarded hl (execHbtest _ _ _) rfl rfl, .guardedRun hl (execSpawn _ _) rfl rfl,
    .guardedRun hl (execSpawnx _ _) rfl rfl, .guardedRun hl (execTsig _ _) rfl rfl,
    .guardedRun hl (execTdep _ _) rfl rfl, .guardedRun hl (execWake _ _) rfl rfl, .guardedRun hl (execTret _) rfl rfl,
    .guardedRun hl (execBktsel _ _) rfl rfl, .guarded hl (execStealctl _ _) rfl rfl,
    .guarded hl (execBudget _ _ _) rfl rfl, .guardedRun hl (execRbox _ _ _) rfl rfl,
    .guardedRun hl (execRld _ _) rfl rfl, .guardedRun hl (execRst _ _) rfl rfl,
    .guardedRun hl (execRuni _ _ _) rfl rfl, .guardedRun hl (execRint _ _ _) rfl rfl,
    .guardedRun hl (execRsub _ _ _) rfl rfl, .guardedRun hl (execRdil _ _ _) rfl rfl,
    .guardedRun hl (execRprj _ _ _) rfl rfl, .guardedRun hl (execRspl _ _ _) rfl rfl,
    .guardedRun hl (execRstrd _ _ _) rfl rfl, .guardedRun hl (execRrag _ _ _) rfl rfl,
    .guardedRun hl (execRshf _ _ _) rfl rfl, .guardedRun hl (execRcmp _ _ _) rfl rfl,
    .guardedRun hl (execRcnt _ _) rfl rfl, .guardedRun hl (execRvol _ _) rfl rfl,
    .guardedRun hl (execRtst _ _ _) rfl rfl, .guardedRun hl (execCopy _ _ _) rfl rfl,
    .guardedRun hl (execCwait _ _) rfl rfl, .guarded hl (execCwp _ _) rfl rfl, .guardedRun hl (execPres _ _) rfl rfl,
    .guardedRun hl (execGath _ _ _) rfl rfl, .guardedRun hl (execScat _ _ _) rfl rfl,
    .guardedRun hl (execMigr _) rfl rfl, .guarded hl (execTseq _ _) rfl rfl, .guarded hl (execTseqWt _ _) rfl rfl,
    .guardedRun hl (execFopen _ _) rfl rfl, .guardedRun hl (execFnext _ _) rfl rfl,
    .guardedRun hl (execFnextge _ _ _) rfl rfl, .guarded hl (execFend _ _) rfl rfl,
    .guarded hl (execMclaim _ _ _) rfl rfl, .guarded hl (execMrel _ _) rfl rfl,
    .guardedRun hl (execMlda _ _ _) rfl rfl, .guardedRun hl (execMldaRg _ _ _) rfl rfl,
    .guardedRun hl (execMldaSt _ _ _) rfl rfl, .guardedRun hl (execMldaAv _ _ _) rfl rfl,
    .guardedRun hl (execMldb _ _ _) rfl rfl, .guardedRun hl (execMldbRg _ _ _) rfl rfl,
    .guardedRun hl (execMldbSt _ _ _) rfl rfl, .guardedRun hl (execMldbAv _ _ _) rfl rfl,
    .guarded hl (execMseq _ _) rfl rfl, .guarded hl (execMwait _ _) rfl rfl, .guarded hl (execMrec _) rfl rfl,
    .guarded hl (execMrev _) rfl rfl, .guardedRun hl (execMlog _) rfl rfl, .guarded hl (execMqw _ _) rfl rfl,
    .guarded hl (execTmma _ _) rfl rfl, .guarded hl (execTmmaRdy _ _ _) rfl rfl, .guarded hl (execTmmt _ _) rfl rfl,
    .guarded hl (execTmmtRdy _ _ _) rfl rfl, .guarded hl (execTtmm _ _) rfl rfl,
    .guarded hl (execTtmmRdy _ _ _) rfl rfl, .guarded hl (execTadd _) rfl rfl, .guarded hl (execTaddRdy _ _) rfl rfl,
    .guarded hl (execTmul _) rfl rfl, .guarded hl (execTmulRdy _ _) rfl rfl, .guarded hl (execTsclMul _) rfl rfl,
    .guarded hl (execTsclMulRdy _ _) rfl rfl, .guarded hl (execTsclSet _) rfl rfl,
    .guarded hl (execTsclSetRdy _ _) rfl rfl, .guarded hl (execTexp _) rfl rfl, .guarded hl (execTexpRdy _ _) rfl rfl,
    .guarded hl (execTrmax _) rfl rfl, .guarded hl (execTrsum _) rfl rfl, .guarded hl (execTcvt _) rfl rfl,
    .guarded hl (execTtrn _ _) rfl rfl, .guardedRun hl (execKopen _ _ _) rfl rfl,
    .guarded hl (execKclose _ _) rfl rfl, .guarded hl (execKapp _ _ _) rfl rfl, .guarded hl (execKacc _ _) rfl rfl,
    .guarded hl (execKrej _) rfl rfl, .guarded hl (execKpb _ _ _) rfl rfl, .guarded hl (execKspl _ _ _) rfl rfl,
    .guarded hl (execKfork _ _) rfl rfl, .guardedRun hl (execKload _ _ _) rfl rfl,
    .guardedRun hl (execKval _ _ _) rfl rfl, .guarded hl (execKmarg _ _ _) rfl rfl,
    .guardedRun hl (execKpfx _ _ _) rfl rfl, .guardedRun hl (execKins _ _ _) rfl rfl,
    .guarded hl (execKtent _ _) rfl rfl, .guarded hl (execKdropt _) rfl rfl, .guarded hl (execKseq _ _) rfl rfl,
    .guarded hl (execKseqWt _ _) rfl rfl, .guardedRun hl (execCcomm _ _) rfl rfl,
    .guardedRun hl (execCtt _ _) rfl rfl, .guarded hl (execCrdy _) rfl rfl, .guardedRun hl (execCpost _ _) rfl rfl,
    .guardedRun hl (execCpoll _ _ _) rfl rfl, .guardedRun hl (execCwaitf _ _) rfl rfl,
    .guarded hl (execCbar _) rfl rfl, .guarded hl (execCstat _ _) rfl rfl, .guarded hl (execCclose _) rfl rfl,
    .guarded hl (execCseq _ _) rfl rfl, .guarded hl (execCseqWt _ _) rfl rfl, .guarded hl (execCarb _ _) rfl rfl,
    .guarded hl (execMfk _ _) rfl rfl, .guarded hl (execMtk _ _) rfl rfl, .guarded hl (execRepart _ _) rfl rfl,
    .guardedRun hl (execPgmig _ _ _) rfl rfl, .guardedRun hl (execPgheat _ _ _) rfl rfl,
    .guarded hl (execRowret _ _) rfl rfl, .guarded hl (execShoot _ _) rfl rfl,
    .guardedRun hl (execPgref _ _ _) rfl rfl, .guardedRun hl (execPlbw _ _ _) rfl rfl,
    .guardedRun hl (execDomset _ _ _) rfl rfl, .guardedRun hl (execIrq _ _) rfl rfl,
    .guarded hl (execQosp _ _) rfl rfl, .guarded hl (execAdd _ _ _ _) rfl rfl, .guarded hl (execSub _ _ _ _) rfl rfl,
    .guarded hl (execMul _ _ _ _) rfl rfl, .guarded hl (execMulh _ _ _ _) rfl rfl,
    .guarded hl (execMulhn _ _ _ _) rfl rfl, .guarded hl (execDiv _ _ _ _) rfl rfl,
    .guarded hl (execDivn _ _ _ _) rfl rfl, .guarded hl (execRem _ _ _ _) rfl rfl,
    .guarded hl (execRemn _ _ _ _) rfl rfl, .guarded hl (execAnd _ _ _ _) rfl rfl,
    .guarded hl (execOr _ _ _ _) rfl rfl, .guarded hl (execXor _ _ _ _) rfl rfl,
    .guarded hl (execAndn _ _ _ _) rfl rfl, .guarded hl (execShl _ _ _ _) rfl rfl,
    .guarded hl (execShr _ _ _ _) rfl rfl, .guarded hl (execSra _ _ _ _) rfl rfl,
    .guarded hl (execRot _ _ _ _) rfl rfl, .guarded hl (execMin _ _ _ _) rfl rfl,
    .guarded hl (execMax _ _ _ _) rfl rfl, .guarded hl (execMinn _ _ _ _) rfl rfl,
    .guarded hl (execMaxn _ _ _ _) rfl rfl, .guarded hl (execSel _ _ _ _) rfl rfl,
    .guarded hl (execClz _ _ _) rfl rfl, .guarded hl (execCtz _ _ _) rfl rfl, .guarded hl (execPopc _ _ _) rfl rfl,
    .guarded hl (execBswap _ _ _) rfl rfl, .guarded hl (execCmp _ _ _ _) rfl rfl,
    .guarded hl (execAddImm _ _ _) rfl rfl, .guarded hl (execMulImm _ _ _) rfl rfl,
    .guarded hl (execAndImm _ _ _) rfl rfl, .guarded hl (execOrImm _ _ _) rfl rfl,
    .guarded hl (execXorImm _ _ _) rfl rfl, .guarded hl (execMinImm _ _ _) rfl rfl,
    .guarded hl (execMaxImm _ _ _) rfl rfl, .guarded hl (execMinnImm _ _ _) rfl rfl,
    .guarded hl (execMaxnImm _ _ _) rfl rfl, .guarded hl (execShlImm _ _ _) rfl rfl,
    .guarded hl (execShrImm _ _ _) rfl rfl, .guarded hl (execSraImm _ _ _) rfl rfl,
    .guarded hl (execRotImm _ _ _) rfl rfl, .guarded hl (execBfx _ _ _ _) rfl rfl,
    .guarded hl (execBfi _ _ _ _) rfl rfl, .guarded hl (execCmpImm _ _ _ _) rfl rfl,
    .guarded hl (execLim _ _) rfl rfl, .guarded hl (execLih _ _) rfl rfl, .guarded hl (execFadd _ _ _ _) rfl rfl,
    .guarded hl (execFsub _ _ _ _) rfl rfl, .guarded hl (execFmul _ _ _ _) rfl rfl,
    .guarded hl (execFmin _ _ _) rfl rfl, .guarded hl (execFmax _ _ _) rfl rfl,
    .guarded hl (execFfma _ _ _ _) rfl rfl, .guarded hl (execFcmp _ _ _ _) rfl rfl,
    .guarded hl (execFcvt _ _ _ _ _) rfl rfl, .guardedRun hl (execVadd _ _ _ _ _ _) rfl rfl,
    .guardedRun hl (execVsub _ _ _ _ _ _) rfl rfl, .guardedRun hl (execVmul _ _ _ _ _ _) rfl rfl,
    .guardedRun hl (execVfma _ _ _ _ _ _) rfl rfl, .guardedRun hl (execVmin _ _ _ _ _) rfl rfl,
    .guardedRun hl (execVmax _ _ _ _ _) rfl rfl, .guardedRun hl (execVabs _ _ _ _) rfl rfl,
    .guardedRun hl (execVneg _ _ _ _) rfl rfl, .guardedRun hl (execVand _ _ _ _ _) rfl rfl,
    .guardedRun hl (execVor _ _ _ _ _) rfl rfl, .guardedRun hl (execVxor _ _ _ _ _) rfl rfl,
    .guardedRun hl (execVshl _ _ _ _ _) rfl rfl, .guardedRun hl (execVshr _ _ _ _ _) rfl rfl,
    .guardedRun hl (execVcmp _ _ _ _ _ _) rfl rfl, .guardedRun hl (execVsel _ _ _ _ _) rfl rfl,
    .guardedRun hl (execVcvt _ _ _ _ _ _) rfl rfl, .guardedRun hl (execVcvtHi _ _ _ _ _ _) rfl rfl,
    .guardedRun hl (execVbcast _ _ _ _) rfl rfl, .guardedRun hl (execViota _ _ _) rfl rfl,
    .guardedRun hl (execVredAdd _ _ _ _) rfl rfl, .guardedRun hl (execVredMax _ _ _ _) rfl rfl,
    .guardedRun hl (execVredMin _ _ _ _) rfl rfl, .guardedRun hl (execVscanInc _ _ _ _) rfl rfl,
    .guardedRun hl (execVscanMaxinc _ _ _ _) rfl rfl, .guardedRun hl (execVscanMininc _ _ _ _) rfl rfl,
    .guardedRun hl (execVscanExc _ _ _ _) rfl rfl, .guardedRun hl (execVscanMaxexc _ _ _ _) rfl rfl,
    .guardedRun hl (execVscanMinexc _ _ _ _) rfl rfl, .guardedRun hl (execVrcp _ _ _ _) rfl rfl,
    .guardedRun hl (execVrsq _ _ _ _) rfl rfl, .guardedRun hl (execVsqrt _ _ _ _) rfl rfl,
    .guardedRun hl (execVexp _ _ _ _) rfl rfl, .guardedRun hl (execVexp2 _ _ _ _) rfl rfl,
    .guardedRun hl (execVlog _ _ _ _) rfl rfl, .guardedRun hl (execVlog2 _ _ _ _) rfl rfl,
    .guardedRun hl (execVtanh _ _ _ _) rfl rfl, .guarded hl (execVshape _ _) rfl rfl,
    .guardedRun hl (execVloop _ _) rfl rfl]

end Sys2Proof.Safety
end
section
/-! PROOF. Register fields (03 R58): O10 -/

namespace Sys2Proof.Machine

/-! ### What register fields read and write (03 R58, 08 R220) -/

theorem flag_toNat (b : Bool) (n : Nat) : (if b then n else 0) = b.toNat * n := by cases b <;> simp

/-- A bit of a word, as the number at its place. -/
theorem getLsbD_of_div {v : Word} {n : Nat} {b : Bool} (h : v.toNat / 2 ^ n % 2 = b.toNat) : v.getLsbD n = b := by
  rw [BitVec.getLsbD, Nat.testBit_eq_decide_div_mod_eq, h]
  cases b <;> rfl

/-- The fields of ptag, as one number. -/
theorem ptagOf_toNat (u : PUnit) :
    (ptagOf u).toNat = u.tag.toNat + u.first.toNat * 2 ^ 8 + u.last.toNat * 2 ^ 9 + u.abort.toNat * 2 ^ 10 +
      u.sup.toNat * 2 ^ 11 + u.score % 1024 * 2 ^ 12 + u.sctx % 16 * 2 ^ 22 := by
  have htag := u.tag.isLt
  have hfirst := u.first.toNat_lt
  have hlast := u.last.toNat_lt
  have habort := u.abort.toNat_lt
  have hsup := u.sup.toNat_lt
  simp only [ptagOf, wd, flag_toNat, BitVec.toNat_ofNat]
  exact Nat.mod_eq_of_lt (by omega)

/-- Each field of ptag is what the unit has (08 R220). -/
theorem ptagOf_fields (u : PUnit) :
    (ptagOf u).toNat % 256 = u.tag.toNat ∧ (ptagOf u).getLsbD 8 = u.first ∧ (ptagOf u).getLsbD 9 = u.last ∧
      (ptagOf u).getLsbD 10 = u.abort ∧ (ptagOf u).getLsbD 11 = u.sup ∧
      (ptagOf u).toNat / 2 ^ 12 % 2 ^ 10 = u.score % 1024 ∧ (ptagOf u).toNat / 2 ^ 22 % 2 ^ 4 = u.sctx % 16 := by
  have h := ptagOf_toNat u
  have htag := u.tag.isLt
  have hfirst := u.first.toNat_lt
  have hlast := u.last.toNat_lt
  have habort := u.abort.toNat_lt
  have hsup := u.sup.toNat_lt
  refine ⟨?_, getLsbD_of_div ?_, getLsbD_of_div ?_, getLsbD_of_div ?_, getLsbD_of_div ?_, ?_, ?_⟩ <;> omega

/-- No field from 56 on is a general register (03 R58). -/
theorem ngreg_not_lt {s : State} {f : Nat} (h : 56 ≤ f) : ¬ f < s.core.ngreg := by
  have := ngreg_le s.core
  omega

theorem readReg_gk (s : State) : readReg 61 s = .ok (s.cur.slot, s) := by
  unfold readReg
  rw [if_neg (ngreg_not_lt (by decide))]
  rfl

theorem readReg_gpc (s : State) : readReg 63 s = .ok (s.focus.pc, s) := by
  unfold readReg
  rw [if_neg (ngreg_not_lt (by decide))]
  rfl

/-- rx0 waits while no unit stands there (07 R172). -/
theorem readReg_rx0_empty {s : State} (h : s.cur.rx0.units = []) : readReg 56 s = .error (.rx 0) := by
  unfold readReg
  rw [if_neg (ngreg_not_lt (by decide)), if_pos rfl, h]

/-- rx0 gives up its first unit. -/
theorem readReg_rx0 {s : State} {u : PUnit} {r : List PUnit} (h : s.cur.rx0.units = u :: r) :
    readReg 56 s = .ok (u.data, s.setCur { s.cur with rx0 := { s.cur.rx0 with units := r } }) := by
  unfold readReg
  rw [if_neg (ngreg_not_lt (by decide)), if_pos rfl, h]

/-- rx1 gives up its first unit in the communication context. -/
theorem readReg_rx1 {s : State} {u : PUnit} {r : List PUnit} (hc : s.isComm = true) (h : s.cur.rx1.units = u :: r) :
    readReg 57 s = .ok (u.data, s.setCur { s.cur with rx1 := { s.cur.rx1 with units := r } }) := by
  unfold readReg
  rw [if_neg (ngreg_not_lt (by decide)), if_neg (by decide), if_pos ⟨rfl, hc⟩, h]

/-- ptag shows the unit at the head of rx0, and leaves it there. -/
theorem readReg_ptag {s : State} {u : PUnit} (h : s.tagUnit = some u) : readReg 60 s = .ok (ptagOf u, s) := by
  unfold readReg
  rw [if_neg (ngreg_not_lt (by decide)), if_neg (by decide), if_neg (by simp), if_pos rfl, h]

theorem writeReg_tx0 (s : State) (v : Word) (e : Bool) : writeRegE 58 v e s = send 0 v e s := by
  unfold writeRegE
  rw [if_neg (ngreg_not_lt (by decide)), if_pos rfl]

theorem writeReg_tx1 {s : State} (hc : s.isComm = true) (v : Word) (e : Bool) :
    writeRegE 59 v e s = send 1 v e s := by
  unfold writeRegE
  rw [if_neg (ngreg_not_lt (by decide)), if_neg (by decide), if_pos ⟨rfl, hc⟩]

/-- A written general register has its value, and no other register of any kind has changed. -/
theorem setG_only (s : State) (f : Nat) (v : Word) :
    sget 0 (s.setG f v).cur.g f = v ∧ (∀ r, r ≠ f → sget 0 (s.setG f v).cur.g r = sget 0 s.cur.g r) ∧
      s.setG f v = s.setCur { s.cur with g := (s.setG f v).cur.g } := by
  rw [State.cur_setG]
  exact ⟨sget_sset_same .., fun _ h => sget_sset_other _ _ _ h, rfl⟩

/-- Settles O10, field by field. -/
theorem registerFields : Obligations.RegisterFields := by
  refine ⟨fun s => ⟨fun f => readReg_gen, readReg_gz ((ngreg_le _).trans (by decide)), readReg_gpc s, readReg_gk s,
    readReg_rx0_empty, fun u r => readReg_rx0, fun hc u r => readReg_rx1 hc, fun hp u r h => ?_⟩, fun s v e =>
    ⟨fun f hf => ⟨_, writeReg_gen hf v e, setG_only s f v⟩, writeReg_gz s v e, writeReg_tx0 s v e,
      fun hc => writeReg_tx1 hc v e⟩⟩
  have ht : s.tagUnit = some u := by simp [State.tagUnit, hp, h]
  exact ⟨_, readReg_ptag ht, ptagOf_fields u⟩

end Sys2Proof.Machine
end
section
/-! PROOF. Fetches from local memory (03 R54): O5 -/

namespace Sys2Proof.Machine

/-! ### Fetches from local memory (03 R54, 07 R167) -/

/-- A local read that its checks let through finds the bytes as they stand (07 R167, 20 R447). -/
theorem localRead_ok {s : State} {ea n : Nat} (hc : localCheck false ea n s = .ok ())
    (hp : s.core.poisoned (localOff ea) n = false) :
    localRead ea n s = .ok (memRead s.core.mem (localOff ea) n) := by
  unfold localRead
  rw [hc]
  simp [hp, bind, Except.bind, pure, Except.pure]

/-- A fetch of `n` bytes from local memory is their little-endian value. -/
theorem fetchLe_local {s : State} {pc n : Nat} (ha : pc % 4 = 0) (hl : isLocal pc = true)
    (hc : localCheck false pc n s = .ok ()) (hp : s.core.poisoned (localOff pc) n = false) :
    (fetchLe pc n s).ans = .ok (memLe s.core.mem (localOff pc) n, s) := by
  unfold fetchLe
  rw [if_neg (not_not.mpr ha), if_pos hl, localRead_ok hc hp]
  rfl

/-- A fetch at an address that is no multiple of 4 raises ALIGN with it (log 10). -/
theorem fetchLe_misaligned {s : State} {pc n : Nat} (ha : pc % 4 ≠ 0) :
    (fetchLe pc n s).ans = .error (.trap 3 (wd pc)) := by
  unfold fetchLe
  rw [if_pos ha]
  rfl

/-- At a multiple of 8 a bundle is fetched as eight bytes (03 R54). -/
theorem fetchBundle_at0 {s : State} {v : Nat} (h8 : s.focus.pc.toNat % 8 = 0)
    (h : (fetchLe s.focus.pc.toNat 8 s).ans = .ok (v, s)) :
    (fetchBundle s).ans = .ok (bundleAt false (v % 2 ^ 32) (v / 2 ^ 32), s) := by
  unfold fetchBundle
  rw [if_pos h8, Run.ans_bind_ok h]
  rfl

/-- Elsewhere it is fetched as four bytes (03 R54; log 10). -/
theorem fetchBundle_at4 {s : State} {v : Nat} (h8 : s.focus.pc.toNat % 8 ≠ 0)
    (h : (fetchLe s.focus.pc.toNat 4 s).ans = .ok (v, s)) :
    (fetchBundle s).ans = .ok (bundleAt true v 0, s) := by
  unfold fetchBundle
  rw [if_neg h8, Run.ans_bind_ok h]
  rfl

/-- A fetch that stops stops the bundle. -/
theorem fetchBundle_stops {s : State} {st : Stop} (h8 : s.focus.pc.toNat % 8 ≠ 0)
    (h : (fetchLe s.focus.pc.toNat 4 s).ans = .error st) : (fetchBundle s).ans = .error st := by
  unfold fetchBundle
  rw [if_neg h8, Run.ans_bind_error h]

/-- Settles O5: a fetch by the program counter's place modulo 8. -/
theorem fetchReadsTheProgramCounter : Obligations.FetchReadsTheProgramCounter := by
  intro s hl
  refine ⟨fun h8 hc hp => ?_, fun h4 hc hp => ?_, fun ha => ?_⟩
  · exact fetchBundle_at0 h8 (fetchLe_local (by omega) hl hc hp)
  · exact fetchBundle_at4 (by omega) (fetchLe_local (by omega) hl hc hp)
  · rw [fetchBundle_stops (by omega) (fetchLe_misaligned ha), wd, BitVec.ofNat_toNat, BitVec.setWidth_eq]

end Sys2Proof.Machine
end
section
/-! PROOF. Pairs (03 R55): O6 -/

namespace Sys2Proof.Machine

/-! ### Pairs (03 R55) -/

section
variable {ex : Instr → State → Host.Outcome State Fault Refusal} {c a : Instr} {wc wa : Nat} {s t u : State}
  {st : Stop}

/-- The state in which the second of a pair's words to run finds the first one's effect `t`, with the pair's sources as
they stood (02 R40). -/
def joinedAt (s t : State) (w : Nat) (second : Bool) : State :=
  { t with focus := { t.focus with word := BitVec.ofNat 32 w, second := second }, pin := pinOf s }

/-- A legal pair runs its words in the order that the class-C word asks for. -/
theorem runBundle_pair (hc : legal s c = true) (hp : pairIllegal s c (some a) = false) :
    runBundle ex s (.pair (some c) (some a) wc wa) =
      if c.leaves then pairAFirst ex c a wc wa s else pairCFirst ex c a wc wa s := by
  simp only [runBundle, hc, hp, Bool.not_true, Bool.false_eq_true, if_false]

/-- A pair that is undone ends as its word stops alone, but for what accesses have left in caches (log 71). -/
theorem undo_eq (hf : ∀ f, st ≠ .fault f) :
    undo s u st = .next { stopState (s.seenAs u) st with last := .stopped st } :=
  finish_stop _ st hf

/-! The class-C word first. -/

theorem pairCFirst_stops (ht : ex c (atWord s 8 wc false) = .next t) (hl : t.last = .stopped st) :
    pairCFirst ex c a wc wa s = .next t := by
  simp only [pairCFirst, ht, hl]

theorem pairCFirst_done (ht : ex c (atWord s 8 wc false) = .next t) (hl : t.last = .done)
    (hu : ex a (joinedAt s t wa true) = .next u) (hd : u.last = .done) :
    pairCFirst ex c a wc wa s = .next (unpin u) := by
  simp only [joinedAt, hl] at hu
  simp only [pairCFirst, ht, hl, hu, hd]

theorem pairCFirst_held (ht : ex c (atWord s 8 wc false) = .next t) (hl : t.last = .held)
    (hu : ex a (joinedAt s t wa true) = .next u) (hd : u.last = .done) : pairCFirst ex c a wc wa s = .next t := by
  simp only [joinedAt, hl] at hu
  simp only [pairCFirst, ht, hl, hu, hd]

/-- The class-A word's stop undoes the class-C word. -/
theorem pairCFirst_undone (ht : ex c (atWord s 8 wc false) = .next t) (hl : t.last = .done ∨ t.last = .held)
    (hu : ex a (joinedAt s t wa true) = .next u) (hs : u.last = .stopped st) :
    pairCFirst ex c a wc wa s = undo (atWord s 8 wa true) u st := by
  rcases hl with hl | hl <;>
    (simp only [joinedAt, hl] at hu; simp only [pairCFirst, ht, hl, hu, hs])

/-! The class-A word first. -/

/-- The class-C word's stop goes before the class-A word's. -/
theorem pairAFirst_bothStop (ht : ex a (atWord s 8 wa true) = .next t) (hl : t.last = .stopped st)
    (hu : ex c (atWord (s.seenAs t) 8 wc false) = .next u) {st' : Stop} (hs : u.last = .stopped st') :
    pairAFirst ex c a wc wa s = .next u := by
  simp only [pairAFirst, ht, hl, hu, hs]

theorem pairAFirst_undoneByA (ht : ex a (atWord s 8 wa true) = .next t) (hl : t.last = .stopped st)
    (hu : ex c (atWord (s.seenAs t) 8 wc false) = .next u) (hd : u.last = .done ∨ u.last = .held) :
    pairAFirst ex c a wc wa s = undo (atWord s 8 wa true) u st := by
  rcases hd with hd | hd <;> simp only [pairAFirst, ht, hl, hu, hd]

theorem pairAFirst_done (ht : ex a (atWord s 8 wa true) = .next t) (hl : t.last = .done)
    (hu : ex c (joinedAt s t wc false) = .next u) (hd : u.last = .done ∨ u.last = .held) :
    pairAFirst ex c a wc wa s = .next (unpin u) := by
  simp only [joinedAt, hl] at hu
  rcases hd with hd | hd <;> simp only [pairAFirst, ht, hl, hu, hd]

theorem pairAFirst_undoneByC (ht : ex a (atWord s 8 wa true) = .next t) (hl : t.last = .done)
    (hu : ex c (joinedAt s t wc false) = .next u) (hs : u.last = .stopped st) :
    pairAFirst ex c a wc wa s = undo (atWord s 8 wc false) u st := by
  simp only [joinedAt, hl] at hu
  simp only [pairAFirst, ht, hl, hu, hs]

end

/-- Settles O6, by which of the two words runs first and how each ends. -/
theorem pairRunsAsOne : Obligations.PairRunsAsOne := by
  intro s t u c a wc wa hc hp
  refine ⟨fun hlv => ?_, fun hlv => ?_⟩
  · have hrun : runBundle exec s (.pair (some c) (some a) wc wa) = pairCFirst exec c a wc wa s := by
      rw [runBundle_pair hc hp, hlv]
      rfl
    simp only [hrun]
    refine ⟨fun st ht hl => pairCFirst_stops ht hl, fun ht hl hu => ⟨fun hd => pairCFirst_done ht hl hu hd, ?_⟩,
      fun ht hl hu => ⟨fun hd => pairCFirst_held ht hl hu hd, ?_⟩⟩
    · exact fun st hs hf => (pairCFirst_undone ht (.inl hl) hu hs).trans (undo_eq hf)
    · exact fun st hs hf => (pairCFirst_undone ht (.inr hl) hu hs).trans (undo_eq hf)
  · have hrun : runBundle exec s (.pair (some c) (some a) wc wa) = pairAFirst exec c a wc wa s := by
      rw [runBundle_pair hc hp, hlv]
      rfl
    simp only [hrun]
    refine ⟨fun st ht hl hu => ⟨fun st' hs => pairAFirst_bothStop ht hl hu hs, ?_⟩,
      fun ht hl hu => ⟨fun hd => pairAFirst_done ht hl hu hd, ?_⟩⟩
    · exact fun hf hd => (pairAFirst_undoneByA ht hl hu hd).trans (undo_eq hf)
    · exact fun st hs hf => (pairAFirst_undoneByC ht hl hu hs).trans (undo_eq hf)

end Sys2Proof.Machine
end
section
/-! PROOF. Steps (03 R54, 07 R164 to R176): O4 -/

namespace Sys2Proof.Safety
open Sys2Proof.Machine

/-! ### What the hardware's accesses and wakes leave of a context

A part `f` of a context that neither the old values behind vector entries nor the waking of a sleeper enters: the
hardware keeps it when it reads or writes memory, pushes on a deque and wakes a continuation. -/

/-- `f` reads neither what vector entries have replaced (05 R112) nor whether a sleeper has been woken (08 R227). -/
structure HwBlind {β : Type} (f : Ctx → β) : Prop where
  vold : ∀ (x : Ctx) v, f { x with vold := v } = f x
  woken : ∀ (x : Ctx) d, x.st = .sleeping d → f { x with st := .ready } = f x

/-- Every context of the core has the same `f`. -/
def SameCtxs {β : Type} (f : Ctx → β) (k l : Core) : Prop := ∀ x, f (l.ctxAt x) = f (k.ctxAt x)

/-- Every context of the package has the same `f`. -/
def KeepsCtxs {β : Type} (f : Ctx → β) (s t : State) : Prop := ∀ c, SameCtxs f (s.coreAt c) (t.coreAt c)

/-- A table whose values are changed where they stand. -/
theorem sget_map {α : Type} {p : α → α → Prop} {d : α} {g : Nat × α → Nat × α} (hd : p d d)
    (hg : ∀ q, (g q).1 = q.1 ∧ p q.2 (g q).2) (m : SMap α) (k : Nat) : p (sget d m k) (sget d (m.map g) k) := by
  induction m with
  | nil => exact hd
  | cons q r ih =>
    have e : g q = (q.1, (g q).2) := by rw [← (hg q).1]
    rw [List.map_cons, e, sget, sget]
    split
    · exact (hg q).2
    · exact ih

section
variable {β : Type} {f : Ctx → β} {s t u : State} {k l m : Core}

theorem SameCtxs.refl : SameCtxs f k k := fun _ => rfl

theorem SameCtxs.trans (h : SameCtxs f k l) (h' : SameCtxs f l m) : SameCtxs f k m := fun x => (h' x).trans (h x)

theorem SameCtxs.map {g : Nat × Ctx → Nat × Ctx} (hl : l.ctxs = k.ctxs.map g)
    (hg : ∀ q, (g q).1 = q.1 ∧ f (g q).2 = f q.2) : SameCtxs f k l := fun x => by
  rw [Core.ctxAt, hl]
  exact sget_map (p := fun a b => f b = f a) rfl hg k.ctxs x

theorem KeepsCtxs.refl : KeepsCtxs f s s := fun _ => .refl

theorem KeepsCtxs.ctxAt (h : KeepsCtxs f s t) (c x : Nat) : f (t.ctxAt c x) = f (s.ctxAt c x) := h c x

theorem KeepsCtxs.of_eq {α : Type} {a : α} {p : α × State} (h : KeepsCtxs f s p.2) (e : p = (a, t)) :
    KeepsCtxs f s t := by
  rw [e] at h
  exact h

theorem KeepsCtxs.same (h : KeepsCtxs f s t) (e : u.cores = t.cores) : KeepsCtxs f s u := fun c => by
  have hc : u.coreAt c = t.coreAt c := by rw [State.coreAt, e, State.coreAt]
  exact hc ▸ h c

theorem KeepsCtxs.setCore (h : KeepsCtxs f s t) {c : Nat} (hk : SameCtxs f (t.coreAt c) k) :
    KeepsCtxs f s (t.setCore c k) := fun d => by
  rw [State.coreAt_setCore]
  split
  · next e => exact (h d).trans (e ▸ hk)
  · exact h d

theorem KeepsCtxs.mapCores (h : KeepsCtxs f s t) {g : Nat × Core → Nat × Core} (hu : u.cores = t.cores.map g)
    (hg : ∀ q, (g q).1 = q.1 ∧ SameCtxs f q.2 (g q).2) : KeepsCtxs f s u := fun c => by
  have hc : u.coreAt c = sget Core.reset (t.cores.map g) c := by rw [State.coreAt, hu]
  exact (h c).trans (hc ▸ sget_map (p := SameCtxs f) .refl hg t.cores c)

theorem KeepsCtxs.foldl {α : Type} {g : State → α → State} {v : List α} (h : KeepsCtxs f s t)
    (hg : ∀ t a, KeepsCtxs f s t → KeepsCtxs f s (g t a)) : KeepsCtxs f s (v.foldl g t) := by
  induction v generalizing t with
  | nil => exact h
  | cons a r ih => exact ih (hg t a h)

theorem KeepsCtxs.foldlSnd {α γ : Type} {g : γ × State → α → γ × State} {v : List α} {p : γ × State}
    (h : KeepsCtxs f s p.2) (hg : ∀ p a, KeepsCtxs f s p.2 → KeepsCtxs f s (g p a).2) :
    KeepsCtxs f s (v.foldl g p).2 := by
  induction v generalizing p with
  | nil => exact h
  | cons a r ih => exact ih (hg p a h)

theorem KeepsCtxs.ite {c : Prop} [Decidable c] (ht : KeepsCtxs f s t) (hu : KeepsCtxs f s u) :
    KeepsCtxs f s (if c then t else u) := by
  split
  · exact ht
  · exact hu

/-! ### Translation and the global memory -/

theorem KeepsCtxs.pteRead {q lvl va table : Nat} (h : KeepsCtxs f s t) :
    KeepsCtxs f s (Machine.pteRead q lvl va table t).2 := by
  fun_cases Machine.pteRead q lvl va table t
  · exact h
  · exact h.same rfl

theorem KeepsCtxs.groupAgrees {q va table : Nat} (h : KeepsCtxs f s t) :
    KeepsCtxs f s (Machine.groupAgrees q va table t).2 := by
  unfold Machine.groupAgrees
  refine KeepsCtxs.foldlSnd h ?_
  intro p j hp
  exact hp.pteRead

theorem KeepsCtxs.walk {q va : Nat} {l : List Nat} {table : Nat} (h : KeepsCtxs f s t) :
    KeepsCtxs f s (Machine.walk q va l table t).2 := by
  fun_induction Machine.walk q va l table t <;> grind [KeepsCtxs.pteRead, KeepsCtxs.groupAgrees]

theorem KeepsCtxs.translatePage {home : Option Nat} {wr : Bool} {va : Nat} (h : KeepsCtxs f s t) :
    KeepsCtxs f s (Machine.translatePage home wr va t).2 := by
  fun_cases Machine.translatePage home wr va t <;> grind [Machine.walkTop, KeepsCtxs.walk]

theorem KeepsCtxs.translate {home : Option Nat} {wr : Bool} {va : Nat} (h : KeepsCtxs f s t) :
    KeepsCtxs f s (Machine.translate home wr va t).2 := by
  fun_cases Machine.translate home wr va t <;> grind [KeepsCtxs.translatePage]

theorem putPhys_cores (s : State) (pa : Nat) (b : List Byte) : (s.putPhys pa b).cores = s.cores := by
  unfold State.putPhys
  split <;> rfl

theorem putLine_cores (s : State) (pa : Nat) (b : List Byte) (bad : Bool) : (s.putLine pa b bad).cores = s.cores := by
  unfold State.putLine
  split <;> exact putPhys_cores ..

theorem KeepsCtxs.putLine {pa : Nat} {b : List Byte} {bad : Bool} (h : KeepsCtxs f s t) :
    KeepsCtxs f s (t.putLine pa b bad) :=
  h.same (putLine_cores ..)

theorem KeepsCtxs.touch {dom : Option Nat} {reuse q va pa shift : Nat} {wr : Bool} (h : KeepsCtxs f s t) :
    KeepsCtxs f s (t.touch dom reuse q va pa shift wr) :=
  h.same (touch_frame t dom reuse q va pa shift wr).2

/-- A recall clears a D flag and writes the line's frame (10 R272). -/
theorem KeepsCtxs.recall {q line pa shift : Nat} (h : KeepsCtxs f s t) :
    KeepsCtxs f s (t.recall q line pa shift) := by
  unfold State.recall
  extract_lets r
  have hr : KeepsCtxs f s r := by
    simp only [r]
    split
    · exact h.putLine.same rfl
    · exact h
  clear_value r
  split
  · exact hr
  · refine KeepsCtxs.touch (hr.putLine.setCore ?_)
    rw [State.coreAt, putLine_cores]
    exact .refl

theorem KeepsCtxs.hvLook {wr : Bool} {va : Nat} (h : KeepsCtxs f s t) : KeepsCtxs f s (Machine.hvLook wr va t).2 := by
  fun_cases Machine.hvLook wr va t <;> grind [KeepsCtxs.translate, KeepsCtxs.touch, KeepsCtxs.recall]

theorem KeepsCtxs.hvTry {wr : Bool} {va : Nat} (h : KeepsCtxs f s t) :
    Ends (fun r => KeepsCtxs f s r.2) (Machine.hvTry wr va t) := by
  unfold Machine.hvTry
  split
  · exact .ok (h.hvLook.of_eq ‹_›)
  · exact .stop

theorem SameCtxs.l1Written {line : Nat} : SameCtxs f k (k.l1Written line) := by
  unfold Core.l1Written
  split <;> exact .refl

end

section
variable {β : Type} {f : Ctx → β} {s t u : State} {k : Core} (hf : HwBlind f)
include hf

theorem SameCtxs.dropOld {lo n : Nat} : SameCtxs f k (k.dropOld lo n) := by
  unfold Core.dropOld
  split
  · exact .refl
  · exact .map rfl fun q => ⟨rfl, hf.vold ..⟩

theorem SameCtxs.localPut {off : Nat} {b : List Byte} : SameCtxs f k (k.localPut off b) := fun x =>
  SameCtxs.dropOld hf (k := k) x

theorem KeepsCtxs.localPut {c off : Nat} {b : List Byte} (h : KeepsCtxs f s t) : KeepsCtxs f s (t.localPut c off b) :=
  h.setCore (SameCtxs.localPut hf)

theorem SameCtxs.stashWritten {mine : Option Nat} {lo n : Nat} : SameCtxs f k (k.stashWritten mine lo n) := by
  unfold Core.stashWritten
  dsimp only
  split
  · exact SameCtxs.dropOld hf
  · exact SameCtxs.dropOld hf (k := k)

theorem KeepsCtxs.bitsWritten {w : Option (Nat × Nat)} {lo n : Nat} (h : KeepsCtxs f s t) :
    KeepsCtxs f s (t.bitsWritten w lo n) := by
  refine h.mapCores rfl fun q => ⟨rfl, ?_⟩
  dsimp only
  split
  · split
    · exact SameCtxs.stashWritten hf
    · exact (SameCtxs.stashWritten hf).trans .l1Written
  · exact (SameCtxs.stashWritten hf).trans .l1Written

theorem KeepsCtxs.putGlobal {va pa : Nat} {b : List Byte} (h : KeepsCtxs f s t) : KeepsCtxs f s (t.putGlobal va pa b) :=
  KeepsCtxs.bitsWritten hf (h.same (putPhys_cores ..))

theorem KeepsCtxs.hvPut {va : Nat} {b : List Byte} (h : KeepsCtxs f s t) : Finds (KeepsCtxs f s) (t.hvPut va b) := by
  unfold State.hvPut
  split
  · exact .some (KeepsCtxs.putGlobal hf (h.hvTry.of_ok ‹_›))
  · exact .none

/-! ### Deques and wakes -/

theorem KeepsCtxs.scribble {c off n : Nat} (h : KeepsCtxs f s t) : KeepsCtxs f s (t.scribble c off n) :=
  (KeepsCtxs.localPut hf h).same rfl

theorem KeepsCtxs.writeSpill {c : Nat} (h : KeepsCtxs f s t) : KeepsCtxs f s (t.writeSpill c) :=
  h.foldl fun _ _ h => KeepsCtxs.localPut hf h

theorem KeepsCtxs.fitSpill {c : Nat} (h : KeepsCtxs f s t) : Finds (KeepsCtxs f s) (t.fitSpill c) := by
  have spill (l : List Nat) : KeepsCtxs f s (t.setCore c { t.coreAt c with spill := l }) := h.setCore .refl
  fun_cases t.fitSpill c <;>
    grind [KeepsCtxs.localPut, KeepsCtxs.writeSpill, KeepsCtxs.scribble, Finds.some, Finds.none]

theorem KeepsCtxs.pushBottom {c : Nat} {e : Word} (h : KeepsCtxs f s t) : Finds (KeepsCtxs f s) (t.pushBottom c e) :=
  KeepsCtxs.fitSpill hf (h.setCore .refl)

theorem KeepsCtxs.wakeSleeper {slot : Nat} (h : KeepsCtxs f s t) : KeepsCtxs f s (t.wakeSleeper slot) := by
  refine h.mapCores rfl fun q => ⟨rfl, .map rfl fun q => ?_⟩
  split
  · next d e =>
    split
    · exact ⟨rfl, hf.woken _ d e⟩
    · exact ⟨rfl, rfl⟩
  · exact ⟨rfl, rfl⟩

/-- A wake that comes to an end leaves the contexts' `f`. -/
def wokeKeeps (f : Ctx → β) (s : State) : WakeRes → Prop
  | .woke _ t => KeepsCtxs f s t
  | .full | .absent _ => True

theorem KeepsCtxs.wakeSlot {c slot : Nat} (h : KeepsCtxs f s t) : wokeKeeps f s (Machine.wakeSlot c slot t) := by
  unfold Machine.wakeSlot
  split
  · trivial
  · have ht := h.hvTry.of_ok ‹_›
    extract_lets st
    clear_value st
    split
    · trivial
    · split
      · split
        · exact (KeepsCtxs.pushBottom hf (KeepsCtxs.putGlobal hf ht)).of_some ‹_›
        · trivial
      · split
        · exact KeepsCtxs.wakeSleeper hf (KeepsCtxs.putGlobal hf ht)
        · exact ht

theorem KeepsCtxs.tryWake {c slot : Nat} (h : KeepsCtxs f s t) : Finds (KeepsCtxs f s) (Machine.tryWake c slot t) := by
  have hw := KeepsCtxs.wakeSlot hf (c := c) (slot := slot) h
  unfold Machine.tryWake
  split <;> rename_i e
  · rw [e] at hw
    exact .some hw
  · exact (KeepsCtxs.hvPut hf h).map fun _ h => h.same rfl
  · exact .none

theorem KeepsCtxs.hwWake {c slot : Nat} (h : KeepsCtxs f s t) : KeepsCtxs f s (t.hwWake c slot) :=
  .ite h ((KeepsCtxs.tryWake hf h).getD (h.same rfl))

theorem KeepsCtxs.wakePager {c dom : Nat} (h : KeepsCtxs f s t) : KeepsCtxs f s (t.wakePager c dom) := by
  unfold State.wakePager
  split
  · exact KeepsCtxs.hwWake hf h
  · exact h

/-- A context's halt is reported without a change of any context (21 R452). -/
theorem KeepsCtxs.haltReport {c x dom : Nat} (h : KeepsCtxs f s t) : KeepsCtxs f s (t.haltReport c x dom) :=
  KeepsCtxs.wakePager hf (h.same rfl)

end

/-- Neither a vector entry's old values nor a wake enter a pending reload trap. -/
theorem hwBlind_reloadTrap : HwBlind Ctx.reloadTrap := ⟨fun _ _ => rfl, fun _ _ _ => rfl⟩

/-! ### What a context issues (07 R164, R176) -/

/-- Trap entry, and the halt of a trap within a trap, leave a pending reload trap as it is (07 R180, R181). -/
theorem takeTrap_reloadTrap (s : State) (cause : Nat) (info : Word) :
    ((takeTrap s cause info).ctxAt s.focus.core s.focus.ctx).reloadTrap = s.cur.reloadTrap := by
  unfold takeTrap
  dsimp only
  split
  · refine (KeepsCtxs.haltReport hwBlind_reloadTrap .refl |>.ctxAt ..).trans ?_
    rw [State.setCur, State.ctxAt_setCtx_same]
  · rw [State.setCur, State.ctxAt_setCtx_same]

theorem chargeIssue_reloadTrap (s : State) : (chargeIssue s).cur.reloadTrap = s.cur.reloadTrap := by
  change (s.setCur { s.cur with lastIssue := some s.cycle }).cur.reloadTrap = _
  rw [State.cur_setCur]

section
variable {ex : Instr → State → Host.Outcome State Fault Refusal} {s t : State}

/-- A word that ends in a trap leaves a pending reload trap as it is. -/
theorem finish_trap (s : State) (cause : Nat) (info : Word) :
    ∃ u, finish s (.error (.trap cause info)) = .next u ∧ u.last = .stopped (.trap cause info) ∧
      (u.ctxAt s.focus.core s.focus.ctx).reloadTrap = s.cur.reloadTrap :=
  ⟨_, rfl, rfl, takeTrap_reloadTrap s cause info⟩

/-- A pending reload trap comes before the bundle, and is pending no longer (07 R176). -/
theorem runAtPc_reloadTrap {cause : Nat} {info : Word} (h : s.cur.reloadTrap = some (cause, info)) :
    ∃ u, runAtPc ex s = .next u ∧ u.last = .stopped (.trap cause info) ∧
      (u.ctxAt s.focus.core s.focus.ctx).reloadTrap = none := by
  obtain ⟨u, hu, hl, hr⟩ := finish_trap (s.setCur { s.cur with reloadTrap := none }) cause info
  rw [State.cur_setCur] at hr
  refine ⟨u, ?_, hl, hr⟩
  unfold runAtPc
  rw [h]
  exact hu

theorem runAtPc_bundle (h : s.cur.reloadTrap = none) {b : Bundle} (hb : (fetchBundle s).ans = .ok (b, t)) :
    runAtPc ex s = runBundle ex t b := by
  unfold runAtPc
  rw [h, hb]

theorem issueCtx_reloadTrap {c x cause : Nat} {info : Word} (h : (s.ctxAt c x).reloadTrap = some (cause, info)) :
    ∃ u, issueCtx ex c x s = .next u ∧ u.last = .stopped (.trap cause info) ∧ (u.ctxAt c x).reloadTrap = none :=
  runAtPc_reloadTrap ((chargeIssue_reloadTrap (focusOn s c x)).trans h)

theorem issueCtx_bundle {c x : Nat} (h : (s.ctxAt c x).reloadTrap = none) {b : Bundle}
    (hb : (fetchBundle (chargeIssue (focusOn s c x))).ans = .ok (b, t)) : issueCtx ex c x s = runBundle ex t b :=
  runAtPc_bundle ((chargeIssue_reloadTrap (focusOn s c x)).trans h) hb

/-- An operation completes as its bundle runs, and pays for nothing (log 6). -/
theorem completeCtx_bundle {c x : Nat} {u : State} (h : (s.ctxAt c x).reloadTrap = none) {b : Bundle}
    (hb : (fetchBundle (focusOn s c x)).ans = .ok (b, t)) (hu : runBundle ex t b = .next u) :
    completeCtx ex c x s = .next (u.completed c x) := by
  have hrun : runAtPc ex (focusOn s c x) = .next u := (runAtPc_bundle (s := focusOn s c x) h hb).trans hu
  rw [completeCtx, hrun]

/-! ### The turn of a core (07 R164, R166) -/

theorem turnStep_completer {x : Nat} (hg : (s.coreAt s.turn).gated = false)
    (h : (s.coreAt s.turn).completer = some x) : turnStep ex s = completeCtx ex s.turn x s := by
  simp only [turnStep, hg, h, Bool.false_eq_true, if_false]

theorem turnStep_issue {x : Nat} (hg : (s.coreAt s.turn).gated = false) (h : (s.coreAt s.turn).completer = none)
    (hp : pickCtx (({ s with turn := s.turn + 1 }.holdSpent s.turn).coreAt s.turn) s.cycle = some x) :
    turnStep ex s = issueCtx ex s.turn x ({ s with turn := s.turn + 1 }.holdSpent s.turn) := by
  simp only [turnStep, hg, h, hp, Bool.false_eq_true, if_false]

theorem turnStep_rest (hg : (s.coreAt s.turn).gated = false) (h : (s.coreAt s.turn).completer = none)
    (hp : pickCtx (({ s with turn := s.turn + 1 }.holdSpent s.turn).coreAt s.turn) s.cycle = none) :
    turnStep ex s = .next { { s with turn := s.turn + 1 }.holdSpent s.turn with last := .done } := by
  simp only [turnStep, hg, h, hp, Bool.false_eq_true, if_false]

theorem step_turn (ha : s.agenda = []) (ht : s.turn < 1024) : step s = turnStep exec s := by
  unfold Machine.step
  rw [ha]
  exact if_pos ht

theorem step_agenda {e : Instr} {r : List Instr} (ha : s.agenda = e :: r) : step s = exec e { s with agenda := r } := by
  unfold Machine.step
  rw [ha]
end

/-- Settles O4: a hardware step that has come about, else the turn, by what the core's contexts have to do. -/
theorem stepRunsWhatIsNext : Obligations.StepRunsWhatIsNext := by
  refine ⟨fun s t x ha ht hg => ⟨fun hc hp hr b hb => ?_, fun hc hp cause info hr => ?_, fun hc hp => ?_,
    fun hc hr i w len u hb hu => ?_⟩, fun s e r ha => step_agenda ha⟩
  · have hs : step s = runBundle exec t b := by
      rw [step_turn ha ht, turnStep_issue hg hc hp, issueCtx_bundle hr hb]
    exact ⟨hs, fun i w len e => by rw [hs, e]; rfl⟩
  · rw [step_turn ha ht, turnStep_issue hg hc hp]
    exact issueCtx_reloadTrap hr
  · exact (step_turn ha ht).trans (turnStep_rest hg hc hp)
  · have hrun : runBundle exec t (.lone i w len) = .next u := hu
    rw [step_turn ha ht, turnStep_completer hg hc, completeCtx_bundle hr hb hrun]

end Sys2Proof.Safety
end
section
/-! PROOF. Flags and exact numbers (04 R85, R89, R90): O16 -/

namespace Sys2Proof.Machine

/-! ### Flags (04 R89, R90) -/

/-- The enables stand in kfpe from bit 8 on (04 R89). -/
theorem enabledOf_eq (k : Word) : enabledOf k = BitVec.ofNat 5 (k.toNat / 256) :=
  BitVec.eq_of_toNat_eq (by simp [enabledOf, bitsW, fieldN])

theorem raiseFlags_sticky {f : Fl} {s : State} (h : f &&& enabledOf s.cur.kfpe = 0) :
    raiseFlags f s = .ok (s.setCur { s.cur with kfpe := orFlags s.cur.kfpe f }) := by
  unfold raiseFlags
  exact if_neg (not_not_intro h)

theorem raiseFlags_enabled {f : Fl} {s : State} (h : f &&& enabledOf s.cur.kfpe ≠ 0) :
    raiseFlags f s = .error (.trap 8 (f.setWidth 64)) := by
  unfold raiseFlags
  exact if_pos h

/-! ### Rounding a number that the layout holds (04 R76, R85) -/

/-- Nothing is discarded where the last place is the layout's own, whatever the rounding. -/
theorem roundShift_zero (rm x : Nat) (neg : Bool) (m : Nat) : roundShift rm x neg m 0 = (m, false) := by
  simp [roundShift]

/-- A zero keeps its sign. -/
theorem Fmt.round_zero (f : Fmt) (e4n : Bool) (rm x : Nat) (n : Bool) (e : Int) :
    f.round e4n rm x (.fin n 0 e) = (f.signed n 0, 0) := by
  simp [Fmt.round]

/-- A number whose last place is the layout's own, `k` above the least, keeps its bits: none is discarded. -/
theorem Fmt.round_exact (f : Fmt) (e4n : Bool) (rm x : Nat) (n : Bool) {m k : Nat} (hm : m ≠ 0)
    (hplace : max ((log2N m : Int) + (f.emin + k - f.fb)) f.emin = f.emin + k) (hmax : k * 2 ^ f.fb + m ≤ f.maxCode) :
    f.round e4n rm x (.fin n m (f.emin + k - f.fb)) = (f.signed n (k * 2 ^ f.fb + m), 0) := by
  simp [Fmt.round, hm, hplace, roundShift_zero, Nat.not_lt.mpr hmax]

/-- A number below the least normal one, zeros too: its last place is the least (04 R76). -/
theorem Fmt.round_subnormal (f : Fmt) (e4n : Bool) (rm x : Nat) (n : Bool) {F : Nat} (hF : F < 2 ^ f.fb)
    (hmax : F ≤ f.maxCode) : f.round e4n rm x (.fin n F (f.emin - f.fb)) = (f.signed n F, 0) := by
  by_cases h0 : F = 0
  · rw [h0, f.round_zero]
  · have hlog : log2N F < f.fb := (Nat.log2_lt h0).mpr hF
    have h := f.round_exact e4n rm x n (k := 0) h0 (by omega) (by omega)
    simpa using h

/-- A normal number, its hidden bit in front of its fraction (04 R76). -/
theorem Fmt.round_normal (f : Fmt) (e4n : Bool) (rm x : Nat) (n : Bool) {k F : Nat} (hF : F < 2 ^ f.fb)
    (hmax : (k + 1) * 2 ^ f.fb + F ≤ f.maxCode) :
    f.round e4n rm x (.fin n (2 ^ f.fb + F) (f.emin + k - f.fb)) = (f.signed n ((k + 1) * 2 ^ f.fb + F), 0) := by
  have hm : 2 ^ f.fb + F ≠ 0 := by positivity
  have hlog : log2N (2 ^ f.fb + F) = f.fb := (Nat.log2_eq_iff hm).mpr ⟨by omega, by omega⟩
  have hcode : (k + 1) * 2 ^ f.fb + F = k * 2 ^ f.fb + (2 ^ f.fb + F) := by ring
  rw [hcode] at hmax ⊢
  exact f.round_exact e4n rm x n hm (by omega) hmax

/-! ### The fields of a code (04 R76) -/

/-- A code is its sign, exponent and fraction fields. -/
theorem Fmt.signed_fields (f : Fmt) {c : Nat} (hc : c < 2 ^ (f.eb + f.fb + 1)) :
    f.signed (fieldN c (f.eb + f.fb) 1 == 1) (fieldN c f.fb f.eb * 2 ^ f.fb + fieldN c 0 f.fb) = c := by
  have hmag : fieldN c f.fb f.eb * 2 ^ f.fb + fieldN c 0 f.fb = c % f.signBit := by
    rw [Fmt.signBit, Nat.add_comm f.eb, Nat.pow_add, Nat.mod_mul, fieldN, fieldN, Nat.pow_zero, Nat.div_one, Nat.mul_comm,
      Nat.add_comm]
  have hsign : fieldN c (f.eb + f.fb) 1 = c / f.signBit :=
    Nat.mod_eq_of_lt (Nat.div_lt_of_lt_mul hc)
  have hlt : c / f.signBit < 2 := Nat.div_lt_of_lt_mul hc
  have hsplit := Nat.div_add_mod c f.signBit
  rw [hmag, hsign, Fmt.signed]
  obtain h | h : c / f.signBit = 0 ∨ c / f.signBit = 1 := by omega
  · rw [h] at hsplit ⊢
    simpa using hsplit
  · rw [h] at hsplit ⊢
    simpa using hsplit

/-- An exponent field that is not all ones leaves the code below infinity's. -/
theorem Fmt.le_maxCode (f : Fmt) (hi : f.ieee = true) {E F : Nat} (hE : E < 2 ^ f.eb - 1) (hF : F < 2 ^ f.fb) :
    E * 2 ^ f.fb + F ≤ f.maxCode := by
  have hstep : (E + 1) * 2 ^ f.fb ≤ f.infCode := Nat.mul_le_mul_right _ hE
  rw [Nat.add_mul] at hstep
  rw [Fmt.maxCode, if_pos hi]
  omega

/-- The value of a code whose exponent field is zero. -/
theorem Fmt.value_subnormal (f : Fmt) (hn : f.nan7F = false) {c : Nat} (hE : fieldN c f.fb f.eb ≠ 2 ^ f.eb - 1)
    (h0 : fieldN c f.fb f.eb = 0) :
    f.value c = .fin (fieldN c (f.eb + f.fb) 1 == 1) (fieldN c 0 f.fb) (f.emin - f.fb) := by
  rw [h0] at hE
  simp [Fmt.value, hn, h0, hE]

/-- The value of a code whose exponent field is neither zero nor all ones. -/
theorem Fmt.value_normal (f : Fmt) (hn : f.nan7F = false) {c k : Nat} (hE : fieldN c f.fb f.eb ≠ 2 ^ f.eb - 1)
    (hk : fieldN c f.fb f.eb = k + 1) :
    f.value c = .fin (fieldN c (f.eb + f.fb) 1 == 1) (2 ^ f.fb + fieldN c 0 f.fb) (f.emin + k - f.fb) := by
  rw [hk] at hE
  have he : ((k + 1 : Nat) : Int) - f.bias - f.fb = f.emin + k - f.fb := by
    rw [Fmt.emin]
    omega
  simp only [Fmt.value, hn, hk, he]
  simp [hE]

/-- Each finite number of a layout with infinities rounds to its own code, under every rounding and with no flag
(04 R85). -/
theorem Fmt.round_value (f : Fmt) (hi : f.ieee = true) (hn : f.nan7F = false) (e4n : Bool) (rm x : Nat) {c : Nat}
    (hc : c < 2 ^ (f.eb + f.fb + 1)) (hfin : fieldN c f.fb f.eb ≠ 2 ^ f.eb - 1) :
    f.round e4n rm x (f.value c) = (c, 0) := by
  have hE : fieldN c f.fb f.eb < 2 ^ f.eb := Nat.mod_lt _ (by positivity)
  have hF : fieldN c 0 f.fb < 2 ^ f.fb := Nat.mod_lt _ (by positivity)
  have hmax : fieldN c f.fb f.eb * 2 ^ f.fb + fieldN c 0 f.fb ≤ f.maxCode := f.le_maxCode hi (by omega) hF
  have hcode := f.signed_fields hc
  cases hk : fieldN c f.fb f.eb with
  | zero =>
    rw [hk, Nat.zero_mul, Nat.zero_add] at hmax hcode
    rw [f.value_subnormal hn hfin hk, f.round_subnormal e4n rm x _ hF hmax, hcode]
  | succ k =>
    rw [hk] at hmax hcode
    rw [f.value_normal hn hfin hk, f.round_normal e4n rm x _ hF hmax, hcode]

/-- Settles O16: the flags by whether one of them is enabled, the numbers by `Fmt.round_value`. -/
theorem flagsAndExactNumbers : Obligations.FlagsAndExactNumbers := by
  refine ⟨fun f s => ?_, fun c rm hc hfin => ?_⟩
  · rw [← enabledOf_eq]
    exact ⟨fun h => ⟨_, raiseFlags_sticky h, rfl⟩, raiseFlags_enabled⟩
  · rw [f32Val, Nat.mod_eq_of_lt hc]
    exact f32.round_value rfl rfl false rm 0 hc hfin

end Sys2Proof.Machine
end

section
/-! PROOF. The dispatcher's words (06 R143 to R160): what a run of parts that end well gives, and O32 -/

namespace Sys2Proof.Machine
open Sys2Proof.Safety

/-! ### Runs whose parts end well -/

/-- A run whose first part is done gives what the rest gives. -/
theorem Run.step {α β : Type} {m : Run α} {f : α → Run β} {a : α} {r : Except Stop β} (h : m.ans = .ok a)
    (hf : (f a).ans = r) : (m >>= f).ans = r := (Run.ans_bind_ok h f).trans hf

/-- The same for a first part that makes no access. -/
theorem Run.stepLift {α β : Type} {m : Except Stop α} {f : α → Run β} {a : α} {r : Except Stop β} (h : m = .ok a)
    (hf : (f a).ans = r) : ((liftM m : Run α) >>= f).ans = r := Run.step (m := liftM m) h hf

/-- A legal word that accesses global memory completes when its run ends well. -/
theorem Completes.of_run {i : Instr} {s t : State} {b : State → Run State} (hl : legal s i = true)
    (m : State → Host.Outcome State Fault Refusal) (he : exec i s = m s) (hm : m s = guardedRun i s b)
    (h : (b s).ans = .ok t) : Completes i s t :=
  (he.trans hm).trans (guardedRun_completes hl h)

/-- The hardware's write of bytes at an address that it finds. -/
theorem hvWrite_ok {va pa : Nat} {b : List Byte} {s t : State} (h : hvLook true va s = (.ok pa, t)) :
    (hvWrite va b s).ans = .ok (t.putGlobal va pa b) := by
  refine Run.step (a := (pa, t)) ?_ rfl
  rw [held, h]
  rfl

/-! ### Writes of frames -/

@[simp] theorem putPhys_mem (s : State) (pa : Nat) (b : List Byte) : (s.putPhys pa b).mem = memWrite s.mem pa b := by
  unfold State.putPhys
  split <;> rfl

@[simp] theorem putGlobal_mem (s : State) (va pa : Nat) (b : List Byte) :
    (s.putGlobal va pa b).mem = memWrite s.mem pa b := putPhys_mem s pa b

@[simp] theorem putGlobal_entered (s : State) (va pa : Nat) (b : List Byte) :
    (s.putGlobal va pa b).entered = s.entered := by
  unfold State.putGlobal State.putPhys
  split <;> rfl

/-- The value that a write of another range of the frames leaves (log 5). -/
theorem memLe_memWrite_apart {m : List Host.Cell} (h : Memory.wf m = true) {a x n : Nat} {b : List Byte}
    (hx : x + n ≤ a ∨ a + b.length ≤ x) : memLe (memWrite m a b) x n = memLe m x n := by
  rw [memLe, memRead_memWrite_apart h hx, memLe]

/-- A doubleword reads back as the value that was written. -/
theorem memLe_memWrite_dword {m : List Host.Cell} (h : Memory.wf m = true) (a v : Nat) :
    memLe (memWrite m a (leBytes 8 v)) a 8 = v % 2 ^ 64 := memLe_memWrite_same h a 8 v

/-! ### Task ids and graphs (06 R144, R157) -/

theorem takeTaskId_of_dom {s : State} {dom : Nat} {d : Domain} (h : s.dom? dom = some d) :
    takeTaskId dom s = (d.nextTask, s.setDom dom (some { d with nextTask := (d.nextTask + 1) % 2 ^ 48 })) := by
  rw [takeTaskId, h]
  rfl

theorem graphEnter_eq (s : State) (id : Nat) : s.graphEnter id =
    { s with graphs := s.graphs.map (fun x => if x.id = id then { x with live := x.live + 1 } else x) } := by
  simp only [State.graphEnter, beq_iff_eq]

/-- An issuer that no task record started opens a graph of the record's domain (06 R144; log 93). -/
theorem entryGraph_opens {s : State} (dom : Nat) (h : s.cur.task = 0) : entryGraph dom s =
    (s.nextGraph, { s with graphs := s.graphs ++ [⟨s.nextGraph, dom, 1, none⟩], nextGraph := s.nextGraph + 1 }) :=
  if_pos h

/-- A task's record enters the graph of its issuer (06 R144). -/
theorem entryGraph_enters {s : State} (dom : Nat) (h : s.cur.task ≠ 0) : entryGraph dom s =
    (s.cur.graph.toNat, { s with graphs := s.graphs.map (fun x =>
      if x.id = s.cur.graph.toNat then { x with live := x.live + 1 } else x) }) := by
  rw [entryGraph, if_neg h, graphEnter_eq]

/-- The two writes of an entry that find their bytes (06 R144, R157). -/
theorem enterTask_ok {p : Nat} {b : List Byte} {s v t t' : State} {g pa pa' : Nat} {id : Nat} {u : State}
    (hid : takeTaskId (recDom b) s = (id, u)) (hg : entryGraph (recDom b) u = (g, v))
    (hpa : hvLook true (p + 104) v = (.ok pa, t))
    (hpa' : hvLook true (p + 72) (t.putGlobal (p + 104) pa (leBytes 8 id)) = (.ok pa', t')) :
    (enterTask p b s).ans = .ok (id, (t'.putGlobal (p + 72) pa' (leBytes 8 g)).enters p (recDom b)) := by
  unfold enterTask
  rw [hid]
  dsimp only
  rw [hg]
  exact Run.step (hvWrite_ok hpa) (Run.step (hvWrite_ok hpa') rfl)

/-- What memory holds after the two writes of an entry, where neither bears on the other. -/
theorem enterTask_mem {v t t' : State} {va va' pa pa' : Nat} (n g : Nat) (hv : MemOk v)
    (hpa : hvLook true va v = (.ok pa, t)) (hpa' : hvLook true va' (t.putGlobal va pa (leBytes 8 n)) = (.ok pa', t')) :
    let m := (t'.putGlobal va' pa' (leBytes 8 g)).mem
    memLe m pa' 8 = g % 2 ^ 64 ∧
      (t'.mem = (t.putGlobal va pa (leBytes 8 n)).mem → pa' + 8 ≤ pa → memLe m pa 8 = n % 2 ^ 64) := by
  have ht : MemOk t := hv.hvLook.of_eq hpa
  have ht' : MemOk t' := ht.putGlobal.hvLook.of_eq hpa'
  simp only [putGlobal_mem]
  refine ⟨memLe_memWrite_dword ht'.1 .., fun e hle => ?_⟩
  rw [memLe_memWrite_apart ht'.1 (by rw [leBytes_length]; omega), e]
  exact memLe_memWrite_dword ht.1 ..

/-- Settles O32: SPAWN by its parts in their order, the entry by its two writes, the task ids by the domain's record. -/
theorem spawnEntersTheTask : Obligations.SpawnEntersTheTask := by
  refine ⟨fun d a s t u r v w x p b id hl hr he hrel hent hpush hw => ?_, fun s p b dm hd => ?_, fun s dom d hd => ?_⟩
  · exact Completes.of_run hl (execSpawn d a) rfl rfl <| Run.stepLift hr <| Run.step he <| Run.stepLift hrel <| Run.step hent <|
      Run.stepLift hpush hw
  · intro g u v pa t pa' t' hpa w hpa'
    have hg : entryGraph (recDom b) u = (g, v) := by
      by_cases h : s.cur.task = 0
      · simp only [g, v, if_pos h]
        exact entryGraph_opens (s := u) _ h
      · simp only [g, v, if_neg h]
        exact entryGraph_enters (s := u) _ h
    refine ⟨_, enterTask_ok (takeTaskId_of_dom hd) hg hpa hpa', ?_, fun hs => ?_⟩
    · rw [State.enters, putGlobal_entered]
    · have hv : MemOk v := by
        simp only [v]
        split
        · exact hs.same rfl rfl
        · exact hs.same rfl rfl
      exact enterTask_mem dm.nextTask g hv hpa hpa'
  · rw [takeTaskId_of_dom hd]
    exact ⟨rfl, State.dom?_setDom_same .., fun other h => sget_sset_other _ _ _ h⟩

end Sys2Proof.Machine
end

section
/-! PROOF. The dispatcher's settings (06 R158 to R160): O35 -/

namespace Sys2Proof.Machine
open Sys2Proof.Safety

/-! ### The table of buckets (06 R158) -/

theorem sset_sset {α : Type} (m : SMap α) (k : Nat) (v w : α) : sset (sset m k v) k w = sset m k w := by
  induction m with
  | nil => simp [sset]
  | cons p r ih =>
    obtain ⟨k', v'⟩ := p
    by_cases h : k = k'
    · simp [sset, h]
    · by_cases hlt : k < k'
      · simp [sset, h, hlt]
      · simp [sset, h, hlt, ih]

theorem Core.setCtx_setCtx (k : Core) (x : Nat) (v w : Ctx) : (k.setCtx x v).setCtx x w = k.setCtx x w := by
  simp only [Core.setCtx, sset_sset]

theorem State.setCore_setCore (s : State) (c : Nat) (k l : Core) : (s.setCore c k).setCore c l = s.setCore c l := by
  simp only [State.setCore, sset_sset]

theorem State.setCtx_setCtx (s : State) (c x : Nat) (v w : Ctx) : (s.setCtx c x v).setCtx c x w = s.setCtx c x w := by
  rw [State.setCtx, State.coreAt_setCtx_same, Core.setCtx_setCtx, State.setCtx, State.setCore_setCore, State.setCtx]

theorem State.setCur_setCur (s : State) (v w : Ctx) : (s.setCur v).setCur w = s.setCur w := State.setCtx_setCtx ..

/-- The task masks m0 to m3, given by number. -/
def taskMasks (m : SMap (BitVec 512)) (f : Nat → BitVec 512) : SMap (BitVec 512) :=
  sset (sset (sset (sset m 0 (f 0)) 1 (f 1)) 2 (f 2)) 3 (f 3)

theorem taskMasks_congr (m : SMap (BitVec 512)) {f g : Nat → BitVec 512} (h : ∀ j, j < 4 → f j = g j) :
    taskMasks m f = taskMasks m g := by
  rw [taskMasks, h 0 (by omega), h 1 (by omega), h 2 (by omega), h 3 (by omega), taskMasks]

theorem sget_taskMasks (m : SMap (BitVec 512)) (f : Nat → BitVec 512) {j : Nat} (hj : j < 4) :
    sget 0 (taskMasks m f) j = f j := by
  interval_cases j <;> simp [taskMasks, sget_sset]

/-- BKTSEL's writes of the four masks are one change of the context. -/
theorem setMasks_eq (s : State) (f : Nat → BitVec 512) :
    [0, 1, 2, 3].foldl (fun s j => s.setCur { s.cur with m := sset s.cur.m j (f j) }) s =
      s.setCur { s.cur with m := taskMasks s.cur.m f } := by
  simp only [List.foldl_cons, List.foldl_nil, State.cur_setCur, State.setCur_setCur, taskMasks]

/-- The shape values of a record, as BKTSEL takes them, read back by number. -/
theorem shapeValues_getD (b : List Byte) {j : Nat} (hj : j < 4) :
    ((upTo 4).map (fun j => leAt b (80 + 4 * j) 4)).getD j 0 = leAt b (80 + 4 * j) 4 := by
  simp [upTo, List.getD_eq_getElem?_getD, hj]

section
variable {tab b : List Byte} {nv : Nat} (hnv : nv ≤ 4)
include hnv

/-- A bucket passes when its bounds hold every shape value. -/
theorem bucketHolds_iff (i : Nat) :
    (upTo nv).all (fun j => decide (((upTo 4).map (fun j => leAt b (80 + 4 * j) 4)).getD j 0 ≤
      leAt tab (32 * i + 4 * j) 4)) = true ↔ ∀ j, j < nv → leAt b (80 + 4 * j) 4 ≤ leAt tab (32 * i + 4 * j) 4 := by
  rw [upTo, List.all_eq_true]
  simp only [List.mem_range]
  refine forall₂_congr fun j hj => ?_
  rw [shapeValues_getD b (by omega), decide_eq_true_eq]

theorem bucketPick_first {i : Nat} (hi : i < 16)
    (h : ∀ j, j < nv → leAt b (80 + 4 * j) 4 ≤ leAt tab (32 * i + 4 * j) 4)
    (hlt : ∀ k, k < i → ¬∀ j, j < nv → leAt b (80 + 4 * j) 4 ≤ leAt tab (32 * k + 4 * j) 4) :
    bucketPick tab ((upTo 4).map (fun j => leAt b (80 + 4 * j) 4)) nv = some i := by
  refine List.find?_range_eq_some.mpr ⟨(bucketHolds_iff hnv i).mpr h, List.mem_range.mpr hi, fun k hk => ?_⟩
  rw [Bool.not_eq_true', ← Bool.not_eq_true]
  exact fun e => hlt k hk ((bucketHolds_iff hnv k).mp e)

theorem bucketPick_none
    (h : ∀ i, i < 16 → ¬∀ j, j < nv → leAt b (80 + 4 * j) 4 ≤ leAt tab (32 * i + 4 * j) 4) :
    bucketPick tab ((upTo 4).map (fun j => leAt b (80 + 4 * j) 4)) nv = none := by
  refine List.find?_range_eq_none.mpr fun i hi => ?_
  rw [Bool.not_eq_true', ← Bool.not_eq_true]
  exact fun e => h i hi ((bucketHolds_iff hnv i).mp e)
end

/-! ### The words -/

/-- What reading a field leaves of a part that no context belongs to. -/
theorem readReg_keeps {β : Type} (p : State → β) (hp : ∀ s v, p (State.setCur s v) = p s) {f : Nat} {s t : State}
    {v : Word} (h : readReg f s = .ok (v, t)) : p t = p s := by
  obtain rfl | ⟨x, y, rfl⟩ := readReg_frame h
  · rfl
  · exact hp ..

theorem readTwo_domains {a b : BitVec 6} {s t : State} {x y : Word} (h : readTwo a b s = .ok (x, y, t)) :
    t.domains = s.domains := by
  obtain ⟨⟨_, u⟩, hx, h⟩ := bind_ok.mp h
  obtain ⟨⟨_, v⟩, hy, h⟩ := bind_ok.mp h
  cases h
  refine Eq.trans ?_ (readReg_keeps State.domains (fun _ _ => rfl) hx)
  unfold readFrom at hy
  split at hy
  · obtain ⟨_, _, e⟩ := bind_ok.mp hy
    cases e
    rfl
  · exact readReg_keeps State.domains (fun _ _ => rfl) hy

/-- The mask of a shape value: its low bits, and all of them for a value that the record does not have. -/
def shapeMask (nv : Nat) (b : List Byte) (j : Nat) : BitVec 512 :=
  if nv ≤ j then BitVec.allOnes 512 else BitVec.ofNat 512 (2 ^ min (leAt b (80 + 4 * j) 4) 512 - 1)

/-- BKTSEL, once it has read the table and the record: the masks and the value by what it has picked. -/
theorem bktsel_completes {d a : BitVec 6} {s t r u w : State} {x v : Word} {tab b : List Byte} {f : Nat → BitVec 512}
    (hl : legal s (.bktsel d a) = true) (hr : readReg a.toNat s = .ok (x, t)) (hx : x.toNat % 32 = 0)
    (hq : t.cur.vq.any (writesTaskMask t.cur.vleft) = false) (htab : (loadSpan x.toNat 512 t).ans = .ok (tab, r))
    (hrec : (runningRec r).ans = .ok (b, u))
    (hpick : (∃ i, bucketPick tab ((upTo 4).map (fun j => leAt b (80 + 4 * j) 4)) (min (recNv b) 4) = some i ∧
        f = shapeMask (min (recNv b) 4) b ∧ v = wd (leAt tab (32 * i + 16) 8)) ∨
      bucketPick tab ((upTo 4).map (fun j => leAt b (80 + 4 * j) 4)) (min (recNv b) 4) = none ∧ f = (fun _ => 0) ∧
        v = BitVec.allOnes 64)
    (hw : writeReg d.toNat v (u.setCur { u.cur with m := taskMasks u.cur.m f }) = .ok w) :
    Completes (.bktsel d a) s w := by
  refine Completes.of_run hl (execBktsel d a) rfl rfl <| Run.stepLift hr ?_
  dsimp only
  rw [if_neg (not_not.mpr hx), hq]
  refine Run.step htab <| Run.step hrec ?_
  dsimp only
  rcases hpick with ⟨i, hi, rfl, rfl⟩ | ⟨hi, rfl, rfl⟩
  · rw [hi, ← hw]
    dsimp only
    rw [setMasks_eq, taskMasks_congr (g := shapeMask (min (recNv b) 4) b)]
    · rfl
    · intro j hj
      have hones : (-1 : BitVec 512) = BitVec.allOnes 512 := BitVec.neg_one_eq_allOnes
      rw [shapeValues_getD b hj, hones, shapeMask]
  · rw [hi, ← hw]
    dsimp only
    rw [setMasks_eq]
    rfl

theorem stealctl_completes {d a : BitVec 6} {s t w : State} {x : Word} (hl : legal s (.stealctl d a) = true)
    (hr : readReg a.toNat s = .ok (x, t))
    (hw : writeReg d.toNat (t.core.steal.setWidth 64) (t.setCoreCur { t.core with steal := x.setWidth 4 }) = .ok w) :
    Completes (.stealctl d a) s w := by
  refine (guarded_completes (b := _) hl ?_ : execStealctl d a s = _)
  exact bind_ok.mpr ⟨_, hr, hw⟩

/-- A field that reaches to the top of a register is 0 when nothing stands above its lowest bit. -/
theorem bitsW_high (x : Word) {lo : Nat} (h : lo ≤ 64) : bitsW x 63 lo = x.toNat / 2 ^ lo := by
  have hx : x.toNat / 2 ^ lo < 2 ^ (64 - lo) := by
    rw [Nat.div_lt_iff_lt_mul (by positivity), ← Nat.pow_add, Nat.sub_add_cancel h]
    exact x.isLt
  exact Nat.mod_eq_of_lt hx

section
variable {d a b : BitVec 6} {s t : State} {x y : Word} (hl : legal s (.budget d a b) = true)
  (hr : readTwo a b s = .ok (x, y, t))
include hl hr

/-- BUDGET's selector and amount are in range: what it asks before it sets the activity (06 R160). -/
theorem budget_completes {w : State}
    (h : bitsW x 31 19 < budgetInstances (bitsW x 18 16) ∧ (t.dom? (bitsW x 15 0)).isSome ∧ bitsW x 63 38 = 0 ∧
      bitsW y 63 48 = 0)
    (hw : let old := t.budget (bitsW x 15 0) (bitsW x 18 16) (bitsW x 31 19)
      writeReg d.toNat (wd old.nextAmount) (t.setBudget (bitsW x 15 0) (bitsW x 18 16) (bitsW x 31 19)
        { old with nextAmount := bitsW y 47 0, nextPeriod := bitsW x 37 32 + 1 }) = .ok w) :
    Completes (.budget d a b) s w := by
  obtain ⟨hinst, hdom, hx, hy⟩ := h
  refine (guarded_completes (b := _) hl ?_ : execBudget d a b s = _)
  refine bind_ok.mpr ⟨_, hr, ?_⟩
  dsimp only
  rw [if_neg, ← hw]
  simp [hinst, Option.isSome_iff_ne_none.mp hdom, hx, hy]

theorem budget_traps
    (h : ¬(bitsW x 31 19 < budgetInstances (bitsW x 18 16) ∧ (t.dom? (bitsW x 15 0)).isSome ∧ bitsW x 63 38 = 0 ∧
      bitsW y 63 48 = 0)) : Traps (.budget d a b) s 12 x := by
  refine (guarded_stops (b := _) (st := .trap 12 x) hl ?_ (fun _ => nofun) : execBudget d a b s = _)
  rw [hr]
  refine if_pos (by_contra fun hn => h ?_)
  simpa [not_or, Option.isSome_iff_ne_none] using hn
end

/-- Settles O35: BKTSEL by the first bucket that passes, the other two by their parts. -/
theorem dispatcherSettings : Obligations.DispatcherSettings := by
  refine ⟨fun d a s t r u x tab b hl hr hx hq htab hrec => ?_, fun d a b s t w x y => ⟨fun hl hr hw => ?_, fun hl hr => ?_⟩⟩
  · intro nv sv holds
    have hnv : nv ≤ 4 := Nat.min_le_right ..
    refine ⟨fun i hi hh hlt => ⟨_, fun j => sget_taskMasks u.cur.m (shapeMask nv b), fun w hw => ?_⟩,
      fun hh => ⟨_, fun j => sget_taskMasks u.cur.m (fun _ => 0), fun w hw => ?_⟩⟩
    · exact bktsel_completes hl hr hx hq htab hrec (.inl ⟨i, bucketPick_first hnv hi hh hlt, rfl, rfl⟩) hw
    · exact bktsel_completes hl hr hx hq htab hrec (.inr ⟨bucketPick_none hnv hh, rfl, rfl⟩) hw
  · exact stealctl_completes hl hr hw
  · intro dom res inst okay
    have hokay : okay ↔ bitsW x 31 19 < budgetInstances (bitsW x 18 16) ∧ (t.dom? (bitsW x 15 0)).isSome ∧
        bitsW x 63 38 = 0 ∧ bitsW y 63 48 = 0 := by
      rw [bitsW_high x (by omega), bitsW_high y (by omega), bitsW_low x 15, State.dom?, readTwo_domains hr]
      rfl
    rw [hokay]
    refine ⟨fun h hw => budget_completes hl hr h ?_, budget_traps hl hr⟩
    simp only [bitsW_low]
    exact hw

end Sys2Proof.Machine
end

section
/-! PROOF. Dependence counters and wakes (06 R152, R153, R155): O34 -/

namespace Sys2Proof.Machine
open Sys2Proof.Safety

/-! ### What writes of memory and pushes leave of a core

A part `f` of a core that the writes of memory do not enter: those of local memory, of spilled deques and of frames,
which end what stashes, first-level caches and vector entries hold of the place. -/

/-- `f` reads none of the parts of a core that writes of memory change. -/
def WriteBlind {β : Type} (f : Core → β) : Prop :=
  ∀ (k : Core) x m p a b l, f { k with ctxs := x, mem := m, lpoison := p, spill := a, stash := b, l1 := l } = f k

/-- Every core of the package has the same `f`. -/
def KeepsCores {β : Type} (f : Core → β) (s t : State) : Prop := ∀ c, f (t.coreAt c) = f (s.coreAt c)

section
variable {β : Type} {f : Core → β} {s t u : State}

theorem KeepsCores.refl : KeepsCores f s s := fun _ => rfl

theorem KeepsCores.same (h : KeepsCores f s t) (e : u.cores = t.cores) : KeepsCores f s u := fun c => by
  rw [State.coreAt, e]
  exact h c

theorem KeepsCores.setCore (h : KeepsCores f s t) {c : Nat} {k : Core} (hk : f k = f (t.coreAt c)) :
    KeepsCores f s (t.setCore c k) := fun d => by
  rw [State.coreAt_setCore]
  split
  · next e => exact hk.trans (e ▸ h c)
  · exact h d

theorem KeepsCores.mapCores (h : KeepsCores f s t) {g : Nat × Core → Nat × Core} (hu : u.cores = t.cores.map g)
    (hg : ∀ q, (g q).1 = q.1 ∧ f (g q).2 = f q.2) : KeepsCores f s u := fun c => by
  refine Eq.trans ?_ (h c)
  rw [State.coreAt, hu]
  exact sget_map (p := fun k l => f l = f k) rfl hg t.cores c

theorem KeepsCores.foldl {α : Type} {g : State → α → State} {v : List α} (h : KeepsCores f s t)
    (hg : ∀ t a, KeepsCores f s t → KeepsCores f s (g t a)) : KeepsCores f s (v.foldl g t) := by
  induction v generalizing t with
  | nil => exact h
  | cons a r ih => exact ih (hg t a h)

end

section
variable {β : Type} {f : Core → β} {s t : State} (hf : WriteBlind f)
include hf

theorem WriteBlind.ctxs (k : Core) (x : SMap Ctx) : f { k with ctxs := x } = f k := hf k x k.mem k.lpoison k.spill k.stash k.l1

theorem WriteBlind.dropOld (k : Core) (lo n : Nat) : f (k.dropOld lo n) = f k := by
  unfold Core.dropOld
  split
  · rfl
  · exact WriteBlind.ctxs hf ..

theorem WriteBlind.localPut (k : Core) (off : Nat) (b : List Byte) : f (k.localPut off b) = f k :=
  let l := k.dropOld (8 * (localAddr off).toNat + 0) (8 * b.length)
  (hf l l.ctxs _ _ l.spill l.stash l.l1).trans (WriteBlind.dropOld hf k ..)

theorem WriteBlind.stashWritten (k : Core) (mine : Option Nat) (lo n : Nat) : f (k.stashWritten mine lo n) = f k := by
  unfold Core.stashWritten
  dsimp only
  split
  · exact WriteBlind.dropOld hf ..
  · exact (hf (k.dropOld lo n) _ _ _ _ _ _).trans (WriteBlind.dropOld hf ..)

theorem WriteBlind.l1Written (k : Core) (line : Nat) : f (k.l1Written line) = f k := by
  unfold Core.l1Written
  split
  · exact hf k k.ctxs k.mem k.lpoison k.spill k.stash _
  · rfl

theorem KeepsCores.localPut {c off : Nat} {b : List Byte} (h : KeepsCores f s t) :
    KeepsCores f s (t.localPut c off b) :=
  h.setCore (WriteBlind.localPut hf ..)

theorem KeepsCores.scribble {c off n : Nat} (h : KeepsCores f s t) : KeepsCores f s (t.scribble c off n) :=
  (KeepsCores.localPut hf h).same rfl

theorem KeepsCores.writeSpill {c : Nat} (h : KeepsCores f s t) : KeepsCores f s (t.writeSpill c) :=
  h.foldl fun _ _ h => KeepsCores.localPut hf h

theorem KeepsCores.fitSpill {c : Nat} (h : KeepsCores f s t) : Finds (KeepsCores f s) (t.fitSpill c) := by
  have spill (l : List Nat) : KeepsCores f s (t.setCore c { t.coreAt c with spill := l }) :=
    h.setCore (let k := t.coreAt c; hf k k.ctxs k.mem k.lpoison l k.stash k.l1)
  fun_cases t.fitSpill c <;>
    grind [KeepsCores.localPut, KeepsCores.writeSpill, KeepsCores.scribble, Finds.some, Finds.none]

theorem KeepsCores.bitsWritten {w : Option (Nat × Nat)} {lo n : Nat} (h : KeepsCores f s t) :
    KeepsCores f s (t.bitsWritten w lo n) := by
  refine h.mapCores rfl fun q => ⟨rfl, ?_⟩
  dsimp only
  split
  · split
    · exact WriteBlind.stashWritten hf ..
    · exact (WriteBlind.l1Written hf ..).trans (WriteBlind.stashWritten hf ..)
  · exact (WriteBlind.l1Written hf ..).trans (WriteBlind.stashWritten hf ..)

theorem KeepsCores.putGlobal {va pa : Nat} {b : List Byte} (h : KeepsCores f s t) :
    KeepsCores f s (t.putGlobal va pa b) :=
  KeepsCores.bitsWritten hf (h.same (putPhys_cores ..))

theorem KeepsCores.wakeSleeper {slot : Nat} (h : KeepsCores f s t) : KeepsCores f s (t.wakeSleeper slot) :=
  h.mapCores rfl fun q => ⟨rfl, WriteBlind.ctxs hf q.2 _⟩

end

/-- The deque is none of the parts that writes of memory change. -/
theorem writeBlind_deque : WriteBlind Core.deque := fun _ _ _ _ _ _ _ => rfl

/-! ### Pushes (06 R145) -/

/-- A part of the state to which neither cores nor drawn values belong is left by a push's spill. -/
theorem fitSpill_keeps {β : Type} (p : State → β) (hc : ∀ s c k, p (State.setCore s c k) = p s)
    (hn : ∀ (s : State) n, p { s with freeCtr := n } = p s) (s : State) (c : Nat) :
    Finds (fun t => p t = p s) (s.fitSpill c) := by
  have put (s : State) (c off : Nat) (b : List Byte) : p (s.localPut c off b) = p s := hc ..
  have spill (s : State) (c : Nat) : p (s.writeSpill c) = p s := foldl_keeps p _ (fun s a => put ..) _ _
  have scrib (s : State) (c off n : Nat) : p (s.scribble c off n) = p s := (hn ..).trans (put ..)
  fun_cases s.fitSpill c <;> grind [Finds.some, Finds.none]

theorem pushBottom_keeps {β : Type} (p : State → β) (hc : ∀ s c k, p (State.setCore s c k) = p s)
    (hn : ∀ (s : State) n, p { s with freeCtr := n } = p s) {s t : State} {c : Nat} {e : Word}
    (h : s.pushBottom c e = some t) : p t = p s :=
  ((fitSpill_keeps p hc hn _ c).of_some h).trans (hc ..)

theorem pushBottom_mem {s t : State} {c : Nat} {e : Word} (h : s.pushBottom c e = some t) : t.mem = s.mem :=
  pushBottom_keeps State.mem (fun _ _ _ => rfl) (fun _ _ => rfl) h

/-- The entry stands at the bottom of the deque, which is its head. -/
theorem pushBottom_deque {s t : State} {c : Nat} {e : Word} (h : s.pushBottom c e = some t) :
    (t.coreAt c).deque = e :: (s.coreAt c).deque := by
  refine ((KeepsCores.fitSpill writeBlind_deque .refl).of_some h c).trans ?_
  rw [State.coreAt_setCore_same]

/-! ### WAKE of a slot (06 R155) -/

section
variable {c slot pa : Nat} {s v : State} (hv : hvTry true slot s = .ok (pa, v)) (hb : v.frameBad pa = false)
  (hf : v.hw.contains (.freeSlot slot) = false)
include hv hb hf

theorem wakeSlot_full (h2 : memLe v.mem (pa + 104) 8 = 2)
    (hp : (v.putGlobal (slot + 104) (pa + 104) (leBytes 8 3)).pushBottom c (contEntry slot false) = none) :
    wakeSlot c slot s = .full := by
  simp only [wakeSlot, hv, hb, hf, h2, hp, Bool.false_eq_true, if_false, if_true]

/-- A suspended continuation becomes queued, its entry at the bottom. -/
theorem wakeSlot_suspended (h2 : memLe v.mem (pa + 104) 8 = 2) {z : State}
    (hp : (v.putGlobal (slot + 104) (pa + 104) (leBytes 8 3)).pushBottom c (contEntry slot false) = some z) :
    wakeSlot c slot s = .woke 2 z ∧ z.mem = memWrite v.mem (pa + 104) (leBytes 8 3) ∧
      (z.coreAt c).deque = contEntry slot false :: (v.coreAt c).deque := by
  refine ⟨?_, ?_, ?_⟩
  · simp only [wakeSlot, hv, hb, hf, h2, hp, Bool.false_eq_true, if_false, if_true]
  · rw [pushBottom_mem hp, putGlobal_mem]
  · rw [pushBottom_deque hp, KeepsCores.putGlobal writeBlind_deque .refl c]

/-- A running continuation gets its pending bit. -/
theorem wakeSlot_running (h1 : memLe v.mem (pa + 104) 8 = 1) :
    ∃ z, wakeSlot c slot s = .woke 1 z ∧ z.mem = memWrite v.mem pa (leBytes 8 (memLe v.mem pa 8 / 2 * 2 + 1)) ∧
      ∀ k, (z.coreAt k).deque = (v.coreAt k).deque := by
  let y := v.putGlobal slot pa (leBytes 8 (memLe v.mem pa 8 / 2 * 2 + 1))
  have hd : KeepsCores Core.deque v (y.wakeSleeper slot) :=
    KeepsCores.wakeSleeper writeBlind_deque (KeepsCores.putGlobal writeBlind_deque .refl)
  refine ⟨y.wakeSleeper slot, ?_, putGlobal_mem v slot pa _, hd⟩
  simp only [wakeSlot, hv, hb, hf, h1, y, Bool.false_eq_true, if_false, if_true, OfNat.one_ne_ofNat]

theorem wakeSlot_other (h1 : memLe v.mem (pa + 104) 8 ≠ 1) (h2 : memLe v.mem (pa + 104) 8 ≠ 2) :
    wakeSlot c slot s = .woke (memLe v.mem (pa + 104) 8) v := by
  simp only [wakeSlot, hv, hb, hf, h1, h2, Bool.false_eq_true, if_false]

end

/-! ### The words -/

/-- A legal word that accesses global memory traps when its run ends in a trap. -/
theorem TrapsAfter.of_run {i : Instr} {s : State} {b : State → Run State} {c : Nat} {info : Word}
    (hl : legal s i = true) (m : State → Host.Outcome State Fault Refusal) (he : exec i s = m s)
    (hm : m s = guardedRun i s b) (h : (b s).ans = .error (.trap c info)) : TrapsAfter i s c info :=
  ⟨_, (he.trans hm).trans (guardedRun_stops hl h fun _ => nofun)⟩

/-- FMT with the address that a register names. -/
theorem fmtTrap_word {α : Type} (x : Word) : (fmtTrap x.toNat : Except Stop α) = .error (.trap 7 x) := by
  rw [fmtTrap, trapS, wd, BitVec.ofNat_toNat, BitVec.setWidth_eq]

/-- What reading a field leaves of a part of the context to which no receive port belongs. -/
theorem readReg_ctx {β : Type} (p : Ctx → β) (hp : ∀ x a b, p { x with rx0 := a, rx1 := b } = p x) {f : Nat}
    {s t : State} {v : Word} (h : readReg f s = .ok (v, t)) : p t.cur = p s.cur := by
  obtain rfl | ⟨x, y, rfl⟩ := readReg_frame h
  · rfl
  · rw [State.cur_setCur, hp]

/-- A run that is done needs no handler. -/
theorem Run.ans_tryCatch_ok {α : Type} {m : Run α} {a : α} (h : m.ans = .ok a) (f : Stop → Run α) :
    Run.ans (tryCatch m f) = .ok a :=
  match m, h with
  | (.ok _, _), h => h

theorem depCounter_ok {k : Nat} {s : State} {r : Spot × State} (h : (counterAt k s).ans = .ok r) :
    (depCounter k s).ans = .ok r := Run.ans_tryCatch_ok h _

section
variable {d a : BitVec 6} {s t : State} {x : Word} (hr : readReg a.toNat s = .ok (x, t))
include hr

section
variable {at_ : Spot} {u r : State} (hl : legal s (.tsig d a) = true) (hat : (counterAt x.toNat t).ans = .ok (at_, u))
  (hrel : release u = .ok r)
include hl hat hrel

/-- TSIG that enters no record: it counts down, and stops at 0. -/
theorem tsig_counts {w : State} (h : counterGet x.toNat at_ 0 4 r ≠ 1 ∨ counterGet x.toNat at_ 8 8 r = 0)
    (hw : writeReg d.toNat (BitVec.ofNat 64 (counterGet x.toNat at_ 0 4 r))
      (if counterGet x.toNat at_ 0 4 r = 0 then r
        else counterPut x.toNat at_ 0 (leBytes 4 (counterGet x.toNat at_ 0 4 r - 1)) r) = .ok w) :
    Completes (.tsig d a) s w := by
  refine Completes.of_run hl (execTsig d a) rfl rfl <| Run.stepLift hr <| Run.step hat <| Run.stepLift hrel ?_
  dsimp only
  rw [if_neg (not_and_or.mpr (h.imp_right not_not.mpr))]
  refine Run.step (Run.ans_pure r) ?_
  rw [ite_not]
  exact hw

/-- TSIG that brings its counter to 0 and enters the waiting record. -/
theorem tsig_enters {v y w : State} {b : List Byte} (hc : counterGet x.toNat at_ 0 4 r = 1)
    (hp : counterGet x.toNat at_ 8 8 r ≠ 0) (he : (entryCheck (counterGet x.toNat at_ 8 8 r) r).ans = .ok (b, v))
    (hy : pushEntry (BitVec.ofNat 64 (counterGet x.toNat at_ 8 8 r)) ((counterPut x.toNat at_ 8 (leBytes 8 0) v).enters
      (counterGet x.toNat at_ 8 8 r) (recDom b)) = .ok y)
    (hw : writeReg d.toNat 1 (counterPut x.toNat at_ 0 (leBytes 4 0) y) = .ok w) : Completes (.tsig d a) s w := by
  refine Completes.of_run hl (execTsig d a) rfl rfl <| Run.stepLift hr <| Run.step hat <| Run.stepLift hrel ?_
  dsimp only
  rw [if_pos ⟨hc, hp⟩]
  refine Run.step (Run.step he hy) ?_
  rw [hc]
  exact hw
end

section
variable {b : List Byte} {u : State} (hl : legal s (.tdep d a) = true) (he : (entryCheck x.toNat t).ans = .ok (b, u))
include hl he

theorem tdep_noCounter (hk : leAt b 32 8 = 0) : TrapsAfter (.tdep d a) s 7 x := by
  refine TrapsAfter.of_run hl (execTdep d a) rfl rfl <| Run.stepLift hr <| Run.step he ?_
  dsimp only
  rw [if_pos hk]
  exact fmtTrap_word x

section
variable {at_ : Spot} {v r : State} (hk : leAt b 32 8 ≠ 0) (hat : (counterAt (leAt b 32 8) u).ans = .ok (at_, v))
  (hrel : release v = .ok r)
include hk hat hrel

theorem tdep_taken (hc : counterGet (leAt b 32 8) at_ 0 4 r ≠ 0) (hq : counterGet (leAt b 32 8) at_ 8 8 r ≠ 0) :
    TrapsAfter (.tdep d a) s 7 x := by
  refine TrapsAfter.of_run hl (execTdep d a) rfl rfl <| Run.stepLift hr <| Run.step he ?_
  dsimp only
  rw [if_neg hk]
  refine Run.step (depCounter_ok hat) <| Run.stepLift hrel ?_
  dsimp only
  rw [if_pos ⟨hc, hq⟩]
  exact fmtTrap_word x

variable {id : Nat} {w : State} (hent : (enterTask x.toNat b r).ans = .ok (id, w))
include hent

theorem tdep_pushes {y z : State} (hc : counterGet (leAt b 32 8) at_ 0 4 r = 0) (hy : pushEntry x w = .ok y)
    (hz : writeReg d.toNat (BitVec.ofNat 64 id) y = .ok z) : Completes (.tdep d a) s z := by
  refine Completes.of_run hl (execTdep d a) rfl rfl <| Run.stepLift hr <| Run.step he ?_
  dsimp only
  rw [if_neg hk]
  refine Run.step (depCounter_ok hat) <| Run.stepLift hrel ?_
  dsimp only
  rw [if_neg fun h => h.1 hc]
  refine Run.step hent ?_
  dsimp only
  rw [if_pos hc]
  exact Run.step hy hz

theorem tdep_waits {z : State} (hc : counterGet (leAt b 32 8) at_ 0 4 r ≠ 0)
    (hq : counterGet (leAt b 32 8) at_ 8 8 r = 0)
    (hz : writeReg d.toNat (BitVec.ofNat 64 id) (counterPut (leAt b 32 8) at_ 8 (leBytes 8 x.toNat) w) = .ok z) :
    Completes (.tdep d a) s z := by
  refine Completes.of_run hl (execTdep d a) rfl rfl <| Run.stepLift hr <| Run.step he ?_
  dsimp only
  rw [if_neg hk]
  refine Run.step (depCounter_ok hat) <| Run.stepLift hrel ?_
  dsimp only
  rw [if_neg fun h => h.2 hq]
  refine Run.step hent ?_
  dsimp only
  rw [if_neg hc]
  exact Run.step (Run.ans_pure _) hz
end
end

/-- WAKE of a slot that its context may wake. -/
theorem wake_completes {r u w : State} {old : Nat} (hl : legal s (.wake d a) = true) (h128 : x.toNat % 128 = 0)
    (hg : isGlobal x.toNat = true)
    (hpool : s.cur.sup = false → ∃ dm, s.dom? s.kdom = some dm ∧ dm.pool.toNat ≤ x.toNat ∧
      x.toNat < dm.pool.toNat + 128 * dm.slots)
    (hrel : release t = .ok r) (hwake : wakeSlot r.focus.core x.toNat r = .woke old u)
    (hw : writeReg d.toNat (BitVec.ofNat 64 old) u = .ok w) : Completes (.wake d a) s w := by
  have hsup : t.cur.sup = s.cur.sup := readReg_ctx Ctx.sup (fun _ _ _ => rfl) hr
  have hkdom : t.kdom = s.kdom := readReg_ctx (fun x => x.kdom.toNat) (fun _ _ _ => rfl) hr
  have hdom : t.dom? t.kdom = s.dom? s.kdom := by
    rw [hkdom, State.dom?, readReg_keeps State.domains (fun _ _ => rfl) hr, State.dom?]
  have hin : t.cur.sup = false → ∃ dm, t.dom? t.kdom = some dm ∧ dm.hasSlot x.toNat = true := fun h => by
    obtain ⟨dm, hdm, hlo, hhi⟩ := hpool (hsup ▸ h)
    exact ⟨dm, hdom ▸ hdm, decide_eq_true ⟨hlo, hhi⟩⟩
  have hheld : (wakeHeld r.focus.core x.toNat r).ans = .ok (old, u) := by
    rw [wakeHeld, hwake]
    rfl
  refine Completes.of_run hl (execWake d a) rfl rfl <| Run.stepLift hr ?_
  dsimp only
  rw [if_neg (not_not.mpr h128), if_neg]
  · exact Run.stepLift hrel <| Run.step hheld hw
  · rw [hg]
    cases h : t.cur.sup with
    | true => exact Bool.false_ne_true
    | false =>
      obtain ⟨dm, hdm, hs⟩ := hin h
      rw [hdm]
      simp [hs]
end

/-- Settles O34: TSIG and TDEP by the counter that they find, WAKE by its slot's state. -/
theorem countersAndWakes : Obligations.CountersAndWakes := by
  refine ⟨fun d a s t x hr => ⟨fun at_ u r w hl hat hrel => ⟨?_, ?_⟩, fun b u hl he => ⟨?_, fun hk at_ v r hat hrel => ?_⟩⟩,
    fun d a s t r u w x old hl hr h128 hg hp hrel hwake hw => wake_completes hr hl h128 hg hp hrel hwake hw,
    fun c slot pa s v hv hb hf => ⟨?_, ?_, ?_, ?_⟩⟩
  · exact fun h hw => tsig_counts hr hl hat hrel h hw
  · exact fun hc hp b v y he hy hw => tsig_enters hr hl hat hrel hc hp he hy hw
  · exact fun hk => tdep_noCounter hr hl he hk
  · refine ⟨fun hc hq => tdep_taken hr hl he hk hat hrel hc hq, fun id w hent => ⟨?_, ?_⟩⟩
    · exact fun hc y z hy hz => tdep_pushes hr hl he hk hat hrel hent hc hy hz
    · exact fun hc hq z hz => tdep_waits hr hl he hk hat hrel hent hc hq hz
  · exact wakeSlot_full hv hb hf
  · exact fun h2 z hp => wakeSlot_suspended hv hb hf h2 hp
  · exact wakeSlot_running hv hb hf
  · exact wakeSlot_other hv hb hf

end Sys2Proof.Machine
end

section
/-! PROOF. Continuations that leave their context (06 R143 to R157, 10 R280): O33 -/

namespace Sys2Proof.Machine
open Sys2Proof.Safety

/-! ### With a packet open (07 R173) -/

theorem unlessOpen_open {s : State} (h : s.cur.packetOpen = true) (body : State → Run State) :
    unlessOpen s body = liftM (ill s : Except Stop State) := if_pos h

theorem unlessOpen_closed {s : State} (h : s.cur.packetOpen = false) (body : State → Run State) :
    unlessOpen s body = body s := if_neg (ne_true_of_eq_false h)

/-- ILL before any access leaves nothing in caches. -/
theorem finishRun_ill (s : State) : finishRun s (liftM (ill s : Except Stop State)) =
    .next { stopState s (.trap 1 (illInfo s)) with last := .stopped (.trap 1 (illInfo s)) } := rfl

section
variable {i : Instr} {s : State} {b : State → Run State} (h : s.cur.packetOpen = true)
include h

/-- A word that ends its continuation traps with a packet open. -/
theorem Traps.of_open (he : exec i s = finishRun s (unlessOpen s b)) : Traps i s 1 (illInfo s) := by
  rw [unlessOpen_open h] at he
  exact he.trans (finishRun_ill s)

theorem Traps.of_open_guarded (hl : legal s i = true) (m : State → Host.Outcome State Fault Refusal)
    (he : exec i s = m s) (hm : m s = guardedRun i s (fun s => unlessOpen s b)) : Traps i s 1 (illInfo s) :=
  Traps.of_open (b := b) h ((he.trans hm).trans (guardedRun_legal _ hl))
end

/-- A word without operands completes when its run, with no packet open, ends well. -/
theorem Completes.of_closed {i : Instr} {s t : State} {b : State → Run State} (h : s.cur.packetOpen = false)
    (he : exec i s = finishRun s (unlessOpen s b)) (hb : (b s).ans = .ok t) : Completes i s t := by
  rw [unlessOpen_closed h, finishRun, hb] at he
  exact he

theorem Completes.of_closed_run {i : Instr} {s t : State} {b : State → Run State} (h : s.cur.packetOpen = false)
    (hl : legal s i = true) (m : State → Host.Outcome State Fault Refusal) (he : exec i s = m s)
    (hm : m s = guardedRun i s (fun s => unlessOpen s b)) (hb : (b s).ans = .ok t) : Completes i s t :=
  Completes.of_closed (b := b) h ((he.trans hm).trans (guardedRun_legal _ hl)) hb

/-! ### The slot's pending bit (06 R143) -/

theorem fieldN_bit0 (n : Nat) : fieldN n 0 1 = n % 2 := by simp [fieldN]

theorem slotW_ok {s q : State} {b : List Byte} (h : (hvRead s.cur.slot.toNat 8 s).ans = .ok (b, q)) :
    (slotW s).ans = .ok (ofBytes b % 2 == 1, q) := by
  refine Run.step h ?_
  dsimp only
  rw [fieldN_bit0]
  rfl

/-! ### The words -/

section
variable {s : State} (ho : s.cur.packetOpen = false)
include ho

theorem spawnx_completes {d a : BitVec 6} {p : Word} {t u v r w q x y : State} {b w0 : List Byte} {id : Nat}
    (hl : legal s (.spawnx d a) = true) (hr : readReg a.toNat s = .ok (p, t))
    (he : (entryCheck p.toNat t).ans = .ok (b, u)) (hv : vsyncWait u = .ok v) (hrel : release v = .ok r)
    (hent : (enterTask p.toNat b r).ans = .ok (id, w)) (hw : (hvRead w.cur.slot.toNat 8 w).ans = .ok (w0, q))
    (hx : (saveCont 2 (ofBytes w0 % 2 == 1) q).ans = .ok x)
    (hy : pushEntry p { x with
      joiners := sset x.joiners p.toNat w.cur.slot
      joinDest := sset x.joinDest w.cur.slot.toNat d.toNat } = .ok y) :
    Completes (.spawnx d a) s (y.setCur y.cur.leave) :=
  Completes.of_closed_run ho hl (execSpawnx d a) rfl rfl <| Run.stepLift hr <| Run.step he <| Run.stepLift hv <|
    Run.stepLift hrel <| Run.step hent <| Run.step (slotW_ok hw) <| Run.step hx <| Run.stepLift hy rfl

section
variable {v r q : State} {b : List Byte} (hv : vsyncWait s = .ok v) (hrel : release v = .ok r)
  (hb : (hvRead r.cur.slot.toNat 8 r).ans = .ok (b, q))
include hv hrel hb

/-- SUSP of a continuation that has been woken: it goes on (06 R154). -/
theorem susp_goesOn {t : State} (hw : ofBytes b % 2 = 1)
    (ht : (hvWrite q.cur.slot.toNat (leBytes 8 (ofBytes b / 2 * 2)) q).ans = .ok t) : Completes .susp s t := by
  refine Completes.of_closed ho (rfl : execSusp s = _) <| Run.stepLift hv <| Run.stepLift hrel <| Run.step hb ?_
  dsimp only
  rw [if_pos ((fieldN_bit0 _).trans hw)]
  exact ht

theorem susp_leaves {t : State} (hw : ofBytes b % 2 = 0) (ht : (saveCont 2 false q).ans = .ok t) :
    Completes .susp s (t.setCur t.cur.leave) := by
  refine Completes.of_closed ho (rfl : execSusp s = _) <| Run.stepLift hv <| Run.stepLift hrel <| Run.step hb ?_
  dsimp only
  rw [if_neg (by rw [fieldN_bit0, hw]; exact Nat.zero_ne_one)]
  exact Run.step ht rfl

theorem yield_leaves {t u : State} (ht : (saveCont 3 (ofBytes b % 2 == 1) q).ans = .ok t)
    (hu : t.pushTop t.focus.core (contEntry q.cur.slot.toNat false) = some u) :
    Completes .yield s (u.setCur u.cur.leave) := by
  refine Completes.of_closed ho (rfl : execYield s = _) <| Run.stepLift hv <| Run.stepLift hrel <|
    Run.step (slotW_ok hb) <| Run.step ht ?_
  rw [hu]
  rfl
end

theorem tret_completes {a : BitVec 6} {x : Word} {t v r u : State} (hl : legal s (.tret a) = true)
    (hr : readReg a.toNat s = .ok (x, t)) (hv : vsyncWait t = .ok v) (hrel : release v = .ok r)
    (hu : (retireTask r.focus.core r.focus.ctx x r).ans = .ok u) : Completes (.tret a) s u :=
  Completes.of_closed_run ho hl (execTret a) rfl rfl <| Run.stepLift hr <| Run.stepLift hv <| Run.stepLift hrel hu

theorem migr_completes {a : BitVec 6} {x : Word} {t u v w r q y : State} {b : List Byte} {h : CmdHdr}
    (hl : legal s (.migr a) = true) (hr : readReg a.toNat s = .ok (x, t)) (hu : vsyncWait t = .ok u)
    (hg : isGlobal x.toNat = true) (hv : (byteGrant needR none x.toNat x.toNat u).ans = .ok v) (hrel : release v = .ok r)
    (hb : (hvRead r.cur.slot.toNat 8 r).ans = .ok (b, q)) (hw : (saveCont 3 (ofBytes b % 2 == 1) q).ans = .ok w)
    (hy : appendCmd 0 none w = .ok (h, y)) (c : TCmd)
    (hc : c = { hdr := h, kind := .migr, ch := 0, region := Region.null, desc := none, desc2 := none, begun := false,
                kcpool := y.core.kcpool, kmap := y.core.kmap, dir := 0, base := 0, origin := [], ls := [], reuse := 0,
                mark := 0, units := [], done := 0, index := none, run := 0, seen := [], slot := q.cur.slot, target := x,
                ship := y.homeOf (segOf x.toNat), dead := false }) :
    Completes (.migr a) s ((pushTransfer c y).setCur (pushTransfer c y).cur.leave) := by
  refine Completes.of_closed_run ho hl (execMigr a) rfl rfl <| Run.stepLift hr <| Run.stepLift hu ?_
  dsimp only
  rw [hg]
  subst hc
  exact Run.step hv <| Run.stepLift hrel <| Run.step (slotW_ok hb) <| Run.step hw <| Run.stepLift hy rfl
end

/-! ### Retirement and graphs (06 R157, 21 R451) -/

/-- What a retirement does once its joiner is seen to: the slot is free, the graph counts one task fewer, the context is
idle. -/
def afterRetirement (c x : Nat) (k : Ctx) (u : State) : State :=
  let w := if k.task = 0 then u else u.graphLeave k.graph.toNat
  w.setCtx c x (w.ctxAt c x).leave

section
variable {c x : Nat} {v : Word} {s t : State} {jb : List Byte}
  (hj : (hvRead ((s.ctxAt c x).slot.toNat + 88) 8 s).ans = .ok (jb, t))
include hj

theorem retireTask_alone {u : State} (h0 : ofBytes jb = 0)
    (hu : (hvWrite ((s.ctxAt c x).slot.toNat + 104) (leBytes 8 0) t).ans = .ok u) :
    (retireTask c x v s).ans = .ok (afterRetirement c x (s.ctxAt c x) u) := by
  refine Run.step hj ?_
  dsimp only
  rw [if_neg (not_not.mpr h0)]
  exact Run.step (Run.ans_pure t) <| Run.step hu rfl

theorem retireTask_joined {y z u : State} {old : Nat} (h0 : ofBytes jb ≠ 0)
    (hy : (hvWrite (ofBytes jb + 96) (leBytes 8 v.toNat) t).ans = .ok y) (hz : wakeSlot c (ofBytes jb) y = .woke old z)
    (hu : (hvWrite ((s.ctxAt c x).slot.toNat + 104) (leBytes 8 0) z).ans = .ok u) :
    (retireTask c x v s).ans = .ok (afterRetirement c x (s.ctxAt c x) u) := by
  have hheld : (wakeHeld c (ofBytes jb) y).ans = .ok (old, z) := by
    rw [wakeHeld, hz]
    rfl
  refine Run.step hj ?_
  dsimp only
  rw [if_pos h0]
  exact Run.step (Run.step hy <| Run.step hheld rfl) <| Run.step hu rfl
end

/-- A graph that counts none is gone, as the filter of `graphLeave` says it. -/
theorem graphs_bne (l : List Graph) (id : Nat) :
    l.filter (fun x => x.id != id) = l.filter (fun x => decide (x.id ≠ id)) := by
  simp only [ne_eq, decide_not, bne, beq_eq_decide]

section
variable {s : State} {id : Nat} {g : Graph} (hg : s.graph? id = some g)
include hg

theorem graphLeave_live (h : 1 < g.live) : s.graphLeave id =
    { s with graphs := s.graphs.map (fun x => if x.id = id then { x with live := x.live - 1 } else x) } := by
  simp only [State.graphLeave, hg, Nat.not_le.mpr h, if_false, beq_iff_eq]

theorem graphLeave_last (h : g.live ≤ 1) (hw : g.word = none) : s.graphLeave id =
    { s with graphs := s.graphs.filter (fun x => decide (x.id ≠ id)) }.raiseVector g.dom 0 := by
  simp only [State.graphLeave, hg, h, hw, if_true]
  rw [graphs_bne]

theorem graphLeave_word (h : g.live ≤ 1) {w : Word} (hw : g.word = some w) {pa : Nat} {t : State}
    (ht : hvTry true w.toNat { s with graphs := s.graphs.filter (fun x => decide (x.id ≠ id)) } = .ok (pa, t)) :
    s.graphLeave id = (t.putGlobal w.toNat pa (leBytes 8 id)).raiseVector g.dom 0 := by
  rw [← graphs_bne] at ht
  simp only [State.graphLeave, hg, h, hw, if_true, State.finishWord, State.hvPut, ht]
end

/-- Settles O33: each word by its parts in their order, retirement by its joiner, a graph by its count. -/
theorem continuationsLeaveTheirContext : Obligations.ContinuationsLeaveTheirContext := by
  refine ⟨fun d a s => ⟨fun ho => ?_, fun ho => ⟨?_, ?_, ?_⟩⟩, fun x => ⟨rfl, rfl, rfl, rfl, rfl, rfl, rfl⟩,
    ⟨fun c x v s t jb hj => ⟨?_, ?_⟩, fun s id g hg => ⟨?_, ?_, ?_⟩⟩, ?_⟩
  · exact ⟨Traps.of_open ho (rfl : execSusp s = _), Traps.of_open ho (rfl : execYield s = _),
      fun hl => Traps.of_open_guarded ho hl (execTret a) rfl rfl, fun hl => Traps.of_open_guarded ho hl (execMigr a) rfl rfl,
      fun hl => Traps.of_open_guarded ho hl (execSpawnx d a) rfl rfl⟩
  · exact fun p t b u v r id w x y hl hr he hv hrel hent w0 q hw hx hy =>
      spawnx_completes ho hl hr he hv hrel hent hw hx hy
  · exact fun v r b q t hv hrel hb => ⟨fun hw ht => susp_goesOn ho hv hrel hb hw ht,
      fun hw ht => susp_leaves ho hv hrel hb hw ht, fun u ht hu => yield_leaves ho hv hrel hb ht hu⟩
  · exact fun x t v r u hl hr hv hrel hu => tret_completes ho hl hr hv hrel hu
  · exact fun h0 u hu => retireTask_alone hj h0 hu
  · exact fun h0 y old z u hy hz hu => retireTask_joined hj h0 hy hz hu
  · exact graphLeave_live hg
  · exact graphLeave_last hg
  · exact fun h w pa t hw ht => graphLeave_word hg h hw ht
  · exact fun a s t u v w r q y x b h hl ho hr hu hg hv hrel hb hw hy =>
      migr_completes ho hl hr hu hg hv hrel hb hw hy _ rfl

end Sys2Proof.Machine
end

section
/-! PROOF. Hardware steps (spec/95): O58 fails of a local memory that lists an address twice (07 R175) -/

namespace Sys2Proof.Machine
open Sys2Proof.Safety

/-! ### PREEMPT_STOP (07 R174, R175) -/

/-- Two states that one instruction completes with have the same cores: they differ at most in what the step reports. -/
theorem Completes.coreAt_eq {i : Instr} {s t u : State} (ht : Completes i s t) (hu : Completes i s u) (c : Nat) :
    t.coreAt c = u.coreAt c := by
  have h : ({ t with last := .done } : State) = { u with last := .done } := Host.Outcome.next.inj (ht.symm.trans hu)
  have hcore := congrArg (fun s : State => s.coreAt c) h
  exact hcore

theorem completes_preemptStop (s : State) {c x : Nat} (hc : c < 1024) (hx : x < 16) :
    Completes (.preemptStop c x) s (preempt c x s) := by
  show execPreemptStop c x s = _
  rw [execPreemptStop, decide_eq_true ⟨hc, hx⟩, hwStep_true]

/-- A context that stops has its image written to its save area. -/
theorem preempt_localMem {s : State} {c x : Nat} (h : mayPreempt (s.coreAt c) x = true) :
    ((preempt c x s).coreAt c).mem =
      memWrite (s.coreAt c).mem (saveBase x) (((s.coreAt c).ctxAt x).image (s.coreAt c).ngreg) := by
  rw [preempt, if_pos h]
  simp [State.localPut]

/-! ### A memory that is not in canonical form -/

/-- A write of zero takes one entry away: where the address is listed twice, the other entry shows from then on, whatever
is written above it. -/
theorem memGet_memWrite_listedTwice (a : Nat) (r : List Byte) : memGet (memWrite [(a, 1), (a, 1)] a (0 :: r)) a = 1 := by
  have hset : memSet [(a, (1 : Byte)), (a, 1)] a 0 = [(a, 1)] := by simp [memSet, unlisted]
  have hwf : Memory.wf [(a, (1 : Byte))] = true := by simp [Memory.wf, memWfFrom, unlisted]
  rw [memWrite, hset, memGet_memWrite_outside hwf (by omega), memGet, if_pos rfl]

theorem memLe_ne_zero_of_memGet {m : List Host.Cell} {a : Nat} (h : memGet m a = 1) : memLe m a 8 ≠ 0 := by
  rw [memLe, memRead, ofBytes, h]
  exact Nat.ne_of_gt (Nat.add_pos_left (by decide) _)

/-- Context 0 of core 0 may stop for a request, its registers hold 0, and the core's memory lists the first byte of its save
area twice. -/
def listedTwice : State :=
  State.reset.setCore 0 { Core.reset with
    mem := [(saveBase 0, 1), (saveBase 0, 1)]
    kplive := 1
    ctxs := [(0, { Ctx.reset with st := .ready })] }

theorem mayPreempt_listedTwice : mayPreempt (listedTwice.coreAt 0) 0 = true := by decide

/-- The image begins with register 0, which is 0. -/
theorem image_listedTwice :
    ∃ r, ((listedTwice.coreAt 0).ctxAt 0).image (listedTwice.coreAt 0).ngreg = 0 :: r := ⟨_, rfl⟩

theorem preempt_listedTwice : memLe ((preempt 0 0 listedTwice).coreAt 0).mem (saveBase 0) 8 ≠ 0 := by
  obtain ⟨r, hr⟩ := image_listedTwice
  rw [preempt_localMem mayPreempt_listedTwice, hr]
  exact memLe_ne_zero_of_memGet (memGet_memWrite_listedTwice (saveBase 0) r)

/-- Refutes O58, by its clause on PREEMPT_STOP, which speaks of every state: where a core's memory lists an address of the save
area twice, which the canonical form of O8 and O9 rules out, the area does not hold the register that was written to it. -/
theorem not_hardwareStepEffects : ¬ Obligations.HardwareStepEffects := by
  unfold Obligations.HardwareStepEffects
  rintro ⟨-, -, -, -, hdispatcher, -⟩
  obtain ⟨-, -, -, -, -, -, -, -, hstop, -⟩ := hdispatcher listedTwice 0 0 (by decide) (by decide)
  obtain ⟨-, -, t, ht, -, -, hsaved, -⟩ := hstop mayPreempt_listedTwice
  have hreg : memLe (t.coreAt 0).mem (saveBase 0) 8 = 0 := hsaved 0 (by decide)
  rw [Completes.coreAt_eq ht (completes_preemptStop listedTwice (by decide) (by decide)) 0] at hreg
  exact preempt_listedTwice hreg

end Sys2Proof.Machine
end

section
/-! PROOF. What the hardware's accesses and wakes leave of the package (20 R434, R440, R448, 06 R155)

A part `p` of the state that neither a walk, a fill, a write of memory nor a wake enters: the hardware keeps it when it
looks at an address and when it wakes a continuation. -/

namespace Sys2Proof.Machine
open Sys2Proof.Safety

/-- `p` reads none of the parts of the state that an access of the hardware or a wake changes. -/
structure AccessBlind {β : Type} (p : State → β) : Prop where
  cores : ∀ (s : State) v, p { s with cores := v } = p s
  squares : ∀ (s : State) v, p { s with squares := v } = p s
  districts : ∀ (s : State) v, p { s with districts := v } = p s
  budgets : ∀ (s : State) v, p { s with budgets := v } = p s
  mem : ∀ (s : State) v, p { s with mem := v } = p s
  zeroLines : ∀ (s : State) v, p { s with zeroLines := v } = p s
  poison : ∀ (s : State) v, p { s with poison := v } = p s
  hw : ∀ (s : State) v, p { s with hw := v } = p s
  freeCtr : ∀ (s : State) v, p { s with freeCtr := v } = p s

theorem accessBlind_focus : AccessBlind State.focus :=
  ⟨fun _ _ => rfl, fun _ _ => rfl, fun _ _ => rfl, fun _ _ => rfl, fun _ _ => rfl, fun _ _ => rfl, fun _ _ => rfl,
    fun _ _ => rfl, fun _ _ => rfl⟩

theorem accessBlind_ktime : AccessBlind State.ktime :=
  ⟨fun _ _ => rfl, fun _ _ => rfl, fun _ _ => rfl, fun _ _ => rfl, fun _ _ => rfl, fun _ _ => rfl, fun _ _ => rfl,
    fun _ _ => rfl, fun _ _ => rfl⟩

/-- A look by the hardware that finds its address gives the state that it leaves. -/
theorem held_state {α : Type} {r : Except (Nat × Nat × Nat) α × State} {a : α} {t : State}
    (h : (held r).ans = .ok (a, t)) : r.2 = t := by
  obtain ⟨_ | _, _⟩ := r
  · cases h
  · cases h
    rfl

section
variable {β : Type} {p : State → β} (hp : AccessBlind p)
include hp

theorem AccessBlind.pteRead (q lvl va table : Nat) (s : State) : p (Machine.pteRead q lvl va table s).2 = p s := by
  fun_cases Machine.pteRead q lvl va table s
  · rfl
  · exact hp.squares ..

theorem AccessBlind.groupAgrees (q va table : Nat) (s : State) : p (Machine.groupAgrees q va table s).2 = p s := by
  unfold Machine.groupAgrees
  exact List.foldlRecOn (motive := fun r : Bool × State => p r.2 = p s) _ _ rfl fun r hr j _ =>
    (hp.pteRead ..).trans hr

theorem AccessBlind.walk (q va : Nat) (l : List Nat) (table : Nat) (s : State) :
    p (Machine.walk q va l table s).2 = p s := by
  fun_induction Machine.walk q va l table s <;> grind [AccessBlind.pteRead, AccessBlind.groupAgrees]

theorem AccessBlind.translatePage (home : Option Nat) (wr : Bool) (va : Nat) (s : State) :
    p (Machine.translatePage home wr va s).2 = p s := by
  fun_cases Machine.translatePage home wr va s <;> grind [Machine.walkTop, AccessBlind.walk]

theorem AccessBlind.translate (home : Option Nat) (wr : Bool) (va : Nat) (s : State) :
    p (Machine.translate home wr va s).2 = p s := by
  fun_cases Machine.translate home wr va s
  · rfl
  · exact hp.translatePage ..

theorem AccessBlind.putPhys (s : State) (pa : Nat) (b : List Byte) : p (s.putPhys pa b) = p s := by
  have hput : p { s with mem := memWrite s.mem pa b, zeroLines := s.zeroLines.filter (· != pa / 128) } = p s :=
    (hp.zeroLines { s with mem := memWrite s.mem pa b } _).trans (hp.mem s _)
  unfold State.putPhys
  split
  · exact (hp.poison ..).trans hput
  · exact hput

theorem AccessBlind.putLine (s : State) (pa : Nat) (b : List Byte) (bad : Bool) : p (s.putLine pa b bad) = p s := by
  unfold State.putLine
  split
  · exact (hp.poison ..).trans (hp.putPhys ..)
  · exact hp.putPhys ..

theorem AccessBlind.spendBeats (s : State) (dom : Option Nat) (d n : Nat) : p (s.spendBeats dom d n) = p s := by
  unfold State.spendBeats
  split
  · exact hp.budgets ..
  · rfl

theorem AccessBlind.touch (s : State) (dom : Option Nat) (reuse q va pa shift : Nat) (wr : Bool) :
    p (s.touch dom reuse q va pa shift wr) = p s :=
  (hp.freeCtr ..).trans <| (hp.spendBeats ..).trans <| (hp.districts ..).trans (hp.squares ..)

theorem AccessBlind.recall (s : State) (q line pa shift : Nat) : p (s.recall q line pa shift) = p s := by
  unfold State.recall
  extract_lets r
  have hr : p r = p s := by
    simp only [r]
    split
    · exact (hp.hw ..).trans (hp.putLine ..)
    · rfl
  clear_value r
  split
  · exact hr
  · exact (hp.touch ..).trans <| (hp.cores ..).trans <| (hp.putLine ..).trans hr

theorem AccessBlind.hvLook (wr : Bool) (va : Nat) (s : State) : p (Machine.hvLook wr va s).2 = p s := by
  fun_cases Machine.hvLook wr va s <;>
    grind [AccessBlind.translate, AccessBlind.touch, AccessBlind.recall]

theorem AccessBlind.hvTry {wr : Bool} {va pa : Nat} {s t : State} (h : Machine.hvTry wr va s = .ok (pa, t)) :
    p t = p s := by
  have hl := hp.hvLook wr va s
  unfold Machine.hvTry at h
  split at h
  · next e =>
    rw [e] at hl
    cases h
    exact hl
  · cases h

/-- A read by the hardware leaves what its look at the address leaves. -/
theorem AccessBlind.hvRead {va n : Nat} {s t : State} {b : List Byte} (h : (Machine.hvRead va n s).ans = .ok (b, t)) :
    p t = p s := by
  have hl := hp.hvLook false va s
  unfold Machine.hvRead at h
  rw [Run.ans_bind] at h
  split at h
  · cases h
    rwa [held_state ‹_›] at hl
  · cases h

theorem AccessBlind.putGlobal (s : State) (va pa : Nat) (b : List Byte) : p (s.putGlobal va pa b) = p s :=
  (hp.cores ..).trans (hp.putPhys ..)

theorem AccessBlind.hvPut {va : Nat} {b : List Byte} {s t : State} (h : s.hvPut va b = some t) : p t = p s := by
  unfold State.hvPut at h
  split at h
  · cases h
    exact (hp.putGlobal ..).trans (hp.hvTry ‹_›)
  · cases h

theorem AccessBlind.pushBottom {c : Nat} {e : Word} {s t : State} (h : s.pushBottom c e = some t) : p t = p s :=
  pushBottom_keeps p (fun s _ _ => hp.cores s _) hp.freeCtr h

theorem AccessBlind.wakeSlot {c slot old : Nat} {s t : State} (h : Machine.wakeSlot c slot s = .woke old t) :
    p t = p s := by
  unfold Machine.wakeSlot at h
  split at h
  · cases h
  · have ht := hp.hvTry ‹_›
    extract_lets st at h
    clear_value st
    split at h
    · cases h
    · split at h
      · split at h
        · cases h
          exact (hp.pushBottom ‹_›).trans <| (hp.putGlobal ..).trans ht
        · cases h
      · split at h
        · cases h
          exact (hp.cores ..).trans <| (hp.putGlobal ..).trans ht
        · cases h
          exact ht

theorem AccessBlind.tryWake {c slot : Nat} {s t : State} (h : Machine.tryWake c slot s = some t) : p t = p s := by
  unfold Machine.tryWake at h
  split at h
  · cases h
    exact hp.wakeSlot ‹_›
  · obtain ⟨u, hu, rfl⟩ := Option.map_eq_some_iff.mp h
    exact (hp.hw ..).trans (hp.hvPut hu)
  · cases h

theorem AccessBlind.wakePager (s : State) (c dom : Nat) : p (s.wakePager c dom) = p s := by
  unfold State.wakePager State.hwWake
  split
  · split
    · rfl
    · cases h : Machine.tryWake c _ s with
      | none => exact hp.hw ..
      | some t => exact hp.tryWake h
  · rfl
end

/-- A halt is reported to a domain's function and its pager; the focus stays (21 R452). -/
@[simp] theorem haltReport_focus (s : State) (c x dom : Nat) : (s.haltReport c x dom).focus = s.focus :=
  accessBlind_focus.wakePager ..

end Sys2Proof.Machine
end

section
/-! PROOF. Traps and returns (07 R178 to R182): O18, O20 -/

namespace Sys2Proof.Machine
open Sys2Proof.Safety

/-! ### The status register (07 R183) -/

/-- The four fields of kstat read back as they were put together, and no other bit is set. -/
theorem mkStat_fields (sup pm t r : Bool) :
    (mkStat sup pm t r).getLsbD 0 = sup ∧ (mkStat sup pm t r).getLsbD 1 = pm ∧ (mkStat sup pm t r).getLsbD 2 = t ∧
      (mkStat sup pm t r).getLsbD 3 = r ∧ (mkStat sup pm t r).toNat < 16 := by
  revert sup pm t r
  decide

/-! ### Trap entry and halt (07 R178, R180, R181) -/

/-- The saved PC is the next bundle's for BKPT and SYSC, the bundle's for every other cause. -/
theorem takeTrap_outside {s : State} (h : s.cur.inTrap = false) (c : Nat) (i : Word) :
    takeTrap s c i = s.setCur { s.cur with
      kepc := if c = 9 ∨ c = 10 then s.focus.next else s.focus.pc, kcause := wd c, kinfo := i
      kstat := mkStat true s.cur.sup true s.cur.rchk, pc := s.cur.ktvec, st := .ready } :=
  if_neg (ne_true_of_eq_false h)

theorem takeTrap_inside {s : State} (h : s.cur.inTrap = true) (c : Nat) (i : Word) :
    takeTrap s c i =
      (s.setCur { s.cur with st := .halted, pc := s.focus.pc }).haltReport s.focus.core s.focus.ctx s.cur.kdom.toNat :=
  if_pos h

/-- What a trap within a trap settles of its context: that it has halted, and what the first trap saved. -/
def Ctx.haltRecord (x : Ctx) : Bool × Word × Word × Word := (x.st == .halted, x.kepc, x.kcause, x.kinfo)

/-- A sleeper that is woken had not halted. -/
theorem hwBlind_haltRecord : HwBlind Ctx.haltRecord :=
  ⟨fun _ _ => rfl, fun x d h => by rw [Ctx.haltRecord, Ctx.haltRecord, h]; rfl⟩

/-- A halt's report leaves of the executing context what no wake changes. -/
theorem haltReport_cur {β : Type} {f : Ctx → β} (hf : HwBlind f) (s : State) (c x dom : Nat) :
    f (s.haltReport c x dom).cur = f s.cur := by
  rw [State.cur, haltReport_focus]
  exact KeepsCtxs.ctxAt (KeepsCtxs.haltReport hf .refl) ..

theorem takeTrap_inside_haltRecord {s : State} (h : s.cur.inTrap = true) (c : Nat) (i : Word) :
    (takeTrap s c i).cur.haltRecord = (true, s.cur.kepc, s.cur.kcause, s.cur.kinfo) := by
  rw [takeTrap_inside h, haltReport_cur hwBlind_haltRecord, State.cur_setCur]
  rfl

/-- Settles O18: outside a trap by the fields of kstat, within one by what a halt's report leaves of the context. -/
theorem trapEntry : Obligations.TrapEntry := by
  refine ⟨fun s cause info h => ?_, fun s cause info h => ?_⟩
  · obtain ⟨hs, hpm, ht, hr, hlt⟩ := mkStat_fields true s.cur.sup true s.cur.rchk
    exact ⟨_, hs, hpm, ht, hr, hlt, takeTrap_outside h cause info⟩
  · have hrec := takeTrap_inside_haltRecord h cause info
    simp only [Ctx.haltRecord, Prod.mk.injEq, beq_iff_eq] at hrec
    exact ⟨takeTrap_inside h cause info, hrec⟩

/-! ### RETT (07 R182) -/

theorem rett_returns {s : State} (hs : s.cur.sup = true) (ho : s.cur.packetOpen = false) :
    Completes .rett s (returnTrap s) := by
  show execRett s = _
  rw [execRett, hs, ho]
  rfl

theorem rett_ill {s : State} (h : s.cur.sup = false ∨ s.cur.packetOpen = true) : Traps .rett s 1 (illInfo s) := by
  refine Traps.asked execRett rfl ?_
  rw [execRett, if_pos (by simpa using h)]

/-- Settles O20, by the fields of the kstat that RETT writes. -/
theorem returnFromTrap : Obligations.ReturnFromTrap := by
  refine fun s => ⟨fun hs ho => ?_, rett_ill⟩
  obtain ⟨h0, h1, h2, h3, hlt⟩ := mkStat_fields s.cur.pm s.cur.pm false s.cur.rchk
  exact ⟨_, h0, h1, h2, h3, hlt, rett_returns hs ho⟩

end Sys2Proof.Machine
end

section
/-! PROOF. Control registers, SLEEP and REPART (07 R183 to R185, 08 R226, R227): O55 -/

namespace Sys2Proof.Machine
open Sys2Proof.Safety

/-! ### Words that make no access -/

section
variable {i : Instr} {s : State} {b : State → Except Stop State} (hl : legal s i = true)
  (m : State → Host.Outcome State Fault Refusal) (he : exec i s = m s) (hm : m s = guarded i s b)
include hl he hm

/-- A legal word that makes no access completes when its effect ends well. -/
theorem Completes.of_guarded {t : State} (h : b s = .ok t) : Completes i s t :=
  (he.trans hm).trans (guarded_completes hl h)

/-- A legal word that makes no access stops as its effect stops. -/
theorem StopsWith.of_guarded {st : Stop} (h : b s = .error st) (hf : ∀ f, st ≠ .fault f) : StopsWith i s st :=
  (he.trans hm).trans (guarded_stops hl h hf)
end

/-- What follows a first part that is done. -/
theorem bind_of_ok {ε α β : Type} {m : Except ε α} {a : α} (h : m = .ok a) (f : α → Except ε β) : (m >>= f) = f a := by
  rw [h]
  rfl

/-! ### Who may use a control register (07 R183) -/

theorem kAllowed_two (s : State) : kAllowed s 2 = true := rfl

theorem kAllowed_one (s : State) : kAllowed s 1 = s.cur.sup := rfl

theorem kAllowed_zero (s : State) : kAllowed s 0 = false := rfl

/-- The registers that only supervisor mode reads, among the 28 that there are. -/
theorem kAllowed_readable (s : State) (n : Nat) :
    kAllowed s (kReadable n) = true ↔
      n ≤ 27 ∧ (n ∈ [4, 9, 10, 11, 12, 16, 17, 19, 20, 22, 23, 24, 25] → s.cur.sup = true) := by
  simp only [List.mem_cons, List.not_mem_nil, or_false]
  unfold kReadable
  split
  · rw [kAllowed_one]
    exact ⟨fun h => ⟨by omega, fun _ => h⟩, fun h => h.2 (by omega)⟩
  · split
    · exact iff_of_true (kAllowed_two s) ⟨by omega, fun h => by omega⟩
    · exact iff_of_false (ne_true_of_eq_false (kAllowed_zero s)) fun h => by omega

/-- The registers that both modes write, and those that supervisor mode writes too. -/
theorem kAllowed_writable (s : State) (n : Nat) :
    kAllowed s (kWritable n) = true ↔
      n ∈ [6, 8, 14] ∨ (n ∈ [0, 1, 2, 3, 4, 7, 9, 10, 11, 12, 16, 17, 20] ∧ s.cur.sup = true) := by
  simp only [List.mem_cons, List.not_mem_nil, or_false]
  unfold kWritable
  split
  · exact iff_of_true (kAllowed_two s) (.inl ‹_›)
  · split
    · rw [kAllowed_one]
      exact ⟨fun h => .inr ⟨by omega, h⟩, fun h => (h.resolve_left ‹_›).2⟩
    · exact iff_of_false (ne_true_of_eq_false (kAllowed_zero s)) fun h => by omega

/-- A read of a port leaves the mode. -/
theorem readReg_kAllowed {f : Nat} {s t : State} {v : Word} (h : readReg f s = .ok (v, t)) (who : Nat) :
    kAllowed t who = kAllowed s who := by
  rw [kAllowed, kAllowed, readReg_ctx Ctx.sup (fun _ _ _ => rfl) h]

/-- A read of a port leaves which word executes. -/
theorem readReg_illInfo {f : Nat} {s t : State} {v : Word} (h : readReg f s = .ok (v, t)) : illInfo t = illInfo s := by
  rw [illInfo, illInfo, readReg_focus h]

/-! ### MFK and MTK (08 R226) -/

section
variable {d a : BitVec 6} {s : State}

theorem mfk_completes {u : State} (hl : legal s (.mfk d a) = true) (h : kAllowed s (kReadable a.toNat) = true)
    (hw : writeReg d.toNat (ctlRead s a.toNat) s = .ok u) : Completes (.mfk d a) s u := by
  refine Completes.of_guarded hl (execMfk d a) rfl rfl ?_
  rw [if_pos h, hw]

theorem mfk_ill (hl : legal s (.mfk d a) = true) (h : ¬kAllowed s (kReadable a.toNat) = true) :
    Traps (.mfk d a) s 1 (illInfo s) := by
  refine StopsWith.of_guarded hl (execMfk d a) rfl rfl ?_ fun _ => nofun
  rw [if_neg h, ill]

section
variable {t : State} {v : Word} (hl : legal s (.mtk d a) = true) (hr : readReg a.toNat s = .ok (v, t))
include hl hr

theorem mtk_completes {u : State} (h : kAllowed s (kWritable d.toNat) = true) (hw : ctlWrite d.toNat v t = .ok u) :
    Completes (.mtk d a) s u := by
  refine Completes.of_guarded hl (execMtk d a) rfl rfl ((bind_of_ok hr _).trans ?_)
  dsimp only
  rw [if_pos ((readReg_kAllowed hr _).trans h), hw]

theorem mtk_ill (h : ¬kAllowed s (kWritable d.toNat) = true) : Traps (.mtk d a) s 1 (illInfo s) := by
  refine StopsWith.of_guarded hl (execMtk d a) rfl rfl ((bind_of_ok hr _).trans ?_) fun _ => nofun
  dsimp only
  rw [if_neg (by rwa [readReg_kAllowed hr]), ill, readReg_illInfo hr]
end
end

/-! ### What a control register takes (07 R183) -/

/-- The low five bits of kfpe, bits 8 to 12 and bit 16 exist (04 R89). -/
theorem kfpeMask_getLsbD (v : Word) (k : Nat) :
    (kfpeMask v).getLsbD k = ((decide (k < 5) || decide (8 ≤ k ∧ k < 13) || decide (k = 16)) && v.getLsbD k) := by
  have hmask : ∀ k, k < 64 →
      (0x11F1F : Word).getLsbD k = (decide (k < 5) || decide (8 ≤ k ∧ k < 13) || decide (k = 16)) := by decide
  rw [kfpeMask, BitVec.getLsbD_and, Bool.and_comm]
  by_cases h : k < 64
  · rw [hmask k h]
  · rw [BitVec.getLsbD_of_ge v k (by omega), Bool.and_false, Bool.and_false]

section
variable (s : State) (v : Word)

theorem ctlWrite_kstat : ∃ st : Word, ctlWrite 0 v s = .ok (s.setCur { s.cur with kstat := st }) ∧
    st.getLsbD 0 = s.cur.sup ∧ st.getLsbD 1 = v.getLsbD 1 ∧ st.getLsbD 2 = v.getLsbD 2 ∧ st.getLsbD 3 = v.getLsbD 3 ∧
    st.toNat < 16 := by
  have hf := mkStat_fields s.cur.sup (bitW v 1) (bitW v 2) (bitW v 3)
  simp only [bitW_eq_getLsbD v] at hf
  refine ⟨_, ?_, hf⟩
  simp only [ctlWrite, bitW_eq_getLsbD v]

theorem ctlWrite_ktvec (h : v.toNat % 4 = 0) : ctlWrite 4 v s = .ok (s.setCur { s.cur with ktvec := v }) :=
  if_neg (not_not.mpr h)

theorem ctlWrite_ktvec_misaligned (h : v.toNat % 4 ≠ 0) : ctlWrite 4 v s = .error (.trap 1 (illInfo s)) := if_pos h

theorem ctlWrite_kovf :
    ctlWrite 14 v s = .ok (s.setCur { s.cur with kovf := BitVec.ofNat 64 (v.toNat % 2 ^ 32) }) := by
  simp only [ctlWrite, bitsW_low, wd]

theorem ctlWrite_kfpe : ∃ f : Word, ctlWrite 6 v s = .ok (s.setCur { s.cur with kfpe := f }) ∧
    ∀ k, f.getLsbD k = ((decide (k < 5) || decide (8 ≤ k ∧ k < 13) || decide (k = 16)) && v.getLsbD k) :=
  ⟨kfpeMask v, rfl, kfpeMask_getLsbD v⟩

theorem ctlWrite_kscr : ∀ n, n < 4 → ctlWrite (9 + n) v s = .ok (s.setCur { s.cur with kscr := sset s.cur.kscr n v })
  | 0, _ | 1, _ | 2, _ | 3, _ => rfl

theorem ctlRead_kscr : ∀ n, n < 4 → ctlRead s (9 + n) = sget 0 s.cur.kscr n
  | 0, _ | 1, _ | 2, _ | 3, _ => rfl
end

/-- The layout of local memory changes only at quiescence (07 R184). -/
theorem writeLayout_busy {s : State} (h : quiescent s s.focus.core s.focus.ctx = false) (kcpool kmap : Word) :
    writeLayout kcpool kmap s = .error (.trap 1 (illInfo s)) := by
  rw [writeLayout, h]
  rfl

/-! ### SLEEP (08 R227) -/

/-- What ends a sleep as it begins: its deadline has passed, or a unit stands at a port that it watches. -/
theorem sleepDue_iff (s : State) (x k : Word) :
    ((x != 0 && decide (x.toNat ≤ k.toNat)) || sleepUnit s) = true ↔
      (x ≠ 0 ∧ x.toNat ≤ k.toNat) ∨ s.cur.rx0.units ≠ [] ∨ (s.isComm = true ∧ s.cur.rx1.units ≠ []) := by
  simp [sleepUnit]

section
variable {x : Word} {t : State} (unit : Bool)

/-- A context without a continuation slot has no W. -/
theorem sleepOver_noSlot (h : t.cur.slot = 0) : sleepOver unit x t =
    pure (if ((x != 0 && decide (x.toNat ≤ t.ktime.toNat)) || unit) = true then some t else none) := by
  rw [sleepOver, h]
  rfl

theorem sleepOver_stops {st : Stop} (h : t.cur.slot ≠ 0) (hs : (hvRead t.cur.slot.toNat 8 t).ans = .error st) :
    (sleepOver unit x t).ans = .error st := by
  unfold sleepOver
  dsimp only
  rw [if_neg (show t.cur.slot.toNat ≠ 0 from BitVec.toNat_ne.mp h)]
  exact Run.ans_bind_error hs _

/-- With the slot's word read, W decides: it is cleared, or what else ends the sleep is asked. -/
theorem sleepOver_read {q : State} {b : List Byte} (h : t.cur.slot ≠ 0)
    (hb : (hvRead t.cur.slot.toNat 8 t).ans = .ok (b, q)) : (sleepOver unit x t).ans =
      if ofBytes b % 2 = 1 then (hvWrite t.cur.slot.toNat (leBytes 8 (ofBytes b - 1)) q).ans.map some
      else .ok (if ((x != 0 && decide (x.toNat ≤ t.ktime.toNat)) || unit) = true then some q else none) := by
  unfold sleepOver
  dsimp only
  rw [if_neg (show t.cur.slot.toNat ≠ 0 from BitVec.toNat_ne.mp h)]
  refine Run.step hb ?_
  dsimp only
  simp only [fieldN_bit0, beq_iff_eq, accessBlind_ktime.hvRead hb]
  split
  · rw [Run.ans_bind]
    cases (hvWrite t.cur.slot.toNat (leBytes 8 (ofBytes b - 1)) q).ans with
    | ok u => rfl
    | error st => rfl
  · rfl
end

section
variable {a : BitVec 6} {s t : State} {x : Word}

section
variable (hr : readReg a.toNat s = .ok (x, t))
include hr

theorem sleepBody_ans {r : Option State} (h : (sleepOver (sleepUnit s) x t).ans = .ok r) :
    (sleepBody a s).ans = .ok (x, r) :=
  Run.stepLift hr (Run.step h rfl)

theorem sleepBody_stops {st : Stop} (h : (sleepOver (sleepUnit s) x t).ans = .error st) :
    (sleepBody a s).ans = .error st :=
  Run.stepLift hr (Run.ans_bind_error h _)

/-- Its operand takes no access: what SLEEP leaves is what the look at its slot leaves. -/
theorem sleepBody_left : (sleepBody a s).left = (sleepOver (sleepUnit s) x t).left := by
  rw [sleepBody, hr]
  simp only [Run.left_bind, Run.left_lift, Run.ans_lift, List.nil_append, Run.left_pure]
  split <;> simp
end

variable (hl : legal s (.sleep a) = true)
include hl

theorem sleep_goesOn {u : State} (h : (sleepBody a s).ans = .ok (x, some u)) : Completes (.sleep a) s u := by
  show execSleep a s = _
  rw [execSleep, if_pos hl]
  dsimp only
  rw [h]
  rfl

theorem sleep_sleeps (h : (sleepBody a s).ans = .ok (x, none)) :
    exec (.sleep a) s = .next { backOut (s.seeing (sleepBody a s).left) (.sleeping x) with last := .held } := by
  show execSleep a s = _
  rw [execSleep, if_pos hl]
  dsimp only
  rw [h]

/-- With no slot, no access is made. -/
theorem sleep_noSlot_sleeps (hr : readReg a.toNat s = .ok (x, t)) (h0 : t.cur.slot = 0)
    (hd : ¬((x != 0 && decide (x.toNat ≤ t.ktime.toNat)) || sleepUnit s) = true) :
    exec (.sleep a) s = .next { backOut s (.sleeping x) with last := .held } := by
  have hnone : sleepOver (sleepUnit s) x t = pure none := by rw [sleepOver_noSlot _ h0, if_neg hd]
  have h := sleep_sleeps hl (sleepBody_ans hr (by rw [hnone]; rfl))
  rwa [sleepBody_left hr, hnone, Run.left_pure, seeing_nil] at h

theorem sleep_stops {st : Stop} (h : (sleepBody a s).ans = .error st) (hf : ∀ f, st ≠ .fault f) :
    StopsAfter (.sleep a) s st := by
  refine ⟨(sleepBody a s).left, ?_⟩
  show execSleep a s = _
  rw [execSleep, if_pos hl]
  dsimp only
  rw [h]
  exact finish_stop _ st hf
end

/-! ### REPART (07 R185) -/

section
variable {d a : BitVec 6} {s : State} (hl : legal s (.repart d a) = true)
include hl

theorem repart_otherContext (h : s.focus.ctx ≠ 0) : Traps (.repart d a) s 1 (illInfo s) := by
  refine StopsWith.of_guarded hl (execRepart d a) rfl rfl ?_ fun _ => nofun
  dsimp only
  rw [if_pos h, ill]

section
variable {t : State} {x : Word} (h : s.focus.ctx = 0) (hr : readReg a.toNat s = .ok (x, t))
include h hr

theorem repart_switches {u : State} (hq : quiescent t t.focus.core 0 = true)
    (hw : writeReg d.toNat (modeWord t.core.kmode) t = .ok u) :
    Completes (.repart d a) s (u.setCoreCur (u.core.switchTo (bitW x 0) (u.cycle + 1))) := by
  refine Completes.of_guarded hl (execRepart d a) rfl rfl ?_
  dsimp only
  rw [if_neg (not_not.mpr h)]
  refine (bind_of_ok hr _).trans ?_
  dsimp only
  rw [hq]
  exact bind_of_ok hw _

theorem repart_waits (hq : quiescent t t.focus.core 0 = false) : StopsWith (.repart d a) s (.wait .quiesce) := by
  refine StopsWith.of_guarded hl (execRepart d a) rfl rfl ?_ fun _ => nofun
  dsimp only
  rw [if_neg (not_not.mpr h)]
  refine (bind_of_ok hr _).trans ?_
  dsimp only
  rw [hq]
  rfl
end
end

/-! ### What a switch leaves of the contexts (07 R185, 12 R286) -/

/-- A property of a table's values that holds after every value of a list has been put where its key says. -/
theorem sget_foldl_sset {α γ : Type} {P : Nat → α → Prop} {d : α} {g : Nat × γ → α} {l : List (Nat × γ)} {m : SMap α}
    (hm : ∀ k, P k (sget d m k)) (hl : ∀ q ∈ l, P q.1 (g q)) :
    ∀ k, P k (sget d (l.foldl (fun m q => sset m q.1 (g q)) m) k) := by
  refine List.foldlRecOn (motive := fun m => ∀ k, P k (sget d m k)) _ _ hm fun m hm q hq k => ?_
  rw [sget_sset]
  split
  · next e => exact e ▸ hl q hq
  · exact hm k

/-- The context has no region register set and no held entry of the vector sequencer. -/
def Ctx.freed (x : Ctx) : Prop := x.vq = [] ∧ x.q = []

/-- What a switch to the other mode leaves of context `n`: only context 0 goes on. -/
def Ctx.switched (n : Nat) (x : Ctx) : Prop := x.freed ∧ (n ≠ 0 → x.st = .idle)

section
variable (k : Core)

/-- A core whose contexts, full bits and barriers every REPART resets. -/
def Core.unbound : Core := { k with ctxs := k.ctxs.map (fun p => (p.1, p.2.unbound)), full := [], hb := [] }

theorem unbound_ctxAt (x : Nat) : (k.unbound.ctxAt x).freed :=
  sget_map (p := fun _ c => c.freed) (g := fun p => (p.1, p.2.unbound)) ⟨rfl, rfl⟩ (fun _ => ⟨rfl, rfl, rfl⟩) k.ctxs x

theorem switchTo_same (n : Nat) : k.switchTo k.kmode n = k.unbound := if_pos rfl

variable {k} {m : Bool} (h : m ≠ k.kmode) (n : Nat)
include h

theorem switchTo_other : k.switchTo m n = { k.unbound with
    ctxs := (k.unbound.ctxs.filter (fun p => p.1 != 0)).foldl (fun t p => sset t p.1 (p.2.cleared (decide (p.1 < 8))))
      [(0, { k.unbound.ctxAt 0 with g := (k.unbound.ctxAt 0).g.filter (fun r => decide (r.1 < 28)) })]
    kmode := m
    began := n } := if_neg h

theorem switchTo_other_ctxAt (x : Nat) : ((k.switchTo m n).ctxAt x).switched x := by
  rw [switchTo_other h n]
  refine sget_foldl_sset (P := Ctx.switched) (fun y => ?_) (fun q _ => ⟨⟨rfl, rfl⟩, fun _ => rfl⟩) x
  rw [sget]
  split
  · next e => exact ⟨unbound_ctxAt k 0, fun hy => absurd e hy⟩
  · exact ⟨⟨rfl, rfl⟩, fun _ => rfl⟩
end

theorem switchTo_effect (k : Core) (m : Bool) (n : Nat) : (k.switchTo m n).kmode = m ∧ (k.switchTo m n).full = [] ∧
    (k.switchTo m n).hb = [] ∧ (∀ x, ((k.switchTo m n).ctxAt x).freed) ∧
    (m ≠ k.kmode → (k.switchTo m n).began = n ∧ ∀ x, x ≠ 0 → ((k.switchTo m n).ctxAt x).st = .idle) := by
  by_cases h : m = k.kmode
  · subst h
    rw [switchTo_same]
    exact ⟨rfl, rfl, rfl, unbound_ctxAt k, fun h => absurd rfl h⟩
  · have hx := switchTo_other_ctxAt h n
    have e := switchTo_other h n
    exact ⟨congrArg Core.kmode e, congrArg Core.full e, congrArg Core.hb e, fun x => (hx x).1,
      fun _ => ⟨congrArg Core.began e, fun x => (hx x).2⟩⟩

/-- Settles O55: MFK and MTK by who may use the register, SLEEP by its slot's word, REPART by quiescence. -/
theorem systemWords : Obligations.SystemWords := by
  refine ⟨fun d a s t u v => ⟨?_, ?_, ?_, ?_, ?_, ?_⟩, fun d a s t u x hr => ⟨?_, ?_, ?_, ?_, ?_, ?_, ?_⟩⟩
  · exact fun hl hm hw => mfk_completes hl ((kAllowed_readable s _).mpr hm) hw
  · exact fun hl hm => mfk_ill hl (mt (kAllowed_readable s _).mp hm)
  · exact fun hl hr hm hw => mtk_completes hl hr ((kAllowed_writable s _).mpr hm) hw
  · exact fun hl hr hm => mtk_ill hl hr (mt (kAllowed_writable s _).mp hm)
  · exact ⟨rfl, rfl, rfl, rfl, rfl, rfl, rfl, rfl, rfl, ctlRead_kscr s, rfl, rfl, rfl, rfl, rfl, rfl, rfl, rfl, rfl⟩
  · exact ⟨ctlWrite_kstat s v, rfl, rfl, ctlWrite_ktvec s v, ctlWrite_ktvec_misaligned s v, rfl, rfl, ctlWrite_kovf s v,
      ctlWrite_kfpe s v, ctlWrite_kscr s v, fun h => ⟨writeLayout_busy h .., writeLayout_busy h ..⟩⟩
  · refine fun hl h0 hd => sleep_goesOn hl (sleepBody_ans hr ?_)
    rw [sleepOver_noSlot _ h0, if_pos ((sleepDue_iff ..).mpr hd), Run.ans_pure]
  · exact fun hl h0 hd => sleep_noSlot_sleeps hl hr h0 (mt (sleepDue_iff ..).mp hd)
  · refine fun hl h0 b q hb => ⟨fun hw hu => ?_, fun hw hd => ?_, fun hw hd => ?_⟩
    · refine sleep_goesOn hl (sleepBody_ans hr ?_)
      rw [sleepOver_read _ h0 hb, if_pos hw, hu, Except.map]
    · refine sleep_goesOn hl (sleepBody_ans hr ?_)
      rw [sleepOver_read _ h0 hb, if_neg (by omega), if_pos ((sleepDue_iff ..).mpr hd)]
    · refine ⟨_, sleep_sleeps hl (sleepBody_ans hr ?_)⟩
      rw [sleepOver_read _ h0 hb, if_neg (by omega), if_neg (mt (sleepDue_iff ..).mp hd)]
  · exact fun hl h0 p n r hs => sleep_stops hl (sleepBody_stops hr (sleepOver_stops _ h0 hs)) fun _ => nofun
  · exact repart_otherContext
  · refine fun hl h => ⟨fun hq hw => ?_, repart_waits hl h hr⟩
    rw [← bitW_eq_getLsbD]
    exact repart_switches hl h hr hq hw
  · exact switchTo_effect

end Sys2Proof.Machine
end

section
/-! PROOF. Canonical forms (09 R239 to R241): O36 -/

namespace Sys2Proof.Machine

/-! ### Cells of boxes and of their cross-sections -/

theorem dimHas_iff {d : Dim} {v : Int} : dimHas d v = true ↔ (d.lo ≤ v ∧ v < d.hi) ∧ (d.step : Int) ∣ v - d.lo := by
  rw [dimHas, Bool.and_eq_true, decide_eq_true_eq, beq_iff_eq, Int.dvd_iff_emod_eq_zero]

/-- A cell with a coordinate more: the dimension of that place holds it. -/
theorem boxHas_concat {x : List Int} {b : Box} {d : Dim} (h : b[x.length]? = some d) (v : Int) :
    boxHas b (x ++ [v]) = (boxHas b x && dimHas d v) := by
  induction x generalizing b with
  | nil =>
    cases b with
    | nil => cases h
    | cons e r => cases h; simp [boxHas]
  | cons y x ih =>
    cases b with
    | nil => cases h
    | cons e r =>
      have hr := ih (b := r) (by simpa using h)
      simp only [boxHas, List.cons_append, List.zip_cons_cons, List.all_cons] at hr ⊢
      rw [hr, Bool.and_assoc]

/-- Dimensions beyond a cell's do not bear on it. -/
theorem boxHas_append {b r : Box} {x : List Int} (h : b.length = x.length) : boxHas (b ++ r) x = boxHas b x := by
  have hz : (b ++ r).zip x = b.zip x := by
    simpa using List.zip_append (l₁ := b) (r₁ := r) (l₂ := x) (r₂ := []) h
  rw [boxHas, hz, boxHas]

theorem cellIn_iff {bs : List Box} {x : List Int} : cellIn bs x = true ↔ ∃ b ∈ bs, boxHas b x = true := List.any_eq_true

/-- Of no dimensions there is one cell, which every box holds. -/
theorem cellIn_nil (bs : List Box) : cellIn bs [] = !bs.isEmpty := by
  cases bs <;> simp [cellIn, boxHas]

section
variable {k : Nat} {bs : List Box} (h : ∀ b ∈ bs, k < b.length)
include h

theorem mem_crossSec {b : Box} {v : Int} : b ∈ crossSec k v bs ↔ b ∈ bs ∧ ∃ d, b[k]? = some d ∧ dimHas d v = true := by
  rw [crossSec, List.mem_filter]
  refine and_congr_right fun hb => ?_
  rw [List.getElem?_eq_getElem (h b hb)]
  simp

theorem crossSec_rank {v : Int} : ∀ b ∈ crossSec k v bs, k ≤ b.length :=
  fun b hb => (h b ((mem_crossSec h).mp hb).1).le

/-- The cross-section at `v` holds the cells whose last coordinate is `v`. -/
theorem cellIn_crossSec {x : List Int} (hx : x.length = k) (v : Int) : cellIn (crossSec k v bs) x = cellIn bs (x ++ [v]) := by
  rw [Bool.eq_iff_iff, cellIn_iff, cellIn_iff]
  subst hx
  constructor
  · rintro ⟨b, hb, hbx⟩
    obtain ⟨hbs, d, hd, hv⟩ := (mem_crossSec h).mp hb
    exact ⟨b, hbs, by rw [boxHas_concat hd, hbx, hv]; rfl⟩
  · rintro ⟨b, hbs, hbx⟩
    have hd := List.getElem?_eq_getElem (h b hbs)
    rw [boxHas_concat hd, Bool.and_eq_true] at hbx
    exact ⟨b, (mem_crossSec h).mpr ⟨hbs, _, hd, hbx.2⟩, hbx.1⟩
end

/-! ### The coordinates that boxes take in one dimension -/

theorem foldl_min_le {α : Type} (f : α → Int) (l : List α) (z : Int) :
    l.foldl (fun m e => min m (f e)) z ≤ z ∧ ∀ e ∈ l, l.foldl (fun m e => min m (f e)) z ≤ f e := by
  induction l generalizing z with
  | nil => simp
  | cons e r ih =>
    obtain ⟨hz, hr⟩ := ih (min z (f e))
    refine ⟨hz.trans (min_le_left ..), fun c hc => ?_⟩
    obtain rfl | hc := List.mem_cons.mp hc
    · exact hz.trans (min_le_right ..)
    · exact hr c hc

theorem le_foldl_max {α : Type} (f : α → Int) (l : List α) (z : Int) :
    z ≤ l.foldl (fun m e => max m (f e)) z ∧ ∀ e ∈ l, f e ≤ l.foldl (fun m e => max m (f e)) z := by
  induction l generalizing z with
  | nil => simp
  | cons e r ih =>
    obtain ⟨hz, hr⟩ := ih (max z (f e))
    refine ⟨(le_max_left ..).trans hz, fun c hc => ?_⟩
    obtain rfl | hc := List.mem_cons.mp hc
    · exact (le_max_right ..).trans hz
    · exact hr c hc

/-- Of boxes that have dimension `k`, only none at all have no span in it. -/
theorem spanOf_none {k : Nat} {bs : List Box} (hk : ∀ b ∈ bs, k < b.length) (h : spanOf k bs = none) : bs = [] := by
  unfold spanOf at h
  dsimp only at h
  split at h
  · rename_i e
    refine List.eq_nil_iff_forall_not_mem.mpr fun b hb => ?_
    have hnone := List.filterMap_eq_nil_iff.mp e b hb
    exact absurd (List.getElem?_eq_none_iff.mp hnone) (Nat.not_le.mpr (hk b hb))
  · cases h

/-- Every box lies within the span. -/
theorem spanOf_bounds {k n : Nat} {bs : List Box} {lo : Int} (h : spanOf k bs = some (lo, n)) {b : Box} {d : Dim}
    (hb : b ∈ bs) (hd : b[k]? = some d) : lo ≤ d.lo ∧ d.hi ≤ lo + n := by
  have hmem : d ∈ bs.filterMap (fun b => b[k]?) := List.mem_filterMap.mpr ⟨b, hb, hd⟩
  unfold spanOf at h
  dsimp only at h
  split at h
  · cases h
  · rename_i c r e
    rw [e] at hmem
    cases h
    obtain ⟨hlo, hlos⟩ := foldl_min_le Dim.lo r c.lo
    obtain ⟨hhi, hhis⟩ := le_foldl_max Dim.hi r c.hi
    obtain rfl | hr := List.mem_cons.mp hmem
    · omega
    · have := hlos d hr
      have := hhis d hr
      omega

/-- Outside the span no box has a cross-section. -/
theorem crossSec_outside {k n : Nat} {bs cs : List Box} {lo v : Int} (h : ∀ b ∈ bs, k < b.length) (hsub : ∀ b ∈ bs, b ∈ cs)
    (hs : spanOf k cs = some (lo, n)) (hv : ¬(lo ≤ v ∧ v < lo + n)) : crossSec k v bs = [] := by
  refine List.eq_nil_iff_forall_not_mem.mpr fun b hb => hv ?_
  obtain ⟨hbs, d, hd, hdv⟩ := (mem_crossSec h).mp hb
  obtain ⟨hlo, hhi⟩ := spanOf_bounds hs (hsub b hbs) hd
  have := (dimHas_iff.mp hdv).1
  omega

/-! ### The values of a dimension that have a cross-section -/

/-- What a memo holds is what is computed. -/
def CrossMemo.Holds (f : List Box → List Box → List Box) (m : CrossMemo) : Prop := ∀ e ∈ m, e.2 = f e.1.1 e.1.2

theorem CrossMemo.holds_nil (f : List Box → List Box → List Box) : CrossMemo.Holds f [] :=
  fun _ h => absurd h List.not_mem_nil

theorem crossMemo_eq {f : List Box → List Box → List Box} {m : CrossMemo} (hm : m.Holds f) (a b : List Box) :
    (crossMemo f m a b).1 = f a b ∧ (crossMemo f m a b).2.Holds f := by
  unfold crossMemo
  split
  · rename_i e he
    have hkey : e.1 = (a, b) := by simpa using List.find?_some he
    exact ⟨by rw [hm e (List.mem_of_find?_eq_some he), hkey], hm⟩
  · refine ⟨rfl, fun e he => ?_⟩
    obtain rfl | he := List.mem_cons.mp he
    · rfl
    · exact hm e he

/-- The values of a range with their cross-sections, in order. -/
theorem crossAll_eq {f : List Box → List Box → List Box} {m : CrossMemo} (hm : m.Holds f) (k : Nat) (a b : List Box) (n : Nat)
    (v : Int) : crossAll f k a b n v m =
      ((List.range n).map (fun (i : Nat) => (v + (i : Int), f (crossSec k (v + i) a) (crossSec k (v + i) b)))).filter
        (fun p => !p.2.isEmpty) := by
  induction n generalizing v m with
  | zero => rfl
  | succ n ih =>
    obtain ⟨hval, hm'⟩ := crossMemo_eq hm (crossSec k v a) (crossSec k v b)
    rw [List.range_succ_eq_map, List.map_cons, List.map_map, List.filter_cons]
    have hrest := ih hm' (v + 1)
    have hshift : ∀ i : Nat, v + 1 + (i : Int) = v + ((i + 1 : Nat) : Int) := fun i => by omega
    simp only [hshift] at hrest
    simp only [crossAll, hval, Int.natCast_zero, Int.add_zero]
    rw [hrest]
    cases (f (crossSec k v a) (crossSec k v b)).isEmpty <;> rfl

section
variable (f : List Box → List Box → List Box) (k : Nat) (a b : List Box) (n : Nat) (v : Int)

theorem crossAll_sorted : (crossAll f k a b n v []).Pairwise (fun p q => p.1 < q.1) := by
  rw [crossAll_eq (CrossMemo.holds_nil f)]
  refine List.Pairwise.filter _ (List.pairwise_map.mpr (List.pairwise_lt_range.imp fun h => ?_))
  dsimp only
  omega

theorem mem_crossAll {w : Int} {c : List Box} : (w, c) ∈ crossAll f k a b n v [] ↔
    (v ≤ w ∧ w < v + n) ∧ c = f (crossSec k w a) (crossSec k w b) ∧ c ≠ [] := by
  rw [crossAll_eq (CrossMemo.holds_nil f), List.mem_filter, List.mem_map, Bool.not_eq_true', List.isEmpty_eq_false_iff,
    ← and_assoc]
  refine and_congr_left fun _ => ⟨?_, ?_⟩
  · rintro ⟨i, hi, e⟩
    cases e
    exact ⟨by have := List.mem_range.mp hi; omega, rfl⟩
  · rintro ⟨hw, rfl⟩
    obtain ⟨i, rfl⟩ : ∃ i : Nat, w = v + i := ⟨(w - v).toNat, by omega⟩
    exact ⟨i, List.mem_range.mpr (by omega), rfl⟩
end

/-- The values of dimension `k` that have a cross-section in the result of `op`, ascending. -/
def sections (op : Bool → Bool → Bool) (k : Nat) (a b : List Box) : List (Int × List Box) :=
  match spanOf k (a ++ b) with
  | none => []
  | some (lo, n) => crossAll (decomp op k) k a b n lo []

/-- The boxes of the slabs over values with their cross-sections. -/
def slabBoxes : List (Int × List Box) → List Box
  | [] => []
  | (v, c) :: r => ((slabs r v v 0 c).map (fun p => p.2.map (fun sub => sub ++ [p.1]))).flatten

theorem decomp_succ (op : Bool → Bool → Bool) (k : Nat) (a b : List Box) :
    decomp op (k + 1) a b = slabBoxes (sections op k a b) := by
  rw [decomp, sections]
  cases spanOf k (a ++ b) with
  | none => rfl
  | some p =>
    dsimp only
    cases crossAll (decomp op k) k a b p.2 p.1 [] <;> rfl

theorem sections_sorted (op : Bool → Bool → Bool) (k : Nat) (a b : List Box) :
    (sections op k a b).Pairwise (fun p q => p.1 < q.1) := by
  unfold sections
  split
  · exact .nil
  · exact crossAll_sorted ..

theorem sections_val {op : Bool → Bool → Bool} {k : Nat} {a b : List Box} {v : Int} {c : List Box}
    (h : (v, c) ∈ sections op k a b) : c = decomp op k (crossSec k v a) (crossSec k v b) ∧ c ≠ [] := by
  unfold sections at h
  split at h
  · cases h
  · exact ((mem_crossAll ..).mp h).2

section
variable {op : Bool → Bool → Bool} (hop : op false false = false)
include hop

/-- The result of no operands is empty. -/
theorem decomp_nil (k : Nat) : decomp op k [] [] = [] := by
  cases k with
  | zero => simp [decomp, hop]
  | succ k => rfl

theorem mem_sections {k : Nat} {a b : List Box} (ha : ∀ bx ∈ a, k < bx.length) (hb : ∀ bx ∈ b, k < bx.length) {v : Int}
    {c : List Box} : (v, c) ∈ sections op k a b ↔ c = decomp op k (crossSec k v a) (crossSec k v b) ∧ c ≠ [] := by
  refine ⟨sections_val, fun ⟨e, hne⟩ => ?_⟩
  cases hs : spanOf k (a ++ b) with
  | none =>
    obtain ⟨rfl, rfl⟩ := List.append_eq_nil_iff.mp
      (spanOf_none (fun bx h => (List.mem_append.mp h).elim (ha bx) (hb bx)) hs)
    exact absurd (e.trans (decomp_nil hop k)) hne
  | some p =>
    obtain ⟨lo, n⟩ := p
    by_cases hv : lo ≤ v ∧ v < lo + n
    · rw [sections, hs]
      exact (mem_crossAll ..).mpr ⟨hv, e, hne⟩
    · rw [crossSec_outside ha (fun _ => List.mem_append_left _) hs hv,
        crossSec_outside hb (fun _ => List.mem_append_right _) hs hv] at e
      exact absurd (e.trans (decomp_nil hop k)) hne
end

/-! ### Slabs (R239) -/

/-- The values `lo`, `lo` + st, …, `last`, or `lo` alone where `st` is 0. -/
def slabDim (lo last : Int) (st : Nat) : Dim := ⟨lo, last + 1, if st = 0 then 1 else st⟩

/-- A slab that has begun: its values reach from `lo` to `last` at its spacing. -/
def SlabOk (lo last : Int) (st : Nat) : Prop := if st = 0 then lo = last else lo ≤ last ∧ (st : Int) ∣ last - lo

theorem SlabOk.single (v : Int) : SlabOk v v 0 := rfl

/-- The slab of one value. -/
theorem slabDim_single (v x : Int) : dimHas (slabDim v v 0) x = true ↔ x = v := by
  rw [dimHas_iff]
  simp only [slabDim, if_pos, Nat.cast_one, one_dvd, and_true]
  omega

theorem slabs_nil (lo last : Int) (st : Nat) (c : List Box) : slabs [] lo last st c = [(slabDim lo last st, c)] := rfl

section
variable {lo last : Int} {st s : Nat} (h : SlabOk lo last st) (hs : st = 0 ∨ st = s)
include h hs

/-- A slab of one value may take any spacing for its own. -/
theorem SlabOk.reaches : lo ≤ last ∧ (s : Int) ∣ last - lo := by
  rw [SlabOk] at h
  split at h
  · simp [h]
  · exact hs.resolve_left ‹_› ▸ h

theorem slabDim_iff (x : Int) : dimHas (slabDim lo last st) x = true ↔ (lo ≤ x ∧ x ≤ last) ∧ (s : Int) ∣ x - lo := by
  rw [dimHas_iff, slabDim]
  dsimp only
  rw [Int.lt_add_one_iff]
  rw [SlabOk] at h
  split at h
  · subst h
    refine and_congr_right fun hx => ?_
    obtain rfl : x = lo := by omega
    simp
  · rw [if_neg ‹_›, hs.resolve_left ‹_›]
end

/-- The next value at a spacing adds itself to those before, and nothing else. -/
theorem step_between {lo last x : Int} {s : Nat} (h : lo ≤ last ∧ (s : Int) ∣ last - lo) :
    (lo ≤ x ∧ x ≤ last + s) ∧ (s : Int) ∣ x - lo ↔ ((lo ≤ x ∧ x ≤ last) ∧ (s : Int) ∣ x - lo) ∨ x = last + s := by
  obtain ⟨hle, hdvd⟩ := h
  constructor
  · rintro ⟨⟨hlo, hhi⟩, hx⟩
    by_cases hlast : x ≤ last
    · exact .inl ⟨⟨hlo, hlast⟩, hx⟩
    · have hsub : (s : Int) ∣ x - last := by simpa using Int.dvd_sub hx hdvd
      have := Int.le_of_dvd (by omega) hsub
      exact .inr (by omega)
  · rintro (⟨⟨hlo, hhi⟩, hx⟩ | rfl)
    · exact ⟨by omega, hx⟩
    · refine ⟨by omega, ?_⟩
      rw [add_sub_right_comm]
      exact Int.dvd_add hdvd (Int.dvd_refl _)

section
variable {lo last v : Int} {st : Nat} (h : SlabOk lo last st) (hv : last < v) (hst : st = 0 ∨ v - last = (st : Int))
include h hv hst

theorem SlabOk.extend : SlabOk lo v (v - last).toNat := by
  obtain ⟨hle, hdvd⟩ := h.reaches (s := (v - last).toNat) (by omega)
  rw [SlabOk, if_neg (by omega)]
  refine ⟨by omega, ?_⟩
  have hsum : v - lo = last - lo + ((v - last).toNat : Int) := by omega
  exact hsum ▸ Int.dvd_add hdvd (Int.dvd_refl _)

/-- The next value at a slab's spacing joins it. -/
theorem slabDim_extend (x : Int) : dimHas (slabDim lo v (v - last).toNat) x = true ↔
    dimHas (slabDim lo last st) x = true ∨ x = v := by
  have hs : st = 0 ∨ st = (v - last).toNat := by omega
  rw [slabDim_iff (h.extend hv hst) (.inr rfl) x, slabDim_iff h hs x]
  have hnext : v = last + ((v - last).toNat : Int) := by omega
  have hjoin := step_between (x := x) (h.reaches hs)
  rwa [← hnext] at hjoin
end

/-- The cross-sections of slabs are those of the values that they are made of. -/
theorem slabs_section {l : List (Int × List Box)} {lo last : Int} {st : Nat} {c : List Box} {p : Dim × List Box}
    (h : p ∈ slabs l lo last st c) : p.2 ∈ c :: l.map Prod.snd := by
  induction l generalizing lo last st c with
  | nil => simp [List.mem_singleton.mp h]
  | cons q r ih =>
    rw [slabs] at h
    split at h
    · rename_i hrun
      obtain ⟨rfl, _⟩ := hrun
      exact List.mem_cons_of_mem _ (ih h)
    · obtain rfl | h := List.mem_cons.mp h
      · exact List.mem_cons_self
      · exact List.mem_cons_of_mem _ (ih h)

/-- Slabs pair each value with its cross-section, and pair nothing else. -/
theorem slabs_pairs {l : List (Int × List Box)} {lo last : Int} {st : Nat} {c : List Box} (h : SlabOk lo last st)
    (hl : l.Pairwise (fun p q => p.1 < q.1)) (hlast : ∀ p ∈ l, last < p.1) (x : Int) (c₀ : List Box) :
    (∃ p ∈ slabs l lo last st c, dimHas p.1 x = true ∧ p.2 = c₀) ↔
      (dimHas (slabDim lo last st) x = true ∧ c = c₀) ∨ (x, c₀) ∈ l := by
  induction l generalizing lo last st c with
  | nil => simp [slabs_nil]
  | cons q r ih =>
    obtain ⟨v, c'⟩ := q
    obtain ⟨hv, hr⟩ := List.pairwise_cons.mp hl
    have hlt : last < v := hlast _ List.mem_cons_self
    have hmem : (x, c₀) ∈ (v, c') :: r ↔ (x = v ∧ c' = c₀) ∨ (x, c₀) ∈ r := by
      rw [List.mem_cons, Prod.mk.injEq, eq_comm (a := c₀)]
    rw [slabs, hmem]
    split
    · rename_i hrun
      obtain ⟨rfl, hst⟩ := hrun
      have hst' : st = 0 ∨ v - last = (st : Int) := hst.imp_left And.left
      rw [ih (h.extend hlt hst') hr hv, slabDim_extend h hlt hst' x, or_and_right, or_assoc]
    · have hnew := ih (c := c') (SlabOk.single v) hr hv
      rw [slabDim_single v x] at hnew
      simp only [List.mem_cons, or_and_right, exists_or, exists_eq_left]
      rw [hnew, slabDim]

theorem mem_slabBoxes {v : Int} {c : List Box} {r : List (Int × List Box)} {bx : Box} :
    bx ∈ slabBoxes ((v, c) :: r) ↔ ∃ p ∈ slabs r v v 0 c, ∃ sub ∈ p.2, sub ++ [p.1] = bx := by
  simp [slabBoxes]

theorem mem_slabBoxes_section {l : List (Int × List Box)} {bx : Box} (h : bx ∈ slabBoxes l) :
    ∃ q ∈ l, ∃ sub ∈ q.2, ∃ d, bx = sub ++ [d] := by
  cases l with
  | nil => cases h
  | cons q r =>
    obtain ⟨p, hp, sub, hsub, rfl⟩ := mem_slabBoxes.mp h
    have hsec : p.2 ∈ (q :: r).map Prod.snd := slabs_section hp
    obtain ⟨q', hq', e⟩ := List.mem_map.mp hsec
    exact ⟨q', hq', sub, e ▸ hsub, p.1, rfl⟩

/-- The boxes of slabs hold, at each value, the cells of its cross-section. -/
theorem cellIn_slabBoxes {l : List (Int × List Box)} (hl : l.Pairwise (fun p q => p.1 < q.1)) {x : List Int}
    (hlen : ∀ p ∈ l, ∀ sub ∈ p.2, sub.length = x.length) (v : Int) :
    cellIn (slabBoxes l) (x ++ [v]) = true ↔ ∃ c, (v, c) ∈ l ∧ cellIn c x = true := by
  cases l with
  | nil => simp [slabBoxes, cellIn]
  | cons q r =>
    obtain ⟨w, c⟩ := q
    obtain ⟨hw, hr⟩ := List.pairwise_cons.mp hl
    have hpairs : ∀ c₀, (∃ p ∈ slabs r w w 0 c, dimHas p.1 v = true ∧ p.2 = c₀) ↔ (v, c₀) ∈ (w, c) :: r := fun c₀ => by
      rw [slabs_pairs (SlabOk.single w) hr hw, slabDim_single, List.mem_cons, Prod.mk.injEq, eq_comm (a := c₀)]
    have hbox : ∀ p ∈ slabs r w w 0 c, ∀ sub ∈ p.2, boxHas (sub ++ [p.1]) (x ++ [v]) = (boxHas sub x && dimHas p.1 v) :=
      fun p hp sub hsub => by
        have hsec : p.2 ∈ ((w, c) :: r).map Prod.snd := slabs_section hp
        obtain ⟨q, hq, e⟩ := List.mem_map.mp hsec
        have hsubLen := hlen q hq sub (e ▸ hsub)
        rw [boxHas_concat (d := p.1) (by simp [← hsubLen]), boxHas_append hsubLen]
    rw [cellIn_iff]
    constructor
    · rintro ⟨bx, hbx, hx⟩
      obtain ⟨p, hp, sub, hsub, rfl⟩ := mem_slabBoxes.mp hbx
      rw [hbox p hp sub hsub, Bool.and_eq_true] at hx
      exact ⟨p.2, (hpairs p.2).mp ⟨p, hp, hx.2, rfl⟩, cellIn_iff.mpr ⟨sub, hsub, hx.1⟩⟩
    · rintro ⟨c₀, hc, hx⟩
      obtain ⟨p, hp, hv, rfl⟩ := (hpairs c₀).mpr hc
      obtain ⟨sub, hsub, hsx⟩ := cellIn_iff.mp hx
      refine ⟨_, mem_slabBoxes.mpr ⟨p, hp, sub, hsub, rfl⟩, ?_⟩
      rw [hbox p hp sub hsub, hsx, hv]
      rfl

/-! ### The decomposition (R239) -/

theorem decomp_length {op : Bool → Bool → Bool} {k : Nat} {a b : List Box} {bx : Box} (h : bx ∈ decomp op k a b) :
    bx.length = k := by
  induction k generalizing a b bx with
  | zero =>
    rw [decomp] at h
    split at h
    · rw [List.mem_singleton.mp h]
      rfl
    · cases h
  | succ k ih =>
    rw [decomp_succ] at h
    obtain ⟨q, hq, sub, hsub, d, rfl⟩ := mem_slabBoxes_section h
    rw [(sections_val hq).1] at hsub
    rw [List.length_append, ih hsub, List.length_singleton]

section
variable {op : Bool → Bool → Bool} (hop : op false false = false)
include hop

/-- The decomposition of a result of `op` holds its cells and no others. -/
theorem cellIn_decomp {k : Nat} {a b : List Box} (ha : ∀ bx ∈ a, k ≤ bx.length) (hb : ∀ bx ∈ b, k ≤ bx.length)
    {x : List Int} (hx : x.length = k) : cellIn (decomp op k a b) x = op (cellIn a x) (cellIn b x) := by
  induction k generalizing a b x with
  | zero =>
    obtain rfl := List.length_eq_zero_iff.mp hx
    rw [cellIn_nil, cellIn_nil, cellIn_nil, decomp]
    cases op (!a.isEmpty) (!b.isEmpty) <;> rfl
  | succ k ih =>
    obtain ⟨y, v, rfl⟩ : ∃ y v, x = y ++ [v] :=
      ⟨_, _, (List.dropLast_append_getLast (List.ne_nil_of_length_eq_add_one hx)).symm⟩
    have hy : y.length = k := by simpa using hx
    have hsec := ih (crossSec_rank ha (v := v)) (crossSec_rank hb (v := v)) hy
    rw [cellIn_crossSec ha hy, cellIn_crossSec hb hy] at hsec
    rw [← hsec, decomp_succ, Bool.eq_iff_iff, cellIn_slabBoxes (sections_sorted ..)]
    · constructor
      · rintro ⟨c, hc, hcy⟩
        rwa [(sections_val hc).1] at hcy
      · intro hcy
        refine ⟨_, (mem_sections hop ha hb).mpr ⟨rfl, fun e => ?_⟩, hcy⟩
        rw [e] at hcy
        cases hcy
    · rintro ⟨w, c⟩ hc sub hsub
      rw [(sections_val hc).1] at hsub
      exact (decomp_length hsub).trans hy.symm

/-- The decomposition of a result is determined by the cells that it holds. -/
theorem decomp_congr {k : Nat} {a b a' b' : List Box} (ha : ∀ bx ∈ a, k ≤ bx.length) (hb : ∀ bx ∈ b, k ≤ bx.length)
    (ha' : ∀ bx ∈ a', k ≤ bx.length) (hb' : ∀ bx ∈ b', k ≤ bx.length)
    (h : ∀ x : List Int, x.length = k → op (cellIn a x) (cellIn b x) = op (cellIn a' x) (cellIn b' x)) :
    decomp op k a b = decomp op k a' b' := by
  induction k generalizing a b a' b' with
  | zero =>
    have h0 := h [] rfl
    simp only [cellIn_nil] at h0
    rw [decomp, h0, decomp]
  | succ k ih =>
    have hsec : ∀ v, decomp op k (crossSec k v a) (crossSec k v b) = decomp op k (crossSec k v a') (crossSec k v b') := by
      refine fun v => ih (crossSec_rank ha) (crossSec_rank hb) (crossSec_rank ha') (crossSec_rank hb') fun x hx => ?_
      rw [cellIn_crossSec ha hx, cellIn_crossSec hb hx, cellIn_crossSec ha' hx, cellIn_crossSec hb' hx]
      exact h _ (by simp [hx])
    have hirrefl : Std.Irrefl (fun p q : Int × List Box => p.1 < q.1) := ⟨fun _ => lt_irrefl _⟩
    have hantisymm : Std.Antisymm (fun p q : Int × List Box => p.1 < q.1) := ⟨fun _ _ h h' => absurd h' (lt_asymm h)⟩
    have hsections : sections op k a b = sections op k a' b' := by
      refine (sections_sorted ..).eq_of_mem_iff (sections_sorted ..) fun ⟨v, c⟩ => ?_
      rw [mem_sections hop ha hb, mem_sections hop ha' hb', hsec]
    rw [decomp_succ, decomp_succ, hsections]
end

/-- Lists of boxes that hold the same cells have one canonical form. -/
theorem canon_congr {r : Nat} {a b : List Box} (ha : ∀ bx ∈ a, r ≤ bx.length) (hb : ∀ bx ∈ b, r ≤ bx.length)
    (h : ∀ x : List Int, x.length = r → cellIn a x = cellIn b x) : canon r a = canon r b :=
  decomp_congr rfl ha (fun _ h => absurd h List.not_mem_nil) hb (fun _ h => absurd h List.not_mem_nil) h

/-! ### Overflow (R241) -/

theorem insertBox_length (b : Box) (l : List Box) : (insertBox b l).length = l.length + 1 := by
  induction l with
  | nil => rfl
  | cons c r ih =>
    rw [insertBox]
    split
    · rfl
    · rw [List.length_cons, ih, List.length_cons]

theorem sortBoxes_length (l : List Box) : (sortBoxes l).length = l.length := by
  have hfold : ∀ acc : List Box, (l.foldl (fun acc b => insertBox b acc) acc).length = acc.length + l.length := by
    induction l with
    | nil => exact fun _ => rfl
    | cons b r ih =>
      intro acc
      rw [List.foldl_cons, ih, insertBox_length, List.length_cons]
      omega
  exact (hfold []).trans (Nat.zero_add _)

theorem mergeAt_length {l : List Box} {i : Nat} (h : i + 1 < l.length) : (mergeAt l i).length + 1 = l.length := by
  induction l generalizing i with
  | nil => simp at h
  | cons a r ih =>
    cases i with
    | zero =>
      cases r with
      | nil => simp at h
      | cons b r => rfl
    | succ i =>
      rw [mergeAt.eq_def]
      simpa using ih (i := i) (by simpa using h)

/-- Of two boxes or more, a place is found for a merge. -/
theorem leastMerge_some {l : List Box} (i : Nat) (h : 2 ≤ l.length) :
    ∃ j n, leastMerge l i = some (i + j, n) ∧ j + 1 < l.length := by
  induction l generalizing i with
  | nil => simp at h
  | cons a r ih =>
    cases r with
    | nil => simp at h
    | cons b r =>
      rw [leastMerge]
      split
      · rename_i j m he
        split
        · exact ⟨0, _, rfl, by simp⟩
        · have hr : 2 ≤ (b :: r).length := by
            cases r with
            | nil => cases he
            | cons c r => simp
          obtain ⟨j', m', e, hj⟩ := ih (i + 1) hr
          rw [e] at he
          cases he
          exact ⟨j' + 1, m, by rw [Nat.add_assoc, Nat.add_comm 1], by simpa using hj⟩
      · exact ⟨0, _, rfl, by simp⟩

/-- Each merge takes a box away until eight are left. -/
theorem coverMerge_length (n : Nat) (l : List Box) : (coverMerge n l).length ≤ max 8 (l.length - n) := by
  induction n generalizing l with
  | zero => exact le_max_right ..
  | succ n ih =>
    rw [coverMerge]
    split
    · exact le_max_of_le_left ‹_›
    · obtain ⟨j, m, e, hj⟩ := leastMerge_some (l := l) 0 (by omega)
      rw [e, Nat.zero_add]
      have hm := mergeAt_length hj
      have := ih (sortBoxes (mergeAt l j))
      rw [sortBoxes_length] at this
      dsimp only
      omega

section
variable {dest handle rank : Nat} {ix cover : Bool} {bs : List Box}

theorem finishBoxes_short (h : bs.length ≤ 8) :
    finishBoxes dest handle rank ix cover bs = .ok ⟨handle, rank, bs, ix, false, cover, 0⟩ := if_pos h

theorem finishBoxes_traps (h : 8 < bs.length) : finishBoxes dest handle rank ix false bs =
    .error (.trap 4 (BitVec.ofNat 64 (dest % 8 + min bs.length 255 * 2 ^ 8))) := if_neg (Nat.not_le.mpr h)

theorem finishBoxes_covers (h : 8 < bs.length) : finishBoxes dest handle rank ix true bs =
    .ok ⟨handle, rank, coverMerge bs.length bs, true, false, true, 0⟩ := if_neg (Nat.not_le.mpr h)
end

/-- Settles O36: cells and uniqueness by the cross-sections of the highest dimension, overflow by the merges' count. -/
theorem regionAlgebra : Obligations.RegionAlgebra := by
  refine ⟨fun op r a b x hop ha hb hx => cellIn_decomp hop (fun bx h => (ha bx h).ge) (fun bx h => (hb bx h).ge) hx,
    fun r a b ha hb h => canon_congr (fun bx hm => (ha bx hm).ge) (fun bx hm => (hb bx hm).ge) h,
    fun dest handle rank ix cover bs => ⟨finishBoxes_short, ?_, ?_⟩⟩
  · rintro h rfl
    exact finishBoxes_traps h
  · rintro h rfl
    refine ⟨_, finishBoxes_covers h, rfl, ?_, rfl, rfl, rfl⟩
    have := coverMerge_length bs.length bs
    dsimp only
    omega

end Sys2Proof.Machine
end

section
/-! PROOF. The region words (09 R245 to R259): O37 to O40 -/

namespace Sys2Proof.Machine
open Sys2Proof.Safety

/-! ### Fields of controls and records -/

/-- The handle in a control or a record. -/
theorem bitsW_handle (x : Word) : bitsW x 23 0 = x.toNat % 2 ^ 24 := bitsW_low x 23

/-- A field's two's complement, as a machine word's (02 R50). -/
theorem sextI_eq_toInt (n x : Nat) (hn : 0 < n) : sextI n x = (BitVec.ofNat n x).toInt := by
  rw [sextI, BitVec.toInt_eq_toNat_cond, BitVec.toNat_ofNat]
  have hp : 2 ^ n = 2 * 2 ^ (n - 1) := by rw [← Nat.pow_succ']; congr 1; omega
  have hlt : x % 2 ^ n < 2 ^ (n - 1) ↔ 2 * (x % 2 ^ n) < 2 ^ n := by omega
  simp only [hlt]

/-- RSPL's place of the cut (R255). -/
theorem sextI_cut (x : Word) : sextI 24 (bitsW x 31 8) = (BitVec.ofNat 24 (x.toNat / 2 ^ 8)).toInt := by
  rw [sextI_eq_toInt _ _ (by omega), bitsW, fieldN]
  congr 1
  exact BitVec.eq_of_toNat_eq (by simp)

/-! ### RBOX, RLD and RST (R250, R251) -/

section
variable {d a b : BitVec 6} {s t : State} {x : Word} (hr : readReg a.toNat s = .ok (x, t))
include hr

theorem rbox_tensor {u : State} {db : Option (List Byte)} {de : Desc} {q : Region} (hl : legal s (.rbox d a b) = true)
    (hw : bitW x 25 = true) (hdb : (descFetch (bitsW x 23 0) t).ans = .ok (db, u))
    (hde : descParse u (bitsW x 23 0) db = .ok de)
    (hq : finishUnion d.toNat (bitsW x 23 0) false (bitW x 24) de
      [de.bounds.map (fun (n : Nat) => Dim.mk 0 (n : Int) 1)] = .ok q) :
    Completes (.rbox d a b) s (u.setQ d.toNat q) := by
  refine Completes.of_run hl (execRbox d a b) rfl rfl <| Run.stepLift hr ?_
  dsimp only
  rw [if_pos hw]
  exact Run.step hdb <| Run.stepLift hde <| Run.stepLift hq rfl

theorem rbox_record {t' u v : State} {addr : Word} {rec : List Byte} {db : Option (List Byte)} {de : Desc} {q : Region}
    (hl : legal s (.rbox d a b) = true)
    (hw : bitW x 25 = false) (haddr : readFrom s b.toNat t = .ok (addr, t')) (hal : addr.toNat % 8 = 0)
    (hdb : (descFetch (bitsW x 23 0) t').ans = .ok (db, u))
    (hrec : (loadSpan addr.toNat 32 u).ans = .ok (rec, v)) (hde : descParse v (bitsW x 23 0) db = .ok de)
    (hlast : (parseBox rec 0).2 = 0) (hstep : ∀ dm ∈ (parseBox rec 0).1.take de.rank, dm.step ≠ 0)
    (hq : finishUnion d.toNat (bitsW x 23 0) false (bitW x 24) de [(parseBox rec 0).1.take de.rank] = .ok q) :
    Completes (.rbox d a b) s (v.setQ d.toNat q) := by
  refine Completes.of_run hl (execRbox d a b) rfl rfl <| Run.stepLift hr ?_
  dsimp only
  rw [hw, if_neg Bool.false_ne_true]
  refine Run.stepLift haddr ?_
  dsimp only
  rw [if_neg (not_not.mpr hal)]
  refine Run.step hdb <| Run.step hrec <| Run.stepLift hde ?_
  dsimp only
  have hany : ((parseBox rec 0).1.take de.rank).any (fun x => x.step == 0) = false := by simpa using hstep
  rw [hany, if_neg (by simp [hlast])]
  exact Run.stepLift hq rfl

theorem rld_completes {im : List Byte} {u v : State} {q : Region} (hl : legal s (.rld d a) = true) (hal : x.toNat % 8 = 0)
    (him : (loadSpan x.toNat 288 t).ans = .ok (im, u)) (hq : (imageRegion x.toNat im u).ans = .ok (q, v)) :
    Completes (.rld d a) s (v.setQ d.toNat q) := by
  refine Completes.of_run hl (execRld d a) rfl rfl <| Run.stepLift hr ?_
  dsimp only
  rw [if_neg (not_not.mpr hal)]
  exact Run.step him <| Run.step hq rfl

section
variable {q : Region} (hqd : t.qreg d.toNat = q) (hl : legal s (.rst d a) = true) (hal : x.toNat % 8 = 0)
include hqd hl hal

theorem rst_null {u : State} (hn : q.isNull = true) (hu : (storeSpan x.toNat (regionBytes q) t).ans = .ok u) :
    Completes (.rst d a) s u := by
  refine Completes.of_run hl (execRst d a) rfl rfl <| Run.stepLift hr ?_
  dsimp only
  rw [hqd, if_neg (not_not.mpr hal), if_pos hn]
  exact hu

theorem rst_region {db : Option (List Byte)} {u v : State} {e : Desc} (hn : q.isNull = false)
    (hdb : (descFetch q.handle t).ans = .ok (db, v)) (he : checkDesc q db v = .ok e)
    (hu : (storeSpan x.toNat (regionBytes q) v).ans = .ok u) :
    Completes (.rst d a) s u := by
  refine Completes.of_run hl (execRst d a) rfl rfl <| Run.stepLift hr ?_
  dsimp only
  rw [hqd, if_neg (not_not.mpr hal), hn, if_neg Bool.false_ne_true]
  exact Run.step hdb <| Run.step hu <| Run.stepLift he rfl
end
end

/-- Settles O37: each word by its parts in their order. -/
theorem regionLoadsAndStores : Obligations.RegionLoadsAndStores := by
  intro d a b s t x hr
  simp only [← bitW_eq_getLsbD, ← bitsW_handle]
  refine ⟨fun hl hw db u de q hdb hde hq => rbox_tensor hr hl hw hdb hde hq, ?_, ?_, fun hl hal => ⟨?_, ?_⟩⟩
  · exact fun hl hw addr t' rec u db v de q ha hal hdb hrec hde h0 hst hq =>
      rbox_record hr hl hw ha hal hdb hrec hde h0 hst hq
  · exact fun hl hal im u q v him hq => rld_completes hr hl hal him hq
  · exact fun hn u hu => rst_null hr rfl hl hal hn hu
  · exact fun hn db v e u hdb he hu => rst_region hr rfl hl hal hn hdb he hu

/-! ### RUNI, RINT and RSUB (R252) -/

section
variable {op : Bool → Bool → Bool} {looseB : Bool} {d a b : BitVec 6} {s t : State} {qa qb : Region} {de : Option Desc}
  (hqa : s.qreg a.toNat = qa) (hqb : s.qreg b.toNat = qb) (hd : (operandsDesc qa qb s).ans = .ok (de, t))
include hqa hqb hd

/-- Two null operands give the null region. -/
theorem setOp_null (h : de = none) : (setOp op looseB d a b s).ans = .ok (t.setQ d.toNat Region.null) := by
  subst hqa hqb h
  exact Run.step hd rfl

/-- A set operation finishes the decomposition of its clipped operands. -/
theorem setOp_region {e : Desc} {q : Region} (h : de = some e)
    (hq : let base := if qa.isNull then qb else qa
      finishBoxes d.toNat base.handle e.rank (qa.loose || (looseB && qb.loose)) base.cover
        (decomp op e.rank (clipBoxes e.bounds qa.boxes) (clipBoxes e.bounds qb.boxes)) = .ok q) :
    (setOp op looseB d a b s).ans = .ok (t.setQ d.toNat q) := by
  subst hqa hqb h
  exact Run.step hd <| Run.stepLift hq rfl

section
variable (hl : legal s (.rsub d a b) = true)
include hl

theorem rsub_completes {u : State} (hb : qb.loose = false) (h : (setOp (fun x y => x && !y) false d a b s).ans = .ok u) :
    Completes (.rsub d a b) s u := by
  subst hqa hqb
  refine Completes.of_run hl (execRsub d a b) rfl rfl <| Run.step hd ?_
  rw [hb, if_neg Bool.false_ne_true]
  exact h

/-- A subtrahend that may hold too much is refused whatever the mode (R242). -/
theorem rsub_traps (hb : qb.loose = true) : TrapsAfter (.rsub d a b) s 4 (BitVec.ofNat 64 (d.toNat % 8 + 2 ^ 16)) := by
  subst hqa hqb
  refine TrapsAfter.of_run hl (execRsub d a b) rfl rfl (Run.step hd ?_)
  rw [hb, if_pos rfl]
  rfl
end
end

section
variable {d a b : BitVec 6} {s u : State}

theorem runi_completes (hl : legal s (.runi d a b) = true) (h : (setOp (fun x y => x || y) true d a b s).ans = .ok u) :
    Completes (.runi d a b) s u := Completes.of_run hl (execRuni d a b) rfl rfl h

theorem rint_completes (hl : legal s (.rint d a b) = true) (h : (setOp (fun x y => x && y) true d a b s).ans = .ok u) :
    Completes (.rint d a b) s u := Completes.of_run hl (execRint d a b) rfl rfl h
end

/-- Settles O38: a set operation by whether its operands name a tensor. -/
theorem regionSetOperations : Obligations.RegionSetOperations := by
  intro d a b s t de qa qb base result hd
  have hnull {op looseB} := setOp_null (op := op) (looseB := looseB) (d := d) rfl rfl hd
  refine ⟨fun h hl => runi_completes hl (hnull h), fun h hl => rint_completes hl (hnull h),
    fun h hl hb => rsub_completes rfl rfl hd hl hb (hnull h),
    fun e q h hl hq => runi_completes hl (setOp_region rfl rfl hd h hq),
    fun e q h hl hq => rint_completes hl (setOp_region rfl rfl hd h hq),
    fun e q h hl hb hq => rsub_completes rfl rfl hd hl hb (setOp_region rfl rfl hd h ?_), rsub_traps rfl rfl hd⟩
  rw [Bool.false_and, Bool.or_false]
  exact hq

end Sys2Proof.Machine
end

section
/-! PROOF. The region words with one region operand (09 R253 to R258): O39 -/

namespace Sys2Proof.Machine
open Sys2Proof.Safety

/-! ### Forms with one operand -/

section
variable {d a b : BitVec 6} {s t : State} {x : Word} {qa : Region} (hr : readReg b.toNat s = .ok (x, t))
include hr

/-! ### A null operand (R236) -/

section
variable (hqa : t.qreg a.toNat = qa) (hn : qa.isNull = true)
include hqa hn

omit hr in
theorem oneOp_null (f : Region → List Box) (cover : Region → Bool) :
    (oneOp f cover d a t).ans = .ok (t.setQ d.toNat Region.null) := by
  rw [oneOp, hqa, if_pos hn, Run.ans_pure]

theorem rdil_null (hl : legal s (.rdil d a b) = true) : Completes (.rdil d a b) s (t.setQ d.toNat Region.null) :=
  Completes.of_run hl (execRdil d a b) rfl rfl <| Run.stepLift hr <| oneOp_null hqa hn ..

theorem rshf_null (hl : legal s (.rshf d a b) = true) : Completes (.rshf d a b) s (t.setQ d.toNat Region.null) :=
  Completes.of_run hl (execRshf d a b) rfl rfl <| Run.stepLift hr <| oneOp_null hqa hn ..

theorem rstrd_null (hl : legal s (.rstrd d a b) = true) : Completes (.rstrd d a b) s (t.setQ d.toNat Region.null) := by
  refine Completes.of_run hl (execRstrd d a b) rfl rfl <| Run.stepLift hr ?_
  dsimp only
  rw [hqa, if_pos hn, Run.ans_pure]

theorem rspl_null (hl : legal s (.rspl d a b) = true) :
    Completes (.rspl d a b) s ((t.setQ d.toNat Region.null).setQ (d.toNat + 1) Region.null) := by
  refine Completes.of_run hl (execRspl d a b) rfl rfl <| Run.stepLift hr ?_
  dsimp only
  rw [hqa, if_pos hn, Run.ans_pure]
end

/-! ### An operand that names a tensor -/

section
variable {u : State} {e : Desc} (hqa : t.qreg a.toNat = qa) (hn : qa.isNull = false)
  (he : (operandDesc qa t).ans = .ok (e, u))
include hqa hn he

omit hr in
/-- A form that maps the operand's boxes finishes their union. -/
theorem oneOp_region {f : Region → List Box} {cover : Region → Bool} {q : Region}
    (hq : finishUnion d.toNat qa.handle qa.loose (cover qa) e (f qa) = .ok q) :
    (oneOp f cover d a t).ans = .ok (u.setQ d.toNat q) := by
  rw [oneOp, hqa, if_neg (by rw [hn]; exact Bool.false_ne_true)]
  exact Run.step he <| Run.stepLift hq rfl

theorem rdil_completes {q : Region} (hl : legal s (.rdil d a b) = true)
    (hq : finishUnion d.toNat qa.handle qa.loose qa.cover e (qa.boxes.map (boxDilate x)).flatten = .ok q) :
    Completes (.rdil d a b) s (u.setQ d.toNat q) :=
  Completes.of_run hl (execRdil d a b) rfl rfl <| Run.stepLift hr <| oneOp_region hqa hn he hq

theorem rshf_completes {q : Region} (hl : legal s (.rshf d a b) = true)
    (hq : finishUnion d.toNat qa.handle qa.loose (if bitW x 63 then bitW x 62 else qa.cover) e
      (qa.boxes.map (fun bx => bx.zipIdx.map (fun p => dimShift (shfAmt x p.2) p.1))) = .ok q) :
    Completes (.rshf d a b) s (u.setQ d.toNat q) :=
  Completes.of_run hl (execRshf d a b) rfl rfl <| Run.stepLift hr <| oneOp_region hqa hn he hq

theorem rstrd_completes {q : Region} (hl : legal s (.rstrd d a b) = true)
    (hlat : ∀ i, i < qa.rank → byteW x (4 + i) < byteW x i)
    (hq : finishOp (fun x y => x && y) d.toNat qa.handle qa.loose qa.cover e qa.boxes
      [e.bounds.zipIdx.map (fun p => Dim.mk (byteW x (4 + p.2) : Int) (p.1 : Int) (byteW x p.2))] = .ok q) :
    Completes (.rstrd d a b) s (u.setQ d.toNat q) := by
  refine Completes.of_run hl (execRstrd d a b) rfl rfl <| Run.stepLift hr ?_
  have hany : (upTo qa.rank).any (fun i => decide (byteW x i ≤ byteW x (4 + i))) = false := by
    simpa [upTo] using hlat
  dsimp only
  rw [hqa, hn, if_neg Bool.false_ne_true]
  refine Run.step he ?_
  dsimp only
  rw [hany, if_neg Bool.false_ne_true]
  exact Run.stepLift hq rfl

theorem rrag_completes (hl : legal s (.rrag d a b) = true) (hx : x.toNat % 4 = 0)
    (hone : qa.boxes.length = 1) (hrank : 2 ≤ qa.rank) (hloose : qa.loose = false)
    (hstep : ∀ bx ∈ qa.boxes, ∃ d0 r, bx = d0 :: r ∧ d0.step = 1) :
    Completes (.rrag d a b) s (u.setQ d.toNat { qa with rg := true, table := x }) := by
  refine Completes.of_run hl (execRrag d a b) rfl rfl <| Run.stepLift hr ?_
  have hany : qa.boxes.any (fun bx => ((bx.head?).map (·.step)).getD 0 != 1) = false := by
    refine List.any_eq_false.mpr fun bx hbx => ?_
    obtain ⟨d0, r, rfl, h0⟩ := hstep bx hbx
    simp [h0]
  dsimp only
  rw [hqa, if_neg (not_not.mpr hx), hn, if_neg Bool.false_ne_true]
  refine Run.step he ?_
  rw [hany, hloose, if_neg (by simpa [hone] using Nat.lt_of_succ_le hrank)]
  rfl

section
variable (hl : legal s (.rspl d a b) = true) {lo hi : Region}
include hl

/-- RSPL at a coordinate: the parts of each box below and from it on. -/
theorem rspl_cut (hk : bitW x 2 = false) (hdim : bitsW x 1 0 < qa.rank)
    (hlo : finishUnion d.toNat qa.handle qa.loose qa.cover e
      (qa.boxes.map (boxCut (bitsW x 1 0) true (sextI 24 (bitsW x 31 8)))) = .ok lo)
    (hhi : finishUnion (d.toNat + 1) qa.handle qa.loose qa.cover e
      (qa.boxes.map (boxCut (bitsW x 1 0) false (sextI 24 (bitsW x 31 8)))) = .ok hi) :
    Completes (.rspl d a b) s ((u.setQ d.toNat lo).setQ (d.toNat + 1) hi) := by
  refine Completes.of_run hl (execRspl d a b) rfl rfl <| Run.stepLift hr ?_
  dsimp only
  rw [hqa, hn, if_neg Bool.false_ne_true]
  refine Run.step he ?_
  dsimp only
  rw [hk, if_neg Bool.false_ne_true, if_neg (Nat.not_le.mpr hdim)]
  exact Run.stepLift hlo <| Run.stepLift hhi rfl

section
variable (hk : bitW x 2 = true)
include hk

/-- RSPL by boxes keeps those of an inexact region as they stand. -/
theorem rspl_boxes_loose (hloose : qa.loose = true) : Completes (.rspl d a b) s
    ((u.setQ d.toNat ⟨qa.handle, qa.rank, qa.boxes.take ((qa.boxes.length + 1) / 2), true, false, qa.cover, 0⟩).setQ
      (d.toNat + 1) ⟨qa.handle, qa.rank, qa.boxes.drop ((qa.boxes.length + 1) / 2), true, false, qa.cover, 0⟩) := by
  refine Completes.of_run hl (execRspl d a b) rfl rfl <| Run.stepLift hr ?_
  dsimp only
  rw [hqa, hn, if_neg Bool.false_ne_true]
  refine Run.step he ?_
  dsimp only
  rw [if_pos hk, if_pos hloose, Run.ans_pure]

theorem rspl_boxes_exact (hloose : qa.loose = false)
    (hlo : finishUnion d.toNat qa.handle false qa.cover e (qa.boxes.take ((qa.boxes.length + 1) / 2)) = .ok lo)
    (hhi : finishUnion (d.toNat + 1) qa.handle false qa.cover e
      (qa.boxes.drop ((qa.boxes.length + 1) / 2)) = .ok hi) :
    Completes (.rspl d a b) s ((u.setQ d.toNat lo).setQ (d.toNat + 1) hi) := by
  refine Completes.of_run hl (execRspl d a b) rfl rfl <| Run.stepLift hr ?_
  dsimp only
  rw [hqa, hn, if_neg Bool.false_ne_true]
  refine Run.step he ?_
  dsimp only
  rw [if_pos hk, hloose, if_neg Bool.false_ne_true]
  exact Run.stepLift hlo <| Run.stepLift hhi rfl
end
end
end

/-! ### RPRJ (R254) -/

section
variable {u : State} {rec : List Byte} (hl : legal s (.rprj d a b) = true) (hx : x.toNat % 8 = 0)
  (hrec : (loadSpan x.toNat 32 t).ans = .ok (rec, u))
include hl hx hrec

theorem rprj_null (hqa : u.qreg a.toNat = qa) (hn : qa.isNull = true) :
    Completes (.rprj d a b) s (u.setQ d.toNat Region.null) := by
  refine Completes.of_run hl (execRprj d a b) rfl rfl <| Run.stepLift hr ?_
  dsimp only
  rw [if_neg (not_not.mpr hx)]
  refine Run.step hrec ?_
  dsimp only
  rw [hqa, if_pos hn, Run.ans_pure]

theorem rprj_completes {v w : State} {ba bt : Option (List Byte)} {da dt : Desc} {q : Region} {h : Nat} {pi sc : List Nat}
    {off : List Int} (hmap : parseMap rec = (h, pi, sc, off, true)) (hqa : u.qreg a.toNat = qa) (hn : qa.isNull = false)
    (hba : (descFetch qa.handle u).ans = .ok (ba, v)) (hbt : (descFetch h v).ans = .ok (bt, w))
    (hda : descParse w qa.handle ba = .ok da) (hdt : descParse w h bt = .ok dt)
    (hrank : da.rank = qa.rank) (hpi : ∀ p ∈ pi.take dt.rank, p < qa.rank)
    (hsc : ∀ k ∈ sc.take dt.rank, k ≠ 0) (hdist : allDistinct (pi.take dt.rank) = true)
    (hq : finishUnion d.toNat h qa.loose qa.cover dt (qa.boxes.map (boxProject dt.rank pi sc off)) = .ok q) :
    Completes (.rprj d a b) s (w.setQ d.toNat q) := by
  have hpi' : (pi.take dt.rank).any (fun p => decide (qa.rank ≤ p)) = false :=
    List.any_eq_false.mpr fun p hp => by simpa using hpi p hp
  have hsc' : (sc.take dt.rank).any (· == 0) = false := List.any_eq_false.mpr fun k hk => by simpa using hsc k hk
  refine Completes.of_run hl (execRprj d a b) rfl rfl <| Run.stepLift hr ?_
  dsimp only
  rw [if_neg (not_not.mpr hx)]
  refine Run.step hrec ?_
  dsimp only
  rw [hqa, hn, if_neg Bool.false_ne_true, hmap]
  refine Run.step hba <| Run.step hbt <| Run.stepLift hda <| Run.stepLift hdt ?_
  rw [if_neg (not_not.mpr hrank)]
  dsimp only
  rw [hpi', hsc', hdist, if_neg (by decide)]
  exact Run.stepLift hq rfl
end
end

/-- Settles O39: each form by whether its operand is null, RSPL by what it cuts at. -/
theorem regionShapes : Obligations.RegionShapes := by
  refine ⟨fun d a b s t u x e q q' hr => ?_, fun d a b s t u v w x rec ba bt da dt q h pi sc off hl hr hx hrec hmap => ?_⟩
  · intro qa make
    simp only [← bitW_eq_getLsbD]
    refine ⟨fun hn => ⟨rdil_null hr rfl hn, rshf_null hr rfl hn, rstrd_null hr rfl hn, rspl_null hr rfl hn⟩,
      fun hn he => ⟨rdil_completes hr rfl hn he, rshf_completes hr rfl hn he, rstrd_completes hr rfl hn he, fun hl hk hdim => ?_,
        fun hl hk => ⟨rspl_boxes_loose hr rfl hn he hl hk, rspl_boxes_exact hr rfl hn he hl hk⟩, rrag_completes hr rfl hn he⟩⟩
    have hcut := rspl_cut hr rfl hn he hl hk (lo := q) (hi := q')
    rw [bitsW_low x 1, sextI_cut] at hcut
    exact hcut hdim
  · exact ⟨rprj_null hr hl hx hrec rfl, rprj_completes hr hl hx hrec hmap rfl⟩

end Sys2Proof.Machine
end

section
/-! PROOF. The region words that answer a general register (09 R259): O40 -/

namespace Sys2Proof.Machine
open Sys2Proof.Safety

/-! ### RCMP -/

/-- 1 where a decomposition is empty: the operation holds of no cell. -/
def noCell (bs : List Box) : Nat := if bs = [] then 1 else 0

theorem noCell_eq (bs : List Box) : (if bs.isEmpty then 1 else 0) = noCell bs := by
  rw [noCell]
  cases bs <;> rfl

/-- Both operands lie in each other: two regions of the same cells. -/
theorem noCell_mul (bs cs : List Box) : (if bs.isEmpty && cs.isEmpty then 1 else 0) = noCell bs * noCell cs := by
  rw [noCell, noCell]
  cases bs <;> cases cs <;> rfl

theorem noCell_times (n : Nat) (bs : List Box) : (if bs.isEmpty then n else 0) = n * noCell bs := by
  rw [noCell]
  cases bs <;> simp

section
variable {d a b : BitVec 6} {s t w : State}

theorem rcmp_completes {qa qb : Region} {de : Option Desc} (hqa : s.qreg a.toNat = qa) (hqb : s.qreg b.toNat = qb)
    (hl : legal s (.rcmp d a b) = true) (hd : (operandsDesc qa qb s).ans = .ok (de, t))
    (hw : let lone (op : Bool → Bool → Bool) : Nat := noCell (decomp op (max qa.rank qb.rank) qa.boxes qb.boxes)
      writeReg d.toNat (BitVec.ofNat 64 (lone (fun x y => x && !y) * lone (fun x y => !x && y) +
        2 * lone (fun x y => x && !y) + 4 * lone (fun x y => !x && y) + 8 * lone (fun x y => x && y) +
        (if qa.loose || qb.loose then 16 else 0))) t = .ok w) : Completes (.rcmp d a b) s w := by
  subst hqa hqb
  refine Completes.of_run hl (execRcmp d a b) rfl rfl <| Run.step hd ?_
  dsimp only
  rw [noCell_mul, noCell_times, noCell_times, noCell_times]
  exact hw

/-! ### Queries of one region -/

section
variable {qa : Region} (hqa : s.qreg a.toNat = qa)
include hqa

section
variable (hn : qa.isNull = true)
include hn

theorem rcnt_null (hl : legal s (.rcnt d a) = true) (hw : writeReg d.toNat 0 s = .ok w) : Completes (.rcnt d a) s w := by
  refine Completes.of_run hl (execRcnt d a) rfl rfl ?_
  dsimp only
  rw [hqa, if_pos hn]
  exact hw

theorem rvol_null (hl : legal s (.rvol d a) = true) (hw : writeReg d.toNat 0 s = .ok w) : Completes (.rvol d a) s w := by
  refine Completes.of_run hl (execRvol d a) rfl rfl ?_
  dsimp only
  rw [hqa, if_pos hn]
  exact hw
end

section
variable {e : Desc} (hn : qa.isNull = false)
include hn

theorem rcnt_region (hl : legal s (.rcnt d a) = true) (he : (operandDesc qa s).ans = .ok (e, t))
    (hw : writeReg d.toNat (BitVec.ofNat 64 (qa.boxes.length + qa.rank * 2 ^ 4 + (if qa.ix then 2 ^ 8 else 0) +
      (if qa.rg then 2 ^ 9 else 0) + (if qa.cover then 2 ^ 10 else 0) + qa.handle * 2 ^ 32)) t = .ok w) :
    Completes (.rcnt d a) s w := by
  refine Completes.of_run hl (execRcnt d a) rfl rfl ?_
  dsimp only
  rw [hqa, hn, if_neg Bool.false_ne_true]
  exact Run.step he hw

theorem rvol_boxes (hl : legal s (.rvol d a) = true) (he : (operandDesc qa s).ans = .ok (e, t)) (hrg : qa.rg = false)
    (hw : writeReg d.toNat (BitVec.ofNat 64 (unionVolume qa.rank qa.boxes)) t = .ok w) : Completes (.rvol d a) s w := by
  refine Completes.of_run hl (execRvol d a) rfl rfl ?_
  dsimp only
  rw [hqa, hn, if_neg Bool.false_ne_true, hrg, Bool.not_false, if_pos rfl]
  exact Run.step he hw

theorem rvol_ragged {v : State} {db : Option (List Byte)} {ls : List Nat} (hl : legal s (.rvol d a) = true)
    (hrg : qa.rg = true) (htab : qa.tableBad = false) (hdb : (descFetch qa.handle s).ans = .ok (db, t))
    (hls : (loadLens qa.table qa.rows.length t).ans = .ok (ls, v)) (he : checkDesc qa db v = .ok e)
    (hw : writeReg d.toNat (BitVec.ofNat 64
      (((raggedBoxes qa (fun k => ls.getD k 0)).map boxVolume).foldl (· + ·) 0)) v = .ok w) : Completes (.rvol d a) s w := by
  refine Completes.of_run hl (execRvol d a) rfl rfl ?_
  dsimp only
  rw [hqa, hn, if_neg Bool.false_ne_true, hrg, Bool.not_true, if_neg Bool.false_ne_true, htab, if_neg Bool.false_ne_true]
  exact Run.step hdb <| Run.step hls <| Run.stepLift he hw
end
end
end

/-! ### RTST -/

/-- Reading a field leaves the region registers. -/
theorem readReg_qreg {f : Nat} {s t : State} {x : Word} (h : readReg f s = .ok (x, t)) (n : Nat) : t.qreg n = s.qreg n := by
  rw [State.qreg, readReg_ctx Ctx.q (fun _ _ _ => rfl) h, State.qreg]

section
variable {d a b : BitVec 6} {s t u w : State} {x : Word} {qa : Region} (hl : legal s (.rtst d a b) = true)
  (hr : readReg b.toNat s = .ok (x, t)) (hqa : s.qreg a.toNat = qa)
include hl hr hqa

theorem rtst_null (hn : qa.isNull = true) (hw : writeReg d.toNat 0 t = .ok w) : Completes (.rtst d a b) s w := by
  refine Completes.of_run hl (execRtst d a b) rfl rfl <| Run.stepLift hr ?_
  dsimp only
  rw [readReg_qreg hr, hqa, if_pos hn]
  exact hw

section
variable {e : Desc} (hn : qa.isNull = false) (he : (operandDesc qa t).ans = .ok (e, u))
include hn he

theorem rtst_boxes (hrg : qa.rg = false)
    (hw : writeReg d.toNat (if boxesHoldByte e qa.boxes x.toNat then 1 else 0) u = .ok w) :
    Completes (.rtst d a b) s w := by
  refine Completes.of_run hl (execRtst d a b) rfl rfl <| Run.stepLift hr ?_
  dsimp only
  rw [readReg_qreg hr, hqa, hn, if_neg Bool.false_ne_true]
  refine Run.step he ?_
  dsimp only
  rw [hrg, if_neg Bool.false_ne_true]
  exact hw

theorem rtst_ragged {v : State} {ls : SMap Nat} (hrg : qa.rg = true)
    (hls : (rowLens qa (raggedRowsAt e qa x.toNat) u).ans = .ok (ls, v))
    (hw : writeReg d.toNat (if boxesHoldByte e (raggedBoxes qa (fun k => sget 0 ls k)) x.toNat then 1 else 0) v = .ok w) :
    Completes (.rtst d a b) s w := by
  refine Completes.of_run hl (execRtst d a b) rfl rfl <| Run.stepLift hr ?_
  dsimp only
  rw [readReg_qreg hr, hqa, hn, if_neg Bool.false_ne_true]
  refine Run.step he ?_
  dsimp only
  rw [if_pos hrg]
  exact Run.step hls hw
end
end

/-- Settles O40: each word by whether its region is null, RVOL and RTST by whether it is ragged too. -/
theorem regionQueries : Obligations.RegionQueries := by
  intro d a b s t u w x de e qa qb r never
  refine ⟨rcmp_completes rfl rfl, fun hn => ⟨rcnt_null rfl hn, rvol_null rfl hn⟩, fun hn he => ⟨?_, ?_⟩,
    fun hn hrg htab hl db ls v hdb hls he hw => rvol_ragged rfl hn hl hrg htab hdb hls he hw, fun hr hl => ⟨?_, ?_, ?_⟩⟩
  · exact fun hl hw => rcnt_region rfl hn hl he hw
  · exact fun hl hrg hw => rvol_boxes rfl hn hl he hrg hw
  · exact rtst_null hl hr rfl
  · exact fun hn hrg he hw => rtst_boxes hl hr rfl hn he hrg hw
  · exact fun hn hrg he ls v hls hw => rtst_ragged hl hr rfl hn he hrg hls hw

end Sys2Proof.Machine
end

section
/-! PROOF. COPY, GATH and SCAT append their command (10 R264, R265, R275, R276): O43 -/

namespace Sys2Proof.Machine
open Sys2Proof.Safety

/-- Settles O43: each word by its parts in their order, COPY by whether its region has cells, GATH and SCAT as one by whether
their region names a tensor. -/
theorem transfersIssue : Obligations.TransfersIssue := by
  constructor
  · intro d a b s t u v w x rb de units h hl hr hrec r q hde hunits happ ch x1 y c z hw
    refine Completes.of_run hl (execCopy d a b) rfl rfl <| Run.stepLift hr <| Run.stepLift hrec <| Run.step hde <|
      Run.step (a := (units, v)) ?_ <| Run.stepLift happ hw
    obtain ⟨e, okRank, rfl, hne, hcells⟩ | ⟨hempty, hres, hdir, rfl, rfl⟩ := hunits
    · dsimp only
      rw [if_neg (mt List.isEmpty_iff.mp hne)]
      exact hcells
    · have hok : ¬(r.reserved || r.dir == 3) = true := by simp [hres, hdir]
      obtain rfl | ⟨e, rfl, hnil⟩ := hempty
      · dsimp only
        rw [if_neg hok, Run.ans_pure]
      · dsimp only
        rw [if_pos (List.isEmpty_iff.mpr hnil), if_neg hok, Bool.not_true, if_neg Bool.false_ne_true, Run.ans_pure]
  · intro out d a b s t u v w x rb ix de h i hl hr hrec r q bytes units hix hbad hde hgrant hlocal hres happ ch x1 y c z hw
    suffices hg : (gather out d a b s).ans = .ok z by
      cases out with
      | false => exact Completes.of_run hl (execGath d a b) rfl rfl hg
      | true => exact Completes.of_run hl (execScat d a b) rfl rfl hg
    refine Run.stepLift hr <| Run.stepLift hrec <| Run.stepLift hix <| Run.step hde ?_
    dsimp only
    rw [hbad, if_neg Bool.false_ne_true]
    obtain ⟨rfl, rfl⟩ | ⟨e, rfl, hsub, hrights, hplaced⟩ := hgrant
    · refine Run.step (a := v) rfl <| Run.stepLift hlocal ?_
      rw [hres]
      exact Run.stepLift happ hw
    · refine Run.step (a := v) (Run.step hrights <| Run.stepLift hplaced rfl) <| Run.stepLift hlocal ?_
      rw [Option.any_some, hres, hsub]
      exact Run.stepLift happ hw

end Sys2Proof.Machine
end

section
/-! PROOF. Queries of copy channels and of the stash (10 R262, R268, R269, R274): O44 -/

namespace Sys2Proof.Machine
open Sys2Proof.Safety

/-- A legal word that accesses global memory stops as its run does. -/
theorem StopsAfter.of_run {i : Instr} {s : State} {b : State → Run State} {st : Stop} (hl : legal s i = true)
    (m : State → Host.Outcome State Fault Refusal) (he : exec i s = m s) (hm : m s = guardedRun i s b)
    (h : (b s).ans = .error st) (hf : ∀ f, st ≠ .fault f) : StopsAfter i s st :=
  ⟨_, (he.trans hm).trans (guardedRun_stops hl h hf)⟩

/-- Both parts of a run that ends well do. -/
theorem Run.ans_bind_eq_ok {α β : Type} {m : Run α} {f : α → Run β} {r : β} (h : (m >>= f).ans = .ok r) :
    ∃ a, m.ans = .ok a ∧ (f a).ans = .ok r := by
  rw [Run.ans_bind] at h
  cases hm : m.ans with
  | ok a => exact ⟨a, rfl, by rwa [hm] at h⟩
  | error e => rw [hm] at h; cases h

/-- A region's descriptor is fetched, and then checked against its rank (R249). -/
theorem operandDesc_parts {q : Region} {s u : State} {e : Desc} (h : (operandDesc q s).ans = .ok (e, u)) :
    ∃ db, (descFetch q.handle s).ans = .ok (db, u) ∧ checkDesc q db u = .ok e := by
  obtain ⟨⟨db, v⟩, hdb, h⟩ := Run.ans_bind_eq_ok h
  obtain ⟨d, hd, h⟩ := Run.ans_bind_eq_ok h
  cases h
  exact ⟨db, hdb, hd⟩

section
variable {d a b : BitVec 6} {s t u w : State} {x : Word}

/-! ### CWP (R262, R268) -/

/-- The copy channel that a word names. -/
theorem bitsW_channel (x : Word) : bitsW x 3 0 = x.toNat % 16 := bitsW_low x 3

theorem cwp_completes (hl : legal s (.cwp d a) = true) (hr : readReg a.toNat s = .ok (x, t))
    (hw : let c := (t.sqAt t.sq).chan (x.toNat % 16)
      writeReg d.toNat (if x.getLsbD 8 then BitVec.ofNat 64 (c.fail.toNat * 2 ^ 32 + c.oor.toNat) else c.delivered) t =
        .ok w) : Completes (.cwp d a) s w := by
  refine Completes.of_guarded hl (execCwp d a) rfl rfl ((bind_of_ok hr _).trans ?_)
  dsimp only
  rw [bitsW_channel x, bitW_eq_getLsbD]
  exact hw

/-! ### CWAIT (R269) -/

/-- The first issue of a CWAIT looks at the commands appended so far. -/
theorem cwaitOrd_first {ch : Nat} (h : ∀ m, u.cur.st ≠ .completing (.region ch m)) : cwaitOrd u ch = u.appends := by
  unfold cwaitOrd
  split
  next c n hst => exact if_neg fun (hc : c = ch) => h n (hc ▸ hst)
  next => rfl

/-- A CWAIT that is issued again looks at the commands of its first issue. -/
theorem cwaitOrd_again {ch m : Nat} (h : u.cur.st = .completing (.region ch m)) : cwaitOrd u ch = m := by
  rw [cwaitOrd, h]
  exact if_pos rfl

/-- A cell for which a CWAIT on a channel does not wait. -/
def CellReady (u : State) (e : Desc) (ch : Nat) (c : List Int) : Prop :=
  cellResident u e c = true ∨ bytesDelivered u u.focus.core ch (cwaitOrd u ch) (cellBytes e c) = true

/-- What CWAIT looks at is whether every cell is ready. -/
theorem all_cellReady_iff {e : Desc} {ch : Nat} {cells : List (List Int)} :
    cells.all (fun c => cellResident u e c || bytesDelivered u u.focus.core ch (cwaitOrd u ch) (cellBytes e c)) = true ↔
      ∀ c ∈ cells, CellReady u e ch c := by
  simp only [List.all_eq_true, Bool.or_eq_true, CellReady]

section
variable {q : Region} (hl : legal s (.cwait a b) = true) (hr : readReg b.toNat s = .ok (x, t))
  (hq : t.qreg a.toNat = q)
include hl hr hq

theorem cwait_null (hn : q.isNull = true) : Completes (.cwait a b) s t := by
  refine Completes.of_run hl (execCwait a b) rfl rfl <| Run.stepLift hr ?_
  dsimp only
  rw [hq, if_pos hn, Run.ans_pure]

section
variable {e : Desc} (hn : q.isNull = false) (he : (operandDesc q t).ans = .ok (e, u))
include hn he

theorem cwait_completes (h : ∀ c ∈ q.cells, CellReady u e (x.toNat % 16) c) : Completes (.cwait a b) s u := by
  refine Completes.of_run hl (execCwait a b) rfl rfl <| Run.stepLift hr ?_
  dsimp only
  rw [hq, hn, if_neg Bool.false_ne_true]
  refine Run.step he ?_
  dsimp only
  rw [bitsW_channel x, if_pos (all_cellReady_iff.mpr h), Run.ans_pure]

theorem cwait_waits (h : ∃ c ∈ q.cells, ¬CellReady u e (x.toNat % 16) c) :
    StopsAfter (.cwait a b) s (.wait (.region (x.toNat % 16) (cwaitOrd u (x.toNat % 16)))) := by
  obtain ⟨c, hc, hlate⟩ := h
  refine StopsAfter.of_run hl (execCwait a b) rfl rfl (Run.stepLift hr ?_) fun _ => nofun
  dsimp only
  rw [hq, hn, if_neg Bool.false_ne_true]
  refine Run.step he ?_
  dsimp only
  rw [bitsW_channel x, if_neg fun hall => hlate (all_cellReady_iff.mp hall c hc), Run.ans_throw]
end
end

/-! ### PRES (R274) -/

section
variable {q : Region} (hl : legal s (.pres d a) = true) (hq : s.qreg a.toNat = q)
include hl hq

theorem pres_null (hn : q.isNull = true) : Completes (.pres d a) s (s.setQ d.toNat Region.null) := by
  refine Completes.of_run hl (execPres d a) rfl rfl ?_
  dsimp only
  rw [hq, if_pos hn, Run.ans_pure]

section
variable {e : Desc} {db : Option (List Byte)} {r : Region} (hn : q.isNull = false)
  (hdb : (descFetch q.handle s).ans = .ok (db, u))
include hn hdb

theorem pres_region (hrg : q.rg = false) (he : checkDesc q db u = .ok e)
    (hfin : finishUnion d.toNat q.handle false q.cover e (((cellsOf q.rank q.boxes).filter (cellResident u e)).map
      (fun c => c.map (fun v => Dim.mk v (v + 1) 1))) = .ok r) : Completes (.pres d a) s (u.setQ d.toNat r) := by
  refine Completes.of_run hl (execPres d a) rfl rfl ?_
  dsimp only
  rw [hq, hn, hrg, if_neg Bool.false_ne_true, Bool.false_and, if_neg Bool.false_ne_true]
  refine Run.step hdb ?_
  dsimp only
  rw [if_neg Bool.false_ne_true]
  exact Run.step rfl <| Run.stepLift he <| Run.stepLift hfin rfl

theorem pres_ragged {v : State} {ls : List Nat} (hrg : q.rg = true) (htab : q.tableBad = false)
    (hls : (loadLens q.table q.rows.length u).ans = .ok (ls, v)) (he : checkDesc q db v = .ok e)
    (hfin : finishUnion d.toNat q.handle false q.cover e
      (((cellsOf q.rank (raggedBoxes q (fun k => ls.getD k 0))).filter (cellResident v e)).map
        (fun c => c.map (fun v => Dim.mk v (v + 1) 1))) = .ok r) : Completes (.pres d a) s (v.setQ d.toNat r) := by
  refine Completes.of_run hl (execPres d a) rfl rfl ?_
  dsimp only
  rw [hq, hn, hrg, htab, if_neg Bool.false_ne_true, Bool.and_false, if_neg Bool.false_ne_true]
  refine Run.step hdb ?_
  dsimp only
  rw [if_pos rfl]
  exact Run.step (Run.step hls rfl) <| Run.stepLift he <| Run.stepLift hfin rfl
end
end
end

/-- Settles O44: CWAIT by what its cells are, PRES by whether its region is null or ragged. -/
theorem copyQueries : Obligations.CopyQueries := by
  intro d a b s t u w x e
  refine ⟨cwp_completes, fun hl hr => ⟨cwait_null hl hr rfl, fun hn he => ⟨cwaitOrd_first, fun m => cwaitOrd_again,
    cwait_completes hl hr rfl hn he, cwait_waits hl hr rfl hn he⟩⟩, fun hl => ⟨pres_null hl rfl, fun hn hrg he r hfin => ?_, ?_⟩⟩
  · obtain ⟨db, hdb, hde⟩ := operandDesc_parts he
    exact pres_region hl rfl hn hdb hrg hde hfin
  · exact fun hn hrg htab db ls v r hdb hls he hfin => pres_ragged hl rfl hn hdb hrg htab hls he hfin

end Sys2Proof.Machine
end

section
/-! PROOF. The fibre words (10 R278, R279): O45 -/

namespace Sys2Proof.Machine
open Sys2Proof.Safety

/-- A legal word that stops before its first access stops without an effect. -/
theorem StopsWith.of_run {i : Instr} {s : State} {b : State → Run State} {st : Stop} (hl : legal s i = true)
    (m : State → Host.Outcome State Fault Refusal) (he : exec i s = m s) (hm : m s = guardedRun i s b)
    (h : (b s).ans = .error st) (hleft : (b s).left = []) (hf : ∀ f, st ≠ .fault f) : StopsWith i s st := by
  have hstop := (he.trans hm).trans (guardedRun_stops hl h hf)
  rwa [hleft, seeing_nil] at hstop

/-- A legal word traps without an effect where its first part is a check that fails. -/
theorem Traps.of_check {α : Type} {i : Instr} {s : State} {m : Except Stop α} {k : α → Run State} {c : Nat} {info : Word}
    (hl : legal s i = true) (h : m = .error (.trap c info)) (n : State → Host.Outcome State Fault Refusal)
    (he : exec i s = n s) {b : State → Run State} (hn : n s = guardedRun i s b) (hb : b s = liftM m >>= k) :
    Traps i s c info := by
  refine StopsWith.of_run hl n he hn ?_ ?_ fun _ => nofun
  · rw [hb, Run.ans_bind, Run.ans_lift, h]
  · rw [hb, Run.left_bind, Run.left_lift, Run.ans_lift, h]
    rfl

/-! ### Registers (R278) -/

section
variable {n : Nat} {s t : State} {f : Fibre}

theorem openFibre_open (hf : s.freg n = f) (ho : f.isOpen = true) : openFibre n s = .ok f := by
  rw [openFibre, hf, if_pos ho]

theorem openFibre_closed (hf : s.freg n = f) (ho : f.isOpen = false) : openFibre n s = .error (.trap 1 (illInfo s)) := by
  rw [openFibre, hf, ho, if_neg Bool.false_ne_true, ill]

/-- Reading a field leaves the fibre registers. -/
theorem readReg_freg {g : Nat} {x : Word} (h : readReg g s = .ok (x, t)) : t.freg n = s.freg n := by
  rw [State.freg, readReg_ctx Ctx.f (fun _ _ _ => rfl) h, State.freg]

/-! ### Advancing (R279) -/

/-- The answer at a fibre's end. -/
theorem answerAtEnd_eq : (-1 : Word) = BitVec.allOnes 64 := rfl

theorem advanced_stream (h : f.stream = true) : (f.advanced s).ans =
    .ok ({ f with cur := f.cur + f.val, coord := (f.coord + 1) % 2 ^ 32, left := f.left - 1 }, s) := by
  rw [Fibre.advanced, if_pos h, Run.ans_pure]

theorem advanced_fibre {co : Nat} (h : f.stream = false) (hco : (loadV (f.cur + 4).toNat 4 s).ans = .ok (co, t)) :
    (f.advanced s).ans =
      .ok ({ f with cur := f.cur + 4, val := f.val + BitVec.ofNat 64 (2 ^ f.size), coord := co, left := f.left - 1 }, t) := by
  rw [Fibre.advanced, h, if_neg Bool.false_ne_true]
  exact Run.step hco rfl

/-! ### The search for a key (R279) -/

section
variable {key : Nat}

theorem fibreSeek_found (h0 : f.left ≠ 0) (hk : key ≤ f.coord) : (fibreSeek key (n + 1) f s).ans = .ok (some f, s) := by
  rw [fibreSeek, if_neg h0, if_pos hk, Run.ans_pure]

theorem fibreSeek_ended (h : f.left = 0 ∨ (f.left = 1 ∧ f.coord < key)) :
    (fibreSeek key (n + 1) f s).ans = .ok (none, s) := by
  rw [fibreSeek]
  obtain h0 | ⟨h1, hk⟩ := h
  · rw [if_pos h0, Run.ans_pure]
  · rw [if_neg (by omega), if_neg (Nat.not_le.mpr hk), if_pos h1, Run.ans_pure]

theorem fibreSeek_below {g : Fibre} (h1 : 1 < f.left) (hk : f.coord < key) (hg : (f.advanced s).ans = .ok (g, t)) :
    (fibreSeek key (n + 1) f s).ans = (fibreSeek key n g t).ans := by
  rw [fibreSeek, if_neg (by omega), if_neg (Nat.not_le.mpr hk), if_neg (by omega)]
  exact Run.step hg rfl

theorem streamSeek_inside (h : key - f.coord < f.left) : streamSeek key f =
    some { f with cur := f.cur + BitVec.ofNat 64 (key - f.coord) * f.val, coord := f.coord + (key - f.coord),
                  left := f.left - (key - f.coord) } := if_neg (Nat.not_le.mpr h)

theorem streamSeek_beyond (h : f.left ≤ key - f.coord) : streamSeek key f = none := if_pos h

/-- The search of FNEXTGE. -/
def Fibre.seek (f : Fibre) (key : Nat) (s : State) : Run (Option Fibre × State) :=
  if f.stream then pure (streamSeek key f, s) else fibreSeek key (f.left + 1) f s

theorem seek_stream {r : Option Fibre} (hs : f.stream = true) (hr : streamSeek key f = r) :
    (f.seek key s).ans = .ok (r, s) := by
  rw [Fibre.seek, if_pos hs, hr, Run.ans_pure]

theorem seek_fibre (hs : f.stream = false) : f.seek key s = fibreSeek key (f.left + 1) f s := by
  rw [Fibre.seek, hs, if_neg Bool.false_ne_true]
end
end

section
variable {d a b : BitVec 6} {s t u w : State} {x : Word} {f : Fibre}

/-! ### FOPEN (R278, R279) -/

/-- The register that FOPEN sets from its record, with the first coordinate. -/
def Fibre.ofRecord (rec : List Byte) (co : Nat) : Fibre :=
  ⟨BitVec.ofNat 64 (leAt rec 0 8), BitVec.ofNat 64 (leAt rec 8 8), leAt rec 16 4, co, leAt rec 24 8 % 2 == 1,
    leAt rec 24 8 / 2 % 4, true⟩

section
variable {rec : List Byte} (hl : legal s (.fopen d a) = true) (hr : readReg a.toNat s = .ok (x, t))
  (hx : x.toNat % 8 = 0) (hrec : (loadSpan x.toNat 32 t).ans = .ok (rec, u)) (hctl : leAt rec 24 8 / 8 = 0)
  (hzero : leAt rec 20 4 = 0)
  (hal : (leAt rec 24 8 % 2 == 1) = false → leAt rec 0 8 % 4 = 0 ∧ leAt rec 8 8 % 2 ^ (leAt rec 24 8 / 2 % 4) = 0)
include hl hr hx hrec hctl hzero hal

/-- FOPEN once its record has passed the checks; `co` is the first coordinate, which only a fibre with entries reads. -/
theorem fopen_of_coord {co : Nat} {v : State}
    (hco : ((if !(leAt rec 24 8 % 2 == 1) && leAt rec 16 4 != 0 then loadV (leAt rec 0 8) 4 u else pure (0, u)) :
      Run (Nat × State)).ans = .ok (co, v)) :
    Completes (.fopen d a) s (v.setF d.toNat (Fibre.ofRecord rec co)) := by
  have hsize : fieldN (leAt rec 24 8) 1 2 = leAt rec 24 8 / 2 % 4 := rfl
  have hres : fieldN (leAt rec 24 8) 3 61 = 0 := by rw [fieldN, show 2 ^ 3 = 8 from rfl, hctl, Nat.zero_mod]
  have hcur : (!(leAt rec 24 8 % 2 == 1) && leAt rec 0 8 % 4 != 0) = false := by grind
  have hval : (!(leAt rec 24 8 % 2 == 1) && leAt rec 8 8 % 2 ^ (leAt rec 24 8 / 2 % 4) != 0) = false := by grind
  refine Completes.of_run hl (execFopen d a) rfl rfl <| Run.stepLift hr ?_
  dsimp only
  rw [if_neg (not_not.mpr hx)]
  refine Run.step hrec ?_
  dsimp only
  rw [fieldN_bit0, hsize, hres, hzero, hcur, hval, if_neg Bool.false_ne_true, if_neg Bool.false_ne_true, if_neg (by simp)]
  exact Run.step hco rfl

theorem fopen_unread (h : (leAt rec 24 8 % 2 == 1) = true ∨ leAt rec 16 4 = 0) :
    Completes (.fopen d a) s (u.setF d.toNat (Fibre.ofRecord rec 0)) := by
  refine fopen_of_coord hl hr hx hrec hctl hzero hal ?_
  rw [if_neg, Run.ans_pure]
  rcases h with h | h <;> simp [h]

theorem fopen_reads {co : Nat} {v : State} (hs : (leAt rec 24 8 % 2 == 1) = false) (h0 : leAt rec 16 4 ≠ 0)
    (hco : (loadV (leAt rec 0 8) 4 u).ans = .ok (co, v)) :
    Completes (.fopen d a) s (v.setF d.toNat (Fibre.ofRecord rec co)) := by
  refine fopen_of_coord hl hr hx hrec hctl hzero hal ?_
  rwa [if_pos]
  simp [hs, h0]
end

section
variable (hf : s.freg a.toNat = f) (ho : f.isOpen = true)
include hf ho

/-! ### FNEXT (R279) -/

section
variable (hl : legal s (.fnext d a) = true)
include hl

theorem fnext_ended (h : f.left ≤ 1)
    (hw : writeReg d.toNat (BitVec.allOnes 64) (s.setF a.toNat { f with left := 0 }) = .ok w) : Completes (.fnext d a) s w := by
  refine Completes.of_run hl (execFnext d a) rfl rfl <| Run.stepLift (openFibre_open hf ho) ?_
  rw [if_pos h, answerAtEnd_eq]
  exact hw

theorem fnext_advances {g : Fibre} (h : 1 < f.left) (hg : (f.advanced s).ans = .ok (g, t))
    (hw : writeReg d.toNat (BitVec.ofNat 64 g.coord) (t.setF a.toNat g) = .ok w) : Completes (.fnext d a) s w := by
  refine Completes.of_run hl (execFnext d a) rfl rfl <| Run.stepLift (openFibre_open hf ho) ?_
  rw [if_neg (Nat.not_le.mpr h)]
  exact Run.step hg hw
end

/-! ### FNEXTGE (R279) -/

section
variable (hl : legal s (.fnextge d a b) = true) (hr : readReg b.toNat s = .ok (x, t))
include hl hr

theorem fnextge_found {g : Fibre} (hseek : (f.seek (x.toNat % 2 ^ 32) t).ans = .ok (some g, u))
    (hw : writeReg d.toNat (BitVec.ofNat 64 g.coord) (u.setF a.toNat g) = .ok w) : Completes (.fnextge d a b) s w := by
  refine Completes.of_run hl (execFnextge d a b) rfl rfl <| Run.stepLift (openFibre_open hf ho) <| Run.stepLift hr ?_
  dsimp only
  rw [bitsW_low x 31]
  exact Run.step hseek hw

theorem fnextge_ended (hseek : (f.seek (x.toNat % 2 ^ 32) t).ans = .ok (none, u))
    (hw : writeReg d.toNat (BitVec.allOnes 64) (u.setF a.toNat { f with left := 0 }) = .ok w) :
    Completes (.fnextge d a b) s w := by
  refine Completes.of_run hl (execFnextge d a b) rfl rfl <| Run.stepLift (openFibre_open hf ho) <| Run.stepLift hr ?_
  dsimp only
  rw [bitsW_low x 31]
  refine Run.step hseek ?_
  dsimp only
  rw [answerAtEnd_eq]
  exact hw
end

/-! ### FEND and FCLOSE (R279) -/

theorem fend_completes (hl : legal s (.fend d a) = true)
    (hw : writeReg d.toNat (if f.left = 0 then 0 else if f.stream then f.cur else f.val) s = .ok w) :
    Completes (.fend d a) s w :=
  Completes.of_guarded hl (execFend d a) rfl rfl ((bind_of_ok (openFibre_open hf ho) _).trans hw)
end

/-- FCLOSE makes no check but that of its register's number. -/
theorem fclose_completes (h : a.toNat < 8) : Completes (.fclose a) s (s.setF a.toNat Fibre.closed) := by
  change execFclose a s = _
  rw [execFclose, if_neg (by omega), finish_ok]

/-! ### Words on a closed register (R278) -/

section
variable (hf : s.freg a.toNat = f) (hc : f.isOpen = false)
include hf hc

theorem fnext_closed (hl : legal s (.fnext d a) = true) : Traps (.fnext d a) s 1 (illInfo s) :=
  Traps.of_check hl (openFibre_closed hf hc) (execFnext d a) rfl rfl rfl

theorem fnextge_closed (hl : legal s (.fnextge d a b) = true) : Traps (.fnextge d a b) s 1 (illInfo s) :=
  Traps.of_check hl (openFibre_closed hf hc) (execFnextge d a b) rfl rfl rfl

theorem fend_closed (hl : legal s (.fend d a) = true) : Traps (.fend d a) s 1 (illInfo s) := by
  refine StopsWith.of_guarded hl (execFend d a) rfl rfl ?_ fun _ => nofun
  rw [openFibre_closed hf hc, bind_error]
end
end

/-- Settles O45: FNEXT by what it advances, FNEXTGE by how its search ends, and the search by one unfolding. -/
theorem fibres : Obligations.Fibres := by
  refine ⟨fun d a b s t u w x => ⟨?_, fun ho hl => ⟨?_, ?_, ?_⟩, fun ho hl hr hs => ⟨?_, ?_⟩, fend_completes rfl,
    fclose_completes, fun hc => ⟨fnext_closed rfl hc, fnextge_closed rfl hc, fend_closed rfl hc⟩⟩,
    fun key n f s => ⟨fibreSeek_found, fibreSeek_ended, fun g t => fibreSeek_below, ?_⟩⟩
  · exact fun hl hr hx rec hrec hctl hzero hal => ⟨fopen_unread hl hr hx hrec hctl hzero hal,
      fun hs h0 co v => fopen_reads hl hr hx hrec hctl hzero hal hs h0⟩
  · exact fnext_ended rfl ho hl
  · exact fun h hs hw => fnext_advances rfl ho hl h (advanced_stream hs) hw
  · exact fun h hs co hco hw => fnext_advances rfl ho hl h (advanced_fibre hs hco) hw
  · exact fun h hw => fnextge_found rfl ho hl hr (seek_stream hs (streamSeek_inside h)) hw
  · exact fun h hw => fnextge_ended rfl ho hl hr (seek_stream hs (streamSeek_beyond h)) hw
  · intro d a b x t u w r hl hr hf ho hs hseek hw
    rw [← seek_fibre hs] at hseek
    have hfs : s.freg a.toNat = f := (readReg_freg hr).symm.trans hf
    cases r with
    | some g => exact fnextge_found hfs ho hl hr hseek hw
    | none => exact fnextge_ended hfs ho hl hr hseek hw

end Sys2Proof.Machine
end

section
/-! PROOF. The vector words queue their entry (12 R286, R287, R297, R304): O46 -/

namespace Sys2Proof.Machine
open Sys2Proof.Safety

/-! ### What an entry word does -/

/-- The run of an entry word: VBCAST reads its scalar first. -/
def entryRun (i : Instr) : State → Run State :=
  match i with
  | .vbcast _ a _ _ => fun s => do
    let (x, s) ← readReg a.toNat s
    queueEntry i x s
  | _ => queueEntry i 0

/-- Every entry word is the run that queues its entry. -/
theorem exec_of_vform {i : Instr} {f : VForm} {s : State} (hf : vform i = some f) :
    exec i s = guardedRun i s (entryRun i) := by
  unfold vform at hf
  split at hf
  case h_37 => cases hf
  all_goals rfl

/-- The scalar of an entry and the state in which it is queued. -/
def EntryScalar (i : Instr) (s u : State) (scalar : Word) : Prop :=
  match i with
  | .vbcast _ a _ _ => readReg a.toNat s = .ok (scalar, u)
  | _ => scalar = 0 ∧ u = s

theorem entryRun_eq {i : Instr} {s u : State} {scalar : Word} (h : EntryScalar i s u scalar) :
    entryRun i s = queueEntry i scalar u := by
  unfold EntryScalar at h
  split at h
  · change (liftM (readReg _ s) : Run _) >>= _ = _
    rw [h]
    rfl
  next hne =>
    obtain ⟨rfl, rfl⟩ := h
    unfold entryRun
    split
    · exact absurd rfl (hne _ _ _ _)
    · rfl

/-- Reading the scalar leaves the word that executes. -/
theorem EntryScalar.focus {i : Instr} {s u : State} {scalar : Word} (h : EntryScalar i s u scalar) : u.focus = s.focus := by
  unfold EntryScalar at h
  split at h
  · exact readReg_focus h
  · rw [h.2]

/-! ### The records that an entry word reads (R287) -/

/-- The destination's shape register, where there is one. -/
def VForm.dstReg (f : VForm) : Option Nat := if f.toMask then none else some f.dst

/-- The shape registers that an entry word names. -/
def VForm.regs (f : VForm) : List Nat := (if f.toMask then [] else [f.dst]) ++ f.a.toList ++ f.b.toList

/-- The shape record at a local address. -/
def State.shape (s : State) (x : Nat) : Shape := parseShape x (memRead s.core.mem (localOff x) 32)

/-- The record that a shape register names. -/
def State.shapeOf (s : State) (r : Option Nat) : Option Shape := r.map (fun n => s.shape (s.hreg n))

/-- The scale record, which stands behind the destination's. -/
def VForm.scaleShape (f : VForm) (s : State) : Option Shape :=
  match s.shapeOf f.dstReg with
  | some h => if f.quantOk && h.quant then some (s.shape (h.addr + 32)) else none
  | none => none

theorem mem_regs {f : VForm} {n : Nat} : n ∈ f.regs ↔ n ∈ f.dstReg ∨ n ∈ f.a ∨ n ∈ f.b := by
  have hdst : n ∈ (if f.toMask then [] else [f.dst]) ↔ n ∈ f.dstReg := by
    rw [VForm.dstReg]
    split <;> simp [eq_comm]
  rw [VForm.regs, List.append_assoc, List.mem_append, List.mem_append, hdst, Option.mem_toList, Option.mem_toList]
  rfl

theorem shapeAt_ok {s : State} {x : Nat} (h : s.core.poisoned (localOff x) 32 = false) : shapeAt x s = .ok (s.shape x) := by
  rw [shapeAt, h, if_neg Bool.false_ne_true, State.shape]

/-- A run whose first part gives a value without an access is what follows. -/
theorem Run.bind_of_pure {α β : Type} {m : Run α} {a : α} (h : m = pure a) (g : α → Run β) : (m >>= g) = g a := by
  rw [h]
  rfl

theorem mapM_shapeAt {s : State} {r : Option Nat} (h : ∀ n ∈ r, s.core.poisoned (localOff (s.hreg n)) 32 = false) :
    r.mapM (fun n => (liftM (shapeAt (s.hreg n) s) : Run Shape)) = pure (s.shapeOf r) := by
  cases r with
  | none => rfl
  | some n =>
    rw [Option.mapM_some, shapeAt_ok (h n rfl)]
    rfl

/-! ### Room in the queue (R286) and the entry (R287, R297) -/

/-- Where there is room, or the oldest entry is done and not to run again, there is room for one more. -/
theorem makeRoom_ok {v : State} {q : List VEntry} (hroom : v.cur.vq.length < 16 → q = v.cur.vq)
    (hfull : 16 ≤ v.cur.vq.length → ∃ e, v.cur.vq = e :: q ∧ e.st = .done ∧ (e.body = true → v.cur.vleft = 0)) :
    ∃ w, makeRoom v = .ok w ∧ w.cur = { v.cur with vq := q } ∧ w.pin = v.pin ∧ ∀ x, w.setCur x = v.setCur x := by
  rw [makeRoom]
  dsimp only
  split
  next hlt =>
    obtain rfl := hroom hlt
    exact ⟨v, rfl, rfl, rfl, fun _ => rfl⟩
  next hge =>
    obtain ⟨e, hq, hdone, hbody⟩ := hfull (Nat.not_lt.mp hge)
    have hgone : (e.st == .done && !(e.body && decide (0 < v.cur.vleft))) = true := by
      simp only [hdone, Bool.and_eq_true, Bool.not_eq_true', Bool.and_eq_false_iff, decide_eq_false_iff_not]
      grind
    rw [hq]
    dsimp only
    rw [if_pos hgone]
    exact ⟨_, rfl, State.cur_setCur .., rfl, fun _ => State.setCur_setCur ..⟩

/-- The entry of an entry word whose records were read in `s` and which is queued in `w`. -/
def VForm.entry (f : VForm) (i : Instr) (scalar : Word) (s w : State) : VEntry :=
  { insn := i, hd := s.shapeOf f.dstReg, ha := s.shapeOf f.a, hb := s.shapeOf f.b, scale := f.scaleShape s
    mask := takeMask f w, masked := f.mask != 0 && !f.dataMask, scalar := scalar, rsCtr := w.cur.kscnt
    seed := w.cur.kseed, e4n := e4nOf w.cur.kfpe, st := .pending, body := false, dom := w.kdom, sup := w.cur.sup
    tseq := w.appends }

/-- The state with an entry at the end of the queue; a stochastic conversion takes a counter. -/
def VForm.queued (f : VForm) (e : VEntry) (w : State) : State :=
  w.setCur { w.cur with vq := w.cur.vq ++ [e], kscnt := if f.rs then w.cur.kscnt + 1 else w.cur.kscnt }

theorem queued_of_room {f : VForm} {e : VEntry} {v w : State} {q : List VEntry} (hcur : w.cur = { v.cur with vq := q })
    (hset : ∀ x, w.setCur x = v.setCur x) : f.queued e w =
      v.setCur { v.cur with vq := q ++ [e], kscnt := if f.rs then v.cur.kscnt + 1 else v.cur.kscnt } := by
  rw [VForm.queued, hset, hcur]

theorem mreg_of_cur {v w : State} {n : Nat} (hpin : w.pin = v.pin) (hm : w.cur.m = v.cur.m) : w.mreg n = v.mreg n := by
  rw [State.mreg, State.mreg, hpin, hm]

theorem takeMask_reg {f : VForm} {w : State} {m : Nat} (h : f.maskReg = some m) : takeMask f w = w.mreg m := by
  rw [takeMask, h]

theorem takeMask_none {f : VForm} {w : State} (h : f.maskReg = none) : takeMask f w = BitVec.allOnes 512 := by
  rw [takeMask, h]
  exact BitVec.neg_one_eq_allOnes

section
variable {i : Instr} {f : VForm} {s : State} {scalar : Word} (hf : vform i = some f)
  (hregs : ∀ n ∈ f.regs, s.hreg n ≠ 0 ∧ s.hreg n ∉ s.cur.vadv)
  (hpoison : ∀ x ∈ f.regs.map s.hreg ++ (f.scaleShape s).toList.map (·.addr), s.core.poisoned (localOff x) 32 = false)
include hf hregs hpoison

/-- An entry word first reads its records; a stochastic conversion that quantizes then raises ILL, and every other word
goes on with its checks (R287, R304). -/
theorem queueEntry_records : ∃ rest : Run State,
    queueEntry i scalar s = (if f.rs && (s.shapeOf f.dstReg).any (·.quant) then liftM (ill (α := PUnit) s) >>= fun _ => rest
      else rest) ∧
    ∀ v w,
      (checkOperands (f.operands (s.shapeOf f.dstReg) (s.shapeOf f.a) (s.shapeOf f.b) (f.scaleShape s)) s).ans = .ok v →
      f.shapeOk (s.shapeOf f.dstReg) (s.shapeOf f.a) = true → (usesDt8 f = true → v.cur.xdt = v.core.dt8Tag) →
      makeRoom v = .ok w → rest.ans = .ok (f.queued (f.entry i scalar s w) w) := by
  have hlegal : ¬f.regs.any (fun n => s.hreg n == 0 || s.cur.vadv.contains (s.hreg n)) = true := by
    simpa using hregs
  have hread (r : Option Nat) (hr : ∀ n ∈ r, n ∈ f.dstReg ∨ n ∈ f.a ∨ n ∈ f.b) :
      r.mapM (fun n => (liftM (shapeAt (s.hreg n) s) : Run Shape)) = pure (s.shapeOf r) :=
    mapM_shapeAt fun n hn => hpoison _ (List.mem_append_left _ (List.mem_map_of_mem (mem_regs.mpr (hr n hn))))
  have hscale : ∀ h ∈ f.scaleShape s, s.core.poisoned (localOff h.addr) 32 = false := fun h hh =>
    hpoison _ (List.mem_append_right _ (List.mem_map_of_mem (Option.mem_toList.mpr hh)))
  apply Exists.intro
  constructor
  · rw [queueEntry, hf]
    dsimp only
    refine (if_neg hlegal).trans <| (Run.bind_of_pure (hread f.dstReg fun _ h => .inl h) _).trans <|
      (Run.bind_of_pure (hread f.a fun _ h => .inr (.inl h)) _).trans <|
      (Run.bind_of_pure (hread f.b fun _ h => .inr (.inr h)) _).trans <| Run.bind_of_pure (a := f.scaleShape s) ?_ _
    rw [VForm.scaleShape] at hscale ⊢
    cases hd : s.shapeOf f.dstReg with
    | none => rfl
    | some h =>
      rw [hd] at hscale
      dsimp only at hscale ⊢
      split
      next hq =>
        rw [if_pos hq] at hscale
        rw [shapeAt_ok (x := h.addr + 32) (hscale _ rfl)]
        rfl
      next => rfl
  · intro v w hv hshape hdt hw
    have hdt8 : (usesDt8 f && v.cur.xdt != v.core.dt8Tag) = false := by simpa using hdt
    refine Run.step hv ?_
    rw [hshape, hdt8, if_neg (by simp)]
    exact Run.stepLift hw rfl
end

/-- Settles O46: an entry word by its records, its checks and the room in the queue, in their order. -/
theorem vectorEntriesAreQueued : Obligations.VectorEntriesAreQueued := by
  intro i f s u scalar hf regs rec' hd ha hb sc quant hl hscalar hregs hpoison
  have hrun : entryRun i s = queueEntry i scalar u := entryRun_eq hscalar
  have hfocus : u.focus = s.focus := EntryScalar.focus hscalar
  have hhd : hd = u.shapeOf f.dstReg := by
    simp only [hd, State.shapeOf, VForm.dstReg]
    split <;> rfl
  have hsc : sc = f.scaleShape u := by
    rw [VForm.scaleShape, ← hhd]
    rfl
  rw [hsc] at hpoison
  obtain ⟨rest, hrest, hqueued⟩ := queueEntry_records (scalar := scalar) hf hregs hpoison
  rw [← hhd] at hrest
  refine ⟨fun hrs ⟨h, hh, hq⟩ => ?_, fun hns v hv hshape hdt8 q hroom hfull => ?_⟩
  · rw [hrs, hh, Option.any_some, hq, if_pos (by rfl)] at hrest
    exact Traps.of_check (m := ill (α := PUnit) u) hl (by rw [ill, illInfo, illInfo, hfocus])
      (fun s => guardedRun i s (entryRun i)) (exec_of_vform hf) rfl (hrun.trans hrest)
  · have hplain : (f.rs && hd.any (·.quant)) = false := by
      rw [Bool.eq_false_iff]
      simp only [ne_eq, Bool.and_eq_true, Option.any_eq_true]
      exact fun ⟨hrs, h, hh, hq⟩ => hns hrs ⟨h, hh, hq⟩
    rw [hplain, if_neg Bool.false_ne_true] at hrest
    obtain ⟨w, hw, hcur, hpin, hset⟩ := makeRoom_ok hroom hfull
    rw [hsc, hhd] at hv
    rw [hhd] at hshape
    have hdone := hqueued v w hv hshape hdt8 hw
    rw [queued_of_room hcur hset] at hdone
    refine ⟨f.entry i scalar u w, rfl, hhd.symm, rfl, rfl, hsc.symm, rfl, rfl, rfl, congrArg (·.kscnt) hcur,
      congrArg (·.kseed) hcur, congrArg (·.kdom.toNat) hcur, (congrArg Ctx.sup hcur).trans rfl,
      fun m hm => (takeMask_reg hm).trans (mreg_of_cur hpin (congrArg (·.m) hcur)), takeMask_none,
      Completes.of_run hl (fun s => guardedRun i s (entryRun i)) (exec_of_vform hf) rfl ?_⟩
    rw [hrun, hrest]
    exact hdone

end Sys2Proof.Machine
end

section
/-! PROOF. Integer elements (12 R298, R299): O47 -/

namespace Sys2Proof.Machine

/-! ### Integer codes and their values (04 R80)

The value of a code is congruent to the code modulo `2 ^ w`, so a sum, a difference or a product of values has the code
that the same operation on the codes gives. -/

/-- The sign bit of a code of a signed type is set. -/
def signBit (w : Nat) (sg : Bool) (x : Nat) : Prop := sg = true ∧ 2 ^ (w - 1) ≤ x

section
variable {t w : Nat} {sg : Bool} (h : (w, sg) = intShape t)
include h

/-- Every integer type has a sign bit's place and as many values below it as above. -/
theorem intShape_half : 2 ^ w = 2 * 2 ^ (w - 1) := by
  have hw : 0 < w := by
    simp only [intShape, Prod.mk.injEq] at h
    grind
  rw [← Nat.pow_succ', Nat.succ_eq_add_one, Nat.sub_add_cancel hw]

theorem intValue_eq {x : Nat} (hx : x < 2 ^ w) :
    intValue t x = if sg = true ∧ 2 ^ (w - 1) ≤ x then (x : Int) - (2 ^ w : Nat) else x := by
  rw [intValue, ← h]
  dsimp only
  cases sg with
  | false => simp [Nat.mod_eq_of_lt hx]
  | true => grind [sextI, Nat.mod_eq_of_lt hx]

theorem intValue_signed {x : Nat} (hx : x < 2 ^ w) (hm : signBit w sg x) : intValue t x = (x : Int) - (2 ^ w : Nat) :=
  (intValue_eq h hx).trans (if_pos hm)

theorem intValue_unsigned {x : Nat} (hx : x < 2 ^ w) (hm : ¬signBit w sg x) : intValue t x = x :=
  (intValue_eq h hx).trans (if_neg hm)

theorem intValue_modEq {x : Nat} (hx : x < 2 ^ w) : intValue t x ≡ x [ZMOD (2 ^ w : Nat)] := by
  rw [intValue_eq h hx]
  split
  · exact Int.sub_modulus_modEq_iff.mpr rfl
  · rfl

/-- The order of the values is that of the codes, with the sign bit of a signed type turned over. -/
theorem intValue_lt_iff {x y : Nat} (hx : x < 2 ^ w) (hy : y < 2 ^ w) : intValue t x < intValue t y ↔
    if sg then (x + 2 ^ (w - 1)) % 2 ^ w < (y + 2 ^ (w - 1)) % 2 ^ w else x < y := by
  have half := intShape_half h
  have turned {z : Nat} (hz : z < 2 ^ w) :
      (z + 2 ^ (w - 1)) % 2 ^ w = if 2 ^ (w - 1) ≤ z then z - 2 ^ (w - 1) else z + 2 ^ (w - 1) := by
    split
    · rw [Nat.mod_eq_sub_mod (by omega), Nat.mod_eq_of_lt (by omega)]
      omega
    · exact Nat.mod_eq_of_lt (by omega)
  rw [intValue_eq h hx, intValue_eq h hy, turned hx, turned hy]
  cases sg with
  | false => simp
  | true =>
    simp only [true_and, if_true]
    split <;> split <;> omega

/-- An integer congruent to a natural number has that number's code. -/
theorem intCode_of_modEq {v : Int} {n : Nat} (hv : v ≡ n [ZMOD (2 ^ w : Nat)]) : intCode t v = n % 2 ^ w := by
  rw [intCode, ← h, ofIntN]
  dsimp only
  rw [hv.eq, ← Int.natCast_mod, Int.toNat_natCast]

theorem intCode_of_modEq_lt {v : Int} {n : Nat} (hv : v ≡ n [ZMOD (2 ^ w : Nat)]) (hn : n < 2 ^ w) : intCode t v = n := by
  rw [intCode_of_modEq h hv, Nat.mod_eq_of_lt hn]

theorem intCode_intValue {x : Nat} (hx : x < 2 ^ w) : intCode t (intValue t x) = x :=
  intCode_of_modEq_lt h (intValue_modEq h hx) hx

/-- The code of `-(m + 1)` is the complement of `m`. -/
theorem intCode_complement {m : Nat} (hm : m < 2 ^ w) : intCode t (Int.negSucc m) = 2 ^ w - 1 - m := by
  refine intCode_of_modEq_lt h ?_ (by omega)
  rw [show ((2 ^ w - 1 - m : Nat) : Int) = Int.negSucc m + (2 ^ w : Nat) by omega]
  exact Int.modEq_add_modulus_iff.mpr rfl
end

/-! ### Differences, magnitudes and shifts -/

/-- Subtraction of a code is addition of its complement. -/
theorem sub_modEq_complement {w : Nat} {u v : Int} {a b : Nat} (hu : u ≡ a [ZMOD (2 ^ w : Nat)]) (hv : v ≡ b [ZMOD (2 ^ w : Nat)])
    (hb : b < 2 ^ w) : u - v ≡ (a + (2 ^ w - b) : Nat) [ZMOD (2 ^ w : Nat)] := by
  refine (hu.sub hv).trans ?_
  rw [Nat.cast_add, Nat.cast_sub hb.le, add_sub, add_sub_right_comm]
  exact Int.modEq_add_modulus_iff.mpr rfl

theorem neg_modEq_complement {w : Nat} {v : Int} {a : Nat} (hv : v ≡ a [ZMOD (2 ^ w : Nat)]) (ha : a < 2 ^ w) :
    -v ≡ (2 ^ w - a : Nat) [ZMOD (2 ^ w : Nat)] := by
  have hsub := sub_modEq_complement (u := 0) (a := 0) rfl hv ha
  rwa [zero_sub, Nat.zero_add] at hsub

section
variable {t w : Nat} {sg : Bool} (h : (w, sg) = intShape t) {x : Nat} (hx : x < 2 ^ w)
include h hx

theorem intCode_natAbs_signed (hm : signBit w sg x) : intCode t (intValue t x).natAbs = 2 ^ w - x := by
  have half := intShape_half h
  have habs : (intValue t x).natAbs = 2 ^ w - x := by
    rw [intValue_signed h hx hm]
    omega
  rw [habs, intCode_of_modEq_lt h rfl]
  have := hm.2
  omega

theorem intCode_natAbs_unsigned (hm : ¬signBit w sg x) : intCode t (intValue t x).natAbs = x := by
  rw [intValue_unsigned h hx hm, Int.natAbs_natCast, intCode_of_modEq_lt h rfl hx]

theorem intCode_shr_unsigned (hm : ¬signBit w sg x) (k : Nat) :
    intCode t (intValue t x / ((2 ^ k : Nat) : Int)) = x / 2 ^ k := by
  rw [intValue_unsigned h hx hm, ← Int.natCast_div, intCode_of_modEq_lt h rfl ((Nat.div_le_self ..).trans_lt hx)]

/-- The value of a code with its sign bit set, by the code's complement. -/
theorem intValue_complement (hm : signBit w sg x) : intValue t x = Int.negSucc (2 ^ w - 1 - x) := by
  rw [intValue_signed h hx hm]
  omega

/-- A shift of a negative value brings in ones: it shifts the complement. -/
theorem intCode_shr_signed (hm : signBit w sg x) (k : Nat) :
    intCode t (intValue t x / ((2 ^ k : Nat) : Int)) = 2 ^ w - 1 - (2 ^ w - 1 - x) / 2 ^ k := by
  have hdiv : Int.negSucc (2 ^ w - 1 - x) / ((2 ^ k : Nat) : Int) = Int.negSucc ((2 ^ w - 1 - x) / 2 ^ k) :=
    Int.negSucc_ediv _ (by positivity)
  have hlt : 2 ^ w - 1 - x < 2 ^ w := by omega
  rw [intValue_complement h hx hm, hdiv, intCode_complement h ((Nat.div_le_self ..).trans_lt hlt)]
end

section
variable {t w : Nat} {sg : Bool} (h : (w, sg) = intShape t) {x y : Nat} (hx : x < 2 ^ w) (hy : y < 2 ^ w)
include h hx hy

/-- The lesser and the greater of two values, by which of them is the lesser. -/
theorem intCode_pick_of_le (hle : intValue t x ≤ intValue t y) (mx : Bool) :
    intCode t (if decide (intValue t x ≤ intValue t y) != mx then intValue t x else intValue t y) = if mx then y else x := by
  rw [decide_eq_true hle]
  cases mx
  · exact intCode_intValue h hx
  · exact intCode_intValue h hy

theorem intCode_pick_of_gt (hlt : intValue t y < intValue t x) (mx : Bool) :
    intCode t (if decide (intValue t x ≤ intValue t y) != mx then intValue t x else intValue t y) = if mx then x else y := by
  rw [decide_eq_false hlt.not_ge]
  cases mx
  · exact intCode_intValue h hy
  · exact intCode_intValue h hx
end

/-! ### Elements of an integer type (12 R298) -/

section
variable {t : Nat} (h16 : 16 ≤ t)
include h16

theorem elArith_integer {c : NumCtx} {rm : Nat} {ff : Val × Fl} {v : Int} : elArith c t rm ff v = (intCode t v, 0) :=
  if_neg (by omega)

theorem elArith_integer_code {c : NumCtx} {rm : Nat} {ff : Val × Fl} {v : Int} {n : Nat} (hv : intCode t v = n) :
    (elArith c t rm ff v).1 = n := (congrArg Prod.fst (elArith_integer h16)).trans hv

theorem elArith_integer_flags {c : NumCtx} {rm : Nat} {ff : Val × Fl} {v : Int} : (elArith c t rm ff v).2 = 0 :=
  congrArg Prod.snd (elArith_integer h16)

theorem codeBits_integer (h23 : t ≤ 23) : codeBits t = (intShape t).1 := by
  interval_cases t <;> rfl
end

/-- Settles O47: each operation on values by congruence modulo `2 ^ w`, the rest by the sign bit. -/
theorem integerElements : Obligations.IntegerElements := by
  intro e f c i a b d sel w sg h16 h23 h ha hb hd res flags less minus
  have hbits : codeBits f.t = w := by rw [codeBits_integer h16 h23, ← h]
  have hva := intValue_modEq h ha
  have hvb := intValue_modEq h hb
  have hvd := intValue_modEq h hd
  have arith {c : NumCtx} {rm : Nat} {ff : Val × Fl} {v : Int} {n : Nat} (hv : intCode f.t v = n) :
      (elArith c f.t rm ff v).1 = n := elArith_integer_code h16 hv
  have hshr : res .shr = intCode f.t (intValue f.t a / ((2 ^ (b % w) : Nat) : Int)) := hbits ▸ rfl
  have hshl : res .shl = a * 2 ^ (b % w) % 2 ^ w := hbits ▸ rfl
  refine ⟨arith (intCode_of_modEq h ?_), arith (intCode_of_modEq h (sub_modEq_complement hva hvb hb)),
    arith (intCode_of_modEq h ?_), arith (intCode_of_modEq h ?_), arith (intCode_of_modEq h (neg_modEq_complement hva ha)),
    fun hm => arith (intCode_natAbs_signed h ha hm), fun hm => arith (intCode_natAbs_unsigned h ha hm), rfl, rfl, rfl,
    hshl, fun hm => ?_, fun hm => ?_, fun hlt => ?_, fun hlt => ?_, fun hab => ?_, ?_, ?_, ?_⟩
  · exact_mod_cast hva.add hvb
  · exact_mod_cast hva.mul hvb
  · exact_mod_cast (hva.mul hvb).add hvd
  · rw [hshr, intCode_shr_unsigned h ha hm]
  · rw [hshr, intCode_shr_signed h ha hm]
  · have hle := ((intValue_lt_iff h ha hb).mpr hlt).le
    exact ⟨arith (intCode_pick_of_le h ha hb hle false), arith (intCode_pick_of_le h ha hb hle true)⟩
  · have hgt := (intValue_lt_iff h hb ha).mpr hlt
    exact ⟨arith (intCode_pick_of_gt h ha hb hgt false), arith (intCode_pick_of_gt h ha hb hgt true)⟩
  · subst hab
    exact ⟨arith (intCode_pick_of_le h ha ha le_rfl false), arith (intCode_pick_of_le h ha ha le_rfl true)⟩
  · have hlt : (if sel then a else b) < 2 ^ w := by split <;> assumption
    exact (congrArg ((if sel then a else b) % 2 ^ ·) hbits).trans (Nat.mod_eq_of_lt hlt)
  · change (if f.t = 0 then rne32 (Val.ofInt i) else i % 2 ^ codeBits f.t) = _
    rw [if_neg (by omega), hbits]
  · have none {c : NumCtx} {rm : Nat} {ff : Val × Fl} {v : Int} : (elArith c f.t rm ff v).2 = 0 :=
      elArith_integer_flags h16
    simp only [List.forall_mem_cons]
    exact ⟨none, none, none, none, none, none, rfl, rfl, rfl, rfl, rfl, none, none, rfl, rfl, nofun⟩

end Sys2Proof.Machine
end

section
/-! PROOF. VSHAPE, VLOOP, VSYNC, VTBL and the sequencer (12 R288 to R290, R309 to R312, 04 R90): O48 -/

namespace Sys2Proof.Machine
open Sys2Proof.Safety

/-! ### VSHAPE (R290) -/

section
variable {h : BitVec 4} {a : BitVec 6} {s t : State} {x : Word} (hr : readReg a.toNat s = .ok (x, t))
  (hl : legal s (.vshape h a) = true)
include hr hl

theorem vshape_completes
    (hx : x = 0 ∨ (x.toNat % 32 = 0 ∧ isLocal x.toNat = true ∧ localCheck false x.toNat 32 t = .ok ())) :
    Completes (.vshape h a) s (t.setCur { t.cur with h := sset t.cur.h h.toNat x }) := by
  refine Completes.of_guarded hl (execVshape h a) rfl rfl ((bind_of_ok hr _).trans ?_)
  dsimp only
  by_cases h0 : x = 0
  · exact if_pos h0
  · obtain ⟨halign, hlocal, hcheck⟩ := hx.resolve_left h0
    rw [if_neg h0, if_neg (not_not.mpr halign), hlocal, hcheck]
    rfl

theorem vshape_misaligned (h0 : x ≠ 0) (hx : x.toNat % 32 ≠ 0) : Traps (.vshape h a) s 3 x := by
  refine StopsWith.of_guarded hl (execVshape h a) rfl rfl ((bind_of_ok hr _).trans ?_) fun _ => nofun
  dsimp only
  rw [if_neg h0, if_pos hx, misaligned, trapS, wd, BitVec.ofNat_toNat, BitVec.setWidth_eq]

theorem vshape_global (h0 : x ≠ 0) (hx : x.toNat % 32 = 0) (hg : isLocal x.toNat = false) : Traps (.vshape h a) s 2 x := by
  refine StopsWith.of_guarded hl (execVshape h a) rfl rfl ((bind_of_ok hr _).trans ?_) fun _ => nofun
  dsimp only
  rw [if_neg h0, if_neg (not_not.mpr hx), hg, prot, trapS, wd, BitVec.ofNat_toNat, BitVec.setWidth_eq]
  rfl
end

/-! ### VLOOP (R309, R310) -/

/-- A legal word whose run only stops, stops without an effect. -/
theorem StopsWith.of_throw {i : Instr} {s : State} {b : State → Run State} {st : Stop} (hl : legal s i = true)
    (m : State → Host.Outcome State Fault Refusal) (he : exec i s = m s) (hm : m s = guardedRun i s b)
    (h : b s = throw st) (hf : ∀ f, st ≠ .fault f) : StopsWith i s st :=
  StopsWith.of_run hl m he hm (by rw [h, Run.ans_throw]) (by rw [h, Run.left_throw]) hf

/-- There is no body of `len` entries, or a loop is running (R309). -/
def Ctx.refusesLoop (c : Ctx) (len : Nat) : Prop :=
  c.vq.length < len ∨ c.vleft ≠ 0 ∨ ∃ e ∈ c.vq, e.body = true ∧ e.st ≠ .done

theorem refusesLoop_iff {c : Ctx} {len : Nat} : c.refusesLoop len ↔
    c.vq.length < len ∨ c.vleft ≠ 0 ∨ c.vq.any (fun e => e.body && e.st != .done) = true := by
  simp only [Ctx.refusesLoop, List.any_eq_true, Bool.and_eq_true, bne_iff_ne]

/-- The context with the last entries of its queue as the body of a loop of `n` iterations; `vq` is the queue as it was
before its checks. -/
def Ctx.loops (c : Ctx) (n len : Nat) (vq : List VEntry) : Ctx :=
  let body := vq.drop (vq.length - len)
  { c with
    vq := (c.vq.take (vq.length - len)).map (fun e => { e with body := false }) ++ body.map (fun e => { e with body := true })
    vk := len, vleft := n
    vadv := c.vadv ++ (((body.map VEntry.shapes).flatten).filter (fun h => h.adv != 0)).map (·.addr)
    vcnt := c.kscnt, viter := 0, kscnt := c.kscnt + wd (n * rsCount body) }

section
variable {k : BitVec 4} {a : BitVec 6} {s t u : State} {x : Word} (hr : readReg a.toNat s = .ok (x, t))
  (hl : legal s (.vloop k a) = true)
include hr hl

theorem vloop_illegal (hbusy : t.cur.refusesLoop (k.toNat + 1)) : Traps (.vloop k a) s 1 (illInfo s) := by
  refine StopsWith.of_throw hl (execVloop k a) rfl rfl
    ((Run.bind_of_pure (a := (x, t)) (by rw [hr]; rfl) _).trans ?_) fun _ => nofun
  dsimp only
  rw [if_pos (refusesLoop_iff.mp hbusy)]
  rfl

theorem vloop_none (hidle : ¬t.cur.refusesLoop (k.toNat + 1)) (hn : x.toNat % 2 ^ 32 = 0) : Completes (.vloop k a) s t := by
  refine Completes.of_run hl (execVloop k a) rfl rfl <| Run.stepLift hr ?_
  dsimp only
  rw [if_neg (mt refusesLoop_iff.mpr hidle), bitsW_low x 31, if_pos hn, Run.ans_pure]

theorem vloop_arms (hidle : ¬t.cur.refusesLoop (k.toNat + 1)) (hn : x.toNat % 2 ^ 32 ≠ 0)
    (hc : (loopChecks (x.toNat % 2 ^ 32) (t.cur.vq.drop (t.cur.vq.length - (k.toNat + 1))) t).ans = .ok u) :
    let v := u.setCur (u.cur.loops (x.toNat % 2 ^ 32) (k.toNat + 1) t.cur.vq)
    Completes (.vloop k a) s (rearm v.focus.core v.focus.ctx v) := by
  refine Completes.of_run hl (execVloop k a) rfl rfl <| Run.stepLift hr ?_
  dsimp only
  rw [if_neg (mt refusesLoop_iff.mpr hidle), bitsW_low x 31, if_neg hn]
  exact Run.step hc rfl
end

/-! ### VSYNC (R311) -/

section
variable {s : State}

theorem vectorIdle_busy (h : ∃ e ∈ s.cur.vq, e.st ≠ .done) : vectorIdle s = .error (.wait .vector) :=
  if_pos (by simpa using h)

theorem vectorIdle_idle (h : ∀ e ∈ s.cur.vq, e.st = .done) : vectorIdle s = .ok s :=
  if_neg (by simpa using h)

theorem vsync_waits (h : ∃ e ∈ s.cur.vq, e.st ≠ .done) : StopsWith .vsync s (.wait .vector) := by
  change execVsync s = _
  rw [execVsync, vectorIdle_busy h, bind_error, finish_stop s (.wait .vector) fun _ => nofun]

theorem vsync_flags (h : ∀ e ∈ s.cur.vq, e.st = .done) (hf : s.cur.vflags &&& enabledOf s.cur.kfpe ≠ 0) :
    StopsWith .vsync s (.flags (s.cur.vflags.setWidth 64)) := by
  have hup : flagsUp s = true := bne_iff_ne.mpr hf
  change execVsync s = _
  rw [execVsync, bind_of_ok (vectorIdle_idle h), hup, if_pos rfl, finish_stop s (.flags _) fun _ => nofun]

theorem vsync_completes (h : ∀ e ∈ s.cur.vq, e.st = .done) (hf : s.cur.vflags &&& enabledOf s.cur.kfpe = 0) :
    Completes .vsync s (s.setCur s.cur.emptied) := by
  have hup : flagsUp s = false := bne_eq_false_iff_eq.mpr hf
  change execVsync s = _
  rw [execVsync, bind_of_ok (vectorIdle_idle h), hup, if_neg Bool.false_ne_true]
  exact finish_ok ..
end

/-- The queue of a context, its flags and its loop. -/
def Ctx.queueState (x : Ctx) : List VEntry × Fl × Nat := (x.vq, x.vflags, x.vleft)

theorem hwBlind_queueState : HwBlind Ctx.queueState := ⟨fun _ _ => rfl, fun _ _ _ => rfl⟩

theorem takeTrap_queueState (s : State) (c : Nat) (info : Word) :
    (takeTrap s c info).cur.queueState = s.cur.queueState := by
  cases h : s.cur.inTrap with
  | false =>
    rw [takeTrap_outside h, State.cur_setCur]
    rfl
  | true =>
    rw [takeTrap_inside h, haltReport_cur hwBlind_queueState, State.cur_setCur]
    rfl

/-- A trap taken from VSYNC leaves the queue empty, and no flags and no loop with it (R311, 04 R90). -/
theorem stopState_flags_queueState (s : State) (info : Word) : (stopState s (.flags info)).cur.queueState = ([], 0, 0) := by
  change (takeTrap (s.setCur s.cur.emptied) 8 info).cur.queueState = _
  rw [takeTrap_queueState, State.cur_setCur]
  rfl

theorem stopState_flags_enters {s : State} (h : s.cur.inTrap = false) (info : Word) :
    let r := (stopState s (.flags info)).cur
    r.kcause = 8 ∧ r.kinfo = info ∧ r.kepc = s.focus.pc ∧ r.pc = s.cur.ktvec := by
  have hout : (s.setCur s.cur.emptied).cur.inTrap = false := by
    rw [State.cur_setCur]
    exact h
  have hcur : (stopState s (.flags info)).cur = (takeTrap (s.setCur s.cur.emptied) 8 info).cur := rfl
  rw [takeTrap_outside hout, State.cur_setCur, State.cur_setCur] at hcur
  dsimp only
  rw [hcur]
  exact ⟨rfl, rfl, rfl, rfl⟩

/-! ### VTBL (R312) -/

section
variable {i : Instr} {s : State} {m : Host.Outcome State Fault Refusal} {r : Run State} (he : exec i s = m)
  (hm : m = finishRun s r)
include he hm

/-- A word that accesses global memory, and is legal everywhere, completes when its run ends well. -/
theorem Completes.of_finishRun {t : State} (h : r.ans = .ok t) : Completes i s t := by
  rw [Completes, he, hm, finishRun, h, finish_ok]

theorem StopsAfter.of_finishRun {st : Stop} (h : r.ans = .error st) (hf : ∀ f, st ≠ .fault f) : StopsAfter i s st :=
  ⟨r.left, by rw [he, hm, finishRun, h, finish_stop _ st hf]⟩
end

section
variable {s t : State} {b : List Byte} (hidle : s.core.ctxs.any (fun p => p.2.dt8Busy) = false)
  (halign : s.cur.xdt.toNat % 4 = 0) (hload : (loadSpan s.cur.xdt.toNat 1024 s).ans = .ok (b, t))

/-- The decode table that VTBL reads. -/
def tableOf (b : List Byte) : List (BitVec 32) := (upTo 256).map (fun i => BitVec.ofNat 32 (leAt b (4 * i) 4))

include hidle halign hload

theorem vtbl_completes (h : dt8Ok (tableOf b) = true) :
    Completes .vtbl s (t.setCoreCur { t.core with dt8 := tableOf b, dt8Tag := t.cur.xdt }) := by
  refine Completes.of_finishRun (he := (rfl : exec .vtbl s = execVtbl s)) (hm := rfl) ?_
  rw [hidle, if_neg Bool.false_ne_true, if_neg (not_not.mpr halign)]
  refine Run.step hload ?_
  exact congrArg Run.ans (if_pos h)

theorem vtbl_malformed (h : dt8Ok (tableOf b) = false) : TrapsAfter .vtbl s 7 s.cur.xdt := by
  refine StopsAfter.of_finishRun (he := (rfl : exec .vtbl s = execVtbl s)) (hm := rfl) ?_ fun _ => nofun
  rw [hidle, if_neg Bool.false_ne_true, if_neg (not_not.mpr halign)]
  refine Run.step hload ((congrArg Run.ans (if_neg (ne_true_of_eq_false h))).trans ?_)
  rw [Run.ans_lift, fmtTrap, trapS, wd, BitVec.ofNat_toNat, BitVec.setWidth_eq]
end

/-! ### The sequencer (R288, R289) -/

/-- A hardware step on a part that exists is its effect. -/
theorem Completes.of_hwStep {i : Instr} {s t : State} {ok : Bool} {f : State → State}
    (m : State → Host.Outcome State Fault Refusal) (he : exec i s = m s) (hm : m s = hwStep ok s f) (hok : ok = true)
    (hf : f s = t) : Completes i s t := by
  rw [Completes, he, hm, hok, hwStep_true, hf]

/-- Entry `i` of a context takes a state. -/
theorem setEntry_st (c : Ctx) (i : Nat) (st : VState) :
    ((c.setEntry i st).vq[i]?).map (·.st) = (c.vq[i]?).map (fun _ => st) := by
  rw [Ctx.setEntry, List.getElem?_map, List.getElem?_zipIdx]
  cases c.vq[i]? <;> simp

/-- The next entry stands where it is said to stand. -/
theorem nextEntry_getElem {c : Ctx} {i : Nat} {e : VEntry} (h : nextEntry c = some (i, e)) : c.vq[i]? = some e := by
  unfold nextEntry at h
  split at h
  · cases h
  · split at h
    · split at h
      next hget =>
        split at h
        · cases h
          exact hget
        · cases h
      · cases h
    · cases h

section
variable {core : Nat} {s : State} (hc : core < 1024)

/-- The state after an entry of a context of a core begins. -/
def State.entryBegun (s : State) (core x i : Nat) : State :=
  let k := s.coreAt core
  s.setCore core { k.setCtx x ((k.ctxAt x).setEntry i .executing) with vexec := some x }

theorem entryBegun_vexec (s : State) (core x i : Nat) : ((s.entryBegun core x i).coreAt core).vexec = some x := by
  rw [State.entryBegun, State.coreAt_setCore_same]

theorem entryBegun_ctxAt (s : State) (core x i : Nat) :
    (s.entryBegun core x i).ctxAt core x = (s.ctxAt core x).setEntry i .executing := by
  rw [State.entryBegun, State.ctxAt, State.coreAt_setCore_same]
  exact Core.ctxAt_setCtx_same ..

theorem beginFrom_free {x i : Nat} {e : VEntry} {r : List Nat} (hn : nextEntry (s.ctxAt core x) = some (i, e))
    (hh : entryHold s core e = .free) : beginFrom core (x :: r) s = s.entryBegun core x i := by
  rw [beginFrom, hn]
  dsimp only
  rw [hh]
  rfl

include hc

theorem vectorEntryBegin_busy {x : Nat} (hx : (s.coreAt core).vexec = some x) : Completes (.vectorEntryBegin core) s s := by
  refine Completes.of_hwStep (execVectorEntryBegin core) rfl rfl (decide_eq_true hc) ?_
  dsimp only
  rw [hx, Option.isSome_some, if_pos rfl]

theorem vectorEntryBegin_free {x i : Nat} {e : VEntry} (hfree : (s.coreAt core).vexec = none)
    (hx : x < (s.coreAt core).nctx) (hturn : ((s.coreAt core).vlast + 1) % (s.coreAt core).nctx = x)
    (hn : nextEntry (s.ctxAt core x) = some (i, e)) (hh : entryHold s core e = .free) :
    Completes (.vectorEntryBegin core) s (s.entryBegun core x i) := by
  obtain ⟨n, hnctx⟩ := Nat.exists_eq_succ_of_ne_zero (Nat.ne_zero_of_lt hx)
  have horder : ∃ r, (upTo (s.coreAt core).nctx).map
      (fun j => ((s.coreAt core).vlast + 1 + j) % (s.coreAt core).nctx) = x :: r := by
    rw [hnctx, upTo, List.range_succ_eq_map, List.map_cons, Nat.add_zero, ← hnctx, hturn]
    exact ⟨_, rfl⟩
  obtain ⟨r, hr⟩ := horder
  refine Completes.of_hwStep (execVectorEntryBegin core) rfl rfl (decide_eq_true hc) ?_
  dsimp only
  rw [hfree, Option.isSome_none, if_neg Bool.false_ne_true, hr, beginFrom_free hn hh]

theorem vectorEntryComplete_completes : Completes (.vectorEntryComplete core) s (completeEntry core s) :=
  Completes.of_hwStep (execVectorEntryComplete core) rfl rfl (decide_eq_true hc) rfl
end

theorem completeEntry_free {core : Nat} {s : State} (h : (s.coreAt core).vexec = none) : completeEntry core s = s := by
  rw [completeEntry, h]

theorem rearm_none {core x : Nat} {s : State} (h : (s.ctxAt core x).vleft = 0) : rearm core x s = s :=
  if_pos (.inl h)

/-- What a context keeps of an entry's end when a VCMP writes its mask register. -/
def EntryEndKept (i : Nat) (c d : Ctx) : Prop :=
  (c.vq[i]?.isSome → d.vq[i]? = c.vq[i]?) ∧ d.vleft = c.vleft ∧ d.kfpe = c.kfpe ∧ d.vflags = c.vflags

theorem EntryEndKept.refl (i : Nat) (c : Ctx) : EntryEndKept i c c := ⟨fun _ => rfl, rfl, rfl, rfl⟩

theorem writeMask_keeps (i m : Nat) (v : BitVec 512) (c : Ctx) : EntryEndKept i c (writeMask i m v c) := by
  refine ⟨fun h => ?_, rfl, rfl, rfl⟩
  have hi : i < c.vq.length := by simpa using h
  rw [writeMask, List.getElem?_append_left (by simp; omega), List.getElem?_take_of_lt (Nat.lt_succ_self i)]

/-- A context with the flags of an entry that ends; `old` is what its entries have replaced. -/
def Ctx.flagged (c : Ctx) (fl : Fl) (old : List OldEl) : Ctx :=
  { c with kfpe := orFlags c.kfpe fl, vflags := c.vflags ||| fl, vold := old }

/-- The state after an entry of context `x` of a core ends, which leaves the context as `c`. -/
def State.entryEnded (t : State) (core x : Nat) (c : Ctx) : State :=
  t.setCore core { (t.coreAt core).setCtx x c with vexec := none, vlast := x }

theorem entryEnded_core (t : State) (core x : Nat) (c : Ctx) :
    ((t.entryEnded core x c).coreAt core).vexec = none ∧ ((t.entryEnded core x c).coreAt core).vlast = x := by
  rw [State.entryEnded, State.coreAt_setCore_same]
  exact ⟨rfl, rfl⟩

theorem entryEnded_ctxAt (t : State) (core x : Nat) (c : Ctx) : (t.entryEnded core x c).ctxAt core x = c := by
  rw [State.entryEnded, State.ctxAt, State.coreAt_setCore_same]
  exact Core.ctxAt_setCtx_same ..

/-- An entry that has run is marked done, a VCMP writes its mask register, the flags are taken, and its loop goes on. -/
theorem completeEntry_ran {core x i : Nat} {s t : State} {e : VEntry} {p : VAcc} (hx : (s.coreAt core).vexec = some x)
    (hi : findIdx? (fun e => e.st == .executing) (s.ctxAt core x).vq = some i) (he : (s.ctxAt core x).vq[i]? = some e)
    (hrun : runEntry core e s = .ok (p, t)) : ∃ (d : Ctx) (old : List OldEl),
    completeEntry core s = rearm core x (t.entryEnded core x (d.flagged p.fl old)) ∧
      EntryEndKept i ((t.ctxAt core x).setEntry i .done) d := by
  apply Exists.intro
  apply Exists.intro
  constructor
  · rw [completeEntry, hx]
    dsimp only
    rw [hi]
    dsimp only
    rw [he]
    dsimp only
    rw [hrun]
    rfl
  · split
    · split
      · exact writeMask_keeps ..
      · exact .refl ..
    · exact .refl ..

/-- Outside a loop the end of an entry leaves the core's sequencer free and the entry done, and its flags in kfpe and for
VSYNC. -/
theorem vectorEntryComplete_ends {core x i : Nat} {s t : State} {e : VEntry} {p : VAcc} (hc : core < 1024)
    (hx : (s.coreAt core).vexec = some x)
    (hi : findIdx? (fun e => e.st == .executing) (s.ctxAt core x).vq = some i) (he : (s.ctxAt core x).vq[i]? = some e)
    (hrun : runEntry core e s = .ok (p, t)) (hleft : (t.ctxAt core x).vleft = 0)
    (hsome : (t.ctxAt core x).vq[i]?.isSome) : ∃ u, Completes (.vectorEntryComplete core) s u ∧
      (u.coreAt core).vexec = none ∧ (u.coreAt core).vlast = x ∧ ((u.ctxAt core x).vq[i]?).map (·.st) = some .done ∧
      (u.ctxAt core x).kfpe = (t.ctxAt core x).kfpe ||| p.fl.setWidth 64 ∧
      (u.ctxAt core x).vflags = (t.ctxAt core x).vflags ||| p.fl := by
  obtain ⟨d, old, hdone, hvq, hvleft, hkfpe, hvflags⟩ := completeEntry_ran hx hi he hrun
  obtain ⟨f, hf⟩ := Option.isSome_iff_exists.mp hsome
  have hst : (((t.ctxAt core x).setEntry i .done).vq[i]?).map (·.st) = some .done := by
    rw [setEntry_st, hf, Option.map_some]
  have hstill := hvq (by rw [← Option.isSome_map, hst, Option.isSome_some])
  have hidle : ((t.entryEnded core x (d.flagged p.fl old)).ctxAt core x).vleft = 0 := by
    rw [entryEnded_ctxAt]
    exact hvleft.trans hleft
  rw [rearm_none hidle] at hdone
  refine ⟨completeEntry core s, vectorEntryComplete_completes hc, ?_⟩
  rw [hdone, entryEnded_ctxAt]
  refine ⟨(entryEnded_core ..).1, (entryEnded_core ..).2, ?_, congrArg (orFlags · p.fl) hkfpe, congrArg (· ||| p.fl) hvflags⟩
  exact (congrArg (Option.map (·.st)) hstill).trans hst

/-- Settles O48: each word by its checks in their order, the sequencer's steps by whether an entry executes. -/
theorem vectorControl : Obligations.VectorControl := by
  refine ⟨fun h k a s t u x => ⟨fun hr hl => ⟨vshape_completes hr hl, vshape_misaligned hr hl, vshape_global hr hl⟩,
    fun hr hl => ⟨vloop_illegal hr hl, vloop_none hr hl, fun hidle hn hc => ⟨_, vloop_arms hr hl hidle hn hc, ?_⟩⟩,
    vsync_waits, vsync_flags, fun info => ?_, fun hidle hf => ⟨_, vsync_completes hidle hf, ?_⟩,
    fun b hidle halign hload => ⟨vtbl_completes hidle halign hload, vtbl_malformed hidle halign hload⟩⟩,
    fun core s hc => ⟨fun x hx => vectorEntryBegin_busy hc hx, fun hfree => ?_, fun x i e hfree hx hturn hn hh =>
      ⟨_, vectorEntryBegin_free hc hfree hx hturn hn hh, entryBegun_vexec .., ?_⟩,
      fun x i e p t hx hi he hrun hleft hsome => vectorEntryComplete_ends hc hx hi he hrun hleft hsome⟩⟩
  · rw [State.cur_setCur]
    exact ⟨rfl, rfl, rfl, rfl, rfl⟩
  · have hqueue := stopState_flags_queueState s info
    simp only [Ctx.queueState, Prod.mk.injEq] at hqueue
    obtain ⟨hvq, hvflags, hvleft⟩ := hqueue
    exact ⟨hvq, hvflags, hvleft, fun hout => stopState_flags_enters hout info⟩
  · rw [State.cur_setCur]
    exact ⟨rfl, rfl, rfl, rfl, rfl⟩
  · have hsame := vectorEntryComplete_completes (s := s) hc
    rwa [completeEntry_free hfree] at hsame
  · rw [entryBegun_ctxAt, setEntry_st, nextEntry_getElem hn, Option.map_some]

end Sys2Proof.Machine
end

section
/-! PROOF. Squares of the matrix engine, and what its words append (14 R319 to R325) -/

namespace Sys2Proof.Machine
open Sys2Proof.Safety

/-! ### Slots and cores of a square (14 R319, R322) -/

@[simp] theorem slot_setSlot_same (k : Square) (n : Nat) (v : MSlot) : (k.setSlot n v).slot n = v := sget_sset_same ..

theorem slot_setSlot_other (k : Square) (v : MSlot) {n m : Nat} (h : m ≠ n) : (k.setSlot n v).slot m = k.slot m :=
  sget_sset_other _ _ _ h

@[simp] theorem mcore_setMcore_same (k : Square) (c : Nat) (v : MCore) : (k.setMcore c v).mcore c = v := sget_sset_same ..

/-- The square with some of its slots changed, each as its item of a list says. -/
def Square.editSlots {α : Type} (key : α → Nat) (f : α → MSlot → MSlot) (l : List α) (k : Square) : Square :=
  l.foldl (fun k a => k.setSlot (key a) (f a (k.slot (key a)))) k

section
variable {α : Type} {key : α → Nat} {f : α → MSlot → MSlot}

/-- Nothing but slots changes. -/
theorem editSlots_eq (l : List α) (k : Square) :
    k.editSlots key f l = { k with slots := (k.editSlots key f l).slots } := by
  induction l generalizing k with
  | nil => rfl
  | cons a l ih => exact ih (k.setSlot (key a) (f a (k.slot (key a))))

theorem slot_editSlots_other {l : List α} {n : Nat} (h : ∀ a ∈ l, n ≠ key a) (k : Square) :
    (k.editSlots key f l).slot n = k.slot n := by
  induction l generalizing k with
  | nil => rfl
  | cons a l ih =>
    rw [List.forall_mem_cons] at h
    exact (ih h.2 _).trans (slot_setSlot_other _ _ h.1)

theorem slot_editSlots_key {l : List α} (hl : (l.map key).Nodup) {a : α} (ha : a ∈ l) (k : Square) :
    (k.editSlots key f l).slot (key a) = f a (k.slot (key a)) := by
  induction l generalizing k with
  | nil => cases ha
  | cons b l ih =>
    rw [List.map_cons, List.nodup_cons] at hl
    obtain ⟨hb, hl⟩ := hl
    have hne : ∀ c ∈ l, key b ≠ key c := fun c hc e => hb (e ▸ List.mem_map_of_mem hc)
    obtain rfl | ha := List.mem_cons.mp ha
    · exact (slot_editSlots_other hne _).trans (slot_setSlot_same ..)
    · exact (ih hl ha _).trans (by rw [slot_setSlot_other _ _ (hne a ha).symm])
end

/-! ### Masks of slots (14 R324) -/

theorem mem_maskSlots {x : Word} {n : Nat} : n ∈ maskSlots x ↔ n < 64 ∧ x.getLsbD n = true := by
  rw [maskSlots, List.mem_filter, upTo, List.mem_range, bitW_eq_getLsbD]

theorem maskSlots_nodup (x : Word) : ((maskSlots x).map id).Nodup := by
  rw [List.map_id]
  exact List.nodup_range.filter _

section
variable {f : Nat → MSlot → MSlot} {x : Word} {n : Nat}

theorem slot_editSlots_mask (h : n < 64) (hx : x.getLsbD n = true) (k : Square) :
    (k.editSlots id f (maskSlots x)).slot n = f n (k.slot n) :=
  slot_editSlots_key (maskSlots_nodup x) (mem_maskSlots.mpr ⟨h, hx⟩) k

theorem slot_editSlots_unmasked (hx : x.getLsbD n = false) (k : Square) :
    (k.editSlots id f (maskSlots x)).slot n = k.slot n := by
  refine slot_editSlots_other (fun a ha e => ?_) k
  have hm := (mem_maskSlots.mp ha).2
  rw [← show n = a from e, hx] at hm
  exact Bool.false_ne_true hm
end

/-- The core of the square that holds a slot or the accumulator. -/
theorem any_lane_iff {c : Option (Nat × Nat)} {lane : Nat} :
    c.any (fun h => h.1 == lane) = true ↔ ∃ dom, c = some (lane, dom) := by
  cases c with
  | none => simp
  | some h =>
    obtain ⟨l, dom⟩ := h
    simp

/-- A list of slots has one that passes exactly where a number below 64 of the mask does. -/
theorem any_maskSlots {x : Word} {p : Nat → Bool} :
    (maskSlots x).any p = true ↔ ∃ n, n < 64 ∧ x.getLsbD n = true ∧ p n = true := by
  simp only [List.any_eq_true, mem_maskSlots, and_assoc]

/-! ### Appending (14 R328, R336) -/

/-- The square after a command of core `lane` is appended: its slots' declared states and its core's positions. -/
def Square.appended (k : Square) (lane : Nat) (dst : List (Nat × Option Decl)) (m : MCore) (c : MCmd) : Square :=
  let k := (k.editSlots (·.1) (fun p v => { v with decl := p.2 }) dst).setMcore lane m
  { k with mq := k.mq ++ [c] }

section
variable (k : Square) (lane : Nat) (dst : List (Nat × Option Decl)) (m : MCore) (c : MCmd)

theorem appended_mq : (k.appended lane dst m c).mq = k.mq ++ [c] := by
  rw [Square.appended, editSlots_eq]
  rfl

theorem appended_mcore : (k.appended lane dst m c).mcore lane = m := mcore_setMcore_same ..

variable {dst}

theorem appended_slot_other {n : Nat} (h : ∀ p ∈ dst, n ≠ p.1) : (k.appended lane dst m c).slot n = k.slot n :=
  slot_editSlots_other h k

theorem appended_slot {p : Nat × Option Decl} (hd : (dst.map (·.1)).Nodup) (hp : p ∈ dst) :
    (k.appended lane dst m c).slot p.1 = { k.slot p.1 with decl := p.2 } :=
  slot_editSlots_key hd hp k

theorem appended_slot_one (n : Nat) (d : Option Decl) :
    (k.appended lane [(n, d)] m c).slot n = { k.slot n with decl := d } :=
  appended_slot k lane m c (p := (n, d)) (List.nodup_singleton n) List.mem_cons_self

theorem appended_slot_other_one {n j : Nat} (d : Option Decl) (h : j ≠ n) :
    (k.appended lane [(n, d)] m c).slot j = k.slot j :=
  appended_slot_other k lane m c fun p hp => by rwa [List.mem_singleton.mp hp]
end

/-- A matrix command is appended where its queue takes it; nothing but the square and the ownership of lines changes then. -/
theorem appendMatrix_ok {q : Option Region} {s w : State} {h : CmdHdr} (ha : appendCmd 1 q s = .ok (h, w))
    (dst : List (Nat × Option Decl)) (l : List LogEnt) (m : MCore) (owns : List Nat) (c : CmdHdr → MCmd) :
    ∃ v, appendMatrix q dst l m owns c s = .ok v ∧ v.sqAt w.sq = (w.sqAt w.sq).appended w.lane dst m (c h) ∧
      v.mem = w.mem :=
  ⟨_, bind_ok.mpr ⟨_, ha, rfl⟩, State.sqAt_setSq_same .., rfl⟩

/-! ### MCLAIM (R324) -/

/-- A slot when a core has claimed it: one that was free is undeclared. -/
def MSlot.claimedBy (m : MSlot) (c : Nat × Nat) : MSlot :=
  if m.claim.isNone then { m with claim := some c, decl := none } else { m with claim := some c }

theorem claimedBy_claim (m : MSlot) (c : Nat × Nat) : (m.claimedBy c).claim = some c := by
  unfold MSlot.claimedBy
  split <;> rfl

theorem claimedBy_decl {m : MSlot} (h : m.claim = none) (c : Nat × Nat) : (m.claimedBy c).decl = none := by
  rw [MSlot.claimedBy, h]
  rfl

/-- The square when a core has claimed the slots of a mask, and the accumulator if it asks. -/
def Square.claimed (k : Square) (x : Word) (acc : Bool) (c : Nat × Nat) : Square :=
  { k with slots := (k.editSlots id (fun _ m => m.claimedBy c) (maskSlots x)).slots, acc := if acc then some c else k.acc }

section
variable {k : Square} {x : Word} {acc : Bool} {c : Nat × Nat} {n : Nat}

/-- The slots are claimed one after the other, and then the accumulator. -/
theorem claimed_eq_ite : k.claimed x acc c =
    let k := k.editSlots id (fun _ m => m.claimedBy c) (maskSlots x)
    if acc then { k with acc := some c } else k := by
  rw [editSlots_eq]
  cases acc <;> rfl

theorem claimed_slot_mask (h : n < 64) (hx : x.getLsbD n = true) :
    (k.claimed x acc c).slot n = (k.slot n).claimedBy c :=
  slot_editSlots_mask h hx k

theorem claimed_slot_unmasked (hx : x.getLsbD n = false) : (k.claimed x acc c).slot n = k.slot n :=
  slot_editSlots_unmasked hx k
end

/-- Another core holds a slot of the mask, or the accumulator that is asked for. -/
def Square.clashes (k : Square) (lane : Nat) (x y : Word) : Prop :=
  (∃ n, n < 64 ∧ x.getLsbD n = true ∧ ∃ h, (k.slot n).claim = some h ∧ h.1 ≠ lane) ∨
    (y.getLsbD 0 = true ∧ ∃ h, k.acc = some h ∧ h.1 ≠ lane)

theorem clashes_iff {k : Square} {lane : Nat} {x y : Word} :
    ((maskSlots x).any (fun n => (k.slot n).claim.any (fun h => h.1 != lane)) ||
      (bitW y 0 && k.acc.any (fun h => h.1 != lane))) = true ↔ k.clashes lane x y := by
  rw [Bool.or_eq_true, any_maskSlots, Bool.and_eq_true, bitW_eq_getLsbD]
  simp only [Option.any_eq_true, bne_iff_ne]
  rfl

section
variable {d a b : BitVec 6} {s t u : State} {x y : Word} (hr : readTwo a b s = .ok (x, y, t))
  (hl : legal s (.mclaim d a b) = true)
include hr hl

theorem mclaim_clashes (h : (t.sqAt t.sq).clashes t.lane x y) (hw : writeReg d.toNat 1 t = .ok u) :
    Completes (.mclaim d a b) s u :=
  Completes.of_guarded hl (execMclaim d a b) rfl rfl <| bind_ok.mpr ⟨_, hr, (if_pos (clashes_iff.mpr h)).trans hw⟩

theorem mclaim_claims (h : ¬(t.sqAt t.sq).clashes t.lane x y)
    (hw : writeReg d.toNat 0 (t.setSq t.sq ((t.sqAt t.sq).claimed x (y.getLsbD 0) (t.lane, t.kdom))) = .ok u) :
    Completes (.mclaim d a b) s u := by
  rw [← bitW_eq_getLsbD, claimed_eq_ite] at hw
  exact Completes.of_guarded hl (execMclaim d a b) rfl rfl <|
    bind_ok.mpr ⟨_, hr, (if_neg (mt clashes_iff.mp h)).trans hw⟩
end

/-! ### MREL (R325) -/

/-- A core holds the slots of the mask, and the accumulator if it is asked for. -/
def Square.held (k : Square) (lane : Nat) (x y : Word) : Prop :=
  (∀ n, n < 64 → x.getLsbD n = true → ∃ dom, (k.slot n).claim = some (lane, dom)) ∧
    (y.getLsbD 0 = true → ∃ dom, k.acc = some (lane, dom))

/-- A command of a core in the matrix or context engine's queue names a slot of the mask, or the accumulator that is asked
for. -/
def Square.inUse (k : Square) (core : Nat) (x y : Word) : Prop :=
  (∃ c ∈ k.mq, c.hdr.core = core ∧
    ((∃ n ∈ c.reads ++ c.writes, n < 64 ∧ x.getLsbD n = true) ∨ (y.getLsbD 0 = true ∧ c.acc = true))) ∨
    ∃ c ∈ k.kq, c.hdr.core = core ∧ ∃ n, c.slot = some n ∧ n < 64 ∧ x.getLsbD n = true

theorem contains_maskSlots {x : Word} {n : Nat} : (maskSlots x).contains n = true ↔ n < 64 ∧ x.getLsbD n = true := by
  rw [List.contains_iff_mem, mem_maskSlots]

theorem held_iff {t : State} {x y : Word} :
    (!(maskSlots x).all t.holdsSlot || (bitW y 0 && !t.holdsAcc)) = false ↔ (t.sqAt t.sq).held t.lane x y := by
  simp only [Bool.or_eq_false_iff, Bool.not_eq_false', Bool.and_eq_false_imp, List.all_eq_true, mem_maskSlots,
    bitW_eq_getLsbD, State.holdsSlot, State.holdsAcc, any_lane_iff, and_imp]
  rfl

theorem inUse_iff {k : Square} {core : Nat} {x y : Word} :
    (k.mq.any (fun c => c.hdr.core == core && c.names (maskSlots x) (bitW y 0)) ||
      k.kq.any (fun c => c.hdr.core == core && c.slot.any (maskSlots x).contains)) = true ↔ k.inUse core x y := by
  simp only [Bool.or_eq_true, List.any_eq_true, Bool.and_eq_true, beq_iff_eq, MCmd.names, Option.any_eq_true,
    contains_maskSlots, bitW_eq_getLsbD]
  rfl

/-- The square when a core has released the slots of a mask, and the accumulator if it asks. -/
def Square.released (k : Square) (lane : Nat) (x : Word) (acc : Bool) : Square :=
  let m := k.mcore lane
  let k := (k.editSlots id (fun _ _ => MSlot.reset) (maskSlots x)).setMcore lane
    { m with producer := m.producer.filter (fun p => !(maskSlots x).contains p.1) }
  if acc then { k with acc := none } else k

section
variable {k : Square} {lane : Nat} {x : Word} {acc : Bool} {n : Nat}

theorem released_slot :
    (k.released lane x acc).slot n = (k.editSlots id (fun _ _ => MSlot.reset) (maskSlots x)).slot n := by
  unfold Square.released
  cases acc <;> rfl

theorem released_slot_mask (h : n < 64) (hx : x.getLsbD n = true) : (k.released lane x acc).slot n = MSlot.reset :=
  released_slot.trans (slot_editSlots_mask h hx k)

theorem released_slot_unmasked (hx : x.getLsbD n = false) : (k.released lane x acc).slot n = k.slot n :=
  released_slot.trans (slot_editSlots_unmasked hx k)

theorem released_acc : (k.released lane x acc).acc = if acc then none else k.acc := by
  unfold Square.released
  rw [editSlots_eq]
  cases acc <;> rfl
end

section
variable {a b : BitVec 6} {s t : State} {x y : Word} (hr : readTwo a b s = .ok (x, y, t))
  (hl : legal s (.mrel a b) = true)
include hr hl

theorem mrel_ill (h : ¬(t.sqAt t.sq).held t.lane x y ∨ ((t.sqAt t.sq).mcore t.lane).recording = true) :
    Traps (.mrel a b) s 1 (illInfo s) := by
  have hill : illInfo t = illInfo s := by rw [illInfo, illInfo, readTwo_focus hr]
  rw [← hill]
  refine StopsWith.of_guarded hl (execMrel a b) rfl rfl ?_ fun _ => nofun
  rw [bind_of_ok hr]
  refine if_pos ?_
  rw [Bool.or_eq_true, ← Bool.not_eq_false, held_iff]
  exact h

section
variable (hm : (t.sqAt t.sq).held t.lane x y) (hrec : ((t.sqAt t.sq).mcore t.lane).recording = false)
include hm hrec

theorem mrel_waits (h : (t.sqAt t.sq).inUse t.focus.core x y) : StopsWith (.mrel a b) s (.wait .hub) := by
  refine StopsWith.of_guarded hl (execMrel a b) rfl rfl ?_ fun _ => nofun
  rw [bind_of_ok hr]
  refine (if_neg ?_).trans (if_pos (inUse_iff.mpr h))
  rw [held_iff.mpr hm, hrec]
  exact Bool.false_ne_true

theorem mrel_releases (h : ¬(t.sqAt t.sq).inUse t.focus.core x y) :
    Completes (.mrel a b) s (t.setSq t.sq ((t.sqAt t.sq).released t.lane x (y.getLsbD 0))) := by
  refine Completes.of_guarded hl (execMrel a b) rfl rfl ?_
  rw [bind_of_ok hr, ← bitW_eq_getLsbD]
  refine (if_neg ?_).trans (if_neg (mt inUse_iff.mp h))
  rw [held_iff.mpr hm, hrec]
  exact Bool.false_ne_true
end
end

end Sys2Proof.Machine
end

section
/-! PROOF. Record mode, the reversal and the engine's settings (14 R333, R334, R341, R342, R347) -/

namespace Sys2Proof.Machine
open Sys2Proof.Safety

/-! ### What checks of rights leave (20 R431) -/

/-- The footprint that a context's destinations are checked against. -/
def Ctx.destFoot (x : Ctx) : Option Footprint := if x.task = 0 then none else some x.wfoot

/-- The executing context is the same one, with the footprint that it had. -/
def KeepsDestFoot (s t : State) : Prop := KeepsCtxs Ctx.destFoot s t ∧ t.focus = s.focus

theorem KeepsDestFoot.destFoot {s t : State} (h : KeepsDestFoot s t) : t.destFoot = s.destFoot := by
  refine (h.1.ctxAt t.focus.core t.focus.ctx).trans ?_
  rw [h.2]
  rfl

theorem runEnds_held {α : Type} {P : State → Prop} {x : Except (Nat × Nat × Nat) α × State} (h : P x.2) :
    RunEnds (fun r => P r.2) (held x) := by
  intro r e
  exact held_state e ▸ h

section
variable {s t : State} (h : KeepsDestFoot s t)
include h

theorem KeepsDestFoot.setPlb (c : Nat) (l : List PlbEntry) : KeepsDestFoot s (t.setCore c { t.coreAt c with plb := l }) :=
  ⟨h.1.setCore .refl, h.2⟩

theorem KeepsDestFoot.hvLook (wr : Bool) (va : Nat) : KeepsDestFoot s (Machine.hvLook wr va t).2 :=
  ⟨h.1.hvLook, (accessBlind_focus.hvLook ..).trans h.2⟩

theorem KeepsDestFoot.hvTry {wr : Bool} {va pa : Nat} {u : State} (e : Machine.hvTry wr va t = .ok (pa, u)) :
    KeepsDestFoot s u :=
  ⟨h.1.hvTry.of_ok e, (accessBlind_focus.hvTry e).trans h.2⟩

theorem KeepsDestFoot.rightsEntry {dom seg v : Nat} {u : State} (e : t.rightsEntry dom seg = .entry v u) :
    KeepsDestFoot s u := by
  unfold State.rightsEntry at e
  split at e
  · cases e
    exact h
  · split at e
    · split at e
      · cases e
        exact h.hvTry ‹_›
      · cases e
    · cases e
      exact h

theorem KeepsDestFoot.plbLook (c dom seg : Nat) : KeepsDestFoot s (Machine.plbLook c dom seg t).2 := by
  unfold Machine.plbLook
  dsimp only
  split
  · exact h.setPlb ..
  · split
    · exact h.hvLook ..
    · next e => exact (h.rightsEntry e).setPlb ..

theorem KeepsDestFoot.byteGrant (need : Nat) (foot : Option Footprint) (report b : Nat) :
    RunEnds (KeepsDestFoot s) (Machine.byteGrant need foot report b t) :=
  .ite (.pure h) <| .ite .stop <|
    (runEnds_held (P := KeepsDestFoot s) (h.plbLook ..)).bind fun _ h => .ite .stop <| .pure h

theorem KeepsDestFoot.bytesGrant (need : Nat) (foot : Option Footprint) (l : List (Nat × Nat)) :
    RunEnds (KeepsDestFoot s) (Machine.bytesGrant need foot l t) :=
  .foldlM h fun _ _ h => h.byteGrant _ _ _ _
end

theorem spanGrant_destFoot {need a n : Nat} {foot : Option Footprint} {s t : State}
    (h : (spanGrant need foot a n s).ans = .ok t) : t.destFoot = s.destFoot := by
  have hs : KeepsDestFoot s s := ⟨.refl, rfl⟩
  unfold spanGrant at h
  split at h
  · exact (hs.bytesGrant _ _ _ _ h).destFoot
  · exact (hs.bytesGrant _ _ _ _ h).destFoot

/-! ### The record of MLOG (R341) -/

theorem memRead_drop (m : List Host.Cell) (a n o : Nat) : (memRead m a n).drop o = memRead m (a + o) (n - o) := by
  induction o generalizing a n with
  | zero => rfl
  | succ o ih =>
    cases n with
    | zero => simp [memRead]
    | succ n =>
      rw [memRead, List.drop_succ_cons, ih]
      congr 1 <;> omega

theorem memRead_take (m : List Host.Cell) (a : Nat) {n l : Nat} (h : l ≤ n) : (memRead m a n).take l = memRead m a l := by
  induction l generalizing a n with
  | zero => rfl
  | succ l ih =>
    obtain ⟨n, rfl⟩ : ∃ k, n = k + 1 := ⟨n - 1, by omega⟩
    rw [memRead, List.take_succ_cons, ih _ (by omega), memRead]

/-- A value within bytes that were read is the value that stands in memory. -/
theorem leAt_memRead (m : List Host.Cell) (a : Nat) {n o l : Nat} (h : o + l ≤ n) :
    leAt (memRead m a n) o l = memLe m (a + o) l := by
  rw [leAt, memRead_drop, memRead_take _ _ (by omega), memLe]

theorem ofBytes_lt (l : List Byte) : ofBytes l < 256 ^ l.length := by
  induction l with
  | nil => exact Nat.one_pos
  | cons b l ih =>
    rw [ofBytes, List.length_cons, Nat.pow_succ]
    have := b.isLt
    omega

theorem memLe_lt (m : List Host.Cell) (a n : Nat) : memLe m a n < 256 ^ n := by
  have h := ofBytes_lt (memRead m a n)
  rwa [memRead_length] at h

/-- The six values of MLOG's record. -/
def State.logRecord (t : State) (x : Word) : List Nat :=
  (List.range 6).map (fun i => memLe t.core.mem (x.toNat % 2 ^ 19 + 8 * i) 8)

theorem logRecord_read (t : State) (x : Word) :
    (upTo 6).map (fun i => leAt (memRead t.core.mem (localOff x.toNat) 48) (8 * i) 8) = t.logRecord x := by
  refine List.map_congr_left fun i hi => leAt_memRead _ _ ?_
  have : i < 6 := List.mem_range.mp hi
  omega

theorem logRecord_lt (t : State) (x : Word) (i : Nat) : (t.logRecord x).getD i 0 < 2 ^ 64 := by
  have hall : ∀ y ∈ t.logRecord x, y < 2 ^ 64 := by
    intro y hy
    obtain ⟨j, _, rfl⟩ := List.mem_map.mp hy
    exact memLe_lt ..
  rw [List.getD_eq_getElem?_getD]
  cases h : (t.logRecord x)[i]? with
  | none => exact Nat.two_pow_pos 64
  | some y => exact hall y (List.mem_of_getElem? h)

theorem setArenas_fields (m : MCore) (v : List Nat) :
    (m.setArenas v).armed = true ∧ (m.setArenas v).logBase = wd (v.getD 0 0) ∧
      (m.setArenas v).logLimit = wd (v.getD 1 0) ∧ (m.setArenas v).saveBase = wd (v.getD 2 0) ∧
      (m.setArenas v).saveLimit = wd (v.getD 3 0) ∧ (m.setArenas v).gradBase = wd (v.getD 4 0) ∧
      (m.setArenas v).gradLimit = wd (v.getD 5 0) := by
  unfold MCore.setArenas
  dsimp only
  split
  · exact ⟨rfl, rfl, rfl, rfl, rfl, rfl, rfl⟩
  · exact ⟨rfl, rfl, rfl, rfl, rfl, rfl, rfl⟩

/-- The values of the record are whole lines of global memory, and no limit lies below its base. -/
theorem logRecord_accepted {v : List Nat} (hv : ∀ y ∈ v, isGlobal y = true ∧ y % 128 = 0) (h0 : v.getD 0 0 ≤ v.getD 1 0)
    (h2 : v.getD 2 0 ≤ v.getD 3 0) (h4 : v.getD 4 0 ≤ v.getD 5 0) :
    ¬(v.any (fun y => !isGlobal y || y % 128 != 0) ||
      [0, 2, 4].any (fun i => decide (v.getD (i + 1) 0 < v.getD i 0))) = true := by
  have hany : v.any (fun y => !isGlobal y || y % 128 != 0) = false := by
    rw [List.any_eq_false]
    intro y hy
    obtain ⟨hg, hm⟩ := hv y hy
    simp [hg, hm]
  simp only [hany, List.any_cons, List.any_nil, Nat.reduceAdd, decide_eq_false (Nat.not_lt.mpr h0),
    decide_eq_false (Nat.not_lt.mpr h2), decide_eq_false (Nat.not_lt.mpr h4)]
  exact Bool.false_ne_true

section
variable {a : BitVec 6} {s t : State} {x : Word} (hr : readReg a.toNat s = .ok (x, t))
include hr

theorem mlog_completes {u0 u1 u2 : State} (hl : legal s (.mlog a) = true) (hx : x.toNat % 8 = 0)
    (hc : localCheck false x.toNat 48 t = .ok ()) (hp : t.core.poisoned (localOff x.toNat) 48 = false)
    (hv : ∀ y ∈ t.logRecord x, isGlobal y = true ∧ y % 128 = 0)
    (h0 : (t.logRecord x).getD 0 0 ≤ (t.logRecord x).getD 1 0) (h2 : (t.logRecord x).getD 2 0 ≤ (t.logRecord x).getD 3 0)
    (h4 : (t.logRecord x).getD 4 0 ≤ (t.logRecord x).getD 5 0)
    (hu0 : (spanGrant needW t.destFoot ((t.logRecord x).getD 0 0)
      ((t.logRecord x).getD 1 0 - (t.logRecord x).getD 0 0) t).ans = .ok u0)
    (hu1 : (spanGrant needW t.destFoot ((t.logRecord x).getD 2 0)
      ((t.logRecord x).getD 3 0 - (t.logRecord x).getD 2 0) u0).ans = .ok u1)
    (hu2 : (spanGrant needW t.destFoot ((t.logRecord x).getD 4 0)
      ((t.logRecord x).getD 5 0 - (t.logRecord x).getD 4 0) u1).ans = .ok u2)
    (hq : (u2.sqAt u2.sq).reversing u2.lane = false) :
    Completes (.mlog a) s (u2.setSq u2.sq
      ((u2.sqAt u2.sq).setMcore u2.lane (((u2.sqAt u2.sq).mcore u2.lane).setArenas (t.logRecord x)))) := by
  have hf0 : u0.destFoot = t.destFoot := spanGrant_destFoot hu0
  have hf1 : u1.destFoot = t.destFoot := (spanGrant_destFoot hu1).trans hf0
  rw [← hf0] at hu1
  rw [← hf1] at hu2
  refine Completes.of_run hl (execMlog a) rfl rfl <| Run.stepLift hr ?_
  dsimp only
  rw [if_neg (not_not.mpr hx)]
  refine Run.stepLift (localRead_ok hc hp) ?_
  rw [logRecord_read, if_neg (logRecord_accepted hv h0 h2 h4)]
  refine Run.step (a := u2) (Run.step hu0 <| Run.step hu1 <| Run.step hu2 rfl) ?_
  rw [hq, if_neg Bool.false_ne_true, Run.ans_pure]

/-! ### MREC (R342) -/

theorem mrec_completes (hl : legal s (.mrec a) = true)
    (h : x.getLsbD 0 = true → ((t.sqAt t.sq).mcore t.lane).armed = true ∧
      ((t.sqAt t.sq).mcore t.lane).logBase.toNat < ((t.sqAt t.sq).mcore t.lane).logLimit.toNat ∧
      (t.sqAt t.sq).reversing t.lane = false) :
    Completes (.mrec a) s (t.setSq t.sq ((t.sqAt t.sq).setMcore t.lane
      { (t.sqAt t.sq).mcore t.lane with recording := x.getLsbD 0 })) := by
  refine Completes.of_guarded hl (execMrec a) rfl rfl ?_
  rw [bind_of_ok hr]
  dsimp only
  rw [bitW_eq_getLsbD]
  cases hx : x.getLsbD 0 with
  | false => rfl
  | true =>
    obtain ⟨harmed, hroom, hquiet⟩ := h hx
    rw [harmed, hquiet, decide_eq_false (Nat.not_le.mpr hroom)]
    rfl

/-! ### MSEQ and MQW (R333, R334) -/

theorem mseq_counts {d : BitVec 6} {u : State} (hl : legal s (.mseq d a) = true) (hx : x.getLsbD 8 = true)
    (hw : writeReg d.toNat (wd (((t.sqAt t.sq).mcore (x.toNat % 8)).nf.toNat * 2 ^ 32 +
      ((t.sqAt t.sq).mcore (x.toNat % 8)).fail.toNat)) t = .ok u) : Completes (.mseq d a) s u := by
  refine Completes.of_guarded hl (execMseq d a) rfl rfl ?_
  rw [bind_of_ok hr]
  dsimp only
  rw [bitW_eq_getLsbD, hx, if_pos rfl, bitsW_core]
  exact hw

theorem mqw_swaps {d : BitVec 6} {u : State} (hl : legal s (.mqw d a) = true)
    (hw : writeReg d.toNat (wd ((t.sqAt t.sq).mcore (x.toNat % 8)).weight)
      (t.setSq t.sq ((t.sqAt t.sq).setMcore (x.toNat % 8)
        { (t.sqAt t.sq).mcore (x.toNat % 8) with weight := x.toNat / 256 % 16 })) = .ok u) : Completes (.mqw d a) s u := by
  refine Completes.of_guarded hl (execMqw d a) rfl rfl ?_
  rw [bind_of_ok hr]
  dsimp only
  rw [bitsW_core]
  exact hw

end

/-! ### MREV (R347) -/

/-- The slots that MREV works in. -/
def revSlots (x : Word) : Nat × Nat := (x.toNat % 64, x.toNat / 256 % 64)

/-- Record mode is off, and the two slots, which differ, and the accumulator are the core's. -/
def State.mayReverse (t : State) (x : Word) : Prop :=
  ((t.sqAt t.sq).mcore t.lane).recording = false ∧ t.holdsSlot (revSlots x).1 = true ∧
    t.holdsSlot (revSlots x).2 = true ∧ t.holdsAcc = true ∧ (revSlots x).1 ≠ (revSlots x).2

theorem bitsW_slot (x : Word) : bitsW x 5 0 = x.toNat % 64 := bitsW_low x 5

theorem mayReverse_iff {t : State} {x : Word} :
    (((t.sqAt t.sq).mcore t.lane).recording || !t.holdsSlot (bitsW x 5 0) || !t.holdsSlot (bitsW x 13 8) || !t.holdsAcc ||
      bitsW x 5 0 == bitsW x 13 8) = false ↔ t.mayReverse x := by
  simp only [Bool.or_eq_false_iff, Bool.not_eq_false', beq_eq_false_iff_ne, and_assoc, bitsW_slot]
  rfl

/-- The command that MREV appends. -/
def State.revCmd (t : State) (x : Word) (h : CmdHdr) : MCmd :=
  { hdr := h, kind := .mrev, a := (revSlots x).1, b := (revSlots x).2, reads := [(revSlots x).1, (revSlots x).2]
    writes := [(revSlots x).1, (revSlots x).2], acc := true, src := .nothing, decl := none, scale := 0, pitch := 0
    dt8 := t.core.dt8, rdy := none, begun := false, log := [], entries := ((t.sqAt t.sq).mcore t.lane).nextIndex
    arena := ((t.sqAt t.sq).mcore t.lane).logBase }

/-- A core whose log is empty. -/
def MCore.emptied (m : MCore) : MCore :=
  { m with logPos := m.logBase, savePos := m.saveBase, gradPos := m.gradBase, producer := [] }

section
variable {a : BitVec 6} {s t : State} {x : Word} (hr : readReg a.toNat s = .ok (x, t)) (hl : legal s (.mrev a) = true)
include hr hl

theorem mrev_ill (h : ¬t.mayReverse x) : Traps (.mrev a) s 1 (illInfo s) := by
  have hill : illInfo t = illInfo s := by rw [illInfo, illInfo, readReg_focus hr]
  rw [← hill]
  refine StopsWith.of_guarded hl (execMrev a) rfl rfl ?_ fun _ => nofun
  rw [bind_of_ok hr]
  exact if_pos (by rwa [← Bool.not_eq_false, mayReverse_iff])

theorem mrev_reverses {w : State} {h : CmdHdr} (hm : t.mayReverse x)
    (harmed : ((t.sqAt t.sq).mcore t.lane).armed = true) (happ : appendCmd 1 none t = .ok (h, w)) :
    ∃ u, Completes (.mrev a) s u ∧ u.sqAt w.sq = (w.sqAt w.sq).appended w.lane
      [((revSlots x).1, none), ((revSlots x).2, none)] ((t.sqAt t.sq).mcore t.lane).emptied (t.revCmd x h) := by
  obtain ⟨u, hu, hsq, _⟩ := appendMatrix_ok happ [((revSlots x).1, none), ((revSlots x).2, none)] []
    ((t.sqAt t.sq).mcore t.lane).emptied ((t.sqAt t.sq).mcore t.lane).gradLines (t.revCmd x)
  refine ⟨u, Completes.of_guarded hl (execMrev a) rfl rfl ?_, hsq⟩
  rw [bind_of_ok hr]
  refine (if_neg (ne_true_of_eq_false (mayReverse_iff.mpr hm))).trans ((if_neg ?_).trans ?_)
  · rw [harmed]
    exact Bool.false_ne_true
  · rw [bitsW_slot]
    exact hu
end

end Sys2Proof.Machine
end

section
/-! PROOF. Claims, record mode and the log at issue (14 R324, R325, R333, R334, R341 to R347): O49 -/

namespace Sys2Proof.Machine
open Sys2Proof.Safety

/-! ### Entries of the log (14 R343, R344) -/

/-- The bytes of whole lines that `n` bytes take. -/
def wholeLines (n : Nat) : Nat := (n + 127) / 128 * 128

theorem roundLine_eq (n : Nat) : roundLine n = wholeLines n := Nat.mul_comm ..

/-- What an entry takes of the gradient arena. -/
def LogEnt.gradBytes (e : LogEnt) : Nat :=
  match e.slot, e.decl with
  | some _, some d => wholeLines (4 * d.rows * d.cols)
  | _, _ => 0

/-- What an entry takes of the arena of saved copies. -/
def LogEnt.saveBytes (e : LogEnt) : Nat :=
  (match e.sv, e.decl with
    | true, some d => wholeLines (d.rows * rowBytes d.ty d.cols + d.scaleCount)
    | _, _ => 0) + (if e.sc then 65536 else 0)

section
variable (m : MCore) (e : LogEnt)

theorem allocate_gradPos : (m.allocate e).2.gradPos = m.gradPos + wd e.gradBytes := by
  unfold MCore.allocate LogEnt.gradBytes
  cases e.slot with
  | none => rfl
  | some n =>
    cases e.decl with
    | none => rfl
    | some d => exact congrArg (fun n => m.gradPos + wd n) (roundLine_eq _)

theorem allocate_savePos : (m.allocate e).2.savePos = m.savePos + wd e.saveBytes := by
  unfold MCore.allocate LogEnt.saveBytes
  cases e.sv with
  | false => rfl
  | true =>
    cases e.decl with
    | none => rfl
    | some d => exact congrArg (fun n => m.savePos + wd (n + if e.sc then 65536 else 0)) (roundLine_eq _)

/-- An allocation makes the entry its slot's producer, and no other slot's. -/
theorem allocate_producerOf (n : Nat) :
    (m.allocate e).2.producerOf n = if e.slot = some n then some m.nextIndex else m.producerOf n := by
  unfold MCore.allocate MCore.producerOf
  cases e.slot with
  | none => rfl
  | some k =>
    dsimp only
    rw [sget_sset]
    simp only [Option.some.injEq, eq_comm]
end

/-- A core's positions go from those of `m` to those of `m'` as the entries of `l` are allocated one after the other. -/
structure Logged (m m' : MCore) (l : List LogEnt) : Prop where
  logPos : m'.logPos = m.logPos + wd (64 * l.length)
  savePos : m'.savePos = m.savePos + wd (l.map LogEnt.saveBytes).sum
  gradPos : m'.gradPos = m.gradPos + wd (l.map LogEnt.gradBytes).sum
  logBase : m'.logBase = m.logBase
  addr : ∀ i x, l[i]? = some x → x.addr = (m.logPos + wd (64 * i)).toNat

theorem wd_add (a b : Nat) : wd (a + b) = wd a + wd b := BitVec.ofNat_add ..

theorem Logged.nil (m : MCore) : Logged m m [] :=
  ⟨(BitVec.add_zero _).symm, (BitVec.add_zero _).symm, (BitVec.add_zero _).symm, rfl, nofun⟩

theorem Logged.one (m : MCore) (e : LogEnt) : Logged m (m.allocate e).2 [(m.allocate e).1] := by
  refine ⟨rfl, ?_, ?_, rfl, fun i x h => ?_⟩
  · rw [allocate_savePos, List.map_singleton, List.sum_singleton]
    rfl
  · rw [allocate_gradPos, List.map_singleton, List.sum_singleton]
    rfl
  · obtain ⟨rfl, rfl⟩ : i = 0 ∧ (m.allocate e).1 = x := by
      cases i with
      | zero => exact ⟨rfl, Option.some.inj h⟩
      | succ i => cases h
    exact congrArg BitVec.toNat (BitVec.add_zero _).symm

theorem Logged.append {m m' m'' : MCore} {l l' : List LogEnt} (h : Logged m m' l) (h' : Logged m' m'' l') :
    Logged m m'' (l ++ l') := by
  refine ⟨?_, ?_, ?_, h'.logBase.trans h.logBase, fun i x hx => ?_⟩
  · rw [h'.logPos, h.logPos, List.length_append, Nat.mul_add, wd_add, BitVec.add_assoc]
  · rw [h'.savePos, h.savePos, List.map_append, List.sum_append, wd_add, BitVec.add_assoc]
  · rw [h'.gradPos, h.gradPos, List.map_append, List.sum_append, wd_add, BitVec.add_assoc]
  · by_cases hi : i < l.length
    · exact h.addr i x (by rwa [List.getElem?_append_left hi] at hx)
    · rw [List.getElem?_append_right (Nat.le_of_not_lt hi)] at hx
      rw [h'.addr _ x hx, h.logPos, BitVec.add_assoc, ← wd_add, ← Nat.mul_add, Nat.add_sub_cancel' (Nat.le_of_not_lt hi)]

/-! ### Snapshots (14 R344) -/

/-- An entry that saves a source slot which no logged command has produced. -/
def IsSnapshot (k : Square) (m : MCore) (srcs : List Nat) (x : LogEnt) : Prop :=
  x.kind = 2 ∧ x.sv = true ∧ x.sc = false ∧
    ∃ n ∈ srcs, x.slot = some n ∧ m.producerOf n = none ∧ x.decl = (k.slot n).decl

section
variable {k : Square} {core n : Nat} {r : List Nat} {m : MCore}

theorem snapshots_produced (h : (m.producerOf n).isSome = true) : snapshots k core (n :: r) m = snapshots k core r m :=
  if_pos h

/-- The positions when a source slot's snapshot is allocated. -/
abbrev afterSnapshot (k : Square) (core n : Nat) (m : MCore) : LogEnt × MCore :=
  m.allocate (snapshotEnt core n (k.slot n).decl)

theorem snapshots_unproduced (h : m.producerOf n = none) : snapshots k core (n :: r) m =
    ((afterSnapshot k core n m).1 :: (snapshots k core r (afterSnapshot k core n m).2).1,
      (snapshots k core r (afterSnapshot k core n m).2).2) :=
  if_neg (by rw [h]; exact Bool.false_ne_true)

theorem afterSnapshot_producerOf (j : Nat) : (afterSnapshot k core n m).2.producerOf j =
    if n = j then some m.nextIndex else m.producerOf j := by
  rw [allocate_producerOf]
  simp [snapshotEnt]

theorem snapshots_logged (k : Square) (core : Nat) (l : List Nat) (m : MCore) :
    Logged m (snapshots k core l m).2 (snapshots k core l m).1 := by
  induction l generalizing m with
  | nil => exact .nil m
  | cons n r ih =>
    cases h : m.producerOf n with
    | some i =>
      rw [snapshots_produced (by rw [h]; rfl)]
      exact ih m
    | none =>
      rw [snapshots_unproduced h]
      exact (Logged.one m _).append (ih _)

/-- Every entry that is made for source slots is such a slot's snapshot. -/
theorem isSnapshot_of_mem {l : List Nat} {x : LogEnt} (hx : x ∈ (snapshots k core l m).1) : IsSnapshot k m l x := by
  induction l generalizing m with
  | nil => cases hx
  | cons n r ih =>
    cases h : m.producerOf n with
    | some i =>
      rw [snapshots_produced (by rw [h]; rfl)] at hx
      obtain ⟨hkind, hsv, hsc, j, hj, hslot⟩ := ih hx
      exact ⟨hkind, hsv, hsc, j, List.mem_cons_of_mem n hj, hslot⟩
    | none =>
      rw [snapshots_unproduced h] at hx
      obtain rfl | hx := List.mem_cons.mp hx
      · exact ⟨rfl, rfl, rfl, n, List.mem_cons_self, rfl, h, rfl⟩
      · obtain ⟨hkind, hsv, hsc, j, hj, hslot, hprod, hdecl⟩ := ih hx
        rw [afterSnapshot_producerOf] at hprod
        split at hprod
        · cases hprod
        · exact ⟨hkind, hsv, hsc, j, List.mem_cons_of_mem n hj, hslot, hprod, hdecl⟩

/-- Every source slot that no logged command has produced has its snapshot. -/
theorem exists_snapshot {l : List Nat} {j : Nat} (hj : j ∈ l) (hp : m.producerOf j = none) :
    ∃ x ∈ (snapshots k core l m).1, x.slot = some j := by
  induction l generalizing m with
  | nil => cases hj
  | cons n r ih =>
    cases h : m.producerOf n with
    | some i =>
      rw [snapshots_produced (by rw [h]; rfl)]
      obtain rfl | hj := List.mem_cons.mp hj
      · rw [h] at hp
        cases hp
      · exact ih hj hp
    | none =>
      rw [snapshots_unproduced h]
      by_cases hn : n = j
      · exact ⟨_, List.mem_cons_self, congrArg some hn⟩
      · obtain ⟨x, hx, hslot⟩ := ih (m := (afterSnapshot k core n m).2)
          ((List.mem_cons.mp hj).resolve_left (Ne.symm hn)) (by rw [afterSnapshot_producerOf, if_neg hn, hp])
        exact ⟨x, List.mem_cons_of_mem _ hx, hslot⟩

theorem snapshots_nil {l : List Nat} (h : ∀ n ∈ l, (m.producerOf n).isSome = true) : snapshots k core l m = ([], m) := by
  induction l with
  | nil => rfl
  | cons n r ih =>
    rw [List.forall_mem_cons] at h
    exact (snapshots_produced h.1).trans (ih h.2)
end

/-! ### The entries of a command (14 R343 to R345) -/

section
variable {srcA srcB : Option Nat} {e : LogEnt} {s : State} {m : MCore} (hm : (s.sqAt s.sq).mcore s.lane = m)
include hm

/-- Outside record mode nothing is logged, and the slot that is written has no producer. -/
theorem logEntries_off (h : m.recording = false) : ∃ m', logEntries srcA srcB e s = .ok ([], m') ∧
    m' = { m with producer := m'.producer } ∧ (∀ n, e.slot = some n → m'.producerOf n = none) ∧
    ∀ n, e.slot ≠ some n → m'.producerOf n = m.producerOf n := by
  subst hm
  have hoff : (!((s.sqAt s.sq).mcore s.lane).recording) = true := by rw [h, Bool.not_false]
  rw [logEntries, if_pos hoff]
  cases e.slot with
  | none => exact ⟨_, rfl, rfl, nofun, fun _ _ => rfl⟩
  | some k =>
    refine ⟨_, rfl, rfl, fun n hn => ?_, fun n hn => ?_⟩
    · cases hn
      exact sget_sset_same ..
    · exact sget_sset_other _ _ _ fun e => hn (congrArg some e.symm)

omit hm in
/-- The snapshots that a command's sources ask for, and the positions after them. -/
abbrev State.snaps (s : State) (srcA srcB : Option Nat) : List LogEnt × MCore :=
  snapshots (s.sqAt s.sq) s.lane (srcA.toList ++ srcB.toList) ((s.sqAt s.sq).mcore s.lane)

omit hm in
/-- A command's own entry with the word and the producers of its sources. -/
def State.ownEnt (s : State) (srcA srcB : Option Nat) (e : LogEnt) : LogEnt :=
  { e with word := s.focus.word.toNat % 2 ^ 31, core := s.lane, srcA := srcA.bind (s.snaps srcA srcB).2.producerOf
           srcB := srcB.bind (s.snaps srcA srcB).2.producerOf }

omit hm in
/-- The own entry as it is allocated behind the snapshots. -/
abbrev State.ownLog (s : State) (srcA srcB : Option Nat) (e : LogEnt) : LogEnt × MCore :=
  (s.snaps srcA srcB).2.allocate (s.ownEnt srcA srcB e)

/-- In record mode the entries are allocated, and LOGOVF is raised where they do not fit. -/
theorem logEntries_on (h : m.recording = true) : logEntries srcA srcB e s =
    if MCore.inArenas m (s.ownLog srcA srcB e).2 then
      .ok ((s.snaps srcA srcB).1 ++ [(s.ownLog srcA srcB e).1], (s.ownLog srcA srcB e).2)
    else trapS 5 (wd (s.ownLog srcA srcB e).1.addr) := by
  subst hm
  rw [logEntries, h]
  rfl

theorem logEntries_ok (h : m.recording = true) {l : List LogEnt} {m' : MCore}
    (hl : logEntries srcA srcB e s = .ok (l, m')) : l = (s.snaps srcA srcB).1 ++ [(s.ownLog srcA srcB e).1] ∧
      m' = (s.ownLog srcA srcB e).2 ∧ MCore.inArenas m m' = true := by
  rw [logEntries_on hm h] at hl
  split at hl
  · cases hl
    exact ⟨rfl, rfl, ‹_›⟩
  · cases hl

omit hm in
theorem ownLog_logged : Logged ((s.sqAt s.sq).mcore s.lane) (s.ownLog srcA srcB e).2
    ((s.snaps srcA srcB).1 ++ [(s.ownLog srcA srcB e).1]) :=
  (snapshots_logged ..).append (.one ..)

/-- The written slot's producer is the entry, by its place in the log. -/
theorem ownLog_producerOf {n : Nat} (h : e.slot = some n) : (s.ownLog srcA srcB e).2.producerOf n =
    some (((s.ownLog srcA srcB e).1.addr - m.logBase.toNat) / 64) := by
  have hbase := (snapshots_logged (s.sqAt s.sq) s.lane (srcA.toList ++ srcB.toList) ((s.sqAt s.sq).mcore s.lane)).logBase
  rw [hm] at hbase
  rw [allocate_producerOf, if_pos (show (s.ownEnt srcA srcB e).slot = some n from h), MCore.nextIndex, State.snaps, hm, hbase]
  rw [← hm]
  rfl

section
variable (hrec : m.recording = true) (hsrc : ∀ n ∈ srcA.toList ++ srcB.toList, (m.producerOf n).isSome = true)
include hsrc

/-- Where every source has a producer the own entry is the only one. -/
theorem snaps_nil : s.snaps srcA srcB = ([], m) := by
  rw [State.snaps, hm]
  exact snapshots_nil hsrc

theorem ownLog_produced : s.ownLog srcA srcB e = m.allocate (s.ownEnt srcA srcB e) := by
  rw [State.ownLog, snaps_nil hm hsrc]

include hrec

theorem logEntries_overflow (h : m.logLimit.toNat < (m.logPos + 64).toNat) :
    logEntries srcA srcB e s = .error (.trap 5 m.logPos) := by
  have hmoved : m.logPos + 64 ≠ m.logPos := by bv_omega
  have hfull : ¬MCore.inArenas m (m.allocate (s.ownEnt srcA srcB e)).2 = true := by
    rw [MCore.inArenas, decide_eq_true_eq]
    exact fun ⟨hlog, _⟩ => hlog.elim hmoved (Nat.not_le.mpr h)
  rw [logEntries_on hm hrec, ownLog_produced hm hsrc, if_neg hfull]
  exact congrArg (fun x => Except.error (Stop.trap 5 x)) ((BitVec.ofNat_toNat ..).trans (BitVec.setWidth_eq _))

theorem logEntries_fits (h : (m.logPos + 64).toNat ≤ m.logLimit.toNat) (hsave : e.saveBytes = 0) (hgrad : e.gradBytes = 0) :
    ∃ l m', logEntries srcA srcB e s = .ok (l, m') := by
  have hfit : MCore.inArenas m (m.allocate (s.ownEnt srcA srcB e)).2 = true := by
    rw [MCore.inArenas, decide_eq_true_eq]
    refine ⟨.inr h, .inl ?_, .inl ?_⟩
    · rw [allocate_savePos, show (s.ownEnt srcA srcB e).saveBytes = 0 from hsave]
      exact BitVec.add_zero _
    · rw [allocate_gradPos, show (s.ownEnt srcA srcB e).gradBytes = 0 from hgrad]
      exact BitVec.add_zero _
  rw [logEntries_on hm hrec, ownLog_produced hm hsrc, if_pos hfit]
  exact ⟨_, _, rfl⟩
end
end

/-! ### The words -/

theorem reversing_eq_false {k : Square} {lane : Nat} (h : ∀ c ∈ k.mq, ¬(c.kind = .mrev ∧ c.hdr.lane = lane)) :
    k.reversing lane = false := by
  rw [Square.reversing, List.any_eq_false]
  intro c hc
  rw [Bool.and_eq_true, beq_iff_eq, beq_iff_eq]
  exact h c hc

/-- Settles O49: MCLAIM and MREL by who holds what, MLOG, MREC and MREV by their checks in order, the log by its
allocations. -/
theorem matrixControl : Obligations.MatrixControl := by
  refine ⟨?claims, ?settings, ?log⟩
  case claims =>
    intro d a b s t x y hr k lane taken clash mine busy
    refine ⟨fun hl h u hw => mclaim_clashes hr hl h hw, fun hl h => ?_, mrel_ill hr, mrel_waits hr,
      fun hl hm hrec hfree => ?_⟩
    · refine ⟨k.claimed x (y.getLsbD 0) (t.lane, t.kdom), fun n hn hx => ?_, fun n _ => claimed_slot_unmasked, rfl, rfl,
        fun u hw => mclaim_claims hr hl h hw⟩
      rw [claimed_slot_mask hn hx]
      exact ⟨claimedBy_claim .., fun hfree => claimedBy_decl hfree _⟩
    · refine ⟨_, mrel_releases hr hl hm hrec hfree, ?_⟩
      rw [State.sqAt_setSq_same]
      exact ⟨fun n => released_slot_mask, fun n _ => released_slot_unmasked, released_acc⟩
  case settings =>
    intro d a s t x hr k lane m quiet
    refine ⟨?_, fun hl h => ?_, fun hl => ⟨?_, ?_⟩, ?_, ?_⟩
    · intro hl hx hc hp v hv h0 h2 h4 u0 u1 u2 hu0 hu1 hu2 hq
      obtain ⟨harmed, hlb, hll, hsb, hsl, hgb, hgl⟩ := setArenas_fields ((u2.sqAt u2.sq).mcore u2.lane) v
      have hval (i : Nat) : (wd (v.getD i 0)).toNat = v.getD i 0 :=
        (BitVec.toNat_ofNat ..).trans (Nat.mod_eq_of_lt (logRecord_lt t x i))
      exact ⟨_, harmed, by rw [hlb, hval], by rw [hll, hval], by rw [hsb, hval], by rw [hsl, hval], by rw [hgb, hval],
        by rw [hgl, hval], mlog_completes hr hl hx hc hp hv h0 h2 h4 hu0 hu1 hu2 hq⟩
    · refine mrec_completes hr hl fun hx => ?_
      obtain ⟨harmed, hroom, hquiet⟩ := h hx
      exact ⟨harmed, hroom, reversing_eq_false hquiet⟩
    · exact mrev_ill hr hl
    · intro hm harmed h w happ
      obtain ⟨u, hu, hsq⟩ := mrev_reverses hr hl hm harmed happ
      refine ⟨t.revCmd x h, u, hu, ?_⟩
      rw [hsq, appended_mq, appended_mcore]
      exact ⟨rfl, rfl, rfl, rfl, rfl, rfl, rfl, rfl, rfl, rfl, rfl⟩
    · exact fun hl hx u hw => mseq_counts hr hl hx hw
    · exact fun hl u hw => mqw_swaps hr hl hw
  case log =>
    intro srcA srcB e s m srcs lines grad save
    refine ⟨logEntries_off rfl, fun hrec l m' hl => ?_, fun hrec hsrc => ⟨?_, ?_⟩⟩
    · obtain ⟨rfl, rfl, hfit⟩ := logEntries_ok rfl hrec hl
      have hlog := ownLog_logged (srcA := srcA) (srcB := srcB) (e := e) (s := s)
      refine ⟨_, _, rfl, rfl, rfl, rfl, rfl, rfl, rfl, rfl, rfl, rfl, rfl, fun x hx => isSnapshot_of_mem hx,
        fun n hn hp => exists_snapshot hn hp, hlog.logPos, ?_, ?_, hlog.addr, fun n hn => ownLog_producerOf rfl hn, hfit⟩
      · rw [hlog.savePos, List.sum_eq_foldl]
        rfl
      · rw [hlog.gradPos, List.sum_eq_foldl]
        rfl
    · exact logEntries_overflow rfl hrec hsrc
    · exact logEntries_fits rfl hrec hsrc

end Sys2Proof.Machine
end

section
/-! PROOF. The eight fills queue their command (14 R326 to R328, R343, R345): O50 -/

namespace Sys2Proof.Machine
open Sys2Proof.Safety

/-! ### A fill as its word asks for it (14 R326 to R328) -/

/-- The operands of a fill: its form, its matrix, its slot, its region operand's register, what it has read of general
registers, and the state after that. -/
structure FillAsk where
  form : FillForm
  isB : Bool
  d : BitVec 6
  a : BitVec 6
  x : Word
  y : Word
  t : State

namespace FillAsk
variable (f : FillAsk)

/-- The region operand. -/
def region : Region := if f.form = .rg then f.t.qreg f.a.toNat else Region.null

/-- The type that the format shadow names. -/
def ty : Nat := (if f.isB then f.t.cur.xfb else f.t.cur.xfa).toNat

/-- The address of the scales, 0 where there are none. -/
def scales : Nat := (if f.isB then f.t.cur.xsb else f.t.cur.xsa).toNat

/-- The rows of the region's hull or of the control. -/
def rows : Nat :=
  match f.region.hull4 with
  | some h => ((h.getD 1 (0, 1)).2 - (h.getD 1 (0, 1)).1).toNat
  | none => f.y.toNat % 256 + 1

/-- The columns of the region's hull or of the control. -/
def cols : Nat :=
  match f.region.hull4 with
  | some h => ((h.getD 0 (0, 1)).2 - (h.getD 0 (0, 1)).1).toNat
  | none => f.y.toNat / 256 % 256 + 1

/-- The bytes from one local row to the next. -/
def pitch : Nat := f.y.toNat / 2 ^ 32

/-- The state that the slot takes. -/
def decl : Decl := ⟨f.ty, f.rows, f.cols, if f.scales = 0 then 0 else if f.isB then 2 else 1⟩

/-- The neighbour square that a form of the street or avenue names. -/
def neighbour : Option Nat := neighbourOf f.t.sq (f.form == .street) (f.x.getLsbD 8)

/-- The form reads a slot of a neighbour square. -/
def ofNeighbour : Bool := f.form == .street || f.form == .avenue

/-- Where the fill reads (R327). -/
def source : FillSrc :=
  if f.ofNeighbour then .nbr (f.neighbour.getD 0) (f.x.toNat % 64)
  else if f.form = .loc then .loc f.x
  else if f.form == .rg && f.region.boxes.isEmpty then .nothing
  else .reg f.region

/-- The fill's own entry in record mode, with its region's descriptor (R343, R345). -/
def entry (de : Option Desc) : LogEnt :=
  { addr := 0, word := 0, kind := 1, core := 0, sc := false, rdy := f.y.getLsbD 24
    sv := f.y.getLsbD 25 || f.form == .street || f.form == .avenue || (f.form == .rg && !(de.any f.region.plain))
    entry := if f.y.getLsbD 24 then f.y.toNat / 2 ^ 16 % 256 else 0, slot := some f.d.toNat, srcA := none, srcB := none
    src := match f.form, de, f.region.hull4 with
      | .loc, _, _ => f.x.toNat
      | .rg, some e, some hl => cellAddr e ((hl.map (·.1)).take f.region.rank)
      | _, _, _ => 0
    scale := f.scales, saved := 0, grad := 0, savedC := 0, decl := some f.decl
    pitch := match f.form, de with
      | .loc, _ => f.y.toNat / 2 ^ 32
      | .rg, some e => (BitVec.ofInt 32 (e.strides.getD 1 0)).toNat
      | _, _ => 0 }

/-- The command that is appended. -/
def cmd (dt8 : List (BitVec 32)) (l : List LogEnt) (h : CmdHdr) : MCmd :=
  { hdr := h, kind := .fill, a := f.d.toNat, b := 0, reads := [], writes := [f.d.toNat], acc := false, src := f.source
    decl := some f.decl, scale := wd f.scales, pitch := f.pitch, dt8 := dt8, rdy := none, begun := false, log := l
    entries := 0, arena := 0 }

/-- The region operand that the command carries. -/
def operand : Option Region := if f.form = .rg then some f.region else none

/-- The checks of a fill, in their order, with the states that its accesses leave (R326 to R328). -/
structure Accepted (u u' u'' : State) (r : FillRegion) : Prop where
  holds : f.t.holdsSlot f.d.toNat = true
  neighbour : f.ofNeighbour = true → f.neighbour.isSome = true
  aligned : f.form = .loc → fillAligned f.ty f.x.toNat = true
  apart : f.form = .loc → rowBytes f.ty f.cols ≤ f.pitch
  rowsRead : f.form = .loc → rowsCheck f.x.toNat f.pitch f.rows (rowBytes f.ty f.cols) f.t = .ok ()
  scalesRead : (scaleCheck f.scales f.decl.scaleCount f.t).ans = .ok u
  regionRead : (fillRegion f.region u).ans = .ok (r, u')
  regionRights : (r.check u').ans = .ok u''
  fits : shapeFits f.ty f.rows f.cols = true
  scaled : f.scales ≠ 0 → 3 < f.ty ∧ f.ty ≠ 9
  unscaled : f.scales = 0 → isSub f.ty = false
  regionFits : r.bad f.ty = false
  table : f.ty = 9 → u''.cur.xdt = u''.core.dt8Tag
  armed : ((u''.sqAt u''.sq).mcore u''.lane).recording = true → ((u''.sqAt u''.sq).mcore u''.lane).armed = true

end FillAsk

/-! ### Fields of a fill's control (14 R326) -/

theorem bitsW_rows (y : Word) : bitsW y 7 0 = y.toNat % 256 := bitsW_low y 7

theorem bitsW_cols (y : Word) : bitsW y 15 8 = y.toNat / 256 % 256 := rfl

theorem bitsW_entry (y : Word) : bitsW y 23 16 = y.toNat / 2 ^ 16 % 256 := rfl

theorem bitsW_pitch (y : Word) : bitsW y 63 32 = y.toNat / 2 ^ 32 := by
  have := y.isLt
  exact Nat.mod_eq_of_lt (by omega)

theorem ofIntN_eq_toNat (n : Nat) (i : Int) : ofIntN n i = (BitVec.ofInt n i).toNat := (BitVec.toNat_ofInt ..).symm

theorem shapeFits_limit {t rows cols : Nat} (h : shapeFits t rows cols = true) : (slotLimit t).isNone = false := by
  unfold shapeFits at h
  split at h
  · next e => rw [e]; rfl
  · cases h

/-- A first part that is made only in one case, and is done there. -/
theorem Run.ans_ite_lift {α : Type} {c : Prop} [Decidable c] {m : Except Stop Unit} {g : Unit → Run α} {r : Except Stop α}
    (h : c → m = .ok ()) (hg : (g ()).ans = r) : (if c then (liftM m : Run Unit) >>= g else g ()).ans = r := by
  split
  · exact Run.stepLift (h ‹_›) hg
  · exact hg

/-! ### The run of a fill -/

/-- What a fill reads of general registers. -/
def FillForm.read (form : FillForm) (a b : BitVec 6) (s : State) : Except Stop (Word × Word × State) :=
  match form with
  | .rg => do
    let (y, s) ← readReg b.toNat s
    pure (0, y, s)
  | _ => readTwo a b s

namespace FillAsk

section
variable {f : FillAsk} {u u' u'' : State} {r : FillRegion} (hacc : f.Accepted u u' u'' r)
include hacc

theorem Accepted.not_ill : ¬(!f.t.holdsSlot f.d.toNat || (f.ofNeighbour && f.neighbour.isNone)) = true := by
  rw [hacc.holds, Bool.not_true, Bool.false_or, Bool.and_eq_true, Option.isNone_iff_eq_none]
  intro ⟨hn, hnone⟩
  have hsome := hacc.neighbour hn
  rw [hnone] at hsome
  cases hsome

theorem Accepted.not_misaligned : ¬(f.form == .loc && !fillAligned f.ty f.x.toNat) = true := by
  rw [Bool.and_eq_true, beq_iff_eq]
  intro ⟨hloc, hne⟩
  rw [hacc.aligned hloc] at hne
  cases hne

theorem Accepted.not_outside :
    ¬(!shapeFits f.ty f.rows f.cols || (f.form == .loc && decide (f.pitch < rowBytes f.ty f.cols))) = true := by
  rw [hacc.fits, Bool.not_true, Bool.false_or, Bool.and_eq_true, beq_iff_eq, decide_eq_true_eq]
  exact fun ⟨hloc, hlt⟩ => Nat.not_lt.mpr (hacc.apart hloc) hlt

theorem Accepted.not_unscalable :
    ¬((f.scales != 0 && (decide (f.ty ≤ 3) || f.ty == 9)) || (f.scales == 0 && isSub f.ty)) = true := by
  simp only [Bool.or_eq_true, Bool.and_eq_true, bne_iff_ne, decide_eq_true_eq, beq_iff_eq]
  rintro (⟨h0, h3 | h9⟩ | ⟨h0, hs⟩)
  · exact Nat.not_le.mpr (hacc.scaled h0).1 h3
  · exact (hacc.scaled h0).2 h9
  · exact Bool.false_ne_true ((hacc.unscaled h0).symm.trans hs)

theorem Accepted.not_stale : ¬(f.ty == 9 && u''.cur.xdt != u''.core.dt8Tag) = true := by
  rw [Bool.and_eq_true, beq_iff_eq, bne_iff_ne]
  exact fun ⟨h9, hne⟩ => hne (hacc.table h9)

theorem Accepted.not_unarmed :
    ¬(((u''.sqAt u''.sq).mcore u''.lane).recording && !((u''.sqAt u''.sq).mcore u''.lane).armed) = true := by
  rw [Bool.and_eq_true, Bool.not_eq_true']
  exact fun ⟨hrec, hnot⟩ => Bool.false_ne_true (hnot.symm.trans (hacc.armed hrec))
end

variable {f : FillAsk} {b : BitVec 6} {s u u' u'' w : State} {r : FillRegion} {l : List LogEnt} {m : MCore} {h : CmdHdr}

/-- A fill whose checks let it through is appended with its log entries. -/
theorem run_appends (hread : f.form.read f.a b s = .ok (f.x, f.y, f.t)) (hacc : f.Accepted u u' u'' r)
    (hlog : logEntries none none (f.entry (r.desc.map (·.1))) u'' = .ok (l, m))
    (happ : appendCmd 1 f.operand u'' = .ok (h, w)) :
    ∃ v, (fillBody f.form f.isB f.d f.a b s).ans = .ok v ∧ v.sqAt w.sq =
      (w.sqAt w.sq).appended w.lane [(f.d.toNat, some f.decl)] m (f.cmd u''.core.dt8 l h) ∧ v.mem = w.mem := by
  obtain ⟨v, hv, hsq, hmem⟩ := appendMatrix_ok happ [(f.d.toNat, some f.decl)] l m [] (f.cmd u''.core.dt8 l)
  refine ⟨v, Run.step (a := (f.x, f.y, f.t)) ?read ?rest, hsq, hmem⟩
  case read =>
    revert hread
    cases f.form with
    | rg =>
      intro hread
      obtain ⟨_, hr, e⟩ := bind_ok.mp hread
      exact Run.stepLift hr e
    | loc | street | avenue => exact id
  dsimp only
  simp only [bitW_eq_getLsbD, bitsW_rows, bitsW_cols, bitsW_entry, bitsW_pitch, bitsW_slot, ofIntN_eq_toNat,
    beq_iff_eq, ← Bool.or_assoc]
  refine (congrArg Run.ans (if_neg hacc.not_ill)).trans ?_
  refine (congrArg Run.ans (if_neg hacc.not_misaligned)).trans ?_
  refine Run.ans_ite_lift hacc.rowsRead ?_
  refine Run.step hacc.scalesRead <| Run.step hacc.regionRead <| Run.step hacc.regionRights ?_
  refine (congrArg Run.ans (if_neg (ne_true_of_eq_false (shapeFits_limit hacc.fits)))).trans ?_
  refine (congrArg Run.ans (if_neg hacc.not_outside)).trans ?_
  refine (congrArg Run.ans (if_neg hacc.not_unscalable)).trans ?_
  refine (congrArg Run.ans (if_neg (ne_true_of_eq_false hacc.regionFits))).trans ?_
  refine (congrArg Run.ans (if_neg hacc.not_stale)).trans ?_
  refine (congrArg Run.ans (if_neg hacc.not_unarmed)).trans ?_
  exact Run.stepLift hlog hv

end FillAsk

/-! ### The words -/

/-- The word of a fill's form and matrix. -/
def fillWord (form : FillForm) (isB : Bool) (d a b : BitVec 6) : Instr :=
  match form, isB with
  | .loc, false => .mlda d a b | .rg, false => .mldaRg d a b
  | .street, false => .mldaSt d a b | .avenue, false => .mldaAv d a b
  | .loc, true => .mldb d a b | .rg, true => .mldbRg d a b
  | .street, true => .mldbSt d a b | .avenue, true => .mldbAv d a b

theorem exec_fillWord (form : FillForm) (isB : Bool) (d a b : BitVec 6) (s : State) :
    exec (fillWord form isB d a b) s = guardedRun (fillWord form isB d a b) s (fillBody form isB d a b) := by
  cases form <;> cases isB <;> rfl

theorem fillWord_completes {form : FillForm} {isB : Bool} {d a b : BitVec 6} {s v : State}
    (hl : legal s (fillWord form isB d a b) = true) (h : (fillBody form isB d a b s).ans = .ok v) :
    Completes (fillWord form isB d a b) s v :=
  Completes.of_run hl (fun s => guardedRun _ s (fillBody form isB d a b)) (exec_fillWord ..) rfl h

/-- A region form reads one register and the others two (R326, R327). -/
theorem FillForm.read_ok {form : FillForm} {a b : BitVec 6} {s t : State} {x y : Word}
    (h : if form = .rg then readReg b.toNat s = .ok (y, t) ∧ x = 0 else readTwo a b s = .ok (x, y, t)) :
    form.read a b s = .ok (x, y, t) := by
  cases form with
  | rg =>
    obtain ⟨hr, rfl⟩ := h
    exact bind_ok.mpr ⟨_, hr, rfl⟩
  | loc | street | avenue => exact h

section
variable (f : FillAsk)

theorem fillAsk_rows_none (h : f.region.hull4 = none) :
    f.rows = f.y.toNat % 256 + 1 ∧ f.cols = f.y.toNat / 256 % 256 + 1 := by
  rw [FillAsk.rows, FillAsk.cols, h]
  exact ⟨rfl, rfl⟩

theorem fillAsk_rows_some {hl : List (Int × Int)} (h : f.region.hull4 = some hl) :
    f.rows = ((hl.getD 1 (0, 1)).2 - (hl.getD 1 (0, 1)).1).toNat ∧
      f.cols = ((hl.getD 0 (0, 1)).2 - (hl.getD 0 (0, 1)).1).toNat := by
  rw [FillAsk.rows, FillAsk.cols, h]
  exact ⟨rfl, rfl⟩

theorem fillAsk_ofNeighbour (h : f.ofNeighbour = true) : f.form = .street ∨ f.form = .avenue := by
  rwa [FillAsk.ofNeighbour, Bool.or_eq_true, beq_iff_eq, beq_iff_eq] at h

theorem fillAsk_scales_lt : f.scales < 2 ^ 64 := BitVec.isLt _

theorem fillAsk_source_loc (h : f.form = .loc) : f.source = .loc f.x := by
  simp only [FillAsk.source, FillAsk.ofNeighbour, h]
  rfl

theorem fillAsk_source_rg (h : f.form = .rg) :
    f.source = if f.region.boxes = [] then .nothing else .reg f.region := by
  simp only [FillAsk.source, FillAsk.ofNeighbour, h, ← List.isEmpty_iff]
  rfl

theorem fillAsk_source_neighbour (h : f.ofNeighbour = true) :
    f.source = .nbr (f.neighbour.getD 0) (f.x.toNat % 64) := if_pos h
end

/-- Settles O50: every fill is one run, by its form and matrix, and its checks stand in one order. -/
theorem matrixFillsAreQueued : Obligations.MatrixFillsAreQueued := by
  intro isB d a b s t u u' u'' w x y h form r rows cols i hread q ty sa dec nbr hdims hl hholds hnbr hloc hscale hregion
    hrights hfits hscaled hunscaled hbad htable harmed de entry l m hlog happ
  let f : FillAsk := ⟨form, isB, d, a, x, y, t⟩
  have hdims : rows = f.rows ∧ cols = f.cols := by
    cases hq : q.hull4 with
    | none =>
      rw [hq] at hdims
      rw [(fillAsk_rows_none f hq).1, (fillAsk_rows_none f hq).2]
      exact hdims
    | some hl =>
      rw [hq] at hdims
      rw [(fillAsk_rows_some f hq).1, (fillAsk_rows_some f hq).2]
      exact hdims
  obtain ⟨rfl, rfl⟩ := hdims
  have hacc : f.Accepted u u' u'' r :=
    { holds := hholds, neighbour := fun hn => hnbr (fillAsk_ofNeighbour f hn), aligned := fun h => (hloc h).1
      apart := fun h => (hloc h).2.1, rowsRead := fun h => (hloc h).2.2, scalesRead := hscale, regionRead := hregion
      regionRights := hrights, fits := hfits, scaled := hscaled, unscaled := hunscaled, regionFits := hbad
      table := htable, armed := harmed }
  obtain ⟨v, hv, hsq, hmem⟩ := f.run_appends (FillForm.read_ok hread) hacc hlog happ
  refine ⟨f.cmd u''.core.dt8 l h, v, fillWord_completes hl hv, ?_⟩
  have hslot := appended_slot_one (w.sqAt w.sq) w.lane m (f.cmd u''.core.dt8 l h) d.toNat (some f.decl)
  rw [hsq, appended_mq, appended_mcore, hslot]
  refine ⟨rfl, rfl, rfl, rfl, rfl, ?scale, rfl, rfl, rfl, ?source, rfl, rfl, rfl,
    fun n hn => appended_slot_other_one _ _ _ _ _ hn, hmem⟩
  case scale => exact (BitVec.toNat_ofNat ..).trans (Nat.mod_eq_of_lt (fillAsk_scales_lt f))
  case source =>
    change f.source = _
    cases hform : form with
    | loc => exact fillAsk_source_loc f hform
    | rg => exact fillAsk_source_rg f hform
    | street | avenue => exact fillAsk_source_neighbour f (by rw [FillAsk.ofNeighbour]; simp [f, hform])

end Sys2Proof.Machine
end

section
/-! PROOF. The tile opcodes queue their command (14 R335 to R339, R343, R344): O51 -/

namespace Sys2Proof.Machine
open Sys2Proof.Safety

/-! ### What a tile opcode uses (14 R335, R344) -/

theorem usesAcc_eq (op : TileOp) : op.usesAcc = decide (op ≠ .trn) := by
  cases op <;> rfl

theorem savesAcc_eq (op : TileOp) :
    op.savesAcc = decide (op ∈ [.mul, .sclMul, .exp, .rmax, .relu, .sqrelu, .tanh]) := by
  cases op <;> rfl

/-- The slot that an opcode writes. -/
def TileOp.dst (op : TileOp) (a : Nat) : Option Nat := if op.writesSlot then some a else none

theorem dst_toList (op : TileOp) (a : Nat) : (op.dst a).toList = if op.writesSlot then [a] else [] := by
  unfold TileOp.dst
  split <;> rfl

/-- The executing core holds the slots that an opcode names, and the accumulator unless it is TTRN. -/
def State.mayTile (s : State) (op : TileOp) (named : List Nat) : Prop :=
  (∀ n ∈ named, s.holdsSlot n = true) ∧ (op ≠ .trn → s.holdsAcc = true)

theorem mayTile_iff {s : State} {op : TileOp} {named : List Nat} :
    (!named.all s.holdsSlot || (op.usesAcc && !s.holdsAcc)) = false ↔ s.mayTile op named := by
  rw [Bool.or_eq_false_iff, Bool.not_eq_false', List.all_eq_true, usesAcc_eq, Bool.and_eq_false_imp, decide_eq_true_eq,
    Bool.not_eq_false']
  rfl

/-- The state that a source slot is declared with. -/
def State.declOf (s : State) (r : Option Nat) : Option Decl := r.bind (fun n => ((s.sqAt s.sq).slot n).decl)

section
variable {s : State} {r : Option Nat}

theorem declOf_declared (h : ∀ n ∈ r.toList, ((s.sqAt s.sq).slot n).decl.isSome = true) :
    (r.isSome && (s.declOf r).isNone) = false := by
  cases r with
  | none => rfl
  | some n =>
    have hn := h n List.mem_cons_self
    rw [← Option.not_isSome, State.declOf, Option.bind_some, hn]
    rfl

theorem declOf_fresh {p : Prop} (h : ∀ n ∈ r.toList, ((s.sqAt s.sq).slot n).decl.map (·.ty) = some 9 → p)
    (h9 : (s.declOf r).any (fun d => d.ty == 9) = true) : p := by
  cases r with
  | none => cases h9
  | some n =>
    obtain ⟨d, hd, hty⟩ : ∃ d, ((s.sqAt s.sq).slot n).decl = some d ∧ d.ty = 9 := by
      simpa only [State.declOf, Option.bind_some, Option.any_eq_true, beq_iff_eq] using h9
    exact h n List.mem_cons_self (by rw [hd, Option.map_some, hty])
end

/-- A tile opcode's own entry in record mode (R343). -/
def TileOp.entry (op : TileOp) (rdy : Option Nat) (dst : Option Nat) (res : Option Decl) : LogEnt :=
  { addr := 0, word := 0, kind := 3, core := 0, sv := op.writesSlot, sc := op.savesAcc, rdy := rdy.isSome
    entry := rdy.getD 0, slot := dst, srcA := none, srcB := none, src := 0, scale := 0, saved := 0, grad := 0, savedC := 0
    decl := res, pitch := 0 }

/-- The command that a tile opcode appends, whose word names `a` and `b`. -/
def TileOp.cmd (op : TileOp) (rdy : Option Nat) (a b : Nat) (src : Option Nat × Option Nat) (dst : Option Nat)
    (res : Option Decl) (dt8 : List (BitVec 32)) (l : List LogEnt) (h : CmdHdr) : MCmd :=
  { hdr := h, kind := .tile op, a := a, b := b, reads := src.1.toList ++ src.2.toList, writes := dst.toList
    acc := op.usesAcc, src := .nothing, decl := res, scale := 0, pitch := 0, dt8 := dt8, rdy := rdy, begun := false
    log := l, entries := 0, arena := 0 }

/-! ### The run of a tile opcode (14 R336) -/

section
variable {op : TileOp} {rdy : Option Nat} {a b : Nat} {s : State} {src : Option Nat × Option Nat} {dst : Option Nat}
  (hsrc : op.sources a b = src) (hdst : op.dst a = dst)
include hsrc hdst

theorem tileBody_ill (h : ¬s.mayTile op (src.1.toList ++ src.2.toList ++ dst.toList)) : tileBody op rdy a b s = ill s := by
  subst hsrc hdst
  exact if_pos (by rwa [← Bool.not_eq_false, mayTile_iff])

theorem tileBody_appends {w : State} {h : CmdHdr} {l : List LogEnt} {m : MCore}
    (hm : s.mayTile op (src.1.toList ++ src.2.toList ++ dst.toList))
    (hdecl : ∀ n ∈ src.1.toList ++ src.2.toList, ((s.sqAt s.sq).slot n).decl.isSome = true ∧
      (((s.sqAt s.sq).slot n).decl.map (·.ty) = some 9 → s.cur.xdt = s.core.dt8Tag))
    (hok : op.operandsOk (s.declOf src.1) (s.declOf src.2) s.cur.xfo.toNat = true)
    (hlog : logEntries src.1 src.2 (op.entry rdy dst (op.result (s.declOf src.2) s.cur.xfo.toNat)) s = .ok (l, m))
    (happ : appendCmd 1 none s = .ok (h, w)) :
    ∃ v, tileBody op rdy a b s = .ok v ∧ v.sqAt w.sq = (w.sqAt w.sq).appended w.lane
      (dst.toList.map (fun n => (n, op.result (s.declOf src.2) s.cur.xfo.toNat))) m
      (op.cmd rdy a b src dst (op.result (s.declOf src.2) s.cur.xfo.toNat) s.core.dt8 l h) ∧ v.mem = w.mem := by
  have hdeclA := declOf_declared (s := s) (r := src.1) fun n hn => (hdecl n (List.mem_append_left _ hn)).1
  have hdeclB := declOf_declared (s := s) (r := src.2) fun n hn => (hdecl n (List.mem_append_right _ hn)).1
  have hundeclared : ¬((src.1.isSome && (s.declOf src.1).isNone) || (src.2.isSome && (s.declOf src.2).isNone)) = true := by
    rw [hdeclA, hdeclB]
    exact Bool.false_ne_true
  have hrules : ¬(!op.operandsOk (s.declOf src.1) (s.declOf src.2) s.cur.xfo.toNat) = true := by
    rw [hok]
    exact Bool.false_ne_true
  have hfresh : ¬(((s.declOf src.1).any (fun d => d.ty == 9) || (s.declOf src.2).any (fun d => d.ty == 9)) &&
      s.cur.xdt != s.core.dt8Tag) = true := by
    rw [Bool.and_eq_true, Bool.or_eq_true, bne_iff_ne]
    rintro ⟨h9 | h9, hne⟩
    · exact hne (declOf_fresh (fun n hn => (hdecl n (List.mem_append_left _ hn)).2) h9)
    · exact hne (declOf_fresh (fun n hn => (hdecl n (List.mem_append_right _ hn)).2) h9)
  obtain ⟨v, hv, hsq, hmem⟩ := appendMatrix_ok happ
    (dst.toList.map (fun n => (n, op.result (s.declOf src.2) s.cur.xfo.toNat))) l m []
    (op.cmd rdy a b src dst (op.result (s.declOf src.2) s.cur.xfo.toNat) s.core.dt8 l)
  refine ⟨v, ?_, hsq, hmem⟩
  subst hsrc hdst
  refine (if_neg (ne_true_of_eq_false (mayTile_iff.mpr hm))).trans ?_
  exact (if_neg hundeclared).trans <| (if_neg hrules).trans <| (if_neg hfresh).trans <| bind_ok.mpr ⟨_, hlog, hv⟩
end

/-! ### The words -/

/-- A word of a tile opcode is the opcode's run, with fields that name the sources and the written slot as `a` and `b` do. -/
def RunsTile (p : TileWord) (a b : Nat) (s : State) : Prop :=
  ∃ x y, p.op.sources x y = p.op.sources a b ∧ p.op.dst x = p.op.dst a ∧
    (legal s p.insn = true → exec p.insn s = finish s (tileBody p.op p.rdy x y s))

section
variable {i : Instr} {op : TileOp} {rdy : Option Nat} {a b x y : Nat} {s : State}

theorem runs_of_guarded (he : exec i s = guarded i s (tileBody op rdy x y)) (hs : op.sources x y = op.sources a b)
    (hd : op.dst x = op.dst a) : RunsTile ⟨i, op, rdy⟩ a b s :=
  ⟨x, y, hs, hd, fun hl => he.trans (guarded_legal _ hl)⟩

theorem runs_of_unguarded (he : exec i s = tactBody op rdy s) (hs : op.sources 0 0 = op.sources a b)
    (hd : op.dst 0 = op.dst a) : RunsTile ⟨i, op, rdy⟩ a b s :=
  ⟨0, 0, hs, hd, fun _ => he⟩
end

theorem tileWords_run (tn : BitVec 8) (a b : BitVec 6) (s : State) :
    ∀ p ∈ tileWords tn a b, RunsTile p a.toNat b.toNat s := by
  simp only [tileWords, List.forall_mem_cons]
  exact ⟨runs_of_guarded rfl rfl rfl, runs_of_guarded rfl rfl rfl, runs_of_guarded rfl rfl rfl, runs_of_guarded rfl rfl rfl,
    runs_of_guarded rfl rfl rfl, runs_of_guarded rfl rfl rfl, runs_of_guarded rfl rfl rfl, runs_of_guarded rfl rfl rfl,
    runs_of_guarded rfl rfl rfl, runs_of_guarded rfl rfl rfl, runs_of_guarded rfl rfl rfl, runs_of_guarded rfl rfl rfl,
    runs_of_guarded rfl rfl rfl, runs_of_guarded rfl rfl rfl, runs_of_guarded rfl rfl rfl, runs_of_guarded rfl rfl rfl,
    runs_of_guarded rfl rfl rfl, runs_of_guarded rfl rfl rfl, runs_of_guarded rfl rfl rfl, runs_of_guarded rfl rfl rfl,
    runs_of_unguarded rfl rfl rfl, runs_of_unguarded rfl rfl rfl, runs_of_unguarded rfl rfl rfl,
    runs_of_unguarded rfl rfl rfl, runs_of_unguarded rfl rfl rfl, runs_of_unguarded rfl rfl rfl, List.forall_mem_nil _⟩

section
variable (k : Square) (lane : Nat) (m : MCore) (c : MCmd) {dst : Option Nat} {res : Option Decl} {n : Nat}

theorem appended_option_decl (h : n ∈ dst.toList) :
    ((k.appended lane (dst.toList.map (fun n => (n, res))) m c).slot n).decl = res := by
  cases dst with
  | none => cases h
  | some j =>
    obtain rfl := List.mem_singleton.mp h
    exact congrArg MSlot.decl (appended_slot_one ..)

theorem appended_option_other (h : n ∉ dst.toList) :
    (k.appended lane (dst.toList.map (fun n => (n, res))) m c).slot n = k.slot n := by
  refine appended_slot_other _ _ _ _ fun p hp e => ?_
  obtain ⟨j, hj, rfl⟩ := List.mem_map.mp hp
  exact h (e ▸ hj)
end

/-- Settles O51: every word of an opcode is one run, with its checks in their order. -/
theorem tileOpcodesAreQueued : Obligations.TileOpcodesAreQueued := by
  intro tn a b s p hp hl k src dst ready
  obtain ⟨x, y, hsrc, hdst, hrun⟩ := tileWords_run tn a b s p hp
  have hlist : (p.op.dst a.toNat).toList = dst := dst_toList ..
  refine ⟨fun hready => ?_, ?_⟩
  · refine (hrun hl).trans ?_
    rw [tileBody_ill hsrc hdst (by rwa [hlist])]
    exact finish_stop s (.trap 1 (illInfo s)) fun _ => nofun
  · intro hready h w hdecl hok res entry l m hlog happ
    have hentry : entry = p.op.entry p.rdy (p.op.dst a.toNat) res := by
      simp only [entry, TileOp.entry, savesAcc_eq, ← hlist, Option.head?_toList]
    rw [hentry] at hlog
    obtain ⟨v, hv, hsq, hmem⟩ := tileBody_appends hsrc hdst (by rwa [hlist]) hdecl hok hlog happ
    refine ⟨p.op.cmd p.rdy x y (p.op.sources a.toNat b.toNat) (p.op.dst a.toNat) res s.core.dt8 l h, v,
      (hrun hl).trans (by rw [hv, finish_ok]), ?_⟩
    rw [hsq, appended_mq, appended_mcore]
    exact ⟨rfl, rfl, rfl, rfl, hlist, usesAcc_eq _, rfl, rfl, rfl, rfl,
      fun n hn => appended_option_decl _ _ _ _ (by rwa [hlist]),
      fun n hn => appended_option_other _ _ _ _ (by rwa [hlist]), hmem⟩

end Sys2Proof.Machine
end
